-- ==== Sys2Proof/Word.lean ====
section
/-! DEFINITION. The plain types every other file uses: bytes, 64-bit words, register names and the
sparse table. -/

namespace Sys2Proof

/-- A byte (R3). -/
abbrev Byte := BitVec 8

/-- A double: the 64-bit content of a scalar register (R3, R306). -/
abbrev Word := BitVec 64

/-- The name of a scalar register s0 to s31 (R267). -/
abbrev Reg := Fin 32

/-- The name of a vector register v0 to v15 (R267). -/
abbrev VReg := Fin 16

/-- The content of one vector register: one chunk of 512 bits (R354). -/
abbrev Chunk := BitVec 512

/-- A sparse table from numbers to values: entries by rising key. What a key without an entry holds
is given where the table is read. -/
abbrev Table (α : Type) := List (Nat × α)

end Sys2Proof
end

