-- ==== Sys2Proof/Syntax.lean ====
section
/-! DEFINITION. The instructions of the part: one constructor for every row of the opcode table.
The first 229 have an encoding (R269 to R287). The rest are the part's own steps, which no word
encodes: they take the unit they act on, and the choice the spec leaves open, as arguments. -/

namespace Sys2Proof

/-- The scalar floating types, in the order of the codes of R281. -/
inductive FTy where
  | f64 | f32 | f16 | bf16
  deriving DecidableEq, Repr

/-- The element types of the VALU forms, in the order of the codes of R282. -/
inductive VTy where
  | i8 | i16 | i32 | i64 | f32 | bf16 | f16
  deriving DecidableEq, Repr

/-- The two sizes of an atomic (R280). -/
inductive ASz where
  | w | d
  deriving DecidableEq, Repr

/-- The forms of a gang (R182, R286). -/
inductive GangForm where
  | pair | tile | tpair
  deriving DecidableEq, Repr

/-- What a plug-in call comes to (R55): a value in s1, a fault, or a run past its budget. -/
inductive PlugRes where
  | value (w : Word) | fault | overrun
  deriving DecidableEq, Repr

/-- How a request at Q0 to the host range completes (R14). -/
inductive HostStatus where
  | ok | unsupported | abort
  deriving DecidableEq, Repr

/-- The kinds of SRAM of R29, for the scrub and the error counters. -/
inductive SramKind where
  | l1 | cellar | l2 | accumulator | shadow | icache
  deriving DecidableEq, Repr

/-- A remote access carried on ferry virtual channel 0 (R19, R222). The operation of an atomic is its
op code in R280. -/
inductive RemoteOp where
  | load (bytes : Nat)
  | store (data : List Byte)
  | nibble (high : Bool) (data : BitVec 4)
  /-- The active bytes of a granule, written together (R209). -/
  | mask (data : List (Option Byte))
  | atomic (op : Nat) (double : Bool) (operand expected : Word) (fpctl draw : Nat)
  deriving DecidableEq, Repr

/-- An operation that reads and changes nothing. -/
def RemoteOp.isLoad : RemoteOp → Bool
  | .load _ => true
  | _ => false

namespace Machine

/-- A 64-byte record: eight doublewords (R87). -/
structure Rec where
  q0 : Word
  q1 : Word
  q2 : Word
  q3 : Word
  q4 : Word
  q5 : Word
  q6 : Word
  q7 : Word
  deriving DecidableEq, Repr

/-- What a count delta carries beside its sum for the launch of its time (R136): the class of an
abort, or the error mark of a drop. -/
inductive Mark where
  | abort (cls : Nat) | drop
  deriving DecidableEq, Repr

/-- A delta of a count (R122, R124). A request delta carries the request image. -/
structure Delta where
  g : Nat
  st : Nat
  t : Word
  n : Int
  request : Option Rec
  marks : List Mark
  deriving DecidableEq, Repr

end Machine

/-- What a flit of type 1 carries (R19): accesses on channel 0, their answers and rejects on channel 1, records on
2, counts and requests on their way to a home root and the frontiers it announces on 3, with the launches that other
modules open there (R126, R127) and the cancel marks of the domain (R110), contributions to a collective on 4, external LAUNCH packets on 5. The spec gives the payload no layout. -/
inductive Msg where
  | none
  | access (lc level : Nat) (addr : Word) (op : RemoteOp)
  | response (lc level : Nat) (addr : Word) (ok : Bool) (data : List Byte)
  | reject (lc level : Nat) (addr : Word)
  | launchReject (tenant : Nat)
  | record (r : Machine.Rec)
  | deltas (l : List Machine.Delta)
  | frontier (g st : Nat) (t : Option Word)
  | opening (g st : Nat) (t point : Word) (n f v i : Nat)
  | counted (f v i : Nat)
  | completed (f v i : Nat) (w : Word)
  | mark (g depth : Nat) (t : Word) (err : Bool)
  | marked (g depth : Nat) (t : Word) (err : Bool)
  | unmark (g depth : Nat) (t : Word)
  | matching (g depth : Nat) (t : Word) (f v i : Nat)
  | contribution (g key number lc : Nat) (words : List Word) (data : List (Option (BitVec 128)))
  | launch (tenant : Nat) (key : Word) (packet : List Word) (records : List (List Word))
  deriving DecidableEq, Repr

/-- A ferry flit header (R18). -/
structure FlitHeader where
  type : BitVec 4
  vc : BitVec 3
  seq : BitVec 12
  ack : BitVec 12
  hops : BitVec 3
  srcdev : BitVec 7
  dstdev : BitVec 7
  credits : BitVec 16
  deriving DecidableEq, Repr

/-- A flit: its header and what its payload says. Its CRC-32 follows from them, and goes on the wire after them (R18). -/
structure Flit where
  h : FlitHeader
  msg : Msg
  deriving DecidableEq, Repr

/-- A graph image as the scheduler level reads it (R299 to R303): its `.text` words, data bytes, the p_flags of its three
segments, the fields of `.graph`, and the CELOFF19 relocations it keeps (the word, and S + A). With it go the places that the
scheduler level has chosen for it: the 64 KiB pages of its segments in order, and 8 KiB tables for the walk, by number. -/
structure Image where
  eflags : Nat
  pflags : List (BitVec 32)
  textVa : Word
  text : List (BitVec 32)
  rodataVa : Word
  rodata : List Byte
  dataVa : Word
  data : List Byte
  bss : Nat
  cellar : List Byte
  magic : BitVec 32
  stations : Nat
  exit : Nat
  zero006 : BitVec 16
  codeSize : Nat
  depths : List Nat
  resources : List (BitVec 32)
  handler : Word
  cellarSize : Nat
  zero0A0 : List Byte
  summaries : Table (BitVec 16)
  celoff : List (Nat × Int)
  pages : List Nat
  tables : List Nat
  deriving DecidableEq, Repr

/-- Every instruction and every step of the part: one constructor for each row of the opcode table. -/
inductive Instr where
  -- ALU group (R278, R311 to R315)
  | add (d a b : Reg) | sub (d a b : Reg) | and (d a b : Reg) | or (d a b : Reg)
  | xor (d a b : Reg) | andn (d a b : Reg) | orn (d a b : Reg) | xnor (d a b : Reg)
  | shl (d a b : Reg) | shr (d a b : Reg) | sra (d a b : Reg) | rol (d a b : Reg)
  | ror (d a b : Reg) | lt (d a b : Reg) | ltu (d a b : Reg) | eq (d a b : Reg)
  | ne (d a b : Reg) | min (d a b : Reg) | max (d a b : Reg) | minu (d a b : Reg)
  | maxu (d a b : Reg) | adds (d a b : Reg) | subs (d a b : Reg) | addus (d a b : Reg)
  | subus (d a b : Reg) | mul (d a b : Reg) | mulh (d a b : Reg) | mulhu (d a b : Reg)
  | div (d a b : Reg) | divu (d a b : Reg) | rem (d a b : Reg) | remu (d a b : Reg)
  | bpack (d a b : Reg) | bpack2 (d a b : Reg) | bpack4 (d a b : Reg) | bpack8 (d a b : Reg)
  | bunpk (d a b : Reg) | bunpk2 (d a b : Reg) | bunpk4 (d a b : Reg) | bunpk8 (d a b : Reg)
  | clz (d a : Reg) | ctz (d a : Reg) | popc (d a : Reg) | brev (d a : Reg) | bswap (d a : Reg)
  | sextB (d a : Reg) | sextH (d a : Reg) | sextW (d a : Reg)
  | zextB (d a : Reg) | zextH (d a : Reg) | zextW (d a : Reg)
  -- Immediate and constant forms (R277, R316, R317)
  | addi (d a : Reg) (i : BitVec 16) | andi (d a : Reg) (i : BitVec 16)
  | ori (d a : Reg) (i : BitVec 16) | xori (d a : Reg) (i : BitVec 16)
  | lti (d a : Reg) (i : BitVec 16) | ltui (d a : Reg) (i : BitVec 16)
  | shli (d a : Reg) (n : BitVec 6) | shri (d a : Reg) (n : BitVec 6) | srai (d a : Reg) (n : BitVec 6)
  | lui (d : Reg) (i : BitVec 21) | lhi (d : Reg) (i : BitVec 21) | lco (d : Reg) (i : BitVec 19)
  -- Control flow (R318, R319)
  | j (o : BitVec 26) | jal (o : BitVec 26) | jalr (d a : Reg) (i : BitVec 16)
  | beq (a b : Reg) (o : BitVec 16) | bne (a b : Reg) (o : BitVec 16)
  | blt (a b : Reg) (o : BitVec 16) | bge (a b : Reg) (o : BitVec 16)
  | bltu (a b : Reg) (o : BitVec 16) | bgeu (a b : Reg) (o : BitVec 16)
  -- Global and near loads and stores (R321, R322)
  | ldB (d a : Reg) (i : BitVec 16) | ldBu (d a : Reg) (i : BitVec 16)
  | ldH (d a : Reg) (i : BitVec 16) | ldHu (d a : Reg) (i : BitVec 16)
  | ldW (d a : Reg) (i : BitVec 16) | ldWu (d a : Reg) (i : BitVec 16)
  | ldD (d a : Reg) (i : BitVec 16)
  | stB (d a : Reg) (i : BitVec 16) | stH (d a : Reg) (i : BitVec 16)
  | stW (d a : Reg) (i : BitVec 16) | stD (d a : Reg) (i : BitVec 16)
  | lcB (d a : Reg) (i : BitVec 16) | lcBu (d a : Reg) (i : BitVec 16)
  | lcH (d a : Reg) (i : BitVec 16) | lcHu (d a : Reg) (i : BitVec 16)
  | lcW (d a : Reg) (i : BitVec 16) | lcWu (d a : Reg) (i : BitVec 16)
  | lcD (d a : Reg) (i : BitVec 16)
  | scB (d a : Reg) (i : BitVec 16) | scH (d a : Reg) (i : BitVec 16)
  | scW (d a : Reg) (i : BitVec 16) | scD (d a : Reg) (i : BitVec 16)
  -- MEMX group (R279, R323 to R326)
  | bmov (d a b : Reg) | bset (d a b : Reg) | bcmp (d a b : Reg) | pref (a : Reg)
  | stnl (a b : Reg) | stnh (a b : Reg) | scnl (a b : Reg) | scnh (a b : Reg)
  -- ATOM group (R280, R327 to R335)
  | amoswap (z : ASz) (d a b : Reg) | amoadd (z : ASz) (d a b : Reg) | amoand (z : ASz) (d a b : Reg)
  | amoor (z : ASz) (d a b : Reg) | amoxor (z : ASz) (d a b : Reg) | amomin (z : ASz) (d a b : Reg)
  | amomax (z : ASz) (d a b : Reg) | amominu (z : ASz) (d a b : Reg) | amomaxu (z : ASz) (d a b : Reg)
  | amocas (z : ASz) (d a b : Reg) | amofadd (z : ASz) (d a b : Reg)
  | amodadd (z : ASz) (a b : Reg) | amodfadd (z : ASz) (a b : Reg) | afl (d a : Reg)
  -- FP group (R281, R338 to R343)
  | fadd (t : FTy) (d a b : Reg) | fsub (t : FTy) (d a b : Reg) | fmul (t : FTy) (d a b : Reg)
  | fdiv (t : FTy) (d a b : Reg) | fsqrt (t : FTy) (d a : Reg)
  | fmin (t : FTy) (d a b : Reg) | fmax (t : FTy) (d a b : Reg) | fma (t : FTy) (d a b : Reg)
  | feq (t : FTy) (d a b : Reg) | flt (t : FTy) (d a b : Reg) | fle (t : FTy) (d a b : Reg)
  | fclass (t : FTy) (d a : Reg) | ftoi (t : FTy) (d a : Reg) | ftoiu (t : FTy) (d a : Reg)
  | itof (t : FTy) (d a : Reg) | iutof (t : FTy) (d a : Reg) | fcvt (t u : FTy) (d a : Reg)
  -- VALU group (R282, R355 to R359)
  | vadd (t : VTy) (d a b : VReg) (m : Reg) (k : Bool) | vsub (t : VTy) (d a b : VReg) (m : Reg) (k : Bool)
  | vmul (t : VTy) (d a b : VReg) (m : Reg) (k : Bool) | vmadd (t : VTy) (d a b : VReg) (m : Reg) (k : Bool)
  | vmin (t : VTy) (d a b : VReg) (m : Reg) (k : Bool) | vmax (t : VTy) (d a b : VReg) (m : Reg) (k : Bool)
  | vadds (t : VTy) (d a b : VReg) (m : Reg) (k : Bool) | vsubs (t : VTy) (d a b : VReg) (m : Reg) (k : Bool)
  | vaddus (t : VTy) (d a b : VReg) (m : Reg) (k : Bool) | vsubus (t : VTy) (d a b : VReg) (m : Reg) (k : Bool)
  | vminu (t : VTy) (d a b : VReg) (m : Reg) (k : Bool) | vmaxu (t : VTy) (d a b : VReg) (m : Reg) (k : Bool)
  | vand (t : VTy) (d a b : VReg) (m : Reg) (k : Bool) | vor (t : VTy) (d a b : VReg) (m : Reg) (k : Bool)
  | vxor (t : VTy) (d a b : VReg) (m : Reg) (k : Bool) | vshl (t : VTy) (d a b : VReg) (m : Reg) (k : Bool)
  | vshr (t : VTy) (d a b : VReg) (m : Reg) (k : Bool) | vsra (t : VTy) (d a b : VReg) (m : Reg) (k : Bool)
  | vdiv (t : VTy) (d a b : VReg) (m : Reg) (k : Bool)
  | vabs (t : VTy) (d a : VReg) (m : Reg) (k : Bool) | vsqrt (t : VTy) (d a : VReg) (m : Reg) (k : Bool)
  | vrcp (t : VTy) (d a : VReg) (m : Reg) (k : Bool) | vrsqrt (t : VTy) (d a : VReg) (m : Reg) (k : Bool)
  | vexp2 (t : VTy) (d a : VReg) (m : Reg) (k : Bool) | vlog2 (t : VTy) (d a : VReg) (m : Reg) (k : Bool)
  | vtanh (t : VTy) (d a : VReg) (m : Reg) (k : Bool)
  | vceq (t : VTy) (m : Reg) (a b : VReg) (k : Bool) | vcne (t : VTy) (m : Reg) (a b : VReg) (k : Bool)
  | vclt (t : VTy) (m : Reg) (a b : VReg) (k : Bool) | vcle (t : VTy) (m : Reg) (a b : VReg) (k : Bool)
  | vcltu (t : VTy) (m : Reg) (a b : VReg) (k : Bool) | vcleu (t : VTy) (m : Reg) (a b : VReg) (k : Bool)
  -- VMEM group (R283, R360): the base and the stride are scalar registers s0 to s15
  | vld (t : Fin 16) (d : VReg) (a : Fin 16) (m : Reg) | vlds (t : Fin 16) (d : VReg) (a b : Fin 16) (m : Reg)
  | vldx (t : Fin 16) (d : VReg) (a : Fin 16) (b : VReg) (m : Reg)
  | vst (t : Fin 16) (d : VReg) (a : Fin 16) (m : Reg) | vsts (t : Fin 16) (d : VReg) (a b : Fin 16) (m : Reg)
  | vstx (t : Fin 16) (d : VReg) (a : Fin 16) (b : VReg) (m : Reg)
  | vlc (t : Fin 16) (d : VReg) (a : Fin 16) (m : Reg) | vlcs (t : Fin 16) (d : VReg) (a b : Fin 16) (m : Reg)
  | vlcx (t : Fin 16) (d : VReg) (a : Fin 16) (b : VReg) (m : Reg)
  | vsc (t : Fin 16) (d : VReg) (a : Fin 16) (m : Reg) | vscs (t : Fin 16) (d : VReg) (a b : Fin 16) (m : Reg)
  | vscx (t : Fin 16) (d : VReg) (a : Fin 16) (b : VReg) (m : Reg)
  -- VMISC group (R284, R363 to R372)
  | vmv (d a : VReg) (m : Reg) (k : Bool) | vsel (d a b : VReg) (m : Reg) (k : Bool)
  | vperm (d a b : VReg) (k : Bool) | vslide (d a : VReg) (b : Fin 16) (k : Bool)
  | vcmpr (d a : VReg) (m : Reg) (k : Bool) | vexpd (d a : VReg) (m : Reg) (k : Bool)
  | vext (m : Reg) (a : VReg) (b : Fin 16) (k : Bool) | vins (d : VReg) (m : Reg) (b : Fin 16)
  | vzero (d : VReg) | vbcs (t : Fin 16) (d : VReg) (m : Reg)
  | vredsum (t : VTy) (d a : VReg) (m : Reg) (k : Bool) | vredmin (t : VTy) (d a : VReg) (m : Reg) (k : Bool)
  | vredmax (t : VTy) (d a : VReg) (m : Reg) (k : Bool)
  | vcvt (dt st : Fin 16) (d a : VReg) (m : Reg) (k : Bool)
  | vbsc (n : Fin 8) (d a : VReg) (k : Bool) | vbsa (n : Fin 8) (d a b : VReg) (k : Bool)
  | vtag (d : VReg) (t : Fin 16) | vloop (n : Fin 16) (m : Reg)
  -- ENG group (R285, R377 to R393)
  | cpy (c : Fin 2) (a b : Reg) | strmIn (d : Fin 4) (a b : Reg) | strmOut (d : Fin 4) (a b : Reg)
  | gath (a b : Reg) | scat (a b : Reg) | mxcf (a : Reg) | mxq (a : Reg) | mxdr (a b : Reg)
  | coll (a b : Reg) | ftake (a b : Reg) | fput (a b : Reg) | fclr (a : Reg)
  -- TASK group (R286, R394 to R401)
  | post (a : Reg) | endTask | claim (k : Fin 16) | rels (k : Fin 16) | ntfy (a : Reg)
  | tadv (d a b : Reg) | tadvi (d a : Reg) (l e : Fin 8) (k : Fin 64) | tcmp (d a b : Reg)
  | cnclT (d a : Reg) (st : Fin 64) | cnclL (d a : Reg) (p : Fin 8)
  | gang (d : Reg) (f : GangForm) | disband | ovl (n : Fin 1024)
  -- SYS group (R287, R402 to R410)
  | mfs (d : Reg) (r : BitVec 12) | mts (r : BitVec 12) (a : Reg) | opreq (n : Fin 16) | opreqAuto
  | ifence | trap (i : BitVec 12) | brk (i : BitVec 12) | eret | pmpw (n : Fin 16) (a : Reg)
  -- Traps and budgets (R103, R229, R230)
  | trapDeliveryInject | deferredCancelInstall (g : Nat) | budgetExpire (lc : Nat)
  -- Records, admission, footprints, landings (R143 to R158)
  | recordArrival (k : Nat) | landingArrival (k : Nat) | level7Retry (lc : Nat) | admission (lc : Nat)
  | footprintFetchStart (lc : Nat) | footprintPinned (lc slot : Nat) | landingHandoff (g st : Nat)
  | stageGovernorEval (die : Nat)
  -- Plug-in calls (R55, R56)
  | lweight (g st : Nat) (r : PlugRes) | admitCall (f v : Nat) (r : PlugRes)
  | pmap (f v level : Nat) (r : PlugRes) | opvote (p : Nat) (r : PlugRes) | pluginBudgetOverrun (n : Nat)
  -- Progress tree and roots (R124 to R137)
  | progressFlushDeadline (lc : Nat) | treeBatchArrival (k : Nat) | treeNodeForward (node : Nat)
  | rootApplyBatch (k : Nat) | frontierAnnounce (g st die : Nat)
  -- Tile tasks (R159 to R161, R264, R389, R390)
  | tileTaskIssue (cl : Nat) | tileTaskForward (cl : Nat) | matrixKStep (tile : Nat)
  | tileTaskComplete (tile : Nat) | matrixDrain (tile : Nat)
  -- Sequencer and engines (R354, R382 to R385, R392)
  | sequencerChunk (lc : Nat) | copyStart (lc level ch : Nat) | copyGranule (lc level ch g : Nat)
  | copyComplete (lc level ch : Nat) | streamElement (lc level j : Nat)
  | gatherScatterElement (cl k : Nat) | collectiveComplete (k : Nat)
  -- Leases, translation, remote accesses (R195, R200 to R204, R222)
  | leaseTick (lc : Nat) | pageWalk (die ctx : Nat) (va : Word) | walkComplete (die k : Nat)
  | remoteAccessArrival (src lc : Nat) (addr : Word) (op : RemoteOp)
  | remoteResponseArrival (lc level : Nat) (ok : Bool) (data : List Byte)
  | remoteRejectArrival (lc level : Nat) (addr : Word)
  | shootdownGo (q : Nat) | shootdownAck (q holder : Nat) | tierMigration (ctx : Nat) (va pa : Word) (tier : Nat)
  -- System preemption and kill (R236 to R241)
  | preemptHalt (p : Nat) | preemptHaltComplete (p : Nat) | preemptSave (p : Nat) | preemptResume (p : Nat)
  | preemptRestore (p : Nat) (phys : List Nat) | preemptKill (p : Nat) | killComplete (p : Nat)
  -- Virtual command processors (R34 to R44)
  | notify (f v : Nat) (w : BitVec 32) | vcpVreset (f v : Nat) | vcpResume (f v : Nat)
  | vcpEnable (f v : Nat) | vcpDisable (f v : Nat) | packetFetch (f v : Nat) | pollBoundExpire (f v : Nat)
  | nopPacket (f v : Nat) | launchPacket (f v : Nat) | journalGapEntry (p : Nat) | copyPacket (f v : Nat)
  | quayCopyGranule (f v i g : Nat) | signalPacket (f v : Nat) | waitPacket (f v : Nat)
  | markPacket (f v : Nat) | cancelPacket (f v : Nat) | packetComplete (f v i : Nat)
  | waitEvaluate (f v i : Nat) | waitPoll (f v i : Nat)
  | externalLaunch (q dev tenant : Nat) (key : Word) (packet : List Word) (records : List (List Word))
  -- Function-level reset, migration, attestation (R45 to R48, R62)
  | flrInitiate (f : Nat) | flrComplete (f : Nat) | migSuspendSave (w : BitVec 32) | migSaveImageWrite
  | migRestore (w : BitVec 32) | migResume (w : BitVec 32)
  | attReport (w : BitVec 32) | attReadCertificate (w : BitVec 32) | attComplete
  -- Host reads and writes, registers (R6, R29, R31, R32, R220, R404)
  | bar4Read (f off n : Nat) | bar4Write (f off : Nat) (data : List Byte)
  | bar2Read (f off n : Nat) | bar2Write (f off : Nat) (data : List Byte)
  | counterReadClear (code inst : Nat) | barerrRead (f : Nat) | registerWrite (f off : Nat) (w : Word)
  | fedataWrite (w : Word) | l2pWrite (lc : Nat) (w : Word) | l2pHoldAck (lc stop : Nat)
  | opreqWrite (lc : Nat) (auto : Bool) (op : Fin 16) | opreqDecide (lc watts milliwatts : Nat)
  | seedWrite (w : Word) | fpstatAccess (lc : Nat)
  -- Power, rails, sleep, current (R66 to R79)
  | powerGovernorSample (die : Nat) | powerTrip | powerTripEnd
  | railSettle (rail : Nat) | railHoldExpire (rail : Nat) | railDescentStop (rail : Nat)
  | sleepHoldExpire (tile : Nat) (deep : Bool) | sleepEntryComplete (tile : Nat) | sleepD3Enter (tile : Nat)
  | tileWake (tile : Nat) | inrushGrant (rail : Nat) | wakeComplete (tile : Nat)
  | droopDetect (rail : Nat) | droopThrottleEnd (rail : Nat) | matrixColumnRamp (tile : Nat)
  -- Rotation and thermal events (R80 to R84)
  | rotationInterval (die : Nat) | rotationQuiesce (die : Nat) | rotationRemap (die : Nat)
  | movedCoreWriteArrival (lc off : Nat) (data : List Byte) | thermalEmergency (tile : Nat)
  | emergencyMigration (tile : Nat) | emergencyRotation (tile : Nat) | thermalRecover (tile : Nat)
  | thermalTrip (tile : Nat)
  -- Boot, service, images (R26, R51, R58 to R60, R109, R110, R244, R303)
  | powerGood | moduleReset | tileDiePass (die : Nat) (hbm : BitVec 2) | bringupEnd | quayBringupTimeout (q : Nat)
  | monitorTrapHalt (n : Nat) | dieWithdraw (part : Nat) | pluginLoad (p plg : Nat) (image : List Byte)
  | measExtend (i : Nat) (h : BitVec 384) | graphImageLoad (g f base home : Nat) (im : Image)
  | graphUnload (g : Nat) | jobCancel (f : Nat) | replay (p : Nat)
  -- Links, ports and memory upkeep (R11 to R21, R28, R59, R73)
  | ferryFlitReceive (link : Nat) (crc : BitVec 32) (f : Flit) | ferryNakReceive (link : Nat) (seq : BitVec 12)
  | ferryLinkRetrain (link : Nat) | ferryRetrainComplete (link : Nat) (ok : Bool) | ferryRouteReturn (dev : Nat)
  | d2dEdgeRetrain (edge : Nat) (modules : Nat) (rate : Nat) | atticPortFail (port : Nat) | atticPortRetrain (port : Nat)
  | hostRequestTimeout (tag : Nat) | sramScrub (die : Nat) (k : SramKind) (corrected : Bool)
  | debugPortUnlock | frequencySwitchComplete (tile : Nat) | d2dRetry (edge : Nat)
  | hostCompletionArrival (tag : Nat) (st : HostStatus)
  deriving DecidableEq, Repr

end Sys2Proof
end

