-- ==== Sys2Proof/WellFormed.lean ====
section
/-! DEFINITION. Which operand choices an encoded instruction may have (R276): the choices that raise
ILLEGAL wherever the instruction executes are not well formed. -/

namespace Sys2Proof

/-- A VALU type is an integer type (R282, types 0 to 3). -/
def VTy.isInt : VTy → Bool
  | .i8 | .i16 | .i32 | .i64 => true
  | .f32 | .bf16 | .f16 => false

/-- A block move names distinct registers, d and a nonzero; a second address is nonzero too (R325). -/
def blockRegs (d a b : Reg) (second : Bool) : Bool :=
  d != 0 && a != 0 && d != a && b != d && b != a && (!second || b != 0)

/-- The operands of an instruction are ones its encoding admits. A step of the part has no encoding,
and any arguments are admitted. -/
def WellFormed : Instr → Bool
  | .bmov d a b => blockRegs d a b true
  | .bset d a b => blockRegs d a b false
  | .bcmp d a b => blockRegs d a b true
  | .fcvt t u _ _ => t != u
  | .vadds t .. | .vsubs t .. | .vaddus t .. | .vsubus t .. | .vminu t .. | .vmaxu t .. => t.isInt
  | .vand t .. | .vor t .. | .vxor t .. | .vshl t .. | .vshr t .. | .vsra t .. => t.isInt
  | .vdiv t .. | .vsqrt t .. | .vrcp t .. | .vrsqrt t .. | .vexp2 t .. | .vlog2 t .. | .vtanh t .. => !t.isInt
  | .vcltu t .. | .vcleu t .. => t.isInt
  | .vld t .. | .vlds t .. | .vldx t .. | .vst t .. | .vsts t .. | .vstx t .. => t != 0
  | .vlc t .. | .vlcs t .. | .vlcx t .. | .vsc t .. | .vscs t .. | .vscx t .. => t != 0
  | .vbcs t .. => t != 0
  | .vcvt dt st .. => dt != 0 && st != 0 && dt != st
  | _ => true

end Sys2Proof
end

