-- ==== Sys2Proof/Decode.lean ====
section
/-! DEFINITION. Decoding a word into an instruction, or refusing it by name, and the encoder. Both
follow the formats of R269 to R273 and the maps of R274 and R277 to R287. A word is a number below
2^32; a field is taken by division. -/

namespace Sys2Proof

/-- Why a word is no instruction; every one raises ILLEGAL (R276). -/
inductive DecodeError where
  /-- The major opcode is unassigned (R274). -/
  | opcode
  /-- The function code, or its combination with a type or a tag, is unassigned. -/
  | function
  /-- A field that must be 0 is not (R270). -/
  | field
  /-- The operands are ones the form does not allow (R281, R284, R325). -/
  | operands
  deriving DecidableEq, Repr

/-- The code of a scalar floating type (R281). -/
def FTy.code : FTy → Nat
  | .f64 => 0 | .f32 => 1 | .f16 => 2 | .bf16 => 3

/-- The scalar floating type of a code (R281). -/
def FTy.ofCode : Nat → FTy
  | 0 => .f64 | 1 => .f32 | 2 => .f16 | _ => .bf16

/-- The code of a VALU type: the format tag less one (R282). -/
def VTy.code : VTy → Nat
  | .i8 => 0 | .i16 => 1 | .i32 => 2 | .i64 => 3 | .f32 => 4 | .bf16 => 5 | .f16 => 6

/-- The VALU type of a code; 7 is reserved (R282). -/
def VTy.ofCode : Nat → Option VTy
  | 0 => some .i8 | 1 => some .i16 | 2 => some .i32 | 3 => some .i64
  | 4 => some .f32 | 5 => some .bf16 | 6 => some .f16 | _ => none

/-- The size bits of an atomic (R280). -/
def ASz.code : ASz → Nat
  | .w => 2 | .d => 3

/-- The code of a gang form (R286). -/
def GangForm.code : GangForm → Nat
  | .pair => 0 | .tile => 1 | .tpair => 2

/-- A field of a word: the bits from lo, modulo 2^len. -/
def field (w lo len : Nat) : Nat := w / 2 ^ lo % 2 ^ len

/-- A five-bit register field. -/
def regField (w lo : Nat) : Reg := ⟨w / 2 ^ lo % 32, Nat.mod_lt _ (by decide)⟩

/-- A four-bit field. -/
def nibField (w lo : Nat) : Fin 16 := ⟨w / 2 ^ lo % 16, Nat.mod_lt _ (by decide)⟩

/-- A field that must be 0 (R270). -/
def zeroThen (x : Nat) (r : Except DecodeError Instr) : Except DecodeError Instr :=
  if x = 0 then r else .error .field

/-- A form whose operands are checked by WellFormed. -/
def admitted (i : Instr) : Except DecodeError Instr :=
  if WellFormed i then .ok i else .error .operands

/-- A form that a type of the group must allow (R282). -/
def typed (t : Option VTy) (f : VTy → Instr) : Except DecodeError Instr :=
  match t with
  | none => .error .function
  | some ty => if WellFormed (f ty) then .ok (f ty) else .error .function

/-- The ALU group (R278). -/
def decodeAlu (w : Nat) : Except DecodeError Instr :=
  let d := regField w 21; let a := regField w 16; let b := regField w 11
  match w % 2048 with
  | 0 => .ok (.add d a b)
  | 1 => .ok (.sub d a b)
  | 2 => .ok (.and d a b)
  | 3 => .ok (.or d a b)
  | 4 => .ok (.xor d a b)
  | 5 => .ok (.andn d a b)
  | 6 => .ok (.orn d a b)
  | 7 => .ok (.xnor d a b)
  | 8 => .ok (.shl d a b)
  | 9 => .ok (.shr d a b)
  | 10 => .ok (.sra d a b)
  | 11 => .ok (.rol d a b)
  | 12 => .ok (.ror d a b)
  | 16 => .ok (.lt d a b)
  | 17 => .ok (.ltu d a b)
  | 18 => .ok (.eq d a b)
  | 19 => .ok (.ne d a b)
  | 20 => .ok (.min d a b)
  | 21 => .ok (.max d a b)
  | 22 => .ok (.minu d a b)
  | 23 => .ok (.maxu d a b)
  | 24 => .ok (.adds d a b)
  | 25 => .ok (.subs d a b)
  | 26 => .ok (.addus d a b)
  | 27 => .ok (.subus d a b)
  | 32 => .ok (.mul d a b)
  | 33 => .ok (.mulh d a b)
  | 34 => .ok (.mulhu d a b)
  | 35 => .ok (.div d a b)
  | 36 => .ok (.divu d a b)
  | 37 => .ok (.rem d a b)
  | 38 => .ok (.remu d a b)
  | 40 => .ok (.bpack d a b)
  | 41 => .ok (.bpack2 d a b)
  | 42 => .ok (.bpack4 d a b)
  | 43 => .ok (.bpack8 d a b)
  | 44 => .ok (.bunpk d a b)
  | 45 => .ok (.bunpk2 d a b)
  | 46 => .ok (.bunpk4 d a b)
  | 47 => .ok (.bunpk8 d a b)
  | 48 => zeroThen b.val (.ok (.clz d a))
  | 49 => zeroThen b.val (.ok (.ctz d a))
  | 50 => zeroThen b.val (.ok (.popc d a))
  | 51 => zeroThen b.val (.ok (.brev d a))
  | 52 => zeroThen b.val (.ok (.bswap d a))
  | 53 => zeroThen b.val (.ok (.sextB d a))
  | 54 => zeroThen b.val (.ok (.sextH d a))
  | 55 => zeroThen b.val (.ok (.sextW d a))
  | 56 => zeroThen b.val (.ok (.zextB d a))
  | 57 => zeroThen b.val (.ok (.zextH d a))
  | 58 => zeroThen b.val (.ok (.zextW d a))
  | _ => .error .function

/-- The MEMX group (R279). -/
def decodeMemx (w : Nat) : Except DecodeError Instr :=
  let d := regField w 21; let a := regField w 16; let b := regField w 11
  match w % 2048 with
  | 0 => admitted (.bmov d a b)
  | 1 => admitted (.bset d a b)
  | 2 => admitted (.bcmp d a b)
  | 8 => zeroThen (d.val + b.val) (.ok (.pref a))
  | 16 => zeroThen d.val (.ok (.stnl a b))
  | 17 => zeroThen d.val (.ok (.stnh a b))
  | 18 => zeroThen d.val (.ok (.scnl a b))
  | 19 => zeroThen d.val (.ok (.scnh a b))
  | _ => .error .function

/-- The ATOM group (R280): the function code is the operation over the size. -/
def decodeAtom (w : Nat) : Except DecodeError Instr :=
  let d := regField w 21; let a := regField w 16; let b := regField w 11
  match w % 2048 with
  | 2 => .ok (.amoswap .w d a b)
  | 3 => .ok (.amoswap .d d a b)
  | 6 => .ok (.amoadd .w d a b)
  | 7 => .ok (.amoadd .d d a b)
  | 10 => .ok (.amoand .w d a b)
  | 11 => .ok (.amoand .d d a b)
  | 14 => .ok (.amoor .w d a b)
  | 15 => .ok (.amoor .d d a b)
  | 18 => .ok (.amoxor .w d a b)
  | 19 => .ok (.amoxor .d d a b)
  | 22 => .ok (.amomin .w d a b)
  | 23 => .ok (.amomin .d d a b)
  | 26 => .ok (.amomax .w d a b)
  | 27 => .ok (.amomax .d d a b)
  | 30 => .ok (.amominu .w d a b)
  | 31 => .ok (.amominu .d d a b)
  | 34 => .ok (.amomaxu .w d a b)
  | 35 => .ok (.amomaxu .d d a b)
  | 38 => .ok (.amocas .w d a b)
  | 39 => .ok (.amocas .d d a b)
  | 42 => .ok (.amofadd .w d a b)
  | 43 => .ok (.amofadd .d d a b)
  | 46 => zeroThen d.val (.ok (.amodadd .w a b))
  | 47 => zeroThen d.val (.ok (.amodadd .d a b))
  | 50 => zeroThen d.val (.ok (.amodfadd .w a b))
  | 51 => zeroThen d.val (.ok (.amodfadd .d a b))
  | 52 => zeroThen b.val (.ok (.afl d a))
  | _ => .error .function

/-- The FP group (R281): the function code is the operation over the type. -/
def decodeFp (w : Nat) : Except DecodeError Instr :=
  let d := regField w 21; let a := regField w 16; let b := regField w 11
  let t := FTy.ofCode (w % 4)
  match w / 4 % 512 with
  | 0 => .ok (.fadd t d a b)
  | 1 => .ok (.fsub t d a b)
  | 2 => .ok (.fmul t d a b)
  | 3 => .ok (.fdiv t d a b)
  | 4 => zeroThen b.val (.ok (.fsqrt t d a))
  | 5 => .ok (.fmin t d a b)
  | 6 => .ok (.fmax t d a b)
  | 7 => .ok (.fma t d a b)
  | 8 => .ok (.feq t d a b)
  | 9 => .ok (.flt t d a b)
  | 10 => .ok (.fle t d a b)
  | 11 => zeroThen b.val (.ok (.fclass t d a))
  | 12 => zeroThen b.val (.ok (.ftoi t d a))
  | 13 => zeroThen b.val (.ok (.ftoiu t d a))
  | 14 => zeroThen b.val (.ok (.itof t d a))
  | 15 => zeroThen b.val (.ok (.iutof t d a))
  | 16 => if b.val < 4 then admitted (.fcvt t (FTy.ofCode b.val) d a) else .error .function
  | _ => .error .function

/-- The VALU group (R282): the function code is the operation over the type. -/
def decodeValu (w : Nat) : Except DecodeError Instr :=
  let d := nibField w 22; let a := nibField w 18; let b := nibField w 14; let m := regField w 9
  let k := w / 256 % 2 == 1
  let t := VTy.ofCode (w % 8)
  match w / 8 % 32 with
  | 0 => typed t fun ty => .vadd ty d a b m k
  | 1 => typed t fun ty => .vsub ty d a b m k
  | 2 => typed t fun ty => .vmul ty d a b m k
  | 3 => typed t fun ty => .vmadd ty d a b m k
  | 4 => typed t fun ty => .vmin ty d a b m k
  | 5 => typed t fun ty => .vmax ty d a b m k
  | 6 => typed t fun ty => .vadds ty d a b m k
  | 7 => typed t fun ty => .vsubs ty d a b m k
  | 8 => typed t fun ty => .vaddus ty d a b m k
  | 9 => typed t fun ty => .vsubus ty d a b m k
  | 10 => typed t fun ty => .vminu ty d a b m k
  | 11 => typed t fun ty => .vmaxu ty d a b m k
  | 12 => typed t fun ty => .vand ty d a b m k
  | 13 => typed t fun ty => .vor ty d a b m k
  | 14 => typed t fun ty => .vxor ty d a b m k
  | 15 => typed t fun ty => .vshl ty d a b m k
  | 16 => typed t fun ty => .vshr ty d a b m k
  | 17 => typed t fun ty => .vsra ty d a b m k
  | 18 => typed t fun ty => .vdiv ty d a b m k
  | 19 => zeroThen b.val (typed t fun ty => .vabs ty d a m k)
  | 20 => zeroThen b.val (typed t fun ty => .vsqrt ty d a m k)
  | 21 => zeroThen b.val (typed t fun ty => .vrcp ty d a m k)
  | 22 => zeroThen b.val (typed t fun ty => .vrsqrt ty d a m k)
  | 23 => zeroThen b.val (typed t fun ty => .vexp2 ty d a m k)
  | 24 => zeroThen b.val (typed t fun ty => .vlog2 ty d a m k)
  | 25 => zeroThen b.val (typed t fun ty => .vtanh ty d a m k)
  | 26 => zeroThen d.val (typed t fun ty => .vceq ty m a b k)
  | 27 => zeroThen d.val (typed t fun ty => .vcne ty m a b k)
  | 28 => zeroThen d.val (typed t fun ty => .vclt ty m a b k)
  | 29 => zeroThen d.val (typed t fun ty => .vcle ty m a b k)
  | 30 => zeroThen d.val (typed t fun ty => .vcltu ty m a b k)
  | _ => zeroThen d.val (typed t fun ty => .vcleu ty m a b k)

/-- The VMEM group (R283): the function code is the mode over the tag; the keep bit must be 0. -/
def decodeVmem (w : Nat) : Except DecodeError Instr :=
  let d := nibField w 22; let a := nibField w 18; let b := nibField w 14; let m := regField w 9
  let t := nibField w 0
  zeroThen (w / 256 % 2)
  (match w / 16 % 16 with
  | 0 => zeroThen b.val (admitted (.vld t d a m))
  | 1 => admitted (.vlds t d a b m)
  | 2 => admitted (.vldx t d a b m)
  | 4 => zeroThen b.val (admitted (.vst t d a m))
  | 5 => admitted (.vsts t d a b m)
  | 6 => admitted (.vstx t d a b m)
  | 8 => zeroThen b.val (admitted (.vlc t d a m))
  | 9 => admitted (.vlcs t d a b m)
  | 10 => admitted (.vlcx t d a b m)
  | 12 => zeroThen b.val (admitted (.vsc t d a m))
  | 13 => admitted (.vscs t d a b m)
  | 14 => admitted (.vscx t d a b m)
  | _ => .error .function)

/-- The VMISC group (R284). -/
def decodeVmisc (w : Nat) : Except DecodeError Instr :=
  let d := nibField w 22; let a := nibField w 18; let b := nibField w 14; let m := regField w 9
  let kn := w / 256 % 2
  let k := kn == 1
  let t := nibField w 0
  let n : Fin 8 := ⟨w % 8, Nat.mod_lt _ (by decide)⟩
  match w / 16 % 16 with
  | 0 =>
    match w % 16 with
    | 0 => zeroThen b.val (.ok (.vmv d a m k))
    | 1 => .ok (.vsel d a b m k)
    | 2 => zeroThen m.val (.ok (.vperm d a b k))
    | 3 => zeroThen m.val (.ok (.vslide d a b k))
    | 4 => zeroThen b.val (.ok (.vcmpr d a m k))
    | 5 => zeroThen b.val (.ok (.vexpd d a m k))
    | 6 => zeroThen d.val (.ok (.vext m a b k))
    | 7 => zeroThen (a.val + kn) (.ok (.vins d m b))
    | 8 => zeroThen (a.val + b.val + m.val + kn) (.ok (.vzero d))
    | _ => .error .function
  | 1 => zeroThen (a.val + b.val + kn) (admitted (.vbcs t d m))
  | 2 => if w % 16 = 0 then .error .function else zeroThen b.val (typed (VTy.ofCode (w % 16 - 1)) fun ty => .vredsum ty d a m k)
  | 3 => if w % 16 = 0 then .error .function else zeroThen b.val (typed (VTy.ofCode (w % 16 - 1)) fun ty => .vredmin ty d a m k)
  | 4 => if w % 16 = 0 then .error .function else zeroThen b.val (typed (VTy.ofCode (w % 16 - 1)) fun ty => .vredmax ty d a m k)
  | 5 => admitted (.vcvt b t d a m k)
  | 6 => if w % 16 < 8 then .error .function else zeroThen (b.val + m.val) (.ok (.vbsc n d a k))
  | 7 => if w % 16 < 8 then .error .function else zeroThen m.val (.ok (.vbsa n d a b k))
  | 8 => zeroThen (a.val + b.val + m.val + kn) (.ok (.vtag d t))
  | 9 => if w % 16 = 0 then zeroThen (a.val + b.val + kn) (.ok (.vloop d m)) else .error .function
  | _ => .error .function

/-- The ENG group (R285). -/
def decodeEng (w : Nat) : Except DecodeError Instr :=
  let a := regField w 10; let b := regField w 5; let d := regField w 0
  match w / 2 ^ 23 % 8, w / 2 ^ 15 % 256 with
  | 0, 0 => zeroThen d.val (.ok (.cpy 0 a b))
  | 0, 1 => zeroThen d.val (.ok (.cpy 1 a b))
  | 1, 0 => if 28 ≤ d.val then .ok (.strmIn ⟨w % 4, Nat.mod_lt _ (by decide)⟩ a b) else .error .operands
  | 1, 1 => if 28 ≤ d.val then .ok (.strmOut ⟨w % 4, Nat.mod_lt _ (by decide)⟩ a b) else .error .operands
  | 2, 0 => zeroThen d.val (.ok (.gath a b))
  | 2, 1 => zeroThen d.val (.ok (.scat a b))
  | 3, 0 => zeroThen (b.val + d.val) (.ok (.mxcf a))
  | 3, 1 => zeroThen (b.val + d.val) (.ok (.mxq a))
  | 3, 2 => zeroThen d.val (.ok (.mxdr a b))
  | 4, 0 => zeroThen d.val (.ok (.coll a b))
  | 5, 0 => zeroThen d.val (.ok (.ftake a b))
  | 5, 1 => zeroThen d.val (.ok (.fput a b))
  | 5, 2 => zeroThen (b.val + d.val) (.ok (.fclr a))
  | _, _ => .error .function

/-- The TASK group (R286). -/
def decodeTask (w : Nat) : Except DecodeError Instr :=
  let d := regField w 21; let a := regField w 16; let b := regField w 4
  let sys := w / 16 % 4096
  match w % 16 with
  | 0 => zeroThen (d.val + sys) (.ok (.post a))
  | 1 => zeroThen (d.val + a.val + sys) (.ok .endTask)
  | 2 => zeroThen (d.val + a.val + sys / 16) (.ok (.claim (nibField w 4)))
  | 3 => zeroThen (d.val + a.val + sys / 16) (.ok (.rels (nibField w 4)))
  | 4 => zeroThen (d.val + sys) (.ok (.ntfy a))
  | 5 => zeroThen (sys / 32) (.ok (.tadv d a b))
  | 6 => .ok (.tadvi d a ⟨w / 2 ^ 13 % 8, Nat.mod_lt _ (by decide)⟩ ⟨w / 2 ^ 10 % 8, Nat.mod_lt _ (by decide)⟩
      ⟨w / 2 ^ 4 % 64, Nat.mod_lt _ (by decide)⟩)
  | 7 => zeroThen (sys / 32) (.ok (.tcmp d a b))
  | 8 =>
    if sys / 2048 = 0 then zeroThen (sys / 64) (.ok (.cnclT d a ⟨w / 2 ^ 4 % 64, Nat.mod_lt _ (by decide)⟩))
    else zeroThen (sys % 256) (.ok (.cnclL d a ⟨w / 2 ^ 12 % 8, Nat.mod_lt _ (by decide)⟩))
  | 9 =>
    zeroThen a.val
    (match sys with
     | 0 => .ok (.gang d .pair)
     | 1 => .ok (.gang d .tile)
     | 2 => .ok (.gang d .tpair)
     | _ => .error .operands)
  | 10 => zeroThen (d.val + a.val + sys) (.ok .disband)
  | 11 => zeroThen (d.val + a.val + sys / 1024) (.ok (.ovl ⟨w / 2 ^ 4 % 1024, Nat.mod_lt _ (by decide)⟩))
  | _ => .error .function

/-- The SYS group (R287). -/
def decodeSys (w : Nat) : Except DecodeError Instr :=
  let d := regField w 21; let a := regField w 16
  let sys := w / 16 % 4096
  match w % 16 with
  | 0 => zeroThen a.val (.ok (.mfs d (BitVec.ofNat 12 sys)))
  | 1 => zeroThen d.val (.ok (.mts (BitVec.ofNat 12 sys) a))
  | 2 =>
    zeroThen (d.val + a.val + sys / 32)
      (if sys / 16 % 2 = 0 then .ok (.opreq (nibField w 4)) else zeroThen (sys % 16) (.ok .opreqAuto))
  | 3 => zeroThen (d.val + a.val + sys) (.ok .ifence)
  | 4 => zeroThen (d.val + a.val) (.ok (.trap (BitVec.ofNat 12 sys)))
  | 5 => zeroThen (d.val + a.val) (.ok (.brk (BitVec.ofNat 12 sys)))
  | 6 => zeroThen (d.val + a.val + sys) (.ok .eret)
  | 7 => zeroThen (d.val + sys / 16) (.ok (.pmpw (nibField w 4) a))
  | _ => .error .function

/-- Decodes a word by its major opcode (R274). -/
def decodeWord (w : Nat) : Except DecodeError Instr :=
  let d := regField w 21; let a := regField w 16
  let i16 := BitVec.ofNat 16 w
  let n6 := BitVec.ofNat 6 w
  match w / 2 ^ 26 % 64 with
  | 0x01 => decodeAlu w
  | 0x02 => .ok (.addi d a i16)
  | 0x03 => .ok (.andi d a i16)
  | 0x04 => .ok (.ori d a i16)
  | 0x05 => .ok (.xori d a i16)
  | 0x06 => .ok (.lti d a i16)
  | 0x07 => .ok (.ltui d a i16)
  | 0x08 => zeroThen (w / 64 % 1024) (.ok (.shli d a n6))
  | 0x09 => zeroThen (w / 64 % 1024) (.ok (.shri d a n6))
  | 0x0A => zeroThen (w / 64 % 1024) (.ok (.srai d a n6))
  | 0x0B => .ok (.lui d (BitVec.ofNat 21 w))
  | 0x0C => .ok (.lhi d (BitVec.ofNat 21 w))
  | 0x0D => zeroThen (w / 2 ^ 19 % 4) (.ok (.lco d (BitVec.ofNat 19 w)))
  | 0x10 => .ok (.j (BitVec.ofNat 26 w))
  | 0x11 => .ok (.jal (BitVec.ofNat 26 w))
  | 0x12 => .ok (.jalr d a i16)
  | 0x14 => .ok (.beq d a i16)
  | 0x15 => .ok (.bne d a i16)
  | 0x16 => .ok (.blt d a i16)
  | 0x17 => .ok (.bge d a i16)
  | 0x18 => .ok (.bltu d a i16)
  | 0x19 => .ok (.bgeu d a i16)
  | 0x1C => decodeValu w
  | 0x1D => decodeVmem w
  | 0x1E => decodeVmisc w
  | 0x20 => .ok (.ldB d a i16)
  | 0x21 => .ok (.ldBu d a i16)
  | 0x22 => .ok (.ldH d a i16)
  | 0x23 => .ok (.ldHu d a i16)
  | 0x24 => .ok (.ldW d a i16)
  | 0x25 => .ok (.ldWu d a i16)
  | 0x26 => .ok (.ldD d a i16)
  | 0x28 => .ok (.stB d a i16)
  | 0x29 => .ok (.stH d a i16)
  | 0x2A => .ok (.stW d a i16)
  | 0x2B => .ok (.stD d a i16)
  | 0x2C => decodeMemx w
  | 0x2D => decodeAtom w
  | 0x2E => decodeFp w
  | 0x30 => .ok (.lcB d a i16)
  | 0x31 => .ok (.lcBu d a i16)
  | 0x32 => .ok (.lcH d a i16)
  | 0x33 => .ok (.lcHu d a i16)
  | 0x34 => .ok (.lcW d a i16)
  | 0x35 => .ok (.lcWu d a i16)
  | 0x36 => .ok (.lcD d a i16)
  | 0x38 => .ok (.scB d a i16)
  | 0x39 => .ok (.scH d a i16)
  | 0x3A => .ok (.scW d a i16)
  | 0x3B => .ok (.scD d a i16)
  | 0x3C => decodeEng w
  | 0x3D => decodeTask w
  | 0x3E => decodeSys w
  | _ => .error .opcode

/-- A word of format A (R269). -/
def encA (op : Nat) (d a b : Reg) (fn : Nat) : Option Nat :=
  some (op * 2 ^ 26 + d.val * 2 ^ 21 + a.val * 2 ^ 16 + b.val * 2 ^ 11 + fn)

/-- A word of format I, and of format B with its two registers in the same places (R269). -/
def encI (op : Nat) (d a : Reg) (imm : Nat) : Option Nat :=
  some (op * 2 ^ 26 + d.val * 2 ^ 21 + a.val * 2 ^ 16 + imm)

/-- A word of format V (R269). -/
def encV (op : Nat) (d a b : Fin 16) (m : Reg) (k : Bool) (fn : Nat) : Option Nat :=
  some (op * 2 ^ 26 + d.val * 2 ^ 22 + a.val * 2 ^ 18 + b.val * 2 ^ 14 + m.val * 2 ^ 9 + k.toNat * 2 ^ 8 + fn)

/-- A word of format E (R269). -/
def encE (eng fn : Nat) (a b : Reg) (d : Nat) : Option Nat :=
  some (0x3C * 2 ^ 26 + eng * 2 ^ 23 + fn * 2 ^ 15 + a.val * 2 ^ 10 + b.val * 2 ^ 5 + d)

/-- A word of format S (R269). -/
def encS (op : Nat) (d a : Reg) (sys fn : Nat) : Option Nat :=
  some (op * 2 ^ 26 + d.val * 2 ^ 21 + a.val * 2 ^ 16 + sys * 2 ^ 4 + fn)

/-- The word of an instruction, from the same maps; a step of the part has none. -/
def encode : Instr → Option Nat
  | .add d a b => encA 0x01 d a b 0
  | .sub d a b => encA 0x01 d a b 1
  | .and d a b => encA 0x01 d a b 2
  | .or d a b => encA 0x01 d a b 3
  | .xor d a b => encA 0x01 d a b 4
  | .andn d a b => encA 0x01 d a b 5
  | .orn d a b => encA 0x01 d a b 6
  | .xnor d a b => encA 0x01 d a b 7
  | .shl d a b => encA 0x01 d a b 8
  | .shr d a b => encA 0x01 d a b 9
  | .sra d a b => encA 0x01 d a b 10
  | .rol d a b => encA 0x01 d a b 11
  | .ror d a b => encA 0x01 d a b 12
  | .lt d a b => encA 0x01 d a b 16
  | .ltu d a b => encA 0x01 d a b 17
  | .eq d a b => encA 0x01 d a b 18
  | .ne d a b => encA 0x01 d a b 19
  | .min d a b => encA 0x01 d a b 20
  | .max d a b => encA 0x01 d a b 21
  | .minu d a b => encA 0x01 d a b 22
  | .maxu d a b => encA 0x01 d a b 23
  | .adds d a b => encA 0x01 d a b 24
  | .subs d a b => encA 0x01 d a b 25
  | .addus d a b => encA 0x01 d a b 26
  | .subus d a b => encA 0x01 d a b 27
  | .mul d a b => encA 0x01 d a b 32
  | .mulh d a b => encA 0x01 d a b 33
  | .mulhu d a b => encA 0x01 d a b 34
  | .div d a b => encA 0x01 d a b 35
  | .divu d a b => encA 0x01 d a b 36
  | .rem d a b => encA 0x01 d a b 37
  | .remu d a b => encA 0x01 d a b 38
  | .bpack d a b => encA 0x01 d a b 40
  | .bpack2 d a b => encA 0x01 d a b 41
  | .bpack4 d a b => encA 0x01 d a b 42
  | .bpack8 d a b => encA 0x01 d a b 43
  | .bunpk d a b => encA 0x01 d a b 44
  | .bunpk2 d a b => encA 0x01 d a b 45
  | .bunpk4 d a b => encA 0x01 d a b 46
  | .bunpk8 d a b => encA 0x01 d a b 47
  | .clz d a => encA 0x01 d a 0 48
  | .ctz d a => encA 0x01 d a 0 49
  | .popc d a => encA 0x01 d a 0 50
  | .brev d a => encA 0x01 d a 0 51
  | .bswap d a => encA 0x01 d a 0 52
  | .sextB d a => encA 0x01 d a 0 53
  | .sextH d a => encA 0x01 d a 0 54
  | .sextW d a => encA 0x01 d a 0 55
  | .zextB d a => encA 0x01 d a 0 56
  | .zextH d a => encA 0x01 d a 0 57
  | .zextW d a => encA 0x01 d a 0 58
  | .addi d a i => encI 0x02 d a i.toNat
  | .andi d a i => encI 0x03 d a i.toNat
  | .ori d a i => encI 0x04 d a i.toNat
  | .xori d a i => encI 0x05 d a i.toNat
  | .lti d a i => encI 0x06 d a i.toNat
  | .ltui d a i => encI 0x07 d a i.toNat
  | .jalr d a i => encI 0x12 d a i.toNat
  | .ldB d a i => encI 0x20 d a i.toNat
  | .ldBu d a i => encI 0x21 d a i.toNat
  | .ldH d a i => encI 0x22 d a i.toNat
  | .ldHu d a i => encI 0x23 d a i.toNat
  | .ldW d a i => encI 0x24 d a i.toNat
  | .ldWu d a i => encI 0x25 d a i.toNat
  | .ldD d a i => encI 0x26 d a i.toNat
  | .stB d a i => encI 0x28 d a i.toNat
  | .stH d a i => encI 0x29 d a i.toNat
  | .stW d a i => encI 0x2A d a i.toNat
  | .stD d a i => encI 0x2B d a i.toNat
  | .lcB d a i => encI 0x30 d a i.toNat
  | .lcBu d a i => encI 0x31 d a i.toNat
  | .lcH d a i => encI 0x32 d a i.toNat
  | .lcHu d a i => encI 0x33 d a i.toNat
  | .lcW d a i => encI 0x34 d a i.toNat
  | .lcWu d a i => encI 0x35 d a i.toNat
  | .lcD d a i => encI 0x36 d a i.toNat
  | .scB d a i => encI 0x38 d a i.toNat
  | .scH d a i => encI 0x39 d a i.toNat
  | .scW d a i => encI 0x3A d a i.toNat
  | .scD d a i => encI 0x3B d a i.toNat
  | .shli d a n => encI 0x08 d a n.toNat
  | .shri d a n => encI 0x09 d a n.toNat
  | .srai d a n => encI 0x0A d a n.toNat
  | .lui d i => encI 0x0B d 0 i.toNat
  | .lhi d i => encI 0x0C d 0 i.toNat
  | .lco d i => encI 0x0D d 0 i.toNat
  | .j o => encI 0x10 0 0 o.toNat
  | .jal o => encI 0x11 0 0 o.toNat
  | .beq a b o => encI 0x14 a b o.toNat
  | .bne a b o => encI 0x15 a b o.toNat
  | .blt a b o => encI 0x16 a b o.toNat
  | .bge a b o => encI 0x17 a b o.toNat
  | .bltu a b o => encI 0x18 a b o.toNat
  | .bgeu a b o => encI 0x19 a b o.toNat
  | .bmov d a b => encA 0x2C d a b 0
  | .bset d a b => encA 0x2C d a b 1
  | .bcmp d a b => encA 0x2C d a b 2
  | .pref a => encA 0x2C 0 a 0 8
  | .stnl a b => encA 0x2C 0 a b 16
  | .stnh a b => encA 0x2C 0 a b 17
  | .scnl a b => encA 0x2C 0 a b 18
  | .scnh a b => encA 0x2C 0 a b 19
  | .amoswap z d a b => encA 0x2D d a b (0 + z.code)
  | .amoadd z d a b => encA 0x2D d a b (4 + z.code)
  | .amoand z d a b => encA 0x2D d a b (8 + z.code)
  | .amoor z d a b => encA 0x2D d a b (12 + z.code)
  | .amoxor z d a b => encA 0x2D d a b (16 + z.code)
  | .amomin z d a b => encA 0x2D d a b (20 + z.code)
  | .amomax z d a b => encA 0x2D d a b (24 + z.code)
  | .amominu z d a b => encA 0x2D d a b (28 + z.code)
  | .amomaxu z d a b => encA 0x2D d a b (32 + z.code)
  | .amocas z d a b => encA 0x2D d a b (36 + z.code)
  | .amofadd z d a b => encA 0x2D d a b (40 + z.code)
  | .amodadd z a b => encA 0x2D 0 a b (44 + z.code)
  | .amodfadd z a b => encA 0x2D 0 a b (48 + z.code)
  | .afl d a => encA 0x2D d a 0 52
  | .fadd t d a b => encA 0x2E d a b (0 + t.code)
  | .fsub t d a b => encA 0x2E d a b (4 + t.code)
  | .fmul t d a b => encA 0x2E d a b (8 + t.code)
  | .fdiv t d a b => encA 0x2E d a b (12 + t.code)
  | .fsqrt t d a => encA 0x2E d a 0 (16 + t.code)
  | .fmin t d a b => encA 0x2E d a b (20 + t.code)
  | .fmax t d a b => encA 0x2E d a b (24 + t.code)
  | .fma t d a b => encA 0x2E d a b (28 + t.code)
  | .feq t d a b => encA 0x2E d a b (32 + t.code)
  | .flt t d a b => encA 0x2E d a b (36 + t.code)
  | .fle t d a b => encA 0x2E d a b (40 + t.code)
  | .fclass t d a => encA 0x2E d a 0 (44 + t.code)
  | .ftoi t d a => encA 0x2E d a 0 (48 + t.code)
  | .ftoiu t d a => encA 0x2E d a 0 (52 + t.code)
  | .itof t d a => encA 0x2E d a 0 (56 + t.code)
  | .iutof t d a => encA 0x2E d a 0 (60 + t.code)
  | .fcvt t u d a => some (0x2E * 2 ^ 26 + d.val * 2 ^ 21 + a.val * 2 ^ 16 + u.code * 2 ^ 11 + (64 + t.code))
  | .vadd t d a b m k => encV 0x1C d a b m k (0 + t.code)
  | .vsub t d a b m k => encV 0x1C d a b m k (8 + t.code)
  | .vmul t d a b m k => encV 0x1C d a b m k (16 + t.code)
  | .vmadd t d a b m k => encV 0x1C d a b m k (24 + t.code)
  | .vmin t d a b m k => encV 0x1C d a b m k (32 + t.code)
  | .vmax t d a b m k => encV 0x1C d a b m k (40 + t.code)
  | .vadds t d a b m k => encV 0x1C d a b m k (48 + t.code)
  | .vsubs t d a b m k => encV 0x1C d a b m k (56 + t.code)
  | .vaddus t d a b m k => encV 0x1C d a b m k (64 + t.code)
  | .vsubus t d a b m k => encV 0x1C d a b m k (72 + t.code)
  | .vminu t d a b m k => encV 0x1C d a b m k (80 + t.code)
  | .vmaxu t d a b m k => encV 0x1C d a b m k (88 + t.code)
  | .vand t d a b m k => encV 0x1C d a b m k (96 + t.code)
  | .vor t d a b m k => encV 0x1C d a b m k (104 + t.code)
  | .vxor t d a b m k => encV 0x1C d a b m k (112 + t.code)
  | .vshl t d a b m k => encV 0x1C d a b m k (120 + t.code)
  | .vshr t d a b m k => encV 0x1C d a b m k (128 + t.code)
  | .vsra t d a b m k => encV 0x1C d a b m k (136 + t.code)
  | .vdiv t d a b m k => encV 0x1C d a b m k (144 + t.code)
  | .vabs t d a m k => encV 0x1C d a 0 m k (152 + t.code)
  | .vsqrt t d a m k => encV 0x1C d a 0 m k (160 + t.code)
  | .vrcp t d a m k => encV 0x1C d a 0 m k (168 + t.code)
  | .vrsqrt t d a m k => encV 0x1C d a 0 m k (176 + t.code)
  | .vexp2 t d a m k => encV 0x1C d a 0 m k (184 + t.code)
  | .vlog2 t d a m k => encV 0x1C d a 0 m k (192 + t.code)
  | .vtanh t d a m k => encV 0x1C d a 0 m k (200 + t.code)
  | .vceq t m a b k => encV 0x1C 0 a b m k (208 + t.code)
  | .vcne t m a b k => encV 0x1C 0 a b m k (216 + t.code)
  | .vclt t m a b k => encV 0x1C 0 a b m k (224 + t.code)
  | .vcle t m a b k => encV 0x1C 0 a b m k (232 + t.code)
  | .vcltu t m a b k => encV 0x1C 0 a b m k (240 + t.code)
  | .vcleu t m a b k => encV 0x1C 0 a b m k (248 + t.code)
  | .vld t d a m => encV 0x1D d a 0 m false (0 + t.val)
  | .vlds t d a b m => encV 0x1D d a b m false (16 + t.val)
  | .vldx t d a b m => encV 0x1D d a b m false (32 + t.val)
  | .vst t d a m => encV 0x1D d a 0 m false (64 + t.val)
  | .vsts t d a b m => encV 0x1D d a b m false (80 + t.val)
  | .vstx t d a b m => encV 0x1D d a b m false (96 + t.val)
  | .vlc t d a m => encV 0x1D d a 0 m false (128 + t.val)
  | .vlcs t d a b m => encV 0x1D d a b m false (144 + t.val)
  | .vlcx t d a b m => encV 0x1D d a b m false (160 + t.val)
  | .vsc t d a m => encV 0x1D d a 0 m false (192 + t.val)
  | .vscs t d a b m => encV 0x1D d a b m false (208 + t.val)
  | .vscx t d a b m => encV 0x1D d a b m false (224 + t.val)
  | .vmv d a m k => encV 0x1E d a 0 m k 0x00
  | .vsel d a b m k => encV 0x1E d a b m k 0x01
  | .vperm d a b k => encV 0x1E d a b 0 k 0x02
  | .vslide d a b k => encV 0x1E d a b 0 k 0x03
  | .vcmpr d a m k => encV 0x1E d a 0 m k 0x04
  | .vexpd d a m k => encV 0x1E d a 0 m k 0x05
  | .vext m a b k => encV 0x1E 0 a b m k 0x06
  | .vins d m b => encV 0x1E d 0 b m false 0x07
  | .vzero d => encV 0x1E d 0 0 0 false 0x08
  | .vbcs t d m => encV 0x1E d 0 0 m false (0x10 + t.val)
  | .vredsum t d a m k => encV 0x1E d a 0 m k (0x21 + t.code)
  | .vredmin t d a m k => encV 0x1E d a 0 m k (0x31 + t.code)
  | .vredmax t d a m k => encV 0x1E d a 0 m k (0x41 + t.code)
  | .vcvt dt st d a m k => encV 0x1E d a dt m k (0x50 + st.val)
  | .vbsc n d a k => encV 0x1E d a 0 0 k (0x68 + n.val)
  | .vbsa n d a b k => encV 0x1E d a b 0 k (0x78 + n.val)
  | .vtag d t => encV 0x1E d 0 0 0 false (0x80 + t.val)
  | .vloop n m => encV 0x1E n 0 0 m false 0x90
  | .cpy c a b => encE 0 c.val a b 0
  | .strmIn d a b => encE 1 0 a b (28 + d.val)
  | .strmOut d a b => encE 1 1 a b (28 + d.val)
  | .gath a b => encE 2 0 a b 0
  | .scat a b => encE 2 1 a b 0
  | .mxcf a => encE 3 0 a 0 0
  | .mxq a => encE 3 1 a 0 0
  | .mxdr a b => encE 3 2 a b 0
  | .coll a b => encE 4 0 a b 0
  | .ftake a b => encE 5 0 a b 0
  | .fput a b => encE 5 1 a b 0
  | .fclr a => encE 5 2 a 0 0
  | .post a => encS 0x3D 0 a 0 0
  | .endTask => encS 0x3D 0 0 0 1
  | .claim k => encS 0x3D 0 0 k.val 2
  | .rels k => encS 0x3D 0 0 k.val 3
  | .ntfy a => encS 0x3D 0 a 0 4
  | .tadv d a b => encS 0x3D d a b.val 5
  | .tadvi d a l e k => encS 0x3D d a (l.val * 512 + e.val * 64 + k.val) 6
  | .tcmp d a b => encS 0x3D d a b.val 7
  | .cnclT d a st => encS 0x3D d a st.val 8
  | .cnclL d a p => encS 0x3D d a (2048 + p.val * 256) 8
  | .gang d f => encS 0x3D d 0 f.code 9
  | .disband => encS 0x3D 0 0 0 10
  | .ovl n => encS 0x3D 0 0 n.val 11
  | .mfs d r => encS 0x3E d 0 r.toNat 0
  | .mts r a => encS 0x3E 0 a r.toNat 1
  | .opreq n => encS 0x3E 0 0 n.val 2
  | .opreqAuto => encS 0x3E 0 0 16 2
  | .ifence => encS 0x3E 0 0 0 3
  | .trap i => encS 0x3E 0 0 i.toNat 4
  | .brk i => encS 0x3E 0 0 i.toNat 5
  | .eret => encS 0x3E 0 0 0 6
  | .pmpw n a => encS 0x3E 0 a n.val 7
  | _ => none

/-- The instruction word, as TRAPVAL of an ILLEGAL trap holds it (R276). -/
def wordOf (i : Instr) : Word := BitVec.ofNat 64 ((encode i).getD 0)

/-- An instruction that a word encodes, not a step of the part. -/
def Instr.encoded (i : Instr) : Bool := (encode i).isSome

/-- The four bytes of a word in memory, least significant first (R3, R269). -/
def wordBytes (w : Nat) : List Byte :=
  [BitVec.ofNat 8 w, BitVec.ofNat 8 (w / 2 ^ 8), BitVec.ofNat 8 (w / 2 ^ 16), BitVec.ofNat 8 (w / 2 ^ 24)]

/-- Decodes the instruction that the first four bytes hold, and gives the bytes after it. -/
def decodeBytes : List Byte → Option (Except DecodeError Instr × List Byte)
  | b0 :: b1 :: b2 :: b3 :: rest =>
    some (decodeWord (b0.toNat + 2 ^ 8 * b1.toNat + 2 ^ 16 * b2.toNat + 2 ^ 24 * b3.toNat), rest)
  | _ => none

/-- The instruction the decoder reads from a word of the opcode table. Every instruction is one word of
32 bits; bits the table leaves out above nbits are 0. -/
def decodeTableWord (nbits w : Nat) : Option Instr :=
  match decodeBytes (wordBytes (w % 2 ^ nbits)) with
  | some (.ok i, _) => some i
  | _ => none

end Sys2Proof
end

