-- ==== Sys2Proof/Config.lean ====
section
/-! DEFINITION. What is fixed for one machine: the figures the J960 chooses where the architecture
leaves a choice, and the values the spec leaves open. An open value is an opaque constant: nothing can
be proved about what it is. -/

namespace Sys2Proof.Config

/-- The lease length of R195 on J960. -/
def leaseLen : Nat := 64

/-- Cancel marks per graph slot on J960 (R111). -/
def cancelMarks : Nat := 8

/-- Footprint slots per core on J960 (R150). -/
def footprintSlots : Nat := 2

/-- Records of one landing handed to a core and not yet admitted, D of R154, on J960. -/
def landingDepth : Nat := 2

/-- Entries of a cluster tile-task queue on J960 (R159). -/
def tileQueue : Nat := 64

/-- Entries of a chain table on J960 (R161). -/
def chainTable : Nat := 16

/-- Entries of a core's progress buffer (R124). -/
def progressBuffer : Nat := 16

/-- The station times that a die's progress table, a quay die's root table and a root's request store hold on J960
(R125, R126, R135). -/
def dieTable : Nat := 4096
def rootTable : Nat := 16384
def requestStore : Nat := 4096

/-- The entries that a tile's or a cluster's node of the combining tree holds, by node, and those that the 1 MiB spill
area of a die or a quay die holds: R125 and R128 give no number. -/
opaque nodeRoom : Nat → Nat
opaque spillRoom : Nat

/-- Lines of a slot's L1, words of a tile's instruction cache, and the entries of a slot's L1 TLB, a cluster's L2 TLB and
a walker's cache of non-leaf entries on J960 (R10, R201). -/
def l1Lines : Nat := 16384
def icacheWords : Nat := 16384
def l1Tlb : Nat := 512
def l2Tlb : Nat := 8192
def nonleafCache : Nat := 256

/-- Which entry of a full structure makes room, by step number: the spec gives no choice (R10, R201). -/
opaque victim : Nat → Nat

/-- The input of a mesh stop by which records of a source come in, by source and stop: the spec gives the mesh no routing
(R10, R146). -/
opaque stopInput : Nat → Nat → Nat

/-- The byte of an address that a BAR4 read of it gives where the memory or the other end fails, by step number (R28, R31). -/
opaque barByte : Nat → Nat → BitVec 8

/-- Which of the accesses that it has still to make an engine makes next, by step number: they carry no order among
themselves (R213). -/
opaque engineOrder : Nat → Nat

/-- Bytes of one overlay window on J960 (R305). -/
def overlayWindow : Nat := 0x10000

/-- Clock cycles the tile of the acting core passes in the step of that number. The spec gives no
instruction a length (R2, R403). -/
opaque clocks : Nat → Nat

/-- How many of those cycles are stall cycles of memory, and of engines or the sequencer (R403). -/
opaque memStalls : Nat → Nat
opaque engStalls : Nat → Nat

/-- Where a trap of a front-end core enters the level above, by core and level entered: R51 and R235
name no address. -/
opaque feTrapEntry : Nat → Nat → BitVec 52

/-- Clock cycles that a plug-in call may take on J960, by its code (R55). -/
def callBudget (code : Nat) : Nat := if code = 1 then 8192 else if code = 2 then 1024 else 4096

/-- The address at which the image of a plug-in takes a call, by the image's entry and the call's code, and the regions that
the scheduler gives a plug-in, by plug-in and entry: R54 and R55 name neither. -/
opaque callEntry : Nat → Nat → BitVec 52
opaque pluginRegion : Nat → Nat → BitVec 64

/-- The current operating point of a partition, which OPVOTE is told, by step number and partition: R55 does not say which of
its tiles' points that is. -/
opaque partitionPoint : Nat → Nat → BitVec 64

/-- TRAPVAL of the PROT trap of `pmpw`, by step number: R53 names no address, and R225 gives PROT an address. -/
opaque pmpwProtVal : Nat → BitVec 64

/-- The words of the save image whose inner layout the spec does not give (R239): the sequencer saves, the
copy channels, the footprint slots, the spill ring's ends. -/
opaque imageWord : Nat → BitVec 64

/-- The charge a tile has drawn since its rail was last charged, in nanojoules per code of its voltage, by step number and
tile (R74). -/
opaque charge : Nat → Nat → Nat

/-- An engine that starts a macro-op has been idle for a microsecond or more, by step number (R79). -/
opaque idleLong : Nat → Bool

/-- What of the energy that a tile has drawn between two rotations goes to a partition, when cores of several partitions
resided there, by step number, tile and partition: R74 gives no division. -/
opaque meterShare : Nat → Nat → Nat → Nat

/-- The words of the trap-delivery record that the front end receives for a tile that the trip stops, by tile: R84 gives
its level and kind alone. -/
opaque tripWord : Nat → Nat → BitVec 64

/-- The temperature of a quarter, by step number and physical core: TEMP gives a tile's hottest sensor only
(R84). -/
opaque quarterTemp : Nat → Nat → Nat

/-- The function whose memory a 64 KiB page of this module is, by step number and page: R45 and R47 speak of a function's
own memory, and no rule gives the table. -/
opaque pageOwner : Nat → Nat → Nat

/-- The hash of two DEVIDs that pins a pair to a link of a mask (R21). -/
opaque linkHash : Nat → Nat → Nat

/-- The 244 bytes of payload that stand for what a flit carries: R18 and R19 give them no layout. -/
opaque flitPayload : Msg → BitVec 1952

/-- The buffers of 4 flits that the other end of a ferry link has for a virtual channel, by link and channel, before
any flit is sent: R18 and R19 give no number. -/
opaque ferryBuffers : Nat → Nat → Nat

/-- The number that the part's entropy source gave its identity private key at module test (R59): no path reads it out. -/
opaque identitySecret : Nat

/-- The level, less 1, that a front-end core's post takes where its record names level 0, by step number: R90 takes the
posting frame's, and a front-end core has no frame. -/
opaque fePostLevel : Nat → Nat

/-- The bytes of a configuration whose hash extends MEAS4 (R60), by the words of its tables. -/
opaque configBytes : List (List (BitVec 64)) → List (BitVec 8)

/-- The identity certificate held in the boot flashes (R59). -/
opaque certificate : List Byte

/-- The fuses and tables that provisioning fills (R58): the hashes of the two root keys, whether each
is revoked, the maker keys of the monitor's table, and the operator key of a partition. -/
opaque rootKeyHash : Nat → BitVec 384
opaque rootKeyRevoked : Nat → Bool
opaque makerKey : List Byte → Bool
opaque operatorKey : Nat → List Byte

/-- The ROM's own hash, extended into MEAS0 (R60), and the module serial number (R61). -/
opaque romHash : BitVec 384
opaque serialNumber : Word

/-- The reason that a ROM leaves in the ROM status word of the debug port when both slots have failed, by quay die:
R58 gives it no code. -/
opaque romReason : Nat → Nat

/-- The contents of the two slots of each boot flash: the monitor image and the scheduler image that
stand there, by quay die and slot (R58). -/
opaque flashMonitor : Nat → Nat → List Byte
opaque flashScheduler : Nat → Nat → List Byte

end Sys2Proof.Config
end

