-- ==== Sys2Proof/Machine/State.lean ====
section
/-! DEFINITION. The state of the machine, as plain data: everything the spec gives the module, the
reasons a step can stop, and the state after reset. A table lists only the entries that differ from
their reset value, by rising key. -/

namespace Sys2Proof.Machine

/-- Why the machine stops with a fault. -/
inductive Fault where
  /-- The agent whose turn it is names a core the module does not have (R9, R50). Raised by step
  alone, and only in a state no run from reset reaches unless its inputs name such a core. Safe. -/
  | noSuchAgent
  deriving DecidableEq, Repr

/-- Why a step has no meaning. -/
inductive Refusal where
  /-- The instruction of that mnemonic has no meaning yet; raised by exec's arms alone. Safe. -/
  | notModelled (mnemonic : String)
  deriving DecidableEq, Repr

/-- The agent whose turn it is: a compute core by logical number, or a front-end core (R7, R50). -/
inductive Agent where
  | core (lc : Nat) | fe (n : Nat)
  deriving DecidableEq, Repr

/-- Where an uncorrectable error strikes (R242): a register of a frame has its number, a vector register 32 more. -/
inductive ErrSite where
  | line (pa : Nat) | cellar (lc off : Nat) | reg (lc level r : Nat) | inbox (lc idx : Nat)
  | bank (tile b : Nat) | slot (g : Nat) | l1 (slot pa : Nat) | l2 (pa : Nat) | icache (tile pa : Nat)
  deriving DecidableEq, Repr

/-- Where an error is corrected (R28, R29): an HBM stack, an attic port, a kind of SRAM of a die. -/
inductive CorrSite where
  | stack (k : Nat) | port (p : Nat) | sram (die : Nat) (k : SramKind)
  deriving DecidableEq, Repr

/-- What comes before the agent's own step: a step of another unit, or what the outside world does (R10,
R28, R63, R70, R127, R220): a temperature, a power reading, the device time, a host store, an uncorrectable
error, a journal slot read out, a record and a count that come from another module. -/
inductive Input where
  | ev (i : Instr)
  | turn (a : Agent)
  | temperature (tile : Nat) (celsius : BitVec 8)
  | power (watts : Nat)
  | tilePower (tile milliwatts : Nat)
  | railLevel (rail code : Nat)
  | copyRoute (lc level ch g : Nat)
  | replayEnd (p n : Nat)
  | callPlugin (n core : Nat)
  | bar0Read (f off n : Nat)
  | commitWrite
  | relaxedWrite (k : Nat)
  | migRead
  | bootQuay (q : Nat)
  | withdrawTile (tile : Nat)
  | grantCap (n cap : Nat)
  | time (ns : Word)
  | hostStore (pa : Nat) (data : List Byte)
  | error (e : ErrSite)
  | corrected (e : CorrSite)
  | journalFree (p : Nat)
  | ferryDeliver (dev vc : Nat)
  | ferryIdle (link : Nat)
  | ferryTaken (link : Nat)
  | announce (g st dev : Nat)
  | footLine (lc slot : Nat)
  deriving DecidableEq, Repr

/-- The answer to a remote or host access: its data, or the class of the trap it brings. -/
inductive Answer where
  | data (bs : List Byte) | refused (cls : Nat)
  deriving DecidableEq, Repr

/-- A remote or host access that has been sent and awaits its answer (R14, R222, R321): its address,
its tag at Q0 for a host access, and the answer once it is there. -/
structure Sent where
  addr : Word
  tag : Nat
  /-- It changes memory: it is not given up when its instruction is interrupted (R233, R310). -/
  keep : Bool
  answer : Option Answer
  deriving DecidableEq, Repr

/-- The registers an executing frame and a front-end core both have (R94, R226, R254, R258). -/
structure Hart where
  regs : Vector Word 32
  /-- Word offset in the graph image, or in an inline handler; physical word address on a front-end core. -/
  pc : Nat
  fpctl : BitVec 5
  fpstat : BitVec 5
  seed : Word
  gen : Word
  trapcause : Word
  trapval : Word
  /-- Accesses sent for the instruction at pc. -/
  sent : List Sent
  /-- The instruction at pc has been counted as a stalled sender (R146, R153). -/
  stalled : Bool
  deriving DecidableEq, Repr

/-- What a frame keeps of its task header (R297, R298). -/
structure Header where
  actions : BitVec 32
  ceilings : Word
  flags : Nat
  overlays : Nat
  frameSize : Nat
  deriving DecidableEq, Repr

/-- One entry of a claim stack: the threshold before the claim, and the slot (R106). -/
structure Claim where
  before : Nat
  slot : Nat
  deriving DecidableEq, Repr

/-- A stream bound to one of s28 to s31 (R173, R383). -/
structure Stream where
  /-- A number that no other stream ever has: the tick at which it was bound. -/
  id : Nat
  out : Bool
  base : Word
  stride : Word
  n : Nat
  /-- Elements the copy unit has read or written. -/
  moved : Nat
  /-- Elements the frame has popped or pushed. -/
  used : Nat
  fifo : List Word
  /-- The end that a fault or an uncorrectable element brought: its status (R379). -/
  ended : Option Word
  succ : Rec
  deriving DecidableEq, Repr

/-- A queued vector entry with what it captured at issue (R171, R349). -/
structure SeqEntry where
  i : Instr
  pc : Nat
  fpctl : BitVec 5
  fd : Vector (BitVec 32) 8
  /-- The tag its units are read by, the tag of its index register, and the tag of its result (R350, R351). -/
  fmt : BitVec 4
  aux : BitVec 4
  res : BitVec 4
  /-- The scalar operands: the base address or the value inserted, the stride, slide or index, the mask. -/
  base : Word
  stride : Word
  mask : Word
  /-- The generator its draws start from (R260). -/
  gen : Word
  deriving DecidableEq, Repr

/-- A sequencer loop (R172, R372): its body, the iterations left and the one that runs, the current entry,
and the generator from which the rest of its draws start. -/
structure SeqLoop where
  body : List SeqEntry
  left : Nat
  iter : Nat
  at_ : Nat
  gen : Word
  deriving DecidableEq, Repr

/-- What the sequencer holds: single entries, and loops. -/
inductive SeqItem where
  | one (e : SeqEntry) | loop (l : SeqLoop)
  deriving DecidableEq, Repr

/-- A `vloop` whose body is still being issued: instructions to come, the count, the body so far, and the
issued tags before the loop (R372). -/
structure LoopIssue where
  need : Nat
  count : Nat
  body : List SeqEntry
  before : Vector (BitVec 4) 16
  deriving DecidableEq, Repr

/-- Where a byte lies: in memory of the module, in the host's, in a quarter, or in another module under an address. -/
inductive ByteAt where
  | mem (pa : Nat) | host (pa : Nat) | quarter (key : Nat) | far (dev addr : Nat)
  deriving DecidableEq, Repr

/-- A byte of a chunk's accesses: its unit and that unit's address, where it lies, and the value stored. -/
structure VByte where
  unit : Nat
  addr : Word
  place : ByteAt
  val : Byte
  deriving DecidableEq, Repr

/-- What a gang leader holds: the form and the logical cores of the members, leader first, in the
order of R183. -/
structure Gang where
  form : GangForm
  members : List Nat
  deriving DecidableEq, Repr

/-- A frame (R92, R94, R167). -/
structure Frame where
  h : Hart
  level : Nat
  kind : Nat
  window : Nat
  ltime : Word
  station : Nat
  graph : Nat
  unl : Bool
  left : Nat
  thresh : Nat
  /-- The claim stack, latest first (R106). -/
  claims : List Claim
  /-- The record the frame came from, and its re-run mark (R232, R239). -/
  rcd : Rec
  marked : Bool
  hdr : Header
  /-- The inbox entry an inline handler keeps (R101). -/
  entry : Nat
  /-- The lowest byte of the cellar frame (R149). -/
  low : Nat
  /-- The footprint regions, offset and length (R149, R151). -/
  regions : List (Nat × Nat)
  v : Vector Chunk 16
  tags : Vector (BitVec 4) 16
  /-- The issued tags (R350). -/
  itags : Vector (BitVec 4) 16
  fd : Vector (BitVec 32) 8
  mxcfg : Vector Word 4
  seq : List SeqItem
  vloop : Option LoopIssue
  /-- The chunk reached in the current entry (R172), and the accesses sent for it. -/
  chunk : Nat
  vsent : List Sent
  /-- The accesses of the current chunk, checked and in order, once one of them has been performed; and what is left to write
  of a result that a gang's vector has been given whole, with its flags (R209, R354). -/
  vplan : List (List VByte)
  vhold : Option (Nat × BitVec 5)
  streams : Vector (Option Stream) 4
  /-- Output streams whose binding has ended and whose FIFO still drains (R383). -/
  draining : List Stream
  detseq : Nat
  gang : Option Gang
  /-- The leader, when this is the member frame of a gang (R182). -/
  leader : Option Nat
  latch : Option VReg
  /-- The first remote store that failed: its class and address (R190), and the remote stores not acknowledged. -/
  rejected : Option (Nat × Word)
  unacked : Nat
  /-- A trap that waits for the next boundary: class, value, and the pc of the vector entry when the
  trap is late (R88, R234). -/
  pending : Option (Nat × Word × Option Nat)
  /-- The registers of the frame that are uncorrectable, vector register n as 32 + n; and the frame has met one, for which
  it takes DATA (R242). -/
  badRegs : List Nat
  bad : Bool
  /-- The overlay the frame selects (R305). -/
  overlay : Option Nat
  deriving DecidableEq, Repr

/-- A record in an inbox entry or in the spill ring (R144, R145, R239). -/
structure Queued where
  rcd : Rec
  arrival : Nat
  marked : Bool
  bad : Bool
  /-- It was handed over by the landing of its station (R154). -/
  landed : Bool
  /-- Its place in the spill ring (R145). -/
  ring : Option Nat
  deriving DecidableEq, Repr

/-- A footprint slot: its number, the record that holds it by arrival number, its regions, the bytes of them that have been
fetched, and whether they are pinned; a fault of the fetch is the class and value of the trap to take (R88, R150). -/
structure FootSlot where
  id : Nat
  arrival : Nat
  regions : List (Nat × Nat)
  fetched : Nat
  pinned : Bool
  fault : Option (Nat × Word)
  deriving DecidableEq, Repr

/-- A copy descriptor with its successor and the frame facts its translations need (R381). -/
structure CopyDesc where
  src : Word
  dst : Word
  len : Nat
  arm : Bool
  succ : Rec
  deriving DecidableEq, Repr

/-- A copy in progress (R382): granules written or skipped, those skipped for a bad source, the
granules whose chunks have been translated, and the first granule that a fault stopped. -/
structure CopyOp where
  d : CopyDesc
  moved : Table Bool
  skipped : Nat
  reach : Nat
  fault : Option Nat
  /-- The arm entry held, on which logical core (R176). -/
  arm : Option (Nat × Nat)
  refused : Bool
  deriving DecidableEq, Repr

/-- A copy channel (R175). -/
structure Chan where
  cur : Option CopyOp
  queue : List CopyDesc
  deriving DecidableEq, Repr

/-- An arm entry (R176). -/
structure Arm where
  lo : Nat
  hi : Nat
  wm : Nat
  deriving DecidableEq, Repr

/-- What belongs to a logical core beside its frames (R167). -/
structure Core where
  /-- The frames, the running one first: level and threshold fall along the list (R92, R97). -/
  frames : List Frame
  inbox : Table Queued
  spill : List Queued
  /-- The level-7 records of the buffer at the tile stop (R144). -/
  buffer7 : List Rec
  /-- Output streams of frames that are gone, whose last write is still on its way (R174). -/
  strays : List Stream
  arrivals : Nat
  foot : List FootSlot
  /-- Subscriptions: graph slot and station (R156). -/
  subs : List (Nat × Nat)
  /-- Channel c of level L at 2L + c (R175). -/
  chans : Table Chan
  arms : Vector (Option Arm) 4
  progress : List Delta
  opreq : BitVec 5
  eff : Nat
  opresult : Nat
  sleepctl : Word
  lease : Nat
  cycle : Word
  instret : Word
  mstall : Word
  estall : Word
  detovf : BitVec 32
  /-- Stopped for a rotation, a migration or a preemption (R81, R84, R237). -/
  stopped : Bool
  /-- The counts at the last power sample: CYCLE, MSTALL, ESTALL and whether the core has been idle
  since (R71). -/
  sample : Word × Word × Word
  busy : Bool
  deriving DecidableEq, Repr

/-- A front-end core (R50, R51, R403). -/
structure FeCore where
  h : Hart
  priv : Nat
  prev : Nat
  epc : BitVec 52
  sel : BitVec 32
  regions : Vector Word 16
  cycle : Word
  instret : Word
  halted : Bool
  released : Bool
  deriving DecidableEq, Repr

/-- A translation held by a TLB (R201): the holder is a physical slot below 1024, a cluster from 1024, the BAR4
translator at 2048; from 4096 on an engine, which holds the chunk it works on (R202): 64 times its number and its
cluster, or 32 for a quay copy engine. 33 there is the front end at work for a packet, which holds nothing. -/
structure Xlat where
  holder : Nat
  ctx : Nat
  page : Nat
  /-- The leaf entry and the level it was read at (R199). -/
  leaf : Word
  level : Nat
  deriving DecidableEq, Repr

/-- A miss that its requester has not brought to the walker yet (R201): the requester is the first holder it looks in,
the page one of 64 KiB. -/
structure Miss where
  who : Nat
  die : Nat
  ctx : Nat
  page : Nat
  deriving DecidableEq, Repr

/-- A walk in progress or queued (R201), and whether a shootdown of its context has begun since (R203). -/
structure Walk where
  die : Nat
  ctx : Nat
  page : Nat
  waiters : List Nat
  old : Bool
  deriving DecidableEq, Repr

/-- A fault that a walk has brought a waiter (R201). -/
structure WalkFault where
  who : Nat
  ctx : Nat
  page : Nat
  cls : Nat
  deriving DecidableEq, Repr

/-- A non-leaf entry in a walker's cache: the level it was read at, and the address bits above that level's (R201). -/
structure NonLeaf where
  die : Nat
  ctx : Nat
  level : Nat
  above : Nat
  entry : Word
  deriving DecidableEq, Repr

/-- A page on its way to another place (R204): the context, its address and log2 of its size, the place of the leaf,
the old and the new place and tier, and the bytes copied. It is over once the last shootdown runs. -/
structure Migration where
  ctx : Nat
  va : Nat
  lgsz : Nat
  leaf : Nat
  src : Nat
  dst : Nat
  tier : Nat
  moved : Nat
  deriving DecidableEq, Repr

/-- A tile task or a drain, with what it captured (R159, R238, R388, R390). -/
structure TileTask where
  drain : Bool
  words : Vector Word 8
  lc : Nat
  level : Nat
  /-- The graph slot of the issuing frame. -/
  graph : Nat
  ltime : Word
  arrival : Nat
  fpctl : BitVec 5
  seed : Word
  fd : Vector (BitVec 32) 8
  cfg : Vector Word 4
  succ : Option Rec
  /-- K steps completed, whether it has issued, and the flags raised so far. -/
  ksteps : Nat
  issued : Bool
  flags : BitVec 5
  /-- The status code it will end with, when it does no arithmetic or has failed. -/
  code : Nat
  skipped : Nat
  forwarded : Bool
  /-- The operand and scale granules it has read, by granule of the cellar table (R417). -/
  seen : Table (BitVec 128)
  /-- The granules that its drain has written or skipped, by number (R213). -/
  drained : List Nat
  deriving DecidableEq, Repr

/-- An accumulator bank: its tag (name, logical core, level), when the tag was set, and the elements
that are not +0, row i column j at 256 i + j (R179). -/
structure Bank where
  tag : Option (Nat × Nat × Nat)
  since : Nat
  data : Table (BitVec 32)
  bad : Bool
  deriving DecidableEq, Repr

/-- A tile's sleep (R75, R77): D0 is an awake tile that is idle. -/
inductive Sleep where
  | awake | entering (old d : Nat) | asleep (d : Nat) | waiting (d : Nat) | waking (d : Nat)
  deriving DecidableEq, Repr

/-- A tile (R66 to R84, R178, R179). -/
structure Tile where
  temp : BitVec 8
  energy : Word
  /-- TENERGY when the front end last read it at a rotation (R74), and the tile's power in the last sample, in mW (R70). -/
  credited : Word
  power : Nat
  cur : Nat
  sleep : Sleep
  /-- Forced to OP0 by the power trip, by the emergency, stopped by the hardware trip (R72, R84). -/
  emergency : Bool
  tripped : Bool
  /-- The front end has withdrawn the tile from service (R232). -/
  withdrawn : Bool
  /-- A frequency switch in progress (R73). -/
  switching : Option Nat
  banks : Vector Bank 2
  run : Option TileTask
  /-- Tile tasks stopped at a K step that keep their bank (R159). -/
  held : List TileTask
  /-- Column groups enabled, of 8 (R79). -/
  columns : Nat
  /-- The overlay that its pinned window holds: a slot and the overlay's number (R305). -/
  window : Option (Nat × Nat)
  deriving DecidableEq, Repr

/-- A chain: logical core, level, bank name, and the engine that holds it (R161). -/
structure Chain where
  lc : Nat
  level : Nat
  bank : Nat
  tile : Nat
  used : Nat
  /-- Its accumulator lies in the save slot (R180). -/
  spilled : Bool
  failed : Bool
  deriving DecidableEq, Repr

/-- A gather or scatter (R384, R385). -/
structure Gather where
  /-- The step that issued it, which names it. -/
  id : Nat
  scatter : Bool
  words : Vector Word 8
  lc : Nat
  level : Nat
  fn : Nat
  succ : Rec
  moved : Nat
  skipped : Nat
  fault : Bool
  deriving DecidableEq, Repr

/-- A cluster: its tile-task queue, forwarding buffer, chain table and streamer (R159 to R161, R384). -/
structure Cluster where
  queue : List TileTask
  forward : List TileTask
  chains : List Chain
  arrivals : Nat
  gathers : List Gather
  deriving DecidableEq, Repr

/-- The phases of a swap (R81). -/
inductive Phase where
  | waking | holding | quiesced
  deriving DecidableEq, Repr

/-- A rotation, a migration of one logical core, or the move of a pair of tiles: the tiles exchanged
and the hold acknowledgements still missing (R81, R84). -/
structure Swap where
  pairs : List (Nat × Nat)
  single : Option (Nat × Nat)
  phase : Phase
  missing : List Nat
  deriving DecidableEq, Repr

/-- A tile die (R80, R127, R130, R157, R201). -/
structure Die where
  swap : Option Swap
  /-- Frontier copies, slot g station s at 64 g + s: the announced time, none for no time left. -/
  frontiers : Table (Option Word)
  queueFull : Bool
  inService : Bool
  /-- An evaluation of the stage governor that waits for its LWEIGHT calls: the landings that want and that offer (R157). -/
  governing : Option (List (Nat × Nat) × List (Nat × Nat))
  deriving DecidableEq, Repr

/-- A supply rail (R73, R74, R78, R79). -/
structure Rail where
  code : Nat
  holding : Bool
  /-- The code it descends to. -/
  goal : Option Nat
  /-- The tile that last set its level, none since reset. -/
  setter : Option Nat
  /-- Tiles granted an arbitrated wake, and tiles that wait for one. -/
  grants : List Nat
  waiters : List Nat
  /-- Throttles of 256 clk in progress: one for each droop (R79). -/
  throttles : Nat
  /-- The targets of its four tiles since energy was last charged (R74). -/
  targets : Vector (Option Nat) 4
  /-- The step at which energy was last charged. -/
  charged : Nat
  deriving DecidableEq, Repr

/-- A write of a copy that has been routed to a cellar and has not reached it: the channel and granule, the core, the
offset and the bytes (R83). -/
structure Flying where
  lc : Nat
  level : Nat
  ch : Nat
  granule : Nat
  core : Nat
  off : Nat
  data : List Byte
  deriving DecidableEq, Repr

/-- A deferred future read (R162): the word, the successor, and who reads. -/
structure Deferred where
  word : Nat
  succ : Rec
  deriving DecidableEq, Repr

/-- An entry of a holding buffer (R331, R334). -/
structure Held where
  addr : Nat
  issuer : Nat
  seq : Nat
  float : Bool
  double : Bool
  operand : Word
  fpctl : BitVec 5
  draw : Nat
  /-- The graph slot of the issuing frame; none for a front-end core. -/
  graph : Option Nat
  deriving DecidableEq, Repr

/-- An L2 slice: pantry and holding buffer (R162, R334). -/
structure Slice where
  pantry : List Deferred
  hold : List Held
  deriving DecidableEq, Repr

/-- A resident graph slot (R86, R117, R301, R303). -/
structure Graph where
  fn : Nat
  text : Word
  words : Nat
  stations : Nat
  exit : Nat
  depths : List Nat
  /-- Path summaries: (a, b) at 64 a + b (R121). -/
  table : Table (BitVec 16)
  /-- Resource table entries (R105, R301). -/
  resources : List (BitVec 32)
  home : Nat
  cellarBase : Nat
  overlays : Bool
  deriving DecidableEq, Repr

/-- An open launch (R136): its station, time and completion point, the packet it completes, and what has
been attributed to it. -/
structure Launch where
  st : Nat
  t : Word
  point : Word
  packet : Option (Nat × Nat × Nat)
  /-- The module whose packet it is (R127). -/
  dev : Nat
  /-- Its number among the launches of the slot. -/
  serial : Nat
  aborted : Nat
  cls : Nat
  err : Bool
  cancelled : Bool
  deriving DecidableEq, Repr

/-- A cancel mark: prefix and depth (R109, R110). -/
structure CancelMark where
  t : Word
  depth : Nat
  /-- It is a halt-launch's: the launches it matches report an error too (R230). -/
  err : Bool
  deriving DecidableEq, Repr

/-- A root's table of one graph slot (R122, R126, R129, R132). Counts are at 2^64 station + time. -/
structure Root where
  counts : Table Int
  requests : Table Int
  images : List Rec
  high : Option Word
  launches : List Launch
  serial : Nat
  marks : List CancelMark
  failed : Bool
  /-- In a module that is not the slot's home: the frontiers that the home root has announced, by station (R127). -/
  announced : Table (Option Word)
  deriving DecidableEq, Repr

/-- A batch of deltas on its way up the tree (R125): the node it goes to, 0 to 255 tiles, 256 to 287
clusters, 288 to 295 dies, 296 and 297 the roots. The nodes 298 and 299 are the quay dies' own: what they drop and what
other modules send to a home root (R21, R127). The tables of 296 and 297 hold what a root has still to send to the home
roots of its slots. -/
structure Batch where
  src : Nat
  dst : Nat
  deltas : List Delta
  deriving DecidableEq, Repr

/-- Where a record on its way goes (R143). -/
inductive Dest where
  | core (lc : Nat) | landing (g st : Nat) | device (dev : Nat)
  deriving DecidableEq, Repr

/-- The source of a record, whose records keep their order (R143). -/
inductive Source where
  | core (lc : Nat) | engine (cl : Nat) | root (q : Nat) | dispatcher | device (dev : Nat) | landing (g st : Nat)
  deriving DecidableEq, Repr

/-- A record on its way (R143). -/
structure Flight where
  rcd : Rec
  src : Source
  dst : Dest
  marked : Bool
  landed : Bool
  /-- Routed to a core before the hold of a swap in progress: it reaches the core's stop (R25, R81). -/
  early : Bool
  deriving DecidableEq, Repr

/-- A record held by a landing (R152). -/
structure Landed where
  rcd : Rec
  arrival : Nat
  marked : Bool
  /-- Its place in the landing's spill ring. -/
  ring : Option Nat
  deriving DecidableEq, Repr

/-- A landing (R152, R154, R157). -/
structure Landing where
  home : Nat
  recs : List Landed
  arrivals : Nat
  subs : List Nat
  /-- Records handed to a core and not yet admitted. -/
  handed : Table Nat
  empties : Nat
  deriving DecidableEq, Repr

/-- A trap delivery the front end has still to inject (R229). -/
structure Delivery where
  lc : Nat
  rcd : Rec
  deriving DecidableEq, Repr

/-- A cancel the front end installs when a mark frees (R230). -/
structure LateCancel where
  g : Nat
  mark : CancelMark
  /-- The module that has asked for it. -/
  dev : Nat
  deriving DecidableEq, Repr

/-- A cancel mark that other modules of the domain have still to acknowledge, and the module that waits for them all
(R110). -/
structure Marking where
  g : Nat
  mark : CancelMark
  dev : Nat
  away : List Nat
  deriving DecidableEq, Repr

/-- A CANCEL of another module at the home root of its slot: its packet there, its mark, the number of the first launch
opened after it started, and how many it matched (R42, R127). -/
structure Asked where
  dev : Nat
  key : Nat × Nat × Nat
  g : Nat
  mark : CancelMark
  limit : Nat
  matched : Nat
  deriving DecidableEq, Repr

/-- The records of a launch whose counts a home root in another module has still to acknowledge: its key, what their
journal entries say, and the records (R63, R126, R127). -/
structure HeldLaunch where
  key : Nat × Nat × Nat
  kind : Nat
  f : Nat
  v : Nat
  word : Word
  recs : List Rec
  deriving DecidableEq, Repr

/-- A contribution to a collective (R391, R392), by module and core. For a collective of several modules data holds its
source as it was read, granule by granule, none for an uncorrectable one. -/
structure Contribution where
  dev : Nat
  lc : Nat
  level : Nat
  words : Vector Word 4
  data : List (Option (BitVec 128))
  succ : Rec
  deriving DecidableEq, Repr

/-- An instance of a collective: graph slot, key, number, and the contributions made; and once it is full the granules that it
has read, none for an uncorrectable one, and those it has written, by core and granule (R213, R392). -/
structure Collective where
  g : Nat
  key : Nat
  number : Nat
  parts : List Contribution
  got : Table (Option (BitVec 128))
  put : List Nat
  deriving DecidableEq, Repr

/-- How the work of a packet ended: without error, with an error and its STATUS code (0 where STATUS keeps its
tag, index and code), or with an error that stopped its VCP (R42 to R44). -/
inductive PacketEnd where
  | ok | error (code : Nat) | stopped
  deriving DecidableEq, Repr

/-- A packet that has started and not completed (R40, R42). -/
structure Started where
  index : Nat
  /-- A number that no other packet ever has: the tick at which it started. -/
  uid : Nat
  seq : Nat
  p : Rec
  /-- COPY: granules moved, skipped, and the first that a fault stopped. -/
  moved : Table Bool
  skipped : Nat
  fault : Option Nat
  /-- WAIT: the physical addresses that a restored proxy uses as saved (R48). -/
  proxy : List (Option Nat)
  /-- CANCEL: the launches matched, and the number of the first launch opened after it started. -/
  matched : Nat
  limit : Nat
  /-- The work is over: how it ended, and the word its status address receives; the address that failed (R44). -/
  ending : Option (PacketEnd × Option Word)
  failed : Option Word
  deriving DecidableEq, Repr

/-- The states of a VCP, in the order of their codes (R33). -/
inductive VcpState where
  | disabled | running | stale | error | suspended
  deriving DecidableEq, Repr

/-- A virtual command processor: its page and the front end's own state of it (R33 to R37, R43). -/
structure Vcp where
  ctl : Word
  ringbase : Word
  ringsz : Word
  tag : BitVec 32
  index : Nat
  code : Nat
  perr : Bool
  state : VcpState
  head : Nat
  done : Nat
  stalecnt : BitVec 32
  pktcnt : BitVec 32
  /-- The ring as it stood when the VCP was enabled. -/
  base : Word
  lgsz : Nat
  /-- Disabled at the next time nothing is started (R35 step 4). -/
  closing : Bool
  seq : Nat
  tail : Nat
  /-- The packet read at head and not yet started. -/
  fetched : Option Rec
  started : List Started
  /-- The slot at head had the wrong lap when it was last read (R37). -/
  missed : Bool
  /-- Discarding up to that absolute sequence number after an abort, and stopped there by an expired poll (R43). -/
  discard : Option Nat
  paused : Bool
  resume : Bool
  before : VcpState
  /-- Results of the plug-in calls of the fetched LAUNCH: ADMIT, and PMAP by level (R55). -/
  admitted : Option Bool
  pmap : Table Nat
  /-- Packets restored from a migration image, already lap-checked (R48). -/
  restored : Table Rec
  /-- A vreset is under way: it still reads the ring (R35). -/
  resetting : Bool
  deriving DecidableEq, Repr

/-- A function (R32, R45): tails of NOTIFY are in its VCPs. -/
structure Func where
  winbase : Word
  barerr : BitVec 32
  /-- The MSI-X table as the host wrote it, and the pending bits. -/
  msix : Table Word
  pba : BitVec 17
  flr : Bool
  /-- A job cancel has not reported yet (R110). -/
  cancelling : Bool
  /-- The results of the plug-in calls of an external LAUNCH (R22, R55). -/
  admitted : Option Bool
  pmap : Table Nat
  /-- The external LAUNCH that they are for: its module, tenant, key, packet and records (R22). -/
  extern : Option Msg
  /-- The module that has sent it. -/
  externDev : Nat
  deriving DecidableEq, Repr

/-- What a plug-in is called for (R55): ADMIT and PMAP for a LAUNCH of a function and VCP (255 for an external one), OPVOTE
for a partition, LWEIGHT for a landing; dropped, with its code, where nobody waits for the result any more. -/
inductive Policy where
  | letIn (f v : Nat) | pmap (f v level : Nat) | opvote (p : Nat) | lweight (g st : Nat) | dropped (code : Nat)
  deriving DecidableEq, Repr

/-- A call and its arguments, from s1 on. -/
structure Call where
  what : Policy
  args : List Word
  deriving DecidableEq, Repr

/-- A plug-in (R55, R56). -/
structure Plugin where
  loaded : Bool
  disabled : Bool
  failures : Nat
  cap : Nat
  /-- The entry address of its image (R57). -/
  entry : Nat
  /-- Calls raised, the one that has been made first. -/
  queue : List Call
  /-- The front-end core that runs a call, and its CYCLE at the `eret`; what the call returned, until it is taken. -/
  running : Option (Nat × Word)
  returned : Option PlugRes
  deriving DecidableEq, Repr

/-- The state of a preemption that no register shows (R236 to R241): the command in progress, 0 for none,
and what the save image takes from the moment of the halt. -/
structure Preemption where
  cmd : Nat
  time : Word
  seq : Nat
  /-- The tile tasks as saved: what their entries in the image have no field for. -/
  kept : List TileTask
  /-- A replay: the next journal entry to apply and the one after the last, and the COPY it re-runs (R244). -/
  replay : Option (Nat × Nat)
  copying : Option Started
  /-- The last entry a replay is to apply, where one has been chosen (R244). -/
  upto : Option Nat
  deriving DecidableEq, Repr

/-- A shootdown in progress: its range and the holders still to acknowledge (R203). -/
structure Shootdown where
  va : Nat
  lgsz : Nat
  ctx : Nat
  missing : List Nat
  deriving DecidableEq, Repr

/-- A ferry link (R18 to R21). -/
structure Link where
  up : Bool
  training : Bool
  nextSeq : Nat
  expect : Nat
  /-- Flits sent and not acknowledged. -/
  replay : List Flit
  /-- Flits that wait for a credit of their channel or for room in the replay buffer. -/
  waiting : List Flit
  /-- Flits on the wire that the other end has not taken yet, resent ones among them. -/
  wire : List Flit
  /-- By channel: flits sent for which no credit has come back, and flits received whose buffers are free and not
  credited yet (R18, R19). -/
  used : Vector Nat 8
  owed : Vector Nat 8
  naks : Nat
  retrains : Nat
  deriving DecidableEq, Repr

/-- What a link has received for this module and its unit has not taken yet: the link, the source device, the
channel, and what the flit says (R19). -/
structure Arrived where
  link : Nat
  src : Nat
  vc : Nat
  msg : Msg
  deriving DecidableEq, Repr

/-- A request that has left for another module: the core, the level, the address and the operation, or
a progress batch for a slot's home (R127, R222). -/
structure RemoteReq where
  lc : Nat
  level : Nat
  addr : Word
  op : RemoteOp
  deriving DecidableEq, Repr

/-- A request at Q0 to the host range that awaits its completion (R14): who waits, the function whose requester ID
it carries, and the access: the size to read, or an atomic's words. -/
structure HostReq where
  agent : Agent
  level : Nat
  fn : Nat
  addr : Nat
  op : RemoteOp
  /-- The bytes that the read of an atomic brought which PCIe carries as a read and a write: the write is still to be
  made (R194). -/
  old : Option (List Byte)
  deriving DecidableEq, Repr

/-- A write request at Q0: the function whose requester ID it carries, the address and the bytes (R14). -/
structure HostPost where
  fn : Nat
  addr : Nat
  data : List Byte
  deriving DecidableEq, Repr

/-- The bus address of a request, and whether it takes the 64-bit address form (R14). -/
def HostReq.bus (r : HostReq) : Nat := r.addr - 0x8000000000000
def HostReq.wide (r : HostReq) : Bool := decide (2 ^ 32 ≤ r.bus)

/-- An attic port: no trained device, in service, or failed in service (R15, R16). -/
inductive Port where
  | untrained | up | failed
  deriving DecidableEq, Repr

/-- The part of the state that boot and service keep (R26, R57 to R62). -/
structure Boot where
  modstat : BitVec 32
  quayUp : Vector Bool 2
  romStatus : Vector Nat 2
  svn : Nat
  svnRunning : Nat
  debug : Bool
  meas : Vector (BitVec 384) 6
  edges : Table (Nat × Nat)
  ports : Vector Port 4
  deriving DecidableEq, Repr

/-- A host write that has arrived: its TLP (R31, R32, R220). -/
inductive Tlp where
  | bar2 (f off : Nat) (data : List Byte)
  | bar4 (f off : Nat) (data : List Byte)
  | notify (f v : Nat) (w : BitVec 32)
  | register (f off : Nat) (w : Word)
  deriving DecidableEq, Repr

/-- The registers of PF0's BAR0 page for migration and attestation (R46, R48, R62). -/
structure Service where
  migcmd : BitVec 32
  migbuf : Word
  miglen : Word
  /-- The suspend-and-save in progress: its function, and the DEVID of its destination. -/
  migVf : Option Nat
  migDst : Nat
  /-- The restore in progress: its function, the next line of the image to read, and the lines read, 64 bytes each. -/
  restoring : Option Nat
  imageAt : Nat
  image : Table Nat
  attcmd : BitVec 32
  attbuf : Word
  /-- A command of ATTCMD is in progress. -/
  attBusy : Bool
  /-- The function of the report that it makes; none for the certificate. -/
  attFn : Option Nat
  /-- Write TLPs that have arrived and are not committed, the first first (R220). -/
  tlps : List Tlp
  /-- The loads that the scheduler level has refused: the slot and the function that each was for (R303). -/
  refused : List (Nat × Nat)
  /-- The bytes that the last read of a BAR returned to the host (R31 to R34). -/
  read : List Byte
  deriving DecidableEq, Repr

/-- The module's power and thermal supervision (R71, R72). -/
structure Power where
  watts : Nat
  above : Nat
  forced : Bool
  votes : Table Nat
  /-- Energy credited to partitions at rotations, in nJ (R74). -/
  credit : Table Nat
  /-- The trap-delivery records of tiles that the trip has stopped, as the front end received them (R84). -/
  trips : List Rec
  deriving DecidableEq, Repr

/-- What the tree, the roots, the mesh and the landings hold (chapters 06 and 07). -/
structure Progress where
  graphs : Table Graph
  roots : Table Root
  nodes : Table (List Delta)
  batches : List Batch
  flights : List Flight
  landings : Table Landing
  deliveries : List Delivery
  held7 : List (Nat × Rec)
  late : List LateCancel
  colls : List Collective
  /-- How often a core has joined a key of a slot: core c, key k, slot g at 2^42 g + 2^10 k + c. -/
  collNum : Table Nat
  remote : List RemoteReq
  /-- Accesses that engines have sent to other modules and to the host, by the engine's number. -/
  eng : List (Nat × Sent)
  /-- What ferry links have received for this module, in the order of arrival. -/
  rx : List Arrived
  /-- Messages for another module that wait for a route, by destination (R21). -/
  unrouted : List (Nat × Msg)
  /-- The link that a pair is pinned to: source s and destination d at 128 s + d (R21). -/
  pins : Table Nat
  /-- The launches whose counts a home root in another module has still to acknowledge, in order (R126, R127). -/
  holding : List HeldLaunch
  /-- The marks that other modules have still to acknowledge, and the CANCELs of other modules that wait here (R110). -/
  marking : List Marking
  asked : List Asked
  deriving DecidableEq, Repr

/-- Memory and what the accesses to it keep (chapter 09). -/
structure Mem where
  /-- The bytes that are not 0, by physical address. -/
  bytes : List Host.Cell
  /-- The same for cellars: offset o of logical core c at 2^20 c + o. -/
  cellar : List Host.Cell
  /-- The words whose future state is empty (R197), by physical address: one more than the partition that emptied it. -/
  empties : Table Nat
  /-- Uncorrectable codewords (R28): 64-byte lines, and 8-byte cellar words. -/
  badLines : Table Bool
  badCellar : Table Bool
  /-- The times wts and rts of lines at their homes and in the L1 of a slot (R195). -/
  lines : Table (Nat × Nat)
  l1 : Table (Nat × Nat)
  tlb : List Xlat
  misses : List Miss
  walks : List Walk
  faults : List WalkFault
  /-- Accesses that wait on a migrating page, each counted once (R204). -/
  migWaits : List Miss
  nonleaf : List NonLeaf
  migrations : List Migration
  /-- Uncorrectable 8-byte words of SRAM that holds a copy (R28): of L2 by physical address, of a slot's L1 by line, of an
  instruction cache. -/
  badL2 : Table Bool
  badL1 : Table Bool
  badIcache : Table Bool
  /-- Instruction cache words: tile t, word address w at 2^52 t + w (R219). -/
  icache : Table (BitVec 32)
  hostReqs : Table HostReq
  /-- The last write request that Q0 has sent to the host range. -/
  posted : Option HostPost
  flying : List Flying
  deriving DecidableEq, Repr

/-- The machine. -/
structure State where
  /-- The model's own: steps taken, whose turn it is, and what comes before that agent's step. -/
  tick : Nat
  agent : Agent
  inputs : List Input
  mem : Mem
  cores : Table Core
  fes : Table FeCore
  /-- The front-end tables of R404, entry idx of table tbl at 2^24 tbl + idx. -/
  feTab : Table Word
  /-- The counters, code c at instance i: 2^12 c + i (R404). -/
  counters : Table (BitVec 32)
  timestamp : Word
  devid : BitVec 7
  tiles : Table Tile
  clusters : Table Cluster
  dies : Table Die
  rails : Table Rail
  slices : Table Slice
  prog : Progress
  funcs : Table Func
  /-- VCP v of function f at 16 f + v. -/
  vcps : Table Vcp
  plugins : Table Plugin
  /-- Journal entries in the ring, and entries not written, by partition (R63, R64). -/
  journalUsed : Table Nat
  journalGap : Table Nat
  preempts : Table Preemption
  shootdowns : Table Shootdown
  links : Table Link
  boot : Boot
  service : Service
  power : Power
  deriving DecidableEq, Repr

/-! ### Reset values -/

/-- A record of zeros. -/
def Rec.zero : Rec := ⟨0, 0, 0, 0, 0, 0, 0, 0⟩

/-- The registers of a hart before anything is written (R94; for a front-end core log entry 3). -/
def Hart.zero : Hart :=
  { regs := Vector.replicate 32 0, pc := 0, fpctl := 0, fpstat := 0, seed := 0, gen := 0x9E3779B97F4A7C15#64,
    trapcause := 0, trapval := 0, sent := [], stalled := false }

/-- A header of zeros: every trap aborts, nothing is declared. -/
def Header.zero : Header := { actions := 0, ceilings := 0, flags := 0, overlays := 0, frameSize := 0 }

/-- A frame of level 1 with everything at its value at admission (R94). -/
def Frame.zero : Frame :=
  { h := Hart.zero, level := 1, kind := 0, window := 8, ltime := 0, station := 0, graph := 0, unl := true,
    left := 0, thresh := 1, claims := [], rcd := Rec.zero, marked := false, hdr := Header.zero, entry := 0,
    low := 0x60000, regions := [], v := Vector.replicate 16 0, tags := Vector.replicate 16 0,
    itags := Vector.replicate 16 0, fd := Vector.replicate 8 0, mxcfg := Vector.replicate 4 0, seq := [], vloop := none, chunk := 0, vsent := [], vplan := [], vhold := none,
    streams := Vector.replicate 4 none, draining := [], detseq := 0, gang := none, leader := none, latch := none,
    rejected := none, unacked := 0, pending := none, badRegs := [], bad := false, overlay := none }

/-- A copy channel with nothing to do (R175). -/
def Chan.reset : Chan := { cur := none, queue := [] }

/-- A logical core at reset (R68, R69, R76, R95, R147, R196, R403). -/
def Core.reset : Core :=
  { frames := [], inbox := [], spill := [], buffer7 := [], strays := [], arrivals := 0, foot := [], subs := [], chans := [],
    arms := Vector.replicate 4 none, progress := [], opreq := 28, eff := 12, opresult := 0,
    sleepctl := 0x138800C800140002#64, lease := 0, cycle := 0, instret := 0, mstall := 0, estall := 0,
    detovf := 0, stopped := false, sample := (0, 0, 0), busy := false }

/-- A front-end core at reset: at monitor level; 0 and 8 run, the others are held (R58, R403). -/
def FeCore.reset (n : Nat) : FeCore :=
  { h := Hart.zero, priv := 2, prev := 0, epc := 0, sel := 0, regions := Vector.replicate 16 0, cycle := 0,
    instret := 0, halted := false, released := n == 0 || n == 8 }

/-- A bank that is free. -/
def Bank.reset : Bank := { tag := none, since := 0, data := [], bad := false }

/-- A tile at reset: OP6 (R67), awake; its temperature is log entry 3's. -/
def Tile.reset : Tile :=
  { temp := 40, energy := 0, credited := 0, power := 0, cur := 6, sleep := .awake, emergency := false, tripped := false, withdrawn := false, switching := none,
    banks := Vector.replicate 2 Bank.reset, run := none, held := [], columns := 0, window := none }

/-- A cluster with nothing queued. -/
def Cluster.reset : Cluster := { queue := [], forward := [], chains := [], arrivals := 0, gathers := [] }

/-- A die before bring-up has passed it. -/
def Die.reset : Die := { swap := none, frontiers := [], queueFull := false, inService := false, governing := none }

/-- A rail at code 60 (R67). -/
def Rail.reset : Rail :=
  { code := 60, holding := false, goal := none, setter := none, grants := [], waiters := [], throttles := 0
    targets := Vector.replicate 4 (some 12), charged := 0 }

/-- A slice with nothing deferred and nothing held. -/
def Slice.reset : Slice := { pantry := [], hold := [] }

/-- A root with no counts. -/
def Root.reset : Root :=
  { counts := [], requests := [], images := [], high := none, launches := [], serial := 0, marks := [], failed := false
    announced := [] }

/-- A landing with no record. -/
def Landing.reset : Landing := { home := 0, recs := [], arrivals := 0, subs := [], handed := [], empties := 0 }

/-- A VCP page at its reset values, the VCP disabled (R33). -/
def Vcp.reset : Vcp :=
  { ctl := 0, ringbase := 0, ringsz := 0, tag := 0, index := 0, code := 0, perr := false, state := .disabled,
    head := 0, done := 0, stalecnt := 0, pktcnt := 0, base := 0, lgsz := 6, closing := false, seq := 0, tail := 0,
    fetched := none, started := [], missed := false, discard := none, paused := false, resume := false, before := .disabled,
    admitted := none, pmap := [], restored := [], resetting := false }

/-- A function at reset (R32). -/
def Func.reset : Func := { winbase := 0, barerr := 0, msix := [], pba := 0, flr := false, cancelling := false, admitted := none, pmap := [], extern := none, externDev := 0 }

/-- A plug-in not loaded. -/
def Plugin.reset : Plugin := { loaded := false, disabled := false, failures := 0, cap := 6, entry := 0, queue := [], running := none, returned := none }

/-- A partition that is not preempted. -/
def Preemption.reset : Preemption := { cmd := 0, time := 0, seq := 0, kept := [], replay := none, copying := none, upto := none }

/-- A ferry link that is up, with nothing sent. -/
def Link.reset : Link :=
  { up := true, training := false, nextSeq := 0, expect := 0, replay := [], waiting := [], wire := []
    used := Vector.replicate 8 0, owed := Vector.replicate 8 0, naks := 0, retrains := 0 }

/-- Each of the 14 edges has 12 modules at 32 GT/s (R11). -/
def allEdges : Table (Nat × Nat) :=
  [(0, 12, 32), (1, 12, 32), (2, 12, 32), (3, 12, 32), (4, 12, 32), (5, 12, 32), (6, 12, 32), (7, 12, 32), (8, 12, 32),
    (9, 12, 32), (10, 12, 32), (11, 12, 32), (12, 12, 32), (13, 12, 32)]

/-- Nothing booted (R26, R60, R61). -/
def Boot.reset : Boot :=
  { modstat := 0, quayUp := Vector.replicate 2 false, romStatus := Vector.replicate 2 0, svn := 0, svnRunning := 0,
    debug := false, meas := Vector.replicate 6 0, edges := allEdges, ports := Vector.replicate 4 .untrained }

/-- PF0's command registers (R46, R62). -/
def Service.reset : Service :=
  { migcmd := 0, migbuf := 0, miglen := 0, migVf := none, migDst := 0, restoring := none, imageAt := 0, image := []
    attcmd := 0, attbuf := 0, attBusy := false, attFn := none, tlps := [], refused := [], read := [] }

/-- No sample above the cap, no vote. -/
def Power.reset : Power := { watts := 0, above := 0, forced := false, votes := [], credit := [], trips := [] }

/-- No graph, no record, no count. -/
def Progress.reset : Progress :=
  { graphs := [], roots := [], nodes := [], batches := [], flights := [], landings := [], deliveries := [],
    held7 := [], late := [], colls := [], collNum := [], remote := [], eng := [], rx := [], unrouted := [], pins := []
    holding := [], marking := [], asked := [] }

/-- Memory that nothing has written: every byte 0 (log entry 2), every future full (R197). -/
def Mem.reset : Mem :=
  { bytes := [], cellar := [], empties := [], badLines := [], badCellar := [], lines := [], l1 := [], tlb := [], misses := [],
    walks := [], faults := [], migWaits := [], nonleaf := [], migrations := [], badL2 := [], badL1 := [], badIcache := [], icache := [], hostReqs := [], posted := none, flying := [] }

/-- The machine right after reset. -/
def State.reset : State :=
  { tick := 0, agent := .fe 0, inputs := [], mem := Mem.reset, cores := [], fes := [], feTab := [], counters := [],
    timestamp := 0, devid := 0, tiles := [], clusters := [], dies := [], rails := [], slices := [],
    prog := Progress.reset, funcs := [], vcps := [], plugins := [], journalUsed := [], journalGap := [],
    preempts := [], shootdowns := [], links := [], boot := Boot.reset, service := Service.reset,
    power := Power.reset }

end Sys2Proof.Machine
end

