-- ==== Sys2Proof/Machine/Table.lean ====
section
/-! DEFINITION. Reading and changing a sparse table, bit fields, and byte order. -/

namespace Sys2Proof.Machine

variable {α : Type}

/-- What a table holds at a key; d where no entry stands. -/
def tget (d : α) : Table α → Nat → α
  | [], _ => d
  | (k, v) :: t, x => if k = x then v else tget d t x

/-- The entry at a key, if one stands there. -/
def tfind : Table α → Nat → Option α
  | [], _ => none
  | (k, v) :: t, x => if k = x then some v else tfind t x

/-- Put an entry in its place by rising key, in the place of an older one. -/
def tput (k : Nat) (v : α) : Table α → Table α
  | [] => [(k, v)]
  | (k', v') :: t =>
    if k < k' then (k, v) :: (k', v') :: t else if k = k' then (k, v) :: t else (k', v') :: tput k v t

/-- Remove the entry at a key. -/
def tdel (k : Nat) : Table α → Table α
  | [] => []
  | (k', v') :: t => if k' = k then tdel k t else (k', v') :: tdel k t

/-- Write a value where the default d is not listed: writing d removes the entry. -/
def mput [DecidableEq α] (d : α) (k : Nat) (v : α) (t : Table α) : Table α :=
  if v = d then tdel k t else tput k v t

/-- The field of a word from bit lo, len bits wide. -/
def bits (w : Word) (lo len : Nat) : Nat := w.toNat / 2 ^ lo % 2 ^ len

/-- One bit of a word. -/
def bit (w : Word) (i : Nat) : Bool := bits w i 1 == 1

/-- A word with a field set to the low bits of v. -/
def setBits (w : Word) (lo len v : Nat) : Word :=
  BitVec.ofNat 64 (w.toNat - bits w lo len * 2 ^ lo + v % 2 ^ len * 2 ^ lo)

/-- The low n bits of x, sign-extended to 64 bits (R8). -/
def sext (n x : Nat) : Word :=
  if x / 2 ^ (n - 1) % 2 = 1 then BitVec.ofNat 64 (x % 2 ^ n + (2 ^ 64 - 2 ^ n)) else BitVec.ofNat 64 (x % 2 ^ n)

/-- The low n bits of x as a signed number. -/
def sint (n x : Nat) : Int :=
  if x / 2 ^ (n - 1) % 2 = 1 then (x % 2 ^ n : Int) - 2 ^ n else (x % 2 ^ n : Int)

/-- n consecutive numbers from a. -/
def span (a : Nat) : Nat → List Nat
  | 0 => []
  | n + 1 => a :: span (a + 1) n

/-- Bytes as one little-endian number (R3). -/
def leNat : List Byte → Nat
  | [] => 0
  | b :: bs => b.toNat + 256 * leNat bs

/-- The n low bytes of a number, the least significant first (R3). -/
def leBytes : Nat → Nat → List Byte
  | 0, _ => []
  | n + 1, v => BitVec.ofNat 8 v :: leBytes n (v / 256)

/-- The byte an address holds; an unlisted address holds 0. -/
def byteAt (m : List Host.Cell) (a : Nat) : Byte := tget 0 m a

/-- The bytes of n addresses from a. -/
def bytesAt (m : List Host.Cell) (a : Nat) : Nat → List Byte
  | 0 => []
  | n + 1 => byteAt m a :: bytesAt m (a + 1) n

/-- Write one byte, keeping only bytes that are not 0. -/
def putByte (m : List Host.Cell) (a : Nat) (b : Byte) : List Host.Cell := mput 0 a b m

/-- Write bytes at ascending addresses from a. -/
def putBytes (m : List Host.Cell) (a : Nat) : List Byte → List Host.Cell
  | [] => m
  | b :: bs => putBytes (putByte m a b) (a + 1) bs

/-- The bytes of a list of addresses. -/
def gatherBytes (m : List Host.Cell) : List Nat → List Byte
  | [] => []
  | a :: l => byteAt m a :: gatherBytes m l

/-- Write bytes at a list of addresses, in order. -/
def scatterBytes (m : List Host.Cell) : List Nat → List Byte → List Host.Cell
  | a :: l, b :: bs => scatterBytes (putByte m a b) l bs
  | _, _ => m

/-- The canonical form of memory: addresses strictly rising, no byte that an unlisted address reads as. -/
def Memory.wf : List Host.Cell → Bool
  | [] => true
  | (a, b) :: m => b != 0 && Memory.wf m && (match m with
    | [] => true
    | (a', _) :: _ => decide (a < a'))

/-- A list with its element at i changed. -/
def modifyAt (f : α → α) : List α → Nat → List α
  | [], _ => []
  | x :: l, 0 => f x :: l
  | x :: l, i + 1 => x :: modifyAt f l i

/-- A list without its element at i. -/
def removeAt : List α → Nat → List α
  | [], _ => []
  | _ :: l, 0 => l
  | x :: l, i + 1 => x :: removeAt l i

/-- Insert before the first element that must come after. -/
def insertBy (before : α → α → Bool) (x : α) : List α → List α
  | [] => [x]
  | y :: l => if before x y then x :: y :: l else y :: insertBy before x l

/-- The least element by a strict order, the first of equals. -/
def leastBy (before : α → α → Bool) : List α → Option α
  | [] => none
  | x :: l =>
    match leastBy before l with
    | none => some x
    | some y => if before y x then some y else some x

end Sys2Proof.Machine
end

