-- ==== Sys2Proof/Machine/Access.lean ====
section
/-! DEFINITION. Reading and writing the parts of the state: each unit by its number, the front-end
tables, the counters, and where a logical core stands. -/

namespace Sys2Proof.Machine

/-! ### Records -/

/-- The fields of Q0 (R87). -/
def Rec.budget (r : Rec) : Nat := bits r.q0 60 4
def Rec.dev (r : Rec) : Nat := bits r.q0 53 7
def Rec.any (r : Rec) : Bool := bit r.q0 52
def Rec.tcore (r : Rec) : Nat := bits r.q0 42 10
def Rec.graph (r : Rec) : Nat := bits r.q0 38 4
def Rec.station (r : Rec) : Nat := bits r.q0 32 6
def Rec.fpn (r : Rec) : Nat := bits r.q0 30 2
def Rec.kind (r : Rec) : Nat := bits r.q0 27 3
def Rec.level (r : Rec) : Nat := bits r.q0 24 3
def Rec.entry (r : Rec) : Nat := bits r.q0 0 24

/-- A record with one field of Q0 changed. -/
def Rec.set (r : Rec) (lo len v : Nat) : Rec := { r with q0 := setBits r.q0 lo len v }

/-- Sent to a named logical core of a device: any = 0 (R232). -/
def Rec.toCore (r : Rec) (dev lc : Nat) : Rec := ((r.set 53 7 dev).set 52 1 0).set 42 10 lc

/-- The words of a record, and a record of eight words. -/
def Rec.words (r : Rec) : List Word := [r.q0, r.q1, r.q2, r.q3, r.q4, r.q5, r.q6, r.q7]
def Rec.ofWords : List Word → Rec
  | [a, b, c, d, e, f, g, h] => ⟨a, b, c, d, e, f, g, h⟩
  | _ => Rec.zero

/-- The 64 bytes of a record, and the record of 64 bytes as one number (R87). -/
def Rec.bytes (r : Rec) : List Byte := r.words.flatMap fun w => leBytes 8 w.toNat
def Rec.ofNat (n : Nat) : Rec := Rec.ofWords ((span 0 8).map fun i => BitVec.ofNat 64 (n / 2 ^ (64 * i)))

/-- The footprint descriptors: the last fpn of Q7, Q6, Q5, as length in 64-byte units and base (R88). -/
def Rec.footprint (r : Rec) : List (Nat × Nat) :=
  ([r.q7, r.q6, r.q5].take r.fpn).map fun d => (bits d 50 14, bits d 0 50 * 64)

/-! ### Units -/

/-- A logical core. -/
def State.core (s : State) (lc : Nat) : Core := tget Core.reset s.cores lc
def State.setCore (s : State) (lc : Nat) (c : Core) : State := { s with cores := tput lc c s.cores }

/-- A front-end core. -/
def State.fe (s : State) (n : Nat) : FeCore := tget (FeCore.reset n) s.fes n
def State.setFe (s : State) (n : Nat) (c : FeCore) : State := { s with fes := tput n c s.fes }

def State.tile (s : State) (t : Nat) : Tile := tget Tile.reset s.tiles t
def State.setTile (s : State) (t : Nat) (x : Tile) : State := { s with tiles := tput t x s.tiles }
def State.cluster (s : State) (c : Nat) : Cluster := tget Cluster.reset s.clusters c
def State.setCluster (s : State) (c : Nat) (x : Cluster) : State := { s with clusters := tput c x s.clusters }
def State.die (s : State) (d : Nat) : Die := tget Die.reset s.dies d
def State.setDie (s : State) (d : Nat) (x : Die) : State := { s with dies := tput d x s.dies }
def State.rail (s : State) (r : Nat) : Rail := tget Rail.reset s.rails r
def State.setRail (s : State) (r : Nat) (x : Rail) : State := { s with rails := tput r x s.rails }
def State.slice (s : State) (n : Nat) : Slice := tget Slice.reset s.slices n
def State.setSlice (s : State) (n : Nat) (x : Slice) : State := { s with slices := tput n x s.slices }
def State.func (s : State) (f : Nat) : Func := tget Func.reset s.funcs f
def State.setFunc (s : State) (f : Nat) (x : Func) : State := { s with funcs := tput f x s.funcs }
def State.vcp (s : State) (f v : Nat) : Vcp := tget Vcp.reset s.vcps (16 * f + v)
def State.setVcp (s : State) (f v : Nat) (x : Vcp) : State := { s with vcps := tput (16 * f + v) x s.vcps }
def State.plugin (s : State) (n : Nat) : Plugin := tget Plugin.reset s.plugins n
def State.setPlugin (s : State) (n : Nat) (x : Plugin) : State := { s with plugins := tput n x s.plugins }
def State.preemption (s : State) (p : Nat) : Preemption := tget Preemption.reset s.preempts p
def State.setPreemption (s : State) (p : Nat) (x : Preemption) : State := { s with preempts := tput p x s.preempts }
def State.link (s : State) (n : Nat) : Link := tget Link.reset s.links n
def State.setLink (s : State) (n : Nat) (x : Link) : State := { s with links := tput n x s.links }
def State.root (s : State) (g : Nat) : Root := tget Root.reset s.prog.roots g
def State.setRoot (s : State) (g : Nat) (x : Root) : State :=
  { s with prog := { s.prog with roots := tput g x s.prog.roots } }
def State.node (s : State) (n : Nat) : List Delta := tget [] s.prog.nodes n
def State.setNode (s : State) (n : Nat) (x : List Delta) : State :=
  { s with prog := { s.prog with nodes := tput n x s.prog.nodes } }
def State.landing (s : State) (g st : Nat) : Landing := tget Landing.reset s.prog.landings (64 * g + st)
def State.setLanding (s : State) (g st : Nat) (x : Landing) : State :=
  { s with prog := { s.prog with landings := tput (64 * g + st) x s.prog.landings } }

/-- The graph resident in a slot. -/
def State.graph (s : State) (g : Nat) : Option Graph := tfind s.prog.graphs g

/-- The chain of record flights with one more at its end. -/
def State.addFlight (s : State) (x : Flight) : State :=
  { s with prog := { s.prog with flights := s.prog.flights ++ [x] } }
def State.addBatch (s : State) (b : Batch) : State :=
  { s with prog := { s.prog with batches := s.prog.batches ++ [b] } }

/-! ### Front-end tables (R404, R405) -/

/-- The reset value of an entry of a front-end table. -/
def feDefault (tbl : Nat) : Word :=
  match tbl with
  | 1 => 0xF0
  | 2 => 3600
  | 3 => 0x6430
  | 4 => 0x00C8046900000001
  | 5 => 0x0000000401080180
  | 9 => 16
  | 10 => 0x01000000
  | 20 => 0xA0
  | 22 => 12
  | _ => 0

/-- How many entries a front-end table has (R404). -/
def feSize (tbl : Nat) : Nat :=
  match tbl with
  | 1 => 256 | 2 => 1 | 3 => 64 | 4 => 8 | 5 => 1024 | 6 => 256 | 7 => 256 | 8 => 2 | 9 => 2
  | 10 => 4096 | 11 => 256 | 12 => 1024 | 13 => 512 | 14 => 128 | 15 => 512 | 16 => 0x1000000
  | 17 => 256 | 18 => 1024 | 19 => 1024 | 20 => 512 | 21 => 10 | 22 => 1024 | 23 => 64 | 24 => 1024
  | _ => 0

/-- An entry of a front-end table. Half 1 of a journal entry resets to 0. -/
def State.entry (s : State) (tbl idx : Nat) : Word :=
  tget (if tbl = 20 ∧ idx % 2 = 1 then 0 else feDefault tbl) s.feTab (tbl * 2 ^ 24 + idx)
def State.setEntry (s : State) (tbl idx : Nat) (w : Word) : State :=
  { s with feTab := tput (tbl * 2 ^ 24 + idx) w s.feTab }

/-- A logical core is mapped, held, and stands at a physical core (R24). -/
def State.mapped (s : State) (lc : Nat) : Bool := bit (s.entry 12 lc) 15
def State.heldCore (s : State) (lc : Nat) : Bool := bit (s.entry 12 lc) 14
def State.phys (s : State) (lc : Nat) : Nat := bits (s.entry 12 lc) 0 10

/-- The tile (32 die + tile), cluster (4 die + cluster) and die a logical core stands on (R7). -/
def State.tileOf (s : State) (lc : Nat) : Nat := s.phys lc / 4
def State.clusterOf (s : State) (lc : Nat) : Nat := s.phys lc / 32
def State.dieOf (s : State) (lc : Nat) : Nat := s.phys lc / 128

/-- The logical core mapped to a physical core, among those below n. -/
def State.logicalAt (s : State) (p : Nat) : Nat → Option Nat
  | 0 => none
  | n + 1 => if s.mapped n && s.phys n == p then some n else s.logicalAt p n

/-- The logical cores on a tile, by slot. -/
def State.coresOn (s : State) (tile : Nat) : List Nat :=
  (span (4 * tile) 4).filterMap fun p => s.logicalAt p 1024

/-- The partition of a logical core (R405). -/
def State.partOf (s : State) (lc : Nat) : Nat := bits (s.entry 24 lc) 0 8
def State.inPart (s : State) (p lc : Nat) : Bool := bit (s.entry 24 lc) 63 && s.partOf lc == p

/-- The logical cores of a partition. -/
def State.coresOf (s : State) (p : Nat) : List Nat := (span 0 1024).filter (s.inPart p)

/-- What a function is bound to (R405). -/
def State.bound (s : State) (f : Nat) : Bool := bit (s.entry 23 f) 63
def State.fnPart (s : State) (f : Nat) : Nat := bits (s.entry 23 f) 40 8
def State.fnCtx (s : State) (f : Nat) : Nat := bits (s.entry 23 f) 32 8
def State.fnPlug (s : State) (f : Nat) : Nat := bits (s.entry 23 f) 24 8

/-- The function whose graph a slot holds, and its address context (R198). -/
def State.fnOf (s : State) (g : Nat) : Nat := ((s.graph g).map Graph.fn).getD 0
def State.ctxOf (s : State) (g : Nat) : Nat := s.fnCtx (s.fnOf g)

/-- A device is in a partition's DOMSET; the module's own always is (R189). -/
def State.inDomain (s : State) (p dev : Nat) : Bool :=
  dev == s.devid.toNat || bit (s.entry 15 (2 * p + dev / 64)) (dev % 64)

/-- A partition is halted: it runs nothing (R236). -/
def State.partState (s : State) (p : Nat) : Nat := bits (s.entry 6 p) 56 3

/-! ### Counters (R29 to R245; codes R404) -/

/-- The counters by code. -/
def cHBMCE := 1
def cHBMUE := 2
def cSRAMCE := 3
def cSRAMUE := 4
def cD2DRTY := 5
def cD2DDEG := 6
def cFCRC := 7
def cFPROT := 8
def cFRTRN := 9
def cFDOWN := 10
def cFDROP := 11
def cLREJ := 12
def cCXLCE := 13
def cCXLUE := 14
def cCXLDOWN := 15
def cPLGOVR := 16
def cPLGFLT := 17
def cPLGSKIP := 18
def cMONFLT := 19
def cBOOTALT := 20
def cJDROP := 21
def cOPDENY := 22
def cPWRTRIP := 23
def cDROOP := 24
def cWAKEWAIT := 25
def cROTCNT := 26
def cROTSKIP := 27
def cEMIG := 28
def cTHTRIP := 29
def cBADREC := 30
def cENTRYF := 31
def cBUDGETX := 32
def cCLAIMF := 33
def cCNCLBUSY := 34
def cCNCLDROP := 35
def cPSPILL := 36
def cRSPILL := 37
def cNSPILL := 38
def cTIMEF := 39
def cLREOPEN := 40
def cISPILL := 41
def cISTALL := 42
def cFPEVICT := 43
def cLSPILL := 44
def cLSTALL := 45
def cLMOVE := 46
def cMXPRE := 47
def cMXFWD := 48
def cCHAINX := 49
def cPNACK := 50
def cWALKUE := 51
def cWALKQ := 52
def cTLBSD := 53
def cMIGWAIT := 54
def cMIGABN := 55
def cTRAPS := 56
def cRERUN := 72
def cHNDFLT := 73
def cKILLS := 74
def cPREEMPTS := 75
def cUEDROP := 76
def cSLOTFAIL := 77
def cHOSTERR := 78
def cWREJ := 79

/-- A 32-bit count that saturates (R29). -/
def satAdd (c : BitVec 32) (n : Nat) : BitVec 32 :=
  if c.toNat + n < 2 ^ 32 then BitVec.ofNat 32 (c.toNat + n) else 0xFFFFFFFF

/-- A counter. -/
def State.counter (s : State) (code inst : Nat) : BitVec 32 := tget 0 s.counters (code * 4096 + inst)
def State.setCounter (s : State) (code inst : Nat) (v : BitVec 32) : State :=
  { s with counters := mput 0 (code * 4096 + inst) v s.counters }

/-- A counter rises by n. -/
def State.countBy (s : State) (code inst n : Nat) : State :=
  s.setCounter code inst (satAdd (s.counter code inst) n)
def State.count (s : State) (code inst : Nat) : State := s.countBy code inst 1

/-! ### The frames of a core -/

/-- The running frame of a core. -/
def State.top (s : State) (lc : Nat) : Option Frame := (s.core lc).frames.head?

/-- PRIO and THRESH of a core (R95). -/
def Core.prio (c : Core) : Nat := (c.frames.head?.map Frame.level).getD 0
def Core.thresh (c : Core) : Nat := (c.frames.head?.map Frame.thresh).getD 0

/-- Change the running frame of a core. -/
def State.setTop (s : State) (lc : Nat) (f : Frame) : State :=
  let c := s.core lc
  match c.frames with
  | [] => s
  | _ :: fs => s.setCore lc { c with frames := f :: fs }

/-- The hart of the agent whose turn it is. -/
def State.hart (s : State) : Hart :=
  match s.agent with
  | .core lc => ((s.top lc).map Frame.h).getD Hart.zero
  | .fe n => (s.fe n).h

/-- Change the hart of the agent whose turn it is. -/
def State.setHart (s : State) (h : Hart) : State :=
  match s.agent with
  | .core lc =>
    match s.top lc with
    | none => s
    | some f => s.setTop lc { f with h := h }
  | .fe n => s.setFe n { s.fe n with h := h }

/-! ### Physical memory (R13, R193) -/

/-- The regions of the physical address map (R13). -/
inductive Region where
  | hbm (pa : Nat) | attic | remote (dev off : Nat) | host | hole
  deriving DecidableEq, Repr

/-- The region of a physical address; a remote address of the own device reaches local HBM (R13). -/
def State.region (s : State) (pa : Nat) : Region :=
  if pa < 0xC000000000 then .hbm pa
  else if 0x1000000000000 ≤ pa ∧ pa < 0x1010000000000 then .attic
  else if 0x2000000000000 ≤ pa ∧ pa < 0x2800000000000 then
    let dev := (pa - 0x2000000000000) / 2 ^ 40
    let off := pa % 2 ^ 40
    if off < 0xC000000000 then (if dev = s.devid.toNat then .hbm off else .remote dev off) else .hole
  else if 0x8000000000000 ≤ pa ∧ pa < 0x10000000000000 then .host
  else .hole

/-- The stack, home die and home slice (16 die + slice) of an address (R193). -/
def stackOf (pa : Nat) : Nat :=
  (pa / 2 ^ 16 % 16) ^^^ (pa / 2 ^ 20 % 16) ^^^ (pa / 2 ^ 24 % 16) ^^^ (pa / 2 ^ 28 % 16) ^^^
    (pa / 2 ^ 32 % 16) ^^^ (pa / 2 ^ 36 % 16)
def sliceOf (pa : Nat) : Nat :=
  16 * (stackOf pa / 2) + 8 * (stackOf pa % 2) +
    ((pa / 2 ^ 6 % 8) ^^^ (pa / 2 ^ 9 % 8) ^^^ (pa / 2 ^ 12 % 8))

/-- The attic port a page lies on (R15). -/
def atticPort (pa : Nat) : Nat := pa / 2 ^ 16 % 4

end Sys2Proof.Machine
end

