-- ==== Sys2Proof/Machine/Ferry.lean ====
section
/-! DEFINITION. The ferry links of the module: flits and their CRC, credits and replay, and sending a message to
another module over the link that its pair is pinned to (R18 to R21). -/

namespace Sys2Proof.Machine

/-! ### Flits (R18) -/

/-- One bit of the CRC of polynomial 0x04C1_1DB7, least significant bit first as 802.3 sends it. -/
def crcShift (c : Nat) : Nat := if c % 2 = 1 then c / 2 ^^^ 0xEDB88320 else c / 2
def crcByte (c : Nat) (b : Byte) : Nat :=
  crcShift (crcShift (crcShift (crcShift (crcShift (crcShift (crcShift (crcShift (c ^^^ b.toNat))))))))

/-- The CRC-32 of bytes: started and inverted as 802.3 does (log entry 87). -/
def crc32 (bs : List Byte) : BitVec 32 := BitVec.ofNat 32 (bs.foldl crcByte 0xFFFFFFFF ^^^ 0xFFFFFFFF)

/-- The 8 bytes of a header. -/
def headerWord (h : FlitHeader) : Word :=
  h.type ++ h.vc ++ h.seq ++ h.ack ++ h.hops ++ h.srcdev ++ h.dstdev ++ h.credits

/-- The CRC that a flit is sent with: over its header and its 244 bytes of payload. -/
def flitSum (f : Flit) : BitVec 32 := crc32 (leBytes 8 (headerWord f.h).toNat ++ leBytes 244 (Config.flitPayload f.msg).toNat)

/-- The channel of a message (R19). -/
def channelOf : Msg → Nat
  | .none | .access .. => 0
  | .response .. | .reject .. | .launchReject _ => 1
  | .record _ => 2
  | .deltas _ | .frontier .. | .opening .. | .counted .. | .completed .. | .mark .. | .marked .. | .unmark .. | .matching .. => 3
  | .contribution .. => 4
  | .launch .. => 5

/-- A flit of this module before a link gives it its sequence, acknowledgement and credits: the sender sets 4 hops. -/
def newFlit (type : BitVec 4) (src dst : Nat) (m : Msg) : Flit :=
  { h := { type := type, vc := BitVec.ofNat 3 (channelOf m), seq := 0, ack := 0, hops := 4, srcdev := BitVec.ofNat 7 src
           dstdev := BitVec.ofNat 7 dst, credits := 0 }
    msg := m }

/-! ### One link (R18 to R20) -/

/-- The flits that a replay buffer holds on J960 (R20). -/
def replayRoom : Nat := 512

/-- Credits to give back in the next flit: up to 3 buffers of 4 flits for a channel. -/
def Link.giveBack (l : Link) (vc : Nat) : Nat := min 3 (l.owed.toList.getD vc 0 / 4)
def Link.creditField (l : Link) : BitVec 16 :=
  BitVec.ofNat 16 ((span 0 8).foldl (fun n vc => n + l.giveBack vc * 4 ^ vc) 0)

/-- Put a flit on the wire and in the replay buffer: it takes the next sequence, the last sequence received in order,
and the credits owed. -/
def Link.transmit (l : Link) (f : Flit) : Link :=
  let g := { f with h := { f.h with
    seq := BitVec.ofNat 12 l.nextSeq, ack := BitVec.ofNat 12 (l.expect + 4095), credits := l.creditField } }
  let vc := f.h.vc.toNat
  { l with
    replay := l.replay ++ [g], wire := l.wire ++ [g], nextSeq := (l.nextSeq + 1) % 4096
    used := if f.h.type = 1 then l.used.set! vc (l.used.toList.getD vc 0 + 1) else l.used
    owed := l.owed.mapIdx fun i n => n - 4 * l.giveBack i }

/-- A flit may be sent: the replay buffer has room, and a data flit has a credit of its channel. A NAK always is: a bad
CRC is answered at once (R20; log entry 88). -/
def Link.maySend (link : Nat) (l : Link) (f : Flit) : Bool :=
  f.h.type == 2 || (l.replay.length < replayRoom &&
    (f.h.type != 1 || decide (l.used.toList.getD f.h.vc.toNat 0 < 4 * Config.ferryBuffers link f.h.vc.toNat)))

/-- Send what may be sent of a list, data flits in order within each channel; the rest waits. What the link sends for
itself belongs to no channel, so that no channel blocks the credits of another (R19). -/
def Link.sendAll (link : Nat) : List Flit → List (BitVec 3) → Link → Link
  | [], _, l => l
  | f :: fs, shut, l =>
    if l.maySend link f && !(f.h.type == 1 && shut.contains f.h.vc) then (l.transmit f).sendAll link fs shut
    else ({ l with waiting := l.waiting ++ [f] }).sendAll link fs (if f.h.type = 1 then f.h.vc :: shut else shut)

/-- What waits is sent as far as it may; nothing is sent while the link trains or is down. -/
def Link.pump (link : Nat) (l : Link) : Link :=
  if l.up && !l.training then ({ l with waiting := [] }).sendAll link l.waiting [] else l

/-- Forget the flits that an acknowledgement covers: those up to its sequence. -/
def Link.acked (l : Link) (seq : BitVec 12) : Link :=
  if l.replay.any fun f => f.h.seq == seq then
    { l with replay := (l.replay.dropWhile fun f => f.h.seq != seq).tail, naks := 0 }
  else l

/-- A NAK: the flits up to its sequence are acknowledged, the next ones are sent again. -/
def Link.nak (l : Link) (seq : BitVec 12) : Link :=
  let l1 := if l.replay.any fun f => f.h.seq == seq then l.acked seq else { l with naks := l.naks + 1 }
  { l1 with wire := l1.wire ++ l1.replay }

/-- The credits of a header come back, in buffers of 4 flits. -/
def Link.credited (l : Link) (c : BitVec 16) : Link :=
  { l with used := l.used.mapIdx fun i n => n - 4 * (c.toNat / 4 ^ i % 4) }

/-- A receive buffer of a channel is free again. -/
def Link.freed (l : Link) (vc : Nat) : Link := { l with owed := l.owed.set! vc (l.owed.toList.getD vc 0 + 1) }

/-! ### Routes and sending (R21) -/

/-- A live link leads to a device. -/
def State.routed (s : State) (dev : Nat) : Bool :=
  (span 0 24).any fun l => bit (s.entry 14 dev) l && (s.link l).up

/-- The live links that lead to a device. -/
def State.linksTo (s : State) (dev : Nat) : List Nat :=
  (span 0 24).filter fun l => bit (s.entry 14 dev) l && (s.link l).up

/-- A pair of a source and a destination in the table of pins. -/
def pairKey (src dev : Nat) : Nat := 128 * src + dev

/-- A link still holds a flit of a pair. -/
def Link.holds (l : Link) (src dev : Nat) : Bool :=
  (l.replay ++ l.waiting).any fun f => f.h.type == 1 && f.h.srcdev.toNat == src && f.h.dstdev.toNat == dev

/-- The link that a pair of a source and a destination is pinned to. It stays with it while the link is up and its mask
has it, or a flit of the pair is still on it; else the hash chooses among the live links (R19, R21). -/
def State.linkTo (s : State) (src dev : Nat) : Option Nat :=
  let l := s.linksTo dev
  match (tfind s.prog.pins (pairKey src dev)).filter fun k =>
      (s.link k).up && (bit (s.entry 14 dev) k || (s.link k).holds src dev) with
  | some k => some k
  | none => l[Config.linkHash src dev % l.length]?

/-- Send a flit on a link: it goes out in its channel's order, and pins its pair to the link. -/
def State.sendFlit (s : State) (link : Nat) (f : Flit) : State :=
  let l := s.link link
  let s1 := s.setLink link (({ l with waiting := l.waiting ++ [f] }).pump link)
  if f.h.type = 1 then
    { s1 with prog := { s1.prog with pins := tput (pairKey f.h.srcdev.toNat f.h.dstdev.toNat) link s1.prog.pins } }
  else s1

/-- Send a message to another module over the link its pair is pinned to; without a route it waits for one. -/
def State.sendMsg (s : State) (dev : Nat) (m : Msg) : State :=
  match s.linkTo s.devid.toNat dev with
  | some l => s.sendFlit l (newFlit 1 s.devid.toNat dev m)
  | none => { s with prog := { s.prog with unrouted := s.prog.unrouted ++ [(dev, m)] } }

/-- Send what waits for a route and has one again, in order. -/
def State.sendUnrouted (s : State) : State :=
  s.prog.unrouted.foldl (fun s x => s.sendMsg x.1 x.2) { s with prog := { s.prog with unrouted := [] } }

/-- Take the first message that a test selects and that no earlier one of its source and channel stands before,
unless that one is passed over: its buffer is free again. -/
def takeArrived (p skip : Arrived → Bool) : List (Nat × Nat) → List Arrived → Option (Arrived × List Arrived)
  | _, [] => none
  | seen, x :: l =>
    if p x && !seen.contains (x.src, x.vc) then some (x, l)
    else (takeArrived p skip (if skip x then seen else (x.src, x.vc) :: seen) l).map fun r => (r.1, x :: r.2)

def State.takeRx (s : State) (p skip : Arrived → Bool) : Option (Arrived × State) :=
  (takeArrived p skip [] s.prog.rx).map fun r =>
    (r.1, ({ s with prog := { s.prog with rx := r.2 } } : State).setLink r.1.link ((s.link r.1.link).freed r.1.vc))

/-- The device an address of another module belongs to. -/
def State.deviceOf (s : State) (addr : Word) : Nat :=
  if addr.toNat / 2 ^ 56 = 2 then bits addr 32 7
  else
    match s.region addr.toNat with
    | .remote d _ => d
    | _ => s.devid.toNat

end Sys2Proof.Machine
end

