-- ==== Sys2Proof/Machine/Memory.lean ====
section
/-! DEFINITION. Memory: the address spaces, translation, leases, uncorrectable codewords, and the loads,
stores and atomics of compute and front-end cores. -/

namespace Sys2Proof.Machine

/-- The trap classes (R225). -/
def ILLEGAL := 0
def ADDRESS := 1
def ALIGN := 2
def PROT := 3
def DATA := 4
def TAG := 5
def CLAIM := 6
def TIME := 7
def BUDGET := 8
def ENTRY := 9
def DIVZ := 10
def BRK := 11
def USER := 12

/-- What an access comes to: its value, a trap with its class and value, or a wait. -/
inductive Acc where
  | ok (v : Nat) (s : State)
  | trap (cls : Nat) (val : Word)
  | wait (s : State)
  deriving DecidableEq, Repr

/-! ### Uncorrectable codewords (R28) -/

/-- A byte of memory lies in an uncorrectable line, or in an uncorrectable word of L2; a cellar byte in an uncorrectable
word. -/
def State.badAt (s : State) (pa : Nat) : Bool := tget false s.mem.badLines (pa / 64) || tget false s.mem.badL2 (pa / 8)
def State.badCellarAt (s : State) (a : Nat) : Bool := tget false s.mem.badCellar (a / 8)

/-- Some address of a list lies in a bad line; in a bad cellar word. -/
def State.anyBad (s : State) (pas : List Nat) : Bool := pas.any s.badAt
def State.anyBadCellar (s : State) (as : List Nat) : Bool := as.any s.badCellarAt

/-- Every byte of the codeword of size z around an address is among the addresses written. -/
def coversWord (z a : Nat) (as : List Nat) : Bool := (span (a / z * z) z).all fun x => as.contains x

/-- A store may be performed: every bad codeword it touches is covered whole (R242). -/
def State.storable (s : State) (pas : List Nat) : Bool :=
  pas.all fun a => (!tget false s.mem.badLines (a / 64) || coversWord 64 a pas) &&
    (!tget false s.mem.badL2 (a / 8) || coversWord 8 a pas)
def State.storableCellar (s : State) (as : List Nat) : Bool :=
  as.all fun a => !s.badCellarAt a || coversWord 8 a as

/-- Write bytes at physical addresses; a codeword that is covered becomes good (R242). -/
def State.writeMem (s : State) (pas : List Nat) (bs : List Byte) : State :=
  { s with mem := { s.mem with
      bytes := scatterBytes s.mem.bytes pas bs
      badLines := pas.foldl (fun t a => if coversWord 64 a pas then tdel (a / 64) t else t) s.mem.badLines
      badL2 := pas.foldl (fun t a => if coversWord 8 a pas then tdel (a / 8) t else t) s.mem.badL2 } }

/-- Write bytes of cellars; a codeword that is covered becomes good. -/
def State.writeCellar (s : State) (as : List Nat) (bs : List Byte) : State :=
  { s with mem := { s.mem with
      cellar := scatterBytes s.mem.cellar as bs
      badCellar := as.foldl (fun t a => if coversWord 8 a as then tdel (a / 8) t else t) s.mem.badCellar } }

/-- Both memories are in canonical form: bytes of the physical address space, and bytes of the cellars. -/
def State.memOk (s : State) : Bool := Memory.wf s.mem.bytes && Memory.wf s.mem.cellar

/-- Read n bytes at physical addresses, as one little-endian number. -/
def State.readMem (s : State) (pas : List Nat) : Nat := leNat (gatherBytes s.mem.bytes pas)
def State.readCellar (s : State) (as : List Nat) : Nat := leNat (gatherBytes s.mem.cellar as)

/-- A doubleword of physical memory. -/
def State.mem64 (s : State) (pa : Nat) : Word := BitVec.ofNat 64 (s.readMem (span pa 8))
def State.setMem64 (s : State) (pa : Nat) (w : Word) : State := s.writeMem (span pa 8) (leBytes 8 w.toNat)

/-! ### Translation (R198 to R201) -/

/-- How a lookup or a walk ends; pending, while the walk is still to come. -/
inductive WalkEnd where
  | leaf (e : Word) (level : Nat) | addr | data | pending
  deriving DecidableEq, Repr

/-- log2 of the page size of a leaf at a level (R199). -/
def pageBits (level : Nat) : Nat := 46 - 10 * level

/-- What an entry at a level is to a walk: its end, or the next table (R199, R200). -/
def entryEnd (e : Word) (j : Nat) : WalkEnd ⊕ Nat :=
  if !bit e 0 || bits e 52 12 != 0 || bits e 10 3 != 0 || bit e 2 then .inl .addr
  else if bit e 1 then
    if j == 0 || bits e 13 3 != 0 || bits e 8 2 == 3 || bits e 16 (pageBits j - 16) != 0 then .inl .addr
    else .inl (.leaf e j)
  else if bits e 3 7 != 0 then .inl .addr
  else .inr (bits e 13 39 * 2 ^ 13)

/-- Walk the levels from a table (R199, R200). -/
def State.walk (s : State) (va : Nat) : List Nat → Nat → WalkEnd
  | [], _ => .addr
  | j :: js, base =>
    let ea := base + 8 * (va / 2 ^ (46 - 10 * j) % 1024)
    if s.badAt ea then .data
    else
      match entryEnd (s.mem64 ea) j with
      | .inl x => x
      | .inr next => s.walk va js next

/-- Walk for a context (R198). -/
def State.walkCtx (s : State) (ctx va : Nat) : WalkEnd :=
  let e := s.entry 11 ctx
  if bit e 63 then s.walk va [0, 1, 2, 3] (bits e 13 39 * 2 ^ 13) else .addr

/-- The physical address is populated and its region is the tier's (R13, R15, R16, R52, R193, R200). -/
def State.populated (s : State) (tier pa : Nat) : Bool :=
  match s.region pa with
  | .hbm a => tier == 0 && 0x10000000 ≤ a && s.boot.modstat.getLsbD (8 + stackOf a)
  | .attic => tier == 1 && (s.boot.ports.toList.getD (atticPort pa) .untrained) != .untrained
  | .remote _ _ => tier == 0
  | .host => tier == 2
  | .hole => false

/-- The physical address of an address under a leaf. -/
def leafPa (e : Word) (level va : Nat) : Nat := bits e 16 36 * 2 ^ 16 + va % 2 ^ pageBits level

/-- A walk whose leaf gives an unpopulated page, or a region that is not the tier's, ends in ADDRESS (R200). -/
def State.walkEnd (s : State) (va : Nat) : WalkEnd → WalkEnd
  | .leaf e l => if s.populated (bits e 8 2) (leafPa e l va) then .leaf e l else .addr
  | x => x

/-- A shootdown in progress is for a context (R203). -/
def State.shotCtx (s : State) (ctx : Nat) : Bool := s.shootdowns.any fun d => d.2.ctx == ctx

/-- Drop an entry of a list that is full before another enters it. -/
def makeRoom {α : Type} (tick room : Nat) (mine : α → Bool) (l : List α) : List α :=
  let n := (l.filter mine).length
  if n < room then l
  else
    match (l.filter mine)[Config.victim tick % n]?, l with
    | some _, l =>
      let k := Config.victim tick % n
      (l.foldl (fun (r : List α × Nat) x => if mine x then (if r.2 = k then (r.1, r.2 + 1) else (r.1 ++ [x], r.2 + 1)) else (r.1 ++ [x], r.2))
        ([], 0)).1
    | none, l => l

/-- A walker's walk: an entry in its cache of non-leaf entries is not read again, but for a context that is shot down
(R201, R203). The answer has the non-leaf entries of the path. -/
def State.walkCached (s : State) (die ctx va : Nat) : List Nat → Nat → WalkEnd × List NonLeaf
  | [], _ => (.addr, [])
  | j :: js, base =>
    let above := va / 2 ^ (46 - 10 * j)
    let ea := base + 8 * (above % 1024)
    match s.mem.nonleaf.find? fun x => x.die == die && x.ctx == ctx && x.level == j && x.above == above && !s.shotCtx ctx with
    | some x => s.walkCached die ctx va js (bits x.entry 13 39 * 2 ^ 13)
    | none =>
      if s.badAt ea then (.data, [])
      else
        match entryEnd (s.mem64 ea) j with
        | .inl x => (x, [])
        | .inr next =>
          let r := s.walkCached die ctx va js next
          (r.1, ⟨die, ctx, j, above, s.mem64 ea⟩ :: r.2)

/-- The walk of a die's walker, which keeps the non-leaf entries it has read. -/
def State.walkBy (s : State) (die ctx va : Nat) : WalkEnd × State :=
  let e := s.entry 11 ctx
  if !bit e 63 then (.addr, s)
  else
    let r := s.walkCached die ctx va [0, 1, 2, 3] (bits e 13 39 * 2 ^ 13)
    (s.walkEnd va r.1, { s with mem := { s.mem with nonleaf := r.2.foldl (fun l x =>
      x :: makeRoom s.tick Config.nonleafCache (fun y => y.die == die) l) s.mem.nonleaf } })

/-- A translation that a holder has for an address. -/
def State.heldXlat (s : State) (holder ctx va : Nat) : Option Xlat :=
  s.mem.tlb.find? fun x => x.holder == holder && x.ctx == ctx && x.page == va / 2 ^ pageBits x.level

/-- The entries that a holder has room for. -/
def tlbRoom (holder : Nat) : Nat := if holder < 1024 then Config.l1Tlb else Config.l2Tlb

/-- A holder that walks the tables by itself: the BAR4 translator, a quay copy engine, and the front end at work for a
packet, which have no cluster and keep to no walker (R31, R202; log entry 91). -/
def walksAlone (holder : Nat) : Bool := holder == 2048 || (4096 ≤ holder && 32 ≤ holder % 64)
def keepsXlat (holder : Nat) : Bool := holder < 4096 || holder % 64 != 33

/-- Fill a translation into a holder; a full one drops an entry. -/
def State.fillXlat (s : State) (x : Xlat) : State :=
  if !keepsXlat x.holder || s.mem.tlb.contains x then s
  else { s with mem := { s.mem with tlb := x :: makeRoom s.tick (tlbRoom x.holder) (fun y => y.holder == x.holder) s.mem.tlb } }

/-- What a holder keeps of a leaf: its page, and an engine the 64 KiB chunk alone (R202). -/
def xlatOf (holder ctx va : Nat) (e : Word) (l : Nat) : Xlat :=
  if holder < 4096 then ⟨holder, ctx, va / 2 ^ pageBits l, e, l⟩
  else ⟨holder, ctx, va / 65536, setBits e 16 36 ((bits e 16 36 * 2 ^ 16 + va % 2 ^ pageBits l) / 65536), 3⟩

/-- A translation of a context overlaps a range (R203). -/
def Xlat.hits (x : Xlat) (ctx va lgsz : Nat) : Bool :=
  x.ctx == ctx && x.page * 2 ^ pageBits x.level < va + 2 ^ lgsz && va < (x.page + 1) * 2 ^ pageBits x.level

/-- A shootdown in progress covers a translation: no other holder takes it over (R203). -/
def State.shotAt (s : State) (x : Xlat) : Bool := s.shootdowns.any fun d => x.hits d.2.ctx d.2.va d.2.lgsz

/-- The translation that a requester uses: its own, or one of the further holders that no shootdown covers. -/
def State.foundXlat (s : State) (holders : List Nat) (ctx va : Nat) : Option Xlat :=
  match holders with
  | [] => none
  | h :: l =>
    match s.heldXlat h ctx va with
    | some x => some x
    | none => (l.findSome? fun k => s.heldXlat k ctx va).filter fun x => !s.shotAt x

/-- Forget what a requester has asked of the walkers: its access is abandoned, or has had its result (R201). -/
def State.forgetWalk (s : State) (who : Nat) : State :=
  { s with mem := { s.mem with
      misses := s.mem.misses.filter fun x => x.who != who
      walks := s.mem.walks.map fun w => { w with waiters := w.waiters.filter (· != who) }
      faults := s.mem.faults.filter fun x => x.who != who
      migWaits := s.mem.migWaits.filter fun x => x.who != who } }

/-- A holder keeps no translation and asks nothing of the walkers. -/
def State.dropHolder (s : State) (h : Nat) : State :=
  let s1 := s.forgetWalk h
  { s1 with mem := { s1.mem with tlb := s1.mem.tlb.filter fun x => x.holder != h } }

/-- A requester misses: the miss waits for the walker, unless it does already or a walk serves it. -/
def State.noteMiss (s : State) (x : Miss) : State :=
  if s.mem.misses.contains x || s.mem.walks.any (fun w => w.ctx == x.ctx && w.page == x.page && w.waiters.contains x.who) then s
  else { s with mem := { s.mem with misses := s.mem.misses ++ [x] } }

/-- A miss that has been noted has its translation. -/
def State.missServed (s : State) (x : Miss) : State :=
  if s.mem.misses.contains x then { s with mem := { s.mem with misses := s.mem.misses.filter (· != x) } } else s

/-- Fill a leaf into holders. -/
def State.fillAll (s : State) (holders : List Nat) (ctx va : Nat) (e : Word) (l : Nat) : State :=
  holders.foldl (fun s h => s.fillXlat (xlatOf h ctx va e l)) s

/-- The miss of the first holder for an address. -/
def missOf (die : Nat) (holders : List Nat) (ctx va : Nat) : Miss := ⟨holders.headD 2049, die, ctx, va / 65536⟩

/-- Look an address up in holders, the requester's own first, which fills them all; a miss in all of them has its result,
or is noted and pends (R201). -/
def State.lookup (s : State) (die : Nat) (holders : List Nat) (ctx va : Nat) : WalkEnd × State :=
  match s.foundXlat holders ctx va with
  | some x => (.leaf x.leaf x.level, (s.fillAll holders ctx va x.leaf x.level).missServed (missOf die holders ctx va))
  | none =>
    if holders.all walksAlone then
      match s.walkEnd va (s.walkCtx ctx va) with
      | .leaf e l => (.leaf e l, s.fillAll holders ctx va e l)
      | x => (x, s)
    else
      let m := missOf die holders ctx va
      match s.mem.faults.find? fun x => x.who == m.who && x.ctx == ctx && x.page == m.page with
      | some x => (if x.cls = DATA then .data else .addr, s)
      | none => (.pending, s.noteMiss m)

/-- The permission bits of a leaf (R199). -/
def needR := 8
def needW := 16
def needX := 32
def needE := 64

/-- What a translation comes to. -/
inductive Xl where
  | pa (p : Nat) (s : State) | trap (cls : Nat) | wait (s : State)
  deriving DecidableEq, Repr

/-- An access waits on a migrating page: each wait is counted once, however often the access is tried again (R204). -/
def State.migWait (s : State) (x : Miss) (part : Nat) : State :=
  if s.mem.migWaits.contains x then s
  else ({ s with mem := { s.mem with migWaits := s.mem.migWaits ++ [x] } }).count cMIGWAIT part

/-- It goes on. -/
def State.migGone (s : State) (x : Miss) : State :=
  if s.mem.migWaits.contains x then { s with mem := { s.mem with migWaits := s.mem.migWaits.filter (· != x) } } else s

/-- Translate one address for an access that needs the permissions of a mask (R200, R204). A write to a
migrating page waits, which is counted. -/
def State.xlate (s : State) (die : Nat) (holders : List Nat) (part ctx va need : Nat) : Xl :=
  match s.lookup die holders ctx va with
  | (.addr, _) => .trap ADDRESS
  | (.data, _) => .trap DATA
  | (.pending, s1) => .wait s1
  | (.leaf e l, s1) =>
    let pa := leafPa e l va
    if !s.populated (bits e 8 2) pa then .trap ADDRESS
    else if e.toNat &&& need ≠ need then .trap PROT
    else if bit e 7 && need / needW % 2 == 1 then .wait (s1.migWait (missOf die holders ctx va) part)
    else
      let s2 := if need / needW % 2 == 1 then s1.migGone (missOf die holders ctx va) else s1
      match s.region pa with
      | .hbm a => .pa a s2
      | _ => .pa pa s2

/-- The physical addresses of n bytes from va, which touch at most two pages (R192). -/
inductive XlSpan where
  | pas (l : List Nat) (s : State) | trap (cls : Nat) | wait (s : State)
  deriving DecidableEq, Repr

def State.xlateSpan (s : State) (die : Nat) (holders : List Nat) (part ctx va n need : Nat) : XlSpan :=
  match s.xlate die holders part ctx va need with
  | .trap c => .trap c
  | .wait s => .wait s
  | .pa p s1 =>
    let k := 65536 - va % 65536
    if n ≤ k then .pas (span p n) s1
    else
      match s1.xlate die holders part ctx (va + k) need with
      | .trap c => .trap c
      | .wait s => .wait s
      | .pa q s2 => .pas (span p k ++ span q (n - k)) s2

/-- The holders a core slot uses: its own TLB and its cluster's (R201). -/
def State.holdersOf (s : State) (lc : Nat) : List Nat := [s.phys lc, 1024 + s.clusterOf lc]

/-! ### Address spaces (R189, R191) -/

/-- The spaces of R189. -/
inductive Space where
  | global (va : Nat)
  | window (dev lc off : Nat)
  | bad
  deriving DecidableEq, Repr

/-- The space of an access of n bytes: first and last byte lie in one space (R308), no window field is
wrong (R189). -/
def spaceOf (addr : Word) (n : Nat) : Space :=
  let a := addr.toNat
  if a + (n - 1) ≥ 2 ^ 64 ∨ (a + (n - 1)) / 2 ^ 56 ≠ a / 2 ^ 56 then .bad
  else if a / 2 ^ 56 = 0 then .global a
  else if a / 2 ^ 56 = 2 ∧ bits addr 39 17 = 0 ∧ bits addr 30 2 = 0 ∧ bits addr 0 20 + n ≤ 0x60000 then
    .window (bits addr 32 7) (bits addr 20 10) (bits addr 0 20)
  else .bad

/-- A byte of a quarter, in the table of cellar bytes. -/
def cellarKey (lc off : Nat) : Nat := lc * 2 ^ 20 + off

/-- A logical core of the own device can be reached from a partition (R189). -/
def State.reachable (s : State) (p lc : Nat) : Bool := s.mapped lc && s.inPart p lc

/-- A tile at D2 or D3, or on its way out of it: its stop keeps what comes for its cellars (R77). -/
def Sleep.deep : Sleep → Bool
  | .asleep d | .waiting d | .waking d => decide (2 ≤ d)
  | _ => false

def State.setSleep (s : State) (t : Nat) (x : Sleep) : State := s.setTile t { s.tile t with sleep := x }

/-- A sleeping tile starts to wake: from D2 and D3 as the in-rush arbiter lets it (R77, R78). -/
def State.wakeTile (s : State) (tile : Nat) : State :=
  let r := s.rail (tile / 4)
  let start := fun d =>
    if d < 2 then s.setSleep tile (.waking d)
    else if r.grants.length < 2 && r.waiters == [] then
      (s.setRail (tile / 4) { r with grants := r.grants ++ [tile] }).setSleep tile (.waking d)
    else ((s.setRail (tile / 4) { r with waiters := r.waiters ++ [tile] }).setSleep tile (.waiting d)).count cWAKEWAIT (tile / 4)
  match (s.tile tile).sleep with
  | .asleep d => start d
  | .entering _ d => start d
  | _ => s

/-- An access has come for the quarter of a core: it wakes a tile at D2, and is served at D0 and D1 without (R77). -/
def State.callTile (s : State) (lc : Nat) : State :=
  if (s.tile (s.tileOf lc)).sleep.deep then s.wakeTile (s.tileOf lc) else s

/-- Accesses to the quarter of a core wait: it is moving, or its tile sleeps (R25, R77). -/
def State.shut (s : State) (lc : Nat) : Bool := s.heldCore lc || (s.tile (s.tileOf lc)).sleep.deep

/-- Some granule of the bytes [off, off + n) of a quarter is armed and at or above its watermark (R177). -/
def State.armedAt (s : State) (lc off n : Nat) : Bool :=
  (s.core lc).arms.toList.any fun a =>
    match a with
    | none => false
    | some a => decide (off / 16 * 16 < a.hi ∧ a.wm < (off + n + 15) / 16 * 16 ∧ a.lo < (off + n + 15) / 16 * 16)

/-! ### Leases (R195) -/

/-- The line times at the home, and the copy a slot holds. -/
def State.homeLine (s : State) (line : Nat) : Nat × Nat := tget (0, 0) s.mem.lines line
def l1Key (slot line : Nat) : Nat := slot * 2 ^ 46 + line

/-- A slot's copy of a line serves a load of a core: its lease holds, and the line has not been written since. A copy
that has gone stale is not used: the model drops it, as a cache may at any time (R195, R208; log entry 89). -/
def State.l1Hit (s : State) (lc line : Nat) : Bool :=
  match tfind s.mem.l1 (l1Key (s.phys lc) line) with
  | some (w, r) => decide ((s.core lc).lease ≤ r) && w == (s.homeLine line).1
  | none => false

/-- A slot's copy of a line takes times; a full L1 drops another line (R10). -/
def State.fillL1 (s : State) (slot line : Nat) (x : Nat × Nat) : State :=
  let k := l1Key slot line
  { s with mem := { s.mem with
      l1 := tput k x (if (tfind s.mem.l1 k).isSome then s.mem.l1 else makeRoom s.tick Config.l1Lines (fun e => e.1 / 2 ^ 46 == slot) s.mem.l1)
      badL1 := (span 0 8).foldl (fun t j => tdel (8 * k + j) t) s.mem.badL1 } }

/-- A load of a line by a core: the clock and the line times advance (R195). -/
def State.leaseLoad (s : State) (lc line : Nat) : State :=
  let c := s.core lc
  let (w, r) := s.homeLine line
  if s.l1Hit lc line then s.setCore lc { c with lease := max c.lease w }
  else
    let r' := max r (max (w + Config.leaseLen) (c.lease + Config.leaseLen))
    (({ s with mem := { s.mem with lines := tput line (w, r') s.mem.lines } } : State).fillL1 (s.phys lc) line (w, r')).setCore
      lc { c with lease := max c.lease w }

/-- A store or an atomic to a line by a core (R195). -/
def State.leaseStore (s : State) (lc line : Nat) : State :=
  let c := s.core lc
  let w := max c.lease ((s.homeLine line).2 + 1)
  (({ s with mem := { s.mem with lines := tput line (w, w) s.mem.lines } } : State).fillL1 (s.phys lc) line (w, w)).setCore
    lc { c with lease := w }

/-- The lines that a list of addresses touches, each once. -/
def linesOf : List Nat → List Nat
  | [] => []
  | a :: l => let r := linesOf l; if r.contains (a / 64) then r else a / 64 :: r

def State.leaseLoads (s : State) (lc : Nat) (pas : List Nat) : State :=
  (linesOf pas).foldl (fun s l => s.leaseLoad lc l) s
def State.leaseStores (s : State) (lc : Nat) (pas : List Nat) : State :=
  (linesOf pas).foldl (fun s l => s.leaseStore lc l) s

/-- The home notes a write that no core makes: its time passes every lease granted (R195, R208). -/
def State.homeWrite (s : State) (pas : List Nat) : State :=
  (linesOf pas).foldl (fun s l =>
    let w := (s.homeLine l).2 + 1
    { s with mem := { s.mem with lines := tput l (w, w) s.mem.lines } }) s

/-! ### Accesses that leave the module (R14, R19, R21, R222) -/

/-- The level at which an agent acts: that of its running frame. -/
def State.agentLevel (s : State) : Nat :=
  match s.agent with
  | .core lc => (s.core lc).prio
  | .fe _ => 0
def State.agentCore (s : State) : Nat :=
  match s.agent with
  | .core lc => lc
  | .fe n => 1024 + n

/-- The function whose requester ID a host access of the agent carries: that of the graph's context, PF0's on a
front-end core (R14). -/
def State.agentFn (s : State) : Nat :=
  match s.agent with
  | .core lc => s.fnOf (((s.top lc).map Frame.graph).getD 0)
  | .fe _ => 0

/-- A free tag for a request at Q0. -/
def freeTag (t : Table HostReq) : Nat := t.foldl (fun m e => max m (e.1 + 1)) 0

/-- The n-th access sent to an address, if it has been. -/
def findSent (addr : Word) (n : Nat) (l : List Sent) : Option Sent := (l.filter fun x => x.addr == addr)[n]?

/-- An access is sent: it waits for its answer. -/
def State.noteSent (s : State) (x : Sent) : State := s.setHart { s.hart with sent := s.hart.sent ++ [x] }

/-- A request leaves for another module on channel 0 and awaits its answer; a request at Q0. -/
def State.addRemote (s : State) (r : RemoteReq) : State :=
  ({ s with prog := { s.prog with remote := s.prog.remote ++ [r] } } : State).sendMsg (s.deviceOf r.addr)
    (.access r.lc r.level r.addr r.op)
def State.addHostReq (s : State) (tag : Nat) (r : HostReq) : State :=
  { s with mem := { s.mem with hostReqs := tput tag r s.mem.hostReqs } }

/-- Wait for the answer of an access that has been sent, or send it (R14, R222). A remote access without
a route raises DATA (R21). What has been sent is forgotten when the instruction retires. -/
def State.ask (s : State) (addr : Word) (dev : Option Nat) (pa : Nat) (op : RemoteOp) (nth : Nat := 0) : Acc :=
  match findSent addr nth s.hart.sent with
  | some ⟨_, _, _, none⟩ => .wait s
  | some ⟨_, _, _, some (.data bs)⟩ => .ok (leNat bs) s
  | some ⟨_, _, _, some (.refused c)⟩ => .trap c addr
  | none =>
    match dev with
    | some d =>
      if s.routed d then
        .wait ((s.noteSent ⟨addr, pa, !op.isLoad, none⟩).addRemote ⟨s.agentCore, s.agentLevel, BitVec.ofNat 64 pa, op⟩)
      else .trap DATA addr
    | none =>
      let t := freeTag s.mem.hostReqs
      .wait ((s.noteSent ⟨addr, t, !op.isLoad, none⟩).addHostReq t ⟨s.agent, s.agentLevel, s.agentFn, pa, op, none⟩)

/-- The k-th access of an instruction that makes several, each at its own place in the module order (R206, R207, R209). One that
has been performed is kept with the instruction, with its value, and is not made again; a step performs one, so that the
instruction goes on in a later step unless it was the last. `keep` says that it has changed memory. -/
def State.access (s : State) (k : Nat) (last keep : Bool) (addr : Word) (acc : State → Acc) : Acc :=
  match s.hart.sent[k]? with
  | some ⟨_, _, _, some (.data bs)⟩ => .ok (leNat bs) s
  | _ =>
    let old := s.hart.sent
    let under := fun (t : State) (l : List Sent) => t.setHart { t.hart with sent := old.take k ++ l }
    match acc (s.setHart { s.hart with sent := old.drop k }) with
    | .ok v s1 => if last then .ok v (under s1 s1.hart.sent) else .wait (under s1 [⟨addr, 0, keep, some (.data (leBytes 8 v))⟩])
    | .wait s1 => .wait (under s1 s1.hart.sent)
    | x => x

/-- An instruction or a chunk has changed memory and has more accesses to make: it is not at a boundary (R188, R223). -/
def begun (l : List Sent) : Bool := l.any fun x => x.keep && x.answer.isSome

/-- A word of the host range that Q0 has read for an atomic and not written yet: it keeps every other access from within
the module away from it (R194). -/
def State.hostBusy (s : State) (l : List Nat) : Bool :=
  s.mem.hostReqs.any fun e => e.2.old.isSome && l.any fun a => decide (e.2.addr ≤ a && a < e.2.addr + 8)

/-- A write request at Q0 to the host range, under the requester ID of a function: it is posted (R14, R221). -/
def State.hostWrite (s : State) (fn : Nat) (pas : List Nat) (bs : List Byte) : State :=
  let s1 := s.writeMem pas bs
  { s1 with mem := { s1.mem with posted := some ⟨fn, pas.headD 0, bs⟩ } }

/-- A request is a load of a core at a level: given up, its answer finds nothing. -/
def loadAt (lc level : Nat) (r : RemoteReq) : Bool := r.lc == lc && r.level == level && r.op.isLoad

/-- The requests of a frame that is gone keep their place under a level no frame has: what comes back for them meets no
other frame (R167, R190). -/
def State.orphan (s : State) (lc level : Nat) : State :=
  { s with
    prog := { s.prog with remote := s.prog.remote.map fun r =>
      if r.lc = lc ∧ r.level = level then { r with level := r.level + 8 } else r }
    mem := { s.mem with hostReqs := s.mem.hostReqs.filter fun e =>
      !(e.2.agent == Agent.core lc && e.2.level == level && e.2.op.isLoad) } }

/-- The running frame of a core is interrupted: its loads that wait are given up and re-execute, an atomic stays (R177, R188,
R201, R233). -/
def State.abandon (s : State) (lc : Nat) : State :=
  match s.top lc with
  | none => s.forgetWalk (s.phys lc)
  | some f =>
    let s1 := s.setTop lc { f with
      h := { f.h with sent := f.h.sent.filter Sent.keep }
      vsent := f.vsent.filter Sent.keep, vplan := if f.vsent.any Sent.keep then f.vplan else [] }
    ({ s1 with
      prog := { s1.prog with remote := s1.prog.remote.map fun r => if loadAt lc f.level r then { r with level := r.level + 8 } else r }
      mem := { s1.mem with hostReqs := s1.mem.hostReqs.filter fun e =>
        !(e.2.agent == Agent.core lc && e.2.level == f.level && e.2.op.isLoad) } }).forgetWalk (s.phys lc)

/-- A store that has been sent to another module: it is not acknowledged yet (R190, R321). -/
def State.sendStore (s : State) (lc : Nat) (a : Word) (op : RemoteOp) : State :=
  let s1 := s.addRemote ⟨lc, s.agentLevel, a, op⟩
  match s1.top lc with
  | some f => s1.setTop lc { f with unacked := f.unacked + 1 }
  | none => s1

/-! ### The accesses of a compute core -/

/-- An attic page whose port has failed (R16). -/
def State.portFailed (s : State) (pa : Nat) : Bool :=
  match s.region pa with
  | .attic => s.boot.ports.toList.getD (atticPort pa) .untrained == .failed
  | _ => false

/-- What the frame of a core translates in: its die, TLBs, partition and context. -/
def State.corePart (s : State) (lc : Nat) : Nat := s.partOf lc
def State.coreCtx (s : State) (lc : Nat) : Nat := s.ctxOf (((s.top lc).map Frame.graph).getD 0)

def State.coreSpan (s : State) (lc va n need : Nat) : XlSpan :=
  s.xlateSpan (s.dieOf lc) (s.holdersOf lc) (s.corePart lc) (s.coreCtx lc) va n need

/-- The bytes of an access by page, each with its offset in the access (R192). -/
def pageParts (va : Nat) (l : List Nat) : List (Nat × List Nat) :=
  let k := 65536 - va % 65536
  if l.length ≤ k then [(0, l)] else [(0, l.take k), (k, l.drop k)]

/-- The access of a page stays in the module. -/
def State.isLocal (s : State) (l : List Nat) : Bool :=
  match s.region (l.headD 0) with
  | .remote _ _ | .host => false
  | _ => true

/-- A load of a core meets a failed port, or an uncorrectable codeword of its copy or of the line's home. -/
def State.loadFails (s : State) (lc : Nat) (l : List Nat) : Bool :=
  l.any fun a => s.portFailed a ||
    (if s.l1Hit lc (a / 64) then tget false s.mem.badL1 (l1Key (s.phys lc) (a / 64) * 8 + a / 8 % 8) else s.badAt a)

/-- Load the bytes of one page. -/
def State.loadPart (s : State) (lc : Nat) (addr : Word) (x : Nat × List Nat) : Acc :=
  let a := addr + BitVec.ofNat 64 x.1
  match s.region (x.2.headD 0) with
  | .remote d _ => s.ask a (some d) (x.2.headD 0) (.load x.2.length)
  | .host => s.ask a none (x.2.headD 0) (.load x.2.length)
  | _ => if s.loadFails lc x.2 then .trap DATA addr else .ok (s.readMem x.2) (s.leaseLoads lc x.2)

/-- Load the bytes of the pages of an access: one that leaves the module first, so that all are read in one step. -/
def State.loadParts (s : State) (lc : Nat) (addr : Word) : List (Nat × List Nat) → Acc
  | [x] => s.loadPart lc addr x
  | [x, y] =>
    let swap := s.isLocal x.2 && !s.isLocal y.2
    match s.loadPart lc addr (if swap then y else x) with
    | .ok v s1 =>
      match s1.loadPart lc addr (if swap then x else y) with
      | .ok w s2 => .ok (if swap then w + v * 2 ^ (8 * y.1) else v + w * 2 ^ (8 * y.1)) s2
      | .trap c _ => .trap c addr
      | z => z
    | .trap c _ => .trap c addr
    | z => z
  | _ => .ok 0 s

/-- A load of n bytes by a compute core at a global or window address (R189, R192, R308, R321). -/
def State.coreLoad (s : State) (lc : Nat) (addr : Word) (n : Nat) : Acc :=
  match spaceOf addr n with
  | .bad => .trap ADDRESS addr
  | .window dev tlc off =>
    if !s.inDomain (s.corePart lc) dev then .trap ADDRESS addr
    else if dev ≠ s.devid.toNat then s.ask addr (some dev) addr.toNat (.load n)
    else if !s.reachable (s.corePart lc) tlc then .trap ADDRESS addr
    else if (tlc != lc && s.shut tlc) || s.armedAt tlc off n then .wait (s.callTile tlc)
    else if s.anyBadCellar (span (cellarKey tlc off) n) then .trap DATA addr
    else .ok (s.readCellar (span (cellarKey tlc off) n)) s
  | .global va =>
    match s.coreSpan lc va n needR with
    | .trap c => .trap c addr
    | .wait s => .wait s
    | .pas l s1 => s1.loadParts lc addr (pageParts va l)

/-- The bytes of a store can be written: those that stay in the module meet no failed port and no codeword that the
store covers only in part. -/
def State.partsStorable (s : State) (x : List (Nat × List Nat)) : Bool :=
  x.all fun p => !s.isLocal p.2 || (!p.2.any s.portFailed && s.storable p.2)

/-- Store the bytes of one page. -/
def State.storePart (s : State) (lc : Nat) (bs : List Byte) (x : Nat × List Nat) : State :=
  let d := (bs.drop x.1).take x.2.length
  match s.region (x.2.headD 0) with
  | .remote _ _ => s.sendStore lc (BitVec.ofNat 64 (x.2.headD 0)) (.store d)
  | .host => s.hostWrite s.agentFn x.2 d
  | _ => (s.leaseStores lc x.2).writeMem x.2 d

/-- A store of n bytes by a compute core (R189, R192, R308, R321). -/
def State.coreStore (s : State) (lc : Nat) (addr : Word) (n v : Nat) : Acc :=
  match spaceOf addr n with
  | .bad => .trap ADDRESS addr
  | .window dev tlc off =>
    if !s.inDomain (s.corePart lc) dev then .trap ADDRESS addr
    else if dev ≠ s.devid.toNat then .ok 0 (s.sendStore lc addr (.store (leBytes n v)))
    else if !s.reachable (s.corePart lc) tlc then .trap ADDRESS addr
    else if tlc != lc && s.shut tlc then .wait (s.callTile tlc)
    else if !s.storableCellar (span (cellarKey tlc off) n) then .trap DATA addr
    else .ok 0 (s.writeCellar (span (cellarKey tlc off) n) (leBytes n v))
  | .global va =>
    match s.coreSpan lc va n needW with
    | .trap c => .trap c addr
    | .wait s => .wait s
    | .pas l s1 =>
      let x := pageParts va l
      if s1.hostBusy l then .wait s1
      else if s1.partsStorable x then .ok 0 (x.foldl (fun s p => s.storePart lc (leBytes n v) p) s1) else .trap DATA addr

/-- An atomic of n bytes by a compute core: it reads the old value, writes what f makes of it, and
answers the old value (R210, R217, R330). The permissions are those of the form. -/
def State.coreAtomic (s : State) (lc : Nat) (addr : Word) (n need : Nat) (op : RemoteOp) (f : Nat → Nat) : Acc :=
  match spaceOf addr n with
  | .bad => .trap ADDRESS addr
  | .window dev tlc off =>
    if !s.inDomain (s.corePart lc) dev then .trap ADDRESS addr
    else if dev ≠ s.devid.toNat then s.ask addr (some dev) addr.toNat op
    else if !s.reachable (s.corePart lc) tlc then .trap ADDRESS addr
    else if tlc != lc && s.shut tlc then .wait (s.callTile tlc)
    else if s.anyBadCellar (span (cellarKey tlc off) n) then .trap DATA addr
    else
      let old := s.readCellar (span (cellarKey tlc off) n)
      .ok old (s.writeCellar (span (cellarKey tlc off) n) (leBytes n (f old)))
  | .global va =>
    match s.coreSpan lc va n need with
    | .trap c => .trap c addr
    | .wait s => .wait s
    | .pas l s1 =>
      match s.region (l.headD 0) with
      | .remote d _ => s1.ask addr (some d) (l.headD 0) op
      | .host => s1.ask addr none (l.headD 0) op
      | _ =>
        if l.any s.portFailed || s.anyBad l then .trap DATA addr
        else .ok (s.readMem l) ((s1.leaseStores lc l).writeMem l (leBytes n (f (s.readMem l))))

/-- A near load and a near store of n bytes in the core's own quarter (R191, R322). -/
def State.nearLoad (s : State) (lc : Nat) (off : Word) (n : Nat) : Acc :=
  if off.toNat + n > 0x60000 then .trap ADDRESS off
  else if s.armedAt lc off.toNat n then .wait s
  else if s.anyBadCellar (span (cellarKey lc off.toNat) n) then .trap DATA off
  else .ok (s.readCellar (span (cellarKey lc off.toNat) n)) s

def State.nearStore (s : State) (lc : Nat) (off : Word) (n v : Nat) : Acc :=
  if off.toNat + n > 0x60000 then .trap ADDRESS off
  else if !s.storableCellar (span (cellarKey lc off.toNat) n) then .trap DATA off
  else .ok 0 (s.writeCellar (span (cellarKey lc off.toNat) n) (leBytes n v))

/-! ### Counting uncorrectable errors (R28, R29, R200) -/

/-- An uncorrectable word of a kind of SRAM of a die (kinds 0 to 5 in the order of R29). -/
def State.countSram (s : State) (code die kind : Nat) : State := s.count code (6 * die + kind)

/-- An uncorrectable line is met: in L2, in HBM or on an attic port. -/
def State.countUe (s : State) (pa : Nat) : State :=
  if tget false s.mem.badL2 (pa / 8) then s.countSram cSRAMUE (sliceOf pa / 16) 2
  else
    match s.region pa with
    | .hbm a => s.count cHBMUE (stackOf a)
    | .attic => s.count cCXLUE (atticPort pa)
    | _ => s

/-- The first uncorrectable byte among physical addresses, among cellar bytes, is counted. -/
def State.meetUe (s : State) (pas : List Nat) : State := ((pas.find? s.badAt).map s.countUe).getD s
def State.meetCellarUe (s : State) (as : List Nat) : State :=
  ((as.find? s.badCellarAt).map fun a => s.countSram cSRAMUE (s.dieOf (a / 2 ^ 20)) 1).getD s

/-- A walk that the front end makes by itself and that ends at an uncorrectable table entry is counted. -/
def State.meetWalk (s : State) (die ctx va : Nat) : State :=
  match s.walkCtx ctx va with
  | .data => s.count cWALKUE die
  | _ => s

/-- A core's load meets an uncorrectable copy or line: the first is counted. -/
def State.meetLoad (s : State) (lc : Nat) (l : List Nat) : State :=
  match l.find? fun a => s.loadFails lc [a] with
  | none => s.meetUe l
  | some a => if s.l1Hit lc (a / 64) then s.countSram cSRAMUE (s.dieOf lc) 0 else s.meetUe [a]

/-- A DATA trap of a core at an address counts the error it met; a walk has counted its own (R200). -/
def State.meetData (s : State) (lc : Nat) (addr : Word) : State :=
  if (s.top lc).any Frame.bad then s.countSram cSRAMUE (s.dieOf lc) 4
  else
    match spaceOf addr 1 with
    | .window dev tlc off => if dev = s.devid.toNat then s.meetCellarUe (span (cellarKey tlc off) 8) else s
    | .global va =>
      match s.coreSpan lc va 8 0 with
      | .pas l s2 => s2.meetLoad lc l
      | _ =>
        match s.coreSpan lc va (0x10000 - va % 0x10000) 0 with
        | .pas l s2 => s2.meetLoad lc l
        | _ => s
    | .bad => s

/-! ### The accesses of a front-end core (R50, R52 to R54) -/

/-- A protection region holds an access of n bytes and grants one permission (R53, R54). -/
def grants (perm : Nat) (a n : Nat) (r : Word) : Bool :=
  let sz := 2 ^ bits r 52 6
  let base := bits r 12 40 * 4096
  bit r 63 && base ≤ a && a + n ≤ base + sz && bit r (if perm = needR then 59 else if perm = needW then 60 else 61)

/-- The regions of a front-end core grant an access: each permission it needs by some region (R54). -/
def FeCore.allows (f : FeCore) (need a n : Nat) : Bool :=
  [needR, needW, needX].all fun p => need / p % 2 == 0 || f.regions.toList.any (grants p a n)

/-- A byte of local HBM of the monitor, under any of its addresses (R13, R52). -/
def State.isMonitor (s : State) (a : Nat) : Bool :=
  match s.region a with
  | .hbm p => decide (p < 0x4000000)
  | _ => false

/-- An address at which a front-end access finds nothing: a hole, an untrained stack's range or an untrained port's
quarter (R13, R15, R193). The carve-out that the front end boots from is there until bring-up has ended (log entry 90). -/
def State.feHole (s : State) (a : Nat) : Bool :=
  match s.region a with
  | .hole => true
  | .hbm p => !(decide (p < 0x10000000) && decide (s.boot.modstat.toNat % 16 < 3)) && !s.boot.modstat.getLsbD (8 + stackOf p)
  | .attic => s.boot.ports.toList.getD (atticPort a) .untrained == .untrained
  | _ => false

/-- The class of the trap a front-end access takes, if it takes one (R50, R52, R54). -/
def State.feCheck (s : State) (c : Nat) (addr : Word) (n need : Nat) : Option Nat :=
  let a := addr.toNat
  let f := s.fe c
  if f.priv = 0 ∧ f.allows need a n = false then some PROT
  else if a + n > 2 ^ 52 then some ADDRESS
  else if f.priv = 1 ∧ (s.isMonitor a || s.isMonitor (a + n - 1)) then some PROT
  else if s.feHole a || s.feHole (a + n - 1) then some ADDRESS
  else none

/-- The bytes of an access that are held under the own device's addresses (R13). -/
def State.feBytes (s : State) (a n : Nat) : List Nat :=
  match s.region a with
  | .hbm p => span p n
  | _ => span a n

def State.feLoad (s : State) (c : Nat) (addr : Word) (n : Nat) : Acc :=
  match s.feCheck c addr n needR with
  | some k => .trap k addr
  | none =>
    match s.region addr.toNat with
    | .remote d _ => s.ask addr (some d) addr.toNat (.load n)
    | .host => s.ask addr none addr.toNat (.load n)
    | _ =>
      let l := s.feBytes addr.toNat n
      if l.any s.portFailed || s.anyBad l then .trap DATA addr else .ok (s.readMem l) s

def State.feStore (s : State) (c : Nat) (addr : Word) (n v : Nat) : Acc :=
  match s.feCheck c addr n needW with
  | some k => .trap k addr
  | none =>
    match s.region addr.toNat with
    | .remote _ _ => .ok 0 (s.sendStore s.agentCore addr (.store (leBytes n v)))
    | .host =>
      if s.hostBusy (span addr.toNat n) then .wait s else .ok 0 (s.hostWrite s.agentFn (span addr.toNat n) (leBytes n v))
    | _ =>
      let l := s.feBytes addr.toNat n
      if l.any s.portFailed || !s.storable l then .trap DATA addr else .ok 0 ((s.homeWrite l).writeMem l (leBytes n v))

def State.feAtomic (s : State) (c : Nat) (addr : Word) (n need : Nat) (op : RemoteOp) (f : Nat → Nat) : Acc :=
  match s.feCheck c addr n need with
  | some k => .trap k addr
  | none =>
    match s.region addr.toNat with
    | .remote d _ => s.ask addr (some d) addr.toNat op
    | .host => s.ask addr none addr.toNat op
    | _ =>
      let l := s.feBytes addr.toNat n
      if l.any s.portFailed || s.anyBad l then .trap DATA addr
      else .ok (s.readMem l) ((s.homeWrite l).writeMem l (leBytes n (f (s.readMem l))))

/-! ### The accesses of the agent whose turn it is -/

/-- A load of n bytes (R321). -/
def State.load (s : State) (addr : Word) (n : Nat) : Acc :=
  match s.agent with
  | .core lc => s.coreLoad lc addr n
  | .fe c => s.feLoad c addr n

/-- A store of the low n bytes of v (R321). -/
def State.store (s : State) (addr : Word) (n v : Nat) : Acc :=
  match s.agent with
  | .core lc => s.coreStore lc addr n v
  | .fe c => s.feStore c addr n v

/-- An atomic: the answer is the old value (R327). -/
def State.atomic (s : State) (addr : Word) (n need : Nat) (op : RemoteOp) (f : Nat → Nat) : Acc :=
  match s.agent with
  | .core lc => s.coreAtomic lc addr n need op f
  | .fe c => s.feAtomic c addr n need op f

/-- n doublewords at ascending addresses, each one load (R377). -/
inductive Loads where
  | ok (l : List Word) (s : State) | trap (cls : Nat) (val : Word) | wait (s : State)
  deriving DecidableEq, Repr

def State.loadWords (s : State) (addr : Word) : Nat → Loads
  | 0 => .ok [] s
  | n + 1 =>
    match s.load addr 8 with
    | .trap c v => .trap c v
    | .wait s => .wait s
    | .ok v s1 =>
      match s1.loadWords (addr + 8) n with
      | .ok l s2 => .ok (BitVec.ofNat 64 v :: l) s2
      | .trap c v => .trap c v
      | .wait s => .wait s

/-! ### The accesses of engines (R14, R202, R213, R222) -/

/-- What an access of an engine comes to: its bytes, an uncorrectable codeword, a fault of its chunk, or a
wait. -/
inductive Eng where
  | ok (bs : List Byte) (s : State) | bad (s : State) | fault (s : State) | wait (s : State)
  deriving DecidableEq, Repr

/-- An access an engine has sent, by engine, address and direction. -/
def findEng (key : Nat) (addr : Word) (tag : Nat) (l : List (Nat × Sent)) : Option Sent :=
  (l.find? fun x => x.1 == key && x.2.addr == addr && x.2.tag == tag).map Prod.snd

/-- Forget an access an engine has sent. -/
def State.forgetEng (s : State) (key : Nat) (addr : Word) (tag : Nat) : State :=
  { s with prog := { s.prog with
      eng := s.prog.eng.filter fun x => !(x.1 == key && x.2.addr == addr && x.2.tag == tag) } }

def State.noteEng (s : State) (key : Nat) (x : Sent) : State :=
  { s with prog := { s.prog with eng := s.prog.eng ++ [(key, x)] } }

/-- Forget every access that an engine has sent. -/
def State.forgetKey (s : State) (key : Nat) : State :=
  { s with prog := { s.prog with eng := s.prog.eng.filter fun x => x.1 != key } }

/-- An access to another module waits for its answer: a reject is a fault of the chunk (R189, R379), a
missing route an uncorrectable source. -/
def State.engRemote (s : State) (key : Nat) (addr : Word) (dev tag : Nat) (op : RemoteOp) : Eng :=
  match findEng key addr tag s.prog.eng with
  | some ⟨_, _, _, none⟩ => .wait s
  | some ⟨_, _, _, some (.data bs)⟩ => .ok bs (s.forgetEng key addr tag)
  | some ⟨_, _, _, some (.refused c)⟩ =>
    if c = DATA then .bad (s.forgetEng key addr tag) else .fault (s.forgetEng key addr tag)
  | none =>
    if s.routed dev then .wait ((s.noteEng key ⟨addr, tag, true, none⟩).addRemote ⟨4096 + key, 0, addr, op⟩)
    else if tag = 0 then .bad s
    else .wait s

/-- The number under which a front-end agent stands for an engine in a request at Q0. -/
def engAgent (key : Nat) : Agent := .core (4096 + key)

/-- A read of the host range waits for its completion; one that ends with an error is an uncorrectable
source (R14). -/
def State.engHost (s : State) (key fn pa n : Nat) : Eng :=
  let addr := BitVec.ofNat 64 pa
  match findEng key addr 2 s.prog.eng with
  | some ⟨_, _, _, none⟩ => .wait s
  | some ⟨_, _, _, some (.data bs)⟩ => .ok bs (s.forgetEng key addr 2)
  | some ⟨_, _, _, some (.refused _)⟩ => .bad (s.forgetEng key addr 2)
  | none =>
    .wait ((s.noteEng key ⟨addr, 2, true, none⟩).addHostReq (freeTag s.mem.hostReqs) ⟨engAgent key, 0, fn, pa, .load n, none⟩)

/-- The first of the numbers under which footprint fetches stand among the engines (R88, R202). -/
def footBase : Nat := 2 ^ 19

/-- Who an engine works for: its number, the issuing core, and the context and the function of the graph. -/
structure Issuer where
  key : Nat
  lc : Nat
  ctx : Nat
  fn : Nat
  deriving DecidableEq, Repr

/-- The holders an engine uses: the chunk it holds, and its cluster's TLB (R202). -/
def State.engHolders (s : State) (x : Issuer) : List Nat :=
  [4096 + 64 * x.key + s.clusterOf x.lc, 1024 + s.clusterOf x.lc]

/-- The translation of an engine: by its cluster's TLB and walker, with E, which a footprint fetch does not need (R202). -/
def State.engSpan (s : State) (x : Issuer) (va n need : Nat) (e : Nat := needE) : XlSpan :=
  s.xlateSpan (s.dieOf x.lc) (s.engHolders x) (s.partOf x.lc) x.ctx va n (need + e)

/-- An engine's operation is over or abandoned: it holds no chunk, and asks nothing of the walkers. -/
def State.engDone (s : State) (x : Issuer) : State := s.dropHolder (4096 + 64 * x.key + s.clusterOf x.lc)

/-- A read of n bytes by an engine. -/
def State.engRead (s : State) (x : Issuer) (addr : Word) (n : Nat) (e : Nat := needE) : Eng :=
  match spaceOf addr n with
  | .bad => .fault s
  | .window dev tlc off =>
    if dev ≠ s.devid.toNat then s.engRemote x.key addr dev 0 (.load n)
    else if s.mapped tlc && s.shut tlc then .wait (s.callTile tlc)
    else if !s.reachable (s.partOf x.lc) tlc then .fault s
    else if s.anyBadCellar (span (cellarKey tlc off) n) then .bad (s.meetCellarUe (span (cellarKey tlc off) n))
    else .ok (gatherBytes s.mem.cellar (span (cellarKey tlc off) n)) s
  | .global va =>
    match s.engSpan x va n needR e with
    | .trap _ => .fault s
    | .wait s1 => .wait s1
    | .pas l s1 =>
      match s1.region (l.headD 0) with
      | .remote d _ => s1.engRemote x.key (BitVec.ofNat 64 (l.headD 0)) d 0 (.load n)
      | .host => s1.engHost x.key x.fn (l.headD 0) n
      | _ => if l.any s1.portFailed || s1.anyBad l then .bad (s1.meetUe l) else .ok (gatherBytes s1.mem.bytes l) s1

/-- A write of bytes by an engine. One that covers only part of a failed codeword is not made. -/
def State.engWrite (s : State) (x : Issuer) (addr : Word) (bs : List Byte) : Eng :=
  let n := bs.length
  match spaceOf addr n with
  | .bad => .fault s
  | .window dev tlc off =>
    if dev ≠ s.devid.toNat then s.engRemote x.key addr dev 1 (.store bs)
    else if s.mapped tlc && s.shut tlc then .wait (s.callTile tlc)
    else if !s.reachable (s.partOf x.lc) tlc then .fault s
    else if !s.storableCellar (span (cellarKey tlc off) n) then .bad (s.meetCellarUe (span (cellarKey tlc off) n))
    else .ok [] (s.writeCellar (span (cellarKey tlc off) n) bs)
  | .global va =>
    match s.engSpan x va n needW with
    | .trap _ => .fault s
    | .wait s1 => .wait s1
    | .pas l s1 =>
      match s1.region (l.headD 0) with
      | .remote d _ => s1.engRemote x.key (BitVec.ofNat 64 (l.headD 0)) d 1 (.store bs)
      | .host => if s1.hostBusy l then .wait s1 else .ok [] (s1.hostWrite x.fn l bs)
      | _ => if l.any s1.portFailed || !s1.storable l then .bad (s1.meetUe l) else .ok [] ((s1.homeWrite l).writeMem l bs)

/-- One of the accesses that an engine has still to make, in no order of its own (R213). -/
def pickAccess {α : Type} (tick : Nat) : List α → Option α
  | [] => none
  | [x] => some x
  | l => l[Config.engineOrder tick % l.length]?.or l.head?

/-- A read that an engine keeps for what it does next with it: a read and what follows it are each one access in a step of its
own (R209, R213). The read is noted under a tag of its own. -/
def State.keepRead (s : State) (key : Nat) (addr : Word) (tag : Nat) (read : Eng) : Eng :=
  match findEng key addr tag s.prog.eng with
  | some ⟨_, _, _, some (.data bs)⟩ => .ok bs s
  | _ =>
    match read with
    | .ok bs s1 => .wait (s1.noteEng key ⟨addr, tag, false, some (.data bs)⟩)
    | y => y

/-- An engine has sent an access that is not answered yet. -/
def State.engWaits (s : State) (key : Nat) : Bool := s.prog.eng.any fun x => x.1 == key && x.2.answer.isNone

end Sys2Proof.Machine
end

