-- ==== Sys2Proof/Machine/Layout.lean ====
section
/-! DEFINITION. What a tag makes of a vector register: elements and units (R346, R347), the addresses of the units of a memory
entry in an iteration (R360, R373), and which scalar accesses may meet them (R171). -/

namespace Sys2Proof.Machine

/-! ### Elements and units (R346, R347) -/

/-- What a tag makes of a register: element bits, elements per unit, and the bits of an element's code. -/
structure Layout where
  w : Nat
  upe : Nat
  code : Nat
  deriving DecidableEq, Repr

/-- A tag's descriptor among the captured ones; its first eight tags name none. -/
def descOf (fd : Vector (BitVec 32) 8) (t : BitVec 4) : BitVec 32 := fd.toList.getD (t.toNat - 8) 0

/-- The bits of a code of a descriptor (R249). -/
def fdWidth (d : BitVec 32) : Nat := d.toNat / 128 % 2 + d.toNat % 16 + d.toNat / 16 % 8

/-- The layout of a tag. -/
def layoutOf (fd : Vector (BitVec 32) 8) (t : BitVec 4) : Layout :=
  match t.toNat with
  | 0 | 4 => ⟨64, 1, 64⟩
  | 1 => ⟨8, 1, 8⟩
  | 2 | 6 | 7 => ⟨16, 1, 16⟩
  | 3 | 5 => ⟨32, 1, 32⟩
  | _ => let c := fdWidth (descOf fd t); if c ≤ 4 then ⟨4, 2, c⟩ else ⟨8, 1, c⟩

/-- Elements and units of one register, and bits and bytes of a unit. -/
def Layout.elems (l : Layout) : Nat := 512 / l.w
def Layout.units (l : Layout) : Nat := l.elems / l.upe
def Layout.ubits (l : Layout) : Nat := l.w * l.upe

/-- Whether a tag names an integer format (R170). -/
def isIntTag (t : BitVec 4) : Bool := 1 ≤ t.toNat && t.toNat ≤ 4

/-- The tag of a VALU type (R282). -/
def VTy.tag : VTy → BitVec 4
  | .i8 => 1 | .i16 => 2 | .i32 => 3 | .i64 => 4 | .f32 => 5 | .bf16 => 6 | .f16 => 7

/-- Element j of width w, and n elements of width w made by a function. -/
def getEl (x w j : Nat) : Nat := x / 2 ^ (w * j) % 2 ^ w
def buildEls (w : Nat) (f : Nat → Nat) : Nat → Nat
  | 0 => 0
  | n + 1 => buildEls w f n + f n % 2 ^ w * 2 ^ (w * n)

/-- A number with its element j replaced. -/
def setEl (x w j v : Nat) : Nat := x - getEl x w j * 2 ^ (w * j) + v % 2 ^ w * 2 ^ (w * j)

/-- Unit u of U is active under a mask word (R347). -/
def unitActive (mask : Word) (U u : Nat) : Bool := mask.toNat.testBit (if U ≤ 64 then u else u / (U / 64))

/-! ### The units of a memory entry -/

/-- The base of an entry in an iteration of its loop (R373). -/
def SeqEntry.baseAt (e : SeqEntry) (mode iter G : Nat) : Word :=
  if mode = 1 then e.base + BitVec.ofNat 64 (iter * (G * (layoutOf e.fd e.fmt).units)) * e.stride
  else e.base + BitVec.ofNat 64 (iter * 64 * G)

/-- The address of unit j, or none where it is not accessed (R360). -/
def SeqEntry.unitAddr (e : SeqEntry) (mode G : Nat) (base : Word) (idx : Nat) (j : Nat) : Option Word :=
  let l := layoutOf e.fd e.fmt
  if !unitActive e.mask (G * l.units) j then none
  else if mode = 0 then some (base + BitVec.ofNat 64 (j * (l.ubits / 8)))
  else if mode = 1 then some (base + BitVec.ofNat 64 j * e.stride)
  else
    let x := layoutOf e.fd e.aux
    if j < G * x.elems then some (base + sext x.w (getEl idx x.w j)) else none

/-- A 16-bit immediate, sign-extended. -/
def immS (i : BitVec 16) : Word := i.signExtend 64

/-! ### Scalar accesses beside queued vector accesses (R171) -/

/-- A vector memory form: near or not, and its mode, 0 unit-stride, 1 strided, 2 indexed (R360). -/
def vmemForm : Instr → Option (Bool × Nat)
  | .vld .. | .vst .. => some (false, 0)
  | .vlds .. | .vsts .. => some (false, 1)
  | .vldx .. | .vstx .. => some (false, 2)
  | .vlc .. | .vsc .. => some (true, 0)
  | .vlcs .. | .vscs .. => some (true, 1)
  | .vlcx .. | .vscx .. => some (true, 2)
  | _ => none

/-- The bytes that a scalar memory form accesses, from the values it reads: near or not, the first address, how many; of a
block move those of its next element, of an atomic the eight from its address. -/
def scalarReach (i : Instr) (v : List Word) : List (Bool × Word × Nat) :=
  let a := v.getD 0 0
  let b := v.getD 1 0
  match i with
  | .ldB _ _ o | .ldBu _ _ o | .stB _ _ o => [(false, a + immS o, 1)]
  | .ldH _ _ o | .ldHu _ _ o | .stH _ _ o => [(false, a + immS o, 2)]
  | .ldW _ _ o | .ldWu _ _ o | .stW _ _ o => [(false, a + immS o, 4)]
  | .ldD _ _ o | .stD _ _ o => [(false, a + immS o, 8)]
  | .lcB _ _ o | .lcBu _ _ o | .scB _ _ o => [(true, a + immS o, 1)]
  | .lcH _ _ o | .lcHu _ _ o | .scH _ _ o => [(true, a + immS o, 2)]
  | .lcW _ _ o | .lcWu _ _ o | .scW _ _ o => [(true, a + immS o, 4)]
  | .lcD _ _ o | .scD _ _ o => [(true, a + immS o, 8)]
  | .scnl .. | .scnh .. => [(true, a, 1)]
  | .bmov .. | .bcmp .. => [(false, a, 1), (false, b, 1)]
  | .bset .. | .stnl .. | .stnh .. => [(false, a, 1)]
  | _ => [(false, a, 8)]

/-- n bytes from one address and m bytes from another may share a byte. Bytes of quarters meet where their offsets do; bytes of
memory where their addresses agree modulo 64 KiB, since two pages can lie on one place (log entry 115). -/
def mayMeet (near : Bool) (a : Word) (n : Nat) (near' : Bool) (b : Word) (m : Nat) : Bool :=
  let place := fun (near : Bool) (a : Word) =>
    if near then (true, a.toNat % 2 ^ 20)
    else
      match spaceOf a 1 with
      | .window _ _ off => (true, off)
      | _ => (false, a.toNat % 65536)
  let x := place near a
  let y := place near' b
  let k := if x.1 then 2 ^ 20 else 65536
  x.1 == y.1 && ((y.2 + k - x.2) % k < n || (x.2 + k - y.2) % k < m)

/-- A scalar access may meet a queued memory entry in one of its iterations: one of its active units, or any byte where its
indices are still to be read. -/
def SeqEntry.meets (e : SeqEntry) (G : Nat) (iters : List Nat) (x : Bool × Word × Nat) : Bool :=
  match vmemForm e.i with
  | none => false
  | some (near, mode) =>
    let l := layoutOf e.fd e.fmt
    mode == 2 || iters.any fun i => (span 0 (G * l.units)).any fun j =>
      match e.unitAddr mode G (e.baseAt mode i G) 0 j with
      | some b => mayMeet x.1 x.2.1 x.2.2 near b (l.ubits / 8)
      | none => false

/-- The entries of an item of the sequencer, with the iterations that each has left (R172, R373). -/
def SeqItem.rest : SeqItem → List (SeqEntry × List Nat)
  | .one e => [(e, [0])]
  | .loop l => l.body.zipIdx.map fun x => (x.1, let k := if x.2 < l.at_ then 1 else 0; span (l.iter + k) (l.left - k))

end Sys2Proof.Machine
end

