-- ==== Sys2Proof/Machine/Plugins.lean ====
section
/-! DEFINITION. Plug-in calls: raising them, running them on a front-end core, their results and their failures
(R53 to R56). -/

namespace Sys2Proof.Machine

/-- A plug-in can be called. -/
def Plugin.usable (x : Plugin) : Bool := x.loaded && !x.disabled

/-- A call of the plug-in has been made, and its result has not been taken. -/
def Plugin.busy (x : Plugin) : Bool := x.running.isSome || x.returned.isSome

/-! ### Results (R55) -/

/-- A granted level: a result outside 1 to cap gives the requested one, lowered to cap. -/
def Plugin.granted (x : Plugin) (level : Nat) (w : Option Word) : Nat :=
  match w with
  | some w => if 1 ≤ w.toNat ∧ w.toNat ≤ x.cap then w.toNat else min level x.cap
  | none => min level x.cap

/-- The results that a LAUNCH waits for, of a VCP or of an external LAUNCH. -/
def State.admitOf (s : State) (f v : Nat) : Option Bool := if v = 255 then (s.func f).admitted else (s.vcp f v).admitted
def State.pmapOf (s : State) (f v : Nat) : Table Nat := if v = 255 then (s.func f).pmap else (s.vcp f v).pmap
def State.setAdmit (s : State) (f v : Nat) (b : Bool) : State :=
  if v = 255 then s.setFunc f { s.func f with admitted := some b } else s.setVcp f v { s.vcp f v with admitted := some b }
def State.setPmap (s : State) (f v level dst : Nat) : State :=
  if v = 255 then s.setFunc f { s.func f with pmap := tput level dst (s.func f).pmap }
  else s.setVcp f v { s.vcp f v with pmap := tput level dst (s.vcp f v).pmap }

/-- A landing keeps its weight where LWEIGHT gives no valid result. -/
def State.setWeight (s : State) (g st : Nat) (w : Option Word) : State :=
  match w with
  | some w => if w.toNat ≤ 255 then s.setEntry 5 (64 * g + st) (setBits (s.entry 5 (64 * g + st)) 0 8 w.toNat) else s
  | none => s

/-- OPVOTE: no valid result is no vote. -/
def State.setVote (s : State) (p : Nat) (w : Option Word) : State :=
  let valid := w.any fun w => decide (w.toNat < 16)
  { s with power := { s.power with votes := if valid then tput p (w.getD 0).toNat s.power.votes else tdel p s.power.votes } }

/-- A call has its result, none where its fallback applies. -/
def State.policyResult (s : State) (n : Nat) (c : Policy) (w : Option Word) : State :=
  match c with
  | .letIn f v => s.setAdmit f v (w == some 0)
  | .pmap f v level => s.setPmap f v level ((s.plugin n).granted level w)
  | .opvote p => s.setVote p w
  | .lweight g st => s.setWeight g st w
  | .dropped _ => s

/-! ### Raising a call (R56) -/

/-- The calls of a plug-in's queue that have not been made: 64 at most. -/
def Plugin.waiting (x : Plugin) : Nat := if x.busy then x.queue.length - 1 else x.queue.length

/-- Raise a call: a plug-in that cannot be called, or whose queue is full, brings the fallback. -/
def State.raiseCall (s : State) (n : Nat) (c : Call) : State :=
  let x := s.plugin n
  if !x.usable then s.policyResult n c.what none
  else if x.waiting ≥ 64 then (s.count cPLGSKIP n).policyResult n c.what none
  else s.setPlugin n { x with queue := x.queue ++ [c] }

/-- Raise a call that a LAUNCH waits for, unless it has been raised. -/
def State.raiseOnce (s : State) (n : Nat) (c : Call) : State :=
  if (s.plugin n).queue.any fun x => x.what == c.what then s else s.raiseCall n c

/-- A call is for a LAUNCH of a function and VCP. -/
def Policy.isFor (f v : Nat) : Policy → Bool
  | .letIn a b => a == f && b == v
  | .pmap a b _ => a == f && b == v
  | _ => false

/-- The code of a call. -/
def Policy.code : Policy → Nat
  | .letIn _ _ => 1 | .pmap _ _ _ => 2 | .opvote _ => 3 | .lweight _ _ => 4 | .dropped code => code

/-- Take the calls of a VCP's LAUNCH back: the one that runs goes on, and its result is not used. -/
def Plugin.without (x : Plugin) (f v : Nat) : Plugin :=
  match x.queue with
  | [] => x
  | c :: l =>
    let rest := l.filter fun y => !y.what.isFor f v
    { x with queue :=
        if !c.what.isFor f v then c :: rest
        else if x.busy then { c with what := .dropped c.what.code } :: rest
        else rest }

/-! ### Making a call, and its return (R54, R55) -/

/-- What a region stores: its reserved bits are 0 (R53). -/
def regionWord (w : Word) : Word := setBits (setBits w 58 1 0) 0 12 0

/-- A `pmpw` with v = 1 that is wrong (R53). -/
def badRegion (w : Word) : Bool :=
  let lg := bits w 52 6
  bit w 63 && (decide (lg < 12 ∨ lg > 52) || bits w 12 40 * 4096 % 2 ^ lg != 0 || bit w 58 || bits w 0 12 != 0)

/-- The regions of the plug-in that is called; a locked one stays. An entry that `pmpw` would refuse is not valid (R53). -/
def FeCore.confine (c : FeCore) (n : Nat) : Vector Word 16 :=
  (Vector.range 16).map fun i =>
    let old := c.regions.toList.getD i 0
    let w := regionWord (Config.pluginRegion n i)
    if bit old 62 then old else if badRegion w then 0 else w

/-- The scheduler calls a plug-in on a front-end core: the arguments from s1 on, FEEPC and FEPREV, the regions, and
`eret`. -/
def FeCore.enterPlugin (c : FeCore) (n entry code : Nat) (args : List Word) : FeCore :=
  let a := BitVec.ofNat 52 ((Config.callEntry entry code).toNat / 4 * 4)
  { c with
    regions := c.confine n, prev := 0, epc := a, priv := 0
    h := { c.h with
      regs := (Vector.range 32).map fun i => if 1 ≤ i ∧ i ≤ args.length then args.getD (i - 1) 0 else c.h.regs.toList.getD i 0
      pc := a.toNat / 4, sent := [], stalled := false } }

/-- The oldest raised call of a plug-in is made, where none of it runs, on a front-end core at scheduler level. -/
def State.makeCall (s : State) (n core : Nat) : State :=
  let x := s.plugin n
  let c := s.fe core
  match x.queue with
  | [] => s
  | y :: _ =>
    if x.usable && !x.busy && decide (core < 16) && c.priv == 1 && c.released && !c.halted then
      (s.setFe core (c.enterPlugin n x.entry y.what.code y.args)).setPlugin n { x with running := some (core, c.cycle) }
    else s

/-- A call has overrun or faulted: after 16 in a row the plug-in is disabled, and what has been raised for it takes its
fallback. -/
def State.plugFail (s : State) (n code : Nat) : State :=
  let x := s.plugin n
  let off := x.disabled || decide (16 ≤ x.failures + 1)
  let s1 := (s.setPlugin n { x with failures := x.failures + 1, disabled := off, queue := if off then [] else x.queue }).count code n
  if off then x.queue.foldl (fun s c => s.policyResult n c.what none) s1 else s1

/-- The result of a call that was made, and what it changes. -/
def State.callEnds (s : State) (n : Nat) (r : PlugRes) : Option Word × State :=
  match r with
  | .value w => (some w, s.setPlugin n { s.plugin n with failures := 0 })
  | .fault => (none, s.plugFail n cPLGFLT)
  | .overrun => (none, s.plugFail n cPLGOVR)

/-- The call of a plug-in that runs is over, and its result is taken. -/
def State.takeResult (s : State) (n : Nat) (r : PlugRes) : State :=
  let x := s.plugin n
  match x.queue with
  | [] => s
  | c :: l =>
    let (w, s1) := (s.setPlugin n { x with queue := l, running := none, returned := none }).callEnds n r
    s1.policyResult n c.what w

/-- A front-end core at plug-in level traps: `trap` 0 returns s1, any other trap is a fault. -/
def returnOf (cls : Nat) (val s1 : Word) : PlugRes := if cls = USER ∧ val = 0 then .value s1 else .fault

/-- Nobody waits for the result of a call. -/
def Policy.idle : Policy → Bool
  | .dropped _ => true
  | _ => false

/-- A call that runs on a core has run past its budget, counted from its `eret` (R55). -/
def State.pastBudget (s : State) (x : Plugin) : Bool :=
  match x.running, x.queue with
  | some (core, t), c :: _ => decide (Config.callBudget c.what.code < ((s.fe core).cycle - t).toNat)
  | _, _ => false

/-- A call of a plug-in has returned: its result is there to be taken, at once where nobody waits for it. -/
def State.hasResult (s : State) (n : Nat) (r : PlugRes) : State :=
  let x := s.plugin n
  if x.queue.head?.any fun c => c.what.idle then s.takeResult n r
  else s.setPlugin n { x with running := none, returned := some r }

/-- The trap of a front-end core ends the call that runs on it; a value past the budget is none. -/
def State.noteReturn (s : State) (core cls : Nat) (val : Word) : State :=
  match s.plugins.find? fun e => e.2.running.any fun y => y.1 == core with
  | none => s
  | some (n, x) =>
    s.hasResult n (if s.pastBudget x then .overrun else returnOf cls val ((s.fe core).h.regs.toList.getD 1 0))

/-- The calls of a VCP's LAUNCH are taken back; a result that waits to be taken has its effect on the plug-in alone. -/
def State.dropCalls (s : State) (f v : Nat) : State :=
  let s1 : State := { s with plugins := s.plugins.map fun e => (e.1, e.2.without f v) }
  s1.plugins.foldl (fun s e =>
    match e.2.returned with
    | some r => if e.2.queue.head?.any fun c => c.what.idle then s.takeResult e.1 r else s
    | none => s) s1

/-- The call of a plug-in that has returned is this one, with this result. -/
def State.hasReturned (s : State) (n : Nat) (c : Policy) (r : PlugRes) : Bool :=
  (s.plugin n).returned == some r && (s.plugin n).queue.head?.any fun y => y.what == c

/-- The scheduler takes the result of a call that has returned. -/
def State.madeCall (s : State) (n : Nat) (c : Policy) (r : PlugRes) : State := if s.hasReturned n c r then s.takeResult n r else s

/-- The plug-in of a partition: that of its first bound function. -/
def State.partPlug (s : State) (p : Nat) : Option Nat :=
  ((span 0 64).find? fun f => s.bound f && s.fnPart f == p).map s.fnPlug

end Sys2Proof.Machine
end

