-- ==== Sys2Proof/Machine/Ops.lean ====
section
/-! DEFINITION. The operations that instructions share: time words and counts, records on their way,
cancel marks, the inbox, the end of a frame, and taking a trap and returning from one. -/

namespace Sys2Proof.Machine

/-! ### Time words (R115, R116, R119) -/

/-- The depth of a time word and its counter i. -/
def depthOf (t : Word) : Nat := bits t 60 4
def counterOf (t : Word) (i : Nat) : Nat := bits t (15 * i) 15

/-- A time word is well formed (R115). -/
def wellFormedTime (t : Word) : Bool := depthOf t ≤ 4 && bits t (15 * depthOf t) (60 - 15 * depthOf t) == 0

/-- Key(t) of R116. -/
def timeKey (t : Word) : Nat :=
  counterOf t 0 * 2 ^ 45 + counterOf t 1 * 2 ^ 30 + counterOf t 2 * 2 ^ 15 + counterOf t 3

/-- The order of time words (R116). -/
def timeLt (t u : Word) : Bool := timeKey t < timeKey u || (timeKey t == timeKey u && depthOf t < depthOf u)

/-- The fields of a path summary (R118). -/
def sumV (m : BitVec 16) : Bool := m.getLsbD 15
def sumL (m : BitVec 16) : Nat := m.toNat / 4096 % 8
def sumE (m : BitVec 16) : Nat := m.toNat / 512 % 8
def sumK (m : BitVec 16) : Nat := m.toNat % 256

/-- A counter of the result of Apply. -/
def applyCounter (t : Word) (n k i : Nat) : Nat :=
  if i ≥ n then 0 else if i + 1 = n then counterOf t i + k else counterOf t i

/-- Apply(s, t) of R119: none where a counter would pass 32767. -/
def applySum (m : BitVec 16) (t : Word) : Option Word :=
  let n := depthOf t - sumL m
  let c := applyCounter t n (sumK m)
  if n > 0 ∧ c (n - 1) > 32767 then none
  else some (BitVec.ofNat 64 ((n + sumE m) % 16 * 2 ^ 60 + c 3 * 2 ^ 45 + c 2 * 2 ^ 30 + c 1 * 2 ^ 15 + c 0))

/-- A time word matches a prefix of depth d (R109). -/
def matchesPrefix (t p : Word) (d : Nat) : Bool :=
  d ≤ depthOf t && bits t 0 (15 * d) == bits p 0 (15 * d)

/-- A cancel mark of a graph slot matches a time (R109, R110). -/
def State.marked (s : State) (g : Nat) (t : Word) : Bool :=
  (s.root g).marks.any fun m => matchesPrefix t m.t m.depth

/-- The depth of a station (R117). -/
def Graph.depth (g : Graph) (st : Nat) : Nat := g.depths.getD st 0

/-- An entry of the path-summary table (R121). -/
def Graph.path (g : Graph) (a b : Nat) : BitVec 16 := tget 0 g.table (64 * a + b)

/-- CheckTarget (R123): the reason of the TIME trap, or none. -/
def State.checkTarget (s : State) (f : Frame) (g st : Nat) (t : Word) : Option Nat :=
  if g ≠ f.graph then some 6
  else
    match s.graph g with
    | none => some 2
    | some gr =>
      if st ≥ gr.stations then some 2
      else if !wellFormedTime t || depthOf t != gr.depth st then some 1
      else if !sumV (gr.path f.station st) then some 2
      else
        match applySum (gr.path f.station st) f.ltime with
        | none => some 3
        | some m => if timeLt t m then some 3 else none

/-! ### Counts on their way up (R122 to R125) -/

/-- Add a count delta to a list: it joins an entry of its station time, and an entry that comes to 0
and carries no mark goes (R124). A request never joins another. -/
def addDelta (d : Delta) : List Delta → List Delta
  | [] => [d]
  | x :: l =>
    if x.request.isNone && d.request.isNone && x.g == d.g && x.st == d.st && x.t == d.t then
      let y := { x with n := x.n + d.n, marks := x.marks ++ d.marks }
      if y.n = 0 ∧ y.marks = [] then l else y :: l
    else x :: addDelta d l

/-- Some entry of a list has the station time of a count delta. -/
def joins (d : Delta) (l : List Delta) : Bool :=
  d.request.isNone && l.any fun x => x.request.isNone && x.g == d.g && x.st == d.st && x.t == d.t

/-- The same, but increments and decrements of a station time stay apart: a die may hold back the ones and not the
others (R125). -/
def addApart (d : Delta) : List Delta → List Delta
  | [] => [d]
  | x :: l =>
    if x.request.isNone && d.request.isNone && x.g == d.g && x.st == d.st && x.t == d.t &&
        decide (x.n < 0) == decide (d.n < 0) then
      { x with n := x.n + d.n, marks := x.marks ++ d.marks } :: l
    else x :: addApart d l

/-- The entries of a table: each station time once, each request once. -/
def entriesOf : List Delta → Nat
  | [] => 0
  | d :: l => if joins d l then entriesOf l else entriesOf l + 1

/-- The nodes of the combining tree: tile t is t, cluster c is 256 + c, die d is 288 + d, the roots are
296 and 297, the quay dies' own nodes 298 and 299, and a core is 1024 more than its number (R125). -/
def dieNode (d : Nat) : Nat := 288 + d
def rootNode (g : Nat) : Nat := 296 + g / 8
def quayNode (g : Nat) : Nat := 298 + g / 8

/-- The module whose root holds a slot's counts, and whether it is this one (R127). -/
def State.homeOf (s : State) (g : Nat) : Nat := ((s.graph g).map Graph.home).getD s.devid.toNat
def State.homed (s : State) (g : Nat) : Bool := s.homeOf g == s.devid.toNat

/-- A node takes a batch: it is empty or has room, at a die its spill area included (R124, R128). -/
def State.accepts (s : State) (node : Nat) : Bool :=
  s.node node == [] || decide (entriesOf (s.node node) < (if node < 288 then Config.nodeRoom node else Config.dieTable + Config.spillRoom))

/-- A core's batch cannot be sent: its tile's node does not take it (R124). -/
def State.parentFull (s : State) (lc : Nat) : Bool :=
  s.prog.batches.any fun b => b.src == 1024 + lc && !s.accepts b.dst

/-- Flush a core's progress buffer as one batch (R124). -/
def State.flush (s : State) (lc : Nat) : State :=
  let c := s.core lc
  if c.progress = [] then s
  else (s.addBatch ⟨1024 + lc, s.tileOf lc, c.progress⟩).setCore lc { c with progress := [] }

/-- Place a delta in a core's progress buffer, after a flush where there is no room (R124). -/
def State.post (s : State) (lc : Nat) (d : Delta) : State :=
  let s1 := if !joins d (s.core lc).progress && (s.core lc).progress.length ≥ Config.progressBuffer then s.flush lc else s
  let c := s1.core lc
  s1.setCore lc { c with progress := addDelta d c.progress }

/-- A count delta of a record's station time. -/
def Rec.delta (r : Rec) (n : Int) (marks : List Mark) : Delta := ⟨r.graph, r.station, r.q1, n, none, marks⟩

/-- Place a delta at a node of the tree; a further station time of a die's full table goes to its spill area, which
PSPILL counts (R125, R128). -/
def State.postNode (s : State) (node : Nat) (d : Delta) : State :=
  let l := s.node node
  let s1 := s.setNode node (if node < 288 then addDelta d l else addApart d l)
  if 288 ≤ node ∧ node < 296 ∧ Config.dieTable ≤ entriesOf l ∧ joins d l = false then s1.count cPSPILL (node - 288) else s1

/-- Drop a record at a die: its decrement is posted there (R91, R110, R122). -/
def State.dropAt (s : State) (die : Nat) (r : Rec) (marks : List Mark) : State :=
  s.postNode (dieNode die) (r.delta (-1) marks)

/-- A record dropped by a cancel mark is counted (R114). -/
def State.cancelDrop (s : State) (die : Nat) (r : Rec) : State :=
  (s.dropAt die r []).count cCNCLDROP (s.fnPart (s.fnOf r.graph))

/-! ### Records on their way (R110, R143) -/

/-- Where a record goes (R87). -/
def State.destOf (s : State) (r : Rec) : Dest :=
  if r.dev ≠ s.devid.toNat then .device r.dev
  else if r.any then .landing r.graph r.station
  else .core r.tcore

/-- Send a record; its count has been placed. -/
def State.send (s : State) (src : Source) (r : Rec) (marked : Bool) : State :=
  s.addFlight ⟨r, src, s.destOf r, marked, false, false⟩

/-- A record that an engine, the root or the front end has counted is sent, or dropped where a cancel
mark matches it (R102, R110). -/
def State.release (s : State) (src : Source) (die : Nat) (r : Rec) : State :=
  if s.marked r.graph r.q1 then s.cancelDrop die r else s.send src r false

/-- The successor an engine delivers: a kind 3 record with the status in Q7, which arrives in s6 (R102,
R378, R379). -/
def succRecord (img : Rec) (status : Word) : Rec := { img.set 27 3 3 with q7 := status }

def State.deliver (s : State) (src : Source) (die : Nat) (img : Rec) (status : Word) : State :=
  s.release src die (succRecord img status)

/-- The status word of R379: count, the arm-refused bit, flags and code. -/
def statusWord (count : Nat) (armref : Bool) (flags : BitVec 5) (code : Nat) : Word :=
  BitVec.ofNat 64 (count % 2 ^ 40 * 2 ^ 24 + armref.toNat * 2 ^ 13 + flags.toNat * 2 ^ 8 + code % 256)

/-! ### Collectives that wait (R391, R392) -/

/-- The fields of a collective's descriptor. -/
def collOp (d : List Word) : Nat := bits (d.getD 0 0) 0 4
def collTag (d : List Word) : Nat := bits (d.getD 0 0) 4 4
def collFcor (d : List Word) : Nat := bits (d.getD 1 0) 0 10
def collLcor (d : List Word) : Nat := bits (d.getD 1 0) 10 10
def collFdev (d : List Word) : Nat := bits (d.getD 1 0) 20 7
def collLdev (d : List Word) : Nat := bits (d.getD 1 0) 27 7
def collSrc (d : List Word) : Nat := bits (d.getD 2 0) 0 19
def collDst (d : List Word) : Nat := bits (d.getD 2 0) 19 19
def collLen (d : List Word) : Nat := bits (d.getD 2 0) 38 26
def collKey (d : List Word) : Nat := bits (d.getD 3 0) 0 32

/-- Every participant has contributed: those the first descriptor names. -/
def Collective.full (c : Collective) : Bool :=
  match c.parts with
  | [] => false
  | x :: _ =>
    let d := x.words.toList
    (span (collFdev d) (collLdev d + 1 - collFdev d)).all fun v =>
      (span (collFcor d) (collLcor d + 1 - collFcor d)).all fun lc => c.parts.any fun y => y.dev == v && y.lc == lc

/-! ### Cancel marks (R110, R111, R137, R197) -/

/-- The deferred reads of a slice whose successors a mark of slot g matches are dropped (R197). -/
def State.cancelPantry (s : State) (g : Nat) (m : CancelMark) (n : Nat) : State :=
  let hit := fun d : Deferred => d.succ.graph == g && matchesPrefix d.succ.q1 m.t m.depth
  let p := (s.slice n).pantry
  if p.any hit then
    (p.filter hit).foldl (fun s d => s.cancelDrop (n / 16) d.succ)
      (s.setSlice n { s.slice n with pantry := p.filter fun d => !hit d })
  else s

/-- A mark ends the collectives that wait for a participant, where it matches a successor of this module: those
successors are dropped, and an instance without a participant of this module is gone (R110, R392). -/
def State.cancelColls (s : State) (g : Nat) (m : CancelMark) : State :=
  let own := fun p : Contribution => p.dev == s.devid.toNat
  let hit := fun p : Contribution => own p && p.succ.graph == g && matchesPrefix p.succ.q1 m.t m.depth
  let ended := fun c : Collective => !c.full && c.parts.any hit
  let left := fun c : Collective => c.parts.filter fun p => !hit p
  let keep := s.prog.colls.filterMap fun c =>
    if ended c = false then some c else if (left c).any own then some { c with parts := left c } else none
  ((s.prog.colls.filter ended).flatMap fun c => c.parts.filter hit).foldl (fun s p => s.cancelDrop (s.dieOf p.lc) p.succ)
    { s with prog := { s.prog with colls := keep } }

/-- What a mark makes of an open launch that it matches: it is cancelled, by a halt-launch with an error (R136, R230). -/
def Launch.meetMark (m : CancelMark) (l : Launch) : Launch :=
  if matchesPrefix l.t m.t m.depth then { l with cancelled := true, err := l.err || m.err } else l

/-- Two marks have one prefix (R399). -/
def sameMark (a b : CancelMark) : Bool := a.depth == b.depth && bits a.t 0 (15 * a.depth) == bits b.t 0 (15 * a.depth)

/-- Put a mark in a slot's list: the matched open launches become cancelled (R109, R136). -/
def State.putMark (s : State) (g : Nat) (m : CancelMark) : State :=
  let r := s.root g
  let s1 := s.setRoot g { r with marks := r.marks ++ [m], launches := r.launches.map (Launch.meetMark m) }
  ((s.slices.map Prod.fst).foldl (fun s n => s.cancelPantry g m n) s1).cancelColls g m

/-- A mark that is there already meets the open launches again. -/
def State.renewMark (s : State) (g : Nat) (m : CancelMark) : State :=
  let r := s.root g
  s.setRoot g { r with
    marks := r.marks.map fun x => if sameMark m x then { x with err := x.err || m.err } else x
    launches := r.launches.map (Launch.meetMark m) }

/-- Install a cancel mark in this module: 0 installed, 1 already present, 2 no mark free (R109, R111). -/
def State.installHere (s : State) (g : Nat) (m : CancelMark) : Nat × State :=
  if (s.root g).marks.any (sameMark m) then (1, s.renewMark g m)
  else if (s.root g).marks.length ≥ Config.cancelMarks then (2, s)
  else (0, s.putMark g m)

/-- The other modules of a slot's domain (R91, R189). -/
def State.domainOf (s : State) (g : Nat) : List Nat :=
  (span 0 128).filter fun d => d != s.devid.toNat && s.inDomain (s.fnPart (s.fnOf g)) d

/-- The home root of a slot tells every other module of the domain of a mark, for the module that waits until all have
it (R110). DESIGN CHOICE (log entry 111): the messages that carry marks between modules are the model's. -/
def State.spreadMark (s : State) (g : Nat) (m : CancelMark) (dev : Nat) : State :=
  let l := s.domainOf g
  if l = [] then (if dev = s.devid.toNat then s else s.sendMsg dev (.marked g m.depth m.t m.err))
  else
    l.foldl (fun s d => s.sendMsg d (.mark g m.depth m.t m.err))
      { s with prog := { s.prog with marking := s.prog.marking ++ [⟨g, m, dev, l⟩] } }

/-- Tell the domain of a mark that this module has installed: the home root does, and another module tells it. -/
def State.tellMark (s : State) (g : Nat) (m : CancelMark) (dev : Nat) : State :=
  if s.homed g then s.spreadMark g m dev
  else
    ({ s with prog := { s.prog with marking := s.prog.marking ++ [⟨g, m, s.devid.toNat, [s.homeOf g]⟩] } } : State).sendMsg
      (s.homeOf g) (.mark g m.depth m.t m.err)

/-- Install a cancel mark in every module of the domain (R109 to R111). -/
def State.install (s : State) (g : Nat) (m : CancelMark) : Nat × State :=
  let r := s.installHere g m
  if r.1 = 2 then r else (r.1, r.2.tellMark g m s.devid.toNat)

/-- Some module has not acknowledged a mark yet. -/
def State.markOut (s : State) (g : Nat) (m : CancelMark) : Bool := s.prog.marking.any fun x => x.g == g && sameMark m x.mark

/-- Install a mark now, or as soon as one frees (R230). -/
def State.installLate (s : State) (g : Nat) (m : CancelMark) : State :=
  match s.install g m with
  | (2, s1) => { s1 with prog := { s1.prog with late := s1.prog.late ++ [⟨g, m, s.devid.toNat⟩] } }
  | (_, s1) => s1

/-! ### Spill rings (R145, R152) -/

/-- The addresses of the k-th record of a ring at a physical base. -/
def State.ringSpan (s : State) (base k : Nat) : List Nat := s.feBytes (base + 64 * k) 64

/-- A record goes to a ring in memory, where there is one. -/
def State.ringWrite (s : State) (present : Bool) (base k : Nat) (r : Rec) : State :=
  if present then let l := s.ringSpan base k; (s.homeWrite l).writeMem l r.bytes else s

/-- A record of a ring as memory holds it; none where its line is uncorrectable. -/
def State.ringRead (s : State) (base k : Nat) : Option Rec :=
  let l := s.ringSpan base k
  if s.anyBad l then none else some (Rec.ofNat (s.readMem l))

/-- The lowest place of a ring that no record of a list of places takes. -/
def freeRing (taken : List Nat) : Nat := ((span 0 (taken.length + 1)).find? fun k => !taken.contains k).getD taken.length

/-- The base of a core's spill ring (R405). -/
def State.spillBase (s : State) (lc : Nat) : Nat := bits (s.entry 18 lc) 16 36 * 65536

/-- A spilled record as its ring gives it back; one of an uncorrectable line is uncorrectable in its entry (log entry 18). -/
def State.unspill (s : State) (lc : Nat) (q : Queued) : Queued :=
  match q.ring with
  | none => q
  | some k =>
    if !bit (s.entry 18 lc) 63 then { q with ring := none }
    else
      match s.ringRead (s.spillBase lc) k with
      | some r => { q with rcd := r, ring := none }
      | none => { q with bad := true, ring := none }

/-! ### The inbox (R144, R145) -/

/-- The entries of a level and the shared ones. -/
def levelEntries (level : Nat) : List Nat := span (4 * (level - 1)) 4
def sharedEntries : List Nat := span 28 36

def Core.isFree (c : Core) (i : Nat) : Bool :=
  (tfind c.inbox i).isNone && !(c.frames.any fun f => f.kind == 1 && f.entry == i)

/-- The entry a record of a level takes: the lowest free shared one, else the lowest free of its level
(R144 steps 2 and 3). -/
def Core.freeEntry (c : Core) (level : Nat) : Option Nat :=
  match sharedEntries.find? c.isFree with
  | some i => some i
  | none => (levelEntries level).find? c.isFree

/-- The place a record takes at a core: an entry, the spill ring, the level-7 buffer, or none (R144 to
R146). -/
inductive Place where
  | entry (i : Nat) | spill | buffer | none
  deriving DecidableEq, Repr

def Core.place (c : Core) (level : Nat) : Place :=
  if level = 7 then
    match c.freeEntry 7 with
    | some i => if c.buffer7 = [] then .entry i else if c.buffer7.length < 4 then .buffer else .none
    | none => if c.buffer7.length < 4 then .buffer else .none
  else
    let room := if c.spill.length < 1024 then Place.spill else Place.none
    if c.spill.any fun q => q.rcd.level == level then room
    else
      match c.freeEntry level with
      | some i => .entry i
      | none => room

/-- Put a record in an entry with its arrival number (R148). -/
def Core.enter (c : Core) (i : Nat) (r : Rec) (marked landed : Bool) : Core :=
  { c with inbox := tput i ⟨r, c.arrivals, marked, false, landed, none⟩ c.inbox, arrivals := c.arrivals + 1 }

/-- The first spilled record of a level, and the spill without it. -/
def takeSpilled (level : Nat) : List Queued → Option (Queued × List Queued)
  | [] => none
  | q :: l =>
    if q.rcd.level = level then some (q, l)
    else
      match takeSpilled level l with
      | some (x, r) => some (x, q :: r)
      | none => none

/-- The highest level that has spilled records. -/
def topSpilled (l : List Queued) : Nat := l.foldl (fun m q => max m q.rcd.level) 0

/-- A freed entry refills: a buffered level-7 record first where the entry is shared or of level 7, else
the spilled record of R145, as its ring gives it back. -/
def Core.refill (c : Core) (unspill : Queued → Queued) (i : Nat) : Core :=
  match (if i ≥ 24 then c.buffer7 else []) with
  | r :: l => ({ c with buffer7 := l }).enter i r false false
  | [] =>
    match takeSpilled (if i ≥ 28 then topSpilled c.spill else i / 4 + 1) c.spill with
    | some (q, l) => { c with spill := l, inbox := tput i (unspill q) c.inbox }
    | none => c

/-- Free an entry of a core's inbox and refill it (R145). -/
def State.freeInbox (s : State) (lc i : Nat) : State :=
  let c := s.core lc
  s.setCore lc (({ c with inbox := tdel i c.inbox }).refill (s.unspill lc) i)

/-! ### The end of a frame (R97, R99, R174, R185) -/

/-- Remove the member frames of a gang from the other members (R185). A member left without a frame
flushes its buffer (R124). -/
def State.disbandAt (s : State) (leader level lc : Nat) : State :=
  if lc = leader then s
  else
    let c := s.core lc
    let s1 := s.setCore lc { c with frames := c.frames.filter fun f => !(f.leader == some leader && f.level == level) }
    if (s1.core lc).frames = [] then s1.flush lc else s1

def State.disband (s : State) (lc : Nat) : State :=
  match s.top lc with
  | some f =>
    match f.gang with
    | some g => (g.members.foldl (fun s m => s.disbandAt lc f.level m) s).setTop lc { f with gang := none }
    | none => s
  | none => s

/-- The number of a stream among the engines, and who its copy unit works for. -/
def streamKey (lc : Nat) (t : Stream) : Nat := 2 ^ 20 + t.id * 2048 + lc
def State.streamIssuer (s : State) (lc : Nat) (t : Stream) : Issuer :=
  ⟨streamKey lc t, lc, s.ctxOf t.succ.graph, s.fnOf t.succ.graph⟩

/-- A write of a stream is still on its way to another module. -/
def State.streamOut (s : State) (lc : Nat) (t : Stream) : Bool :=
  t.out && s.prog.eng.any fun x => x.1 == streamKey lc t && x.2.answer.isNone

/-- A stream is over: its copy unit holds nothing for it any more, and its successor is delivered (R174, R202, R383). -/
def State.streamOver (s : State) (lc : Nat) (t : Stream) (status : Word) : State :=
  ((s.engDone (s.streamIssuer lc t)).forgetKey (streamKey lc t)).deliver (.core lc) (s.dieOf lc) t.succ status

/-- The end or the abort of a frame unbinds a stream: its FIFO is discarded, and its successor goes once its last write has
landed (R174, R383). -/
def State.endStream (s : State) (lc : Nat) (aborted : Bool) (x : Option Stream) : State :=
  match x with
  | none => s
  | some t =>
    let st := match t.ended with
      | some w => w
      | none => if aborted then statusWord 0 false 0 1 else 0
    if s.streamOut lc t then
      s.setCore lc { s.core lc with strays := (s.core lc).strays ++ [{ t with fifo := [], ended := some st }] }
    else s.streamOver lc t st

/-- Uncover the frame below: its operand latch is clear (R169). -/
def uncover : List Frame → List Frame
  | [] => []
  | f :: l => { f with latch := none } :: l

/-- Pop the running frame: what it holds goes, an inline handler frees its entry, and a core left
without a frame flushes (R97, R101, R124, R151). -/
def State.pop (s : State) (lc : Nat) : State :=
  match s.top lc with
  | none => s
  | some f =>
    let c := s.core lc
    let s1 := ((s.setCore lc { c with frames := uncover c.frames.tail }).orphan lc f.level).forgetWalk (s.phys lc)
    let s2 := if f.kind = 1 then s1.freeInbox lc f.entry else s1
    if (s2.core lc).frames = [] then s2.flush lc else s2

/-- The last steps of a frame that ends or is aborted: streams, gang, the decrement behind every
increment, and the pop (R99 steps 3 to 5, R228 steps 2 to 6). -/
def State.endFrame (s : State) (lc : Nat) (aborted : Bool) (marks : List Mark) : State :=
  match s.top lc with
  | none => s
  | some f =>
    let s1 := (f.streams.toList ++ f.draining.map some).foldl (fun s x => s.endStream lc aborted x) s
    let s2 := s1.disband lc
    (s2.post lc ⟨f.graph, f.station, f.ltime, -1, none, marks⟩).pop lc

/-! ### Taking a trap on a compute core (R224 to R232) -/

/-- The classes whose trap may be ignored (R225). -/
def ignorable (cls : Nat) : Bool := cls == ALIGN || cls == TAG || cls == DIVZ || cls == BRK || cls == USER

/-- The action a frame's header gives a class (R227). ENTRY, inline handlers and level 7 always abort. -/
def Frame.action (f : Frame) (cls : Nat) : Nat :=
  if f.kind = 1 ∨ f.level = 7 ∨ cls = ENTRY then 0
  else
    let a := f.hdr.actions.toNat / 4 ^ cls % 4
    if a = 3 ∧ !ignorable cls then 0 else a

/-- TRAPCAUSE (R226). -/
def causeWord (late : Bool) (pc : Nat) (inh : Bool) (level act cls : Nat) : Word :=
  BitVec.ofNat 64 (late.toNat * 2 ^ 40 + pc % 2 ^ 24 * 2 ^ 16 + inh.toNat * 2 ^ 15 + level % 8 * 2 ^ 12 + act % 4 * 2 ^ 8 + cls % 16)

/-- Write TRAPCAUSE and TRAPVAL of the running frame and count the class (R224, R245). -/
def State.noteTrap (s : State) (lc cls act : Nat) (val : Word) (late : Option Nat) : State :=
  let p := s.partOf lc
  let s1 := s.count (cTRAPS + cls) p
  let s2 :=
    if cls = TIME then s1.count cTIMEF p
    else if cls = CLAIM then s1.count cCLAIMF p
    else if cls = BUDGET then s1.count cBUDGETX p
    else if cls = ENTRY then s1.count cENTRYF p
    else s1
  match s2.top lc with
  | none => s2
  | some f =>
    s2.setTop lc { f with h := { f.h with
      trapcause := causeWord late.isSome (late.getD f.h.pc) (f.kind == 1) f.level act cls
      trapval := val } }

/-- CLAIMS of a frame (R106). -/
def claimsWord (l : List Claim) : Word :=
  BitVec.ofNat 64 (l.length + (l.reverse.zipIdx.foldl (fun a c => a + (c.1.before * 16 + c.1.slot) * 2 ^ (8 * c.2 + 4)) 0))

/-- The TRAPHND entry of a core's partition for a graph slot (R229). -/
def State.handler (s : State) (lc g : Nat) : Word := s.entry 10 (16 * s.partOf lc + g)

/-- The trap-delivery record of a frame (R229). -/
def State.trapRecord (s : State) (lc : Nat) (f : Frame) (cause val : Word) : Rec :=
  let h := s.handler lc f.graph
  let q0 := s.devid.toNat * 2 ^ 53 + lc * 2 ^ 42 + f.graph * 2 ^ 38 + f.station * 2 ^ 32 + 4 * 2 ^ 27 + 7 * 2 ^ 24 + bits h 0 24
  ⟨BitVec.ofNat 64 q0, f.ltime, cause, val, f.rcd.q0, f.rcd.q2, claimsWord f.claims,
    BitVec.ofNat 64 (s.devid.toNat * 1024 + lc)⟩

/-- Re-post a frame's record: counted as a post, marked, to its own logical core (R232). -/
def State.repost (s : State) (lc : Nat) (f : Frame) : State :=
  let r := f.rcd.toCore s.devid.toNat lc
  ((s.post lc (r.delta 1 [])).send (.core lc) r true).count cRERUN (s.partOf lc)

/-- Whether an abort of a frame by a class re-posts its record (R232). -/
def Frame.reruns (f : Frame) (cls : Nat) : Bool := cls == DATA && f.hdr.flags % 2 == 1 && !f.marked

/-- The cancel that halt-launch installs, at once or as soon as a mark frees (R230). -/
def State.haltLaunch (s : State) (lc : Nat) (f : Frame) : State :=
  let d := min (bits (s.handler lc f.graph) 24 3) (((s.graph f.graph).map fun g => g.depth f.station).getD 0)
  s.installLate f.graph ⟨f.ltime, d, true⟩

/-- Take a trap of a compute core's running frame: TRAPCAUSE, TRAPVAL and the counter, then the action
of the header (R224, R227). The late pc is that of a vector entry (R234). A trap that is ignored is
noted by noteTrap, not here: action 3 acts as 0. -/
def State.takeTrap (s : State) (lc cls : Nat) (val : Word) (late : Option Nat) : State :=
  match s.top lc with
  | none => s
  | some f =>
    let a := f.action cls
    let act := if a = 3 ∨ (a = 1 ∧ !bit (s.handler lc f.graph) 63) then 0 else a
    let s1 := (if cls = DATA then s.meetData lc val else s).noteTrap lc cls act val late
    let s2 := if f.level = 7 then s1.count cHNDFLT (s.partOf lc) else s1
    let s3 :=
      if act = 1 then
        let r := s2.trapRecord lc f (causeWord late.isSome (late.getD f.h.pc) (f.kind == 1) f.level act cls) val
        let s' := s2.post lc (r.delta 1 [])
        { s' with prog := { s'.prog with deliveries := s'.prog.deliveries ++ [⟨lc, r⟩] } }
      else s2
    let s4 := if f.reruns cls then s3.repost lc f else s3
    let s5 := s4.endFrame lc true (if f.reruns cls then (if act = 2 then [.drop] else []) else [.abort cls])
    if act = 2 then s5.haltLaunch lc f else s5

/-! ### Taking a trap on a front-end core, and returning from one (R51, R235, R409) -/

/-- MODSTAT's state field, and setting it (R26). -/
def State.modState (s : State) : Nat := s.boot.modstat.toNat % 16
def State.setModState (s : State) (n : Nat) : State :=
  { s with boot := { s.boot with modstat := BitVec.ofNat 32 (s.boot.modstat.toNat / 16 * 16 + n % 16) } }

/-- A front-end core halts (R51): the other quay die's monitor counts it, and when every core of a quay
die has halted the module has failed (R26). -/
def State.haltFe (s : State) (n : Nat) : State :=
  let s1 := (s.setFe n { s.fe n with halted := true }).count cMONFLT (1 - n / 8)
  if (span (n / 8 * 8) 8).all fun k => (s1.fe k).halted then s1.setModState 15 else s1

/-- A trap of a front-end core: FEEPC, FEPREV, TRAPCAUSE and TRAPVAL are set and control passes to the
level above; at monitor level the core halts (R51, R235). Where the level above is entered is an open
value. A trap at plug-in level ends the call that runs there (R55). -/
def State.feTrap (s : State) (n cls : Nat) (val : Word) : State :=
  let c := s.fe n
  let s := if c.priv = 0 then s.noteReturn n cls val else s
  let h := { c.h with trapcause := causeWord false c.h.pc false 0 0 cls, trapval := val, sent := [], stalled := false }
  let c1 := { c with epc := BitVec.ofNat 52 (c.h.pc * 4), prev := c.priv, h := h }
  if c.priv = 2 then (s.setFe n c1).haltFe n
  else
    s.setFe n { c1 with
      priv := c.priv + 1
      h := { h with pc := (Config.feTrapEntry n (c.priv + 1)).toNat / 4 } }

/-- Return from a trap on a front-end core: the level and the address come back (R409). -/
def State.feReturn (s : State) (n : Nat) : State :=
  let c := s.fe n
  s.setFe n { c with priv := c.prev, h := { c.h with pc := c.epc.toNat / 4, sent := [], stalled := false } }

/-- Take a trap of the agent whose turn it is. -/
def State.trap (s : State) (cls : Nat) (val : Word) : State :=
  match s.agent with
  | .core lc => s.takeTrap lc cls val none
  | .fe n => s.feTrap n cls val

/-- The agent ignores traps of a class (R225, R227). -/
def State.ignores (s : State) (cls : Nat) : Bool :=
  match s.agent with
  | .core lc => match s.top lc with
    | some f => f.action cls == 3
    | none => false
  | .fe _ => false

/-- Note a trap that is ignored (R224, R227). -/
def State.ignore (s : State) (cls : Nat) (val : Word) : State :=
  match s.agent with
  | .core lc => s.noteTrap lc cls 3 val none
  | .fe _ => s

end Sys2Proof.Machine
end

