-- ==== Sys2Proof/Machine/Operands.lean ====
section
/-! DEFINITION. The operand forms: which scalar registers an instruction reads and writes, where it may
execute, the values it reads, and how it retires. -/

namespace Sys2Proof.Machine

/-- A scalar register named by a four-bit field: s0 to s15 (R283, R284). -/
def lowReg (x : Fin 16) : Reg := ⟨x.val, Nat.lt_of_lt_of_le x.isLt (by decide)⟩

/-- The scalar registers an instruction reads, a before b before the others (R173, R306). -/
def srcs : Instr → List Reg
  | .add _ a b | .sub _ a b | .and _ a b | .or _ a b | .xor _ a b | .andn _ a b | .orn _ a b | .xnor _ a b
  | .shl _ a b | .shr _ a b | .sra _ a b | .rol _ a b | .ror _ a b | .lt _ a b | .ltu _ a b | .eq _ a b
  | .ne _ a b | .min _ a b | .max _ a b | .minu _ a b | .maxu _ a b | .adds _ a b | .subs _ a b
  | .addus _ a b | .subus _ a b | .mul _ a b | .mulh _ a b | .mulhu _ a b | .div _ a b | .divu _ a b
  | .rem _ a b | .remu _ a b | .bpack _ a b | .bpack2 _ a b | .bpack4 _ a b | .bpack8 _ a b
  | .bunpk _ a b | .bunpk2 _ a b | .bunpk4 _ a b | .bunpk8 _ a b => [a, b]
  | .clz _ a | .ctz _ a | .popc _ a | .brev _ a | .bswap _ a | .sextB _ a | .sextH _ a | .sextW _ a
  | .zextB _ a | .zextH _ a | .zextW _ a => [a]
  | .addi _ a _ | .andi _ a _ | .ori _ a _ | .xori _ a _ | .lti _ a _ | .ltui _ a _ => [a]
  | .shli _ a _ | .shri _ a _ | .srai _ a _ => [a]
  | .lhi d _ => [d]
  | .jalr _ a _ => [a]
  | .beq a b _ | .bne a b _ | .blt a b _ | .bge a b _ | .bltu a b _ | .bgeu a b _ => [a, b]
  | .ldB _ a _ | .ldBu _ a _ | .ldH _ a _ | .ldHu _ a _ | .ldW _ a _ | .ldWu _ a _ | .ldD _ a _ => [a]
  | .lcB _ a _ | .lcBu _ a _ | .lcH _ a _ | .lcHu _ a _ | .lcW _ a _ | .lcWu _ a _ | .lcD _ a _ => [a]
  | .stB d a _ | .stH d a _ | .stW d a _ | .stD d a _ | .scB d a _ | .scH d a _ | .scW d a _ | .scD d a _ => [a, d]
  | .bmov d a b | .bcmp d a b | .bset d a b => [a, b, d]
  | .pref a => [a]
  | .stnl a b | .stnh a b | .scnl a b | .scnh a b => [a, b]
  | .amoswap _ _ a b | .amoadd _ _ a b | .amoand _ _ a b | .amoor _ _ a b | .amoxor _ _ a b | .amomin _ _ a b
  | .amomax _ _ a b | .amominu _ _ a b | .amomaxu _ _ a b | .amofadd _ _ a b => [a, b]
  | .amocas _ d a b => [a, b, d]
  | .amodadd _ a b | .amodfadd _ a b => [a, b]
  | .afl _ a => [a]
  | .fadd _ _ a b | .fsub _ _ a b | .fmul _ _ a b | .fdiv _ _ a b | .fmin _ _ a b | .fmax _ _ a b
  | .feq _ _ a b | .flt _ _ a b | .fle _ _ a b => [a, b]
  | .fma _ d a b => [a, b, d]
  | .fsqrt _ _ a | .fclass _ _ a | .ftoi _ _ a | .ftoiu _ _ a | .itof _ _ a | .iutof _ _ a | .fcvt _ _ _ a => [a]
  | .vadd _ _ _ _ m _ | .vsub _ _ _ _ m _ | .vmul _ _ _ _ m _ | .vmadd _ _ _ _ m _ | .vmin _ _ _ _ m _
  | .vmax _ _ _ _ m _ | .vadds _ _ _ _ m _ | .vsubs _ _ _ _ m _ | .vaddus _ _ _ _ m _ | .vsubus _ _ _ _ m _
  | .vminu _ _ _ _ m _ | .vmaxu _ _ _ _ m _ | .vand _ _ _ _ m _ | .vor _ _ _ _ m _ | .vxor _ _ _ _ m _
  | .vshl _ _ _ _ m _ | .vshr _ _ _ _ m _ | .vsra _ _ _ _ m _ | .vdiv _ _ _ _ m _ => [m]
  | .vabs _ _ _ m _ | .vsqrt _ _ _ m _ | .vrcp _ _ _ m _ | .vrsqrt _ _ _ m _ | .vexp2 _ _ _ m _
  | .vlog2 _ _ _ m _ | .vtanh _ _ _ m _ => [m]
  | .vld _ _ a m | .vst _ _ a m | .vlc _ _ a m | .vsc _ _ a m => [lowReg a, m]
  | .vlds _ _ a b m | .vsts _ _ a b m | .vlcs _ _ a b m | .vscs _ _ a b m => [lowReg a, lowReg b, m]
  | .vldx _ _ a _ m | .vstx _ _ a _ m | .vlcx _ _ a _ m | .vscx _ _ a _ m => [lowReg a, m]
  | .vmv _ _ m _ | .vsel _ _ _ m _ | .vcmpr _ _ m _ | .vexpd _ _ m _ => [m]
  | .vslide _ _ b _ => [lowReg b]
  | .vext _ _ b _ => [lowReg b]
  | .vins _ m b => [lowReg b, m]
  | .vbcs _ _ m | .vredsum _ _ _ m _ | .vredmin _ _ _ m _ | .vredmax _ _ _ m _ | .vcvt _ _ _ _ m _ | .vloop _ m => [m]
  | .cpy _ a b | .strmIn _ a b | .strmOut _ a b | .gath a b | .scat a b | .mxdr a b | .coll a b | .ftake a b
  | .fput a b => [a, b]
  | .mxcf a | .mxq a | .fclr a | .post a | .ntfy a => [a]
  | .tadv _ a b | .tcmp _ a b => [a, b]
  | .tadvi _ a _ _ _ | .cnclT _ a _ | .cnclL _ a _ => [a]
  | .mts _ a | .pmpw _ a => [a]
  | _ => []

/-- s25, which `jal` links through (R268). -/
def linkReg : Reg := 25

/-- The scalar registers an instruction writes. -/
def dsts : Instr → List Reg
  | .add d _ _ | .sub d _ _ | .and d _ _ | .or d _ _ | .xor d _ _ | .andn d _ _ | .orn d _ _ | .xnor d _ _
  | .shl d _ _ | .shr d _ _ | .sra d _ _ | .rol d _ _ | .ror d _ _ | .lt d _ _ | .ltu d _ _ | .eq d _ _
  | .ne d _ _ | .min d _ _ | .max d _ _ | .minu d _ _ | .maxu d _ _ | .adds d _ _ | .subs d _ _
  | .addus d _ _ | .subus d _ _ | .mul d _ _ | .mulh d _ _ | .mulhu d _ _ | .div d _ _ | .divu d _ _
  | .rem d _ _ | .remu d _ _ | .bpack d _ _ | .bpack2 d _ _ | .bpack4 d _ _ | .bpack8 d _ _
  | .bunpk d _ _ | .bunpk2 d _ _ | .bunpk4 d _ _ | .bunpk8 d _ _ => [d]
  | .clz d _ | .ctz d _ | .popc d _ | .brev d _ | .bswap d _ | .sextB d _ | .sextH d _ | .sextW d _
  | .zextB d _ | .zextH d _ | .zextW d _ => [d]
  | .addi d _ _ | .andi d _ _ | .ori d _ _ | .xori d _ _ | .lti d _ _ | .ltui d _ _ => [d]
  | .shli d _ _ | .shri d _ _ | .srai d _ _ => [d]
  | .lui d _ | .lhi d _ | .lco d _ => [d]
  | .jal _ => [linkReg]
  | .jalr d _ _ => [d]
  | .ldB d _ _ | .ldBu d _ _ | .ldH d _ _ | .ldHu d _ _ | .ldW d _ _ | .ldWu d _ _ | .ldD d _ _ => [d]
  | .lcB d _ _ | .lcBu d _ _ | .lcH d _ _ | .lcHu d _ _ | .lcW d _ _ | .lcWu d _ _ | .lcD d _ _ => [d]
  | .bmov d a b | .bcmp d a b => [d, a, b]
  | .bset d a _ => [d, a]
  | .amoswap _ d _ _ | .amoadd _ d _ _ | .amoand _ d _ _ | .amoor _ d _ _ | .amoxor _ d _ _ | .amomin _ d _ _
  | .amomax _ d _ _ | .amominu _ d _ _ | .amomaxu _ d _ _ | .amofadd _ d _ _ | .amocas _ d _ _ => [d]
  | .afl d _ => [d]
  | .fadd _ d _ _ | .fsub _ d _ _ | .fmul _ d _ _ | .fdiv _ d _ _ | .fmin _ d _ _ | .fmax _ d _ _
  | .feq _ d _ _ | .flt _ d _ _ | .fle _ d _ _ | .fma _ d _ _ => [d]
  | .fsqrt _ d _ | .fclass _ d _ | .ftoi _ d _ | .ftoiu _ d _ | .itof _ d _ | .iutof _ d _ | .fcvt _ _ d _ => [d]
  | .vceq _ m _ _ _ | .vcne _ m _ _ _ | .vclt _ m _ _ _ | .vcle _ m _ _ _ | .vcltu _ m _ _ _ | .vcleu _ m _ _ _ => [m]
  | .vext m _ _ _ => [m]
  | .tadv d _ _ | .tcmp d _ _ | .tadvi d _ _ _ _ | .cnclT d _ _ | .cnclL d _ _ | .gang d _ | .mfs d _ => [d]
  | _ => []

/-- The scalar registers an instruction names beside those it reads and writes (R267, R383). -/
def named : Instr → List Reg
  | .strmIn d _ _ | .strmOut d _ _ => [⟨28 + d.val, by omega⟩]
  | _ => []

/-- The vector forms (opcodes 0x1C to 0x1E). -/
def isVector : Instr → Bool
  | .vadd .. | .vsub .. | .vmul .. | .vmadd .. | .vmin .. | .vmax .. | .vadds .. | .vsubs .. | .vaddus ..
  | .vsubus .. | .vminu .. | .vmaxu .. | .vand .. | .vor .. | .vxor .. | .vshl .. | .vshr .. | .vsra .. | .vdiv ..
  | .vabs .. | .vsqrt .. | .vrcp .. | .vrsqrt .. | .vexp2 .. | .vlog2 .. | .vtanh .. | .vceq .. | .vcne .. | .vclt ..
  | .vcle .. | .vcltu .. | .vcleu .. | .vld .. | .vlds .. | .vldx .. | .vst .. | .vsts .. | .vstx .. | .vlc ..
  | .vlcs .. | .vlcx .. | .vsc .. | .vscs .. | .vscx .. | .vmv .. | .vsel .. | .vperm .. | .vslide .. | .vcmpr ..
  | .vexpd .. | .vext .. | .vins .. | .vzero .. | .vbcs .. | .vredsum .. | .vredmin .. | .vredmax .. | .vcvt ..
  | .vbsc .. | .vbsa .. | .vtag .. | .vloop .. => true
  | _ => false

/-- The vector forms that access memory (R283). -/
def isVmem : Instr → Bool
  | .vld .. | .vlds .. | .vldx .. | .vst .. | .vsts .. | .vstx .. | .vlc .. | .vlcs .. | .vlcx .. | .vsc ..
  | .vscs .. | .vscx .. => true
  | _ => false

/-- The engine forms (R285). -/
def isEngine : Instr → Bool
  | .cpy .. | .strmIn .. | .strmOut .. | .gath .. | .scat .. | .mxcf .. | .mxq .. | .mxdr .. | .coll .. | .ftake ..
  | .fput .. | .fclr .. => true
  | _ => false

/-- The scalar forms that access memory. -/
def isMemory : Instr → Bool
  | .ldB .. | .ldBu .. | .ldH .. | .ldHu .. | .ldW .. | .ldWu .. | .ldD .. | .stB .. | .stH .. | .stW .. | .stD ..
  | .lcB .. | .lcBu .. | .lcH .. | .lcHu .. | .lcW .. | .lcWu .. | .lcD .. | .scB .. | .scH .. | .scW .. | .scD ..
  | .bmov .. | .bset .. | .bcmp .. | .stnl .. | .stnh .. | .scnl .. | .scnh ..
  | .amoswap .. | .amoadd .. | .amoand .. | .amoor .. | .amoxor .. | .amomin .. | .amomax .. | .amominu ..
  | .amomaxu .. | .amocas .. | .amofadd .. | .amodadd .. | .amodfadd .. | .afl .. => true
  | _ => false

/-- The forms that retire only when every earlier access of the frame has been performed, or that wait
for the sequencer to be empty (R99, R212, R254, R380, R407). -/
def drainsFirst : Instr → Bool
  | .post .. | .ntfy .. | .endTask | .ifence | .gang .. | .disband => true
  | .mfs _ r | .mts r _ => r == 0x021
  | i => isEngine i

/-- Scalar forms an inline handler may execute: integer, floating point, load, store, atomic, branch,
`mfs`, `post` and `end` (R101). -/
def inlineOk : Instr → Bool
  | .bmov .. | .bset .. | .bcmp .. | .pref .. => false
  | .claim .. | .rels .. | .ntfy .. | .tadv .. | .tadvi .. | .tcmp .. | .cnclT .. | .cnclL .. | .gang .. | .disband
  | .ovl .. | .mts .. | .opreq .. | .opreqAuto | .ifence | .trap .. | .brk .. | .eret | .pmpw .. => false
  | i => !isVector i && !isEngine i

/-- Forms a front-end core may execute (R50, R275). -/
def feOk : Instr → Bool
  | .lcB .. | .lcBu .. | .lcH .. | .lcHu .. | .lcW .. | .lcWu .. | .lcD .. | .scB .. | .scH .. | .scW .. | .scD ..
  | .scnl .. | .scnh .. | .endTask | .claim .. | .rels .. | .ntfy .. | .cnclT .. | .cnclL .. | .gang .. | .disband
  | .ovl .. | .opreq .. | .opreqAuto => false
  | i => !isVector i && !isEngine i

/-- Forms plug-in level may execute among those of a front-end core (R51). -/
def plugOk : Instr → Bool
  | .post .. | .tadv .. | .tadvi .. | .tcmp .. | .ifence | .brk .. | .eret | .pmpw .. => false
  | _ => true

/-- Forms only a front-end core has (R275). -/
def feOnly : Instr → Bool
  | .eret | .pmpw .. => true
  | _ => false

/-! ### Streams (R173, R383) -/

/-- The stream bound to a register. -/
def Frame.stream (f : Frame) (r : Reg) : Option Stream :=
  if r.val < 28 then none else f.streams.toList.getD (r.val - 28) none

def Frame.setStream (f : Frame) (r : Reg) (x : Option Stream) : Frame :=
  if h : r.val - 28 < 4 then { f with streams := f.streams.set (r.val - 28) x } else f

/-- A register is bound as an output; as an input. -/
def Frame.isOut (f : Frame) (r : Reg) : Bool := (f.stream r).any Stream.out
def Frame.isIn (f : Frame) (r : Reg) : Bool := (f.stream r).any fun x => !x.out

/-- How often a register stands in a list. -/
def occurs (r : Reg) (l : List Reg) : Nat := (l.filter (· == r)).length

/-- A read of an input stream that finds too few elements, or a write that finds an output FIFO full,
stalls (R173). An output stream that a fault has ended discards what is pushed. DESIGN CHOICE (log entry 113): where only the n-th
element is left, a second source field that names the register does not wait: the first pop has ended the binding, and
the register holds that element (R383); neither rule speaks of one instruction that does both. -/
def Frame.streamStall (f : Frame) (reads writes : List Reg) : Bool :=
  reads.any (fun r => match f.stream r with
    | some x => !x.out && x.fifo.length < min (occurs r reads) (x.n - x.used)
    | none => false) ||
  writes.any (fun r => match f.stream r with
    | some x => x.out && x.fifo.length ≥ 16 && x.ended.isNone
    | none => false)

/-! ### Registers -/

/-- Read a register of a hart: s0 reads as 0 (R267). -/
def Hart.reg (h : Hart) (r : Reg) : Word := if r = 0 then 0 else h.regs.get r

/-- Write a register of a hart: a write to s0 is discarded. -/
def Hart.setReg (h : Hart) (r : Reg) (w : Word) : Hart := if r = 0 then h else { h with regs := h.regs.set r.val w }

/-- Write a register of a frame, which is good again (R242). -/
def Frame.setReg (f : Frame) (r : Reg) (w : Word) : Frame :=
  { f with h := f.h.setReg r w, badRegs := f.badRegs.filter (· != r.val) }

/-- The value a read of a register takes: the register, or the n-th element of its input FIFO, the last one of the stream
where there is no further. -/
def Frame.readVal (f : Frame) (r : Reg) (n : Nat) : Word :=
  match f.stream r with
  | some x => if x.out then f.h.reg r else x.fifo.getD (min n (x.n - x.used - 1)) 0
  | none => f.h.reg r

/-- The values of the reads of an instruction, in order (R173). -/
def Frame.readVals (f : Frame) : List Reg → List Reg → List Word
  | _, [] => []
  | seen, r :: l => f.readVal r (occurs r seen) :: f.readVals (seen ++ [r]) l

/-- Pop the element that a read of a register took (R173). The binding ends with the n-th element: the
register holds it, and the successor is delivered (R383). -/
def State.popRead (s : State) (lc : Nat) (r : Reg) : State :=
  match s.top lc with
  | none => s
  | some f =>
    match f.stream r with
    | none => s
    | some x =>
      if x.out then s
      else if x.used + 1 = x.n then
        let s1 := s.setTop lc ((f.setStream r none).setReg r (x.fifo.getD 0 0))
        s1.streamOver lc x (x.ended.getD 0)
      else s.setTop lc (f.setStream r (some { x with fifo := x.fifo.tail, used := x.used + 1 }))

def State.popReads (s : State) (lc : Nat) (l : List Reg) : State := l.foldl (fun s r => s.popRead lc r) s

/-- Write a register of the running frame: into its FIFO where it is an output stream (R173, R383). -/
def State.writeFrame (s : State) (lc : Nat) (r : Reg) (w : Word) : State :=
  match s.top lc with
  | none => s
  | some f =>
    match f.stream r with
    | some x =>
      if !x.out then s
      else
        let y := { x with fifo := if x.ended.isSome then x.fifo else x.fifo ++ [w], used := x.used + 1 }
        if y.used = y.n then
          s.setTop lc { (f.setStream r none).setReg r w with draining := f.draining ++ [y] }
        else s.setTop lc (f.setStream r (some y))
    | none => s.setTop lc (f.setReg r w)

/-- Write a register of the agent whose turn it is. -/
def State.writeReg (s : State) (r : Reg) (w : Word) : State :=
  match s.agent with
  | .core lc => s.writeFrame lc r w
  | .fe _ => s.setHart (s.hart.setReg r w)

/-! ### What stands before an instruction -/

/-- The entries an item of the sequencer occupies (R171, R372). -/
def SeqItem.entries : SeqItem → List SeqEntry
  | .one e => [e]
  | .loop l => l.body
def Frame.entries (f : Frame) : List SeqEntry := f.seq.flatMap SeqItem.entries

/-- The scalar registers that queued vector entries have still to write (R171). -/
def Frame.pendingRegs (f : Frame) : List Reg := f.entries.flatMap fun e => dsts e.i

/-- The entries occupied, those of a loop body that is being issued among them. -/
def Frame.occupied (f : Frame) : Nat := f.entries.length + ((f.vloop.map fun l => l.body.length).getD 0)

/-- A `vloop`, which occupies no entry itself. -/
def isLoop : Instr → Bool
  | .vloop .. => true
  | _ => false

/-- The forms a loop body may hold (R372). -/
def loopOk : Instr → Bool
  | .vloop .. | .vceq .. | .vcne .. | .vclt .. | .vcle .. | .vcltu .. | .vcleu .. | .vext .. => false
  | i => isVector i

/-- A scalar access may meet a queued vector access (R171, R373). -/
def Frame.meetsQueue (f : Frame) (i : Instr) : Bool :=
  let acc := scalarReach i (f.readVals [] (srcs i))
  f.seq.any fun q => q.rest.any fun e => acc.any (e.1.meets ((f.gang.map fun g => g.members.length).getD 1) e.2)

/-- An instruction waits for the sequencer (R171, R254, R349). -/
def Frame.waitsSeq (f : Frame) (i : Instr) : Bool :=
  !f.seq.isEmpty &&
    (((srcs i ++ dsts i).any fun r => f.pendingRegs.contains r) ||
      (drainsFirst i && !(i == .endTask && f.claims != [])) ||
      (isMemory i && f.meetsQueue i) ||
      (isVector i && !isLoop i && f.occupied ≥ 16))

/-- What the front of the pipeline makes of an instruction: no frame executes it, the word is barred
(R276), it waits, or the values it reads. -/
inductive Front where
  | idle | bad | stall | go (vals : List Word)
  deriving DecidableEq, Repr

/-- Every member of a frame's gang has its member frame on top (R184). -/
def State.gangReady (s : State) (lc : Nat) (f : Frame) : Bool :=
  match f.gang with
  | none => true
  | some g => g.members.all fun m =>
      m == lc || (s.top m).any fun x => x.leader == some lc && x.level == f.level

/-- An instruction reads an uncorrectable scalar register of a frame; what a stream register reads is its FIFO (R242). -/
def Frame.readsBad (f : Frame) (i : Instr) : Bool := (srcs i).any fun r => f.badRegs.contains r.val && (f.stream r).isNone

def State.front (s : State) (i : Instr) : Front :=
  match s.agent with
  | .core lc =>
    match s.top lc with
    | none => .idle
    | some f =>
      if f.leader.isSome || !s.gangReady lc f then .idle
      else if (f.vloop.isSome && !loopOk i) || feOnly i || (f.kind == 1 && !inlineOk i) then .bad
      else if (srcs i ++ dsts i ++ named i).any fun r => decide (f.window ≤ r.val) then .bad
      else if (srcs i).any f.isOut || (dsts i).any f.isIn then .bad
      else if f.waitsSeq i || f.streamStall (srcs i) (dsts i) then .stall
      else .go (f.readVals [] (srcs i))
  | .fe n =>
    if !feOk i || ((s.fe n).priv == 0 && !plugOk i) then .bad
    else .go ((srcs i).map (s.fe n).h.reg)

/-- The word of an instruction, which TRAPVAL of an ILLEGAL trap holds (R225). -/
def State.illegal (s : State) (i : Instr) : State := s.trap ILLEGAL (wordOf i)

/-- An instruction counts as retired (R403). -/
def State.countRetired (s : State) : State :=
  match s.agent with
  | .core lc => let c := s.core lc; s.setCore lc { c with instret := c.instret + 1 }
  | .fe n => let c := s.fe n; s.setFe n { c with instret := c.instret + 1 }

/-- Retire to a word offset: the pc moves, what was sent is forgotten, and INSTRET rises (R403). -/
def State.goTo (s : State) (pc : Nat) : State := (s.setHart { s.hart with pc := pc, sent := [], stalled := false }).countRetired

/-- Take the elements of input streams that an instruction read (R173). -/
def State.pops (s : State) (i : Instr) : State :=
  match s.agent with
  | .core lc => s.popReads lc (srcs i)
  | .fe _ => s

/-- Retire an instruction that has no destination, to the next word. -/
def State.retire (s : State) (i : Instr) : State := let s1 := s.pops i; s1.goTo (s1.hart.pc + 1)

/-- Write the destination of an instruction and retire it. -/
def State.finish (s : State) (i : Instr) (d : Reg) (w : Word) : State :=
  let s1 := (s.pops i).writeReg d w
  s1.goTo (s1.hart.pc + 1)

/-- One meaning's answer. -/
abbrev Out := Host.Outcome State Fault Refusal

/-- A truth value in a register (R311). -/
def ofBool (b : Bool) : Word := if b then 1 else 0

/-- Run an instruction of the integer pipeline: nothing happens where no frame executes or it waits, a
barred word traps, and else its own effect follows from the values it reads. -/
def State.run (s : State) (i : Instr) (k : List Word → State) : Out :=
  match s.front i with
  | .idle => .next s
  | .bad => .next (s.illegal i)
  | .stall => .next s
  | .go vals => .next (k vals)

/-- An instruction with one source, with two: the result goes to d. -/
def State.run1 (s : State) (i : Instr) (d : Reg) (f : Word → Word) : Out :=
  s.run i fun v => s.finish i d (f (v.getD 0 0))
def State.run2 (s : State) (i : Instr) (d : Reg) (f : Word → Word → Word) : Out :=
  s.run i fun v => s.finish i d (f (v.getD 0 0) (v.getD 1 0))

/-- An access waits: the instruction stays where it is, in the state s1 that the access has left: a request sent, a miss
noted, a wait counted (R14, R201, R204). -/
def State.waited (_s s1 : State) : State := s1

/-- What an access comes to for the instruction: its value is used, its trap is taken from the state
before the instruction, a wait leaves the instruction where it is (R224, R233). -/
def State.afterAcc (s : State) (a : Acc) (k : Nat → State → State) : State :=
  match a with
  | .ok v s1 => k v s1
  | .trap c w => s.trap c w
  | .wait s1 => s.waited s1

/-- The words of a block likewise. -/
def State.afterLoads (s : State) (a : Loads) (k : List Word → State → State) : State :=
  match a with
  | .ok l s1 => k l s1
  | .trap c w => s.trap c w
  | .wait s1 => s.waited s1

end Sys2Proof.Machine
end

