-- ==== Sys2Proof/Machine/Alu.lean ====
section
/-! DEFINITION. The integer register, immediate and constant forms (R311 to R317). None sets a flag. -/

namespace Sys2Proof.Machine

/-- A signed number clamped to 64 bits, and an unsigned one (R246, R311). -/
def clampS (x : Int) : Word :=
  if x < -(2 ^ 63) then BitVec.ofInt 64 (-(2 ^ 63)) else if x > 2 ^ 63 - 1 then BitVec.ofInt 64 (2 ^ 63 - 1) else BitVec.ofInt 64 x
def clampU (x : Int) : Word :=
  if x < 0 then 0 else if x > 2 ^ 64 - 1 then BitVec.allOnes 64 else BitVec.ofInt 64 x

def execAdd (d a b : Reg) (s : State) : Out := s.run2 (.add d a b) d fun x y => x + y
def execSub (d a b : Reg) (s : State) : Out := s.run2 (.sub d a b) d fun x y => x - y
def execAnd (d a b : Reg) (s : State) : Out := s.run2 (.and d a b) d fun x y => x &&& y
def execOr (d a b : Reg) (s : State) : Out := s.run2 (.or d a b) d fun x y => x ||| y
def execXor (d a b : Reg) (s : State) : Out := s.run2 (.xor d a b) d fun x y => x ^^^ y
def execAndn (d a b : Reg) (s : State) : Out := s.run2 (.andn d a b) d fun x y => x &&& ~~~y
def execOrn (d a b : Reg) (s : State) : Out := s.run2 (.orn d a b) d fun x y => x ||| ~~~y
def execXnor (d a b : Reg) (s : State) : Out := s.run2 (.xnor d a b) d fun x y => ~~~(x ^^^ y)

/-- The amount of a shift or a rotation: the low six bits (R311). -/
def shamt (y : Word) : Nat := y.toNat % 64

def execShl (d a b : Reg) (s : State) : Out := s.run2 (.shl d a b) d fun x y => x <<< shamt y
def execShr (d a b : Reg) (s : State) : Out := s.run2 (.shr d a b) d fun x y => x >>> shamt y
def execSra (d a b : Reg) (s : State) : Out := s.run2 (.sra d a b) d fun x y => x.sshiftRight (shamt y)
def execRol (d a b : Reg) (s : State) : Out := s.run2 (.rol d a b) d fun x y => x.rotateLeft (shamt y)
def execRor (d a b : Reg) (s : State) : Out := s.run2 (.ror d a b) d fun x y => x.rotateRight (shamt y)

def execLt (d a b : Reg) (s : State) : Out := s.run2 (.lt d a b) d fun x y => ofBool (x.slt y)
def execLtu (d a b : Reg) (s : State) : Out := s.run2 (.ltu d a b) d fun x y => ofBool (x.ult y)
def execEq (d a b : Reg) (s : State) : Out := s.run2 (.eq d a b) d fun x y => ofBool (x == y)
def execNe (d a b : Reg) (s : State) : Out := s.run2 (.ne d a b) d fun x y => ofBool (x != y)
def execMin (d a b : Reg) (s : State) : Out := s.run2 (.min d a b) d fun x y => if x.slt y then x else y
def execMax (d a b : Reg) (s : State) : Out := s.run2 (.max d a b) d fun x y => if x.slt y then y else x
def execMinu (d a b : Reg) (s : State) : Out := s.run2 (.minu d a b) d fun x y => if x.ult y then x else y
def execMaxu (d a b : Reg) (s : State) : Out := s.run2 (.maxu d a b) d fun x y => if x.ult y then y else x

def execAdds (d a b : Reg) (s : State) : Out := s.run2 (.adds d a b) d fun x y => clampS (x.toInt + y.toInt)
def execSubs (d a b : Reg) (s : State) : Out := s.run2 (.subs d a b) d fun x y => clampS (x.toInt - y.toInt)
def execAddus (d a b : Reg) (s : State) : Out := s.run2 (.addus d a b) d fun x y => clampU (x.toNat + y.toNat)
def execSubus (d a b : Reg) (s : State) : Out := s.run2 (.subus d a b) d fun x y => clampU ((x.toNat : Int) - y.toNat)

/-! ### Multiplication (R312) -/

def execMul (d a b : Reg) (s : State) : Out := s.run2 (.mul d a b) d fun x y => x * y
def execMulh (d a b : Reg) (s : State) : Out :=
  s.run2 (.mulh d a b) d fun x y => BitVec.ofInt 64 (x.toInt * y.toInt / 2 ^ 64)
def execMulhu (d a b : Reg) (s : State) : Out :=
  s.run2 (.mulhu d a b) d fun x y => BitVec.ofNat 64 (x.toNat * y.toNat / 2 ^ 64)

/-! ### Division (R313) -/

/-- A divide form: with a divisor of 0 it takes DIVZ with the dividend, or under ignore writes z of the
dividend; else it writes q of both. -/
def divide (i : Instr) (d : Reg) (z : Word → Word) (q : Word → Word → Word) (s : State) : Out :=
  s.run i fun v =>
    let x := v.getD 0 0
    let y := v.getD 1 0
    if y = 0 then
      if s.ignores DIVZ then (s.ignore DIVZ x).finish i d (z x) else s.trap DIVZ x
    else s.finish i d (q x y)

/-- Quotient toward zero and remainder with the sign of the dividend, modulo 2^64 (R313). -/
def quotS (x y : Word) : Word := BitVec.ofInt 64 (x.toInt.tdiv y.toInt)
def remS (x y : Word) : Word := BitVec.ofInt 64 (x.toInt.tmod y.toInt)

def execDiv (d a b : Reg) (s : State) : Out := divide (.div d a b) d (fun _ => BitVec.allOnes 64) quotS s
def execDivu (d a b : Reg) (s : State) : Out :=
  divide (.divu d a b) d (fun _ => BitVec.allOnes 64) (fun x y => BitVec.ofNat 64 (x.toNat / y.toNat)) s
def execRem (d a b : Reg) (s : State) : Out := divide (.rem d a b) d id remS s
def execRemu (d a b : Reg) (s : State) : Out :=
  divide (.remu d a b) d id (fun x y => BitVec.ofNat 64 (x.toNat % y.toNat)) s

/-! ### Packing (R314) -/

/-- Pack the groups of g bits that a mask selects, from group i on, n groups left, into group j on. -/
def packGroups (g x m : Nat) : Nat → Nat → Nat → Nat
  | 0, _, _ => 0
  | n + 1, i, j =>
    if m / 2 ^ i % 2 = 1 then x / 2 ^ (g * i) % 2 ^ g * 2 ^ (g * j) + packGroups g x m n (i + 1) (j + 1)
    else packGroups g x m n (i + 1) j

/-- Unpack consecutive groups into the positions a mask selects. -/
def unpackGroups (g x m : Nat) : Nat → Nat → Nat → Nat
  | 0, _, _ => 0
  | n + 1, i, j =>
    if m / 2 ^ i % 2 = 1 then x / 2 ^ (g * j) % 2 ^ g * 2 ^ (g * i) + unpackGroups g x m n (i + 1) (j + 1)
    else unpackGroups g x m n (i + 1) j

def pack (g : Nat) (x m : Word) : Word := BitVec.ofNat 64 (packGroups g x.toNat m.toNat (64 / g) 0 0)
def unpack (g : Nat) (x m : Word) : Word := BitVec.ofNat 64 (unpackGroups g x.toNat m.toNat (64 / g) 0 0)

def execBpack (d a b : Reg) (s : State) : Out := s.run2 (.bpack d a b) d (pack 1)
def execBpack2 (d a b : Reg) (s : State) : Out := s.run2 (.bpack2 d a b) d (pack 2)
def execBpack4 (d a b : Reg) (s : State) : Out := s.run2 (.bpack4 d a b) d (pack 4)
def execBpack8 (d a b : Reg) (s : State) : Out := s.run2 (.bpack8 d a b) d (pack 8)
def execBunpk (d a b : Reg) (s : State) : Out := s.run2 (.bunpk d a b) d (unpack 1)
def execBunpk2 (d a b : Reg) (s : State) : Out := s.run2 (.bunpk2 d a b) d (unpack 2)
def execBunpk4 (d a b : Reg) (s : State) : Out := s.run2 (.bunpk4 d a b) d (unpack 4)
def execBunpk8 (d a b : Reg) (s : State) : Out := s.run2 (.bunpk8 d a b) d (unpack 8)

/-! ### Unary forms (R315) -/

/-- Zero bits from bit i on upward, at most n. -/
def zerosUp (x : Nat) : Nat → Nat → Nat
  | 0, _ => 0
  | n + 1, i => if x / 2 ^ i % 2 = 1 then 0 else 1 + zerosUp x n (i + 1)

/-- Zero bits from the top of n bits downward. -/
def zerosDown (x : Nat) : Nat → Nat
  | 0 => 0
  | n + 1 => if x / 2 ^ n % 2 = 1 then 0 else 1 + zerosDown x n

/-- One bits among the low n. -/
def onesIn (x : Nat) : Nat → Nat
  | 0 => 0
  | n + 1 => x / 2 ^ n % 2 + onesIn x n

/-- Groups of g bits in reverse order, n of them. -/
def reverseGroups (g x : Nat) : Nat → Nat → Nat
  | 0, _ => 0
  | n + 1, i => x / 2 ^ (g * i) % 2 ^ g * 2 ^ (g * n) + reverseGroups g x n (i + 1)

def execClz (d a : Reg) (s : State) : Out := s.run1 (.clz d a) d fun x => BitVec.ofNat 64 (zerosDown x.toNat 64)
def execCtz (d a : Reg) (s : State) : Out := s.run1 (.ctz d a) d fun x => BitVec.ofNat 64 (zerosUp x.toNat 64 0)
def execPopc (d a : Reg) (s : State) : Out := s.run1 (.popc d a) d fun x => BitVec.ofNat 64 (onesIn x.toNat 64)
def execBrev (d a : Reg) (s : State) : Out :=
  s.run1 (.brev d a) d fun x => BitVec.ofNat 64 (reverseGroups 1 x.toNat 64 0)
def execBswap (d a : Reg) (s : State) : Out :=
  s.run1 (.bswap d a) d fun x => BitVec.ofNat 64 (reverseGroups 8 x.toNat 8 0)
def execSextB (d a : Reg) (s : State) : Out := s.run1 (.sextB d a) d fun x => sext 8 x.toNat
def execSextH (d a : Reg) (s : State) : Out := s.run1 (.sextH d a) d fun x => sext 16 x.toNat
def execSextW (d a : Reg) (s : State) : Out := s.run1 (.sextW d a) d fun x => sext 32 x.toNat
def execZextB (d a : Reg) (s : State) : Out := s.run1 (.zextB d a) d fun x => BitVec.ofNat 64 (x.toNat % 2 ^ 8)
def execZextH (d a : Reg) (s : State) : Out := s.run1 (.zextH d a) d fun x => BitVec.ofNat 64 (x.toNat % 2 ^ 16)
def execZextW (d a : Reg) (s : State) : Out := s.run1 (.zextW d a) d fun x => BitVec.ofNat 64 (x.toNat % 2 ^ 32)

/-! ### Immediate and constant forms (R277, R316, R317) -/

/-- A 16-bit immediate, zero-extended. -/
def immZ (i : BitVec 16) : Word := i.setWidth 64

def execAddi (d a : Reg) (i : BitVec 16) (s : State) : Out := s.run1 (.addi d a i) d fun x => x + immS i
def execAndi (d a : Reg) (i : BitVec 16) (s : State) : Out := s.run1 (.andi d a i) d fun x => x &&& immZ i
def execOri (d a : Reg) (i : BitVec 16) (s : State) : Out := s.run1 (.ori d a i) d fun x => x ||| immZ i
def execXori (d a : Reg) (i : BitVec 16) (s : State) : Out := s.run1 (.xori d a i) d fun x => x ^^^ immZ i
def execLti (d a : Reg) (i : BitVec 16) (s : State) : Out := s.run1 (.lti d a i) d fun x => ofBool (x.slt (immS i))
def execLtui (d a : Reg) (i : BitVec 16) (s : State) : Out := s.run1 (.ltui d a i) d fun x => ofBool (x.ult (immS i))
def execShli (d a : Reg) (n : BitVec 6) (s : State) : Out := s.run1 (.shli d a n) d fun x => x <<< n.toNat
def execShri (d a : Reg) (n : BitVec 6) (s : State) : Out := s.run1 (.shri d a n) d fun x => x >>> n.toNat
def execSrai (d a : Reg) (n : BitVec 6) (s : State) : Out := s.run1 (.srai d a n) d fun x => x.sshiftRight n.toNat
def execLui (d : Reg) (i : BitVec 21) (s : State) : Out :=
  s.run (.lui d i) fun _ => s.finish (.lui d i) d (i.signExtend 64 <<< 16)
def execLhi (d : Reg) (i : BitVec 21) (s : State) : Out :=
  s.run1 (.lhi d i) d fun x => BitVec.ofNat 64 (x.toNat % 2 ^ 37 + i.toNat * 2 ^ 37)
def execLco (d : Reg) (i : BitVec 19) (s : State) : Out :=
  s.run (.lco d i) fun _ => s.finish (.lco d i) d (i.setWidth 64)

end Sys2Proof.Machine
end

