-- ==== Sys2Proof/Machine/Branch.lean ====
section
/-! DEFINITION. Branches and jumps (R318 to R320), and where control may go. -/

namespace Sys2Proof.Machine

/-- Where control may go, for the agent whose turn it is. -/
inductive Reach where
  /-- The target can be reached. -/
  | ok (pc : Nat)
  /-- It lies outside the code image or the overlay: ADDRESS with that value (R320). -/
  | outside (val : Word)
  /-- It lies outside an inline handler's words: ILLEGAL (R101). -/
  | handler
  deriving DecidableEq, Repr

/-- The first word of an overlay and its words: overlay n is words 0x4000 n to 0x4000 n + 0x3FFF (R304). -/
def inOverlay (o : Option Nat) (t : Nat) : Bool :=
  match o with
  | none => true
  | some n => t / 0x4000 == n

/-- A frame's code base and its size in words (R269). -/
def State.codeBase (s : State) (g : Nat) : Word := ((s.graph g).map Graph.text).getD 0
def State.codeWords (s : State) (g : Nat) : Nat := ((s.graph g).map Graph.words).getD 0

/-- Whether a target can be reached (R101, R320). On a front-end core targets are physical words below
2^50. -/
def State.target (s : State) (t : Int) : Reach :=
  match s.agent with
  | .core lc =>
    match s.top lc with
    | none => .handler
    | some f =>
      if f.kind = 1 then (if 0 ≤ t ∧ t < 12 then .ok t.toNat else .handler)
      else if 0 ≤ t ∧ t < s.codeWords f.graph ∧ inOverlay f.overlay t.toNat then .ok t.toNat
      else .outside (s.codeBase f.graph + BitVec.ofInt 64 (4 * t))
  | .fe _ => if 0 ≤ t ∧ t < 2 ^ 50 then .ok t.toNat else .outside (BitVec.ofInt 64 (4 * t))

/-- Transfer control for an instruction, with the link register it writes first. -/
def State.jump (s : State) (i : Instr) (t : Int) (link : Option Reg) : State :=
  match s.target t with
  | .outside v => s.trap ADDRESS v
  | .handler => s.illegal i
  | .ok pc =>
    let s1 := s.pops i
    match link with
    | none => s1.goTo pc
    | some r => (s1.writeReg r (BitVec.ofNat 64 (s1.hart.pc + 1))).goTo pc

/-- A branch: it goes to its target where the condition holds (R318). -/
def branch (i : Instr) (o : BitVec 16) (c : Word → Word → Bool) (s : State) : Out :=
  s.run i fun v => if c (v.getD 0 0) (v.getD 1 0) then s.jump i (s.hart.pc + o.toInt) none else s.retire i

def execJ (o : BitVec 26) (s : State) : Out := s.run (.j o) fun _ => s.jump (.j o) (s.hart.pc + o.toInt) none
def execJal (o : BitVec 26) (s : State) : Out :=
  s.run (.jal o) fun _ => s.jump (.jal o) (s.hart.pc + o.toInt) (some linkReg)
def execJalr (d a : Reg) (i : BitVec 16) (s : State) : Out :=
  s.run (.jalr d a i) fun v => s.jump (.jalr d a i) ((v.getD 0 0 + immS i).toNat) (some d)
def execBeq (a b : Reg) (o : BitVec 16) (s : State) : Out := branch (.beq a b o) o (fun x y => x == y) s
def execBne (a b : Reg) (o : BitVec 16) (s : State) : Out := branch (.bne a b o) o (fun x y => x != y) s
def execBlt (a b : Reg) (o : BitVec 16) (s : State) : Out := branch (.blt a b o) o (fun x y => x.slt y) s
def execBge (a b : Reg) (o : BitVec 16) (s : State) : Out := branch (.bge a b o) o (fun x y => !x.slt y) s
def execBltu (a b : Reg) (o : BitVec 16) (s : State) : Out := branch (.bltu a b o) o (fun x y => x.ult y) s
def execBgeu (a b : Reg) (o : BitVec 16) (s : State) : Out := branch (.bgeu a b o) o (fun x y => !x.ult y) s

end Sys2Proof.Machine
end

