-- ==== Sys2Proof/Machine/Flags.lean ====
section
/-! DEFINITION. The floating-point flags and modes (R254), the only flags the machine has: no integer
instruction sets one (R246). -/

namespace Sys2Proof.Machine

/-- The flags, in the places of FPSTAT (R254). -/
def NX : BitVec 5 := 1
def UF : BitVec 5 := 2
def OF : BitVec 5 := 4
def DZ : BitVec 5 := 8
def NV : BitVec 5 := 16

/-- A flag that is set where a condition holds. -/
def flagIf (b : Bool) (f : BitVec 5) : BitVec 5 := if b then f else 0

/-- The rounding modes (R254). -/
inductive Rnd where
  | rne | rtz | rdn | rup | rna | sr
  deriving DecidableEq, Repr

/-- The mode that FPCTL's low bits name; 6 and 7 are never stored (R254). -/
def rndOf (c : BitVec 5) : Rnd :=
  match c.toNat % 8 with
  | 1 => .rtz | 2 => .rdn | 3 => .rup | 4 => .rna | 5 => .sr | _ => .rne

/-- Flushing of subnormal inputs and outputs (R257). -/
def fziOf (c : BitVec 5) : Bool := c.getLsbD 3
def fzoOf (c : BitVec 5) : Bool := c.getLsbD 4

/-- What a write of a word leaves in FPCTL (R254). -/
def fpctlOf (w : Word) : BitVec 5 :=
  let r := if bits w 0 3 ≥ 6 then 0 else bits w 0 3
  BitVec.ofNat 5 (bits w 3 2 * 8 + r)

/-- One draw of a generator: its next state, whose top 16 bits are the draw (R259). -/
def nextGen (g : Word) : Word :=
  let a := g ^^^ (g <<< 13)
  let b := a ^^^ (a >>> 7)
  b ^^^ (b <<< 17)
def drawOf (g : Word) : Nat := g.toNat / 2 ^ 48

/-- The generator after n draws. -/
def genAfter (g : Word) : Nat → Word
  | 0 => g
  | n + 1 => genAfter (nextGen g) n

/-- SeedLoad (R259). -/
def seedLoad (v : Word) : Word := if v = 0 then 0x9E3779B97F4A7C15 else v

/-- OR flags into FPSTAT of the agent whose turn it is (R261). -/
def State.orFlags (s : State) (f : BitVec 5) : State := s.setHart { s.hart with fpstat := s.hart.fpstat ||| f }

/-- The draw a scalar instruction takes when rnd = 5, and the state with the generator advanced (R260). -/
def State.draw (s : State) : Nat := drawOf (nextGen s.hart.gen)
def State.advance (s : State) : State :=
  if rndOf s.hart.fpctl = .sr then s.setHart { s.hart with gen := nextGen s.hart.gen } else s

end Sys2Proof.Machine
end

