-- ==== Sys2Proof/Machine/Float.lean ====
section
/-! DEFINITION. The number formats and their arithmetic (R247 to R257, R262): exact values, one
rounding, and flags. -/

namespace Sys2Proof.Machine

/-- A floating format: exponent and mantissa bits, bias, a sign bit, the special policy of R249 (2 for
the IEEE formats), and whether it is an IEEE format, whose NaNs may signal (R248). -/
structure Fmt where
  e : Nat
  m : Nat
  bias : Int
  s : Bool
  pol : Nat
  ieee : Bool
  deriving DecidableEq, Repr

/-- The IEEE formats and BF16 (R247). -/
def f64 : Fmt := ⟨11, 52, 1023, true, 2, true⟩
def f32 : Fmt := ⟨8, 23, 127, true, 2, true⟩
def f16 : Fmt := ⟨5, 10, 15, true, 2, true⟩
def bf16 : Fmt := ⟨8, 7, 127, true, 2, true⟩

/-- A format descriptor (R249): whether it is valid, its format, and its block scale. -/
def fdValid (d : BitVec 32) : Bool :=
  let n := d.toNat
  let e := n % 16
  let m := n / 16 % 8
  let s := n / 128 % 2
  let pol := n / 2 ^ 16 % 4
  decide (1 ≤ e ∧ e ≤ 7 ∧ m ≤ 6 ∧ s + e + m ≤ 8 ∧ pol ≠ 3 ∧ n / 2 ^ 18 % 4 ≠ 3 ∧ n / 2 ^ 21 = 0 ∧
    (pol = 1 → 2 ≤ e) ∧ (pol = 2 → 2 ≤ e ∧ 1 ≤ m))
def fdFmt (d : BitVec 32) : Fmt :=
  ⟨d.toNat % 16, d.toNat / 16 % 8, sint 8 (d.toNat / 256), d.getLsbD 7, d.toNat / 2 ^ 16 % 4, false⟩
def fdBsc (d : BitVec 32) : Nat := d.toNat / 2 ^ 18 % 4
def fdBlock (d : BitVec 32) : Nat := if d.getLsbD 20 then 32 else 16

/-- The width of a format's code, the exponent of its least normal, and of its least step. -/
def Fmt.width (f : Fmt) : Nat := f.s.toNat + f.e + f.m
def Fmt.emin (f : Fmt) : Int := 1 - f.bias

/-- The magnitude code of the greatest finite value (R251). -/
def Fmt.maxCode (f : Fmt) : Nat :=
  match f.pol with
  | 0 => 2 ^ (f.e + f.m) - 1
  | 1 => 2 ^ (f.e + f.m) - 2
  | _ => (2 ^ f.e - 1) * 2 ^ f.m - 1

/-- A value: a NaN, an infinity, or the finite (m + d) × 2^e, where d is 0, or lies strictly between 0
and 1 when the value is sticky. m = 0 is a zero. -/
inductive FVal where
  | nan (signalling : Bool)
  | inf (neg : Bool)
  | fin (neg : Bool) (m : Nat) (e : Int) (sticky : Bool)
  deriving DecidableEq, Repr

def FVal.zero (neg : Bool) : FVal := .fin neg 0 0 false

/-- Decode a code (R247, R251). With fzi a subnormal is a zero of its sign (R257). -/
def Fmt.decode (f : Fmt) (fzi : Bool) (code : Nat) : FVal :=
  let c := code % 2 ^ f.width
  let neg := f.s && c / 2 ^ (f.e + f.m) % 2 == 1
  let ex := c / 2 ^ f.m % 2 ^ f.e
  let mn := c % 2 ^ f.m
  if f.pol = 2 ∧ ex = 2 ^ f.e - 1 then
    if mn = 0 then .inf neg else .nan (f.ieee && mn / 2 ^ (f.m - 1) % 2 == 0)
  else if f.pol = 1 ∧ ex = 2 ^ f.e - 1 ∧ mn = 2 ^ f.m - 1 then .nan false
  else if ex = 0 then (if fzi then .zero neg else .fin neg mn (f.emin - f.m) false)
  else .fin neg (2 ^ f.m + mn) (f.emin + (ex - 1 : Int) - f.m) false

/-- The sign bit of a format's code, where it has one. -/
def Fmt.signBit (f : Fmt) (neg : Bool) : Nat := if f.s && neg then 2 ^ (f.e + f.m) else 0

/-- The canonical NaN (R248, R251); policy 0 has none and gives +0 (R262). -/
def Fmt.nanCode (f : Fmt) : Nat :=
  match f.pol with
  | 0 => 0
  | 1 => 2 ^ (f.e + f.m) - 1
  | _ => (2 ^ f.e - 1) * 2 ^ f.m + 2 ^ (f.m - 1)
def Fmt.infCode (f : Fmt) (neg : Bool) : Nat := (2 ^ f.e - 1) * 2 ^ f.m + f.signBit neg
def Fmt.maxVal (f : Fmt) (neg : Bool) : Nat := f.maxCode + f.signBit neg

/-! ### Rounding (R255 to R257) -/

/-- The part of a magnitude below a grid of step 2^k of itself: whether anything is discarded, how it
compares with half a step (0 below, 1 equal, 2 above), and floor(2^16 × fraction). -/
def discarded (m k : Nat) (sticky : Bool) : Bool × Nat × Nat :=
  let r := m % 2 ^ k
  if k = 0 then (sticky, 0, 0)
  else
    let h := if r < 2 ^ (k - 1) then 0 else if r = 2 ^ (k - 1) ∧ !sticky then 1 else 2
    (r ≠ 0 || sticky, h, r * 2 ^ 16 / 2 ^ k)

/-- Whether a mode takes the greater magnitude (R255): odd says that the lesser one is odd. -/
def roundsUp (mode : Rnd) (neg odd : Bool) (draw : Nat) (d : Bool × Nat × Nat) : Bool :=
  match mode with
  | .rne => d.2.1 == 2 || (d.2.1 == 1 && odd)
  | .rtz => false
  | .rdn => neg && d.1
  | .rup => !neg && d.1
  | .rna => d.2.1 ≥ 1
  | .sr => draw ≥ 2 ^ 16 - d.2.2

/-- Round a magnitude (m + d) × 2^e on the grid of mantissas of mb bits that ends at exponent emin; the
parity of exponents is counted from par, which matters where mb = 0 (R255). The answer is n and q, for
n × 2^q, and whether it is inexact. -/
def roundMag (mode : Rnd) (neg : Bool) (draw mb : Nat) (emin par : Int) (m : Nat) (e : Int) (sticky : Bool) :
    Nat × Int × Bool :=
  let x := e + (m.log2 : Int)
  let q := max x emin - mb
  if q ≤ e then (m * 2 ^ (e - q).toNat, q, sticky)
  else
    let k := (q - e).toNat
    let d := discarded m k sticky
    let n := m / 2 ^ k
    let odd := if mb = 0 then n == 1 && (max x emin - par) % 2 == 0 else n % 2 == 1
    (if roundsUp mode neg odd draw d then n + 1 else n, q, d.1)

/-- n × 2^q is below 2^x. -/
def belowPow (n : Nat) (q x : Int) : Bool := n = 0 || q + (n.log2 : Int) < x

/-- The magnitude code of n × 2^q, on the grid, continued past the greatest code (R255). -/
def Fmt.magCode (f : Fmt) (n : Nat) (q : Int) : Nat :=
  if n = 0 then 0
  else
    let x := q + (n.log2 : Int)
    if x < f.emin then n
    else (x - f.emin + 1).toNat * 2 ^ f.m + (if n.log2 ≤ f.m then n * 2 ^ (f.m - n.log2) else n / 2 ^ (n.log2 - f.m)) - 2 ^ f.m

/-- The code of an overflow (R256). -/
def Fmt.overflow (f : Fmt) (mode : Rnd) (neg : Bool) : Nat :=
  if f.pol ≠ 2 then f.maxVal neg
  else
    match mode with
    | .rtz => f.maxVal neg
    | .rdn => if neg then f.infCode neg else f.maxVal neg
    | .rup => if neg then f.maxVal neg else f.infCode neg
    | _ => f.infCode neg

/-- The modes under which a result is rounded: the mode, flushing of outputs, and the draw. -/
structure Mode where
  rnd : Rnd
  fzo : Bool
  draw : Nat
  deriving DecidableEq, Repr

/-- Round a value to a format once: its code and the flags (R248, R255 to R257, R262). -/
def Fmt.round (f : Fmt) (md : Mode) : FVal → Nat × BitVec 5
  | .nan sg => (f.nanCode, flagIf (sg || f.pol == 0) NV)
  | .inf neg =>
    if !f.s && neg then (0, NV)
    else if f.pol = 2 then (f.infCode neg, 0)
    else (f.maxVal neg, NV)
  | .fin neg m e sticky =>
    if m = 0 then (f.signBit neg, 0)
    else
      let (n, q, inexact) := roundMag md.rnd neg md.draw f.m f.emin f.emin m e sticky
      let (n', q', _) := roundMag md.rnd neg md.draw f.m (e + (m.log2 : Int)) f.emin m e sticky
      let tiny := belowPow n' q' f.emin
      if !f.s && neg && n ≠ 0 then (0, NV)
      else if tiny && md.fzo then (f.signBit neg, UF ||| NX)
      else
        let c := f.magCode n q
        if c > f.maxCode then (f.overflow md.rnd neg, OF ||| NX)
        else (c + f.signBit neg, flagIf inexact NX ||| flagIf (tiny && inexact) UF)

/-- The exponent of the greatest finite value of a format. -/
def Fmt.emax (f : Fmt) : Int := (f.maxCode / 2 ^ f.m : Nat) - f.bias

/-- An IEEE format has the range and the precision of another (R262). -/
def Fmt.holds (f g : Fmt) : Bool := f.ieee && decide (g.m ≤ f.m ∧ f.emin - f.m ≤ g.emin - g.m ∧ g.emax ≤ f.emax)

/-- Convert a value of a format to another: exact where that one holds it, so that nothing is flushed, else rounded once
(R257, R262). -/
def Fmt.convert (f g : Fmt) (md : Mode) (x : FVal) : Nat × BitVec 5 :=
  f.round (if f.holds g then { md with fzo := false } else md) x

/-! ### Exact operations (R248, R339) -/

/-- A value with the flags that its operation raises of itself. -/
abbrev FRes := FVal × BitVec 5

def FVal.neg : FVal → FVal
  | .nan s => .nan s
  | .inf b => .inf !b
  | .fin b m e k => .fin (!b) m e k

/-- A NaN operand gives a NaN, with NV where one signals. -/
def nanOf (s : Bool) : FRes := (.nan false, flagIf s NV)
def invalid : FRes := (.nan false, NV)

/-- The signed integer of a magnitude at an exponent not above its own. -/
def alignTo (neg : Bool) (m : Nat) (e q : Int) : Int :=
  let x : Int := (m * 2 ^ (e - q).toNat : Nat)
  if neg then -x else x

/-- The exact sum of two finite values; an exact zero is −0 only under RDN, or where both are (R339). -/
def addFin (rdn : Bool) (a : Bool) (m : Nat) (e : Int) (b : Bool) (n : Nat) (g : Int) : FVal :=
  if m = 0 ∧ n = 0 then .zero (if a = b then a else rdn)
  else
    let q := if m = 0 then g else if n = 0 then e else min e g
    let x := (if m = 0 then 0 else alignTo a m e q) + (if n = 0 then 0 else alignTo b n g q)
    if x = 0 then .zero rdn else .fin (decide (x < 0)) x.natAbs q false

def fAdd (rdn : Bool) : FVal → FVal → FRes
  | .nan s, .nan t => nanOf (s || t)
  | .nan s, _ => nanOf s
  | _, .nan t => nanOf t
  | .inf a, .inf b => if a = b then (.inf a, 0) else invalid
  | .inf a, _ => (.inf a, 0)
  | _, .inf b => (.inf b, 0)
  | .fin a m e _, .fin b n g _ => (addFin rdn a m e b n g, 0)

def fMul : FVal → FVal → FRes
  | .nan s, .nan t => nanOf (s || t)
  | .nan s, _ => nanOf s
  | _, .nan t => nanOf t
  | .inf a, .inf b => (.inf (a != b), 0)
  | .inf a, .fin b n _ _ => if n = 0 then invalid else (.inf (a != b), 0)
  | .fin a m _ _, .inf b => if m = 0 then invalid else (.inf (a != b), 0)
  | .fin a m e _, .fin b n g _ => (.fin (a != b) (m * n) (e + g) false, 0)

/-- c + a × b with one rounding: 0 × ∞ is invalid even beside a quiet NaN (R339). -/
def fFma (rdn : Bool) (a b c : FVal) : FRes :=
  let p := fMul a b
  match p.1, c with
  | .nan _, .nan t => (.nan false, p.2 ||| flagIf t NV)
  | .nan _, _ => p
  | _, .nan t => nanOf t
  | _, _ => fAdd rdn c p.1

/-- A quotient with 140 bits beyond the divisor's, sticky where a rest is left. -/
def fDiv : FVal → FVal → FRes
  | .nan s, .nan t => nanOf (s || t)
  | .nan s, _ => nanOf s
  | _, .nan t => nanOf t
  | .inf _, .inf _ => invalid
  | .inf a, .fin b _ _ _ => (.inf (a != b), 0)
  | .fin a _ _ _, .inf b => (.zero (a != b), 0)
  | .fin a m e _, .fin b n g _ =>
    if n = 0 then (if m = 0 then invalid else (.inf (a != b), DZ))
    else if m = 0 then (.zero (a != b), 0)
    else
      let k := 140 + n.log2
      (.fin (a != b) (m * 2 ^ k / n) (e - g - k) (m * 2 ^ k % n ≠ 0), 0)

/-- The integer square root, by n bits downward from bit n − 1. -/
def sqrtBits (x : Nat) : Nat → Nat → Nat
  | 0, r => r
  | n + 1, r => let c := r + 2 ^ n; sqrtBits x n (if c * c ≤ x then c else r)
def isqrt (x : Nat) : Nat := sqrtBits x (x.log2 / 2 + 1) 0

/-- The square root of m × 2^e, by a root of 120 bits or more, sticky where a rest is left. -/
def sqrtFin (m : Nat) (e : Int) : FVal :=
  let k := 240 + (e % 2).toNat
  let x := m * 2 ^ k
  let r := isqrt x
  .fin false r ((e - k) / 2) (r * r ≠ x)

def fSqrt : FVal → FRes
  | .nan s => nanOf s
  | .inf a => if a then invalid else (.inf false, 0)
  | .fin a m e _ => if m = 0 then (.zero a, 0) else if a then invalid else (sqrtFin m e, 0)

/-! ### Comparisons -/

/-- The order of two values that are no NaNs: less, equal, greater; −0 equals +0 (R341). -/
def fCmp : FVal → FVal → Ordering
  | .inf a, .inf b => if a = b then .eq else if a then .lt else .gt
  | .inf a, _ => if a then .lt else .gt
  | _, .inf b => if b then .gt else .lt
  | .fin a m e _, .fin b n g _ =>
    let q := min e g
    compare (alignTo a m e q) (alignTo b n g q)
  | _, _ => .eq

def FVal.isNan : FVal → Bool
  | .nan _ => true
  | _ => false
def FVal.isSnan : FVal → Bool
  | .nan s => s
  | _ => false
def FVal.sign : FVal → Bool
  | .nan _ => false
  | .inf a => a
  | .fin a _ _ _ => a

/-- Less in the order that puts −0 below +0 (R340). -/
def fLess (x y : FVal) : Bool :=
  match fCmp x y with
  | .lt => true
  | .eq => x.sign && !y.sign
  | .gt => false

/-- The lesser or the greater of two values (R340): the other where one is a NaN. -/
def fPick (greater : Bool) (x y : FVal) : FRes :=
  let nv := flagIf (x.isSnan || y.isSnan) NV
  match x, y with
  | .nan _, .nan _ => (.nan false, nv)
  | .nan _, _ => (y, nv)
  | _, .nan _ => (x, nv)
  | _, _ => (if fLess x y != greater then x else y, nv)

/-- The relations of R341 with the flags they raise. -/
def fEq (x y : FVal) : Bool × BitVec 5 :=
  if x.isNan || y.isNan then (false, flagIf (x.isSnan || y.isSnan) NV) else (fCmp x y == .eq, 0)
def fLt (x y : FVal) : Bool × BitVec 5 :=
  if x.isNan || y.isNan then (false, NV) else (fCmp x y == .lt, 0)
def fLe (x y : FVal) : Bool × BitVec 5 :=
  if x.isNan || y.isNan then (false, NV) else (fCmp x y != .gt, 0)

/-- The code of a value that a format holds exactly: an input that is returned unrounded. -/
def Fmt.exact (f : Fmt) (x : FVal) : Nat := (f.round ⟨.rne, false, 0⟩ x).1

/-! ### Conversions (R262) -/

/-- Round a value to an integer under a mode: the integer and whether it is inexact. -/
def roundInt (md : Mode) (neg : Bool) (m : Nat) (e : Int) (sticky : Bool) : Int × Bool :=
  let sg := fun n : Nat => if neg then -(n : Int) else (n : Int)
  if 0 ≤ e then (sg (m * 2 ^ e.toNat), sticky)
  else
    let k := (-e).toNat
    let d := discarded m k sticky
    let n := m / 2 ^ k
    (sg (if roundsUp md.rnd neg (n % 2 == 1) md.draw d then n + 1 else n), d.1)

/-- A value to an integer between lo and hi: clamped with NV; a NaN gives 0 and NV. Below lo = 0 the
nearer limit is 0 (R262, R343). -/
def toInt (md : Mode) (lo hi : Int) : FVal → Int × BitVec 5
  | .nan _ => (0, NV)
  | .inf neg => (if neg then lo else hi, NV)
  | .fin neg m e sticky =>
    let (n, inexact) := roundInt md neg m e sticky
    if n < lo then (lo, NV) else if n > hi then (hi, NV) else (n, flagIf inexact NX)

/-- An integer as a value. -/
def ofInt (x : Int) : FVal := .fin (decide (x < 0)) x.natAbs 0 false

/-! ### Classification (R342) -/

def Fmt.classify (f : Fmt) (code : Nat) : Nat :=
  let ex := code / 2 ^ f.m % 2 ^ f.e
  match f.decode false code with
  | .nan s => if s then 8 else 9
  | .inf neg => if neg then 0 else 7
  | .fin neg m _ _ =>
    if m = 0 then (if neg then 3 else 4)
    else if ex = 0 then (if neg then 2 else 5)
    else if neg then 1 else 6

end Sys2Proof.Machine
end

