-- ==== Sys2Proof/Machine/Special.lean ====
section
/-! DEFINITION. The special functions of R358, correctly rounded: an exact result where the function is
exact, else a sticky value with more bits than any rounding looks at. Fixed-point numbers hold fixBits
fraction bits. -/

namespace Sys2Proof.Machine

/-- Fraction bits of the fixed-point arithmetic. -/
def fixBits : Nat := 400

/-- Bits kept of an irrational result. -/
def keepBits : Nat := 160

/-- A positive fixed-point number n / 2^p as a sticky value of keepBits bits. -/
def stickyOf (neg : Bool) (n : Nat) (p : Int) : FVal :=
  let k := n.log2 + 1 - keepBits
  .fin neg (n / 2 ^ k) (k - p) true

/-- 1/a (R358). -/
def fRcp : FVal → FRes
  | .fin a m e k => if m = 0 then (.inf a, DZ) else fDiv (.fin false 1 0 false) (.fin a m e k)
  | x => fDiv (.fin false 1 0 false) x

/-- 1/√a (R358). The root is taken of 2^(2k) / m, sticky unless it is exact. -/
def fRsqrt : FVal → FRes
  | .nan s => nanOf s
  | .inf a => if a then invalid else (.zero false, 0)
  | .fin a m e _ =>
    if m = 0 then (.inf a, DZ)
    else if a then invalid
    else
      -- with e even: 1/√(m 2^e) = √(2^600 / m) 2^(−300 − e/2)
      let m' := m * 2 ^ (e % 2).toNat
      let e' := e - e % 2
      let q := 2 ^ 600 / m'
      let r := isqrt q
      (.fin false r (-300 - e' / 2) (!(2 ^ 600 % m' = 0 ∧ r * r = q)), 0)

/-! ### Logarithm -/

/-- Bits of log2 of x in [1, 2), a fixed-point number with fixBits fraction bits: n bits by repeated squaring. -/
def log2Bits : Nat → Nat → Nat → Nat
  | 0, _, acc => acc
  | n + 1, x, acc =>
    let y := x * x / 2 ^ fixBits
    if y ≥ 2 ^ (fixBits + 1) then log2Bits n (y / 2) (2 * acc + 1) else log2Bits n y (2 * acc)

/-- Fraction bits that the squarings give. -/
def logFrac : Nat := 260

/-- log2 a (R358): exact for a power of two. -/
def fLog2 : FVal → FRes
  | .nan s => nanOf s
  | .inf a => if a then invalid else (.inf false, 0)
  | .fin a m e _ =>
    if m = 0 then (.inf true, DZ)
    else if a then invalid
    else
      let x := e + (m.log2 : Int)
      if m = 2 ^ m.log2 then (ofInt x, 0)
      else
        let fr := log2Bits logFrac (m * 2 ^ (fixBits - m.log2)) 0
        let t : Int := x * 2 ^ logFrac + fr
        if t ≥ 0 then (stickyOf false t.toNat logFrac, 0)
        else (stickyOf true ((-t).toNat - 1) logFrac, 0)

/-! ### Exponential -/

/-- ln 2 with fixBits fraction bits, by the series of 2 artanh(1/3): sum of 2 / ((2i+1) 3^(2i+1)). -/
def ln2Sum : Nat → Nat → Nat → Nat
  | 0, _, _ => 0
  | n + 1, i, pw => 2 * (pw / (2 * i + 1)) + ln2Sum n (i + 1) (pw / 9)
def ln2 : Nat := ln2Sum 140 0 (2 ^ fixBits / 3)

/-- e^y for y in [0, 1) with fixBits fraction bits, by the power series: term t at step i. -/
def expSum (y : Nat) : Nat → Nat → Nat → Nat
  | 0, _, _ => 0
  | n + 1, i, t => t + expSum y n (i + 1) (t * y / 2 ^ fixBits / (i + 1))
def expFix (y : Nat) : Nat := expSum y 100 0 (2 ^ fixBits)

/-- 2^a for a finite a that is no integer: integer part k and fraction f of a = k + f. Where |a| is
below 2^−200 the result is a value just beside 1; where a lies beyond every format's range the exponent
alone decides. -/
def exp2Fin (neg : Bool) (m : Nat) (e : Int) : FVal :=
  let x := e + (m.log2 : Int)
  if x ≥ 20 then .fin false 1 (if neg then -(2 ^ 20) else 2 ^ 20) true
  else if x < -150 then
    (if neg then .fin false (2 ^ keepBits - 1) (-keepBits) true else .fin false (2 ^ keepBits) (-keepBits) true)
  else
    let a : Int := alignTo neg m e (-fixBits)
    let k := a / 2 ^ fixBits
    let f := (a % 2 ^ fixBits).toNat
    stickyOf false (expFix (f * ln2 / 2 ^ fixBits)) (fixBits - k)

/-- 2^a (R358): exact for an integer. -/
def fExp2 : FVal → FRes
  | .nan s => nanOf s
  | .inf a => (if a then .zero false else .inf false, 0)
  | .fin a m e _ =>
    if m = 0 then (.fin false 1 0 false, 0)
    else
      let x := e + (m.log2 : Int)
      if e < 0 ∧ m % 2 ^ (-e).toNat ≠ 0 then (exp2Fin a m e, 0)
      else if x ≥ 20 then (exp2Fin a m e, 0)
      else
        let n : Int := if e < 0 then (m / 2 ^ (-e).toNat : Nat) else (m * 2 ^ e.toNat : Nat)
        (.fin false 1 (if a then -n else n) false, 0)

/-! ### Hyperbolic tangent -/

/-- tanh of a positive m × 2^e: 1 − 2/(e^(2x) + 1); for a small x the series x − x^3/3 + 2x^5/15 −
17x^7/315 is taken, and beyond 40 the value is just below 1. -/
def tanhFin (neg : Bool) (m : Nat) (e : Int) : FVal :=
  let x := e + (m.log2 : Int)
  if x ≥ 6 then .fin neg (2 ^ keepBits - 1) (-keepBits) true
  else if x < -60 then
    -- x (1 − x²/3) to keepBits bits: just below x
    .fin neg (m * 2 ^ keepBits - 1) (e - keepBits) true
  else
    let y := (alignTo false m e (-fixBits)).toNat          -- x with fixBits fraction bits
    -- 2x / ln 2 = k + f: e^(2x) = 2^k e^(f ln 2)
    let t := 2 * y * 2 ^ fixBits / ln2
    let k := t / 2 ^ fixBits
    let g := expFix (t % 2 ^ fixBits * ln2 / 2 ^ fixBits) * 2 ^ k -- e^(2x), fixBits fraction bits
    stickyOf neg ((g - 2 ^ fixBits) * 2 ^ fixBits / (g + 2 ^ fixBits)) fixBits

def fTanh : FVal → FRes
  | .nan s => nanOf s
  | .inf a => (.fin a 1 0 false, 0)
  | .fin a m e _ => if m = 0 then (.zero a, 0) else (tanhFin a m e, 0)

end Sys2Proof.Machine
end

