-- ==== Sys2Proof/Machine/ScalarFp.lean ====
section
/-! DEFINITION. The scalar floating-point forms (R338 to R343). They read the low bits of their sources
and write their result zero-extended; flags go to FPSTAT. -/

namespace Sys2Proof.Machine

/-- The format a type names (R281). -/
def FTy.fmt : FTy → Fmt
  | .f64 => f64 | .f32 => f32 | .f16 => f16 | .bf16 => bf16

/-- The modes under which a scalar instruction of the acting agent rounds (R261). -/
def State.mode (s : State) : Mode := ⟨rndOf s.hart.fpctl, fzoOf s.hart.fpctl, s.draw⟩

/-- Adding rounds toward minus infinity: an exact zero sum is −0 (R339). -/
def State.isRdn (s : State) : Bool := rndOf s.hart.fpctl == .rdn

/-- The value a source register holds, with subnormal inputs flushed under fzi (R257, R338). -/
def State.value (s : State) (f : Fmt) (w : Word) : FVal := f.decode (fziOf s.hart.fpctl) w.toNat

/-- Finish an instruction that rounds: flags are ORed into FPSTAT and one draw is taken under stochastic
rounding (R260, R261, R339). -/
def State.finishRound (s : State) (i : Instr) (d : Reg) (r : Nat × BitVec 5) : State :=
  ((s.orFlags r.2).advance).finish i d (BitVec.ofNat 64 r.1)

/-- Finish an instruction that sets flags but does not round. -/
def State.finishFlags (s : State) (i : Instr) (d : Reg) (w : Word) (fl : BitVec 5) : State := (s.orFlags fl).finish i d w

/-- Round a result to a format under the modes in force; the flags of the operation join (R247). -/
def State.rounded (s : State) (f : Fmt) (x : FRes) : Nat × BitVec 5 :=
  let r := f.round s.mode x.1
  (r.1, r.2 ||| x.2)

/-- An arithmetic form of two sources, of one. -/
def arith2 (i : Instr) (t : FTy) (d : Reg) (op : FVal → FVal → FRes) (s : State) : Out :=
  s.run i fun v =>
    s.finishRound i d (s.rounded (FTy.fmt t) (op (s.value (FTy.fmt t) (v.getD 0 0)) (s.value (FTy.fmt t) (v.getD 1 0))))
def arith1 (i : Instr) (t : FTy) (d : Reg) (op : FVal → FRes) (s : State) : Out :=
  s.run i fun v => s.finishRound i d (s.rounded (FTy.fmt t) (op (s.value (FTy.fmt t) (v.getD 0 0))))

def execFadd (t : FTy) (d a b : Reg) (s : State) : Out := arith2 (.fadd t d a b) t d (fAdd s.isRdn) s
def execFsub (t : FTy) (d a b : Reg) (s : State) : Out :=
  arith2 (.fsub t d a b) t d (fun x y => fAdd s.isRdn x y.neg) s
def execFmul (t : FTy) (d a b : Reg) (s : State) : Out := arith2 (.fmul t d a b) t d fMul s
def execFdiv (t : FTy) (d a b : Reg) (s : State) : Out := arith2 (.fdiv t d a b) t d fDiv s
def execFsqrt (t : FTy) (d a : Reg) (s : State) : Out := arith1 (.fsqrt t d a) t d fSqrt s

/-- sD + a × b with one rounding (R339). -/
def execFma (t : FTy) (d a b : Reg) (s : State) : Out :=
  s.run (.fma t d a b) fun v =>
    let x := fun n => s.value (FTy.fmt t) (v.getD n 0)
    s.finishRound (.fma t d a b) d (s.rounded (FTy.fmt t) (fFma s.isRdn (x 0) (x 1) (x 2)))

/-- The lesser or the greater: the result is not rounded (R340). -/
def pick (i : Instr) (t : FTy) (d : Reg) (greater : Bool) (s : State) : Out :=
  s.run i fun v =>
    let r := fPick greater (s.value (FTy.fmt t) (v.getD 0 0)) (s.value (FTy.fmt t) (v.getD 1 0))
    s.finishFlags i d (BitVec.ofNat 64 ((FTy.fmt t).exact r.1)) r.2

def execFmin (t : FTy) (d a b : Reg) (s : State) : Out := pick (.fmin t d a b) t d false s
def execFmax (t : FTy) (d a b : Reg) (s : State) : Out := pick (.fmax t d a b) t d true s

/-- A compare form writes 1 or 0 (R341). -/
def compareF (i : Instr) (t : FTy) (d : Reg) (op : FVal → FVal → Bool × BitVec 5) (s : State) : Out :=
  s.run i fun v =>
    let r := op (s.value (FTy.fmt t) (v.getD 0 0)) (s.value (FTy.fmt t) (v.getD 1 0))
    s.finishFlags i d (ofBool r.1) r.2

def execFeq (t : FTy) (d a b : Reg) (s : State) : Out := compareF (.feq t d a b) t d fEq s
def execFlt (t : FTy) (d a b : Reg) (s : State) : Out := compareF (.flt t d a b) t d fLt s
def execFle (t : FTy) (d a b : Reg) (s : State) : Out := compareF (.fle t d a b) t d fLe s

/-- The class mask: subnormals as they are stored, no flag (R342). -/
def execFclass (t : FTy) (d a : Reg) (s : State) : Out :=
  s.run1 (.fclass t d a) d fun x => BitVec.ofNat 64 (2 ^ (FTy.fmt t).classify (x.toNat % 2 ^ (FTy.fmt t).width))

/-- A conversion to a 64-bit integer between two limits (R343). -/
def toInteger (i : Instr) (t : FTy) (d : Reg) (lo hi : Int) (s : State) : Out :=
  s.run i fun v =>
    let r := toInt s.mode lo hi (s.value (FTy.fmt t) (v.getD 0 0))
    s.finishRound i d ((BitVec.ofInt 64 r.1).toNat, r.2)

def execFtoi (t : FTy) (d a : Reg) (s : State) : Out := toInteger (.ftoi t d a) t d (-(2 ^ 63)) (2 ^ 63 - 1) s
def execFtoiu (t : FTy) (d a : Reg) (s : State) : Out := toInteger (.ftoiu t d a) t d 0 (2 ^ 64 - 1) s

/-- A conversion from a 64-bit integer (R343). -/
def execItof (t : FTy) (d a : Reg) (s : State) : Out :=
  s.run (.itof t d a) fun v => s.finishRound (.itof t d a) d (s.rounded (FTy.fmt t) (ofInt (v.getD 0 0).toInt, 0))
def execIutof (t : FTy) (d a : Reg) (s : State) : Out :=
  s.run (.iutof t d a) fun v => s.finishRound (.iutof t d a) d (s.rounded (FTy.fmt t) (ofInt (v.getD 0 0).toNat, 0))

/-- A conversion from type u to type t (R343); t = u has no encoding. -/
def execFcvt (t u : FTy) (d a : Reg) (s : State) : Out :=
  s.run (.fcvt t u d a) fun v =>
    s.finishRound (.fcvt t u d a) d ((FTy.fmt t).convert (FTy.fmt u) s.mode (s.value (FTy.fmt u) (v.getD 0 0)))

end Sys2Proof.Machine
end

