-- ==== Sys2Proof/Machine/LoadStore.lean ====
section
/-! DEFINITION. Loads and stores of the integer pipeline, near and not, nibble stores, pref and the block
moves (R308, R309, R321 to R326). -/

namespace Sys2Proof.Machine

/-! ### The order of checks (R308, R309) -/

/-- Step 2 of R308: the space of an access and its window fields. At plug-in level the regions alone decide (R54). -/
def State.spaceOk (s : State) (addr : Word) (n : Nat) : Bool :=
  match s.agent with
  | .core lc =>
    match spaceOf addr n with
    | .bad => false
    | .window dev tlc _ =>
      s.inDomain (s.corePart lc) dev && (dev != s.devid.toNat || s.reachable (s.corePart lc) tlc)
    | .global _ => true
  | .fe k => (s.fe k).priv == 0 || decide (addr.toNat + n ≤ 2 ^ 52)

/-- An address is a multiple of the access size (R309). -/
def aligned (addr : Word) (n : Nat) : Bool := addr.toNat % n == 0

/-- Every page of a misaligned access translates before a byte of it is read or written, and every codeword that a store
touches is checked before its first byte is written (R242, R309). -/
def State.pagesOf (s : State) (addr : Word) (n need : Nat) : Acc :=
  let first := need == needW && s.hart.sent == []
  match s.agent with
  | .core lc =>
    match spaceOf addr n with
    | .global va =>
      match s.coreSpan lc va n need with
      | .pas l s1 => if first && !s1.partsStorable (pageParts va l) then .trap DATA addr else .ok 0 s1
      | .trap c => .trap c addr
      | .wait s1 => .wait s1
    | .window dev tlc off =>
      if first && dev == s.devid.toNat && !s.storableCellar (span (cellarKey tlc off) n) then .trap DATA addr else .ok 0 s
    | .bad => .ok 0 s
  | .fe c =>
    if (s.feCheck c addr n need).isSome || (s.region addr.toNat matches .remote _ _ | .host) then .ok 0 s
    else
      let l := s.feBytes addr.toNat n
      if first && (l.any s.portFailed || !s.storable l) then .trap DATA addr else .ok 0 s

/-- n one-byte loads in ascending order, the first least significant: those from the k-th access of the instruction on. -/
def State.eachLoad (one : State → Word → Acc) (s : State) (addr : Word) (k : Nat) : Nat → Acc
  | 0 => .ok 0 s
  | n + 1 =>
    match s.access k (n == 0) false addr (fun t => one t addr) with
    | .ok v s1 =>
      match s1.eachLoad one (addr + 1) (k + 1) n with
      | .ok r s2 => .ok (v + 256 * r) s2
      | x => x
    | x => x

/-- n one-byte stores in ascending order. -/
def State.eachStore (one : State → Word → Nat → Acc) (s : State) (addr : Word) (k : Nat) : Nat → Nat → Acc
  | 0, _ => .ok 0 s
  | n + 1, v =>
    match s.access k (n == 0) true addr (fun t => one t addr (v % 256)) with
    | .ok _ s1 => s1.eachStore one (addr + 1) (k + 1) n (v / 256)
    | x => x

def State.loadBytes (s : State) (addr : Word) (n : Nat) : Acc := s.eachLoad (fun t a => t.load a 1) addr 0 n
def State.storeBytes (s : State) (addr : Word) (n v : Nat) : Acc := s.eachStore (fun t a x => t.store a 1 x) addr 0 n v

/-- The steps of R308 about an access of n bytes: whole is the aligned access, bytes the one that stands
for it when the header ignores ALIGN. TRAPVAL holds the address of the access. -/
def State.checked (s : State) (addr : Word) (n need : Nat) (whole bytes : State → Acc) (k : Nat → State → State) : State :=
  if !s.spaceOk addr n then s.trap ADDRESS addr
  else if aligned addr n then s.afterAcc (whole s) k
  else if !s.ignores ALIGN then s.trap ALIGN addr
  else
    match s.pagesOf addr n need with
    | .trap c _ => (s.ignore ALIGN addr).trap c addr
    | .wait s1 => s.waited s1
    | .ok _ s1 =>
      match bytes s1 with
      | .trap c _ => (s.ignore ALIGN addr).trap c addr
      | .wait s2 => s.waited s2
      | .ok v s2 => k v (s2.ignore ALIGN addr)

/-- The value a load of n bytes leaves in a register (R321). -/
def extended (signed : Bool) (n v : Nat) : Word := if signed then sext (8 * n) v else BitVec.ofNat 64 v

/-- A global load (R321). -/
def loadForm (i : Instr) (d : Reg) (imm : BitVec 16) (n : Nat) (signed : Bool) (s : State) : Out :=
  s.run i fun v =>
    let ea := v.getD 0 0 + immS imm
    s.checked ea n needR (fun s => s.load ea n) (fun s => s.loadBytes ea n) fun x s1 =>
      s1.finish i d (extended signed n x)

/-- A global store (R321). -/
def storeForm (i : Instr) (imm : BitVec 16) (n : Nat) (s : State) : Out :=
  s.run i fun v =>
    let ea := v.getD 0 0 + immS imm
    let x := (v.getD 1 0).toNat % 2 ^ (8 * n)
    s.checked ea n needW (fun s => s.store ea n x) (fun s => s.storeBytes ea n x) fun _ s1 => s1.retire i

def execLdB (d a : Reg) (i : BitVec 16) (s : State) : Out := loadForm (.ldB d a i) d i 1 true s
def execLdBu (d a : Reg) (i : BitVec 16) (s : State) : Out := loadForm (.ldBu d a i) d i 1 false s
def execLdH (d a : Reg) (i : BitVec 16) (s : State) : Out := loadForm (.ldH d a i) d i 2 true s
def execLdHu (d a : Reg) (i : BitVec 16) (s : State) : Out := loadForm (.ldHu d a i) d i 2 false s
def execLdW (d a : Reg) (i : BitVec 16) (s : State) : Out := loadForm (.ldW d a i) d i 4 true s
def execLdWu (d a : Reg) (i : BitVec 16) (s : State) : Out := loadForm (.ldWu d a i) d i 4 false s
def execLdD (d a : Reg) (i : BitVec 16) (s : State) : Out := loadForm (.ldD d a i) d i 8 true s
def execStB (d a : Reg) (i : BitVec 16) (s : State) : Out := storeForm (.stB d a i) i 1 s
def execStH (d a : Reg) (i : BitVec 16) (s : State) : Out := storeForm (.stH d a i) i 2 s
def execStW (d a : Reg) (i : BitVec 16) (s : State) : Out := storeForm (.stW d a i) i 4 s
def execStD (d a : Reg) (i : BitVec 16) (s : State) : Out := storeForm (.stD d a i) i 8 s

/-! ### Near forms (R322) -/

/-- The bytes of a misaligned near access, one by one; the codewords of a store are checked first (R242, R309). -/
def State.nearLoadBytes (s : State) (lc : Nat) (off : Word) (n : Nat) : Acc := s.eachLoad (fun t a => t.nearLoad lc a 1) off 0 n
def State.nearStoreBytes (s : State) (lc : Nat) (off : Word) (n v : Nat) : Acc :=
  if s.hart.sent == [] && !s.storableCellar (span (cellarKey lc off.toNat) n) then .trap DATA off
  else s.eachStore (fun t a x => t.nearStore lc a 1 x) off 0 n v

/-- The steps of R308 about a near access: the range test, then alignment, then the access; bytes is the one that stands for a
misaligned access. -/
def State.checkedNear (s : State) (off : Word) (n : Nat) (acc bytes : Nat → Acc) (k : Nat → State → State) : State :=
  match s.agent with
  | .fe _ => s
  | .core lc =>
    if off.toNat + n > 0x60000 then s.trap ADDRESS off
    else if aligned off n then s.afterAcc (acc lc) k
    else if !s.ignores ALIGN then s.trap ALIGN off
    else
      match bytes lc with
      | .trap c _ => (s.ignore ALIGN off).trap c off
      | .wait s1 => s.waited s1
      | .ok v s1 => k v (s1.ignore ALIGN off)

def loadNear (i : Instr) (d : Reg) (imm : BitVec 16) (n : Nat) (signed : Bool) (s : State) : Out :=
  s.run i fun v =>
    let off := v.getD 0 0 + immS imm
    s.checkedNear off n (fun lc => s.nearLoad lc off n) (fun lc => s.nearLoadBytes lc off n) fun x s1 => s1.finish i d (extended signed n x)

def storeNear (i : Instr) (imm : BitVec 16) (n : Nat) (s : State) : Out :=
  s.run i fun v =>
    let off := v.getD 0 0 + immS imm
    let x := (v.getD 1 0).toNat % 2 ^ (8 * n)
    s.checkedNear off n (fun lc => s.nearStore lc off n x) (fun lc => s.nearStoreBytes lc off n x) fun _ s1 => s1.retire i

def execLcB (d a : Reg) (i : BitVec 16) (s : State) : Out := loadNear (.lcB d a i) d i 1 true s
def execLcBu (d a : Reg) (i : BitVec 16) (s : State) : Out := loadNear (.lcBu d a i) d i 1 false s
def execLcH (d a : Reg) (i : BitVec 16) (s : State) : Out := loadNear (.lcH d a i) d i 2 true s
def execLcHu (d a : Reg) (i : BitVec 16) (s : State) : Out := loadNear (.lcHu d a i) d i 2 false s
def execLcW (d a : Reg) (i : BitVec 16) (s : State) : Out := loadNear (.lcW d a i) d i 4 true s
def execLcWu (d a : Reg) (i : BitVec 16) (s : State) : Out := loadNear (.lcWu d a i) d i 4 false s
def execLcD (d a : Reg) (i : BitVec 16) (s : State) : Out := loadNear (.lcD d a i) d i 8 true s
def execScB (d a : Reg) (i : BitVec 16) (s : State) : Out := storeNear (.scB d a i) i 1 s
def execScH (d a : Reg) (i : BitVec 16) (s : State) : Out := storeNear (.scH d a i) i 2 s
def execScW (d a : Reg) (i : BitVec 16) (s : State) : Out := storeNear (.scW d a i) i 4 s
def execScD (d a : Reg) (i : BitVec 16) (s : State) : Out := storeNear (.scD d a i) i 8 s

/-! ### pref and the nibble stores (R323, R324) -/

/-- `pref` changes no architectural state (R323). -/
def execPref (a : Reg) (s : State) : Out := s.run (.pref a) fun _ => s.retire (.pref a)

/-- A byte with one nibble replaced. -/
def withNibble (high : Bool) (x old : Nat) : Nat :=
  if high then x % 16 * 16 + old % 16 else old / 16 * 16 + x % 16

/-- The address of an access that passes its checks lies in another module: remote HBM or a foreign window. -/
def State.isRemote (s : State) (addr : Word) (need : Nat) : Bool :=
  match s.agent with
  | .core lc =>
    match spaceOf addr 1 with
    | .window dev _ _ => dev != s.devid.toNat
    | .global va =>
      match s.coreSpan lc va 1 need with
      | .pas l _ => match s.region (l.headD 0) with
        | .remote _ _ => true
        | _ => false
      | _ => false
    | .bad => false
  | .fe k => match s.region addr.toNat with
    | .remote _ _ => (s.feCheck k addr 1 need).isNone
    | _ => false

/-- Send a nibble store to another module, performed there in arrival order (R210, R324). -/
def State.sendNibble (s : State) (addr : Word) (high : Bool) (x : Nat) : State :=
  let op := RemoteOp.nibble high (BitVec.ofNat 4 x)
  match s.agent with
  | .core lc =>
    match spaceOf addr 1 with
    | .global va =>
      match s.coreSpan lc va 1 needW with
      | .pas l s1 => s1.sendStore lc (BitVec.ofNat 64 (l.headD 0)) op
      | _ => s
    | _ => s.sendStore lc addr op
  | .fe _ => s.sendStore s.agentCore addr op

/-- A nibble store at a global or window address: one indivisible access that needs W (R210, R324). -/
def nibbleForm (i : Instr) (high : Bool) (s : State) : Out :=
  s.run i fun v =>
    let ea := v.getD 0 0
    let x := (v.getD 1 0).toNat % 16
    if !s.spaceOk ea 1 then s.trap ADDRESS ea
    else if s.isRemote ea needW then (s.sendNibble ea high x).retire i
    else s.afterAcc (s.atomic ea 1 needW (.nibble high (BitVec.ofNat 4 x)) (withNibble high x)) fun _ s1 => s1.retire i

def execStnl (a b : Reg) (s : State) : Out := nibbleForm (.stnl a b) false s
def execStnh (a b : Reg) (s : State) : Out := nibbleForm (.stnh a b) true s

/-- A near nibble store: a byte in a failed codeword raises DATA and nothing is written (R324). -/
def nibbleNear (i : Instr) (high : Bool) (s : State) : Out :=
  s.run i fun v =>
    match s.agent with
    | .fe _ => s
    | .core lc =>
      let off := v.getD 0 0
      if off.toNat + 1 > 0x60000 then s.trap ADDRESS off
      else if s.badCellarAt (cellarKey lc off.toNat) then s.trap DATA off
      else
        let k := span (cellarKey lc off.toNat) 1
        (s.writeCellar k (leBytes 1 (withNibble high ((v.getD 1 0).toNat % 16) (s.readCellar k)))).retire i

def execScnl (a b : Reg) (s : State) : Out := nibbleNear (.scnl a b) false s
def execScnh (a b : Reg) (s : State) : Out := nibbleNear (.scnh a b) true s

/-! ### Block moves (R325, R326) -/

/-- The registers of a block move step past an element: the pc stays, and what was sent for the element
is forgotten. -/
def State.stepBlock (s : State) (ds : List (Reg × Word)) : State :=
  let s1 := ds.foldl (fun s x => s.writeReg x.1 x.2) s
  s1.setHart { s1.hart with sent := [] }

/-- One byte of an element, after the space check of R308. -/
def State.byteOf (s : State) (addr : Word) (acc : State → Acc) : Acc :=
  if s.spaceOk addr 1 then acc s else .trap ADDRESS addr

/-- One element of `bmov`: the load precedes the store, each in a step of its own. A count of 0 retires. -/
def execBmov (d a b : Reg) (s : State) : Out :=
  s.run (.bmov d a b) fun v =>
    let x := v.getD 0 0
    let y := v.getD 1 0
    let n := v.getD 2 0
    if n = 0 then s.retire (.bmov d a b)
    else
      s.afterAcc (s.access 0 false false y fun s => s.byteOf y fun s => s.load y 1) fun c s1 =>
        s.afterAcc (s1.access 1 true true x fun s => s.byteOf x fun s => s.store x 1 (c % 256)) fun _ s2 =>
          s2.stepBlock [(a, x + 1), (b, y + 1), (d, n - 1)]

/-- One element of `bset`. -/
def execBset (d a b : Reg) (s : State) : Out :=
  s.run (.bset d a b) fun v =>
    let x := v.getD 0 0
    let n := v.getD 2 0
    if n = 0 then s.retire (.bset d a b)
    else
      s.afterAcc (s.byteOf x fun s => s.store x 1 ((v.getD 1 0).toNat % 256)) fun _ s1 =>
        s1.stepBlock [(a, x + 1), (d, n - 1)]

/-- One element of `bcmp`, its two loads each in a step: the first pair of unequal bytes retires it, the registers at that pair. -/
def execBcmp (d a b : Reg) (s : State) : Out :=
  s.run (.bcmp d a b) fun v =>
    let x := v.getD 0 0
    let y := v.getD 1 0
    let n := v.getD 2 0
    if n = 0 then s.retire (.bcmp d a b)
    else
      s.afterAcc (s.access 0 false false x fun s => s.byteOf x fun s => s.load x 1) fun c s1 =>
        s.afterAcc (s1.access 1 true false y fun s => s.byteOf y fun s => s.load y 1) fun e s2 =>
          if c = e then s2.stepBlock [(a, x + 1), (b, y + 1), (d, n - 1)] else s2.retire (.bcmp d a b)

end Sys2Proof.Machine
end

