-- ==== Sys2Proof/Machine/Atomic.lean ====
section
/-! DEFINITION. The atomics, the deterministic atomics and the holding buffers (R327 to R337). -/

namespace Sys2Proof.Machine

/-! ### What an atomic writes (R327 to R329) -/

/-- The floating format of an atomic of a width. -/
def fmtOf (double : Bool) : Fmt := if double then f64 else f32

/-- The rounded sum of two words under captured modes, with its flags (R329, R332). -/
def addRounded (double : Bool) (old x : Nat) (fpctl : BitVec 5) (draw : Nat) : Nat × BitVec 5 :=
  let f := fmtOf double
  let md : Mode := ⟨rndOf fpctl, fzoOf fpctl, draw⟩
  let r := fAdd (rndOf fpctl == .rdn) (f.decode (fziOf fpctl) old) (f.decode (fziOf fpctl) x)
  let c := f.round md r.1
  (c.1, c.2 ||| r.2)

/-- The new value of an atomic by its op code (R280), for a width of w bits (R327 to R329). -/
def atomicNew (op w : Nat) (old x expected : Nat) (fpctl : BitVec 5) (draw : Nat) : Nat :=
  match op with
  | 0 => x
  | 1 => (old + x) % 2 ^ w
  | 2 => old &&& x
  | 3 => old ||| x
  | 4 => old ^^^ x
  | 5 => if sint w x < sint w old then x else old
  | 6 => if sint w old < sint w x then x else old
  | 7 => min old x
  | 8 => max old x
  | 9 => if old = expected then x else old
  | _ => (addRounded (w == 64) old x fpctl draw).1

/-- The width of an atomic in bytes. -/
def ASz.bytes : ASz → Nat
  | .w => 4 | .d => 8

/-- The steps of R308 for an atomic: it never ignores ALIGN (R309). -/
def State.checkedAtomic (s : State) (addr : Word) (n : Nat) (acc : Acc) (k : Nat → State → State) : State :=
  if !s.spaceOk addr n then s.trap ADDRESS addr
  else if !aligned addr n then s.trap ALIGN addr
  else s.afterAcc acc k

/-- An ordinary atomic (R327, R328): sD receives the old value, sign-extended. -/
def atomicForm (i : Instr) (op : Nat) (z : ASz) (d : Reg) (s : State) : Out :=
  s.run i fun v =>
    let ea := v.getD 0 0
    let n := ASz.bytes z
    let x := (v.getD 1 0).toNat % 2 ^ (8 * n)
    let e := (v.getD 2 0).toNat % 2 ^ (8 * n)
    let r := RemoteOp.atomic op (n == 8) (BitVec.ofNat 64 x) (BitVec.ofNat 64 e) 0 0
    s.checkedAtomic ea n (s.atomic ea n (needR + needW) r fun old => atomicNew op (8 * n) old x e 0 0) fun old s1 =>
      s1.finish i d (sext (8 * n) old)

def execAmoswap (z : ASz) (d a b : Reg) (s : State) : Out := atomicForm (.amoswap z d a b) 0 z d s
def execAmoadd (z : ASz) (d a b : Reg) (s : State) : Out := atomicForm (.amoadd z d a b) 1 z d s
def execAmoand (z : ASz) (d a b : Reg) (s : State) : Out := atomicForm (.amoand z d a b) 2 z d s
def execAmoor (z : ASz) (d a b : Reg) (s : State) : Out := atomicForm (.amoor z d a b) 3 z d s
def execAmoxor (z : ASz) (d a b : Reg) (s : State) : Out := atomicForm (.amoxor z d a b) 4 z d s
def execAmomin (z : ASz) (d a b : Reg) (s : State) : Out := atomicForm (.amomin z d a b) 5 z d s
def execAmomax (z : ASz) (d a b : Reg) (s : State) : Out := atomicForm (.amomax z d a b) 6 z d s
def execAmominu (z : ASz) (d a b : Reg) (s : State) : Out := atomicForm (.amominu z d a b) 7 z d s
def execAmomaxu (z : ASz) (d a b : Reg) (s : State) : Out := atomicForm (.amomaxu z d a b) 8 z d s
def execAmocas (z : ASz) (d a b : Reg) (s : State) : Out := atomicForm (.amocas z d a b) 9 z d s

/-- `amofadd`: one rounding under FPCTL, one draw, flags to FPSTAT; sD receives the old word,
zero-extended (R329). -/
def execAmofadd (z : ASz) (d a b : Reg) (s : State) : Out :=
  s.run (.amofadd z d a b) fun v =>
    let ea := v.getD 0 0
    let n := ASz.bytes z
    let x := (v.getD 1 0).toNat % 2 ^ (8 * n)
    let c := s.hart.fpctl
    let g := s.draw
    let r := RemoteOp.atomic 10 (n == 8) (BitVec.ofNat 64 x) 0 c.toNat g
    s.checkedAtomic ea n (s.atomic ea n (needR + needW) r fun old => (addRounded (n == 8) old x c g).1) fun old s1 =>
      s1.finishRound (.amofadd z d a b) d (old, (addRounded (n == 8) old x c g).2)

/-! ### The holding buffer (R331 to R337) -/

/-- The order in which entries are applied: address, issuer, seq; entries with equal keys keep their
placement order (R333, R334). -/
def heldBefore (x y : Held) : Bool :=
  x.addr < y.addr || (x.addr == y.addr && (x.issuer < y.issuer || (x.issuer == y.issuer && x.seq < y.seq)))

/-- The issuer-key order alone (R335). -/
def keyBefore (x y : Held) : Bool := x.issuer < y.issuer || (x.issuer == y.issuer && x.seq < y.seq)

/-- Sort entries, equal ones in their order. -/
def sortHeld (before : Held → Held → Bool) : List Held → List Held
  | [] => []
  | x :: l => insertBy (fun a b => !before b a) x (sortHeld before l)

/-- Apply one entry: whether it was applied, its flags, and the state (R332). An uncorrectable word skips
it, counted in HBMUE. -/
def State.applyHeld (s : State) (e : Held) : Bool × BitVec 5 × State :=
  let n := if e.double then 8 else 4
  let pas := span e.addr n
  if pas.any s.portFailed || s.anyBad pas then (false, 0, s.meetUe pas)
  else
    let old := s.readMem pas
    let x := e.operand.toNat % 2 ^ (8 * n)
    if e.float then
      let r := addRounded e.double old x e.fpctl e.draw
      (true, r.2, (s.homeWrite pas).writeMem pas (leBytes n r.1))
    else (true, 0, (s.homeWrite pas).writeMem pas (leBytes n ((old + x) % 2 ^ (8 * n))))

/-- Apply entries in order: how many were applied, their flags, and the state. -/
def State.applyAll (s : State) : List Held → Nat × BitVec 5 × State
  | [] => (0, 0, s)
  | e :: l =>
    let (b, f, s1) := s.applyHeld e
    let (n, g, s2) := s1.applyAll l
    (n + b.toNat, f ||| g, s2)

/-- DETOVF of a logical core rises by 1, saturating (R334, R336). -/
def State.bumpDetovf (s : State) (lc : Nat) : State :=
  if lc < 1024 then s.setCore lc { s.core lc with detovf := satAdd (s.core lc).detovf 1 } else s

/-- The issuers of entries, each once. -/
def issuers : List Held → List Nat
  | [] => []
  | e :: l => let r := issuers l; if r.contains e.issuer then r else e.issuer :: r

/-- Drain those entries of a slice that a test selects: applied in ascending address and key, counted in
DETOVF (R334, R337). -/
def State.drainHeld (s : State) (n : Nat) (sel : Held → Bool) : State :=
  let h := (s.slice n).hold
  let out := h.filter sel
  let s1 := s.setSlice n { s.slice n with hold := h.filter fun e => !sel e }
  (issuers out).foldl (fun s lc => s.bumpDetovf lc) (s1.applyAll (sortHeld heldBefore out)).2.2

/-- An entry arrives at its home slice: a full buffer drains first (R334). -/
def State.placeHeld (s : State) (e : Held) : State :=
  let n := sliceOf e.addr
  let s1 := if (s.slice n).hold.length ≥ 16 then s.drainHeld n fun _ => true else s
  s1.setSlice n { s1.slice n with hold := (s1.slice n).hold ++ [e] }

/-- Where a deterministic atomic or `afl` finds its word: a physical address of local HBM or the attic,
with R and W (R331, R335). -/
def State.homeAddress (s : State) (addr : Word) (n : Nat) : Acc :=
  match s.agent with
  | .core lc =>
    match spaceOf addr n with
    | .global va =>
      match s.coreSpan lc va n (needR + needW) with
      | .trap c => .trap c addr
      | .wait s1 => .wait s1
      | .pas l s1 =>
        match s1.region (l.headD 0) with
        | .hbm _ | .attic => .ok (l.headD 0) s1
        | _ => .trap ADDRESS addr
    | _ => .trap ADDRESS addr
  | .fe c =>
    match s.feCheck c addr n (needR + needW) with
    | some k => .trap k addr
    | none =>
      match s.region addr.toNat with
      | .hbm p => .ok p s
      | .attic => .ok addr.toNat s
      | _ => .trap ADDRESS addr

/-- The issuer key of the acting agent: logical core and the frame's sequence. A front-end core is 1024
plus its number, with sequence 0. -/
def State.issuerKey (s : State) : Nat × Nat :=
  match s.agent with
  | .core lc => (lc, ((s.top lc).map Frame.detseq).getD 0)
  | .fe n => (1024 + n, 0)

/-- The frame's deterministic-atomic sequence rises (R331). -/
def State.bumpSeq (s : State) : State :=
  match s.agent with
  | .core lc =>
    match s.top lc with
    | some f => s.setTop lc { f with detseq := f.detseq + 1 }
    | none => s
  | .fe _ => s

/-- A deterministic atomic: it retires when its entry is placed (R331). A window address, another
module's and the host's raise ADDRESS before the alignment is looked at only for the window, which step 2
of R308 sees. -/
def detForm (i : Instr) (float : Bool) (z : ASz) (s : State) : Out :=
  s.run i fun v =>
    let ea := v.getD 0 0
    let n := ASz.bytes z
    let global := match s.agent with
      | .core _ => ea.toNat < 2 ^ 56
      | .fe _ => true
    if !s.spaceOk ea n || !global then s.trap ADDRESS ea
    else if !aligned ea n then s.trap ALIGN ea
    else
      s.afterAcc (s.homeAddress ea n) fun pa s1 =>
        let e : Held :=
          { addr := pa, issuer := s.issuerKey.1, seq := s.issuerKey.2, float := float, double := n == 8
            operand := BitVec.ofNat 64 ((v.getD 1 0).toNat % 2 ^ (8 * n))
            fpctl := if float then s.hart.fpctl else 0, draw := if float then s.draw else 0
            graph := match s.agent with
              | .core lc => (s.top lc).map Frame.graph
              | .fe _ => none }
        let s2 := (s1.placeHeld e).bumpSeq
        (if float then s2.advance else s2).retire i

def execAmodadd (z : ASz) (a b : Reg) (s : State) : Out := detForm (.amodadd z a b) false z s
def execAmodfadd (z : ASz) (a b : Reg) (s : State) : Out := detForm (.amodfadd z a b) true z s

/-- `afl` applies the held entries of an aligned 8-byte word in ascending issuer key (R335). -/
def execAfl (d a : Reg) (s : State) : Out :=
  s.run (.afl d a) fun v =>
    let ea := v.getD 0 0
    if !s.spaceOk ea 1 then s.trap ADDRESS ea
    else
      s.afterAcc (s.homeAddress ea 1) fun pa s1 =>
        let n := sliceOf pa
        let h := (s1.slice n).hold
        let hit := fun e : Held => e.addr / 8 == pa / 8
        let s2 := s1.setSlice n { s1.slice n with hold := h.filter fun e => !hit e }
        let (k, fl, s3) := s2.applyAll (sortHeld keyBefore (h.filter hit))
        s3.finishFlags (.afl d a) d (BitVec.ofNat 64 k) fl

end Sys2Proof.Machine
end

