-- ==== Sys2Proof/Machine/Sched.lean ====
section
/-! DEFINITION. Records on their way to a frame: arrival, footprints, admission, landings and the stage
governor (R87 to R104, R143 to R158), trap deliveries and late cancels (R229, R230). -/

namespace Sys2Proof.Machine

/-! ### The arrival check (R91) -/

/-- Every footprint descriptor has a length of 1 to 6144 units (R88). -/
def Rec.footOk (r : Rec) : Bool := r.footprint.all fun d => 1 ≤ d.1 && d.1 ≤ 6144

/-- A record passes the check of the interface that receives it. -/
def State.recordOk (s : State) (r : Rec) : Bool :=
  r.kind ≤ 4 && 1 ≤ r.level && (r.level != 7 || r.kind == 4) && r.footOk &&
    (r.kind != 1 || (r.fpn == 0 && r.entry == 0)) &&
    match s.graph r.graph with
    | none => false
    | some g => r.station < g.stations

/-- Drop a record that fails the check: BADREC counts it and its launch is marked (R91, R136). -/
def State.badRecord (s : State) (die : Nat) (r : Rec) : State := (s.dropAt die r [.drop]).count cBADREC die

/-! ### Where a core can run -/

/-- The tile a core stands on is awake and not stopped (R77, R84). -/
def Tile.runs (t : Tile) : Bool := t.sleep == .awake && !t.tripped

/-- A core is mapped and not stopped, and its tile is awake (R24, R77, R81, R237). -/
def State.live (s : State) (lc : Nat) : Bool :=
  s.mapped lc && !(s.core lc).stopped && (s.tile (s.tileOf lc)).runs

/-- The kind of a tile: cluster 3 of a die is wide (R10). -/
def wideTile (tile : Nat) : Bool := tile / 8 % 4 == 3

/-- A tile is in service: any in full service, and else those of a die that has passed, whose N clusters wait for the end of
bring-up (R26, R27). -/
def State.served (s : State) (tile : Nat) : Bool :=
  s.modState == 3 || ((s.die (tile / 32)).inService && (4 ≤ s.modState || wideTile tile))

/-- A core executes: it is live, its tile is in service, and its partition runs (R27, R237). -/
def State.active (s : State) (lc : Nat) : Bool := s.live lc && s.served (s.tileOf lc) && s.partState (s.partOf lc) == 0

/-- A core's instruction or chunk has sent an atomic and not used its answer, or has made some of its stores: it is not at a
boundary. -/
def State.midway (s : State) (lc : Nat) : Bool := (s.top lc).any fun f => (f.h.sent ++ f.vsent).any Sent.keep

/-- A core's instruction or chunk has made some of its stores. -/
def State.begunAt (s : State) (lc : Nat) : Bool := (s.top lc).any fun f => begun (f.h.sent ++ f.vsent)

/-- A core goes on: it executes, or comes to the boundary at which a halt, or the trip of its tile, stops it (R84, R237). -/
def State.goesOn (s : State) (lc : Nat) : Bool :=
  s.active lc ||
    (s.mapped lc && !(s.core lc).stopped && (s.tile (s.tileOf lc)).sleep == .awake && s.served (s.tileOf lc) && s.midway lc)

/-! ### The order of records (R148) -/

/-- Level first, then the time word, then the arrival. -/
def recBefore (a : Rec) (i : Nat) (b : Rec) (j : Nat) : Bool :=
  b.level < a.level || (a.level == b.level && (timeLt a.q1 b.q1 || (!timeLt b.q1 a.q1 && i < j)))

def queuedBefore (a b : Nat × Queued) : Bool := recBefore a.2.rcd a.2.arrival b.2.rcd b.2.arrival
def landedBefore (a b : Landed) : Bool := recBefore a.rcd a.arrival b.rcd b.arrival

/-! ### Room in a landing (R152, R153) -/

/-- A landing's record lies in its spill ring. -/
def Landed.spilled (x : Landed) : Bool := x.ring.isSome

/-- The records of the landings homed on a die that lie in its store. -/
def State.storeUse (s : State) (die : Nat) : Nat :=
  s.prog.landings.foldl (fun n e => if e.2.home / 16 = die then n + (e.2.recs.filter fun x => !x.spilled).length else n) 0

/-- A landing's spill ring has room (R405). -/
def State.landRing (s : State) (g st : Nat) : Bool :=
  let e := s.entry 22 (64 * g + st)
  bit e 63 && decide (((s.landing g st).recs.filter Landed.spilled).length < 2 ^ bits e 0 5)

/-- A landing has room for a record. -/
def State.landRoom (s : State) (g st : Nat) : Bool := decide (s.storeUse ((s.landing g st).home / 16) < 8192) || s.landRing g st

/-! ### Records at a core's inbox (R143 to R146) -/

/-- A number for a source. -/
def Source.code : Source → Nat
  | .core lc => 8 * lc | .engine k => 8 * k + 1 | .root q => 8 * q + 2 | .dispatcher => 3 | .device d => 8 * d + 4
  | .landing g st => 8 * (64 * g + st) + 5

/-- The tile stop at which a record leaves the mesh for a core's inbox. -/
def State.stopOf (s : State) : Dest → Option Nat
  | .core lc => some (s.tileOf lc)
  | _ => none

/-- The place a record goes to has no room: at an inbox with its spill ring, or at a landing. -/
def State.noRoom (s : State) (x : Flight) : Bool :=
  match x.dst with
  | .core lc => x.rcd.level != 7 && (s.core lc).place x.rcd.level == .none
  | .landing g st => !s.landRoom g st
  | .device _ => false

/-- The flight at k waits behind one that stands at the same input of its tile stop and finds no room (R146); which input of
a stop a record comes in by, the spec does not give. A record that finds no room in a landing waits at the stop that sends it
and stands in the way of none (R153). -/
def State.behindFull (s : State) (k : Nat) (x : Flight) : Bool :=
  match s.stopOf x.dst with
  | none => false
  | some t => (s.prog.flights.take k).any fun y =>
      s.stopOf y.dst == some t && s.noRoom y && Config.stopInput y.src.code t == Config.stopInput x.src.code t

/-- The flight at k is not behind another of its source on the way to the same place (R143), nor behind a full stop. -/
def State.foremost (s : State) (k : Nat) (x : Flight) : Bool :=
  !((s.prog.flights.take k).any fun y => y.src == x.src && y.dst == x.dst) && !s.behindFull k x

/-- The first record of a source that cannot leave its stop: it finds no room where it goes, or waits behind one that finds
none (R146, R153). -/
def State.heldFlight (s : State) (src : Source) : Option Flight :=
  (span 0 s.prog.flights.length).findSome? fun k =>
    (s.prog.flights[k]?).filter fun x => x.src == src && (s.noRoom x || s.behindFull k x)

def State.dropFlight (s : State) (k : Nat) : State :=
  { s with prog := { s.prog with flights := removeAt s.prog.flights k } }

/-- A handed record has left its landing's account (R154). -/
def State.unhand (s : State) (r : Rec) (lc : Nat) (landed : Bool) : State :=
  if landed then
    let l := s.landing r.graph r.station
    s.setLanding r.graph r.station { l with handed := mput 0 lc (tget 0 l.handed lc - 1) l.handed }
  else s

/-- The front end holds a level-7 record for a core. -/
def State.holds7 (s : State) (lc : Nat) : Bool := s.prog.held7.any fun x => x.1 == lc
def State.hold7 (s : State) (lc : Nat) (r : Rec) : State :=
  { s with prog := { s.prog with held7 := s.prog.held7 ++ [(lc, r)] } }

/-- Take a record into a core: an entry, the spill ring, the level-7 buffer, or none where there is no
room (R144 to R146). -/
def State.takeIn (s : State) (lc : Nat) (r : Rec) (marked landed : Bool) : Option State :=
  let c := s.core lc
  match c.place r.level with
  | .entry i => some (s.setCore lc (c.enter i r marked landed))
  | .buffer => some (s.setCore lc { c with buffer7 := c.buffer7 ++ [r] })
  | .spill =>
    let k := freeRing (c.spill.filterMap Queued.ring)
    some (((s.setCore lc { c with
      spill := c.spill ++ [⟨r, c.arrivals, marked, false, landed, some k⟩], arrivals := c.arrivals + 1 }).ringWrite
        (bit (s.entry 18 lc) 63) (s.spillBase lc) k r).count cISPILL (s.partOf lc))
  | .none => none

/-- A record that finds no route, or no core, is dropped at a quay die: its decrement is posted to the progress tree
with the error mark of its launch (R21, R24, R136). -/
def State.dropAtQuay (s : State) (q : Nat) (r : Rec) : State :=
  (s.postNode (quayNode r.graph) (r.delta (-1) [.drop])).count cFDROP q

/-- The quay die that drops a record for or from a device: that of the lowest link of the device's mask, Q0 for an empty
mask, which the spec does not say (log entry 88). -/
def State.quayOf (s : State) (dev : Nat) : Nat :=
  match (span 0 24).find? fun l => bit (s.entry 14 dev) l with
  | some l => l / 12
  | none => 0

/-- A core that is not mapped will be again: its partition is saved or being restored (R238). -/
def State.awaitsRestore (s : State) (lc : Nat) : Bool :=
  bit (s.entry 24 lc) 63 && (s.partState (s.partOf lc) == 3 || s.partState (s.partOf lc) == 4)

/-- The quay die that drops a record whose core is not mapped: by the module it comes from, and for one of this module
that of its slot's root (log entry 88). -/
def State.dropQuay (s : State) (x : Flight) : Nat :=
  match x.src with
  | .device d => s.quayOf d
  | _ => x.rcd.graph / 8

/-- A record for another module leaves over the link its pair is pinned to; it is dropped where a mark matches it, or
where no live link is left (R19, R21, R110). -/
def State.leave (s : State) (d : Nat) (x : Flight) : State :=
  if s.marked x.rcd.graph x.rcd.q1 then
    (s.postNode (quayNode x.rcd.graph) (x.rcd.delta (-1) [])).count cCNCLDROP (s.fnPart (s.fnOf x.rcd.graph))
  else if s.routed d then s.sendMsg d (.record x.rcd)
  else s.dropAtQuay (s.quayOf d) x.rcd

/-- A record reaches the inbox of a core: it is checked, dropped where a mark matches it, or taken in. A
record for a core that is held or awaits its restore waits at the tile stop (R25, R238), unless it was routed before the
hold (R81); so does one that finds no room. A record taken in wakes the tile (R77). One for a core that is not mapped is dropped (R24, R42, R133). A record for another module leaves over its link
(R19, R21). -/
def execRecordArrival (k : Nat) (s : State) : Out :=
  match s.prog.flights[k]? with
  | none => .next s
  | some x =>
    if !s.foremost k x then .next s
    else
      match x.dst with
      | .landing _ _ => .next s
      | .device d => .next ((s.dropFlight k).leave d x)
      | .core lc =>
        if !s.mapped lc && !s.awaitsRestore lc then
          .next (((s.dropFlight k).dropAtQuay (s.dropQuay x) x.rcd).unhand x.rcd lc x.landed)
        else if !s.mapped lc || (s.heldCore lc && !x.early) then .next s
        else
          let s1 := s.dropFlight k
          let die := s.dieOf lc
          if !s.recordOk x.rcd then .next ((s1.badRecord die x.rcd).unhand x.rcd lc x.landed)
          else if s.marked x.rcd.graph x.rcd.q1 then .next ((s1.cancelDrop die x.rcd).unhand x.rcd lc x.landed)
          else if x.rcd.level == 7 && s.holds7 lc then .next (s1.hold7 lc x.rcd)
          else
            match s1.takeIn lc x.rcd x.marked x.landed with
            | some s2 => .next (s2.wakeTile (s2.tileOf lc))
            | none => if x.rcd.level = 7 then .next (s1.hold7 lc x.rcd) else .next s

/-- The front end retries the oldest level-7 record it holds for a core (R144). -/
def execLevel7Retry (lc : Nat) (s : State) : Out :=
  match s.prog.held7.find? fun x => x.1 == lc with
  | none => .next s
  | some x =>
    if !s.mapped lc || s.heldCore lc then .next s
    else
      match s.takeIn lc x.2 false false with
      | some s1 =>
        .next ({ s1 with prog := { s1.prog with held7 := s1.prog.held7.eraseP fun y => y.1 == lc } }.wakeTile (s1.tileOf lc))
      | none => .next s

/-- A level-7 record for a core is on its way. -/
def State.sent7 (s : State) (lc : Nat) : Bool := s.prog.flights.any fun x => x.dst == .core lc && x.rcd.level == 7

/-- The front end injects the oldest trap delivery it has to build (R229): behind the records it holds for the core, and
not before those on their way, which it may come to hold, have arrived (R144). -/
def execTrapDeliveryInject (s : State) : Out :=
  match s.prog.deliveries with
  | [] => .next s
  | d :: l =>
    let s1 := { s with prog := { s.prog with deliveries := l } }
    if !s1.holds7 d.lc then .next (s1.send .dispatcher d.rcd false)
    else if s1.sent7 d.lc then .next s
    else .next (s1.hold7 d.lc d.rcd)

/-- A halt-launch that found no mark free is installed once one frees (R230). -/
def execDeferredCancelInstall (g : Nat) (s : State) : Out :=
  match s.prog.late.find? fun x => x.g == g with
  | none => .next s
  | some x =>
    match s.installHere g x.mark with
    | (2, _) => .next s
    | (_, s1) => .next (({ s1 with prog := { s1.prog with late := s1.prog.late.eraseP fun y => y.g == g } } : State).tellMark g
        x.mark x.dev)

/-! ### Task headers (R104, R297, R298) -/

/-- A field of the 64 bytes of a header: n bytes at an offset. -/
def hdrField (h off n : Nat) : Nat := h / 2 ^ (8 * off) % 2 ^ (8 * n)

/-- The reason of ENTRY that a header gives a record, in the order of R104; the flag says that the image
is an overlay image (R304). -/
def headerReason (h : Nat) (r : Rec) (overlays : Bool) : Option Nat :=
  let prio := hdrField h 5 1
  let flags := hdrField h 7 1
  let ovl := flags / 4 % 2 == 1
  let w := hdrField h 4 1
  if hdrField h 0 4 ≠ 0x09607A5C ∨ prio / 8 % 2 ≠ 0 ∨ prio / 128 ≠ 0 ∨ hdrField h 6 1 / 16 ≠ 0 ∨ flags / 8 ≠ 0 ∨
      hdrField h 12 4 / 2 ^ 26 ≠ 0 ∨ hdrField h 0x3A 6 ≠ 0 ∨ ovl ≠ overlays ∨
      hdrField h 0x38 2 ≠ (if ovl then r.entry / 0x4000 else 0) then some 1
  else if w ≠ 8 ∧ w ≠ 16 ∧ w ≠ 24 ∧ w ≠ 32 then some 2
  else if r.level > prio / 16 % 8 then some 3
  else if (span 0 16).any (fun k => decide (7 ≤ h / 2 ^ (8 * 0x10 + 4 * k) % 16)) then some 4
  else if hdrField h 8 4 > 0x60000 ∨ hdrField h 8 4 % 64 ≠ 0 then some 5
  else none

/-- What reading a header comes to: its 64 bytes, reason 1 where it does not lie in the image, the
trap of the read, or a wait. -/
inductive HeaderRead where
  | bytes (h : Nat) (s : State) | outside | trap (cls : Nat) (val : Word) | wait (s : State)
  deriving DecidableEq, Repr

/-- The numbers under which a core's header reads and footprint fetches stand among the engines. -/
def headerKey (lc : Nat) : Nat := footBase + 256 * lc + 255
def footKey (lc id : Nat) : Nat := footBase + 256 * lc + id

/-- Read the header of a record's entry for a core (R104): a fetch in the graph's context. -/
def State.readHeaderBy (s : State) (holders : List Nat) (lc : Nat) (r : Rec) : HeaderRead :=
  if r.entry < 16 ∨ r.entry > s.codeWords r.graph then .outside
  else
    let va := (s.codeBase r.graph).toNat + 4 * r.entry - 64
    let asked := fun (e : Eng) => match e with
      | .ok bs s1 => HeaderRead.bytes (leNat bs) s1
      | .bad _ | .fault _ => .trap DATA (BitVec.ofNat 64 va)
      | .wait s1 => .wait s1
    match s.xlateSpan (s.dieOf lc) holders (s.partOf lc) (s.ctxOf r.graph) va 64 needX with
    | .trap c => .trap c (BitVec.ofNat 64 va)
    | .wait s1 => .wait s1
    | .pas l s1 =>
      match s.region (l.headD 0) with
      | .remote d _ => asked (s1.engRemote (headerKey lc) (BitVec.ofNat 64 (l.headD 0)) d 0 (.load 64))
      | .host => asked (s1.engHost (headerKey lc) (s.fnOf r.graph) (l.headD 0) 64)
      | _ => if l.any s.portFailed || s.anyBad l then .trap DATA (BitVec.ofNat 64 va) else .bytes (s.readMem l) s1

/-- The same by the TLBs of the core's slot. -/
def State.readHeader (s : State) (lc : Nat) (r : Rec) : HeaderRead := s.readHeaderBy (s.holdersOf lc) lc r

/-- The fields a frame keeps of its header. -/
def headerOf (h : Nat) : Header :=
  { actions := BitVec.ofNat 32 (hdrField h 12 4), ceilings := BitVec.ofNat 64 (hdrField h 16 8), flags := hdrField h 7 1
    overlays := hdrField h 0x38 2, frameSize := hdrField h 8 4 }

/-! ### Frames (R94, R103) -/

/-- The offset past the top of the next cellar frame: the lowest byte of the stack (R149). -/
def Core.lowest (c : Core) : Nat := (c.frames.head?.map Frame.low).getD 0x60000

/-- The effective budget class (R103). -/
def budgetClass (a b : Nat) : Nat := if a = 0 then b else if b = 0 then a else min a b

/-- The arguments s1 to s6: Q2 to Q7, footprint offsets in their slots (R88, R89). -/
def argsOf (r : Rec) (regions : List (Nat × Nat)) : List Word :=
  let off := fun i w => match regions[i]? with
    | some x => BitVec.ofNat 64 x.1
    | none => w
  [r.q2, r.q3, r.q4, off 2 r.q5, off 1 r.q6, off 0 r.q7]

/-- The frame of a record before its header is known: time, station, graph, seed and budget (R94, R103,
R258). An inline handler is such a frame (R101). -/
def bareFrame (lc : Nat) (r : Rec) (q : Queued) (entry budget low : Nat) : Frame :=
  let seed : Word := r.q1 ^^^ BitVec.ofNat 64 (lc * 2 ^ 20) ^^^ BitVec.ofNat 64 (r.station * 2 ^ 36) ^^^
    BitVec.ofNat 64 (r.graph * 2 ^ 52)
  { Frame.zero with
    h := { Hart.zero with seed := seed, gen := seedLoad seed, pc := if r.kind = 1 then 0 else r.entry }
    level := r.level, kind := r.kind, ltime := r.q1, station := r.station, graph := r.graph
    unl := budget == 0, left := if budget = 0 then 0 else 2 ^ (budget + 9), thresh := r.level
    rcd := r, marked := q.marked, entry := entry, low := low }

/-- The registers at entry: arguments, and s24 where the window has 32 registers (R93, R94). -/
def entryRegs (w : Nat) (args : List Word) (top : Nat) : Vector Word 32 :=
  (Vector.range 32).map fun i =>
    if 1 ≤ i ∧ i ≤ 6 then args.getD (i - 1) 0 else if i = 24 ∧ w = 32 then BitVec.ofNat 64 top else 0

/-- The frame a record and its header give (R94). -/
def frameOf (lc : Nat) (r : Rec) (q : Queued) (h : Nat) (c : Core) (regions : List (Nat × Nat))
    (fault : Option (Nat × Word)) : Frame :=
  let w := hdrField h 4 1
  let f := bareFrame lc r q 0 (budgetClass r.budget (hdrField h 6 1 % 16)) (c.lowest - hdrField h 8 4)
  { f with
    h := { f.h with regs := entryRegs w (argsOf r regions) c.lowest }
    window := w, hdr := headerOf h, regions := regions
    fd := (Vector.range 8).map fun i => BitVec.ofNat 32 (hdrField h (0x18 + 4 * i) 4)
    pending := fault.map fun x => (x.1, x.2, none)
    overlay := if hdrField h 7 1 / 4 % 2 = 1 then some (r.entry / 0x4000) else none }

/-! ### Footprints (R88, R149 to R151) -/

/-- Two ranges of bytes meet. -/
def overlaps (a : Nat × Nat) (b : Nat × Nat) : Bool := a.1 < b.1 + b.2 && b.1 < a.1 + a.2 && a.2 != 0 && b.2 != 0

/-- The static cellar bytes of a core's partition (R149). -/
def State.cstat (s : State) (lc : Nat) : Nat := bits (s.entry 17 (s.partOf lc)) 0 19

/-- The lowest free offset from one on for a region of n bytes below an end, among taken regions: the
next try starts past the last region that is in the way. -/
def firstFit (taken : List (Nat × Nat)) (n hi : Nat) : Nat → Nat → Option Nat
  | 0, _ => none
  | k + 1, a =>
    if a + n > hi then none
    else
      match taken.find? fun x => overlaps (a, n) x with
      | none => some a
      | some x => firstFit taken n hi k (x.1 + x.2)

/-- Place regions first-fit, in order (R149). -/
def placeRegions (lo hi : Nat) : List (Nat × Nat) → List Nat → Option (List (Nat × Nat))
  | _, [] => some []
  | taken, n :: l =>
    match firstFit taken n hi (taken.length + 1) lo with
    | none => none
    | some a =>
      match placeRegions lo hi (taken ++ [(a, n)]) l with
      | none => none
      | some r => some ((a, n) :: r)

/-- The frame size that the header of a record names, 0 where it cannot be read (log entry 86). -/
def State.frameSizeOf (s : State) (lc : Nat) (r : Rec) : Nat :=
  if r.kind = 1 then 0
  else
    match s.readHeader lc r with
    | .bytes h _ => hdrField h 8 4
    | _ => 0

/-- The bytes of a quarter that a record and a frame of z bytes need beside the static area (R149). -/
def State.needs (s : State) (lc : Nat) (r : Rec) (z : Nat) : Nat :=
  s.cstat lc + (r.footprint.foldl (fun n d => n + 64 * d.1) 0) + z

/-- The trap a record takes at admission in place of its first instruction, and its TRAPVAL: that of a
header that is refused or cannot be read, or ENTRY where an empty quarter has no room (R104, R149). -/
def State.entryTrap (s : State) (lc : Nat) (r : Rec) : Option (Nat × Word) :=
  if r.kind = 1 then none
  else
    match s.readHeader lc r with
    | .outside => some (ENTRY, 1)
    | .trap cls v => some (cls, v)
    | .wait _ => none
    | .bytes h _ =>
      match headerReason h r ((s.graph r.graph).any Graph.overlays) with
      | some k => some (ENTRY, BitVec.ofNat 64 k)
      | none =>
        let need := s.needs lc r (hdrField h 8 4)
        if need > 0x60000 then some (ENTRY, BitVec.ofNat 64 need) else none

/-- The slot a record holds. -/
def Core.slotOf (c : Core) (arrival : Nat) : Option FootSlot := c.foot.find? fun f => f.arrival == arrival

/-- Entries of the inbox that wait: an inline handler that has been admitted does not. -/
def Core.waiting (c : Core) : List (Nat × Queued) :=
  c.inbox.filter fun e => !(c.frames.any fun f => f.kind == 1 && f.entry == e.1)

/-- A record gives its footprint slot up: its regions free, and a fetch in progress stops where it is (R150, R165). -/
def State.freeFoot (s : State) (lc arrival : Nat) : State :=
  let c := s.core lc
  match c.slotOf arrival with
  | none => s
  | some f =>
    ((s.setCore lc { c with foot := c.foot.filter fun x => x.arrival != arrival }).forgetKey (footKey lc f.id)).dropHolder
      (4096 + 64 * footKey lc f.id + s.clusterOf lc)

/-- Drop a record of the inbox: its slot and its entry free (R110, R145, R165). -/
def State.dropQueued (s : State) (lc : Nat) (e : Nat × Queued) : State :=
  ((s.freeFoot lc e.2.arrival).freeInbox lc e.1).unhand e.2.rcd lc e.2.landed

/-- Records of the inbox that are considered and cannot run: a mark matches them, or their entry is
uncorrectable (R110, R165, R242). -/
def State.sweepInbox (s : State) (lc : Nat) : State :=
  (s.core lc).waiting.foldl (fun s e =>
    if e.2.bad then ((s.dropAt (s.dieOf lc) e.2.rcd [.drop]).count cUEDROP (s.dieOf lc)).dropQueued lc e
    else if s.marked e.2.rcd.graph e.2.rcd.q1 then (s.cancelDrop (s.dieOf lc) e.2.rcd).dropQueued lc e
    else s) s

/-- The last slot holder in R148's order, as an inbox entry. -/
def Core.lastHolder (c : Core) : Option (Nat × Queued) :=
  leastBy (fun a b => queuedBefore b a) (c.waiting.filter fun e => (c.slotOf e.2.arrival).isSome)

/-- Evict the last holder: its regions free and it is queued again (R150). -/
def State.evict (s : State) (lc : Nat) (e : Nat × Queued) : State :=
  (s.freeFoot lc e.2.arrival).count cFPEVICT (s.partOf lc)

/-- Give a record a slot where its regions fit. -/
def State.startFetch (s : State) (lc : Nat) (e : Nat × Queued) : Option State :=
  let c := s.core lc
  let taken := c.foot.flatMap FootSlot.regions ++ c.frames.flatMap Frame.regions
  let hi := c.lowest - s.frameSizeOf lc e.2.rcd
  match placeRegions (s.cstat lc) hi taken (e.2.rcd.footprint.map fun d => 64 * d.1) with
  | none => none
  | some rs =>
    some (s.setCore lc { c with foot := c.foot ++ [⟨freeRing (c.foot.map FootSlot.id), e.2.arrival, rs, 0, false, none⟩] })

/-- Start a fetch, evicting later holders while there is no slot or no space, n times at most. -/
def State.fetchFor (s : State) (lc : Nat) (e : Nat × Queued) : Nat → State
  | 0 => s
  | n + 1 =>
    let c := s.core lc
    match (if c.foot.length < Config.footprintSlots then s.startFetch lc e else none) with
    | some s1 => s1
    | none =>
      match c.lastHolder with
      | some h => if queuedBefore e h then (s.evict lc h).fetchFor lc e n else s
      | none => s

/-- A record whose footprint and frame cannot fit in an empty quarter: it is never fetched, and takes ENTRY at admission
(R149). -/
def State.unfit (s : State) (lc : Nat) (r : Rec) : Bool := decide (s.needs lc r (s.frameSizeOf lc r) > 0x60000)

/-- A record of the inbox is considered: its entry can be read and no cancel mark matches it (R148, R150, R242). -/
def State.considered (s : State) (e : Nat × Queued) : Bool := !e.2.bad && !s.marked e.2.rcd.graph e.2.rcd.q1

/-- Records of the inbox that want a footprint slot (R150). -/
def State.wantSlot (s : State) (lc : Nat) : List (Nat × Queued) :=
  (s.core lc).waiting.filter fun e =>
    s.considered e && e.2.rcd.fpn != 0 && ((s.core lc).slotOf e.2.arrival).isNone && !s.unfit lc e.2.rcd

/-- A free footprint slot takes the first record that wants one, once its header has been read (R150). -/
def execFootprintFetchStart (lc : Nat) (s : State) : Out :=
  if !s.active lc then .next s
  else
    let s1 := s.sweepInbox lc
    match leastBy queuedBefore (s1.wantSlot lc) with
    | none => .next s1
    | some e =>
      match s1.readHeader lc e.2.rcd with
      | .wait s2 => .next s2
      | _ => .next (s1.fetchFor lc e (Config.footprintSlots + 1))

/-- Where the n-th byte of a footprint comes from and goes to: its region's address, the place in memory and in the
quarter (R88). -/
def footAt : List (Nat × Nat) → List (Nat × Nat) → Nat → Option (Nat × Nat × Nat)
  | d :: ds, r :: rs, n => if n < r.2 then some (d.2, d.2 + n, r.1 + n) else footAt ds rs (n - r.2)
  | _, _, _ => none

/-- What 64 bytes more of a fetch come to: the slot after them, or a wait. A region that fails translation or R brings
ADDRESS, an uncorrectable read DATA (R88). -/
def State.fetchLine (s : State) (lc : Nat) (rcd : Rec) (f : FootSlot) : Bool × FootSlot × State :=
  match footAt rcd.footprint f.regions f.fetched with
  | none => (true, { f with pinned := true }, s)
  | some (region, va, off) =>
    let x : Issuer := ⟨footKey lc f.id, lc, s.ctxOf rcd.graph, s.fnOf rcd.graph⟩
    let fails := fun (cls : Nat) => (true, { f with pinned := true, fault := some (cls, BitVec.ofNat 64 region) }, s)
    match s.engSpan x va 64 needR 0 with
    | .trap c => fails (if c = DATA then DATA else ADDRESS)
    | .wait s1 => (false, f, s1)
    | .pas _ _ =>
      match s.engRead x (BitVec.ofNat 64 va) 64 0 with
      | .ok bs s1 => (true, { f with fetched := f.fetched + 64 }, s1.writeCellar (span (cellarKey lc off) 64) bs)
      | .bad s1 => (true, { f with pinned := true, fault := some (DATA, BitVec.ofNat 64 region) }, s1)
      | .fault _ => fails ADDRESS
      | .wait s1 => (false, f, s1)

/-- Fetch n lines at most, until the slot is pinned or an access waits. -/
def State.fetchLines (s : State) (lc : Nat) (rcd : Rec) (f : FootSlot) : Nat → FootSlot × State
  | 0 => (f, s)
  | n + 1 =>
    let r := s.fetchLine lc rcd f
    if !r.1 || r.2.1.pinned then r.2 else r.2.2.fetchLines lc rcd r.2.1 n

/-- The fetch unit copies n lines at most for a slot of an executing core; pinned, it holds no chunk any more. -/
def State.fetchSlot (s : State) (lc slot n : Nat) : State :=
  let c := s.core lc
  match c.foot[slot]? with
  | none => s
  | some f =>
    if f.pinned || !s.active lc then s
    else
      match c.inbox.find? fun e => e.2.arrival == f.arrival with
      | none => s
      | some e =>
        let r := s.fetchLines lc e.2.rcd f n
        let c1 := r.2.core lc
        let s1 := r.2.setCore lc { c1 with foot := modifyAt (fun _ => r.1) c1.foot slot }
        if r.1.pinned then s1.dropHolder (4096 + 64 * footKey lc f.id + s.clusterOf lc) else s1

/-- The bytes of a footprint's regions. -/
def FootSlot.size (f : FootSlot) : Nat := f.regions.foldl (fun n r => n + r.2) 0

/-- The fetch of a slot ends: every region is pinned, or a fault is pending for the task (R88, R98). -/
def execFootprintPinned (lc slot : Nat) (s : State) : Out :=
  .next (s.fetchSlot lc slot ((((s.core lc).foot[slot]?).map fun f => f.size / 64).getD 0 + 1))

/-! ### Admission (R94, R96, R97, R104, R148, R149, R151) -/

/-- A record of an inbox entry can be admitted as far as its footprint goes (R148): it has none, it is
pinned, or it can never be (R149); and no mark matches it. -/
def State.eligible (s : State) (lc : Nat) (e : Nat × Queued) : Bool :=
  s.considered e && (e.2.rcd.fpn == 0 || ((s.core lc).slotOf e.2.arrival).any FootSlot.pinned || s.unfit lc e.2.rcd)

/-- The first eligible record. -/
def State.firstEligible (s : State) (lc : Nat) : Option (Nat × Queued) :=
  leastBy queuedBefore ((s.core lc).waiting.filter (s.eligible lc))

/-- Push a frame: what the covered frame waits for is given up and its operand latch is cleared, the record's slot and entry free; an
inline handler keeps its entry (R97, R101, R145, R169). -/
def State.push (s : State) (lc : Nat) (e : Nat × Queued) (f : Frame) : State :=
  let s0 := ((s.abandon lc).freeFoot lc e.2.arrival).forgetKey (headerKey lc)
  let c := s0.core lc
  let s1 := s0.setCore lc { c with busy := true, frames := f :: uncover c.frames }
  let s2 := if f.kind = 1 then s1 else s1.freeInbox lc e.1
  s2.unhand e.2.rcd lc e.2.landed

/-- The task takes a trap of its admission before its first instruction (R104, R149). -/
def State.refuseEntry (s : State) (lc : Nat) (e : Nat × Queued) (cls : Nat) (val : Word) : State :=
  let r := e.2.rcd
  (s.push lc e (bareFrame lc r e.2 e.1 (budgetClass r.budget 0) (s.core lc).lowest)).takeTrap lc cls val none

/-- Evict the slots of other records that a new frame's bytes meet (R151). -/
def State.evictUnder (s : State) (lc : Nat) (arrival : Nat) (bytes : Nat × Nat) : State :=
  let c := s.core lc
  let hit := c.waiting.filter fun e =>
    e.2.arrival != arrival && (c.slotOf e.2.arrival).any fun f => f.regions.any (overlaps bytes)
  hit.foldl (fun s e => s.evict lc e) s

/-- The regions pinned for a record. -/
def Core.regionsOf (c : Core) (arrival : Nat) : List (Nat × Nat) := ((c.slotOf arrival).map FootSlot.regions).getD []

/-- The frame of a record whose header is h has room: its bytes meet no frame's footprint, not its own, and not the static
area (R151). -/
def State.frameFits (s : State) (lc : Nat) (e : Nat × Queued) (h : Nat) : Bool :=
  let c := s.core lc
  let z := hdrField h 8 4
  decide (s.cstat lc + z ≤ c.lowest) &&
    !((c.frames.flatMap Frame.regions ++ c.regionsOf e.2.arrival).any (overlaps (c.lowest - z, z)))

/-- Drop the cached words of a tile (R219). -/
def State.dropIcache (s : State) (tile : Nat) : State :=
  { s with mem := { s.mem with icache := s.mem.icache.filter fun e => e.1 / 2 ^ 52 != tile } }

/-- The frames of a tile's cores select overlays: the pinned window takes the whole instruction cache (R305). -/
def State.windowed (s : State) (tile : Nat) : Bool := (s.coresOn tile).any fun lc => (s.core lc).frames.any fun f => f.overlay.isSome

/-- The window of a tile opens for the overlay that a frame selects. It holds one, so what the cache held goes where it was
another, and the window fills anew (R305). -/
def State.openWindow (s : State) (lc : Nat) (f : Frame) : State :=
  let tile := s.tileOf lc
  let w := f.overlay.map fun n => (f.graph, n)
  if w.isNone || (s.tile tile).window == w then s
  else let s1 := s.dropIcache tile; s1.setTile tile { s1.tile tile with window := w }

/-- Push the frame of a record whose header is h, where it has room, or wait; other records' regions that its bytes meet
are evicted (R151). -/
def State.pushTask (s : State) (lc : Nat) (e : Nat × Queued) (h : Nat) : State :=
  let c := s.core lc
  let z := hdrField h 8 4
  if !s.frameFits lc e h then s
  else
    let f := frameOf lc e.2.rcd e.2 h c (c.regionsOf e.2.arrival) ((c.slotOf e.2.arrival).bind FootSlot.fault)
    ((s.evictUnder lc e.2.arrival (c.lowest - z, z)).openWindow lc f).push lc e f

/-- Admit the first eligible record of a core where its level clears the threshold (R96). -/
def State.admitFirst (s : State) (lc : Nat) : State :=
  match s.firstEligible lc with
  | none => s
  | some e =>
    let r := e.2.rcd
    if r.level ≤ (s.core lc).thresh then s
    else if r.kind = 1 then s.push lc e (bareFrame lc r e.2 e.1 r.budget (s.core lc).lowest)
    else
      match s.entryTrap lc r, s.readHeader lc r with
      | some x, _ => s.refuseEntry lc e x.1 x.2
      | none, .bytes h s1 => s1.pushTask lc e h
      | none, .wait s1 => s1
      | none, _ => s

/-- The first eligible record of a core, where its level clears the threshold (R96). -/
def State.nextRecord (s : State) (lc : Nat) : Option (Nat × Queued) :=
  (s.firstEligible lc).filter fun e => decide ((s.core lc).thresh < e.2.rcd.level)

/-- It stands before the core's next instruction (R96, R97, R148): while its header is read, which is part of its admission,
the core waits for it; while its frame finds no room, the core goes on with the frames it has (R151; log entry 14). -/
def State.admissionDue (s : State) (lc : Nat) : Bool :=
  (s.nextRecord lc).any fun e =>
    e.2.rcd.kind == 1 || (s.entryTrap lc e.2.rcd).isSome ||
      match s.readHeader lc e.2.rcd with
      | .bytes h _ => s.frameFits lc e h
      | .wait _ => true
      | _ => false

/-- Admission at a core, between two of its instructions. -/
def execAdmission (lc : Nat) (s : State) : Out :=
  if !s.active lc || s.begunAt lc then .next s else .next ((s.sweepInbox lc).admitFirst lc)

/-- The running frame's budget is used up: BUDGET is raised at the instruction boundary (R103). -/
def execBudgetExpire (lc : Nat) (s : State) : Out :=
  match s.top lc with
  | some f => if s.active lc && !s.begunAt lc && !f.unl && f.left == 0 && f.leader.isNone && s.gangReady lc f then .next (s.takeTrap lc BUDGET 0 none) else .next s
  | none => .next s

/-! ### Landings (R152 to R154) -/

/-- A record takes its place in a landing: in the store of its die, or in its ring (R152, R153). -/
def State.land (s : State) (g st : Nat) (r : Rec) (marked : Bool) : Option State :=
  let l := s.landing g st
  let put := fun ring : Option Nat =>
    s.setLanding g st { l with
      recs := insertBy landedBefore ⟨r, l.arrivals, marked, ring⟩ l.recs, arrivals := l.arrivals + 1 }
  if s.storeUse (l.home / 16) < 8192 then some (put none)
  else if s.landRing g st then
    let k := freeRing (l.recs.filterMap Landed.ring)
    some (((put (some k)).ringWrite true (bits (s.entry 22 (64 * g + st)) 16 36 * 65536) k r).count cLSPILL (s.fnPart (s.fnOf g)))
  else none

/-- A landing's record as its ring gives it back, if it lies there; none for an uncorrectable line (log entry 18). -/
def State.landedRec (s : State) (g st : Nat) (x : Landed) : Option Rec :=
  match x.ring with
  | none => some x.rcd
  | some k => s.ringRead (bits (s.entry 22 (64 * g + st)) 16 36 * 65536) k

/-- A record reaches the landing of its station (R143, R152). -/
def execLandingArrival (k : Nat) (s : State) : Out :=
  match s.prog.flights[k]? with
  | none => .next s
  | some x =>
    match x.dst with
    | .landing g st =>
      if !s.foremost k x then .next s
      else
        let s1 := s.dropFlight k
        let die := (s.landing g st).home / 16
        if !s.recordOk x.rcd then .next (s1.badRecord die x.rcd)
        else if s.marked g x.rcd.q1 then .next (s1.cancelDrop die x.rcd)
        else .next ((s1.land g st x.rcd x.marked).getD s)
    | _ => .next s

/-- A landing may hand its head to a core (R154, R237). -/
def State.mayHand (s : State) (l : Landing) (r : Rec) (lc : Nat) : Bool :=
  let c := s.core lc
  s.mapped lc && !s.heldCore lc && !c.stopped && s.partState (s.partOf lc) == 0 &&
    tget 0 l.handed lc < Config.landingDepth && !(c.spill.any fun q => q.rcd.level == r.level) && (c.freeEntry r.level).isSome

/-- No other landing the core serves has an earlier head that it could hand over (R154). -/
def State.earliestHead (s : State) (g st : Nat) (x : Landed) (lc : Nat) : Bool :=
  (s.core lc).subs.all fun p =>
    p == (g, st) ||
      match (s.landing p.1 p.2).recs.head? with
      | none => true
      | some y => !(landedBefore y x && s.mayHand (s.landing p.1 p.2) y.rcd lc)

/-- The key by which a landing picks a core: THRESH, occupied entries, number. -/
def State.handKey (s : State) (lc : Nat) : Nat × Nat × Nat := ((s.core lc).thresh, (s.core lc).inbox.length, lc)

def keyLess (a b : Nat × Nat × Nat) : Bool :=
  a.1 < b.1 || (a.1 == b.1 && (a.2.1 < b.2.1 || (a.2.1 == b.2.1 && a.2.2 < b.2.2)))

/-- A landing hands its head to a core, or drops it where a mark matches it (R154, R165). -/
def execLandingHandoff (g st : Nat) (s : State) : Out :=
  let l := s.landing g st
  match l.recs with
  | [] => .next s
  | x :: rs =>
    let s1 := s.setLanding g st { l with recs := rs }
    if s.marked g x.rcd.q1 then .next (s1.cancelDrop (l.home / 16) x.rcd)
    else
      match s.landedRec g st x with
      | none => .next ((s1.dropAt (l.home / 16) x.rcd [.drop]).count cUEDROP (l.home / 16))
      | some rcd =>
      match leastBy (fun a b => keyLess (s.handKey a) (s.handKey b))
          (l.subs.filter fun c => s.mayHand l x.rcd c && s.earliestHead g st x c) with
      | none => .next s
      | some lc =>
        let s2 := s.setLanding g st { l with recs := rs, handed := mput 0 lc (tget 0 l.handed lc + 1) l.handed }
        .next (s2.addFlight ⟨rcd.toCore s.devid.toNat lc, .landing g st, .core lc, x.marked, true, false⟩)

/-! ### The stage governor (R155 to R158) -/

/-- LANDCFG of a landing. -/
def State.landCfg (s : State) (p : Nat × Nat) : Word := s.entry 5 (64 * p.1 + p.2)

/-- A subscription is added or removed; LMOVE counts it (R157). -/
def State.subscribe (s : State) (p : Nat × Nat) (lc : Nat) : State :=
  let l := s.landing p.1 p.2
  let c := s.core lc
  ((s.setLanding p.1 p.2 { l with subs := l.subs ++ [lc] }).setCore lc { c with subs := c.subs ++ [p] }).count cLMOVE (s.partOf lc)

def State.unsubscribe (s : State) (p : Nat × Nat) (lc : Nat) : State :=
  let l := s.landing p.1 p.2
  let c := s.core lc
  ((s.setLanding p.1 p.2 { l with subs := l.subs.filter (· != lc) }).setCore lc
    { c with subs := c.subs.filter (· != p) }).count cLMOVE (s.partOf lc)

/-- Occupancy of a landing: floor(q / max(1, n)). -/
def Landing.occupancy (l : Landing) : Nat := l.recs.length / max 1 l.subs.length

/-- A landing wants a core; it offers one. -/
def State.wants (s : State) (p : Nat × Nat) : Bool :=
  let l := s.landing p.1 p.2
  let c := s.landCfg p
  l.subs.length < bits c 34 10 || (l.occupancy ≥ bits c 16 8 && l.subs.length < bits c 24 10)
def State.offers (s : State) (p : Nat × Nat) : Bool :=
  let l := s.landing p.1 p.2
  let c := s.landCfg p
  l.occupancy ≤ bits c 8 8 && l.subs.length > bits c 34 10

/-- The cores of a landing's pool. -/
def State.pool (s : State) (p : Nat × Nat) : List Nat :=
  let c := s.landCfg p
  span (bits c 54 10) (bits c 44 10 + 1 - bits c 54 10)

/-- The order in which wanting landings are served: the highest weight first, then the fuller, then the lower (slot, station). -/
def State.servedBefore (s : State) (a b : Nat × Nat) : Bool :=
  let w := fun p => bits (s.landCfg p) 0 8
  let o := fun p : Nat × Nat => (s.landing p.1 p.2).occupancy
  w b < w a || (w a == w b && (o b < o a || (o a == o b && 64 * a.1 + a.2 < 64 * b.1 + b.2)))

/-- The order in which offering landings give: the lowest weight first. DESIGN CHOICE (log entry 59): of equal weights the
lower (slot, station), on which R157 is silent. -/
def State.givesBefore (s : State) (a b : Nat × Nat) : Bool :=
  let w := fun p => bits (s.landCfg p) 0 8
  w a < w b || (w a == w b && 64 * a.1 + a.2 < 64 * b.1 + b.2)

/-- Serve one wanting landing: a pool core with no subscription, else one of the lowest-weighted offering
landing that has not given yet. The answer names the landing that gave. -/
def State.serve (s : State) (p : Nat × Nat) (offering : List (Nat × Nat)) : State × Option (Nat × Nat) :=
  match (s.pool p).find? fun c => (s.core c).subs.isEmpty && !s.heldCore c with
  | some c => (s.subscribe p c, none)
  | none =>
    let donors := fun q : Nat × Nat =>
      (s.pool p).filter fun c => (s.landing q.1 q.2).subs.contains c && !s.heldCore c && !(s.core c).subs.contains p
    match leastBy s.givesBefore (offering.filter fun q => donors q != []) with
    | none => (s, none)
    | some q =>
      match (donors q).getLast? with
      | none => (s, none)
      | some c => ((s.unsubscribe q c).subscribe p c, some q)

/-- Serve the wanting landings in order; the answer holds the offering landings that have not given. -/
def State.serveAll (s : State) : List (Nat × Nat) → List (Nat × Nat) → State × List (Nat × Nat)
  | [], offering => (s, offering)
  | p :: l, offering =>
    match s.serve p offering with
    | (s1, some q) => s1.serveAll l (offering.filter (· != q))
    | (s1, none) => s1.serveAll l offering

/-- Sort a list by a strict order, equal ones in their order. -/
def sortBy {α : Type} (before : α → α → Bool) : List α → List α
  | [] => []
  | x :: l => insertBy (fun a b => !before b a) x (sortBy before l)

/-- The landings homed on a die. -/
def State.landingsOf (s : State) (die : Nat) : List (Nat × Nat) :=
  (s.prog.graphs.flatMap fun g => (span 0 g.2.stations).map fun st => (g.1, st)).filter
    fun p => (s.landing p.1 p.2).home / 16 == die

/-- A landing that has been empty at two evaluations and gave nothing lets its highest subscriber go. -/
def State.letGo (s : State) (p : Nat × Nat) : State :=
  let l := s.landing p.1 p.2
  match (sortBy (fun a b => decide (a < b)) l.subs).getLast? with
  | some c => if l.empties ≥ 2 then s.unsubscribe p c else s
  | none => s

/-- The LWEIGHT call of a landing that wants a core. -/
def State.askWeight (s : State) (p : Nat × Nat) : State :=
  s.raiseOnce (s.fnPlug (s.fnOf p.1)) ⟨.lweight p.1 p.2, [BitVec.ofNat 64 p.1, BitVec.ofNat 64 p.2, BitVec.ofNat 64 (s.landing p.1 p.2).occupancy]⟩

/-- A landing's weight is still to come. -/
def State.weightDue (s : State) (p : Nat × Nat) : Bool := s.plugins.any fun e => e.2.queue.any fun c => c.what == .lweight p.1 p.2

/-- The governor serves, and what has given nothing lets go; a slot that has gone in the meantime has no landing. -/
def State.governed (s : State) (die : Nat) (want offer : List (Nat × Nat)) : State :=
  let here := fun p : Nat × Nat => (s.graph p.1).isSome
  let (s1, rest) := (s.setDie die { s.die die with governing := none }).serveAll (sortBy s.servedBefore (want.filter here)) (offer.filter here)
  rest.foldl (fun s p => s.letGo p) s1

/-- An evaluation of the stage governor of a die (R157): the landings that want a core are weighed by their plug-ins, and
then served. -/
def execStageGovernorEval (die : Nat) (s : State) : Out :=
  match (s.die die).governing with
  | some (want, offer) => .next (if want.any s.weightDue then s else s.governed die want offer)
  | none =>
    let ls := s.landingsOf die
    let s1 := ls.foldl (fun s p =>
      let l := s.landing p.1 p.2
      s.setLanding p.1 p.2 { l with empties := if l.recs = [] then l.empties + 1 else 0 }) s
    let want := ls.filter s.wants
    let s2 := want.foldl (fun s p => s.askWeight p) s1
    .next (if want.any s2.weightDue then s2.setDie die { s2.die die with governing := some (want, ls.filter s.offers) }
      else s2.governed die want (ls.filter s.offers))

end Sys2Proof.Machine
end

