-- ==== Sys2Proof/Machine/Progress.lean ====
section
/-! DEFINITION. Counts on their way to the root, frontiers, notifications and launch completion (R124 to
R137). -/

namespace Sys2Proof.Machine

/-! ### Words in a function's memory, as the front end reaches them (R41, R42) -/

/-- The holder that stands for the front end at work under a number, and for the quay copy engine of a COPY. -/
def frontHolder (key : Nat) : Nat := 4096 + 64 * key + 33
def quayHolder (key : Nat) : Nat := 4096 + 64 * key + 32

/-- The physical addresses of n bytes at a virtual address of a function, for a holder. -/
def State.vaSpan (s : State) (f va n need : Nat) (holder : Nat := frontHolder 0) : XlSpan :=
  if va + n > 2 ^ 56 then .trap ADDRESS else s.xlateSpan 0 [holder] (s.fnPart f) (s.fnCtx f) va n need

/-! ### Frontiers (R129) -/

/-- The key of a station time in a root table. -/
def stKey (st : Nat) (t : Word) : Nat := st * 2 ^ 64 + t.toNat

/-- The lesser of two times; none stands for no time. -/
def minTime (a b : Option Word) : Option Word :=
  match a, b with
  | none, y => y
  | x, none => x
  | some x, some y => if timeLt y x then some y else some x

/-- The time to which the table carries a station time. -/
def Graph.carry (gr : Graph) (a s : Nat) (t : Word) : Option Word :=
  if sumV (gr.path a s) then applySum (gr.path a s) t else none

/-- The least time that the positive entries of a table give at a station, over the stations a test
admits. -/
def earliest (gr : Graph) (s : Nat) (keep : Nat → Bool) : Table Int → Option Word
  | [] => none
  | (k, n) :: l =>
    let a := k / 2 ^ 64
    let x := if n > 0 ∧ keep a then gr.carry a s (BitVec.ofNat 64 k) else none
    minTime x (earliest gr s keep l)

/-- A(s) and Q(s), and the frontier Φ(s) (R129). -/
def Root.reach (r : Root) (gr : Graph) (s : Nat) : Option Word :=
  minTime (earliest gr s (fun _ => true) r.counts) (earliest gr s (fun a => a != s) r.requests)
def Root.watched (r : Root) (s : Nat) : Option Word :=
  r.requests.foldl (fun m e => if e.2 > 0 ∧ e.1 / 2 ^ 64 = s then minTime m (some (BitVec.ofNat 64 e.1)) else m) none
def Root.frontier (r : Root) (gr : Graph) (s : Nat) : Option Word := minTime (r.reach gr s) (r.watched s)

/-- A time is closed at a station (R129). -/
def Root.closed (r : Root) (gr : Graph) (s : Nat) (t : Word) : Bool :=
  match r.frontier gr s with
  | none => true
  | some f => timeLt t f

/-! ### Applying a delta (R126, R134, R136) -/

/-- Add to an entry of a root table; an entry of 0 goes. -/
def addCount (k : Nat) (n : Int) (t : Table Int) : Table Int := mput 0 k (tget 0 t k + n) t

/-- The completion point of the open launch to which an abort or a drop at a time p is attributed: the
latest at or before p, or the earliest (R136). DESIGN CHOICE (log entry 56): where Apply gives no time, or there is no such
station, it is the latest of all open launches; R136 says nothing of that case. -/
def Root.attributed (r : Root) (p : Option Word) : Option Word :=
  let pts := r.launches.map Launch.point
  let below := match p with
    | none => pts
    | some q => pts.filter fun x => !timeLt q x
  match leastBy (fun a b => timeLt b a) below with
  | some x => some x
  | none => leastBy timeLt pts

/-- Put a mark on a launch: the class of the first abort stays (R136). -/
def Launch.note (l : Launch) : Mark → Launch
  | .abort c => { l with aborted := min (l.aborted + 1) (2 ^ 32 - 1), cls := if l.aborted = 0 then c else l.cls }
  | .drop => { l with err := true }

/-- Launches of one completion point, or of one time word with one of these, share their values (R136). -/
def Root.noteMark (r : Root) (p : Option Word) (m : Mark) : Root :=
  match r.attributed p with
  | none => r
  | some pt =>
    let ts := (r.launches.filter fun l => l.point == pt).map Launch.t
    { r with launches := r.launches.map fun l => if l.point == pt || ts.contains l.t then l.note m else l }

/-- Apply one delta of a batch to the table of its slot. -/
def Root.apply (r : Root) (gr : Graph) (d : Delta) : Root :=
  match d.request with
  | some i => { r with requests := addCount (stKey d.st d.t) d.n r.requests, images := r.images ++ [i] }
  | none =>
    d.marks.foldl (fun r m => r.noteMark (gr.carry d.st gr.exit d.t) m)
      { r with counts := addCount (stKey d.st d.t) d.n r.counts }

/-! ### What a root step brings about (R134, R136, R137) -/

/-- Requests that a cancel mark matches are dropped at the root. -/
def Root.dropRequests (r : Root) : Root :=
  let hit := fun i : Rec => r.marks.any fun m => matchesPrefix i.q1 m.t m.depth
  { r with
    requests := (r.images.filter hit).foldl (fun t i => addCount (stKey i.station i.q1) (-1) t) r.requests
    images := r.images.filter fun i => !hit i }

/-- A request can be released (R134). -/
def Root.deliverable (r : Root) (gr : Graph) (i : Rec) : Bool :=
  r.watched i.station == some i.q1 &&
    match r.reach gr i.station with
    | none => true
    | some a => timeLt i.q1 a

/-- The order in which the requests of one root step are sent; equal ones keep theirs. -/
def requestBefore (a b : Rec) : Bool := a.station < b.station || (a.station == b.station && timeLt a.q1 b.q1)

/-- The record of a notification (R134). -/
def notification (i : Rec) : Rec := { i with q2 := i.q1, q3 := BitVec.ofNat 64 i.station }

/-- Release every deliverable request: its count moves, and its record is sent. -/
def State.releaseRequests (s : State) (g : Nat) (gr : Graph) : State :=
  let r := s.root g
  let out := sortBy requestBefore (r.images.filter (r.deliverable gr))
  let r1 := { r with
    requests := out.foldl (fun t i => addCount (stKey i.station i.q1) (-1) t) r.requests
    counts := out.foldl (fun t i => addCount (stKey i.station i.q1) 1 t) r.counts
    images := r.images.filter fun i => !r.deliverable gr i }
  out.foldl (fun s i => s.send (.root (g / 8)) (notification i) false) (s.setRoot g r1)

/-- The launch status word (R42, R136). -/
def Launch.statusOf (l : Launch) : Word :=
  BitVec.ofNat 64 (l.aborted * 2 ^ 32 + l.cls % 256 * 2 ^ 8 + l.cancelled.toNat * 2 + (l.err || l.aborted != 0).toNat)

/-- Mark the work of a started packet as over (R40); the address that failed, if one did. -/
def State.packetOver (s : State) (f v i : Nat) (e : PacketEnd) (w : Option Word) (failed : Option Word := none) : State :=
  let x := s.vcp f v
  s.setVcp f v { x with started := x.started.map fun p => if p.index = i then { p with ending := some (e, w), failed := failed } else p }

/-- The work of a LAUNCH is over, with its status word. -/
def State.launchOver (s : State) (f v i : Nat) (w : Word) : State :=
  s.packetOver f v i (if bit w 0 || bit w 1 then .error 0 else .ok) (some w)

/-- A launch completes: the work of its packet is over, here or in the module that opened it. -/
def State.completeLaunch (s : State) (l : Launch) : State :=
  match l.packet with
  | some (f, v, i) =>
    if l.dev = s.devid.toNat then s.launchOver f v i l.statusOf else s.sendMsg l.dev (.completed f v i l.statusOf)
  | none => s

/-- The later of the high point and a completion point (R132). -/
def highest (a : Option Word) (p : Word) : Option Word :=
  match a with
  | none => some p
  | some q => if timeLt q p then some p else some q

/-- The high point of a slot once launches have completed: the latest completion point (R132). A launch of no task has none
here: it never opens. -/
def Root.raised (r : Root) (out : List Launch) : Option Word := out.foldl (fun h l => highest h l.point) r.high

/-- A launch reopens times that have closed: its completion point is at or before the high point, and there is one (R132). -/
def Root.reopens (r : Root) (point : Word) : Bool := r.high.any fun h => !timeLt h point

/-- The open launches of a slot that a CANCEL matches: those below a number (R42). -/
def Root.cancelOpen (r : Root) (m : CancelMark) (limit : Nat) : List Launch :=
  r.launches.filter fun l => decide (l.serial < limit) && matchesPrefix l.t m.t m.depth

/-- The CANCELs of other modules that no open launch of a slot keeps waiting are over (R42, R127). -/
def State.answerAsked (s : State) (g : Nat) : State :=
  let ended := fun x : Asked => x.g == g && (s.root g).cancelOpen x.mark x.limit == []
  (s.prog.asked.filter ended).foldl
    (fun s x => s.sendMsg x.dev (.completed x.key.1 x.key.2.1 x.key.2.2 (BitVec.ofNat 64 x.matched)))
    { s with prog := { s.prog with asked := s.prog.asked.filter fun x => !ended x } }

/-- Complete the launches that a test selects: the high point rises to their completion points (R132, R136). -/
def State.completeLaunches (s : State) (g : Nat) (done : Launch → Bool) : State :=
  let r := s.root g
  let out := r.launches.filter done
  let s1 := s.setRoot g { r with
    launches := r.launches.filter fun l => !done l, high := r.raised out }
  (out.foldl (fun s l => s.completeLaunch l) s1).answerAsked g

/-- The latest time of a station's depth that matches a mark (R137). -/
def CancelMark.last (m : CancelMark) (depth : Nat) : Word :=
  let c := fun i => if i ≥ depth then 0 else if i < m.depth then counterOf m.t i else 32767
  BitVec.ofNat 64 (depth * 2 ^ 60 + c 3 * 2 ^ 45 + c 2 * 2 ^ 30 + c 1 * 2 ^ 15 + c 0)

/-- No time that matches a mark is open at any station (R137). -/
def Root.markDone (r : Root) (gr : Graph) (m : CancelMark) : Bool :=
  (span 0 gr.stations).all fun st => gr.depth st < m.depth || r.closed gr st (m.last (gr.depth st))

/-- The marks of a slot that nothing can match any more are removed, here and in the other modules of its domain (R137). -/
def State.removeMarks (s : State) (g : Nat) (gr : Graph) : State :=
  let r := s.root g
  let gone := r.marks.filter (r.markDone gr)
  let s1 := s.setRoot g { r with marks := r.marks.filter fun m => !r.markDone gr m }
  gone.foldl (fun s m => (s.domainOf g).foldl (fun s d => s.sendMsg d (.unmark g m.depth m.t)) s) s1

/-- What follows an application of deltas: dropped requests, released requests, completed launches, and
marks that nothing can match any more. A failed slot stands still (R242); so does one that another module homes, whose
home root says what is complete and which marks are gone (R127). -/
def State.settle (s : State) (g : Nat) : State :=
  match s.graph g with
  | none => s
  | some gr =>
    if (s.root g).failed || !s.homed g then s
    else
      let s1 := (s.setRoot g (s.root g).dropRequests).releaseRequests g gr
      let r := s1.root g
      (s1.completeLaunches g fun l => r.closed gr gr.exit l.point).removeMarks g gr

/-- The station times of a root table: those that hold a count or are watched. -/
def Root.times (r : Root) : Nat := r.counts.length + (r.requests.filter fun e => (tfind r.counts e.1).isNone).length

/-- The station times of a quay die's root table, with those that wait to leave for another module, and its pending
requests (R126, R128, R135). -/
def State.rootTimes (s : State) (q : Nat) : Nat :=
  (span (8 * q) 8).foldl (fun n g => n + (s.root g).times) (entriesOf (s.node (296 + q)))
def State.rootRequests (s : State) (q : Nat) : Nat :=
  (span (8 * q) 8).foldl (fun n g => n + (s.root g).images.length) 0

/-- A step of a quay die's root: the station times and the requests that it places in the spill area are counted (R128,
R135). -/
def State.spilling (s : State) (q : Nat) (step : State → State) : State :=
  let s1 := step s
  let excess := fun (room : Nat) (f : State → Nat → Nat) => (f s1 q - room) - (f s q - room)
  (s1.countBy cRSPILL q (excess Config.rootTable State.rootTimes)).countBy cNSPILL q (excess Config.requestStore State.rootRequests)

/-- The table of a slot takes deltas. -/
def State.takeDeltas (s : State) (g : Nat) (gr : Graph) (ds : List Delta) : State :=
  s.setRoot g (ds.foldl (fun r d => r.apply gr d) (s.root g))

/-- Apply the deltas of a slot, as one root step. A slot whose home is another module has no counts here: they wait to
leave for it (R127). -/
def State.applyDeltas (s : State) (g : Nat) (ds : List Delta) : State :=
  match s.graph g with
  | none => s
  | some gr =>
    if s.homed g then (s.spilling (g / 8) fun s => s.takeDeltas g gr ds).settle g
    else s.spilling (g / 8) fun s => ds.foldl (fun s d => s.postNode (rootNode g) d) s

/-- An uncorrectable progress table, root table or spill area: the slot fails and every open launch of it
completes with bit 0 (R242). -/
def State.failSlot (s : State) (g : Nat) : State :=
  match s.graph g with
  | none => s
  | some _ =>
    let r := s.root g
    if r.failed then s
    else
      ((s.setRoot g { r with
        failed := true, launches := r.launches.map fun l => { l with err := true } }).completeLaunches g fun _ => true).count
        cSLOTFAIL (g / 8)

/-! ### The steps of the tree (R124, R125, R128) -/

/-- The flush deadline of a core's progress buffer (R124). -/
def execProgressFlushDeadline (lc : Nat) (s : State) : Out := .next (s.flush lc)

/-- The batch at k is not behind another from its source to the same node. -/
def State.batchFirst (s : State) (k : Nat) (b : Batch) : Bool :=
  !((s.prog.batches.take k).any fun x => x.src == b.src && x.dst == b.dst)

def State.dropBatch (s : State) (k : Nat) : State :=
  { s with prog := { s.prog with batches := removeAt s.prog.batches k } }

/-- A batch reaches a node of the tree that takes it. -/
def execTreeBatchArrival (k : Nat) (s : State) : Out :=
  match s.prog.batches[k]? with
  | none => .next s
  | some b =>
    if b.dst ≥ 296 || !s.batchFirst k b || !s.accepts b.dst then .next s
    else .next (b.deltas.foldl (fun s d => s.postNode b.dst d) (s.dropBatch k))

/-- The parent of a tile or a cluster node. -/
def parentNode (node : Nat) : Nat := if node < 256 then 256 + node / 8 else 288 + (node - 256) / 4

/-- Send a nonempty batch. -/
def State.sendBatch (s : State) (src dst : Nat) (ds : List Delta) : State := if ds = [] then s else s.addBatch ⟨src, dst, ds⟩

/-- The deltas on their way to the root of a slot. -/
def State.moving (s : State) (g : Nat) : List Delta :=
  (s.cores.flatMap (fun c => c.2.progress) ++ s.prog.nodes.flatMap Prod.snd ++ s.prog.batches.flatMap Batch.deltas).filter
    fun d => d.g == g

/-- A root table keeps every time open at which a record or a request exists: those are the station times whose counts
come to more than 0 with all that is on its way (R129, R131). -/
def State.covers (s : State) (g : Nat) (gr : Graph) (r : Root) : Bool :=
  let ds := s.moving g
  let counts := ds.foldl (fun t d => if d.request.isNone then addCount (stKey d.st d.t) d.n t else t) (s.root g).counts
  counts.all (fun e => decide (e.2 ≤ 0) || !r.closed gr (e.1 / 2 ^ 64) (BitVec.ofNat 64 e.1)) &&
    ds.all fun d => d.request.isNone || !r.closed gr d.st d.t

/-- An increment of a slot is on its way below the roots, in a batch or at another node than one (R131). -/
def State.plusBelow (s : State) (node g : Nat) : Bool :=
  let plus := fun l : List Delta => l.any fun d => d.g == g && decide (0 ≤ d.n)
  (s.prog.nodes.any fun x => x.1 != node && x.1 != 296 && x.1 != 297 && plus x.2) || s.prog.batches.any fun b => plus b.deltas

/-- The deltas of a slot may go on together from a node: no frontier advances falsely (R131). One that has gone ahead before
is not this step's. Of a slot that another module homes, whose counts are not here, a decrement goes once no increment is
behind it. -/
def State.safeWith (s : State) (node : Nat) (ds : List Delta) (g : Nat) : Bool :=
  match s.graph g with
  | none => true
  | some gr =>
    if !s.homed g then !s.plusBelow node g else
    s.covers g gr ((ds.filter fun d => d.g == g).foldl (fun r d => r.apply gr d) (s.root g)) ||
      !s.covers g gr (s.root g)

/-- The decrements of a list that may leave with what goes already, and those that stay. -/
def State.pickNegatives (s : State) (node : Nat) : List Delta → List Delta → List Delta × List Delta
  | go, [] => (go, [])
  | go, d :: l =>
    if s.safeWith node (go ++ [d]) d.g then s.pickNegatives node (go ++ [d]) l
    else
      let r := s.pickNegatives node go l
      (r.1, d :: r.2)

/-- What a node sends to a root, and what it keeps: every increment goes, and of the decrements, which a node may hold
for as long as it likes (R125), those by which no frontier advances falsely (R131; log entry 22). While another batch
is on its way to the root every decrement stays. -/
def State.toRoot (s : State) (node q : Nat) (l : List Delta) : List Delta × List Delta :=
  let plus := l.filter fun d => decide (0 ≤ d.n)
  let minus := l.filter fun d => !decide (0 ≤ d.n)
  if s.prog.batches.any fun b => b.dst == 296 + q then (plus, minus) else s.pickNegatives node plus minus

/-- The link to a device can take a message of a channel at once: nothing of the channel waits and it has a credit. -/
def State.canSend (s : State) (dev : Nat) (m : Msg) : Bool :=
  match s.linkTo s.devid.toNat dev with
  | none => false
  | some k =>
    let l := s.link k
    let f := newFlit 1 s.devid.toNat dev m
    l.up && !l.training && l.maySend k f && !(l.waiting.any fun x => x.h.vc == f.h.vc)

/-- A root sends what it has accumulated for the slots of one home as one message, where its link can take it (R127,
R128). -/
def State.toHome (s : State) (q home : Nat) : State :=
  let l := s.node (296 + q)
  let m := Msg.deltas (l.filter fun d => s.homeOf d.g == home)
  if s.canSend home m then (s.setNode (296 + q) (l.filter fun d => s.homeOf d.g != home)).sendMsg home m else s

/-- A root takes a batch: one of slots homed here never waits, another waits while the spill area is full (R128). -/
def State.rootTakes (s : State) (q : Nat) (b : Batch) : Bool :=
  b.deltas.all (fun d => s.homed d.g) || decide (s.rootTimes q < Config.rootTable + Config.spillRoom) || s.node (296 + q) == []

/-- What a die sends a root of its slots, and what it keeps: nothing goes to a root that does not take it (R128). -/
def State.offered (s : State) (node q : Nat) (l : List Delta) : List Delta × List Delta :=
  let r := s.toRoot node q l
  if s.rootTakes q ⟨node, 296 + q, r.1⟩ then r else ([], l)

/-- A node forwards what it has accumulated as one batch where its parent takes it; a die, and a quay die's own node,
sends each root its slots; a root sends home what belongs to another module's root (R125 to R128). -/
def execTreeNodeForward (node : Nat) (s : State) : Out :=
  let l := s.node node
  if l = [] ∨ node ≥ 300 then .next s
  else if node < 288 then
    if s.accepts (parentNode node) then .next ((s.setNode node []).sendBatch node (parentNode node) l) else .next s
  else if node = 296 ∨ node = 297 then
    match l with
    | [] => .next s
    | d :: _ => .next (s.toHome (node - 296) (s.homeOf d.g))
  else
    let l0 := l.filter fun d => d.g < 8
    let l1 := l.filter fun d => d.g ≥ 8
    let r0 := s.offered node 0 l0
    let r1 := s.offered node 1 l1
    .next (((s.setNode node (r0.2 ++ r1.2)).sendBatch node 296 r0.1).sendBatch node 297 r1.1)

/-- The slots a batch names, each once. -/
def slotsOf : List Delta → List Nat
  | [] => []
  | d :: l => let r := slotsOf l; if r.contains d.g then r else d.g :: r

/-- The root applies a batch atomically (R126). -/
def execRootApplyBatch (k : Nat) (s : State) : Out :=
  match s.prog.batches[k]? with
  | none => .next s
  | some b =>
    if b.dst < 296 || !s.batchFirst k b || !s.rootTakes (b.dst - 296) b then .next s
    else .next ((slotsOf b.deltas).foldl (fun s g => s.applyDeltas g (b.deltas.filter fun d => d.g == g)) (s.dropBatch k))

/-- The frontier of a station as this module knows it: its own root's, or what the home root has announced (R127). -/
def State.known (s : State) (g : Nat) (gr : Graph) (st : Nat) : Option (Option Word) :=
  if s.homed g then some ((s.root g).frontier gr st) else tfind (s.root g).announced st

/-- The root announces a frontier to a die, whose copy takes it; none of a failed slot advances again (R130, R242). -/
def execFrontierAnnounce (g st die : Nat) (s : State) : Out :=
  match s.graph g with
  | none => .next s
  | some gr =>
    match (if (s.root g).failed then none else s.known g gr st) with
    | none => .next s
    | some t => .next (s.setDie die { s.die die with frontiers := tput (64 * g + st) t (s.die die).frontiers })

/-- The home root announces a frontier to a member module (R127, R130). -/
def State.announceTo (s : State) (g st dev : Nat) : State :=
  match s.graph g with
  | none => s
  | some gr =>
    if s.homed g && !(s.root g).failed && dev != s.devid.toNat then s.sendMsg dev (.frontier g st ((s.root g).frontier gr st)) else s

/-! ### Launches (R126, R127, R132, R136) -/

/-- A launch opens at the root: launches of one time share their values, a mark that matches has cancelled it, and a
completion point at or before the high point is counted. -/
def State.openLaunch (s : State) (g st : Nat) (t point : Word) (dev : Nat) (packet : Option (Nat × Nat × Nat)) : State :=
  let r := s.root g
  let same := r.launches.find? fun l => l.t == t
  let l : Launch :=
    { st := st, t := t, point := point, packet := packet, dev := dev, serial := r.serial
      aborted := (same.map Launch.aborted).getD 0, cls := (same.map Launch.cls).getD 0, err := (same.map Launch.err).getD false
      cancelled := (same.map Launch.cancelled).getD false }
  let s1 := s.setRoot g { r with launches := r.launches ++ [r.marks.foldl (fun l m => l.meetMark m) l], serial := r.serial + 1 }
  if r.reopens point then s1.count cLREOPEN g else s1

/-- A launch opens with the counts of its n records. -/
def State.countLaunch (s : State) (g st : Nat) (t point : Word) (n dev : Nat) (packet : Option (Nat × Nat × Nat)) : State :=
  (s.openLaunch g st t point dev packet).applyDeltas g [⟨g, st, t, n, none, []⟩]

end Sys2Proof.Machine
end

