-- ==== Sys2Proof/Machine/VecOps.lean ====
section
/-! DEFINITION. Vector arithmetic on the bits of registers (R346 to R371): elements, units and masks, and
what each form makes of its sources. A register, or the concatenation of a gang's registers, is one
number whose bit 0 is bit 0 of element 0. -/

namespace Sys2Proof.Machine

/-- The format of a float or minifloat tag (R170). -/
def fmtOfTag (fd : Vector (BitVec 32) 8) (t : BitVec 4) : Fmt :=
  match t.toNat with
  | 5 => f32
  | 6 => bf16
  | 7 => f16
  | _ => fdFmt (descOf fd t)

/-! ### Element by element -/

/-- What an element operation makes of elements a, b and d at a position: a code and flags. -/
abbrev ElemOp := Nat → Nat → Nat → Nat → Nat × BitVec 5

/-- Apply an operation to the elements below n of one register: active elements change and give their
flags (R348, R356). pos numbers element 0 of this register among the concatenated ones. -/
def mapEls (op : ElemOp) (w pos : Nat) (act : Nat → Bool) (a b d : Nat) : Nat → Nat × BitVec 5
  | 0 => (0, 0)
  | n + 1 =>
    let (x, fl) := mapEls op w pos act a b d n
    if act (pos + n) then
      let r := op (getEl a w n) (getEl b w n) (getEl d w n) (pos + n)
      (x + r.1 % 2 ^ w * 2 ^ (w * n), fl ||| r.2)
    else (x + getEl d w n * 2 ^ (w * n), fl)

/-- The draw of a position (R260), and the modes under which an element is rounded. -/
def drawAt (gen : Word) (pos : Nat) : Nat := drawOf (genAfter gen (pos + 1))
def modeAt (c : BitVec 5) (gen : Word) (pos : Nat) : Mode :=
  ⟨rndOf c, fzoOf c, if rndOf c = .sr then drawAt gen pos else 0⟩

/-- A signed result clamped to w bits, and an unsigned one (R246). -/
def clampInt (w : Nat) (x : Int) : Nat :=
  let y := if x < -(2 ^ (w - 1)) then -(2 ^ (w - 1)) else if x > 2 ^ (w - 1) - 1 then 2 ^ (w - 1) - 1 else x
  (y % 2 ^ w).toNat
def clampNat (w : Nat) (x : Int) : Nat := if x < 0 then 0 else if x > 2 ^ w - 1 then 2 ^ w - 1 else x.toNat

/-- A result modulo 2^w. -/
def wrapInt (w : Nat) (x : Int) : Nat := (x % 2 ^ w).toNat

/-- The integer forms (R355). -/
inductive IntOp where
  | add | sub | mul | madd | min | max | adds | subs | addus | subus | minu | maxu
  | and | or | xor | shl | shr | sra | abs
  deriving DecidableEq, Repr

def IntOp.eval (o : IntOp) (w a b d : Nat) : Nat :=
  match o with
  | .add => (a + b) % 2 ^ w
  | .sub => wrapInt w ((a : Int) - b)
  | .mul => a * b % 2 ^ w
  | .madd => (d + a * b) % 2 ^ w
  | .min => if sint w a < sint w b then a else b
  | .max => if sint w a < sint w b then b else a
  | .adds => clampInt w (sint w a + sint w b)
  | .subs => clampInt w (sint w a - sint w b)
  | .addus => clampNat w ((a : Int) + b)
  | .subus => clampNat w ((a : Int) - b)
  | .minu => Nat.min a b
  | .maxu => Nat.max a b
  | .and => a &&& b
  | .or => a ||| b
  | .xor => a ^^^ b
  | .shl => a * 2 ^ (b % w) % 2 ^ w
  | .shr => a / 2 ^ (b % w)
  | .sra => wrapInt w (sint w a / 2 ^ (b % w))
  | .abs => wrapInt w (sint w a).natAbs

/-- The floating forms (R356 to R358). -/
inductive FloatOp where
  | add | sub | mul | madd | min | max | div | abs | sqrt | rcp | rsqrt | exp2 | log2 | tanh
  deriving DecidableEq, Repr

/-- A form that rounds: the exact result of decoded sources. -/
def FloatOp.exact (o : FloatOp) (rdn : Bool) (a b d : FVal) : FRes :=
  match o with
  | .add => fAdd rdn a b
  | .sub => fAdd rdn a b.neg
  | .mul => fMul a b
  | .madd => fFma rdn a b d
  | .div => fDiv a b
  | .sqrt => fSqrt a
  | .rcp => fRcp a
  | .rsqrt => fRsqrt a
  | .exp2 => fExp2 a
  | .log2 => fLog2 a
  | .tanh => fTanh a
  | .min => fPick false a b
  | .max => fPick true a b
  | .abs =>
    match a with
    | .nan s => nanOf s
    | .inf _ => (.inf false, 0)
    | .fin _ m e k => (.fin false m e k, 0)

/-- A form computes a new value, which is rounded. -/
def FloatOp.rounds : FloatOp → Bool
  | .min | .max | .abs => false
  | _ => true

/-- One element of a floating form under captured modes. -/
def FloatOp.eval (o : FloatOp) (f : Fmt) (c : BitVec 5) (gen : Word) (a b d pos : Nat) : Nat × BitVec 5 :=
  let v := f.decode (fziOf c)
  let x := o.exact (rndOf c == .rdn) (v a) (v b) (v d)
  if o.rounds then
    let r := f.round (modeAt c gen pos) x.1
    (r.1, r.2 ||| x.2)
  else (f.exact x.1, x.2)

/-! ### Compares (R359) -/

inductive CmpOp where
  | eq | ne | lt | le | ltu | leu
  deriving DecidableEq, Repr

def CmpOp.int (o : CmpOp) (w a b : Nat) : Bool :=
  match o with
  | .eq => a == b
  | .ne => a != b
  | .lt => sint w a < sint w b
  | .le => sint w a ≤ sint w b
  | .ltu => a < b
  | .leu => a ≤ b

def CmpOp.float (o : CmpOp) (x y : FVal) : Bool × BitVec 5 :=
  match o with
  | .eq => fEq x y
  | .ne => let r := fEq x y; (!r.1, r.2)
  | .lt | .ltu => fLt x y
  | .le | .leu => fLe x y

/-- The mask of n elements whose relation a test gives: a bit covers n/64 of them where there are more
than 64, and is 1 when all hold. -/
def maskOf (rel : Nat → Bool) (n : Nat) : Word :=
  let k := if n ≤ 64 then 1 else n / 64
  BitVec.ofNat 64 (buildEls 1 (fun i => ((span (k * i) k).all rel).toNat) (n / k))

/-- The flags of all of n elements. -/
def flagsOf (fl : Nat → BitVec 5) (n : Nat) : BitVec 5 := (span 0 n).foldl (fun x j => x ||| fl j) 0

/-- A compare of n elements of type t: the mask and the flags. -/
def compareEls (o : CmpOp) (t : BitVec 4) (c : BitVec 5) (a b n : Nat) : Word × BitVec 5 :=
  let w := (layoutOf (Vector.replicate 8 0) t).w
  if isIntTag t then (maskOf (fun j => o.int w (getEl a w j) (getEl b w j)) n, 0)
  else
    let f := fmtOfTag (Vector.replicate 8 0) t
    let r := fun j => o.float (f.decode (fziOf c) (getEl a w j)) (f.decode (fziOf c) (getEl b w j))
    (maskOf (fun j => (r j).1) n, flagsOf (fun j => (r j).2) n)

/-! ### Moving units (R363 to R365) -/

/-- Units where the mask is active come from a, the others from b. -/
def selectUnits (ub U : Nat) (mask : Word) (a b : Nat) : Nat :=
  buildEls ub (fun u => if unitActive mask U u then getEl a ub u else getEl b ub u) U

/-- `vperm`: unit j is the unit that byte j of b names, modulo U, within runs of 256 units. -/
def permUnits (ub U a b : Nat) : Nat :=
  buildEls ub (fun j => getEl a ub (if U > 256 then 256 * (j / 256) + getEl b 8 j else getEl b 8 j % U)) U

/-- `vslide`: units move up by a signed amount, zeros follow. -/
def slideUnits (ub U : Nat) (amount : Word) (a : Nat) : Nat :=
  buildEls ub (fun j =>
    let p : Int := (j : Int) - amount.toInt
    if 0 ≤ p ∧ p < U then getEl a ub p.toNat else 0) U

/-- The active units of U, ascending. -/
def activeUnits (mask : Word) (U : Nat) : List Nat := (span 0 U).filter (unitActive mask U)

/-- `vcmpr` and `vexpd`. -/
def compressUnits (ub U : Nat) (mask : Word) (a : Nat) : Nat :=
  let l := activeUnits mask U
  buildEls ub (fun j => match l[j]? with
    | some p => getEl a ub p
    | none => 0) U
def expandUnits (ub U : Nat) (mask : Word) (a : Nat) : Nat :=
  let l := activeUnits mask U
  buildEls ub (fun j => if unitActive mask U j then getEl a ub (l.takeWhile (· < j)).length else 0) U

/-! ### Reductions (R266, R368) -/

inductive RedOp where
  | sum | min | max
  deriving DecidableEq, Repr

/-- The identity of an operation in a type (R266). -/
def RedOp.identity (o : RedOp) (t : BitVec 4) (w : Nat) : Nat :=
  let f := fmtOfTag (Vector.replicate 8 0) t
  match o, isIntTag t with
  | .sum, true => 0
  | .min, true => 2 ^ (w - 1) - 1
  | .max, true => 2 ^ (w - 1)
  | .sum, false => f.signBit true
  | .min, false => f.infCode false
  | .max, false => f.infCode true

/-- One node: the code and the flags; node numbers the draws. -/
def RedOp.node (o : RedOp) (t : BitVec 4) (w : Nat) (c : BitVec 5) (gen : Word) (node x y : Nat) : Nat × BitVec 5 :=
  if isIntTag t then
    (match o with
      | .sum => (x + y) % 2 ^ w
      | .min => if sint w x < sint w y then x else y
      | .max => if sint w x < sint w y then y else x, 0)
  else
    (match o with
      | .sum => FloatOp.add
      | .min => FloatOp.min
      | .max => FloatOp.max).eval (fmtOfTag (Vector.replicate 8 0) t) c gen x y 0 node

/-- One level of the tree: neighbours are combined, from node number k on. -/
def redLevel (nd : Nat → Nat → Nat → Nat × BitVec 5) (k : Nat) : List Nat → List Nat × BitVec 5
  | x :: y :: l =>
    let r := nd k x y
    let (rest, fl) := redLevel nd (k + 1) l
    (r.1 :: rest, r.2 ||| fl)
  | l => (l, 0)

/-- The tree, level by level, n levels at most. -/
def redTree (nd : Nat → Nat → Nat → Nat × BitVec 5) : Nat → Nat → List Nat → Nat × BitVec 5
  | 0, _, l => (l.headD 0, 0)
  | n + 1, k, l =>
    if l.length ≤ 1 then (l.headD 0, 0)
    else
      let (l', fl) := redLevel nd k l
      let (x, fl') := redTree nd n (k + l.length / 2) l'
      (x, fl ||| fl')

/-- Reduce a list of elements under RNE: it is filled up to a power of two with the identity, and has at most 2^17. -/
def reduceList (o : RedOp) (t : BitVec 4) (l : List Nat) : Nat × BitVec 5 :=
  let w := (layoutOf (Vector.replicate 8 0) t).w
  let p := ((span 0 17).find? fun k => decide (l.length ≤ 2 ^ k)).getD 17
  redTree (o.node t w 0 0) 17 0 (l ++ List.replicate (2 ^ p - l.length) (o.identity t w))

/-- Reduce n elements, a power of two of them. -/
def reduceEls (o : RedOp) (t : BitVec 4) (c : BitVec 5) (gen : Word) (mask : Word) (a n : Nat) : Nat × BitVec 5 :=
  let w := (layoutOf (Vector.replicate 8 0) t).w
  redTree (o.node t w c gen) 10 0
    ((span 0 n).map fun j => if unitActive mask n j then getEl a w j else o.identity t w)

/-! ### Conversions (R262, R369) -/

/-- An element's code in one tag, from its code in another (R262, R369): codes are of the layouts' code
widths, a destination integer is a two's complement word. -/
def convertEl (fd : Vector (BitVec 32) 8) (dt st : BitVec 4) (md : Mode) (fzi : Bool) (x : Nat) : Nat × BitVec 5 :=
  let dw := (layoutOf fd dt).w
  let sw := (layoutOf fd st).w
  match isIntTag dt, isIntTag st with
  | true, true => (clampInt dw (sint sw x), 0)
  | true, false =>
    let r := toInt md (-(2 ^ (dw - 1))) (2 ^ (dw - 1) - 1) ((fmtOfTag fd st).decode fzi x)
    (wrapInt dw r.1, r.2)
  | false, true => (fmtOfTag fd dt).round md (ofInt (sint sw x))
  | false, false => (fmtOfTag fd dt).convert (fmtOfTag fd st) md ((fmtOfTag fd st).decode fzi x)

/-- `vcvt` on G registers: the first elements that both formats have are converted where active; the
other elements of d stay. -/
def convertEls (fd : Vector (BitVec 32) 8) (dt st : BitVec 4) (c : BitVec 5) (gen : Word) (mask : Word) (G a d : Nat) :
    Nat × BitVec 5 :=
  let ld := layoutOf fd dt
  let ls := layoutOf fd st
  let n := G * min ld.elems ls.elems
  let act := fun j => decide (j < n) && unitActive mask (G * ld.units) (j / ld.upe)
  mapEls (fun _ _ _ p => convertEl fd dt st (modeAt c gen p) (fziOf c) (getEl a ls.w p)) ld.w 0 act 0 0 d (G * ld.elems)

/-! ### Block scales (R252, R370, R371) -/

/-- The greatest magnitude of a list of values, NaNs aside. -/
def maxMag : List FVal → FVal
  | [] => .zero false
  | x :: l =>
    let y := maxMag l
    let x' := match x with
      | .nan _ => FVal.zero false
      | .inf _ => .inf false
      | .fin _ m e k => .fin false m e k
    if fCmp y x' = .lt then x' else y

/-- x is at most y. -/
def fAtMost (x y : FVal) : Bool := fCmp x y != .gt

/-- y × 2^k. -/
def scaleBy (y : FVal) (k : Int) : FVal :=
  match y with
  | .fin b m e s => .fin b m (e + k) s
  | z => z

/-- The least code from c on, n of them, that passes a test; z where none does. -/
def leastCode (ok : Nat → Bool) (z : Nat) : Nat → Nat → Nat
  | 0, _ => z
  | n + 1, c => if ok c then c else leastCode ok z n (c + 1)

/-- The fine scale format: unsigned E4M3, bias 7, policy 1 (R252). -/
def fineFmt : Fmt := ⟨4, 3, 7, false, 1, false⟩

/-- The scale byte of a group (R370). -/
def scaleOf (d : BitVec 32) (l : List FVal) : Nat :=
  let power := fdBsc d == 1
  let f := fdFmt d
  let mx := f.decode false f.maxCode
  let am := maxMag l
  if l.any FVal.isNan then (if power then 0xFF else 0x7F)
  else if fAtMost am (.zero false) then 0
  else if power then leastCode (fun c => fAtMost am (scaleBy mx ((c : Int) - 127))) 254 255 0
  else leastCode (fun c => fAtMost am (fMul (fineFmt.decode false c) mx).1) 0x7E 0x7F 0

/-- `vbsc` on n elements of a format: the scale bytes of the groups. -/
def blockScales (d : BitVec 32) (f : Fmt) (fzi : Bool) (a n : Nat) : Nat :=
  let z := fdBlock d
  buildEls 8 (fun g => scaleOf d ((span (z * g) (min z (n - z * g))).map fun j => f.decode fzi (getEl a f.width j)))
    ((n + z - 1) / z)

/-- The value of a scale byte (R252). -/
def scaleVal (d : BitVec 32) (b : Nat) : FVal :=
  if fdBsc d = 1 then (if b = 0xFF then .nan false else .fin false 1 ((b : Int) - 127) false)
  else if b ≥ 128 ∨ b = 0x7F then .nan false
  else fineFmt.decode false b

/-- `vbsa` on n elements of a format. -/
def applyScales (d : BitVec 32) (f : Fmt) (c : BitVec 5) (gen : Word) (a b n : Nat) : Nat × BitVec 5 :=
  mapEls (fun x _ _ p =>
    let r := fMul (f.decode (fziOf c) x) (scaleVal d (getEl b 8 (p / fdBlock d)))
    let y := f.round (modeAt c gen p) r.1
    (y.1, y.2 ||| r.2)) f.width 0 (fun _ => true) a 0 0 n

end Sys2Proof.Machine
end

