-- ==== Sys2Proof/Machine/Vector.lean ====
section
/-! DEFINITION. The vector instructions: issue, with its checks and captures (R349 to R353), the sequencer
and its chunks (R171, R172, R354), loops (R372 to R374) and gangs (R375). -/

namespace Sys2Proof.Machine

/-! ### The shapes of the forms -/

/-- What a vector form is about: its operation and its registers. -/
inductive VShape where
  | elem (io : Option IntOp) (fo : Option FloatOp) (t : VTy) (d a : VReg) (b : Option VReg) (m : Reg)
  | cmp (o : CmpOp) (t : VTy) (m : Reg) (a b : VReg)
  /-- mode 0 unit-stride, 1 strided, 2 indexed (R360). -/
  | mem (store near : Bool) (mode : Nat) (t : BitVec 4) (d x : VReg) (m : Reg)
  | mv (d a : VReg) (m : Reg) | sel (d a b : VReg) (m : Reg) | perm (d a b : VReg) | slide (d a : VReg)
  | cmpr (d a : VReg) (m : Reg) | expd (d a : VReg) (m : Reg) | ext (m : Reg) (a : VReg) | ins (d : VReg)
  | zero (d : VReg) | bcs (t : BitVec 4) (d : VReg) | red (o : RedOp) (t : VTy) (d a : VReg) (m : Reg)
  | cvt (dt st : BitVec 4) (d a : VReg) (m : Reg) | bsc (n : Fin 8) (d a : VReg) | bsa (n : Fin 8) (d a b : VReg)
  | tag (d : VReg) (t : BitVec 4) | other
  deriving DecidableEq, Repr

/-- A tag written in a field of an instruction. -/
def tagOf (t : Fin 16) : BitVec 4 := BitVec.ofNat 4 t.val

/-- The shape of an instruction. -/
def shapeOf : Instr → VShape
  | .vadd t d a b m _ => .elem (some .add) (some .add) t d a (some b) m
  | .vsub t d a b m _ => .elem (some .sub) (some .sub) t d a (some b) m
  | .vmul t d a b m _ => .elem (some .mul) (some .mul) t d a (some b) m
  | .vmadd t d a b m _ => .elem (some .madd) (some .madd) t d a (some b) m
  | .vmin t d a b m _ => .elem (some .min) (some .min) t d a (some b) m
  | .vmax t d a b m _ => .elem (some .max) (some .max) t d a (some b) m
  | .vadds t d a b m _ => .elem (some .adds) none t d a (some b) m
  | .vsubs t d a b m _ => .elem (some .subs) none t d a (some b) m
  | .vaddus t d a b m _ => .elem (some .addus) none t d a (some b) m
  | .vsubus t d a b m _ => .elem (some .subus) none t d a (some b) m
  | .vminu t d a b m _ => .elem (some .minu) none t d a (some b) m
  | .vmaxu t d a b m _ => .elem (some .maxu) none t d a (some b) m
  | .vand t d a b m _ => .elem (some .and) none t d a (some b) m
  | .vor t d a b m _ => .elem (some .or) none t d a (some b) m
  | .vxor t d a b m _ => .elem (some .xor) none t d a (some b) m
  | .vshl t d a b m _ => .elem (some .shl) none t d a (some b) m
  | .vshr t d a b m _ => .elem (some .shr) none t d a (some b) m
  | .vsra t d a b m _ => .elem (some .sra) none t d a (some b) m
  | .vdiv t d a b m _ => .elem none (some .div) t d a (some b) m
  | .vabs t d a m _ => .elem (some .abs) (some .abs) t d a none m
  | .vsqrt t d a m _ => .elem none (some .sqrt) t d a none m
  | .vrcp t d a m _ => .elem none (some .rcp) t d a none m
  | .vrsqrt t d a m _ => .elem none (some .rsqrt) t d a none m
  | .vexp2 t d a m _ => .elem none (some .exp2) t d a none m
  | .vlog2 t d a m _ => .elem none (some .log2) t d a none m
  | .vtanh t d a m _ => .elem none (some .tanh) t d a none m
  | .vceq t m a b _ => .cmp .eq t m a b
  | .vcne t m a b _ => .cmp .ne t m a b
  | .vclt t m a b _ => .cmp .lt t m a b
  | .vcle t m a b _ => .cmp .le t m a b
  | .vcltu t m a b _ => .cmp .ltu t m a b
  | .vcleu t m a b _ => .cmp .leu t m a b
  | .vld t d _ m => .mem false false 0 (tagOf t) d 0 m
  | .vlds t d _ _ m => .mem false false 1 (tagOf t) d 0 m
  | .vldx t d _ b m => .mem false false 2 (tagOf t) d b m
  | .vst t d _ m => .mem true false 0 (tagOf t) d 0 m
  | .vsts t d _ _ m => .mem true false 1 (tagOf t) d 0 m
  | .vstx t d _ b m => .mem true false 2 (tagOf t) d b m
  | .vlc t d _ m => .mem false true 0 (tagOf t) d 0 m
  | .vlcs t d _ _ m => .mem false true 1 (tagOf t) d 0 m
  | .vlcx t d _ b m => .mem false true 2 (tagOf t) d b m
  | .vsc t d _ m => .mem true true 0 (tagOf t) d 0 m
  | .vscs t d _ _ m => .mem true true 1 (tagOf t) d 0 m
  | .vscx t d _ b m => .mem true true 2 (tagOf t) d b m
  | .vmv d a m _ => .mv d a m
  | .vsel d a b m _ => .sel d a b m
  | .vperm d a b _ => .perm d a b
  | .vslide d a _ _ => .slide d a
  | .vcmpr d a m _ => .cmpr d a m
  | .vexpd d a m _ => .expd d a m
  | .vext m a _ _ => .ext m a
  | .vins d _ _ => .ins d
  | .vzero d => .zero d
  | .vbcs t d _ => .bcs (tagOf t) d
  | .vredsum t d a m _ => .red .sum t d a m
  | .vredmin t d a m _ => .red .min t d a m
  | .vredmax t d a m _ => .red .max t d a m
  | .vcvt dt st d a m _ => .cvt (tagOf dt) (tagOf st) d a m
  | .vbsc n d a _ => .bsc n d a
  | .vbsa n d a b _ => .bsa n d a b
  | .vtag d t => .tag d (tagOf t)
  | _ => .other

/-- The vector register a shape writes. -/
def VShape.dst : VShape → Option VReg
  | .elem _ _ _ d _ _ _ | .mv d _ _ | .sel d _ _ _ | .perm d _ _ | .slide d _ | .cmpr d _ _ | .expd d _ _ | .ins d
  | .zero d | .bcs _ d | .red _ _ d _ _ | .cvt _ _ d _ _ | .bsc _ d _ | .bsa _ d _ _ | .tag d _ => some d
  | .mem store _ _ _ d _ _ => if store then none else some d
  | _ => none

/-- The vector registers a shape reads. -/
def VShape.srcs : VShape → List VReg
  | .elem io _ _ d a b _ => a :: b.toList ++ if io = some .madd then [d] else []
  | .cmp _ _ _ a b | .sel _ a b _ | .perm _ a b | .bsa _ _ a b => [a, b]
  | .mem store _ mode _ d x _ => (if store then [d] else []) ++ if mode = 2 then [x] else []
  | .mv _ a _ | .slide _ a | .cmpr _ a _ | .expd _ a _ | .ext _ a | .red _ _ _ a _ | .cvt _ _ _ a _ | .bsc _ _ a => [a]
  | .ins d => [d]
  | .zero _ | .bcs _ _ | .tag _ _ | .other => []

/-- The register that a set keep bit holds in the operand latch: va (R169, R353). -/
def keptReg : Instr → Option VReg
  | .vadd _ _ a _ _ k | .vsub _ _ a _ _ k | .vmul _ _ a _ _ k | .vmadd _ _ a _ _ k | .vmin _ _ a _ _ k
  | .vmax _ _ a _ _ k | .vadds _ _ a _ _ k | .vsubs _ _ a _ _ k | .vaddus _ _ a _ _ k | .vsubus _ _ a _ _ k
  | .vminu _ _ a _ _ k | .vmaxu _ _ a _ _ k | .vand _ _ a _ _ k | .vor _ _ a _ _ k | .vxor _ _ a _ _ k
  | .vshl _ _ a _ _ k | .vshr _ _ a _ _ k | .vsra _ _ a _ _ k | .vdiv _ _ a _ _ k => if k then some a else none
  | .vabs _ _ a _ k | .vsqrt _ _ a _ k | .vrcp _ _ a _ k | .vrsqrt _ _ a _ k | .vexp2 _ _ a _ k | .vlog2 _ _ a _ k
  | .vtanh _ _ a _ k | .vredsum _ _ a _ k | .vredmin _ _ a _ k | .vredmax _ _ a _ k => if k then some a else none
  | .vceq _ _ a _ k | .vcne _ _ a _ k | .vclt _ _ a _ k | .vcle _ _ a _ k | .vcltu _ _ a _ k | .vcleu _ _ a _ k =>
    if k then some a else none
  | .vmv _ a _ k | .vsel _ a _ _ k | .vperm _ a _ k | .vslide _ a _ k | .vcmpr _ a _ k | .vexpd _ a _ k | .vext _ a _ k
  | .vcvt _ _ _ a _ k | .vbsc _ _ a k | .vbsa _ _ a _ k => if k then some a else none
  | _ => none

/-! ### Issue (R349 to R353, R360, R361) -/

/-- What issue finds: whether the word is barred, the registers checked with what they were found fit,
the base of a misaligned access, and the captures. -/
structure Plan where
  bad : Bool
  tags : List (VReg × Bool)
  misaligned : Option Word
  fmt : BitVec 4
  aux : BitVec 4
  res : BitVec 4
  base : Word
  stride : Word
  mask : Word
  deriving DecidableEq, Repr

def Plan.plain : Plan := ⟨false, [], none, 0, 0, 0, 0, 0, BitVec.allOnes 64⟩

/-- The mask word: m = 0 makes every unit active (R347). -/
def maskVal (m : Reg) (w : Word) : Word := if m = 0 then BitVec.allOnes 64 else w

/-- The issued tag of a register (R350). -/
def Frame.itag (f : Frame) (r : VReg) : BitVec 4 := f.itags.get r

/-- A register matches a type: its issued tag is the type's, or 0 (R350). -/
def Frame.fits (f : Frame) (r : VReg) (t : BitVec 4) : VReg × Bool := (r, f.itag r == t || f.itag r == 0)

/-- A tag whose descriptor is invalid (R352). -/
def Frame.badTag (f : Frame) (t : BitVec 4) : Bool := decide (8 ≤ t.toNat) && !fdValid (descOf f.fd t)

/-- The tag under which `vbsc` and `vbsa` read va: f32, bf16 or f16, where no tag or another is f32 (R370). -/
def floatTag (t : BitVec 4) : BitVec 4 := if 5 ≤ t.toNat ∧ t.toNat ≤ 7 then t else 5

/-- The tag of an index register: another than 1 to 4 is read as i32 (R360). -/
def indexTag (t : BitVec 4) : BitVec 4 := if isIntTag t then t else 3

/-- The plan of a form, from the values its scalar operands hold. -/
def planOf (f : Frame) (sh : VShape) (v : List Word) : Plan :=
  let last := v.getLast?.getD 0
  match sh with
  | .elem _ _ t d a b m =>
    let three := match sh with
      | .elem (some .madd) _ _ _ _ _ _ => [f.fits d (VTy.tag t)]
      | _ => []
    { Plan.plain with
      tags := f.fits a (VTy.tag t) :: (b.toList.map fun r => f.fits r (VTy.tag t)) ++ three
      fmt := (VTy.tag t), res := (VTy.tag t), mask := maskVal m last }
  | .cmp _ t _ a b => { Plan.plain with tags := [f.fits a (VTy.tag t), f.fits b (VTy.tag t)], fmt := (VTy.tag t) }
  | .mem store _ mode t d x m =>
    let u := (layoutOf f.fd t).ubits / 8
    let base := v.getD 0 0
    let stride := v.getD 1 0
    let mis := (mode != 2 && base.toNat % u != 0) || (mode == 1 && stride.toNat % u != 0)
    { Plan.plain with
      bad := f.badTag t
      tags := (if mode = 2 then [(x, f.itag x == 0 || isIntTag (f.itag x))] else []) ++ (if store then [f.fits d t] else [])
      misaligned := if mis then some base else none
      fmt := t, aux := indexTag (f.itag x), res := t, base := base, stride := stride, mask := maskVal m last }
  | .mv _ a m | .cmpr _ a m | .expd _ a m =>
    { Plan.plain with bad := f.badTag (f.itag a), fmt := f.itag a, res := f.itag a, mask := maskVal m last }
  | .sel _ a b m =>
    let ta := f.itag a
    let tb := f.itag b
    let t := if ta = 0 then tb else ta
    { Plan.plain with
      bad := f.badTag t, tags := [(b, ta == tb || ta == 0 || tb == 0)], fmt := t, res := t, mask := maskVal m last }
  | .perm _ a _ => { Plan.plain with bad := f.badTag (f.itag a), fmt := f.itag a, res := f.itag a }
  | .slide _ a => { Plan.plain with bad := f.badTag (f.itag a), fmt := f.itag a, res := f.itag a, stride := v.getD 0 0 }
  | .ext _ a => { Plan.plain with bad := f.badTag (f.itag a), fmt := f.itag a, stride := v.getD 0 0 }
  | .ins d =>
    { Plan.plain with bad := f.badTag (f.itag d), fmt := f.itag d, res := f.itag d, stride := v.getD 0 0, base := v.getD 1 0 }
  | .zero _ | .other => Plan.plain
  | .bcs t _ => { Plan.plain with bad := f.badTag t, fmt := t, res := t, base := v.getD 0 0 }
  | .red _ t _ a m => { Plan.plain with tags := [f.fits a (VTy.tag t)], fmt := (VTy.tag t), res := (VTy.tag t), mask := maskVal m last }
  | .cvt dt st _ a m =>
    { Plan.plain with
      bad := f.badTag dt || f.badTag st, tags := [f.fits a st], fmt := st, res := dt, mask := maskVal m last }
  | .bsc n _ a =>
    let t := BitVec.ofNat 4 (8 + n.val)
    { Plan.plain with
      bad := f.badTag t || fdBsc (descOf f.fd t) == 0
      tags := [(a, f.itag a == 0 || floatTag (f.itag a) == f.itag a)], fmt := floatTag (f.itag a), res := 1 }
  | .bsa n _ a b =>
    let t := BitVec.ofNat 4 (8 + n.val)
    { Plan.plain with
      bad := f.badTag t || fdBsc (descOf f.fd t) == 0
      tags := [(a, f.itag a == 0 || floatTag (f.itag a) == f.itag a), (b, f.itag b == 0 || f.itag b == 1)]
      fmt := floatTag (f.itag a), res := f.itag a }
  | .tag _ t => { Plan.plain with res := t }

/-- How many registers a vector of the frame spans: its gang's members (R182, R375). -/
def Frame.width (f : Frame) : Nat := (f.gang.map fun g => g.members.length).getD 1

/-- The draws an entry takes under stochastic rounding (R260). -/
def SeqEntry.draws (e : SeqEntry) (G : Nat) : Nat :=
  if rndOf e.fpctl ≠ .sr then 0
  else
    match shapeOf e.i with
    | .elem _ fo t _ _ _ _ => if !isIntTag (VTy.tag t) && fo.any FloatOp.rounds then G * (layoutOf e.fd (VTy.tag t)).elems else 0
    | .red .sum t _ _ _ => if isIntTag (VTy.tag t) then 0 else G * (layoutOf e.fd (VTy.tag t)).elems - 1
    | .cvt dt st _ _ _ => if isIntTag dt && isIntTag st then 0 else G * (layoutOf e.fd dt).elems
    | .bsa _ _ _ _ => G * (layoutOf e.fd e.fmt).elems
    | _ => 0

/-- An entry enters the sequencer, or the body of the loop that is being issued. With the last body
instruction the loop is queued, unless its count is 0: then the issued tags from before it stand (R372). -/
def Frame.enqueue (f : Frame) (e : SeqEntry) : Frame :=
  let f1 := match (shapeOf e.i).dst with
    | some d => { f with itags := f.itags.set d.val e.res }
    | none => f
  match f.vloop with
  | none => { f1 with seq := f.seq ++ [.one e], h := { f.h with gen := genAfter f.h.gen (e.draws f.width) } }
  | some l =>
    let body := l.body ++ [e]
    if l.need > 1 then { f1 with vloop := some { l with need := l.need - 1, body := body } }
    else if l.count = 0 then { f1 with vloop := none, itags := l.before }
    else
      let n := body.foldl (fun n e => n + e.draws f.width) 0
      { f1 with
        vloop := none, seq := f.seq ++ [.loop ⟨body, l.count, 0, 0, f.h.gen⟩]
        h := { f.h with gen := genAfter f.h.gen (l.count * n) } }

/-- Enter the sequencer and retire from the integer pipeline (R171). -/
def State.enter (s : State) (lc : Nat) (i : Instr) (p : Plan) : State :=
  let s1 := s.pops i
  match s1.top lc with
  | none => s
  | some f =>
    let e : SeqEntry :=
      { i := i, pc := f.h.pc, fpctl := f.h.fpctl, fd := f.fd, fmt := p.fmt, aux := p.aux, res := p.res
        base := p.base, stride := p.stride, mask := p.mask, gen := f.h.gen }
    let s2 := s1.setTop lc (f.enqueue e)
    s2.goTo (f.h.pc + 1)

/-- Alignment is checked after the tags (R361). -/
def State.issueAligned (s : State) (lc : Nat) (i : Instr) (p : Plan) : State :=
  match p.misaligned with
  | none => s.enter lc i p
  | some b => if s.ignores ALIGN then (s.ignore ALIGN b).enter lc i p else s.trap ALIGN b

/-- The first register whose tag does not match (R350). -/
def Plan.mismatch (p : Plan) : Option VReg := (p.tags.find? fun x => !x.2).map Prod.fst

/-- TRAPVAL of TAG: the register, and the tag found (R350). -/
def Frame.tagVal (f : Frame) (r : VReg) : Word := BitVec.ofNat 64 (r.val * 16 + (f.itag r).toNat)

/-- Issue a vector instruction: ILLEGAL, TAG and ALIGN are raised here (R354). -/
def State.issueVec (s : State) (i : Instr) : Out :=
  s.run i fun v =>
    match s.agent with
    | .fe _ => s
    | .core lc =>
      match s.top lc with
      | none => s
      | some f =>
        let p := planOf f (shapeOf i) v
        if p.bad then s.illegal i
        else
          match p.mismatch with
          | none => s.issueAligned lc i p
          | some r =>
            if s.ignores TAG then (s.ignore TAG (f.tagVal r)).issueAligned lc i p else s.trap TAG (f.tagVal r)

/-- `vloop` makes the next n instructions a loop body (R372). -/
def execVloop (n : Fin 16) (m : Reg) (s : State) : Out :=
  s.run (.vloop n m) fun v =>
    match s.agent with
    | .fe _ => s
    | .core lc =>
      let s1 := s.pops (.vloop n m)
      match s1.top lc with
      | none => s
      | some f =>
        (s1.setTop lc { f with vloop := some ⟨n.val + 1, (v.getD 0 0).toNat, [], f.itags⟩ }).goTo (f.h.pc + 1)

/-! ### Registers of a gang (R183, R375) -/

/-- The cores whose registers a frame's vectors span, leader first. -/
def Frame.members (f : Frame) (lc : Nat) : List Nat := (f.gang.map Gang.members).getD [lc]

/-- A register of a member's running frame. -/
def State.vreg (s : State) (m : Nat) (r : VReg) : Nat := ((s.top m).map fun f => (f.v.get r).toNat).getD 0

/-- The concatenation of a register over members. -/
def State.vcat (s : State) (r : VReg) : List Nat → Nat
  | [] => 0
  | m :: l => s.vreg m r + 2 ^ 512 * s.vcat r l

/-- Write one member's register and the tag of the gang's register in every member. -/
def State.vput (s : State) (ms : List Nat) (m : Nat) (r : VReg) (x : Nat) (t : BitVec 4) : State :=
  let s1 := match s.top m with
    | some f => s.setTop m { f with v := f.v.set r.val (BitVec.ofNat 512 x), badRegs := f.badRegs.filter (· != 32 + r.val) }
    | none => s
  ms.foldl (fun s m => match s.top m with
    | some f => s.setTop m { f with tags := f.tags.set r.val t }
    | none => s) s1

/-- OR flags into the leader's FPSTAT when a chunk takes effect (R356). -/
def State.vflags (s : State) (lc : Nat) (fl : BitVec 5) : State :=
  match s.top lc with
  | some f => s.setTop lc { f with h := { f.h with fpstat := f.h.fpstat ||| fl } }
  | none => s

/-! ### Memory chunks (R354, R360 to R362) -/

/-- What a chunk comes to: its effect, and whether it was the entry's last; a trap; or a wait. -/
inductive Chunked where
  | done (s : State) (last : Bool) | trap (cls : Nat) (val : Word) | wait (s : State)
  deriving DecidableEq, Repr

/-- Its address within its kind of place, and the aligned granule of 16 bytes that holds it. -/
def ByteAt.pos : ByteAt → Nat
  | .mem a | .host a | .quarter a | .far _ a => a
def ByteAt.granule : ByteAt → Nat × Nat × Nat
  | .mem a => (0, 0, a / 16) | .host a => (1, 0, a / 16) | .quarter a => (2, 0, a / 16) | .far d a => (3, d, a / 16)

/-- Where the bytes of a chunk lie, in order, or what one of its units comes to. -/
inductive Places where
  | ok (l : List VByte) (s : State) | trap (cls : Nat) (val : Word) | wait (s : State)
  deriving DecidableEq, Repr

/-- Where the u bytes of a unit lie: its space, its range and its translation are checked (R189, R192, R361). -/
inductive Located where
  | ok (l : List ByteAt) (s : State) | trap (cls : Nat) | wait (s : State)
  deriving DecidableEq, Repr

def State.locate (s : State) (near : Bool) (lc : Nat) (addr : Word) (u need : Nat) : Located :=
  if near then
    if addr.toNat + u > 0x60000 then .trap ADDRESS else .ok ((span (cellarKey lc addr.toNat) u).map .quarter) s
  else
    match spaceOf addr u with
    | .bad => .trap ADDRESS
    | .window dev tlc off =>
      if !s.inDomain (s.corePart lc) dev then .trap ADDRESS
      else if dev ≠ s.devid.toNat then .ok ((span addr.toNat u).map (.far dev)) s
      else if !s.reachable (s.corePart lc) tlc then .trap ADDRESS
      else .ok ((span (cellarKey tlc off) u).map .quarter) s
    | .global va =>
      match s.coreSpan lc va u need with
      | .trap c => .trap c
      | .wait s1 => .wait s1
      | .pas l s1 => .ok (l.map fun a => match s1.region a with
          | .remote d _ => .far d a
          | .host => .host a
          | _ => .mem a) s1

/-- Place every unit of a chunk: its number, its address, and the value it stores. -/
def State.places (s : State) (near : Bool) (lc u need : Nat) : List (Nat × Word × Nat) → Places
  | [] => .ok [] s
  | (j, a, v) :: l =>
    match s.locate near lc a u need with
    | .trap c => .trap c a
    | .wait s1 => .wait s1
    | .ok bs s1 =>
      match s1.places near lc u need l with
      | .ok r s2 => .ok ((bs.zip (leBytes u v)).map (fun x => ⟨j, a, x.1, x.2⟩) ++ r) s2
      | x => x

/-- The accesses of a chunk: bytes that follow one another within a granule are one access, those of an indexed form one
for each of its units (R207, R209). -/
def groupBytes (indexed : Bool) : List VByte → List (List VByte)
  | [] => []
  | x :: l =>
    match groupBytes indexed l with
    | (y :: g) :: r =>
      if x.place.granule == y.place.granule && (!indexed || x.unit == y.unit) then (x :: y :: g) :: r else [x] :: (y :: g) :: r
    | r => [x] :: r

/-- The bytes from the lowest to the highest of an access: the first, and how many. -/
def lowest (g : List VByte) : Nat := (g.map fun b => b.place.pos).foldl min ((g.head?.map fun b => b.place.pos).getD 0)
def extentOf (g : List VByte) : Nat := (g.map fun b => b.place.pos + 1).foldl max 0 - lowest g

/-- The bytes of a list that lie in memory; in quarters; in the host's memory. -/
def memBytes (l : List VByte) : List Nat := l.filterMap fun b => match b.place with
  | .mem a => some a
  | _ => none
def quarterBytes (l : List VByte) : List Nat := l.filterMap fun b => match b.place with
  | .quarter a => some a
  | _ => none
def hostBytes (l : List VByte) : List Nat := l.filterMap fun b => match b.place with
  | .host a => some a
  | _ => none

/-- Some quarter that a chunk accesses beside the core's own is moving, or its tile sleeps (R25, R77). -/
def State.quarterShut (s : State) (lc : Nat) (l : List VByte) : Bool :=
  (quarterBytes l).any fun k => k / 2 ^ 20 != lc && s.shut (k / 2 ^ 20)

/-- The tiles of the quarters that a chunk accesses are called (R77). -/
def State.callQuarters (s : State) (l : List VByte) : State :=
  (quarterBytes l).foldl (fun s k => s.callTile (k / 2 ^ 20)) s

/-- Some granule of an access is armed and at or above its watermark (R177). -/
def State.accessArmed (s : State) (g : List VByte) : Bool :=
  (quarterBytes g).any fun k => s.armedAt (k / 2 ^ 20) (k % 2 ^ 20) 1

/-! #### Stores -/

/-- The address of the first unit that lies on a failed port, or in a failed codeword which the chunk does not cover whole
(R16, R242). -/
def State.unstorable (s : State) (l : List VByte) : Option Word :=
  let mem := memBytes l
  let q := quarterBytes l
  (l.find? fun b => match b.place with
    | .mem a => s.portFailed a || (tget false s.mem.badLines (a / 64) && !coversWord 64 a mem) ||
        (tget false s.mem.badL2 (a / 8) && !coversWord 8 a mem)
    | .quarter a => s.badCellarAt a && !coversWord 8 a q
    | _ => false).map fun b => b.addr

/-- What an access to another module stores: its active bytes, the others unchanged (R209). -/
def farStore (g : List VByte) : RemoteOp :=
  let bs := (span (lowest g) (extentOf g)).map fun p => (g.reverse.find? fun b => b.place.pos == p).map VByte.val
  if bs.all Option.isSome then .store (bs.filterMap id) else .mask bs

/-- Perform one access of a store chunk. -/
def State.storeAccess (s : State) (lc : Nat) (g : List VByte) : State :=
  let as := g.map fun b => b.place.pos
  let vs := g.map VByte.val
  match g.head?.map VByte.place with
  | some (.mem _) => (s.leaseStores lc as).writeMem as vs
  | some (.host _) => s.hostWrite s.agentFn as vs
  | some (.quarter _) => s.writeCellar as vs
  | some (.far _ _) => s.sendStore lc (BitVec.ofNat 64 (lowest g)) (farStore g)
  | none => s

/-- Codewords that a chunk covered whole are good again. -/
def State.cleanWords (s : State) (l : List VByte) : State :=
  let mem := memBytes l
  let q := quarterBytes l
  { s with mem := { s.mem with
      badLines := mem.foldl (fun t a => if coversWord 64 a mem then tdel (a / 64) t else t) s.mem.badLines
      badL2 := mem.foldl (fun t a => if coversWord 8 a mem then tdel (a / 8) t else t) s.mem.badL2
      badCellar := q.foldl (fun t a => if coversWord 8 a q then tdel (a / 8) t else t) s.mem.badCellar } }

/-- The accesses of a chunk, every one of them checked before the first is performed (R354); or what stands before them. -/
inductive Planned where
  | ok (gs : List (List VByte)) (s : State) | trap (cls : Nat) (val : Word) | wait (s : State)
  deriving DecidableEq, Repr

/-- The accesses of a store chunk; units are given by number, address and value. -/
def State.planStore (s : State) (near indexed : Bool) (lc u : Nat) (units : List (Nat × Word × Nat)) : Planned :=
  match s.places near lc u needW units with
  | .trap c w => .trap c w
  | .wait s1 => .wait s1
  | .ok l s1 =>
    match s1.unstorable l with
    | some a => .trap DATA a
    | none => .ok (groupBytes indexed l) s1

/-- The next access of a store chunk, in a step of its own: what has been performed is noted, and with the last the codewords
that the chunk covers whole are good again. -/
def State.storeNext (s : State) (lc : Nat) (gs : List (List VByte)) : Acc :=
  match gs.drop s.hart.sent.length with
  | [] => .ok 0 s
  | g :: rest =>
    if s.quarterShut lc g || s.hostBusy (hostBytes g) then .wait (s.callQuarters g)
    else
      let s1 := s.storeAccess lc g
      if rest = [] then .ok 0 (s1.cleanWords gs.flatten)
      else .wait (s1.noteSent ⟨(g.head?.map VByte.addr).getD 0, 0, true, some (.data [])⟩)

/-! #### Loads -/

/-- The address of the first unit of a load chunk that meets a failed port or an uncorrectable codeword. -/
def State.unreadable (s : State) (lc : Nat) (l : List VByte) : Option Word :=
  (l.find? fun b => match b.place with
    | .mem a => s.loadFails lc [a]
    | .quarter a => s.badCellarAt a
    | _ => false).map fun b => b.addr

/-- What the accesses of a load chunk come to: their bytes in order, a trap, or a wait for those that are still to come. -/
inductive VLoad where
  | ok (bs : List Byte) (s : State) | trap (cls : Nat) (val : Word) | wait (s : State)
  deriving DecidableEq, Repr

/-- The bytes that an answered access has read, from its lowest on. -/
def Sent.data (x : Sent) : List Byte :=
  match x.answer with
  | some (.data bs) => bs
  | _ => []

/-- The bytes of the accesses of a chunk, in order, from what each has read. -/
def bytesRead (gs : List (List VByte)) (l : List Sent) : List Byte :=
  (gs.zip l).flatMap fun x => x.1.map fun b => x.2.data.getD (b.place.pos - lowest x.1) 0

/-- The next access of a load chunk, in a step of its own: what it reads is noted, and the last gives the bytes of all. One
that meets a watermark gives the chunk up, which starts anew (R177, R233). -/
def State.loadNext (s : State) (lc : Nat) (gs : List (List VByte)) : VLoad :=
  let done := s.hart.sent
  match done.find? fun x => !(x.answer matches some (.data _)) with
  | some ⟨_, _, _, none⟩ => .wait s
  | some ⟨a, _, _, some (.refused c)⟩ => .trap c a
  | _ =>
    match gs.drop done.length with
    | [] => .ok (bytesRead gs done) s
    | g :: rest =>
      let addr := (g.head?.map VByte.addr).getD 0
      let lo := lowest g
      let n := extentOf g
      let kept := fun (bs : List Byte) (s1 : State) =>
        let x : Sent := ⟨addr, 0, false, some (.data bs)⟩
        if rest = [] then VLoad.ok (bytesRead gs (done ++ [x])) s1 else .wait (s1.noteSent x)
      match s.unreadable lc g with
      | some a => .trap DATA a
      | none =>
        if s.quarterShut lc g then .wait (s.callQuarters g)
        else if s.accessArmed g then .wait (s.setHart { s.hart with sent := [] })
        else
          match g.head?.map VByte.place with
          | some (.mem _) => kept (gatherBytes s.mem.bytes (span lo n)) (s.leaseLoads lc (span lo n))
          | some (.quarter _) => kept (gatherBytes s.mem.cellar (span lo n)) s
          | some (.far d _) =>
            if s.routed d then
              .wait ((s.noteSent ⟨addr, lo, false, none⟩).addRemote ⟨s.agentCore, s.agentLevel, BitVec.ofNat 64 lo, .load n⟩)
            else .trap DATA addr
          | some (.host _) =>
            let t := freeTag s.mem.hostReqs
            .wait ((s.noteSent ⟨addr, t, false, none⟩).addHostReq t ⟨s.agent, s.agentLevel, s.agentFn, lo, .load n, none⟩)
          | none => .ok [] s

/-- The values of units, u bytes each, from the bytes of the active ones in order. -/
def unitsFrom (u : Nat) : List (Option Word) → List Byte → List (Option Nat)
  | [], _ => []
  | none :: l, bs => none :: unitsFrom u l bs
  | some _ :: l, bs => some (leNat (bs.take u)) :: unitsFrom u l (bs.drop u)

/-- Units that are accessed, numbered. -/
def accessedUnits (l : List (Option Word)) : List (Nat × Word × Nat) :=
  l.zipIdx.filterMap fun x => x.1.map fun a => (x.2, a, 0)

/-- The accesses of a load chunk. -/
def State.planLoad (s : State) (near indexed : Bool) (lc u : Nat) (l : List (Option Word)) : Planned :=
  match s.places near lc u needR (accessedUnits l) with
  | .trap c w => .trap c w
  | .wait s1 => .wait s1
  | .ok bs s1 =>
    match s1.unreadable lc bs with
    | some a => .trap DATA a
    | none =>
      let gs := groupBytes indexed bs
      if s1.quarterShut lc bs || gs.any s1.accessArmed then .wait (s1.callQuarters bs) else .ok gs s1

/-- The plan of the current chunk: the one that it has begun to carry out, or a new one. -/
def Frame.planned (f : Frame) (s : State) (new : Planned) : Planned := if f.vplan = [] then new else .ok f.vplan s

/-- Keep the plan of a chunk of which an access has been performed or sent. -/
def State.keepPlan (s : State) (lc : Nat) (gs : List (List VByte)) : State :=
  match s.top lc with
  | some f => s.setTop lc { f with vplan := if f.h.sent = [] then [] else gs }
  | none => s

/-- The codes of a unit alone: the bits above them are 0 (R250, R362). -/
def Layout.cleanUnit (l : Layout) (x : Nat) : Nat := buildEls l.w (fun j => getEl x l.w j % 2 ^ l.code) l.upe

/-- The next access of one chunk of a memory entry, on member k of the gang; its checks come before the first of them. -/
def State.memChunk (s : State) (lc : Nat) (f : Frame) (e : SeqEntry) (store near : Bool) (mode : Nat) (d x : VReg)
    (base : Word) (k : Nat) : Chunked :=
  let ms := f.members lc
  let l := layoutOf e.fd e.fmt
  let u := l.ubits / 8
  let m := ms.getD k lc
  let idx := s.vcat x ms
  let addr := fun j => e.unitAddr mode ms.length base idx (k * l.units + j)
  let last := k + 1 ≥ ms.length
  let old := s.vreg m d
  if store then
    let units := (span 0 l.units).filterMap fun j => (addr j).map fun a => (j, a, l.cleanUnit (getEl old l.ubits j))
    match f.planned s (s.planStore near (mode == 2) lc u units) with
    | .trap c w => .trap c w
    | .wait s1 => .wait s1
    | .ok gs s1 =>
      match s1.storeNext lc gs with
      | .ok _ s2 => .done s2 last
      | .trap c w => .trap c w
      | .wait s2 => .wait (s2.keepPlan lc gs)
  else
    match f.planned s (s.planLoad near (mode == 2) lc u ((span 0 l.units).map addr)) with
    | .trap c w => .trap c w
    | .wait s1 => .wait s1
    | .ok gs s1 =>
      match s1.loadNext lc gs with
      | .trap c w => .trap c w
      | .wait s2 => .wait (s2.keepPlan lc gs)
      | .ok bs s2 =>
        let vs := unitsFrom u ((span 0 l.units).map addr) bs
        let y := buildEls l.ubits (fun j => match vs.getD j none with
          | some v => l.cleanUnit v
          | none => getEl old l.ubits j) l.units
        .done (s2.vput ms m d y e.res) last

/-! ### One chunk of an entry (R354) -/

/-- The element operation of a VALU entry. -/
def elemOpOf (e : SeqEntry) (t : VTy) (io : Option IntOp) (fo : Option FloatOp) : ElemOp :=
  fun a b d pos =>
    if isIntTag (VTy.tag t) then ((io.map fun o => o.eval (layoutOf e.fd (VTy.tag t)).w a b d).getD 0, 0)
    else (fo.map fun o => o.eval (fmtOfTag e.fd (VTy.tag t)) e.fpctl e.gen a b d pos).getD (0, 0)

/-- The element that `vext` moves (R366). -/
def extracted (e : SeqEntry) (x G : Nat) : Word :=
  let l := layoutOf e.fd e.fmt
  if e.stride.toNat ≥ G * l.elems then 0
  else
    let y := getEl x l.w e.stride.toNat
    if isIntTag e.fmt then sext l.w y else BitVec.ofNat 64 (y % 2 ^ l.code)

/-- The concatenation in which `vins` has put its value (R366). -/
def inserted (e : SeqEntry) (x G : Nat) : Nat :=
  let l := layoutOf e.fd e.fmt
  if e.stride.toNat ≥ G * l.elems then x else setEl x l.w e.stride.toNat (e.base.toNat % 2 ^ l.code)

/-- Hold what is left of a result for the chunks to come. -/
def State.holdResult (s : State) (lc : Nat) (r : Option (Nat × BitVec 5)) : State :=
  match s.top lc with
  | some f => s.setTop lc { f with vhold := r }
  | none => s

/-- One chunk of an entry: a register of one member (R354). The forms whose elements may move from one member's register
to another's (`vperm`, `vslide`, `vcmpr`, `vexpd`, reductions, `vcvt`, `vbsc`, `vbsa`) read the concatenation with their first
chunk, which raises the flags, and the result is written member by member; compares and `vext` write their scalar register with
the last chunk (log entry 105). -/
def State.runChunk (s : State) (lc : Nat) (f : Frame) (e : SeqEntry) (iter k : Nat) : Chunked :=
  let ms := f.members lc
  let G := ms.length
  let l := layoutOf e.fd e.fmt
  let cat := fun r => s.vcat r ms
  let part := fun (d : VReg) (x : Nat) => Chunked.done (s.vput ms (ms.getD k lc) d (x / 2 ^ (512 * k)) e.res) (k + 1 ≥ G)
  let flagged := fun (d : VReg) (r : Nat × BitVec 5) =>
    let x := f.vhold.getD r
    let s1 := s.vput ms (ms.getD k lc) d (x.1 / 2 ^ (512 * k)) e.res
    let s2 := if f.vhold.isSome then s1 else s1.vflags lc x.2
    Chunked.done (if k + 1 < G then s2.holdResult lc (some x) else s2) (k + 1 ≥ G)
  let whole := fun (d : VReg) (x : Nat) => flagged d (x, 0)
  match shapeOf e.i with
  | .elem io fo t d a b _ =>
    let m := ms.getD k lc
    let r := mapEls (elemOpOf e t io fo) l.w (k * l.elems) (unitActive e.mask (G * l.elems))
      (s.vreg m a) (s.vreg m (b.getD 0)) (s.vreg m d) l.elems
    .done ((s.vput ms m d r.1 e.res).vflags lc r.2) (k + 1 ≥ G)
  | .cmp o t m a b =>
    let r := compareEls o (VTy.tag t) e.fpctl (cat a) (cat b) (G * l.elems)
    if k + 1 < G then .done s false else .done ((s.vflags lc r.2).writeFrame lc m r.1) true
  | .mem store near mode _ d x _ => s.memChunk lc f e store near mode d x (e.baseAt mode iter G) k
  | .mv d a _ => part d (selectUnits l.ubits (G * l.units) e.mask (cat a) (cat d))
  | .sel d a b _ => part d (selectUnits l.ubits (G * l.units) e.mask (cat a) (cat b))
  | .perm d a b => whole d (permUnits l.ubits (G * l.units) (cat a) (cat b))
  | .slide d a => whole d (slideUnits l.ubits (G * l.units) e.stride (cat a))
  | .cmpr d a _ => whole d (compressUnits l.ubits (G * l.units) e.mask (cat a))
  | .expd d a _ => whole d (expandUnits l.ubits (G * l.units) e.mask (cat a))
  | .ext m a => if k + 1 < G then .done s false else .done (s.writeFrame lc m (extracted e (cat a) G)) true
  | .ins d => part d (inserted e (cat d) G)
  | .zero d => part d 0
  | .bcs _ d => part d (buildEls l.w (fun _ => e.base.toNat % 2 ^ l.code) (G * l.elems))
  | .red o t d a _ => flagged d (reduceEls o (VTy.tag t) e.fpctl e.gen e.mask (cat a) (G * l.elems))
  | .cvt dt st d a _ => flagged d (convertEls e.fd dt st e.fpctl e.gen e.mask G (cat a) (cat d))
  | .bsc n d a =>
    whole d (blockScales (descOf e.fd (BitVec.ofNat 4 (8 + n.val))) (fmtOfTag e.fd e.fmt) (fziOf e.fpctl) (cat a) (G * l.elems))
  | .bsa n d a b =>
    flagged d (applyScales (descOf e.fd (BitVec.ofNat 4 (8 + n.val))) (fmtOfTag e.fd e.fmt) e.fpctl e.gen (cat a) (cat b)
      (G * l.elems))
  | .tag d _ => part d (cat d)
  | .other => .done s true

/-! ### The sequencer (R171, R172, R234, R374) -/

/-- The loop after one of its entries has finished: none when its count is used up. -/
def SeqLoop.advance (l : SeqLoop) (G : Nat) : Option SeqLoop :=
  let n := ((l.body[l.at_]?).map fun e => e.draws G).getD 0
  let g := genAfter l.gen n
  if l.at_ + 1 < l.body.length then some { l with at_ := l.at_ + 1, gen := g }
  else if l.left ≤ 1 then none
  else some { l with left := l.left - 1, iter := l.iter + 1, at_ := 0, gen := g }

/-- The items after the entry at the head has finished. -/
def nextItems (G : Nat) : List SeqItem → List SeqItem
  | [] => []
  | .one _ :: l => l
  | .loop x :: l =>
    match x.advance G with
    | some y => .loop y :: l
    | none => l

/-- The entry that runs, with its iteration. -/
def currentEntry : List SeqItem → Option (SeqEntry × Nat)
  | [] => none
  | .one e :: _ => some (e, 0)
  | .loop l :: _ => (l.body[l.at_]?).map fun e => ({ e with gen := l.gen }, l.iter)

/-- What the operand latch holds after an entry (R169). -/
def latchAfter (i : Instr) (old : Option VReg) : Option VReg :=
  let d := (shapeOf i).dst
  match keptReg i with
  | some a => if d = some a then none else some a
  | none => if d.isSome then none else old

/-- The frame after a chunk: the next chunk, or the next entry. -/
def Frame.afterChunk (f : Frame) (i : Instr) (last : Bool) : Frame :=
  if last then { f with chunk := 0, vsent := [], vplan := [], vhold := none, seq := nextItems f.width f.seq, latch := latchAfter i f.latch }
  else { f with chunk := f.chunk + 1, vsent := [], vplan := [] }

/-- An entry reads an uncorrectable vector register of a member of the frame's gang (R185, R242). -/
def State.vbad (s : State) (lc : Nat) (f : Frame) (i : Instr) : Bool :=
  (f.members lc).any fun m => (s.top m).any fun x => (shapeOf i).srcs.any fun r => x.badRegs.contains (32 + r.val)

/-- Run a step of a core's vector unit as that core, whoever's turn it is; the accesses sent for the
entry are kept apart from those of the instruction at pc. -/
def State.seqStep (s : State) (lc : Nat) : State :=
  match s.top lc with
  | none => s
  | some f =>
    if f.leader.isSome || (!begun f.vsent && (!s.gangReady lc f || f.pending.isSome)) then s
    else
      match currentEntry f.seq with
      | none => s
      | some (e, iter) =>
        if s.vbad lc f e.i then s.setTop lc { f with bad := true, pending := some (DATA, 0, some e.pc) }
        else
        let s0 := ({ s with agent := .core lc }).setTop lc { f with h := { f.h with sent := f.vsent } }
        match s0.runChunk lc { f with h := { f.h with sent := f.vsent } } e iter f.chunk with
        | .trap c w => s.setTop lc { f with pending := some (c, w, some e.pc) }
        | .wait s1 =>
          match s1.top lc with
          | none => s
          | some f1 => { s1.setTop lc { f1 with vsent := f1.h.sent, h := { f1.h with sent := f.h.sent } } with agent := s.agent }
        | .done s1 last =>
          match s1.top lc with
          | none => s
          | some f1 =>
            { s1.setTop lc (({ f1 with h := { f1.h with sent := f.h.sent } }).afterChunk e.i last) with agent := s.agent }

/-- The sequencer of a core executes its next chunk. -/
def execSequencerChunk (lc : Nat) (s : State) : Out := .next (if s.goesOn lc then s.seqStep lc else s)

/-! ### The instructions -/

def execVadd (t : VTy) (d a b : VReg) (m : Reg) (k : Bool) (s : State) : Out := s.issueVec (.vadd t d a b m k)
def execVsub (t : VTy) (d a b : VReg) (m : Reg) (k : Bool) (s : State) : Out := s.issueVec (.vsub t d a b m k)
def execVmul (t : VTy) (d a b : VReg) (m : Reg) (k : Bool) (s : State) : Out := s.issueVec (.vmul t d a b m k)
def execVmadd (t : VTy) (d a b : VReg) (m : Reg) (k : Bool) (s : State) : Out := s.issueVec (.vmadd t d a b m k)
def execVmin (t : VTy) (d a b : VReg) (m : Reg) (k : Bool) (s : State) : Out := s.issueVec (.vmin t d a b m k)
def execVmax (t : VTy) (d a b : VReg) (m : Reg) (k : Bool) (s : State) : Out := s.issueVec (.vmax t d a b m k)
def execVadds (t : VTy) (d a b : VReg) (m : Reg) (k : Bool) (s : State) : Out := s.issueVec (.vadds t d a b m k)
def execVsubs (t : VTy) (d a b : VReg) (m : Reg) (k : Bool) (s : State) : Out := s.issueVec (.vsubs t d a b m k)
def execVaddus (t : VTy) (d a b : VReg) (m : Reg) (k : Bool) (s : State) : Out := s.issueVec (.vaddus t d a b m k)
def execVsubus (t : VTy) (d a b : VReg) (m : Reg) (k : Bool) (s : State) : Out := s.issueVec (.vsubus t d a b m k)
def execVminu (t : VTy) (d a b : VReg) (m : Reg) (k : Bool) (s : State) : Out := s.issueVec (.vminu t d a b m k)
def execVmaxu (t : VTy) (d a b : VReg) (m : Reg) (k : Bool) (s : State) : Out := s.issueVec (.vmaxu t d a b m k)
def execVand (t : VTy) (d a b : VReg) (m : Reg) (k : Bool) (s : State) : Out := s.issueVec (.vand t d a b m k)
def execVor (t : VTy) (d a b : VReg) (m : Reg) (k : Bool) (s : State) : Out := s.issueVec (.vor t d a b m k)
def execVxor (t : VTy) (d a b : VReg) (m : Reg) (k : Bool) (s : State) : Out := s.issueVec (.vxor t d a b m k)
def execVshl (t : VTy) (d a b : VReg) (m : Reg) (k : Bool) (s : State) : Out := s.issueVec (.vshl t d a b m k)
def execVshr (t : VTy) (d a b : VReg) (m : Reg) (k : Bool) (s : State) : Out := s.issueVec (.vshr t d a b m k)
def execVsra (t : VTy) (d a b : VReg) (m : Reg) (k : Bool) (s : State) : Out := s.issueVec (.vsra t d a b m k)
def execVdiv (t : VTy) (d a b : VReg) (m : Reg) (k : Bool) (s : State) : Out := s.issueVec (.vdiv t d a b m k)
def execVabs (t : VTy) (d a : VReg) (m : Reg) (k : Bool) (s : State) : Out := s.issueVec (.vabs t d a m k)
def execVsqrt (t : VTy) (d a : VReg) (m : Reg) (k : Bool) (s : State) : Out := s.issueVec (.vsqrt t d a m k)
def execVrcp (t : VTy) (d a : VReg) (m : Reg) (k : Bool) (s : State) : Out := s.issueVec (.vrcp t d a m k)
def execVrsqrt (t : VTy) (d a : VReg) (m : Reg) (k : Bool) (s : State) : Out := s.issueVec (.vrsqrt t d a m k)
def execVexp2 (t : VTy) (d a : VReg) (m : Reg) (k : Bool) (s : State) : Out := s.issueVec (.vexp2 t d a m k)
def execVlog2 (t : VTy) (d a : VReg) (m : Reg) (k : Bool) (s : State) : Out := s.issueVec (.vlog2 t d a m k)
def execVtanh (t : VTy) (d a : VReg) (m : Reg) (k : Bool) (s : State) : Out := s.issueVec (.vtanh t d a m k)
def execVceq (t : VTy) (m : Reg) (a b : VReg) (k : Bool) (s : State) : Out := s.issueVec (.vceq t m a b k)
def execVcne (t : VTy) (m : Reg) (a b : VReg) (k : Bool) (s : State) : Out := s.issueVec (.vcne t m a b k)
def execVclt (t : VTy) (m : Reg) (a b : VReg) (k : Bool) (s : State) : Out := s.issueVec (.vclt t m a b k)
def execVcle (t : VTy) (m : Reg) (a b : VReg) (k : Bool) (s : State) : Out := s.issueVec (.vcle t m a b k)
def execVcltu (t : VTy) (m : Reg) (a b : VReg) (k : Bool) (s : State) : Out := s.issueVec (.vcltu t m a b k)
def execVcleu (t : VTy) (m : Reg) (a b : VReg) (k : Bool) (s : State) : Out := s.issueVec (.vcleu t m a b k)
def execVld (t : Fin 16) (d : VReg) (a : Fin 16) (m : Reg) (s : State) : Out := s.issueVec (.vld t d a m)
def execVlds (t : Fin 16) (d : VReg) (a b : Fin 16) (m : Reg) (s : State) : Out := s.issueVec (.vlds t d a b m)
def execVldx (t : Fin 16) (d : VReg) (a : Fin 16) (b : VReg) (m : Reg) (s : State) : Out :=
  s.issueVec (.vldx t d a b m)
def execVst (t : Fin 16) (d : VReg) (a : Fin 16) (m : Reg) (s : State) : Out := s.issueVec (.vst t d a m)
def execVsts (t : Fin 16) (d : VReg) (a b : Fin 16) (m : Reg) (s : State) : Out := s.issueVec (.vsts t d a b m)
def execVstx (t : Fin 16) (d : VReg) (a : Fin 16) (b : VReg) (m : Reg) (s : State) : Out :=
  s.issueVec (.vstx t d a b m)
def execVlc (t : Fin 16) (d : VReg) (a : Fin 16) (m : Reg) (s : State) : Out := s.issueVec (.vlc t d a m)
def execVlcs (t : Fin 16) (d : VReg) (a b : Fin 16) (m : Reg) (s : State) : Out := s.issueVec (.vlcs t d a b m)
def execVlcx (t : Fin 16) (d : VReg) (a : Fin 16) (b : VReg) (m : Reg) (s : State) : Out :=
  s.issueVec (.vlcx t d a b m)
def execVsc (t : Fin 16) (d : VReg) (a : Fin 16) (m : Reg) (s : State) : Out := s.issueVec (.vsc t d a m)
def execVscs (t : Fin 16) (d : VReg) (a b : Fin 16) (m : Reg) (s : State) : Out := s.issueVec (.vscs t d a b m)
def execVscx (t : Fin 16) (d : VReg) (a : Fin 16) (b : VReg) (m : Reg) (s : State) : Out :=
  s.issueVec (.vscx t d a b m)
def execVmv (d a : VReg) (m : Reg) (k : Bool) (s : State) : Out := s.issueVec (.vmv d a m k)
def execVsel (d a b : VReg) (m : Reg) (k : Bool) (s : State) : Out := s.issueVec (.vsel d a b m k)
def execVperm (d a b : VReg) (k : Bool) (s : State) : Out := s.issueVec (.vperm d a b k)
def execVslide (d a : VReg) (b : Fin 16) (k : Bool) (s : State) : Out := s.issueVec (.vslide d a b k)
def execVcmpr (d a : VReg) (m : Reg) (k : Bool) (s : State) : Out := s.issueVec (.vcmpr d a m k)
def execVexpd (d a : VReg) (m : Reg) (k : Bool) (s : State) : Out := s.issueVec (.vexpd d a m k)
def execVext (m : Reg) (a : VReg) (b : Fin 16) (k : Bool) (s : State) : Out := s.issueVec (.vext m a b k)
def execVins (d : VReg) (m : Reg) (b : Fin 16) (s : State) : Out := s.issueVec (.vins d m b)
def execVzero (d : VReg) (s : State) : Out := s.issueVec (.vzero d)
def execVbcs (t : Fin 16) (d : VReg) (m : Reg) (s : State) : Out := s.issueVec (.vbcs t d m)
def execVredsum (t : VTy) (d a : VReg) (m : Reg) (k : Bool) (s : State) : Out := s.issueVec (.vredsum t d a m k)
def execVredmin (t : VTy) (d a : VReg) (m : Reg) (k : Bool) (s : State) : Out := s.issueVec (.vredmin t d a m k)
def execVredmax (t : VTy) (d a : VReg) (m : Reg) (k : Bool) (s : State) : Out := s.issueVec (.vredmax t d a m k)
def execVcvt (dt st : Fin 16) (d a : VReg) (m : Reg) (k : Bool) (s : State) : Out := s.issueVec (.vcvt dt st d a m k)
def execVbsc (n : Fin 8) (d a : VReg) (k : Bool) (s : State) : Out := s.issueVec (.vbsc n d a k)
def execVbsa (n : Fin 8) (d a b : VReg) (k : Bool) (s : State) : Out := s.issueVec (.vbsa n d a b k)
def execVtag (d : VReg) (t : Fin 16) (s : State) : Out := s.issueVec (.vtag d t)

end Sys2Proof.Machine
end

