-- ==== Sys2Proof/Machine/Tasks.lean ====
section
/-! DEFINITION. The task instructions: records and requests, the end of a frame, claims, time words,
cancels, gangs and overlays (R394 to R401). -/

namespace Sys2Proof.Machine

/-! ### What holds a sender back (R146, R153, R190, R212) -/

/-- The counter of a sender's stall at that place. -/
def stallCode (x : Flight) : Nat :=
  match x.dst with
  | .landing _ _ => cLSTALL
  | _ => cISTALL

/-- A sender one of whose records cannot leave its stop stalls, and each stalled instruction counts once, for a partition. -/
def State.unlessHeld (s : State) (src : Source) (part : Flight → Nat) (k : Unit → State) : State :=
  match s.heldFlight src with
  | none => k ()
  | some x =>
    if s.hart.stalled then s else (s.setHart { s.hart with stalled := true }).count (stallCode x) (part x)

/-- A sender stalls where one of its records cannot leave its stop, and where its parent node does not take its counts
(R124, R146, R153, R395). The records of a front-end core leave from the dispatcher's (log entry 33). -/
def State.unlessStalled (s : State) (k : Unit → State) : State :=
  match s.agent with
  | .fe _ => s.unlessHeld .dispatcher (fun x => s.fnPart (s.fnOf x.rcd.graph)) k
  | .core lc => if s.parentFull lc then s else s.unlessHeld (.core lc) (fun _ => s.partOf lc) k

/-- An instruction waits until the frame's remote stores are acknowledged. -/
def State.storesDone (s : State) (k : Unit → State) : State :=
  match s.agent with
  | .fe _ => k ()
  | .core lc => if (s.top lc).any fun f => f.unacked != 0 then s else k ()

/-- An instruction that waits for the acknowledgement of the frame's remote stores: it waits, or takes the
trap of the first that failed, or goes on (R190, R212). -/
def State.acked (s : State) (k : Unit → State) : State :=
  match s.agent with
  | .fe _ => k ()
  | .core lc =>
    match s.top lc with
    | none => k ()
    | some f =>
      if f.unacked ≠ 0 then s
      else
        match f.rejected with
        | some e => s.trap e.1 e.2
        | none => k ()

/-! ### Reading a block (R377) -/

/-- Read n doublewords at an address that must be a multiple of their size, in s0, which follows s; the trap
where it is not is the caller's. -/
def State.blockFrom (s s0 : State) (addr : Word) (n : Nat) (misaligned : Unit → State) (k : List Word → State → State) :
    State :=
  if !s.spaceOk addr (8 * n) then s.trap ADDRESS addr
  else if !aligned addr (8 * n) then misaligned ()
  else s.afterLoads (s0.loadWords addr n) k

def State.block (s : State) (addr : Word) (n : Nat) (misaligned : Unit → State) (k : List Word → State → State) : State :=
  s.blockFrom s addr n misaligned k

/-! ### Where a record may go (R90, R395) -/

/-- A named core of the own device is not mapped; the device is not in the domain of the partition that sends. -/
def State.badTargetIn (s : State) (p : Nat) (r : Rec) : Bool :=
  (!r.any && r.dev == s.devid.toNat && !s.mapped r.tcore) || !s.inDomain p r.dev
def State.badTarget (s : State) (lc : Nat) (r : Rec) : Bool := s.badTargetIn (s.partOf lc) r

/-- A record that a cancel mark drops where it is sent: nothing is posted, and the drop is counted (R110,
R114). -/
def State.dropUnsent (s : State) (r : Rec) : State := s.count cCNCLDROP (s.fnPart (s.fnOf r.graph))

/-- Send a record that a frame posts: it is counted and leaves, or is dropped where a mark matches it
(R110, R122). -/
def State.postRecord (s : State) (lc : Nat) (r : Rec) : State :=
  if s.marked r.graph r.q1 then s.dropUnsent r else (s.post lc (r.delta 1 [])).send (.core lc) r false

/-- `post` by a frame: the checks of R395, the count, and the record (R90, R123). -/
def State.postByFrame (s : State) (i : Instr) (lc : Nat) (f : Frame) (addr : Word) (r : Rec) : State :=
  let r := if r.level = 0 then r.set 24 3 f.level else r
  if r.level = 7 ∨ r.kind ≥ 2 then s.illegal i
  else if s.badTarget lc r then s.trap ADDRESS addr
  else
    match s.checkTarget f r.graph r.station r.q1 with
    | some k => s.trap TIME (BitVec.ofNat 64 k)
    | none => (s.postRecord lc r).retire i

/-- What CheckTarget finds without a frame's graph and time (R115, R123). -/
def State.checkTargetFe (s : State) (r : Rec) : Option Nat :=
  match s.graph r.graph with
  | none => some 2
  | some g =>
    if r.station ≥ g.stations then some 2
    else if !wellFormedTime r.q1 || depthOf r.q1 != g.depth r.station then some 1
    else none

/-- `post` by a front-end core: it has no frame whose graph, time or level the record could be held to; its partition is that
of the record's graph, and its record is counted at the root and sent by the dispatcher (log entry 33). -/
def State.postByFe (s : State) (i : Instr) (addr : Word) (r : Rec) : State :=
  let r := if r.level = 0 then r.set 24 3 (1 + Config.fePostLevel s.tick % 6) else r
  if r.level = 7 ∨ r.kind ≥ 2 then s.illegal i
  else if s.badTargetIn (s.fnPart (s.fnOf r.graph)) r then s.trap ADDRESS addr
  else if let some k := s.checkTargetFe r then s.trap TIME (BitVec.ofNat 64 k)
  else if s.marked r.graph r.q1 then (s.dropUnsent r).retire i
  else ((s.applyDeltas r.graph [r.delta 1 []]).send .dispatcher r false).retire i

/-- `post` (R395). -/
def execPost (a : Reg) (s : State) : Out :=
  s.run (.post a) fun v =>
    let ea := v.getD 0 0
    s.unlessStalled fun _ => s.acked fun _ =>
      s.block ea 8 (fun _ => s.trap ALIGN ea) fun l s1 =>
        let r := Rec.ofWords l
        match s1.agent with
        | .fe _ => s1.postByFe (.post a) ea r
        | .core lc =>
          match s1.top lc with
          | none => s
          | some f => s1.postByFrame (.post a) lc f ea r

/-- The end of a frame's work that an agent's own instruction brings (R99). -/
def State.endNow (s : State) (lc : Nat) (f : Frame) : State :=
  if f.streams.toList.any (fun x => x.any fun t => t.out && t.fifo != []) || f.draining != [] then s
  else s.countRetired.endFrame lc false []

/-- TRAPVAL of CLAIM (R107). -/
def claimVal (reason k : Nat) : Word := BitVec.ofNat 64 (reason * 256 + k)

/-- `end` (R99, R396). It is re-executed until its waits are over. -/
def execEndTask (s : State) : Out :=
  s.run .endTask fun _ =>
    match s.agent with
    | .fe _ => s
    | .core lc =>
      match s.top lc with
      | none => s
      | some f =>
        match f.claims with
        | c :: _ => s.trap CLAIM (claimVal 7 c.slot)
        | [] => s.unlessStalled fun _ => s.acked fun _ => s.endNow lc f

/-! ### Claims (R105 to R107) -/

/-- A resource table entry: its valid bit and its home (R301). -/
def State.resource (s : State) (g k : Nat) : BitVec 32 := ((s.graph g).map fun x => x.resources.getD k 0).getD 0

/-- The ceiling the header gives a slot (R297). -/
def Frame.ceiling (f : Frame) (k : Nat) : Nat := bits f.hdr.ceilings (4 * k) 4

/-- The reason of the CLAIM trap of a claim. -/
def State.claimReason (s : State) (lc : Nat) (f : Frame) (k : Nat) : Option Nat :=
  let h := s.resource f.graph k
  let c := f.ceiling k
  if !h.getLsbD 31 || h.toNat % 1024 != lc then some 1
  else if c = 0 ∨ c < f.level then some 2
  else if f.claims.length ≥ 7 then some 3
  else if f.claims.any fun x => x.slot == k then some 4
  else none

/-- The running frame of the acting core, for an instruction that only a frame has. -/
def State.withFrame (s : State) (i : Instr) (k : Nat → Frame → List Word → State) : Out :=
  s.run i fun v =>
    match s.agent with
    | .fe _ => s
    | .core lc =>
      match s.top lc with
      | none => s
      | some f => k lc f v

/-- `claim k`. -/
def execClaim (k : Fin 16) (s : State) : Out :=
  s.withFrame (.claim k) fun lc f _ =>
    match s.claimReason lc f k.val with
    | some r => s.trap CLAIM (claimVal r k.val)
    | none =>
      (s.setTop lc { f with
        claims := ⟨f.thresh, k.val⟩ :: f.claims, thresh := max f.thresh (f.ceiling k.val) }).retire (.claim k)

/-- `rels k`. -/
def execRels (k : Fin 16) (s : State) : Out :=
  s.withFrame (.rels k) fun lc f _ =>
    match f.claims with
    | [] => s.trap CLAIM (claimVal 6 k.val)
    | c :: l =>
      if c.slot ≠ k.val then s.trap CLAIM (claimVal 5 k.val)
      else (s.setTop lc { f with claims := l, thresh := c.before }).retire (.rels k)

/-! ### Notification requests (R133, R397) -/

/-- Place a request: the checks of R133, and the request delta. -/
def State.request (s : State) (i : Instr) (lc : Nat) (f : Frame) (addr : Word) (r : Rec) : State :=
  if r.kind ≠ 2 ∨ r.level = 0 ∨ r.level = 7 ∨ r.q2 ≠ 0 ∨ r.q3 ≠ 0 then s.illegal i
  else if s.badTarget lc r then s.trap ADDRESS addr
  else
    match s.checkTarget f r.graph r.station r.q1 with
    | some k => s.trap TIME (BitVec.ofNat 64 k)
    | none => (s.post lc ⟨r.graph, r.station, r.q1, 1, some r, []⟩).retire i

/-- `ntfy`. -/
def execNtfy (a : Reg) (s : State) : Out :=
  s.withFrame (.ntfy a) fun lc f v =>
    let ea := v.getD 0 0
    s.unlessStalled fun _ => s.acked fun _ =>
      s.block ea 8 (fun _ => s.illegal (.ntfy a)) fun l s1 =>
        match s1.top lc with
        | none => s
        | some _ => s1.request (.ntfy a) lc f ea (Rec.ofWords l)

/-! ### Time words (R138, R398) -/

/-- The reason of the TIME trap of applying a summary to a time word, or the result. -/
def advanceTime (t : Word) (m : BitVec 16) : Nat ⊕ Word :=
  if !wellFormedTime t then .inl 1
  else
    let left := depthOf t - sumL m
    if !sumV m || m.getLsbD 8 || sumL m > 4 || sumE m > 4 || sumL m > depthOf t || (left == 0 && sumK m != 0) ||
        left + sumE m > 4 then .inl 5
    else
      match applySum m t with
      | none => .inl 4
      | some u => .inr u

/-- Write the advanced time or take TIME. -/
def State.advanceTo (s : State) (i : Instr) (d : Reg) (r : Nat ⊕ Word) : State :=
  match r with
  | .inl k => s.trap TIME (BitVec.ofNat 64 k)
  | .inr u => s.finish i d u

/-- `tadv`: bits above the summary trap first. -/
def execTadv (d a b : Reg) (s : State) : Out :=
  s.run (.tadv d a b) fun v =>
    let m := v.getD 1 0
    s.advanceTo (.tadv d a b) d
      (if bits m 16 48 ≠ 0 then .inl 5 else advanceTime (v.getD 0 0) (BitVec.ofNat 16 m.toNat))

/-- `tadvi`: the summary is in the instruction (R286). -/
def execTadvi (d a : Reg) (l e : Fin 8) (k : Fin 64) (s : State) : Out :=
  s.run (.tadvi d a l e k) fun v =>
    s.advanceTo (.tadvi d a l e k) d
      (advanceTime (v.getD 0 0) (BitVec.ofNat 16 (0x8000 + l.val * 4096 + e.val * 512 + k.val)))

/-- −1, 0 or 1 (R138). -/
def compareTimes (t u : Word) : Word := if timeLt t u then BitVec.allOnes 64 else if timeLt u t then 1 else 0

/-- `tcmp`. -/
def execTcmp (d a b : Reg) (s : State) : Out :=
  s.run (.tcmp d a b) fun v =>
    let t := v.getD 0 0
    let u := v.getD 1 0
    if !wellFormedTime t || !wellFormedTime u then s.trap TIME 1 else s.finish (.tcmp d a b) d (compareTimes t u)

/-! ### Cancels (R109 to R111, R165, R399) -/

/-- A record that a task-level cancel names. -/
def namedBy (g st : Nat) (t : Word) (r : Rec) : Bool := r.graph == g && r.station == st && r.q1 == t

/-- Remove the matching records of a core's inbox and spill ring: how many, and the state. Each posts its
decrement. -/
def State.cancelQueued (s : State) (lc g st : Nat) (t : Word) : Nat × State :=
  let c := s.core lc
  let hit := c.waiting.filter fun e => namedBy g st t e.2.rcd
  let spilled := c.spill.filter fun q => namedBy g st t q.rcd
  let s0 := s.setCore lc { c with spill := c.spill.filter fun q => !namedBy g st t q.rcd }
  let s1 := hit.foldl (fun s e => (s.post lc (e.2.rcd.delta (-1) [])).dropQueued lc e) s0
  let s2 := spilled.foldl (fun s q => (s.post lc (q.rcd.delta (-1) [])).unhand q.rcd lc q.landed) s1
  (hit.length + spilled.length, s2)

/-- A station of a graph slot and a time word of its depth: another matches no record (R399). -/
def State.namesTime (s : State) (g st : Nat) (t : Word) : Bool :=
  (s.graph g).any fun x => decide (st < x.stations) && wellFormedTime t && depthOf t == x.depth st

/-- `cncl.t`. -/
def execCnclT (d a : Reg) (st : Fin 64) (s : State) : Out :=
  s.withFrame (.cnclT d a st) fun lc f v =>
    let t := v.getD 0 0
    let r := if s.namesTime f.graph st.val t then s.cancelQueued lc f.graph st.val t else (0, s)
    r.2.finish (.cnclT d a st) d (BitVec.ofNat 64 r.1)

/-- The number under which `cncl.l` keeps its result while the other modules of the domain acknowledge its mark. -/
def cnclTag : Nat := 2 ^ 64

/-- `cncl.l`: it retires once every module of the domain has acknowledged its mark (R110). -/
def execCnclL (d a : Reg) (p : Fin 8) (s : State) : Out :=
  s.withFrame (.cnclL d a p) fun lc f v =>
    let m : CancelMark := ⟨v.getD 0 0, p.val, false⟩
    match f.h.sent.find? fun x => x.tag == cnclTag with
    | some x => if s.markOut f.graph m then s else s.finish (.cnclL d a p) d x.addr
    | none =>
      let r := s.install f.graph m
      if r.1 = 2 then (r.2.count cCNCLBUSY (s.partOf lc)).finish (.cnclL d a p) d 2
      else if r.2.markOut f.graph m then r.2.noteSent ⟨BitVec.ofNat 64 r.1, cnclTag, false, some (.data [])⟩
      else r.2.finish (.cnclL d a p) d (BitVec.ofNat 64 r.1)

/-! ### Gangs (R182 to R185, R400) -/

/-- The slots of a form, by physical number, for a leader at a physical core. -/
def gangSlots (f : GangForm) (p : Nat) : List Nat :=
  match f with
  | .pair => span (p / 2 * 2) 2
  | .tile => span (p / 4 * 4) 4
  | .tpair => span (p / 8 * 8) 8

/-- A tile is stopped for a swap of its die (R81). -/
def State.quiescing (s : State) (tile : Nat) : Bool :=
  match (s.die (tile / 32)).swap with
  | some x => x.phase == .quiesced && x.pairs.any fun p => p.1 == tile || p.2 == tile
  | none => false

/-- What `gang` writes, and the partners, in the order of their slots (R400). -/
def State.gangCode (s : State) (lc : Nat) (f : Frame) (form : GangForm) : Nat × List Nat :=
  let slots := (gangSlots form (s.phys lc)).filter (· != s.phys lc)
  let partners := slots.filterMap fun p => s.logicalAt p 1024
  if f.gang.isSome then (2, [])
  else if partners.length ≠ slots.length ∨ partners.any (fun m => !s.inPart (s.partOf lc) m) then (3, [])
  else if (lc :: partners).any s.heldCore || (form == .tpair && slots.any fun p => s.quiescing (p / 4)) then (4, [])
  else if partners.any fun m => decide (f.level ≤ (s.core m).prio ∨ f.level ≤ (s.core m).thresh) then (1, [])
  else (0, partners)

/-- The frame a partner gets: no scalar window, the leader's level (R182). -/
def memberFrame (lc : Nat) (f : Frame) (c : Core) : Frame :=
  { Frame.zero with
    level := f.level, thresh := f.level, leader := some lc, window := 0, ltime := f.ltime, station := f.station
    graph := f.graph, low := c.lowest }

/-- Give a partner its member frame. -/
def State.joinGang (s : State) (lc : Nat) (f : Frame) (m : Nat) : State :=
  let s0 := s.abandon m
  let c := s0.core m
  s0.setCore m { c with busy := true, frames := memberFrame lc f c :: uncover c.frames }

/-- `gang`: a header without the flag raises ILLEGAL (R298). -/
def execGang (d : Reg) (form : GangForm) (s : State) : Out :=
  s.withFrame (.gang d form) fun lc f _ =>
    if f.hdr.flags / 2 % 2 = 0 then s.illegal (.gang d form)
    else
      let r := s.gangCode lc f form
      let s1 :=
        if r.1 = 0 then
          r.2.foldl (fun s m => s.joinGang lc f m) (s.setTop lc { f with gang := some ⟨form, lc :: r.2⟩, latch := none })
        else s
      s1.finish (.gang d form) d (BitVec.ofNat 64 r.1)

/-- `disband`. -/
def execDisband (s : State) : Out :=
  s.withFrame .disband fun lc f _ =>
    let s1 := s.disband lc
    (match s1.top lc with
      | some g => if f.gang.isSome then s1.setTop lc { g with latch := none } else s1
      | none => s1).retire .disband

/-! ### Overlays (R304, R305, R401) -/

/-- `ovl n`: the same local position of overlay n, fetched anew. DESIGN CHOICE (log entry 114): an `ovl` is beyond the image where
the first word of overlay n is past the code, and TRAPVAL is the byte address of the word it would go to; a position past the
end of a partly filled overlay raises ADDRESS at its fetch, as every fetch outside the overlay does. -/
def execOvl (n : Fin 1024) (s : State) : Out :=
  s.withFrame (.ovl n) fun lc f _ =>
    match f.overlay with
    | none => s.illegal (.ovl n)
    | some _ =>
      let t := 0x4000 * n.val + (f.h.pc + 1) % 0x4000
      if 0x4000 * n.val ≥ s.codeWords f.graph then s.trap ADDRESS (s.codeBase f.graph + BitVec.ofNat 64 (4 * t))
      else
        let f1 := { f with overlay := some n.val }
        (((s.setTop lc f1).dropIcache (s.tileOf lc)).openWindow lc f1).goTo t

end Sys2Proof.Machine
end

