-- ==== Sys2Proof/Machine/Engines.lean ====
section
/-! DEFINITION. The engine instructions and the steps of the copy unit, the streamer, the collectives and
the futures (R175, R176, R202, R377 to R385, R391 to R393). -/

namespace Sys2Proof.Machine

/-! ### The accesses of engines (R202, R213, R242) -/

/-- Copy n bytes: the read, and in a later step the write. -/
def State.engMove (s : State) (x : Issuer) (src dst : Word) (n : Nat) : Eng :=
  match s.keepRead x.key src 4 (s.engRead x src n) with
  | .ok bs s1 =>
    match s1.engWrite x dst bs with
    | .ok _ s2 => .ok [] (s2.forgetEng x.key src 4)
    | .bad s2 => .bad (s2.forgetEng x.key src 4)
    | .fault s2 => .fault (s2.forgetEng x.key src 4)
    | .wait s2 => .wait s2
  | y => y

/-! ### Issue (R377 to R380) -/

/-- Read a successor image and check it (R378): its words are read after the descriptor's, in s0; a trap is
taken from s. -/
def State.image (s s0 : State) (i : Instr) (lc : Nat) (f : Frame) (addr : Word) (k : Rec → State → State) : State :=
  s.blockFrom s0 addr 8 (fun _ => s.illegal i) fun l s1 =>
    let r := Rec.ofWords l
    let r' := if r.level = 0 then r.set 24 3 f.level else r
    if (r.kind ≠ 0 ∧ r.kind ≠ 3) ∨ r'.level = 7 ∨ r.fpn ≠ 0 then s.illegal i
    else if s.badTarget lc r' then s.trap ADDRESS addr
    else
      match s.checkTarget f r'.graph r'.station r'.q1 with
      | some e => s.trap TIME (BitVec.ofNat 64 e)
      | none => k r' s1

/-- What the fields of a descriptor are found to be. -/
inductive Fields where
  | ok | illegal | trap (cls : Nat) (val : Word)
  deriving DecidableEq, Repr

/-- An engine instruction that reads a descriptor of n words at its first operand (R377 steps 1 to 3). One that names a
successor stalls where its core's counts or records cannot leave (R124, R146). -/
def State.engine (s : State) (i : Instr) (n : Nat) (fields : Frame → List Word → Fields)
    (k : Nat → Frame → List Word → List Word → State → State) (names : List Word → Bool := fun _ => true) : Out :=
  s.withFrame i fun lc f v =>
    let ea := v.getD 0 0
    s.acked fun _ =>
      s.block ea n (fun _ => s.trap ALIGN ea) fun d s1 =>
        match fields f d with
        | .illegal => s.illegal i
        | .trap c w => s.trap c w
        | .ok => if names d then s.unlessStalled fun _ => k lc f v d s1 else k lc f v d s1

/-- The issue of an engine instruction ends: the successor's count is posted and it retires (R102, R122). -/
def State.started (s : State) (i : Instr) (lc : Nat) (succ : Option Rec) : State :=
  (match succ with
    | some r => s.post lc (r.delta 1 [])
    | none => s).retire i

/-- A range of an operand: a window range is checked under R189 when the instruction issues, a global
address only for its space. -/
def State.operandOk (s : State) (addr : Word) (n : Nat) : Bool :=
  if addr.toNat / 2 ^ 56 = 0 then true else s.spaceOk addr n

/-- Change the frame of a level on a core. -/
def State.frameAt (s : State) (lc level : Nat) : Option Frame := (s.core lc).frames.find? fun f => f.level == level
def State.setFrameAt (s : State) (lc level : Nat) (x : Frame) : State :=
  let c := s.core lc
  s.setCore lc { c with frames := c.frames.map fun f => if f.level = level then x else f }

/-! ### Copies (R175, R176, R381, R382) -/

def State.chan (s : State) (lc level ch : Nat) : Chan := tget Chan.reset (s.core lc).chans (2 * level + ch)
def State.setChan (s : State) (lc level ch : Nat) (x : Chan) : State :=
  let c := s.core lc
  s.setCore lc { c with chans := tput (2 * level + ch) x c.chans }

/-- The fields of a copy descriptor. -/
def copyFields (d : List Word) : Fields :=
  let src := d.getD 0 0
  let dst := d.getD 1 0
  let len := bits (d.getD 2 0) 0 40
  if bits (d.getD 2 0) 41 23 ≠ 0 ∨ d.getD 3 0 ≠ 0 then .illegal
  else if src.toNat % 16 ≠ 0 then .trap ALIGN src
  else if dst.toNat % 16 ≠ 0 then .trap ALIGN dst
  else if len % 16 ≠ 0 then .trap ALIGN (BitVec.ofNat 64 len)
  else .ok

/-- `cpy`: the descriptor joins its channel's queue; a full queue stalls it. -/
def execCpy (c : Fin 2) (a b : Reg) (s : State) : Out :=
  s.engine (.cpy c a b) 4 (fun _ d => copyFields d) fun lc f v d s1 =>
    s.image s1 (.cpy c a b) lc f (v.getD 1 0) fun r s1 =>
      let x : CopyDesc :=
        { src := d.getD 0 0, dst := d.getD 1 0, len := bits (d.getD 2 0) 0 40, arm := bit (d.getD 2 0) 40, succ := r }
      let q := s1.chan lc f.level c.val
      if !s.operandOk x.src x.len then s.trap ADDRESS x.src
      else if !s.operandOk x.dst x.len then s.trap ADDRESS x.dst
      else if q.queue.length ≥ 4 then s
      else (s1.setChan lc f.level c.val { q with queue := q.queue ++ [x] }).started (.cpy c a b) lc (some r)

/-- A core's engines work: it is mapped, and not stopped for a swap, a preemption or by the trip of its tile (R84, R188). -/
def State.enginesRun (s : State) (lc : Nat) : Bool :=
  s.mapped lc && !(s.core lc).stopped && !(s.tile (s.tileOf lc)).tripped

/-- The number of a copy channel among the engines. -/
def chanKey (lc level ch : Nat) : Nat := (lc * 8 + level) * 2 + ch

/-- Take the lowest free arm entry of a logical core. -/
def State.takeArm (s : State) (lc : Nat) (x : Arm) : Option (Nat × State) :=
  let c := s.core lc
  ((span 0 4).find? fun i => (c.arms.toList.getD i none).isNone).bind fun i =>
    if h : i < 4 then some (i, s.setCore lc { c with arms := c.arms.set i (some x) }) else none

def State.setArm (s : State) (lc i : Nat) (x : Option Arm) : State :=
  let c := s.core lc
  if h : i < 4 then s.setCore lc { c with arms := c.arms.set i x } else s

/-- The armed range of a descriptor: a window range of a logical core of the own device. -/
def State.armRange (s : State) (d : CopyDesc) : Option (Nat × Arm) :=
  match spaceOf d.dst d.len with
  | .window dev lc off => if d.arm && dev == s.devid.toNat then some (lc, ⟨off, off + d.len, off⟩) else none
  | _ => none

/-- The engine that a delivered successor comes from: the copy unit of the core's tile. -/
def State.copyUnit (s : State) (lc : Nat) : Source := .engine (64 + s.tileOf lc)

/-- A descriptor starts on its channel (R175, R176); one of length 0 is over at once (R382). -/
def execCopyStart (lc level ch : Nat) (s : State) : Out :=
  let q := s.chan lc level ch
  match q.cur, q.queue with
  | none, d :: l =>
    if !s.enginesRun lc then .next s
    else if d.len = 0 then
      .next ((s.setChan lc level ch { q with queue := l }).deliver (s.copyUnit lc) (s.dieOf lc) d.succ 0)
    else
      let op : CopyOp :=
        { d := d, moved := [], skipped := 0, reach := 0, fault := none, arm := none, refused := d.arm }
      match (s.armRange d).bind fun r => (s.takeArm r.1 r.2).map fun t => (r.1, t) with
      | some (tlc, i, s1) =>
        .next (s1.setChan lc level ch { cur := some { op with arm := some (tlc, i), refused := false }, queue := l })
      | none => .next (s.setChan lc level ch { cur := some op, queue := l })
  | _, _ => .next s

/-- The watermark rises past granules that have been written or skipped, from the k-th on. -/
def risen (moved : Table Bool) : Nat → Nat → Nat
  | k, 0 => k
  | k, n + 1 => if (tfind moved k).isSome then risen moved (k + 1) n else k

/-- Raise the watermark of a copy; at the end of its range the entry frees. -/
def State.raise (s : State) (op : CopyOp) : State × CopyOp :=
  match op.arm with
  | none => (s, op)
  | some (lc, i) =>
    match (s.core lc).arms.toList.getD i none with
    | none => (s, op)
    | some a =>
      let wm := a.lo + 16 * risen op.moved ((a.wm - a.lo) / 16) op.moved.length
      if wm ≥ a.hi then (s.setArm lc i none, { op with arm := none })
      else (s.setArm lc i (some { a with wm := wm }), op)

/-- Granules from a point of an address to the end of its 64 KiB chunk. -/
def toChunkEnd (addr : Word) : Nat := (65536 - addr.toNat % 65536) / 16

/-- One chunk more of a copy is translated (R202): source, then destination. A window operand is not
translated. -/
def State.reachOn (s : State) (x : Issuer) (op : CopyOp) : CopyOp × State :=
  let src := op.d.src + BitVec.ofNat 64 (16 * op.reach)
  let dst := op.d.dst + BitVec.ofNat 64 (16 * op.reach)
  let look := fun (s : State) (a : Word) (need : Nat) =>
    match spaceOf a 16 with
    | .global va => s.engSpan x va 16 need
    | .window _ _ _ => .pas [] s
    | .bad => .trap ADDRESS
  match look s src needR with
  | .trap _ => ({ op with fault := some op.reach }, s)
  | .wait s1 => (op, s1)
  | .pas _ s1 =>
    match look s1 dst needW with
    | .trap _ => ({ op with fault := some op.reach }, s1)
    | .wait s2 => (op, s2)
    | .pas _ s2 => ({ op with reach := op.reach + min (toChunkEnd src) (toChunkEnd dst) }, s2)

/-- The access of an engine at an address leaves the module. -/
def State.leavesModule (s : State) (x : Issuer) (addr : Word) (need : Nat) : Bool :=
  match spaceOf addr 16 with
  | .bad => false
  | .window dev _ _ => dev != s.devid.toNat
  | .global va =>
    match s.engSpan x va 16 need with
    | .pas l s1 =>
      match s1.region (l.headD 0) with
      | .remote _ _ => true
      | _ => false
    | _ => false

/-- Who a copy works for. -/
def State.copyIssuer (s : State) (lc level ch : Nat) (op : CopyOp) : Issuer :=
  ⟨chanKey lc level ch, lc, s.ctxOf op.d.succ.graph, s.fnOf op.d.succ.graph⟩

/-- A granule's turn has come: in any order, but where its access leaves the module in ascending order, since an owner may
reject it and nothing beyond a reject is written (R176, R202, R382). -/
def State.copyTurn (s : State) (x : Issuer) (op : CopyOp) (g : Nat) : Bool :=
  g == risen op.moved 0 op.moved.length ||
    !(s.leavesModule x (op.d.src + BitVec.ofNat 64 (16 * g)) needR || s.leavesModule x (op.d.dst + BitVec.ofNat 64 (16 * g)) needW)

/-- The point at which a fault at a granule ends a copy: the first granule of its chunk that is neither written nor
skipped (R202). DESIGN CHOICE (log entry 116): a chunk that is translated anew after a shootdown and faults has granules
written already (R203, R214); those above that point keep what was written, which R176 and R202 leave open. -/
def CopyOp.stopAt (op : CopyOp) (g : Nat) : Nat :=
  let back := fun a : Word => (a.toNat + 16 * g) % 65536 / 16
  risen op.moved (g - min (back op.d.src) (back op.d.dst)) op.moved.length

/-- A granule of a copy has been routed and has not arrived. -/
def Flying.of (lc level ch g : Nat) (f : Flying) : Bool := f.lc == lc && f.level == level && f.ch == ch && f.granule == g

/-- A granule of a copy is still to be written. -/
def State.granuleDue (s : State) (lc level ch : Nat) (op : CopyOp) (g : Nat) : Bool :=
  decide (g < op.d.len / 16) && !op.fault.any (fun k => k ≤ g) && (tfind op.moved g).isNone && !s.mem.flying.any (Flying.of lc level ch g)

/-- A granule of a copy is routed to the stop of the core whose quarter it goes to; a held core takes none (R25, R83). -/
def State.routeGranule (s : State) (lc level ch g : Nat) : State :=
  match (s.chan lc level ch).cur with
  | none => s
  | some op =>
    let x := s.copyIssuer lc level ch op
    match spaceOf (op.d.dst + BitVec.ofNat 64 (16 * g)) 16 with
    | .window dev core off =>
      if !s.enginesRun lc || !s.granuleDue lc level ch op g || !s.copyTurn x op g || decide (op.reach ≤ g) || dev != s.devid.toNat ||
          !s.reachable (s.partOf lc) core || s.shut core then s
      else
        match s.engRead x (op.d.src + BitVec.ofNat 64 (16 * g)) 16 with
        | .ok bs s1 => { s1 with mem := { s1.mem with flying := s1.mem.flying ++ [⟨lc, level, ch, g, core, off, bs⟩] } }
        | _ => s
    | _ => s

/-- A routed granule reaches the quarter where it now lies, and is written once (R83). -/
def State.landFlying (s : State) (f : Flying) : State :=
  let s0 := { s with mem := { s.mem with flying := s.mem.flying.filter fun x => !Flying.of f.lc f.level f.ch f.granule x } }
  let as := span (cellarKey f.core f.off) f.data.length
  let q := s0.chan f.lc f.level f.ch
  match q.cur with
  | none => s0
  | some op =>
    let ok := s0.storableCellar as
    let s1 := if ok then s0.writeCellar as f.data else s0.meetCellarUe as
    let r := s1.raise { op with moved := tput f.granule ok op.moved, skipped := if ok then op.skipped else op.skipped + 1 }
    r.1.setChan f.lc f.level f.ch { q with cur := some r.2 }

/-- The routed granules of a channel go: it is killed. -/
def State.dropFlying (s : State) (lc level ch : Nat) : State :=
  { s with mem := { s.mem with flying := s.mem.flying.filter fun x => !(x.lc == lc && x.level == level && x.ch == ch) } }

/-- One granule of a copy (R382): its chunk is translated, or the granule is written or skipped. -/
def execCopyGranule (lc level ch g : Nat) (s : State) : Out :=
  let q := s.chan lc level ch
  match q.cur with
  | none => .next s
  | some op =>
    let x := s.copyIssuer lc level ch op
    let put := fun (s : State) (op : CopyOp) => s.setChan lc level ch { q with cur := some op }
    if !s.enginesRun lc || !s.granuleDue lc level ch op g || !s.copyTurn x op g then .next s
    else if op.reach ≤ g then
      let r := s.reachOn x op
      .next (put r.2 r.1)
    else
      match s.engMove x (op.d.src + BitVec.ofNat 64 (16 * g)) (op.d.dst + BitVec.ofNat 64 (16 * g)) 16 with
      | .ok _ s1 => let r := s1.raise { op with moved := tput g true op.moved }; .next (put r.1 r.2)
      | .bad s1 => let r := s1.raise { op with moved := tput g false op.moved, skipped := op.skipped + 1 }; .next (put r.1 r.2)
      | .fault s1 => .next (put s1 { op with fault := some (op.stopAt g) })
      | .wait s1 => .next s1

/-- How many granules of a copy are to be written or skipped. -/
def CopyOp.goal (op : CopyOp) : Nat := op.fault.getD (op.d.len / 16)

/-- The status of a copy (R379). -/
def CopyOp.status (op : CopyOp) : Word :=
  match op.fault with
  | some k => statusWord k op.refused 0 2
  | none => statusWord op.skipped op.refused 0 0

/-- A copy ends once every write has landed: its arm entry frees, then its successor is delivered (R176, R382). -/
def execCopyComplete (lc level ch : Nat) (s : State) : Out :=
  let q := s.chan lc level ch
  match q.cur with
  | none => .next s
  | some op =>
    let x := s.copyIssuer lc level ch op
    if (op.moved.filter fun e => e.1 < op.goal).length < op.goal || s.mem.flying.any (fun x => x.lc == lc && x.level == level && x.ch == ch) ||
        s.engWaits x.key then .next s
    else
      let s1 := match op.arm with
        | some (tlc, i) => s.setArm tlc i none
        | none => s
      .next ((((s1.engDone x).forgetKey x.key).setChan lc level ch { q with cur := none }).deliver (s.copyUnit lc) (s.dieOf lc) op.d.succ op.status)

/-! ### Streams (R173, R174, R383) -/

/-- The fields of a stream descriptor. -/
def streamFields (f : Frame) (r : Reg) (d : List Word) : Fields :=
  let n := bits (d.getD 1 0) 0 32
  if bits (d.getD 1 0) 32 32 ≠ 0 ∨ d.getD 3 0 ≠ 0 ∨ n = 0 ∨ (d.getD 0 0).toNat % 8 ≠ 0 ∨ (d.getD 2 0).toNat % 8 ≠ 0 ∨
      f.window < 32 ∨ (f.stream r).isSome then .illegal
  else .ok

/-- s28 to s31. -/
def streamReg (d : Fin 4) : Reg := ⟨28 + d.val, by omega⟩

/-- Bind a register to a stream, once the instruction has read its sources. -/
def bindStream (i : Instr) (out : Bool) (d : Fin 4) (s : State) : Out :=
  s.engine i 4 (fun f w => streamFields f (streamReg d) w) fun lc f v w s1 =>
    s.image s1 i lc f (v.getD 1 0) fun r s1 =>
      let base := w.getD 0 0
      let n := bits (w.getD 1 0) 0 32
      let x : Stream :=
        { id := s.tick, out := out, base := base, stride := w.getD 2 0, n := n, moved := 0, used := 0, fifo := [], ended := none, succ := r }
      if !s.operandOk base 8 then s.trap ADDRESS base
      else
        let s2 := s1.started i lc (some r)
        match s2.top lc with
        | none => s2
        | some g => s2.setTop lc (g.setStream (streamReg d) (some x))

def execStrmIn (d : Fin 4) (a b : Reg) (s : State) : Out := bindStream (.strmIn d a b) false d s
def execStrmOut (d : Fin 4) (a b : Reg) (s : State) : Out := bindStream (.strmOut d a b) true d s

/-- The address of the next element the copy unit handles. -/
def Stream.next (x : Stream) : Word := x.base + BitVec.ofNat 64 x.moved * x.stride

/-- The next element of an input stream is read into its FIFO; a fault or an uncorrectable element ends the
stream. -/
def State.refill (s : State) (x : Issuer) (t : Stream) : Stream × State :=
  if t.ended.isSome || t.moved ≥ t.n || t.fifo.length ≥ 16 then (t, s)
  else
    match s.engRead x t.next 8 with
    | .ok bs s1 => ({ t with fifo := t.fifo ++ [BitVec.ofNat 64 (leNat bs)], moved := t.moved + 1 }, s1)
    | .bad s1 => ({ t with ended := some (statusWord 1 false 0 0) }, s1)
    | .fault s1 => ({ t with ended := some (statusWord t.moved false 0 2) }, s1)
    | .wait s1 => (t, s1)

/-- The first pushed element of an output stream is written. -/
def State.drainOut (s : State) (x : Issuer) (t : Stream) : Stream × State :=
  match t.fifo with
  | [] => (t, s)
  | w :: l =>
    if t.ended.isSome then ({ t with fifo := [] }, s)
    else
      match s.engWrite x t.next (leBytes 8 w.toNat) with
      | .ok _ s1 => ({ t with fifo := l, moved := t.moved + 1 }, s1)
      | .bad s1 => ({ t with fifo := [], ended := some (statusWord 1 false 0 0) }, s1)
      | .fault s1 => ({ t with fifo := [], ended := some (statusWord t.moved false 0 2) }, s1)
      | .wait s1 => (t, s1)

/-- The copy unit handles an element: of the stream bound to s(28 + j), from j = 4 of the (j − 4)-th output stream whose
binding has ended, and from j = 20 of the (j − 20)-th whose frame is gone; the last write lets its successor go. -/
def execStreamElement (lc level j : Nat) (s : State) : Out :=
  if !s.enginesRun lc then .next s
  else if 20 ≤ j then
    match (s.core lc).strays[j - 20]? with
    | none => .next s
    | some t =>
      if s.streamOut lc t then .next s
      else .next ((s.setCore lc { s.core lc with strays := removeAt (s.core lc).strays (j - 20) }).streamOver lc t (t.ended.getD 0))
  else
    match s.frameAt lc level with
    | none => .next s
    | some f =>
      if h : j < 4 then
        match f.streams[j] with
        | none => .next s
        | some t =>
          let r := if t.out then s.drainOut (s.streamIssuer lc t) t else s.refill (s.streamIssuer lc t) t
          match r.2.frameAt lc level with
          | none => .next s
          | some g => .next (r.2.setFrameAt lc level { g with streams := g.streams.set j (some r.1) })
      else
        match f.draining[j - 4]? with
        | none => .next s
        | some t =>
          if t.fifo = [] then
            .next ((s.setFrameAt lc level { f with draining := removeAt f.draining (j - 4) }).streamOver lc t (t.ended.getD 0))
          else
            let r := s.drainOut (s.streamIssuer lc t) t
            .next (r.2.setFrameAt lc level { f with draining := modifyAt (fun _ => r.1) f.draining (j - 4) })

/-! ### Gather and scatter (R384, R385) -/

/-- The fields of the descriptor. -/
def gatherLsz (d : List Word) : Nat := bits (d.getD 1 0) 32 3
def gatherDist (d : List Word) : Bool := bit (d.getD 1 0) 35
def gatherN (d : List Word) : Nat := bits (d.getD 1 0) 0 32
def gatherFirst (d : List Word) : Nat := bits (d.getD 2 0) 19 10
def gatherCores (d : List Word) : Nat := bits (d.getD 2 0) 29 10
def gatherOff (d : List Word) : Nat := bits (d.getD 2 0) 0 19
def gatherPer (d : List Word) : Nat := (d.getD 3 0).toNat

def gatherFields (d : List Word) : Fields :=
  let z := 2 ^ gatherLsz d
  if bits (d.getD 1 0) 36 28 ≠ 0 ∨ gatherLsz d > 4 ∨ gatherN d = 0 ∨ gatherN d > 2 ^ 24 ∨ (d.getD 0 0).toNat % 4 ≠ 0 ∨
      d.getD 5 0 ≠ 0 ∨ d.getD 6 0 ≠ 0 ∨ d.getD 7 0 ≠ 0 then .illegal
  else if gatherDist d ∧ (bits (d.getD 2 0) 39 25 ≠ 0 ∨ gatherCores d = 0 ∨ gatherPer d = 0 ∨ gatherPer d > 2 ^ 18) then .illegal
  else if ¬ gatherDist d ∧ gatherPer d ≠ 0 then .illegal
  else if gatherDist d ∧ gatherOff d % z ≠ 0 then .trap ALIGN (BitVec.ofNat 64 (gatherOff d))
  else if ¬ gatherDist d ∧ (d.getD 2 0).toNat % z ≠ 0 then .trap ALIGN (d.getD 2 0)
  else if (d.getD 4 0).toNat % z ≠ 0 then .trap ALIGN (d.getD 4 0)
  else .ok

/-- The operands of a gather or scatter that are checked at issue. -/
def State.gatherOperand (s : State) (lc : Nat) (d : List Word) : Option Word :=
  let z := 2 ^ gatherLsz d
  if !s.operandOk (d.getD 0 0) (4 * gatherN d) then some (d.getD 0 0)
  else if gatherDist d && (span (gatherFirst d) (gatherCores d)).any (fun c => decide (c ≥ 1024) || !s.reachable (s.partOf lc) c)
  then some (d.getD 2 0)
  else if !gatherDist d && !s.operandOk (d.getD 2 0) z then some (d.getD 2 0)
  else if !s.operandOk (d.getD 4 0) (z * gatherN d) then some (d.getD 4 0)
  else none

/-- The eight words of a block as a vector. -/
def words8 (d : List Word) : Vector Word 8 := (Vector.range 8).map fun i => d.getD i 0

def gatherForm (i : Instr) (scatter : Bool) (s : State) : Out :=
  s.engine i 8 (fun _ d => gatherFields d) fun lc f v d s1 =>
    s.image s1 i lc f (v.getD 1 0) fun r s1 =>
      match s.gatherOperand lc d with
      | some a => s.trap ADDRESS a
      | none =>
        let c := s1.cluster (s1.clusterOf lc)
        let g : Gather :=
          { id := s.tick, scatter := scatter, words := words8 d, lc := lc, level := f.level, fn := s.fnOf f.graph, succ := r
            moved := 0, skipped := 0, fault := false }
        (s1.setCluster (s1.clusterOf lc) { c with gathers := c.gathers ++ [g] }).started i lc (some r)

def execGath (a b : Reg) (s : State) : Out := gatherForm (.gath a b) false s
def execScat (a b : Reg) (s : State) : Out := gatherForm (.scat a b) true s

/-- Where an index leads: none where the location is skipped (R385). -/
def State.tableAt (s : State) (d : List Word) (x : Nat) : Option Word :=
  let z := 2 ^ gatherLsz d
  if gatherDist d then
    let off := gatherOff d + x % gatherPer d * z
    if x ≥ gatherCores d * gatherPer d ∨ off + z > 0x60000 then none
    else
      some (BitVec.ofNat 64 (2 * 2 ^ 56 + s.devid.toNat * 2 ^ 32 + (gatherFirst d + x / gatherPer d) * 2 ^ 20 + off))
  else
    let a := d.getD 2 0 + BitVec.ofNat 64 (x * z)
    if (d.getD 2 0).toNat / 2 ^ 56 = 2 ∧ bits (d.getD 2 0) 0 20 + x * z + z > 0x60000 then none else some a

/-- One access of an element of a gather or scatter, its index, its source or its destination: the operation after it. -/
def State.gatherStep (s : State) (k : Issuer) (g : Gather) : Gather × State :=
  let d := g.words.toList
  let z := 2 ^ gatherLsz d
  let skip := { g with moved := g.moved + 1, skipped := g.skipped + 1 }
  let index := d.getD 0 0 + BitVec.ofNat 64 (4 * g.moved)
  let gone := fun (g : Gather) (s : State) => (g, s.forgetEng k.key index 5)
  match s.keepRead k.key index 5 (s.engRead k index 4) with
  | .wait s1 => (g, s1)
  | .fault s1 => ({ g with fault := true }, s1)
  | .bad s1 => (skip, s1)
  | .ok bs s1 =>
    match s1.tableAt d (leNat bs) with
    | none => gone skip s1
    | some t =>
      let e := d.getD 4 0 + BitVec.ofNat 64 (g.moved * z)
      match s1.engMove k (if g.scatter then e else t) (if g.scatter then t else e) z with
      | .wait s2 => (g, s2)
      | .fault s2 => gone { g with fault := true } s2
      | .bad s2 => gone skip s2
      | .ok _ s2 => gone { g with moved := g.moved + 1 } s2

/-- The number of a gather or scatter among the engines. -/
def gatherKey (g : Gather) : Nat := 2 ^ 20 + g.id * 2048 + g.lc

/-- The logical core an engine's number names; 1024 for the quay copy engines and the waits of packets. -/
def engineCore (key : Nat) : Nat :=
  if key < footBase then key / 16
  else if key < 2 ^ 20 then (key - footBase) / 256 else key % 2048

/-- Who a gather or scatter works for. -/
def State.gatherIssuer (s : State) (g : Gather) : Issuer := ⟨gatherKey g, g.lc, s.ctxOf g.succ.graph, s.fnOf g.succ.graph⟩

/-- The streamer of a cluster copies the next element of its k-th operation; with the last one the
successor is delivered. -/
def execGatherScatterElement (cl k : Nat) (s : State) : Out :=
  match (s.cluster cl).gathers[k]? with
  | none => .next s
  | some g =>
    if !s.enginesRun g.lc then .next s
    else
      let x := s.gatherIssuer g
      let r := s.gatherStep x g
      let c := r.2.cluster cl
      if r.1.fault || r.1.moved ≥ gatherN g.words.toList then
        let st := if r.1.fault then statusWord r.1.moved false 0 2 else statusWord r.1.skipped false 0 0
        .next (((r.2.setCluster cl { c with gathers := removeAt c.gathers k }).engDone x).deliver (.engine cl) (cl / 4) g.succ st)
      else .next (r.2.setCluster cl { c with gathers := modifyAt (fun _ => r.1) c.gathers k })

/-! ### Collectives (R139, R391, R392) -/

/-- A core of the own device takes part. -/
def State.collPart (s : State) (d : List Word) (lc : Nat) : Bool :=
  collFcor d ≤ lc && lc ≤ collLcor d && collFdev d ≤ s.devid.toNat && s.devid.toNat ≤ collLdev d

def State.collFields (s : State) (d : List Word) (lc : Nat) : Fields :=
  if bits (d.getD 0 0) 8 56 ≠ 0 ∨ bits (d.getD 1 0) 34 30 ≠ 0 ∨ bits (d.getD 3 0) 32 32 ≠ 0 ∨ collTag d = 0 ∨ collTag d > 7 ∨
      collOp d > 3 ∨ collLen d % 64 ≠ 0 ∨ collLen d < 64 ∨ collLen d > 393216 ∨ collLcor d < collFcor d ∨ collLdev d < collFdev d ∨
      ¬ s.collPart d lc ∨ collSrc d + collLen d > 0x60000 ∨ collDst d + collLen d > 0x60000 then .illegal
  else .ok

/-- Every participant can take part: its device is in the domain, and a core of the own device is mapped and
of the partition. -/
def State.collReach (s : State) (d : List Word) (lc : Nat) : Bool :=
  (span (collFdev d) (collLdev d + 1 - collFdev d)).all (s.inDomain (s.partOf lc)) &&
    (span (collFcor d) (collLcor d + 1 - collFcor d)).all (s.reachable (s.partOf lc))

/-- A contribution joins an instance of a key. -/
def State.addPart (s : State) (g key m : Nat) (x : Contribution) : State :=
  let same := fun c : Collective => c.g == g && c.key == key && c.number == m
  { s with prog := { s.prog with
      colls := if s.prog.colls.any same then s.prog.colls.map fun c => if same c then { c with parts := c.parts ++ [x] } else c
        else s.prog.colls ++ [⟨g, key, m, [x], [], []⟩] } }

/-- The source of a contribution, granule by granule. -/
def State.collData (s : State) (lc : Nat) (d : List Word) : List (Option (BitVec 128)) :=
  (span 0 (collLen d / 16)).map fun i =>
    let as := span (cellarKey lc (collSrc d + 16 * i)) 16
    if s.anyBadCellar as then none else some (BitVec.ofNat 128 (s.readCellar as))

/-- Join the instance of a key that this core's count of it names. The contribution to a collective of several modules
goes to the others on channel 4, with its source as it stands once `coll` retires (R19, R139, R392). -/
def State.join (s : State) (g : Nat) (key : Nat) (x : Contribution) : State :=
  let k := g * 2 ^ 42 + key * 2 ^ 10 + x.lc
  let m := tget 0 s.prog.collNum k
  let d := x.words.toList
  let others := (span (collFdev d) (collLdev d + 1 - collFdev d)).filter fun v => v != s.devid.toNat
  let y := if others = [] then x else { x with data := s.collData x.lc d }
  others.foldl (fun s v => s.sendMsg v (.contribution g key m x.lc d y.data))
    (({ s with prog := { s.prog with collNum := tput k (m + 1) s.prog.collNum } } : State).addPart g key m y)

/-- The four words of a block as a vector. -/
def words4 (d : List Word) : Vector Word 4 := (Vector.range 4).map fun i => d.getD i 0

/-- A contribution of another module has arrived. -/
def State.contribute (s : State) (dev : Nat) : Msg → State
  | .contribution g key m lc words data => s.addPart g key m ⟨dev, lc, 0, words4 words, data, Rec.zero⟩
  | _ => s

/-- `coll`. -/
def execColl (a b : Reg) (s : State) : Out :=
  s.engine (.coll a b) 4 (fun _ d => s.collFields d s.agentCore) fun lc f v d s1 =>
    s.image s1 (.coll a b) lc f (v.getD 1 0) fun r s1 =>
      if !s.collReach d lc then s.trap ADDRESS (d.getD 1 0)
      else
        (s1.join f.graph (collKey d) ⟨s.devid.toNat, lc, f.level, words4 d, [], r⟩).started (.coll a b) lc (some r)

/-- The contributions of an instance by ascending module and core. -/
def Collective.sorted (c : Collective) : List Contribution :=
  sortBy (fun a b => decide (a.dev < b.dev) || (a.dev == b.dev && decide (a.lc < b.lc))) c.parts

/-- The descriptors of two contributions agree but for the offsets. -/
def sameColl (x y : Contribution) : Bool :=
  let a := x.words.toList
  let b := y.words.toList
  a.getD 0 0 == b.getD 0 0 && a.getD 1 0 == b.getD 1 0 && a.getD 3 0 == b.getD 3 0 && collLen a == collLen b

/-- The reduction a collective's op names. -/
def collRed (op : Nat) : RedOp := if op = 0 then .sum else if op = 1 then .min else .max

/-- The result of one granule of 16 bytes from the sources' granules: its value and flags. -/
def reduceGranule (op tag : Nat) (xs : List Nat) : Nat × BitVec 5 :=
  if op = 3 then (xs.headD 0, 0)
  else
    let t := BitVec.ofNat 4 tag
    let w := (layoutOf (Vector.replicate 8 0) t).w
    let e := fun j => reduceList (collRed op) t (xs.map fun x => getEl x w j)
    (buildEls w (fun j => (e j).1) (128 / w), (span 0 (128 / w)).foldl (fun f j => f ||| (e j).2) 0)

/-- The number of a granule of a participant of this module. -/
def partKey (lc g : Nat) : Nat := 2 ^ 16 * lc + g

/-- The contributions whose sources make the result: of a broadcast the first alone. -/
def Collective.sources (c : Collective) : List Contribution :=
  if c.parts.any fun p => collOp p.words.toList == 3 then c.sorted.take 1 else c.sorted

/-- A granule of a contribution's source: as it was sent, or as the collective has read it; none where it is uncorrectable. -/
def Collective.granule (c : Collective) (p : Contribution) (g : Nat) : Option Nat :=
  (p.data.getD g (tget none c.got (partKey p.lc g))).map BitVec.toNat

/-- The result of a granule, with its flags; none where a source is uncorrectable. -/
def Collective.result (c : Collective) (op tag g : Nat) : Option (Nat × BitVec 5) :=
  let xs := c.sources.map fun p => c.granule p g
  if xs.contains none then none else some (reduceGranule op tag (xs.map fun x => x.getD 0))

/-- The reads that a collective of n granules has still to make, and the writes. -/
def Collective.unread (c : Collective) (n : Nat) : List (Contribution × Nat) :=
  (c.sources.filter fun p => p.data == []).flatMap fun p =>
    ((span 0 n).filter fun g => (tfind c.got (partKey p.lc g)).isNone).map fun g => (p, g)
def Collective.unwritten (c : Collective) (own : List Contribution) (op tag n : Nat) : List (Contribution × Nat) :=
  own.flatMap fun p => ((span 0 n).filter fun g => !c.put.contains (partKey p.lc g) && (c.result op tag g).isSome).map fun g => (p, g)

/-- The status of a collective: granules skipped, and the flags of the reduction (R379, R392). -/
def Collective.status (c : Collective) (op tag n : Nat) : Word :=
  let rs := (span 0 n).map (c.result op tag)
  statusWord (rs.filter Option.isNone).length false (rs.foldl (fun f r => f ||| (r.map Prod.snd).getD 0) 0) 0

/-- A full instance of a collective reads the next granule of a source, then writes the next one of a result; with the last
it delivers every successor. Where the descriptors do not agree it ends at once. -/
def execCollectiveComplete (k : Nat) (s : State) : Out :=
  match s.prog.colls[k]? with
  | none => .next s
  | some c =>
    let own := c.sorted.filter fun p => p.dev == s.devid.toNat
    if !c.full || own.any (fun p => !s.enginesRun p.lc) then .next s
    else if own.any (fun p => s.shut p.lc) then .next (own.foldl (fun s p => s.callTile p.lc) s)
    else
      let ps := c.sorted
      let d := (ps.head?.map fun p => p.words.toList).getD []
      let n := collLen d / 16
      let setColl := fun (s : State) (c : Collective) => ({ s with prog := { s.prog with colls := modifyAt (fun _ => c) s.prog.colls k } } : State)
      let finish := fun (s : State) (st : Word) =>
        own.foldl (fun s p => s.deliver (.engine 512) (s.dieOf p.lc) p.succ st)
          ({ s with prog := { s.prog with colls := removeAt s.prog.colls k } } : State)
      if !(ps.drop 1).all fun p => (ps.head?.any (sameColl p)) then .next (finish s (statusWord 0 false 0 6))
      else
        match pickAccess s.tick (c.unread n) with
        | some (p, g) =>
          let as := span (cellarKey p.lc (collSrc p.words.toList + 16 * g)) 16
          let x := if s.anyBadCellar as then none else some (BitVec.ofNat 128 (s.readCellar as))
          .next (setColl (s.meetCellarUe as) { c with got := tput (partKey p.lc g) x c.got })
        | none =>
          let left := c.unwritten own (collOp d) (collTag d) n
          match pickAccess s.tick left with
          | none => .next (finish s (c.status (collOp d) (collTag d) n))
          | some (p, g) =>
            let as := span (cellarKey p.lc (collDst p.words.toList + 16 * g)) 16
            let s1 := s.writeCellar as (leBytes 16 ((c.result (collOp d) (collTag d) g).map Prod.fst |>.getD 0))
            if left.length ≤ 1 then .next (finish s1 (c.status (collOp d) (collTag d) n))
            else .next (setColl s1 { c with put := partKey p.lc g :: c.put })

/-! ### Futures (R162, R197, R217, R393) -/

/-- Where a future stands: an 8-byte word of local HBM, with R and W. -/
def State.futureAt (s : State) (lc : Nat) (addr : Word) : Acc :=
  if !s.spaceOk addr 8 then .trap ADDRESS addr
  else if !aligned addr 8 then .trap ALIGN addr
  else
    match spaceOf addr 8 with
    | .global va =>
      match s.coreSpan lc va 8 (needR + needW) with
      | .trap c => .trap c addr
      | .wait s1 => .wait s1
      | .pas l s1 =>
        match s1.region (l.headD 0) with
        | .hbm pa => if s1.anyBad (span pa 8) then .trap DATA addr else .ok pa s1
        | _ => .trap ADDRESS addr
    | _ => .trap ADDRESS addr

/-- The future at a word is empty. -/
def State.isEmpty (s : State) (pa : Nat) : Bool := tget 0 s.mem.empties pa != 0

/-- The successor of a future read, with the value in s5 (R378). -/
def valueImage (r : Rec) (v : Word) : Rec := { r with q6 := v }

/-- `ftake`: the value goes to the successor, the read is deferred, or it is refused. -/
def State.take (s : State) (pa : Nat) (r : Rec) : State :=
  let n := sliceOf pa
  let x := s.slice n
  if !s.isEmpty pa then s.deliver (.engine (600 + n)) (n / 16) (valueImage r (s.mem64 pa)) 0
  else if x.pantry.length < 64 then s.setSlice n { x with pantry := x.pantry ++ [⟨pa, r⟩] }
  else (s.count cPNACK n).deliver (.engine (600 + n)) (n / 16) (valueImage r 0) 0x21

def execFtake (a b : Reg) (s : State) : Out :=
  s.withFrame (.ftake a b) fun lc f v =>
    s.unlessStalled fun _ => s.acked fun _ =>
      s.image s (.ftake a b) lc f (v.getD 1 0) fun r s1 =>
        match s1.futureAt lc (v.getD 0 0) with
        | .trap c w => s.trap c w
        | .wait s2 => s.waited s2
        | .ok pa s2 => ((s2.leaseStores lc (span pa 8)).take pa r).started (.ftake a b) lc (some r)

/-- The deferred reads of a word are satisfied in arrival order. -/
def State.satisfy (s : State) (pa : Nat) (v : Word) : State :=
  let n := sliceOf pa
  let x := s.slice n
  (x.pantry.filter fun d => d.word == pa).foldl (fun s d => s.deliver (.engine (600 + n)) (n / 16) (valueImage d.succ v) 0)
    (s.setSlice n { x with pantry := x.pantry.filter fun d => d.word != pa })

/-- `fput`: the word takes the value and is full. -/
def execFput (a b : Reg) (s : State) : Out :=
  s.withFrame (.fput a b) fun lc _ v =>
    s.acked fun _ =>
      s.afterAcc (s.futureAt lc (v.getD 0 0)) fun pa s1 =>
        let w := v.getD 1 0
        let s2 := ((s1.leaseStores lc (span pa 8)).setMem64 pa w)
        (({ s2 with mem := { s2.mem with empties := tdel pa s2.mem.empties } }).satisfy pa w).retire (.fput a b)

/-- `fclr`: the word is empty; its value and its deferred reads stay. -/
def execFclr (a : Reg) (s : State) : Out :=
  s.withFrame (.fclr a) fun lc _ v =>
    s.acked fun _ =>
      s.afterAcc (s.futureAt lc (v.getD 0 0)) fun pa s1 =>
        let s2 := s1.leaseStores lc (span pa 8)
        ({ s2 with mem := { s2.mem with empties := tput pa (s.partOf lc + 1) s2.mem.empties } }).retire (.fclr a)

end Sys2Proof.Machine
end

