-- ==== Sys2Proof/Machine/Matrix.lean ====
section
/-! DEFINITION. The matrix engines: the configuration shadow, the tile-task queue of a cluster, chains and
accumulator banks, accumulation and drains (R159 to R161, R178 to R181, R263 to R265, R386 to R390, R417). -/

namespace Sys2Proof.Machine

/-! ### Descriptors and records -/

/-- `mxcf`: the shadow of the frame's level. -/
def execMxcf (a : Reg) (s : State) : Out :=
  s.engine (.mxcf a) 4
    (fun _ d => if bits (d.getD 1 0) 4 60 ≠ 0 ∨ d.getD 2 0 ≠ 0 ∨ d.getD 3 0 ≠ 0 then .illegal else .ok)
    (fun lc _ _ d s1 =>
      match s1.top lc with
      | none => s
      | some g => (s1.setTop lc { g with mxcfg := words4 d }).started (.mxcf a) lc none)
    (fun _ => false)

/-- The fields of a tile-task record (R387). -/
def tW (d : List Word) (i : Nat) : Word := d.getD i 0
def tM (d : List Word) : Nat := bits (tW d 3) 0 7 + 1
def tN (d : List Word) : Nat := bits (tW d 3) 7 8 + 1
def tK (d : List Word) : Nat := bits (tW d 3) 15 16
def tAcc (d : List Word) : Bool := bit (tW d 3) 31
def tAtag (d : List Word) : BitVec 4 := BitVec.ofNat 4 (bits (tW d 3) 33 4)
def tBtag (d : List Word) : BitVec 4 := BitVec.ofNat 4 (bits (tW d 3) 37 4)
def tBlay (d : List Word) : Bool := bit (tW d 3) 41
def tDrn (d : List Word) : Bool := bit (tW d 3) 42
def tAsco (d : List Word) : Nat := bits (tW d 2) 0 19
def tBsco (d : List Word) : Nat := bits (tW d 2) 20 19
def tAstr (d : List Word) : Nat := bits (tW d 4) 0 32
def tBstr (d : List Word) : Nat := bits (tW d 4) 32 32
def tDcore (d : List Word) : Nat := bits (tW d 6) 0 10
def tDoff (d : List Word) : Nat := bits (tW d 6) 10 19
def tDstr (d : List Word) : Nat := bits (tW d 6) 32 32

/-- The drain tag: that of the record, or the shadow's, or f32. -/
def drainTag (d cfg : List Word) : BitVec 4 :=
  let t := bits (tW d 3) 44 4
  let u := bits (tW cfg 1) 0 4
  BitVec.ofNat 4 (if t ≠ 0 then t else if u ≠ 0 then u else 5)

/-- The tag is a minifloat's; its captured descriptor is invalid. -/
def isMini (t : BitVec 4) : Bool := 8 ≤ t.toNat
def badMini (fd : Vector (BitVec 32) 8) (t : BitVec 4) : Bool := isMini t && !fdValid (descOf fd t)

/-- A block-scaled operand, and the elements of one of its blocks. -/
def blockScaled (fd : Vector (BitVec 32) 8) (t : BitVec 4) : Bool := isMini t && fdBsc (descOf fd t) != 0
def blockLen (fd : Vector (BitVec 32) 8) (t : BitVec 4) : Nat := fdBlock (descOf fd t)

/-- Bytes of a row of n elements of a tag. -/
def rowBytes (fd : Vector (BitVec 32) 8) (t : BitVec 4) (n : Nat) : Nat := (n * (layoutOf fd t).w + 7) / 8

/-- Bytes from the first byte of row 0 to the last of the last row. -/
def extent (rows stride bytes : Nat) : Nat := (rows - 1) * stride + bytes

/-- Scale bytes of a row of K elements. -/
def scaleBytes (fd : Vector (BitVec 32) 8) (t : BitVec 4) (k : Nat) : Nat := (k + blockLen fd t - 1) / blockLen fd t

/-- Reserved bits, K and the tags, then the alignments (R387, R388). -/
def taskFields (d : List Word) : Fields :=
  if bit (tW d 2) 19 ∨ bits (tW d 2) 39 25 ≠ 0 ∨ bits (tW d 3) 48 16 ≠ 0 ∨ bit (tW d 3) 43 ∨ bits (tW d 6) 29 3 ≠ 0 ∨
      tK d = 0 ∨ tAtag d = 0 ∨ tBtag d = 0 then .illegal
  else if (tW d 0).toNat % 16 ≠ 0 then .trap ALIGN (tW d 0)
  else if (tW d 1).toNat % 16 ≠ 0 then .trap ALIGN (tW d 1)
  else if tAstr d % 16 ≠ 0 then .trap ALIGN (BitVec.ofNat 64 (tAstr d))
  else if tBstr d % 16 ≠ 0 then .trap ALIGN (BitVec.ofNat 64 (tBstr d))
  else if tDoff d % 16 ≠ 0 then .trap ALIGN (BitVec.ofNat 64 (tDoff d))
  else if tDstr d % 16 ≠ 0 then .trap ALIGN (BitVec.ofNat 64 (tDstr d))
  else .ok

/-- A window address of the own device that a partition reaches: its logical core and offset. -/
def State.ownWindow (s : State) (lc : Nat) (addr : Word) : Option (Nat × Nat) :=
  match spaceOf addr 1 with
  | .window dev tlc off => if dev == s.devid.toNat && s.reachable (s.partOf lc) tlc then some (tlc, off) else none
  | _ => none

/-- n bytes from an offset lie within a quarter. -/
def inQuarter (off n : Nat) : Bool := off + n ≤ 0x60000

/-- The ADDRESS checks of a tile-task record: the value TRAPVAL holds, if one fails. -/
def State.taskRange (s : State) (lc : Nat) (fd : Vector (BitVec 32) 8) (d cfg : List Word) : Option Word :=
  let at_ := tAtag d
  let bt := tBtag d
  let brows := if tBlay d then tK d else tN d
  let bcols := if tBlay d then tN d else tK d
  match s.ownWindow lc (tW d 0), s.ownWindow lc (tW d 1) with
  | none, _ => some (tW d 0)
  | _, none => some (tW d 1)
  | some (_, a), some (_, b) =>
    if !badMini fd at_ && !inQuarter a (extent (tM d) (tAstr d) (rowBytes fd at_ (tK d))) then some (tW d 0)
    else if !badMini fd bt && !inQuarter b (extent brows (tBstr d) (rowBytes fd bt bcols)) then some (tW d 1)
    else if blockScaled fd at_ && !badMini fd at_ && !inQuarter (tAsco d) (tM d * scaleBytes fd at_ (tK d)) then
      some (BitVec.ofNat 64 (tAsco d))
    else if blockScaled fd bt && !badMini fd bt && !tBlay d && !inQuarter (tBsco d) (tN d * scaleBytes fd bt (tK d)) then
      some (BitVec.ofNat 64 (tBsco d))
    else if tDrn d then
      let dt := drainTag d cfg
      if !s.reachable (s.partOf lc) (tDcore d) ||
          (!badMini fd dt && !inQuarter (tDoff d) (extent (tM d) (tDstr d) (rowBytes fd dt (tN d)))) then
        some (BitVec.ofNat 64 (tDoff d))
      else none
    else none

/-- Narrow and wide pairings (R160). -/
def narrowTag (t : BitVec 4) : Bool := t == 1 || isMini t
def wideTag (t : BitVec 4) : Bool := t == 6 || t == 7
def isNarrow (d : List Word) : Bool := narrowTag (tAtag d) && narrowTag (tBtag d)
def isWide (d : List Word) : Bool := wideTag (tAtag d) && wideTag (tBtag d)

/-- A record that does nothing: status FORMAT (R388). -/
def formatBad (fd : Vector (BitVec 32) 8) (d cfg : List Word) : Bool :=
  badMini fd (tAtag d) || badMini fd (tBtag d) || !(isNarrow d || isWide d) ||
    (blockScaled fd (tBtag d) && tBlay d) || (tDrn d && badMini fd (drainTag d cfg))

/-- The fields of a drain descriptor (R390). -/
def dRows (d : List Word) : Nat := bits (tW d 0) 34 7 + 1
def dCols (d : List Word) : Nat := bits (tW d 0) 41 8 + 1
def dTag (d : List Word) : BitVec 4 := BitVec.ofNat 4 (bits (tW d 0) 30 4)
def dCore (d : List Word) : Nat := bits (tW d 0) 0 10
def dOff (d : List Word) : Nat := bits (tW d 0) 10 19
def dStr (d : List Word) : Nat := bits (tW d 1) 0 32

def drainFields (d : List Word) : Fields :=
  if bits (tW d 0) 49 15 ≠ 0 ∨ bits (tW d 1) 32 32 ≠ 0 ∨ tW d 2 ≠ 0 ∨ tW d 3 ≠ 0 ∨ dTag d = 0 ∨ dOff d % 16 ≠ 0 ∨
      dStr d % 16 ≠ 0 then .illegal
  else .ok

/-- The range a drain writes does not lie within a quarter it may reach. -/
def State.drainRange (s : State) (lc : Nat) (fd : Vector (BitVec 32) 8) (d : List Word) : Bool :=
  !s.reachable (s.partOf lc) (dCore d) ||
    (!badMini fd (dTag d) && !inQuarter (dOff d) (extent (dRows d) (dStr d) (rowBytes fd (dTag d) (dCols d))))

/-! ### The queue (R159) -/

/-- Level first, then the time captured, then the arrival. -/
def taskBefore (a b : TileTask) : Bool :=
  b.level < a.level || (a.level == b.level &&
    (timeLt a.ltime b.ltime || (!timeLt b.ltime a.ltime && a.arrival < b.arrival)))

/-- Put a task in the queue of a cluster, with its arrival number. -/
def Cluster.enqueue (c : Cluster) (t : TileTask) : Cluster :=
  { c with queue := insertBy taskBefore { t with arrival := c.arrivals } c.queue, arrivals := c.arrivals + 1 }

/-- What a tile task captures at its issue (R388). -/
def taskOf (drain : Bool) (lc : Nat) (f : Frame) (d : List Word) (succ : Option Rec) : TileTask :=
  { drain := drain, words := words8 d, lc := lc, level := f.level, graph := f.graph, ltime := f.ltime, arrival := 0
    fpctl := f.h.fpctl, seed := f.h.seed, fd := f.fd, cfg := f.mxcfg, succ := succ, ksteps := 0, issued := false
    flags := 0, code := 0, skipped := 0, forwarded := false, seen := [], drained := [] }

/-- Enqueue a task of a core; a full queue stalls the instruction. -/
def State.enqueueTask (s s1 : State) (i : Instr) (lc : Nat) (t : TileTask) : State :=
  let cl := s1.clusterOf lc
  let c := s1.cluster cl
  if c.queue.length ≥ Config.tileQueue then s else (s1.setCluster cl (c.enqueue t)).started i lc t.succ

/-- `mxq`. -/
def execMxq (a : Reg) (s : State) : Out :=
  s.engine (.mxq a) 8 (fun _ d => taskFields d) (names := fun d => tW d 7 != 0) fun lc f _ d s1 =>
    let put := fun (r : Option Rec) (s1 : State) =>
      match s1.taskRange lc f.fd d f.mxcfg.toList with
      | some v => s.trap ADDRESS v
      | none => s.enqueueTask s1 (.mxq a) lc (taskOf false lc f d r)
    if tW d 7 = 0 then put none s1 else s.image s1 (.mxq a) lc f (tW d 7) fun r s1 => put (some r) s1

/-- `mxdr`. -/
def execMxdr (a b : Reg) (s : State) : Out :=
  s.engine (.mxdr a b) 4 (fun _ d => drainFields d) fun lc f v d s1 =>
    s.image s1 (.mxdr a b) lc f (v.getD 1 0) fun r s1 =>
      if s.drainRange lc f.fd d then s.trap ADDRESS (BitVec.ofNat 64 (dOff d))
      else s.enqueueTask s1 (.mxdr a b) lc (taskOf true lc f d (some r))

/-! ### Chains (R161) -/

/-- The bank name of a task, and the key of its chain. -/
def TileTask.name (t : TileTask) : Nat :=
  if t.drain then bits (tW t.words.toList 0) 29 1 else bits (tW t.words.toList 3) 32 1
def TileTask.sameKey (t u : TileTask) : Bool := t.lc == u.lc && t.level == u.level && t.name == u.name
def Chain.is (c : Chain) (t : TileTask) : Bool := c.lc == t.lc && c.level == t.level && c.bank == t.name

/-- A task can run on a tile: a drain on any. -/
def TileTask.fits (t : TileTask) (tile : Nat) : Bool := t.drain || isWide t.words.toList == wideTile tile

/-- The chain a task follows: that of its key on an engine of its class. -/
def State.chainOf (s : State) (die : Nat) (t : TileTask) : Option Chain :=
  (span (4 * die) 4).findSome? fun cl => (s.cluster cl).chains.find? fun c => c.is t && t.fits c.tile

/-- The physical bank a name is tagged on. -/
def Tile.bankOf (x : Tile) (name lc level : Nat) : Option Nat :=
  (span 0 2).find? fun b => (x.banks.toList.getD b Bank.reset).tag == some (name, lc, level)

def Tile.bank (x : Tile) (b : Nat) : Bank := x.banks.toList.getD b Bank.reset
def State.setBank (s : State) (tile b : Nat) (k : Bank) : State :=
  let x := s.tile tile
  if h : b < 2 then s.setTile tile { x with banks := x.banks.set b k } else s

/-- Free the bank that holds a name on an engine. -/
def State.freeBank (s : State) (tile name lc level : Nat) : State :=
  match (s.tile tile).bankOf name lc level with
  | some b => s.setBank tile b Bank.reset
  | none => s

/-- A chain goes, and its bank with it. -/
def State.dropChain (s : State) (cl : Nat) (c : Chain) : State :=
  let x := s.cluster cl
  (s.setCluster cl { x with chains := x.chains.filter (· != c) }).freeBank c.tile c.bank c.lc c.level

/-- Close the chain of a task wherever it is held on the die. -/
def State.closeChain (s : State) (die : Nat) (t : TileTask) : State :=
  (span (4 * die) 4).foldl (fun s cl => ((s.cluster cl).chains.filter fun c => c.is t).foldl (fun s c => s.dropChain cl c) s) s

/-- The tasks of a cluster's engines that have not delivered. -/
def State.onEngines (s : State) (cl : Nat) : List TileTask :=
  (span (8 * cl) 8).flatMap fun t => (s.tile t).run.toList ++ (s.tile t).held

/-- Change the entry of a chain in the table of its cluster. -/
def State.updateChain (s : State) (die : Nat) (t : TileTask) (f : Chain → Chain) : State :=
  (span (4 * die) 4).foldl (fun s cl =>
    let x := s.cluster cl
    if x.chains.any fun c => c.is t then s.setCluster cl { x with chains := x.chains.map fun c => if c.is t then f c else c }
    else s) s

/-- A chain has a queued record, in a queue or a forwarding buffer of its die. -/
def State.chainQueued (s : State) (die : Nat) (c : Chain) : Bool :=
  (span (4 * die) 4).any fun cl => ((s.cluster cl).queue ++ (s.cluster cl).forward).any c.is

/-- Deliver the successor of a task, where it has one. -/
def State.endTask (s : State) (src die : Nat) (t : TileTask) (st : Word) : State :=
  match t.succ with
  | some r => s.deliver (.engine (1024 + src)) die r st
  | none => s

/-- A chain is evicted (R161): its accumulator is discarded, and a tile task of it that its engine runs or has stopped
ends with the no-chain status (log entry 92). -/
def State.evictChain (s : State) (cl : Nat) (c : Chain) : State :=
  let x := s.tile c.tile
  let lost := (x.run.toList ++ x.held).filter c.is
  lost.foldl (fun s t => s.endTask c.tile (c.tile / 32) t (statusWord 0 false t.flags 5))
    ((s.setTile c.tile { x with run := x.run.filter fun t => !c.is t, held := x.held.filter fun t => !c.is t }).dropChain cl c)

/-- Open the chain of an overwrite record on an engine, or move it there, from the table of another cluster too; none where
the table is full and every chain has work. -/
def State.openChain (s : State) (cl tile : Nat) (t : TileTask) : Option State :=
  let die := cl / 4
  let new : Chain := ⟨t.lc, t.level, t.name, tile, s.tick, false, false⟩
  let add := fun s : State =>
    let x := s.cluster cl
    s.setCluster cl { x with chains := x.chains ++ [new] }
  if (s.chainOf die t).any (fun c => c.tile == tile) then some (s.updateChain die t fun _ => new)
  else
    let s1 := s.closeChain die t
    let x := s1.cluster cl
    if x.chains.length < Config.chainTable then some (add s1)
    else
      match leastBy (fun a b => decide (a.used < b.used)) (x.chains.filter fun c => !s1.chainQueued die c) with
      | some c => some (add (s1.evictChain cl c))
      | none => none

/-! ### Banks, spills and reloads (R179 to R181) -/

/-- The save slot of a level and a name of a logical core: its base is bits 51 to 16 of its entry (R181, R405). -/
def State.saveSlot (s : State) (lc level name : Nat) : Nat :=
  bits (s.entry 19 lc) 16 36 * 65536 + 0x40000 * (level - 1) + 0x20000 * name

/-- The FP32 words of a bank, row by row, as bytes. -/
def bankBytes (k : Bank) : List Byte := (span 0 32768).flatMap fun i => leBytes 4 (tget 0 k.data i).toNat

/-- The bank that the FP32 words of a save slot are. -/
def bankData (bs : List Byte) : Nat → Nat → Table (BitVec 32) → Table (BitVec 32)
  | _, 0, t => t
  | i, n + 1, t => bankData (bs.drop 4) (i + 1) n (mput 0 i (BitVec.ofNat 32 (leNat (bs.take 4))) t)

/-- Spill a tagged bank to its save slot and free it. -/
def State.spillBank (s : State) (tile b : Nat) : State :=
  let k := (s.tile tile).bank b
  match k.tag with
  | none => s
  | some (name, lc, level) =>
    let s1 := if k.bad then s else s.writeMem (span (s.saveSlot lc level name) 0x20000) (bankBytes k)
    let mark := fun c : Chain =>
      if c.bank = name ∧ c.lc = lc ∧ c.level = level then { c with spilled := true, failed := c.failed || k.bad } else c
    let s2 := (span (tile / 32 * 4) 4).foldl (fun s cl =>
      let x := s.cluster cl
      s.setCluster cl { x with chains := x.chains.map mark }) s1
    s2.setBank tile b Bank.reset

/-- The bank to spill for a level: the lowest level below it, the tag that was set earlier on a tie. -/
def Tile.victim (x : Tile) (level : Nat) : Option Nat :=
  let key := fun b => match (x.bank b).tag with
    | some (_, _, l) => (l, (x.bank b).since)
    | none => (8, 0)
  leastBy (fun a b => decide ((key a).1 < (key b).1 ∨ ((key a).1 = (key b).1 ∧ (key a).2 < (key b).2)))
    ((span 0 2).filter fun b => decide ((key b).1 < level))

/-- Give a task a bank on an engine: the one of its name, a free one, or one freed by a spill. -/
def State.takeBank (s : State) (tile : Nat) (t : TileTask) : Option (Nat × State) :=
  let x := s.tile tile
  let tag := fun (s : State) (b : Nat) =>
    (b, s.setBank tile b { Bank.reset with tag := some (t.name, t.lc, t.level), since := s.tick })
  match x.bankOf t.name t.lc t.level with
  | some b => some (b, s)
  | none =>
    match (span 0 2).find? fun b => (x.bank b).tag.isNone with
    | some b => some (tag s b)
    | none => (x.victim t.level).map fun b => tag (s.spillBank tile b) b

/-- Reload a spilled accumulator into its bank; an uncorrectable save slot makes the bank fail. -/
def State.reload (s : State) (die tile b : Nat) (t : TileTask) : State :=
  match s.chainOf die t with
  | some c =>
    if !c.spilled then s
    else
      let pas := span (s.saveSlot t.lc t.level t.name) 0x20000
      let k := (s.tile tile).bank b
      let k1 := if c.failed || s.anyBad pas then { k with bad := true }
        else { k with data := bankData (gatherBytes s.mem.bytes pas) 0 32768 [] }
      (s.setBank tile b k1).updateChain die t fun c => { c with spilled := false, failed := false }
  | none => s

/-! ### Issue (R159 to R161) -/

/-- A tile takes part in a swap from the hold on (R164). -/
def State.swapping (s : State) (tile : Nat) : Bool :=
  match (s.die (tile / 32)).swap with
  | some x => x.phase != .waking && ((x.pairs.any fun p => p.1 == tile || p.2 == tile) ||
      x.single.any fun y => s.tileOf y.1 == tile || y.2 / 4 == tile)
  | none => false

/-- An engine is free for a level: it runs nothing, its tile has not been stopped, and no stopped task goes first. -/
def State.engineFree (s : State) (tile level : Nat) : Bool :=
  let x := s.tile tile
  x.run.isNone && !x.tripped && !s.swapping tile && x.held.all fun t => decide (t.level < level)

/-- The engine that runs the lowest-level tile task below a level, the lowest tile on a tie. A drain and a
task past its last K step are not stopped. -/
def taskSteps (t : TileTask) : Nat :=
  let n := if isNarrow t.words.toList then 64 else 32
  (tK t.words.toList + n - 1) / n
def TileTask.stoppable (t : TileTask) : Bool := !t.drain && t.code == 0 && decide (t.ksteps < taskSteps t)
def State.lowestRunning (s : State) (cl level : Nat) : Option Nat :=
  leastBy (fun a b => decide ((((s.tile a).run.map TileTask.level).getD 8) < (((s.tile b).run.map TileTask.level).getD 8)))
    ((span (8 * cl) 8).filter fun x =>
      !s.swapping x && !(s.tile x).tripped && (s.tile x).run.any fun t => t.stoppable && decide (t.level < level))

/-- The engine a record goes to, and whether the task that runs there is stopped (R159). -/
def State.chooseEngine (s : State) (cl : Nat) (t : TileTask) (head : Bool) : Option (Nat × Bool) :=
  let own := (s.chainOf (cl / 4) t).map Chain.tile
  let free := (span (8 * cl) 8).filter fun x => s.engineFree x t.level
  let aTile := match spaceOf (tW t.words.toList 0) 1 with
    | .window _ lc _ => s.tileOf lc
    | _ => 1024
  if t.drain || tAcc t.words.toList || t.ksteps != 0 then
    match own with
    | none => none
    | some x =>
      if s.engineFree x t.level then some (x, false)
      else if head && free.isEmpty && s.lowestRunning cl t.level == some x then some (x, true)
      else none
  else if free.contains aTile then some (aTile, false)
  else
    match free with
    | x :: _ => some (x, false)
    | [] => if head then (s.lowestRunning cl t.level).map fun x => (x, true) else none

/-- Stop the task an engine runs; it keeps its bank (R159 step 4). -/
def State.stopTask (s : State) (tile : Nat) : State :=
  let x := s.tile tile
  match x.run with
  | some t => (s.setTile tile { x with run := none, held := x.held ++ [t] }).count cMXPRE (tile / 32)
  | none => s

/-- A task enters an engine with its bank: an overwrite record starts from zeros, any other from the chain's
accumulator. An engine that has been idle for a microsecond starts with one group of columns of 8 (R79). -/
def State.enterEngine (s : State) (cl tile : Nat) (t : TileTask) : Option State :=
  if !(s.tile tile).runs then none
  else
    let fresh := !t.drain && !tAcc t.words.toList && t.ksteps == 0
    match (if fresh then s.openChain cl tile t else some (s.updateChain (cl / 4) t fun c => { c with used := s.tick })) with
    | none => none
    | some s1 =>
      match s1.takeBank tile t with
      | none => none
      | some (b, s2) =>
        let s3 := if fresh then s2.setBank tile b { (s2.tile tile).bank b with data := [], bad := false } else s2.reload (cl / 4) tile b t
        let t1 := if ((s3.tile tile).bank b).bad then { t with code := 3, skipped := 8192 } else t
        let x := s3.tile tile
        some (s3.setTile tile { x with run := some { t1 with issued := true }, columns := if Config.idleLong s.tick then 1 else 8 })

/-- The N clusters of a die are scheduled (R27). -/
def State.narrowServed (s : State) (die : Nat) : Bool := s.modState == 3 || (s.modState == 4 && (s.die die).inService)

/-- A record whose work is decided without an engine: what its end leaves (R160, R161, R165, R27). -/
def State.endUnissued (s : State) (cl : Nat) (t : TileTask) : Option State :=
  let die := cl / 4
  let d := t.words.toList
  let out := fun code => s.endTask (256 + cl) die t (statusWord 0 false 0 code)
  match t.succ.filter fun r => s.marked r.graph r.q1 with
  | some r => some (s.cancelDrop die r)
  | none =>
    if t.drain then
      if (s.chainOf die t).isNone then some ((out 5).count cCHAINX die)
      else if badMini t.fd (dTag d) then some (out 4)
      else none
    else if formatBad t.fd d t.cfg.toList then some (out 4)
    else if isNarrow d && s.modState == 4 && !(s.die die).inService then some (out 7)
    else if tAcc d && isNarrow d == (cl % 4 != 3) && (s.chainOf die t).isNone then some ((out 5).count cCHAINX die)
    else none

/-- An earlier record of the same chain is queued before it, runs, or was forwarded and has not run yet. A record is
forwarded only with no earlier one of its chain in the queue it leaves, so those it left behind are later. -/
def State.behindChain (s : State) (cl k : Nat) (t : TileTask) : Bool :=
  ((s.cluster cl).queue.take k).any t.sameKey ||
    (span (cl / 4 * 4) 4).any fun c =>
      let x := s.cluster c
      (s.onEngines c ++ (if t.forwarded then [] else (x.forward ++ if c = cl then [] else x.queue.filter TileTask.forwarded))).any t.sameKey

/-- A tile sleeps and has not begun to wake: a tile task issued to it wakes it (R77). -/
def Sleep.sleeps : Sleep → Bool
  | .asleep _ | .entering _ _ => true
  | _ => false

/-- What the k-th record of a queue does when it is its turn. -/
def State.tryIssue (s : State) (cl k : Nat) (t : TileTask) : Option State :=
  let c := s.cluster cl
  let s1 := s.setCluster cl { c with queue := removeAt c.queue k }
  if s.behindChain cl k t || !s.enginesRun t.lc then none
  else
    match s1.endUnissued cl t with
    | some s2 => some s2
    | none =>
      if !t.drain && (isNarrow t.words.toList == (cl % 4 == 3) || (isNarrow t.words.toList && !s.narrowServed (cl / 4))) then none
      else
        match s1.chooseEngine cl t (k == 0) with
        | none => none
        | some (x, stop) =>
          if (s.tile x).sleep.sleeps then some (s.wakeTile x) else (if stop then s1.stopTask x else s1).enterEngine cl x t

/-- A queued record of a level above a stopped task's would take its engine. -/
def State.outranked (s : State) (cl tile level : Nat) : Bool :=
  (s.cluster cl).queue.any fun q => decide (level < q.level) && (s.chooseEngine cl q false).any fun y => y.1 == tile

/-- A stopped task resumes on its engine ahead of queued tasks of its own level or lower. -/
def State.tryResume (s : State) (cl tile : Nat) : Option State :=
  let x := s.tile tile
  if x.run.isSome || s.swapping tile then none
  else
    match leastBy taskBefore x.held with
    | none => none
    | some t =>
      if !s.enginesRun t.lc || s.outranked cl tile t.level then none
      else if x.sleep.sleeps then some (s.wakeTile tile)
      else (s.setTile tile { x with held := x.held.erase t }).enterEngine cl tile t

/-- Issue from the queue of a cluster: a stopped task that goes first, or the first record that can. -/
def execTileTaskIssue (cl : Nat) (s : State) : Out :=
  match (span (8 * cl) 8).findSome? fun x => s.tryResume cl x with
  | some s1 => .next s1
  | none =>
    let q := (s.cluster cl).queue
    .next (((span 0 q.length).findSome? fun k => (q[k]?).bind fun t => s.tryIssue cl k t).getD s)

/-- The cluster of a die that serves the class a cluster does not (R160). -/
def otherCluster (cl : Nat) : Nat := if cl % 4 = 3 then cl / 4 * 4 + 2 else cl / 4 * 4 + 3

/-- A record of the class a cluster does not serve. -/
def wrongClass (cl : Nat) (t : TileTask) : Bool :=
  !t.drain && !formatBad t.fd t.words.toList t.cfg.toList && isNarrow t.words.toList == (cl % 4 == 3)

/-- A record of the other class leaves for the cluster that serves it; it waits in the forwarding buffer of 8
while that cluster's queue is full. -/
def execTileTaskForward (cl : Nat) (s : State) : Out :=
  let c := s.cluster cl
  let dst := otherCluster cl
  let d := s.cluster dst
  match c.forward with
  | t :: l =>
    if d.queue.length < Config.tileQueue then .next ((s.setCluster cl { c with forward := l }).setCluster dst (d.enqueue t))
    else forwardOne c dst d
  | [] => forwardOne c dst d
where
  /-- The first record of the other class leaves the queue. -/
  forwardOne (c : Cluster) (dst : Nat) (d : Cluster) : Out :=
    match (span 0 c.queue.length).find? fun k => (c.queue[k]?).any (wrongClass cl) with
    | none => .next s
    | some k =>
      match (c.queue[k]?).filter fun t => !(c.queue.take k).any t.sameKey with
      | none => .next s
      | some t =>
        let t1 := { t with forwarded := true }
        let c1 := { c with queue := removeAt c.queue k }
        if c.forward = [] ∧ d.queue.length < Config.tileQueue then
          .next (((s.setCluster cl c1).setCluster dst (d.enqueue t1)).count cMXFWD (cl / 4))
        else if c.forward.length < 8 then
          .next ((s.setCluster cl { c1 with forward := c.forward ++ [t1] }).count cMXFWD (cl / 4))
        else .next s

/-! ### Accumulation (R263 to R265, R417) -/

/-- An operand as a task reads it: its quarter, the offset of row 0, the row distance, and its tag. -/
structure Operand where
  lc : Nat
  off : Nat
  stride : Nat
  tag : BitVec 4
  /-- Where its scale bytes start, and scale bytes per row. -/
  scales : Nat
  perRow : Nat
  deriving DecidableEq, Repr

def windowOf (addr : Word) : Nat × Nat := (bits addr 20 10, bits addr 0 20)

def TileTask.opA (t : TileTask) : Operand :=
  let d := t.words.toList
  let w := windowOf (tW d 0)
  ⟨w.1, w.2, tAstr d, tAtag d, tAsco d, scaleBytes t.fd (tAtag d) (tK d)⟩
def TileTask.opB (t : TileTask) : Operand :=
  let d := t.words.toList
  let w := windowOf (tW d 1)
  ⟨w.1, w.2, tBstr d, tBtag d, tBsco d, scaleBytes t.fd (tBtag d) (tK d)⟩

/-- The granules of n bytes from an offset of a quarter. -/
def granules (lc off n : Nat) : List Nat :=
  if n = 0 then [] else span (cellarKey lc off / 16) ((off % 16 + n + 15) / 16)

/-- The granules of elements [a, b) of row r, and of the scale bytes of their blocks. -/
def Operand.granulesOf (o : Operand) (fd : Vector (BitVec 32) 8) (r a b : Nat) : List Nat :=
  let w := (layoutOf fd o.tag).w
  granules o.lc (o.off + r * o.stride + a * w / 8) ((b * w + 7) / 8 - a * w / 8) ++
    (if blockScaled fd o.tag then
      let z := blockLen fd o.tag
      granules o.lc (o.scales + r * o.perRow + a / z) ((b + z - 1) / z - a / z)
    else [])

/-- The granules a K step [a, b) needs. -/
def TileTask.needs (t : TileTask) (a b : Nat) : List Nat :=
  let d := t.words.toList
  (span 0 (tM d)).flatMap (fun i => t.opA.granulesOf t.fd i a b) ++
    (if tBlay d then (span a (b - a)).flatMap fun k => t.opB.granulesOf t.fd k 0 (tN d)
     else (span 0 (tN d)).flatMap fun j => t.opB.granulesOf t.fd j a b)

/-- The granules of a K step [a, b) that it has still to read. -/
def TileTask.unread (t : TileTask) (a b : Nat) : List Nat := (t.needs a b).filter fun g => (tfind t.seen g).isNone

/-- n bits at bit i of the bytes from an offset, as the task has read them; n is at most 16 and does not
cross a granule. -/
def seenBits (seen : Table (BitVec 128)) (lc off i n : Nat) : Nat :=
  let a := 8 * cellarKey lc off + i
  (tget 0 seen (a / 128)).toNat / 2 ^ (a % 128) % 2 ^ n

/-- The value of element e of row r: decoded, times the scale of its block (R252, R263). -/
def Operand.value (o : Operand) (t : TileTask) (r e : Nat) : FVal :=
  let w := (layoutOf t.fd o.tag).w
  let x := seenBits t.seen o.lc (o.off + r * o.stride) (w * e) w
  if o.tag = 1 then ofInt (sint 8 x)
  else
    let v := (fmtOfTag t.fd o.tag).decode (fziOf t.fpctl) x
    if blockScaled t.fd o.tag then
      (fMul v (scaleVal (descOf t.fd o.tag)
        (seenBits t.seen o.lc (o.scales + r * o.perRow + e / blockLen t.fd o.tag) 0 8))).1
    else v

/-- The exact sum of a group's products: NaN with NV, an infinity, or a finite sum whose zero is +0. -/
def groupSum (xs : List (FVal × FVal)) : FRes :=
  let sum := xs.foldl (fun a p => (fAdd false a (fMul p.1 p.2).1).1) (FVal.zero false)
  match sum with
  | .nan _ => (.nan false, NV)
  | .fin _ 0 _ _ => (.zero false, 0)
  | x => (x, 0)

/-- A tensor scale: that of the record, or the shadow's, or 1.0, as FP32. -/
def tensorScale (a b : Nat) : FVal := f32.decode false (if a ≠ 0 then a else if b ≠ 0 then b else 0x3F800000)
def TileTask.tsA (t : TileTask) : FVal := tensorScale (bits (tW t.words.toList 5) 0 32) (bits (tW t.cfg.toList 0) 0 32)
def TileTask.tsB (t : TileTask) : FVal := tensorScale (bits (tW t.words.toList 5) 32 32) (bits (tW t.cfg.toList 0) 32 32)

/-- The product of a group sum and the tensor scales, its specials decided on the three together (R265). -/
def scaledSum (x : FRes) (a b : FVal) : FRes :=
  if x.1.isNan || a.isNan || b.isNan then (.nan false, x.2 ||| flagIf (a.isSnan || b.isSnan) NV)
  else
    let p := fMul x.1 a
    let q := fMul p.1 b
    (q.1, x.2 ||| p.2 ||| q.2)

/-- The rounding of accumulation: to nearest even, with fzo. -/
def accMode (c : BitVec 5) : Mode := ⟨.rne, fzoOf c, 0⟩

/-- One group into an accumulator: none is the start of an overwrite. -/
def accGroup (t : TileTask) (acc : Option Nat) (xs : List (FVal × FVal)) : Nat × BitVec 5 :=
  let x := scaledSum (groupSum xs) t.tsA t.tsB
  let r := f32.round (accMode t.fpctl) x.1
  match acc with
  | none => (r.1, x.2 ||| r.2)
  | some a =>
    let y := fAdd false (f32.decode false a) (f32.decode false r.1)
    let z := f32.round (accMode t.fpctl) y.1
    (z.1, x.2 ||| r.2 ||| y.2 ||| z.2)

/-- The groups of 32 of a K step [a, b), into one element of C. -/
def accGroups (t : TileTask) (i j : Nat) : List Nat → Nat → Option Nat → Nat × BitVec 5
  | [], _, acc => (acc.getD 0, 0)
  | a :: l, b, acc =>
    let d := t.words.toList
    let xs := (span a (min 32 (b - a))).map fun k =>
      (t.opA.value t i k, if tBlay d then t.opB.value t k j else t.opB.value t j k)
    let r := accGroup t acc xs
    let y := accGroups t i j l b (some r.1)
    (y.1, r.2 ||| y.2)

/-- A K step [a, b) over every element of C. -/
def accStep (t : TileTask) (a b : Nat) (data : Table (BitVec 32)) : Table (BitVec 32) × BitVec 5 :=
  let d := t.words.toList
  let first := a == 0 && !tAcc d
  let starts := if b - a > 32 then [a, a + 32] else [a]
  (span 0 (tM d * tN d)).foldl (fun x p =>
    let i := p / tN d
    let j := p % tN d
    let r := accGroups t i j starts b (if first then none else some (tget 0 data (256 * i + j)).toNat)
    (mput 0 (256 * i + j) (BitVec.ofNat 32 r.1) x.1, x.2 ||| r.2)) (data, 0)

/-- A quarter an operand lies in is held, or its core is not mapped: the read waits (R417). -/
def State.operandWaits (s : State) (lc : Nat) : Bool := s.shut lc || !s.mapped lc

/-- An engine's work goes on: its tile is awake and in no swap, and the issuing core is not stopped. -/
def State.engineRuns (s : State) (tile : Nat) (t : TileTask) : Bool :=
  (s.tile tile).runs && !s.quiescing tile && s.enginesRun t.lc

/-- The task an engine runs reads the next granule of its K step, or does the step once it has read them all. -/
def execMatrixKStep (tile : Nat) (s : State) : Out :=
  let x := s.tile tile
  match x.run with
  | none => .next s
  | some t =>
    if !t.stoppable || !s.engineRuns tile t then .next s
    else if s.operandWaits t.opA.lc || s.operandWaits t.opB.lc then .next ((s.callTile t.opA.lc).callTile t.opB.lc)
    else
      let n := if isNarrow t.words.toList then 64 else 32
      let a := n * t.ksteps
      let b := min (tK t.words.toList) (a + n)
      match x.bankOf t.name t.lc t.level with
      | none => .next s
      | some k =>
        let fails := s.setTile tile { x with run := some { t with code := 3, skipped := 8192 } }
        if (x.bank k).bad then .next fails
        else
          match pickAccess s.tick (t.unread a b) with
          | some g =>
            if s.anyBadCellar (span (16 * g) 16) then .next (fails.meetCellarUe (span (16 * g) 16))
            else
              let v := BitVec.ofNat 128 (s.readCellar (span (16 * g) 16))
              .next (s.setTile tile { x with run := some { t with seen := tput g v t.seen } })
          | none =>
            let r := accStep t a b (x.bank k).data
            let t2 := { t with ksteps := t.ksteps + 1, flags := t.flags ||| r.2 }
            .next ((s.setTile tile { x with run := some t2 }).setBank tile k { x.bank k with data := r.1 })

/-! ### Completion and drains (R389, R390) -/

/-- A task that failed ends: its chain closes and its bank frees (R242). -/
def State.failTask (s : State) (tile : Nat) (t : TileTask) : State :=
  ((s.setTile tile { s.tile tile with run := none }).closeChain (tile / 32) t).endTask tile (tile / 32) t
    (statusWord t.skipped false t.flags t.code)

/-- A tile task ends on its engine. One whose bank is to be drained waits for that. -/
def execTileTaskComplete (tile : Nat) (s : State) : Out :=
  let x := s.tile tile
  match x.run with
  | none => .next s
  | some t =>
    if !s.engineRuns tile t then .next s
    else if t.code ≠ 0 then .next (s.failTask tile t)
    else if t.drain || tDrn t.words.toList || t.stoppable then .next s
    else .next ((s.setTile tile { x with run := none }).endTask tile (tile / 32) t (statusWord 0 false t.flags 0))

/-- What a drain writes and where: rows, columns, tag, core, offset, row distance. -/
structure DrainTo where
  rows : Nat
  cols : Nat
  tag : BitVec 4
  lc : Nat
  off : Nat
  stride : Nat
  deriving DecidableEq, Repr

def TileTask.drainTo (t : TileTask) : DrainTo :=
  let d := t.words.toList
  if t.drain then ⟨dRows d, dCols d, dTag d, dCore d, dOff d, dStr d⟩
  else ⟨tM d, tN d, drainTag d t.cfg.toList, tDcore d, tDoff d, tDstr d⟩

/-- Element j of row i as the drain converts it (R260, R262). -/
def drainEl (t : TileTask) (o : DrainTo) (data : Table (BitVec 32)) (i j : Nat) : Nat × BitVec 5 :=
  convertEl t.fd o.tag 5 (modeAt t.fpctl (seedLoad t.seed) (i * o.cols + j)) (fziOf t.fpctl) (tget 0 data (256 * i + j)).toNat

/-- The bytes of row i, and its flags. -/
def drainRow (t : TileTask) (o : DrainTo) (data : Table (BitVec 32)) (i : Nat) : List Byte × BitVec 5 :=
  let w := (layoutOf t.fd o.tag).w
  (leBytes (rowBytes t.fd o.tag o.cols) (buildEls w (fun j => (drainEl t o data i j).1) o.cols),
    flagsOf (fun j => (drainEl t o data i j).2) o.cols)

/-- How many granules a row of a drain takes, and where a granule lies with the bytes it gets; granule g is that of row
g / granules of a row. -/
def DrainTo.perRow (o : DrainTo) (t : TileTask) : Nat := (rowBytes t.fd o.tag o.cols + 15) / 16
def DrainTo.piece (o : DrainTo) (t : TileTask) (data : Table (BitVec 32)) (g : Nat) : Nat × List Byte :=
  let i := g / o.perRow t
  let c := g % o.perRow t
  (o.off + i * o.stride + 16 * c, ((drainRow t o data i).1.drop (16 * c)).take 16)

/-- The flags of every element of a drain. -/
def DrainTo.flags (o : DrainTo) (t : TileTask) (data : Table (BitVec 32)) : BitVec 5 :=
  (span 0 o.rows).foldl (fun f i => f ||| (drainRow t o data i).2) 0

/-- A task's drain is over. -/
def State.endDrain (s : State) (tile : Nat) (t : TileTask) (fl : BitVec 5) : State :=
  ((s.setTile tile { s.tile tile with run := none }).closeChain (tile / 32) t).endTask tile (tile / 32) t
    (statusWord t.skipped false (t.flags ||| fl) 0)

/-- A drain of the task an engine runs, `mxdr` or the drain after the last K step, writes its next granule; one that covers only
part of a failed codeword is skipped and counted. The last ends it. -/
def execMatrixDrain (tile : Nat) (s : State) : Out :=
  let x := s.tile tile
  match x.run with
  | none => .next s
  | some t =>
    let o := t.drainTo
    if t.code ≠ 0 || !(t.drain || (tDrn t.words.toList && !t.stoppable)) || !s.engineRuns tile t then .next s
    else if s.operandWaits o.lc then .next (s.callTile o.lc)
    else
      match x.bankOf t.name t.lc t.level with
      | none => .next s
      | some k =>
        if (x.bank k).bad then .next (s.failTask tile { t with code := 3, skipped := 8192 })
        else
          let data := (x.bank k).data
          let left := (span 0 (o.rows * o.perRow t)).filter fun g => !t.drained.contains g
          match pickAccess s.tick left with
          | none => .next (s.endDrain tile t (o.flags t data))
          | some g =>
            let w := o.piece t data g
            let as := span (cellarKey o.lc w.1) w.2.length
            let ok := s.storableCellar as
            let s1 := if ok then s.writeCellar as w.2 else s
            let t1 := { t with drained := g :: t.drained, skipped := t.skipped + (!ok).toNat }
            .next (if left.length ≤ 1 then s1.endDrain tile t1 (o.flags t data) else s1.setTile tile { x with run := some t1 })

end Sys2Proof.Machine
end

