-- ==== Sys2Proof/Machine/Xlate.lean ====
section
/-! DEFINITION. The lease tick, walks, shootdowns and tier migration (R195, R199 to R204). -/

namespace Sys2Proof.Machine

/-- A core's lease clock rises by one while the core is awake (R195). -/
def execLeaseTick (lc : Nat) (s : State) : Out :=
  if s.active lc then let c := s.core lc; .next (s.setCore lc { c with lease := c.lease + 1 }) else .next s

/-! ### Walks (R200, R201) -/

/-- The walks of a die, the active ones first. -/
def State.walksOf (s : State) (die : Nat) : List Walk := s.mem.walks.filter fun w => w.die == die

/-- The waiters that a miss brings: its requester, and the L2 TLB of its cluster, which is filled first. -/
def Miss.waiters (m : Miss) : List Nat :=
  let l2 := 1024 + (if m.who < 1024 then m.who / 32 else m.who % 64)
  if m.who = l2 then [l2] else [l2, m.who]

/-- A walk serves a miss: one of its page that no shootdown of its context has overtaken (R201, R203). -/
def Walk.serves (w : Walk) (die ctx page : Nat) : Bool := w.die == die && w.ctx == ctx && w.page == page && !w.old

/-- The misses of a die for the page of an address come to its walker: they start a walk, queue it behind 128 others, join
one of their page, or are refused by a full queue. -/
def execPageWalk (die ctx : Nat) (va : Word) (s : State) : Out :=
  let page := va.toNat % 2 ^ 56 / 65536
  let mine := fun m : Miss => m.die == die && m.ctx == ctx && m.page == page
  let ws := (s.mem.misses.filter mine).flatMap Miss.waiters
  let taken := { s with mem := { s.mem with misses := s.mem.misses.filter fun m => !mine m } }
  if ws = [] then .next s
  else if s.mem.walks.any fun w => w.serves die ctx page then
    .next { taken with mem := { taken.mem with
      walks := s.mem.walks.map fun w => if w.serves die ctx page then { w with waiters := w.waiters ++ ws } else w } }
  else if (s.walksOf die).length ≥ 128 + 1024 then .next (s.count cWALKQ die)
  else .next { taken with mem := { taken.mem with walks := s.mem.walks ++ [⟨die, ctx, page, ws, false⟩] } }

/-- A walk's end reaches its waiters: a translation fills them, a fault is what their access meets. -/
def State.endWalk (s : State) (w : Walk) : WalkEnd → State
  | .leaf e l => s.fillAll w.waiters w.ctx (w.page * 65536) e l
  | .pending => s
  | x =>
    let cls := if x = .data then DATA else ADDRESS
    { s with mem := { s.mem with
      faults := s.mem.faults ++ (w.waiters.filter fun h => h < 1024 || 4096 ≤ h).map fun h => ⟨h, w.ctx, w.page, cls⟩ } }

/-- The k-th active walk of a die ends: it fills the L2 TLB and then the L1 TLB of each waiter, or brings every waiter its
fault, which fills nothing. -/
def execWalkComplete (die k : Nat) (s : State) : Out :=
  match (s.walksOf die)[k]? with
  | none => .next s
  | some w =>
    if k ≥ 128 then .next s
    else
      let r := ({ s with mem := { s.mem with walks := s.mem.walks.erase w } }).walkBy die w.ctx (w.page * 65536)
      let s1 := r.2.endWalk w r.1
      .next (if r.1 = .data then s1.count cWALKUE die else s1)

/-! ### Shootdowns (R203) -/

/-- What acknowledges for a holder of translations: a slot, an L2 TLB from 1024, the BAR4 translator, and the copy units and
streamer of a cluster from 1064, with the quay copy engines at 1096. The walkers of the dies are 1056 to 1063. -/
def ackUnit (holder : Nat) : Nat := if holder < 4096 then holder else 1064 + holder % 64

/-- Everything that acknowledges a shootdown. -/
def holders : List Nat := span 0 1097 ++ [2048]

/-- Drop the translations of a range that belong to some of the acknowledging units. -/
def State.dropXlats (s : State) (keep : Nat → Bool) (ctx va lgsz : Nat) : State :=
  { s with mem := { s.mem with tlb := s.mem.tlb.filter fun x => keep (ackUnit x.holder) || !x.hits ctx va lgsz } }

/-- A walker drops its non-leaf entries of a context. -/
def State.dropNonleaf (s : State) (die ctx : Nat) : State :=
  { s with mem := { s.mem with nonleaf := s.mem.nonleaf.filter fun x => !(x.die == die && x.ctx == ctx) } }

/-- The fields of SDCTL. -/
def sdCtx (w : Word) : Nat := bits w 54 8
def sdLgsz (w : Word) : Nat := bits w 0 6
def sdBusy (w : Word) : Bool := bit w 62

/-- Start a shootdown of the range that SDVA and SDCTL of a quay die name, or refuse it. A walk of the context that is under
way completes for its waiters; who misses from now on is served by a new one. -/
def State.shootdown (s : State) (q : Nat) : State :=
  let w := s.entry 9 q
  let va := (s.entry 8 q).toNat
  let lg := sdLgsz w
  if sdBusy w || lg < 16 || lg > 56 || va % 2 ^ lg ≠ 0 then s.setEntry 9 q (setBits w 6 2 2)
  else
    { s.setEntry 9 q (setBits (setBits w 62 1 1) 6 2 0) with
      shootdowns := tput q { va := va, lgsz := lg, ctx := sdCtx w, missing := holders } s.shootdowns
      mem := { s.mem with walks := s.mem.walks.map fun x => if x.ctx = sdCtx w then { x with old := true } else x } }

def execShootdownGo (q : Nat) (s : State) : Out := if q < 2 then .next (s.shootdown q) else .next s

/-- A core has no access outstanding. -/
def Core.quiet (c : Core) : Bool :=
  c.frames.all fun f =>
    f.unacked == 0 && f.vplan == [] && !begun f.h.sent && (f.h.sent ++ f.vsent).all fun x => x.answer.isSome

/-- A unit waits for a walk of a context that a shootdown has overtaken. -/
def State.awaitsOld (s : State) (ctx unit : Nat) : Bool :=
  s.mem.walks.any fun w => w.old && w.ctx == ctx && w.waiters.any fun h => ackUnit h == unit

/-- The engines of a cluster, or the quay copy engines at 32, have no access outstanding. -/
def State.enginesQuiet (s : State) (cl : Nat) : Bool :=
  s.prog.eng.all fun x =>
    x.2.answer.isSome || (if engineCore x.1 < 1024 then s.clusterOf (engineCore x.1) != cl else cl != 32)

/-- A tile holds no translations: it sleeps at D2 or D3, or is quiesced for rotation (R75, R82). -/
def State.tileEmpty (s : State) (tile : Nat) : Bool :=
  (match (s.tile tile).sleep with
    | .asleep d | .waiting d | .waking d => decide (2 ≤ d)
    | _ => false) ||
    s.dies.any fun d => d.2.swap.any fun w => w.phase == .quiesced && w.pairs.any fun p => p.1 == tile || p.2 == tile

/-- A unit can acknowledge: a walker with no walk of the context that was under way, a slot or engines with no access
outstanding; none that waits for such a walk. -/
def State.mayAck (s : State) (unit ctx : Nat) : Bool :=
  if 1056 ≤ unit ∧ unit < 1064 then !(s.mem.walks.any fun w => w.old && w.ctx == ctx && w.die == unit - 1056)
  else if unit < 1024 then
    s.tileEmpty (unit / 4) ||
      (!s.awaitsOld ctx unit && match s.logicalAt unit 1024 with
        | some lc => (s.core lc).quiet
        | none => true)
  else if 1064 ≤ unit ∧ unit < 1097 then !s.awaitsOld ctx unit && s.enginesQuiet (unit - 1064)
  else !s.awaitsOld ctx unit

/-- A word lies in a page. -/
def inPage (base size a : Nat) : Bool := base ≤ a && a < base + size

/-- A physical address as memory holds it. -/
def State.physAddr (s : State) (pa : Nat) : Nat :=
  match s.region pa with
  | .hbm a => a
  | _ => pa

/-- The entries of the holding buffers for words of a page that is to move are applied, by the end of the shootdown that its
migration began with (R337). -/
def State.drainPages (s : State) (x : Shootdown) : State :=
  (s.mem.migrations.filter fun m => m.ctx == x.ctx && m.va == x.va && m.moved == 0).foldl (fun s m =>
    (s.slices.map Prod.fst).foldl (fun s n => s.drainHeld n fun e => inPage (s.physAddr m.src) (2 ^ m.lgsz) e.addr) s) s

/-- A unit drops its translations of the range, a walker its non-leaf entries of the context, and acknowledges; the last
one completes the shootdown. -/
def execShootdownAck (q unit : Nat) (s : State) : Out :=
  match tfind s.shootdowns q with
  | none => .next s
  | some x =>
    if !x.missing.contains unit || !s.mayAck unit x.ctx then .next s
    else
      let s0 := s.dropXlats (· != unit) x.ctx x.va x.lgsz
      let s1 := if 1056 ≤ unit ∧ unit < 1064 then s0.dropNonleaf (unit - 1056) x.ctx else s0
      let rest := x.missing.filter (· != unit)
      if rest = [] then
        .next ((({ s1 with shootdowns := tdel q s1.shootdowns }.setEntry 9 q
          (setBits (setBits (s.entry 9 q) 62 1 0) 6 2 1)).count cTLBSD q).drainPages x)
      else .next { s1 with shootdowns := tput q { x with missing := rest } s1.shootdowns }

/-! ### Tier migration (R204) -/

/-- The address, the content and the level of the leaf of an address. -/
def State.leafAt (s : State) (va : Nat) : List Nat → Nat → Option (Nat × Word × Nat)
  | [], _ => none
  | j :: js, base =>
    let ea := base + 8 * (va / 2 ^ (46 - 10 * j) % 1024)
    let e := s.mem64 ea
    if s.badAt ea || !bit e 0 then none
    else if bit e 1 then some (ea, e, j)
    else s.leafAt va js (bits e 13 39 * 2 ^ 13)

/-- The partition of the first function that has a context, 0 where none has. DESIGN CHOICE (log entry 110): R204 and R205 do not
say whose MIGABN an abandoned migration counts in. -/
def State.ctxPart (s : State) (ctx : Nat) : Nat :=
  (((span 0 64).find? fun f => s.bound f && s.fnCtx f == ctx).map s.fnPart).getD 0

/-- Copy the cells of one range of memory to another. -/
def moveCells (m : List Host.Cell) (src dst size : Nat) : List Host.Cell :=
  (m.filter fun c => inPage src size c.1).foldl (fun m c => putByte m (dst + (c.1 - src)) c.2)
    (m.filter fun c => !inPage dst size c.1)

/-- The marks of a page's units move with it: future states by word, uncorrectable codewords by line. -/
def moveMarks {α : Type} (t : Table α) (src dst size : Nat) : Table α :=
  (t.filter fun e => inPage src size e.1).foldl (fun t e => tput (dst + (e.1 - src)) e.2 t)
    (t.filter fun e => !inPage dst size e.1 && !inPage src size e.1)

/-- The first bytes of the chunks of a page that show all its stacks and ports: a page that spans 1 MiB lies on all. -/
def pageChunks (pa size : Nat) : List Nat := (span 0 (min 16 (size / 65536))).map fun i => pa + 65536 * i

/-- The number of a migration's copy among the engines. -/
def migrationKey (ctx : Nat) : Nat := 2 ^ 20 + ctx * 2048 + 1030

/-- Read a line of a page that migrates, wherever it lies. -/
def State.pageRead (s : State) (key pa : Nat) : Eng :=
  match s.region pa with
  | .remote d _ => s.engRemote key (BitVec.ofNat 64 pa) d 0 (.load 64)
  | .host => s.engHost key 0 pa 64
  | _ =>
    let l := span (s.physAddr pa) 64
    if l.any s.portFailed || s.anyBad l then .bad (s.meetUe l) else .ok (gatherBytes s.mem.bytes l) s

/-- The home takes the line times of a page that moves: at the new place each passes the last write and every lease
granted there (R195, R208). -/
def State.moveTimes (s : State) (src dst size : Nat) : State :=
  let ks := (s.mem.lines.filter fun e => inPage (src / 64) (size / 64) e.1).map (fun e => dst / 64 + (e.1 - src / 64)) ++
    (s.mem.lines.filter fun e => inPage (dst / 64) (size / 64) e.1).map Prod.fst
  ks.foldl (fun t k =>
    let w := max (s.homeLine (src / 64 + (k - dst / 64))).1 ((s.homeLine k).2 + 1)
    { t with mem := { t.mem with lines := tput k (w, w) t.mem.lines } }) s

/-- Write a line of the new place. -/
def State.pageWrite (s : State) (key pa : Nat) (bs : List Byte) : Eng :=
  match s.region pa with
  | .remote d _ => s.engRemote key (BitVec.ofNat 64 pa) d 1 (.store bs)
  | .host => if s.hostBusy (span pa 64) then .wait s else .ok [] (s.hostWrite 0 (span pa 64) bs)
  | _ => let l := span (s.physAddr pa) 64; .ok [] ((s.homeWrite l).writeMem l bs)

/-- The shootdown that the front end drives for a page: that of quay die 0. -/
def State.shootPage (s : State) (ctx va lgsz : Nat) : State :=
  ((s.setEntry 8 0 (BitVec.ofNat 64 va)).setEntry 9 0 (setBits (setBits (s.entry 9 0) 54 8 ctx) 0 6 lgsz)).shootdown 0

/-- Change the migrations. -/
def State.setMigrations (s : State) (l : List Migration) : State := { s with mem := { s.mem with migrations := l } }

/-- Step 1 of a migration: mig is set in the leaf of a page, and its range is shot down. A place that is not populated, or
a port that has failed, starts none. -/
def State.migrateStart (s : State) (ctx : Nat) (va pa : Word) (tier : Nat) : State :=
  let root := s.entry 11 ctx
  match (if bit root 63 then s.leafAt va.toNat [0, 1, 2, 3] (bits root 13 39 * 2 ^ 13) else none) with
  | none => s
  | some (ea, e, l) =>
    let size := 2 ^ pageBits l
    let src := bits e 16 36 * 2 ^ 16
    let page := va.toNat / size * size
    if pa.toNat % size ≠ 0 || !(pageChunks pa.toNat size).all (s.populated tier) || (pageChunks src size).any s.portFailed ||
        (pageChunks pa.toNat size).any s.portFailed then s
    else
      ((s.setMem64 ea (setBits e 7 1 1)).shootPage ctx page (pageBits l)).setMigrations
        (s.mem.migrations ++ [⟨ctx, page, pageBits l, ea, src, pa.toNat, tier, 0⟩])

/-- Step 3: the page is copied, at once within the module and else by lines. -/
def State.migrateCopy (s : State) (m : Migration) : State × Migration :=
  let size := 2 ^ m.lgsz
  let away := fun pa => match s.region pa with
    | .remote _ _ | .host => true
    | _ => false
  if !away m.src && !away m.dst then
    let src := s.physAddr m.src
    let dst := s.physAddr m.dst
    let s1 := s.moveTimes src dst size
    ({ s1 with mem := { s1.mem with
      bytes := moveCells s.mem.bytes src dst size
      badLines := moveMarks s.mem.badLines (src / 64) (dst / 64) (size / 64) } }, { m with moved := size })
  else
    match s.pageRead (migrationKey m.ctx) (m.src + m.moved) with
    | .wait s1 => (s1, m)
    | .bad s1 | .fault s1 => (s1, { m with moved := m.moved + 64 })
    | .ok bs s1 =>
      match s1.pageWrite (migrationKey m.ctx) (m.dst + m.moved) bs with
      | .ok _ s2 | .bad s2 | .fault s2 => (s2, { m with moved := m.moved + 64 })
      | .wait _ =>
        match s.pageWrite (migrationKey m.ctx) (m.dst + m.moved) bs with
        | .wait s2 => (s2, m)
        | _ => (s, m)

/-- A migration stops: mig is cleared and the page stays where it was. -/
def State.migrateStop (s : State) (m : Migration) : State :=
  ((s.setMem64 m.leaf (setBits (s.mem64 m.leaf) 7 1 0)).shootPage m.ctx m.va m.lgsz).setMigrations
    (s.mem.migrations.filter fun x => x != m)

/-- The future states of a page's words move with it (R204), wherever it goes: an empty word whose page leaves local HBM
stays empty until the page comes back. -/
def State.moveFutures (s : State) (m : Migration) : State :=
  { s with mem := { s.mem with empties := moveMarks s.mem.empties (s.physAddr m.src) (s.physAddr m.dst) (2 ^ m.lgsz) } }

/-- A migration goes on once its shootdown is over: it is abandoned for a deferred future read (step 2), the page is copied,
and when it has been the leaf is written and shot down (step 4). A port that fails meanwhile leaves the page where it was,
since it can be moved only while its ports are readable (R16). -/
def State.migrateOn (s : State) (m : Migration) : State :=
  let rest := s.mem.migrations.filter fun x => x != m
  let e := s.mem64 m.leaf
  let held := s.slices.any fun x => x.2.pantry.any fun d => inPage (s.physAddr m.src) (2 ^ m.lgsz) d.word
  if m.moved = 0 ∧ held then (s.migrateStop m).count cMIGABN (s.ctxPart m.ctx)
  else if m.moved < 2 ^ m.lgsz ∧ (pageChunks m.src (2 ^ m.lgsz) ++ pageChunks m.dst (2 ^ m.lgsz)).any s.portFailed then s.migrateStop m
  else if m.moved < 2 ^ m.lgsz then
    let r := s.migrateCopy m
    r.1.setMigrations (r.1.mem.migrations.map fun x => if x = m then r.2 else x)
  else
    (((s.moveFutures m).setMem64 m.leaf (setBits (setBits (setBits e 16 36 (m.dst / 2 ^ 16)) 8 2 m.tier) 7 1 0)).shootPage m.ctx m.va
      m.lgsz).setMigrations rest

/-- A step of the front end's procedure for the page of an address: it begins a migration to a new place of a tier, or goes
on with the one under way. Each waits for the shootdown unit (R204). -/
def execTierMigration (ctx : Nat) (va pa : Word) (tier : Nat) (s : State) : Out :=
  if sdBusy (s.entry 9 0) then .next s
  else
    match s.mem.migrations.find? fun m => m.ctx == ctx && inPage m.va (2 ^ m.lgsz) va.toNat with
    | some m => .next (s.migrateOn m)
    | none => .next (s.migrateStart ctx va pa tier)

end Sys2Proof.Machine
end

