-- ==== Sys2Proof/Machine/Links.lean ====
section
/-! DEFINITION. Ferry links, remote and host accesses, die-to-die edges, attic ports and the upkeep of
memory (R11 to R21, R28, R59, R73, R189, R190, R222). -/

namespace Sys2Proof.Machine

/-! ### Answers to requests that have left (R14, R222) -/

/-- An access that writes without an answer's value: a store. -/
def isStore : RemoteOp → Bool
  | .store _ => true
  | .nibble _ _ => true
  | .mask _ => true
  | _ => false

/-- Give the accesses of a list that carry a tag and await their answer that answer. -/
def answerTag (tag : Nat) (a : Answer) (l : List Sent) : List Sent :=
  l.map fun x => if x.tag = tag ∧ x.answer.isNone then { x with answer := some a } else x

/-- Give a frame's outstanding access its answer: of the instruction at pc, or of the vector entry. -/
def Frame.answer (f : Frame) (tag : Nat) (a : Answer) : Frame :=
  { f with h := { f.h with sent := answerTag tag a f.h.sent }, vsent := answerTag tag a f.vsent }

/-- Answer the engine whose number is key. -/
def State.answerEng (s : State) (key : Nat) (addr : Word) (a : Answer) : State :=
  { s with prog := { s.prog with eng := s.prog.eng.map fun x =>
      if x.1 = key ∧ x.2.addr = addr ∧ x.2.answer.isNone then (key, { x.2 with answer := some a }) else x } }

/-- The answer of a request that has left reaches who made it. -/
def State.answer (s : State) (r : RemoteReq) (a : Answer) : State :=
  if r.lc ≥ 4096 then s.answerEng (r.lc - 4096) r.addr a
  else if r.lc ≥ 1024 then
    let n := r.lc - 1024
    if n ≥ 16 then s
    else
      let c := s.fe n
      s.setFe n { c with h := { c.h with sent := answerTag r.addr.toNat a c.h.sent } }
  else
    match s.frameAt r.lc r.level with
    | some f => s.setFrameAt r.lc r.level (f.answer r.addr.toNat a)
    | none => s

/-! ### Routes that go (R21) -/

/-- A request that ends with DATA where its route goes: stores wait for one. -/
def State.lostRequest (s : State) (r : RemoteReq) : Bool := !isStore r.op && !s.routed (s.deviceOf r.addr)

/-- What a mask without a live link brings: queued records are dropped, loads and atomics end with DATA, and stores
and progress deltas wait; what waits for a route that is there again leaves. -/
def State.cutRoutes (s : State) : State :=
  let gone := fun x : Flight => match x.dst with
    | .device d => !s.routed d
    | _ => false
  let s1 := { s with prog := { s.prog with
    flights := s.prog.flights.filter fun x => !gone x
    remote := s.prog.remote.filter fun r => !s.lostRequest r } }
  let s2 := (s.prog.flights.filter gone).foldl (fun s x => s.dropAtQuay (s.quayOf x.rcd.dev) x.rcd) s1
  ((s.prog.remote.filter s.lostRequest).foldl (fun s r => s.answer r (.refused DATA)) s2).sendUnrouted

/-- A flit of a link that went down is sent again over the link its pair is pinned to now. Where none is left, an own
record is dropped at the link's quay die, an own load or atomic has ended with DATA, what else is own waits for a
route, and a flit that this module only passes on is lost (R21; log entry 88). -/
def State.resend (s : State) (link : Nat) (f : Flit) : State :=
  if f.h.type ≠ 1 then s
  else
    match s.linkTo f.h.srcdev.toNat f.h.dstdev.toNat with
    | some k => s.sendFlit k f
    | none =>
      if f.h.srcdev.toNat ≠ s.devid.toNat then s
      else
        match f.msg with
        | .record r => s.dropAtQuay (link / 12) r
        | .access _ _ _ op => if isStore op then s.sendMsg f.h.dstdev.toNat f.msg else s
        | m => s.sendMsg f.h.dstdev.toNat m

/-! ### The link layer (R18 to R20) -/

/-- A flit that the link sends for itself: a NAK with the last good sequence, credits, or nothing. -/
def State.sendControl (s : State) (link : Nat) (type : BitVec 4) : State :=
  s.sendFlit link (newFlit type s.devid.toNat 0 .none)

/-- A flit of a reserved type or channel, or one that has run out of hops. -/
def State.protocolError (s : State) (h : FlitHeader) : Bool :=
  decide (h.type.toNat ≥ 4) || decide (h.vc.toNat ≥ 6) || (h.hops == 0 && h.dstdev.toNat != s.devid.toNat)

/-- A data flit that has been accepted: what it says waits for its unit, or the quay die passes the flit on with one
hop less over the link its pair is pinned to. Where no live link leads on, the flit is lost (log entry 88). -/
def State.acceptFlit (s : State) (link : Nat) (f : Flit) : State :=
  if f.h.dstdev.toNat = s.devid.toNat then
    { s with prog := { s.prog with rx := s.prog.rx ++ [⟨link, f.h.srcdev.toNat, f.h.vc.toNat, f.msg⟩] } }
  else
    let s1 := s.setLink link ((s.link link).freed f.h.vc.toNat)
    match s1.linkTo f.h.srcdev.toNat f.h.dstdev.toNat with
    | some out => s1.sendFlit out { f with h := { f.h with hops := f.h.hops - 1 } }
    | none => s1

/-- A receiver accepts a flit with a good CRC and the sequence it expects, and takes its acknowledgement and its
credits. It discards any other; a bad CRC and a protocol error are counted and answered with a NAK. -/
def State.receiveFlit (s : State) (link : Nat) (f : Flit) (good : Bool) : State :=
  let l := s.link link
  if !good then (s.count cFCRC link).sendControl link 2
  else if s.protocolError f.h then (s.count cFPROT link).sendControl link 2
  else if f.h.seq.toNat ≠ l.expect then s
  else
    let l1 := ({ l with expect := (l.expect + 1) % 4096 }).credited f.h.credits
    let s1 := s.setLink link ((if f.h.type = 2 then l1.nak f.h.ack else l1.acked f.h.ack).pump link)
    if f.h.type = 1 then s1.acceptFlit link f else s1

/-- A flit arrives on a link that is up and does not train: the CRC that came with it is that of its header and payload,
or it is bad. -/
def execFerryFlitReceive (link : Nat) (crc : BitVec 32) (f : Flit) (s : State) : Out :=
  if !(s.link link).up || (s.link link).training || decide (link ≥ 24) then .next s
  else .next (s.receiveFlit link f (crc == flitSum f))

/-- The sender takes a NAK. -/
def execFerryNakReceive (link : Nat) (seq : BitVec 12) (s : State) : Out :=
  if (s.link link).up then .next (s.setLink link (((s.link link).nak seq).pump link)) else .next s

/-- After 16 NAKs without progress the link retrains. -/
def execFerryLinkRetrain (link : Nat) (s : State) : Out :=
  let l := s.link link
  if l.up && !l.training && l.naks ≥ 16 then .next ((s.setLink link { l with training := true }).count cFRTRN link) else .next s

/-- A link goes down: its unacknowledged flits, then what waited on it, are sent again over the links their pairs are
pinned to now, and what has no route is cut. DESIGN CHOICE (log entry 88): when the link comes back, both directions go on with
the sequence numbers they had, and with no credit in use; R20 and R21 do not say with which. -/
def State.linkDown (s : State) (link : Nat) : State :=
  let l := s.link link
  let s1 := (s.setLink link { Link.reset with up := false, nextSeq := l.nextSeq, expect := l.expect }).count cFDOWN link
  ((l.replay ++ l.waiting).foldl (fun s f => s.resend link f) s1).cutRoutes

/-- A retrain ends: the flits that are not acknowledged are sent again. The third that fails takes the link down. -/
def execFerryRetrainComplete (link : Nat) (ok : Bool) (s : State) : Out :=
  let l := s.link link
  if !l.training then .next s
  else if ok then
    .next (s.setLink link (({ l with training := false, naks := 0, retrains := 0, wire := l.replay } : Link).pump link))
  else if l.retrains + 1 ≥ 3 then .next ((s.setLink link { l with retrains := 0 }).linkDown link)
  else .next (s.setLink link { l with training := false, retrains := l.retrains + 1 })

/-- A route to a device returns: its links are up again, and what has waited leaves. -/
def execFerryRouteReturn (dev : Nat) (s : State) : Out :=
  .next ((span 0 24).foldl (fun s l =>
    if bit (s.entry 14 dev) l && !(s.link l).up then s.setLink l { s.link l with up := true, naks := 0, retrains := 0 } else s)
    s).sendUnrouted

/-- The link sends by itself: credits where a buffer of 4 flits is free, else an idle flit with its acknowledgement. -/
def State.linkIdle (s : State) (link : Nat) : State :=
  let l := s.link link
  if l.up && !l.training && decide (link < 24) then
    s.sendControl link (if (span 0 8).any fun vc => l.giveBack vc != 0 then 3 else 0)
  else s

/-- The other end takes the first flit on the wire. -/
def State.wireTaken (s : State) (link : Nat) : State := s.setLink link { s.link link with wire := (s.link link).wire.tail }

/-! ### Accesses from other modules (R189, R222) -/

/-- An operation on bytes: what it leaves, from what is there; none for a load. -/
def RemoteOp.apply (op : RemoteOp) (old : Nat) : Option Nat :=
  match op with
  | .load _ => none
  | .store d => some (leNat d)
  | .nibble high x => some (withNibble high x.toNat old)
  | .atomic o dbl x e c dr =>
    some (atomicNew o (if dbl then 64 else 32) old x.toNat e.toNat (BitVec.ofNat 5 c) dr)
  | .mask d => some (leNat ((d.zip (leBytes d.length old)).map fun x => x.1.getD x.2))
def RemoteOp.bytes : RemoteOp → Nat
  | .load n => n
  | .store d => d.length
  | .nibble _ _ => 1
  | .atomic _ dbl _ _ _ _ => if dbl then 8 else 4
  | .mask d => d.length

/-- The addresses an operation on a range stores to: under a mask those of the active bytes (R209). -/
def RemoteOp.stores (op : RemoteOp) (as : List Nat) : List Nat :=
  match op with
  | .mask d => (as.zip d).filterMap fun x => x.2.map fun _ => x.1
  | _ => as

/-- What an operation stores at the addresses of a range, given what it leaves there. -/
def RemoteOp.values (op : RemoteOp) (v : Nat) : List Byte :=
  match op with
  | .mask d => d.filterMap id
  | _ => leBytes (RemoteOp.bytes op) v

/-- The partition of a logical core lets a device in; a core that awaits its restore counts as mapped (R238). -/
def State.admits (s : State) (lc dev : Nat) : Bool :=
  (s.mapped lc || s.awaitsRestore lc) && bit (s.entry 24 lc) 63 && s.inDomain (s.partOf lc) dev

/-- What a remote access comes to at its owner: an answer, with its bytes where it succeeded, a reject, or a wait. -/
inductive Owned where
  | done (ok : Bool) (bs : List Byte) (s : State) | reject | wait
  deriving DecidableEq, Repr

/-- A remote access to a quarter: one that fails the checks is rejected, one at an uncorrectable word changes nothing,
an access to a held core, a sleeping tile or a core that awaits its restore waits, and so does a core's load at or above a
watermark: no store, atomic or engine read does (R25, R77, R177, R189, R215, R238). -/
def State.remoteWindow (s : State) (src who lc off : Nat) (op : RemoteOp) : Owned :=
  let n := RemoteOp.bytes op
  let as := span (cellarKey lc off) n
  if !s.admits lc src then .reject
  else if !s.mapped lc || s.shut lc || (op.isLoad && decide (who < 1024) && s.armedAt lc off n) then .wait
  else if (if isStore op then !s.storableCellar (RemoteOp.stores op as) else s.anyBadCellar as) then .done false [] (s.meetCellarUe as)
  else
    let bs := gatherBytes s.mem.cellar as
    match RemoteOp.apply op (leNat bs) with
    | some v => .done true bs (s.writeCellar (RemoteOp.stores op as) (RemoteOp.values op v))
    | none => .done true bs s

/-- A remote access to local HBM: an unpopulated address is answered as an uncorrectable one. -/
def State.remoteHbm (s : State) (pa : Nat) (op : RemoteOp) : Owned :=
  let n := RemoteOp.bytes op
  let as := span pa n
  if !s.populated 0 pa then .done false [] s
  else if as.any s.portFailed || (if isStore op then !s.storable (RemoteOp.stores op as) else s.anyBad as) then .done false [] (s.meetUe as)
  else
    let bs := gatherBytes s.mem.bytes as
    match RemoteOp.apply op (leNat bs) with
    | some v => .done true bs ((s.homeWrite (RemoteOp.stores op as)).writeMem (RemoteOp.stores op as) (RemoteOp.values op v))
    | none => .done true bs s

/-- A remote access of a module's core, or of an engine from 4096 on, at its owner. -/
def State.ownAccess (s : State) (src who : Nat) (addr : Word) (op : RemoteOp) : Owned :=
  if addr.toNat / 2 ^ 56 = 2 then
    match spaceOf addr (RemoteOp.bytes op) with
    | .window dev tlc off => if dev = s.devid.toNat then s.remoteWindow src who tlc off op else .reject
    | _ => .reject
  else
    match s.region addr.toNat with
    | .hbm pa => s.remoteHbm pa op
    | _ => .done false [] s

/-- An access that has arrived waits at its owner: later ones of its source pass it, but a store is passed by none of its
own core (R222). -/
def State.accessWaits (s : State) (lc : Nat) (x : Arrived) : Bool :=
  match x.msg with
  | .access c _ addr op => s.ownAccess x.src c addr op == .wait && !(isStore op && c == lc)
  | _ => false

/-- The tile whose quarter an access to this module needs is called (R77). -/
def State.callAt (s : State) (addr : Word) : State :=
  match spaceOf addr 1 with
  | .window dev lc _ => if dev = s.devid.toNat ∧ s.mapped lc = true then s.callTile lc else s
  | _ => s

/-- A remote load, store or atomic that has arrived on channel 0 is performed at its owner, which answers on channel
1 with the data, with an error, or with a reject (R19, R189, R222). -/
def execRemoteAccessArrival (src lc : Nat) (addr : Word) (op : RemoteOp) (s : State) : Out :=
  let mine := fun x : Arrived => x.src == src && match x.msg with
    | .access c _ a o => c == lc && a == addr && o == op
    | _ => false
  match s.takeRx mine (s.accessWaits lc) with
  | some (⟨_, _, _, .access _ level _ _⟩, s1) =>
    match s1.ownAccess src lc addr op with
    | .done ok bs s2 => .next (s2.sendMsg src (.response lc level addr ok bs))
    | .reject => .next (s1.sendMsg src (.reject lc level addr))
    | .wait => .next (s.callAt addr)
  | _ => .next (if s.prog.rx.any mine then s.callAt addr else s)

/-! ### Answers (R14, R190, R321) -/

/-- Take the first request of a list that a test selects. -/
def takeFirst {α : Type} (p : α → Bool) : List α → Option (α × List α)
  | [] => none
  | x :: l => if p x then some (x, l) else (takeFirst p l).map fun r => (r.1, x :: r.2)

/-- A frame's store is answered: its count of stores not acknowledged falls, and the class and address of the first that
failed stay with it (R190). DESIGN CHOICE (log entry 109): a store that its owner cannot make, since it covers a failed
codeword only in part, is met like a rejected one, with DATA; R242 gives the class, not the instruction. -/
def State.ackStore (s : State) (lc level : Nat) (fails : Option (Nat × Word)) : State :=
  match s.frameAt lc level with
  | some f => s.setFrameAt lc level { f with unacked := f.unacked - 1, rejected := f.rejected.or fails }
  | none => s

/-- The oldest request of a core and level at an address. -/
def askedAt (lc level : Nat) (addr : Word) (r : RemoteReq) : Bool := r.lc == lc && r.level == level && r.addr == addr

/-- The level a request is answered at: one that was given up keeps its place under a level no frame has. -/
def State.takeRequest (s : State) (lc level : Nat) (addr : Word) : Option (RemoteReq × State) :=
  (takeFirst (fun r => askedAt lc level addr r || askedAt lc (level + 8) addr r) s.prog.remote).map fun r =>
    (r.1, { s with prog := { s.prog with remote := r.2 } })

/-- A response or an acknowledgement that has arrived on channel 1 returns to the request of a core and level; one
that is not ok brings DATA. -/
def execRemoteResponseArrival (lc level : Nat) (ok : Bool) (data : List Byte) (s : State) : Out :=
  match s.takeRx (fun x => match x.msg with
      | .response c l _ o d => c == lc && l == level && o == ok && d == data
      | _ => false) (fun _ => false) with
  | some (⟨_, _, _, .response _ _ addr _ _⟩, s1) =>
    match s1.takeRequest lc level addr with
    | none => .next s1
    | some (r, s2) =>
      if isStore r.op && r.lc < 4096 then .next (s2.ackStore lc r.level (if ok then none else some (DATA, addr)))
      else .next (s2.answer r (if ok then .data data else .refused DATA))
  | _ => .next s

/-- The owner has rejected a window access: a store is counted, and its address stays with its frame where that is still
there; a load or an atomic takes ADDRESS. -/
def execRemoteRejectArrival (lc level : Nat) (addr : Word) (s : State) : Out :=
  match s.takeRx (fun x => x.msg == .reject lc level addr) (fun _ => false) with
  | none => .next s
  | some (_, s1) =>
    match s1.takeRequest lc level addr with
    | none => .next s1
    | some (r, s2) =>
      if isStore r.op && r.lc < 4096 then .next ((s2.ackStore lc r.level (some (ADDRESS, addr))).count cWREJ (s.partOf lc))
      else .next (s2.answer r (.refused ADDRESS))

/-- The answer of a request at Q0 to the host range. -/
def State.answerHost (s : State) (tag : Nat) (r : HostReq) (a : Answer) : State :=
  match r.agent with
  | .fe n =>
    let c := s.fe n
    s.setFe n { c with h := { c.h with sent := answerTag tag a c.h.sent } }
  | .core k =>
    if k ≥ 4096 then s.answerEng (k - 4096) (BitVec.ofNat 64 r.addr) a
    else
      match s.frameAt k r.level with
      | some f =>
        s.setFrameAt k r.level (f.answer tag a)
      | none => s

/-- PCIe carries an access to the host range as one request: a read, a write, or an AtomicOp, which the 8-byte forms of
add, swap and cas are. Any other atomic is a read and then a write, and so is a nibble store (R194, R217). -/
def RemoteOp.whole : RemoteOp → Bool
  | .nibble _ _ => false
  | .atomic o dbl _ _ _ _ => dbl && (o == 1 || o == 0 || o == 9)
  | _ => true

/-- The front end ends smax, smin and error propagation on a host word with a CompareAndSwap, which fails and is repeated
with the word it finds where the host has stored in between (R41). -/
def HostReq.swaps (r : HostReq) : Bool :=
  !RemoteOp.whole r.op && match r.agent with
  | .core k => decide (4096 ≤ k)
  | .fe _ => false

/-- A completion for a request at Q0: the access is performed at the host's memory, or it failed. Of an atomic that is no
AtomicOp the first completion brings what it reads, and with the second what it makes of that is written; no other access from within the module comes between. -/
def execHostCompletionArrival (tag : Nat) (st : HostStatus) (s : State) : Out :=
  match tfind s.mem.hostReqs tag with
  | none => .next s
  | some r =>
    let s1 := { s with mem := { s.mem with hostReqs := tdel tag s.mem.hostReqs } }
    if st = .ok then
      let as := span r.addr (RemoteOp.bytes r.op)
      let now := gatherBytes s.mem.bytes as
      let bs := r.old.getD now
      if r.old.isNone ∧ s.hostBusy as then .next s
      else if r.swaps ∧ r.old.any (fun b => b != now) then .next (s.addHostReq tag { r with old := some now })
      else if !RemoteOp.whole r.op && r.old.isNone then .next (s.addHostReq tag { r with old := some bs })
      else
        let s2 := match RemoteOp.apply r.op (leNat bs) with
          | some v => s1.hostWrite r.fn (RemoteOp.stores r.op as) (RemoteOp.values r.op v)
          | none => s1
        .next (s2.answerHost tag r (.data bs))
    else .next ((s1.answerHost tag r (.refused DATA)).count cHOSTERR 0)

/-- A request at Q0 times out. -/
def execHostRequestTimeout (tag : Nat) (s : State) : Out :=
  match tfind s.mem.hostReqs tag with
  | none => .next s
  | some r =>
    let s1 := { s with mem := { s.mem with hostReqs := tdel tag s.mem.hostReqs } }
    .next ((s1.answerHost tag r (.refused DATA)).count cHOSTERR 0)

/-! ### Edges, ports and upkeep (R11, R12, R15, R16, R28, R59) -/

/-- A die of the package: a tile die or a quay die (R9). -/
inductive DieEnd where
  | tile (d : Nat) | quay (q : Nat)
  deriving DecidableEq, Repr

/-- The dies that an edge joins, in the order of R11: 0 to 5 in the rows, 6 to 9 between the rows by column, 10 to 13
at dies 0, 4, 3 and 7. -/
def edgeDies (e : Nat) : DieEnd × DieEnd :=
  if e < 6 then (.tile (4 * (e / 3) + e % 3), .tile (4 * (e / 3) + e % 3 + 1))
  else if e < 10 then (.tile (e - 6), .tile (e - 2))
  else
    match e with
    | 10 => (.tile 0, .quay 0)
    | 11 => (.tile 4, .quay 0)
    | 12 => (.tile 3, .quay 1)
    | _ => (.tile 7, .quay 1)

/-- An edge retrains with a number of modules and a rate in GT/s; less than 12 or 32 is a reduced edge. -/
def execD2dEdgeRetrain (edge modules rate : Nat) (s : State) : Out :=
  if edge ≥ 14 ∨ modules = 0 ∨ modules > 12 ∨ rate < 16 ∨ rate > 32 then .next s
  else
    let s1 := { s with boot := { s.boot with edges := tput edge (modules, rate) s.boot.edges } }
    .next (if modules < 12 ∨ rate < 32 then s1.count cD2DDEG edge else s1)

/-- A flit of an edge fails its CRC and is sent again. -/
def execD2dRetry (edge : Nat) (s : State) : Out := if edge < 14 then .next (s.count cD2DRTY edge) else .next s

/-- The state of an attic port. -/
def State.setPort (s : State) (p : Nat) (x : Port) : State :=
  if h : p < 4 then { s with boot := { s.boot with ports := s.boot.ports.set p x } } else s

/-- An attic port that is up fails: its pages are unavailable. -/
def execAtticPortFail (port : Nat) (s : State) : Out :=
  if s.boot.ports.toList.getD port .untrained = .up then .next ((s.setPort port .failed).count cCXLDOWN port) else .next s

/-- An attic port trains or retrains: its pages are there. -/
def execAtticPortRetrain (port : Nat) (s : State) : Out := .next (s.setPort port .up)

/-- The place of a kind of SRAM in the order of R29. -/
def sramCode : SramKind → Nat
  | .l1 => 0 | .cellar => 1 | .l2 => 2 | .accumulator => 3 | .shadow => 4 | .icache => 5

/-- The scrub finds an error: it is corrected and written back, or counted as uncorrectable. -/
def execSramScrub (die : Nat) (k : SramKind) (corrected : Bool) (s : State) : Out :=
  if die ≥ 8 then .next s
  else .next (s.countSram (if corrected then cSRAMCE else cSRAMUE) die (sramCode k))

/-- The debug port is unlocked; the flag stays until the next power cycle. -/
def execDebugPortUnlock (s : State) : Out := .next { s with boot := { s.boot with debug := true } }

end Sys2Proof.Machine
end

