-- ==== Sys2Proof/Machine/Registers.lean ====
section
/-! DEFINITION. What the system registers of a compute core and its frames read as (R95, R106, R147, R156,
R173, R176, R186, R226, R254, R403). -/

namespace Sys2Proof.Machine

/-- A number in a register. -/
def ofN (n : Nat) : Word := BitVec.ofNat 64 n

/-- BUDGET (R95). -/
def Frame.budgetWord (f : Frame) : Word := if f.unl then ofN (2 ^ 63) else ofN (f.left % 2 ^ 25)

/-- Records of a level among the inbox entries that wait. -/
def Core.queuedAt (c : Core) (level : Nat) : Nat := (c.waiting.filter fun e => e.2.rcd.level == level).length

/-- INBOXST (R147). -/
def Core.inboxWord (c : Core) : Word :=
  ofN (c.spill.length * 2 ^ 53 + (sharedEntries.filter c.isFree).length * 2 ^ 47 +
    (span 1 7).foldl (fun n l => n + c.queuedAt l * 2 ^ (6 * l - 6)) 0)

/-- SUBS (R156). -/
def Core.subsWord (c : Core) : Word :=
  ofN (((c.subs.take 4).zipIdx.foldl (fun n x => n + (2 ^ 10 + x.1.1 % 16 * 64 + x.1.2 % 64) * 2 ^ (11 * x.2)) 0))

/-- STRMODE (R186): 0 scalar, 1 input, 2 output. -/
def streamMode : Option Stream → Nat
  | none => 0
  | some x => if x.out then 2 else 1
def Frame.strmWord (f : Frame) : Word :=
  ofN (f.streams.toList.zipIdx.foldl (fun n x => n + streamMode x.1 * 4 ^ x.2) 0)

/-- WARM n (R176). -/
def warmWord : Option Arm → Word
  | none => 0
  | some a => ofN (2 ^ 63 + a.hi * 2 ^ 38 + a.lo * 2 ^ 19 + a.wm)
def Core.warm (c : Core) (n : Nat) : Word := warmWord (c.arms.toList.getD n none)

/-- What a write of SLEEPCTL stores (R76). -/
def sleepWord (w : Word) : Word :=
  setBits (setBits w 2 14 0) 0 2 (if bits w 0 2 = 3 then 2 else bits w 0 2)

/-- The bits of TRAPCAUSE that are fields (R226). -/
def causeMask : Word := 0x1FFFFFFFF0F#64

/-- A matrix configuration shadow: reserved bits are 0 (R386). -/
def shadowOf (w : Vector Word 4) : Vector Word 4 := (w.set 1 (w[1] &&& 15)).set 2 0 |>.set 3 0

/-- TILEID (R186). -/
def State.tileId (s : State) (lc : Nat) : Word := ofN (s.tileOf lc)

end Sys2Proof.Machine
end

