-- ==== Sys2Proof/Machine/Preempt.lean ====
section
/-! DEFINITION. System preemption: halt, save, restore, resume; and kill (R236 to R241). -/

namespace Sys2Proof.Machine

/-! ### PREEMPT (R236) -/

/-- The fields of PREEMPT, and writing them. -/
def State.setPart (s : State) (p state result : Nat) : State :=
  s.setEntry 6 p (setBits (setBits (s.entry 6 p) 56 3 state) 52 4 result)
def State.partResult (s : State) (p : Nat) : Nat := bits (s.entry 6 p) 52 4

/-- A command ends: its state and result. -/
def State.endCmd (s : State) (p state result : Nat) : State :=
  (s.setPart p state result).setPreemption p { s.preemption p with cmd := 0 }

/-- A command is refused: result 2; one that is written while another is in progress leaves that one's
result. -/
def State.refuseCmd (s : State) (p : Nat) : State :=
  if s.partResult p = 4 then s else s.setPart p (s.partState p) 2

/-- A command is accepted: result 4, and the state it passes through. -/
def State.beginCmd (s : State) (p cmd state : Nat) : State :=
  (s.setPart p state 4).setPreemption p { s.preemption p with cmd := cmd }

/-- Change every core of a partition. -/
def State.eachCore (s : State) (p : Nat) (f : State → Nat → State) : State := (s.coresOf p).foldl f s

/-! ### Kill (R140, R241) -/

/-- What is killed: by graph slot and time, where it has one. -/
abbrev Victim := Nat → Option Word → Bool

/-- A record of a victim is dropped where it lies. -/
def State.dropVictim (s : State) (die : Nat) (r : Rec) : State := s.dropAt die r []
def State.dropVictims (s : State) (die : Nat) (l : List Rec) : State := l.foldl (fun s r => s.dropVictim die r) s

/-- The streams of a frame, and those a core's copy unit has. -/
def Frame.allStreams (f : Frame) : List Stream := f.streams.toList.filterMap id ++ f.draining
def Core.allStreams (c : Core) : List Stream := c.frames.flatMap Frame.allStreams ++ c.strays

/-- The successors a frame's streams would deliver. -/
def Frame.streamSuccs (f : Frame) : List Rec := f.allStreams.map Stream.succ

/-- The streams of frames that are gone are dropped, with their successors. -/
def State.killStrays (s : State) (hit : Victim) (lc : Nat) : State :=
  let dead := fun t : Stream => hit t.succ.graph (some t.succ.q1)
  let c := s.core lc
  if c.strays = [] then s
  else (s.setCore lc { c with strays := c.strays.filter fun t => !dead t }).dropVictims (s.dieOf lc) ((c.strays.filter dead).map Stream.succ)

/-- Remove the frames of a core whose graph slot is hit: each posts its decrement behind its increments, the
successors of its streams are dropped. -/
def State.killFrames (s : State) (hit : Victim) (lc : Nat) : State :=
  let s := s.killStrays hit lc
  let c := s.core lc
  let dead := c.frames.filter fun f => hit f.graph (some f.ltime)
  if dead = [] then s
  else
    let keep := c.frames.filter fun f => !hit f.graph (some f.ltime)
    let s1 := s.setCore lc { c with frames := if (c.frames.head?.any fun f => hit f.graph (some f.ltime)) then uncover keep else keep }
    let s2 := dead.foldl (fun s f =>
      let s' := s.dropVictims (s.dieOf lc) f.streamSuccs
      let s'' := if f.leader.isSome then s' else s'.post lc ⟨f.graph, f.station, f.ltime, -1, none, []⟩
      if f.kind = 1 then s''.freeInbox lc f.entry else s'') s1
    if (s2.core lc).frames = [] then s2.flush lc else s2

/-- Drop the records a core has queued: inbox, spill ring and level-7 buffer. -/
def State.killQueued (s : State) (hit : Victim) (lc : Nat) : State :=
  let c := s.core lc
  let die := s.dieOf lc
  let spilled := c.spill.filter fun q => hit q.rcd.graph (some q.rcd.q1)
  let s1 := s.setCore lc { c with
    spill := c.spill.filter fun q => !hit q.rcd.graph (some q.rcd.q1), buffer7 := c.buffer7.filter fun r => !hit r.graph (some r.q1) }
  let s2 := spilled.foldl (fun s q => s.unhand q.rcd lc q.landed)
    (s1.dropVictims die (spilled.map Queued.rcd ++ c.buffer7.filter fun r => hit r.graph (some r.q1)))
  (c.waiting.filter fun e => hit e.2.rcd.graph (some e.2.rcd.q1)).foldl (fun s e => (s.dropVictim die e.2.rcd).dropQueued lc e) s2

/-- Drop a copy channel's victims and free their arm entries. -/
def State.killChan (s : State) (hit : Victim) (lc level ch : Nat) : State :=
  let q := s.chan lc level ch
  let out := q.queue.filter fun d => hit d.succ.graph (some d.succ.q1)
  let s1 := (s.setChan lc level ch { q with queue := q.queue.filter fun d => !hit d.succ.graph (some d.succ.q1) }).dropVictims (s.dieOf lc)
    (out.map CopyDesc.succ)
  match q.cur with
  | none => s1
  | some op =>
    if !hit op.d.succ.graph (some op.d.succ.q1) then s1
    else
      let s2 := match op.arm with
        | some (tlc, i) => s1.setArm tlc i none
        | none => s1
      (((s2.engDone (s.copyIssuer lc level ch op)).dropFlying lc level ch).setChan lc level ch { s2.chan lc level ch with cur := none }).dropVictim (s.dieOf lc)
        op.d.succ

def State.killChans (s : State) (hit : Victim) (lc : Nat) : State :=
  ((s.core lc).chans.map Prod.fst).foldl (fun s k => s.killChan hit lc (k / 2) (k % 2)) s

/-- Drop the tile tasks and streamer operations of a cluster and what its engines run. A chain goes with the
frames of its core and level. -/
def State.killCluster (s : State) (hit : Victim) (dead : Nat → Nat → Bool) (cl : Nat) : State :=
  let c := s.cluster cl
  let die := cl / 4
  let gone := (c.queue ++ c.forward ++ s.onEngines cl).filter fun t => hit t.graph (some t.ltime)
  let s1 := s.setCluster cl { c with
    queue := c.queue.filter fun t => !hit t.graph (some t.ltime)
    forward := c.forward.filter fun t => !hit t.graph (some t.ltime)
    gathers := c.gathers.filter fun g => !hit g.succ.graph (some g.succ.q1) }
  let s2 := (span (8 * cl) 8).foldl (fun s t =>
    let x := s.tile t
    s.setTile t { x with run := x.run.filter fun y => !hit y.graph (some y.ltime), held := x.held.filter fun y => !hit y.graph (some y.ltime) }) s1
  let ended := c.gathers.filter fun g => hit g.succ.graph (some g.succ.q1)
  let s2 := ended.foldl (fun s g => s.engDone (s.gatherIssuer g)) s2
  let s3 := (c.chains.filter fun k => dead k.lc k.level || gone.any k.is).foldl (fun s k => s.dropChain cl k) s2
  s3.dropVictims die (gone.filterMap TileTask.succ ++ ended.map Gather.succ)

/-- Drop the records that landings hold, and those on their way. -/
def State.killLandings (s : State) (hit : Victim) : State :=
  s.prog.landings.foldl (fun s e =>
    let g := e.1 / 64
    let l := s.landing g (e.1 % 64)
    let out := l.recs.filter fun x => hit g (some x.rcd.q1)
    if out = [] then s
    else
      (s.setLanding g (e.1 % 64) { l with recs := l.recs.filter fun x => !hit g (some x.rcd.q1) }).dropVictims (l.home / 16)
        (out.map Landed.rcd)) s

def State.killFlights (s : State) (hit : Victim) : State :=
  let p := s.prog
  let part := fun y : Contribution => y.dev == s.devid.toNat && hit y.succ.graph (some y.succ.q1)
  let out := (p.flights.filter fun x => hit x.rcd.graph (some x.rcd.q1)).map Flight.rcd ++
    (p.held7.filter fun x => hit x.2.graph (some x.2.q1)).map Prod.snd ++ (p.deliveries.filter fun x => hit x.rcd.graph (some x.rcd.q1)).map Delivery.rcd ++
    ((p.colls.flatMap Collective.parts).filter part).map Contribution.succ
  let s1 := { s with prog := { p with
    flights := p.flights.filter fun x => !hit x.rcd.graph (some x.rcd.q1)
    held7 := p.held7.filter fun x => !hit x.2.graph (some x.2.q1)
    deliveries := p.deliveries.filter fun x => !hit x.rcd.graph (some x.rcd.q1)
    colls := (p.colls.map fun (c : Collective) => { c with parts := c.parts.filter fun y => !part y }).filter fun c => c.parts != [] } }
  (p.flights.filter fun x => hit x.rcd.graph (some x.rcd.q1)).foldl (fun s x =>
    match x.dst with
    | .core lc => s.unhand x.rcd lc x.landed
    | _ => s) (s1.dropVictims 0 out)

/-- Pantry and holding-buffer entries go unapplied. -/
def State.killSlices (s : State) (hit : Victim) : State :=
  s.slices.foldl (fun s e =>
    let x := s.slice e.1
    (s.setSlice e.1 { x with
      pantry := x.pantry.filter fun d => !hit d.succ.graph (some d.succ.q1)
      hold := x.hold.filter fun h => !h.graph.any fun g => hit g none }).dropVictims (e.1 / 16)
        ((x.pantry.filter fun d => hit d.succ.graph (some d.succ.q1)).map Deferred.succ)) s

/-- An engine works for a victim. -/
def State.victimKey (s : State) (hit : Victim) (key : Nat) : Bool :=
  if key < footBase then
    ((s.chan (key / 16) (key / 2 % 8) (key % 2)).cur).any fun op => hit op.d.succ.graph (some op.d.succ.q1)
  else if key < 2 ^ 20 ∨ 1024 ≤ key % 2048 then false
  else
    (s.clusters.any fun e => e.2.gathers.any fun g => gatherKey g == key && hit g.succ.graph (some g.succ.q1)) ||
      (s.core (key % 2048)).allStreams.any fun t => streamKey (key % 2048) t == key && hit t.succ.graph (some t.succ.q1)

/-- The requests that victims have sent: those that write stay until their owner has answered, under a level no frame
has; nothing waits for the loads any more. -/
def State.killRequests (s : State) (hit : Victim) (dead : Nat → Nat → Bool) : State :=
  let victim := fun r : RemoteReq => if r.lc ≥ 4096 then s.victimKey hit (r.lc - 4096) else dead r.lc r.level
  let host := fun e : Nat × HostReq => match e.2.agent with
    | .core k => if k ≥ 4096 then s.victimKey hit (k - 4096) else dead k e.2.level
    | .fe _ => false
  { s with
    prog := { s.prog with
      remote := (s.prog.remote.filter fun r => !(victim r && r.op.isLoad)).map fun r =>
        if victim r ∧ r.level < 8 then { r with level := r.level + 8 } else r
      eng := s.prog.eng.filter fun x => !s.victimKey hit x.1 }
    mem := { s.mem with hostReqs := s.mem.hostReqs.filter fun e => !host e } }

/-- Kill everything that a test hits. -/
def State.killSlots (s : State) (hit : Victim) : State :=
  let dead := fun lc level => (s.frameAt lc level).any fun f => hit f.graph (some f.ltime)
  let cores := s.cores.map Prod.fst
  let s1 := s.killRequests hit dead
  let s2 := (span 0 32).foldl (fun s cl => s.killCluster hit dead cl) s1
  let ended := fun (s : State) (lc : Nat) => ((s.core lc).allStreams.filter fun t => hit t.succ.graph (some t.succ.q1)).foldl
    (fun s t => s.engDone (s.streamIssuer lc t)) s
  let s3 := cores.foldl (fun s lc => ((((ended s lc).killChans hit lc).killQueued hit lc).killFrames hit lc)) s2
  ((s3.killLandings hit).killFlights hit).killSlices hit

/-- The graph slots of a partition. -/
def State.slotIn (s : State) (p : Nat) : Victim := fun g _ => (s.graph g).isSome && s.fnPart (s.fnOf g) == p

/-- Give up a swap that has not quiesced: hold is cleared with phys unchanged (R81). -/
def State.abandonSwap (s : State) (die : Nat) : State :=
  match (s.die die).swap with
  | none => s
  | some x =>
    let tiles := x.pairs.flatMap fun p => [p.1, p.2]
    let lcs := (tiles.flatMap s.coresOn) ++ (x.single.map Prod.fst).toList
    (lcs.foldl (fun s lc => s.setEntry 12 lc (setBits (s.entry 12 lc) 14 1 0)) s).setDie die { s.die die with swap := none }

/-- The swap of a core's tile has quiesced it. -/
def State.inMove (s : State) (lc : Nat) : Bool :=
  match (s.die (s.dieOf lc)).swap with
  | some x => x.phase == .quiesced && ((x.pairs.any fun p => p.1 == s.tileOf lc || p.2 == s.tileOf lc) || x.single.any fun y => y.1 == lc)
  | none => false

/-- A halt or a kill ends the swaps of its cores that have not quiesced. -/
def State.abandonSwaps (s : State) (p : Nat) : State :=
  s.eachCore p fun s lc => if s.inMove lc then s else
    match (s.die (s.dieOf lc)).swap with
    | some x =>
      if (x.pairs.any fun q => q.1 == s.tileOf lc || q.2 == s.tileOf lc) || x.single.any (fun y => y.1 == lc) then s.abandonSwap (s.dieOf lc)
      else s
    | none => s

/-- Kill a partition: accepted in every state, and the command in progress is abandoned. -/
def State.killPart (s : State) (p : Nat) : State :=
  let s1 := (s.abandonSwaps p).killSlots (s.slotIn p)
  let k := s1.preemption p
  let s2 := s1.dropVictims 0 (k.kept.filterMap TileTask.succ)
  (s2.setPreemption p { k with kept := [] }).beginCmd p 5 5

def execPreemptKill (p : Nat) (s : State) : Out := if p < 256 then .next (s.killPart p) else .next s

/-- Stores of the victims of a partition's cores are still to be acknowledged. -/
def State.victimStores (s : State) (p : Nat) : Bool :=
  s.prog.remote.any fun r => r.level ≥ 8 && s.inPart p (if r.lc ≥ 4096 then engineCore (r.lc - 4096) else r.lc)

/-- A core of a killed partition on a withdrawn die is unmapped (R26). -/
def State.unmapGone (s : State) (lc : Nat) : State :=
  if (s.modState = 4 ∨ s.modState = 15) ∧ s.mapped lc = true ∧ (s.die (s.dieOf lc)).inService = false then
    s.setEntry 12 lc (setBits (s.entry 12 lc) 15 1 0)
  else s

/-- A kill completes. -/
def execKillComplete (p : Nat) (s : State) : Out :=
  if s.partState p ≠ 5 || s.victimStores p then .next s
  else
    .next (((s.eachCore p fun s lc => (s.setCore lc { s.core lc with stopped := false }).unmapGone lc).endCmd p 6 1).count
      cKILLS p)

/-! ### Halt and resume (R237, R240) -/

/-- Halt: admission stops, and swaps that have not quiesced are given up. -/
def State.haltPart (s : State) (p : Nat) : State :=
  if s.partState p = 0 ∧ s.partResult p ≠ 4 then (s.abandonSwaps p).beginCmd p 1 1 else s.refuseCmd p

def execPreemptHalt (p : Nat) (s : State) : Out := if p < 256 then .next (s.haltPart p) else .next s

/-- The sequence of the last journal entry of a partition. -/
def State.lastSeq (s : State) (p : Nat) : Nat := ((s.entry 20 (2 * p + 1)).toNat + 2 ^ 32 - 1) % 2 ^ 32

/-- The last core of a partition has stopped: every progress buffer is flushed. -/
def execPreemptHaltComplete (p : Nat) (s : State) : Out :=
  let lcs := s.coresOf p
  if s.partState p ≠ 1 || lcs.any (fun lc => s.midway lc || (s.core lc).strays != [] || s.inMove lc || s.mem.flying.any fun x => x.lc == lc) then .next s
  else
    let s1 := lcs.foldl (fun s lc => let s' := (s.abandon lc).flush lc; s'.setCore lc { s'.core lc with stopped := true }) s
    let s2 := s1.setPreemption p { s1.preemption p with time := s.timestamp, seq := s.lastSeq p }
    .next ((s2.endCmd p 2 1).count cPREEMPTS p)

/-- Release the cores of a partition, but for one that a swap holds still. -/
def State.releasePart (s : State) (p : Nat) : State :=
  s.eachCore p fun s lc => s.setCore lc { s.core lc with stopped := s.inMove lc }

/-- Resume in place. -/
def State.resumePart (s : State) (p : Nat) : State :=
  if s.partState p = 2 ∧ s.partResult p ≠ 4 then (s.releasePart p).endCmd p 0 1 else s.refuseCmd p

def execPreemptResume (p : Nat) (s : State) : Out := if p < 256 then .next (s.resumePart p) else .next s

/-! ### The save image (R238, R239) -/

/-- Words at offsets. -/
abbrev Words := List (Nat × Word)

/-- Successive words from an offset. -/
def wordsFrom (off : Nat) : List Word → Words
  | [] => []
  | w :: l => (off, w) :: wordsFrom (off + 8) l

/-- Words of an area whose inner layout the spec does not give: open values. -/
def openWords (k off n : Nat) : Words := (span 0 n).map fun i => (off + 8 * i, Config.imageWord (k + off + 8 * i))

/-- Eight bytes of a list of half words. -/
def pairs32 : List (BitVec 32) → List Word
  | a :: b :: l => ofN (a.toNat + b.toNat * 2 ^ 32) :: pairs32 l
  | [a] => [ofN a.toNat]
  | [] => []

/-- The format tags of a level. -/
def tagsWord (t : Vector (BitVec 4) 16) : Word := ofN (t.toList.zipIdx.foldl (fun n x => n + x.1.toNat * 16 ^ x.2) 0)

/-- The code of a frame in its level state: running, covered, gang member. -/
def presence (f : Frame) (running : Bool) : Word :=
  ofN (2 ^ 63 + (if f.leader.isSome then 3 else if running then 1 else 2) * 2 ^ 60 + (f.window / 8 - 1) * 2 ^ 56)

/-- The record of a frame as the image keeps it. -/
def keptRecord (f : Frame) : List Word :=
  if f.hdr.flags % 2 = 1 ∧ f.kind ≠ 1 then f.rcd.words else [f.rcd.q0, f.rcd.q1, 0, 0, 0, 0, 0, 0]

/-- The gang word: form and leader. -/
def State.gangWord (s : State) (lc : Nat) (f : Frame) : Word :=
  match f.gang, f.leader with
  | some g, _ => ofN (g.form.code + lc * 8)
  | none, some l => ofN (((((s.frameAt l f.level).bind Frame.gang).map fun g => g.form.code).getD 0) + l * 8)
  | none, none => 0

/-- A level state of 256 bytes. -/
def State.levelWords (s : State) (lc : Nat) (f : Frame) (running : Bool) : List Word :=
  pairs32 f.fd.toList ++
    [f.h.fpctl.zeroExtend 64, f.h.fpstat.zeroExtend 64, f.h.seed, f.h.gen, f.ltime, f.budgetWord, claimsWord f.claims,
      ofN f.thresh, presence f running, ofN f.h.pc, f.h.trapcause, f.h.trapval] ++ keptRecord f ++ f.mxcfg.toList ++
    [f.strmWord, ofN (f.streams.toList.zipIdx.foldl (fun n x => n + ((x.1.map fun y => y.fifo.length).getD 0) * 256 ^ x.2) 0),
      ofN f.detseq, s.gangWord lc f]

/-- The eight words of a vector register. -/
def chunkWords (v : Chunk) : List Word := (span 0 8).map fun i => BitVec.ofNat 64 (v.toNat / 2 ^ (64 * i))

/-- What the block of a core holds of a frame. Of its sequencer save R239 gives the number of the chunk reached; how an entry
and a loop lie in their bytes it does not say (log entry 67). -/
def State.frameWords (s : State) (k lc : Nat) (f : Frame) (running : Bool) : Words :=
  let L := f.level
  wordsFrom (0x100 * L) ((span 0 (min f.window 32)).map fun n => if h : n < 32 then f.h.reg ⟨n, h⟩ else 0) ++
    wordsFrom (0x800 + 0x100 * L) (s.levelWords lc f running) ++
    wordsFrom (0x1000 + 0x400 * L) (f.v.toList.flatMap chunkWords) ++
    [(0x3000 + 8 * L, tagsWord f.tags)] ++ openWords k (0x3100 + 0x100 * L) 18 ++ [(0x3190 + 0x100 * L, ofN f.chunk)] ++
    (span 0 4).flatMap fun j => match f.streams.toList.getD j none with
      | some x => wordsFrom (0x5200 + 0x200 * L + 0x80 * j) (x.fifo.take 16)
      | none => []

/-- An inbox entry's metadata. -/
def Core.metaWord (c : Core) (q : Queued) : Word :=
  let slot := (c.slotOf q.arrival).map FootSlot.id
  ofN (2 ^ 63 + (if (c.slotOf q.arrival).any FootSlot.pinned then 2 ^ 62 else 0) + q.marked.toNat * 2 ^ 61 +
    q.rcd.level * 2 ^ 58 + (slot.getD 0) % 4 * 2 ^ 56 + q.arrival % 2 ^ 56)

/-- A descriptor of a copy channel in its 64 bytes: its four words (R381), and what R239 does not lay out. -/
def copyWords (k off : Nat) (d : CopyDesc) : Words :=
  wordsFrom off [d.src, d.dst, ofN (d.len + d.arm.toNat * 2 ^ 40), 0] ++ openWords k (off + 32) 4

/-- The copy channels of a core: current descriptor, progress and queued descriptors of each. -/
def Core.chanWords (c : Core) (k : Nat) : Words :=
  c.chans.flatMap fun e =>
    let off := 0x3A00 + 0x180 * e.1
    (match e.2.cur with
      | some op => copyWords k off op.d ++ openWords k (off + 64) 8
      | none => []) ++
      (e.2.queue.take 4).zipIdx.flatMap fun x => copyWords k (off + 128 + 64 * x.2) x.1

/-- The footprint slots of a core: each the offsets of three regions and the bytes fetched, in words of 8 bytes (log entry 67). -/
def Core.footWords (c : Core) : Words :=
  c.foot.flatMap fun f => wordsFrom (0x7400 + 64 * f.id) ((span 0 3).map (fun i => ofN ((f.regions.getD i (0, 0)).1)) ++ [ofN f.fetched])

/-- The block of a core but for its quarter. -/
def State.blockWords (s : State) (lc : Nat) : Words :=
  let c := s.core lc
  let k := s.tick * 2 ^ 32 + lc * 2 ^ 20
  (c.frames.zipIdx.flatMap fun x => s.frameWords k lc x.1 (x.2 == 0 && s.gangReady lc x.1)) ++
    wordsFrom 0x3040 [ofN lc, ofN c.prio, ofN c.lease, c.opreq.zeroExtend 64, c.sleepctl, c.cycle, c.instret, c.mstall,
      c.estall, c.detovf.zeroExtend 64, ofN c.arrivals, Config.imageWord (k + 0x3098), Config.imageWord (k + 0x30A0), c.subsWord] ++
    wordsFrom 0x3900 ((span 0 4).map c.warm) ++ c.chanWords k ++
    (c.inbox.flatMap fun e => wordsFrom (0x6200 + 64 * e.1) e.2.rcd.words ++ [(0x7200 + 8 * e.1, c.metaWord e.2)]) ++
    c.footWords

/-- The byte a physical address names (R13). -/
def State.physByte (s : State) (pa : Nat) : Nat :=
  match s.region pa with
  | .hbm a => a
  | _ => pa

/-- Put words at offsets from a base. -/
def State.putWords (s : State) (b : Nat) (l : Words) : State := l.foldl (fun s x => s.setMem64 (b + x.1) x.2) s

/-- A range of memory becomes 0, and good. -/
def State.zeroRange (s : State) (b n : Nat) : State :=
  { s with mem := { s.mem with
      bytes := s.mem.bytes.filter fun c => !inPage b n c.1
      badLines := s.mem.badLines.filter fun e => !inPage b n (64 * e.1) } }

/-- Copy the cells of a range of one list into another. -/
def copyCells (m : List Host.Cell) (src size dst : Nat) (t : List Host.Cell) : List Host.Cell :=
  (m.filter fun c => inPage src size c.1).foldl (fun t c => putByte t (dst + (c.1 - src)) c.2)
    (t.filter fun c => !inPage dst size c.1)

/-- Write the block of a core. -/
def State.saveBlock (s : State) (b lc : Nat) : State :=
  let s1 := s.putWords b (s.blockWords lc)
  { s1 with mem := { s1.mem with bytes := copyCells s.mem.cellar (cellarKey lc 0) 0x60000 (b + 0x8000) s1.mem.bytes } }

/-- The image header. -/
def State.headerWords (s : State) (p n m : Nat) : Words :=
  wordsFrom 0 [ofN (0x09605A7E + n * 2 ^ 32), (s.preemption p).time, ofN ((s.preemption p).seq % 2 ^ 32 + m * 2 ^ 32),
    ofN (s.devid.toNat + p % 256 * 256)]

/-- The tasks of a partition by cluster, with what is forwarded at the end of each. -/
def State.tasksOf (s : State) (p : Nat) : List (Nat × TileTask) :=
  (span 0 32).flatMap fun cl =>
    let c := s.cluster cl
    ((sortBy taskBefore ((c.queue ++ s.onEngines cl).filter fun t => s.inPart p t.lc)) ++
      c.forward.filter fun t => s.inPart p t.lc).map fun t => (cl, t)

/-- The entry of a tile task. -/
def State.taskWords (s : State) (x : Nat × TileTask) : Words :=
  let t := x.2
  let info := t.ksteps % 2 ^ 16 + t.issued.toNat * 2 ^ 16 + t.drain.toNat * 2 ^ 17 + t.forwarded.toNat * 2 ^ 18 +
    t.level * 2 ^ 19 + t.lc * 2 ^ 22 + t.name * 2 ^ 32 + (s.chainOf (x.1 / 4) t).isSome.toNat * 2 ^ 33 + x.1 * 2 ^ 34
  wordsFrom 0 ((if t.drain then t.words.toList.take 4 ++ [0, 0, 0, 0] else t.words.toList) ++
    [ofN info, t.fpctl.zeroExtend 64, t.seed, t.ltime] ++ t.cfg.toList ++ pairs32 t.fd.toList ++ (t.succ.getD Rec.zero).words)

/-- Take a partition's tasks out of queues and engines. -/
def State.dropTasks (s : State) (p : Nat) : State :=
  let mine := fun t : TileTask => s.inPart p t.lc
  let s1 := (span 0 32).foldl (fun s cl =>
    let c := s.cluster cl
    s.setCluster cl { c with queue := c.queue.filter fun t => !mine t, forward := c.forward.filter fun t => !mine t }) s
  (s.tiles.map Prod.fst).foldl (fun s t =>
    let x := s.tile t
    s.setTile t { x with run := x.run.filter fun y => !mine y, held := x.held.filter fun y => !mine y }) s1

/-- Spill every tagged bank of a partition's cores (R181). -/
def State.spillPart (s : State) (p : Nat) : State :=
  (s.tiles.map Prod.fst).foldl (fun s t =>
    (span 0 2).foldl (fun s b =>
      match ((s.tile t).bank b).tag with
      | some (_, lc, _) => if s.inPart p lc then s.spillBank t b else s
      | none => s) s) s

/-- Some remote store of a partition's cores is not acknowledged. -/
def State.storesOut (s : State) (p : Nat) : Bool :=
  s.prog.remote.any fun r => !r.op.isLoad &&
    (if r.lc ≥ 4096 then s.inPart p (engineCore (r.lc - 4096)) else decide (r.lc < 1024) && s.inPart p r.lc)

/-- Write the image at PSAVE and free the physical cores. -/
def State.writeImage (s : State) (p : Nat) : State :=
  let b := s.physByte (s.entry 7 p).toNat
  let lcs := s.coresOf p
  let n := lcs.length
  let ts := s.tasksOf p
  let s1 := (s.spillPart p).dropTasks p
  let s2 := (s1.zeroRange b (0x10000 + 0x68000 * n + 0x100 * ts.length)).putWords b (s.headerWords p n ts.length)
  let s3 := lcs.zipIdx.foldl (fun s x => s.saveBlock (b + 0x10000 + 0x68000 * x.2) x.1) s2
  let s4 := ts.zipIdx.foldl (fun s' x => s'.putWords (b + 0x10000 + 0x68000 * n + 0x100 * x.2) (s.taskWords x.1)) s3
  let s5 := lcs.foldl (fun s lc => s.setEntry 12 lc (setBits (s.entry 12 lc) 15 1 0)) s4
  s5.setPreemption p { s5.preemption p with kept := ts.map Prod.snd }

/-- Save is commanded. -/
def State.savePart (s : State) (p : Nat) : State :=
  if s.partState p = 2 ∧ s.partResult p ≠ 4 then s.beginCmd p 2 2 else s.refuseCmd p

/-- Save: the command, and the image once every remote store is acknowledged. -/
def execPreemptSave (p : Nat) (s : State) : Out :=
  if p ≥ 256 then .next s
  else
    let s1 := if (s.preemption p).cmd = 2 then s else s.savePart p
    if (s1.preemption p).cmd ≠ 2 || s1.storesOut p then .next s1
    else .next ((s1.writeImage p).endCmd p 3 1)

/-! ### Restore (R240) -/

/-- The image at a base is one of this partition: its magic, its count and its logical cores. -/
def State.imageOk (s : State) (p b : Nat) : Bool :=
  let n := (s.coresOf p).length
  let lcs := (span 0 n).map fun i => (s.mem64 (b + 0x10000 + 0x68000 * i + 0x3040)).toNat
  bits (s.mem64 b) 0 32 == 0x09605A7E && bits (s.mem64 b) 32 32 == n && lcs.all fun lc => lc < 1024 && s.inPart p lc

/-- CLAIMS as a claim stack, latest first. -/
def claimsOf (w : Word) : List Claim :=
  ((span 0 (min 7 (bits w 0 4))).map fun i => (⟨bits w (8 * i + 8) 4, bits w (8 * i + 4) 4⟩ : Claim)).reverse

/-- n words from an address. -/
def State.wordsAt (s : State) (a n : Nat) : List Word := (span 0 n).map fun i => s.mem64 (a + 8 * i)

/-- The low or high half words of words. -/
def halves (l : List Word) : List (BitVec 32) := l.flatMap fun w => [BitVec.ofNat 32 w.toNat, BitVec.ofNat 32 (w.toNat / 2 ^ 32)]

/-- The header of a record's entry, or what the frame had where it cannot be read. -/
def State.headerFor (s : State) (lc : Nat) (r : Rec) (old : Header) : Header :=
  if r.kind = 1 then old
  else
    match s.readHeaderBy [] lc r with
    | .bytes h _ => headerOf h
    | _ => old

/-- The form of a gang word. -/
def formOf (n : Nat) : GangForm := if n = 0 then .pair else if n = 1 then .tile else .tpair

/-- The frame of a level from the block at b, over what the frame was; its stack bytes end at top. -/
def State.loadFrame (s : State) (b lc level top : Nat) (old : Option Frame) : Option Frame :=
  let a := b + 0x800 + 0x100 * level
  let w := fun off => s.mem64 (a + off)
  let p := w 0x60
  if !bit p 63 then none
  else
    let f0 := old.getD { Frame.zero with level := level }
    let member := bits p 60 3 == 3
    let f := { f0 with
      leader := if member then some (bits (w 0xF8) 3 10) else none
      gang := if member then none else some ⟨formOf (bits (w 0xF8) 0 3), []⟩ }
    let r := Rec.ofWords (s.wordsAt (a + 0x80) 8)
    let hdr := if f.leader.isSome then f.hdr else s.headerFor lc r f.hdr
    let kept := if hdr.flags % 2 = 1 ∧ r.kind ≠ 1 then r else { f.rcd with q0 := r.q0, q1 := r.q1 }
    let win := (bits p 56 2 + 1) * 8
    let fd := halves (s.wordsAt a 4)
    let regs := s.wordsAt (b + 0x100 * level) 32
    let v := s.wordsAt (b + 0x1000 + 0x400 * level) 128
    some { f with
      h := { f.h with
        regs := (Vector.range 32).map fun i => regs.getD i 0
        pc := bits (w 0x68) 0 24, fpctl := BitVec.ofNat 5 (w 0x20).toNat, fpstat := BitVec.ofNat 5 (w 0x28).toNat
        seed := w 0x30, gen := w 0x38, trapcause := w 0x70 &&& causeMask, trapval := w 0x78 }
      window := if f.leader.isSome then 0 else win, ltime := w 0x40, unl := bit (w 0x48) 63, left := bits (w 0x48) 0 25
      claims := claimsOf (w 0x50), thresh := bits (w 0x58) 0 3, rcd := kept, hdr := hdr, low := top - hdr.frameSize
      station := if f.leader.isSome then f.station else r.station
      graph := if f.leader.isSome then f.graph else r.graph
      kind := if f.leader.isSome then f.kind else r.kind
      fd := (Vector.range 8).map fun i => fd.getD i 0
      v := (Vector.range 16).map fun i => BitVec.ofNat 512 (leWords ((v.drop (8 * i)).take 8))
      tags := (Vector.range 16).map fun i => BitVec.ofNat 4 (bits (s.mem64 (b + 0x3000 + 8 * level)) (4 * i) 4)
      chunk := (s.mem64 (b + 0x3190 + 0x100 * level)).toNat
      streams := f.streams.mapIdx fun j x => (x.filter fun _ => bits (w 0xE0) (2 * j) 2 != 0).map fun y =>
        { y with out := bits (w 0xE0) (2 * j) 2 == 2, fifo := s.wordsAt (b + 0x5200 + 0x200 * level + 0x80 * j) (min 16 (bits (w 0xE8) (8 * j) 8)) }
      mxcfg := shadowOf ((Vector.range 4).map fun i => (s.wordsAt (a + 0xC0) 4).getD i 0)
      detseq := (w 0xF0).toNat }
where
  /-- Words as one number, the first lowest. -/
  leWords : List Word → Nat
    | [] => 0
    | w :: l => w.toNat + 2 ^ 64 * leWords l

/-- The frames of a block, the highest level first. -/
def State.loadFrames (s : State) (b lc : Nat) : List Frame :=
  ((span 1 7).foldl (fun (acc : List Frame × Nat) level =>
    match s.loadFrame b lc level acc.2 (s.frameAt lc level) with
    | some f => (f :: acc.1, f.low)
    | none => acc) ([], 0x60000)).1

/-- The inbox of a block. -/
def State.loadInbox (s : State) (b lc : Nat) : Table Queued :=
  (span 0 64).filterMap fun i =>
    let m := s.mem64 (b + 0x7200 + 8 * i)
    if bit m 63 then
      let q := Rec.ofWords (s.wordsAt (b + 0x6200 + 64 * i) 8)
      let old := tfind (s.core lc).inbox i
      some (i, ⟨q, bits m 0 56, bit m 61, false, (old.map Queued.landed).getD false, none⟩)
    else none

/-- SUBS as a list. -/
def subsOf (w : Word) : List (Nat × Nat) :=
  (span 0 4).filterMap fun i => if bit w (11 * i + 10) then some (bits w (11 * i + 6) 4, bits w (11 * i) 6) else none

/-- WARM n as an arm entry. -/
def armOf (w : Word) : Option Arm := if bit w 63 then some ⟨bits w 19 19, bits w 38 19, bits w 0 19⟩ else none

/-- A descriptor of a copy channel from its 64 bytes, over what it was: its four words. -/
def State.loadDesc (s : State) (a : Nat) (d : CopyDesc) : CopyDesc :=
  { d with src := s.mem64 a, dst := s.mem64 (a + 8), len := bits (s.mem64 (a + 16)) 0 40, arm := bit (s.mem64 (a + 16)) 40 }

/-- The copy channels of a block. -/
def State.loadChans (s : State) (b lc : Nat) : Table Chan :=
  (s.core lc).chans.map fun e =>
    let a := b + 0x3A00 + 0x180 * e.1
    (e.1, { e.2 with
      cur := e.2.cur.map fun op => { op with d := s.loadDesc a op.d }
      queue := e.2.queue.zipIdx.map fun x => s.loadDesc (a + 128 + 64 * x.2) x.1 })

/-- The footprint slots of a block: offsets, progress, and whether the entry of the record says that it is pinned. -/
def State.loadFoot (s : State) (b lc : Nat) : List FootSlot :=
  let c := s.core lc
  c.foot.map fun f =>
    let a := b + 0x7400 + 64 * f.id
    let i := ((c.inbox.find? fun e => e.2.arrival == f.arrival).map Prod.fst).getD 0
    { f with
      regions := f.regions.zipIdx.map fun x => ((s.mem64 (a + 8 * x.2)).toNat, x.1.2)
      fetched := (s.mem64 (a + 24)).toNat, pinned := bit (s.mem64 (b + 0x7200 + 8 * i)) 62 }

/-- Reload a core from its block. What the image has no stated place for is as the core left it. -/
def State.loadBlock (s : State) (b lc : Nat) : State :=
  let c := s.core lc
  let w := fun i => s.mem64 (b + 0x3040 + 8 * i)
  let s1 := s.setCore lc { c with
    frames := s.loadFrames b lc, inbox := s.loadInbox b lc, chans := s.loadChans b lc, foot := s.loadFoot b lc
    lease := (w 2).toNat, opreq := BitVec.ofNat 5 (w 3).toNat, sleepctl := sleepWord (w 4), cycle := w 5, instret := w 6, mstall := w 7
    estall := w 8, detovf := BitVec.ofNat 32 (w 9).toNat, arrivals := bits (w 10) 0 56, subs := subsOf (w 13)
    arms := (Vector.range 4).map fun i => armOf (s.mem64 (b + 0x3900 + 8 * i)) }
  { s1 with mem := { s1.mem with cellar := copyCells s.mem.bytes (b + 0x8000) 0x60000 (cellarKey lc 0) s1.mem.cellar } }

/-- A tile task from its entry, over what was kept of it. -/
def State.loadTask (s : State) (a : Nat) (old : Option TileTask) : Nat × TileTask :=
  let d := s.wordsAt a 8
  let i := s.mem64 (a + 0x40)
  let r := Rec.ofWords (s.wordsAt (a + 0xA0) 8)
  let fd := halves (s.wordsAt (a + 0x80) 4)
  let named := bit i 17 || d.getD 7 0 != 0
  let f := s.frameAt (bits i 22 10) (bits i 19 3)
  (bits i 34 7,
    { drain := bit i 17, words := words8 d, lc := bits i 22 10, level := bits i 19 3
      graph := (old.map TileTask.graph).getD (if named then r.graph else (f.map Frame.graph).getD 0)
      ltime := s.mem64 (a + 0x58), arrival := 0, fpctl := BitVec.ofNat 5 (s.mem64 (a + 0x48)).toNat, seed := s.mem64 (a + 0x50)
      fd := (Vector.range 8).map fun i => fd.getD i 0, cfg := (Vector.range 4).map fun i => (s.wordsAt (a + 0x60) 4).getD i 0
      succ := if named then some r else none, ksteps := bits i 0 16, issued := bit i 16
      flags := (old.map TileTask.flags).getD 0, code := (old.map TileTask.code).getD 0
      skipped := (old.map TileTask.skipped).getD 0, forwarded := bit i 18, seen := (old.map TileTask.seen).getD []
      drained := (old.map TileTask.drained).getD [] })

/-- Put a task back: into the forwarding buffer where it waits to leave, else in the queue. The cluster is
that of its place on the die where its core now stands. -/
def State.putTask (s : State) (x : Nat × TileTask) : State :=
  let cl := 4 * s.dieOf x.2.lc + x.1 % 4
  let c := s.cluster cl
  if x.2.forwarded && wrongClass cl x.2 then s.setCluster cl { c with forward := c.forward ++ [x.2] }
  else s.setCluster cl (c.enqueue x.2)

/-- Move the chains of a core to the die where it now stands. -/
def State.moveChains (s : State) (lc die : Nat) : State :=
  if s.dieOf lc = die then s
  else
    (span 0 4).foldl (fun s j =>
      let x := s.cluster (4 * die + j)
      let y := s.cluster (4 * s.dieOf lc + j)
      let mine := (x.chains.filter fun c => c.lc == lc).map fun c => { c with tile := 32 * s.dieOf lc + c.tile % 32 }
      (s.setCluster (4 * die + j) { x with chains := x.chains.filter fun c => c.lc != lc }).setCluster (4 * s.dieOf lc + j)
        { y with chains := y.chains ++ mine }) s

/-- The physical cores chosen are as many as the cores, distinct and free. -/
def State.freePhys (s : State) (lcs phys : List Nat) : Bool :=
  phys.length == lcs.length && phys.all (fun q => decide (q < 1024) && (s.logicalAt q 1024).isNone) && decide phys.Nodup

/-- Restore is commanded. -/
def State.restorePart (s : State) (p : Nat) : State :=
  if s.partState p = 3 ∧ s.partResult p ≠ 4 then s.beginCmd p 3 4 else s.refuseCmd p

/-- The gangs of a core's frames, once every block has been read: a frame leads those whose words name it, in the order of
the slots of its form; a frame that none names leads none (R182, R239). -/
def State.regang (s : State) (lc : Nat) : State :=
  let c := s.core lc
  let led := fun (f : Frame) (g : Gang) =>
    ((gangSlots g.form (s.phys lc)).filterMap fun q => s.logicalAt q 1024).filter fun m =>
      (s.frameAt m f.level).any fun x => x.leader == some lc
  s.setCore lc { c with frames := c.frames.map fun f =>
    { f with gang := f.gang.bind fun g => if led f g = [] then none else some { g with members := lc :: led f g } } }

/-- Map, reload and release. -/
def State.readImage (s : State) (p b : Nat) (phys : List Nat) : State :=
  let lcs := s.coresOf p
  let n := lcs.length
  let m := bits (s.mem64 (b + 0x10)) 32 32
  let kept := (s.preemption p).kept
  let s1 := (lcs.zip phys).foldl (fun s' x =>
    ((s'.setEntry 12 x.1 (ofN (0x8000 + x.2))).moveChains x.1 (s.dieOf x.1)).dropIcache (x.2 / 4)) s
  let s2 := lcs.foldl (fun s lc => s.regang lc) ((span 0 n).foldl (fun s i =>
    let a := b + 0x10000 + 0x68000 * i
    s.loadBlock a (s.mem64 (a + 0x3040)).toNat) s1)
  let s3 := (span 0 m).foldl (fun s k =>
    s.putTask (s.loadTask (b + 0x10000 + 0x68000 * n + 0x100 * k) (kept[k]?))) s2
  s3.setPreemption p { s3.preemption p with kept := [], time := s.mem64 (b + 8), seq := bits (s.mem64 (b + 0x10)) 0 32 }

/-- Restore: the command, then the check of the image, the map, the blocks and the tile tasks. -/
def execPreemptRestore (p : Nat) (phys : List Nat) (s : State) : Out :=
  if p ≥ 256 then .next s
  else
    let s1 := if (s.preemption p).cmd = 3 then s else s.restorePart p
    let b := s1.physByte (s1.entry 7 p).toNat
    if (s1.preemption p).cmd ≠ 3 then .next s1
    else if !s1.imageOk p b then .next (s1.endCmd p 3 3)
    else if !s1.freePhys (s1.coresOf p) phys then .next s1
    else .next (((s1.readImage p b phys).releasePart p).endCmd p 0 1)

/-- A write of PREEMPT with a command (R236). -/
def State.preemptCmd (s : State) (p cmd : Nat) : State :=
  match cmd with
  | 0 => s
  | 1 => s.haltPart p
  | 2 => s.savePart p
  | 3 => s.restorePart p
  | 4 => s.resumePart p
  | 5 => s.killPart p
  | _ => s.refuseCmd p

end Sys2Proof.Machine
end

