-- ==== Sys2Proof/Machine/Power.lean ====
section
/-! DEFINITION. Operating points, the power governor, rails, sleep and wake, and the current limits of the
matrix engines (R66 to R79). -/

namespace Sys2Proof.Machine

/-! ### Operating points and targets (R66, R67) -/

/-- The voltage code of an operating point. -/
def opCode (n : Nat) : Nat := if n ≥ 15 then 80 else 48 + 2 * n

/-- The frequency of an operating point, in MHz (R66). -/
def opMHz (n : Nat) : Nat :=
  ([340, 385, 425, 470, 510, 555, 595, 640, 680, 725, 765, 810, 850, 895, 935] : List Nat).getD n 1020

/-- A tile at D1 or deeper places no request; one on its way from D1 to D2 is at D1. -/
def Tile.votes (x : Tile) : Bool :=
  match x.sleep with
  | .awake | .entering 0 _ => true
  | _ => false

/-- The highest of numbers. -/
def highestOf : List Nat → Option Nat
  | [] => none
  | x :: l => some (max x ((highestOf l).getD 0))

/-- The module is not in service yet: OP6 at most. -/
def State.limited (s : State) : Bool := s.modState < 3

/-- The target of a tile: the highest effective request of its cores. Before the module is in service a tile without
mapped cores has the requests of reset (R67; log entry 94). -/
def State.tileTarget (s : State) (t : Nat) : Option Nat :=
  let lcs := s.coresOn t
  if !(s.tile t).votes then none
  else if lcs == [] && s.limited then some 12
  else highestOf (lcs.map fun lc => (s.core lc).eff)

/-- The operating point whose frequency a tile is to run at. -/
def State.wantedOp (s : State) (t : Nat) : Nat :=
  let x := s.tile t
  if s.power.forced || x.emergency then 0
  else let n := (s.tileTarget t).getD 0; if s.limited then min n 6 else n

/-! ### Rails (R73, R74) -/

def railTiles (r : Nat) : List Nat := span (4 * r) 4

/-- The voltage code a rail is to supply: the highest target's, and the rail floor; no more than OP6's before the module
is in service. -/
def State.railNeed (s : State) (r : Nat) : Nat :=
  let top := ((railTiles r).filterMap s.tileTarget).foldl (fun m n => max m (opCode n)) (bits (s.entry 3 r) 0 8)
  if s.limited then min top 60 else top

/-- The voltage code a rail supplies now. -/
def State.railNow (s : State) (r : Nat) : Nat := (s.rail r).code

/-- The highest voter of a rail, the lowest tile on a tie. -/
def State.highestVoter (s : State) (r : Nat) : Nat :=
  (leastBy (fun a b => decide (opCode ((s.tileTarget b).getD 0) < opCode ((s.tileTarget a).getD 0)))
    ((railTiles r).filter fun t => (s.tileTarget t).isSome)).getD (4 * r)

/-- The frequency of every tile of a rail has come down to what the rail is to supply, and none is about to rise above it
(R67, R73). -/
def State.railFollowed (s : State) (r : Nat) : Bool :=
  (railTiles r).all fun t =>
    decide (opCode (s.tile t).cur ≤ s.railNeed r) && (s.tile t).switching.all fun n => decide (opCode n ≤ s.railNeed r)

/-- A tile whose wanted point the rail supplies switches to its frequency. -/
def State.switchTile (s : State) (t : Nat) : State :=
  let x := s.tile t
  let w := s.wantedOp t
  if w = x.cur then s.setTile t { x with switching := none }
  else if opCode w ≤ s.railNow (t / 4) ∨ w < x.cur then s.setTile t { x with switching := some w }
  else s

def State.switchTiles (s : State) (r : Nat) : State := (railTiles r).foldl (fun s t => s.switchTile t) s

/-- A tile's meter counts. -/
def State.addEnergy (s : State) (t n : Nat) : State := s.setTile t { s.tile t with energy := (s.tile t).energy + ofN n }

/-- Charge the tiles of a rail for what they have drawn under the targets that have held since it was last charged, and
under its present level, once in a step (R74). -/
def State.chargeRail (s : State) (r : Nat) : State :=
  let x := s.rail r
  if x.charged = s.tick then s else
  let own := fun t => opCode ((x.targets.toList.getD (t % 4) none).getD 0)
  let ts := (railTiles r).filter fun t => (x.targets.toList.getD (t % 4) none).isSome
  let top := ts.foldl (fun m t => max m (own t)) 0
  let gap := ts.foldl (fun n t => n + Config.charge s.tick t * (top - own t)) 0
  let excess := ts.foldl (fun n t => n + Config.charge s.tick t * (s.railNow r - top)) 0
  let voter := (leastBy (fun a b => decide (own b < own a)) ts).getD (4 * r)
  let payer := if x.holding || x.goal.isSome then x.setter.getD voter else voter
  let s1 := ((ts.foldl (fun s t => s.addEnergy t (Config.charge s.tick t * own t)) s).addEnergy voter gap).addEnergy payer excess
  s1.setRail r { s1.rail r with charged := s.tick }

/-- A rail's level changes, once its tiles have been charged for the time before. -/
def State.setLevel (s : State) (r : Nat) (f : Rail → Rail) : State :=
  let s1 := s.chargeRail r
  s1.setRail r { f (s1.rail r) with targets := (Vector.range 4).map fun j => s.tileTarget (4 * r + j) }

/-- A rail follows a change of its tiles' targets: a higher need stops a descent and waits for the regulator, a
need at or below the present level stops a descent there or keeps the hold, a fall begins the hold. -/
def State.retune (s : State) (r : Nat) : State :=
  let need := s.railNeed r
  let now := s.railNow r
  (s.setLevel r fun x =>
    match x.goal with
    | some g => { x with goal := if need > now then none else some (max g need) }
    | none => { x with holding := decide (need < x.code) }).switchTiles r

def State.retuneAll (s : State) : State := (span 0 64).foldl (fun s r => s.retune r) s
def State.retuneCore (s : State) (lc : Nat) : State := if s.mapped lc then s.retune (s.tileOf lc / 4) else s

/-- The regulator has settled at the level the rail rises to. -/
def execRailSettle (rail : Nat) (s : State) : Out :=
  let need := s.railNeed rail
  if rail ≥ 64 ∨ need ≤ s.railNow rail then .next s
  else
    .next ((s.setLevel rail fun x => { x with code := need, holding := false, goal := none, setter := some (s.highestVoter rail) }).switchTiles
      rail)

/-- The hold is over: the rail descends, once its tiles' frequencies have fallen. -/
def execRailHoldExpire (rail : Nat) (s : State) : Out :=
  if !(s.rail rail).holding || !s.railFollowed rail then .next s
  else
    .next (s.setLevel rail fun x =>
      { x with holding := false, goal := if s.railNeed rail < x.code then some (s.railNeed rail) else none })

/-- A descending rail passes a level between the one it has and its goal; how fast it does, the regulator says (R73). -/
def State.railLevel (s : State) (rail code : Nat) : State :=
  match (s.rail rail).goal with
  | some g => if g ≤ code ∧ code < s.railNow rail then s.setLevel rail fun x => { x with code := code } else s
  | none => s

/-- A descending rail reaches its goal and stops. -/
def execRailDescentStop (rail : Nat) (s : State) : Out :=
  match (s.rail rail).goal with
  | none => .next s
  | some g =>
    .next ((s.setLevel rail fun x =>
      { x with code := g, goal := none, holding := decide (s.railNeed rail < g), setter := some (s.highestVoter rail) }).switchTiles rail)

/-- A tile's frequency switch finishes, unless its rail no longer supplies the point (R67). -/
def execFrequencySwitchComplete (tile : Nat) (s : State) : Out :=
  let x := s.tile tile
  match x.switching with
  | none => .next s
  | some n =>
    if opCode n ≤ s.railNow (tile / 4) then .next (s.setTile tile { x with cur := n, switching := none })
    else .next ((s.setTile tile { x with switching := none }).switchTile tile)

/-! ### Requests and the governor (R68 to R72) -/

/-- PARTOP of a core's partition: floor and cap. -/
def State.opFloor (s : State) (p : Nat) : Nat := bits (s.entry 1 p) 0 4
def State.opCap (s : State) (p : Nat) : Nat := bits (s.entry 1 p) 4 4

/-- A write of OPREQ: an explicit request is pending, and auto abandons a pending one (R70). -/
def State.writeOpreq (s : State) (lc : Nat) (v : BitVec 5) : State :=
  let c := s.core lc
  s.setCore lc { c with
    opreq := v
    opresult := if v.getLsbD 4 then (if c.opresult = 1 then 0 else c.opresult) else 1 }

/-- The target a tile would have if a core had a point. -/
def State.targetWith (s : State) (lc op : Nat) : Nat :=
  ((s.coresOn (s.tileOf lc)).filter (· != lc)).foldl (fun m c => max m (s.core c).eff) op

/-- A request is answered. -/
def State.answerOpreq (s : State) (lc result : Nat) : State := s.setCore lc { s.core lc with opresult := result }
def State.denyOpreq (s : State) (lc result : Nat) : State := (s.answerOpreq lc result).count cOPDENY (s.partOf lc)

/-- What a point costs: f times the square of V (R70). -/
def opCost (n : Nat) : Nat := opMHz n * opCode n * opCode n

/-- The estimate of the module's power, in mW, with the increase that a point of a core brings exceeds PWRCAP: on J960
the tile's power in the last sample times the ratio of the points' costs less 1 (R70). -/
def State.overEstimate (s : State) (lc estimate op : Nat) : Bool :=
  let t := s.tileOf lc
  let now := opCost ((s.tileTarget t).getD 0)
  let cap := (s.entry 2 0).toNat
  decide (1000 * cap * now < estimate * now + (s.tile t).power * (opCost (s.targetWith lc op) - now))

/-- The governor decides a pending explicit request. The estimate of the module's power is the
implementation's: watts, and milliwatts beside them. -/
def execOpreqDecide (lc watts milliwatts : Nat) (s : State) : Out :=
  let c := s.core lc
  let p := s.partOf lc
  let op := c.opreq.toNat % 16
  if c.opresult ≠ 1 then .next s
  else if op < s.opFloor p then .next (s.denyOpreq lc 3)
  else if op > s.opCap p then .next (s.denyOpreq lc 4)
  else if op > c.eff ∧ s.overEstimate lc (1000 * watts + milliwatts) op = true then .next (s.denyOpreq lc 5)
  else .next (((s.answerOpreq lc 2).setCore lc { s.core lc with opresult := 2, eff := op }).retuneCore lc)

/-- The module's power exceeds PWRCAP. -/
def State.overCap (s : State) : Bool := s.power.watts > (s.entry 2 0).toNat

/-- The stall ratio of a core in a sample, in 1/256; none where no cycle has passed. -/
def Core.ratio (c : Core) : Option Nat :=
  let dc := (c.cycle - c.sample.1).toNat
  if dc = 0 then none else some (min 255 (256 * ((c.mstall - c.sample.2.1).toNat + (c.estall - c.sample.2.2).toNat) / dc))

/-- The new effective request of an auto core at a sample (R71). -/
def State.sampledEff (s : State) (lc : Nat) : Nat :=
  let c := s.core lc
  let p := s.partOf lc
  let lo := s.opFloor p
  let hi := max lo (min (s.opCap p) (tget 15 s.power.votes p))
  if s.overCap then (if c.eff > lo then c.eff - 1 else c.eff)
  else
    let n :=
      if !c.busy && c.frames == [] then c.eff - 1
      else
        match c.ratio with
        | none => c.eff
        | some r => if r ≥ 160 then c.eff - 1 else if r ≤ 64 then c.eff + 1 else c.eff
    max lo (min hi n)

/-- A sample of one core: its request where it is auto, and the counts the next sample starts from. -/
def State.sampleCore (s : State) (lc : Nat) : State :=
  let c := s.core lc
  s.setCore lc { c with
    eff := if c.opreq.getLsbD 4 then s.sampledEff lc else c.eff
    sample := (c.cycle, c.mstall, c.estall), busy := c.frames != [] }

/-- At a sample the plug-in of each partition with a core among those sampled is asked for a vote (R55): it is told the mean
of their stall ratios. -/
def State.askVotes (s : State) (lcs : List Nat) : State :=
  (lcs.map s.partOf).eraseDups.foldl (fun s p =>
    let l := (lcs.filter fun lc => s.partOf lc == p).filterMap fun lc => (s.core lc).ratio
    match s.partPlug p with
    | none => s
    | some n => s.raiseCall n ⟨.opvote p, [ofN p, ofN (l.foldl (· + ·) 0 / max 1 l.length), Config.partitionPoint s.tick p]⟩) s

/-- The governor of a die samples its tiles. -/
def execPowerGovernorSample (die : Nat) (s : State) : Out :=
  if die ≥ 8 then .next s
  else
    let lcs := (span (32 * die) 32).flatMap s.coresOn
    let s1 := lcs.foldl (fun s lc => s.sampleCore lc) (s.askVotes lcs)
    .next ((span (8 * die) 8).foldl (fun s r => s.retune r) s1)

/-- Three samples above PWRCAP force every tile to the frequency of OP0 (R72). -/
def execPowerTrip (s : State) : Out :=
  if s.power.above < 3 || s.power.forced || !s.overCap then .next s
  else .next ({ s with power := { s.power with forced := true } }.retuneAll.count cPWRTRIP 0)

/-- Power below 95 percent of PWRCAP ends the force. -/
def execPowerTripEnd (s : State) : Out :=
  if s.power.forced ∧ 100 * s.power.watts < 95 * (s.entry 2 0).toNat then
    .next ({ s with power := { s.power with forced := false, above := 0 } }.retuneAll)
  else .next s

/-! ### Sleep (R75 to R78) -/

/-- The tiles a swap moves, and those that must be awake for it: the one a single core goes to as well. -/
def Swap.tiles (x : Swap) : List Nat := x.pairs.flatMap fun p => [p.1, p.2]
def Swap.needs (x : Swap) : List Nat := x.tiles ++ (x.single.map fun y => y.2 / 4).toList

/-- A swap has selected a tile. -/
def State.swapNeeds (s : State) (t : Nat) : Bool := (s.die (t / 32)).swap.any fun x => x.needs.contains t

/-- A tile task or drain of a core is outstanding. -/
def State.hasTasks (s : State) (lc : Nat) : Bool :=
  (span (4 * s.dieOf lc) 4).any fun cl =>
    ((s.cluster cl).queue ++ (s.cluster cl).forward ++ s.onEngines cl).any fun t => t.lc == lc

/-- A gather or scatter of a core is active. -/
def State.hasGathers (s : State) (lc : Nat) : Bool :=
  (span (4 * s.dieOf lc) 4).any fun cl => (s.cluster cl).gathers.any fun g => g.lc == lc

/-- No copy channel or footprint fetch of a core is active. -/
def Core.enginesIdle (c : Core) : Bool := (c.chans.all fun e => e.2.cur.isNone && e.2.queue == []) && c.foot == []

/-- A tile is idle (R75); one that a swap has selected is not. -/
def State.tileIdle (s : State) (t : Nat) : Bool :=
  let x := s.tile t
  x.run.isNone && x.held == [] && !s.swapNeeds t && (s.coresOn t).all fun lc =>
    let c := s.core lc
    c.frames == [] && c.inbox == [] && c.buffer7 == [] && c.enginesIdle && !s.heldCore lc &&
      !(s.prog.flights.any fun f => f.dst == .core lc) && !s.hasTasks lc && !s.hasGathers lc

/-- Every core of a tile allows a depth (R76). -/
def State.allowsDepth (s : State) (t d : Nat) : Bool := (s.coresOn t).all fun lc => decide (d ≤ bits (s.core lc).sleepctl 0 2)

/-- An idle tile's hold for D1, or for D2, is over: it starts to enter it. -/
def execSleepHoldExpire (tile : Nat) (deep : Bool) (s : State) : Out :=
  let d := if deep then 2 else 1
  let go := s.tileIdle tile && s.allowsDepth tile d && decide (tile < 256)
  match (s.tile tile).sleep with
  | .awake => .next (if go then s.setSleep tile (.entering 0 d) else s)
  | .asleep k => .next (if go && k == 1 && deep then s.setSleep tile (.entering 1 d) else s)
  | _ => .next s

/-- Lines and translations that a tile's slots hold go. -/
def State.dropSlots (s : State) (tile : Nat) : State :=
  { s with mem := { s.mem with
      l1 := s.mem.l1.filter fun e => e.1 / 2 ^ 46 / 4 != tile
      tlb := s.mem.tlb.filter fun x => !(decide (x.holder < 1024) && x.holder / 4 == tile) } }

/-- What a tile keeps at a depth: at D2 its caches and TLBs go, at D3 everything. -/
def State.losesAt (s : State) (tile d : Nat) : State :=
  let s1 := if d ≥ 2 then (s.dropSlots tile).dropIcache tile else s
  if d ≥ 3 then s1.setTile tile { s1.tile tile with banks := Vector.replicate 2 Bank.reset, run := none, held := [], columns := 0 }
  else s1

/-- The entry is complete: the tile rests at its depth and places no vote. -/
def execSleepEntryComplete (tile : Nat) (s : State) : Out :=
  match (s.tile tile).sleep with
  | .entering _ d => .next (((s.losesAt tile d).setSleep tile (.asleep d)).retune (tile / 4))
  | _ => .next s

/-- A tile rests: awake, or asleep and not on its way. -/
def Sleep.rests : Sleep → Bool
  | .awake | .asleep _ => true
  | _ => false

/-- The front end places a tile without mapped cores at D3. It does not while the tile runs or holds a tile task or an
accumulator of another tile's core, nor while it enters a depth or wakes (R78; log entry 94). -/
def execSleepD3Enter (tile : Nat) (s : State) : Out :=
  if s.coresOn tile = [] ∧ (s.tile tile).sleep.rests = true ∧ tile < 256 ∧ s.tileIdle tile = true ∧ (s.tile tile).banks.toList.all (fun b => b.tag.isNone) = true then
    .next (((s.losesAt tile 3).setSleep tile (.asleep 3)).retune (tile / 4))
  else .next s

/-- A sleeping tile wakes for what has arrived for it: a record for a core of it, work of its engines, or a swap that has
selected it (R77). -/
def execTileWake (tile : Nat) (s : State) : Out := .next (if s.tileIdle tile then s else s.wakeTile tile)

/-- The arbiter of a rail grants the first wake that waits. -/
def execInrushGrant (rail : Nat) (s : State) : Out :=
  let r := s.rail rail
  match r.waiters with
  | [] => .next s
  | t :: l =>
    if r.grants.length ≥ 2 then .next s
    else
      match (s.tile t).sleep with
      | .waiting d => .next ((s.setRail rail { r with waiters := l, grants := r.grants ++ [t] }).setSleep t (.waking d))
      | _ => .next (s.setRail rail { r with waiters := l })

/-- The logical cores a swap moves. -/
def State.swapCores (s : State) (x : Swap) : List Nat := x.tiles.flatMap s.coresOn ++ (x.single.map Prod.fst).toList

/-- The replicas of the logical-to-physical table: the tile stops, and from 256 the two quay interfaces. -/
def replicas : List Nat := span 0 258

/-- The acknowledgement of a replica for a core. -/
def ackKey (lc stop : Nat) : Nat := lc * 512 + stop

/-- A core takes part in a gang; in one of a form. -/
def State.ganged (s : State) (lc : Nat) : Bool := (s.core lc).frames.any fun f => f.gang.isSome || f.leader.isSome
def State.inTpair (s : State) (lc : Nat) : Bool :=
  (s.core lc).frames.any fun f =>
    (f.gang.any fun g => g.form == .tpair) ||
      match f.leader with
      | some l => (s.frameAt l f.level).any fun h => h.gang.any fun g => g.form == .tpair
      | none => false

/-- A tile holds a member of a tile-pair gang. -/
def State.holdsTpair (s : State) (tile : Nat) : Bool := (s.coresOn tile).any s.inTpair

/-- What keeps a swap from going on: a tile-pair gang that has formed on a tile of it while another woke (R80, R185), or,
for a core that moves alone, a gang or a tile task, or the trip of a tile (R84). The move of a pair of tiles takes the gang with it. -/
def State.heldOut (s : State) (x : Swap) : Bool :=
  x.needs.any (fun t => (s.tile t).tripped) || match x.pairs, x.single with
  | [(a, b)], _ => s.holdsTpair a || s.holdsTpair b
  | _, some (lc, _) => s.ganged lc || s.hasTasks lc
  | _, none => false

/-- The records on their way to a core have been routed before its hold. -/
def State.markEarly (s : State) (lcs : List Nat) : State :=
  let mark := fun f : Flight => if lcs.any (fun lc => f.dst == .core lc) then { f with early := true } else f
  { s with prog := { s.prog with flights := s.prog.flights.map mark } }

/-- Once the tiles of a swap are awake, hold is set for every core it moves (R81 step 2). -/
def State.beginHold (s : State) (die : Nat) : State :=
  match (s.die die).swap with
  | none => s
  | some x =>
    if x.phase ≠ .waking || x.needs.any fun t => (s.tile t).sleep != .awake then s
    else if s.heldOut x then
      let s1 := s.setDie die { s.die die with swap := none }
      if x.single.isSome || x.tiles.any (fun t => (s.tile t).emergency) then s1 else s1.count cROTSKIP die
    else
      let lcs := s.swapCores x
      let y := { x with phase := .holding, missing := lcs.flatMap fun lc => replicas.map (ackKey lc) }
      ((lcs.foldl (fun s lc => s.setEntry 12 lc (setBits (s.entry 12 lc) 14 1 1)) s).markEarly lcs).setDie die { s.die die with swap := some y }

/-- A tile is awake: it votes again, its cores go on, and a swap that has waited for it holds its cores. -/
def execWakeComplete (tile : Nat) (s : State) : Out :=
  match (s.tile tile).sleep with
  | .waking _ =>
    let r := s.rail (tile / 4)
    .next ((((s.setRail (tile / 4) { r with grants := r.grants.filter (· != tile) }).setSleep tile .awake).retune (tile / 4)).beginHold (tile / 32))
  | _ => .next s

/-! ### Droop and ramp (R79) -/

/-- A droop of a rail throttles its matrix engines, for a time of its own. -/
def execDroopDetect (rail : Nat) (s : State) : Out :=
  if rail ≥ 64 then .next s
  else .next ((s.setRail rail { s.rail rail with throttles := (s.rail rail).throttles + 1 }).count cDROOP rail)
def execDroopThrottleEnd (rail : Nat) (s : State) : Out :=
  .next (s.setRail rail { s.rail rail with throttles := (s.rail rail).throttles - 1 })

/-- A starting engine enables its next group of columns, of 8. -/
def execMatrixColumnRamp (tile : Nat) (s : State) : Out :=
  let x := s.tile tile
  if x.run.isSome ∧ x.columns < 8 then .next (s.setTile tile { x with columns := x.columns + 1 }) else .next s

/-! ### The two status words -/

/-- OPSTAT of a core (R69). -/
def State.opstat (s : State) (lc : Nat) : Word :=
  let t := s.tileOf lc
  let c := s.core lc
  ofN ((s.tile t).cur * 2 ^ 28 + ((s.tileTarget t).getD 0) * 2 ^ 24 + s.railNow (t / 4) * 2 ^ 16 + c.eff * 2 ^ 12 + c.opresult)

end Sys2Proof.Machine
end

