-- ==== Sys2Proof/Machine/Rotation.lean ====
section
/-! DEFINITION. Rotation, emergency migration and thermal events (R25, R80 to R84, R164). -/

namespace Sys2Proof.Machine

/-! ### Choosing (R80, R84) -/

/-- The fields of ROTCTL of a die. -/
def State.rotEnabled (s : State) (die : Nat) : Bool := bit (s.entry 4 die) 0
def State.tcrit (s : State) (die : Nat) : Nat := bits (s.entry 4 die) 32 8
def State.dtmin (s : State) (die : Nat) : Nat := bits (s.entry 4 die) 40 8

def State.temp (s : State) (tile : Nat) : Nat := (s.tile tile).temp.toNat

/-- The hottest tile of a die among those with a mapped core, the lowest on a tie. -/
def State.hottest (s : State) (die : Nat) : Option Nat :=
  leastBy (fun a b => decide (s.temp b < s.temp a)) ((span (32 * die) 32).filter fun t => s.coresOn t != [])

/-- The coolest of tiles, the lowest on a tie. -/
def State.coolest (s : State) (l : List Nat) : Option Nat := leastBy (fun a b => decide (s.temp a < s.temp b)) l

/-- The tiles that can exchange with a tile: of its die and kind, without a tile-pair gang, neither stopped nor withdrawn;
with a withdrawn tile only an empty one (log entry 63). -/
def State.partners (s : State) (h : Nat) : List Nat :=
  (span (h / 32 * 32) 32).filter fun t => t != h && wideTile t == wideTile h && !s.holdsTpair t && !(s.tile t).tripped &&
    !(s.tile t).withdrawn && (!(s.tile h).withdrawn || s.coresOn t == [])

/-- Start a swap: its tiles are woken, and its cores are held once they are awake (R81 steps 1, 2). -/
def State.startSwap (s : State) (die : Nat) (x : Swap) : State :=
  (x.needs.foldl (fun s t => s.wakeTile t) (s.setDie die { s.die die with swap := some x })).beginHold die

def newSwap (pairs : List (Nat × Nat)) (single : Option (Nat × Nat)) : Swap :=
  { pairs := pairs, single := single, phase := .waking, missing := [] }

/-- A tile stays where it is: a tile-pair gang has a member there, or the hardware trip has stopped it (R80, R84; log entry
63). -/
def State.fixed (s : State) (h : Nat) : Bool := s.holdsTpair h || (s.tile h).tripped

/-- The end of an interval: a swap of the hottest tile with the coolest that qualifies, or none. DESIGN CHOICE (log entry
63): an interval that ends while a swap of the die is in progress starts none and counts nowhere, of which R80 says
nothing. -/
def execRotationInterval (die : Nat) (s : State) : Out :=
  if die ≥ 8 || !s.rotEnabled die || (s.die die).swap.isSome then .next s
  else
    match s.hottest die with
    | none => .next (s.count cROTSKIP die)
    | some h =>
      match (if s.fixed h then none else s.coolest ((s.partners h).filter fun t => decide (s.temp t + s.dtmin die ≤ s.temp h ∧ s.temp t < s.temp h))) with
      | none => .next (s.count cROTSKIP die)
      | some c => .next (s.startSwap die (newSwap [(h, c)] none))

/-! ### The steps of a swap (R25, R81) -/

/-- A record routed to a stop before the hold has not been applied. -/
def State.earlyAt (s : State) (stop : Nat) : Bool :=
  s.prog.flights.any fun f => f.early && match f.dst with
    | .core lc => s.tileOf lc == stop
    | _ => false

/-- A replica acknowledges that hold is set: the stop of a tile of the swap once every record routed to it before the hold
has been applied. -/
def execL2pHoldAck (lc stop : Nat) (s : State) : Out :=
  let die := s.dieOf lc
  match (s.die die).swap with
  | none => .next s
  | some x =>
    if x.phase ≠ .holding || ((x.needs ++ (x.single.map fun y => s.tileOf y.1).toList).contains stop && s.earlyAt stop) then .next s
    else .next (s.setDie die { s.die die with swap := some { x with missing := x.missing.filter (· != ackKey lc stop) } })

/-- The other tile of a pair. -/
def partnerOf (a b t : Nat) : Nat := if t = a then b else if t = b then a else t

/-- A physical byte address lies in the overlay that a tile's window holds (R305). -/
def State.inWindow (s : State) (tile pa : Nat) : Bool :=
  match (s.tile tile).window with
  | none => false
  | some (g, n) =>
    match s.xlate (tile / 32) [] 0 (s.ctxOf g) ((s.codeBase g).toNat + Config.overlayWindow * n) needX with
    | .pa p _ => inPage p Config.overlayWindow pa
    | _ => false

/-- The instruction caches of two tiles whose windows have changed places: what a window holds goes to its new tile, all else
is dropped. -/
def State.swapIcaches (s : State) (a b : Nat) : State :=
  let moved := fun t u => (s.mem.icache.filter fun e => e.1 / 2 ^ 52 == t && s.inWindow u (e.1 % 2 ^ 52 * 4)).map
    fun e => (u * 2 ^ 52 + e.1 % 2 ^ 52, e.2)
  let rest := s.mem.icache.filter fun e => e.1 / 2 ^ 52 != a && e.1 / 2 ^ 52 != b
  { s with mem := { s.mem with icache := (moved a b ++ moved b a).foldl (fun t e => tput e.1 e.2 t) rest } }

/-- The translations of a slot of two tiles go. -/
def State.dropSlotXlats (s : State) (a b : Nat) : State :=
  { s with mem := { s.mem with tlb := s.mem.tlb.filter fun x =>
      !(decide (x.holder < 1024) && (x.holder / 4 == a || x.holder / 4 == b)) } }

/-- The chain tables of a die after two of its tiles have changed places: an entry goes with its engine. DESIGN CHOICE (log
entry 63): a table that gets more than its 16 entries this way keeps them; R164 has the entries rewritten, and by R161 only
an overwrite record evicts. -/
def State.swapChains (s : State) (a b : Nat) : State :=
  let die := a / 32
  let all := (span (4 * die) 4).flatMap fun cl => (s.cluster cl).chains.map fun c => { c with tile := partnerOf a b c.tile }
  (span (4 * die) 4).foldl (fun s cl => s.setCluster cl { s.cluster cl with chains := all.filter fun c => c.tile / 8 == cl }) s

/-- The tile tasks that the cores of a tile have queued go to the other tile's cluster. DESIGN CHOICE (log entry 63): its queue
takes them though it has no room; R81 moves them and nothing says that they could wait. -/
def State.moveQueued (s : State) (lcs : List Nat) (from_ dst : Nat) : State :=
  if from_ = dst then s
  else
    let x := s.cluster from_
    let mine := x.queue.filter fun t => lcs.contains t.lc
    let s1 := s.setCluster from_ { x with queue := x.queue.filter fun t => !lcs.contains t.lc }
    s1.setCluster dst (mine.foldl Cluster.enqueue (s1.cluster dst))

/-- Exchange the state of two tiles (R81 step 4, R82, R164). -/
def State.moveTiles (s : State) (a b : Nat) : State :=
  let x := s.tile a
  let y := s.tile b
  let s1 := ((s.setTile a { x with banks := y.banks, run := y.run, held := y.held, window := y.window }).setTile b
    { y with banks := x.banks, run := x.run, held := x.held, window := x.window }).swapChains a b
  let la := s.coresOn a
  let lb := s.coresOn b
  (((s1.moveQueued la (a / 8) (b / 8)).moveQueued lb (b / 8) (a / 8)).swapIcaches a b).dropSlotXlats a b

/-- Every hold is acknowledged and every core is at a boundary: both tiles are quiesced and their state moves. -/
def execRotationQuiesce (die : Nat) (s : State) : Out :=
  match (s.die die).swap with
  | none => .next s
  | some x =>
    let lcs := s.swapCores x
    if x.phase ≠ .holding || x.missing != [] || lcs.any (fun lc => s.midway lc || (s.core lc).strays != []) ||
        x.single.any (fun y => s.ganged y.1 || s.hasTasks y.1) then .next s
    else
      let s1 := lcs.foldl (fun s lc => let s' := s.abandon lc; s'.setCore lc { s'.core lc with stopped := true, frames := uncover (s'.core lc).frames }) s
      let s2 := x.pairs.foldl (fun s p => s.moveTiles p.1 p.2) s1
      let s3 := match x.single with
        | some (lc, q) =>
          ({ s2 with mem := { s2.mem with tlb := s2.mem.tlb.filter fun t => t.holder != s.phys lc && t.holder != q } } : State).dropIcache (q / 4)
        | none => s2
      .next (s3.setDie die { s3.die die with swap := some { x with phase := .quiesced } })

/-- The physical core of a core after a swap. -/
def Swap.newPhys (x : Swap) (lc phys : Nat) : Nat :=
  match x.single with
  | some (l, q) => if l = lc then q else phys
  | none => (x.pairs.foldl (fun t p => partnerOf p.1 p.2 t) (phys / 4)) * 4 + phys % 4

/-- The front end reads a tile's meter at a rotation and credits the partitions whose cores reside there: one of them with
all, several in a division that the spec does not give (R74). -/
def State.creditTile (s : State) (t : Nat) : State :=
  let x := s.tile t
  let parts := ((s.coresOn t).map s.partOf).eraseDups
  let n := (x.energy - x.credited).toNat
  let add := fun (c : Table Nat) p => mput 0 p (tget 0 c p + if parts.length = 1 then n else Config.meterShare s.tick t p) c
  { s.setTile t { x with credited := x.energy } with power := { s.power with credit := parts.foldl add s.power.credit } }

/-- The frame of a core at a level is re-posted once where it is re-runnable: it is aborted, its −1 behind the re-post
(R228, R232). -/
def State.rerunAt (lc : Nat) (s : State) (level : Nat) : State :=
  match s.frameAt lc level with
  | none => s
  | some f =>
    if f.hdr.flags % 2 = 0 ∨ f.marked ∨ f.leader.isSome then s
    else
      let c := s.core lc
      ((s.setCore lc { c with frames := f :: c.frames.filter fun x => x.level != level }).repost lc f).endFrame lc true []

/-- A core has moved off a tile that the front end has withdrawn: every re-runnable frame of it is re-posted (R232). -/
def State.rerunMoved (s old : State) (lc : Nat) : State :=
  if (old.tile (old.tileOf lc)).withdrawn then [7, 6, 5, 4, 3, 2, 1].foldl (State.rerunAt lc) s else s

/-- The new places are written with hold clear, and the cores go on, but for those of a halted partition or of a tile that the
trip has stopped meanwhile. -/
def execRotationRemap (die : Nat) (s : State) : Out :=
  match (s.die die).swap with
  | none => .next s
  | some x =>
    if x.phase ≠ .quiesced then .next s
    else
      let lcs := s.swapCores x
      let s0 := (x.tiles.foldl (fun s t => s.chargeRail (t / 4)) s)
      let s1 := lcs.foldl (fun s' lc =>
        (s'.setEntry 12 lc (ofN (0x8000 + x.newPhys lc (s.phys lc)))).setCore lc
          { s'.core lc with stopped := s.partState (s.partOf lc) == 2 || (s.tile (s.tileOf lc)).tripped }) (x.tiles.foldl (fun s t => s.creditTile t) s0)
      let s2 := s1.setDie die { s1.die die with swap := none }
      let tiles := x.needs ++ (x.single.map fun y => s.tileOf y.1).toList
      let s3 := tiles.foldl (fun s t => s.retune (t / 4)) s2
      let s4 := lcs.foldl (fun s' lc => s'.rerunMoved s lc) s3
      .next (if x.single.isSome then s4.count cEMIG die else s4.countBy cROTCNT die x.pairs.length)

/-- A write routed before the hold reaches its core's stop, or is forwarded by the stop the core has left: it is applied
once, to the quarter where it now lies. -/
def execMovedCoreWriteArrival (lc off : Nat) (data : List Byte) (s : State) : Out :=
  match s.mem.flying.find? fun f => f.core == lc && f.off == off && f.data == data with
  | none => .next s
  | some f => .next (if (s.tile (s.tileOf lc)).sleep.deep then s.callTile lc else s.landFlying f)

/-! ### Thermal events (R84) -/

/-- TEMP reaches tcrit: the tile's frequency drops at once. -/
def execThermalEmergency (tile : Nat) (s : State) : Out :=
  let x := s.tile tile
  if tile < 256 ∧ x.emergency = false ∧ s.tcrit (tile / 32) ≤ x.temp.toNat then
    .next (s.setTile tile { x with emergency := true, cur := 0, switching := none })
  else .next s

/-- The physical cores a core of a tile may move to, the coolest first. -/
def State.freeQuarter (s : State) (tile : Nat) : Option Nat :=
  let die := tile / 32
  leastBy (fun a b => decide (Config.quarterTemp s.tick a < Config.quarterTemp s.tick b))
    ((span (128 * die) 128).filter fun q =>
      (s.logicalAt q 1024).isNone && wideTile (q / 4) == wideTile tile && decide (s.temp (q / 4) + s.dtmin die < s.tcrit die) &&
        !(s.tile (q / 4)).tripped && !(s.tile (q / 4)).withdrawn)

/-- One core of a tile in an emergency, or withdrawn from service (R232), moves, the hottest quarter first. -/
def execEmergencyMigration (tile : Nat) (s : State) : Out :=
  let die := tile / 32
  if !((s.tile tile).emergency || (s.tile tile).withdrawn) || (s.tile tile).tripped || (s.die die).swap.isSome then .next s
  else
    match leastBy (fun a b => decide (Config.quarterTemp s.tick (s.phys b) < Config.quarterTemp s.tick (s.phys a)))
        ((s.coresOn tile).filter fun lc => !s.ganged lc && !s.hasTasks lc), s.freeQuarter tile with
    | some lc, some q => .next (s.startSwap die (newSwap [] (some (lc, q))))
    | _, _ => .next s

/-- The coolest pair of tiles for a pair of tiles to exchange with. -/
def State.coolestPair (s : State) (tile : Nat) : Option Nat :=
  let t := tile / 2 * 2
  let hot := fun u => max (s.temp u) (s.temp (u + 1))
  leastBy (fun a b => decide (hot a < hot b))
    (((span 0 16).map fun j => tile / 32 * 32 + 2 * j).filter fun u =>
      u != t && (s.partners tile).contains u && (s.partners tile).contains (u + 1))

/-- The whole tile is to be rotated: it is still too hot, or it is withdrawn and holds a gang, which moves with its tile
alone (R84, R232, R298). -/
def State.mustRotate (s : State) (tile : Nat) : Bool :=
  ((s.tile tile).emergency && decide (s.tcrit (tile / 32) ≤ s.temp tile)) ||
    ((s.tile tile).withdrawn && (s.coresOn tile).any s.ganged)

/-- After the bound the whole tile is rotated, dtmin waived; a tile-pair gang takes both tiles with it. -/
def execEmergencyRotation (tile : Nat) (s : State) : Out :=
  let die := tile / 32
  if !s.mustRotate tile || (s.tile tile).tripped || (s.die die).swap.isSome || s.coresOn tile == [] then .next s
  else if s.holdsTpair tile then
    match (if (s.tile (tile / 2 * 2 + (1 - tile % 2))).tripped then none else s.coolestPair tile) with
    | some u => let t := tile / 2 * 2; .next (s.startSwap die (newSwap [(t, u), (t + 1, u + 1)] none))
    | none => .next s
  else
    match s.coolest (s.partners tile) with
    | some c => .next (s.startSwap die (newSwap [(tile, c)] none))
    | none => .next s

/-- TEMP falls below tcrit − dtmin: the tile returns to its target. -/
def execThermalRecover (tile : Nat) (s : State) : Out :=
  let x := s.tile tile
  if x.emergency ∧ x.temp.toNat + s.dtmin (tile / 32) < s.tcrit (tile / 32) then
    .next ((s.setTile tile { x with emergency := false }).retune (tile / 4))
  else .next s

/-- The level-7 trap-delivery record that the front end receives for a tile that the trip stops: of kind 4 (R87, R229); its
other words the spec does not give. -/
def tripRecord (tile : Nat) : Rec :=
  let w := Config.tripWord tile
  (({ q0 := w 0, q1 := w 1, q2 := w 2, q3 := w 3, q4 := w 4, q5 := w 5, q6 := w 6, q7 := w 7 } : Rec).set 27 3 4).set 24 3 7

/-- The hardware trip at 115 °C stops a tile: its cores halt as under preemption, at a boundary and their buffers flushed. -/
def execThermalTrip (tile : Nat) (s : State) : Out :=
  let x := s.tile tile
  if tile < 256 ∧ x.tripped = false ∧ 115 ≤ x.temp.toNat then
    let s1 := (s.coresOn tile).foldl (fun s lc => (s.abandon lc).flush lc) (s.setTile tile { x with tripped := true })
    .next ({ s1 with power := { s1.power with trips := s1.power.trips ++ [tripRecord tile] } }.count cTHTRIP (tile / 32))
  else .next s

end Sys2Proof.Machine
end

