-- ==== Sys2Proof/Machine/FeTables.lean ====
section
/-! DEFINITION. The front-end tables as FEDATA reads and writes them (R404, R405, and the rules of each
table). -/

namespace Sys2Proof.Machine

/-- n bits from lo, as a mask. -/
def maskBits (lo n : Nat) : Nat := (2 ^ n - 1) * 2 ^ lo

/-- The bits of an entry that a write sets (R5). -/
def feMask (tbl idx : Nat) : Nat :=
  match tbl with
  | 1 => maskBits 0 8
  | 2 => maskBits 0 16
  | 3 => maskBits 0 24
  | 4 => maskBits 32 32 + 1
  | 5 => maskBits 8 56
  | 7 => maskBits 16 36
  | 8 => maskBits 0 56
  | 9 => maskBits 54 8 + maskBits 0 6
  | 10 => maskBits 63 1 + maskBits 0 27
  | 11 => maskBits 63 1 + maskBits 13 39
  | 12 => maskBits 14 2 + maskBits 0 10
  | 13 => if idx % 2 = 0 then maskBits 45 19 + 1 else maskBits 0 64
  | 14 => maskBits 0 24
  | 15 => maskBits 0 64
  | 17 => maskBits 0 19
  | 18 | 19 => maskBits 63 1 + maskBits 16 36
  | 20 => if idx % 2 = 0 then maskBits 12 40 + maskBits 4 5 + maskBits 0 2 else 0
  | 21 => maskBits 63 1 + maskBits 20 32
  | 22 => maskBits 63 1 + maskBits 16 36 + maskBits 0 5
  | 23 => maskBits 63 1 + maskBits 24 24
  | 24 => maskBits 63 1 + maskBits 0 8
  | _ => 0

/-- An entry after a write of w: reserved bits stay. -/
def State.merged (s : State) (tbl idx : Nat) (w : Word) : Word :=
  let m := ofN (feMask tbl idx)
  (s.entry tbl idx &&& ~~~m) ||| (w &&& m)

/-- A graph slot of a partition is resident; any is. -/
def State.residentIn (s : State) (p : Nat) : Bool := s.prog.graphs.any fun e => s.fnPart e.2.fn == p
def State.anyResident (s : State) : Bool := s.prog.graphs != []

/-- Another logical core is mapped to a physical core. -/
def State.physTaken (s : State) (lc phys : Nat) : Bool :=
  (span 0 1024).any fun l => l != lc && s.mapped l && s.phys l == phys

/-- The pool of a landing lies in one partition, that of the slot where it is resident. -/
def State.poolOk (s : State) (g first last : Nat) : Bool :=
  let lcs := span first (last + 1 - first)
  let p := match s.graph g with
    | some x => s.fnPart x.fn
    | none => s.partOf first
  lcs.all (s.inPart p)

/-- The rules of LANDCFG (R155). -/
def State.landOk (s : State) (idx : Nat) (w : Word) : Bool :=
  let first := bits w 54 10
  let last := bits w 44 10
  let mn := bits w 34 10
  let mx := bits w 24 10
  first ≤ last && s.poolOk (idx / 64) first last && decide (mn ≠ 0) && mn ≤ mx && mx ≤ last - first + 1 && decide (bits w 8 8 < bits w 16 8)

/-- The rules of the logical-to-physical master (R24, R405): a die that has failed is not in it (R27). -/
def State.l2pOk (s : State) (lc : Nat) (w : Word) : Bool :=
  !bit w 15 || ((decide (s.modState ≠ 4) || (s.die (bits w 0 10 / 128)).inService) && !s.physTaken lc (bits w 0 10) && bit (s.entry 18 lc) 63 && bit (s.entry 19 lc) 63 && bit (s.entry 24 lc) 63)

/-- Some VCP of a function is enabled. -/
def State.vcpOn (s : State) (f : Nat) : Bool := (span 0 16).any fun v => (s.vcp f v).state != .disabled

/-- The rule of a table lets a write through. -/
def State.feOk (s : State) (tbl idx : Nat) (w : Word) : Bool :=
  match tbl with
  | 1 => bits w 0 4 ≤ bits w 4 4
  | 2 => bits w 0 16 != 0
  | 3 => 48 ≤ bits w 0 8 && bits w 0 8 ≤ 80
  | 4 => bits w 48 16 != 0
  | 5 => s.landOk idx w
  | 10 => bits w 24 3 ≤ 4
  | 12 => s.l2pOk idx w
  | 17 => bits w 0 19 % 64 == 0 && bits w 0 19 ≤ 0x60000 && !s.residentIn idx
  | 18 | 19 | 24 => !s.mapped idx
  | 20 =>
    let old := s.entry 20 idx
    idx % 2 == 0 && 10 ≤ bits w 4 5 && bits w 4 5 ≤ 24 && bits w 0 2 != 3 &&
      (bits old 0 2 == 0 || (bits w 12 40 == bits old 12 40 && bits w 4 5 == bits old 4 5))
  | 21 => !s.anyResident
  | 22 => (s.graph (idx / 64)).isNone && 8 ≤ bits w 0 5 && bits w 0 5 ≤ 16
  | 23 => !s.vcpOn idx
  | _ => true

/-- A partition is created with its first member: every future word that no other partition in being has emptied is full
again (R197, log entry 93). -/
def State.fillFutures (s : State) (p : Nat) : State :=
  { s with mem := { s.mem with empties := s.mem.empties.filter fun e => e.2 != p + 1 && s.coresOf (e.2 - 1) != [] } }

/-- What a write brings about beside the entry: a rail follows its floor, a shootdown starts, routes are lost,
a mapping moves a core's request, a new member is a core at its reset values. -/
def State.feAfter (s : State) (tbl idx : Nat) (w : Word) (old : State) : State :=
  match tbl with
  | 3 => s.retune idx
  | 9 => if bit w 63 then s.shootdown idx else s
  | 12 => ((s.retuneCore idx).retune (old.tileOf idx / 4))
  | 14 => s.cutRoutes
  | 24 =>
    if s.entry 24 idx = old.entry 24 idx ∨ !bit w 63 then s
    else
      let s0 := if old.coresOf (s.partOf idx) = [] then s.fillFutures (s.partOf idx) else s
      let s1 := s0.setCore idx Core.reset
      if s1.partState (s1.partOf idx) = 6 then s1.setPart (s1.partOf idx) 0 0 else s1
  | _ => s

/-- Write an entry: an entry that does not exist, and a refused write, change nothing. -/
def State.feWrite (s : State) (tbl idx : Nat) (w : Word) : State :=
  if idx ≥ feSize tbl then s
  else if tbl = 6 then s.preemptCmd idx (bits w 61 3)
  else if tbl = 16 then s
  else if s.feOk tbl idx w then (s.setEntry tbl idx (s.merged tbl idx w)).feAfter tbl idx w s
  else s

/-- Read an entry, and the state after it: a counter is cleared (R6, R29). -/
def State.feRead (s : State) (tbl idx : Nat) : Word × State :=
  if idx ≥ feSize tbl then (0, s)
  else
    match tbl with
    | 13 => (if idx % 2 = 1 then 0 else s.entry 13 idx, s)
    | 15 =>
      let e := s.entry 15 idx
      (if s.devid.toNat / 64 = idx % 2 then e ||| ofN (2 ^ (s.devid.toNat % 64)) else e, s)
    | 16 => ((s.counter (idx / 4096) (idx % 4096)).zeroExtend 64, s.setCounter (idx / 4096) (idx % 4096) 0)
    | _ => (s.entry tbl idx, s)

/-- The front-end core that acts. -/
def State.actingFe (s : State) : Nat :=
  match s.agent with
  | .fe n => n
  | .core _ => 0

/-- FESEL's table and index of a front-end core. -/
def FeCore.table (c : FeCore) : Nat := c.sel.toNat / 2 ^ 24
def FeCore.index (c : FeCore) : Nat := c.sel.toNat % 2 ^ 24

/-- A FEDATA write of the acting front-end core (R404): one at plug-in level has no FEDATA. -/
def execFedataWrite (w : Word) (s : State) : Out :=
  let c := s.fe s.actingFe
  if c.priv = 0 then .next s else .next (s.feWrite c.table c.index w)

/-- A write of the logical-to-physical master. -/
def execL2pWrite (lc : Nat) (w : Word) (s : State) : Out := .next (s.feWrite 12 lc w)

/-- A read of a counter returns it and clears it. -/
def execCounterReadClear (code inst : Nat) (s : State) : Out :=
  if code < 4096 ∧ inst < 4096 then .next (s.feRead 16 (code * 4096 + inst)).2 else .next s

end Sys2Proof.Machine
end

