-- ==== Sys2Proof/Machine/System.lean ====
section
/-! DEFINITION. The system instructions, and the steps that are writes of system registers (R402 to R410,
R51, R53, R68, R254, R258). -/

namespace Sys2Proof.Machine

/-! ### Reading (R402) -/

/-- A system register of a compute core as its running frame reads it; none where there is no such number. -/
def State.coreReg (s : State) (lc : Nat) (f : Frame) (n : Nat) : Option Word :=
  let c := s.core lc
  match n with
  | 0x000 => some (ofN lc)
  | 0x001 => some (s.tileId lc)
  | 0x002 => some (ofN (s.phys lc % 4))
  | 0x003 => some (s.devid.zeroExtend 64)
  | 0x004 => some (ofN f.level)
  | 0x005 => some (ofN f.thresh)
  | 0x006 => some (claimsWord f.claims)
  | 0x007 => some f.ltime
  | 0x008 => some (ofN f.station)
  | 0x009 => some (ofN f.graph)
  | 0x00A => some f.budgetWord
  | 0x00B => some c.inboxWord
  | 0x00C => some c.subsWord
  | 0x00D => some f.strmWord
  | 0x010 => some c.cycle
  | 0x011 => some c.instret
  | 0x012 => some c.mstall
  | 0x013 => some c.estall
  | 0x014 => some (ofN c.lease)
  | 0x015 => some (c.detovf.zeroExtend 64)
  | 0x020 => some (f.h.fpctl.zeroExtend 64)
  | 0x021 => some (f.h.fpstat.zeroExtend 64)
  | 0x022 => some f.h.seed
  | 0x030 => some (c.opreq.zeroExtend 64)
  | 0x031 => some (s.opstat lc)
  | 0x032 => some c.sleepctl
  | 0x040 => some f.h.trapcause
  | 0x041 => some f.h.trapval
  | 0x050 => some (c.warm 0)
  | 0x051 => some (c.warm 1)
  | 0x052 => some (c.warm 2)
  | 0x053 => some (c.warm 3)
  | n => if 0x028 ≤ n ∧ n < 0x030 then some ((f.fd.toList.getD (n - 0x028) 0).zeroExtend 64) else none

/-- A system register of a front-end core, and the state after the read: FEDATA of a counter clears it. -/
def State.feReg (s : State) (k : Nat) (n : Nat) : Option (Word × State) :=
  let c := s.fe k
  match n with
  | 0x010 => some (c.cycle, s)
  | 0x011 => some (c.instret, s)
  | 0x020 => some (c.h.fpctl.zeroExtend 64, s)
  | 0x021 => some (c.h.fpstat.zeroExtend 64, s)
  | 0x022 => some (c.h.seed, s)
  | 0x040 => some (c.h.trapcause, s)
  | 0x041 => some (c.h.trapval, s)
  | 0x800 => some (ofN c.priv, s)
  | 0x806 => some (ofN k, s)
  | n =>
    if c.priv = 0 then none
    else
      match n with
      | 0x801 => some (ofN c.prev, s)
      | 0x802 => some (c.epc.zeroExtend 64, s)
      | 0x803 => some (s.boot.modstat.zeroExtend 64, s)
      | 0x804 => some (c.sel.zeroExtend 64, s)
      | 0x805 => some (s.feRead c.table c.index)
      | _ => none

/-- A system register of the agent whose turn it is. -/
def State.sysReg (s : State) (n : Nat) : Option (Word × State) :=
  match s.agent with
  | .core lc => (s.top lc).bind fun f => (s.coreReg lc f n).map fun w => (w, s)
  | .fe k => s.feReg k n

/-- `mfs`. -/
def execMfs (d : Reg) (r : BitVec 12) (s : State) : Out :=
  s.run (.mfs d r) fun _ =>
    match s.sysReg r.toNat with
    | some (w, s1) => s1.finish (.mfs d r) d w
    | none => s.illegal (.mfs d r)

/-! ### Writing (R402) -/

/-- Write SEED of a hart: SeedLoad (R258). -/
def Hart.load (h : Hart) (w : Word) : Hart := { h with seed := w, gen := seedLoad w }

/-- Write a floating-point register of a hart. -/
def Hart.setFp (h : Hart) (n : Nat) (w : Word) : Option Hart :=
  match n with
  | 0x020 => some { h with fpctl := fpctlOf w }
  | 0x021 => some { h with fpstat := BitVec.ofNat 5 (bits w 0 5) }
  | 0x022 => some (h.load w)
  | _ => none

/-- Write a system register of a compute core; none where it is not writable. -/
def State.setCoreReg (s : State) (lc : Nat) (f : Frame) (n : Nat) (w : Word) : Option State :=
  match f.h.setFp n w with
  | some h => some (s.setTop lc { f with h := h })
  | none =>
    match n with
    | 0x030 => some ((s.writeOpreq lc (BitVec.ofNat 5 (bits w 0 5))))
    | 0x032 => some (s.setCore lc { s.core lc with sleepctl := sleepWord w })
    | n =>
      if h : 0x028 ≤ n ∧ n < 0x030 then
        some (s.setTop lc { f with fd := f.fd.set (n - 0x028) (BitVec.ofNat 32 (bits w 0 32)) (by omega) })
      else none

/-- Write a system register of a front-end core. -/
def State.setFeReg (s : State) (k : Nat) (n : Nat) (w : Word) : Option State :=
  let c := s.fe k
  match c.h.setFp n w with
  | some h => some (s.setFe k { c with h := h })
  | none =>
    if c.priv = 0 then none
    else
      match n with
      | 0x801 => some (s.setFe k { c with prev := bits w 0 2 })
      | 0x802 => some (s.setFe k { c with epc := BitVec.ofNat 52 (bits w 2 50 * 4) })
      | 0x804 => some (s.setFe k { c with sel := BitVec.ofNat 32 (bits w 0 32) })
      | 0x805 => some (s.feWrite c.table c.index w)
      | _ => none

/-- Write a system register of the agent whose turn it is. -/
def State.setSysReg (s : State) (n : Nat) (w : Word) : Option State :=
  match s.agent with
  | .core lc => (s.top lc).bind fun f => s.setCoreReg lc f n w
  | .fe k => s.setFeReg k n w

/-- `mts`. -/
def execMts (r : BitVec 12) (a : Reg) (s : State) : Out :=
  s.run (.mts r a) fun v =>
    let s0 := s.pops (.mts r a)
    match s0.setSysReg r.toNat (v.getD 0 0) with
    | some s1 => s1.goTo (s1.hart.pc + 1)
    | none => s.illegal (.mts r a)

/-- `opreq n` and `opreq auto` (R406). -/
def opreqForm (i : Instr) (v : BitVec 5) (s : State) : Out := s.withFrame i fun lc _ _ => (s.writeOpreq lc v).retire i
def execOpreq (n : Fin 16) (s : State) : Out := opreqForm (.opreq n) (BitVec.ofNat 5 n.val) s
def execOpreqAuto (s : State) : Out := opreqForm .opreqAuto 16 s

/-! ### Fetching anew, traps, and returning (R407 to R409) -/

/-- `ifence`: once every store of the frame is performed, later fetches read memory. -/
def execIfence (s : State) : Out :=
  s.run .ifence fun _ =>
    s.storesDone fun _ =>
      (match s.agent with
        | .core lc => s.dropIcache (s.tileOf lc)
        | .fe _ => s).retire .ifence

/-- `trap` and `brk`: an ignored one has no effect. -/
def trapForm (i : Instr) (cls : Nat) (imm : BitVec 12) (s : State) : Out :=
  s.run i fun _ =>
    let v : Word := imm.zeroExtend 64
    if s.ignores cls then (s.ignore cls v).retire i else s.trap cls v
def execTrap (i : BitVec 12) (s : State) : Out := trapForm (.trap i) USER i s
def execBrk (i : BitVec 12) (s : State) : Out := trapForm (.brk i) BRK i s

/-- `eret`: the level and the address of FEPREV and FEEPC. It counts as retired. -/
def execEret (s : State) : Out :=
  s.run .eret fun _ =>
    match s.agent with
    | .core _ => s.illegal .eret
    | .fe n =>
      let c := s.fe n
      if c.prev > c.priv ∨ c.prev = 3 then s.illegal .eret else s.countRetired.feReturn n

/-- `pmpw n`. DESIGN CHOICE (log entry 99): of a wrong entry for a locked region at scheduler level ILLEGAL comes first; R53
does not order the two. -/
def execPmpw (n : Fin 16) (a : Reg) (s : State) : Out :=
  s.run (.pmpw n a) fun v =>
    let w := v.getD 0 0
    match s.agent with
    | .core _ => s.illegal (.pmpw n a)
    | .fe k =>
      let c := s.fe k
      if badRegion w then s.illegal (.pmpw n a)
      else if c.priv ≠ 2 ∧ bit (c.regions.get n) 62 then s.trap PROT (Config.pmpwProtVal s.tick)
      else (s.setFe k { c with regions := c.regions.set n.val (regionWord w) }).retire (.pmpw n a)

/-! ### The steps -/

/-- A write of OPREQ of a core (R70). -/
def execOpreqWrite (lc : Nat) (auto : Bool) (op : Fin 16) (s : State) : Out :=
  .next (s.writeOpreq lc (BitVec.ofNat 5 (auto.toNat * 16 + op.val)))

/-- A write of SEED by the agent whose turn it is (R258). -/
def execSeedWrite (w : Word) (s : State) : Out := .next (s.setHart (s.hart.load w))

/-- An access to FPSTAT waits for the sequencer: its next chunk runs, until it is empty (R254). -/
def execFpstatAccess (lc : Nat) (s : State) : Out :=
  .next (if s.goesOn lc && (s.top lc).any fun f => f.seq != [] then s.seqStep lc else s)

end Sys2Proof.Machine
end

