-- ==== Sys2Proof/Machine/Vcp.lean ====
section
/-! DEFINITION. Virtual command processors: what they share, the journal, signals, NOTIFY, reading the
ring, and the end of a packet (R33 to R41, R43, R44, R63, R64). -/

namespace Sys2Proof.Machine

/-! ### Packets (R39) -/

def Rec.op (p : Rec) : Nat := bits p.q0 0 8
def Rec.lap (p : Rec) : Nat := bits p.q0 8 8
def Rec.bar (p : Rec) : Bool := bit p.q0 16
def Rec.irq (p : Rec) : Bool := bit p.q0 17
def Rec.sop (p : Rec) : Nat := bits p.q0 20 4
def Rec.tag (p : Rec) : BitVec 32 := BitVec.ofNat 32 (bits p.q0 32 32)

/-- The STATUS codes (R33). -/
def ABORT := 1
def BADPKT := 2
def XLATE := 3
def LIMIT := 4
def OVERRUN := 5
def MEMERR := 6

/-- The operands of an op are outside their limits, or have a reserved bit set (R42). -/
def Rec.badOperands (p : Rec) : Bool :=
  match p.op with
  | 0 => [p.q3, p.q4, p.q5, p.q6, p.q7].any (· != 0)
  | 1 => bits p.q4 56 8 != 0 || bits p.q4 44 2 == 3 || p.q6 != 0
  | 2 => bits p.q5 40 24 != 0 || p.q6 != 0
  | 3 => bits p.q5 4 60 != 0 || bits p.q5 0 4 == 0 || decide (5 < bits p.q5 0 4) || p.q6 != 0 || p.q7 != 0
  | 4 => bits p.q6 2 62 != 0 || bits p.q6 0 2 == 0 || p.q7 != 0
  | 5 => [p.q4, p.q5, p.q6, p.q7].any (· != 0)
  | 6 => bits p.q4 7 57 != 0 || decide (4 < bits p.q4 4 3) || p.q6 != 0 || p.q7 != 0
  | _ => true

/-- A packet that R39 refuses to start. -/
def Rec.malformed (p : Rec) : Bool := decide (5 < p.sop) || bits p.q0 18 2 != 0 || bits p.q0 24 8 != 0 || p.badOperands

/-- The address of a packet's status word; 0 for none (R42). -/
def Rec.statusAddr (p : Rec) : Word :=
  match p.op with
  | 1 | 2 => p.q7
  | 6 => p.q5
  | _ => 0

/-- Absolute indices, modulo 2^24 (R33): how far a lies ahead of b. -/
def ahead (a b : Nat) : Nat := (a + 2 ^ 24 - b) % 2 ^ 24

/-- The lap of a sequence number (R36). -/
def lapOf (n lgsz : Nat) : Nat := 1 + n / 2 ^ lgsz % 255

/-! ### Accesses of the front end for a packet (R41, R42, R44) -/

/-- The number under which a packet's accesses to other modules and to the host stand among the engines', for
each granule of a COPY and for the rest. -/
def granuleKey (f v i g : Nat) : Nat := 2 ^ 20 + (((16 * f + v) * 2 ^ 24 + i) * 2 ^ 40 + g) * 2048 + 1024
def packetKey (f v i : Nat) : Nat := granuleKey f v i (2 ^ 40 - 1)
/-- The number of a COPY among the engines, for the chunks that its quay copy engine holds (R202). -/
def copyKey (f v i : Nat) : Nat := granuleKey f v i (2 ^ 40 - 2)

/-- Forget the accesses of every packet of a VCP. -/
def keyOfVcp (f v key : Nat) : Bool :=
  2 ^ 20 ≤ key && (key - 2 ^ 20) % 2048 == 1024 && (key - 2 ^ 20) / 2048 / 2 ^ 64 == 16 * f + v
def State.forgetVcp (s : State) (f v : Nat) : State :=
  { s with prog := { s.prog with eng := s.prog.eng.filter fun x => !keyOfVcp f v x.1 } }

/-- An access to another module or to the host waits for its answer, which stays until it is forgotten. A
store without a route waits for one, any other access ends as one at an uncorrectable word (R14, R21). -/
def State.reach (s : State) (f key pa tag : Nat) (op : RemoteOp) : Eng :=
  let a := ofN pa
  match findEng key a tag s.prog.eng with
  | some ⟨_, _, _, none⟩ => .wait s
  | some ⟨_, _, _, some (.data bs)⟩ => .ok bs s
  | some ⟨_, _, _, some (.refused c)⟩ => if c = DATA then .bad s else .fault s
  | none =>
    match s.region pa with
    | .remote d _ =>
      if s.routed d then .wait ((s.noteEng key ⟨a, tag, true, none⟩).addRemote ⟨4096 + key, 0, a, op⟩)
      else if isStore op then .wait s
      else .bad s
    | _ => .wait ((s.noteEng key ⟨a, tag, true, none⟩).addHostReq (freeTag s.mem.hostReqs) ⟨engAgent key, 0, f, pa, op, none⟩)

/-- Done what follows an access: it gets the STATUS code, 0 where the access succeeded. -/
def Eng.code (e : Eng) (k : Nat → State → State) : State :=
  match e with
  | .ok _ s => k 0 s
  | .fault s => k XLATE s
  | .bad s => k MEMERR s
  | .wait s => s

/-- Read n bytes within a page of a function's memory, for a holder. -/
def State.fnRead (s : State) (f key va n need : Nat) (holder : Nat := frontHolder key) : Eng :=
  match s.vaSpan f va n need holder with
  | .trap _ => .fault (s.meetWalk 0 (s.fnCtx f) va)
  | .wait s1 => .wait s1
  | .pas l s1 =>
    match s1.region (l.headD 0) with
    | .remote _ _ | .host => s1.reach f key (l.headD 0) 0 (.load n)
    | _ => if l.any s1.portFailed || s1.anyBad l then .bad (s1.meetUe l) else .ok (gatherBytes s1.mem.bytes l) s1

/-- What a packet has done once it does not do again while it waits for another access: a note of it, by
virtual address and purpose. -/
def State.once (s : State) (key : Nat) (va : Word) (tag : Nat) (k : Unit → Eng) : Eng :=
  match findEng key va (tag + 8) s.prog.eng with
  | some ⟨_, _, _, some (.refused c)⟩ => if c = DATA then .bad s else .fault s
  | some _ => .ok [] s
  | none =>
    match k () with
    | .ok bs s1 => .ok bs (s1.noteEng key ⟨va, tag + 8, true, some (.data [])⟩)
    | .bad s1 => .bad (s1.noteEng key ⟨va, tag + 8, true, some (.refused DATA)⟩)
    | .fault s1 => .fault (s1.noteEng key ⟨va, tag + 8, true, some (.refused ADDRESS)⟩)
    | .wait s1 => .wait s1

/-- Write bytes within a page of a function's memory, for a holder. -/
def State.fnWrite (s : State) (f key va : Nat) (bs : List Byte) (need : Nat) (holder : Nat := frontHolder key) : Eng :=
  match s.vaSpan f va bs.length need holder with
  | .trap _ => .fault (s.meetWalk 0 (s.fnCtx f) va)
  | .wait s1 => .wait s1
  | .pas l s1 =>
    match s1.region (l.headD 0) with
    | .remote _ _ => s1.reach f key (l.headD 0) 1 (.store bs)
    | .host => if s1.hostBusy l then .wait s1 else .ok [] (s1.hostWrite f l bs)
    | _ => if l.any s1.portFailed || !s1.storable l then .bad (s1.meetUe l) else .ok [] ((s1.homeWrite l).writeMem l bs)

/-- Write a doubleword at an 8-byte aligned address. -/
def State.fnWord (s : State) (f key : Nat) (a w : Word) : Eng :=
  s.once key a 1 fun _ => if a.toNat % 8 ≠ 0 then .fault s else s.fnWrite f key a.toNat (leBytes 8 w.toNat) needW

/-! ### The journal (R63, R64, R405) -/

def State.journalMode (s : State) (p : Nat) : Nat := bits (s.entry 20 (2 * p)) 0 2
def State.journalSize (s : State) (p : Nat) : Nat := 2 ^ bits (s.entry 20 (2 * p)) 4 5
def State.journalBase (s : State) (p : Nat) : Nat := s.physByte (bits (s.entry 20 (2 * p)) 12 40 * 4096)
def State.journalSeq (s : State) (p : Nat) : Nat := bits (s.entry 20 (2 * p + 1)) 0 32

/-- Write the next entry of a journal: its head, and a body of words at offsets. -/
def State.journalPut (s : State) (p kind f v : Nat) (body : Words) : State :=
  let q := s.journalSeq p
  let b := s.journalBase p + 128 * (q % s.journalSize p)
  let head := [s.timestamp, ofN (q + kind * 2 ^ 32 + f * 2 ^ 40 + v * 2 ^ 48)]
  let s1 := (s.zeroRange b 128).putWords b (wordsFrom 0 head ++ body)
  { s1.setEntry 20 (2 * p + 1) (ofN ((q + 1) % 2 ^ 32)) with
    journalUsed := tput p (tget 0 s.journalUsed p + 1) s.journalUsed }

/-- The ring has a slot. -/
def State.journalRoom (s : State) (p : Nat) : Bool := tget 0 s.journalUsed p < s.journalSize p

/-- The gap entry of the entries that were not written. -/
def State.journalGapPut (s : State) (p : Nat) : State :=
  let n := tget 0 s.journalGap p
  if n = 0 ∨ s.journalRoom p = false then s
  else { s.journalPut p 6 0 255 [(0x10, ofN n)] with journalGap := tdel p s.journalGap }

/-- Journal an event of a kind before it takes effect: a full ring counts it. -/
def State.journal (s : State) (p kind f v : Nat) (body : Words) : State :=
  let m := s.journalMode p
  if m = 0 ∨ (kind = 3 ∧ m ≠ 2) then s
  else
    let s1 := s.journalGapPut p
    if tget 0 s1.journalGap p = 0 ∧ s1.journalRoom p = true then s1.journalPut p kind f v body
    else { s1 with journalGap := tput p (tget 0 s1.journalGap p + 1) s1.journalGap }.count cJDROP p

/-- A gap entry follows as soon as a slot frees. -/
def execJournalGapEntry (p : Nat) (s : State) : Out := .next (if s.journalMode p = 0 then s else s.journalGapPut p)

/-! ### Signals (R41) -/

/-- What a signal operation leaves. -/
def signalNew (op : Nat) (v old : Word) : Word :=
  match op with
  | 1 => old + v
  | 2 => old - v
  | 3 => v
  | 4 => if old.toInt < v.toInt then v else old
  | _ => if v.toInt < old.toInt then v else old

/-- The atomic that does it in host memory or in another module. -/
def signalRemote (op : Nat) (v : Word) : RemoteOp :=
  match op with
  | 1 => .atomic 1 true v 0 0 0
  | 2 => .atomic 1 true (-v) 0 0 0
  | 3 => .atomic 0 true v 0 0 0
  | 4 => .atomic 6 true v 0 0 0
  | _ => .atomic 5 true v 0 0 0

/-- The journal entry of a signal operation. -/
def State.journalSignal (s : State) (f v : Nat) (a x : Word) (op : Nat) (new : Word) : State :=
  s.journal (s.fnPart f) 4 f v (wordsFrom 0x10 [a, x, ofN op, new])

/-- The word of a signal in another module or in host memory is read before its operation, for the entry that the journal
has of it (R63, R64; log entry 72). -/
def State.signalOld (s : State) (f key tag pa : Nat) : Eng :=
  if s.journalMode (s.fnPart f) = 0 then .ok [] s else s.reach f key pa (tag + 16) (.load 8)

/-- The operation on such a word, behind its journal entry. -/
def State.signalAway (s : State) (f v key tag : Nat) (a : Word) (op : Nat) (x : Word) (pa : Nat) : Eng :=
  if (findEng key (ofN pa) tag s.prog.eng).isSome then s.reach f key pa tag (signalRemote op x)
  else
    match s.signalOld f key tag pa with
    | .ok bs s1 => (s1.journalSignal f v a x op (signalNew op x (ofN (leNat bs)))).reach f key pa tag (signalRemote op x)
    | e => e

/-- A signal operation of a packet. A host word that answers with an error fails translation. -/
def State.signal (s : State) (f v key tag : Nat) (a : Word) (op : Nat) (x : Word) : Eng :=
  s.once key a tag fun _ =>
    if a.toNat % 8 ≠ 0 then .fault s
    else
      match s.vaSpan f a.toNat 8 needW (frontHolder key) with
      | .trap _ => .fault (s.meetWalk 0 (s.fnCtx f) a.toNat)
      | .wait s1 => .wait s1
      | .pas l s1 =>
        let pa := l.headD 0
        match s1.region pa with
        | .remote _ _ => s1.signalAway f v key tag a op x pa
        | .host =>
          match s1.signalAway f v key tag a op x pa with
          | .bad s2 => .fault s2
          | e => e
        | _ =>
          if l.any s1.portFailed || s1.anyBad l then .bad (s1.meetUe l)
          else
            let new := signalNew op x (ofN (s1.readMem l))
            .ok [] (((s1.journalSignal f v a x op new).homeWrite l).writeMem l (leBytes 8 new.toNat))

/-- Error propagation: smin with −2 (R41). -/
def State.propagate (s : State) (f v key tag : Nat) (a : Word) : Eng := s.signal f v key tag a 5 (-2)

/-- Error propagation on a packet's completion signal, where it names a valid operation. -/
def State.propagateSop (s : State) (f v key : Nat) (p : Rec) : Eng :=
  if 1 ≤ p.sop ∧ p.sop ≤ 5 then s.propagate f v key 3 p.q1 else .ok [] s

/-! ### The VCP's own state -/

/-- STATUS takes a packet's tag, index and code. -/
def Vcp.blame (x : Vcp) (tag : BitVec 32) (index code : Nat) : Vcp := { x with tag := tag, index := index, code := code }

/-- The error state (R43). -/
def Vcp.fail (x : Vcp) (tag : BitVec 32) (index code : Nat) : Vcp := { x.blame tag index code with state := .error }

/-- head moves past a packet; done follows what has completed (R40). -/
def Vcp.settleDone (x : Vcp) : Vcp := { x with done := (x.started.head?.map Started.index).getD x.head }
def Vcp.advance (x : Vcp) : Vcp :=
  { x with
    restored := tdel x.head x.restored, head := (x.head + 1) % 2 ^ 24, seq := x.seq + 1, fetched := none, missed := false,
    admitted := none, pmap := [] }

/-- A VCP that is to be disabled is, once nothing is started (R35). -/
def Vcp.close (x : Vcp) : Vcp :=
  if x.closing ∧ x.started = [] then { x with closing := false, state := .disabled, fetched := none } else x

/-- A resume takes effect (R35, R43). -/
def Vcp.resumed (x : Vcp) : Vcp := { x with state := .running, code := 0, index := 0, resume := false }

/-- A discard that has reached its end is over, and a resume that waited takes effect (R43). -/
def Vcp.endDiscard (x : Vcp) : Vcp :=
  if x.discard.any fun n => n ≤ x.seq then
    let y := { x with discard := none, paused := false }
    if y.resume then y.resumed else y
  else x

/-- One packet more is counted. -/
def Vcp.tally (x : Vcp) : Vcp := { x with pktcnt := x.pktcnt + 1 }

/-- Packets are ahead of head. -/
def Vcp.ready (x : Vcp) : Bool := x.head != x.tail

/-- Set the MSI-X vector of a VCP pending where a packet asks for it. -/
def State.raiseIrq (s : State) (f v : Nat) (p : Rec) : State :=
  if p.irq then s.setFunc f { s.func f with pba := (s.func f).pba ||| BitVec.ofNat 17 (2 ^ v) } else s

/-- The packets of a function go on: it is bound, no reset runs, and its partition is not saved, restored or
killed (R32, R45, R236). They start while no migration saves it (R46). -/
def State.runsPackets (s : State) (f : Nat) : Bool := s.bound f && !(s.func f).flr && s.partState (s.fnPart f) ≤ 2
def State.startsPackets (s : State) (f : Nat) : Bool := s.runsPackets f && s.service.migVf != some f

/-- Those of a VCP: no vreset of it is under way (R35). -/
def State.vcpRuns (s : State) (f v : Nat) : Bool := s.runsPackets f && !(s.vcp f v).resetting
def State.vcpStarts (s : State) (f v : Nat) : Bool := s.startsPackets f && !(s.vcp f v).resetting

/-- The packet at head may start: barriers let it (R40). -/
def Vcp.mayStart (x : Vcp) (p : Rec) : Bool :=
  x.state == .running && !x.closing && x.started.all (fun q => !q.p.bar) && (!p.bar || x.started == [])

/-! ### The control word (R35, R45) -/

/-- What a VCP's launches hit: their slots and whole time words, those homed here and those that another module homes. -/
def State.launchTimes (s : State) (f v : Nat) : List (Nat × Word) :=
  (s.prog.roots.flatMap fun e =>
    (e.2.launches.filter fun l => l.dev == s.devid.toNat && l.packet.any fun k => k.1 == f && k.2.1 == v).map fun l => (e.1, l.t)) ++
  ((s.vcp f v).started.filter fun q => q.p.op == 1 && q.ending.isNone && !s.homed (bits q.p.q4 46 4)).map fun q =>
    (bits q.p.q4 46 4, q.p.q5)
def timesHit (l : List (Nat × Word)) : Victim := fun g t => l.any fun x => x.1 == g && t.any fun u => matchesPrefix u x.2 (depthOf x.2)

/-- Requests of packets that are given up: stores stay until they are acknowledged, under a level no frame has. -/
def State.dropAsks (s : State) (mine : Nat → Bool) : State :=
  let own := fun r : RemoteReq => decide (4096 ≤ r.lc) && mine (r.lc - 4096)
  { s with
    prog := { s.prog with
      remote := (s.prog.remote.filter fun r => !(own r && r.op matches .load _)).map fun r =>
        if own r ∧ r.level < 8 then { r with level := r.level + 8 } else r
      eng := s.prog.eng.filter fun x => !mine x.1 }
    mem := { s.mem with hostReqs := s.mem.hostReqs.filter fun e => !(match e.2.agent with
      | .core k => decide (4096 ≤ k) && mine (k - 4096) && (e.2.op matches .load _)
      | .fe _ => false) } }

/-- A signal lies outside a function's own device memory: in host memory, at an address of remote form, or in memory of
another function (R45; log entry 95). -/
def State.outsideOwn (s : State) (f : Nat) (a : Word) : Bool :=
  match s.walkCtx (s.fnCtx f) a.toNat with
  | .leaf e _ =>
    let pa := bits e 16 36 * 2 ^ 16
    decide (0x2000000000000 ≤ pa) || Config.pageOwner s.tick (pa / 65536) != f
  | _ => false

/-- Error propagation at a reset, on the signal of the packet at an index: only outside the function's own memory. -/
def State.propagateOut (s : State) (f v i : Nat) (p : Rec) : Eng :=
  if p.sop = 0 ∨ 5 < p.sop ∨ s.outsideOwn f p.q1 = false then .ok [] s else s.propagate f v (packetKey f v i) 3 p.q1

/-- The same for packets by index, one after another; the second part says whether all have been. -/
def State.propagateAll (s : State) (f v : Nat) : List (Nat × Rec) → State × Bool
  | [] => (s, true)
  | (i, p) :: l =>
    match s.propagateOut f v i p with
    | .wait s1 => (s1, false)
    | .ok _ s1 | .bad s1 | .fault s1 => s1.propagateAll f v l

/-- The words of 64 bytes. -/
def recOfBytes (bs : List Byte) : Rec :=
  let w := leNat bs
  Rec.ofWords ((span 0 8).map fun i => ofN (w / 2 ^ (64 * i)))

/-- What a slot of the ring holds: its packet, none where it has the wrong lap or cannot be read; or a wait for the read. -/
inductive Slots where
  | ok (l : List (Nat × Option Rec)) (s : State) | wait (s : State)
  deriving DecidableEq, Repr

/-- The packet k places after head: that of a migration image, the one that has been fetched, or as it stands in the ring. -/
def State.ringSlot (s : State) (f v : Nat) (x : Vcp) (k : Nat) : Slots :=
  let i := (x.head + k) % 2 ^ 24
  match tfind x.restored i, (if k = 0 then x.fetched else none) with
  | some p, _ | none, some p => .ok [(k, some p)] s
  | none, none =>
    match s.fnRead f (packetKey f v i) (x.base.toNat + 64 * ((x.seq + k) % 2 ^ x.lgsz)) 64 needR with
    | .ok bs s1 => let p := recOfBytes bs; .ok [(k, if p.lap = lapOf (x.seq + k) x.lgsz then some p else none)] s1
    | .wait s1 => .wait s1
    | .bad s1 | .fault s1 => .ok [(k, none)] s1

def State.ringSlots (s : State) (f v : Nat) (x : Vcp) : List Nat → Slots
  | [] => .ok [] s
  | k :: l =>
    match s.ringSlot f v x k with
    | .wait s1 => .wait s1
    | .ok a s1 =>
      match s1.ringSlots f v x l with
      | .ok b s2 => .ok (a ++ b) s2
      | e => e

/-- The packets of a VCP that have been notified and not started. -/
def State.unstarted (s : State) (f v : Nat) : Slots :=
  let x := s.vcp f v
  s.ringSlots f v x (span 0 (ahead x.tail x.head))

/-- The launches of a VCP are cancelled at job level: marks, and a kill of their frames and records (R110). -/
def State.cancelVcp (s : State) (f v : Nat) : State :=
  let l := s.launchTimes f v
  let s1 := l.foldl (fun s x => s.installLate x.1 ⟨x.2, depthOf x.2, false⟩) s
  let s2 := s1.killSlots (timesHit l)
  { s2 with prog := { s2.prog with roots := s2.prog.roots.map fun e =>
      (e.1, { e.2 with launches := e.2.launches.map fun l =>
        if l.dev == s.devid.toNat && l.packet.any (fun k => k.1 == f && k.2.1 == v) then { l with packet := none } else l }) } }

/-- A VCP is given up: what it has asked for is dropped, and no call is made for it. -/
def State.quietVcp (s : State) (f v : Nat) : State := (s.dropAsks (keyOfVcp f v)).dropCalls f v

/-- A store of a VCP's packets is still on its way to another module. -/
def State.vcpWrites (s : State) (f v : Nat) : Bool :=
  s.prog.remote.any fun r => isStore r.op && decide (4096 ≤ r.lc) && keyOfVcp f v (r.lc - 4096)

/-- A VCP that has been given up is at its reset values, once its copies' writes have landed (R241) and the packets that have not started have been read: they and
those that have started propagate errors outside their function's memory (R35, R45). The second part says whether it is. -/
def State.wipeVcp (s : State) (f v : Nat) : State × Bool :=
  if s.vcpWrites f v then (s, false) else
  match s.unstarted f v with
  | .wait s1 => (s1, false)
  | .ok l s1 =>
    let x := s.vcp f v
    let ps := x.started.map (fun q => (q.index, q.p)) ++ l.filterMap fun y => y.2.map fun p => ((x.head + y.1) % 2 ^ 24, p)
    match s1.propagateAll f v ps with
    | (s2, false) => (s2, false)
    | (s2, true) => ((s2.forgetVcp f v).setVcp f v Vcp.reset, true)

/-- vreset = 1, at once or as the read of its ring goes on. -/
def State.vreset (s : State) (f v : Nat) : State :=
  let s1 := if (s.vcp f v).resetting then s else
    let s0 := (s.cancelVcp f v).quietVcp f v
    s0.setVcp f v { s0.vcp f v with resetting := true }
  (s1.wipeVcp f v).1

/-- resume = 1. -/
def Vcp.resumeCtl (x : Vcp) : Vcp :=
  if x.state ≠ .error then x else if x.discard.isSome then { x with resume := true } else x.resumed

/-- The address in a ring that does not translate for reading, if one does not. -/
def State.ringFault (s : State) (f : Nat) (base : Word) (lgsz : Nat) : Option Nat :=
  ((span 0 ((2 ^ (lgsz + 6) + 65535) / 65536 + 1)).map fun k => base.toNat + min (65536 * k) (2 ^ (lgsz + 6) - 1)).find? fun a =>
    match s.vaSpan f a 1 needR with
    | .trap _ => true
    | _ => false
def State.ringOk (s : State) (f : Nat) (base : Word) (lgsz : Nat) : Bool := (s.ringFault f base lgsz).isNone

/-- A walk of the check of a ring that meets an uncorrectable entry is counted (R200). -/
def State.meetRing (s : State) (f : Nat) (x : Vcp) : State :=
  let lg := bits x.ringsz 0 5
  if lg < 6 ∨ 16 < lg then s
  else
    match s.ringFault f x.ringbase lg with
    | some a => s.meetWalk 0 (s.fnCtx f) a
    | none => s

/-- enable = 1 in the disabled state (R33, R35). -/
def State.enableVcp (s : State) (f : Nat) (x : Vcp) : Vcp :=
  let lg := bits x.ringsz 0 5
  if lg < 6 ∨ 16 < lg ∨ s.ringOk f x.ringbase lg = false then { x with code := BADPKT }
  else
    { x with
      state := .running, head := 0, done := 0, seq := 0, tail := 0, base := x.ringbase, lgsz := lg, fetched := none,
      started := [], missed := false, discard := none, paused := false, resume := false, restored := [], admitted := none,
      pmap := [] }

/-- enable = 0 outside the disabled state. -/
def Vcp.disableCtl (x : Vcp) : Vcp := Vcp.close { x with closing := true, discard := none, paused := false, resume := false }

/-- The part of CTL after vreset. -/
def State.actCtl (s : State) (f v : Nat) : State :=
  let x := s.vcp f v
  let x1 := if bit x.ctl 1 then x.resumeCtl else x
  let x2 :=
    if bit x.ctl 0 then (if x1.state = .disabled then s.enableVcp f x1 else x1)
    else if x1.state = .disabled then x1 else x1.disableCtl
  (if bit x.ctl 0 ∧ x1.state = .disabled then s.meetRing f x1 else s).setVcp f v { x2 with ctl := setBits x.ctl 1 2 0 }

/-- The tail of a NOTIFY (R34, R35, R43): a stale VCP polls again, a discard that an expired poll stopped goes on. -/
def Vcp.takeTail (x : Vcp) (t : Nat) : Vcp :=
  if x.state = .disabled then x
  else
    let d := ahead t x.done
    if d > 2 ^ x.lgsz then x.fail 0 x.tail OVERRUN
    else
      let y := if d < ahead x.tail x.done then x else { x with tail := t }
      { y with state := if y.state = .stale then .running else y.state, missed := false, paused := false }

/-- The front end takes a NOTIFY. -/
def State.takeNotify (s : State) (f v : Nat) (w : BitVec 32) : State :=
  if f ≥ 64 ∨ v ≥ 16 ∨ (s.func f).flr then s
  else if bit (s.vcp f v).ctl 2 || (s.vcp f v).resetting then s.vreset f v
  else
    let s1 := s.actCtl f v
    s1.setVcp f v ((s1.vcp f v).takeTail (w.toNat % 2 ^ 24))

/-- A NOTIFY of a VCP that repeats its tail, where CTL has something for it to act on. Each of the four steps on CTL is the
processing of such a NOTIFY, since the front end reads CTL at no other time (R33, R35); at an enable the tail is 0. -/
def State.onCtl (s : State) (f v t : Nat) (p : Vcp → Bool) : Out :=
  .next (if p (s.vcp f v) then s.takeNotify f v (BitVec.ofNat 32 t) else s)

/-- vreset = 1; and the read of its ring goes on. -/
def execVcpVreset (f v : Nat) (s : State) : Out := s.onCtl f v (s.vcp f v).tail fun x => bit x.ctl 2 || x.resetting
def execVcpResume (f v : Nat) (s : State) : Out := s.onCtl f v (s.vcp f v).tail fun x => bit x.ctl 1
def execVcpEnable (f v : Nat) (s : State) : Out := s.onCtl f v 0 fun x => bit x.ctl 0 && x.state == .disabled
def execVcpDisable (f v : Nat) (s : State) : Out :=
  s.onCtl f v (s.vcp f v).tail fun x => !bit x.ctl 0 && x.state != .disabled

/-! ### Reading the ring (R36, R37, R39, R43) -/

/-- Read the slot at head: a packet of a migration image is there already. A read of host memory that completes with an
error counts as one of an uncorrectable word (log entry 70). -/
def State.readSlot (s : State) (f v : Nat) (x : Vcp) (k : Rec → State → State) (bad : Nat → State → State) : State :=
  match tfind x.restored x.head with
  | some p => k p s
  | none =>
    let key := packetKey f v x.head
    match s.fnRead f key (x.base.toNat + 64 * (x.seq % 2 ^ x.lgsz)) 64 needR with
    | .ok bs s1 =>
      let p := recOfBytes bs
      let s2 := s1.forgetKey key
      if p.lap = lapOf x.seq x.lgsz then k p s2 else s2.setVcp f v { x with missed := true }
    | .fault s1 => bad XLATE (s1.forgetKey key)
    | .bad s1 => bad MEMERR (s1.forgetKey key)
    | .wait s1 => s1

/-- A packet is passed over with error propagation: a malformed one, or one that is discarded. -/
def State.passOver (s : State) (f v : Nat) (p : Rec) (target : Bool) (k : Vcp → Vcp) : State :=
  let key := packetKey f v (s.vcp f v).head
  (s.propagateSop f v key p).code fun c s1 =>
    (if target then s1.propagate f v key 4 p.q3 else Eng.ok [] s1).code fun d s2 =>
      let s3 := s2.forgetKey key
      let x := k (s3.vcp f v)
      (s3.setVcp f v { x with perr := x.perr || c != 0 || d != 0 }).raiseIrq f v p

/-- A malformed packet at head (R39, R44). -/
def State.rejectMalformed (s : State) (f v : Nat) (p : Rec) : State :=
  s.passOver f v p false fun x => ((x.fail p.tag x.head BADPKT).advance.settleDone).tally

/-- One step of a discard (R43). -/
def State.discardOne (s : State) (f v : Nat) (x : Vcp) : State :=
  let skip := fun (_ : Nat) (s : State) =>
    s.setVcp f v { ((s.vcp f v).advance.settleDone).endDiscard with perr := true }
  let go := fun (p : Rec) (s : State) => s.passOver f v p (p.op == 3) fun x => ((x.advance.settleDone).tally).endDiscard
  match x.fetched with
  | some p => go p s
  | none => s.readSlot f v x go skip

/-- Read the packet at head, or go on with a discard; a malformed packet that could start stops the VCP. -/
def execPacketFetch (f v : Nat) (s : State) : Out :=
  let x := s.vcp f v
  if f ≥ 64 ∨ v ≥ 16 ∨ s.vcpRuns f v = false ∨ x.closing then .next s
  else if x.state = .error ∧ x.discard.isSome then .next (if x.paused then s else s.discardOne f v x)
  else if x.state ≠ .running ∨ s.vcpStarts f v = false then .next s
  else
    match x.fetched with
    | some p => .next (if p.malformed && x.mayStart p then s.rejectMalformed f v p else s)
    | none =>
      if !x.ready then .next s
      else
        .next (s.readSlot f v x
          (fun p s =>
            let s1 := s.journal (s.fnPart f) 2 f v (wordsFrom 0x10 p.words ++ [(0x50, ofN x.head)])
            s1.setVcp f v { x with fetched := some p, missed := false })
          (fun c s => s.setVcp f v (x.fail 0 x.head c)))

/-- The poll bound expires: the VCP goes stale, or its discard stops (R37, R43). -/
def execPollBoundExpire (f v : Nat) (s : State) : Out :=
  let x := s.vcp f v
  if !x.missed then .next s
  else if x.state = .running then
    .next (s.setVcp f v { x with state := .stale, stalecnt := x.stalecnt + 1, missed := false })
  else if x.state = .error ∧ x.discard.isSome then
    .next (s.setVcp f v { x with paused := true, stalecnt := x.stalecnt + 1, missed := false })
  else .next s

/-! ### Starting and ending a packet (R40, R44) -/

/-- A started packet that has done nothing. -/
def Started.new (x : Vcp) (p : Rec) : Started :=
  { index := x.head, uid := 0, seq := x.seq, p := p, moved := [], skipped := 0, fault := none, proxy := [none, none, none], matched := 0,
    limit := 0, ending := none, failed := none }

/-- The packet at head starts. -/
def State.startPacket (s : State) (f v : Nat) (q : Started) : State :=
  let x := s.vcp f v
  s.setVcp f v ({ x with started := x.started ++ [{ q with uid := s.tick }] }.advance)

/-- An address that a packet will write is right: 8-byte aligned and writable, or none (R44 check 2). -/
def State.checkAddr (s : State) (f : Nat) (a : Option Word) : Eng :=
  match a with
  | none => .ok [] s
  | some a =>
    if a.toNat % 8 ≠ 0 then .fault s
    else
      match s.vaSpan f a.toNat 8 needW with
      | .pas _ _ => .ok [] s
      | .trap _ => .fault (s.meetWalk 0 (s.fnCtx f) a.toNat)
      | .wait _ => .wait s

/-- The completion-signal address of a packet, and its status word's, where it has them. -/
def Rec.signalAt (p : Rec) : Option Word := if p.sop = 0 then none else some p.q1
def Rec.statusAt (p : Rec) : Option Word := if p.statusAddr = 0 then none else some p.statusAddr

/-- Start the packet of an op at head, once its addresses have been checked: a failed check ends it with XLATE
and no effect. -/
def State.begin (s : State) (f v op : Nat) (k : Vcp → Rec → State) : Out :=
  let x := s.vcp f v
  let fail := fun (p : Rec) (a : Option Word) (s : State) =>
    s.startPacket f v { Started.new x p with ending := some (.error XLATE, none), failed := a }
  if f ≥ 64 ∨ v ≥ 16 ∨ s.vcpStarts f v = false then .next s
  else
    match x.fetched with
    | none => .next s
    | some p =>
      if p.op ≠ op ∨ p.malformed ∨ x.mayStart p = false then .next s
      else
        match s.checkAddr f p.signalAt with
        | .fault s1 | .bad s1 => .next (fail p p.signalAt s1)
        | .wait s1 => .next s1
        | .ok _ s1 =>
          match s1.checkAddr f p.statusAt with
          | .fault s2 | .bad s2 => .next (fail p p.statusAt s2)
          | .wait s2 => .next s2
          | .ok _ _ => .next (k x p)

/-- A packet that is over leaves: STATUS and perr, done, the count, and its interrupt. -/
def State.finishPacket (s : State) (f v : Nat) (q : Started) (e : PacketEnd) (perr : Bool) : State :=
  let x := s.vcp f v
  let x1 := { x with started := x.started.filter fun y => y.index != q.index }.settleDone.tally
  let x2 := match e with
    | .error c => { (if c = 0 then x1 else x1.blame q.p.tag q.index c) with perr := true }
    | _ => { x1 with perr := x1.perr || perr }
  (s.setVcp f v x2.close).raiseIrq f v q.p

/-- How a packet ends after an access of its completion answered with a code. -/
def PacketEnd.meet (e : PacketEnd) (c : Nat) : PacketEnd :=
  match e, c with
  | e, 0 => e
  | .ok, c => .error c
  | .error 0, c => .error c
  | e, _ => e

/-- A packet that is over completes: its status word, its completion signal or error propagation on it, then
done and the interrupt. A status word in an uncorrectable codeword ends it with MEMERR (log entry 70). A signal whose own
address has failed gets no error propagation (R44). -/
def State.completePacket (s : State) (f v : Nat) (q : Started) (e : PacketEnd) (w : Option Word) : State :=
  let key := packetKey f v q.index
  let put : Eng := match w with
    | some w => if q.p.statusAddr = 0 then .ok [] s else s.fnWord f key q.p.statusAddr w
    | none => .ok [] s
  put.code fun c s1 =>
    let e1 := e.meet c
    let spared := q.failed == some q.p.q1 || (c != 0 && q.p.statusAddr == q.p.q1)
    let sig : Eng :=
      if q.p.sop = 0 then .ok [] s1
      else if e1 = .ok then s1.signal f v key 2 q.p.q1 q.p.sop q.p.q2
      else if spared then .ok [] s1
      else s1.propagate f v key 3 q.p.q1
    sig.code fun d s2 => (s2.forgetKey key).finishPacket f v q (if e1 = .ok then e1.meet d else e1) (d != 0)

end Sys2Proof.Machine
end

