-- ==== Sys2Proof/Machine/Packets.lean ====
section
/-! DEFINITION. The packets of a VCP and the external LAUNCH (R22, R42 to R44, R49, R55, R126, R132, R136). -/

namespace Sys2Proof.Machine

/-! ### Plug-in calls (R55, R56) -/

/-- ADMIT and PMAP of a LAUNCH (R55). -/
def execAdmitCall (f v : Nat) (r : PlugRes) (s : State) : Out := .next (s.madeCall (s.fnPlug f) (.letIn f v) r)
def execPmap (f v level : Nat) (r : PlugRes) (s : State) : Out := .next (s.madeCall (s.fnPlug f) (.pmap f v level) r)

/-- LWEIGHT of a landing. -/
def execLweight (g st : Nat) (r : PlugRes) (s : State) : Out := .next (s.madeCall (s.fnPlug (s.fnOf g)) (.lweight g st) r)

/-- OPVOTE of a partition. -/
def execOpvote (p : Nat) (r : PlugRes) (s : State) : Out :=
  .next (match s.partPlug p with
    | none => s
    | some n => s.madeCall n (.opvote p) r)

/-- A call runs past its budget: the scheduler ends it and has its core back, and the fallback applies. -/
def execPluginBudgetOverrun (n : Nat) (s : State) : Out :=
  let x := s.plugin n
  match x.running with
  | some (core, _) =>
    let y := s.fe core
    if !s.pastBudget x then .next s
    else
      .next ((s.setFe core { y with
        priv := 1, h := { y.h with pc := (Config.feTrapEntry core 1).toNat / 4, sent := [], stalled := false } }).takeResult n .overrun)
  | none => .next s

/-- ADMIT for a LAUNCH, and PMAP for one of its levels. -/
def State.askAdmit (s : State) (f v : Nat) (p : Rec) : State :=
  s.raiseOnce (s.fnPlug f) ⟨.letIn f v, [ofN f, ofN v, ofN (bits p.q4 46 4), ofN (bits p.q4 50 6), ofN (bits p.q4 0 24), p.q5]⟩
def State.askPmap (s : State) (f v level : Nat) : State := s.raiseOnce (s.fnPlug f) ⟨.pmap f v level, [ofN level, ofN f]⟩

/-! ### LAUNCH (R42, R49, R126, R132, R136) -/

/-- The operands of P4. -/
def Rec.lCount (p : Rec) : Nat := bits p.q4 0 24
def Rec.lFirst (p : Rec) : Nat := bits p.q4 24 10
def Rec.lLast (p : Rec) : Nat := bits p.q4 34 10
def Rec.lMode (p : Rec) : Nat := bits p.q4 44 2
def Rec.lGraph (p : Rec) : Nat := bits p.q4 46 4
def Rec.lStation (p : Rec) : Nat := bits p.q4 50 6

/-- Reading a record array. -/
inductive Records where
  | ok (l : List Rec) (s : State) | fail (code va : Nat) (s : State) | wait (s : State)
  deriving DecidableEq, Repr

def State.readRecords (s : State) (f key va : Nat) : Nat → Records
  | 0 => .ok [] s
  | n + 1 =>
    match s.fnRead f key va 64 needR with
    | .fault s1 => .fail XLATE va s1
    | .bad s1 => .fail MEMERR va s1
    | .wait s1 => .wait s1
    | .ok bs s1 =>
      match s1.readRecords f key (va + 64) n with
      | .ok l s2 => .ok (recOfBytes bs :: l) s2
      | e => e

/-- The records of a LAUNCH. One of no record reads none: its array is not looked at (R49; log entry 96). -/
def State.launchRecords (s : State) (f key : Nat) (p : Rec) : Records :=
  let n := if p.lMode = 2 then 1 else p.lCount
  if n = 0 then .ok [] s else if p.q3.toNat % 64 ≠ 0 then .fail XLATE p.q3.toNat s else s.readRecords f key p.q3.toNat n

/-- The completion point of a launch: none where P5 is not a time of its station, or the exit is not reached
(R126, R136). -/
def State.launchPoint (s : State) (p : Rec) : Option Word :=
  (s.graph p.lGraph).bind fun g =>
    if p.lStation < g.stations ∧ wellFormedTime p.q5 = true ∧ depthOf p.q5 = g.depth p.lStation ∧
        sumV (g.path p.lStation g.exit) = true then applySum (g.path p.lStation g.exit) p.q5
    else none

/-- A LAUNCH of a function passes the checks of LIMIT: its cores, its count, its slot, its time, its records. -/
def State.launchOk (s : State) (f : Nat) (p : Rec) (l : List Rec) : Bool :=
  let cores := span p.lFirst (p.lLast + 1 - p.lFirst)
  p.lFirst ≤ p.lLast && cores.all (s.inPart (s.fnPart f)) && (p.lMode == 1 || cores.all s.mapped) &&
    p.lCount ≤ 2 ^ 20 && (p.lMode != 2 || p.lCount == 0) && ((s.graph p.lGraph).any fun g => g.fn == f) &&
    (s.launchPoint p).isSome &&
    l.all fun r => r.kind == 0 && 1 ≤ r.level && r.level ≤ 6 && r.level ≤ (s.plugin (s.fnPlug f)).cap

/-- The rewrite of a record (R42): a target core, or the landing. A record for the landing gets core 0, which nothing reads
(log entry 96). -/
def State.rewrite (s : State) (p : Rec) (levels : Table Nat) (tc : Option Nat) (r : Rec) : Rec :=
  let r1 := ((r.set 32 6 p.lStation).set 38 4 p.lGraph).set 24 3 (tget r.level levels r.level)
  let r2 := ((r1.set 42 10 (tc.getD 0)).set 52 1 tc.isNone.toNat).set 53 7 s.devid.toNat
  { r2 with q1 := p.q5 }

/-- The records a LAUNCH injects, in order. -/
def State.injected (s : State) (p : Rec) (levels : Table Nat) (l : List Rec) : List Rec :=
  let n := p.lLast + 1 - p.lFirst
  match p.lMode with
  | 0 => l.zipIdx.map fun x => s.rewrite p levels (some (p.lFirst + x.2 % n)) x.1
  | 1 => l.map (s.rewrite p levels none)
  | _ => l.flatMap fun r => (span p.lFirst n).map fun c => s.rewrite p levels (some c) r

/-- The journal entry of an injected record, and its release (R63, R64, R126). -/
def State.dispatch (s : State) (kind f v : Nat) (w : Word) (r : Rec) : State :=
  (s.journal (s.fnPart f) kind f v (wordsFrom 0x10 r.words ++ [(0x50, w)])).release .dispatcher 0 r

/-- Inject the records of a launch: the root has their counts, and then each is journalled and released. The root of a slot
that another module homes is asked for them first (R63, R64, R126, R127). DESIGN CHOICE (log entry 111): the messages
by which it is asked and answers are the model's. -/
def State.inject (s : State) (p : Rec) (point : Word) (packet : Option (Nat × Nat × Nat)) (l : List Rec) (kind f v : Nat)
    (w : Word) : State :=
  let g := p.lGraph
  if s.homed g then
    l.foldl (fun s r => s.dispatch kind f v w r) (s.countLaunch g p.lStation p.q5 point l.length s.devid.toNat packet)
  else
    let key := (f, v, s.tick)
    ({ s with prog := { s.prog with holding := s.prog.holding ++ [⟨key, kind, f, v, w, l⟩] } } : State).sendMsg (s.homeOf g)
      (.opening g p.lStation p.q5 point l.length key.1 key.2.1 key.2.2)

/-- The distinct levels of records that PMAP has not been asked for. -/
def firstUnmapped (levels : Table Nat) (l : List Rec) : Option Nat :=
  (l.find? fun r => (tfind levels r.level).isNone).map Rec.level

/-- A LAUNCH is accepted. -/
def State.acceptLaunch (s : State) (f v : Nat) (x : Vcp) (p : Rec) (point : Word) (l : List Rec) : State :=
  let out := s.injected p x.pmap l
  let q := Started.new x p
  let s1 := (s.dropCalls f v).startPacket f v (if out = [] then { q with ending := some (.ok, some 0) } else q)
  if out = [] then s1
  else
    s1.inject p point (some (f, v, q.index)) out 1 f v (ofN q.index)

/-- A LAUNCH that fails a check has no effect but its end (R44); the address of a record that failed. -/
def State.refuseLaunch (s : State) (f v : Nat) (x : Vcp) (p : Rec) (code : Nat) (failed : Option Word := none) : State :=
  (s.dropCalls f v).startPacket f v
    { Started.new x p with ending := some (.error code, if code = LIMIT then some 1 else none), failed := failed }

/-- LAUNCH: the records are read, the limits checked, ADMIT and PMAP asked, and the records injected. -/
def execLaunchPacket (f v : Nat) (s : State) : Out :=
  s.begin f v 1 fun x p =>
    let key := packetKey f v x.head
    match s.launchRecords f key p with
    | .wait s1 => s1
    | .fail c va s1 => (s1.forgetKey key).refuseLaunch f v x p c (some (ofN va))
    | .ok l s1 =>
      let s2 := s1.forgetKey key
      match s2.launchPoint p with
      | none => s2.refuseLaunch f v x p LIMIT
      | some point =>
        if !s2.launchOk f p l then s2.refuseLaunch f v x p LIMIT
        else
          match x.admitted, firstUnmapped x.pmap l with
          | none, _ => s1.askAdmit f v p
          | some false, _ => s2.refuseLaunch f v x p LIMIT
          | some true, some level => s1.askPmap f v level
          | some true, none => s2.acceptLaunch f v x p point l

/-! ### The external LAUNCH (R22) -/

/-- The validation of a tenant's LAUNCH. -/
def State.tenantOk (s : State) (tenant : Nat) (key : Word) (p : Rec) (l : List Rec) : Bool :=
  let e := s.entry 13 (2 * tenant)
  decide (tenant < 256) && bit e 0 && key == s.entry 13 (2 * tenant + 1) && bit e (48 + p.lGraph) &&
    l.all fun r => 1 ≤ r.level && r.level ≤ 6 && r.level ≤ bits e 45 3

/-- The results of the plug-in calls of a function's external LAUNCH are used up. -/
def State.clearCalls (s : State) (f : Nat) : State :=
  let s1 := s.dropCalls f 255
  s1.setFunc f { s1.func f with admitted := none, pmap := [], extern := none, externDev := 0 }

/-- The plug-in calls of a function are made for one external LAUNCH after another: another one has them now (R55, R56). -/
def State.externBusy (s : State) (f dev : Nat) (m : Msg) : Bool :=
  (s.func f).extern.any fun x => x != m || (s.func f).externDev != dev

/-- ADMIT for an external LAUNCH. -/
def State.askExtern (s : State) (f dev : Nat) (m : Msg) (p : Rec) : State :=
  (s.setFunc f { s.func f with extern := some m, externDev := dev }).askAdmit f 255 p

/-- The network interface turns an external LAUNCH away: it is counted and a reject goes back on channel 1. -/
def State.turnAway (s : State) (q dev tenant : Nat) : State := (s.count cLREJ q).sendMsg dev (.launchReject tenant)

/-- An external LAUNCH that has arrived on channel 5 is validated at the quay die of its link, and passed on or turned
away. -/
def execExternalLaunch (q dev tenant : Nat) (key : Word) (packet : List Word) (records : List (List Word)) (s : State) : Out :=
  match s.takeRx (fun x => x.src == dev && x.link / 12 == q && x.msg == .launch tenant key packet records) (fun _ => false) with
  | none => .next s
  | some (_, s0) =>
    let p := Rec.ofWords packet
    let l := records.map Rec.ofWords
    let f := s.fnOf p.lGraph
    match s.tenantOk tenant key p l, s.launchPoint p with
    | true, some point =>
      if s.externBusy f dev (.launch tenant key packet records) then .next s else
      match (s.func f).admitted, firstUnmapped (s.func f).pmap l with
      | none, _ => .next (s.askExtern f dev (.launch tenant key packet records) p)
      | some false, _ => .next ((s0.clearCalls f).turnAway q dev tenant)
      | some true, some level => .next (s.askPmap f 255 level)
      | some true, none =>
        let out := s0.injected p (s.func f).pmap l
        let s1 := s0.clearCalls f
        .next (if out = [] then s1
          else s1.inject p point none out 5 f 255 (ofN (dev + tenant * 256)))
    | _, _ => .next (s0.turnAway q dev tenant)

/-! ### What other modules say to a root (R110, R126, R127) -/

/-- The work of a packet whose slot another module homes is over, as its home root says: a LAUNCH's with its status word, a
CANCEL's with the number of launches it matched. A packet that is gone is not found. -/
def State.remoteOver (s : State) (f v u : Nat) (w : Word) : State :=
  match (s.vcp f v).started.find? fun q => q.uid == u with
  | none => s
  | some q => if q.p.op = 6 then s.packetOver f v q.index .ok (some w) else s.launchOver f v q.index w

/-- The records of a launch that waited for its home root go to the dispatcher. -/
def State.releaseHeld (s : State) (key : Nat × Nat × Nat) : State :=
  (s.prog.holding.filter fun x => x.key == key).foldl (fun s x => x.recs.foldl (fun s r => s.dispatch x.kind x.f x.v x.word r) s)
    { s with prog := { s.prog with holding := s.prog.holding.filter fun x => x.key != key } }

/-! ### Cancel marks between modules (R110, R127, R137) -/

/-- Another module tells of a mark: the home root installs it, at once or as soon as one frees, and passes it on to the
domain; any other module takes what its home root says and acknowledges it (log entry 111). -/
def State.takeMark (s : State) (dev g : Nat) (m : CancelMark) : State :=
  if (s.graph g).isNone then s.sendMsg dev (.marked g m.depth m.t m.err)
  else if s.homed g then
    match s.installHere g m with
    | (2, s1) => { s1 with prog := { s1.prog with late := s1.prog.late ++ [⟨g, m, dev⟩] } }
    | (_, s1) => (s1.spreadMark g m dev).settle g
  else
    (if (s.root g).marks.any (sameMark m) then s.renewMark g m else s.putMark g m).sendMsg dev (.marked g m.depth m.t m.err)

/-- Another module acknowledges a mark; the module that has waited for the last one is told. -/
def State.ackMark (s : State) (dev g : Nat) (m : CancelMark) : State :=
  let l := s.prog.marking.map fun x => if x.g = g ∧ x.mark = m then { x with away := x.away.erase dev } else x
  (l.filter fun x => x.away == [] && x.dev != s.devid.toNat).foldl (fun s x => s.sendMsg x.dev (.marked g m.depth m.t m.err))
    { s with prog := { s.prog with marking := l.filter fun x => x.away != [] } }

/-- A CANCEL of another module asks which open launches it matches: it is answered once they are complete (R42). -/
def State.takeCancel (s : State) (dev g : Nat) (m : CancelMark) (key : Nat × Nat × Nat) : State :=
  let limit := (s.root g).serial
  let n := ((s.root g).cancelOpen m limit).length
  ({ s with prog := { s.prog with asked := s.prog.asked ++ [⟨dev, key, g, m, limit, n⟩] } } : State).answerAsked g

/-- What another module's message on channel 3 brings about at a root: deltas and launches of the slots homed here, and
what a home root answers and announces (R126, R127). -/
def State.rootMessage (s : State) (dev : Nat) : Msg → State
  | .deltas l => (l.filter fun d => s.homed d.g && (s.graph d.g).isSome).foldl (fun s d => s.postNode (quayNode d.g) d) s
  | .opening g st t point n f v i =>
    if s.homed g && (s.graph g).isSome then
      (s.countLaunch g st t point n dev (if v = 255 then none else some (f, v, i))).sendMsg dev (.counted f v i)
    else s
  | .counted f v i => s.releaseHeld (f, v, i)
  | .completed f v i w => s.remoteOver f v i w
  | .mark g depth t err => s.takeMark dev g ⟨t, depth, err⟩
  | .marked g depth t err => s.ackMark dev g ⟨t, depth, err⟩
  | .unmark g depth t =>
    if s.homed g then s
    else s.setRoot g { s.root g with marks := (s.root g).marks.filter fun m => !sameMark ⟨t, depth, false⟩ m }
  | .matching g depth t f v i => s.takeCancel dev g ⟨t, depth, false⟩ (f, v, i)
  | .frontier g st t =>
    if s.homed g then s else s.setRoot g { s.root g with announced := tput st t (s.root g).announced }
  | _ => s

/-! ### NOP, SIGNAL and MARK -/

/-- NOP: it is over at its start. -/
def execNopPacket (f v : Nat) (s : State) : Out :=
  s.begin f v 0 fun x p => s.startPacket f v { Started.new x p with ending := some (.ok, none) }

/-- A started packet of an op whose work is not over. -/
def Vcp.pending (x : Vcp) (op : Nat) : Option Started := x.started.find? fun q => q.p.op == op && q.ending.isNone

/-- The end of a packet's one access, by its code. -/
def endOf (c : Nat) : PacketEnd := if c = 0 then .ok else .error c

/-- The operation of a started SIGNAL. -/
def State.doSignal (s : State) (f v : Nat) (q : Started) : State :=
  let key := packetKey f v q.index
  (s.signal f v key 4 q.p.q3 (bits q.p.q5 0 4) q.p.q4).code fun c s1 =>
    (s1.forgetKey key).packetOver f v q.index (endOf c) none (some q.p.q3)

/-- The write of a started MARK. -/
def State.doMark (s : State) (f v : Nat) (q : Started) : State :=
  let key := packetKey f v q.index
  (s.fnWord f key q.p.q3 s.timestamp).code fun c s1 =>
    (s1.forgetKey key).packetOver f v q.index (endOf c) none (some q.p.q3)

/-- A packet of one access: it goes on where it waits for an answer, else the packet at head starts. -/
def State.oneAccess (s : State) (f v op : Nat) (act : State → Started → State) : Out :=
  match (s.vcp f v).pending op with
  | some q => .next (if s.vcpRuns f v then act s q else s)
  | none => s.begin f v op fun x p => let q := Started.new x p; act (s.startPacket f v q) q

def execSignalPacket (f v : Nat) (s : State) : Out := s.oneAccess f v 3 fun s q => s.doSignal f v q
def execMarkPacket (f v : Nat) (s : State) : Out := s.oneAccess f v 5 fun s q => s.doMark f v q

/-! ### COPY (R42, R44, R202) -/

/-- The destination granules of a COPY. -/
def Rec.cLen (p : Rec) : Nat := bits p.q5 0 40
def Rec.cGranules (p : Rec) : Nat := (p.q4.toNat % 16 + p.cLen + 15) / 16

/-- The bytes of a granule: the offset of the first in the transfer, and their number. -/
def Rec.cFrom (p : Rec) (g : Nat) : Nat := if g = 0 then 0 else 16 * g - p.q4.toNat % 16
def Rec.cSize (p : Rec) (g : Nat) : Nat := min (16 * (g + 1) - p.q4.toNat % 16) p.cLen - p.cFrom g

/-- A granule is the first of a chunk: its destination or its source enters a 64 KiB block. -/
def Rec.cEnters (p : Rec) (g : Nat) : Bool :=
  let last := fun k => (p.q3.toNat + p.cFrom k + p.cSize k - 1) / 65536
  (p.q4.toNat / 16 + g) % 4096 == 0 || (g != 0 && last g != last (g - 1))
def Rec.cChunk (p : Rec) : Nat → Nat
  | 0 => 0
  | g + 1 => if p.cEnters (g + 1) then g + 1 else p.cChunk g

/-- COPY starts: one of length 0 is over. -/
def execCopyPacket (f v : Nat) (s : State) : Out :=
  s.begin f v 2 fun x p =>
    let q := Started.new x p
    s.startPacket f v (if p.cLen = 0 then { q with ending := some (.ok, some 0) } else q)

/-- Change a started packet. -/
def State.setStarted (s : State) (f v : Nat) (q : Started) : State :=
  let x := s.vcp f v
  s.setVcp f v { x with started := x.started.map fun y => if y.index = q.index then q else y }

/-- The work of a COPY ends when every granule below its fault, or every granule, has been written or skipped. -/
def Started.copyEnd (q : Started) : Started :=
  let n := q.p.cGranules
  if (q.moved.filter fun e => e.1 < q.fault.getD n).length < q.fault.getD n then q
  else
    match q.fault with
    | some _ => { q with ending := some (.error XLATE, some (ofN (n - (q.moved.filter Prod.snd).length))) }
    | none => { q with ending := some (if q.skipped = 0 then .ok else .error 0, some (ofN q.skipped)) }

/-- A read that may touch two pages. -/
def State.fnReadAcross (s : State) (f key va n need holder : Nat) : Eng :=
  let k := 65536 - va % 65536
  if n ≤ k then s.fnRead f key va n need holder
  else
    match s.fnRead f key va k need holder with
    | .ok a s1 =>
      match s1.fnRead f key (va + k) (n - k) need holder with
      | .ok b s2 => .ok (a ++ b) s2
      | e => e
    | e => e

/-- The quay copy engine reads a granule, and in a later step writes or skips it, or stops at its chunk; none before. It translates each chunk
once, which it holds (R202). -/
def State.quayGranule (s : State) (f key holder : Nat) (q : Started) (g : Nat) : Option Started × State :=
  let stop := fun a : Nat => { q with fault := some (q.p.cChunk g), failed := some (ofN a) }
  let skip := { q with moved := tput g false q.moved, skipped := q.skipped + 1 }
  let src := q.p.q3.toNat + q.p.cFrom g
  match s.keepRead key (ofN src) 4 (s.fnReadAcross f key src (q.p.cSize g) (needR + needE) holder) with
  | .wait s1 => (none, s1)
  | .fault s1 => (some (stop src).copyEnd, s1)
  | .bad s1 => (some skip.copyEnd, s1)
  | .ok bs s1 =>
    match s1.fnWrite f key (q.p.q4.toNat + q.p.cFrom g) bs (needW + needE) holder with
    | .wait s2 => (none, s2)
    | .fault s2 => (some (stop (q.p.q4.toNat + q.p.cFrom g)).copyEnd, s2)
    | .bad s2 => (some skip.copyEnd, s2)
    | .ok _ s2 => (some (Started.copyEnd { q with moved := tput g true q.moved }), s2)

/-- A granule can be moved: chunks come in order. -/
def Started.canMove (q : Started) (g : Nat) : Bool :=
  g < q.p.cGranules && !q.fault.any (fun c => c ≤ g) && (tfind q.moved g).isNone &&
    q.p.cChunk g ≤ (q.moved.filter fun e => e.1 < q.p.cChunk g).length

/-- One granule of a COPY. -/
def execQuayCopyGranule (f v i g : Nat) (s : State) : Out :=
  match (s.vcp f v).started.find? fun q => q.index == i && q.p.op == 2 && q.ending.isNone with
  | none => .next s
  | some q =>
    if s.vcpRuns f v = false ∨ q.canMove g = false then .next s
    else
      let key := granuleKey f v i g
      match s.quayGranule f key (quayHolder (copyKey f v i)) q g with
      | (none, s1) => .next s1
      | (some q1, s1) =>
        .next ((if q1.ending.isSome then (s1.forgetKey key).dropHolder (quayHolder (copyKey f v i)) else s1.forgetKey key).setStarted f v q1)

/-! ### WAIT (R43, R48) -/

/-- Read one signal of a WAIT: a restored one of another memory by its physical address. -/
def State.waitWord (s : State) (f key : Nat) (a : Word) (proxy : Option Nat) : Eng :=
  match proxy with
  | some pa =>
    match s.region pa with
    | .remote _ _ => s.reach f key pa 0 (.load 8)
    | .hbm x => if s.anyBad (span x 8) then .bad (s.meetUe (span x 8)) else .ok (gatherBytes s.mem.bytes (span x 8)) s
    | _ => .fault s
  | none =>
    if a.toNat % 8 ≠ 0 then .fault s
    else
      match s.vaSpan f a.toNat 8 needR (frontHolder key) with
      | .pas l s1 =>
        match s1.region (l.headD 0), s.fnRead f key a.toNat 8 needR with
        | .host, .bad s2 => .fault s2
        | _, e => e
      | _ => s.fnRead f key a.toNat 8 needR

/-- The signals of a WAIT, one after another. -/
inductive Signals where
  | ok (l : List Word) (s : State) | fail (code : Nat) (a : Word) (s : State) | wait (s : State)
  deriving DecidableEq, Repr

def State.waitWords (s : State) (f key : Nat) : List (Word × Option Nat) → Signals
  | [] => .ok [] s
  | (a, p) :: l =>
    match s.waitWord f key a p with
    | .fault s1 => .fail XLATE a s1
    | .bad s1 => .fail MEMERR a s1
    | .wait s1 => .wait s1
    | .ok bs s1 =>
      match s1.waitWords f key l with
      | .ok r s2 => .ok (ofN (leNat bs) :: r) s2
      | e => e

/-- A WAIT aborts: the VCP stops, and one with the barrier bit discards what follows it below the tail. -/
def State.abortWait (s : State) (f v : Nat) (q : Started) (code : Nat) (failed : Option Word := none) : State :=
  let x := (s.vcp f v).fail q.p.tag q.index code
  let x1 := if q.p.bar then Vcp.endDiscard { x with discard := some (x.seq + ahead x.tail x.head), paused := false } else x
  (s.setVcp f v x1).packetOver f v q.index .stopped none failed

/-- Evaluate a WAIT: it aborts, is satisfied, or keeps waiting. A signal that cannot be read ends it before any value
is looked at (log entry 70). -/
def State.evaluate (s : State) (f v : Nat) (q : Started) : State :=
  let key := packetKey f v q.index
  let l := ([q.p.q3, q.p.q4, q.p.q5].zip q.proxy).take (bits q.p.q6 0 2)
  match s.waitWords f key l with
  | .wait s1 => s1
  | .fail c a s1 => (s1.forgetKey key).abortWait f v q c (some a)
  | .ok ws s1 =>
    let s2 := s1.forgetKey key
    if ws.any fun w => w.toInt < 0 then s2.abortWait f v q ABORT
    else if ws.all (· == 0) then s2.packetOver f v q.index .ok none
    else s2

/-- WAIT starts and evaluates its signals. -/
def execWaitPacket (f v : Nat) (s : State) : Out :=
  s.begin f v 4 fun x p => let q := Started.new x p; (s.startPacket f v q).evaluate f v q

/-- A WAIT of a VCP that is not suspended is evaluated. -/
def waitStep (f v i : Nat) (s : State) : Out :=
  let x := s.vcp f v
  match x.started.find? fun q => q.index == i && q.p.op == 4 && q.ending.isNone with
  | none => .next s
  | some q => if x.state = .suspended ∨ s.vcpRuns f v = false then .next s else .next (s.evaluate f v q)

def execWaitEvaluate (f v i : Nat) (s : State) : Out := waitStep f v i s
def execWaitPoll (f v i : Nat) (s : State) : Out := waitStep f v i s

/-! ### CANCEL (R42, R109 to R111) -/

def Rec.cancelMark (p : Rec) : CancelMark := ⟨p.q3, bits p.q4 4 3, false⟩

/-- The slot of a CANCEL is resident for its function. -/
def State.cancelSlot (s : State) (f : Nat) (p : Rec) : Bool := (s.graph (bits p.q4 0 4)).any fun x => x.fn == f

/-- The launches a CANCEL matches: open ones of its function and slot, below a number. -/
def State.cancelOpen (s : State) (f : Nat) (p : Rec) (limit : Nat) : List Launch :=
  if s.cancelSlot f p then (s.root (bits p.q4 0 4)).cancelOpen p.cancelMark limit else []

/-- CANCEL installs its mark; with every mark in use it waits. The home root of a slot that another module homes says what
it matches (R127). -/
def execCancelPacket (f v : Nat) (s : State) : Out :=
  s.begin f v 6 fun x p =>
    let g := bits p.q4 0 4
    let limit := (s.root g).serial
    let n := (s.cancelOpen f p limit).length
    let q := { Started.new x p with matched := n, limit := limit }
    let away := s.cancelSlot f p && !s.homed g
    let q1 := if n = 0 && !away then { q with ending := some (.ok, some 0) } else q
    if s.cancelSlot f p then
      match s.install g p.cancelMark with
      | (2, _) => s
      | (_, s1) =>
        let s2 := s1.startPacket f v q1
        if away then s2.sendMsg (s.homeOf g) (.matching g p.cancelMark.depth p.q3 f v s.tick) else s2.settle g
    else s.startPacket f v q1

/-! ### Completion (R40) -/

/-- A started packet whose work is over completes; a CANCEL is over once no launch it matched is open. -/
def execPacketComplete (f v i : Nat) (s : State) : Out :=
  match (s.vcp f v).started.find? fun q => q.index == i with
  | none => .next s
  | some q =>
    if (s.func f).flr || (s.vcp f v).resetting then .next s
    else
      match q.ending with
      | some (e, w) => .next (s.completePacket f v q e w)
      | none =>
        if q.p.op = 6 ∧ s.homed (bits q.p.q4 0 4) = true ∧ s.cancelOpen f q.p q.limit = [] then .next (s.completePacket f v q .ok (some (ofN q.matched))) else .next s

end Sys2Proof.Machine
end

