-- ==== Sys2Proof/Machine/Sha.lean ====
section
/-! DEFINITION. SHA-384, by which images are checked and measured (R57 to R61): FIPS 180-4, whose functions and
constants the spec takes by name. -/

namespace Sys2Proof.Machine

/-- The round constants. -/
def shaK : List Word :=
  [0x428A2F98D728AE22, 0x7137449123EF65CD, 0xB5C0FBCFEC4D3B2F, 0xE9B5DBA58189DBBC] ++
  [0x3956C25BF348B538, 0x59F111F1B605D019, 0x923F82A4AF194F9B, 0xAB1C5ED5DA6D8118] ++
  [0xD807AA98A3030242, 0x12835B0145706FBE, 0x243185BE4EE4B28C, 0x550C7DC3D5FFB4E2] ++
  [0x72BE5D74F27B896F, 0x80DEB1FE3B1696B1, 0x9BDC06A725C71235, 0xC19BF174CF692694] ++
  [0xE49B69C19EF14AD2, 0xEFBE4786384F25E3, 0x0FC19DC68B8CD5B5, 0x240CA1CC77AC9C65] ++
  [0x2DE92C6F592B0275, 0x4A7484AA6EA6E483, 0x5CB0A9DCBD41FBD4, 0x76F988DA831153B5] ++
  [0x983E5152EE66DFAB, 0xA831C66D2DB43210, 0xB00327C898FB213F, 0xBF597FC7BEEF0EE4] ++
  [0xC6E00BF33DA88FC2, 0xD5A79147930AA725, 0x06CA6351E003826F, 0x142929670A0E6E70] ++
  [0x27B70A8546D22FFC, 0x2E1B21385C26C926, 0x4D2C6DFC5AC42AED, 0x53380D139D95B3DF] ++
  [0x650A73548BAF63DE, 0x766A0ABB3C77B2A8, 0x81C2C92E47EDAEE6, 0x92722C851482353B] ++
  [0xA2BFE8A14CF10364, 0xA81A664BBC423001, 0xC24B8B70D0F89791, 0xC76C51A30654BE30] ++
  [0xD192E819D6EF5218, 0xD69906245565A910, 0xF40E35855771202A, 0x106AA07032BBD1B8] ++
  [0x19A4C116B8D2D0C8, 0x1E376C085141AB53, 0x2748774CDF8EEB99, 0x34B0BCB5E19B48A8] ++
  [0x391C0CB3C5C95A63, 0x4ED8AA4AE3418ACB, 0x5B9CCA4F7763E373, 0x682E6FF3D6B2B8A3] ++
  [0x748F82EE5DEFB2FC, 0x78A5636F43172F60, 0x84C87814A1F0AB72, 0x8CC702081A6439EC] ++
  [0x90BEFFFA23631E28, 0xA4506CEBDE82BDE9, 0xBEF9A3F7B2C67915, 0xC67178F2E372532B] ++
  [0xCA273ECEEA26619C, 0xD186B8C721C0C207, 0xEADA7DD6CDE0EB1E, 0xF57D4F7FEE6ED178] ++
  [0x06F067AA72176FBA, 0x0A637DC5A2C898A6, 0x113F9804BEF90DAE, 0x1B710B35131C471B] ++
  [0x28DB77F523047D84, 0x32CAAB7B40C72493, 0x3C9EBE0A15C9BEBC, 0x431D67C49C100D4C] ++
  [0x4CC5D4BECB3E42B6, 0x597F299CFC657E2A, 0x5FCB6FAB3AD6FAEC, 0x6C44198C4A475817]

/-- The initial hash of SHA-384. -/
def shaInit : Rec :=
  ⟨0xCBBB9D5DC1059ED8, 0x629A292A367CD507, 0x9159015A3070DD17, 0x152FECD8F70E5939,
   0x67332667FFC00B31, 0x8EB44A8768581511, 0xDB0C2E0D64F98FA7, 0x47B5481DBEFA4FA4⟩

def shaRot (n : Nat) (x : Word) : Word := (x >>> n) ||| (x <<< (64 - n))
def shaS0 (x : Word) : Word := shaRot 28 x ^^^ shaRot 34 x ^^^ shaRot 39 x
def shaS1 (x : Word) : Word := shaRot 14 x ^^^ shaRot 18 x ^^^ shaRot 41 x
def shaM0 (x : Word) : Word := shaRot 1 x ^^^ shaRot 8 x ^^^ (x >>> 7)
def shaM1 (x : Word) : Word := shaRot 19 x ^^^ shaRot 61 x ^^^ (x >>> 6)

/-- The rounds of a block: the window holds sixteen words of its schedule, the next one first. -/
def shaRounds : List Word → List Word → Rec → Rec
  | k :: ks, w :: ws, r =>
    let t1 := r.q7 + shaS1 r.q4 + ((r.q4 &&& r.q5) ^^^ (~~~r.q4 &&& r.q6)) + k + w
    let t2 := shaS0 r.q0 + ((r.q0 &&& r.q1) ^^^ (r.q0 &&& r.q2) ^^^ (r.q1 &&& r.q2))
    let n := shaM1 (ws.getD 13 0) + ws.getD 8 0 + shaM0 (ws.getD 0 0) + w
    shaRounds ks (ws ++ [n]) ⟨t1 + t2, r.q0, r.q1, r.q2, r.q3 + t1, r.q4, r.q5, r.q6⟩
  | _, _, r => r

/-- The words of n doublewords of big-endian bytes. -/
def beWords : Nat → List Byte → List Word
  | 0, _ => []
  | n + 1, l => ofN (leNat (l.take 8).reverse) :: beWords n (l.drop 8)

/-- The blocks of a padded message. -/
def shaBlocks : Nat → List Byte → Rec → Rec
  | 0, _, r => r
  | n + 1, l, r =>
    let x := shaRounds shaK (beWords 16 l) r
    shaBlocks n (l.drop 128)
      ⟨r.q0 + x.q0, r.q1 + x.q1, r.q2 + x.q2, r.q3 + x.q3, r.q4 + x.q4, r.q5 + x.q5, r.q6 + x.q6, r.q7 + x.q7⟩

/-- The n low bytes of a number, the most significant first. -/
def beBytes (n v : Nat) : List Byte := (leBytes n v).reverse

/-- The padding of a message of n bytes. -/
def shaPad (n : Nat) : List Byte := [0x80] ++ List.replicate ((239 - n % 128) % 128) 0 ++ beBytes 16 (8 * n)

/-- SHA-384 of a message. -/
def sha384 (m : List Byte) : BitVec 384 :=
  let l := m ++ shaPad m.length
  let r := shaBlocks (l.length / 128) l shaInit
  BitVec.ofNat 384 ((r.words.take 6).foldl (fun n w => n * 2 ^ 64 + w.toNat) 0)

/-- The bytes of a hash, and the hash that bytes give. -/
def hashBytes (h : BitVec 384) : List Byte := beBytes 48 h.toNat

/-- M := SHA-384(M ‖ h) for a measurement register (R60). -/
def State.extend (s : State) (i : Nat) (h : BitVec 384) : State :=
  if c : i < 6 then
    { s with boot := { s.boot with meas := s.boot.meas.set i (sha384 (hashBytes s.boot.meas[i] ++ hashBytes h)) } }
  else s

end Sys2Proof.Machine
end

