-- ==== Sys2Proof/Machine/Ecdsa.lean ====
section
/-! DEFINITION. ECDSA over brainpoolP384r1 with SHA-384 (R57 to R59, R61): the curve of RFC 5639 and the nonce of
RFC 6979, which the spec takes by name. -/

namespace Sys2Proof.Machine

/-! ### The curve y² = x³ + Ax + B over p, its generator, and its order -/

def ecP : Nat := 0x8CB91E82A3386D280F5D6F7E50E641DF152F7109ED5456B412B1DA197FB71123ACD3A729901D1A71874700133107EC53
def ecA : Nat := 0x7BC382C63D8C150C3C72080ACE05AFA0C2BEA28E4FB22787139165EFBA91F90F8AA5814A503AD4EB04A8C7DD22CE2826
def ecB : Nat := 0x04A8C7DD22CE28268B39B55416F0447C2FB77DE107DCD2A62E880EA53EEB62D57CB4390295DBC9943AB78696FA504C11
def ecGx : Nat := 0x1D1C64F068CF45FFA2A63A81B7C13F6B8847A3E77EF14FE3DB7FCAFE0CBD10E8E826E03436D646AAEF87B2E247D4AF1E
def ecGy : Nat := 0x8ABE1D7520F9C2A45CB1EB8E95CFD55262B70B29FEEC5864E19C054FF99129280E4646217791811142820341263C5315
def ecN : Nat := 0x8CB91E82A3386D280F5D6F7E50E641DF152F7109ED5456B31F166E6CAC0425A7CF3AB6AF6B7FC3103B883202E9046565

/-- b ^ e modulo m, for an e of k bits. -/
def powMod (m : Nat) : Nat → Nat → Nat → Nat
  | 0, _, _ => 1 % m
  | k + 1, b, e =>
    let r := powMod m k (b * b % m) (e / 2)
    if e % 2 = 1 then b * r % m else r

/-- The inverse modulo a prime of 384 bits. -/
def invMod (m a : Nat) : Nat := powMod m 384 (a % m) (m - 2)

/-- A point (x / z², y / z³); the point at infinity has z = 0. -/
structure Point where
  x : Nat
  y : Nat
  z : Nat
  deriving DecidableEq, Repr

def Point.infinity : Point := ⟨1, 1, 0⟩

/-- a - b modulo p. -/
def subP (a b : Nat) : Nat := (a + (ecP - b % ecP)) % ecP

def Point.double (q : Point) : Point :=
  let yy := q.y * q.y % ecP
  let c := 4 * q.x * yy % ecP
  let zz := q.z * q.z % ecP
  let m := (3 * q.x * q.x + ecA * (zz * zz % ecP)) % ecP
  let x := subP (m * m) (2 * c)
  ⟨x, subP (m * subP c x) (8 * yy * yy), 2 * q.y * q.z % ecP⟩

def Point.add (a b : Point) : Point :=
  if a.z = 0 then b
  else if b.z = 0 then a
  else
    let za := a.z * a.z % ecP
    let zb := b.z * b.z % ecP
    let u1 := a.x * zb % ecP
    let u2 := b.x * za % ecP
    let s1 := a.y * b.z * zb % ecP
    let s2 := b.y * a.z * za % ecP
    if u1 = u2 then (if s1 = s2 then a.double else .infinity)
    else
      let h := subP u2 u1
      let r := subP s2 s1
      let hh := h * h % ecP
      let hc := h * hh % ecP
      let v := u1 * hh % ecP
      let x := subP (r * r) (hc + 2 * v)
      ⟨x, subP (r * subP v x) (s1 * hc), h * a.z * b.z % ecP⟩

/-- k times a point, for a k of n bits. -/
def Point.mul : Nat → Nat → Point → Point
  | 0, _, _ => .infinity
  | n + 1, k, q =>
    let r := Point.mul n (k / 2) q.double
    if k % 2 = 1 then q.add r else r

def ecG : Point := ⟨ecGx, ecGy, 1⟩

/-- The coordinates of a point other than the point at infinity. -/
def Point.affine (q : Point) : Nat × Nat :=
  let i := invMod ecP q.z
  let ii := i * i % ecP
  (q.x * ii % ecP, q.y * ii * i % ecP)

/-- The number that big-endian bytes give. -/
def beNat (l : List Byte) : Nat := leNat l.reverse

/-! ### Verifying (R57) -/

/-- The signature r ‖ s of a digest under a public key x ‖ y. -/
def ecdsaVerify (digest sig key : List Byte) : Bool :=
  let r := beNat (sig.take 48)
  let s := beNat (sig.drop 48)
  let x := beNat (key.take 48)
  let y := beNat (key.drop 48)
  let w := invMod ecN s
  let q := (ecG.mul 384 (beNat digest * w % ecN)).add (Point.mul 384 (r * w % ecN) ⟨x, y, 1⟩)
  x < ecP && y < ecP && y * y % ecP == (x * x * x + ecA * x + ecB) % ecP &&
    0 < r && r < ecN && 0 < s && s < ecN && q.z != 0 && q.affine.1 % ecN == r

/-! ### Signing (R59): the nonce of RFC 6979 with SHA-384 -/

/-- HMAC with SHA-384, for a key of 48 bytes. -/
def hmac384 (k m : List Byte) : List Byte :=
  let pad := fun (b : Byte) => k.map (· ^^^ b) ++ List.replicate 80 b
  hashBytes (sha384 (pad 0x5C ++ hashBytes (sha384 (pad 0x36 ++ m))))

/-- The first of n nonces that gives a signature of a digest z by a private key d. -/
def signWith (d z : Nat) : Nat → List Byte → List Byte → List Byte
  | 0, _, _ => List.replicate 96 0
  | n + 1, k, v =>
    let v := hmac384 k v
    let t := beNat v
    let r := ((ecG.mul 384 t).affine).1 % ecN
    let s := invMod ecN t * (z + r * d) % ecN
    if 0 < t ∧ t < ecN ∧ r ≠ 0 ∧ s ≠ 0 then beBytes 48 r ++ beBytes 48 s
    else
      let k := hmac384 k (v ++ [0])
      signWith d z n k (hmac384 k v)

/-- The signature r ‖ s of a digest by a private key. -/
def ecdsaSignBy (d : Nat) (digest : List Byte) : List Byte :=
  let z := beNat digest
  let seed := beBytes 48 d ++ beBytes 48 (z % ecN)
  let v := List.replicate 48 1
  let k := hmac384 (List.replicate 48 0) (v ++ [0] ++ seed)
  let v := hmac384 k v
  let k := hmac384 k (v ++ [1] ++ seed)
  signWith d z 4096 k (hmac384 k v)

/-- The public key of a private key. -/
def publicKey (d : Nat) : List Byte :=
  let q := (ecG.mul 384 d).affine
  beBytes 48 q.1 ++ beBytes 48 q.2

/-- The part's private key, which no path reads out: a number from 1 to n - 1. -/
def identityPrivate : Nat := Config.identitySecret % (ecN - 1) + 1

/-- The identity public key, and the signature of a digest with the identity key. -/
def identityKey : List Byte := publicKey identityPrivate
def ecdsaSign (digest : List Byte) : List Byte := ecdsaSignBy identityPrivate digest

end Sys2Proof.Machine
end

