-- ==== Sys2Proof/Machine/Host.lean ====
section
/-! DEFINITION. The host interface: reads and writes through the BARs, registers, function-level reset, live
migration and attestation (R31, R32, R45 to R48, R61, R62, R220). -/

namespace Sys2Proof.Machine

/-! ### BAR2 and BAR4 (R31, R38, R220) -/

/-- STATUS of a VCP (R33). -/
def vcpCode : VcpState → Nat
  | .disabled => 0 | .running => 1 | .stale => 2 | .error => 3 | .suspended => 4
def Vcp.status (x : Vcp) : Word :=
  ofN (x.tag.toNat * 2 ^ 32 + x.index % 2 ^ 24 * 2 ^ 8 + x.code % 16 * 2 ^ 4 + x.perr.toNat * 8 + vcpCode x.state)

/-- The doublewords of a VCP page, in order. -/
def Vcp.page (x : Vcp) : List Word :=
  [setBits x.ctl 1 2 0, x.status, x.ringbase, x.ringsz, ofN x.head, ofN x.done, x.stalecnt.zeroExtend 64, x.pktcnt.zeroExtend 64]

/-- A byte of a page as a read gives it. -/
def Vcp.byte (x : Vcp) (off : Nat) : Byte := BitVec.ofNat 8 (bits (x.page.getD (off / 8) 0) (8 * (off % 8)) 8)

/-- Write a doubleword of a page: the host owns CTL, the ring's base and size, and clears perr. -/
def Vcp.putWord (x : Vcp) (i : Nat) (w : Word) (touched : Bool) : Vcp :=
  match i with
  | 0 => { x with ctl := ofN (bits w 0 3) }
  | 1 => if touched && bit w 3 then { x with perr := false } else x
  | 2 => { x with ringbase := setBits w 0 12 0 }
  | 3 => { x with ringsz := ofN (bits w 0 5) }
  | _ => x

/-- One host byte in a doubleword of a page. Each byte is written for itself: no field that the host owns acts
before a NOTIFY, but perr. -/
def Vcp.putByte (x : Vcp) (off : Nat) (b : Byte) : Vcp :=
  let old := match off / 8 with
    | 0 => x.ctl
    | 1 => 0
    | i => x.page.getD i 0
  x.putWord (off / 8) (setBits old (8 * (off % 8)) 8 b.toNat) (off % 8 == 0)

def Vcp.putBytes (x : Vcp) (off : Nat) : List Byte → Vcp
  | [] => x
  | b :: bs => (x.putByte off b).putBytes (off + 1) bs

/-- Split a write into its accesses: aligned blocks of 64 bytes. -/
def blocksOf : Nat → Nat → List Byte → List (Nat × List Byte)
  | 0, _, _ => []
  | n + 1, off, bs =>
    if bs = [] then []
    else
      let k := 64 - off % 64
      (off, bs.take k) :: blocksOf n (off + k) (bs.drop k)

/-- A host write is journalled: its address, its length and its data (R63). A function that is not bound has no journal. -/
def State.journalHost (s : State) (f v : Nat) (a : Word) (bs : List Byte) : State :=
  let w := leNat bs
  if !s.bound f then s else s.journal (s.fnPart f) 3 f v (wordsFrom 0x10 [a, ofN bs.length] ++ wordsFrom 0x20 ((span 0 8).map fun i => ofN (w / 2 ^ (64 * i))))

/-- One block of a BAR2 write. -/
def State.bar2Block (s : State) (f : Nat) (x : Nat × List Byte) : State :=
  let v := x.1 / 0x1000
  let s1 := s.journalHost f v (ofN x.1) x.2
  s1.setVcp f v ((s1.vcp f v).putBytes (x.1 % 0x1000) x.2)

def State.bar2Write (s : State) (f off : Nat) (data : List Byte) : State :=
  if f ≥ 64 ∨ off + data.length > 0x10000 then s
  else (blocksOf data.length off data).foldl (fun s x => s.bar2Block f x) s

/-- The bytes a BAR2 read gives. -/
def State.bar2Bytes (s : State) (f off n : Nat) : List Byte :=
  (span off n).map fun a => (s.vcp f (a / 0x1000)).byte (a % 0x1000)

/-- The host has read bytes. -/
def State.hostReads (s : State) (bs : List Byte) : State := { s with service := { s.service with read := bs } }

/-- A host read waits for the writes that have arrived before it (R220). -/
def State.afterWrites (s : State) (k : Unit → State) : Out := .next (if s.service.tlps = [] then k () else s)

/-- A BAR2 read changes nothing but what the host has read. -/
def execBar2Read (f off n : Nat) (s : State) : Out :=
  s.afterWrites fun _ => if f ≥ 64 ∨ off + n > 0x10000 then s else s.hostReads (s.bar2Bytes f off n)

/-- The page of an address grants both loads and stores to a function. -/
def State.barGrants (s : State) (f va : Nat) : Bool :=
  match (s.lookup 0 [2048] (s.fnCtx f) va).1 with
  | .leaf e _ => (e.toNat &&& (needR + needW)) == needR + needW
  | _ => false

/-- The translation of a BAR4 access, through its translator: with R and W, whichever it is (R31; log entry
85). -/
def State.barSpan (s : State) (f off n need : Nat) : XlSpan :=
  let va := (s.func f).winbase.toNat + off
  if va + n > 2 ^ 56 ∨ s.bound f = false then .trap ADDRESS
  else
    match s.xlateSpan 0 [2048] (s.fnPart f) (s.fnCtx f) va n need with
    | .trap c => .trap c
    | x => if s.barGrants f va && s.barGrants f (va + n - 1) then x else .trap PROT

/-- A BAR4 access has failed. -/
def State.barFail (s : State) (f : Nat) : State :=
  s.setFunc f { s.func f with barerr := satAdd (s.func f).barerr 1 }

/-- A walk of the BAR4 translator that ends at an uncorrectable entry is counted (R200). -/
def State.meetBar (s : State) (f off : Nat) : State := s.meetWalk 0 (s.fnCtx f) ((s.func f).winbase.toNat + off)

/-- The number under which a BAR4 read stands among the engines. -/
def readKey (f off : Nat) : Nat := 2 ^ 20 + (64 * off + f) * 2048 + 1027

/-- What a BAR4 read gives of bytes that cannot be read: free values (log entry 97). -/
def State.barOpen (s : State) (l : List Nat) : List Byte := l.map (Config.barByte s.tick)

/-- What a BAR4 read gives of bytes of this module. -/
def State.barBytes (s : State) (l : List Nat) : List Byte :=
  if s.anyBad l || l.any s.portFailed then s.barOpen l else gatherBytes s.mem.bytes l

/-- The bytes of one page of a BAR4 read: from another module or the host by a request. -/
def State.barPart (s : State) (f key : Nat) (l : List Nat) : Eng :=
  match s.region (l.headD 0) with
  | .remote _ _ | .host => s.reach f key (l.headD 0) 0 (.load l.length)
  | _ => .ok (s.barBytes l) (s.meetUe l)

/-- The pages of a BAR4 read, one after another. -/
def State.barParts (s : State) (f key : Nat) : List (List Nat) → Eng
  | [] => .ok [] s
  | l :: ls =>
    let go := fun (bs : List Byte) (s : State) =>
      match s.barParts f key ls with
      | .ok cs s1 => Eng.ok (bs ++ cs) s1
      | e => e
    match s.barPart f key l with
    | .ok bs s1 => go bs s1
    | .bad s1 | .fault s1 => go (s1.barOpen l) s1
    | .wait s1 => .wait s1

/-- A BAR4 read: all ones where its translation fails. -/
def execBar4Read (f off n : Nat) (s : State) : Out :=
  s.afterWrites fun _ =>
    if f ≥ 64 ∨ off + n > 2 ^ 36 ∨ n = 0 then s
    else
      match s.barSpan f off n needR with
      | .trap _ => ((s.meetBar f off).barFail f).hostReads (List.replicate n 0xFF)
      | .wait s1 => s1
      | .pas l s1 =>
        match s1.barParts f (readKey f off) ((pageParts ((s.func f).winbase.toNat + off) l).map Prod.snd) with
        | .ok bs s2 => (s2.forgetKey (readKey f off)).hostReads bs
        | .bad s2 | .fault s2 | .wait s2 => s2

/-- The number under which a function's BAR4 writes stand among the engines. -/
def barKey (f : Nat) : Nat := 2 ^ 20 + f * 2048 + 1025

/-- One block of a BAR4 write: data of an access whose translation fails is discarded. -/
def State.bar4Block (s : State) (f : Nat) (x : Nat × List Byte) : State :=
  match s.barSpan f x.1 x.2.length needW with
  | .trap _ => (s.meetBar f x.1).barFail f
  | .wait s1 => s1
  | .pas l s1 =>
    let s2 := s1.journalHost f 255 ((s1.func f).winbase + ofN x.1) x.2
    match s2.region (l.headD 0) with
    | .remote _ _ => s2.addRemote ⟨4096 + barKey f, 0, ofN (l.headD 0), .store x.2⟩
    | .host => s2.hostWrite f l x.2
    | _ => if l.any s2.portFailed || !s2.storable l then s2.meetUe l else (s2.homeWrite l).writeMem l x.2

/-- The state in which a write waits, where some block of it is for a page that migrates, or for a host word that an atomic
of the module has read and not written yet (R194, R204). -/
def State.barWaits (s : State) (f : Nat) (l : List (Nat × List Byte)) : Option State :=
  l.findSome? fun x => match s.barSpan f x.1 x.2.length needW with
    | .wait s1 => some s1
    | .pas as s1 => if s1.region (as.headD 0) == .host && s1.hostBusy as then some s1 else none
    | .trap _ => none

/-- A BAR4 write is committed, or waits; the second part says whether it is. -/
def State.bar4Write (s : State) (f off : Nat) (data : List Byte) : State × Bool :=
  let l := blocksOf data.length off data
  if f ≥ 64 ∨ off + data.length > 2 ^ 36 then (s, true)
  else
    match s.barWaits f l with
    | some s1 => (s1, false)
    | none => (l.foldl (fun s x => s.bar4Block f x) s, true)

/-- BARERR is cleared as it is read. -/
def execBarerrRead (f : Nat) (s : State) : Out :=
  s.afterWrites fun _ =>
    if f < 64 then (s.hostReads (leBytes 4 (s.func f).barerr.toNat)).setFunc f { s.func f with barerr := 0 } else s

/-! ### Function-level reset and job cancel (R45, R110, R241) -/

/-- The graph slots of a function. -/
def State.slotsOf (s : State) (f : Nat) : List Nat := (s.prog.graphs.filter fun e => e.2.fn == f).map Prod.fst

/-- Job cancel: marks on every time of the function's slots, and a kill of its frames and records. -/
def State.cancelJob (s : State) (f : Nat) : State :=
  let l := s.slotsOf f
  (l.foldl (fun s g => s.installLate g ⟨0, 0, false⟩) s).killSlots fun g _ => l.contains g

/-- The result of MIGCMD, and setting it. -/
def State.migResult (s : State) : Nat := s.service.migcmd.toNat % 16
def State.setMig (s : State) (n : Nat) : State :=
  { s with service := { s.service with migcmd := BitVec.ofNat 32 (s.service.migcmd.toNat / 16 * 16 + n % 16) } }

/-- A command ends with a result. -/
def State.endMig (s : State) (n : Nat) : State :=
  { s.setMig n with service := { (s.setMig n).service with migVf := none, restoring := none, imageAt := 0, image := [] } }

/-- FLR starts: no packet starts, launches are cancelled, copies stop. A save or a restore of the function that is in
progress ends with result 1 (log entry 98). -/
def execFlrInitiate (f : Nat) (s : State) : Out :=
  if f ≥ 64 then .next s
  else
    let s1 := (span 0 16).foldl (fun s v => (s.cancelVcp f v).quietVcp f v) (s.cancelJob f)
    let s2 := s1.setFunc f { s1.func f with flr := true }
    .next (if s2.service.migVf = some f ∨ s2.service.restoring = some f then s2.endMig 1 else s2)

/-- Writes of a function's engines, or of its packets, are still on their way to another module. -/
def State.writesOut (s : State) (f : Nat) : Bool :=
  s.victimStores (s.fnPart f) || s.prog.remote.any fun r =>
    isStore r.op && decide (4096 ≤ r.lc) && (span 0 16).any fun v => keyOfVcp f v (r.lc - 4096)

/-- Job cancel: KILLS counts it, its report, once every engine write of the function has landed or stopped (R110); executed
again before that it only looks again. -/
def execJobCancel (f : Nat) (s : State) : Out :=
  if f ≥ 64 then .next s
  else
    let s1 := if (s.func f).cancelling then s else s.cancelJob f
    if s1.writesOut f then .next (s1.setFunc f { s1.func f with cancelling := true })
    else .next ((s1.setFunc f { s1.func f with cancelling := false }).count cKILLS (s.fnPart f))

/-- The VCPs of a list are given up one after another; the second part says whether all are at their reset values. -/
def State.wipeVcps (s : State) (f : Nat) : List Nat → State × Bool
  | [] => (s, true)
  | v :: l =>
    match s.wipeVcp f v with
    | (s1, true) => s1.wipeVcps f l
    | (s1, false) => (s1, false)

/-- FLR completes: error propagation outside the function's memory, once what has not started has been read, and everything
at its reset value. -/
def execFlrComplete (f : Nat) (s : State) : Out :=
  if !(s.func f).flr || s.writesOut f then .next s
  else
    match s.wipeVcps f (span 0 16) with
    | (s1, false) => .next s1
    | (s1, true) =>
      let s2 := s1.clearCalls f
      .next ((s2.setFunc f { s2.func f with flr := false, cancelling := false, winbase := 0 }).count cKILLS (s.fnPart f))

/-! ### Host memory for PF0's buffers (R14, R46, R62) -/

/-- The address of a host physical address, and the ranges that Q0 can reach. -/
def hostPa (a : Word) : Nat := 0x8000000000000 + a.toNat
def hostFits (a : Word) (n : Nat) : Bool := a.toNat + n ≤ 2 ^ 51

/-! ### Live migration (R46 to R48) -/

/-- The fields of MIGCMD as a write sets them. -/
def migFields (w : BitVec 32) (old : BitVec 32) : BitVec 32 :=
  BitVec.ofNat 32 (w.toNat / 2 ^ 17 % 2 ^ 13 * 2 ^ 17 + old.toNat % 16)
def migVfOf (w : BitVec 32) : Nat := w.toNat / 2 ^ 24 % 64
def migCmdOf (w : BitVec 32) : Nat := w.toNat / 2 ^ 30

/-- A write of MIGCMD takes its RW fields; a command starts where none is in progress (R6, R46). -/
def State.onMig (s : State) (cmd : Nat) (w : BitVec 32) (k : Nat → State → State) : State :=
  let s1 := { s with service := { s.service with migcmd := migFields w s.service.migcmd } }
  if migCmdOf w ≠ cmd then s
  else if s.service.migVf.isSome || s.service.restoring.isSome then s1.setMig 2
  else k (migVfOf w) s1

/-- cmd 1: packets stop starting. -/
def execMigSuspendSave (w : BitVec 32) (s : State) : Out :=
  .next (s.onMig 1 w fun f s =>
    if f = 0 ∨ s.bound f = false then s.setMig 3
    else { s.setMig 5 with service := { (s.setMig 5).service with migVf := some f, migDst := w.toNat / 2 ^ 17 % 128 } })

/-- The physical address in a leaf. -/
def State.rawPa (s : State) (f : Nat) (a : Word) : Option Nat :=
  match s.walkCtx (s.fnCtx f) a.toNat with
  | .leaf e l => some (bits e 16 36 * 2 ^ 16 + a.toNat % 2 ^ pageBits l)
  | _ => none

/-- Where a signal lies (R47, R48): its class and the address the proxy keeps; none where the save is BUSY. Whose memory a
page of this module is, no rule gives (log entry 95). -/
def State.signalClass (s : State) (f dst : Nat) (a : Word) (known : Option Nat) : Option (Nat × Word) :=
  match (known <|> s.rawPa f a) with
  | none => none
  | some pa =>
    if pa < 0xC000000000 then
      if Config.pageOwner s.tick (pa / 65536) = f then some (0, a)
      else if s.inDomain (s.fnPart f) dst then some (2, ofN (0x2000000000000 + s.devid.toNat * 2 ^ 40 + pa))
      else none
    else if 0x8000000000000 ≤ pa then some (1, a)
    else if 0x2000000000000 ≤ pa ∧ pa < 0x2800000000000 then
      let dev := (pa - 0x2000000000000) / 2 ^ 40
      if s.inDomain (s.fnPart f) dst && s.inDomain (s.fnPart f) dev then some (2, ofN pa) else none
    else none

/-- The WAITs of a VCP that have started. -/
def Vcp.waits (x : Vcp) : List Started := x.started.filter fun q => q.p.op == 4

/-- The signals of a WAIT with what is known of their addresses. -/
def Started.signals (q : Started) : List (Word × Option Nat) := ([q.p.q3, q.p.q4, q.p.q5].zip q.proxy).take (bits q.p.q6 0 2)

/-- The words of a packet entry. -/
def savedWords (v i n : Nat) (p : Rec) : List Word := p.words ++ [ofN (v + i * 2 ^ 32), ofN n]

/-- The entries of a VCP that have been notified and not started, as an image holds them; none where a slot does not hold
its packet. -/
def slotEntries (x : Vcp) (v : Nat) : List (Nat × Option Rec) → Option (List (List Word))
  | [] => some []
  | (_, none) :: _ => none
  | (k, some p) :: l => (slotEntries x v l).map fun r => savedWords v ((x.head + k) % 2 ^ 24) (x.seq + k) p :: r

/-- What the ring of a VCP gives a save: the entries, a wait for a read, or a slot that does not hold its packet yet. -/
inductive Saved where
  | ok (l : List (List Word)) (s : State) | wait (s : State)
  deriving DecidableEq, Repr

/-- The entries of VCPs: of each its WAITs, then what has not started. -/
def State.savedPackets (s : State) (f : Nat) : List Nat → Saved
  | [] => .ok [] s
  | v :: vs =>
    let x := s.vcp f v
    match s.unstarted f v with
    | .wait s1 => .wait s1
    | .ok l s1 =>
      match slotEntries x v l with
      | none => .wait (s1.forgetVcp f v)
      | some es =>
        match (s1.forgetVcp f v).savedPackets f vs with
        | .ok r s2 => .ok ((x.waits.map fun q => savedWords v q.index q.seq q.p) ++ es ++ r) s2
        | e => e

/-- Making the proxies of WAITs: their words, BUSY, or a wait for a value. -/
inductive Proxies where
  | ok (l : List (List Word)) (s : State) | busy (s : State) | wait (s : State)
  deriving DecidableEq, Repr

/-- Three words of a list, 0 beyond it. -/
def three (l : List Word) : List Word := [l.getD 0 0, l.getD 1 0, l.getD 2 0]

/-- The proxies of WAITs, each with its VCP. -/
def State.proxies (s : State) (f dst : Nat) : List (Nat × Started) → Proxies
  | [] => .ok [] s
  | (v, q) :: l =>
    let key := packetKey f v q.index
    let sg := q.signals
    match s.waitWords f key sg with
    | .wait s1 => .wait s1
    | .fail _ _ s1 => .busy (s1.forgetKey key)
    | .ok ws s1 =>
      let cl := sg.map fun x => s1.signalClass f dst x.1 x.2
      if cl.any Option.isNone then .busy (s1.forgetKey key)
      else
        let cs := cl.filterMap id
        let addrs := three ((cs.map Prod.snd) ++ [q.p.q3, q.p.q4, q.p.q5].drop cs.length)
        let info := cs.zipIdx.foldl (fun n c => n + c.1.1 * 4 ^ c.2 * 2 ^ 8) (bits q.p.q6 0 2)
        match (s1.forgetKey key).proxies f dst l with
        | .ok r s2 => .ok ((ofN (v + q.index * 2 ^ 32) :: addrs ++ three ws ++ [ofN info]) :: r) s2
        | e => e

/-- Words at successive places of a size. -/
def placed (off size : Nat) : List (List Word) → Words
  | [] => []
  | w :: l => wordsFrom off w ++ placed (off + size) size l

/-- The image header. -/
def State.migHeader (s : State) (f p w : Nat) (mask : Nat) : List Word :=
  [ofN (0x0960316A + 2 ^ 32 + f * 2 ^ 48 + s.devid.toNat * 2 ^ 56), ofN (mask + p * 2 ^ 32), ofN w,
    ofN (0x11000 + 128 * p + 64 * w), s.timestamp]

/-- What a saved page holds of the front end's own state of a VCP. -/
def Vcp.ownWords (x : Vcp) : List Word := [ofN x.seq, ofN (x.tail + vcpCode x.before * 2 ^ 32)]

/-- Set a VCP to suspended. -/
def Vcp.suspend (x : Vcp) : Vcp := { x with state := .suspended, before := if x.state = .suspended then x.before else x.state }

/-- Write the image. -/
def State.writeMig (s : State) (f : Nat) (vs : List Nat) (ps ws : List (List Word)) : State :=
  let b := hostPa s.service.migbuf
  let s1 := vs.foldl (fun s v => s.setVcp f v (s.vcp f v).suspend) s
  let s2 := (s1.zeroRange b (0x11000 + 128 * ps.length + 64 * ws.length)).putWords b
    (wordsFrom 0 (s1.migHeader f ps.length ws.length (vs.foldl (fun n v => n + 2 ^ v) 0)))
  let s3 := (span 0 16).foldl (fun s v =>
    let x := s1.vcp f v
    s.putWords (b + 0x1000 + 0x1000 * v) (wordsFrom 0 x.page ++ if vs.contains v then wordsFrom 0x800 x.ownWords else [])) s2
  (s3.putWords b (placed 0x11000 128 ps)).putWords b (placed (0x11000 + 128 * ps.length) 64 ws)

/-- A VCP can be saved: only WAITs that wait are left, and no discard runs. -/
def Vcp.savable (x : Vcp) : Bool :=
  (x.started.all fun q => q.p.op == 4 && q.ending.isNone) && (x.discard.isNone || x.paused)

/-- Once the started packets have completed, the image is written; else the function resumes. -/
def execMigSaveImageWrite (s : State) : Out :=
  match s.service.migVf with
  | none => .next s
  | some f =>
    let vs := (span 0 16).filter fun v => (s.vcp f v).state != .disabled
    if !(vs.all fun v => (s.vcp f v).savable) then .next s
    else
      match s.savedPackets f vs with
      | .wait s1 => .next s1
      | .ok ps s0 =>
        let waits := vs.flatMap fun v => (s.vcp f v).waits.map fun q => (v, q)
        match s0.proxies f s0.service.migDst waits with
        | .wait s1 => .next s1
        | .busy s1 => .next (s1.endMig 2)
        | .ok ws s1 =>
          let n := 0x11000 + 128 * ps.length + 64 * ws.length
          let a := s1.service.migbuf
          if n > s1.service.miglen.toNat ∨ a.toNat % 65536 ≠ 0 ∨ hostFits a n = false then .next (s1.endMig 4)
          else .next ((s1.writeMig f vs ps ws).endMig 1)

/-- An image as the front end has read it: its counts, and a word of it. -/
def State.migWord (s : State) (off : Nat) : Word := ofN (tget 0 s.service.image (off / 64) / 2 ^ (8 * (off % 64)))
def State.migEntries (s : State) : Nat := bits (s.migWord 8) 32 32
def State.migProxies (s : State) : Nat := bits (s.migWord 0x10) 0 32
def State.migEntry (s : State) (k i : Nat) : Word := s.migWord (0x11000 + 128 * k + 8 * i)
def State.migProxy (s : State) (k i : Nat) : Word := s.migWord (0x11000 + 128 * s.migEntries + 64 * k + 8 * i)
def State.migPage (s : State) (v i : Nat) : Word := s.migWord (0x1000 + 0x1000 * v + 8 * i)

/-- The index of an entry or a proxy, and its VCP. -/
def idxOf (w : Word) : Nat := bits w 32 24
def ownerOf (w : Word) : Nat := bits w 0 4

/-- Every entry and proxy names a saved VCP, with an index below its tail that its sequence number has. -/
def State.migConsistent (s : State) : Bool :=
  let saved := fun v => bit (s.migWord 8) v
  let within := fun v i =>
    ahead i (bits (s.migPage v 5) 0 24) < ahead (bits (s.migPage v 0x101) 0 24) (bits (s.migPage v 5) 0 24)
  ((span 0 s.migEntries).all fun k =>
    let w := s.migEntry k 8
    saved (ownerOf w) && within (ownerOf w) (idxOf w) && (s.migEntry k 9).toNat % 2 ^ 24 == idxOf w) &&
  (span 0 s.migProxies).all fun k =>
    let w := s.migProxy k 0
    bits (s.migProxy k 7) 0 2 != 0 && (span 0 s.migEntries).any fun j =>
      ownerOf (s.migEntry j 8) == ownerOf w && idxOf (s.migEntry j 8) == idxOf w && bits (s.migEntry j 0) 0 8 == 4

/-- The image passes the check of R48. -/
def State.migImageOk (s : State) : Bool :=
  let a := s.service.migbuf
  a.toNat % 65536 == 0 && hostFits a s.service.miglen.toNat && bits (s.migWord 0) 0 32 == 0x0960316A && bits (s.migWord 0) 32 16 == 1 &&
    (s.migWord 0x18).toNat == 0x11000 + 128 * s.migEntries + 64 * s.migProxies &&
    (s.migWord 0x18).toNat ≤ s.service.miglen.toNat && s.migConsistent

/-- The state that a code names. -/
def vcpStateOf : Nat → VcpState
  | 1 => .running | 2 => .stale | 3 => .error | 4 => .suspended | _ => .disabled

/-- The addresses that a proxy uses as saved: those of class 2. -/
def proxyAddrs (l : List Word) : List (Option Nat) :=
  (span 0 3).map fun i => if bits (l.getD 7 0) (8 + 2 * i) 2 = 2 then some (l.getD (1 + i) 0).toNat else none

/-- A VCP of the image. DESIGN CHOICE (log entry 76): a discard that stood still when the VCP was saved is over; an image has no
field for it (R48), so what it has not passed over starts once the VCP goes on. -/
def State.migVcp (s : State) (v : Nat) : Vcp :=
  let w := s.migPage v
  let entries := ((span 0 s.migEntries).filter fun k => ownerOf (s.migEntry k 8) == v).map fun k =>
    (idxOf (s.migEntry k 8), (s.migEntry k 9).toNat, Rec.ofWords ((span 0 8).map (s.migEntry k)))
  let prox := ((span 0 s.migProxies).filter fun k => ownerOf (s.migProxy k 0) == v).map fun k =>
    (idxOf (s.migProxy k 0), (span 0 8).map (s.migProxy k))
  let waiting := entries.filterMap fun e => (prox.find? fun x => x.1 == e.1).map fun x => (e, x.2)
  { Vcp.reset with
    ctl := ofN (bits (w 0) 0 1), ringbase := setBits (w 2) 0 12 0, ringsz := ofN (bits (w 3) 0 5), tag := BitVec.ofNat 32 (bits (w 1) 32 32), index := bits (w 1) 8 24
    code := bits (w 1) 4 4, perr := bit (w 1) 3, state := .suspended, head := bits (w 4) 0 24, done := bits (w 5) 0 24
    stalecnt := BitVec.ofNat 32 (bits (w 6) 0 32), pktcnt := BitVec.ofNat 32 (bits (w 7) 0 32), base := setBits (w 2) 0 12 0, lgsz := bits (w 3) 0 5
    seq := (w 0x100).toNat, tail := bits (w 0x101) 0 24, before := vcpStateOf (bits (w 0x101) 32 8)
    started := waiting.map fun y =>
      { index := y.1.1, uid := s.tick, seq := y.1.2.1, p := y.1.2.2, moved := [], skipped := 0, fault := none, proxy := proxyAddrs y.2
        matched := 0, limit := 0, ending := none, failed := none }
    restored := (entries.filter fun e => !(prox.any fun x => x.1 == e.1)).foldl (fun t e => tput e.1 e.2.2 t) [] }

/-- cmd 2: the image is to be read. -/
def execMigRestore (w : BitVec 32) (s : State) : Out :=
  .next (s.onMig 2 w fun f s =>
    if f = 0 ∨ s.bound f = false then s.setMig 3
    else if (span 0 16).any fun v => (s.vcp f v).state != .disabled then s.setMig 6
    else { s.setMig 5 with service := { (s.setMig 5).service with restoring := some f, imageAt := 0, image := [] } })

/-- The bytes of the image that are to be read: its first line, then as many as its header says, within the buffer. -/
def State.migNeed (s : State) : Nat :=
  let n := s.service.miglen.toNat
  if s.service.migbuf.toNat % 65536 ≠ 0 ∨ hostFits s.service.migbuf n = false then 0
  else if s.service.imageAt = 0 then min 64 n
  else if (s.migWord 0x18).toNat ≤ n then (s.migWord 0x18).toNat else 0

/-- The image has been read: it is checked, and its VCPs stand suspended. -/
def State.migDone (s : State) (f : Nat) : State :=
  if !s.migImageOk then s.endMig 4
  else ((span 0 16).foldl (fun t v => if bit (s.migWord 8) v then t.setVcp f v (s.migVcp v) else t) s).endMig 1

/-- The number under which the reads of PF0's buffers stand among the engines. -/
def bufferKey (k : Nat) : Nat := 2 ^ 20 + k * 2048 + 1029

/-- The restore in progress reads the next line of its image as PF0, or is at its end. DESIGN CHOICE (log entry 76): a read
that completes with an error makes the image a bad one; R46 does not say. -/
def State.migStep (s : State) : State :=
  match s.service.restoring with
  | none => s
  | some f =>
    let k := s.service.imageAt
    if s.migNeed ≤ 64 * k then s.migDone f
    else
      match s.reach 0 (bufferKey 0) (hostPa s.service.migbuf + 64 * k) 0 (.load 64) with
      | .wait s1 => s1
      | .bad s1 | .fault s1 => (s1.forgetKey (bufferKey 0)).endMig 4
      | .ok bs s1 =>
        let s2 := s1.forgetKey (bufferKey 0)
        { s2 with service := { s2.service with imageAt := k + 1, image := mput 0 k (leNat bs) s2.service.image } }

/-- A VCP takes back the state it had. -/
def Vcp.unsuspend (x : Vcp) : Vcp :=
  if x.state = .suspended then { x with state := if x.before = .stale then .running else x.before } else x

/-- cmd 3: suspended VCPs go on, and their WAITs are evaluated. -/
def execMigResume (w : BitVec 32) (s : State) : Out :=
  .next (s.onMig 3 w fun f s =>
    let vs := (span 0 16).filter fun v => (s.vcp f v).state == .suspended
    if vs = [] then s.setMig 6
    else
      let s1 := vs.foldl (fun s v => s.setVcp f v (s.vcp f v).unsuspend) s
      ((vs.flatMap fun v => (s1.vcp f v).waits.map fun q => (v, q)).foldl (fun s x =>
        if x.2.ending.isNone then s.evaluate f x.1 x.2 else s) s1).setMig 1)

/-! ### Attestation (R61, R62) -/

def State.attResult (s : State) : Nat := s.service.attcmd.toNat % 16
def State.setAtt (s : State) (n : Nat) : State :=
  { s with service := { s.service with attcmd := BitVec.ofNat 32 (s.service.attcmd.toNat / 16 * 16 + n % 16) } }

/-- A write of ATTCMD takes its RW field; a command starts where none is in progress, with n bytes in its buffer (R6, R62).
DESIGN CHOICE (log entry 112): the fn of a report is bad where it names no bound function, it is looked at before the buffer,
and a read of the certificate does not look at it; R62 gives no condition for result 2. -/
def State.onAtt (s : State) (cmd : Nat) (w : BitVec 32) (n : Nat) (fn : Nat → Option Nat) : State :=
  let f := w.toNat / 2 ^ 24 % 64
  let s1 := { s with service := { s.service with attcmd := BitVec.ofNat 32 (f * 2 ^ 24 + s.attResult) } }
  if w.toNat / 2 ^ 30 ≠ cmd then s
  else if s.service.attBusy then s1.setAtt 4
  else
    let a := s.service.attbuf
    if cmd = 1 ∧ s.bound f = false then s1.setAtt 2
    else if a.toNat % 64 ≠ 0 ∨ hostFits a n = false then s1.setAtt 3
    else
      let s2 := s1.setAtt 5
      { s2 with service := { s2.service with attBusy := true, attFn := fn f } }

/-- The report of a function for a nonce, up to its signature. -/
def State.reportBody (s : State) (f : Nat) (nonce : List Byte) : List Byte :=
  let flags := (s.boot.debug).toNat + (if s.modState = 2 then 2 else 0) + (if s.modState = 4 then 4 else 0)
  leBytes 4 0x0960A77E ++ leBytes 2 1 ++ leBytes 2 flags ++ leBytes 8 Config.serialNumber.toNat ++
    leBytes 4 s.boot.svnRunning ++ leBytes 4 s.boot.svn ++ leBytes 8 s.timestamp.toNat ++ nonce ++
    s.boot.meas.toList.flatMap hashBytes ++ leBytes 8 (f + s.fnPart f * 2 ^ 8 + s.devid.toNat * 2 ^ 16) ++
    hashBytes (sha384 identityKey) ++ leBytes 8 0

/-- The certificate of the part, and what a buffer receives of it: its length and its bytes. -/
def certBytes : List Byte :=
  let c := Config.certificate.take 4096
  leBytes 4 c.length ++ c

/-- cmd 1: the report over the buffer. -/
def execAttReport (w : BitVec 32) (s : State) : Out := .next (s.onAtt 1 w 512 some)

/-- cmd 2: the length of the certificate, and its bytes. -/
def execAttReadCertificate (w : BitVec 32) (s : State) : Out := .next (s.onAtt 2 w certBytes.length fun _ => none)

/-- A monitor runs: a quay die has reached it, and some core of the die has not halted (R51, R58). -/
def State.monitorRuns (s : State) : Bool :=
  (span 0 16).any fun n => s.boot.quayUp.toList.getD (n / 8) false && (s.fe n).released && !(s.fe n).halted

/-- The command in progress ends with a result, whatever result a write has left meanwhile. -/
def State.endAtt (s : State) (n : Nat) : State :=
  let s1 := s.setAtt n
  { s1 with service := { s1.service with attBusy := false, attFn := none } }

/-- The report of a function for a nonce, with its signature. -/
def State.report (s : State) (f : Nat) (nonce : List Byte) : List Byte :=
  let b := s.reportBody f nonce
  b ++ ecdsaSign (hashBytes (sha384 b))

/-- Bytes go to PF0's buffer as posted writes of Q0. -/
def State.putBuffer (s : State) (bs : List Byte) : State := s.hostWrite 0 (span (hostPa s.service.attbuf) bs.length) bs

/-- The command in progress goes on, only with a monitor that runs (R59): a report reads its nonce as PF0, and once that is
there the buffer is written. DESIGN CHOICE (log entry 112): a read of the nonce that completes with an error makes the buffer a bad
one; R62 does not say. -/
def execAttComplete (s : State) : Out :=
  if !s.service.attBusy || !s.monitorRuns then .next s
  else
    match s.service.attFn with
    | none => .next ((s.putBuffer certBytes).endAtt 1)
    | some f =>
      match s.reach 0 (bufferKey 1) (hostPa s.service.attbuf) 0 (.load 32) with
      | .wait s1 => .next s1
      | .bad s1 | .fault s1 => .next ((s1.forgetKey (bufferKey 1)).endAtt 3)
      | .ok nonce s1 => .next (((s1.forgetKey (bufferKey 1)).putBuffer (s1.report f nonce)).endAtt 1)

/-! ### Registers (R5, R6, R32) -/

/-- Change PF0's service registers. -/
def State.setService (s : State) (x : Service) : State := { s with service := x }

/-- A write of MIGCMD, of ATTCMD, by its command. -/
def migWrite (w : BitVec 32) (s : State) : Out :=
  match migCmdOf w with
  | 1 => execMigSuspendSave w s
  | 2 => execMigRestore w s
  | 3 => execMigResume w s
  | _ => .next (s.setService { s.service with migcmd := migFields w s.service.migcmd })
def attWrite (w : BitVec 32) (s : State) : Out :=
  match w.toNat / 2 ^ 30 with
  | 1 => execAttReport w s
  | 2 => execAttReadCertificate w s
  | _ => .next (s.setService { s.service with attcmd := BitVec.ofNat 32 (w.toNat / 2 ^ 24 % 64 * 2 ^ 24 + s.attResult) })

/-- A doubleword of BAR0 as a read gives it (R32): reserved offsets read as 0, the service registers in PF0 alone, the
write-only command fields as 0. -/
def State.bar0Word (s : State) (f off : Nat) : Word :=
  let x := s.func f
  if off = 0 then ofN (f * 2 ^ 16 + 16 * 2 ^ 8 + 1)
  else if off = 8 then s.boot.modstat.zeroExtend 64
  else if off = 0x10 then x.winbase
  else if off = 0x18 then x.barerr.zeroExtend 64
  else if 0x1000 ≤ off ∧ off < 0x1040 then ofN ((s.vcp f ((off - 0x1000) / 4)).tail + (s.vcp f ((off - 0x1000) / 4 + 1)).tail * 2 ^ 32)
  else if 0x2000 ≤ off ∧ off < 0x2110 then tget 0 x.msix ((off - 0x2000) / 8)
  else if off = 0x2800 then x.pba.zeroExtend 64
  else if f ≠ 0 then 0
  else if off = 0x3000 then s.service.migcmd.zeroExtend 64
  else if off = 0x3008 then s.service.migbuf
  else if off = 0x3010 then s.service.attcmd.zeroExtend 64
  else if off = 0x3018 then s.service.attbuf
  else if off = 0x3020 then s.service.miglen
  else 0

/-- A host read of BAR0; one of BARERR clears it. -/
def State.readBar0 (s : State) (f off n : Nat) : State :=
  if f ≥ 64 ∨ off + n > 0x4000 ∨ s.service.tlps ≠ [] then s
  else
    let s1 := s.hostReads ((span off n).map fun a => BitVec.ofNat 8 (bits (s.bar0Word f (a / 8 * 8)) (8 * (a % 8)) 8))
    if (span off n).any (fun a => 0x18 ≤ a && a < 0x1C) then s1.setFunc f { s1.func f with barerr := 0 } else s1

/-- The next state of an outcome; a stop leaves the state. -/
def Out.stateOr (s : State) (o : Out) : State :=
  match o with
  | .next t => t
  | _ => s

/-- A write of a BAR0 register: read-only and reserved offsets change nothing, and PF0 alone has the service
registers. -/
def State.writeRegister (s : State) (f off : Nat) (w : Word) : State :=
  let w32 : BitVec 32 := BitVec.ofNat 32 (bits w 0 32)
  if f ≥ 64 then s
  else if off = 0x10 then s.setFunc f { s.func f with winbase := setBits w 0 16 0 }
  else if 0x1000 ≤ off ∧ off < 0x1040 ∧ off % 4 = 0 then s.takeNotify f ((off - 0x1000) / 4) w32
  else if 0x2000 ≤ off ∧ off < 0x2110 ∧ off % 8 = 0 then
    s.setFunc f { s.func f with msix := tput ((off - 0x2000) / 8) w (s.func f).msix }
  else if f ≠ 0 then s
  else
    match off with
    | 0x3000 => (migWrite w32 s).stateOr s
    | 0x3008 => s.setService { s.service with migbuf := w }
    | 0x3010 => (attWrite w32 s).stateOr s
    | 0x3018 => s.setService { s.service with attbuf := w }
    | 0x3020 => s.setService { s.service with miglen := w }
    | _ => s

/-! ### Write TLPs in the order of their arrival (R220) -/

/-- A write TLP is committed, or waits; the second part says whether it is. -/
def State.commit (s : State) : Tlp → State × Bool
  | .bar2 f off data => (s.bar2Write f off data, true)
  | .bar4 f off data => s.bar4Write f off data
  | .notify f v w => (s.takeNotify f v w, true)
  | .register f off w => (s.writeRegister f off w, true)

/-- A write TLP arrives: it is committed, unless it waits or another before it does. -/
def State.arrive (s : State) (t : Tlp) : Out :=
  if s.service.tlps ≠ [] then .next (s.setService { s.service with tlps := s.service.tlps ++ [t] })
  else
    match s.commit t with
    | (s1, true) => .next s1
    | (s1, false) => .next (s1.setService { s1.service with tlps := [t] })

/-- The k-th TLP that waits is committed, if it may be: the first one, or one with relaxed ordering. -/
def State.commitAt (s : State) (k : Nat) : State :=
  match s.service.tlps[k]? with
  | none => s
  | some t =>
    let l := removeAt s.service.tlps k
    match s.commit t with
    | (s1, true) => s1.setService { s1.service with tlps := l }
    | (s1, false) => s1

def execBar2Write (f off : Nat) (data : List Byte) (s : State) : Out := s.arrive (.bar2 f off data)
def execBar4Write (f off : Nat) (data : List Byte) (s : State) : Out := s.arrive (.bar4 f off data)
def execNotify (f v : Nat) (w : BitVec 32) (s : State) : Out := s.arrive (.notify f v w)
def execRegisterWrite (f off : Nat) (w : Word) (s : State) : Out := s.arrive (.register f off w)

end Sys2Proof.Machine
end

