-- ==== Sys2Proof/Machine/Firmware.lean ====
section
/-! DEFINITION. Boot, measurements, service, graph images and replay (R26, R51, R57 to R60, R109, R121, R155,
R219, R244, R299 to R304). -/

namespace Sys2Proof.Machine

/-! ### Signed images (R57, R58) -/

/-- A field of n bytes of an image. -/
def imgBytes (b : List Byte) (off n : Nat) : List Byte := (b.drop off).take n
def imgField (b : List Byte) (off n : Nat) : Nat := leNat (imgBytes b off n)
def imgLen (b : List Byte) : Nat := imgField b 0x0C 4
def imgBody (b : List Byte) : List Byte := imgBytes b 0x200 (imgLen b)
def imgLoad (b : List Byte) : Nat := imgField b 0x10 8
def imgEntry (b : List Byte) : Nat := imgField b 0x18 8
def imgSvn (b : List Byte) : Nat := imgField b 8 4

/-- An image of a kind is accepted: its form, its hash, its signature, and its signer's key. DESIGN CHOICE (log entry 99): an
address is in range where the whole body lies in the local HBM; an entry that is not a multiple of 4, and an image that is
not exactly its header and body, are rejected too: R57 gives no bounds. -/
def imageGood (b : List Byte) (kind : Nat) (key : List Byte → Bool) : Bool :=
  let n := imgLen b
  imgField b 0 4 == 0x0960B007 && imgField b 4 2 == kind && imgField b 6 2 ≤ 1 && imgSvn b ≤ 63 && n % 64 == 0 && n ≤ 2 ^ 24 &&
    b.length == 0x200 + n && imgLoad b + n ≤ 0xC000000000 && imgLoad b ≤ imgEntry b && imgEntry b < imgLoad b + n &&
    imgEntry b % 4 == 0 && imgField b 0xB0 16 == 0 && imgField b 0x120 224 == 0 &&
    hashBytes (sha384 (imgBody b)) == imgBytes b 0x20 48 && key (imgBytes b 0x50 96) &&
    ecdsaVerify (hashBytes (sha384 (b.take 0xC0))) (imgBytes b 0xC0 96) (imgBytes b 0x50 96)

/-- A root key: its hash is fused and not revoked. DESIGN CHOICE (log entry 100): these two are also the Aedosh keys that may
sign a scheduler; R58 does not list those. -/
def rootKey (k : List Byte) : Bool :=
  [0, 1].any fun i => sha384 k == Config.rootKeyHash i && !Config.rootKeyRevoked i

/-- Load an image's body. -/
def State.loadBody (s : State) (b : List Byte) : State := s.writeMem (span (imgLoad b) (imgLen b)) (imgBody b)

/-- Every front-end core of a quay die is released and enters a level at an address. -/
def State.enterQuay (s : State) (q priv entry : Nat) : State :=
  (span (8 * q) 8).foldl (fun s n =>
    let c := s.fe n
    s.setFe n { c with released := true, priv := priv, h := { c.h with pc := entry / 4, sent := [], stalled := false } }) s

/-- The `eret` with which the monitor enters the scheduler on every front-end core (R51, R58): FEPREV names level 1 and
FEEPC the entry, and the return takes both. -/
def State.enterScheduler (s : State) (q entry : Nat) : State :=
  (span (8 * q) 8).foldl (fun s n => s.setFe n { s.fe n with epc := BitVec.ofNat 52 entry, prev := 1 }) (s.enterQuay q 1 entry)

/-- Quay die state. -/
def State.setQuay (s : State) (q : Nat) (b : Boot → Fin 2 → Boot) : State :=
  if h : q < 2 then { s with boot := b s.boot ⟨q, h⟩ } else s

/-- The monitor of a quay die checks and enters the scheduler; a monitor that commits its SVN raises the fuses. DESIGN CHOICE (log
entry 100): R58 speaks of one fused SVN, which serves both quay dies; die 0 boots first, so what its monitor commits counts
in die 1's check. -/
def State.bootScheduler (s : State) (q slot : Nat) (m : List Byte) : State :=
  let b := Config.flashScheduler q slot
  if !imageGood b 2 (fun k => rootKey k || Config.makerKey k) then s
  else
    let s1 := ((s.loadBody b).extend 2 (sha384 (imgBody b))).enterScheduler q (imgEntry b)
    if imgField m 6 2 % 2 = 1 then { s1 with boot := { s1.boot with svn := max s1.boot.svn (imgSvn m) } } else s1

/-- The boot ROM of a quay die: slot A, else slot B, else the module has failed. -/
def State.bootQuay (s : State) (q : Nat) : State :=
  let ok := fun slot => let b := Config.flashMonitor q slot; imageGood b 1 rootKey && s.boot.svn ≤ imgSvn b
  let s0 := s.extend 0 Config.romHash
  match [0, 1].find? ok with
  | none =>
    ((s0.setQuay q fun b i => { b with romStatus := b.romStatus.set i (Config.romReason q) }).setModState 15).setFe (8 * q)
      { (s0.setModState 15).fe (8 * q) with halted := true }
  | some slot =>
    let b := Config.flashMonitor q slot
    let s1 := if slot = 1 then s0.count cBOOTALT q else s0
    let s2 := ((s1.loadBody b).extend 1 (sha384 (imgBody b))).enterQuay q 2 (imgEntry b)
    let s3 := s2.setQuay q fun x i => { x with quayUp := x.quayUp.set i true, svnRunning := imgSvn b }
    s3.bootScheduler q slot b

/-- Power good: everything at its reset value but the fuses, the host's memory and what the outside holds; then
each quay die boots. -/
def State.powerUp (s : State) : State :=
  { State.reset with
    tick := s.tick, agent := s.agent, inputs := s.inputs, devid := s.devid
    mem := { Mem.reset with bytes := s.mem.bytes.filter fun c => s.region c.1 == .host }
    boot := { Boot.reset with svn := s.boot.svn } }

/-- State 0 becomes 1 when the monitor runs on both quay dies (R26). -/
def State.quaysUp (s : State) : State := if s.boot.quayUp.toList.all id && s.modState == 0 then s.setModState 1 else s

def execPowerGood (s : State) : Out := .next ((s.powerUp.bootQuay 0).bootQuay 1).quaysUp

/-- The boot ROM of a quay die whose monitor does not run yet, after a module reset (DEDUCED: states 4 and 15 are left by
one, so a module boots after it; log entry 103). -/
def State.bootAgain (s : State) (q : Nat) : State :=
  if q ≥ 2 ∨ s.boot.quayUp.toList.getD q true ∨ (s.fe (8 * q)).halted then s else (s.bootQuay q).quaysUp

/-- A module reset: state 0. Measurements and the debug flag last until power is lost. -/
def execModuleReset (s : State) : Out :=
  .next { State.reset with
    tick := s.tick, agent := s.agent, inputs := s.inputs, devid := s.devid, mem := { Mem.reset with bytes := s.mem.bytes }
    boot := { Boot.reset with svn := s.boot.svn, debug := s.boot.debug, meas := s.boot.meas } }

/-! ### Service (R26, R51) -/

/-- MODSTAT's bits from 8 on. -/
def State.setStat (s : State) (i : Nat) (v : Bool) : State :=
  let w := s.boot.modstat.toNat
  { s with boot := { s.boot with modstat := BitVec.ofNat 32 (w - w / 2 ^ i % 2 * 2 ^ i + v.toNat * 2 ^ i) } }

/-- The state of the module changes: rails and tiles follow. -/
def State.toState (s : State) (n : Nat) : State := if s.modState = n then s else (s.setModState n).retuneAll

/-- A die passes, with those of its two stacks that have trained. -/
def execTileDiePass (die : Nat) (hbm : BitVec 2) (s : State) : Out :=
  if die ≥ 8 ∨ (s.modState ≠ 1 ∧ s.modState ≠ 2) then .next s
  else
    let s1 := ((s.setStat (24 + die) true).setStat (8 + 2 * die) hbm[0]).setStat (9 + 2 * die) hbm[1]
    .next ((s1.setDie die { s1.die die with inService := true }).toState 2)

/-- Bring-up ends: full service, degraded, or failed; a die that has not passed is not in the logical-to-physical table
(R26, R27). -/
def execBringupEnd (s : State) : Out :=
  let w := s.boot.modstat.toNat
  if s.modState ≠ 1 ∧ s.modState ≠ 2 then .next s
  else
    let s1 := s.toState (if w / 2 ^ 24 = 0 then 15 else if w / 2 ^ 8 = 0xFFFFFF then 3 else 4)
    .next (if s1.modState = 4 then (span 0 1024).foldl (fun s lc => s.unmapGone lc) s1 else s1)

/-- The other quay die's monitor has missed the bound. -/
def execQuayBringupTimeout (q : Nat) (s : State) : Out :=
  let up := s.boot.quayUp.toList
  .next (if up.getD q false && !(up.getD (1 - q) false) then s.toState 15 else s)

/-- A trap at monitor level halts its core. -/
def execMonitorTrapHalt (n : Nat) (s : State) : Out :=
  if n < 16 ∧ (s.fe n).priv = 2 ∧ (s.fe n).halted = false then .next (s.haltFe n) else .next s

/-- The partitions with a core on a die. -/
def State.partsOn (s : State) (die : Nat) : List Nat :=
  (span 0 256).filter fun p => (s.coresOf p).any fun lc => s.mapped lc && s.dieOf lc == die

/-- The scheduler withdraws a die (0 to 7) or a stack (8 to 23): partitions that use the die are killed; their
cores there are unmapped when the kill completes. -/
def execDieWithdraw (part : Nat) (s : State) : Out :=
  if s.modState < 2 ∨ 4 < s.modState then .next s
  else if part < 8 then
    if (s.die part).inService = false then .next s
    else
      let s1 := (s.setStat (24 + part) false).setDie part { s.die part with inService := false }
      let s2 := (s.partsOn part).foldl (fun s p => s.killPart p) s1
      .next (s2.toState (if s2.boot.modstat.toNat / 2 ^ 24 = 0 then 15 else if s.modState = 2 then 2 else 4))
  else if part < 24 then .next ((s.setStat part false).toState (if s.modState = 2 then 2 else 4))
  else .next s

/-! ### Plug-ins and measurements (R58, R60) -/

/-- The monitor, where it runs, checks and loads a plug-in of a partition that exists; a call of it that runs goes on (R58). -/
def execPluginLoad (p plg : Nat) (image : List Byte) (s : State) : Out :=
  if plg ≥ 256 || !s.monitorRuns || s.coresOf p == [] || !imageGood image 3 (fun k => k == Config.operatorKey p) then .next s
  else
    let s1 := (s.loadBody image).extend 3 (sha384 (imgBody image))
    .next (s1.setPlugin plg { s1.plugin plg with loaded := true, disabled := false, failures := 0, entry := imgEntry image })

/-- The hash of the configuration that stands installed: the partition table, the route table, and the launch validation
table without its keys; how their words lie in what is hashed, R60 does not give (log entry 101). -/
def State.configHash (s : State) : BitVec 384 :=
  sha384 (Config.configBytes
    [(span 0 (feSize 24)).map (s.entry 24), (span 0 (feSize 14)).map (s.entry 14),
      (span 0 (feSize 13 / 2)).map fun k => s.entry 13 (2 * k)])

/-- The monitor extends MEAS4 at the scheduler's request, with the hash of the configuration installed; the load of a plug-in
extends MEAS3 itself, and that of a graph code image MEAS5 (R60). -/
def execMeasExtend (i : Nat) (h : BitVec 384) (s : State) : Out :=
  .next (if i = 4 ∧ h = s.configHash then s.extend 4 h else s)

/-! ### Path summaries (R118, R120, R121) -/

/-- A summary of its fields. -/
def mkSum (l k e : Nat) : BitVec 16 := BitVec.ofNat 16 (2 ^ 15 + l % 8 * 2 ^ 12 + e % 8 * 2 ^ 9 + k % 256)

/-- Compose: along a path, the first argument first. -/
def composeSum (a b : BitVec 16) : BitVec 16 :=
  if !sumV a || !sumV b then 0
  else if sumL b ≤ sumE a then
    if sumE a = sumL b then mkSum (sumL a) (min 255 (sumK a + sumK b)) (sumE b)
    else mkSum (sumL a) (sumK a) (sumE a - sumL b + sumE b)
  else mkSum (sumL a + sumL b - sumE a) (sumK b) (sumE b)

/-- Meet: across paths. -/
def meetSum (a b : BitVec 16) : BitVec 16 :=
  if !sumV a then b
  else if !sumV b then a
  else if sumL a = sumL b then mkSum (sumL a) (min (sumK a) (sumK b)) (sumE a)
  else if sumL b < sumL a then mkSum (sumL a) 0 (sumE a)
  else mkSum (sumL b) 0 (sumE b)

/-- A summary is consistent with the depths of its ends, and has no reserved bit or value. -/
def sumOk (da db : Nat) (m : BitVec 16) : Bool :=
  if !sumV m then m == 0
  else
    sumL m ≤ 4 && sumE m ≤ 4 && m.toNat / 256 % 2 == 0 && sumL m ≤ da && da - sumL m + sumE m == db && (sumL m != da || sumK m == 0)

/-- A table is one a slot can be made resident with. -/
def tableOk (t : Table (BitVec 16)) (n exit : Nat) (depths : List Nat) : Bool :=
  let T := fun a b => tget 0 t (64 * a + b)
  let st := span 0 n
  let d := fun a => depths.getD a 0
  t.all (fun e => e.1 / 64 < n && e.1 % 64 < n || e.2 == 0) && st.all (fun a => T a a == 0x8000 && sumV (T a exit)) &&
    st.all (fun a => st.all fun b => sumOk (d a) (d b) (T a b)) &&
    st.all (fun a => st.all fun b => st.all fun c =>
      !(sumV (T a b) && sumV (T b c)) || meetSum (T a c) (composeSum (T a b) (T b c)) == T a c) &&
    st.all fun a => st.all fun b =>
      let m := composeSum (T a b) (T b a)
      a == b || !(sumV (T a b) && sumV (T b a)) || !(sumL m == sumE m && sumK m == 0)

/-! ### Loading an image (R299 to R304, R155, R219) -/

/-- The image is one that the scheduler level takes. -/
def Image.ok (im : Image) : Bool :=
  im.eflags ≤ 1 && im.magic == 0x09600A9F && 1 ≤ im.stations && im.stations ≤ 64 && im.exit < im.stations &&
    im.text.length ≤ 2 ^ 24 && im.textVa.toNat % 65536 == 0 && im.rodataVa.toNat % 65536 == 0 && im.dataVa.toNat % 65536 == 0 &&
    im.pflags.length == 3 && im.codeSize == 4 * im.text.length && im.cellarSize == im.cellar.length && im.zero006 == 0 &&
    im.zero0A0.all (· == 0) && im.cellar.length % 64 == 0 && im.cellar.length ≤ 0x60000 && im.depths.length ≤ 64 && im.depths.all (· ≤ 4) &&
    (im.depths.drop im.stations).all (· == 0) && im.resources.length ≤ 16 &&
    im.resources.all (fun r => r.toNat / 2 ^ 10 % 2 ^ 21 == 0) && bits im.handler 27 36 == 0 && bits im.handler 24 3 ≤ 4 &&
    tableOk im.summaries im.stations im.exit im.depths

/-- The CELOFF19 relocations, C + S + A into bits [18:0]: none where one lies outside the quarter's 384 KiB or the code. -/
def relocate (base : Nat) (text : List (BitVec 32)) : List (Nat × Int) → Option (List (BitVec 32))
  | [] => some text
  | (i, x) :: l =>
    let v := (base : Int) + x
    if v < 0 ∨ v ≥ 0x60000 ∨ i ≥ text.length then none
    else relocate base (modifyAt (fun w => BitVec.ofNat 32 (w.toNat / 2 ^ 19 * 2 ^ 19 + v.toNat)) text i) l

/-- The tier of a place of this module's memory that a page or a table may have; none for any other. -/
def State.placeTier (s : State) (pa : Nat) : Option Nat :=
  match s.region pa with
  | .hbm a => if a = pa ∧ s.populated 0 pa then some 0 else none
  | .attic => if s.populated 1 pa then some 1 else none
  | _ => none

/-- Make an 8 KiB table empty. -/
def State.clearTable (s : State) (pa : Nat) : State :=
  { s with mem := { s.mem with
      bytes := s.mem.bytes.filter fun c => !inPage pa 8192 c.1
      badLines := s.mem.badLines.filter fun e => !inPage (pa / 64) 128 e.1 } }

/-- The place of the level-3 entry of an address, under a table at a base: a table that is not there yet is made from the
places given. None where a larger page covers the address, an entry cannot be read, or no place for a table is left (R199). -/
def State.entryPlace (s : State) (va : Nat) : List Nat → Nat → List Nat → Option (Nat × List Nat × State)
  | [], base, free => some (base + 8 * (va / 2 ^ 16 % 1024), free, s)
  | j :: js, base, free =>
    let ea := base + 8 * (va / 2 ^ (46 - 10 * j) % 1024)
    let e := s.mem64 ea
    if s.badAt ea then none
    else if bit e 0 then if bit e 1 then none else s.entryPlace va js (bits e 13 39 * 2 ^ 13) free
    else
      match free with
      | [] => none
      | t :: free =>
        if (s.placeTier (8192 * t)).isNone then none
        else ((s.clearTable (8192 * t)).setMem64 ea (BitVec.ofNat 64 (8192 * t + 1))).entryPlace va js (8192 * t) free

/-- Map a 64 KiB page of a context, and drop what was translated before; the answer has the tables left. -/
def State.mapPage (s : State) (ctx va pa rights : Nat) (free : List Nat) : Option (List Nat × State) :=
  let root := s.entry 11 ctx
  match s.placeTier pa, (if bit root 63 then s.entryPlace va [0, 1, 2] (bits root 13 39 * 2 ^ 13) free else none) with
  | some tier, some (ea, free, s1) =>
    some (free, (s1.setMem64 ea (BitVec.ofNat 64 (pa / 2 ^ 16 * 2 ^ 16 + 256 * tier + rights + 3))).dropXlats (fun _ => false) ctx va 16)
  | _, _ => none

/-- Map and write a segment, page by page, with the pages and tables given: the answer has those left. -/
def State.putSegment (s : State) (ctx rights : Nat) : Nat → Nat → List Byte → List Nat → List Nat → Option (List Nat × List Nat × State)
  | 0, _, _, pages, free => some (pages, free, s)
  | n + 1, va, bs, pages, free =>
    if bs = [] then some (pages, free, s)
    else
      match pages with
      | [] => none
      | p :: pages =>
        match s.mapPage ctx va (65536 * p) rights free with
        | none => none
        | some (free, s1) =>
          let l := span (65536 * p) (min bs.length 65536)
          ((s1.homeWrite l).writeMem l (bs.take 65536)).putSegment ctx rights n (va + 65536) (bs.drop 65536) pages free

/-- The rights of the pages of an image's segments: `.text` R X, `.rodata` R, `.data` R W, and E where bit 28 of its p_flags
requests it (R199, R300). -/
def Image.rights (im : Image) (k base : Nat) : Nat := base + (if (im.pflags.getD k 0).getLsbD 28 then 0x40 else 0)

/-- Map an image's segments in a context and write them (R303 step 3). -/
def State.mapImage (s : State) (ctx : Nat) (im : Image) (text : List Byte) : Option State :=
  let put := fun (k base : Nat) (va : Word) (bs : List Byte) (x : List Nat × List Nat × State) =>
    x.2.2.putSegment ctx (Image.rights im k base) (bs.length / 65536 + 1) va.toNat bs x.1 x.2.1
  ((put 0 (needR + needX) im.textVa text (im.pages, im.tables, s)).bind fun x =>
    (put 1 needR im.rodataVa im.rodata x).bind fun x =>
      put 2 (needR + needW) im.dataVa (im.data ++ List.replicate im.bss 0) x).map fun x => x.2.2

/-- Invalidate the instruction caches of a partition's tiles. -/
def State.dropIcaches (s : State) (p : Nat) : State := s.eachCore p fun s lc => if s.mapped lc then s.dropIcache (s.tileOf lc) else s

/-- Subscribe n cores of a landing's pool: those with the fewest subscriptions, the lowest first. -/
def State.subscribeMin (s : State) (p : Nat × Nat) : Nat → State
  | 0 => s
  | n + 1 =>
    let free := (s.pool p).filter fun c => !(s.core c).subs.contains p && decide ((s.core c).subs.length < 4)
    match leastBy (fun a b => decide ((s.core a).subs.length < (s.core b).subs.length)) free with
    | some c => (s.subscribe p c).subscribeMin p n
    | none => s

/-- A landing of a slot at its load: its home die is that of its pool's first core. -/
def State.openLanding (s : State) (g st : Nat) : State :=
  let e := s.entry 5 (64 * g + st)
  (s.setLanding g st { Landing.reset with home := 16 * s.dieOf (bits e 54 10) }).subscribeMin (g, st) (bits e 34 10)

/-- Make a slot resident. -/
def State.makeResident (s : State) (g : Nat) (x : Graph) : State :=
  let s1 := { s with prog := { s.prog with
    graphs := tput g x s.prog.graphs, roots := tput g Root.reset s.prog.roots
    collNum := s.prog.collNum.filter fun e => e.1 / 2 ^ 42 != g } }
  let s2 := (span 0 8).foldl (fun s d =>
    s.setDie d { s.die d with frontiers := (s.die d).frontiers.filter fun e => e.1 / 64 != g }) s1
  (span 0 x.stations).foldl (fun s st => s.openLanding g st) s2

/-- A load is refused, and the refusal reported to the loader: the slot and the function that it was for. -/
def State.refuseLoad (s : State) (g f : Nat) : State := { s with service := { s.service with refused := s.service.refused ++ [(g, f)] } }

/-- An image is loaded for a function: relocated, mapped, copied, measured, and its slot made resident; an image that
fails a check, or whose segments cannot be mapped with the places given, is refused. -/
def execGraphImageLoad (g f base home : Nat) (im : Image) (s : State) : Out :=
  let p := s.fnPart f
  let no := s.refuseLoad g f
  if g ≥ 16 ∨ f ≥ 64 ∨ home ≥ 128 ∨ (s.graph g).isSome ∨ s.bound f = false ∨ Image.ok im = false ∨ base % 64 ≠ 0 ∨
      base + im.cellar.length > bits (s.entry 17 p) 0 19 then .next no
  else
    match relocate base im.text im.celoff with
    | none => .next no
    | some text =>
      let bytes := text.flatMap fun w => leBytes 4 w.toNat
      match s.mapImage (s.fnCtx f) im bytes with
      | none => .next no
      | some s3 =>
        let s4 := s3.eachCore p fun s lc => s.writeCellar (span (cellarKey lc base) im.cellar.length) im.cellar
        let s5 := (s4.dropIcaches p).feWrite 10 (16 * p + g) im.handler
        let x : Graph :=
          { fn := f, text := im.textVa, words := text.length, stations := im.stations, exit := im.exit, depths := im.depths
            table := im.summaries, resources := im.resources, home := home, cellarBase := base, overlays := im.eflags == 1 }
        .next ((s5.extend 5 (sha384 bytes)).makeResident g x)

/-! ### Unloading (R109) -/

/-- Nothing of a slot is left: no count, no launch, no record, no delta. -/
def State.slotEmpty (s : State) (g : Nat) : Bool :=
  let r := s.root g
  let p := s.prog
  r.launches == [] && (r.failed || (r.counts == [] && r.requests == [])) &&
    p.flights.all (fun x => x.rcd.graph != g) && p.landings.all (fun e => e.1 / 64 != g || e.2.recs == []) &&
    p.held7.all (fun x => x.2.graph != g) && p.deliveries.all (fun x => x.rcd.graph != g) &&
    p.nodes.all (fun e => e.2.all fun d => d.g != g) && p.batches.all (fun b => b.deltas.all fun d => d.g != g) &&
    s.cores.all fun e =>
      e.2.frames.all (fun f => f.graph != g) && e.2.inbox.all (fun q => q.2.rcd.graph != g) &&
        e.2.spill.all (fun q => q.rcd.graph != g) && e.2.buffer7.all (fun r => r.graph != g) &&
        e.2.progress.all fun d => d.g != g

/-- The subscriptions to a landing end; LMOVE counts each (R157). -/
def State.closeLanding (s : State) (k : Nat × Nat) : State :=
  ((span 0 1024).filter fun lc => (s.core lc).subs.contains k).foldl (fun s lc => s.unsubscribe k lc) s

/-- Take a slot out of residence: its landings let their cores go. -/
def State.freeSlot (s : State) (g : Nat) : State :=
  let s1 := (span 0 64).foldl (fun s st => s.closeLanding (g, st)) s
  { s1 with
    prog := { s1.prog with
      graphs := tdel g s1.prog.graphs, roots := tdel g s1.prog.roots, landings := s1.prog.landings.filter fun e => e.1 / 64 != g
      late := s1.prog.late.filter fun x => x.g != g } }

/-- Graph cancel: a mark on every time of the slot, and the slot is free once nothing of it is left. -/
def execGraphUnload (g : Nat) (s : State) : Out :=
  if (s.graph g).isNone then .next s
  else
    let s1 := (s.installLate g ⟨0, 0, false⟩).settle g
    .next (if s1.slotEmpty g then s1.freeSlot g else s1)

/-! ### Replay (R244) -/

/-- The place of a journal entry, and whether the ring still holds it. -/
def State.journalAt (s : State) (p n : Nat) : Nat := s.journalBase p + 128 * (n % s.journalSize p)
def State.journalHas (s : State) (p n : Nat) : Bool :=
  bits (s.mem64 (s.journalAt p n + 8)) 0 32 == n % 2 ^ 32 && bits (s.mem64 (s.journalAt p n + 8)) 32 8 != 6

/-- The kind, the function and the VCP of an entry, and a word of it. -/
def State.journalInfo (s : State) (p n lo : Nat) : Nat := bits (s.mem64 (s.journalAt p n + 8)) lo 8
def State.journalWord (s : State) (p n off : Nat) : Word := s.mem64 (s.journalAt p n + off)
def State.journalRec (s : State) (p n : Nat) : Rec := Rec.ofWords (s.wordsAt (s.journalAt p n + 0x10) 8)

/-- A host write of the journal: through BAR2 where it names a VCP, else at a virtual address. -/
def State.replayHost (s : State) (p n f v : Nat) : State :=
  let a := s.journalWord p n 0x10
  let bs := bytesAt s.mem.bytes (s.journalAt p n + 0x20) (min 64 (s.journalWord p n 0x18).toNat)
  if v < 16 then s.setVcp f v ((s.vcp f v).putBytes (a.toNat % 0x1000) bs)
  else ((s.fnWrite f (barKey f) a.toNat bs needW).code fun _ s => s).forgetKey (barKey f)

/-- Apply an entry: none while it waits. A COPY starts here and is carried on granule by granule. -/
def State.replayEntry (s : State) (p n : Nat) : Option State :=
  let f := s.journalInfo p n 40
  let v := s.journalInfo p n 48
  let key := 2 ^ 20 + p * 2048 + 1026
  match s.journalInfo p n 32 with
  | 1 | 5 =>
    let r := s.journalRec p n
    some ((s.applyDeltas r.graph [r.delta 1 []]).release .dispatcher 0 r)
  | 3 => some (s.replayHost p n f v)
  | 4 =>
    let a := s.journalWord p n 0x10
    match s.vaSpan f a.toNat 8 needW (frontHolder key) with
    | .pas l s1 =>
      match s1.region (l.headD 0) with
      | .remote _ _ | .host =>
        match s1.reach f key (l.headD 0) 4 (signalRemote (bits (s.journalWord p n 0x20) 0 4) (s.journalWord p n 0x18)) with
        | .wait _ => none
        | _ => some (s1.forgetKey key)
      | _ =>
        if s1.anyBad l then some s1
        else
          let new := signalNew (bits (s.journalWord p n 0x20) 0 4) (s.journalWord p n 0x18) (ofN (s1.readMem l))
          some ((s1.homeWrite l).writeMem l (leBytes 8 new.toNat))
    | .wait _ => none
    | .trap _ => some s
  | _ => some s

/-- What an access of an entry has sent while it waits. -/
def State.replaySend (s : State) (p n : Nat) : State :=
  let f := s.journalInfo p n 40
  let a := s.journalWord p n 0x10
  let key := 2 ^ 20 + p * 2048 + 1026
  match s.vaSpan f a.toNat 8 needW (frontHolder key) with
  | .pas l s1 =>
    match s1.reach f key (l.headD 0) 4 (signalRemote (bits (s.journalWord p n 0x20) 0 4) (s.journalWord p n 0x18)) with
    | .wait s2 => s2
    | _ => s
  | .wait s1 => s1
  | .trap _ => s

/-- Change the replay of a partition. -/
def State.setReplay (s : State) (p : Nat) (r : Option (Nat × Nat)) (c : Option Started) : State :=
  s.setPreemption p { s.preemption p with replay := r, copying := c }

/-- The next entry after one that has been applied. -/
def nextOf (n e : Nat) : Option (Nat × Nat) := if (n + 1) % 2 ^ 32 = e then none else some ((n + 1) % 2 ^ 32, e)

/-- A step of the COPY that a replay re-runs: its lowest granule that is neither written nor skipped. -/
def State.replayCopy (s : State) (p n e : Nat) (q : Started) : State :=
  let f := s.journalInfo p n 40
  let g := risen q.moved 0 q.moved.length
  if q.ending.isSome || !q.canMove g then s.setReplay p (nextOf n e) none
  else
    let key := 2 ^ 20 + p * 2048 + 1026
    match s.quayGranule f key (quayHolder key) q g with
    | (none, s1) => s1
    | (some q1, s1) =>
      (if q1.ending.isSome then (s1.forgetKey key).dropHolder (quayHolder key) else s1.forgetKey key).setReplay p (some (n, e))
        (some q1)

/-- One step of a replay: it begins with the entry after the checkpoint, where the range to the chosen end has no gap, and
applies one entry after another. -/
def execReplay (p : Nat) (s : State) : Out :=
  let x := s.preemption p
  match x.replay, x.copying with
  | none, _ =>
    let a := (x.seq + 1) % 2 ^ 32
    let e := (x.upto.map fun k => (k + 1) % 2 ^ 32).getD (s.journalSeq p)
    let n := (e + 2 ^ 32 - a) % 2 ^ 32
    if p ≥ 256 ∨ s.partState p ≠ 0 ∨ n = 0 ∨ n > s.journalSize p ∨
        (span 0 n).any (fun k => !s.journalHas p ((a + k) % 2 ^ 32)) then .next s
    else .next (s.setReplay p (some (a, e)) none)
  | some (n, e), some q => .next (s.replayCopy p n e q)
  | some (n, e), none =>
    let r := s.journalRec p n
    if s.journalInfo p n 32 = 2 ∧ r.op = 2 ∧ r.cLen ≠ 0 ∧ r.malformed = false then
      .next (s.setReplay p (some (n, e)) (some (Started.new Vcp.reset r)))
    else
      match s.replayEntry p n with
      | some s1 => .next (s1.setReplay p (nextOf n e) none)
      | none => .next (s.replaySend p n)

end Sys2Proof.Machine
end

