-- ==== Sys2Proof/Machine/Dispatch.lean ====
section
/-! DEFINITION. Which meaning each instruction has: one arm for every constructor. -/

namespace Sys2Proof.Machine

/-- One instruction, or one step of the part, on a state. -/
def exec (i : Instr) (s : State) : Host.Outcome State Fault Refusal :=
  match i with
  | .add d a b => Sys2Proof.Machine.execAdd d a b s
  | .sub d a b => Sys2Proof.Machine.execSub d a b s
  | .and d a b => Sys2Proof.Machine.execAnd d a b s
  | .or d a b => Sys2Proof.Machine.execOr d a b s
  | .xor d a b => Sys2Proof.Machine.execXor d a b s
  | .andn d a b => Sys2Proof.Machine.execAndn d a b s
  | .orn d a b => Sys2Proof.Machine.execOrn d a b s
  | .xnor d a b => Sys2Proof.Machine.execXnor d a b s
  | .shl d a b => Sys2Proof.Machine.execShl d a b s
  | .shr d a b => Sys2Proof.Machine.execShr d a b s
  | .sra d a b => Sys2Proof.Machine.execSra d a b s
  | .rol d a b => Sys2Proof.Machine.execRol d a b s
  | .ror d a b => Sys2Proof.Machine.execRor d a b s
  | .lt d a b => Sys2Proof.Machine.execLt d a b s
  | .ltu d a b => Sys2Proof.Machine.execLtu d a b s
  | .eq d a b => Sys2Proof.Machine.execEq d a b s
  | .ne d a b => Sys2Proof.Machine.execNe d a b s
  | .min d a b => Sys2Proof.Machine.execMin d a b s
  | .max d a b => Sys2Proof.Machine.execMax d a b s
  | .minu d a b => Sys2Proof.Machine.execMinu d a b s
  | .maxu d a b => Sys2Proof.Machine.execMaxu d a b s
  | .adds d a b => Sys2Proof.Machine.execAdds d a b s
  | .subs d a b => Sys2Proof.Machine.execSubs d a b s
  | .addus d a b => Sys2Proof.Machine.execAddus d a b s
  | .subus d a b => Sys2Proof.Machine.execSubus d a b s
  | .mul d a b => Sys2Proof.Machine.execMul d a b s
  | .mulh d a b => Sys2Proof.Machine.execMulh d a b s
  | .mulhu d a b => Sys2Proof.Machine.execMulhu d a b s
  | .div d a b => Sys2Proof.Machine.execDiv d a b s
  | .divu d a b => Sys2Proof.Machine.execDivu d a b s
  | .rem d a b => Sys2Proof.Machine.execRem d a b s
  | .remu d a b => Sys2Proof.Machine.execRemu d a b s
  | .bpack d a b => Sys2Proof.Machine.execBpack d a b s
  | .bpack2 d a b => Sys2Proof.Machine.execBpack2 d a b s
  | .bpack4 d a b => Sys2Proof.Machine.execBpack4 d a b s
  | .bpack8 d a b => Sys2Proof.Machine.execBpack8 d a b s
  | .bunpk d a b => Sys2Proof.Machine.execBunpk d a b s
  | .bunpk2 d a b => Sys2Proof.Machine.execBunpk2 d a b s
  | .bunpk4 d a b => Sys2Proof.Machine.execBunpk4 d a b s
  | .bunpk8 d a b => Sys2Proof.Machine.execBunpk8 d a b s
  | .clz d a => Sys2Proof.Machine.execClz d a s
  | .ctz d a => Sys2Proof.Machine.execCtz d a s
  | .popc d a => Sys2Proof.Machine.execPopc d a s
  | .brev d a => Sys2Proof.Machine.execBrev d a s
  | .bswap d a => Sys2Proof.Machine.execBswap d a s
  | .sextB d a => Sys2Proof.Machine.execSextB d a s
  | .sextH d a => Sys2Proof.Machine.execSextH d a s
  | .sextW d a => Sys2Proof.Machine.execSextW d a s
  | .zextB d a => Sys2Proof.Machine.execZextB d a s
  | .zextH d a => Sys2Proof.Machine.execZextH d a s
  | .zextW d a => Sys2Proof.Machine.execZextW d a s
  | .addi d a x_i => Sys2Proof.Machine.execAddi d a x_i s
  | .andi d a x_i => Sys2Proof.Machine.execAndi d a x_i s
  | .ori d a x_i => Sys2Proof.Machine.execOri d a x_i s
  | .xori d a x_i => Sys2Proof.Machine.execXori d a x_i s
  | .lti d a x_i => Sys2Proof.Machine.execLti d a x_i s
  | .ltui d a x_i => Sys2Proof.Machine.execLtui d a x_i s
  | .shli d a n => Sys2Proof.Machine.execShli d a n s
  | .shri d a n => Sys2Proof.Machine.execShri d a n s
  | .srai d a n => Sys2Proof.Machine.execSrai d a n s
  | .lui d x_i => Sys2Proof.Machine.execLui d x_i s
  | .lhi d x_i => Sys2Proof.Machine.execLhi d x_i s
  | .lco d x_i => Sys2Proof.Machine.execLco d x_i s
  | .j o => Sys2Proof.Machine.execJ o s
  | .jal o => Sys2Proof.Machine.execJal o s
  | .jalr d a x_i => Sys2Proof.Machine.execJalr d a x_i s
  | .beq a b o => Sys2Proof.Machine.execBeq a b o s
  | .bne a b o => Sys2Proof.Machine.execBne a b o s
  | .blt a b o => Sys2Proof.Machine.execBlt a b o s
  | .bge a b o => Sys2Proof.Machine.execBge a b o s
  | .bltu a b o => Sys2Proof.Machine.execBltu a b o s
  | .bgeu a b o => Sys2Proof.Machine.execBgeu a b o s
  | .ldB d a x_i => Sys2Proof.Machine.execLdB d a x_i s
  | .ldBu d a x_i => Sys2Proof.Machine.execLdBu d a x_i s
  | .ldH d a x_i => Sys2Proof.Machine.execLdH d a x_i s
  | .ldHu d a x_i => Sys2Proof.Machine.execLdHu d a x_i s
  | .ldW d a x_i => Sys2Proof.Machine.execLdW d a x_i s
  | .ldWu d a x_i => Sys2Proof.Machine.execLdWu d a x_i s
  | .ldD d a x_i => Sys2Proof.Machine.execLdD d a x_i s
  | .stB d a x_i => Sys2Proof.Machine.execStB d a x_i s
  | .stH d a x_i => Sys2Proof.Machine.execStH d a x_i s
  | .stW d a x_i => Sys2Proof.Machine.execStW d a x_i s
  | .stD d a x_i => Sys2Proof.Machine.execStD d a x_i s
  | .lcB d a x_i => Sys2Proof.Machine.execLcB d a x_i s
  | .lcBu d a x_i => Sys2Proof.Machine.execLcBu d a x_i s
  | .lcH d a x_i => Sys2Proof.Machine.execLcH d a x_i s
  | .lcHu d a x_i => Sys2Proof.Machine.execLcHu d a x_i s
  | .lcW d a x_i => Sys2Proof.Machine.execLcW d a x_i s
  | .lcWu d a x_i => Sys2Proof.Machine.execLcWu d a x_i s
  | .lcD d a x_i => Sys2Proof.Machine.execLcD d a x_i s
  | .scB d a x_i => Sys2Proof.Machine.execScB d a x_i s
  | .scH d a x_i => Sys2Proof.Machine.execScH d a x_i s
  | .scW d a x_i => Sys2Proof.Machine.execScW d a x_i s
  | .scD d a x_i => Sys2Proof.Machine.execScD d a x_i s
  | .bmov d a b => Sys2Proof.Machine.execBmov d a b s
  | .bset d a b => Sys2Proof.Machine.execBset d a b s
  | .bcmp d a b => Sys2Proof.Machine.execBcmp d a b s
  | .pref a => Sys2Proof.Machine.execPref a s
  | .stnl a b => Sys2Proof.Machine.execStnl a b s
  | .stnh a b => Sys2Proof.Machine.execStnh a b s
  | .scnl a b => Sys2Proof.Machine.execScnl a b s
  | .scnh a b => Sys2Proof.Machine.execScnh a b s
  | .amoswap z d a b => Sys2Proof.Machine.execAmoswap z d a b s
  | .amoadd z d a b => Sys2Proof.Machine.execAmoadd z d a b s
  | .amoand z d a b => Sys2Proof.Machine.execAmoand z d a b s
  | .amoor z d a b => Sys2Proof.Machine.execAmoor z d a b s
  | .amoxor z d a b => Sys2Proof.Machine.execAmoxor z d a b s
  | .amomin z d a b => Sys2Proof.Machine.execAmomin z d a b s
  | .amomax z d a b => Sys2Proof.Machine.execAmomax z d a b s
  | .amominu z d a b => Sys2Proof.Machine.execAmominu z d a b s
  | .amomaxu z d a b => Sys2Proof.Machine.execAmomaxu z d a b s
  | .amocas z d a b => Sys2Proof.Machine.execAmocas z d a b s
  | .amofadd z d a b => Sys2Proof.Machine.execAmofadd z d a b s
  | .amodadd z a b => Sys2Proof.Machine.execAmodadd z a b s
  | .amodfadd z a b => Sys2Proof.Machine.execAmodfadd z a b s
  | .afl d a => Sys2Proof.Machine.execAfl d a s
  | .fadd t d a b => Sys2Proof.Machine.execFadd t d a b s
  | .fsub t d a b => Sys2Proof.Machine.execFsub t d a b s
  | .fmul t d a b => Sys2Proof.Machine.execFmul t d a b s
  | .fdiv t d a b => Sys2Proof.Machine.execFdiv t d a b s
  | .fsqrt t d a => Sys2Proof.Machine.execFsqrt t d a s
  | .fmin t d a b => Sys2Proof.Machine.execFmin t d a b s
  | .fmax t d a b => Sys2Proof.Machine.execFmax t d a b s
  | .fma t d a b => Sys2Proof.Machine.execFma t d a b s
  | .feq t d a b => Sys2Proof.Machine.execFeq t d a b s
  | .flt t d a b => Sys2Proof.Machine.execFlt t d a b s
  | .fle t d a b => Sys2Proof.Machine.execFle t d a b s
  | .fclass t d a => Sys2Proof.Machine.execFclass t d a s
  | .ftoi t d a => Sys2Proof.Machine.execFtoi t d a s
  | .ftoiu t d a => Sys2Proof.Machine.execFtoiu t d a s
  | .itof t d a => Sys2Proof.Machine.execItof t d a s
  | .iutof t d a => Sys2Proof.Machine.execIutof t d a s
  | .fcvt t u d a => Sys2Proof.Machine.execFcvt t u d a s
  | .vadd t d a b m k => Sys2Proof.Machine.execVadd t d a b m k s
  | .vsub t d a b m k => Sys2Proof.Machine.execVsub t d a b m k s
  | .vmul t d a b m k => Sys2Proof.Machine.execVmul t d a b m k s
  | .vmadd t d a b m k => Sys2Proof.Machine.execVmadd t d a b m k s
  | .vmin t d a b m k => Sys2Proof.Machine.execVmin t d a b m k s
  | .vmax t d a b m k => Sys2Proof.Machine.execVmax t d a b m k s
  | .vadds t d a b m k => Sys2Proof.Machine.execVadds t d a b m k s
  | .vsubs t d a b m k => Sys2Proof.Machine.execVsubs t d a b m k s
  | .vaddus t d a b m k => Sys2Proof.Machine.execVaddus t d a b m k s
  | .vsubus t d a b m k => Sys2Proof.Machine.execVsubus t d a b m k s
  | .vminu t d a b m k => Sys2Proof.Machine.execVminu t d a b m k s
  | .vmaxu t d a b m k => Sys2Proof.Machine.execVmaxu t d a b m k s
  | .vand t d a b m k => Sys2Proof.Machine.execVand t d a b m k s
  | .vor t d a b m k => Sys2Proof.Machine.execVor t d a b m k s
  | .vxor t d a b m k => Sys2Proof.Machine.execVxor t d a b m k s
  | .vshl t d a b m k => Sys2Proof.Machine.execVshl t d a b m k s
  | .vshr t d a b m k => Sys2Proof.Machine.execVshr t d a b m k s
  | .vsra t d a b m k => Sys2Proof.Machine.execVsra t d a b m k s
  | .vdiv t d a b m k => Sys2Proof.Machine.execVdiv t d a b m k s
  | .vabs t d a m k => Sys2Proof.Machine.execVabs t d a m k s
  | .vsqrt t d a m k => Sys2Proof.Machine.execVsqrt t d a m k s
  | .vrcp t d a m k => Sys2Proof.Machine.execVrcp t d a m k s
  | .vrsqrt t d a m k => Sys2Proof.Machine.execVrsqrt t d a m k s
  | .vexp2 t d a m k => Sys2Proof.Machine.execVexp2 t d a m k s
  | .vlog2 t d a m k => Sys2Proof.Machine.execVlog2 t d a m k s
  | .vtanh t d a m k => Sys2Proof.Machine.execVtanh t d a m k s
  | .vceq t m a b k => Sys2Proof.Machine.execVceq t m a b k s
  | .vcne t m a b k => Sys2Proof.Machine.execVcne t m a b k s
  | .vclt t m a b k => Sys2Proof.Machine.execVclt t m a b k s
  | .vcle t m a b k => Sys2Proof.Machine.execVcle t m a b k s
  | .vcltu t m a b k => Sys2Proof.Machine.execVcltu t m a b k s
  | .vcleu t m a b k => Sys2Proof.Machine.execVcleu t m a b k s
  | .vld t d a m => Sys2Proof.Machine.execVld t d a m s
  | .vlds t d a b m => Sys2Proof.Machine.execVlds t d a b m s
  | .vldx t d a b m => Sys2Proof.Machine.execVldx t d a b m s
  | .vst t d a m => Sys2Proof.Machine.execVst t d a m s
  | .vsts t d a b m => Sys2Proof.Machine.execVsts t d a b m s
  | .vstx t d a b m => Sys2Proof.Machine.execVstx t d a b m s
  | .vlc t d a m => Sys2Proof.Machine.execVlc t d a m s
  | .vlcs t d a b m => Sys2Proof.Machine.execVlcs t d a b m s
  | .vlcx t d a b m => Sys2Proof.Machine.execVlcx t d a b m s
  | .vsc t d a m => Sys2Proof.Machine.execVsc t d a m s
  | .vscs t d a b m => Sys2Proof.Machine.execVscs t d a b m s
  | .vscx t d a b m => Sys2Proof.Machine.execVscx t d a b m s
  | .vmv d a m k => Sys2Proof.Machine.execVmv d a m k s
  | .vsel d a b m k => Sys2Proof.Machine.execVsel d a b m k s
  | .vperm d a b k => Sys2Proof.Machine.execVperm d a b k s
  | .vslide d a b k => Sys2Proof.Machine.execVslide d a b k s
  | .vcmpr d a m k => Sys2Proof.Machine.execVcmpr d a m k s
  | .vexpd d a m k => Sys2Proof.Machine.execVexpd d a m k s
  | .vext m a b k => Sys2Proof.Machine.execVext m a b k s
  | .vins d m b => Sys2Proof.Machine.execVins d m b s
  | .vzero d => Sys2Proof.Machine.execVzero d s
  | .vbcs t d m => Sys2Proof.Machine.execVbcs t d m s
  | .vredsum t d a m k => Sys2Proof.Machine.execVredsum t d a m k s
  | .vredmin t d a m k => Sys2Proof.Machine.execVredmin t d a m k s
  | .vredmax t d a m k => Sys2Proof.Machine.execVredmax t d a m k s
  | .vcvt dt st d a m k => Sys2Proof.Machine.execVcvt dt st d a m k s
  | .vbsc n d a k => Sys2Proof.Machine.execVbsc n d a k s
  | .vbsa n d a b k => Sys2Proof.Machine.execVbsa n d a b k s
  | .vtag d t => Sys2Proof.Machine.execVtag d t s
  | .vloop n m => Sys2Proof.Machine.execVloop n m s
  | .cpy c a b => Sys2Proof.Machine.execCpy c a b s
  | .strmIn d a b => Sys2Proof.Machine.execStrmIn d a b s
  | .strmOut d a b => Sys2Proof.Machine.execStrmOut d a b s
  | .gath a b => Sys2Proof.Machine.execGath a b s
  | .scat a b => Sys2Proof.Machine.execScat a b s
  | .mxcf a => Sys2Proof.Machine.execMxcf a s
  | .mxq a => Sys2Proof.Machine.execMxq a s
  | .mxdr a b => Sys2Proof.Machine.execMxdr a b s
  | .coll a b => Sys2Proof.Machine.execColl a b s
  | .ftake a b => Sys2Proof.Machine.execFtake a b s
  | .fput a b => Sys2Proof.Machine.execFput a b s
  | .fclr a => Sys2Proof.Machine.execFclr a s
  | .post a => Sys2Proof.Machine.execPost a s
  | .endTask => Sys2Proof.Machine.execEndTask s
  | .claim k => Sys2Proof.Machine.execClaim k s
  | .rels k => Sys2Proof.Machine.execRels k s
  | .ntfy a => Sys2Proof.Machine.execNtfy a s
  | .tadv d a b => Sys2Proof.Machine.execTadv d a b s
  | .tadvi d a l e k => Sys2Proof.Machine.execTadvi d a l e k s
  | .tcmp d a b => Sys2Proof.Machine.execTcmp d a b s
  | .cnclT d a st => Sys2Proof.Machine.execCnclT d a st s
  | .cnclL d a p => Sys2Proof.Machine.execCnclL d a p s
  | .gang d f => Sys2Proof.Machine.execGang d f s
  | .disband => Sys2Proof.Machine.execDisband s
  | .ovl n => Sys2Proof.Machine.execOvl n s
  | .mfs d r => Sys2Proof.Machine.execMfs d r s
  | .mts r a => Sys2Proof.Machine.execMts r a s
  | .opreq n => Sys2Proof.Machine.execOpreq n s
  | .opreqAuto => Sys2Proof.Machine.execOpreqAuto s
  | .ifence => Sys2Proof.Machine.execIfence s
  | .trap x_i => Sys2Proof.Machine.execTrap x_i s
  | .brk x_i => Sys2Proof.Machine.execBrk x_i s
  | .eret => Sys2Proof.Machine.execEret s
  | .pmpw n a => Sys2Proof.Machine.execPmpw n a s
  | .trapDeliveryInject => Sys2Proof.Machine.execTrapDeliveryInject s
  | .deferredCancelInstall g => Sys2Proof.Machine.execDeferredCancelInstall g s
  | .budgetExpire lc => Sys2Proof.Machine.execBudgetExpire lc s
  | .recordArrival k => Sys2Proof.Machine.execRecordArrival k s
  | .landingArrival k => Sys2Proof.Machine.execLandingArrival k s
  | .level7Retry lc => Sys2Proof.Machine.execLevel7Retry lc s
  | .admission lc => Sys2Proof.Machine.execAdmission lc s
  | .footprintFetchStart lc => Sys2Proof.Machine.execFootprintFetchStart lc s
  | .footprintPinned lc slot => Sys2Proof.Machine.execFootprintPinned lc slot s
  | .landingHandoff g st => Sys2Proof.Machine.execLandingHandoff g st s
  | .stageGovernorEval die => Sys2Proof.Machine.execStageGovernorEval die s
  | .lweight g st r => Sys2Proof.Machine.execLweight g st r s
  | .admitCall f v r => Sys2Proof.Machine.execAdmitCall f v r s
  | .pmap f v level r => Sys2Proof.Machine.execPmap f v level r s
  | .opvote p r => Sys2Proof.Machine.execOpvote p r s
  | .pluginBudgetOverrun n => Sys2Proof.Machine.execPluginBudgetOverrun n s
  | .progressFlushDeadline lc => Sys2Proof.Machine.execProgressFlushDeadline lc s
  | .treeBatchArrival k => Sys2Proof.Machine.execTreeBatchArrival k s
  | .treeNodeForward node => Sys2Proof.Machine.execTreeNodeForward node s
  | .rootApplyBatch k => Sys2Proof.Machine.execRootApplyBatch k s
  | .frontierAnnounce g st die => Sys2Proof.Machine.execFrontierAnnounce g st die s
  | .tileTaskIssue cl => Sys2Proof.Machine.execTileTaskIssue cl s
  | .tileTaskForward cl => Sys2Proof.Machine.execTileTaskForward cl s
  | .matrixKStep tile => Sys2Proof.Machine.execMatrixKStep tile s
  | .tileTaskComplete tile => Sys2Proof.Machine.execTileTaskComplete tile s
  | .matrixDrain tile => Sys2Proof.Machine.execMatrixDrain tile s
  | .sequencerChunk lc => Sys2Proof.Machine.execSequencerChunk lc s
  | .copyStart lc level ch => Sys2Proof.Machine.execCopyStart lc level ch s
  | .copyGranule lc level ch g => Sys2Proof.Machine.execCopyGranule lc level ch g s
  | .copyComplete lc level ch => Sys2Proof.Machine.execCopyComplete lc level ch s
  | .streamElement lc level j => Sys2Proof.Machine.execStreamElement lc level j s
  | .gatherScatterElement cl k => Sys2Proof.Machine.execGatherScatterElement cl k s
  | .collectiveComplete k => Sys2Proof.Machine.execCollectiveComplete k s
  | .leaseTick lc => Sys2Proof.Machine.execLeaseTick lc s
  | .pageWalk die ctx va => Sys2Proof.Machine.execPageWalk die ctx va s
  | .walkComplete die k => Sys2Proof.Machine.execWalkComplete die k s
  | .remoteAccessArrival src lc addr op => Sys2Proof.Machine.execRemoteAccessArrival src lc addr op s
  | .remoteResponseArrival lc level ok data => Sys2Proof.Machine.execRemoteResponseArrival lc level ok data s
  | .remoteRejectArrival lc level addr => Sys2Proof.Machine.execRemoteRejectArrival lc level addr s
  | .shootdownGo q => Sys2Proof.Machine.execShootdownGo q s
  | .shootdownAck q holder => Sys2Proof.Machine.execShootdownAck q holder s
  | .tierMigration ctx va pa tier => Sys2Proof.Machine.execTierMigration ctx va pa tier s
  | .preemptHalt p => Sys2Proof.Machine.execPreemptHalt p s
  | .preemptHaltComplete p => Sys2Proof.Machine.execPreemptHaltComplete p s
  | .preemptSave p => Sys2Proof.Machine.execPreemptSave p s
  | .preemptResume p => Sys2Proof.Machine.execPreemptResume p s
  | .preemptRestore p phys => Sys2Proof.Machine.execPreemptRestore p phys s
  | .preemptKill p => Sys2Proof.Machine.execPreemptKill p s
  | .killComplete p => Sys2Proof.Machine.execKillComplete p s
  | .notify f v w => Sys2Proof.Machine.execNotify f v w s
  | .vcpVreset f v => Sys2Proof.Machine.execVcpVreset f v s
  | .vcpResume f v => Sys2Proof.Machine.execVcpResume f v s
  | .vcpEnable f v => Sys2Proof.Machine.execVcpEnable f v s
  | .vcpDisable f v => Sys2Proof.Machine.execVcpDisable f v s
  | .packetFetch f v => Sys2Proof.Machine.execPacketFetch f v s
  | .pollBoundExpire f v => Sys2Proof.Machine.execPollBoundExpire f v s
  | .nopPacket f v => Sys2Proof.Machine.execNopPacket f v s
  | .launchPacket f v => Sys2Proof.Machine.execLaunchPacket f v s
  | .journalGapEntry p => Sys2Proof.Machine.execJournalGapEntry p s
  | .copyPacket f v => Sys2Proof.Machine.execCopyPacket f v s
  | .quayCopyGranule f v x_i g => Sys2Proof.Machine.execQuayCopyGranule f v x_i g s
  | .signalPacket f v => Sys2Proof.Machine.execSignalPacket f v s
  | .waitPacket f v => Sys2Proof.Machine.execWaitPacket f v s
  | .markPacket f v => Sys2Proof.Machine.execMarkPacket f v s
  | .cancelPacket f v => Sys2Proof.Machine.execCancelPacket f v s
  | .packetComplete f v x_i => Sys2Proof.Machine.execPacketComplete f v x_i s
  | .waitEvaluate f v x_i => Sys2Proof.Machine.execWaitEvaluate f v x_i s
  | .waitPoll f v x_i => Sys2Proof.Machine.execWaitPoll f v x_i s
  | .externalLaunch q dev tenant key packet records => Sys2Proof.Machine.execExternalLaunch q dev tenant key packet records s
  | .flrInitiate f => Sys2Proof.Machine.execFlrInitiate f s
  | .flrComplete f => Sys2Proof.Machine.execFlrComplete f s
  | .migSuspendSave w => Sys2Proof.Machine.execMigSuspendSave w s
  | .migSaveImageWrite => Sys2Proof.Machine.execMigSaveImageWrite s
  | .migRestore w => Sys2Proof.Machine.execMigRestore w s
  | .migResume w => Sys2Proof.Machine.execMigResume w s
  | .attReport w => Sys2Proof.Machine.execAttReport w s
  | .attReadCertificate w => Sys2Proof.Machine.execAttReadCertificate w s
  | .attComplete => Sys2Proof.Machine.execAttComplete s
  | .bar4Read f off n => Sys2Proof.Machine.execBar4Read f off n s
  | .bar4Write f off data => Sys2Proof.Machine.execBar4Write f off data s
  | .bar2Read f off n => Sys2Proof.Machine.execBar2Read f off n s
  | .bar2Write f off data => Sys2Proof.Machine.execBar2Write f off data s
  | .counterReadClear code inst => Sys2Proof.Machine.execCounterReadClear code inst s
  | .barerrRead f => Sys2Proof.Machine.execBarerrRead f s
  | .registerWrite f off w => Sys2Proof.Machine.execRegisterWrite f off w s
  | .fedataWrite w => Sys2Proof.Machine.execFedataWrite w s
  | .l2pWrite lc w => Sys2Proof.Machine.execL2pWrite lc w s
  | .l2pHoldAck lc stop => Sys2Proof.Machine.execL2pHoldAck lc stop s
  | .opreqWrite lc auto op => Sys2Proof.Machine.execOpreqWrite lc auto op s
  | .opreqDecide lc watts milliwatts => Sys2Proof.Machine.execOpreqDecide lc watts milliwatts s
  | .seedWrite w => Sys2Proof.Machine.execSeedWrite w s
  | .fpstatAccess lc => Sys2Proof.Machine.execFpstatAccess lc s
  | .powerGovernorSample die => Sys2Proof.Machine.execPowerGovernorSample die s
  | .powerTrip => Sys2Proof.Machine.execPowerTrip s
  | .powerTripEnd => Sys2Proof.Machine.execPowerTripEnd s
  | .railSettle rail => Sys2Proof.Machine.execRailSettle rail s
  | .railHoldExpire rail => Sys2Proof.Machine.execRailHoldExpire rail s
  | .railDescentStop rail => Sys2Proof.Machine.execRailDescentStop rail s
  | .sleepHoldExpire tile deep => Sys2Proof.Machine.execSleepHoldExpire tile deep s
  | .sleepEntryComplete tile => Sys2Proof.Machine.execSleepEntryComplete tile s
  | .sleepD3Enter tile => Sys2Proof.Machine.execSleepD3Enter tile s
  | .tileWake tile => Sys2Proof.Machine.execTileWake tile s
  | .inrushGrant rail => Sys2Proof.Machine.execInrushGrant rail s
  | .wakeComplete tile => Sys2Proof.Machine.execWakeComplete tile s
  | .droopDetect rail => Sys2Proof.Machine.execDroopDetect rail s
  | .droopThrottleEnd rail => Sys2Proof.Machine.execDroopThrottleEnd rail s
  | .matrixColumnRamp tile => Sys2Proof.Machine.execMatrixColumnRamp tile s
  | .rotationInterval die => Sys2Proof.Machine.execRotationInterval die s
  | .rotationQuiesce die => Sys2Proof.Machine.execRotationQuiesce die s
  | .rotationRemap die => Sys2Proof.Machine.execRotationRemap die s
  | .movedCoreWriteArrival lc off data => Sys2Proof.Machine.execMovedCoreWriteArrival lc off data s
  | .thermalEmergency tile => Sys2Proof.Machine.execThermalEmergency tile s
  | .emergencyMigration tile => Sys2Proof.Machine.execEmergencyMigration tile s
  | .emergencyRotation tile => Sys2Proof.Machine.execEmergencyRotation tile s
  | .thermalRecover tile => Sys2Proof.Machine.execThermalRecover tile s
  | .thermalTrip tile => Sys2Proof.Machine.execThermalTrip tile s
  | .powerGood => Sys2Proof.Machine.execPowerGood s
  | .moduleReset => Sys2Proof.Machine.execModuleReset s
  | .tileDiePass die hbm => Sys2Proof.Machine.execTileDiePass die hbm s
  | .bringupEnd => Sys2Proof.Machine.execBringupEnd s
  | .quayBringupTimeout q => Sys2Proof.Machine.execQuayBringupTimeout q s
  | .monitorTrapHalt n => Sys2Proof.Machine.execMonitorTrapHalt n s
  | .dieWithdraw part => Sys2Proof.Machine.execDieWithdraw part s
  | .pluginLoad p plg image => Sys2Proof.Machine.execPluginLoad p plg image s
  | .measExtend x_i h => Sys2Proof.Machine.execMeasExtend x_i h s
  | .graphImageLoad g f base home im => Sys2Proof.Machine.execGraphImageLoad g f base home im s
  | .graphUnload g => Sys2Proof.Machine.execGraphUnload g s
  | .jobCancel f => Sys2Proof.Machine.execJobCancel f s
  | .replay p => Sys2Proof.Machine.execReplay p s
  | .ferryFlitReceive link crc f => Sys2Proof.Machine.execFerryFlitReceive link crc f s
  | .ferryNakReceive link seq => Sys2Proof.Machine.execFerryNakReceive link seq s
  | .ferryLinkRetrain link => Sys2Proof.Machine.execFerryLinkRetrain link s
  | .ferryRetrainComplete link ok => Sys2Proof.Machine.execFerryRetrainComplete link ok s
  | .ferryRouteReturn dev => Sys2Proof.Machine.execFerryRouteReturn dev s
  | .d2dEdgeRetrain edge modules rate => Sys2Proof.Machine.execD2dEdgeRetrain edge modules rate s
  | .atticPortFail port => Sys2Proof.Machine.execAtticPortFail port s
  | .atticPortRetrain port => Sys2Proof.Machine.execAtticPortRetrain port s
  | .hostRequestTimeout tag => Sys2Proof.Machine.execHostRequestTimeout tag s
  | .sramScrub die k corrected => Sys2Proof.Machine.execSramScrub die k corrected s
  | .debugPortUnlock => Sys2Proof.Machine.execDebugPortUnlock s
  | .frequencySwitchComplete tile => Sys2Proof.Machine.execFrequencySwitchComplete tile s
  | .d2dRetry edge => Sys2Proof.Machine.execD2dRetry edge s
  | .hostCompletionArrival tag st => Sys2Proof.Machine.execHostCompletionArrival tag st s

end Sys2Proof.Machine
end

