-- ==== Sys2Proof/Machine/Turn.lean ====
section
/-! DEFINITION. The turn of an agent: its clock, admission, the traps that wait for an instruction
boundary, fetching a word, and running what it decodes to. -/

namespace Sys2Proof.Machine

/-! ### The clock (R103, R403) -/

/-- The cycles of a step pass for a core: CYCLE, the stall counts, and BUDGET of the running frame. How
many they are is an open value. -/
def State.clockCore (s : State) (lc : Nat) : State :=
  let n := Config.clocks s.tick
  let c := s.core lc
  let s1 := s.setCore lc { c with
    cycle := c.cycle + BitVec.ofNat 64 n
    mstall := c.mstall + BitVec.ofNat 64 (min n (Config.memStalls s.tick))
    estall := c.estall + BitVec.ofNat 64 (min n (Config.engStalls s.tick)) }
  match s1.top lc with
  | some f => if f.unl || f.leader.isSome || !s1.gangReady lc f then s1 else s1.setTop lc { f with left := f.left - n }
  | none => s1

def State.clockFe (s : State) (n : Nat) : State :=
  let c := s.fe n
  s.setFe n { c with cycle := c.cycle + BitVec.ofNat 64 (Config.clocks s.tick) }

/-! ### Fetching (R101, R219, R269, R305, R320) -/

/-- What a fetch comes to: a word, the end of an inline handler, a trap, or a wait. -/
inductive Fetch where
  | word (w : Nat) (s : State) | past | trap (cls : Nat) (val : Word) | wait (s : State)
  deriving DecidableEq, Repr

/-- A word of an inline handler: word 2i in the low half of Q(2 + i), word 2i + 1 in the high half. -/
def handlerWord (r : Rec) (pc : Nat) : Nat := bits ((r.words.drop 2).getD (pc / 2) 0) (32 * (pc % 2)) 32

/-- The key of an instruction cache word: the tile and the physical word address. -/
def icacheKey (tile pa : Nat) : Nat := tile * 2 ^ 52 + pa / 4

/-- The tile's instruction cache takes a word; a full one drops another (R10). -/
def State.fillIcache (s : State) (k : Nat) (w : BitVec 32) : State :=
  { s with mem := { s.mem with
    icache := tput k w (makeRoom s.tick Config.icacheWords (fun e => e.1 / 2 ^ 52 == k / 2 ^ 52) s.mem.icache)
    badIcache := tdel (k / 2) s.mem.badIcache } }

/-- The address under which a fetch from another module or from the host is asked for: no load has it. -/
def fetchAddr (va : Word) : Word := va ||| 0x8000000000000000#64

/-- The word at a physical address, from wherever it lies: of an uncorrectable line or a failed port it gives DATA
(R16, R88, R242). -/
def State.fetchMem (s : State) (pa : Nat) (va : Word) : Fetch :=
  let asked := fun (a : Acc) => match a with
    | .ok v s1 => Fetch.word v s1
    | .trap c _ => .trap c va
    | .wait s1 => .wait s1
  match s.region pa with
  | .remote d _ => asked (s.ask (fetchAddr va) (some d) pa (.load 4))
  | .host => asked (s.ask (fetchAddr va) none pa (.load 4))
  | _ => if s.portFailed pa || s.anyBad (span pa 4) then .trap DATA va else .word (s.readMem (span pa 4)) s

/-- Read a word through the tile's instruction cache, which does not observe stores (R219). A line of the cache that is
uncorrectable is fetched again (R242). -/
def State.fetchWord (s : State) (lc pa : Nat) (va : Word) : Fetch :=
  let k := icacheKey (s.tileOf lc) pa
  let bad := tget false s.mem.badIcache (k / 2)
  match (if bad then none else tfind s.mem.icache k) with
  | some w => .word w.toNat s
  | none =>
    let s0 := if bad then s.countSram cSRAMUE (s.dieOf lc) 5 else s
    match s0.fetchMem pa va with
    | .word w s1 => .word w (s1.fillIcache k (BitVec.ofNat 32 w))
    | x => x

/-- Fetch the word at the running frame's pc. An overlay frame fetches through its tile's window, which
opens for its overlay; other code is read through L2 on such a tile (R305). -/
def State.fetchCore (s : State) (lc : Nat) (f : Frame) : Fetch :=
  if f.kind = 1 then (if f.h.pc < 12 then .word (handlerWord f.rcd f.h.pc) s else .past)
  else
    let va := s.codeBase f.graph + BitVec.ofNat 64 (4 * f.h.pc)
    if f.h.pc ≥ s.codeWords f.graph ∨ !inOverlay f.overlay f.h.pc then .trap ADDRESS va
    else
      match s.xlate (s.dieOf lc) (s.holdersOf lc) (s.partOf lc) (s.ctxOf f.graph) va.toNat needX with
      | .pa p s1 => if f.overlay.isNone && s1.windowed (s1.tileOf lc) then s1.fetchMem p va else (s1.openWindow lc f).fetchWord lc p va
      | .trap c => .trap c va
      | .wait s1 => .wait s1

/-- Fetch the word at a front-end core's pc, which is a physical word address (R50 to R54). -/
def State.fetchFe (s : State) (n : Nat) : Fetch :=
  let a := (s.fe n).h.pc * 4
  match s.feCheck n (BitVec.ofNat 64 a) 4 needX with
  | some c => .trap c (BitVec.ofNat 64 a)
  | none => s.fetchMem ((s.feBytes a 4).headD 0) (BitVec.ofNat 64 a)

/-! ### One turn -/

/-- Run the instruction of a fetched word: a word that no instruction has raises ILLEGAL with the word in
TRAPVAL (R276). An entry of the sequencer runs first where the instruction waits for it (R171), and one that reads an
uncorrectable register takes DATA (R242). -/
def State.runWord (s : State) (w : Nat) : Host.Outcome State Fault Refusal :=
  match decodeWord w with
  | .error _ => .next (s.trap ILLEGAL (BitVec.ofNat 64 w))
  | .ok i =>
    match s.agent with
    | .fe _ => exec i s
    | .core lc =>
      match s.top lc, s.front i with
      | some f, .go _ =>
        if f.readsBad i then .next ((s.setTop lc { f with bad := true }).takeTrap lc DATA 0 none) else exec i s
      | some f, _ => if f.waitsSeq i then execSequencerChunk lc s else exec i s
      | none, _ => exec i s

/-- The running frame executes, once nothing stands before its next instruction: a trap that waits for the boundary, and a
used-up budget come first (R88, R103, R234), once an instruction that has begun to store is over. -/
def State.runFrame (s : State) (lc : Nat) (f : Frame) : Host.Outcome State Fault Refusal :=
  if f.leader.isSome || !s.gangReady lc f then .next s
  else
    match (if begun f.h.sent then none else f.pending) with
    | some (cls, val, late) => .next (s.takeTrap lc cls val late)
    | none =>
      if !f.unl && f.left == 0 && !begun f.h.sent then .next (s.takeTrap lc BUDGET 0 none)
      else
        match s.fetchCore lc f with
        | .word w s1 => s1.runWord w
        | .past => exec .endTask s
        | .trap c v => .next (s.takeTrap lc c v none)
        | .wait s1 => .next s1

/-- The turn of a compute core. A chunk, and an instruction, that has begun to store goes on to its boundary before anything
else (R172, R188). -/
def State.turnCore (s : State) (lc : Nat) : Host.Outcome State Fault Refusal :=
  if lc ≥ 1024 then .fault .noSuchAgent
  else if !s.goesOn lc then .next s
  else
    let s1 := s.clockCore lc
    if (s1.top lc).any fun f => begun f.vsent then .next (s1.seqStep lc)
    else if s1.active lc && s1.admissionDue lc && !s1.begunAt lc then execAdmission lc s1
    else
      match s1.top lc with
      | none => .next s1
      | some f => s1.runFrame lc f

/-- The turn of a front-end core: one that is halted or held in reset does nothing (R51, R58). -/
def State.turnFe (s : State) (n : Nat) : Host.Outcome State Fault Refusal :=
  if n ≥ 16 then .fault .noSuchAgent
  else if (s.fe n).halted || !(s.fe n).released then .next s
  else
    let s1 := s.clockFe n
    match s1.fetchFe n with
    | .word w s2 => s2.runWord w
    | .past => .next s1
    | .trap c v => .next (s1.feTrap n c v)
    | .wait s2 => .next s2

/-! ### Inputs -/

/-- An uncorrectable error strikes (R28, R242). -/
def State.strike (s : State) : ErrSite → State
  | .line pa => { s with mem := { s.mem with badLines := tput (pa / 64) true s.mem.badLines } }
  | .cellar lc off => { s with mem := { s.mem with badCellar := tput (cellarKey lc off / 8) true s.mem.badCellar } }
  | .reg lc level r => match s.frameAt lc level with
    | some f => s.setFrameAt lc level { f with badRegs := r :: f.badRegs }
    | none => s
  | .inbox lc i =>
    let c := s.core lc
    match tfind c.inbox i with
    | some q => s.setCore lc { c with inbox := tput i { q with bad := true } c.inbox }
    | none => s
  | .bank t b =>
    let x := s.tile t
    if h : b < 2 then s.setTile t { x with banks := x.banks.set b { x.banks[b] with bad := true } } else s
  | .slot g => s.failSlot g
  | .l1 slot pa => { s with mem := { s.mem with badL1 := tput (l1Key slot (pa / 64) * 8 + pa / 8 % 8) true s.mem.badL1 } }
  | .l2 pa => { s with mem := { s.mem with badL2 := tput (pa / 8) true s.mem.badL2 } }
  | .icache tile pa => { s with mem := { s.mem with badIcache := tput (icacheKey tile pa / 2) true s.mem.badIcache } }

/-- An error is corrected: no data changes, and its counter rises (R28, R29). -/
def State.corrects (s : State) : CorrSite → State
  | .stack k => if k < 16 then s.count cHBMCE k else s
  | .port p => if p < 4 then s.count cCXLCE p else s
  | .sram die k => if die < 8 then s.countSram cSRAMCE die (sramCode k) else s

/-- The oldest message of a module on channel 2, 3 or 4 goes to its unit. A record waits while an earlier one of its
module has not reached its place: its buffers of the link stay taken (R19, R143, R153). -/
def State.ferryDeliver (s : State) (dev vc : Nat) : State :=
  if vc = 2 ∧ s.prog.flights.any (fun x => x.src == .device dev) then s
  else
    match s.takeRx (fun x => x.src == dev && x.vc == vc && decide (2 ≤ vc) && decide (vc ≤ 4)) (fun _ => false) with
    | none => s
    | some (x, s1) =>
      match x.msg with
      | .record r => s1.send (.device dev) r false
      | .contribution .. => s1.contribute dev x.msg
      | m => s1.rootMessage dev m

/-- What comes before the agent's own step. The steps of the part are instructions without a word; a word
that has an encoding is executed by a core alone. -/
def State.takeInput (s : State) : Input → Host.Outcome State Fault Refusal
  | .ev i => if i.encoded then .next s else exec i s
  | .turn a => .next { s with agent := a }
  | .withdrawTile t => .next (s.setTile t { s.tile t with withdrawn := true })
  | .temperature t c => .next (s.setTile t { s.tile t with temp := c })
  | .tilePower t mw => .next (s.setTile t { s.tile t with power := mw })
  | .railLevel r code => .next (s.railLevel r code)
  | .bar0Read f off n => .next (s.readBar0 f off n)
  | .commitWrite => .next (s.commitAt 0)
  | .relaxedWrite k => .next (s.commitAt k)
  | .migRead => .next s.migStep
  | .bootQuay q => .next (s.bootAgain q)
  | .replayEnd p n => .next (s.setPreemption p { s.preemption p with upto := some n })
  | .callPlugin n core => .next (s.makeCall n core)
  | .grantCap n cap => .next (if 1 ≤ cap ∧ cap ≤ 6 then s.setPlugin n { s.plugin n with cap := cap } else s)
  | .copyRoute lc level ch g => .next (s.routeGranule lc level ch g)
  | .power w =>
    let above := if w > (s.entry 2 0).toNat then s.power.above + 1 else 0
    .next { s with power := { s.power with watts := w, above := above } }
  | .time ns => .next (if s.timestamp ≤ ns then { s with timestamp := ns } else s)
  | .hostStore pa d =>
    if s.region pa = .host then .next { s with mem := { s.mem with bytes := putBytes s.mem.bytes pa d } } else .next s
  | .error e => .next (s.strike e)
  | .corrected e => .next (s.corrects e)
  | .journalFree p => .next { s with journalUsed := mput 0 p (tget 0 s.journalUsed p - 1) s.journalUsed }
  | .ferryDeliver dev vc => .next (s.ferryDeliver dev vc)
  | .ferryIdle l => .next (s.linkIdle l)
  | .ferryTaken l => .next (s.wireTaken l)
  | .footLine lc slot => .next (s.fetchSlot lc slot 1)
  | .announce g st dev => .next (s.announceTo g st dev)

/-! ### Placing a word where the next step fetches it -/

/-- Store a word at the pc of front-end core 0, running at monitor level in the part of the HBM that is there before
the stacks train, whose turn it is. -/
def State.placeFe (s : State) (w : Nat) : State :=
  let c := s.fe 0
  let c1 := { c with halted := false, released := true, priv := 2, h := { c.h with pc := 0x400000 } }
  { (s.setFe 0 c1).writeMem (span 0x1000000 4) (wordBytes w) with agent := .fe 0, inputs := [] }

/-- A task of level 1 with a window of 32 registers runs at word 16 of the image of graph slot 0 on
logical core 0, which stands at physical core 0; the image lies at 1000_0000H and is mapped there. -/
def State.placeCore (s : State) (w : Nat) : State :=
  let pc := 16
  let pa := 0x10000000 + 4 * pc
  let g : Graph :=
    { fn := 0, text := 0x10000000, words := 0x4000, stations := 1, exit := 0, depths := [1], table := [], resources := []
      home := 0, cellarBase := 0, overlays := false }
  let f := { Frame.zero with h := { Hart.zero with pc := pc }, window := 32, ltime := 0x1000000000000000#64 }
  let s1 := ((((s.setEntry 6 0 0).setEntry 12 0 0x8000).setEntry 24 0 0x8000000000000000#64).setEntry 23 0 0x8000000000000000#64).setCore 0
    { s.core 0 with frames := [f], inbox := [], stopped := false }
  let s2 := s1.setTile 0 { s1.tile 0 with sleep := .awake, tripped := false }
  let s3 := (s2.setModState 3).writeMem (span pa 4) (wordBytes w)
  { s3 with
    agent := .core 0
    inputs := []
    boot := { s3.boot with modstat := s3.boot.modstat ||| 0x00FFFF00 }
    prog := { s3.prog with graphs := tput 0 g s3.prog.graphs }
    mem := { s3.mem with
      tlb := ⟨0, 0, 0x1000, 0x1000007B, 3⟩ :: s3.mem.tlb
      icache := tdel (icacheKey 0 pa) s3.mem.icache } }

/-- Place a word for the agent that can execute it. -/
def State.placeWord (s : State) (w : Nat) : State :=
  match decodeWord w with
  | .ok .eret | .ok (.pmpw _ _) => s.placeFe w
  | _ => s.placeCore w

end Sys2Proof.Machine
end

