-- ==== Sys2Proof/Machine/Step.lean ====
section
/-! DEFINITION. One step of the machine, and where the next instruction is placed. -/

namespace Sys2Proof.Machine

/-- One step: what comes before the agent's own step if anything does, and else the turn of the agent. -/
def step (s : State) : Host.Outcome State Fault Refusal :=
  match s.inputs with
  | x :: l => ({ s with tick := s.tick + 1, inputs := l }).takeInput x
  | [] =>
    match s.agent with
    | .core lc => ({ s with tick := s.tick + 1 }).turnCore lc
    | .fe n => ({ s with tick := s.tick + 1 }).turnFe n

/-- The state with the first nbits bits of w stored where the next step fetches: at the pc of front-end
core 0 for the two forms that only a front-end core has, and else in the image of a task that runs at
logical core 0 (log entry 30). -/
def State.withFetchWord (s : State) (nbits w : Nat) : State := s.placeWord (w % 2 ^ nbits)

end Sys2Proof.Machine
end

