-- ==== Sys2Proof/Safety.lean ====
section
/-! DEFINITION. What counts as a safe step, and the conditions that statements name: an instruction that
nothing holds back, and an instruction that completes with its result. -/

namespace Sys2Proof.Machine

/-- The step goes on: it ends in no fault and in no refusal. -/
def State.GoesOn (s : State) : Prop := ∃ t, step s = .next t

/-- The agent whose turn it is exists (R7, R50). -/
def State.AgentOk (s : State) : Prop :=
  match s.agent with
  | .core lc => lc < 1024
  | .fe n => n < 16

/-- Nothing holds an instruction back, and it is one the agent may execute: on a compute core the running
frame is no member of a gang and leads none, collects no loop, its sequencer is empty, no stream is bound,
and the registers the instruction names lie in its window (R93, R171, R173, R182, R276); on a front-end core
the form is one its level may execute (R50, R51, R275). -/
def State.Ready (s : State) (i : Instr) : Prop :=
  match s.agent with
  | .core lc => ∃ f, s.top lc = some f ∧ f.leader = none ∧ f.gang = none ∧ f.vloop = none ∧ f.seq = [] ∧
      (∀ r, f.stream r = none) ∧ feOnly i = false ∧ (f.kind = 1 → inlineOk i = true) ∧
      ∀ r ∈ srcs i ++ dsts i ++ named i, r.val < f.window
  | .fe n => Machine.feOk i = true ∧ ((s.fe n).priv = 0 → plugOk i = true)

/-- A form with one source completes: it writes g of the value it reads to d and retires. -/
def Runs1 (i : Reg → Reg → Instr) (g : Word → Word) : Prop :=
  ∀ d a x s, s.front (i d a) = .go [x] → exec (i d a) s = .next (s.finish (i d a) d (g x))

/-- A form with two sources completes: it writes g of the values it reads to d and retires. -/
def Runs2 (i : Reg → Reg → Reg → Instr) (g : Word → Word → Word) : Prop :=
  ∀ d a b x y s, s.front (i d a b) = .go [x, y] → exec (i d a b) s = .next (s.finish (i d a b) d (g x y))

/-- A divide form with a divisor that is not 0 writes q of dividend and divisor; with a divisor of 0 it takes
DIVZ with the dividend in TRAPVAL, or, where the header ignores DIVZ, writes z of the dividend. -/
def Divides (i : Reg → Reg → Reg → Instr) (q : Word → Word → Word) (z : Word → Word) : Prop :=
  ∀ d a b x y s, s.front (i d a b) = .go [x, y] →
    (y ≠ 0 → exec (i d a b) s = .next (s.finish (i d a b) d (q x y))) ∧
    (y = 0 → s.ignores DIVZ = false → exec (i d a b) s = .next (s.trap DIVZ x)) ∧
    (y = 0 → s.ignores DIVZ = true → exec (i d a b) s = .next ((s.ignore DIVZ x).finish (i d a b) d (z x)))

/-- A branch goes to its target where its condition holds and to the next word where it does not; a target
that lies outside the image or the overlay takes ADDRESS with the code base plus four times the target, and
one outside an inline handler's words ILLEGAL; neither writes a register. -/
def Branches (i : Reg → Reg → BitVec 16 → Instr) (c : Word → Word → Prop) : Prop :=
  ∀ a b o x y (s : State), s.front (i a b o) = .go [x, y] →
    (¬ c x y → exec (i a b o) s = .next (s.retire (i a b o))) ∧
    (c x y → (∀ pc, s.target (s.hart.pc + o.toInt) = .ok pc → exec (i a b o) s = .next ((s.pops (i a b o)).goTo pc)) ∧
      (∀ v, s.target (s.hart.pc + o.toInt) = .outside v → exec (i a b o) s = .next (s.trap ADDRESS v)) ∧
      (s.target (s.hart.pc + o.toInt) = .handler → exec (i a b o) s = .next (s.trap ILLEGAL (wordOf (i a b o)))))

/-- An access comes to something: its value is used, its trap is taken from the state before the instruction,
or the instruction waits where it is. -/
def Follows (a : Acc) (s : State) (o : Out) (k : Nat → State → State) : Prop :=
  (∀ x t, a = .ok x t → o = .next (k x t)) ∧ (∀ c w, a = .trap c w → o = .next (s.trap c w)) ∧
  (∀ t, a = .wait t → o = .next (s.waited t))

/-- A load of n bytes completes (R308, R309, R321): the steps of R308 in their order, the aligned access, and
the byte loads that stand for a misaligned one when the header ignores ALIGN. -/
def Loads1 (i : Reg → Reg → BitVec 16 → Instr) (n : Nat) (ext : Nat → Word) : Prop :=
  ∀ d a o b (s : State), s.front (i d a o) = .go [b] →
    let ea := b + o.signExtend 64
    (s.spaceOk ea n = false → exec (i d a o) s = .next (s.trap ADDRESS ea)) ∧
    (s.spaceOk ea n = true → ea.toNat % n = 0 →
      Follows (s.load ea n) s (exec (i d a o) s) fun x t => t.finish (i d a o) d (ext x)) ∧
    (s.spaceOk ea n = true → ea.toNat % n ≠ 0 → s.ignores ALIGN = false → exec (i d a o) s = .next (s.trap ALIGN ea)) ∧
    (∀ v x s1 s2, s.spaceOk ea n = true → ea.toNat % n ≠ 0 → s.ignores ALIGN = true → s.pagesOf ea n needR = .ok v s1 →
      (s1.loadBytes ea n = .ok x s2 → exec (i d a o) s = .next ((s2.ignore ALIGN ea).finish (i d a o) d (ext x))) ∧
      (s1.loadBytes ea n = .wait s2 → exec (i d a o) s = .next s2))

/-- A store of the low n bytes of its data completes likewise. -/
def Stores1 (i : Reg → Reg → BitVec 16 → Instr) (n : Nat) : Prop :=
  ∀ d a o b y (s : State), s.front (i d a o) = .go [b, y] →
    let ea := b + o.signExtend 64
    let v := y.toNat % 2 ^ (8 * n)
    (s.spaceOk ea n = false → exec (i d a o) s = .next (s.trap ADDRESS ea)) ∧
    (s.spaceOk ea n = true → ea.toNat % n = 0 →
      Follows (s.store ea n v) s (exec (i d a o) s) fun _ t => t.retire (i d a o)) ∧
    (s.spaceOk ea n = true → ea.toNat % n ≠ 0 → s.ignores ALIGN = false → exec (i d a o) s = .next (s.trap ALIGN ea)) ∧
    (∀ u x s1 s2, s.spaceOk ea n = true → ea.toNat % n ≠ 0 → s.ignores ALIGN = true → s.pagesOf ea n needW = .ok u s1 →
      (s1.storeBytes ea n v = .ok x s2 → exec (i d a o) s = .next ((s2.ignore ALIGN ea).retire (i d a o))) ∧
      (s1.storeBytes ea n v = .wait s2 → exec (i d a o) s = .next s2))

/-- The accesses of an instruction that have been performed, one a step, and the values they have given (R209, R309). -/
def Noted (l : List Sent) (vs : List Nat) : Prop :=
  l.length = vs.length ∧ ∀ (j : Nat) (q : Sent), l[j]? = some q → q.answer = some (.data (leBytes 8 (vs.getD j 0)))

/-- A near load of n bytes at an offset of the running core's quarter (R322): the range test, alignment unless
the header ignores ALIGN, an armed granule that has not arrived, an uncorrectable word, and else the value. A misaligned
one that is ignored reads a byte a step: the one that follows those it has read, the value with the last. -/
def NearLoads (i : Reg → Reg → BitVec 16 → Instr) (n : Nat) (ext : Nat → Word) : Prop :=
  ∀ d a o b lc (s : State), s.agent = .core lc → s.front (i d a o) = .go [b] →
    let off := b + o.signExtend 64
    let key := span (cellarKey lc off.toNat) n
    (0x60000 < off.toNat + n → exec (i d a o) s = .next (s.trap ADDRESS off)) ∧
    (off.toNat + n ≤ 0x60000 → off.toNat % n ≠ 0 → s.ignores ALIGN = false → exec (i d a o) s = .next (s.trap ALIGN off)) ∧
    (off.toNat + n ≤ 0x60000 → off.toNat % n = 0 →
      (s.armedAt lc off.toNat n = true → exec (i d a o) s = .next (s.waited s)) ∧
      (s.armedAt lc off.toNat n = false → s.anyBadCellar key = true → exec (i d a o) s = .next (s.trap DATA off)) ∧
      (s.armedAt lc off.toNat n = false → s.anyBadCellar key = false →
        exec (i d a o) s = .next (s.finish (i d a o) d (ext (s.readCellar key))))) ∧
    (off.toNat + n ≤ 0x60000 → off.toNat % n ≠ 0 → s.ignores ALIGN = true →
      ∀ (vs : List Nat) (t : State), Noted s.hart.sent vs → vs.length < n → (∀ v ∈ vs, v < 256) →
      t = s.setHart { s.hart with sent := [] } →
      let at_ := off.toNat + vs.length
      let x := s.readCellar [cellarKey lc at_]
      s.armedAt lc at_ 1 = false → s.badCellarAt (cellarKey lc at_) = false →
      (vs.length + 1 < n → exec (i d a o) s = .next (t.setHart { t.hart with
        sent := s.hart.sent ++ [⟨off + BitVec.ofNat 64 vs.length, 0, false, some (.data (leBytes 8 x))⟩] })) ∧
      (vs.length + 1 = n → exec (i d a o) s = .next (((t.setHart { t.hart with sent := s.hart.sent }).ignore ALIGN off).finish
        (i d a o) d (ext (vs.foldr (fun v r => v + 256 * r) x)))))

/-- A near store of n bytes likewise: it writes exactly the n bytes from its offset; a misaligned one that is ignored checks
every word first and writes a byte a step. -/
def NearStores (i : Reg → Reg → BitVec 16 → Instr) (n : Nat) : Prop :=
  ∀ d a o b y lc (s : State), s.agent = .core lc → s.front (i d a o) = .go [b, y] →
    let off := b + o.signExtend 64
    let key := span (cellarKey lc off.toNat) n
    let v := leBytes n (y.toNat % 2 ^ (8 * n))
    (0x60000 < off.toNat + n → exec (i d a o) s = .next (s.trap ADDRESS off)) ∧
    (off.toNat + n ≤ 0x60000 → off.toNat % n ≠ 0 → s.ignores ALIGN = false → exec (i d a o) s = .next (s.trap ALIGN off)) ∧
    (off.toNat + n ≤ 0x60000 → off.toNat % n = 0 →
      (s.storableCellar key = false → exec (i d a o) s = .next (s.trap DATA off)) ∧
      (s.storableCellar key = true → exec (i d a o) s = .next ((s.writeCellar key v).retire (i d a o)))) ∧
    (off.toNat + n ≤ 0x60000 → off.toNat % n ≠ 0 → s.ignores ALIGN = true →
      (s.hart.sent = [] → s.storableCellar key = false → exec (i d a o) s = .next ((s.ignore ALIGN off).trap DATA off)) ∧
      ∀ (vs : List Nat) (t : State), Noted s.hart.sent vs → vs.length < n → (vs = [] → s.storableCellar key = true) →
      let k := [cellarKey lc (off.toNat + vs.length)]
      s.storableCellar k = true → t = (s.setHart { s.hart with sent := [] }).writeCellar k (v.drop vs.length |>.take 1) →
      (vs.length + 1 < n → exec (i d a o) s = .next (t.setHart { t.hart with
        sent := s.hart.sent ++ [⟨off + BitVec.ofNat 64 vs.length, 0, true, some (.data (leBytes 8 0))⟩] })) ∧
      (vs.length + 1 = n → exec (i d a o) s =
        .next (((t.setHart { t.hart with sent := s.hart.sent }).ignore ALIGN off).retire (i d a o))))

/-- An ordinary atomic of code op completes for both sizes (R280, R308, R309, R327): it never ignores ALIGN, it
needs R and W, f of the width, the old value and the operand is written, and the destination receives the
old value, sign-extended. -/
def Atomics (i : ASz → Reg → Reg → Reg → Instr) (op : Nat) (f : Nat → Nat → Nat → Nat) : Prop :=
  ∀ z d a b ea y (s : State), s.front (i z d a b) = .go [ea, y] →
    let n := match z with | .w => 4 | .d => 8
    let x := y.toNat % 2 ^ (8 * n)
    (s.spaceOk ea n = false → exec (i z d a b) s = .next (s.trap ADDRESS ea)) ∧
    (s.spaceOk ea n = true → ea.toNat % n ≠ 0 → exec (i z d a b) s = .next (s.trap ALIGN ea)) ∧
    (s.spaceOk ea n = true → ea.toNat % n = 0 →
      Follows (s.atomic ea n (needR + needW) (.atomic op (n == 8) (BitVec.ofNat 64 x) 0 0 0) fun old => f (8 * n) old x)
        s (exec (i z d a b) s) fun old t => t.finish (i z d a b) d ((BitVec.ofNat (8 * n) old).signExtend 64))

/-- The sequencer of a core that belongs to no gang finishes the entry at its head in one chunk: it writes x to
vector register d with the entry's tag, which makes the register good, ORs fl into FPSTAT, and changes nothing else of the
frame but what belongs to the sequencer. -/
def ChunkWrites (s : State) (lc : Nat) (f : Frame) (e : SeqEntry) (rest : List SeqItem) (d : VReg) (x : Nat)
    (fl : BitVec 5) : Prop :=
  ∃ t g, exec (.sequencerChunk lc) s = .next t ∧ t.top lc = some g ∧
    g = { f with
      v := f.v.set d.val (BitVec.ofNat 512 x)
      tags := f.tags.set d.val e.res
      badRegs := f.badRegs.filter (· != 32 + d.val)
      h := { f.h with fpstat := f.h.fpstat ||| fl }
      seq := rest
      chunk := 0
      vsent := []
      vplan := []
      vhold := none
      latch := latchAfter e.i f.latch } ∧
    t.mem = s.mem ∧ (∀ c, c ≠ lc → t.core c = s.core c)

/-- The same for a form that writes a scalar register. -/
def ChunkWritesScalar (s : State) (lc : Nat) (f : Frame) (e : SeqEntry) (rest : List SeqItem) (r : Reg) (x : Word)
    (fl : BitVec 5) : Prop :=
  ∃ t g, exec (.sequencerChunk lc) s = .next t ∧ t.top lc = some g ∧
    (∀ q, g.h.reg q = if q = r ∧ r ≠ 0 then x else f.h.reg q) ∧ g.h.fpstat = f.h.fpstat ||| fl ∧ g.v = f.v ∧
    g.tags = f.tags ∧ g.latch = latchAfter e.i f.latch ∧ g.seq = rest ∧ g.chunk = 0 ∧ t.mem = s.mem ∧ (∀ c, c ≠ lc → t.core c = s.core c)

/-- The sequencer of core lc comes to its head entry: the core is in service and not stopped, its frame is of no gang, no trap
waits for a boundary, no vector register that the entry reads is uncorrectable, and no chunk of it has been done (R171, R182,
R234, R242). -/
def State.ChunkReady (s : State) (lc : Nat) (f : Frame) (e : SeqEntry) (rest : List SeqItem) : Prop :=
  s.goesOn lc = true ∧ s.top lc = some f ∧ f.leader = none ∧ f.gang = none ∧ f.pending = none ∧ s.vbad lc f e.i = false ∧
    f.chunk = 0 ∧ f.vhold = none ∧ f.seq = .one e :: rest

/-- Nothing holds back an instruction of the running frame that sends (R124, R146, R153, R190, R212): no batch of the core
waits for its tile's node, no record of its waits at its network stop, every remote store is acknowledged, and none was
rejected. -/
def State.SenderClear (s : State) (lc : Nat) (f : Frame) : Prop :=
  s.parentFull lc = false ∧ s.heldFlight (.core lc) = none ∧ f.unacked = 0 ∧ f.rejected = none

/-- The words d of a block of n doublewords are read in s0, at an address that is one the agent may use and a
multiple of their size (R377). -/
def State.BlockReads (s s0 : State) (addr : Word) (n : Nat) (d : List Word) (t : State) : Prop :=
  s.spaceOk addr (8 * n) = true ∧ addr.toNat % (8 * n) = 0 ∧ s0.loadWords addr n = .ok d t

/-- A successor image r is read in s0 and passes every check of R378: its kind, level and footprint count, its
target, and its time. -/
def State.ImageReads (s s0 : State) (lc : Nat) (f : Frame) (addr : Word) (r : Rec) (t : State) : Prop :=
  ∃ l, s.BlockReads s0 addr 8 l t ∧ ((Rec.ofWords l).kind = 0 ∨ (Rec.ofWords l).kind = 3) ∧ (Rec.ofWords l).level ≠ 7 ∧
    (Rec.ofWords l).fpn = 0 ∧ r = (if (Rec.ofWords l).level = 0 then (Rec.ofWords l).set 24 3 f.level else Rec.ofWords l) ∧
    s.badTarget lc r = false ∧ s.checkTarget f r.graph r.station r.q1 = none

end Sys2Proof.Machine
end

