-- ==== Sys2Proof/Certificates/Slice0/Obligations.lean ====
section
/-! DEFINITION. The statements for the provers. A statement says that an instruction completes by giving the
state that exec answers; what holds the instruction back is `State.front`, which `State.Ready` settles. -/

open Sys2Proof Sys2Proof.Machine

/-! ### Decoding -/

/-- Decoding the word of a well-formed instruction gives the instruction back, with every operand at every
value it can have (R269 to R287). -/
def Obligations.DecodeEncode : Prop :=
  ∀ (i : Instr) (w : Nat), WellFormed i = true → encode i = some w → w < 2 ^ 32 ∧ decodeWord w = .ok i

/-- A word that decodes is the word of the instruction it decodes to, and that instruction is well formed:
no two words stand for one instruction, and no bit of a word is dropped (R269, R276). -/
def Obligations.WordHasOneMeaning : Prop :=
  ∀ (i : Instr) (w : Nat), w < 2 ^ 32 → decodeWord w = .ok i → WellFormed i = true ∧ encode i = some w

/-! ### What stands before an instruction, and what it leaves -/

/-- What stands before an instruction that nothing holds back: the values of its source registers, s0 read
as 0 (R173, R267, R306). -/
def Obligations.ReadyReadsRegisters : Prop :=
  ∀ (s : State) (i : Instr), s.Ready i → s.front i = .go ((srcs i).map s.hart.reg)

/-- A barred word traps with ILLEGAL and its word in TRAPVAL, for every instruction that has a word (R225,
R276); one that waits, and one that no frame executes, leaves the state as it is. -/
def Obligations.BarredWordTraps : Prop :=
  ∀ (i : Instr) (s : State), i.encoded = true →
    (s.front i = .bad → exec i s = .next (s.trap ILLEGAL (wordOf i))) ∧
    (s.front i = .stall ∨ s.front i = .idle → exec i s = .next s)

/-- A frame names a register at or above its window, on a core whose running frame leads no gang and
collects no loop: the word is barred (R93, R267). On a front-end core the vector, engine and near forms are
barred, and at plug-in level those that R51 names (R50, R51, R275) and, by log entry 21, `tadv`, `tadvi`, `tcmp`, `ifence` and
`brk`, whose fate there R51 does not name. -/
def Obligations.WindowAndLevelBar : Prop :=
  ∀ (s : State) (i : Instr),
    (∀ lc f, s.agent = .core lc → s.top lc = some f → f.leader = none → f.gang = none →
      (∃ r ∈ srcs i ++ dsts i ++ named i, f.window ≤ r.val) → s.front i = .bad) ∧
    (∀ n, s.agent = .fe n → (isVector i = true ∨ isEngine i = true ∨ Machine.feOk i = false ∨
      ((s.fe n).priv = 0 ∧ plugOk i = false)) → s.front i = .bad)

/-- What an instruction with one destination leaves: the register holds the value unless it is s0, which
discards it; the pc has moved by one word, INSTRET has risen by one, and nothing else has changed: no other
register, no flag, no special register, no memory, no other core; a register written is good again (R242, R267, R306, R403). -/
def Obligations.FinishWritesOnlyItsRegister : Prop :=
  ∀ (s : State) (i : Instr) (d : Reg) (w : Word), s.Ready i →
    let t := s.finish i d w
    (∀ r, t.hart.reg r = if r = d ∧ d ≠ 0 then w else s.hart.reg r) ∧
    t.hart = { s.hart with regs := t.hart.regs, pc := s.hart.pc + 1, sent := [], stalled := false } ∧
    { t with cores := s.cores, fes := s.fes } = s ∧
    (match s.agent with
      | .core lc => t.fes = s.fes ∧ (∀ c, c ≠ lc → t.core c = s.core c) ∧
          ∃ f l, (s.core lc).frames = f :: l ∧
            t.core lc = { s.core lc with
              frames := { f with h := t.hart, badRegs := f.badRegs.filter (· != d.val) } :: l, instret := (s.core lc).instret + 1 }
      | .fe n => t.cores = s.cores ∧ (∀ c, c ≠ n → t.fe c = s.fe c) ∧
          t.fe n = { s.fe n with h := t.hart, instret := (s.fe n).instret + 1 })


/-! ### Integer instructions -/

/-- Addition, logic, shifts, rotations, comparisons, selections and the saturating forms: each writes its
result modulo 2^64 to its destination (R311). -/
def Obligations.AluResults : Prop :=
  Runs2 Instr.add (fun x y => x + y) ∧ Runs2 Instr.sub (fun x y => x - y) ∧
  Runs2 Instr.and (fun x y => x &&& y) ∧ Runs2 Instr.or (fun x y => x ||| y) ∧ Runs2 Instr.xor (fun x y => x ^^^ y) ∧
  Runs2 Instr.andn (fun x y => x &&& ~~~y) ∧ Runs2 Instr.orn (fun x y => x ||| ~~~y) ∧
  Runs2 Instr.xnor (fun x y => ~~~(x ^^^ y)) ∧
  Runs2 Instr.shl (fun x y => BitVec.ofNat 64 (x.toNat * 2 ^ (y.toNat % 64))) ∧
  Runs2 Instr.shr (fun x y => BitVec.ofNat 64 (x.toNat / 2 ^ (y.toNat % 64))) ∧
  Runs2 Instr.sra (fun x y => BitVec.ofInt 64 (x.toInt / 2 ^ (y.toNat % 64))) ∧
  Runs2 Instr.rol (fun x y => BitVec.ofNat 64 (x.toNat * 2 ^ (y.toNat % 64) + x.toNat / 2 ^ (64 - y.toNat % 64))) ∧
  Runs2 Instr.ror (fun x y => BitVec.ofNat 64 (x.toNat / 2 ^ (y.toNat % 64) + x.toNat * 2 ^ (64 - y.toNat % 64))) ∧
  Runs2 Instr.lt (fun x y => if x.toInt < y.toInt then 1 else 0) ∧
  Runs2 Instr.ltu (fun x y => if x.toNat < y.toNat then 1 else 0) ∧
  Runs2 Instr.eq (fun x y => if x = y then 1 else 0) ∧ Runs2 Instr.ne (fun x y => if x = y then 0 else 1) ∧
  Runs2 Instr.min (fun x y => if x.toInt < y.toInt then x else y) ∧
  Runs2 Instr.max (fun x y => if x.toInt < y.toInt then y else x) ∧
  Runs2 Instr.minu (fun x y => if x.toNat < y.toNat then x else y) ∧
  Runs2 Instr.maxu (fun x y => if x.toNat < y.toNat then y else x) ∧
  Runs2 Instr.adds (fun x y => BitVec.ofInt 64 (max (-(2 ^ 63)) (min (2 ^ 63 - 1) (x.toInt + y.toInt)))) ∧
  Runs2 Instr.subs (fun x y => BitVec.ofInt 64 (max (-(2 ^ 63)) (min (2 ^ 63 - 1) (x.toInt - y.toInt)))) ∧
  Runs2 Instr.addus (fun x y => BitVec.ofNat 64 (min (2 ^ 64 - 1) (x.toNat + y.toNat))) ∧
  Runs2 Instr.subus (fun x y => BitVec.ofNat 64 (x.toNat - y.toNat))

/-- The multiply forms write the low or the high half of the exact product (R312). The divide forms: quotient
toward zero, remainder with the sign of the dividend, the most negative number over −1, and the divisor 0,
which takes DIVZ with the dividend or, under ignore, writes all ones or the dividend (R313). -/
def Obligations.MultiplyAndDivideResults : Prop :=
  Runs2 Instr.mul (fun x y => BitVec.ofNat 64 (x.toNat * y.toNat)) ∧
  Runs2 Instr.mul (fun x y => BitVec.ofInt 64 (x.toInt * y.toInt)) ∧
  Runs2 Instr.mulh (fun x y => BitVec.ofInt 64 (x.toInt * y.toInt / 2 ^ 64)) ∧
  Runs2 Instr.mulhu (fun x y => BitVec.ofNat 64 (x.toNat * y.toNat / 2 ^ 64)) ∧
  Divides Instr.div (fun x y => BitVec.ofInt 64 (x.toInt.tdiv y.toInt)) (fun _ => 0xFFFFFFFFFFFFFFFF) ∧
  Divides Instr.divu (fun x y => BitVec.ofNat 64 (x.toNat / y.toNat)) (fun _ => 0xFFFFFFFFFFFFFFFF) ∧
  Divides Instr.rem (fun x y => BitVec.ofInt 64 (x.toInt - y.toInt * x.toInt.tdiv y.toInt)) (fun x => x) ∧
  Divides Instr.remu (fun x y => BitVec.ofNat 64 (x.toNat - y.toNat * (x.toNat / y.toNat))) (fun x => x) ∧
  BitVec.ofInt 64 ((0x8000000000000000#64).toInt.tdiv (0xFFFFFFFFFFFFFFFF#64).toInt) = 0x8000000000000000

/-- The unary forms: leading and trailing zeros, ones, reversals and extensions (R315).
Packing and unpacking complete with the groups of 1, 2, 4 or 8 bits that the mask selects, and unpacking
what was packed under one mask gives the value with every unselected group cleared (R314). -/
def Obligations.UnaryResults : Prop :=
  (Runs1 Instr.clz (fun x => if x = 0 then 64 else BitVec.ofNat 64 (63 - Nat.log2 x.toNat)) ∧
  (∃ g : Word → Word, Runs1 Instr.ctz g ∧ g 0 = 64 ∧ ∀ x, x ≠ 0 →
    x.getLsbD (g x).toNat = true ∧ ∀ j, j < (g x).toNat → x.getLsbD j = false) ∧
  Runs1 Instr.popc (fun x => BitVec.ofNat 64 ((List.range 64).countP fun j => x.getLsbD j)) ∧
  (∃ g : Word → Word, Runs1 Instr.brev g ∧ ∀ x j, j < 64 → (g x).getLsbD j = x.getLsbD (63 - j)) ∧
  (∃ g : Word → Word, Runs1 Instr.bswap g ∧ ∀ x j, j < 64 → (g x).getLsbD j = x.getLsbD (8 * (7 - j / 8) + j % 8)) ∧
  Runs1 Instr.sextB (fun x => (x.setWidth 8).signExtend 64) ∧ Runs1 Instr.sextH (fun x => (x.setWidth 16).signExtend 64) ∧
  Runs1 Instr.sextW (fun x => (x.setWidth 32).signExtend 64) ∧ Runs1 Instr.zextB (fun x => (x.setWidth 8).setWidth 64) ∧
  Runs1 Instr.zextH (fun x => (x.setWidth 16).setWidth 64) ∧ Runs1 Instr.zextW (fun x => (x.setWidth 32).setWidth 64)) ∧
  (Runs2 Instr.bpack (pack 1) ∧ Runs2 Instr.bpack2 (pack 2) ∧ Runs2 Instr.bpack4 (pack 4) ∧ Runs2 Instr.bpack8 (pack 8) ∧
  Runs2 Instr.bunpk (unpack 1) ∧ Runs2 Instr.bunpk2 (unpack 2) ∧ Runs2 Instr.bunpk4 (unpack 4) ∧
  Runs2 Instr.bunpk8 (unpack 8) ∧
  ∀ g ∈ [1, 2, 4, 8], ∀ (x m : Word) (j : Nat), j < 64 →
    (unpack g (pack g x m) m).getLsbD j = (x.getLsbD j && m.getLsbD (j / g)))

/-- The immediate and constant forms: a 16-bit immediate is sign-extended but for the logical forms, where
it is zero-extended; `lui` writes its 21 bits shifted by 16 and sign-extended, `lhi` puts its 21 bits above
the low 37 of its destination, `lco` writes its 19 bits (R277, R316, R317). -/
def Obligations.ImmediateResults : Prop :=
  (∀ n : BitVec 16,
    Runs1 (fun d a => Instr.addi d a n) (fun x => x + n.signExtend 64) ∧
    Runs1 (fun d a => Instr.andi d a n) (fun x => x &&& n.setWidth 64) ∧
    Runs1 (fun d a => Instr.ori d a n) (fun x => x ||| n.setWidth 64) ∧
    Runs1 (fun d a => Instr.xori d a n) (fun x => x ^^^ n.setWidth 64) ∧
    Runs1 (fun d a => Instr.lti d a n) (fun x => if x.toInt < n.toInt then 1 else 0) ∧
    Runs1 (fun d a => Instr.ltui d a n) (fun x => if x.toNat < (n.signExtend 64).toNat then 1 else 0)) ∧
  (∀ n : BitVec 6,
    Runs1 (fun d a => Instr.shli d a n) (fun x => BitVec.ofNat 64 (x.toNat * 2 ^ n.toNat)) ∧
    Runs1 (fun d a => Instr.shri d a n) (fun x => BitVec.ofNat 64 (x.toNat / 2 ^ n.toNat)) ∧
    Runs1 (fun d a => Instr.srai d a n) (fun x => BitVec.ofInt 64 (x.toInt / 2 ^ n.toNat))) ∧
  (∀ (n : BitVec 21) (d : Reg) (x : Word) (v : List Word) (s : State),
    (s.front (.lui d n) = .go v → exec (.lui d n) s = .next (s.finish (.lui d n) d (BitVec.ofInt 64 (n.toInt * 2 ^ 16)))) ∧
    (s.front (.lhi d n) = .go [x] → exec (.lhi d n) s =
      .next (s.finish (.lhi d n) d ((x &&& 0x1FFFFFFFFF) ||| (n.setWidth 64 <<< 37))))) ∧
  (∀ (n : BitVec 19) (d : Reg) (v : List Word) (s : State),
    s.front (.lco d n) = .go v → exec (.lco d n) s = .next (s.finish (.lco d n) d (n.setWidth 64)))

/-! ### Control flow -/

/-- The branches and their conditions, and the jumps: `j` moves the pc, `jal` writes the next word's offset to s25
and `jalr` to its destination, after the source has been read; a target that cannot be reached writes no link
register and traps (R318 to R320). -/
def Obligations.ControlFlowResults : Prop :=
  Branches Instr.beq (fun x y => x = y) ∧ Branches Instr.bne (fun x y => x ≠ y) ∧
  Branches Instr.blt (fun x y => x.toInt < y.toInt) ∧ Branches Instr.bge (fun x y => y.toInt ≤ x.toInt) ∧
  Branches Instr.bltu (fun x y => x.toNat < y.toNat) ∧ Branches Instr.bgeu (fun x y => y.toNat ≤ x.toNat) ∧
  ∀ (s : State) (o : BitVec 26) (d a : Reg) (n : BitVec 16) (x : Word) (v : List Word),
    (s.front (.j o) = .go v →
      (∀ pc, s.target (s.hart.pc + o.toInt) = .ok pc → exec (.j o) s = .next (s.goTo pc)) ∧
      (∀ w, s.target (s.hart.pc + o.toInt) = .outside w → exec (.j o) s = .next (s.trap ADDRESS w))) ∧
    (s.front (.jal o) = .go v →
      (∀ pc, s.target (s.hart.pc + o.toInt) = .ok pc →
        exec (.jal o) s = .next ((s.writeReg 25 (BitVec.ofNat 64 (s.hart.pc + 1))).goTo pc)) ∧
      (∀ w, s.target (s.hart.pc + o.toInt) = .outside w → exec (.jal o) s = .next (s.trap ADDRESS w))) ∧
    (s.front (.jalr d a n) = .go [x] →
      (∀ pc, s.target ((x + n.signExtend 64).toNat : Int) = .ok pc → exec (.jalr d a n) s =
        .next (((s.pops (.jalr d a n)).writeReg d (BitVec.ofNat 64 ((s.pops (.jalr d a n)).hart.pc + 1))).goTo pc)) ∧
      (∀ w, s.target ((x + n.signExtend 64).toNat : Int) = .outside w → exec (.jalr d a n) s = .next (s.trap ADDRESS w)))

/-- Which targets can be reached: in a frame that is no inline handler a word of the image, and in overlay
mode a word of the frame's overlay; TRAPVAL of another is the code base plus four times the target (R304,
R320). In an inline handler words 0 to 11 (R101). -/
def Obligations.ReachableTargets : Prop :=
  ∀ (s : State) (lc : Nat) (f : Frame) (g : Graph) (t : Int), s.agent = .core lc → s.top lc = some f →
    (f.kind = 1 → s.target t = if 0 ≤ t ∧ t ≤ 11 then .ok t.toNat else .handler) ∧
    (f.kind ≠ 1 → s.graph f.graph = some g → s.target t =
      if 0 ≤ t ∧ t < g.words ∧ (∀ n, f.overlay = some n → 0x4000 * n ≤ t.toNat ∧ t.toNat ≤ 0x4000 * n + 0x3FFF)
      then .ok t.toNat else .outside (BitVec.ofInt 64 (g.text.toNat + 4 * t)))


/-! ### Loads, stores, near accesses, block moves -/

/-- The global loads and stores: sizes, extension, the order of the checks, and what each access comes to
(R308, R309, R321). -/
def Obligations.LoadStoreResults : Prop :=
  Loads1 Instr.ldB 1 (fun x => (BitVec.ofNat 8 x).signExtend 64) ∧ Loads1 Instr.ldBu 1 (fun x => BitVec.ofNat 64 x) ∧
  Loads1 Instr.ldH 2 (fun x => (BitVec.ofNat 16 x).signExtend 64) ∧ Loads1 Instr.ldHu 2 (fun x => BitVec.ofNat 64 x) ∧
  Loads1 Instr.ldW 4 (fun x => (BitVec.ofNat 32 x).signExtend 64) ∧ Loads1 Instr.ldWu 4 (fun x => BitVec.ofNat 64 x) ∧
  Loads1 Instr.ldD 8 (fun x => BitVec.ofNat 64 x) ∧
  Stores1 Instr.stB 1 ∧ Stores1 Instr.stH 2 ∧ Stores1 Instr.stW 4 ∧ Stores1 Instr.stD 8

/-- The near loads and stores in the running core's quarter (R309, R322). -/
def Obligations.NearResults : Prop :=
  NearLoads Instr.lcB 1 (fun x => (BitVec.ofNat 8 x).signExtend 64) ∧ NearLoads Instr.lcBu 1 (fun x => BitVec.ofNat 64 x) ∧
  NearLoads Instr.lcH 2 (fun x => (BitVec.ofNat 16 x).signExtend 64) ∧ NearLoads Instr.lcHu 2 (fun x => BitVec.ofNat 64 x) ∧
  NearLoads Instr.lcW 4 (fun x => (BitVec.ofNat 32 x).signExtend 64) ∧ NearLoads Instr.lcWu 4 (fun x => BitVec.ofNat 64 x) ∧
  NearLoads Instr.lcD 8 (fun x => BitVec.ofNat 64 x) ∧
  NearStores Instr.scB 1 ∧ NearStores Instr.scH 2 ∧ NearStores Instr.scW 4 ∧ NearStores Instr.scD 8

/-- What a load, a store and an atomic of a compute core do at a global address within one page that translates to
local HBM with no uncorrectable codeword: the load gives the bytes, the least significant first, and changes no
memory; the store puts its bytes there and leaves every other byte; the atomic gives the old value and writes the new
one (R3, R13, R192, R210, R217, R308). -/
def Obligations.AccessesOfLocalMemory : Prop :=
  ∀ (s : State) (lc va n need v pa : Nat) (ea : Word) (l : List Nat) (s1 : State) (op : RemoteOp) (f : Nat → Nat),
    s.agent = .core lc → spaceOf ea n = .global va → n ≤ 65536 - va % 65536 → s.coreSpan lc va n need = .pas l s1 →
    s.region (l.headD 0) = .hbm pa → s.anyBad l = false → l.any s.portFailed = false →
      (need = needR → s1.loadFails lc l = false →
        ∃ t, s.load ea n = .ok (s.readMem l) t ∧ t.mem.bytes = s.mem.bytes ∧ t.mem.cellar = s.mem.cellar) ∧
      (need = needW → s1.hostBusy l = false → ∃ t, s.store ea n v = .ok 0 t ∧ t.mem.bytes = scatterBytes s.mem.bytes l (leBytes n v) ∧
        (∀ a, a ∉ l → byteAt t.mem.bytes a = byteAt s.mem.bytes a) ∧ t.mem.cellar = s.mem.cellar) ∧
      ∃ t, s.atomic ea n need op f = .ok (s.readMem l) t ∧
        t.mem.bytes = scatterBytes s.mem.bytes l (leBytes n (f (s.readMem l))) ∧
        (∀ a, a ∉ l → byteAt t.mem.bytes a = byteAt s.mem.bytes a) ∧ t.mem.cellar = s.mem.cellar

/-- What a load and a store may change. A load changes no byte of memory and no register (R321). A store of n
bytes at ea may write: the physical bytes its address translates to, the bytes of the
quarter its window names, or, on a front-end core, the physical bytes themselves. Every other byte of memory
and of the cellars reads as before. -/
def Obligations.AccessFrames : Prop :=
  (∀ (s t : State) (ea : Word) (n x : Nat), s.load ea n = .ok x t →
    t.mem.bytes = s.mem.bytes ∧ t.mem.cellar = s.mem.cellar ∧ t.hart = s.hart ∧ t.agent = s.agent) ∧
  ∀ (s t : State) (ea : Word) (n v x : Nat), s.store ea n v = .ok x t →
    match s.agent with
    | .fe _ => t.mem.cellar = s.mem.cellar ∧ ∀ a, a ∉ s.feBytes ea.toNat n → byteAt t.mem.bytes a = byteAt s.mem.bytes a
    | .core lc =>
      match spaceOf ea n with
      | .bad => False
      | .window _ tlc off => t.mem.bytes = s.mem.bytes ∧
          ∀ a, a ∉ span (cellarKey tlc off) n → byteAt t.mem.cellar a = byteAt s.mem.cellar a
      | .global va => t.mem.cellar = s.mem.cellar ∧ ∃ l s1, s.coreSpan lc va n needW = .pas l s1 ∧
          ∀ a, a ∉ l → byteAt t.mem.bytes a = byteAt s.mem.bytes a

/-- A translation by a held or walked leaf: an unpopulated address takes ADDRESS, a missing permission PROT, a
write to a migrating page waits and is counted once, and else the address is the page's base and the offset in the
page (R199, R200, R204). -/
def Obligations.TranslationOfLeaf : Prop :=
  ∀ (s s1 : State) (die part ctx va need l : Nat) (h : List Nat) (e : Word),
    s.lookup die h ctx va = (.leaf e l, s1) →
    let pa := bits e 16 36 * 2 ^ 16 + va % 2 ^ (46 - 10 * l)
    (s.populated (bits e 8 2) pa = false → s.xlate die h part ctx va need = .trap ADDRESS) ∧
    (s.populated (bits e 8 2) pa = true → e.toNat &&& need ≠ need → s.xlate die h part ctx va need = .trap PROT) ∧
    (s.populated (bits e 8 2) pa = true → e.toNat &&& need = need →
      (bit e 7 = true → need / 16 % 2 = 1 →
        s.xlate die h part ctx va need = .wait (s1.migWait (missOf die h ctx va) part) ∧
        ((missOf die h ctx va) ∉ s1.mem.migWaits →
          (s1.migWait (missOf die h ctx va) part).counter cMIGWAIT part = satAdd (s1.counter cMIGWAIT part) 1) ∧
        ((missOf die h ctx va) ∈ s1.mem.migWaits → s1.migWait (missOf die h ctx va) part = s1)) ∧
      (bit e 7 = false ∨ need / 16 % 2 = 0 → ∃ p t, s.xlate die h part ctx va need = .pa p t ∧
        (p = pa ∨ s.region pa = .hbm p) ∧ t.mem.bytes = s1.mem.bytes ∧ t.cores = s1.cores))

/-- The block moves and `pref`: a count of 0 performs no access and retires; else one element is performed,
the load before the store and each in a step of its own, and the registers step past it while the pc stays; `bcmp` retires at
the first unequal pair with its registers at it; `pref` changes no architectural state (R207, R323, R325, R326).
The nibble stores: one half of a byte is replaced by the low four bits of the data and the other half
stays; one at another module's byte is sent there and retires; a near one whose byte is uncorrectable takes
DATA and writes nothing (R210, R324). -/
def Obligations.BlockMoveResults : Prop :=
  (∀ (s s1 : State) (d a b : Reg) (x y n : Word) (c e u : Nat),
    let s0 := s.setHart { s.hart with sent := [] }
    let note := fun (w : Word) (keep : Bool) (v : Nat) => (⟨w, 0, keep, some (.data (leBytes 8 v))⟩ : Sent)
    (s.front (.bmov d a b) = .go [x, y, n] →
      (n = 0 → exec (.bmov d a b) s = .next (s.retire (.bmov d a b))) ∧
      (n ≠ 0 → s.hart.sent = [] → s0.spaceOk y 1 = true → s0.load y 1 = .ok c s1 →
        exec (.bmov d a b) s = .next (s1.setHart { s1.hart with sent := [note y false c] })) ∧
      (n ≠ 0 → s.hart.sent = [note y false c] → c < 256 → s0.spaceOk x 1 = true → s0.store x 1 c = .ok u s1 →
        exec (.bmov d a b) s = .next ((s1.setHart { s1.hart with sent := note y false c :: s1.hart.sent }).stepBlock
          [(a, x + 1), (b, y + 1), (d, n - 1)])) ∧
      (n ≠ 0 → s.hart.sent = [] → s0.spaceOk y 1 = false → exec (.bmov d a b) s = .next (s.trap ADDRESS y))) ∧
    (s.front (.bset d a b) = .go [x, y, n] →
      (n = 0 → exec (.bset d a b) s = .next (s.retire (.bset d a b))) ∧
      (n ≠ 0 → s.spaceOk x 1 = true → s.store x 1 (y.toNat % 256) = .ok u s1 →
        exec (.bset d a b) s = .next (s1.stepBlock [(a, x + 1), (d, n - 1)]))) ∧
    (s.front (.bcmp d a b) = .go [x, y, n] →
      (n = 0 → exec (.bcmp d a b) s = .next (s.retire (.bcmp d a b))) ∧
      (n ≠ 0 → s.hart.sent = [] → s0.spaceOk x 1 = true → s0.load x 1 = .ok c s1 →
        exec (.bcmp d a b) s = .next (s1.setHart { s1.hart with sent := [note x false c] })) ∧
      (n ≠ 0 → s.hart.sent = [note x false c] → c < 256 → s0.spaceOk y 1 = true → s0.load y 1 = .ok e s1 →
        let s2 := s1.setHart { s1.hart with sent := note x false c :: s1.hart.sent }
        exec (.bcmp d a b) s = .next (if c = e then s2.stepBlock [(a, x + 1), (b, y + 1), (d, n - 1)]
          else s2.retire (.bcmp d a b)))) ∧
    (s.front (.pref a) = .go [x] → exec (.pref a) s = .next (s.retire (.pref a)))) ∧
  ((∀ (s : State) (a b : Reg) (x y : Word), s.spaceOk x 1 = true → s.isRemote x needW = false →
    (s.front (.stnl a b) = .go [x, y] → Follows (s.atomic x 1 needW (.nibble false (BitVec.ofNat 4 (y.toNat % 16)))
      fun old => old / 16 * 16 + y.toNat % 16 % 16) s (exec (.stnl a b) s) fun _ t => t.retire (.stnl a b)) ∧
    (s.front (.stnh a b) = .go [x, y] → Follows (s.atomic x 1 needW (.nibble true (BitVec.ofNat 4 (y.toNat % 16)))
      fun old => y.toNat % 16 % 16 * 16 + old % 16) s (exec (.stnh a b) s) fun _ t => t.retire (.stnh a b))) ∧
  (∀ (s : State) (a b : Reg) (x y : Word), s.spaceOk x 1 = true → s.isRemote x needW = true →
    (s.front (.stnl a b) = .go [x, y] →
      exec (.stnl a b) s = .next ((s.sendNibble x false (y.toNat % 16)).retire (.stnl a b))) ∧
    (s.front (.stnh a b) = .go [x, y] →
      exec (.stnh a b) s = .next ((s.sendNibble x true (y.toNat % 16)).retire (.stnh a b)))) ∧
  (∀ (s : State) (lc : Nat) (a b : Reg) (x y : Word), s.agent = .core lc →
    let k := cellarKey lc x.toNat
    let old := s.readCellar [k]
    (s.front (.scnl a b) = .go [x, y] →
      (0x60000 < x.toNat + 1 → exec (.scnl a b) s = .next (s.trap ADDRESS x)) ∧
      (x.toNat + 1 ≤ 0x60000 → s.badCellarAt k = true → exec (.scnl a b) s = .next (s.trap DATA x)) ∧
      (x.toNat + 1 ≤ 0x60000 → s.badCellarAt k = false → exec (.scnl a b) s =
        .next ((s.writeCellar [k] [BitVec.ofNat 8 (old / 16 * 16 + y.toNat % 16)]).retire (.scnl a b)))) ∧
    (s.front (.scnh a b) = .go [x, y] →
      (0x60000 < x.toNat + 1 → exec (.scnh a b) s = .next (s.trap ADDRESS x)) ∧
      (x.toNat + 1 ≤ 0x60000 → s.badCellarAt k = true → exec (.scnh a b) s = .next (s.trap DATA x)) ∧
      (x.toNat + 1 ≤ 0x60000 → s.badCellarAt k = false → exec (.scnh a b) s =
        .next ((s.writeCellar [k] [BitVec.ofNat 8 (y.toNat % 16 * 16 + old % 16)]).retire (.scnh a b))))))

/-! ### Atomics -/

/-- The ordinary atomics and what each writes; `amocas` writes its operand only where the old value equals the
low bits of its destination (R327, R328).
`amofadd` adds with one rounding under FPCTL, ORs the flags of the sum into FPSTAT, takes a draw under
stochastic rounding, and gives the old word zero-extended (R260, R261, R329). The deterministic atomics place an entry with the issuer key, the operand and, for the floating forms, the
captured modes and draw in the holding buffer of the home slice, and the frame's sequence rises; `afl`
applies the entries of its doubleword in ascending issuer key, removes them, and gives their number
(R331 to R335). -/
def Obligations.AtomicResults : Prop :=
  (Atomics Instr.amoswap 0 (fun _ _ x => x) ∧ Atomics Instr.amoadd 1 (fun w old x => (old + x) % 2 ^ w) ∧
  Atomics Instr.amoand 2 (fun _ old x => old &&& x) ∧ Atomics Instr.amoor 3 (fun _ old x => old ||| x) ∧
  Atomics Instr.amoxor 4 (fun _ old x => old ^^^ x) ∧
  Atomics Instr.amomin 5 (fun w old x => if sint w x < sint w old then x else old) ∧
  Atomics Instr.amomax 6 (fun w old x => if sint w old < sint w x then x else old) ∧
  Atomics Instr.amominu 7 (fun _ old x => min old x) ∧ Atomics Instr.amomaxu 8 (fun _ old x => max old x) ∧
  ∀ z d a b ea y e (s : State), s.front (.amocas z d a b) = .go [ea, y, e] →
    let n := match z with | .w => 4 | .d => 8
    let x := y.toNat % 2 ^ (8 * n)
    let c := e.toNat % 2 ^ (8 * n)
    s.spaceOk ea n = true → ea.toNat % n = 0 →
      Follows (s.atomic ea n (needR + needW) (.atomic 9 (n == 8) (BitVec.ofNat 64 x) (BitVec.ofNat 64 c) 0 0)
          fun old => if old = c then x else old)
        s (exec (.amocas z d a b) s) fun old t => t.finish (.amocas z d a b) d ((BitVec.ofNat (8 * n) old).signExtend 64)) ∧
  ((∀ z d a b ea y (s t : State) (old : Nat), s.front (.amofadd z d a b) = .go [ea, y] →
    let n := match z with | .w => 4 | .d => 8
    let x := y.toNat % 2 ^ (8 * n)
    let sum := fun old => addRounded (n == 8) old x s.hart.fpctl s.draw
    s.spaceOk ea n = true → ea.toNat % n = 0 →
    s.atomic ea n (needR + needW) (.atomic 10 (n == 8) (BitVec.ofNat 64 x) 0 s.hart.fpctl.toNat s.draw)
      (fun old => (sum old).1) = .ok old t →
    exec (.amofadd z d a b) s =
      .next (((t.orFlags (sum old).2).advance).finish (.amofadd z d a b) d (BitVec.ofNat 64 old))) ∧
  (∀ z a b ea y pa lc (f : Frame) (s s1 : State), s.agent = .core lc → s.top lc = some f →
    let n := match z with | .w => 4 | .d => 8
    let e : Held := ⟨pa, lc, f.detseq, false, n == 8, BitVec.ofNat 64 (y.toNat % 2 ^ (8 * n)), 0, 0, some f.graph⟩
    s.spaceOk ea n = true → ea.toNat < 2 ^ 56 → ea.toNat % n = 0 → s.homeAddress ea n = .ok pa s1 →
    (s.front (.amodadd z a b) = .go [ea, y] →
      exec (.amodadd z a b) s = .next (((s1.placeHeld e).bumpSeq).retire (.amodadd z a b))) ∧
    (s.front (.amodfadd z a b) = .go [ea, y] →
      exec (.amodfadd z a b) s =
        .next ((((s1.placeHeld { e with float := true, fpctl := s.hart.fpctl, draw := s.draw }).bumpSeq).advance).retire
          (.amodfadd z a b)))) ∧
  (∀ d a ea pa (s s1 : State), s.front (.afl d a) = .go [ea] → s.spaceOk ea 1 = true → s.homeAddress ea 1 = .ok pa s1 →
    let h := (s1.slice (sliceOf pa)).hold
    let out := sortHeld keyBefore (h.filter fun e => e.addr / 8 == pa / 8)
    let r := (s1.setSlice (sliceOf pa) { s1.slice (sliceOf pa) with hold := h.filter fun e => !(e.addr / 8 == pa / 8) }).applyAll out
    exec (.afl d a) s = .next ((r.2.2.orFlags r.2.1).finish (.afl d a) d (BitVec.ofNat 64 r.1)) ∧
    out.Pairwise fun x y => x.issuer < y.issuer ∨ (x.issuer = y.issuer ∧ x.seq ≤ y.seq)))

/-! ### Floating point -/

/-- The arithmetic forms: operands are decoded with subnormals flushed under fzi, the exact result is rounded
once under FPCTL, flags are ORed into FPSTAT, one draw is taken under stochastic rounding, and the result is
written zero-extended (R247, R254 to R261, R338, R339). The forms that select, compare, classify and convert to
integers (R340 to R343).
A scalar floating-point instruction that nothing holds back completes, changes no register but its
destination, never clears a flag, leaves FPCTL and the seed, and moves the generator only under stochastic
rounding, by one draw (R254, R260, R261, R267). -/
def Obligations.FloatResults : Prop :=
  (∀ (t : FTy) (d a b : Reg) (x y z : Word) (s : State),
    let v := fun w : Word => (FTy.fmt t).decode (fziOf s.hart.fpctl) w.toNat
    let done := fun (i : Instr) (r : FRes) =>
      ((s.orFlags (((FTy.fmt t).round ⟨rndOf s.hart.fpctl, fzoOf s.hart.fpctl, s.draw⟩ r.1).2 ||| r.2)).advance).finish i d
        (BitVec.ofNat 64 ((FTy.fmt t).round ⟨rndOf s.hart.fpctl, fzoOf s.hart.fpctl, s.draw⟩ r.1).1)
    let down := rndOf s.hart.fpctl == .rdn
    let flagged := fun (i : Instr) (w : Word) (f : BitVec 5) => (s.orFlags f).finish i d w
    let truth := fun c : Bool => if c then (1 : Word) else 0
    (s.front (.fadd t d a b) = .go [x, y] → exec (.fadd t d a b) s = .next (done (.fadd t d a b) (fAdd down (v x) (v y)))) ∧
    (s.front (.fsub t d a b) = .go [x, y] →
      exec (.fsub t d a b) s = .next (done (.fsub t d a b) (fAdd down (v x) (v y).neg))) ∧
    (s.front (.fmul t d a b) = .go [x, y] → exec (.fmul t d a b) s = .next (done (.fmul t d a b) (fMul (v x) (v y)))) ∧
    (s.front (.fdiv t d a b) = .go [x, y] → exec (.fdiv t d a b) s = .next (done (.fdiv t d a b) (fDiv (v x) (v y)))) ∧
    (s.front (.fsqrt t d a) = .go [x] → exec (.fsqrt t d a) s = .next (done (.fsqrt t d a) (fSqrt (v x)))) ∧
    (s.front (.fma t d a b) = .go [x, y, z] →
      exec (.fma t d a b) s = .next (done (.fma t d a b) (fFma down (v x) (v y) (v z)))) ∧
    (s.front (.itof t d a) = .go [x] → exec (.itof t d a) s = .next (done (.itof t d a) (ofInt x.toInt, 0))) ∧
    (s.front (.iutof t d a) = .go [x] → exec (.iutof t d a) s = .next (done (.iutof t d a) (ofInt x.toNat, 0))) ∧
    (∀ u : FTy, s.front (.fcvt t u d a) = .go [x] →
      let r := (FTy.fmt t).convert (FTy.fmt u) ⟨rndOf s.hart.fpctl, fzoOf s.hart.fpctl, s.draw⟩
        ((FTy.fmt u).decode (fziOf s.hart.fpctl) x.toNat)
      exec (.fcvt t u d a) s = .next (((s.orFlags r.2).advance).finish (.fcvt t u d a) d (BitVec.ofNat 64 r.1))) ∧
    (s.front (.fmin t d a b) = .go [x, y] → exec (.fmin t d a b) s = .next (flagged (.fmin t d a b)
      (BitVec.ofNat 64 ((FTy.fmt t).exact (fPick false (v x) (v y)).1)) (fPick false (v x) (v y)).2)) ∧
    (s.front (.fmax t d a b) = .go [x, y] → exec (.fmax t d a b) s = .next (flagged (.fmax t d a b)
      (BitVec.ofNat 64 ((FTy.fmt t).exact (fPick true (v x) (v y)).1)) (fPick true (v x) (v y)).2)) ∧
    (s.front (.feq t d a b) = .go [x, y] →
      exec (.feq t d a b) s = .next (flagged (.feq t d a b) (truth (fEq (v x) (v y)).1) (fEq (v x) (v y)).2)) ∧
    (s.front (.flt t d a b) = .go [x, y] →
      exec (.flt t d a b) s = .next (flagged (.flt t d a b) (truth (fLt (v x) (v y)).1) (fLt (v x) (v y)).2)) ∧
    (s.front (.fle t d a b) = .go [x, y] →
      exec (.fle t d a b) s = .next (flagged (.fle t d a b) (truth (fLe (v x) (v y)).1) (fLe (v x) (v y)).2)) ∧
    (s.front (.fclass t d a) = .go [x] → exec (.fclass t d a) s =
      .next (s.finish (.fclass t d a) d (BitVec.ofNat 64 (2 ^ (FTy.fmt t).classify (x.toNat % 2 ^ (FTy.fmt t).width))))) ∧
    (s.front (.ftoi t d a) = .go [x] →
      let r := toInt s.mode (-(2 ^ 63)) (2 ^ 63 - 1) (v x)
      exec (.ftoi t d a) s = .next (((s.orFlags r.2).advance).finish (.ftoi t d a) d (BitVec.ofInt 64 r.1))) ∧
    (s.front (.ftoiu t d a) = .go [x] →
      let r := toInt s.mode 0 (2 ^ 64 - 1) (v x)
      exec (.ftoiu t d a) s = .next (((s.orFlags r.2).advance).finish (.ftoiu t d a) d (BitVec.ofInt 64 r.1)))) ∧
  (∀ (t u : FTy) (d a b : Reg) (s : State) (i : Instr),
    i ∈ [.fadd t d a b, .fsub t d a b, .fmul t d a b, .fdiv t d a b, .fsqrt t d a, .fma t d a b, .fmin t d a b,
      .fmax t d a b, .feq t d a b, .flt t d a b, .fle t d a b, .fclass t d a, .ftoi t d a, .ftoiu t d a, .itof t d a,
      .iutof t d a, .fcvt t u d a] →
    s.Ready i →
    ∃ r : State, exec i s = .next r ∧ s.hart.fpstat &&& r.hart.fpstat = s.hart.fpstat ∧ r.hart.fpctl = s.hart.fpctl ∧
      r.hart.seed = s.hart.seed ∧ (r.hart.gen = s.hart.gen ∨ (rndOf s.hart.fpctl = .sr ∧ r.hart.gen = nextGen s.hart.gen)) ∧
      (∀ x : Reg, x ≠ d → r.hart.reg x = s.hart.reg x) ∧ r.hart.pc = s.hart.pc + 1 ∧ r.mem = s.mem)


/-! ### Vectors -/

/-- Issue of every vector form but `vloop`: an invalid descriptor or a mismatch of the types it forces raises
ILLEGAL, the first register whose tag does not match raises TAG with the register and the tag, a misaligned
access raises ALIGN with its address; else the form enters the sequencer (R171, R349 to R354, R361). -/
def Obligations.VectorIssue : Prop :=
  ∀ (i : Instr) (s : State) (lc : Nat) (f : Frame) (v : List Word), s.agent = .core lc → s.top lc = some f →
    isVector i = true → isLoop i = false → s.front i = .go v →
    let p := planOf f (shapeOf i) v
    (p.bad = true → exec i s = .next (s.trap ILLEGAL (wordOf i))) ∧
    (∀ r, p.bad = false → p.mismatch = some r → s.ignores TAG = false →
      exec i s = .next (s.trap TAG (BitVec.ofNat 64 (r.val * 16 + (f.itags.get r).toNat)))) ∧
    (∀ b, p.bad = false → p.mismatch = none → p.misaligned = some b → s.ignores ALIGN = false →
      exec i s = .next (s.trap ALIGN b)) ∧
    (∀ r, p.bad = false → p.mismatch = some r → s.ignores TAG = true → p.misaligned = none →
      exec i s = .next ((s.ignore TAG (BitVec.ofNat 64 (r.val * 16 + (f.itags.get r).toNat))).enter lc i p)) ∧
    (∀ b, p.bad = false → p.mismatch = none → p.misaligned = some b → s.ignores ALIGN = true →
      exec i s = .next ((s.ignore ALIGN b).enter lc i p)) ∧
    (p.bad = false → p.mismatch = none → p.misaligned = none → exec i s = .next (s.enter lc i p))

/-- What issue leaves on a frame with no stream that collects no loop: one more entry in the sequencer with
what it captured, the issued tag of its destination, and the pc at the next word; no register, no vector
register and no byte of memory has changed (R171, R349, R351). `vloop` makes the next n + 1 instructions a loop
body with the count its register holds; the body's last instruction queues the loop, or discards it when the
count is 0, with the issued tags from before it (R372). -/
def Obligations.VectorEntersSequencer : Prop :=
  (∀ (i : Instr) (s : State) (lc : Nat) (f : Frame) (p : Plan), s.agent = .core lc → s.top lc = some f →
    (∀ r, f.stream r = none) → f.vloop = none →
    ∃ t g e, s.enter lc i p = t ∧ t.top lc = some g ∧ g.seq = f.seq ++ [.one e] ∧
      e = ⟨i, f.h.pc, f.h.fpctl, f.fd, p.fmt, p.aux, p.res, p.base, p.stride, p.mask, f.h.gen⟩ ∧
      g.itags = (match (shapeOf i).dst with | some d => f.itags.set d.val p.res | none => f.itags) ∧
      g.h.pc = f.h.pc + 1 ∧ g.h.regs = f.h.regs ∧ g.h.fpstat = f.h.fpstat ∧ g.v = f.v ∧ g.tags = f.tags ∧ t.mem = s.mem ∧
      (∀ c, c ≠ lc → t.core c = s.core c)) ∧
  (∀ (n : Fin 16) (m : Reg) (s : State) (lc : Nat) (f : Frame) (x : Word), s.agent = .core lc → s.top lc = some f →
    (∀ r, f.stream r = none) → s.front (.vloop n m) = .go [x] →
    exec (.vloop n m) s =
      .next ((s.setTop lc { f with vloop := some ⟨n.val + 1, x.toNat, [], f.itags⟩ }).goTo (f.h.pc + 1))) ∧
  (∀ (f : Frame) (e : SeqEntry) (l : LoopIssue), f.vloop = some l →
    (1 < l.need → (f.enqueue e).vloop = some { l with need := l.need - 1, body := l.body ++ [e] } ∧
      (f.enqueue e).seq = f.seq) ∧
    (l.need ≤ 1 → l.count = 0 → (f.enqueue e).vloop = none ∧ (f.enqueue e).seq = f.seq ∧ (f.enqueue e).itags = l.before) ∧
    (l.need ≤ 1 → l.count ≠ 0 → (f.enqueue e).vloop = none ∧
      (f.enqueue e).seq = f.seq ++ [.loop ⟨l.body ++ [e], l.count, 0, 0, f.h.gen⟩]))

/-- The element-wise forms: the destination's active elements take the operation of the elements of the
sources under what the entry captured, the others stay, and the flags of the active elements go to FPSTAT
(R171, R347, R348, R354 to R358). -/
def Obligations.VectorElementwise : Prop :=
  ∀ (s : State) (lc : Nat) (f : Frame) (e : SeqEntry) (rest : List SeqItem) (io : Option IntOp) (fo : Option FloatOp)
    (t : VTy) (d a : VReg) (b : Option VReg) (m : Reg),
    s.ChunkReady lc f e rest → shapeOf e.i = .elem io fo t d a b m →
    let l := layoutOf e.fd e.fmt
    let r := mapEls (elemOpOf e t io fo) l.w 0 (unitActive e.mask l.elems) (f.v.get a).toNat
      (f.v.get (b.getD 0)).toNat (f.v.get d).toNat l.elems
    ChunkWrites s lc f e rest d r.1 r.2 ∧
    ∀ j, j < l.elems → getEl r.1 l.w j = if unitActive e.mask l.elems j then
        (elemOpOf e t io fo (getEl (f.v.get a).toNat l.w j) (getEl (f.v.get (b.getD 0)).toNat l.w j)
          (getEl (f.v.get d).toNat l.w j) j).1 % 2 ^ l.w
      else getEl (f.v.get d).toNat l.w j

/-- The forms that move, place, reduce, convert and scale (R363 to R371): what each writes to its vector
register, with its flags. The compares and `vext` write a scalar register: the mask of the elements whose relation
holds, with the flags of every element, and the element extracted (R359, R366). -/
def Obligations.VectorOtherResults : Prop :=
  (∀ (s : State) (lc : Nat) (f : Frame) (e : SeqEntry) (rest : List SeqItem) (a b : VReg) (m : Reg) (t : VTy) (o : CmpOp),
    s.ChunkReady lc f e rest → (∀ r, f.stream r = none) →
    (shapeOf e.i = .cmp o t m a b →
      let r := compareEls o (VTy.tag t) e.fpctl (f.v.get a).toNat (f.v.get b).toNat (layoutOf e.fd e.fmt).elems
      ChunkWritesScalar s lc f e rest m r.1 r.2) ∧
    (shapeOf e.i = .ext m a → ChunkWritesScalar s lc f e rest m (extracted e (f.v.get a).toNat 1) 0)) ∧
  ∀ (s : State) (lc : Nat) (f : Frame) (e : SeqEntry) (rest : List SeqItem) (d a b : VReg) (m : Reg) (n : Fin 8)
    (t : VTy) (tg dt st : BitVec 4) (o : RedOp),
    s.ChunkReady lc f e rest →
    let l := layoutOf e.fd e.fmt
    let A := (f.v.get a).toNat
    let B := (f.v.get b).toNat
    let D := (f.v.get d).toNat
    let W := ChunkWrites s lc f e rest d
    (shapeOf e.i = .mv d a m → W (selectUnits l.ubits l.units e.mask A D) 0) ∧
    (shapeOf e.i = .sel d a b m → W (selectUnits l.ubits l.units e.mask A B) 0) ∧
    (shapeOf e.i = .perm d a b → W (permUnits l.ubits l.units A B) 0) ∧
    (shapeOf e.i = .slide d a → W (slideUnits l.ubits l.units e.stride A) 0) ∧
    (shapeOf e.i = .cmpr d a m → W (compressUnits l.ubits l.units e.mask A) 0) ∧
    (shapeOf e.i = .expd d a m → W (expandUnits l.ubits l.units e.mask A) 0) ∧
    (shapeOf e.i = .ins d → W (inserted e D 1) 0) ∧
    (shapeOf e.i = .zero d → W 0 0) ∧
    (shapeOf e.i = .bcs tg d → W (buildEls l.w (fun _ => e.base.toNat % 2 ^ l.code) l.elems) 0) ∧
    (shapeOf e.i = .red o t d a m →
      let r := reduceEls o (VTy.tag t) e.fpctl e.gen e.mask A l.elems
      W r.1 r.2) ∧
    (shapeOf e.i = .cvt dt st d a m →
      let r := convertEls e.fd dt st e.fpctl e.gen e.mask 1 A D
      W r.1 r.2) ∧
    (shapeOf e.i = .bsc n d a →
      W (blockScales (descOf e.fd (BitVec.ofNat 4 (8 + n.val))) (fmtOfTag e.fd e.fmt) (fziOf e.fpctl) A l.elems) 0) ∧
    (shapeOf e.i = .bsa n d a b →
      let r := applyScales (descOf e.fd (BitVec.ofNat 4 (8 + n.val))) (fmtOfTag e.fd e.fmt) e.fpctl e.gen A B l.elems
      W r.1 r.2) ∧
    (shapeOf e.i = .tag d tg → W D 0)

/-- The memory forms: a chunk makes one access a step, every check before the first; a load chunk writes the units it has read
to its register with its last access and keeps the inactive ones, a store chunk stores its active units; a trap waits for the
next boundary with the pc of the vector instruction (R171, R209, R234, R354, R360 to R362). -/
def Obligations.VectorMemory : Prop :=
  ∀ (s : State) (lc : Nat) (f : Frame) (e : SeqEntry) (rest : List SeqItem) (store near : Bool) (mode : Nat)
    (tg : BitVec 4) (d x : VReg) (m : Reg),
    s.ChunkReady lc f e rest → shapeOf e.i = .mem store near mode tg d x m →
    let s0 := ({ s with agent := .core lc }).setTop lc { f with h := { f.h with sent := f.vsent } }
    let l := layoutOf e.fd e.fmt
    let u := l.ubits / 8
    let addr := fun j => e.unitAddr mode 1 e.base (f.v.get x).toNat j
    let plan := f.planned s0 (if store
      then s0.planStore near (mode == 2) lc u ((span 0 l.units).filterMap fun j => (addr j).map fun a =>
        (j, a, l.cleanUnit (getEl (f.v.get d).toNat l.ubits j)))
      else s0.planLoad near (mode == 2) lc u ((span 0 l.units).map addr))
    (∀ gs s1, plan = .ok gs s1 →
      (store = false →
        (∀ bs s2, s1.loadNext lc gs = .ok bs s2 → let vs := unitsFrom u ((span 0 l.units).map addr) bs
          ∃ t g, exec (.sequencerChunk lc) s = .next t ∧ t.top lc = some g ∧ g.seq = rest ∧
            g.v = f.v.set d.val (BitVec.ofNat 512 (buildEls l.ubits (fun j => match vs.getD j none with
              | some v => l.cleanUnit v
              | none => getEl (f.v.get d).toNat l.ubits j) l.units)) ∧
            g.tags = f.tags.set d.val e.res ∧ t.mem.bytes = s.mem.bytes ∧ t.mem.cellar = s.mem.cellar) ∧
        (∀ s2, s1.loadNext lc gs = .wait s2 → ∃ t g, exec (.sequencerChunk lc) s = .next t ∧ t.top lc = some g ∧
          g.seq = f.seq ∧ g.v = f.v ∧ g.vplan = (if g.vsent = [] then [] else gs) ∧ t.mem = s2.mem)) ∧
      (store = true →
        (∀ y s2, s1.storeNext lc gs = .ok y s2 → ∃ t g, exec (.sequencerChunk lc) s = .next t ∧ t.top lc = some g ∧
          g.seq = rest ∧ g.v = f.v ∧ t.mem = s2.mem) ∧
        (∀ s2, s1.storeNext lc gs = .wait s2 → ∃ t g, exec (.sequencerChunk lc) s = .next t ∧ t.top lc = some g ∧
          g.seq = f.seq ∧ g.v = f.v ∧ g.vplan = (if g.vsent = [] then [] else gs) ∧ t.mem = s2.mem))) ∧
    (∀ c w, plan = .trap c w →
      exec (.sequencerChunk lc) s = .next (s.setTop lc { f with pending := some (c, w, some e.pc) }))

/-! ### Engines -/

/-- Issue of the engine instructions (R102, R377 to R393): with a descriptor and a successor image that pass
every check, a copy joins its channel's queue, a stream binds its register, a gather or a scatter joins its
streamer, a collective gains a contribution, `mxcf` writes the shadow, a tile task or a drain joins the
cluster's queue; the successor's increment is posted and the instruction retires. -/
def Obligations.EngineIssue : Prop :=
  ∀ (s s1 s2 : State) (lc : Nat) (f : Frame) (a b : Reg) (ea ia : Word) (d : List Word) (r : Rec),
    s.agent = .core lc → s.top lc = some f → s.SenderClear lc f →
    (∀ c : Fin 2, s.front (.cpy c a b) = .go [ea, ia] → s.BlockReads s ea 4 d s1 → copyFields d = .ok →
      s.ImageReads s1 lc f ia r s2 →
      let len := bits (d.getD 2 0) 0 40
      s.operandOk (d.getD 0 0) len = true → s.operandOk (d.getD 1 0) len = true →
      (s2.chan lc f.level c.val).queue.length < 4 →
      exec (.cpy c a b) s = .next ((s2.setChan lc f.level c.val { s2.chan lc f.level c.val with
        queue := (s2.chan lc f.level c.val).queue ++ [⟨d.getD 0 0, d.getD 1 0, len, bit (d.getD 2 0) 40, r⟩] }).started
          (.cpy c a b) lc (some r))) ∧
    (∀ (k : Fin 4) (g : Frame), s.BlockReads s ea 4 d s1 → streamFields f (streamReg k) d = .ok → s.ImageReads s1 lc f ia r s2 →
      s.operandOk (d.getD 0 0) 8 = true →
      let x := fun out : Bool =>
        (⟨s.tick, out, d.getD 0 0, d.getD 2 0, bits (d.getD 1 0) 0 32, 0, 0, [], none, r⟩ : Stream)
      let bound := fun (i : Instr) (out : Bool) =>
        (s2.started i lc (some r)).top lc = some g →
          exec i s = .next ((s2.started i lc (some r)).setTop lc (g.setStream (streamReg k) (some (x out))))
      (s.front (.strmIn k a b) = .go [ea, ia] → bound (.strmIn k a b) false) ∧
      (s.front (.strmOut k a b) = .go [ea, ia] → bound (.strmOut k a b) true)) ∧
    (s.BlockReads s ea 8 d s1 → gatherFields d = .ok → s.ImageReads s1 lc f ia r s2 → s.gatherOperand lc d = none →
      let put := fun (scatter : Bool) =>
        s2.setCluster (s2.clusterOf lc) { s2.cluster (s2.clusterOf lc) with
          gathers := (s2.cluster (s2.clusterOf lc)).gathers ++
            [⟨s.tick, scatter, words8 d, lc, f.level, s.fnOf f.graph, r, 0, 0, false⟩] }
      (s.front (.gath a b) = .go [ea, ia] → exec (.gath a b) s = .next ((put false).started (.gath a b) lc (some r))) ∧
      (s.front (.scat a b) = .go [ea, ia] → exec (.scat a b) s = .next ((put true).started (.scat a b) lc (some r)))) ∧
    (s.front (.coll a b) = .go [ea, ia] → s.BlockReads s ea 4 d s1 → s.collFields d lc = .ok → s.ImageReads s1 lc f ia r s2 →
      s.collReach d lc = true →
      exec (.coll a b) s =
        .next ((s2.join f.graph (collKey d) ⟨s.devid.toNat, lc, f.level, words4 d, [], r⟩).started (.coll a b) lc (some r))) ∧
    (∀ g : Frame, s.front (.mxcf a) = .go [ea] → s.BlockReads s ea 4 d s1 → bits (d.getD 1 0) 4 60 = 0 → d.getD 2 0 = 0 →
      d.getD 3 0 = 0 → s1.top lc = some g →
      exec (.mxcf a) s = .next ((s1.setTop lc { g with mxcfg := words4 d }).started (.mxcf a) lc none)) ∧
    (s.front (.mxq a) = .go [ea] → s.BlockReads s ea 8 d s1 → taskFields d = .ok → d.getD 7 0 = 0 →
      s1.taskRange lc f.fd d f.mxcfg.toList = none → (s1.cluster (s1.clusterOf lc)).queue.length < 64 →
      exec (.mxq a) s = .next ((s1.setCluster (s1.clusterOf lc)
        ((s1.cluster (s1.clusterOf lc)).enqueue (taskOf false lc f d none))).started (.mxq a) lc none)) ∧
    (s.front (.mxq a) = .go [ea] → s.BlockReads s ea 8 d s1 → taskFields d = .ok → d.getD 7 0 ≠ 0 →
      s.ImageReads s1 lc f (d.getD 7 0) r s2 →
      s2.taskRange lc f.fd d f.mxcfg.toList = none → (s2.cluster (s2.clusterOf lc)).queue.length < 64 →
      exec (.mxq a) s = .next ((s2.setCluster (s2.clusterOf lc)
        ((s2.cluster (s2.clusterOf lc)).enqueue (taskOf false lc f d (some r)))).started (.mxq a) lc (some r))) ∧
    (s.front (.mxdr a b) = .go [ea, ia] → s.BlockReads s ea 4 d s1 → drainFields d = .ok → s.ImageReads s1 lc f ia r s2 →
      s.drainRange lc f.fd d = false → (s2.cluster (s2.clusterOf lc)).queue.length < 64 →
      exec (.mxdr a b) s = .next ((s2.setCluster (s2.clusterOf lc)
        ((s2.cluster (s2.clusterOf lc)).enqueue (taskOf true lc f d (some r)))).started (.mxdr a b) lc (some r)))

/-- The futures: `ftake` of a full word delivers its value to the successor, of an empty one defers the read or,
with 64 deferred reads in the slice, delivers status 21H and counts; `fput` writes the word, makes it full and
delivers every read deferred on it; `fclr` makes it empty and keeps its value (R162, R197, R393). -/
def Obligations.FutureResults : Prop :=
  ∀ (s s1 s2 : State) (lc pa : Nat) (f : Frame) (a b : Reg) (ea y : Word) (r : Rec),
    s.agent = .core lc → s.top lc = some f → f.unacked = 0 → f.rejected = none →
    (s.front (.ftake a b) = .go [ea, y] → s.SenderClear lc f → s.ImageReads s lc f y r s1 → s1.futureAt lc ea = .ok pa s2 →
      exec (.ftake a b) s = .next (((s2.leaseStores lc (span pa 8)).take pa r).started (.ftake a b) lc (some r))) ∧
    (s.front (.fput a b) = .go [ea, y] → s.futureAt lc ea = .ok pa s1 →
      ∃ u : State, u.mem.empties = tdel pa s1.mem.empties ∧ u.mem64 pa = y ∧
        exec (.fput a b) s = .next ((u.satisfy pa y).retire (.fput a b))) ∧
    (s.front (.fclr a) = .go [ea] → s.futureAt lc ea = .ok pa s1 →
      ∃ u : State, u.isEmpty pa = true ∧ u.mem.bytes = s1.mem.bytes ∧ u.slices = s1.slices ∧
        exec (.fclr a) s = .next (u.retire (.fclr a))) ∧
    (let n := sliceOf pa
     let x := s.slice n
     (s.isEmpty pa = false → s.take pa r = s.deliver (.engine (600 + n)) (n / 16) { r with q6 := s.mem64 pa } 0) ∧
     (s.isEmpty pa = true → x.pantry.length < 64 → s.take pa r = s.setSlice n { x with pantry := x.pantry ++ [⟨pa, r⟩] }) ∧
     (s.isEmpty pa = true → 64 ≤ x.pantry.length →
       s.take pa r = (s.count cPNACK n).deliver (.engine (600 + n)) (n / 16) { r with q6 := 0 } 0x21))

/-! ### Tasks -/

/-- `end`, `post` and `ntfy` (R90, R99, R107, R110, R122 to R124, R133, R395 to R397). Where nothing holds the sender
back: `end` of a frame that holds no claim ends it, its gang and its streams with it: INSTRET rises, its decrement is
posted behind its increments and it pops; a frame with a claim takes CLAIM with reason 7 and the slot, one whose output
streams still drain waits. `post` sends a record that passes its checks and counts it at its station time, or drops one
that a cancel mark matches, counted; `ntfy` places a request that passes its checks; a bad image takes ALIGN (`ntfy`
ILLEGAL), ADDRESS, ILLEGAL or TIME with its reason. A core whose batch its parent node does not take stalls at all three, and one of whose records
waits at its stop stalls and counts the instruction once.
A front-end core's `post` sends through the dispatcher, counted at the root, and stalls where the dispatcher's record does; the
level that a level of 0 stands for there is open (log entry 33). -/
def Obligations.TaskRecordsAndEnd : Prop :=
  (∀ (s : State) (lc : Nat) (f : Frame) (v : List Word), s.agent = .core lc → s.top lc = some f →
    s.front .endTask = .go v →
    (∀ c l, f.claims = c :: l → exec .endTask s = .next (s.trap CLAIM (BitVec.ofNat 64 (7 * 256 + c.slot)))) ∧
    (f.claims = [] → s.parentFull lc = true → exec .endTask s = .next s) ∧
    (f.claims = [] → s.SenderClear lc f →
      let waits := f.streams.toList.any (fun x => x.any fun t => t.out && t.fifo != []) || f.draining != []
      (waits = true → exec .endTask s = .next s) ∧
      (waits = false → exec .endTask s = .next (s.countRetired.endFrame lc false [])) ∧
      ((∀ x ∈ f.streams.toList, x = none) → f.draining = [] → f.gang = none →
        exec .endTask s = .next ((s.countRetired.post lc ⟨f.graph, f.station, f.ltime, -1, none, []⟩).pop lc)))) ∧
  (∀ (s : State) (lc : Nat) (f : Frame) (a : Reg) (ea : Word), s.agent = .core lc → s.top lc = some f →
    (s.parentFull lc = true →
      (s.front (.post a) = .go [ea] → exec (.post a) s = .next s) ∧ (s.front (.ntfy a) = .go [ea] → exec (.ntfy a) s = .next s)) ∧
    (∀ x, s.parentFull lc = false → s.heldFlight (.core lc) = some x → f.h.stalled = false →
      let t := (s.setHart { s.hart with stalled := true }).count
        (match x.dst with | .landing _ _ => cLSTALL | _ => cISTALL) (s.partOf lc)
      (s.front (.post a) = .go [ea] → exec (.post a) s = .next t) ∧ (s.front (.ntfy a) = .go [ea] → exec (.ntfy a) s = .next t)) ∧
    (s.SenderClear lc f →
      (s.spaceOk ea 64 = false →
        (s.front (.post a) = .go [ea] → exec (.post a) s = .next (s.trap ADDRESS ea)) ∧
        (s.front (.ntfy a) = .go [ea] → exec (.ntfy a) s = .next (s.trap ADDRESS ea))) ∧
      (s.spaceOk ea 64 = true → ea.toNat % 64 ≠ 0 →
        (s.front (.post a) = .go [ea] → exec (.post a) s = .next (s.trap ALIGN ea)) ∧
        (s.front (.ntfy a) = .go [ea] → exec (.ntfy a) s = .next (s.illegal (.ntfy a)))))) ∧
  (∀ (s s1 : State) (lc : Nat) (f : Frame) (a : Reg) (ea : Word) (l : List Word),
    s.agent = .core lc → s.top lc = some f → s.SenderClear lc f → s.BlockReads s ea 8 l s1 →
    let r0 := Rec.ofWords l
    let r := if r0.level = 0 then r0.set 24 3 f.level else r0
    (s.front (.post a) = .go [ea] → ∀ g, s1.agent = .core lc → s1.top lc = some g → g.level = f.level →
      (r.level = 7 ∨ 2 ≤ r.kind → exec (.post a) s = .next (s1.illegal (.post a))) ∧
      (r.level ≠ 7 → r.kind < 2 → s1.badTarget lc r = true → exec (.post a) s = .next (s1.trap ADDRESS ea)) ∧
      (∀ k, r.level ≠ 7 → r.kind < 2 → s1.badTarget lc r = false → s1.checkTarget g r.graph r.station r.q1 = some k →
        exec (.post a) s = .next (s1.trap TIME (BitVec.ofNat 64 k))) ∧
      (r.level ≠ 7 → r.kind < 2 → s1.badTarget lc r = false → s1.checkTarget g r.graph r.station r.q1 = none →
        exec (.post a) s = .next ((if s1.marked r.graph r.q1 then s1.count cCNCLDROP (s1.fnPart (s1.fnOf r.graph))
          else (s1.post lc ⟨r.graph, r.station, r.q1, 1, none, []⟩).send (.core lc) r false).retire (.post a)))) ∧
    (s.front (.ntfy a) = .go [ea] → ∀ g, s1.top lc = some g →
      let good := r0.kind = 2 ∧ r0.level ≠ 0 ∧ r0.level ≠ 7 ∧ r0.q2 = 0 ∧ r0.q3 = 0
      (¬ good → exec (.ntfy a) s = .next (s1.illegal (.ntfy a))) ∧
      (good → s1.badTarget lc r0 = true → exec (.ntfy a) s = .next (s1.trap ADDRESS ea)) ∧
      (∀ k, good → s1.badTarget lc r0 = false → s1.checkTarget f r0.graph r0.station r0.q1 = some k →
        exec (.ntfy a) s = .next (s1.trap TIME (BitVec.ofNat 64 k))) ∧
      (good → s1.badTarget lc r0 = false → s1.checkTarget f r0.graph r0.station r0.q1 = none →
        exec (.ntfy a) s = .next ((s1.post lc ⟨r0.graph, r0.station, r0.q1, 1, some r0, []⟩).retire (.ntfy a))))) ∧
  ∀ (n : Nat) (s s1 : State) (a : Reg) (ea : Word) (l : List Word),
    s.agent = .fe n → s1.agent = .fe n → s.front (.post a) = .go [ea] → s.BlockReads s ea 8 l s1 →
    let r0 := Rec.ofWords l
    let r := if r0.level = 0 then r0.set 24 3 (1 + Config.fePostLevel s1.tick % 6) else r0
    let there := (r.any = true ∨ r.dev ≠ s1.devid.toNat ∨ s1.mapped r.tcore = true) ∧
      s1.inDomain (s1.fnPart (s1.fnOf r.graph)) r.dev = true
    (∀ x, s.heldFlight .dispatcher = some x →
      (s.hart.stalled = true → exec (.post a) s = .next s) ∧
      (s.hart.stalled = false → exec (.post a) s = .next ((s.setHart { s.hart with stalled := true }).count
        (match x.dst with | .landing _ _ => cLSTALL | _ => cISTALL) (s.fnPart (s.fnOf x.rcd.graph))))) ∧
    (s.heldFlight .dispatcher = none →
      (r.level = 7 ∨ 2 ≤ r.kind → exec (.post a) s = .next (s1.illegal (.post a))) ∧
      (r.level ≠ 7 → r.kind < 2 → ¬ there → exec (.post a) s = .next (s1.trap ADDRESS ea)) ∧
      (∀ k, r.level ≠ 7 → r.kind < 2 → there → s1.checkTargetFe r = some k →
        exec (.post a) s = .next (s1.trap TIME (BitVec.ofNat 64 k))) ∧
      (r.level ≠ 7 → r.kind < 2 → there → s1.checkTargetFe r = none →
        exec (.post a) s = .next ((if s1.marked r.graph r.q1 then s1.count cCNCLDROP (s1.fnPart (s1.fnOf r.graph))
          else (s1.applyDeltas r.graph [⟨r.graph, r.station, r.q1, 1, none, []⟩]).send .dispatcher r false).retire (.post a))))

/-- `claim` and `rels`: a claim pushes the threshold and the slot and raises the threshold to the ceiling, a
release of the latest claim restores the threshold; the reasons of CLAIM in the order of R107 (R105 to R107). -/
def Obligations.ClaimAndRelease : Prop :=
  ∀ (s : State) (lc : Nat) (f : Frame) (k : Fin 16) (v : List Word), s.agent = .core lc → s.top lc = some f →
    let ceiling := bits f.hdr.ceilings (4 * k.val) 4
    let home := s.resource f.graph k.val
    (s.front (.claim k) = .go v →
      (home.getLsbD 31 = false ∨ home.toNat % 1024 ≠ lc →
        exec (.claim k) s = .next (s.trap CLAIM (BitVec.ofNat 64 (1 * 256 + k.val)))) ∧
      (home.getLsbD 31 = true → home.toNat % 1024 = lc →
        (ceiling = 0 ∨ ceiling < f.level → exec (.claim k) s = .next (s.trap CLAIM (BitVec.ofNat 64 (2 * 256 + k.val)))) ∧
        (ceiling ≠ 0 → f.level ≤ ceiling →
          (7 ≤ f.claims.length → exec (.claim k) s = .next (s.trap CLAIM (BitVec.ofNat 64 (3 * 256 + k.val)))) ∧
          (f.claims.length < 7 → (∃ c ∈ f.claims, c.slot = k.val) →
            exec (.claim k) s = .next (s.trap CLAIM (BitVec.ofNat 64 (4 * 256 + k.val)))) ∧
          (f.claims.length < 7 → (∀ c ∈ f.claims, c.slot ≠ k.val) → exec (.claim k) s =
            .next ((s.setTop lc { f with claims := ⟨f.thresh, k.val⟩ :: f.claims, thresh := max f.thresh ceiling }).retire
              (.claim k)))))) ∧
    (s.front (.rels k) = .go v →
      (f.claims = [] → exec (.rels k) s = .next (s.trap CLAIM (BitVec.ofNat 64 (6 * 256 + k.val)))) ∧
      (∀ c l, f.claims = c :: l → c.slot ≠ k.val → exec (.rels k) s = .next (s.trap CLAIM (BitVec.ofNat 64 (5 * 256 + k.val)))) ∧
      (∀ c l, f.claims = c :: l → c.slot = k.val →
        exec (.rels k) s = .next ((s.setTop lc { f with claims := l, thresh := c.before }).retire (.rels k))))

/-- Time words: `tadv` and `tadvi` apply a summary to a time word or take TIME with the reason, `tcmp` gives −1, 0
or 1 by the order of R116 and takes TIME with reason 1 for a word that is not well formed (R115 to R119, R138,
R398). -/
def Obligations.TimeWords : Prop :=
  ∀ (s : State) (d a b : Reg) (l e : Fin 8) (k : Fin 64) (t m : Word),
    (s.front (.tadv d a b) = .go [t, m] →
      (65536 ≤ m.toNat → exec (.tadv d a b) s = .next (s.trap TIME 5)) ∧
      (∀ n, m.toNat < 65536 → advanceTime t (m.setWidth 16) = .inl n →
        exec (.tadv d a b) s = .next (s.trap TIME (BitVec.ofNat 64 n))) ∧
      (∀ u, m.toNat < 65536 → advanceTime t (m.setWidth 16) = .inr u →
        exec (.tadv d a b) s = .next (s.finish (.tadv d a b) d u))) ∧
    (s.front (.tadvi d a l e k) = .go [t] →
      (∀ n, advanceTime t (BitVec.ofNat 16 (32768 + 4096 * l.val + 512 * e.val + k.val)) = .inl n →
        exec (.tadvi d a l e k) s = .next (s.trap TIME (BitVec.ofNat 64 n))) ∧
      (∀ u, advanceTime t (BitVec.ofNat 16 (32768 + 4096 * l.val + 512 * e.val + k.val)) = .inr u →
        exec (.tadvi d a l e k) s = .next (s.finish (.tadvi d a l e k) d u))) ∧
    (s.front (.tcmp d a b) = .go [t, m] →
      (wellFormedTime t = false ∨ wellFormedTime m = false → exec (.tcmp d a b) s = .next (s.trap TIME 1)) ∧
      (wellFormedTime t = true → wellFormedTime m = true →
        exec (.tcmp d a b) s = .next (s.finish (.tcmp d a b) d
          (if timeLt t m then 0xFFFFFFFFFFFFFFFF else if timeLt m t then 1 else 0))))

/-- The order of well-formed time words is total and strict: exactly one of less, greater and equal holds
(R115, R116). -/
def Obligations.TimeOrderTotal : Prop :=
  ∀ t u v : Word, wellFormedTime t = true → wellFormedTime u = true → wellFormedTime v = true →
    (t = u ∨ timeLt t u = true ∨ timeLt u t = true) ∧ (timeLt t u = true → timeLt u t = false) ∧
    (timeLt t u = true → timeLt u v = true → timeLt t v = true)

/-- `cncl.t` removes the records that name the station and the time from the core's inbox and spill ring and
gives their number, 0 for a station or a time that no record can have; `cncl.l` installs a cancel mark of a prefix of the time, and gives 0, 1 where the mark
stands already, or 2 and a count where no mark is free, once every other module of the domain has acknowledged it (R109 to
R111, R165, R399; the messages between modules are log entry 111's). -/
def Obligations.CancelResults : Prop :=
  ∀ (s : State) (lc : Nat) (f : Frame) (d a : Reg) (st : Fin 64) (p : Fin 8) (t : Word), s.agent = .core lc →
    s.top lc = some f →
    (s.front (.cnclT d a st) = .go [t] →
      (s.namesTime f.graph st.val t = true → exec (.cnclT d a st) s =
        .next ((s.cancelQueued lc f.graph st.val t).2.finish (.cnclT d a st) d
          (BitVec.ofNat 64 (s.cancelQueued lc f.graph st.val t).1))) ∧
      (s.namesTime f.graph st.val t = false → exec (.cnclT d a st) s = .next (s.finish (.cnclT d a st) d 0))) ∧
    (s.front (.cnclL d a p) = .go [t] →
      let g := f.graph
      let m : CancelMark := ⟨t, p.val, false⟩
      (∀ x, (f.h.sent.find? fun y => y.tag == cnclTag) = some x →
        (s.markOut g m = true → exec (.cnclL d a p) s = .next s) ∧
        (s.markOut g m = false → exec (.cnclL d a p) s = .next (s.finish (.cnclL d a p) d x.addr))) ∧
      ((f.h.sent.find? fun y => y.tag == cnclTag) = none →
        ((∀ y ∈ (s.root g).marks, sameMark m y = false) → 8 ≤ (s.root g).marks.length → exec (.cnclL d a p) s =
          .next ((s.count cCNCLBUSY (s.partOf lc)).finish (.cnclL d a p) d 2)) ∧
        (∀ n u, s.install g m = (n, u) → n ≠ 2 →
          (u.markOut g m = true → exec (.cnclL d a p) s =
            .next (u.noteSent ⟨BitVec.ofNat 64 n, cnclTag, false, some (.data [])⟩)) ∧
          (u.markOut g m = false → exec (.cnclL d a p) s = .next (u.finish (.cnclL d a p) d (BitVec.ofNat 64 n)))) ∧
        (s.homed g = true → s.domainOf g = [] → s.markOut g m = false →
          ((∃ y ∈ (s.root g).marks, sameMark m y = true) → ∃ u : State,
            u.root g = { s.root g with marks := (u.root g).marks, launches := (u.root g).launches } ∧
            (u.root g).marks.length = (s.root g).marks.length ∧
            exec (.cnclL d a p) s = .next (u.finish (.cnclL d a p) d 1)) ∧
          ((∀ y ∈ (s.root g).marks, sameMark m y = false) → (s.root g).marks.length < 8 → exec (.cnclL d a p) s =
            .next ((s.putMark g m).finish (.cnclL d a p) d 0)))))

/-- `gang` gives 0 and makes its frame the leader of the partners' member frames, or a code and no change;
`disband` releases the members; `ovl` selects the overlay at the same local position and drops the tile's
cached words and opens the tile's window on it (R182 to R185, R298, R304, R305, R400, R401; where an overlay is beyond the
image is log entry 114's). -/
def Obligations.GangAndOverlay : Prop :=
  ∀ (s : State) (lc : Nat) (f : Frame) (d : Reg) (form : GangForm) (n : Fin 1024) (v : List Word),
    s.agent = .core lc → s.top lc = some f →
    (s.front (.gang d form) = .go v →
      (f.hdr.flags / 2 % 2 = 0 → exec (.gang d form) s = .next (s.illegal (.gang d form))) ∧
      (f.hdr.flags / 2 % 2 = 1 → (s.gangCode lc f form).1 ≠ 0 → exec (.gang d form) s =
        .next (s.finish (.gang d form) d (BitVec.ofNat 64 (s.gangCode lc f form).1))) ∧
      (f.hdr.flags / 2 % 2 = 1 → (s.gangCode lc f form).1 = 0 → exec (.gang d form) s =
        .next (((s.gangCode lc f form).2.foldl (fun s m => s.joinGang lc f m)
          (s.setTop lc { f with gang := some ⟨form, lc :: (s.gangCode lc f form).2⟩, latch := none })).finish
            (.gang d form) d 0))) ∧
    (s.front .disband = .go v → f.gang = none → exec .disband s = .next (s.retire .disband)) ∧
    (∀ (g : Gang) (h : Frame), s.front .disband = .go v → f.gang = some g → (s.disband lc).top lc = some h →
      exec .disband s = .next (((s.disband lc).setTop lc { h with latch := none }).retire .disband)) ∧
    (s.front (.ovl n) = .go v →
      (f.overlay = none → exec (.ovl n) s = .next (s.illegal (.ovl n))) ∧
      (∀ o, f.overlay = some o → s.codeWords f.graph ≤ 0x4000 * n.val → exec (.ovl n) s =
        .next (s.trap ADDRESS (s.codeBase f.graph + BitVec.ofNat 64 (4 * (0x4000 * n.val + (f.h.pc + 1) % 0x4000))))) ∧
      (∀ o, f.overlay = some o → 0x4000 * n.val < s.codeWords f.graph → exec (.ovl n) s =
        .next ((((s.setTop lc { f with overlay := some n.val }).dropIcache (s.tileOf lc)).openWindow lc
          { f with overlay := some n.val }).goTo (0x4000 * n.val + (f.h.pc + 1) % 0x4000))))

/-! ### System instructions -/

/-- What the system registers of a compute core read as, and which can be written (R186, R226, R254, R258, R402,
R403): LCID, LEVEL, THRESH, LTIME, STATION, GRAPH, CYCLE, INSTRET, FPCTL, FPSTAT, SEED, FDn, TRAPCAUSE,
TRAPVAL; a rounding mode of 6 or 7 is stored as 0, and a write of SEED loads the generator. And those of a front-end
core above plug-in level; at plug-in level FEPREV, FEEPC, MODSTAT, FESEL and FEDATA raise ILLEGAL (R51, R402, R403).
`mfs` and `mts`: a register that the agent can read is written to the destination, one that it can write takes
the value of the source, and any other number raises ILLEGAL (R402). -/
def Obligations.RegisterValues : Prop :=
  ((∀ (s : State) (k : Nat) (w : Word),
    s.feReg k 0x800 = some (BitVec.ofNat 64 (s.fe k).priv, s) ∧ s.feReg k 0x806 = some (BitVec.ofNat 64 k, s) ∧
    s.feReg k 0x010 = some ((s.fe k).cycle, s) ∧ s.feReg k 0x011 = some ((s.fe k).instret, s) ∧
    s.feReg k 0x040 = some ((s.fe k).h.trapcause, s) ∧ s.feReg k 0x041 = some ((s.fe k).h.trapval, s) ∧
    (∀ n, (s.fe k).priv = 0 → 0x801 ≤ n → n ≤ 0x805 → s.feReg k n = none ∧ s.setFeReg k n w = none) ∧
    ((s.fe k).priv ≠ 0 →
      s.feReg k 0x801 = some (BitVec.ofNat 64 (s.fe k).prev, s) ∧ s.feReg k 0x802 = some ((s.fe k).epc.setWidth 64, s) ∧
      s.feReg k 0x803 = some (s.boot.modstat.setWidth 64, s) ∧ s.feReg k 0x804 = some ((s.fe k).sel.setWidth 64, s) ∧
      s.setFeReg k 0x801 w = some (s.setFe k { s.fe k with prev := w.toNat % 4 }) ∧
      s.setFeReg k 0x804 w = some (s.setFe k { s.fe k with sel := w.setWidth 32 }) ∧
      s.setFeReg k 0x803 w = none ∧ s.setFeReg k 0x806 w = none)) ∧
  ∀ (s : State) (lc : Nat) (f : Frame) (w : Word), s.top lc = some f →
    s.coreReg lc f 0x000 = some (BitVec.ofNat 64 lc) ∧ s.coreReg lc f 0x004 = some (BitVec.ofNat 64 f.level) ∧
    s.coreReg lc f 0x005 = some (BitVec.ofNat 64 f.thresh) ∧ s.coreReg lc f 0x007 = some f.ltime ∧
    s.coreReg lc f 0x008 = some (BitVec.ofNat 64 f.station) ∧ s.coreReg lc f 0x009 = some (BitVec.ofNat 64 f.graph) ∧
    s.coreReg lc f 0x010 = some (s.core lc).cycle ∧ s.coreReg lc f 0x011 = some (s.core lc).instret ∧
    s.coreReg lc f 0x020 = some (f.h.fpctl.setWidth 64) ∧ s.coreReg lc f 0x021 = some (f.h.fpstat.setWidth 64) ∧
    s.coreReg lc f 0x022 = some f.h.seed ∧ s.coreReg lc f 0x040 = some f.h.trapcause ∧
    s.coreReg lc f 0x041 = some f.h.trapval ∧
    (∀ n : Fin 8, s.coreReg lc f (0x028 + n.val) = some ((f.fd.get n).setWidth 64) ∧
      s.setCoreReg lc f (0x028 + n.val) w = some (s.setTop lc { f with fd := f.fd.set n.val (w.setWidth 32) })) ∧
    s.setCoreReg lc f 0x020 w = some (s.setTop lc { f with h := { f.h with
      fpctl := BitVec.ofNat 5 (bits w 3 2 * 8 + if 6 ≤ bits w 0 3 then 0 else bits w 0 3) } }) ∧
    s.setCoreReg lc f 0x021 w = some (s.setTop lc { f with h := { f.h with fpstat := w.setWidth 5 } }) ∧
    s.setCoreReg lc f 0x022 w = some (s.setTop lc { f with h := { f.h with
      seed := w, gen := if w = 0 then 0x9E3779B97F4A7C15 else w } }) ∧
    (∀ n, n < 0x020 ∨ 0x033 ≤ n → s.setCoreReg lc f n w = none)) ∧
  (∀ (s : State) (d a : Reg) (r : BitVec 12) (x : Word) (v : List Word),
    (s.front (.mfs d r) = .go v →
      (s.sysReg r.toNat = none → exec (.mfs d r) s = .next (s.illegal (.mfs d r))) ∧
      (∀ w t, s.sysReg r.toNat = some (w, t) → exec (.mfs d r) s = .next (t.finish (.mfs d r) d w))) ∧
    (s.front (.mts r a) = .go [x] →
      ((s.pops (.mts r a)).setSysReg r.toNat x = none → exec (.mts r a) s = .next (s.illegal (.mts r a))) ∧
      (∀ t, (s.pops (.mts r a)).setSysReg r.toNat x = some t → exec (.mts r a) s = .next (t.goTo (t.hart.pc + 1)))))

/-- `opreq`, `ifence`, `trap`, `brk` and `pmpw` (R53, R68, R225, R227, R406 to R408, R410): OPREQ takes the request; `ifence` drops
the tile's cached words once the stores are acknowledged; `trap` and `brk` take USER and BRK with their immediate
in TRAPVAL, or go on where the header ignores the class; `pmpw` writes a region, ILLEGAL for a bad value and PROT
for a locked region below monitor level. -/
def Obligations.SystemResults : Prop :=
  ∀ (s : State) (i : BitVec 12) (n : Fin 16) (a : Reg) (x : Word) (v : List Word),
    (∀ lc f, s.agent = .core lc → s.top lc = some f →
      (s.front (.opreq n) = .go v → exec (.opreq n) s = .next ((s.writeOpreq lc (BitVec.ofNat 5 n.val)).retire (.opreq n))) ∧
      (s.front .opreqAuto = .go v → exec .opreqAuto s = .next ((s.writeOpreq lc 16).retire .opreqAuto)) ∧
      (s.front .ifence = .go v → f.unacked = 0 →
        exec .ifence s = .next ((s.dropIcache (s.tileOf lc)).retire .ifence))) ∧
    (∀ k, s.agent = .fe k →
      (s.front .ifence = .go v → exec .ifence s = .next (s.retire .ifence)) ∧
      (s.front (.pmpw n a) = .go [x] →
        (badRegion x = true → exec (.pmpw n a) s = .next (s.illegal (.pmpw n a))) ∧
        (badRegion x = false → (s.fe k).priv ≠ 2 → bit ((s.fe k).regions.get n) 62 = true →
          ∃ w, exec (.pmpw n a) s = .next (s.trap PROT w)) ∧
        (badRegion x = false → ((s.fe k).priv = 2 ∨ bit ((s.fe k).regions.get n) 62 = false) →
          exec (.pmpw n a) s =
            .next ((s.setFe k { s.fe k with regions := (s.fe k).regions.set n.val (x &&& 0xFBFFFFFFFFFFF000) }).retire
              (.pmpw n a))))) ∧
    (s.front (.trap i) = .go v →
      (s.ignores USER = true → exec (.trap i) s = .next ((s.ignore USER (i.setWidth 64)).retire (.trap i))) ∧
      (s.ignores USER = false → exec (.trap i) s = .next (s.trap USER (i.setWidth 64)))) ∧
    (s.front (.brk i) = .go v →
      (s.ignores BRK = true → exec (.brk i) s = .next ((s.ignore BRK (i.setWidth 64)).retire (.brk i))) ∧
      (s.ignores BRK = false → exec (.brk i) s = .next (s.trap BRK (i.setWidth 64))))


/-! ### The steps of the part: records, admission, progress -/

/-- Records on their way (R21, R24, R77, R81, R110, R143 to R146, R152 to R154, R229, R230). A record that reaches a mapped
core or its landing is taken in, and wakes the core's tile, or is dropped where it is bad or a mark matches it; one for a
core that is not mapped is dropped at a quay die; one for another module leaves where a link leads there; the front end
retries the level-7 records it holds, injects trap deliveries and installs late cancels; a landing hands its head to the
core it picks.
Where a record goes at a core (R144, R145): below level 7, with no record of its level spilled, it takes the
lowest free shared entry, else the lowest free entry of its level, with the next arrival number; where no entry
is free, or one of its level is spilled, it goes to the lowest free place of the spill ring in memory, counted, while
the ring has room. -/
def Obligations.RecordMovement : Prop :=
  (∀ (s t : State) (k lc g st : Nat) (x : Flight),
    (s.prog.flights[k]? = some x → s.foremost k x = true →
      let s1 := { s with prog := { s.prog with flights := removeAt s.prog.flights k } }
      (x.dst = .core lc → s.mapped lc = true → s.heldCore lc = false ∨ x.early = true →
        (s.recordOk x.rcd = true → s.marked x.rcd.graph x.rcd.q1 = false → (x.rcd.level ≠ 7 ∨ s.holds7 lc = false) →
          s1.takeIn lc x.rcd x.marked x.landed = some t → exec (.recordArrival k) s = .next (t.wakeTile (t.tileOf lc))) ∧
        (s.recordOk x.rcd = true → s.marked x.rcd.graph x.rcd.q1 = true → exec (.recordArrival k) s =
          .next ((s1.cancelDrop (s.dieOf lc) x.rcd).unhand x.rcd lc x.landed)) ∧
        (s.recordOk x.rcd = false → exec (.recordArrival k) s =
          .next ((s1.badRecord (s.dieOf lc) x.rcd).unhand x.rcd lc x.landed))) ∧
      (x.dst = .core lc → s.mapped lc = false → s.awaitsRestore lc = false → exec (.recordArrival k) s =
        .next ((s1.dropAtQuay (s.dropQuay x) x.rcd).unhand x.rcd lc x.landed)) ∧
      (∀ d, x.dst = .device d → s.marked x.rcd.graph x.rcd.q1 = true → exec (.recordArrival k) s =
        .next ((s1.postNode (quayNode x.rcd.graph) ⟨x.rcd.graph, x.rcd.station, x.rcd.q1, -1, none, []⟩).count cCNCLDROP
          (s.fnPart (s.fnOf x.rcd.graph)))) ∧
      (∀ d, x.dst = .device d → s.marked x.rcd.graph x.rcd.q1 = false →
        (s.routed d = true → exec (.recordArrival k) s = .next (s1.sendMsg d (.record x.rcd))) ∧
        (s.routed d = false → exec (.recordArrival k) s = .next (s1.dropAtQuay (s.quayOf d) x.rcd))) ∧
      (x.dst = .landing g st →
        (s.recordOk x.rcd = true → s.marked g x.rcd.q1 = false → s1.land g st x.rcd x.marked = some t →
          exec (.landingArrival k) s = .next t) ∧
        (s.recordOk x.rcd = true → s.marked g x.rcd.q1 = true →
          exec (.landingArrival k) s = .next (s1.cancelDrop ((s.landing g st).home / 16) x.rcd)) ∧
        (s.recordOk x.rcd = false →
          exec (.landingArrival k) s = .next (s1.badRecord ((s.landing g st).home / 16) x.rcd)))) ∧
    (∀ r, (s.prog.held7.find? fun y => y.1 == lc) = some (lc, r) → s.mapped lc = true → s.heldCore lc = false →
      s.takeIn lc r false false = some t → exec (.level7Retry lc) s =
        .next ({ t with prog := { t.prog with held7 := t.prog.held7.eraseP fun y => y.1 == lc } }.wakeTile (t.tileOf lc))) ∧
    (∀ d l, s.prog.deliveries = d :: l →
      let s1 := { s with prog := { s.prog with deliveries := l } }
      (s.holds7 d.lc = false → exec .trapDeliveryInject s = .next (s1.send .dispatcher d.rcd false)) ∧
      (s.holds7 d.lc = true → s.sent7 d.lc = true → exec .trapDeliveryInject s = .next s) ∧
      (s.holds7 d.lc = true → s.sent7 d.lc = false → exec .trapDeliveryInject s = .next (s1.hold7 d.lc d.rcd))) ∧
    (∀ c n, (s.prog.late.find? fun y => y.g == g) = some c → s.installHere g c.mark = (n, t) → n ≠ 2 →
      exec (.deferredCancelInstall g) s =
        .next (({ t with prog := { t.prog with late := t.prog.late.eraseP fun y => y.g == g } } : State).tellMark g c.mark c.dev)) ∧
    (∀ y l r, (s.landing g st).recs = y :: l → s.marked g y.rcd.q1 = false → s.landedRec g st y = some r →
      leastBy (fun a b => keyLess (s.handKey a) (s.handKey b))
        ((s.landing g st).subs.filter fun c => s.mayHand (s.landing g st) y.rcd c && s.earliestHead g st y c) = some lc →
      exec (.landingHandoff g st) s =
        .next ((s.setLanding g st { s.landing g st with
          recs := l, handed := mput 0 lc (tget 0 (s.landing g st).handed lc + 1) (s.landing g st).handed }).addFlight
          ⟨r.toCore s.devid.toNat lc, .landing g st, .core lc, y.marked, true, false⟩))) ∧
  (∀ (s : State) (lc : Nat) (r : Rec) (m l : Bool), 1 ≤ r.level → r.level < 7 →
    let c := s.core lc
    let spilled := c.spill.any fun q => q.rcd.level == r.level
    (∀ i, spilled = false → c.freeEntry r.level = some i →
      (28 ≤ i ∨ (4 * (r.level - 1) ≤ i ∧ i < 4 * r.level)) ∧ c.isFree i = true ∧
      s.takeIn lc r m l = some (s.setCore lc { c with
        inbox := tput i ⟨r, c.arrivals, m, false, l, none⟩ c.inbox, arrivals := c.arrivals + 1 })) ∧
    ((spilled = true ∨ c.freeEntry r.level = none) → c.spill.length < 1024 →
      let k := freeRing (c.spill.filterMap Queued.ring)
      k ∉ c.spill.filterMap Queued.ring ∧
      s.takeIn lc r m l = some (((s.setCore lc { c with
        spill := c.spill ++ [⟨r, c.arrivals, m, false, l, some k⟩], arrivals := c.arrivals + 1 }).ringWrite
          (bit (s.entry 18 lc) 63) (bits (s.entry 18 lc) 16 36 * 65536) k r).count cISPILL (s.partOf lc))) ∧
    ((spilled = true ∨ c.freeEntry r.level = none) → 1024 ≤ c.spill.length → s.takeIn lc r m l = none))

/-- Admission: the first eligible record above the threshold pushes its frame, from its header or as an inline
handler, where the frame has room; a header that is refused takes ENTRY with its reason, and a record that an empty
quarter has no room for ENTRY with the bytes it needs; a record not above the threshold waits, and so does one beside an
instruction that has made some of its stores. A used-up
budget takes BUDGET. A footprint slot takes the first record that wants one; its regions are copied 64 bytes at a time
until they are pinned or a fault of theirs is kept. The stage governor runs, once the weights it has asked for are there
(R88, R94, R96, R97, R103, R104, R148 to R151, R157). -/
def Obligations.AdmissionAndFootprints : Prop :=
  ∀ (s : State) (lc : Nat), s.active lc = true →
    (s.begunAt lc = true → exec (.admission lc) s = .next s) ∧
    (s.begunAt lc = false → let s1 := s.sweepInbox lc
     ∀ i q, s1.firstEligible lc = some (i, q) →
      (q.rcd.level ≤ (s1.core lc).thresh → exec (.admission lc) s = .next s1) ∧
      ((s1.core lc).thresh < q.rcd.level → q.rcd.kind = 1 → exec (.admission lc) s =
        .next (s1.push lc (i, q) (bareFrame lc q.rcd q i q.rcd.budget (s1.core lc).lowest))) ∧
      (∀ s2, (s1.core lc).thresh < q.rcd.level → q.rcd.kind ≠ 1 → s1.readHeader lc q.rcd = .wait s2 →
        exec (.admission lc) s = .next s2) ∧
      (∀ h s2, (s1.core lc).thresh < q.rcd.level → q.rcd.kind ≠ 1 → s1.readHeader lc q.rcd = .bytes h s2 →
        let z := hdrField h 8 4
        let c := s2.core lc
        let reason := headerReason h q.rcd ((s1.graph q.rcd.graph).any Graph.overlays)
        let room := s2.cstat lc + z ≤ c.lowest ∧
          (c.frames.flatMap Frame.regions ++ c.regionsOf q.arrival).any (overlaps (c.lowest - z, z)) = false
        (∀ n, reason = some n → exec (.admission lc) s = .next (s1.refuseEntry lc (i, q) ENTRY (BitVec.ofNat 64 n))) ∧
        (reason = none → 0x60000 < s1.needs lc q.rcd z →
          exec (.admission lc) s = .next (s1.refuseEntry lc (i, q) ENTRY (BitVec.ofNat 64 (s1.needs lc q.rcd z)))) ∧
        (reason = none → s1.needs lc q.rcd z ≤ 0x60000 → room →
          let f := frameOf lc q.rcd q h c (c.regionsOf q.arrival) ((c.slotOf q.arrival).bind FootSlot.fault)
          exec (.admission lc) s =
            .next (((s2.evictUnder lc q.arrival (c.lowest - z, z)).openWindow lc f).push lc (i, q) f)) ∧
        (reason = none → s1.needs lc q.rcd z ≤ 0x60000 → ¬ room → exec (.admission lc) s = .next s2))) ∧
    (∀ f, s.begunAt lc = false → s.top lc = some f → f.unl = false → f.left = 0 → f.leader = none → s.gangReady lc f = true →
      exec (.budgetExpire lc) s = .next (s.takeTrap lc BUDGET 0 none)) ∧
    (∀ e, leastBy queuedBefore ((s.sweepInbox lc).wantSlot lc) = some e →
      ((∀ t, (s.sweepInbox lc).readHeader lc e.2.rcd ≠ .wait t) →
        exec (.footprintFetchStart lc) s = .next ((s.sweepInbox lc).fetchFor lc e 3)) ∧
      (∀ t, (s.sweepInbox lc).readHeader lc e.2.rcd = .wait t → exec (.footprintFetchStart lc) s = .next t)) ∧
    (∀ (slot : Nat) (f g : FootSlot) (e : Nat × Queued) (t : State), (s.core lc).foot[slot]? = some f → f.pinned = false →
      ((s.core lc).inbox.find? fun e => e.2.arrival == f.arrival) = some e →
      s.fetchLines lc e.2.rcd f (f.size / 64 + 1) = (g, t) →
      let u := t.setCore lc { t.core lc with foot := modifyAt (fun _ => g) (t.core lc).foot slot }
      exec (.footprintPinned lc slot) s =
        .next (if g.pinned then u.dropHolder (4096 + 64 * footKey lc f.id + s.clusterOf lc) else u)) ∧
    (∀ (r : Rec) (f : FootSlot) (region va off : Nat) (bs : List Byte) (l : List Nat) (t u : State),
      let x : Issuer := ⟨footKey lc f.id, lc, s.ctxOf r.graph, s.fnOf r.graph⟩
      (footAt r.footprint f.regions f.fetched = none → s.fetchLine lc r f = (true, { f with pinned := true }, s)) ∧
      (footAt r.footprint f.regions f.fetched = some (region, va, off) →
        (s.engSpan x va 64 needR 0 = .pas l t → s.engRead x (BitVec.ofNat 64 va) 64 0 = .ok bs u →
          s.fetchLine lc r f = (true, { f with fetched := f.fetched + 64 }, u.writeCellar (span (cellarKey lc off) 64) bs)) ∧
        (∀ c, s.engSpan x va 64 needR 0 = .trap c → s.fetchLine lc r f =
          (true, { f with pinned := true, fault := some (if c = DATA then DATA else ADDRESS, BitVec.ofNat 64 region) }, s)) ∧
        (s.engSpan x va 64 needR 0 = .pas l t → s.engRead x (BitVec.ofNat 64 va) 64 0 = .bad u →
          s.fetchLine lc r f = (true, { f with pinned := true, fault := some (DATA, BitVec.ofNat 64 region) }, u)))) ∧
    (∀ die, s.landingsOf die = [] → (s.die die).governing = none → exec (.stageGovernorEval die) s =
      .next (s.setDie die { s.die die with governing := none })) ∧
    (∀ die p c l, s.landingsOf die = [p] → (s.graph p.1).isSome = true → (s.die die).governing = none →
      (s.plugin (s.fnPlug (s.fnOf p.1))).usable = false → s.weightDue p = false →
      l = s.landing p.1 p.2 → l.recs ≠ [] →
      let s1 := (s.setLanding p.1 p.2 { l with empties := 0 }).setDie die { s.die die with governing := none }
      s.wants p = true → s.offers p = false →
      ((s1.pool p).find? fun c => (s1.core c).subs.isEmpty && !s1.heldCore c) = some c →
      exec (.stageGovernorEval die) s = .next (s1.subscribe p c)) ∧
    (∀ die want offer, (s.die die).governing = some (want, offer) →
      (want.any s.weightDue = true → exec (.stageGovernorEval die) s = .next s) ∧
      (want.any s.weightDue = false → exec (.stageGovernorEval die) s = .next (s.governed die want offer)))

/-- The frame of a record and its header (R89, R93, R94, R103, R106, R258): the pc at the record's entry, s1 to
s6 from Q2 to Q7 where it has no footprint, s24 the top of its cellar frame where its window has 32 registers,
every other register, the flags, the modes and the tags 0, the threshold its level, no claim, the times and the
seed of the record. -/
def Obligations.FrameAtAdmission : Prop :=
  ∀ (lc h : Nat) (r : Rec) (q : Queued) (c : Core), r.kind ≠ 1 →
    let f := frameOf lc r q h c [] none
    f.h.pc = r.entry ∧ f.h.reg 1 = r.q2 ∧ f.h.reg 2 = r.q3 ∧ f.h.reg 3 = r.q4 ∧ f.h.reg 4 = r.q5 ∧ f.h.reg 5 = r.q6 ∧
    f.h.reg 6 = r.q7 ∧ (hdrField h 4 1 = 32 → f.h.reg 24 = BitVec.ofNat 64 c.lowest) ∧
    (∀ x : Reg, 7 ≤ x.val → x ≠ 24 → f.h.reg x = 0) ∧ f.window = hdrField h 4 1 ∧ f.h.fpctl = 0 ∧ f.h.fpstat = 0 ∧
    f.level = r.level ∧ f.thresh = r.level ∧ f.claims = [] ∧ f.ltime = r.q1 ∧ f.station = r.station ∧ f.graph = r.graph ∧
    f.v = Vector.replicate 16 0 ∧ f.tags = Vector.replicate 16 0 ∧ f.mxcfg = Vector.replicate 4 0 ∧ f.detseq = 0 ∧
    f.h.seed = r.q1 ^^^ BitVec.ofNat 64 (lc * 2 ^ 20) ^^^ BitVec.ofNat 64 (r.station * 2 ^ 36) ^^^
      BitVec.ofNat 64 (r.graph * 2 ^ 52) ∧ f.low = c.lowest - hdrField h 8 4

/-- Counts on their way (R124 to R132): a core flushes its buffer as one batch to its tile's node, a
node takes a batch where it has room and forwards what it has accumulated to its parent; a die sends each root its
increments and those decrements by which no frontier advances falsely (R125, R131; the model's reading, log entry 22);
nothing goes to a root that does not take it; the root applies a batch to its slots, and a frontier, of the slot's own root or
as its home has announced it, reaches the copy of a die. What belongs to another module's root leaves for it.
The high point of a slot is none as the slot is loaded; it rises to the completion points of the launches that complete, and a
launch at or before it counts LREOPEN and opens nevertheless (R132). -/
def Obligations.ProgressSteps : Prop :=
  ∀ (s : State) (lc k node g st die : Nat) (b : Batch) (gr : Graph),
    ((s.core lc).progress ≠ [] → ∃ t, exec (.progressFlushDeadline lc) s = .next t ∧ (t.core lc).progress = [] ∧
      t.prog.batches = s.prog.batches ++ [⟨1024 + lc, s.tileOf lc, (s.core lc).progress⟩]) ∧
    (s.prog.batches[k]? = some b → s.batchFirst k b = true → b.dst < 296 →
      (s.accepts b.dst = true → exec (.treeBatchArrival k) s = .next (b.deltas.foldl (fun s d => s.postNode b.dst d)
        { s with prog := { s.prog with batches := removeAt s.prog.batches k } })) ∧
      (s.accepts b.dst = false → exec (.treeBatchArrival k) s = .next s)) ∧
    (node < 288 → s.node node ≠ [] → let up := if node < 256 then 256 + node / 8 else 288 + (node - 256) / 4
      (s.accepts up = true → ∃ t, exec (.treeNodeForward node) s = .next t ∧ t.node node = [] ∧
        t.prog.batches = s.prog.batches ++ [⟨node, up, s.node node⟩]) ∧
      (s.accepts up = false → exec (.treeNodeForward node) s = .next s)) ∧
    (288 ≤ node → node < 300 → node ≠ 296 → node ≠ 297 → s.node node ≠ [] →
      let r0 := s.offered node 0 ((s.node node).filter fun d => d.g < 8)
      let r1 := s.offered node 1 ((s.node node).filter fun d => d.g ≥ 8)
      exec (.treeNodeForward node) s = .next (((s.setNode node (r0.2 ++ r1.2)).sendBatch node 296 r0.1).sendBatch node 297 r1.1)) ∧
    (∀ (q : Nat) (d : Delta) (l : List Delta), q < 2 → s.node (296 + q) = d :: l → exec (.treeNodeForward (296 + q)) s =
      .next (s.toHome q (s.homeOf d.g))) ∧
    (∀ (q : Nat) (l : List Delta) (d : Delta), let r := s.toRoot node q l
      (s.rootTakes q ⟨node, 296 + q, r.1⟩ = true → s.offered node q l = r) ∧
      (s.rootTakes q ⟨node, 296 + q, r.1⟩ = false → s.offered node q l = ([], l)) ∧
      (d ∈ l → d ∈ r.1 ∨ d ∈ r.2) ∧ (d ∈ l → 0 ≤ d.n → d ∈ r.1) ∧ (d ∈ r.1 → d.n < 0 → s.safeWith node r.1 d.g = true)) ∧
    (s.prog.batches[k]? = some b → s.batchFirst k b = true → 296 ≤ b.dst →
      (s.rootTakes (b.dst - 296) b = true → exec (.rootApplyBatch k) s = .next ((slotsOf b.deltas).foldl
        (fun s g => s.applyDeltas g (b.deltas.filter fun d => d.g == g))
          { s with prog := { s.prog with batches := removeAt s.prog.batches k } })) ∧
      (s.rootTakes (b.dst - 296) b = false → exec (.rootApplyBatch k) s = .next s)) ∧
    (∀ ds : List Delta, s.graph g = some gr → s.homed g = true → ∃ t : State, s.applyDeltas g ds = t.settle g ∧
      t.root g = ds.foldl (fun r d => r.apply gr d) (s.root g) ∧ t.mem = s.mem ∧ t.cores = s.cores) ∧
    (s.graph g = some gr → (s.root g).failed = false →
      (s.homed g = true → ∃ t, exec (.frontierAnnounce g st die) s = .next t ∧
        tget none (t.die die).frontiers (64 * g + st) = (s.root g).frontier gr st ∧ t.prog = s.prog ∧ t.mem = s.mem) ∧
      (∀ x, s.homed g = false → tfind (s.root g).announced st = some x → ∃ t, exec (.frontierAnnounce g st die) s = .next t ∧
        tget none (t.die die).frontiers (64 * g + st) = x ∧ t.prog = s.prog ∧ t.mem = s.mem) ∧
      (s.homed g = false → tfind (s.root g).announced st = none → exec (.frontierAnnounce g st die) s = .next s)) ∧
    (∀ done : Launch → Bool, let r := s.root g
      ((s.completeLaunches g done).root g).high = r.raised (r.launches.filter done) ∧
      ((r.launches.filter done = []) → r.raised (r.launches.filter done) = r.high) ∧
      ((∀ l ∈ r.launches, wellFormedTime l.point = true) → (∀ h, r.high = some h → wellFormedTime h = true) →
        ∀ l ∈ r.launches, done l = true → ∃ h, r.raised (r.launches.filter done) = some h ∧ timeLt h l.point = false ∧
          (r.high = some h ∨ ∃ m ∈ r.launches, done m = true ∧ m.point = h))) ∧
    (∀ (t point : Word) (dev : Nat) (packet : Option (Nat × Nat × Nat)), let u := s.openLaunch g st t point dev packet
      (u.root g).high = (s.root g).high ∧ (u.root g).launches.length = (s.root g).launches.length + 1 ∧
      (∀ h, (s.root g).high = some h → timeLt h point = false → u.counter cLREOPEN g = satAdd (s.counter cLREOPEN g) 1) ∧
      (∀ h, (s.root g).high = some h → timeLt h point = true → u.counter cLREOPEN g = s.counter cLREOPEN g) ∧
      ((s.root g).high = none → u.counter cLREOPEN g = s.counter cLREOPEN g)) ∧
    ((s.makeResident g gr).root g).high = none


/-! ### The steps of the part: engines and tile tasks -/

/-- The steps of the engines, on a core that is mapped, not stopped, and on a tile that has not tripped (R83, R84, R174 to
R177, R202, R213, R379, R382 to R385, R391, R392). A descriptor of length 0 is over at once with status 0; another becomes the
channel's copy, with an arm entry where it asks for one and one is free, and marked as refused where none is. A granule that is
reached is read in one step and written in a later one; one with an uncorrectable codeword is skipped and counted; the
watermark of the arm entry rises over the granules written or skipped from it on, and at the end of the range the entry frees;
a fault ends the copy at the first granule of its chunk that is neither written nor skipped. A copy with every granule handled
and none on its way frees its arm entry and delivers its successor with its status. An input stream reads its next element into
its FIFO, an output stream writes its first one; one that has drained, and one that outlives its frame once its last write has
landed, lets its successor go. A gather or scatter moves one element and delivers its successor after the last, or with its
fault. A full collective whose descriptors agree reads its sources and writes op of them granule by granule, and with the last
delivers a successor to every participant of the module; one whose descriptors disagree delivers status 6 and writes nothing.
An instruction reads an input stream whose FIFO holds an element, on a core whose running frame has
nothing else before it, and retires without a destination: the element leaves the FIFO, and with the last of
the n elements the binding ends, the register holds that element, and the successor is on its way (R173,
R383). -/
def Obligations.EngineSteps : Prop :=
  (∀ (s : State) (lc level ch g j cl k : Nat), s.enginesRun lc = true →
    (∀ d l, (s.chan lc level ch) = ⟨none, d :: l⟩ → d.len = 0 → exec (.copyStart lc level ch) s =
      .next ((s.setChan lc level ch ⟨none, l⟩).deliver (s.copyUnit lc) (s.dieOf lc) d.succ 0)) ∧
    (∀ d l, (s.chan lc level ch) = ⟨none, d :: l⟩ → d.len ≠ 0 → d.arm = false → exec (.copyStart lc level ch) s =
      .next (s.setChan lc level ch ⟨some ⟨d, [], 0, 0, none, none, false⟩, l⟩)) ∧
    (∀ d l tlc off, (s.chan lc level ch) = ⟨none, d :: l⟩ → d.len ≠ 0 → d.arm = true →
      spaceOf d.dst d.len = .window s.devid.toNat tlc off →
      (∀ i t, s.takeArm tlc ⟨off, off + d.len, off⟩ = some (i, t) →
        exec (.copyStart lc level ch) s = .next (t.setChan lc level ch ⟨some ⟨d, [], 0, 0, none, some (tlc, i), false⟩, l⟩)) ∧
      (s.takeArm tlc ⟨off, off + d.len, off⟩ = none →
        exec (.copyStart lc level ch) s = .next (s.setChan lc level ch ⟨some ⟨d, [], 0, 0, none, none, true⟩, l⟩))) ∧
    (∀ op l x, s.chan lc level ch = ⟨some op, l⟩ → g < op.d.len / 16 → op.fault = none → tfind op.moved g = none →
      (∀ y ∈ s.mem.flying, Flying.of lc level ch g y = false) → g < op.reach →
      x = Issuer.mk (chanKey lc level ch) lc (s.ctxOf op.d.succ.graph) (s.fnOf op.d.succ.graph) → s.copyTurn x op g = true →
      let src := op.d.src + BitVec.ofNat 64 (16 * g)
      let dst := op.d.dst + BitVec.ofNat 64 (16 * g)
      let go := s.engMove x src dst 16
      let put := fun (t : State) (op : CopyOp) => t.setChan lc level ch ⟨some op, l⟩
      (∀ bs t, findEng x.key src 4 s.prog.eng = none → s.engRead x src 16 = .ok bs t →
        exec (.copyGranule lc level ch g) s = .next (t.noteEng x.key ⟨src, 4, false, some (.data bs)⟩)) ∧
      (∀ y bs z t, findEng x.key src 4 s.prog.eng = some y → y.answer = some (.data bs) → s.engWrite x dst bs = .ok z t →
        go = .ok [] (t.forgetEng x.key src 4)) ∧
      (∀ bs t, go = .ok bs t → let op1 := { op with moved := tput g true op.moved }
        (op.arm = none → exec (.copyGranule lc level ch g) s = .next (put t op1)) ∧
        (∀ tlc i a, op.arm = some (tlc, i) → (t.core tlc).arms.toList.getD i none = some a →
          let wm := a.lo + 16 * risen op1.moved ((a.wm - a.lo) / 16) op1.moved.length
          (a.hi ≤ wm → exec (.copyGranule lc level ch g) s = .next (put (t.setArm tlc i none) { op1 with arm := none })) ∧
          (wm < a.hi → exec (.copyGranule lc level ch g) s = .next (put (t.setArm tlc i (some { a with wm := wm })) op1)))) ∧
      (∀ t, go = .bad t → let op1 := { op with moved := tput g false op.moved, skipped := op.skipped + 1 }
        (op.arm = none → exec (.copyGranule lc level ch g) s = .next (put t op1)) ∧
        (∀ tlc i a, op.arm = some (tlc, i) → (t.core tlc).arms.toList.getD i none = some a →
          let wm := a.lo + 16 * risen op1.moved ((a.wm - a.lo) / 16) op1.moved.length
          (a.hi ≤ wm → exec (.copyGranule lc level ch g) s = .next (put (t.setArm tlc i none) { op1 with arm := none })) ∧
          (wm < a.hi → exec (.copyGranule lc level ch g) s = .next (put (t.setArm tlc i (some { a with wm := wm })) op1)))) ∧
      (∀ t, go = .fault t → exec (.copyGranule lc level ch g) s = .next (put t { op with fault := some (op.stopAt g) })) ∧
      (∀ t, go = .wait t → exec (.copyGranule lc level ch g) s = .next t)) ∧
    (∀ (m : Table Bool) (n : Nat), let w := risen m n m.length
      n ≤ w ∧ (∀ i, n ≤ i → i < w → (tfind m i).isSome = true) ∧ tfind m w = none) ∧
    (∀ op l x, s.chan lc level ch = ⟨some op, l⟩ →
      (op.moved.filter fun e => e.1 < op.fault.getD (op.d.len / 16)).length = op.fault.getD (op.d.len / 16) →
      (∀ y ∈ s.mem.flying, ¬ (y.lc = lc ∧ y.level = level ∧ y.ch = ch)) → s.engWaits (chanKey lc level ch) = false →
      x = Issuer.mk (chanKey lc level ch) lc (s.ctxOf op.d.succ.graph) (s.fnOf op.d.succ.graph) →
      let s1 := match op.arm with
        | some (tlc, i) => s.setArm tlc i none
        | none => s
      (∀ tlc i, op.arm = some (tlc, i) → i < 4 → (s1.core tlc).arms.toList.getD i none = none) ∧
      exec (.copyComplete lc level ch) s = .next ((((s1.engDone x).forgetKey x.key).setChan lc level ch ⟨none, l⟩).deliver
        (s.copyUnit lc) (s.dieOf lc) op.d.succ (match op.fault with
          | some n => statusWord n op.refused 0 2
          | none => statusWord op.skipped op.refused 0 0))) ∧
    (∀ (f : Frame) (r : Reg) (x : Stream) (y : Issuer) (bs : List Byte), s.frameAt lc level = some f → 28 ≤ r.val →
      f.stream r = some x → x.ended = none →
      y = ⟨streamKey lc x, lc, s.ctxOf x.succ.graph, s.fnOf x.succ.graph⟩ →
      (∀ (t : State) (h : Frame), x.out = false → x.moved < x.n → x.fifo.length < 16 → s.engRead y (x.base + BitVec.ofNat 64 x.moved * x.stride) 8 = .ok bs t →
        t.frameAt lc level = some h → exec (.streamElement lc level (r.val - 28)) s =
          .next (t.setFrameAt lc level (h.setStream r (some { x with
            fifo := x.fifo ++ [BitVec.ofNat 64 (leNat bs)], moved := x.moved + 1 })))) ∧
      (∀ (w : Word) (l : List Word) (t : State) (h : Frame), x.out = true → x.fifo = w :: l →
        s.engWrite y (x.base + BitVec.ofNat 64 x.moved * x.stride) (leBytes 8 w.toNat) = .ok bs t →
        t.frameAt lc level = some h → exec (.streamElement lc level (r.val - 28)) s =
          .next (t.setFrameAt lc level (h.setStream r (some { x with fifo := l, moved := x.moved + 1 }))))) ∧
    (∀ f x, s.frameAt lc level = some f → j < 16 → f.draining[j]? = some x →
      (x.fifo = [] → exec (.streamElement lc level (j + 4)) s = .next ((s.setFrameAt lc level
        { f with draining := removeAt f.draining j }).streamOver lc x (x.ended.getD 0))) ∧
      (∀ w l bs t, x.fifo = w :: l → x.ended = none →
        s.engWrite (s.streamIssuer lc x) (x.base + BitVec.ofNat 64 x.moved * x.stride) (leBytes 8 w.toNat) = .ok bs t →
        exec (.streamElement lc level (j + 4)) s = .next (t.setFrameAt lc level
          { f with draining := modifyAt (fun _ => { x with fifo := l, moved := x.moved + 1 }) f.draining j }))) ∧
    (∀ x, (s.core lc).strays[j]? = some x →
      (s.streamOut lc x = true → exec (.streamElement lc level (j + 20)) s = .next s) ∧
      (s.streamOut lc x = false → exec (.streamElement lc level (j + 20)) s = .next
        ((s.setCore lc { s.core lc with strays := removeAt (s.core lc).strays j }).streamOver lc x (x.ended.getD 0)))) ∧
    (∀ (x y : Gather) (z : Issuer) (t : State), (s.cluster cl).gathers[k]? = some x → x.lc = lc →
      z = ⟨gatherKey x, lc, s.ctxOf x.succ.graph, s.fnOf x.succ.graph⟩ → s.gatherStep z x = (y, t) →
      let gone := (t.setCluster cl { t.cluster cl with gathers := removeAt (t.cluster cl).gathers k }).engDone z
      (y.fault = false → y.moved < gatherN x.words.toList → exec (.gatherScatterElement cl k) s =
        .next (t.setCluster cl { t.cluster cl with gathers := modifyAt (fun _ => y) (t.cluster cl).gathers k })) ∧
      (y.fault = false → gatherN x.words.toList ≤ y.moved → exec (.gatherScatterElement cl k) s =
        .next (gone.deliver (.engine cl) (cl / 4) x.succ (statusWord y.skipped false 0 0))) ∧
      (y.fault = true → exec (.gatherScatterElement cl k) s =
        .next (gone.deliver (.engine cl) (cl / 4) x.succ (statusWord y.moved false 0 2)))) ∧
    (∀ c p l, s.prog.colls[k]? = some c → c.full = true → c.sorted = p :: l →
      let own := (p :: l).filter fun q => q.dev == s.devid.toNat
      (∀ q ∈ own, s.enginesRun q.lc = true) →
      let n := collLen p.words.toList / 16
      let op := collOp p.words.toList
      let tag := collTag p.words.toList
      let kept := fun (t : State) (c : Collective) => { t with prog := { t.prog with colls := modifyAt (fun _ => c) t.prog.colls k } }
      let ended := fun (t : State) (st : Word) => own.foldl (fun s q => s.deliver (.engine 512) (s.dieOf q.lc) q.succ st)
        { t with prog := { t.prog with colls := removeAt t.prog.colls k } }
      ((∃ q ∈ own, s.shut q.lc = true) →
        exec (.collectiveComplete k) s = .next (own.foldl (fun s q => s.callTile q.lc) s)) ∧
      ((∀ q ∈ own, s.shut q.lc = false) →
        (l.all (sameColl p) = false → exec (.collectiveComplete k) s = .next (ended s (statusWord 0 false 0 6))) ∧
        (l.all (sameColl p) = true →
          (∀ q g, pickAccess s.tick (c.unread n) = some (q, g) →
            let as := span (cellarKey q.lc (collSrc q.words.toList + 16 * g)) 16
            let x := if s.anyBadCellar as then none else some (BitVec.ofNat 128 (s.readCellar as))
            exec (.collectiveComplete k) s = .next (kept (s.meetCellarUe as) { c with got := tput (partKey q.lc g) x c.got })) ∧
          (c.unread n = [] →
            (c.unwritten own op tag n = [] → exec (.collectiveComplete k) s = .next (ended s (c.status op tag n))) ∧
            (∀ q g x fl, pickAccess s.tick (c.unwritten own op tag n) = some (q, g) → c.result op tag g = some (x, fl) →
              let t := s.writeCellar (span (cellarKey q.lc (collDst q.words.toList + 16 * g)) 16) (leBytes 16 x)
              ((c.unwritten own op tag n).length = 1 → exec (.collectiveComplete k) s = .next (ended t (c.status op tag n))) ∧
              (1 < (c.unwritten own op tag n).length → exec (.collectiveComplete k) s =
                .next (kept t { c with put := partKey q.lc g :: c.put }))))))) ∧
    (∀ l : List (Contribution × Nat), (∀ x, pickAccess s.tick l = some x → x ∈ l) ∧ (l ≠ [] → (pickAccess s.tick l).isSome = true))) ∧
  (∀ (s : State) (lc : Nat) (f : Frame) (r : Reg) (x : Stream) (w : Word) (l : List Word),
    s.top lc = some f → f.stream r = some x → x.out = false → x.fifo = w :: l →
      let t := s.popRead lc r
      (x.used + 1 < x.n → ∃ g : Frame, t.top lc = some g ∧ g.stream r = some { x with fifo := l, used := x.used + 1 } ∧ g.h = f.h) ∧
      (x.used + 1 = x.n → ∃ (s1 : State) (g : Frame), t = s1.deliver (.core lc) (s1.dieOf lc) x.succ (x.ended.getD 0) ∧
        s1.top lc = some g ∧ g.stream r = none ∧ g.h.reg r = w))

/-- Tile tasks (R159 to R161, R213, R264, R265, R388 to R390, R417). A stopped task resumes on its engine first, and
else the first queued record that can be issued is; a record of the other class leaves for the cluster that serves
it, counted. A K step reads the granules it still lacks, one a step in an order the manual leaves open, and then accumulates
over its columns with them; an uncorrectable granule is counted and ends the task with status code 3 and 8192 skipped granules,
as an uncorrectable bank does. A task that neither drains nor has K steps left completes with
status 0; a drain writes the granules of its rows to the destination's quarter, one a step, skips and counts one that covers only
part of a failed codeword, and with the last closes the chain and completes. -/
def Obligations.TileTaskSteps : Prop :=
  ∀ (s : State) (cl tile : Nat) (t : TileTask),
    (∀ s1, (span (8 * cl) 8).findSome? (fun x => s.tryResume cl x) = some s1 → exec (.tileTaskIssue cl) s = .next s1) ∧
    (∀ k s1, (∀ x, s.tryResume cl x = none) → (s.cluster cl).queue[k]? = some t → s.tryIssue cl k t = some s1 →
      (∀ j < k, ∀ y, (s.cluster cl).queue[j]? = some y → s.tryIssue cl j y = none) →
      exec (.tileTaskIssue cl) s = .next s1) ∧
    (∀ l, (s.cluster cl).forward = [] → (s.cluster cl).queue = t :: l → wrongClass cl t = true →
      (s.cluster (otherCluster cl)).queue.length < Config.tileQueue →
      exec (.tileTaskForward cl) s = .next (((s.setCluster cl { s.cluster cl with queue := l }).setCluster (otherCluster cl)
        ((s.cluster (otherCluster cl)).enqueue { t with forwarded := true })).count cMXFWD (cl / 4))) ∧
    ((s.tile tile).run = some t → s.engineRuns tile t = true →
      let kept := fun (s : State) (t : TileTask) => s.setTile tile { s.tile tile with run := some t }
      (t.stoppable = true →
        let n := if isNarrow t.words.toList then 64 else 32
        let a := n * t.ksteps
        let b := min (tK t.words.toList) (a + n)
        let failed := kept s { t with code := 3, skipped := 8192 }
        (s.operandWaits t.opA.lc = true ∨ s.operandWaits t.opB.lc = true →
          exec (.matrixKStep tile) s = .next ((s.callTile t.opA.lc).callTile t.opB.lc)) ∧
        (s.operandWaits t.opA.lc = false → s.operandWaits t.opB.lc = false →
          ∀ k, (s.tile tile).bankOf t.name t.lc t.level = some k →
            (((s.tile tile).bank k).bad = true → exec (.matrixKStep tile) s = .next failed) ∧
            (((s.tile tile).bank k).bad = false →
              (∀ g, pickAccess s.tick (t.unread a b) = some g →
                let as := span (16 * g) 16
                (s.anyBadCellar as = true → exec (.matrixKStep tile) s = .next (failed.meetCellarUe as)) ∧
                (s.anyBadCellar as = false → exec (.matrixKStep tile) s =
                  .next (kept s { t with seen := tput g (BitVec.ofNat 128 (s.readCellar as)) t.seen }))) ∧
              (t.unread a b = [] → ∀ data fl, accStep t a b ((s.tile tile).bank k).data = (data, fl) →
                ∃ s1, exec (.matrixKStep tile) s = .next s1 ∧
                (s1.tile tile).run = some { t with ksteps := t.ksteps + 1, flags := t.flags ||| fl } ∧
                (k < 2 → ((s1.tile tile).bank k).data = data) ∧ s1.mem = s.mem)))) ∧
      (t.code ≠ 0 → exec (.tileTaskComplete tile) s = .next (s.failTask tile t)) ∧
      (t.code = 0 → t.drain = false → tDrn t.words.toList = false → t.stoppable = false → exec (.tileTaskComplete tile) s =
        .next ((s.setTile tile { s.tile tile with run := none }).endTask tile (tile / 32) t (statusWord 0 false t.flags 0))) ∧
      (t.code = 0 → t.drain = true ∨ (tDrn t.words.toList = true ∧ t.stoppable = false) →
        let o := t.drainTo
        (s.operandWaits o.lc = true → exec (.matrixDrain tile) s = .next (s.callTile o.lc)) ∧
        (s.operandWaits o.lc = false → ∀ k, (s.tile tile).bankOf t.name t.lc t.level = some k →
          (((s.tile tile).bank k).bad = true →
            exec (.matrixDrain tile) s = .next (s.failTask tile { t with code := 3, skipped := 8192 })) ∧
          (((s.tile tile).bank k).bad = false →
            let data := ((s.tile tile).bank k).data
            let left := (span 0 (o.rows * o.perRow t)).filter fun g => !t.drained.contains g
            (left = [] → exec (.matrixDrain tile) s = .next (s.endDrain tile t (o.flags t data))) ∧
            (∀ g at_ bs, pickAccess s.tick left = some g → o.piece t data g = (at_, bs) →
              let as := span (cellarKey o.lc at_) bs.length
              let s1 := if s.storableCellar as then s.writeCellar as bs else s
              let t1 := { t with drained := g :: t.drained, skipped := t.skipped + (!s.storableCellar as).toNat }
              (left.length = 1 → exec (.matrixDrain tile) s = .next (s1.endDrain tile t1 (o.flags t data))) ∧
              (1 < left.length → exec (.matrixDrain tile) s = .next (kept s1 t1)))))))


/-! ### The steps of the part: translation, remote accesses, preemption -/

/-- Translation and leases (R195, R199 to R204). The lease clock of an active core rises by one. The misses of a page join
its walk, start one, or are refused and counted where 1152 are queued; a completed walk leaves the queue and
fills its waiters' TLBs with the leaf it finds, or brings them its fault, counted where it meets an uncorrectable entry.
A shootdown of a valid range marks its command busy and asks every holder; one of an invalid range ends with result
2; a holder that can acknowledge drops its overlapping translations; the last one completes the command with result
1. A tier migration sets mig and shoots the page down, copies the page, and writes the leaf with the new page and the
tier, its words' future states with it; a deferred future read in the page abandons it, and a port that fails before the copy
stops it (R16). -/
def Obligations.TranslationSteps : Prop :=
  ∀ (s : State) (lc die ctx k q holder tier ea l : Nat) (va pa e : Word) (w : Walk),
    (s.active lc = true → ∃ t, exec (.leaseTick lc) s = .next t ∧ (t.core lc).lease = (s.core lc).lease + 1 ∧
      (t.core lc).frames = (s.core lc).frames ∧ t.mem = s.mem ∧ ∀ n, n ≠ lc → t.core n = s.core n) ∧
    (let page := va.toNat % 2 ^ 56 / 65536
     let mine := fun m : Miss => m.die == die && m.ctx == ctx && m.page == page
     let ws := (s.mem.misses.filter mine).flatMap Miss.waiters
     let rest := s.mem.misses.filter fun m => !mine m
     (ws = [] → exec (.pageWalk die ctx va) s = .next s) ∧
     (ws ≠ [] → s.mem.walks.any (fun x => x.serves die ctx page) = true → exec (.pageWalk die ctx va) s =
       .next { s with mem := { s.mem with
         misses := rest, walks := s.mem.walks.map fun x => if x.serves die ctx page then { x with waiters := x.waiters ++ ws } else x } }) ∧
     (ws ≠ [] → s.mem.walks.any (fun x => x.serves die ctx page) = false →
       ((s.walksOf die).length < 1152 → exec (.pageWalk die ctx va) s =
         .next { s with mem := { s.mem with misses := rest, walks := s.mem.walks ++ [⟨die, ctx, page, ws, false⟩] } }) ∧
       (1152 ≤ (s.walksOf die).length → exec (.pageWalk die ctx va) s = .next (s.count cWALKQ die)))) ∧
    ((s.walksOf die)[k]? = some w → k < 128 →
      let s1 := { s with mem := { s.mem with walks := s.mem.walks.erase w } }
      (∀ x n t, s1.walkBy die w.ctx (w.page * 65536) = (.leaf x n, t) → exec (.walkComplete die k) s =
        .next (t.fillAll w.waiters w.ctx (w.page * 65536) x n)) ∧
      (∀ t, s1.walkBy die w.ctx (w.page * 65536) = (.addr, t) → ∃ u, exec (.walkComplete die k) s = .next u ∧
        u.mem.tlb = t.mem.tlb ∧ u.counters = s.counters ∧
        ∀ h ∈ w.waiters, h < 1024 ∨ 4096 ≤ h → ⟨h, w.ctx, w.page, ADDRESS⟩ ∈ u.mem.faults) ∧
      (∀ t, s1.walkBy die w.ctx (w.page * 65536) = (.data, t) → ∃ u, exec (.walkComplete die k) s = .next u ∧
        u.mem.tlb = t.mem.tlb ∧ u.counter cWALKUE die = satAdd (s.counter cWALKUE die) 1 ∧
        ∀ h ∈ w.waiters, h < 1024 ∨ 4096 ≤ h → ⟨h, w.ctx, w.page, DATA⟩ ∈ u.mem.faults)) ∧
    (q < 2 → let lg := sdLgsz (s.entry 9 q)
      (sdBusy (s.entry 9 q) = false → 16 ≤ lg → lg ≤ 56 → (s.entry 8 q).toNat % 2 ^ lg = 0 →
        ∃ t, exec (.shootdownGo q) s = .next t ∧ sdBusy (t.entry 9 q) = true ∧ bits (t.entry 9 q) 6 2 = 0 ∧
          tfind t.shootdowns q = some ⟨(s.entry 8 q).toNat, lg, sdCtx (s.entry 9 q), holders⟩ ∧
          ∀ x ∈ t.mem.walks, x.ctx = sdCtx (s.entry 9 q) → x.old = true) ∧
      (sdBusy (s.entry 9 q) = true ∨ lg < 16 ∨ 56 < lg ∨ (s.entry 8 q).toNat % 2 ^ lg ≠ 0 →
        ∃ t, exec (.shootdownGo q) s = .next t ∧ bits (t.entry 9 q) 6 2 = 2 ∧ t.shootdowns = s.shootdowns)) ∧
    (∀ x, tfind s.shootdowns q = some x → holder ∈ x.missing → s.mayAck holder x.ctx = true →
      ∃ t, exec (.shootdownAck q holder) s = .next t ∧
        (∀ y, y ∈ t.mem.tlb ↔ y ∈ s.mem.tlb ∧ ¬ (ackUnit y.holder = holder ∧ y.hits x.ctx x.va x.lgsz = true)) ∧
        (1056 ≤ holder → holder < 1064 → ∀ y ∈ t.mem.nonleaf, ¬ (y.die = holder - 1056 ∧ y.ctx = x.ctx)) ∧
        (x.missing.filter (· != holder) ≠ [] →
          tfind t.shootdowns q = some { x with missing := x.missing.filter (· != holder) }) ∧
        (x.missing.filter (· != holder) = [] → q < 2 → sdBusy (t.entry 9 q) = false ∧ bits (t.entry 9 q) 6 2 = 1)) ∧
    (sdBusy (s.entry 9 0) = true → exec (.tierMigration ctx va pa tier) s = .next s) ∧
    (sdBusy (s.entry 9 0) = false →
      (s.mem.migrations.find? fun m => m.ctx == ctx && inPage m.va (2 ^ m.lgsz) va.toNat) = none →
      bit (s.entry 11 ctx) 63 = true → s.leafAt va.toNat [0, 1, 2, 3] (bits (s.entry 11 ctx) 13 39 * 2 ^ 13) = some (ea, e, l) →
      let size := 2 ^ pageBits l
      let src := bits e 16 36 * 2 ^ 16
      let page := va.toNat / size * size
      pa.toNat % size = 0 → (pageChunks pa.toNat size).all (s.populated tier) = true →
      (pageChunks src size).any s.portFailed = false → (pageChunks pa.toNat size).any s.portFailed = false →
      exec (.tierMigration ctx va pa tier) s =
        .next (((s.setMem64 ea (setBits e 7 1 1)).shootPage ctx page (pageBits l)).setMigrations
          (s.mem.migrations ++ [⟨ctx, page, pageBits l, ea, src, pa.toNat, tier, 0⟩]))) ∧
    (∀ m, sdBusy (s.entry 9 0) = false →
      (s.mem.migrations.find? fun m => m.ctx == ctx && inPage m.va (2 ^ m.lgsz) va.toNat) = some m →
      let rest := s.mem.migrations.filter fun x => x != m
      let leaf := s.mem64 m.leaf
      let held := s.slices.any fun x => x.2.pantry.any fun d => inPage (s.physAddr m.src) (2 ^ m.lgsz) d.word
      let chunks := fun m : Migration => pageChunks m.src (2 ^ m.lgsz) ++ pageChunks m.dst (2 ^ m.lgsz)
      let stopped := fun m : Migration =>
        ((s.setMem64 m.leaf (setBits leaf 7 1 0)).shootPage m.ctx m.va m.lgsz).setMigrations rest
      (m.moved = 0 → held = true → exec (.tierMigration ctx va pa tier) s =
        .next ((stopped m).count cMIGABN (s.ctxPart m.ctx))) ∧
      (m.moved ≠ 0 ∨ held = false → m.moved < 2 ^ m.lgsz → (chunks m).any s.portFailed = true →
        exec (.tierMigration ctx va pa tier) s = .next (stopped m)) ∧
      (m.moved ≠ 0 ∨ held = false → m.moved < 2 ^ m.lgsz → (chunks m).any s.portFailed = false →
        s.isLocal [m.src] = true → s.isLocal [m.dst] = true →
        ∃ t, exec (.tierMigration ctx va pa tier) s = .next t ∧
          t.mem.bytes = moveCells s.mem.bytes (s.physAddr m.src) (s.physAddr m.dst) (2 ^ m.lgsz) ∧
          { m with moved := 2 ^ m.lgsz } ∈ t.mem.migrations) ∧
      (2 ^ m.lgsz ≤ m.moved → exec (.tierMigration ctx va pa tier) s =
        .next ((((s.moveFutures m).setMem64 m.leaf (setBits (setBits (setBits leaf 16 36 (m.dst / 2 ^ 16)) 8 2 m.tier) 7 1
          0)).shootPage m.ctx m.va m.lgsz).setMigrations rest)))

/-- Accesses from and to other modules and the host (R14, R19, R189, R190, R194, R222, R321). An access from a module of the
domain to a quarter is performed as its operation says and answered with its bytes; one that fails the checks is
rejected; one to local HBM likewise; a core's load at or above a watermark waits, and no store, atomic or engine access
does. An acknowledgement lowers the frame's stores in flight, with the class and address of the first that failed; a
response reaches the access that waits, one that is not ok as DATA; a rejected store is counted, a rejected load or atomic ends with ADDRESS. A completion performs the host
access and answers it, that of an atomic which is no AtomicOp in two accesses, which the front end repeats where the host has
stored in between (R41); an error or a timeout answers DATA and is
counted. -/
def Obligations.RemoteSteps : Prop :=
  ∀ (s : State) (src lc tlc off level tag : Nat) (addr : Word) (op : RemoteOp) (data : List Byte) (ok : Bool),
    (spaceOf addr (RemoteOp.bytes op) = .window s.devid.toNat tlc off → addr.toNat / 2 ^ 56 = 2 →
      let as := span (cellarKey tlc off) (RemoteOp.bytes op)
      let bs := gatherBytes s.mem.cellar as
      (s.admits tlc src = false → s.ownAccess src lc addr op = .reject) ∧
      (s.admits tlc src = true → s.mapped tlc = true → s.shut tlc = false → (op.isLoad = false ∨ 1024 ≤ lc ∨ s.armedAt tlc off (RemoteOp.bytes op) = false) →
        (isStore op = true → s.storableCellar (RemoteOp.stores op as) = true) → (isStore op = false → s.anyBadCellar as = false) →
        (∀ v, RemoteOp.apply op (leNat bs) = some v →
          s.ownAccess src lc addr op = .done true bs (s.writeCellar (RemoteOp.stores op as) (RemoteOp.values op v))) ∧
        (RemoteOp.apply op (leNat bs) = none → s.ownAccess src lc addr op = .done true bs s))) ∧
    (∀ p, addr.toNat / 2 ^ 56 ≠ 2 → s.region addr.toNat = .hbm p → s.populated 0 p = true →
      let as := span p (RemoteOp.bytes op)
      let bs := gatherBytes s.mem.bytes as
      as.any s.portFailed = false → (isStore op = true → s.storable (RemoteOp.stores op as) = true) →
      (isStore op = false → s.anyBad as = false) →
      (∀ v, RemoteOp.apply op (leNat bs) = some v → s.ownAccess src lc addr op =
        .done true bs ((s.homeWrite (RemoteOp.stores op as)).writeMem (RemoteOp.stores op as) (RemoteOp.values op v))) ∧
      (RemoteOp.apply op (leNat bs) = none → s.ownAccess src lc addr op = .done true bs s)) ∧
    (∀ y l, s.prog.rx = y :: l →
      let s1 := ({ s with prog := { s.prog with rx := l } } : State).setLink y.link ((s.link y.link).freed y.vc)
      (y.src = src → y.msg = .access lc level addr op →
        (∀ good bs t, s1.ownAccess src lc addr op = .done good bs t →
          exec (.remoteAccessArrival src lc addr op) s = .next (t.sendMsg src (.response lc level addr good bs))) ∧
        (s1.ownAccess src lc addr op = .reject →
          exec (.remoteAccessArrival src lc addr op) s = .next (s1.sendMsg src (.reject lc level addr))) ∧
        (s1.ownAccess src lc addr op = .wait → exec (.remoteAccessArrival src lc addr op) s = .next (s.callAt addr))) ∧
      (∀ r t, y.msg = .response lc level addr ok data → s1.takeRequest lc level addr = some (r, t) → r.lc < 4096 →
        (isStore r.op = true → exec (.remoteResponseArrival lc level ok data) s = .next (t.ackStore lc r.level (if ok then none else some (DATA, addr)))) ∧
        (isStore r.op = false → exec (.remoteResponseArrival lc level ok data) s =
          .next (t.answer r (if ok then .data data else .refused DATA)))) ∧
      (∀ r t, y.msg = .reject lc level addr → s1.takeRequest lc level addr = some (r, t) → r.lc < 4096 →
        (isStore r.op = true → exec (.remoteRejectArrival lc level addr) s =
          .next ((t.ackStore lc r.level (some (ADDRESS, addr))).count cWREJ (s.partOf lc))) ∧
        (isStore r.op = false → exec (.remoteRejectArrival lc level addr) s = .next (t.answer r (.refused ADDRESS))))) ∧
    (∀ r, tfind s.mem.hostReqs tag = some r →
      let s1 := { s with mem := { s.mem with hostReqs := tdel tag s.mem.hostReqs } }
      let as := span r.addr (RemoteOp.bytes r.op)
      let now := gatherBytes s.mem.bytes as
      let bs := r.old.getD now
      (r.old = none → s.hostBusy as = true → exec (.hostCompletionArrival tag .ok) s = .next s) ∧
      (r.old = none → s.hostBusy as = false → RemoteOp.whole r.op = false →
        exec (.hostCompletionArrival tag .ok) s = .next (s.addHostReq tag { r with old := some bs })) ∧
      (∀ o, r.old = some o → r.swaps = true → o ≠ now →
        exec (.hostCompletionArrival tag .ok) s = .next (s.addHostReq tag { r with old := some now })) ∧
      ((r.old ≠ none ∧ (r.swaps = true → r.old = some now)) ∨ (r.old = none ∧ s.hostBusy as = false ∧ RemoteOp.whole r.op = true) →
        (RemoteOp.apply r.op (leNat bs) = none → exec (.hostCompletionArrival tag .ok) s = .next (s1.answerHost tag r (.data bs))) ∧
        (∀ v, RemoteOp.apply r.op (leNat bs) = some v → exec (.hostCompletionArrival tag .ok) s =
          .next ((s1.hostWrite r.fn (RemoteOp.stores r.op as) (RemoteOp.values r.op v)).answerHost tag r (.data bs)))) ∧
      (∀ st, st ≠ .ok → exec (.hostCompletionArrival tag st) s =
        .next ((s1.answerHost tag r (.refused DATA)).count cHOSTERR 0)) ∧
      exec (.hostRequestTimeout tag) s = .next ((s1.answerHost tag r (.refused DATA)).count cHOSTERR 0))

/-- Preemption and kill (R140, R236 to R241, R245). A command in the state it needs, with none in progress, is accepted with
result 4, in another it ends with result 2. A halt whose cores all stand still stops them, flushes every progress buffer, keeps
the time and the journal's sequence for the image, and leaves the partition halted, counted in PREEMPTS. Save writes the image
once every remote store is acknowledged and leaves the
partition saved. Restore checks the image: one that is not this partition's ends with result 3; else the chosen
physical cores are mapped and loaded and the partition runs. Resume releases the cores in place. Kill drops what
belongs to the partition's slots in every state: frames, spilled, landed and travelling records, tile tasks, pantry and
holding-buffer entries; it completes once no store of a victim is out, counted in KILLS, and releases the cores. A command
beside another, and what a kill drops and waits for, are read as log entries 68 and 69 say. -/
def Obligations.PreemptSteps : Prop :=
  ∀ (s : State) (p : Nat) (phys : List Nat), p < 256 →
    let idle := s.partResult p ≠ 4
    let hit := s.slotIn p
    (idle → s.partState p = 0 → ∃ t, exec (.preemptHalt p) s = .next t ∧ t.partState p = 1 ∧ t.partResult p = 4) ∧
    (idle → s.partState p ≠ 0 → ∃ t, exec (.preemptHalt p) s = .next t ∧ t.partState p = s.partState p ∧ t.partResult p = 2 ∧
      t.cores = s.cores ∧ t.mem = s.mem) ∧
    (s.partState p = 1 → (∀ lc ∈ s.coresOf p, s.midway lc = false ∧ (s.core lc).strays = [] ∧ s.inMove lc = false) →
      (∀ x ∈ s.mem.flying, x.lc ∉ s.coresOf p) →
      ∃ t, exec (.preemptHaltComplete p) s = .next t ∧ t.partState p = 2 ∧ t.partResult p = 1 ∧
        (∀ lc ∈ s.coresOf p, (t.core lc).stopped = true ∧ (t.core lc).progress = [] ∧
          ((s.core lc).progress ≠ [] → ⟨1024 + lc, s.tileOf lc, (s.core lc).progress⟩ ∈ t.prog.batches)) ∧
        (t.preemption p).time = s.timestamp ∧ (t.preemption p).seq = s.lastSeq p ∧
        t.counter cPREEMPTS p = satAdd (s.counter cPREEMPTS p) 1) ∧
    (idle → s.partState p = 2 → (s.preemption p).cmd = 0 →
      (s.storesOut p = true → exec (.preemptSave p) s = .next (s.beginCmd p 2 2)) ∧
      (s.storesOut p = false → exec (.preemptSave p) s = .next (((s.beginCmd p 2 2).writeImage p).endCmd p 3 1))) ∧
    ((s.preemption p).cmd = 2 → s.storesOut p = false → exec (.preemptSave p) s = .next ((s.writeImage p).endCmd p 3 1)) ∧
    (idle → s.partState p = 2 → ∃ t, exec (.preemptResume p) s = .next t ∧ t.partState p = 0 ∧ t.partResult p = 1 ∧
      t.mem = s.mem ∧ ∀ lc ∈ s.coresOf p, (t.core lc).stopped = s.inMove lc ∧ (t.core lc).frames = (s.core lc).frames) ∧
    (idle → s.partState p = 3 → (s.preemption p).cmd = 0 →
      exec (.preemptRestore p phys) s = exec (.preemptRestore p phys) (s.beginCmd p 3 4)) ∧
    ((s.preemption p).cmd = 3 → let b := s.physByte (s.entry 7 p).toNat
      (s.imageOk p b = false → exec (.preemptRestore p phys) s = .next (s.endCmd p 3 3)) ∧
      (s.imageOk p b = true → s.freePhys (s.coresOf p) phys = true →
        exec (.preemptRestore p phys) s = .next (((s.readImage p b phys).releasePart p).endCmd p 0 1))) ∧
    (∃ t, exec (.preemptKill p) s = .next t ∧ t.partState p = 5 ∧ t.partResult p = 4 ∧
      (∀ lc, ∀ f ∈ (t.core lc).frames, hit f.graph (some f.ltime) = false) ∧
      (∀ lc, ∀ q ∈ (t.core lc).spill, hit q.rcd.graph (some q.rcd.q1) = false) ∧
      (∀ cl < 32, ∀ k ∈ (t.cluster cl).queue ++ (t.cluster cl).forward ++ t.onEngines cl, hit k.graph (some k.ltime) = false) ∧
      (∀ g st, st < 64 → ∀ x ∈ (t.landing g st).recs, hit g (some x.rcd.q1) = false) ∧
      (∀ x ∈ t.prog.flights, hit x.rcd.graph (some x.rcd.q1) = false) ∧
      (∀ n, ∀ d ∈ (t.slice n).pantry, hit d.succ.graph (some d.succ.q1) = false) ∧
      (∀ n, ∀ h ∈ (t.slice n).hold, ∀ g, h.graph = some g → hit g none = false)) ∧
    (s.partState p = 5 → s.victimStores p = false → ∃ t, exec (.killComplete p) s = .next t ∧ t.partState p = 6 ∧
      t.partResult p = 1 ∧ t.counter cKILLS p = satAdd (s.counter cKILLS p) 1 ∧ ∀ lc ∈ s.coresOf p, (t.core lc).stopped = false)


/-! ### The steps of the part: virtual command processors, packets, plug-ins, the host -/

/-- The control word, NOTIFY and the ring (R33 to R37, R39, R43). CTL is acted on as a NOTIFY is processed. Where no
reset of the function or of the VCP runs and the tail named is within the ring: a resume leaves an error that discards
nothing for the running state with its code and index 0, and an enable bit of 0 beside it disables the VCP; enable of a
disabled VCP whose ring is right starts it at head 0, and of one whose ring is not leaves BADPKT; enable 0 disables it
as soon as nothing is started; vreset gives the page its reset values once its ring has been read. A NOTIFY takes a
tail up to a ring's length ahead of done and makes a stale VCP run; a longer one is an OVERRUN error. The slot at head
is taken where its lap is right; a wrong lap is missed, and a missed one makes the VCP stale when the poll bound
expires, counted. -/
def Obligations.VcpControl : Prop :=
  ∀ (s : State) (f v : Nat) (x : Vcp), f < 64 → v < 16 → (s.func f).flr = false → s.vcp f v = x →
    (x.resetting = false → bit x.ctl 2 = false →
      (bit x.ctl 1 = true → bit x.ctl 0 = true → x.state = .error → x.discard = none →
        ahead (x.tail % 2 ^ 24) x.done ≤ 2 ^ x.lgsz → ∃ t, exec (.vcpResume f v) s = .next t ∧
        (t.vcp f v).state = .running ∧ (t.vcp f v).code = 0 ∧ (t.vcp f v).index = 0 ∧ bit (t.vcp f v).ctl 1 = false) ∧
      (bit x.ctl 1 = true → bit x.ctl 0 = false → x.state ≠ .disabled → x.started = [] → ∃ t,
        exec (.vcpResume f v) s = .next t ∧ (t.vcp f v).state = .disabled) ∧
      (bit x.ctl 0 = true → x.state = .disabled →
        (6 ≤ bits x.ringsz 0 5 → bits x.ringsz 0 5 ≤ 16 → s.ringOk f x.ringbase (bits x.ringsz 0 5) = true →
          ∃ t, exec (.vcpEnable f v) s = .next t ∧ (t.vcp f v).state = .running ∧ (t.vcp f v).head = 0 ∧ (t.vcp f v).done = 0 ∧
            (t.vcp f v).tail = 0 ∧ (t.vcp f v).base = x.ringbase ∧ (t.vcp f v).lgsz = bits x.ringsz 0 5) ∧
        (bits x.ringsz 0 5 < 6 ∨ 16 < bits x.ringsz 0 5 ∨ s.ringOk f x.ringbase (bits x.ringsz 0 5) = false →
          ∃ t, exec (.vcpEnable f v) s = .next t ∧ t = { s.meetRing f x with vcps := t.vcps } ∧
            t.vcp f v = { x with code := BADPKT, ctl := setBits x.ctl 1 2 0 })) ∧
      (bit x.ctl 0 = false → bit x.ctl 1 = false → x.state ≠ .disabled → ahead (x.tail % 2 ^ 24) x.done ≤ 2 ^ x.lgsz →
        ∃ t, exec (.vcpDisable f v) s = .next t ∧ (t.vcp f v).state =
          (if x.started = [] then .disabled else if x.state = .stale then .running else x.state) ∧
          ((t.vcp f v).closing = true ↔ x.started ≠ [])) ∧
      (∀ w : BitVec 32, s.service.tlps = [] → bit x.ctl 1 = false → bit x.ctl 0 = true → x.state ≠ .disabled →
        ∃ t, exec (.notify f v w) s = .next t ∧
          (ahead (w.toNat % 2 ^ 24) x.done ≤ 2 ^ x.lgsz → ahead x.tail x.done ≤ ahead (w.toNat % 2 ^ 24) x.done →
            (t.vcp f v).tail = w.toNat % 2 ^ 24 ∧ (t.vcp f v).state = (if x.state = .stale then .running else x.state)) ∧
          (2 ^ x.lgsz < ahead (w.toNat % 2 ^ 24) x.done →
            (t.vcp f v).state = .error ∧ (t.vcp f v).code = OVERRUN ∧ (t.vcp f v).tail = x.tail))) ∧
    (bit x.ctl 2 = true → x.resetting = false → let s0 := (s.cancelVcp f v).quietVcp f v
      let y := (s0.setVcp f v { s0.vcp f v with resetting := true }).wipeVcp f v
      exec (.vcpVreset f v) s = .next y.1 ∧ (y.2 = true → y.1.vcp f v = Vcp.reset)) ∧
    (x.resetting = true → exec (.vcpVreset f v) s = .next (s.wipeVcp f v).1 ∧
      ((s.wipeVcp f v).2 = true → (s.wipeVcp f v).1.vcp f v = Vcp.reset)) ∧
    (∀ bs t, s.vcpStarts f v = true → x.closing = false → x.state = .running → x.fetched = none → x.head ≠ x.tail →
      tfind x.restored x.head = none → let key := packetKey f v x.head
      s.fnRead f key (x.base.toNat + 64 * (x.seq % 2 ^ x.lgsz)) 64 needR = .ok bs t →
      ((recOfBytes bs).lap = lapOf x.seq x.lgsz → ∃ t1, exec (.packetFetch f v) s = .next t1 ∧
        t1.vcp f v = { x with fetched := some (recOfBytes bs), missed := false }) ∧
      ((recOfBytes bs).lap ≠ lapOf x.seq x.lgsz →
        exec (.packetFetch f v) s = .next ((t.forgetKey key).setVcp f v { x with missed := true }))) ∧
    (x.missed = true → x.state = .running → exec (.pollBoundExpire f v) s =
      .next (s.setVcp f v { x with state := .stale, stalecnt := x.stalecnt + 1, missed := false })) ∧
    (∀ p, 0 < tget 0 s.journalGap p → s.journalRoom p = true → s.journalMode p ≠ 0 → ∃ t, exec (.journalGapEntry p) s = .next t ∧
      tget 0 t.journalGap p = 0 ∧ tget 0 t.journalUsed p = tget 0 s.journalUsed p + 1)

/-- The packets (R40, R42 to R44, R49, R109, R126, R136): a well-formed packet at head that the barriers let start
and whose addresses are right starts and has its op's effect; one whose addresses are not ends with XLATE and no
effect. A COPY of length 0, a NOP and a LAUNCH of no records are over at once; a SIGNAL and a MARK end with their
access; a WAIT ends when its signals are 0 and aborts when one is negative; a CANCEL installs its mark; a packet
whose work is over completes. A slot that another module homes is asked of its home (log entry 111). The records of a LAUNCH
that passes its checks, with its plug-in calls made, are injected, behind the count of its root; one that fails a check is
refused, as is one whose records cannot be read. -/
def Obligations.PacketSteps : Prop :=
  ∀ (s : State) (f v : Nat) (x : Vcp) (p : Rec), f < 64 → v < 16 → s.vcp f v = x →
    (s.vcpStarts f v = true → x.fetched = some p → p.malformed = false → x.mayStart p = true →
      (∀ i, (i, p.op) ∈ [(Instr.nopPacket f v, 0), (.launchPacket f v, 1), (.copyPacket f v, 2), (.signalPacket f v, 3),
          (.waitPacket f v, 4), (.markPacket f v, 5), (.cancelPacket f v, 6)] → x.pending p.op = none →
        (∀ t, s.checkAddr f p.signalAt = .fault t → exec i s = .next (t.startPacket f v
          { Started.new x p with ending := some (.error XLATE, none), failed := p.signalAt })) ∧
        (∀ t, s.checkAddr f p.signalAt = .ok [] s → s.checkAddr f p.statusAt = .fault t → exec i s = .next (t.startPacket f v
          { Started.new x p with ending := some (.error XLATE, none), failed := p.statusAt }))) ∧
      (s.checkAddr f p.signalAt = .ok [] s → s.checkAddr f p.statusAt = .ok [] s →
        (p.op = 0 → exec (.nopPacket f v) s = .next (s.startPacket f v { Started.new x p with ending := some (.ok, none) })) ∧
        (p.op = 2 → exec (.copyPacket f v) s = .next (s.startPacket f v
          (if p.cLen = 0 then { Started.new x p with ending := some (.ok, some 0) } else Started.new x p))) ∧
        (p.op = 3 → x.pending 3 = none → exec (.signalPacket f v) s =
          .next ((s.startPacket f v (Started.new x p)).doSignal f v (Started.new x p))) ∧
        (p.op = 5 → x.pending 5 = none → exec (.markPacket f v) s =
          .next ((s.startPacket f v (Started.new x p)).doMark f v (Started.new x p))) ∧
        (p.op = 4 → exec (.waitPacket f v) s = .next ((s.startPacket f v (Started.new x p)).evaluate f v (Started.new x p))) ∧
        (p.op = 6 →
          let g := bits p.q4 0 4
          let limit := (s.root g).serial
          let m := (s.cancelOpen f p limit).length
          let q := { Started.new x p with matched := m, limit := limit }
          (s.cancelSlot f p = false → exec (.cancelPacket f v) s =
            .next (s.startPacket f v { q with ending := some (.ok, some 0) })) ∧
          (∀ t n, s.cancelSlot f p = true → s.install g p.cancelMark = (n, t) → n ≠ 2 →
            (s.homed g = true → exec (.cancelPacket f v) s =
              .next ((t.startPacket f v (if m = 0 then { q with ending := some (.ok, some 0) } else q)).settle g)) ∧
            (s.homed g = false → exec (.cancelPacket f v) s =
              .next ((t.startPacket f v q).sendMsg (s.homeOf g) (.matching g p.cancelMark.depth p.q3 f v s.tick))))) ∧
        (∀ c va t, p.op = 1 → s.launchRecords f (packetKey f v x.head) p = .fail c va t → exec (.launchPacket f v) s =
          .next ((t.forgetKey (packetKey f v x.head)).refuseLaunch f v x p c (some (ofN va)))) ∧
        (∀ l t, p.op = 1 → s.launchRecords f (packetKey f v x.head) p = .ok l t →
          let t1 := t.forgetKey (packetKey f v x.head)
          (∀ point, t1.launchPoint p = some point → t1.launchOk f p l = true → x.admitted = some true →
            firstUnmapped x.pmap l = none → exec (.launchPacket f v) s = .next (t1.acceptLaunch f v x p point l)) ∧
          ((∀ point, t1.launchPoint p = some point → t1.launchOk f p l = false) →
            exec (.launchPacket f v) s = .next (t1.refuseLaunch f v x p LIMIT))))) ∧
    (∀ q i, s.vcpRuns f v = true → x.started.find? (fun q => q.index == i && q.p.op == 4 && q.ending.isNone) = some q →
      x.state ≠ .suspended → q.proxy = [none, none, none] →
      exec (.waitEvaluate f v i) s = .next (s.evaluate f v q) ∧ exec (.waitPoll f v i) s = .next (s.evaluate f v q) ∧
      (∀ ws t, s.waitWords f (packetKey f v q.index) ([(q.p.q3, none), (q.p.q4, none), (q.p.q5, none)].take (bits q.p.q6 0 2)) = .ok ws t →
        let t1 := t.forgetKey (packetKey f v q.index)
        ((∃ w ∈ ws, w.toInt < 0) → s.evaluate f v q = t1.abortWait f v q ABORT) ∧
        ((∀ w ∈ ws, w = 0) → s.evaluate f v q = t1.packetOver f v q.index .ok none))) ∧
    (∀ q i g r t, s.vcpRuns f v = true → x.started.find? (fun q => q.index == i && q.p.op == 2 && q.ending.isNone) = some q →
      q.canMove g = true → let holder := quayHolder (copyKey f v i)
      s.quayGranule f (granuleKey f v i g) holder q g = (some r, t) → let t1 := t.forgetKey (granuleKey f v i g)
      exec (.quayCopyGranule f v i g) s = .next ((if r.ending.isSome then t1.dropHolder holder else t1).setStarted f v r)) ∧
    (∀ q i e w, x.started.find? (fun q => q.index == i) = some q → (s.func f).flr = false → x.resetting = false →
      q.ending = some (e, w) → exec (.packetComplete f v i) s = .next (s.completePacket f v q e w)) ∧
    (∀ q i, x.started.find? (fun q => q.index == i) = some q → (s.func f).flr = false → x.resetting = false →
      q.ending = none → q.p.op = 6 → s.homed (bits q.p.q4 0 4) = true →
      s.cancelOpen f q.p q.limit = [] → exec (.packetComplete f v i) s = .next (s.completePacket f v q .ok (some (ofN q.matched)))) ∧
    (∀ q dev tenant key packet records point y s0, q < 2 → tenant < 256 → Rec.ofWords packet = p → s.fnOf p.lGraph = f →
      s.takeRx (fun x => x.src == dev && x.link / 12 == q && x.msg == .launch tenant key packet records) (fun _ => false) =
        some (y, s0) →
      let l := records.map Rec.ofWords
      (s.tenantOk tenant key p l = false → exec (.externalLaunch q dev tenant key packet records) s =
        .next (s0.turnAway q dev tenant)) ∧
      (s.tenantOk tenant key p l = true → s.launchPoint p = some point →
        let busy := s.externBusy f dev (.launch tenant key packet records)
        (busy = true → exec (.externalLaunch q dev tenant key packet records) s = .next s) ∧
        (busy = false → (s.func f).admitted = some false →
          exec (.externalLaunch q dev tenant key packet records) s = .next ((s0.clearCalls f).turnAway q dev tenant)) ∧
        (busy = false → (s.func f).admitted = some true →
          firstUnmapped (s.func f).pmap l = none → s0.injected p (s.func f).pmap l ≠ [] →
          exec (.externalLaunch q dev tenant key packet records) s = .next ((s0.clearCalls f).inject p point none
            (s0.injected p (s.func f).pmap l) 5 f 255 (ofN (dev + tenant * 256)))))) ∧
    (∀ g point packet l kind (w : Word), p.lGraph = g → s.homed g = true → s.inject p point packet l kind f v w =
      l.foldl (fun s r => s.dispatch kind f v w r)
        (s.countLaunch g p.lStation p.q5 point l.length s.devid.toNat packet))

/-- Plug-in calls (R55, R56). The oldest raised call of a plug-in that can be called is made: its arguments stand from
s1 on, and `eret` enters the plug-in's entry at plug-in level. A result that has come back is taken: ADMIT's 0 lets the
LAUNCH in, PMAP's 1 to cap grants that level and any other the requested one lowered to cap, LWEIGHT's up to 255 sets
the landing's weight, OPVOTE's below 16 votes; a fault keeps the LAUNCH out and is counted. A call that runs over its
budget is ended and counted, and the scheduler has the core back; the 16th failure in a row disables the plug-in. -/
def Obligations.PluginCalls : Prop :=
  ∀ (s : State) (f v level g st p n core : Nat) (w ts : Word) (x : Plugin) (c : Call) (l : List Call), v < 16 → core < 16 →
    s.plugin n = x → x.queue = c :: l →
    (x.usable = true → x.busy = false → (s.fe core).priv = 1 → (s.fe core).released = true → (s.fe core).halted = false →
      let t := s.makeCall n core
      (t.fe core).priv = 0 ∧ (t.fe core).prev = 0 ∧ (t.fe core).epc.toNat = (Config.callEntry x.entry c.what.code).toNat / 4 * 4 ∧
        (t.fe core).h.pc = (Config.callEntry x.entry c.what.code).toNat / 4 ∧
        (∀ i < 31, ∀ a, c.args[i]? = some a → (t.fe core).h.regs.toList.getD (i + 1) 0 = a) ∧
        t.plugin n = { x with running := some (core, (s.fe core).cycle) } ∧ t.mem = s.mem) ∧
    (x.returned = some (.value w) →
      (s.fnPlug f = n → c.what = .letIn f v → ∃ t, exec (.admitCall f v (.value w)) s = .next t ∧
        (t.vcp f v).admitted = some (w == 0) ∧
        t.plugin n = { x with queue := l, running := none, returned := none, failures := 0 }) ∧
      (s.fnPlug f = n → c.what = .pmap f v level → ∃ t, exec (.pmap f v level (.value w)) s = .next t ∧
        tfind (t.vcp f v).pmap level = some (if 1 ≤ w.toNat ∧ w.toNat ≤ x.cap then w.toNat else min level x.cap) ∧
        t.plugin n = { x with queue := l, running := none, returned := none, failures := 0 }) ∧
      (s.fnPlug (s.fnOf g) = n → c.what = .lweight g st → w.toNat ≤ 255 →
        ∃ t, exec (.lweight g st (.value w)) s = .next t ∧ bits (t.entry 5 (64 * g + st)) 0 8 = w.toNat ∧ t.prog = s.prog) ∧
      (s.partPlug p = some n → c.what = .opvote p → w.toNat < 16 → ∃ t, exec (.opvote p (.value w)) s = .next t ∧
        tfind t.power.votes p = some w.toNat)) ∧
    (x.returned = some .fault → s.fnPlug f = n → c.what = .letIn f v → ∃ t, exec (.admitCall f v .fault) s = .next t ∧
      (t.vcp f v).admitted = some false ∧ (t.plugin n).failures = x.failures + 1) ∧
    (x.running = some (core, ts) → Config.callBudget c.what.code < ((s.fe core).cycle - ts).toNat →
      ∃ t, exec (.pluginBudgetOverrun n) s = .next t ∧ (t.fe core).priv = 1 ∧ (t.plugin n).failures = x.failures + 1 ∧
        ((t.plugin n).disabled = true ↔ (x.disabled = true ∨ 16 ≤ x.failures + 1)) ∧
        (t.plugin n).queue = (if x.disabled = true ∨ 16 ≤ x.failures + 1 then [] else l) ∧
        (c.what = .letIn f v → (t.vcp f v).admitted = some false))

/-- The host's accesses (R31, R32, R45, R110, R220): BAR2 writes reach the fields the host owns and no other; BAR0 and
BAR2 reads give the registers and change nothing, but that a read of BARERR clears it; BAR4 accesses that translate read
and write the function's memory, others read all ones or are discarded and are counted in BARERR; WINBASE keeps 64 KiB
alignment; the MSI-X table holds what is written. A write that comes behind one that waits is queued behind it, and a read waits
for both. A function-level reset stops packets and a save or restore of the function and,
once its writes have gone and its rings have been read, resets every VCP, counted; a job cancel is counted once its writes have
gone. -/
def Obligations.HostSteps : Prop :=
  ∀ (s : State) (f off n : Nat) (data : List Byte) (w : Word), f < 64 →
    (s.bar0Word f 0 = ofN (f * 2 ^ 16 + 16 * 2 ^ 8 + 1) ∧ s.bar0Word f 8 = s.boot.modstat.zeroExtend 64 ∧
      s.bar0Word f 0x10 = (s.func f).winbase ∧ (f ≠ 0 → ∀ k, 0x3000 ≤ k → s.bar0Word f k = 0)) ∧
    (s.service.tlps ≠ [] →
      (∀ (i : Instr) (x : Tlp) (v : Nat) (u : BitVec 32), (i, x) ∈ [(Instr.bar2Write f off data, Tlp.bar2 f off data),
          (.bar4Write f off data, .bar4 f off data), (.notify f v u, .notify f v u), (.registerWrite f off w, .register f off w)] →
        exec i s = .next (s.setService { s.service with tlps := s.service.tlps ++ [x] })) ∧
      ∀ i ∈ [Instr.bar2Read f off n, .bar4Read f off n, .barerrRead f], exec i s = .next s) ∧
    (s.service.tlps = [] →
      exec (.bar2Read f off n) s = .next (if off + n ≤ 0x10000 then s.hostReads (s.bar2Bytes f off n) else s) ∧
      (∀ (v k : Nat) (b : Byte), v < 16 → k < 4096 → s.journalMode (s.fnPart f) ≠ 2 →
        ∃ t, exec (.bar2Write f (0x1000 * v + k) [b]) s = .next t ∧
        t.vcp f v = (s.vcp f v).putByte k b ∧ t.mem = s.mem ∧
        (32 ≤ k → t.vcp f v = s.vcp f v) ∧ ((t.vcp f v).state = (s.vcp f v).state ∧ (t.vcp f v).head = (s.vcp f v).head)) ∧
      (0 < n → off + n ≤ 2 ^ 36 →
        (∀ c, s.barSpan f off n needR = .trap c → exec (.bar4Read f off n) s =
          .next (((s.meetBar f off).barFail f).hostReads (List.replicate n 0xFF))) ∧
        (∀ l t, s.barSpan f off n needR = .pas l t → ((s.func f).winbase.toNat + off) % 65536 + n ≤ 65536 → t.isLocal l = true →
          exec (.bar4Read f off n) s = .next (((t.meetUe l).forgetKey (readKey f off)).hostReads (t.barBytes l)) ∧
          (t.anyBad l = false → l.any t.portFailed = false → t.barBytes l = gatherBytes t.mem.bytes l))) ∧
      (data ≠ [] → off % 64 + data.length ≤ 64 → off + data.length ≤ 2 ^ 36 →
        (∀ c, s.barSpan f off data.length needW = .trap c → exec (.bar4Write f off data) s =
          .next ((s.meetBar f off).barFail f)) ∧
        (∀ t, s.barSpan f off data.length needW = .wait t → exec (.bar4Write f off data) s =
          .next (t.setService { t.service with tlps := [.bar4 f off data] })) ∧
        (∀ l t, s.barSpan f off data.length needW = .pas l t → t.journalMode (t.fnPart f) ≠ 2 →
          (∀ p, t.region (l.headD 0) = .hbm p → l.any t.portFailed = false → t.storable l = true →
            exec (.bar4Write f off data) s = .next ((t.homeWrite l).writeMem l data)) ∧
          (∀ d o, t.region (l.headD 0) = .remote d o → exec (.bar4Write f off data) s =
            .next (t.addRemote ⟨4096 + barKey f, 0, ofN (l.headD 0), .store data⟩)) ∧
          (t.region (l.headD 0) = .host → t.hostBusy l = false →
            exec (.bar4Write f off data) s = .next (t.hostWrite f l data)))) ∧
      exec (.barerrRead f) s = .next ((s.hostReads (leBytes 4 (s.func f).barerr.toNat)).setFunc f { s.func f with barerr := 0 }) ∧
      (∃ t, exec (.registerWrite f 0x10 w) s = .next t ∧ (t.func f).winbase = w &&& 0xFFFFFFFFFFFF0000 ∧
        ∀ g, g ≠ f → t.func g = s.func g) ∧
      (∀ k, k < 34 → exec (.registerWrite f (0x2000 + 8 * k) w) s =
        .next (s.setFunc f { s.func f with msix := tput k w (s.func f).msix }))) ∧
    (∃ t, exec (.flrInitiate f) s = .next t ∧ (t.func f).flr = true ∧ t.service.migVf ≠ some f ∧ t.service.restoring ≠ some f) ∧
    ((s.func f).flr = true → s.writesOut f = false → let r := s.wipeVcps f (span 0 16)
      (r.2 = true → (∀ v < 16, r.1.vcp f v = Vcp.reset) ∧ let t := r.1.clearCalls f
        exec (.flrComplete f) s = .next ((t.setFunc f { t.func f with flr := false, cancelling := false, winbase := 0 }).count
          cKILLS (s.fnPart f))) ∧
      (r.2 = false → exec (.flrComplete f) s = .next r.1)) ∧
    exec (.jobCancel f) s = .next (let s1 := if (s.func f).cancelling then s else s.cancelJob f
      if s1.writesOut f then s1.setFunc f { s1.func f with cancelling := true }
      else (s1.setFunc f { s1.func f with cancelling := false }).count cKILLS (s.fnPart f))

/-- Live migration and attestation (R6, R46 to R48, R59, R61, R62): a command of a function that may not be saved or
restored ends with result 3, one in the wrong state with result 6, and one beside a save or a restore that is in progress with
result 2; a save that starts stops the function's packets with result 5; the image is written once only waiting WAITs
are left, with their packets and proxies, and ends with result 2 where a proxy is busy and 4 where the buffer does not take it;
a restore reads its image with result 5 and then gives each saved VCP as the image has it, suspended, or ends with result 4; a
resume gives every suspended VCP back its state and evaluates its WAITs. A
report's command over a buffer that fits is taken with result 5, one of a bad function ends with 2, over a bad buffer with 3,
and beside another with 4 (which fn is bad, and what is looked at first: log entry 112); with a monitor that runs the report's
body and its signature, or the certificate's length and bytes, reach the buffer, with result 1. What a failed read of an image
and of a nonce comes to is the model's choice (log entries 76, 112). -/
def Obligations.MigrationAndAttestation : Prop :=
  ∀ (s : State) (w : BitVec 32) (f : Nat), f = w.toNat / 2 ^ 24 % 64 →
    let s1 := { s with service := { s.service with migcmd := migFields w s.service.migcmd } }
    (s.service.migVf = none → s.service.restoring = none →
      (w.toNat / 2 ^ 30 = 1 → f ≠ 0 → s.bound f = true → ∃ t, exec (.migSuspendSave w) s = .next t ∧ t.migResult = 5 ∧
        t.service.migVf = some f ∧ t.service.migDst = w.toNat / 2 ^ 17 % 128 ∧ t.vcps = s.vcps ∧ t.mem = s.mem) ∧
      (w.toNat / 2 ^ 30 = 1 → f = 0 ∨ s.bound f = false → exec (.migSuspendSave w) s = .next (s1.setMig 3)) ∧
      (w.toNat / 2 ^ 30 = 2 →
        (f = 0 ∨ s.bound f = false → exec (.migRestore w) s = .next (s1.setMig 3)) ∧
        (f ≠ 0 → s.bound f = true → (∃ v, v < 16 ∧ (s.vcp f v).state ≠ .disabled) →
          exec (.migRestore w) s = .next (s1.setMig 6)) ∧
        (f ≠ 0 → s.bound f = true → (∀ v < 16, (s.vcp f v).state = .disabled) → ∃ t, exec (.migRestore w) s = .next t ∧
          t.migResult = 5 ∧ t.service.restoring = some f ∧ t.service.imageAt = 0 ∧ t.service.image = [] ∧ t.vcps = s.vcps)) ∧
      (w.toNat / 2 ^ 30 = 3 → let vs := (span 0 16).filter fun v => (s.vcp f v).state == .suspended
        (vs = [] → exec (.migResume w) s = .next (s1.setMig 6)) ∧
        (vs ≠ [] → let s2 := vs.foldl (fun s v => s.setVcp f v (s.vcp f v).unsuspend) s1
          exec (.migResume w) s = .next (((vs.flatMap fun v => (s2.vcp f v).waits.map fun q => (v, q)).foldl (fun s x =>
            if x.2.ending.isNone then s.evaluate f x.1 x.2 else s) s2).setMig 1) ∧
          ((∀ v ∈ vs, (s.vcp f v).waits = []) → ∃ t, exec (.migResume w) s = .next t ∧ t.migResult = 1 ∧
            (∀ v < 16, t.vcp f v = (s.vcp f v).unsuspend) ∧ t.mem = s.mem)))) ∧
    (s.service.restoring = some f → let k := s.service.imageAt
      (s.migNeed ≤ 64 * k →
        (s.migImageOk = false → s.migStep = s.endMig 4) ∧
        (s.migImageOk = true → s.migStep.migResult = 1 ∧ s.migStep.service.restoring = none ∧ s.migStep.mem = s.mem ∧
          ∀ v < 16, s.migStep.vcp f v = if bit (s.migWord 8) v then s.migVcp v else s.vcp f v)) ∧
      (∀ bs t, 64 * k < s.migNeed → s.reach 0 (bufferKey 0) (hostPa s.service.migbuf + 64 * k) 0 (.load 64) = .ok bs t →
        s.migStep.service.imageAt = k + 1 ∧ s.migStep.service.image = mput 0 k (leNat bs) t.service.image)) ∧
    (s.service.migVf.isSome = true ∨ s.service.restoring.isSome = true →
      (w.toNat / 2 ^ 30 = 1 → exec (.migSuspendSave w) s = .next (s1.setMig 2)) ∧
      (w.toNat / 2 ^ 30 = 2 → exec (.migRestore w) s = .next (s1.setMig 2)) ∧
      (w.toNat / 2 ^ 30 = 3 → exec (.migResume w) s = .next (s1.setMig 2))) ∧
    (s.service.migVf = some f →
      let vs := (span 0 16).filter fun v => (s.vcp f v).state != .disabled
      let waits := vs.flatMap fun v => (s.vcp f v).waits.map fun q => (v, q)
      ((∃ v ∈ vs, (s.vcp f v).savable = false) → exec .migSaveImageWrite s = .next s) ∧
      (∀ ps t, (∀ v ∈ vs, (s.vcp f v).savable = true) → s.savedPackets f vs = .ok ps t →
        (∀ t1, t.proxies f t.service.migDst waits = .busy t1 → exec .migSaveImageWrite s = .next (t1.endMig 2)) ∧
        (∀ ws t1, t.proxies f t.service.migDst waits = .ok ws t1 →
          let n := 0x11000 + 128 * ps.length + 64 * ws.length
          let fits := n ≤ t1.service.miglen.toNat ∧ t1.service.migbuf.toNat % 65536 = 0 ∧ hostFits t1.service.migbuf n = true
          (fits → exec .migSaveImageWrite s = .next ((t1.writeMig f vs ps ws).endMig 1)) ∧
          (¬ fits → exec .migSaveImageWrite s = .next (t1.endMig 4)))) ∧
      (vs = [] → s.savedPackets f vs = .ok [] s ∧ s.proxies f s.service.migDst waits = .ok [] s)) ∧
    (let s2 := { s with service := { s.service with attcmd := BitVec.ofNat 32 (f * 2 ^ 24 + s.attResult) } }
     let ok := fun n => s.service.attbuf.toNat % 64 = 0 ∧ hostFits s.service.attbuf n = true
     (s.service.attBusy = false →
      (w.toNat / 2 ^ 30 = 1 →
        (s.bound f = false → exec (.attReport w) s = .next (s2.setAtt 2)) ∧
        (s.bound f = true → ¬ ok 512 → exec (.attReport w) s = .next (s2.setAtt 3)) ∧
        (s.bound f = true → ok 512 → ∃ t, exec (.attReport w) s = .next t ∧ t.attResult = 5 ∧ t.service.attBusy = true ∧
          t.service.attFn = some f ∧ t.vcps = s.vcps ∧ t.mem = s.mem)) ∧
      (w.toNat / 2 ^ 30 = 2 →
        (¬ ok certBytes.length → exec (.attReadCertificate w) s = .next (s2.setAtt 3)) ∧
        (ok certBytes.length → ∃ t, exec (.attReadCertificate w) s = .next t ∧ t.attResult = 5 ∧ t.service.attBusy = true ∧
          t.service.attFn = none ∧ t.mem = s.mem))) ∧
     (s.service.attBusy = true →
      (w.toNat / 2 ^ 30 = 1 → exec (.attReport w) s = .next (s2.setAtt 4)) ∧
      (w.toNat / 2 ^ 30 = 2 → exec (.attReadCertificate w) s = .next (s2.setAtt 4)) ∧
      (s.monitorRuns = false → exec .attComplete s = .next s) ∧
      (s.monitorRuns = true →
        (s.service.attFn = none → exec .attComplete s = .next ((s.putBuffer certBytes).endAtt 1)) ∧
        (∀ g nonce t, s.service.attFn = some g →
          s.reach 0 (bufferKey 1) (hostPa s.service.attbuf) 0 (.load 32) = .ok nonce t → let b := t.reportBody g nonce
          exec .attComplete s = .next (((t.forgetKey (bufferKey 1)).putBuffer (b ++ ecdsaSign (hashBytes (sha384 b)))).endAtt 1)) ∧
        (∀ g t, s.service.attFn = some g → s.reach 0 (bufferKey 1) (hostPa s.service.attbuf) 0 (.load 32) = .bad t →
          exec .attComplete s = .next ((t.forgetKey (bufferKey 1)).endAtt 3)))))


/-! ### The steps of the part: registers, power, rotation, boot, links -/

/-- Writes and reads of registers by the steps of the part (R5, R6, R24, R25, R29, R70, R81, R254, R258, R404):
a read of a counter clears it; a front-end table takes the writable bits of a write that its rule lets through and
keeps the others, and a refused write changes nothing; FEDATA writes the entry FESEL names, but at plug-in level; the
logical-to-physical master follows its rules; an acknowledgement of hold is no longer missing; OPREQ takes a request;
an explicit request within the floor, the cap and the power is granted, one outside them is denied and counted; SEED
loads the generator; an access to FPSTAT lets the sequencer's next chunk run. -/
def Obligations.RegisterSteps : Prop :=
  ∀ (s : State) (code inst tbl idx lc stop k watts milliwatts : Nat) (w : Word) (auto : Bool) (op : Fin 16),
    (code < 4096 → inst < 4096 → ∃ t, exec (.counterReadClear code inst) s = .next t ∧
      t.counter code inst = 0 ∧ (s.feRead 16 (code * 4096 + inst)).1 = (s.counter code inst).setWidth 64 ∧
      ∀ c i, c < 4096 → i < 4096 → (c, i) ≠ (code, inst) → t.counter c i = s.counter c i) ∧
    (idx < feSize tbl → tbl ∉ [3, 6, 9, 12, 14, 16, 24] →
      (s.feOk tbl idx w = true → s.feWrite tbl idx w = s.setEntry tbl idx
        ((s.entry tbl idx &&& ~~~(BitVec.ofNat 64 (feMask tbl idx))) ||| (w &&& BitVec.ofNat 64 (feMask tbl idx)))) ∧
      (s.feOk tbl idx w = false → s.feWrite tbl idx w = s)) ∧
    (s.agent = .fe k → (s.fe k).priv ≠ 0 → exec (.fedataWrite w) s =
      .next (s.feWrite ((s.fe k).sel.toNat / 2 ^ 24) ((s.fe k).sel.toNat % 2 ^ 24) w)) ∧
    (lc < 1024 →
      (s.l2pOk lc w = false → exec (.l2pWrite lc w) s = .next s) ∧
      (s.l2pOk lc w = true → ∃ t, exec (.l2pWrite lc w) s = .next t ∧ bits (t.entry 12 lc) 0 10 = bits w 0 10 ∧
        bit (t.entry 12 lc) 15 = bit w 15 ∧ bit (t.entry 12 lc) 14 = bit w 14)) ∧
    (∀ x, (s.die (s.dieOf lc)).swap = some x → x.phase = .holding →
      ((x.needs ++ (x.single.map fun y => s.tileOf y.1).toList).contains stop && s.earlyAt stop) = false →
      exec (.l2pHoldAck lc stop) s =
      .next (s.setDie (s.dieOf lc) { s.die (s.dieOf lc) with
        swap := some { x with missing := x.missing.filter (· != ackKey lc stop) } })) ∧
    (∃ t, exec (.opreqWrite lc auto op) s = .next t ∧ (t.core lc).opreq = BitVec.ofNat 5 (auto.toNat * 16 + op.val) ∧
      (auto = false → (t.core lc).opresult = 1) ∧ (auto = true → (s.core lc).opresult = 1 → (t.core lc).opresult = 0) ∧
      ∀ n, n ≠ lc → t.core n = s.core n) ∧
    ((s.core lc).opresult = 1 → let r := (s.core lc).opreq.toNat % 16
      (r < s.opFloor (s.partOf lc) → exec (.opreqDecide lc watts milliwatts) s = .next (s.denyOpreq lc 3)) ∧
      (s.opFloor (s.partOf lc) ≤ r → s.opCap (s.partOf lc) < r → exec (.opreqDecide lc watts milliwatts) s = .next (s.denyOpreq lc 4)) ∧
      (s.opFloor (s.partOf lc) ≤ r → r ≤ s.opCap (s.partOf lc) → (s.core lc).eff < r → s.overEstimate lc (1000 * watts + milliwatts) r = true →
        exec (.opreqDecide lc watts milliwatts) s = .next (s.denyOpreq lc 5)) ∧
      (s.opFloor (s.partOf lc) ≤ r → r ≤ s.opCap (s.partOf lc) → r ≤ (s.core lc).eff ∨ s.overEstimate lc (1000 * watts + milliwatts) r = false → ∃ t,
        exec (.opreqDecide lc watts milliwatts) s = .next t ∧ (t.core lc).eff = r ∧ (t.core lc).opresult = 2)) ∧
    (∀ k, s.agent = .fe k → exec (.seedWrite w) s = .next (s.setFe k { s.fe k with h := { (s.fe k).h with
      seed := w, gen := if w = 0 then 0x9E3779B97F4A7C15 else w } })) ∧
    (∀ f, s.goesOn lc = true → s.top lc = some f →
      (f.seq ≠ [] → exec (.fpstatAccess lc) s = .next (s.seqStep lc)) ∧ (f.seq = [] → exec (.fpstatAccess lc) s = .next s))

/-- Power, rails, sleep and currents (R66 to R79). A sample of a die asks for the votes, takes the requests of its auto
cores and lets its rails follow. Three samples above PWRCAP force every tile to the frequency of OP0, counted, until the
power is below 95 percent of it. A rail that rises settles at its need; its hold ends, once its tiles run slowly enough,
in a descent to its need; a descent ends at its goal. A tile rests at its depth once it has entered it, starts to wake
when something has come for it, through the in-rush arbiter where it is deep, counted where it has to wait for a grant, and is awake when the wake is complete.
A frequency switch finishes at a point that the rail still supplies. What places an unmapped tile at D3 and in what order the
droops of a rail are throttled are the model's choices (log entry 94). Each droop throttles a rail's matrix engines for a time; a starting engine enables one group of columns after another. -/
def Obligations.PowerSteps : Prop :=
  ∀ (s : State) (die tile rail : Nat) (deep : Bool),
    (die < 8 → let lcs := (span (32 * die) 32).flatMap s.coresOn
      exec (.powerGovernorSample die) s = .next ((span (8 * die) 8).foldl (fun s r => s.retune r)
        (lcs.foldl (fun s lc => s.sampleCore lc) (s.askVotes lcs)))) ∧
    (3 ≤ s.power.above → s.power.forced = false → s.overCap = true → ∃ t, exec .powerTrip s = .next t ∧ t.power.forced = true ∧
      (∀ x, t.wantedOp x = 0) ∧ t.counter cPWRTRIP 0 = satAdd (s.counter cPWRTRIP 0) 1) ∧
    (s.power.forced = true → 100 * s.power.watts < 95 * (s.entry 2 0).toNat → ∃ t, exec .powerTripEnd s = .next t ∧
      t.power.forced = false ∧ t.power.above = 0) ∧
    (rail < 64 → s.railNow rail < s.railNeed rail → ∃ t, exec (.railSettle rail) s = .next t ∧
      (t.rail rail).code = s.railNeed rail ∧ (t.rail rail).goal = none ∧ (t.rail rail).holding = false ∧
      (t.rail rail).setter = some (s.highestVoter rail)) ∧
    ((s.rail rail).holding = true → s.railFollowed rail = true → ∃ t, exec (.railHoldExpire rail) s = .next t ∧
      (t.rail rail).holding = false ∧ (t.rail rail).code = (s.rail rail).code ∧
      (t.rail rail).goal = if s.railNeed rail < (s.rail rail).code then some (s.railNeed rail) else none) ∧
    (∀ g, (s.rail rail).goal = some g → ∃ t, exec (.railDescentStop rail) s = .next t ∧ (t.rail rail).code = g ∧
      (t.rail rail).goal = none ∧ ((t.rail rail).holding = true ↔ s.railNeed rail < g)) ∧
    (∀ n, (s.tile tile).switching = some n →
      (opCode n ≤ s.railNow (tile / 4) → exec (.frequencySwitchComplete tile) s =
        .next (s.setTile tile { s.tile tile with cur := n, switching := none })) ∧
      (s.railNow (tile / 4) < opCode n → exec (.frequencySwitchComplete tile) s =
        .next ((s.setTile tile { s.tile tile with switching := none }).switchTile tile))) ∧
    (tile < 256 → s.tileIdle tile = true → s.allowsDepth tile (if deep then 2 else 1) = true →
      ((s.tile tile).sleep = .awake → exec (.sleepHoldExpire tile deep) s =
        .next (s.setTile tile { s.tile tile with sleep := .entering 0 (if deep then 2 else 1) })) ∧
      ((s.tile tile).sleep = .asleep 1 → deep = true → exec (.sleepHoldExpire tile deep) s =
        .next (s.setTile tile { s.tile tile with sleep := .entering 1 2 }))) ∧
    (∀ k d, (s.tile tile).sleep = .entering k d → ∃ t, exec (.sleepEntryComplete tile) s = .next t ∧
      (t.tile tile).sleep = .asleep d ∧ t.mem.bytes = s.mem.bytes ∧ t.cores = s.cores) ∧
    (tile < 256 → s.coresOn tile = [] → (s.tile tile).sleep.rests = true → s.tileIdle tile = true → (∀ b ∈ (s.tile tile).banks.toList, b.tag = none) →
      ∃ t, exec (.sleepD3Enter tile) s = .next t ∧ (t.tile tile).sleep = .asleep 3) ∧
    (∀ d, s.tileIdle tile = false → (s.tile tile).sleep = .asleep d →
      (d < 2 → exec (.tileWake tile) s = .next (s.setTile tile { s.tile tile with sleep := .waking d })) ∧
      (2 ≤ d → (s.rail (tile / 4)).grants.length < 2 → (s.rail (tile / 4)).waiters = [] →
        ∃ t, exec (.tileWake tile) s = .next t ∧ (t.tile tile).sleep = .waking d ∧
          (t.rail (tile / 4)).grants = (s.rail (tile / 4)).grants ++ [tile]) ∧
      (2 ≤ d → 2 ≤ (s.rail (tile / 4)).grants.length ∨ (s.rail (tile / 4)).waiters ≠ [] → ∃ t,
        exec (.tileWake tile) s = .next t ∧
        (t.tile tile).sleep = .waiting d ∧ (t.rail (tile / 4)).waiters = (s.rail (tile / 4)).waiters ++ [tile] ∧
        t.counter cWAKEWAIT (tile / 4) = satAdd (s.counter cWAKEWAIT (tile / 4)) 1)) ∧
    (∀ x l d, (s.rail rail).waiters = x :: l → (s.rail rail).grants.length < 2 → (s.tile x).sleep = .waiting d →
      ∃ t, exec (.inrushGrant rail) s = .next t ∧ (t.tile x).sleep = .waking d ∧ (t.rail rail).waiters = l ∧
        (t.rail rail).grants = (s.rail rail).grants ++ [x]) ∧
    (∀ d, (s.tile tile).sleep = .waking d → ∃ t, exec (.wakeComplete tile) s = .next t ∧ (t.tile tile).sleep = .awake ∧
      (t.rail (tile / 4)).grants = (s.rail (tile / 4)).grants.filter (· != tile)) ∧
    (rail < 64 → exec (.droopDetect rail) s =
      .next ((s.setRail rail { s.rail rail with throttles := (s.rail rail).throttles + 1 }).count cDROOP rail)) ∧
    exec (.droopThrottleEnd rail) s = .next (s.setRail rail { s.rail rail with throttles := (s.rail rail).throttles - 1 }) ∧
    ((s.tile tile).run.isSome = true → (s.tile tile).columns < 8 → exec (.matrixColumnRamp tile) s =
      .next (s.setTile tile { s.tile tile with columns := (s.tile tile).columns + 1 }))

/-- Rotation and thermal events (R24, R25, R80 to R84). At the end of an interval the hottest tile is exchanged with
the coolest that qualifies; where there is none, or the hottest tile holds a tile-pair gang or has been stopped by the trip, the interval is
skipped and counted; while a swap of the die is in progress nothing happens (log entry 63). Once every hold is acknowledged and
every core is at a boundary the cores stop, the state of the tiles is exchanged (what moves with a tile: log entries 61, 63)
and the swap is quiesced; then the new places are written, counted, and the cores go on.
A write routed before the hold lands once, in the quarter of its logical core. At tcrit a tile drops to OP0 at once, its cores
move or the tile is rotated, and below tcrit − dtmin it returns to its target; at 115 °C it stops, counted in THTRIP, and the
front end has a record of it (log entry 64). -/
def Obligations.RotationAndThermal : Prop :=
  ∀ (s : State) (die tile lc off : Nat) (data : List Byte),
    (die < 8 → s.rotEnabled die = true →
      ((s.die die).swap.isSome = true → exec (.rotationInterval die) s = .next s) ∧
      ((s.die die).swap = none →
        (s.hottest die = none → exec (.rotationInterval die) s = .next (s.count cROTSKIP die)) ∧
        (∀ h, s.hottest die = some h →
          let l := (s.partners h).filter fun t => decide (s.temp t + s.dtmin die ≤ s.temp h ∧ s.temp t < s.temp h)
          (s.holdsTpair h = true ∨ (s.tile h).tripped = true ∨ s.coolest l = none →
            exec (.rotationInterval die) s = .next (s.count cROTSKIP die)) ∧
          (∀ c, s.holdsTpair h = false → (s.tile h).tripped = false → s.coolest l = some c →
            exec (.rotationInterval die) s = .next (s.startSwap die (newSwap [(h, c)] none)))))) ∧
    (∀ x, (s.die die).swap = some x → x.phase = .holding → x.missing = [] →
      (∀ c ∈ s.swapCores x, s.midway c = false ∧ (s.core c).strays = []) →
      (∀ y, x.single = some y → s.ganged y.1 = false ∧ s.hasTasks y.1 = false) →
      ∃ t, exec (.rotationQuiesce die) s = .next t ∧ (t.die die).swap = some { x with phase := .quiesced } ∧
        (∀ c ∈ s.swapCores x, (t.core c).stopped = true) ∧
        (∀ a b, x.pairs = [(a, b)] → x.single = none → a ≠ b →
          (t.tile a).banks = (s.tile b).banks ∧ (t.tile a).run = (s.tile b).run ∧ (t.tile a).held = (s.tile b).held ∧
          (t.tile a).window = (s.tile b).window ∧ (t.tile b).banks = (s.tile a).banks ∧ (t.tile b).run = (s.tile a).run ∧
          (t.tile b).held = (s.tile a).held ∧ (t.tile b).window = (s.tile a).window)) ∧
    (∀ x, (s.die die).swap = some x → x.phase = .quiesced → x.single = none → die < 8 → ∃ t, exec (.rotationRemap die) s = .next t ∧
      (t.die die).swap = none ∧ t.counter cROTCNT die = satAdd (s.counter cROTCNT die) x.pairs.length ∧
      ∀ c ∈ s.swapCores x, t.entry 12 c = BitVec.ofNat 64 (0x8000 + x.newPhys c (s.phys c)) ∧
        (t.core c).stopped = (s.partState (s.partOf c) == 2 || (s.tile (s.tileOf c)).tripped)) ∧
    (∀ x, s.mem.flying.find? (fun f => f.core == lc && f.off == off && f.data == data) = some x →
      ((s.tile (s.tileOf lc)).sleep.deep = false → exec (.movedCoreWriteArrival lc off data) s = .next (s.landFlying x)) ∧
      ((s.tile (s.tileOf lc)).sleep.deep = true → exec (.movedCoreWriteArrival lc off data) s = .next (s.callTile lc))) ∧
    (∀ x op, let q := s.chan x.lc x.level x.ch
      q.cur = some op → s.storableCellar (span (cellarKey x.core x.off) x.data.length) = true →
      (s.landFlying x).mem.cellar = (s.writeCellar (span (cellarKey x.core x.off) x.data.length) x.data).mem.cellar) ∧
    (tile < 256 → (s.tile tile).emergency = false → s.tcrit (tile / 32) ≤ s.temp tile → exec (.thermalEmergency tile) s =
      .next (s.setTile tile { s.tile tile with emergency := true, cur := 0, switching := none })) ∧
    (∀ c q, (s.tile tile).emergency = true ∨ (s.tile tile).withdrawn = true → (s.tile tile).tripped = false →
      (s.die (tile / 32)).swap = none → s.freeQuarter tile = some q →
      leastBy (fun a b => decide (Config.quarterTemp s.tick (s.phys b) < Config.quarterTemp s.tick (s.phys a)))
        ((s.coresOn tile).filter fun lc => !s.ganged lc && !s.hasTasks lc) = some c →
      exec (.emergencyMigration tile) s = .next (s.startSwap (tile / 32) (newSwap [] (some (c, q))))) ∧
    (∀ c, ((s.tile tile).emergency = true ∧ s.tcrit (tile / 32) ≤ s.temp tile) ∨
        ((s.tile tile).withdrawn = true ∧ (s.coresOn tile).any s.ganged = true) → (s.tile tile).tripped = false →
      (s.die (tile / 32)).swap = none → s.coresOn tile ≠ [] → (s.holdsTpair tile = false → s.coolest (s.partners tile) = some c → exec (.emergencyRotation tile) s =
        .next (s.startSwap (tile / 32) (newSwap [(tile, c)] none))) ∧
      (s.holdsTpair tile = true → (s.tile (tile / 2 * 2 + (1 - tile % 2))).tripped = false → s.coolestPair tile = some c → exec (.emergencyRotation tile) s = .next (s.startSwap (tile / 32)
        (newSwap [(tile / 2 * 2, c), (tile / 2 * 2 + 1, c + 1)] none)))) ∧
    ((s.tile tile).emergency = true → s.temp tile + s.dtmin (tile / 32) < s.tcrit (tile / 32) →
      ∃ t, exec (.thermalRecover tile) s = .next t ∧ (t.tile tile).emergency = false) ∧
    (tile < 256 → (s.tile tile).tripped = false → 115 ≤ s.temp tile → ∃ t, exec (.thermalTrip tile) s = .next t ∧
      (t.tile tile).tripped = true ∧ t.power.trips = s.power.trips ++ [tripRecord tile] ∧
      t.counter cTHTRIP (tile / 32) = satAdd (s.counter cTHTRIP (tile / 32)) 1 ∧
      ∀ c ∈ s.coresOn tile, (t.core c).progress = [] ∧ t.active c = false)

/-- Boot and service (R26, R27, R51, R57 to R60, R109, R121, R244, R299 to R304). Power good resets the machine but for the
fuses and boots each quay die: the lowest monitor slot that is good runs there (slot B counted in BOOTALT), and with none
the module has failed; a module reset keeps the measurements and the debug flag; a die that passes brings the
module to state 2; bring-up ends in service, degraded or failed; a missed bound fails the module; a trap at monitor
level halts its core; a withdrawn die leaves service and its partitions are killed. A good plug-in image is measured
in MEAS3 and loaded where a monitor runs; measurement 4 is extended by the hash of the installed configuration alone. A graph
image that passes its checks is mapped, measured in MEAS5 and its slot made resident, and another is refused with a report;
unloading puts a mark on every time of the slot. A replay begins where the journal has no gap up to the entry chosen, and
applies entry after entry. What the spec leaves open here is named in log entries 67, 77, 79, 100 and 101. -/
def Obligations.BootAndService : Prop :=
  ∀ (s : State) (die q n part p plg i g f base home : Nat) (hbm : BitVec 2) (image : List Byte) (h : BitVec 384) (im : Image),
    (∃ t, exec .powerGood s = .next t ∧ t = ((s.powerUp.bootQuay 0).bootQuay 1).quaysUp ∧ t.cores = [] ∧ t.devid = s.devid ∧
      s.boot.svn ≤ t.boot.svn) ∧
    (q < 2 → let t := s.bootQuay q
      let ok := fun slot => (imageGood (Config.flashMonitor q slot) 1 rootKey &&
        decide (s.boot.svn ≤ imgSvn (Config.flashMonitor q slot))) = true
      (ok 0 ∨ ok 1 → t.boot.quayUp.toList.getD q false = true ∧
        (∀ n, 8 * q ≤ n → n < 8 * q + 8 → (t.fe n).released = true ∧ 1 ≤ (t.fe n).priv ∧ (t.fe n).priv ≤ 2) ∧
        t.counter cBOOTALT q = (if ok 0 then s.counter cBOOTALT q else satAdd (s.counter cBOOTALT q) 1)) ∧
      (¬ ok 0 → ¬ ok 1 → t.modState = 15 ∧ (t.fe (8 * q)).halted = true ∧ t.boot.quayUp = s.boot.quayUp ∧
        t.boot.romStatus.toList.getD q 0 = Config.romReason q)) ∧
    (∃ t, exec .moduleReset s = .next t ∧ t.modState = 0 ∧ t.mem.bytes = s.mem.bytes ∧ t.boot.meas = s.boot.meas ∧
      t.boot.debug = s.boot.debug ∧ t.boot.svn = s.boot.svn ∧ t.cores = [] ∧ t.fes = []) ∧
    (die < 8 → s.modState = 1 → ∃ t, exec (.tileDiePass die hbm) s = .next t ∧ t.modState = 2 ∧
      t.boot.modstat.getLsbD (24 + die) = true ∧ t.boot.modstat.getLsbD (8 + 2 * die) = hbm[0] ∧
      t.boot.modstat.getLsbD (9 + 2 * die) = hbm[1]) ∧
    (s.modState = 1 ∨ s.modState = 2 → ∃ t, exec .bringupEnd s = .next t ∧ t.modState =
      (if s.boot.modstat.toNat / 2 ^ 24 = 0 then 15 else if s.boot.modstat.toNat / 2 ^ 8 = 0xFFFFFF then 3 else 4)) ∧
    (q < 2 → s.boot.quayUp.toList.getD q false = true → s.boot.quayUp.toList.getD (1 - q) false = false →
      ∃ t, exec (.quayBringupTimeout q) s = .next t ∧ t.modState = 15) ∧
    (n < 16 → (s.fe n).priv = 2 → (s.fe n).halted = false → ∃ t, exec (.monitorTrapHalt n) s = .next t ∧ (t.fe n).halted = true) ∧
    (2 ≤ s.modState → s.modState ≤ 4 → let down := if s.modState = 2 then 2 else 4
      (part < 8 → (s.die part).inService = true →
        let s1 := (s.setStat (24 + part) false).setDie part { s.die part with inService := false }
        let s2 := (s.partsOn part).foldl (fun s p => s.killPart p) s1
        exec (.dieWithdraw part) s = .next (s2.toState (if s2.boot.modstat.toNat / 2 ^ 24 = 0 then 15 else down))) ∧
      (8 ≤ part → part < 24 → exec (.dieWithdraw part) s = .next ((s.setStat part false).toState down))) ∧
    (plg < 256 → s.monitorRuns = true → s.coresOf p ≠ [] → imageGood image 3 (fun k => k == Config.operatorKey p) = true →
      ∃ t, exec (.pluginLoad p plg image) s = .next t ∧ t.plugin plg =
        { s.plugin plg with loaded := true, disabled := false, failures := 0, entry := imgEntry image } ∧
        t.boot.meas = (s.extend 3 (sha384 (imgBody image))).boot.meas ∧ t.mem = (s.loadBody image).mem) ∧
    (s.monitorRuns = false ∨ s.coresOf p = [] ∨ imageGood image 3 (fun k => k == Config.operatorKey p) = false →
      exec (.pluginLoad p plg image) s = .next s) ∧
    exec (.measExtend i h) s = .next (if i = 4 ∧ h = s.configHash then s.extend 4 h else s) ∧
    (∀ text s1, g < 16 → f < 64 → home < 128 → s.graph g = none → s.bound f = true → Image.ok im = true → base % 64 = 0 →
      base + im.cellar.length ≤ bits (s.entry 17 (s.fnPart f)) 0 19 → relocate base im.text im.celoff = some text →
      let bytes := text.flatMap fun w => leBytes 4 w.toNat
      (s.mapImage (s.fnCtx f) im bytes = some s1 → ∃ t x, exec (.graphImageLoad g f base home im) s =
        .next (State.makeResident t g x) ∧ x.fn = f ∧ x.text = im.textVa ∧ x.words = text.length ∧ x.stations = im.stations ∧
        x.exit = im.exit ∧ x.depths = im.depths ∧ x.table = im.summaries ∧ x.resources = im.resources ∧ x.home = home ∧
        x.cellarBase = base ∧ x.overlays = (im.eflags == 1) ∧ t.boot.meas = (s1.extend 5 (sha384 bytes)).boot.meas ∧
        t.mem.bytes = s1.mem.bytes) ∧
      (s.mapImage (s.fnCtx f) im bytes = none → exec (.graphImageLoad g f base home im) s = .next (s.refuseLoad g f))) ∧
    (Image.ok im = false ∨ (s.graph g).isSome = true ∨ s.bound f = false ∨ base % 64 ≠ 0 ∨ relocate base im.text im.celoff = none →
      exec (.graphImageLoad g f base home im) s = .next (s.refuseLoad g f)) ∧
    ((s.graph g).isSome = true → let s1 := (s.installLate g ⟨0, 0, false⟩).settle g
      (s1.slotEmpty g = true → exec (.graphUnload g) s = .next (s1.freeSlot g)) ∧
      (s1.slotEmpty g = false → exec (.graphUnload g) s = .next s1)) ∧
    (p < 256 → (s.preemption p).replay = none → s.partState p = 0 →
      let a := ((s.preemption p).seq + 1) % 2 ^ 32
      let e := (((s.preemption p).upto.map fun k => (k + 1) % 2 ^ 32).getD (s.journalSeq p))
      let m := (e + 2 ^ 32 - a) % 2 ^ 32
      m ≠ 0 → m ≤ s.journalSize p → (∀ k < m, s.journalHas p ((a + k) % 2 ^ 32) = true) →
      exec (.replay p) s = .next (s.setReplay p (some (a, e)) none)) ∧
    (∀ k e t, (s.preemption p).replay = some (k, e) → (s.preemption p).copying = none → s.journalInfo p k 32 = 1 →
      s.replayEntry p k = some t → exec (.replay p) s =
        .next (t.setReplay p (if (k + 1) % 2 ^ 32 = e then none else some ((k + 1) % 2 ^ 32, e)) none))

/-- Links, edges, ports and memory upkeep (R11, R12, R15, R16, R18 to R21, R28, R59, R73). A good flit in order is
accepted, acknowledges those before it and gives credits back; what it says waits for its unit here, or it is passed on;
one with a bad CRC or that breaks the protocol is counted, discarded and answered with a NAK, one out of order discarded.
A NAK acknowledges what it covers and has the rest sent again; one that acknowledges nothing is counted; at 16 the link
retrains; a good retrain clears the counts, the third bad one takes the link down. A route that returns brings its links
up. An edge that trains reduced is counted; an attic port fails and trains; a scrubbed error and a repeated flit are
counted; the debug flag stays. What becomes of a flit that finds no live link on its way and which quay die counts a drop
are named in log entry 88, the choice of a link in log entry 80. -/
def Obligations.LinkSteps : Prop :=
  ∀ (s : State) (link dev edge modules rate port die : Nat) (crc : BitVec 32) (f : Flit) (seq : BitVec 12) (k : SramKind) (c : Bool),
    (link < 24 → (s.link link).up = true → (s.link link).training = false →
      (crc ≠ flitSum f → exec (.ferryFlitReceive link crc f) s = .next ((s.count cFCRC link).sendControl link 2)) ∧
      (crc = flitSum f → s.protocolError f.h = true →
        exec (.ferryFlitReceive link crc f) s = .next ((s.count cFPROT link).sendControl link 2)) ∧
      (crc = flitSum f → s.protocolError f.h = false → f.h.seq.toNat ≠ (s.link link).expect →
        exec (.ferryFlitReceive link crc f) s = .next s) ∧
      (crc = flitSum f → s.protocolError f.h = false → f.h.seq.toNat = (s.link link).expect →
        let l1 := ({ s.link link with expect := ((s.link link).expect + 1) % 4096 } : Link).credited f.h.credits
        let t := s.setLink link ((if f.h.type = 2 then l1.nak f.h.ack else l1.acked f.h.ack).pump link)
        let t1 := t.setLink link ((t.link link).freed f.h.vc.toNat)
        (t.link link).expect = ((s.link link).expect + 1) % 4096 ∧
        (f.h.type ≠ 1 → exec (.ferryFlitReceive link crc f) s = .next t) ∧
        (f.h.type = 1 → f.h.dstdev.toNat = s.devid.toNat → exec (.ferryFlitReceive link crc f) s =
          .next { t with prog := { t.prog with rx := t.prog.rx ++ [⟨link, f.h.srcdev.toNat, f.h.vc.toNat, f.msg⟩] } }) ∧
        (f.h.type = 1 → f.h.dstdev.toNat ≠ s.devid.toNat →
          (∀ out, t1.linkTo f.h.srcdev.toNat f.h.dstdev.toNat = some out → exec (.ferryFlitReceive link crc f) s =
            .next (t1.sendFlit out { f with h := { f.h with hops := f.h.hops - 1 } })) ∧
          (t1.linkTo f.h.srcdev.toNat f.h.dstdev.toNat = none → exec (.ferryFlitReceive link crc f) s = .next t1)))) ∧
    (∀ (l : Link) (x : BitVec 16) (i : Nat), i < 8 →
      (l.credited x).used.toList.getD i 0 = l.used.toList.getD i 0 - 4 * (x.toNat / 4 ^ i % 4) ∧
      ((∀ y ∈ l.replay, y.h.seq ≠ seq) → l.acked seq = l) ∧
      (∀ a y b, l.replay = a ++ y :: b → y.h.seq = seq → (∀ z ∈ a, z.h.seq ≠ seq) →
        l.acked seq = { l with replay := b, naks := 0 })) ∧
    ((s.link link).up = true → let l := s.link link
      ((∀ y ∈ l.replay, y.h.seq ≠ seq) → exec (.ferryNakReceive link seq) s =
        .next (s.setLink link (({ l with naks := l.naks + 1, wire := l.wire ++ l.replay } : Link).pump link))) ∧
      (∀ a y b, l.replay = a ++ y :: b → y.h.seq = seq → (∀ z ∈ a, z.h.seq ≠ seq) → exec (.ferryNakReceive link seq) s =
        .next (s.setLink link (({ l with replay := b, naks := 0, wire := l.wire ++ b } : Link).pump link)))) ∧
    ((s.link link).up = true → (s.link link).training = false → 16 ≤ (s.link link).naks → exec (.ferryLinkRetrain link) s =
      .next ((s.setLink link { s.link link with training := true }).count cFRTRN link)) ∧
    ((s.link link).training = true → let l := s.link link
      exec (.ferryRetrainComplete link true) s =
        .next (s.setLink link (({ l with training := false, naks := 0, retrains := 0, wire := l.replay } : Link).pump link)) ∧
      (l.retrains < 2 → exec (.ferryRetrainComplete link false) s =
        .next (s.setLink link { l with training := false, retrains := l.retrains + 1 })) ∧
      (2 ≤ l.retrains → exec (.ferryRetrainComplete link false) s = .next ((s.setLink link { l with retrains := 0 }).linkDown link))) ∧
    (∃ t, exec (.ferryRouteReturn dev) s = .next t ∧ (∀ l < 24, bit (s.entry 14 dev) l = true → (t.link l).up = true) ∧
      ∀ l < 24, bit (s.entry 14 dev) l = false → (t.link l).up = (s.link l).up ∧ (s.prog.unrouted = [] → t.link l = s.link l)) ∧
    (edge < 14 → 1 ≤ modules → modules ≤ 12 → 16 ≤ rate → rate ≤ 32 → ∃ t, exec (.d2dEdgeRetrain edge modules rate) s = .next t ∧
      tfind t.boot.edges edge = some (modules, rate) ∧
      t.counters = (if modules = 12 ∧ rate = 32 then s.counters else (s.count cD2DDEG edge).counters)) ∧
    (edge < 14 → exec (.d2dRetry edge) s = .next (s.count cD2DRTY edge)) ∧
    (port < 4 → (s.boot.ports.toList.getD port .untrained = .up → ∃ t, exec (.atticPortFail port) s = .next t ∧
        t.boot.ports.toList.getD port .untrained = .failed) ∧
      ∃ t, exec (.atticPortRetrain port) s = .next t ∧ t.boot.ports.toList.getD port .untrained = .up) ∧
    (die < 8 → exec (.sramScrub die k c) s = .next (s.countSram (if c then cSRAMCE else cSRAMUE) die (sramCode k))) ∧
    exec .debugPortUnlock s = .next { s with boot := { s.boot with debug := true } }


/-! ### Traps, a step, and the state after reset -/

/-- Taking a trap on a compute core (R97, R224 to R230): the class is noted in TRAPCAUSE and TRAPVAL with the pc, the
handler bit, the level and the action, nothing else of the frame changes, and its class is counted; then the frame
leaves its core and the one below runs, and memory is as it was but for what a DATA error brings; a delivery of the
frame's state waits for the front end exactly where the header says so and the slot has a handler.
The fields of TRAPCAUSE (R226, R234). -/
def Obligations.TrapEntry : Prop :=
  (∀ (s : State) (lc cls : Nat) (f : Frame) (l : List Frame) (val : Word) (late : Option Nat),
    (s.core lc).frames = f :: l →
    let cause := causeWord late.isSome (late.getD f.h.pc) (f.kind == 1) f.level
    let t := s.takeTrap lc cls val late
    let delivers := f.action cls = 1 ∧ bit (s.handler lc f.graph) 63 = true
    (∀ act, (s.noteTrap lc cls act val late).top lc =
      some { f with h := { f.h with trapcause := cause act cls, trapval := val } }) ∧
    (cls < 16 → t.counter (cTRAPS + cls) (s.partOf lc) = satAdd (s.counter (cTRAPS + cls) (s.partOf lc)) 1) ∧
    (t.core lc).frames = uncover l ∧ (t.mem.bytes = s.mem.bytes ∧ t.mem.cellar = s.mem.cellar) ∧
    (cls ≠ DATA → (delivers → ∃ r : Rec, t.prog.deliveries = s.prog.deliveries ++ [⟨lc, r⟩] ∧ r.q1 = f.ltime ∧
      r.q2 = cause 1 cls ∧ r.q3 = val ∧ r.q4 = f.rcd.q0 ∧ r.q5 = f.rcd.q2 ∧ r.q6 = claimsWord f.claims)) ∧
    (cls ≠ DATA → ¬ delivers → t.prog.deliveries = s.prog.deliveries)) ∧
  (∀ (late inh : Bool) (pc level act cls : Nat),
    let w := causeWord late pc inh level act cls
    bits w 0 4 = cls % 16 ∧ bits w 8 2 = act % 4 ∧ bits w 12 3 = level % 8 ∧ bit w 15 = inh ∧ bits w 16 24 = pc % 2 ^ 24 ∧
    bit w 40 = late ∧ bits w 4 4 = 0 ∧ bits w 10 2 = 0 ∧ bits w 41 23 = 0)

/-- Traps of a front-end core and `eret` (R51, R235, R409). Below monitor level FEEPC takes the address of the
trapping instruction, FEPREV the level, TRAPCAUSE the pc and the class, TRAPVAL the value, and the level above is
entered at an open address; at monitor level the core halts. No memory, no compute core and no other front-end core
changes. `eret` takes the level of FEPREV and the address of FEEPC; it raises ILLEGAL where that level is reserved or
above its own. -/
def Obligations.FrontEndTraps : Prop :=
  ∀ (s : State) (n cls : Nat) (val : Word) (v : List Word), n < 16 → s.agent = .fe n →
    let c := s.fe n
    let t := s.trap cls val
    (c.priv < 2 → (t.fe n).epc = BitVec.ofNat 52 (c.h.pc * 4) ∧ (t.fe n).prev = c.priv ∧ (t.fe n).priv = c.priv + 1 ∧
      (t.fe n).h.trapcause = causeWord false c.h.pc false 0 0 cls ∧ (t.fe n).h.trapval = val ∧
      (t.fe n).h.pc = (Config.feTrapEntry n (c.priv + 1)).toNat / 4 ∧ (t.fe n).h.regs = c.h.regs ∧ (t.fe n).halted = c.halted) ∧
    (c.priv = 2 → (t.fe n).halted = true) ∧ t.mem = s.mem ∧ t.cores = s.cores ∧ (∀ k, k ≠ n → t.fe k = s.fe k) ∧
    (s.front .eret = .go v →
      (c.prev ≤ c.priv → c.prev ≠ 3 → ∃ u, exec .eret s = .next u ∧ (u.fe n).priv = c.prev ∧ (u.fe n).h.pc = c.epc.toNat / 4 ∧
        (u.fe n).h.regs = c.h.regs ∧ (u.fe n).instret = c.instret + 1 ∧ u.mem = s.mem ∧ ∀ k, k ≠ n → u.fe k = s.fe k) ∧
      (c.priv < c.prev ∨ c.prev = 3 → exec .eret s = .next (s.illegal .eret)))

/-- A step runs the instruction that the word at the pc decodes to (R7, R50, R96, R101, R219, R269, R276, R320). With
no input pending it is the agent's turn: its clock advances, and where no admission is due, no vector chunk has begun, no
trap waits and the budget is not used up, the word at the pc of the running frame, read through the translation and the
tile's instruction cache with its overlay window, or through L2 where the window is another's, is decoded and executed; an
inline handler's word is that of its record, and behind its last one the handler ends. Where the sequencer has to go first
its chunk runs, and an instruction that reads an uncorrectable register takes DATA. A front-end core executes the word at its
physical address; a word that no instruction has raises ILLEGAL with the word in TRAPVAL. An input comes before the agent's
turn. -/
def Obligations.StepRunsDecoded : Prop :=
  ∀ (s : State),
    (∀ x l, s.inputs = x :: l → step s = ({ s with tick := s.tick + 1, inputs := l } : State).takeInput x) ∧
    (s.inputs = [] →
      let s0 := { s with tick := s.tick + 1 }
      (∀ (lc : Nat) (f : Frame) (s1 : State), s.agent = .core lc → lc < 1024 → s0.goesOn lc = true → s0.clockCore lc = s1 →
        s1.top lc = some f → begun f.vsent = false → (s1.active lc && s1.admissionDue lc && !s1.begunAt lc) = false →
        f.leader = none → s1.gangReady lc f = true → f.pending = none → (f.unl = true ∨ f.left ≠ 0) →
        let runs := fun (w : Nat) (t : State) =>
          (∀ e, decodeWord w = .error e → step s = .next (t.trap ILLEGAL (BitVec.ofNat 64 w))) ∧
          (∀ i g, decodeWord w = .ok i → t.top lc = some g →
            (∀ v, t.front i = .go v → (g.readsBad i = false → step s = exec i t) ∧
              (g.readsBad i = true → step s = .next ((t.setTop lc { g with bad := true }).takeTrap lc DATA 0 none))) ∧
            ((∀ v, t.front i ≠ .go v) → (g.waitsSeq i = false → step s = exec i t) ∧
              (g.waitsSeq i = true → step s = exec (.sequencerChunk lc) t)))
        (f.kind = 1 → (f.h.pc < 12 → runs (handlerWord f.rcd f.h.pc) s1) ∧ (12 ≤ f.h.pc → step s = exec .endTask s1)) ∧
        (∀ pa s2, f.kind ≠ 1 → f.h.pc < s1.codeWords f.graph → inOverlay f.overlay f.h.pc = true →
          let va := s1.codeBase f.graph + BitVec.ofNat 64 (4 * f.h.pc)
          s1.xlate (s1.dieOf lc) (s1.holdersOf lc) (s1.partOf lc) (s1.ctxOf f.graph) va.toNat needX = .pa pa s2 →
          let good := s2.isLocal [pa] = true ∧ s2.portFailed pa = false ∧ s2.anyBad (span pa 4) = false
          (f.overlay = none → s2.windowed (s2.tileOf lc) = true → good → runs (s2.readMem (span pa 4)) s2) ∧
          (f.overlay.isSome = true ∨ s2.windowed (s2.tileOf lc) = false →
            let s3 := s2.openWindow lc f
            let k := icacheKey (s3.tileOf lc) pa
            tget false s3.mem.badIcache (k / 2) = false →
            (∀ w, tfind s3.mem.icache k = some w → runs w.toNat s3) ∧
            (tfind s3.mem.icache k = none → good →
              runs (s3.readMem (span pa 4)) (s3.fillIcache k (BitVec.ofNat 32 (s3.readMem (span pa 4)))))))) ∧
      (∀ n, s.agent = .fe n → n < 16 → (s.fe n).halted = false → (s.fe n).released = true →
        let s1 := s0.clockFe n
        let a := (s.fe n).h.pc * 4
        let pa := (s1.feBytes a 4).headD 0
        s1.feCheck n (BitVec.ofNat 64 a) 4 needX = none → s1.isLocal [pa] = true → s1.portFailed pa = false →
        s1.anyBad (span pa 4) = false →
        let w := s1.readMem (span pa 4)
        (∀ i, decodeWord w = .ok i → step s = exec i s1) ∧
        (∀ e, decodeWord w = .error e → step s = .next (s1.trap ILLEGAL (BitVec.ofNat 64 w)))))

/-- Words written out from the encodings of the spec decode to the instructions they stand for (R277 to R287,
R393): at least one of each group: ALU, the single-instruction opcodes, MEMX, ATOM, FP, VALU, VMEM, VMISC, ENG, TASK and SYS. -/
def Obligations.DecodeWords : Prop :=
  decodeWord 0x08630001 = .ok (.addi 3 3 1) ∧ decodeWord 0x0CE600FF = .ok (.andi 7 6 0xFF) ∧
  decodeWord 0x98610000 = .ok (.ldD 3 1 0) ∧ decodeWord 0xAC610000 = .ok (.stD 3 1 0) ∧
  decodeWord 0x50600003 = .ok (.beq 3 0 3) ∧ decodeWord 0x7048CA04 = .ok (.vadd .f32 1 2 3 5 false) ∧
  decodeWord 0x7104C00C = .ok (.vsub .f32 4 1 3 0 false) ∧ decodeWord 0xF0008C80 = .ok (.cpy 1 3 4) ∧
  decodeWord 0xF1808400 = .ok (.mxq 1) ∧ decodeWord 0xF4000001 = .ok .endTask ∧ decodeWord 0xF4000022 = .ok (.claim 2) ∧
  decodeWord 0x34A00140 = .ok (.lco 5 0x140) ∧
  decodeWord 0x04642801 = .ok (.sub 3 4 5) ∧ decodeWord 0xB0642802 = .ok (.bcmp 3 4 5) ∧
  decodeWord 0xB4642827 = .ok (.amocas .d 3 4 5) ∧ decodeWord 0xB8221801 = .ok (.fadd .f32 1 2 3) ∧
  decodeWord 0xB8221041 = .ok (.fcvt .f32 .f16 1 2) ∧ decodeWord 0x7448C815 = .ok (.vlds 5 1 2 3 4) ∧
  decodeWord 0x78498855 = .ok (.vcvt 6 5 1 2 4 false) ∧ decodeWord 0x7848C103 = .ok (.vslide 1 2 3 true) ∧
  decodeWord 0xF8600050 = .ok (.mfs 3 5) ∧ decodeWord 0xF8000124 = .ok (.trap 0x12)

/-- The machine right after reset (R26, R33, R51, R58, R60, R61, R67, R95, R147, R403): no frame, no record, no count
and no graph; every core's OPREQ is automatic at OP12, its SLEEPCTL, INBOXST and counters at their reset values; every
VCP disabled; the front-end cores at monitor level, 0 and 8 released; every rail at code 60 and every tile at OP6;
MODSTAT and every measurement 0; and both memories in canonical form with nothing listed. -/
def Obligations.ResetState : Prop :=
  let s := State.reset
  (∀ lc, (s.core lc).frames = [] ∧ (s.core lc).inbox = [] ∧ (s.core lc).opreq = 28 ∧
    (s.core lc).sleepctl = 0x138800C800140002 ∧ (s.core lc).cycle = 0 ∧ (s.core lc).instret = 0 ∧ s.mapped lc = false) ∧
  (∀ f v, s.vcp f v = Vcp.reset ∧ (s.vcp f v).state = .disabled ∧ (s.vcp f v).status = 0) ∧
  (∀ n, (s.fe n).priv = 2 ∧ (s.fe n).halted = false ∧ ((s.fe n).released = true ↔ n = 0 ∨ n = 8)) ∧
  (∀ r, (s.rail r).code = 60) ∧ (∀ t, (s.tile t).cur = 6) ∧ s.boot.modstat = 0 ∧ s.boot.meas = Vector.replicate 6 0 ∧
  (∀ g, s.graph g = none) ∧ s.memOk = true ∧ s.mem.bytes = [] ∧ s.mem.cellar = []

/-- Every step keeps both memories in their canonical form: addresses strictly rising, and no byte listed that reads
as an unlisted one does. The form is the model's own (log entry 2). -/
def Obligations.StepKeepsMemory : Prop :=
  ∀ s t : State, s.memOk = true → step s = .next t → t.memOk = true
end

