-- ==== Sys2Proof/Laws/Table.lean ====
section
/-! SUPPORT. Laws of sparse tables and of memory: a read after a write, the canonical form, and that every
operation over memory keeps it. -/

namespace Sys2Proof.Machine

variable {α : Type}

/-! ### Tables -/

@[simp] theorem tget_nil (d : α) (k : Nat) : tget d [] k = d := rfl
@[simp] theorem tfind_nil (k : Nat) : tfind ([] : Table α) k = none := rfl

@[simp] theorem tget_tput_same (d v : α) (k : Nat) (t : Table α) : tget d (tput k v t) k = v := by
  induction t with
  | nil => simp [tput, tget]
  | cons e t ih =>
    obtain ⟨k', v'⟩ := e
    simp only [tput]
    split
    · simp [tget]
    · split
      · simp [tget]
      · simp only [tget]; rw [if_neg (by omega), ih]

theorem tget_tput_other (d v : α) (k x : Nat) (t : Table α) (h : x ≠ k) : tget d (tput k v t) x = tget d t x := by
  induction t with
  | nil => simp [tput, tget]; omega
  | cons e t ih =>
    obtain ⟨k', v'⟩ := e
    simp only [tput]
    split
    · simp only [tget]; rw [if_neg (by omega)]
    · split
      · next h2 => subst h2; simp only [tget]; rw [if_neg (by omega)]; simp [Ne.symm h]
      · simp only [tget]; rw [ih]

@[simp] theorem tfind_tput_same (v : α) (k : Nat) (t : Table α) : tfind (tput k v t) k = some v := by
  induction t with
  | nil => simp [tput, tfind]
  | cons e t ih =>
    obtain ⟨k', v'⟩ := e
    simp only [tput]
    split
    · simp [tfind]
    · split
      · simp [tfind]
      · simp only [tfind]; rw [if_neg (by omega), ih]

theorem tfind_tput_other (v : α) (k x : Nat) (t : Table α) (h : x ≠ k) : tfind (tput k v t) x = tfind t x := by
  induction t with
  | nil => simp [tput, tfind]; omega
  | cons e t ih =>
    obtain ⟨k', v'⟩ := e
    simp only [tput]
    split
    · simp only [tfind]; rw [if_neg (by omega)]
    · split
      · next h2 => subst h2; simp only [tfind]; rw [if_neg (by omega)]; simp [Ne.symm h]
      · simp only [tfind]; rw [ih]

@[simp] theorem tget_tdel_same (d : α) (k : Nat) (t : Table α) : tget d (tdel k t) k = d := by
  induction t with
  | nil => rfl
  | cons e t ih =>
    obtain ⟨k', v'⟩ := e
    simp only [tdel]
    split
    · exact ih
    · next h => simp only [tget]; rw [if_neg h, ih]

theorem tget_tdel_other (d : α) (k x : Nat) (t : Table α) (h : x ≠ k) : tget d (tdel k t) x = tget d t x := by
  induction t with
  | nil => rfl
  | cons e t ih =>
    obtain ⟨k', v'⟩ := e
    simp only [tdel]
    split
    · next h2 => subst h2; simp only [tget]; rw [if_neg (Ne.symm h), ih]
    · simp only [tget]; rw [ih]

/-! ### Memory: a read after a write -/

@[simp] theorem byteAt_putByte_same (m : List Host.Cell) (a : Nat) (b : Byte) : byteAt (putByte m a b) a = b := by
  unfold byteAt putByte mput
  split
  · next h => rw [tget_tdel_same, h]
  · exact tget_tput_same ..

theorem byteAt_putByte_other (m : List Host.Cell) (a x : Nat) (b : Byte) (h : x ≠ a) :
    byteAt (putByte m a b) x = byteAt m x := by
  unfold byteAt putByte mput
  split
  · exact tget_tdel_other _ _ _ _ h
  · exact tget_tput_other _ _ _ _ _ h

theorem byteAt_scatterBytes_other (l : List Nat) (bs : List Byte) (m : List Host.Cell) (x : Nat) (h : x ∉ l) :
    byteAt (scatterBytes m l bs) x = byteAt m x := by
  induction l generalizing bs m with
  | nil => rfl
  | cons a l ih =>
    cases bs with
    | nil => rfl
    | cons b bs =>
      simp only [scatterBytes]
      rw [ih _ _ (fun h2 => h (List.mem_cons_of_mem _ h2)),
        byteAt_putByte_other _ _ _ _ (fun h2 => h (by simp [h2]))]

theorem byteAt_putBytes_other (bs : List Byte) (m : List Host.Cell) (a x : Nat) (h : x < a ∨ a + bs.length ≤ x) :
    byteAt (putBytes m a bs) x = byteAt m x := by
  induction bs generalizing a m with
  | nil => rfl
  | cons b bs ih =>
    simp only [putBytes, List.length_cons] at *
    rw [ih _ _ (by omega), byteAt_putByte_other _ _ _ _ (by omega)]

/-! ### Memory: the canonical form -/

theorem wf_cons (a : Nat) (b : Byte) (m : List Host.Cell) :
    Memory.wf ((a, b) :: m) = true ↔ b ≠ 0 ∧ Memory.wf m = true ∧ ∀ c ∈ m.head?, a < c.1 := by
  cases m with
  | nil => simp [Memory.wf]
  | cons c m => simp [Memory.wf, and_assoc]

theorem head_tput (k : Nat) (v : Byte) (m : List Host.Cell) :
    ∀ c ∈ (tput k v m).head?, c.1 = k ∨ ∃ d ∈ m.head?, c.1 = d.1 := by
  cases m with
  | nil => simp [tput]
  | cons e m =>
    obtain ⟨k', v'⟩ := e
    simp only [tput]
    split
    · simp
    · split <;> simp_all

theorem wf_tput (k : Nat) (v : Byte) (m : List Host.Cell) (hv : v ≠ 0) (h : Memory.wf m = true) :
    Memory.wf (tput k v m) = true := by
  induction m with
  | nil => simpa [tput, Memory.wf] using hv
  | cons e m ih =>
    obtain ⟨k', v'⟩ := e
    have h' := (wf_cons _ _ _).1 h
    simp only [tput]
    split
    · next hk => exact (wf_cons _ _ _).2 ⟨hv, h, by simp [hk]⟩
    · split
      · next hk => subst hk; exact (wf_cons _ _ _).2 ⟨hv, h'.2⟩
      · refine (wf_cons _ _ _).2 ⟨h'.1, ih h'.2.1, ?_⟩
        intro c hc
        obtain hk | ⟨d, hd, hk⟩ := head_tput _ _ _ c hc
        · omega
        · rw [hk]; exact h'.2.2 d hd

theorem head_tdel (k x : Nat) (m : List Host.Cell) (h : Memory.wf m = true) (hx : ∀ c ∈ m.head?, x < c.1) :
    ∀ c ∈ (tdel k m).head?, x < c.1 := by
  induction m with
  | nil => simp [tdel]
  | cons e m ih =>
    obtain ⟨k', v'⟩ := e
    have h' := (wf_cons _ _ _).1 h
    simp only [tdel]
    split
    · refine ih h'.2.1 fun c hc => ?_
      exact Nat.lt_trans (hx (k', v') (by simp)) (h'.2.2 c hc)
    · simpa using hx

theorem wf_tdel (k : Nat) (m : List Host.Cell) (h : Memory.wf m = true) : Memory.wf (tdel k m) = true := by
  induction m with
  | nil => rfl
  | cons e m ih =>
    obtain ⟨k', v'⟩ := e
    have h' := (wf_cons _ _ _).1 h
    simp only [tdel]
    split
    · exact ih h'.2.1
    · exact (wf_cons _ _ _).2 ⟨h'.1, ih h'.2.1, head_tdel _ _ _ h'.2.1 h'.2.2⟩

/-- Writing a byte keeps the canonical form. -/
theorem wf_putByte (m : List Host.Cell) (a : Nat) (b : Byte) (h : Memory.wf m = true) :
    Memory.wf (putByte m a b) = true := by
  unfold putByte mput
  split
  · exact wf_tdel _ _ h
  · next hb => exact wf_tput _ _ _ hb h

theorem wf_putBytes (bs : List Byte) (m : List Host.Cell) (a : Nat) (h : Memory.wf m = true) :
    Memory.wf (putBytes m a bs) = true := by
  induction bs generalizing m a with
  | nil => exact h
  | cons b bs ih => exact ih _ _ (wf_putByte _ _ _ h)

theorem wf_scatterBytes (l : List Nat) (bs : List Byte) (m : List Host.Cell) (h : Memory.wf m = true) :
    Memory.wf (scatterBytes m l bs) = true := by
  induction l generalizing bs m with
  | nil => exact h
  | cons a l ih =>
    cases bs with
    | nil => exact h
    | cons b bs => exact ih _ _ (wf_putByte _ _ _ h)

theorem memOk_writeMem (s : State) (l : List Nat) (bs : List Byte) (h : s.memOk = true) :
    (s.writeMem l bs).memOk = true := by
  simp only [State.memOk, State.writeMem, Bool.and_eq_true] at *
  exact ⟨wf_scatterBytes _ _ _ h.1, h.2⟩

theorem memOk_writeCellar (s : State) (l : List Nat) (bs : List Byte) (h : s.memOk = true) :
    (s.writeCellar l bs).memOk = true := by
  simp only [State.memOk, State.writeCellar, Bool.and_eq_true] at *
  exact ⟨h.1, wf_scatterBytes _ _ _ h.2⟩

theorem memOk_setMem64 (s : State) (pa : Nat) (w : Word) (h : s.memOk = true) : (s.setMem64 pa w).memOk = true :=
  memOk_writeMem _ _ _ h

theorem memOk_reset : State.reset.memOk = true := by decide

end Sys2Proof.Machine
end

