-- ==== Sys2Proof/Laws/State.lean ====
section
/-! SUPPORT. What each named update of State leaves in each field, and what each unit reads as after it: a
proof cites these and unfolds no record update. -/

namespace Sys2Proof.Machine

/-! ### One law per update and field -/

@[simp] theorem State.setCore_tick (s : State) (lc : Nat) (c : Core) : (s.setCore lc c).tick = s.tick := rfl
@[simp] theorem State.setCore_agent (s : State) (lc : Nat) (c : Core) : (s.setCore lc c).agent = s.agent := rfl
@[simp] theorem State.setCore_inputs (s : State) (lc : Nat) (c : Core) : (s.setCore lc c).inputs = s.inputs := rfl
@[simp] theorem State.setCore_mem (s : State) (lc : Nat) (c : Core) : (s.setCore lc c).mem = s.mem := rfl
@[simp] theorem State.setCore_cores (s : State) (lc : Nat) (c : Core) : (s.setCore lc c).cores = tput lc c s.cores := rfl
@[simp] theorem State.setCore_fes (s : State) (lc : Nat) (c : Core) : (s.setCore lc c).fes = s.fes := rfl
@[simp] theorem State.setCore_feTab (s : State) (lc : Nat) (c : Core) : (s.setCore lc c).feTab = s.feTab := rfl
@[simp] theorem State.setCore_counters (s : State) (lc : Nat) (c : Core) : (s.setCore lc c).counters = s.counters := rfl
@[simp] theorem State.setCore_timestamp (s : State) (lc : Nat) (c : Core) : (s.setCore lc c).timestamp = s.timestamp := rfl
@[simp] theorem State.setCore_devid (s : State) (lc : Nat) (c : Core) : (s.setCore lc c).devid = s.devid := rfl
@[simp] theorem State.setCore_tiles (s : State) (lc : Nat) (c : Core) : (s.setCore lc c).tiles = s.tiles := rfl
@[simp] theorem State.setCore_clusters (s : State) (lc : Nat) (c : Core) : (s.setCore lc c).clusters = s.clusters := rfl
@[simp] theorem State.setCore_dies (s : State) (lc : Nat) (c : Core) : (s.setCore lc c).dies = s.dies := rfl
@[simp] theorem State.setCore_rails (s : State) (lc : Nat) (c : Core) : (s.setCore lc c).rails = s.rails := rfl
@[simp] theorem State.setCore_slices (s : State) (lc : Nat) (c : Core) : (s.setCore lc c).slices = s.slices := rfl
@[simp] theorem State.setCore_prog (s : State) (lc : Nat) (c : Core) : (s.setCore lc c).prog = s.prog := rfl
@[simp] theorem State.setCore_funcs (s : State) (lc : Nat) (c : Core) : (s.setCore lc c).funcs = s.funcs := rfl
@[simp] theorem State.setCore_vcps (s : State) (lc : Nat) (c : Core) : (s.setCore lc c).vcps = s.vcps := rfl
@[simp] theorem State.setCore_plugins (s : State) (lc : Nat) (c : Core) : (s.setCore lc c).plugins = s.plugins := rfl
@[simp] theorem State.setCore_journalUsed (s : State) (lc : Nat) (c : Core) : (s.setCore lc c).journalUsed = s.journalUsed := rfl
@[simp] theorem State.setCore_journalGap (s : State) (lc : Nat) (c : Core) : (s.setCore lc c).journalGap = s.journalGap := rfl
@[simp] theorem State.setCore_preempts (s : State) (lc : Nat) (c : Core) : (s.setCore lc c).preempts = s.preempts := rfl
@[simp] theorem State.setCore_shootdowns (s : State) (lc : Nat) (c : Core) : (s.setCore lc c).shootdowns = s.shootdowns := rfl
@[simp] theorem State.setCore_links (s : State) (lc : Nat) (c : Core) : (s.setCore lc c).links = s.links := rfl
@[simp] theorem State.setCore_boot (s : State) (lc : Nat) (c : Core) : (s.setCore lc c).boot = s.boot := rfl
@[simp] theorem State.setCore_service (s : State) (lc : Nat) (c : Core) : (s.setCore lc c).service = s.service := rfl
@[simp] theorem State.setCore_power (s : State) (lc : Nat) (c : Core) : (s.setCore lc c).power = s.power := rfl

@[simp] theorem State.setFe_tick (s : State) (n : Nat) (c : FeCore) : (s.setFe n c).tick = s.tick := rfl
@[simp] theorem State.setFe_agent (s : State) (n : Nat) (c : FeCore) : (s.setFe n c).agent = s.agent := rfl
@[simp] theorem State.setFe_inputs (s : State) (n : Nat) (c : FeCore) : (s.setFe n c).inputs = s.inputs := rfl
@[simp] theorem State.setFe_mem (s : State) (n : Nat) (c : FeCore) : (s.setFe n c).mem = s.mem := rfl
@[simp] theorem State.setFe_cores (s : State) (n : Nat) (c : FeCore) : (s.setFe n c).cores = s.cores := rfl
@[simp] theorem State.setFe_fes (s : State) (n : Nat) (c : FeCore) : (s.setFe n c).fes = tput n c s.fes := rfl
@[simp] theorem State.setFe_feTab (s : State) (n : Nat) (c : FeCore) : (s.setFe n c).feTab = s.feTab := rfl
@[simp] theorem State.setFe_counters (s : State) (n : Nat) (c : FeCore) : (s.setFe n c).counters = s.counters := rfl
@[simp] theorem State.setFe_timestamp (s : State) (n : Nat) (c : FeCore) : (s.setFe n c).timestamp = s.timestamp := rfl
@[simp] theorem State.setFe_devid (s : State) (n : Nat) (c : FeCore) : (s.setFe n c).devid = s.devid := rfl
@[simp] theorem State.setFe_tiles (s : State) (n : Nat) (c : FeCore) : (s.setFe n c).tiles = s.tiles := rfl
@[simp] theorem State.setFe_clusters (s : State) (n : Nat) (c : FeCore) : (s.setFe n c).clusters = s.clusters := rfl
@[simp] theorem State.setFe_dies (s : State) (n : Nat) (c : FeCore) : (s.setFe n c).dies = s.dies := rfl
@[simp] theorem State.setFe_rails (s : State) (n : Nat) (c : FeCore) : (s.setFe n c).rails = s.rails := rfl
@[simp] theorem State.setFe_slices (s : State) (n : Nat) (c : FeCore) : (s.setFe n c).slices = s.slices := rfl
@[simp] theorem State.setFe_prog (s : State) (n : Nat) (c : FeCore) : (s.setFe n c).prog = s.prog := rfl
@[simp] theorem State.setFe_funcs (s : State) (n : Nat) (c : FeCore) : (s.setFe n c).funcs = s.funcs := rfl
@[simp] theorem State.setFe_vcps (s : State) (n : Nat) (c : FeCore) : (s.setFe n c).vcps = s.vcps := rfl
@[simp] theorem State.setFe_plugins (s : State) (n : Nat) (c : FeCore) : (s.setFe n c).plugins = s.plugins := rfl
@[simp] theorem State.setFe_journalUsed (s : State) (n : Nat) (c : FeCore) : (s.setFe n c).journalUsed = s.journalUsed := rfl
@[simp] theorem State.setFe_journalGap (s : State) (n : Nat) (c : FeCore) : (s.setFe n c).journalGap = s.journalGap := rfl
@[simp] theorem State.setFe_preempts (s : State) (n : Nat) (c : FeCore) : (s.setFe n c).preempts = s.preempts := rfl
@[simp] theorem State.setFe_shootdowns (s : State) (n : Nat) (c : FeCore) : (s.setFe n c).shootdowns = s.shootdowns := rfl
@[simp] theorem State.setFe_links (s : State) (n : Nat) (c : FeCore) : (s.setFe n c).links = s.links := rfl
@[simp] theorem State.setFe_boot (s : State) (n : Nat) (c : FeCore) : (s.setFe n c).boot = s.boot := rfl
@[simp] theorem State.setFe_service (s : State) (n : Nat) (c : FeCore) : (s.setFe n c).service = s.service := rfl
@[simp] theorem State.setFe_power (s : State) (n : Nat) (c : FeCore) : (s.setFe n c).power = s.power := rfl

@[simp] theorem State.setTile_tick (s : State) (t : Nat) (x : Tile) : (s.setTile t x).tick = s.tick := rfl
@[simp] theorem State.setTile_agent (s : State) (t : Nat) (x : Tile) : (s.setTile t x).agent = s.agent := rfl
@[simp] theorem State.setTile_inputs (s : State) (t : Nat) (x : Tile) : (s.setTile t x).inputs = s.inputs := rfl
@[simp] theorem State.setTile_mem (s : State) (t : Nat) (x : Tile) : (s.setTile t x).mem = s.mem := rfl
@[simp] theorem State.setTile_cores (s : State) (t : Nat) (x : Tile) : (s.setTile t x).cores = s.cores := rfl
@[simp] theorem State.setTile_fes (s : State) (t : Nat) (x : Tile) : (s.setTile t x).fes = s.fes := rfl
@[simp] theorem State.setTile_feTab (s : State) (t : Nat) (x : Tile) : (s.setTile t x).feTab = s.feTab := rfl
@[simp] theorem State.setTile_counters (s : State) (t : Nat) (x : Tile) : (s.setTile t x).counters = s.counters := rfl
@[simp] theorem State.setTile_timestamp (s : State) (t : Nat) (x : Tile) : (s.setTile t x).timestamp = s.timestamp := rfl
@[simp] theorem State.setTile_devid (s : State) (t : Nat) (x : Tile) : (s.setTile t x).devid = s.devid := rfl
@[simp] theorem State.setTile_tiles (s : State) (t : Nat) (x : Tile) : (s.setTile t x).tiles = tput t x s.tiles := rfl
@[simp] theorem State.setTile_clusters (s : State) (t : Nat) (x : Tile) : (s.setTile t x).clusters = s.clusters := rfl
@[simp] theorem State.setTile_dies (s : State) (t : Nat) (x : Tile) : (s.setTile t x).dies = s.dies := rfl
@[simp] theorem State.setTile_rails (s : State) (t : Nat) (x : Tile) : (s.setTile t x).rails = s.rails := rfl
@[simp] theorem State.setTile_slices (s : State) (t : Nat) (x : Tile) : (s.setTile t x).slices = s.slices := rfl
@[simp] theorem State.setTile_prog (s : State) (t : Nat) (x : Tile) : (s.setTile t x).prog = s.prog := rfl
@[simp] theorem State.setTile_funcs (s : State) (t : Nat) (x : Tile) : (s.setTile t x).funcs = s.funcs := rfl
@[simp] theorem State.setTile_vcps (s : State) (t : Nat) (x : Tile) : (s.setTile t x).vcps = s.vcps := rfl
@[simp] theorem State.setTile_plugins (s : State) (t : Nat) (x : Tile) : (s.setTile t x).plugins = s.plugins := rfl
@[simp] theorem State.setTile_journalUsed (s : State) (t : Nat) (x : Tile) : (s.setTile t x).journalUsed = s.journalUsed := rfl
@[simp] theorem State.setTile_journalGap (s : State) (t : Nat) (x : Tile) : (s.setTile t x).journalGap = s.journalGap := rfl
@[simp] theorem State.setTile_preempts (s : State) (t : Nat) (x : Tile) : (s.setTile t x).preempts = s.preempts := rfl
@[simp] theorem State.setTile_shootdowns (s : State) (t : Nat) (x : Tile) : (s.setTile t x).shootdowns = s.shootdowns := rfl
@[simp] theorem State.setTile_links (s : State) (t : Nat) (x : Tile) : (s.setTile t x).links = s.links := rfl
@[simp] theorem State.setTile_boot (s : State) (t : Nat) (x : Tile) : (s.setTile t x).boot = s.boot := rfl
@[simp] theorem State.setTile_service (s : State) (t : Nat) (x : Tile) : (s.setTile t x).service = s.service := rfl
@[simp] theorem State.setTile_power (s : State) (t : Nat) (x : Tile) : (s.setTile t x).power = s.power := rfl

@[simp] theorem State.setCluster_tick (s : State) (c : Nat) (x : Cluster) : (s.setCluster c x).tick = s.tick := rfl
@[simp] theorem State.setCluster_agent (s : State) (c : Nat) (x : Cluster) : (s.setCluster c x).agent = s.agent := rfl
@[simp] theorem State.setCluster_inputs (s : State) (c : Nat) (x : Cluster) : (s.setCluster c x).inputs = s.inputs := rfl
@[simp] theorem State.setCluster_mem (s : State) (c : Nat) (x : Cluster) : (s.setCluster c x).mem = s.mem := rfl
@[simp] theorem State.setCluster_cores (s : State) (c : Nat) (x : Cluster) : (s.setCluster c x).cores = s.cores := rfl
@[simp] theorem State.setCluster_fes (s : State) (c : Nat) (x : Cluster) : (s.setCluster c x).fes = s.fes := rfl
@[simp] theorem State.setCluster_feTab (s : State) (c : Nat) (x : Cluster) : (s.setCluster c x).feTab = s.feTab := rfl
@[simp] theorem State.setCluster_counters (s : State) (c : Nat) (x : Cluster) : (s.setCluster c x).counters = s.counters := rfl
@[simp] theorem State.setCluster_timestamp (s : State) (c : Nat) (x : Cluster) : (s.setCluster c x).timestamp = s.timestamp := rfl
@[simp] theorem State.setCluster_devid (s : State) (c : Nat) (x : Cluster) : (s.setCluster c x).devid = s.devid := rfl
@[simp] theorem State.setCluster_tiles (s : State) (c : Nat) (x : Cluster) : (s.setCluster c x).tiles = s.tiles := rfl
@[simp] theorem State.setCluster_clusters (s : State) (c : Nat) (x : Cluster) : (s.setCluster c x).clusters = tput c x s.clusters := rfl
@[simp] theorem State.setCluster_dies (s : State) (c : Nat) (x : Cluster) : (s.setCluster c x).dies = s.dies := rfl
@[simp] theorem State.setCluster_rails (s : State) (c : Nat) (x : Cluster) : (s.setCluster c x).rails = s.rails := rfl
@[simp] theorem State.setCluster_slices (s : State) (c : Nat) (x : Cluster) : (s.setCluster c x).slices = s.slices := rfl
@[simp] theorem State.setCluster_prog (s : State) (c : Nat) (x : Cluster) : (s.setCluster c x).prog = s.prog := rfl
@[simp] theorem State.setCluster_funcs (s : State) (c : Nat) (x : Cluster) : (s.setCluster c x).funcs = s.funcs := rfl
@[simp] theorem State.setCluster_vcps (s : State) (c : Nat) (x : Cluster) : (s.setCluster c x).vcps = s.vcps := rfl
@[simp] theorem State.setCluster_plugins (s : State) (c : Nat) (x : Cluster) : (s.setCluster c x).plugins = s.plugins := rfl
@[simp] theorem State.setCluster_journalUsed (s : State) (c : Nat) (x : Cluster) : (s.setCluster c x).journalUsed = s.journalUsed := rfl
@[simp] theorem State.setCluster_journalGap (s : State) (c : Nat) (x : Cluster) : (s.setCluster c x).journalGap = s.journalGap := rfl
@[simp] theorem State.setCluster_preempts (s : State) (c : Nat) (x : Cluster) : (s.setCluster c x).preempts = s.preempts := rfl
@[simp] theorem State.setCluster_shootdowns (s : State) (c : Nat) (x : Cluster) : (s.setCluster c x).shootdowns = s.shootdowns := rfl
@[simp] theorem State.setCluster_links (s : State) (c : Nat) (x : Cluster) : (s.setCluster c x).links = s.links := rfl
@[simp] theorem State.setCluster_boot (s : State) (c : Nat) (x : Cluster) : (s.setCluster c x).boot = s.boot := rfl
@[simp] theorem State.setCluster_service (s : State) (c : Nat) (x : Cluster) : (s.setCluster c x).service = s.service := rfl
@[simp] theorem State.setCluster_power (s : State) (c : Nat) (x : Cluster) : (s.setCluster c x).power = s.power := rfl

@[simp] theorem State.setDie_tick (s : State) (d : Nat) (x : Die) : (s.setDie d x).tick = s.tick := rfl
@[simp] theorem State.setDie_agent (s : State) (d : Nat) (x : Die) : (s.setDie d x).agent = s.agent := rfl
@[simp] theorem State.setDie_inputs (s : State) (d : Nat) (x : Die) : (s.setDie d x).inputs = s.inputs := rfl
@[simp] theorem State.setDie_mem (s : State) (d : Nat) (x : Die) : (s.setDie d x).mem = s.mem := rfl
@[simp] theorem State.setDie_cores (s : State) (d : Nat) (x : Die) : (s.setDie d x).cores = s.cores := rfl
@[simp] theorem State.setDie_fes (s : State) (d : Nat) (x : Die) : (s.setDie d x).fes = s.fes := rfl
@[simp] theorem State.setDie_feTab (s : State) (d : Nat) (x : Die) : (s.setDie d x).feTab = s.feTab := rfl
@[simp] theorem State.setDie_counters (s : State) (d : Nat) (x : Die) : (s.setDie d x).counters = s.counters := rfl
@[simp] theorem State.setDie_timestamp (s : State) (d : Nat) (x : Die) : (s.setDie d x).timestamp = s.timestamp := rfl
@[simp] theorem State.setDie_devid (s : State) (d : Nat) (x : Die) : (s.setDie d x).devid = s.devid := rfl
@[simp] theorem State.setDie_tiles (s : State) (d : Nat) (x : Die) : (s.setDie d x).tiles = s.tiles := rfl
@[simp] theorem State.setDie_clusters (s : State) (d : Nat) (x : Die) : (s.setDie d x).clusters = s.clusters := rfl
@[simp] theorem State.setDie_dies (s : State) (d : Nat) (x : Die) : (s.setDie d x).dies = tput d x s.dies := rfl
@[simp] theorem State.setDie_rails (s : State) (d : Nat) (x : Die) : (s.setDie d x).rails = s.rails := rfl
@[simp] theorem State.setDie_slices (s : State) (d : Nat) (x : Die) : (s.setDie d x).slices = s.slices := rfl
@[simp] theorem State.setDie_prog (s : State) (d : Nat) (x : Die) : (s.setDie d x).prog = s.prog := rfl
@[simp] theorem State.setDie_funcs (s : State) (d : Nat) (x : Die) : (s.setDie d x).funcs = s.funcs := rfl
@[simp] theorem State.setDie_vcps (s : State) (d : Nat) (x : Die) : (s.setDie d x).vcps = s.vcps := rfl
@[simp] theorem State.setDie_plugins (s : State) (d : Nat) (x : Die) : (s.setDie d x).plugins = s.plugins := rfl
@[simp] theorem State.setDie_journalUsed (s : State) (d : Nat) (x : Die) : (s.setDie d x).journalUsed = s.journalUsed := rfl
@[simp] theorem State.setDie_journalGap (s : State) (d : Nat) (x : Die) : (s.setDie d x).journalGap = s.journalGap := rfl
@[simp] theorem State.setDie_preempts (s : State) (d : Nat) (x : Die) : (s.setDie d x).preempts = s.preempts := rfl
@[simp] theorem State.setDie_shootdowns (s : State) (d : Nat) (x : Die) : (s.setDie d x).shootdowns = s.shootdowns := rfl
@[simp] theorem State.setDie_links (s : State) (d : Nat) (x : Die) : (s.setDie d x).links = s.links := rfl
@[simp] theorem State.setDie_boot (s : State) (d : Nat) (x : Die) : (s.setDie d x).boot = s.boot := rfl
@[simp] theorem State.setDie_service (s : State) (d : Nat) (x : Die) : (s.setDie d x).service = s.service := rfl
@[simp] theorem State.setDie_power (s : State) (d : Nat) (x : Die) : (s.setDie d x).power = s.power := rfl

@[simp] theorem State.setRail_tick (s : State) (r : Nat) (x : Rail) : (s.setRail r x).tick = s.tick := rfl
@[simp] theorem State.setRail_agent (s : State) (r : Nat) (x : Rail) : (s.setRail r x).agent = s.agent := rfl
@[simp] theorem State.setRail_inputs (s : State) (r : Nat) (x : Rail) : (s.setRail r x).inputs = s.inputs := rfl
@[simp] theorem State.setRail_mem (s : State) (r : Nat) (x : Rail) : (s.setRail r x).mem = s.mem := rfl
@[simp] theorem State.setRail_cores (s : State) (r : Nat) (x : Rail) : (s.setRail r x).cores = s.cores := rfl
@[simp] theorem State.setRail_fes (s : State) (r : Nat) (x : Rail) : (s.setRail r x).fes = s.fes := rfl
@[simp] theorem State.setRail_feTab (s : State) (r : Nat) (x : Rail) : (s.setRail r x).feTab = s.feTab := rfl
@[simp] theorem State.setRail_counters (s : State) (r : Nat) (x : Rail) : (s.setRail r x).counters = s.counters := rfl
@[simp] theorem State.setRail_timestamp (s : State) (r : Nat) (x : Rail) : (s.setRail r x).timestamp = s.timestamp := rfl
@[simp] theorem State.setRail_devid (s : State) (r : Nat) (x : Rail) : (s.setRail r x).devid = s.devid := rfl
@[simp] theorem State.setRail_tiles (s : State) (r : Nat) (x : Rail) : (s.setRail r x).tiles = s.tiles := rfl
@[simp] theorem State.setRail_clusters (s : State) (r : Nat) (x : Rail) : (s.setRail r x).clusters = s.clusters := rfl
@[simp] theorem State.setRail_dies (s : State) (r : Nat) (x : Rail) : (s.setRail r x).dies = s.dies := rfl
@[simp] theorem State.setRail_rails (s : State) (r : Nat) (x : Rail) : (s.setRail r x).rails = tput r x s.rails := rfl
@[simp] theorem State.setRail_slices (s : State) (r : Nat) (x : Rail) : (s.setRail r x).slices = s.slices := rfl
@[simp] theorem State.setRail_prog (s : State) (r : Nat) (x : Rail) : (s.setRail r x).prog = s.prog := rfl
@[simp] theorem State.setRail_funcs (s : State) (r : Nat) (x : Rail) : (s.setRail r x).funcs = s.funcs := rfl
@[simp] theorem State.setRail_vcps (s : State) (r : Nat) (x : Rail) : (s.setRail r x).vcps = s.vcps := rfl
@[simp] theorem State.setRail_plugins (s : State) (r : Nat) (x : Rail) : (s.setRail r x).plugins = s.plugins := rfl
@[simp] theorem State.setRail_journalUsed (s : State) (r : Nat) (x : Rail) : (s.setRail r x).journalUsed = s.journalUsed := rfl
@[simp] theorem State.setRail_journalGap (s : State) (r : Nat) (x : Rail) : (s.setRail r x).journalGap = s.journalGap := rfl
@[simp] theorem State.setRail_preempts (s : State) (r : Nat) (x : Rail) : (s.setRail r x).preempts = s.preempts := rfl
@[simp] theorem State.setRail_shootdowns (s : State) (r : Nat) (x : Rail) : (s.setRail r x).shootdowns = s.shootdowns := rfl
@[simp] theorem State.setRail_links (s : State) (r : Nat) (x : Rail) : (s.setRail r x).links = s.links := rfl
@[simp] theorem State.setRail_boot (s : State) (r : Nat) (x : Rail) : (s.setRail r x).boot = s.boot := rfl
@[simp] theorem State.setRail_service (s : State) (r : Nat) (x : Rail) : (s.setRail r x).service = s.service := rfl
@[simp] theorem State.setRail_power (s : State) (r : Nat) (x : Rail) : (s.setRail r x).power = s.power := rfl

@[simp] theorem State.setSlice_tick (s : State) (n : Nat) (x : Slice) : (s.setSlice n x).tick = s.tick := rfl
@[simp] theorem State.setSlice_agent (s : State) (n : Nat) (x : Slice) : (s.setSlice n x).agent = s.agent := rfl
@[simp] theorem State.setSlice_inputs (s : State) (n : Nat) (x : Slice) : (s.setSlice n x).inputs = s.inputs := rfl
@[simp] theorem State.setSlice_mem (s : State) (n : Nat) (x : Slice) : (s.setSlice n x).mem = s.mem := rfl
@[simp] theorem State.setSlice_cores (s : State) (n : Nat) (x : Slice) : (s.setSlice n x).cores = s.cores := rfl
@[simp] theorem State.setSlice_fes (s : State) (n : Nat) (x : Slice) : (s.setSlice n x).fes = s.fes := rfl
@[simp] theorem State.setSlice_feTab (s : State) (n : Nat) (x : Slice) : (s.setSlice n x).feTab = s.feTab := rfl
@[simp] theorem State.setSlice_counters (s : State) (n : Nat) (x : Slice) : (s.setSlice n x).counters = s.counters := rfl
@[simp] theorem State.setSlice_timestamp (s : State) (n : Nat) (x : Slice) : (s.setSlice n x).timestamp = s.timestamp := rfl
@[simp] theorem State.setSlice_devid (s : State) (n : Nat) (x : Slice) : (s.setSlice n x).devid = s.devid := rfl
@[simp] theorem State.setSlice_tiles (s : State) (n : Nat) (x : Slice) : (s.setSlice n x).tiles = s.tiles := rfl
@[simp] theorem State.setSlice_clusters (s : State) (n : Nat) (x : Slice) : (s.setSlice n x).clusters = s.clusters := rfl
@[simp] theorem State.setSlice_dies (s : State) (n : Nat) (x : Slice) : (s.setSlice n x).dies = s.dies := rfl
@[simp] theorem State.setSlice_rails (s : State) (n : Nat) (x : Slice) : (s.setSlice n x).rails = s.rails := rfl
@[simp] theorem State.setSlice_slices (s : State) (n : Nat) (x : Slice) : (s.setSlice n x).slices = tput n x s.slices := rfl
@[simp] theorem State.setSlice_prog (s : State) (n : Nat) (x : Slice) : (s.setSlice n x).prog = s.prog := rfl
@[simp] theorem State.setSlice_funcs (s : State) (n : Nat) (x : Slice) : (s.setSlice n x).funcs = s.funcs := rfl
@[simp] theorem State.setSlice_vcps (s : State) (n : Nat) (x : Slice) : (s.setSlice n x).vcps = s.vcps := rfl
@[simp] theorem State.setSlice_plugins (s : State) (n : Nat) (x : Slice) : (s.setSlice n x).plugins = s.plugins := rfl
@[simp] theorem State.setSlice_journalUsed (s : State) (n : Nat) (x : Slice) : (s.setSlice n x).journalUsed = s.journalUsed := rfl
@[simp] theorem State.setSlice_journalGap (s : State) (n : Nat) (x : Slice) : (s.setSlice n x).journalGap = s.journalGap := rfl
@[simp] theorem State.setSlice_preempts (s : State) (n : Nat) (x : Slice) : (s.setSlice n x).preempts = s.preempts := rfl
@[simp] theorem State.setSlice_shootdowns (s : State) (n : Nat) (x : Slice) : (s.setSlice n x).shootdowns = s.shootdowns := rfl
@[simp] theorem State.setSlice_links (s : State) (n : Nat) (x : Slice) : (s.setSlice n x).links = s.links := rfl
@[simp] theorem State.setSlice_boot (s : State) (n : Nat) (x : Slice) : (s.setSlice n x).boot = s.boot := rfl
@[simp] theorem State.setSlice_service (s : State) (n : Nat) (x : Slice) : (s.setSlice n x).service = s.service := rfl
@[simp] theorem State.setSlice_power (s : State) (n : Nat) (x : Slice) : (s.setSlice n x).power = s.power := rfl

@[simp] theorem State.setFunc_tick (s : State) (f : Nat) (x : Func) : (s.setFunc f x).tick = s.tick := rfl
@[simp] theorem State.setFunc_agent (s : State) (f : Nat) (x : Func) : (s.setFunc f x).agent = s.agent := rfl
@[simp] theorem State.setFunc_inputs (s : State) (f : Nat) (x : Func) : (s.setFunc f x).inputs = s.inputs := rfl
@[simp] theorem State.setFunc_mem (s : State) (f : Nat) (x : Func) : (s.setFunc f x).mem = s.mem := rfl
@[simp] theorem State.setFunc_cores (s : State) (f : Nat) (x : Func) : (s.setFunc f x).cores = s.cores := rfl
@[simp] theorem State.setFunc_fes (s : State) (f : Nat) (x : Func) : (s.setFunc f x).fes = s.fes := rfl
@[simp] theorem State.setFunc_feTab (s : State) (f : Nat) (x : Func) : (s.setFunc f x).feTab = s.feTab := rfl
@[simp] theorem State.setFunc_counters (s : State) (f : Nat) (x : Func) : (s.setFunc f x).counters = s.counters := rfl
@[simp] theorem State.setFunc_timestamp (s : State) (f : Nat) (x : Func) : (s.setFunc f x).timestamp = s.timestamp := rfl
@[simp] theorem State.setFunc_devid (s : State) (f : Nat) (x : Func) : (s.setFunc f x).devid = s.devid := rfl
@[simp] theorem State.setFunc_tiles (s : State) (f : Nat) (x : Func) : (s.setFunc f x).tiles = s.tiles := rfl
@[simp] theorem State.setFunc_clusters (s : State) (f : Nat) (x : Func) : (s.setFunc f x).clusters = s.clusters := rfl
@[simp] theorem State.setFunc_dies (s : State) (f : Nat) (x : Func) : (s.setFunc f x).dies = s.dies := rfl
@[simp] theorem State.setFunc_rails (s : State) (f : Nat) (x : Func) : (s.setFunc f x).rails = s.rails := rfl
@[simp] theorem State.setFunc_slices (s : State) (f : Nat) (x : Func) : (s.setFunc f x).slices = s.slices := rfl
@[simp] theorem State.setFunc_prog (s : State) (f : Nat) (x : Func) : (s.setFunc f x).prog = s.prog := rfl
@[simp] theorem State.setFunc_funcs (s : State) (f : Nat) (x : Func) : (s.setFunc f x).funcs = tput f x s.funcs := rfl
@[simp] theorem State.setFunc_vcps (s : State) (f : Nat) (x : Func) : (s.setFunc f x).vcps = s.vcps := rfl
@[simp] theorem State.setFunc_plugins (s : State) (f : Nat) (x : Func) : (s.setFunc f x).plugins = s.plugins := rfl
@[simp] theorem State.setFunc_journalUsed (s : State) (f : Nat) (x : Func) : (s.setFunc f x).journalUsed = s.journalUsed := rfl
@[simp] theorem State.setFunc_journalGap (s : State) (f : Nat) (x : Func) : (s.setFunc f x).journalGap = s.journalGap := rfl
@[simp] theorem State.setFunc_preempts (s : State) (f : Nat) (x : Func) : (s.setFunc f x).preempts = s.preempts := rfl
@[simp] theorem State.setFunc_shootdowns (s : State) (f : Nat) (x : Func) : (s.setFunc f x).shootdowns = s.shootdowns := rfl
@[simp] theorem State.setFunc_links (s : State) (f : Nat) (x : Func) : (s.setFunc f x).links = s.links := rfl
@[simp] theorem State.setFunc_boot (s : State) (f : Nat) (x : Func) : (s.setFunc f x).boot = s.boot := rfl
@[simp] theorem State.setFunc_service (s : State) (f : Nat) (x : Func) : (s.setFunc f x).service = s.service := rfl
@[simp] theorem State.setFunc_power (s : State) (f : Nat) (x : Func) : (s.setFunc f x).power = s.power := rfl

@[simp] theorem State.setVcp_tick (s : State) (f v : Nat) (x : Vcp) : (s.setVcp f v x).tick = s.tick := rfl
@[simp] theorem State.setVcp_agent (s : State) (f v : Nat) (x : Vcp) : (s.setVcp f v x).agent = s.agent := rfl
@[simp] theorem State.setVcp_inputs (s : State) (f v : Nat) (x : Vcp) : (s.setVcp f v x).inputs = s.inputs := rfl
@[simp] theorem State.setVcp_mem (s : State) (f v : Nat) (x : Vcp) : (s.setVcp f v x).mem = s.mem := rfl
@[simp] theorem State.setVcp_cores (s : State) (f v : Nat) (x : Vcp) : (s.setVcp f v x).cores = s.cores := rfl
@[simp] theorem State.setVcp_fes (s : State) (f v : Nat) (x : Vcp) : (s.setVcp f v x).fes = s.fes := rfl
@[simp] theorem State.setVcp_feTab (s : State) (f v : Nat) (x : Vcp) : (s.setVcp f v x).feTab = s.feTab := rfl
@[simp] theorem State.setVcp_counters (s : State) (f v : Nat) (x : Vcp) : (s.setVcp f v x).counters = s.counters := rfl
@[simp] theorem State.setVcp_timestamp (s : State) (f v : Nat) (x : Vcp) : (s.setVcp f v x).timestamp = s.timestamp := rfl
@[simp] theorem State.setVcp_devid (s : State) (f v : Nat) (x : Vcp) : (s.setVcp f v x).devid = s.devid := rfl
@[simp] theorem State.setVcp_tiles (s : State) (f v : Nat) (x : Vcp) : (s.setVcp f v x).tiles = s.tiles := rfl
@[simp] theorem State.setVcp_clusters (s : State) (f v : Nat) (x : Vcp) : (s.setVcp f v x).clusters = s.clusters := rfl
@[simp] theorem State.setVcp_dies (s : State) (f v : Nat) (x : Vcp) : (s.setVcp f v x).dies = s.dies := rfl
@[simp] theorem State.setVcp_rails (s : State) (f v : Nat) (x : Vcp) : (s.setVcp f v x).rails = s.rails := rfl
@[simp] theorem State.setVcp_slices (s : State) (f v : Nat) (x : Vcp) : (s.setVcp f v x).slices = s.slices := rfl
@[simp] theorem State.setVcp_prog (s : State) (f v : Nat) (x : Vcp) : (s.setVcp f v x).prog = s.prog := rfl
@[simp] theorem State.setVcp_funcs (s : State) (f v : Nat) (x : Vcp) : (s.setVcp f v x).funcs = s.funcs := rfl
@[simp] theorem State.setVcp_vcps (s : State) (f v : Nat) (x : Vcp) : (s.setVcp f v x).vcps = tput (16 * f + v) x s.vcps := rfl
@[simp] theorem State.setVcp_plugins (s : State) (f v : Nat) (x : Vcp) : (s.setVcp f v x).plugins = s.plugins := rfl
@[simp] theorem State.setVcp_journalUsed (s : State) (f v : Nat) (x : Vcp) : (s.setVcp f v x).journalUsed = s.journalUsed := rfl
@[simp] theorem State.setVcp_journalGap (s : State) (f v : Nat) (x : Vcp) : (s.setVcp f v x).journalGap = s.journalGap := rfl
@[simp] theorem State.setVcp_preempts (s : State) (f v : Nat) (x : Vcp) : (s.setVcp f v x).preempts = s.preempts := rfl
@[simp] theorem State.setVcp_shootdowns (s : State) (f v : Nat) (x : Vcp) : (s.setVcp f v x).shootdowns = s.shootdowns := rfl
@[simp] theorem State.setVcp_links (s : State) (f v : Nat) (x : Vcp) : (s.setVcp f v x).links = s.links := rfl
@[simp] theorem State.setVcp_boot (s : State) (f v : Nat) (x : Vcp) : (s.setVcp f v x).boot = s.boot := rfl
@[simp] theorem State.setVcp_service (s : State) (f v : Nat) (x : Vcp) : (s.setVcp f v x).service = s.service := rfl
@[simp] theorem State.setVcp_power (s : State) (f v : Nat) (x : Vcp) : (s.setVcp f v x).power = s.power := rfl

@[simp] theorem State.setPlugin_tick (s : State) (n : Nat) (x : Plugin) : (s.setPlugin n x).tick = s.tick := rfl
@[simp] theorem State.setPlugin_agent (s : State) (n : Nat) (x : Plugin) : (s.setPlugin n x).agent = s.agent := rfl
@[simp] theorem State.setPlugin_inputs (s : State) (n : Nat) (x : Plugin) : (s.setPlugin n x).inputs = s.inputs := rfl
@[simp] theorem State.setPlugin_mem (s : State) (n : Nat) (x : Plugin) : (s.setPlugin n x).mem = s.mem := rfl
@[simp] theorem State.setPlugin_cores (s : State) (n : Nat) (x : Plugin) : (s.setPlugin n x).cores = s.cores := rfl
@[simp] theorem State.setPlugin_fes (s : State) (n : Nat) (x : Plugin) : (s.setPlugin n x).fes = s.fes := rfl
@[simp] theorem State.setPlugin_feTab (s : State) (n : Nat) (x : Plugin) : (s.setPlugin n x).feTab = s.feTab := rfl
@[simp] theorem State.setPlugin_counters (s : State) (n : Nat) (x : Plugin) : (s.setPlugin n x).counters = s.counters := rfl
@[simp] theorem State.setPlugin_timestamp (s : State) (n : Nat) (x : Plugin) : (s.setPlugin n x).timestamp = s.timestamp := rfl
@[simp] theorem State.setPlugin_devid (s : State) (n : Nat) (x : Plugin) : (s.setPlugin n x).devid = s.devid := rfl
@[simp] theorem State.setPlugin_tiles (s : State) (n : Nat) (x : Plugin) : (s.setPlugin n x).tiles = s.tiles := rfl
@[simp] theorem State.setPlugin_clusters (s : State) (n : Nat) (x : Plugin) : (s.setPlugin n x).clusters = s.clusters := rfl
@[simp] theorem State.setPlugin_dies (s : State) (n : Nat) (x : Plugin) : (s.setPlugin n x).dies = s.dies := rfl
@[simp] theorem State.setPlugin_rails (s : State) (n : Nat) (x : Plugin) : (s.setPlugin n x).rails = s.rails := rfl
@[simp] theorem State.setPlugin_slices (s : State) (n : Nat) (x : Plugin) : (s.setPlugin n x).slices = s.slices := rfl
@[simp] theorem State.setPlugin_prog (s : State) (n : Nat) (x : Plugin) : (s.setPlugin n x).prog = s.prog := rfl
@[simp] theorem State.setPlugin_funcs (s : State) (n : Nat) (x : Plugin) : (s.setPlugin n x).funcs = s.funcs := rfl
@[simp] theorem State.setPlugin_vcps (s : State) (n : Nat) (x : Plugin) : (s.setPlugin n x).vcps = s.vcps := rfl
@[simp] theorem State.setPlugin_plugins (s : State) (n : Nat) (x : Plugin) : (s.setPlugin n x).plugins = tput n x s.plugins := rfl
@[simp] theorem State.setPlugin_journalUsed (s : State) (n : Nat) (x : Plugin) : (s.setPlugin n x).journalUsed = s.journalUsed := rfl
@[simp] theorem State.setPlugin_journalGap (s : State) (n : Nat) (x : Plugin) : (s.setPlugin n x).journalGap = s.journalGap := rfl
@[simp] theorem State.setPlugin_preempts (s : State) (n : Nat) (x : Plugin) : (s.setPlugin n x).preempts = s.preempts := rfl
@[simp] theorem State.setPlugin_shootdowns (s : State) (n : Nat) (x : Plugin) : (s.setPlugin n x).shootdowns = s.shootdowns := rfl
@[simp] theorem State.setPlugin_links (s : State) (n : Nat) (x : Plugin) : (s.setPlugin n x).links = s.links := rfl
@[simp] theorem State.setPlugin_boot (s : State) (n : Nat) (x : Plugin) : (s.setPlugin n x).boot = s.boot := rfl
@[simp] theorem State.setPlugin_service (s : State) (n : Nat) (x : Plugin) : (s.setPlugin n x).service = s.service := rfl
@[simp] theorem State.setPlugin_power (s : State) (n : Nat) (x : Plugin) : (s.setPlugin n x).power = s.power := rfl

@[simp] theorem State.setPreemption_tick (s : State) (p : Nat) (x : Preemption) : (s.setPreemption p x).tick = s.tick := rfl
@[simp] theorem State.setPreemption_agent (s : State) (p : Nat) (x : Preemption) : (s.setPreemption p x).agent = s.agent := rfl
@[simp] theorem State.setPreemption_inputs (s : State) (p : Nat) (x : Preemption) : (s.setPreemption p x).inputs = s.inputs := rfl
@[simp] theorem State.setPreemption_mem (s : State) (p : Nat) (x : Preemption) : (s.setPreemption p x).mem = s.mem := rfl
@[simp] theorem State.setPreemption_cores (s : State) (p : Nat) (x : Preemption) : (s.setPreemption p x).cores = s.cores := rfl
@[simp] theorem State.setPreemption_fes (s : State) (p : Nat) (x : Preemption) : (s.setPreemption p x).fes = s.fes := rfl
@[simp] theorem State.setPreemption_feTab (s : State) (p : Nat) (x : Preemption) : (s.setPreemption p x).feTab = s.feTab := rfl
@[simp] theorem State.setPreemption_counters (s : State) (p : Nat) (x : Preemption) : (s.setPreemption p x).counters = s.counters := rfl
@[simp] theorem State.setPreemption_timestamp (s : State) (p : Nat) (x : Preemption) : (s.setPreemption p x).timestamp = s.timestamp := rfl
@[simp] theorem State.setPreemption_devid (s : State) (p : Nat) (x : Preemption) : (s.setPreemption p x).devid = s.devid := rfl
@[simp] theorem State.setPreemption_tiles (s : State) (p : Nat) (x : Preemption) : (s.setPreemption p x).tiles = s.tiles := rfl
@[simp] theorem State.setPreemption_clusters (s : State) (p : Nat) (x : Preemption) : (s.setPreemption p x).clusters = s.clusters := rfl
@[simp] theorem State.setPreemption_dies (s : State) (p : Nat) (x : Preemption) : (s.setPreemption p x).dies = s.dies := rfl
@[simp] theorem State.setPreemption_rails (s : State) (p : Nat) (x : Preemption) : (s.setPreemption p x).rails = s.rails := rfl
@[simp] theorem State.setPreemption_slices (s : State) (p : Nat) (x : Preemption) : (s.setPreemption p x).slices = s.slices := rfl
@[simp] theorem State.setPreemption_prog (s : State) (p : Nat) (x : Preemption) : (s.setPreemption p x).prog = s.prog := rfl
@[simp] theorem State.setPreemption_funcs (s : State) (p : Nat) (x : Preemption) : (s.setPreemption p x).funcs = s.funcs := rfl
@[simp] theorem State.setPreemption_vcps (s : State) (p : Nat) (x : Preemption) : (s.setPreemption p x).vcps = s.vcps := rfl
@[simp] theorem State.setPreemption_plugins (s : State) (p : Nat) (x : Preemption) : (s.setPreemption p x).plugins = s.plugins := rfl
@[simp] theorem State.setPreemption_journalUsed (s : State) (p : Nat) (x : Preemption) : (s.setPreemption p x).journalUsed = s.journalUsed := rfl
@[simp] theorem State.setPreemption_journalGap (s : State) (p : Nat) (x : Preemption) : (s.setPreemption p x).journalGap = s.journalGap := rfl
@[simp] theorem State.setPreemption_preempts (s : State) (p : Nat) (x : Preemption) : (s.setPreemption p x).preempts = tput p x s.preempts := rfl
@[simp] theorem State.setPreemption_shootdowns (s : State) (p : Nat) (x : Preemption) : (s.setPreemption p x).shootdowns = s.shootdowns := rfl
@[simp] theorem State.setPreemption_links (s : State) (p : Nat) (x : Preemption) : (s.setPreemption p x).links = s.links := rfl
@[simp] theorem State.setPreemption_boot (s : State) (p : Nat) (x : Preemption) : (s.setPreemption p x).boot = s.boot := rfl
@[simp] theorem State.setPreemption_service (s : State) (p : Nat) (x : Preemption) : (s.setPreemption p x).service = s.service := rfl
@[simp] theorem State.setPreemption_power (s : State) (p : Nat) (x : Preemption) : (s.setPreemption p x).power = s.power := rfl

@[simp] theorem State.setLink_tick (s : State) (n : Nat) (x : Link) : (s.setLink n x).tick = s.tick := rfl
@[simp] theorem State.setLink_agent (s : State) (n : Nat) (x : Link) : (s.setLink n x).agent = s.agent := rfl
@[simp] theorem State.setLink_inputs (s : State) (n : Nat) (x : Link) : (s.setLink n x).inputs = s.inputs := rfl
@[simp] theorem State.setLink_mem (s : State) (n : Nat) (x : Link) : (s.setLink n x).mem = s.mem := rfl
@[simp] theorem State.setLink_cores (s : State) (n : Nat) (x : Link) : (s.setLink n x).cores = s.cores := rfl
@[simp] theorem State.setLink_fes (s : State) (n : Nat) (x : Link) : (s.setLink n x).fes = s.fes := rfl
@[simp] theorem State.setLink_feTab (s : State) (n : Nat) (x : Link) : (s.setLink n x).feTab = s.feTab := rfl
@[simp] theorem State.setLink_counters (s : State) (n : Nat) (x : Link) : (s.setLink n x).counters = s.counters := rfl
@[simp] theorem State.setLink_timestamp (s : State) (n : Nat) (x : Link) : (s.setLink n x).timestamp = s.timestamp := rfl
@[simp] theorem State.setLink_devid (s : State) (n : Nat) (x : Link) : (s.setLink n x).devid = s.devid := rfl
@[simp] theorem State.setLink_tiles (s : State) (n : Nat) (x : Link) : (s.setLink n x).tiles = s.tiles := rfl
@[simp] theorem State.setLink_clusters (s : State) (n : Nat) (x : Link) : (s.setLink n x).clusters = s.clusters := rfl
@[simp] theorem State.setLink_dies (s : State) (n : Nat) (x : Link) : (s.setLink n x).dies = s.dies := rfl
@[simp] theorem State.setLink_rails (s : State) (n : Nat) (x : Link) : (s.setLink n x).rails = s.rails := rfl
@[simp] theorem State.setLink_slices (s : State) (n : Nat) (x : Link) : (s.setLink n x).slices = s.slices := rfl
@[simp] theorem State.setLink_prog (s : State) (n : Nat) (x : Link) : (s.setLink n x).prog = s.prog := rfl
@[simp] theorem State.setLink_funcs (s : State) (n : Nat) (x : Link) : (s.setLink n x).funcs = s.funcs := rfl
@[simp] theorem State.setLink_vcps (s : State) (n : Nat) (x : Link) : (s.setLink n x).vcps = s.vcps := rfl
@[simp] theorem State.setLink_plugins (s : State) (n : Nat) (x : Link) : (s.setLink n x).plugins = s.plugins := rfl
@[simp] theorem State.setLink_journalUsed (s : State) (n : Nat) (x : Link) : (s.setLink n x).journalUsed = s.journalUsed := rfl
@[simp] theorem State.setLink_journalGap (s : State) (n : Nat) (x : Link) : (s.setLink n x).journalGap = s.journalGap := rfl
@[simp] theorem State.setLink_preempts (s : State) (n : Nat) (x : Link) : (s.setLink n x).preempts = s.preempts := rfl
@[simp] theorem State.setLink_shootdowns (s : State) (n : Nat) (x : Link) : (s.setLink n x).shootdowns = s.shootdowns := rfl
@[simp] theorem State.setLink_links (s : State) (n : Nat) (x : Link) : (s.setLink n x).links = tput n x s.links := rfl
@[simp] theorem State.setLink_boot (s : State) (n : Nat) (x : Link) : (s.setLink n x).boot = s.boot := rfl
@[simp] theorem State.setLink_service (s : State) (n : Nat) (x : Link) : (s.setLink n x).service = s.service := rfl
@[simp] theorem State.setLink_power (s : State) (n : Nat) (x : Link) : (s.setLink n x).power = s.power := rfl

@[simp] theorem State.setRoot_tick (s : State) (g : Nat) (x : Root) : (s.setRoot g x).tick = s.tick := rfl
@[simp] theorem State.setRoot_agent (s : State) (g : Nat) (x : Root) : (s.setRoot g x).agent = s.agent := rfl
@[simp] theorem State.setRoot_inputs (s : State) (g : Nat) (x : Root) : (s.setRoot g x).inputs = s.inputs := rfl
@[simp] theorem State.setRoot_mem (s : State) (g : Nat) (x : Root) : (s.setRoot g x).mem = s.mem := rfl
@[simp] theorem State.setRoot_cores (s : State) (g : Nat) (x : Root) : (s.setRoot g x).cores = s.cores := rfl
@[simp] theorem State.setRoot_fes (s : State) (g : Nat) (x : Root) : (s.setRoot g x).fes = s.fes := rfl
@[simp] theorem State.setRoot_feTab (s : State) (g : Nat) (x : Root) : (s.setRoot g x).feTab = s.feTab := rfl
@[simp] theorem State.setRoot_counters (s : State) (g : Nat) (x : Root) : (s.setRoot g x).counters = s.counters := rfl
@[simp] theorem State.setRoot_timestamp (s : State) (g : Nat) (x : Root) : (s.setRoot g x).timestamp = s.timestamp := rfl
@[simp] theorem State.setRoot_devid (s : State) (g : Nat) (x : Root) : (s.setRoot g x).devid = s.devid := rfl
@[simp] theorem State.setRoot_tiles (s : State) (g : Nat) (x : Root) : (s.setRoot g x).tiles = s.tiles := rfl
@[simp] theorem State.setRoot_clusters (s : State) (g : Nat) (x : Root) : (s.setRoot g x).clusters = s.clusters := rfl
@[simp] theorem State.setRoot_dies (s : State) (g : Nat) (x : Root) : (s.setRoot g x).dies = s.dies := rfl
@[simp] theorem State.setRoot_rails (s : State) (g : Nat) (x : Root) : (s.setRoot g x).rails = s.rails := rfl
@[simp] theorem State.setRoot_slices (s : State) (g : Nat) (x : Root) : (s.setRoot g x).slices = s.slices := rfl
@[simp] theorem State.setRoot_prog (s : State) (g : Nat) (x : Root) : (s.setRoot g x).prog = { s.prog with roots := tput g x s.prog.roots } := rfl
@[simp] theorem State.setRoot_funcs (s : State) (g : Nat) (x : Root) : (s.setRoot g x).funcs = s.funcs := rfl
@[simp] theorem State.setRoot_vcps (s : State) (g : Nat) (x : Root) : (s.setRoot g x).vcps = s.vcps := rfl
@[simp] theorem State.setRoot_plugins (s : State) (g : Nat) (x : Root) : (s.setRoot g x).plugins = s.plugins := rfl
@[simp] theorem State.setRoot_journalUsed (s : State) (g : Nat) (x : Root) : (s.setRoot g x).journalUsed = s.journalUsed := rfl
@[simp] theorem State.setRoot_journalGap (s : State) (g : Nat) (x : Root) : (s.setRoot g x).journalGap = s.journalGap := rfl
@[simp] theorem State.setRoot_preempts (s : State) (g : Nat) (x : Root) : (s.setRoot g x).preempts = s.preempts := rfl
@[simp] theorem State.setRoot_shootdowns (s : State) (g : Nat) (x : Root) : (s.setRoot g x).shootdowns = s.shootdowns := rfl
@[simp] theorem State.setRoot_links (s : State) (g : Nat) (x : Root) : (s.setRoot g x).links = s.links := rfl
@[simp] theorem State.setRoot_boot (s : State) (g : Nat) (x : Root) : (s.setRoot g x).boot = s.boot := rfl
@[simp] theorem State.setRoot_service (s : State) (g : Nat) (x : Root) : (s.setRoot g x).service = s.service := rfl
@[simp] theorem State.setRoot_power (s : State) (g : Nat) (x : Root) : (s.setRoot g x).power = s.power := rfl

@[simp] theorem State.setNode_tick (s : State) (n : Nat) (x : List Delta) : (s.setNode n x).tick = s.tick := rfl
@[simp] theorem State.setNode_agent (s : State) (n : Nat) (x : List Delta) : (s.setNode n x).agent = s.agent := rfl
@[simp] theorem State.setNode_inputs (s : State) (n : Nat) (x : List Delta) : (s.setNode n x).inputs = s.inputs := rfl
@[simp] theorem State.setNode_mem (s : State) (n : Nat) (x : List Delta) : (s.setNode n x).mem = s.mem := rfl
@[simp] theorem State.setNode_cores (s : State) (n : Nat) (x : List Delta) : (s.setNode n x).cores = s.cores := rfl
@[simp] theorem State.setNode_fes (s : State) (n : Nat) (x : List Delta) : (s.setNode n x).fes = s.fes := rfl
@[simp] theorem State.setNode_feTab (s : State) (n : Nat) (x : List Delta) : (s.setNode n x).feTab = s.feTab := rfl
@[simp] theorem State.setNode_counters (s : State) (n : Nat) (x : List Delta) : (s.setNode n x).counters = s.counters := rfl
@[simp] theorem State.setNode_timestamp (s : State) (n : Nat) (x : List Delta) : (s.setNode n x).timestamp = s.timestamp := rfl
@[simp] theorem State.setNode_devid (s : State) (n : Nat) (x : List Delta) : (s.setNode n x).devid = s.devid := rfl
@[simp] theorem State.setNode_tiles (s : State) (n : Nat) (x : List Delta) : (s.setNode n x).tiles = s.tiles := rfl
@[simp] theorem State.setNode_clusters (s : State) (n : Nat) (x : List Delta) : (s.setNode n x).clusters = s.clusters := rfl
@[simp] theorem State.setNode_dies (s : State) (n : Nat) (x : List Delta) : (s.setNode n x).dies = s.dies := rfl
@[simp] theorem State.setNode_rails (s : State) (n : Nat) (x : List Delta) : (s.setNode n x).rails = s.rails := rfl
@[simp] theorem State.setNode_slices (s : State) (n : Nat) (x : List Delta) : (s.setNode n x).slices = s.slices := rfl
@[simp] theorem State.setNode_prog (s : State) (n : Nat) (x : List Delta) : (s.setNode n x).prog = { s.prog with nodes := tput n x s.prog.nodes } := rfl
@[simp] theorem State.setNode_funcs (s : State) (n : Nat) (x : List Delta) : (s.setNode n x).funcs = s.funcs := rfl
@[simp] theorem State.setNode_vcps (s : State) (n : Nat) (x : List Delta) : (s.setNode n x).vcps = s.vcps := rfl
@[simp] theorem State.setNode_plugins (s : State) (n : Nat) (x : List Delta) : (s.setNode n x).plugins = s.plugins := rfl
@[simp] theorem State.setNode_journalUsed (s : State) (n : Nat) (x : List Delta) : (s.setNode n x).journalUsed = s.journalUsed := rfl
@[simp] theorem State.setNode_journalGap (s : State) (n : Nat) (x : List Delta) : (s.setNode n x).journalGap = s.journalGap := rfl
@[simp] theorem State.setNode_preempts (s : State) (n : Nat) (x : List Delta) : (s.setNode n x).preempts = s.preempts := rfl
@[simp] theorem State.setNode_shootdowns (s : State) (n : Nat) (x : List Delta) : (s.setNode n x).shootdowns = s.shootdowns := rfl
@[simp] theorem State.setNode_links (s : State) (n : Nat) (x : List Delta) : (s.setNode n x).links = s.links := rfl
@[simp] theorem State.setNode_boot (s : State) (n : Nat) (x : List Delta) : (s.setNode n x).boot = s.boot := rfl
@[simp] theorem State.setNode_service (s : State) (n : Nat) (x : List Delta) : (s.setNode n x).service = s.service := rfl
@[simp] theorem State.setNode_power (s : State) (n : Nat) (x : List Delta) : (s.setNode n x).power = s.power := rfl

@[simp] theorem State.setLanding_tick (s : State) (g st : Nat) (x : Landing) : (s.setLanding g st x).tick = s.tick := rfl
@[simp] theorem State.setLanding_agent (s : State) (g st : Nat) (x : Landing) : (s.setLanding g st x).agent = s.agent := rfl
@[simp] theorem State.setLanding_inputs (s : State) (g st : Nat) (x : Landing) : (s.setLanding g st x).inputs = s.inputs := rfl
@[simp] theorem State.setLanding_mem (s : State) (g st : Nat) (x : Landing) : (s.setLanding g st x).mem = s.mem := rfl
@[simp] theorem State.setLanding_cores (s : State) (g st : Nat) (x : Landing) : (s.setLanding g st x).cores = s.cores := rfl
@[simp] theorem State.setLanding_fes (s : State) (g st : Nat) (x : Landing) : (s.setLanding g st x).fes = s.fes := rfl
@[simp] theorem State.setLanding_feTab (s : State) (g st : Nat) (x : Landing) : (s.setLanding g st x).feTab = s.feTab := rfl
@[simp] theorem State.setLanding_counters (s : State) (g st : Nat) (x : Landing) : (s.setLanding g st x).counters = s.counters := rfl
@[simp] theorem State.setLanding_timestamp (s : State) (g st : Nat) (x : Landing) : (s.setLanding g st x).timestamp = s.timestamp := rfl
@[simp] theorem State.setLanding_devid (s : State) (g st : Nat) (x : Landing) : (s.setLanding g st x).devid = s.devid := rfl
@[simp] theorem State.setLanding_tiles (s : State) (g st : Nat) (x : Landing) : (s.setLanding g st x).tiles = s.tiles := rfl
@[simp] theorem State.setLanding_clusters (s : State) (g st : Nat) (x : Landing) : (s.setLanding g st x).clusters = s.clusters := rfl
@[simp] theorem State.setLanding_dies (s : State) (g st : Nat) (x : Landing) : (s.setLanding g st x).dies = s.dies := rfl
@[simp] theorem State.setLanding_rails (s : State) (g st : Nat) (x : Landing) : (s.setLanding g st x).rails = s.rails := rfl
@[simp] theorem State.setLanding_slices (s : State) (g st : Nat) (x : Landing) : (s.setLanding g st x).slices = s.slices := rfl
@[simp] theorem State.setLanding_prog (s : State) (g st : Nat) (x : Landing) : (s.setLanding g st x).prog = { s.prog with landings := tput (64 * g + st) x s.prog.landings } := rfl
@[simp] theorem State.setLanding_funcs (s : State) (g st : Nat) (x : Landing) : (s.setLanding g st x).funcs = s.funcs := rfl
@[simp] theorem State.setLanding_vcps (s : State) (g st : Nat) (x : Landing) : (s.setLanding g st x).vcps = s.vcps := rfl
@[simp] theorem State.setLanding_plugins (s : State) (g st : Nat) (x : Landing) : (s.setLanding g st x).plugins = s.plugins := rfl
@[simp] theorem State.setLanding_journalUsed (s : State) (g st : Nat) (x : Landing) : (s.setLanding g st x).journalUsed = s.journalUsed := rfl
@[simp] theorem State.setLanding_journalGap (s : State) (g st : Nat) (x : Landing) : (s.setLanding g st x).journalGap = s.journalGap := rfl
@[simp] theorem State.setLanding_preempts (s : State) (g st : Nat) (x : Landing) : (s.setLanding g st x).preempts = s.preempts := rfl
@[simp] theorem State.setLanding_shootdowns (s : State) (g st : Nat) (x : Landing) : (s.setLanding g st x).shootdowns = s.shootdowns := rfl
@[simp] theorem State.setLanding_links (s : State) (g st : Nat) (x : Landing) : (s.setLanding g st x).links = s.links := rfl
@[simp] theorem State.setLanding_boot (s : State) (g st : Nat) (x : Landing) : (s.setLanding g st x).boot = s.boot := rfl
@[simp] theorem State.setLanding_service (s : State) (g st : Nat) (x : Landing) : (s.setLanding g st x).service = s.service := rfl
@[simp] theorem State.setLanding_power (s : State) (g st : Nat) (x : Landing) : (s.setLanding g st x).power = s.power := rfl

@[simp] theorem State.addFlight_tick (s : State) (x : Flight) : (s.addFlight x).tick = s.tick := rfl
@[simp] theorem State.addFlight_agent (s : State) (x : Flight) : (s.addFlight x).agent = s.agent := rfl
@[simp] theorem State.addFlight_inputs (s : State) (x : Flight) : (s.addFlight x).inputs = s.inputs := rfl
@[simp] theorem State.addFlight_mem (s : State) (x : Flight) : (s.addFlight x).mem = s.mem := rfl
@[simp] theorem State.addFlight_cores (s : State) (x : Flight) : (s.addFlight x).cores = s.cores := rfl
@[simp] theorem State.addFlight_fes (s : State) (x : Flight) : (s.addFlight x).fes = s.fes := rfl
@[simp] theorem State.addFlight_feTab (s : State) (x : Flight) : (s.addFlight x).feTab = s.feTab := rfl
@[simp] theorem State.addFlight_counters (s : State) (x : Flight) : (s.addFlight x).counters = s.counters := rfl
@[simp] theorem State.addFlight_timestamp (s : State) (x : Flight) : (s.addFlight x).timestamp = s.timestamp := rfl
@[simp] theorem State.addFlight_devid (s : State) (x : Flight) : (s.addFlight x).devid = s.devid := rfl
@[simp] theorem State.addFlight_tiles (s : State) (x : Flight) : (s.addFlight x).tiles = s.tiles := rfl
@[simp] theorem State.addFlight_clusters (s : State) (x : Flight) : (s.addFlight x).clusters = s.clusters := rfl
@[simp] theorem State.addFlight_dies (s : State) (x : Flight) : (s.addFlight x).dies = s.dies := rfl
@[simp] theorem State.addFlight_rails (s : State) (x : Flight) : (s.addFlight x).rails = s.rails := rfl
@[simp] theorem State.addFlight_slices (s : State) (x : Flight) : (s.addFlight x).slices = s.slices := rfl
@[simp] theorem State.addFlight_prog (s : State) (x : Flight) : (s.addFlight x).prog = { s.prog with flights := s.prog.flights ++ [x] } := rfl
@[simp] theorem State.addFlight_funcs (s : State) (x : Flight) : (s.addFlight x).funcs = s.funcs := rfl
@[simp] theorem State.addFlight_vcps (s : State) (x : Flight) : (s.addFlight x).vcps = s.vcps := rfl
@[simp] theorem State.addFlight_plugins (s : State) (x : Flight) : (s.addFlight x).plugins = s.plugins := rfl
@[simp] theorem State.addFlight_journalUsed (s : State) (x : Flight) : (s.addFlight x).journalUsed = s.journalUsed := rfl
@[simp] theorem State.addFlight_journalGap (s : State) (x : Flight) : (s.addFlight x).journalGap = s.journalGap := rfl
@[simp] theorem State.addFlight_preempts (s : State) (x : Flight) : (s.addFlight x).preempts = s.preempts := rfl
@[simp] theorem State.addFlight_shootdowns (s : State) (x : Flight) : (s.addFlight x).shootdowns = s.shootdowns := rfl
@[simp] theorem State.addFlight_links (s : State) (x : Flight) : (s.addFlight x).links = s.links := rfl
@[simp] theorem State.addFlight_boot (s : State) (x : Flight) : (s.addFlight x).boot = s.boot := rfl
@[simp] theorem State.addFlight_service (s : State) (x : Flight) : (s.addFlight x).service = s.service := rfl
@[simp] theorem State.addFlight_power (s : State) (x : Flight) : (s.addFlight x).power = s.power := rfl

@[simp] theorem State.addBatch_tick (s : State) (b : Batch) : (s.addBatch b).tick = s.tick := rfl
@[simp] theorem State.addBatch_agent (s : State) (b : Batch) : (s.addBatch b).agent = s.agent := rfl
@[simp] theorem State.addBatch_inputs (s : State) (b : Batch) : (s.addBatch b).inputs = s.inputs := rfl
@[simp] theorem State.addBatch_mem (s : State) (b : Batch) : (s.addBatch b).mem = s.mem := rfl
@[simp] theorem State.addBatch_cores (s : State) (b : Batch) : (s.addBatch b).cores = s.cores := rfl
@[simp] theorem State.addBatch_fes (s : State) (b : Batch) : (s.addBatch b).fes = s.fes := rfl
@[simp] theorem State.addBatch_feTab (s : State) (b : Batch) : (s.addBatch b).feTab = s.feTab := rfl
@[simp] theorem State.addBatch_counters (s : State) (b : Batch) : (s.addBatch b).counters = s.counters := rfl
@[simp] theorem State.addBatch_timestamp (s : State) (b : Batch) : (s.addBatch b).timestamp = s.timestamp := rfl
@[simp] theorem State.addBatch_devid (s : State) (b : Batch) : (s.addBatch b).devid = s.devid := rfl
@[simp] theorem State.addBatch_tiles (s : State) (b : Batch) : (s.addBatch b).tiles = s.tiles := rfl
@[simp] theorem State.addBatch_clusters (s : State) (b : Batch) : (s.addBatch b).clusters = s.clusters := rfl
@[simp] theorem State.addBatch_dies (s : State) (b : Batch) : (s.addBatch b).dies = s.dies := rfl
@[simp] theorem State.addBatch_rails (s : State) (b : Batch) : (s.addBatch b).rails = s.rails := rfl
@[simp] theorem State.addBatch_slices (s : State) (b : Batch) : (s.addBatch b).slices = s.slices := rfl
@[simp] theorem State.addBatch_prog (s : State) (b : Batch) : (s.addBatch b).prog = { s.prog with batches := s.prog.batches ++ [b] } := rfl
@[simp] theorem State.addBatch_funcs (s : State) (b : Batch) : (s.addBatch b).funcs = s.funcs := rfl
@[simp] theorem State.addBatch_vcps (s : State) (b : Batch) : (s.addBatch b).vcps = s.vcps := rfl
@[simp] theorem State.addBatch_plugins (s : State) (b : Batch) : (s.addBatch b).plugins = s.plugins := rfl
@[simp] theorem State.addBatch_journalUsed (s : State) (b : Batch) : (s.addBatch b).journalUsed = s.journalUsed := rfl
@[simp] theorem State.addBatch_journalGap (s : State) (b : Batch) : (s.addBatch b).journalGap = s.journalGap := rfl
@[simp] theorem State.addBatch_preempts (s : State) (b : Batch) : (s.addBatch b).preempts = s.preempts := rfl
@[simp] theorem State.addBatch_shootdowns (s : State) (b : Batch) : (s.addBatch b).shootdowns = s.shootdowns := rfl
@[simp] theorem State.addBatch_links (s : State) (b : Batch) : (s.addBatch b).links = s.links := rfl
@[simp] theorem State.addBatch_boot (s : State) (b : Batch) : (s.addBatch b).boot = s.boot := rfl
@[simp] theorem State.addBatch_service (s : State) (b : Batch) : (s.addBatch b).service = s.service := rfl
@[simp] theorem State.addBatch_power (s : State) (b : Batch) : (s.addBatch b).power = s.power := rfl

@[simp] theorem State.setEntry_tick (s : State) (tbl idx : Nat) (w : Word) : (s.setEntry tbl idx w).tick = s.tick := rfl
@[simp] theorem State.setEntry_agent (s : State) (tbl idx : Nat) (w : Word) : (s.setEntry tbl idx w).agent = s.agent := rfl
@[simp] theorem State.setEntry_inputs (s : State) (tbl idx : Nat) (w : Word) : (s.setEntry tbl idx w).inputs = s.inputs := rfl
@[simp] theorem State.setEntry_mem (s : State) (tbl idx : Nat) (w : Word) : (s.setEntry tbl idx w).mem = s.mem := rfl
@[simp] theorem State.setEntry_cores (s : State) (tbl idx : Nat) (w : Word) : (s.setEntry tbl idx w).cores = s.cores := rfl
@[simp] theorem State.setEntry_fes (s : State) (tbl idx : Nat) (w : Word) : (s.setEntry tbl idx w).fes = s.fes := rfl
@[simp] theorem State.setEntry_feTab (s : State) (tbl idx : Nat) (w : Word) : (s.setEntry tbl idx w).feTab = tput (tbl * 2 ^ 24 + idx) w s.feTab := rfl
@[simp] theorem State.setEntry_counters (s : State) (tbl idx : Nat) (w : Word) : (s.setEntry tbl idx w).counters = s.counters := rfl
@[simp] theorem State.setEntry_timestamp (s : State) (tbl idx : Nat) (w : Word) : (s.setEntry tbl idx w).timestamp = s.timestamp := rfl
@[simp] theorem State.setEntry_devid (s : State) (tbl idx : Nat) (w : Word) : (s.setEntry tbl idx w).devid = s.devid := rfl
@[simp] theorem State.setEntry_tiles (s : State) (tbl idx : Nat) (w : Word) : (s.setEntry tbl idx w).tiles = s.tiles := rfl
@[simp] theorem State.setEntry_clusters (s : State) (tbl idx : Nat) (w : Word) : (s.setEntry tbl idx w).clusters = s.clusters := rfl
@[simp] theorem State.setEntry_dies (s : State) (tbl idx : Nat) (w : Word) : (s.setEntry tbl idx w).dies = s.dies := rfl
@[simp] theorem State.setEntry_rails (s : State) (tbl idx : Nat) (w : Word) : (s.setEntry tbl idx w).rails = s.rails := rfl
@[simp] theorem State.setEntry_slices (s : State) (tbl idx : Nat) (w : Word) : (s.setEntry tbl idx w).slices = s.slices := rfl
@[simp] theorem State.setEntry_prog (s : State) (tbl idx : Nat) (w : Word) : (s.setEntry tbl idx w).prog = s.prog := rfl
@[simp] theorem State.setEntry_funcs (s : State) (tbl idx : Nat) (w : Word) : (s.setEntry tbl idx w).funcs = s.funcs := rfl
@[simp] theorem State.setEntry_vcps (s : State) (tbl idx : Nat) (w : Word) : (s.setEntry tbl idx w).vcps = s.vcps := rfl
@[simp] theorem State.setEntry_plugins (s : State) (tbl idx : Nat) (w : Word) : (s.setEntry tbl idx w).plugins = s.plugins := rfl
@[simp] theorem State.setEntry_journalUsed (s : State) (tbl idx : Nat) (w : Word) : (s.setEntry tbl idx w).journalUsed = s.journalUsed := rfl
@[simp] theorem State.setEntry_journalGap (s : State) (tbl idx : Nat) (w : Word) : (s.setEntry tbl idx w).journalGap = s.journalGap := rfl
@[simp] theorem State.setEntry_preempts (s : State) (tbl idx : Nat) (w : Word) : (s.setEntry tbl idx w).preempts = s.preempts := rfl
@[simp] theorem State.setEntry_shootdowns (s : State) (tbl idx : Nat) (w : Word) : (s.setEntry tbl idx w).shootdowns = s.shootdowns := rfl
@[simp] theorem State.setEntry_links (s : State) (tbl idx : Nat) (w : Word) : (s.setEntry tbl idx w).links = s.links := rfl
@[simp] theorem State.setEntry_boot (s : State) (tbl idx : Nat) (w : Word) : (s.setEntry tbl idx w).boot = s.boot := rfl
@[simp] theorem State.setEntry_service (s : State) (tbl idx : Nat) (w : Word) : (s.setEntry tbl idx w).service = s.service := rfl
@[simp] theorem State.setEntry_power (s : State) (tbl idx : Nat) (w : Word) : (s.setEntry tbl idx w).power = s.power := rfl

@[simp] theorem State.setCounter_tick (s : State) (code i : Nat) (v : BitVec 32) : (s.setCounter code i v).tick = s.tick := rfl
@[simp] theorem State.setCounter_agent (s : State) (code i : Nat) (v : BitVec 32) : (s.setCounter code i v).agent = s.agent := rfl
@[simp] theorem State.setCounter_inputs (s : State) (code i : Nat) (v : BitVec 32) : (s.setCounter code i v).inputs = s.inputs := rfl
@[simp] theorem State.setCounter_mem (s : State) (code i : Nat) (v : BitVec 32) : (s.setCounter code i v).mem = s.mem := rfl
@[simp] theorem State.setCounter_cores (s : State) (code i : Nat) (v : BitVec 32) : (s.setCounter code i v).cores = s.cores := rfl
@[simp] theorem State.setCounter_fes (s : State) (code i : Nat) (v : BitVec 32) : (s.setCounter code i v).fes = s.fes := rfl
@[simp] theorem State.setCounter_feTab (s : State) (code i : Nat) (v : BitVec 32) : (s.setCounter code i v).feTab = s.feTab := rfl
@[simp] theorem State.setCounter_counters (s : State) (code i : Nat) (v : BitVec 32) : (s.setCounter code i v).counters = mput 0 (code * 4096 + i) v s.counters := rfl
@[simp] theorem State.setCounter_timestamp (s : State) (code i : Nat) (v : BitVec 32) : (s.setCounter code i v).timestamp = s.timestamp := rfl
@[simp] theorem State.setCounter_devid (s : State) (code i : Nat) (v : BitVec 32) : (s.setCounter code i v).devid = s.devid := rfl
@[simp] theorem State.setCounter_tiles (s : State) (code i : Nat) (v : BitVec 32) : (s.setCounter code i v).tiles = s.tiles := rfl
@[simp] theorem State.setCounter_clusters (s : State) (code i : Nat) (v : BitVec 32) : (s.setCounter code i v).clusters = s.clusters := rfl
@[simp] theorem State.setCounter_dies (s : State) (code i : Nat) (v : BitVec 32) : (s.setCounter code i v).dies = s.dies := rfl
@[simp] theorem State.setCounter_rails (s : State) (code i : Nat) (v : BitVec 32) : (s.setCounter code i v).rails = s.rails := rfl
@[simp] theorem State.setCounter_slices (s : State) (code i : Nat) (v : BitVec 32) : (s.setCounter code i v).slices = s.slices := rfl
@[simp] theorem State.setCounter_prog (s : State) (code i : Nat) (v : BitVec 32) : (s.setCounter code i v).prog = s.prog := rfl
@[simp] theorem State.setCounter_funcs (s : State) (code i : Nat) (v : BitVec 32) : (s.setCounter code i v).funcs = s.funcs := rfl
@[simp] theorem State.setCounter_vcps (s : State) (code i : Nat) (v : BitVec 32) : (s.setCounter code i v).vcps = s.vcps := rfl
@[simp] theorem State.setCounter_plugins (s : State) (code i : Nat) (v : BitVec 32) : (s.setCounter code i v).plugins = s.plugins := rfl
@[simp] theorem State.setCounter_journalUsed (s : State) (code i : Nat) (v : BitVec 32) : (s.setCounter code i v).journalUsed = s.journalUsed := rfl
@[simp] theorem State.setCounter_journalGap (s : State) (code i : Nat) (v : BitVec 32) : (s.setCounter code i v).journalGap = s.journalGap := rfl
@[simp] theorem State.setCounter_preempts (s : State) (code i : Nat) (v : BitVec 32) : (s.setCounter code i v).preempts = s.preempts := rfl
@[simp] theorem State.setCounter_shootdowns (s : State) (code i : Nat) (v : BitVec 32) : (s.setCounter code i v).shootdowns = s.shootdowns := rfl
@[simp] theorem State.setCounter_links (s : State) (code i : Nat) (v : BitVec 32) : (s.setCounter code i v).links = s.links := rfl
@[simp] theorem State.setCounter_boot (s : State) (code i : Nat) (v : BitVec 32) : (s.setCounter code i v).boot = s.boot := rfl
@[simp] theorem State.setCounter_service (s : State) (code i : Nat) (v : BitVec 32) : (s.setCounter code i v).service = s.service := rfl
@[simp] theorem State.setCounter_power (s : State) (code i : Nat) (v : BitVec 32) : (s.setCounter code i v).power = s.power := rfl

@[simp] theorem State.countBy_tick (s : State) (code i n : Nat) : (s.countBy code i n).tick = s.tick := rfl
@[simp] theorem State.countBy_agent (s : State) (code i n : Nat) : (s.countBy code i n).agent = s.agent := rfl
@[simp] theorem State.countBy_inputs (s : State) (code i n : Nat) : (s.countBy code i n).inputs = s.inputs := rfl
@[simp] theorem State.countBy_mem (s : State) (code i n : Nat) : (s.countBy code i n).mem = s.mem := rfl
@[simp] theorem State.countBy_cores (s : State) (code i n : Nat) : (s.countBy code i n).cores = s.cores := rfl
@[simp] theorem State.countBy_fes (s : State) (code i n : Nat) : (s.countBy code i n).fes = s.fes := rfl
@[simp] theorem State.countBy_feTab (s : State) (code i n : Nat) : (s.countBy code i n).feTab = s.feTab := rfl
@[simp] theorem State.countBy_counters (s : State) (code i n : Nat) : (s.countBy code i n).counters = mput 0 (code * 4096 + i) (satAdd (s.counter code i) n) s.counters := rfl
@[simp] theorem State.countBy_timestamp (s : State) (code i n : Nat) : (s.countBy code i n).timestamp = s.timestamp := rfl
@[simp] theorem State.countBy_devid (s : State) (code i n : Nat) : (s.countBy code i n).devid = s.devid := rfl
@[simp] theorem State.countBy_tiles (s : State) (code i n : Nat) : (s.countBy code i n).tiles = s.tiles := rfl
@[simp] theorem State.countBy_clusters (s : State) (code i n : Nat) : (s.countBy code i n).clusters = s.clusters := rfl
@[simp] theorem State.countBy_dies (s : State) (code i n : Nat) : (s.countBy code i n).dies = s.dies := rfl
@[simp] theorem State.countBy_rails (s : State) (code i n : Nat) : (s.countBy code i n).rails = s.rails := rfl
@[simp] theorem State.countBy_slices (s : State) (code i n : Nat) : (s.countBy code i n).slices = s.slices := rfl
@[simp] theorem State.countBy_prog (s : State) (code i n : Nat) : (s.countBy code i n).prog = s.prog := rfl
@[simp] theorem State.countBy_funcs (s : State) (code i n : Nat) : (s.countBy code i n).funcs = s.funcs := rfl
@[simp] theorem State.countBy_vcps (s : State) (code i n : Nat) : (s.countBy code i n).vcps = s.vcps := rfl
@[simp] theorem State.countBy_plugins (s : State) (code i n : Nat) : (s.countBy code i n).plugins = s.plugins := rfl
@[simp] theorem State.countBy_journalUsed (s : State) (code i n : Nat) : (s.countBy code i n).journalUsed = s.journalUsed := rfl
@[simp] theorem State.countBy_journalGap (s : State) (code i n : Nat) : (s.countBy code i n).journalGap = s.journalGap := rfl
@[simp] theorem State.countBy_preempts (s : State) (code i n : Nat) : (s.countBy code i n).preempts = s.preempts := rfl
@[simp] theorem State.countBy_shootdowns (s : State) (code i n : Nat) : (s.countBy code i n).shootdowns = s.shootdowns := rfl
@[simp] theorem State.countBy_links (s : State) (code i n : Nat) : (s.countBy code i n).links = s.links := rfl
@[simp] theorem State.countBy_boot (s : State) (code i n : Nat) : (s.countBy code i n).boot = s.boot := rfl
@[simp] theorem State.countBy_service (s : State) (code i n : Nat) : (s.countBy code i n).service = s.service := rfl
@[simp] theorem State.countBy_power (s : State) (code i n : Nat) : (s.countBy code i n).power = s.power := rfl

@[simp] theorem State.count_tick (s : State) (code i : Nat) : (s.count code i).tick = s.tick := rfl
@[simp] theorem State.count_agent (s : State) (code i : Nat) : (s.count code i).agent = s.agent := rfl
@[simp] theorem State.count_inputs (s : State) (code i : Nat) : (s.count code i).inputs = s.inputs := rfl
@[simp] theorem State.count_mem (s : State) (code i : Nat) : (s.count code i).mem = s.mem := rfl
@[simp] theorem State.count_cores (s : State) (code i : Nat) : (s.count code i).cores = s.cores := rfl
@[simp] theorem State.count_fes (s : State) (code i : Nat) : (s.count code i).fes = s.fes := rfl
@[simp] theorem State.count_feTab (s : State) (code i : Nat) : (s.count code i).feTab = s.feTab := rfl
@[simp] theorem State.count_counters (s : State) (code i : Nat) : (s.count code i).counters = mput 0 (code * 4096 + i) (satAdd (s.counter code i) 1) s.counters := rfl
@[simp] theorem State.count_timestamp (s : State) (code i : Nat) : (s.count code i).timestamp = s.timestamp := rfl
@[simp] theorem State.count_devid (s : State) (code i : Nat) : (s.count code i).devid = s.devid := rfl
@[simp] theorem State.count_tiles (s : State) (code i : Nat) : (s.count code i).tiles = s.tiles := rfl
@[simp] theorem State.count_clusters (s : State) (code i : Nat) : (s.count code i).clusters = s.clusters := rfl
@[simp] theorem State.count_dies (s : State) (code i : Nat) : (s.count code i).dies = s.dies := rfl
@[simp] theorem State.count_rails (s : State) (code i : Nat) : (s.count code i).rails = s.rails := rfl
@[simp] theorem State.count_slices (s : State) (code i : Nat) : (s.count code i).slices = s.slices := rfl
@[simp] theorem State.count_prog (s : State) (code i : Nat) : (s.count code i).prog = s.prog := rfl
@[simp] theorem State.count_funcs (s : State) (code i : Nat) : (s.count code i).funcs = s.funcs := rfl
@[simp] theorem State.count_vcps (s : State) (code i : Nat) : (s.count code i).vcps = s.vcps := rfl
@[simp] theorem State.count_plugins (s : State) (code i : Nat) : (s.count code i).plugins = s.plugins := rfl
@[simp] theorem State.count_journalUsed (s : State) (code i : Nat) : (s.count code i).journalUsed = s.journalUsed := rfl
@[simp] theorem State.count_journalGap (s : State) (code i : Nat) : (s.count code i).journalGap = s.journalGap := rfl
@[simp] theorem State.count_preempts (s : State) (code i : Nat) : (s.count code i).preempts = s.preempts := rfl
@[simp] theorem State.count_shootdowns (s : State) (code i : Nat) : (s.count code i).shootdowns = s.shootdowns := rfl
@[simp] theorem State.count_links (s : State) (code i : Nat) : (s.count code i).links = s.links := rfl
@[simp] theorem State.count_boot (s : State) (code i : Nat) : (s.count code i).boot = s.boot := rfl
@[simp] theorem State.count_service (s : State) (code i : Nat) : (s.count code i).service = s.service := rfl
@[simp] theorem State.count_power (s : State) (code i : Nat) : (s.count code i).power = s.power := rfl

@[simp] theorem State.writeMem_tick (s : State) (l : List Nat) (bs : List Byte) : (s.writeMem l bs).tick = s.tick := rfl
@[simp] theorem State.writeMem_agent (s : State) (l : List Nat) (bs : List Byte) : (s.writeMem l bs).agent = s.agent := rfl
@[simp] theorem State.writeMem_inputs (s : State) (l : List Nat) (bs : List Byte) : (s.writeMem l bs).inputs = s.inputs := rfl
@[simp] theorem State.writeMem_cores (s : State) (l : List Nat) (bs : List Byte) : (s.writeMem l bs).cores = s.cores := rfl
@[simp] theorem State.writeMem_fes (s : State) (l : List Nat) (bs : List Byte) : (s.writeMem l bs).fes = s.fes := rfl
@[simp] theorem State.writeMem_feTab (s : State) (l : List Nat) (bs : List Byte) : (s.writeMem l bs).feTab = s.feTab := rfl
@[simp] theorem State.writeMem_counters (s : State) (l : List Nat) (bs : List Byte) : (s.writeMem l bs).counters = s.counters := rfl
@[simp] theorem State.writeMem_timestamp (s : State) (l : List Nat) (bs : List Byte) : (s.writeMem l bs).timestamp = s.timestamp := rfl
@[simp] theorem State.writeMem_devid (s : State) (l : List Nat) (bs : List Byte) : (s.writeMem l bs).devid = s.devid := rfl
@[simp] theorem State.writeMem_tiles (s : State) (l : List Nat) (bs : List Byte) : (s.writeMem l bs).tiles = s.tiles := rfl
@[simp] theorem State.writeMem_clusters (s : State) (l : List Nat) (bs : List Byte) : (s.writeMem l bs).clusters = s.clusters := rfl
@[simp] theorem State.writeMem_dies (s : State) (l : List Nat) (bs : List Byte) : (s.writeMem l bs).dies = s.dies := rfl
@[simp] theorem State.writeMem_rails (s : State) (l : List Nat) (bs : List Byte) : (s.writeMem l bs).rails = s.rails := rfl
@[simp] theorem State.writeMem_slices (s : State) (l : List Nat) (bs : List Byte) : (s.writeMem l bs).slices = s.slices := rfl
@[simp] theorem State.writeMem_prog (s : State) (l : List Nat) (bs : List Byte) : (s.writeMem l bs).prog = s.prog := rfl
@[simp] theorem State.writeMem_funcs (s : State) (l : List Nat) (bs : List Byte) : (s.writeMem l bs).funcs = s.funcs := rfl
@[simp] theorem State.writeMem_vcps (s : State) (l : List Nat) (bs : List Byte) : (s.writeMem l bs).vcps = s.vcps := rfl
@[simp] theorem State.writeMem_plugins (s : State) (l : List Nat) (bs : List Byte) : (s.writeMem l bs).plugins = s.plugins := rfl
@[simp] theorem State.writeMem_journalUsed (s : State) (l : List Nat) (bs : List Byte) : (s.writeMem l bs).journalUsed = s.journalUsed := rfl
@[simp] theorem State.writeMem_journalGap (s : State) (l : List Nat) (bs : List Byte) : (s.writeMem l bs).journalGap = s.journalGap := rfl
@[simp] theorem State.writeMem_preempts (s : State) (l : List Nat) (bs : List Byte) : (s.writeMem l bs).preempts = s.preempts := rfl
@[simp] theorem State.writeMem_shootdowns (s : State) (l : List Nat) (bs : List Byte) : (s.writeMem l bs).shootdowns = s.shootdowns := rfl
@[simp] theorem State.writeMem_links (s : State) (l : List Nat) (bs : List Byte) : (s.writeMem l bs).links = s.links := rfl
@[simp] theorem State.writeMem_boot (s : State) (l : List Nat) (bs : List Byte) : (s.writeMem l bs).boot = s.boot := rfl
@[simp] theorem State.writeMem_service (s : State) (l : List Nat) (bs : List Byte) : (s.writeMem l bs).service = s.service := rfl
@[simp] theorem State.writeMem_power (s : State) (l : List Nat) (bs : List Byte) : (s.writeMem l bs).power = s.power := rfl

@[simp] theorem State.writeCellar_tick (s : State) (l : List Nat) (bs : List Byte) : (s.writeCellar l bs).tick = s.tick := rfl
@[simp] theorem State.writeCellar_agent (s : State) (l : List Nat) (bs : List Byte) : (s.writeCellar l bs).agent = s.agent := rfl
@[simp] theorem State.writeCellar_inputs (s : State) (l : List Nat) (bs : List Byte) : (s.writeCellar l bs).inputs = s.inputs := rfl
@[simp] theorem State.writeCellar_cores (s : State) (l : List Nat) (bs : List Byte) : (s.writeCellar l bs).cores = s.cores := rfl
@[simp] theorem State.writeCellar_fes (s : State) (l : List Nat) (bs : List Byte) : (s.writeCellar l bs).fes = s.fes := rfl
@[simp] theorem State.writeCellar_feTab (s : State) (l : List Nat) (bs : List Byte) : (s.writeCellar l bs).feTab = s.feTab := rfl
@[simp] theorem State.writeCellar_counters (s : State) (l : List Nat) (bs : List Byte) : (s.writeCellar l bs).counters = s.counters := rfl
@[simp] theorem State.writeCellar_timestamp (s : State) (l : List Nat) (bs : List Byte) : (s.writeCellar l bs).timestamp = s.timestamp := rfl
@[simp] theorem State.writeCellar_devid (s : State) (l : List Nat) (bs : List Byte) : (s.writeCellar l bs).devid = s.devid := rfl
@[simp] theorem State.writeCellar_tiles (s : State) (l : List Nat) (bs : List Byte) : (s.writeCellar l bs).tiles = s.tiles := rfl
@[simp] theorem State.writeCellar_clusters (s : State) (l : List Nat) (bs : List Byte) : (s.writeCellar l bs).clusters = s.clusters := rfl
@[simp] theorem State.writeCellar_dies (s : State) (l : List Nat) (bs : List Byte) : (s.writeCellar l bs).dies = s.dies := rfl
@[simp] theorem State.writeCellar_rails (s : State) (l : List Nat) (bs : List Byte) : (s.writeCellar l bs).rails = s.rails := rfl
@[simp] theorem State.writeCellar_slices (s : State) (l : List Nat) (bs : List Byte) : (s.writeCellar l bs).slices = s.slices := rfl
@[simp] theorem State.writeCellar_prog (s : State) (l : List Nat) (bs : List Byte) : (s.writeCellar l bs).prog = s.prog := rfl
@[simp] theorem State.writeCellar_funcs (s : State) (l : List Nat) (bs : List Byte) : (s.writeCellar l bs).funcs = s.funcs := rfl
@[simp] theorem State.writeCellar_vcps (s : State) (l : List Nat) (bs : List Byte) : (s.writeCellar l bs).vcps = s.vcps := rfl
@[simp] theorem State.writeCellar_plugins (s : State) (l : List Nat) (bs : List Byte) : (s.writeCellar l bs).plugins = s.plugins := rfl
@[simp] theorem State.writeCellar_journalUsed (s : State) (l : List Nat) (bs : List Byte) : (s.writeCellar l bs).journalUsed = s.journalUsed := rfl
@[simp] theorem State.writeCellar_journalGap (s : State) (l : List Nat) (bs : List Byte) : (s.writeCellar l bs).journalGap = s.journalGap := rfl
@[simp] theorem State.writeCellar_preempts (s : State) (l : List Nat) (bs : List Byte) : (s.writeCellar l bs).preempts = s.preempts := rfl
@[simp] theorem State.writeCellar_shootdowns (s : State) (l : List Nat) (bs : List Byte) : (s.writeCellar l bs).shootdowns = s.shootdowns := rfl
@[simp] theorem State.writeCellar_links (s : State) (l : List Nat) (bs : List Byte) : (s.writeCellar l bs).links = s.links := rfl
@[simp] theorem State.writeCellar_boot (s : State) (l : List Nat) (bs : List Byte) : (s.writeCellar l bs).boot = s.boot := rfl
@[simp] theorem State.writeCellar_service (s : State) (l : List Nat) (bs : List Byte) : (s.writeCellar l bs).service = s.service := rfl
@[simp] theorem State.writeCellar_power (s : State) (l : List Nat) (bs : List Byte) : (s.writeCellar l bs).power = s.power := rfl

/-- Putting a flit on a link, or sending a message, changes the links and what waits for a route, and nothing else. -/
theorem State.sendFlit_eq (s : State) (l : Nat) (x : Flit) :
    ∃ k p, s.sendFlit l x = { s with links := k, prog := { s.prog with pins := p } } := by
  unfold State.sendFlit
  dsimp only
  split
  · exact ⟨_, _, rfl⟩
  · exact ⟨_, s.prog.pins, rfl⟩
theorem State.sendMsg_eq (s : State) (d : Nat) (m : Msg) :
    ∃ k u p, s.sendMsg d m = { s with links := k, prog := { s.prog with unrouted := u, pins := p } } := by
  unfold State.sendMsg
  split
  · obtain ⟨k, p, h⟩ := s.sendFlit_eq _ _
    exact ⟨k, s.prog.unrouted, p, by rw [h]⟩
  · exact ⟨s.links, _, s.prog.pins, rfl⟩
/-- A request to another module is noted, and sent or left waiting for a route. -/
theorem State.addRemote_eq (s : State) (r : RemoteReq) : ∃ k u p, s.addRemote r =
    { s with links := k, prog := { s.prog with remote := s.prog.remote ++ [r], unrouted := u, pins := p } } := by
  obtain ⟨k, u, p, h⟩ := ({ s with prog := { s.prog with remote := s.prog.remote ++ [r] } } : State).sendMsg_eq
    (s.deviceOf r.addr) (.access r.lc r.level r.addr r.op)
  exact ⟨k, u, p, h⟩
@[simp] theorem State.addRemote_tick (s : State) (r : RemoteReq) : (s.addRemote r).tick = s.tick := by
  obtain ⟨k, u, p, h⟩ := s.addRemote_eq r; rw [h]
@[simp] theorem State.addRemote_agent (s : State) (r : RemoteReq) : (s.addRemote r).agent = s.agent := by
  obtain ⟨k, u, p, h⟩ := s.addRemote_eq r; rw [h]
@[simp] theorem State.addRemote_inputs (s : State) (r : RemoteReq) : (s.addRemote r).inputs = s.inputs := by
  obtain ⟨k, u, p, h⟩ := s.addRemote_eq r; rw [h]
@[simp] theorem State.addRemote_mem (s : State) (r : RemoteReq) : (s.addRemote r).mem = s.mem := by
  obtain ⟨k, u, p, h⟩ := s.addRemote_eq r; rw [h]
@[simp] theorem State.addRemote_cores (s : State) (r : RemoteReq) : (s.addRemote r).cores = s.cores := by
  obtain ⟨k, u, p, h⟩ := s.addRemote_eq r; rw [h]
@[simp] theorem State.addRemote_fes (s : State) (r : RemoteReq) : (s.addRemote r).fes = s.fes := by
  obtain ⟨k, u, p, h⟩ := s.addRemote_eq r; rw [h]
@[simp] theorem State.addRemote_feTab (s : State) (r : RemoteReq) : (s.addRemote r).feTab = s.feTab := by
  obtain ⟨k, u, p, h⟩ := s.addRemote_eq r; rw [h]
@[simp] theorem State.addRemote_counters (s : State) (r : RemoteReq) : (s.addRemote r).counters = s.counters := by
  obtain ⟨k, u, p, h⟩ := s.addRemote_eq r; rw [h]
@[simp] theorem State.addRemote_timestamp (s : State) (r : RemoteReq) : (s.addRemote r).timestamp = s.timestamp := by
  obtain ⟨k, u, p, h⟩ := s.addRemote_eq r; rw [h]
@[simp] theorem State.addRemote_devid (s : State) (r : RemoteReq) : (s.addRemote r).devid = s.devid := by
  obtain ⟨k, u, p, h⟩ := s.addRemote_eq r; rw [h]
@[simp] theorem State.addRemote_tiles (s : State) (r : RemoteReq) : (s.addRemote r).tiles = s.tiles := by
  obtain ⟨k, u, p, h⟩ := s.addRemote_eq r; rw [h]
@[simp] theorem State.addRemote_clusters (s : State) (r : RemoteReq) : (s.addRemote r).clusters = s.clusters := by
  obtain ⟨k, u, p, h⟩ := s.addRemote_eq r; rw [h]
@[simp] theorem State.addRemote_dies (s : State) (r : RemoteReq) : (s.addRemote r).dies = s.dies := by
  obtain ⟨k, u, p, h⟩ := s.addRemote_eq r; rw [h]
@[simp] theorem State.addRemote_rails (s : State) (r : RemoteReq) : (s.addRemote r).rails = s.rails := by
  obtain ⟨k, u, p, h⟩ := s.addRemote_eq r; rw [h]
@[simp] theorem State.addRemote_slices (s : State) (r : RemoteReq) : (s.addRemote r).slices = s.slices := by
  obtain ⟨k, u, p, h⟩ := s.addRemote_eq r; rw [h]
@[simp] theorem State.addRemote_funcs (s : State) (r : RemoteReq) : (s.addRemote r).funcs = s.funcs := by
  obtain ⟨k, u, p, h⟩ := s.addRemote_eq r; rw [h]
@[simp] theorem State.addRemote_vcps (s : State) (r : RemoteReq) : (s.addRemote r).vcps = s.vcps := by
  obtain ⟨k, u, p, h⟩ := s.addRemote_eq r; rw [h]
@[simp] theorem State.addRemote_plugins (s : State) (r : RemoteReq) : (s.addRemote r).plugins = s.plugins := by
  obtain ⟨k, u, p, h⟩ := s.addRemote_eq r; rw [h]
@[simp] theorem State.addRemote_journalUsed (s : State) (r : RemoteReq) : (s.addRemote r).journalUsed = s.journalUsed := by
  obtain ⟨k, u, p, h⟩ := s.addRemote_eq r; rw [h]
@[simp] theorem State.addRemote_journalGap (s : State) (r : RemoteReq) : (s.addRemote r).journalGap = s.journalGap := by
  obtain ⟨k, u, p, h⟩ := s.addRemote_eq r; rw [h]
@[simp] theorem State.addRemote_preempts (s : State) (r : RemoteReq) : (s.addRemote r).preempts = s.preempts := by
  obtain ⟨k, u, p, h⟩ := s.addRemote_eq r; rw [h]
@[simp] theorem State.addRemote_shootdowns (s : State) (r : RemoteReq) : (s.addRemote r).shootdowns = s.shootdowns := by
  obtain ⟨k, u, p, h⟩ := s.addRemote_eq r; rw [h]
@[simp] theorem State.addRemote_boot (s : State) (r : RemoteReq) : (s.addRemote r).boot = s.boot := by
  obtain ⟨k, u, p, h⟩ := s.addRemote_eq r; rw [h]
@[simp] theorem State.addRemote_service (s : State) (r : RemoteReq) : (s.addRemote r).service = s.service := by
  obtain ⟨k, u, p, h⟩ := s.addRemote_eq r; rw [h]
@[simp] theorem State.addRemote_power (s : State) (r : RemoteReq) : (s.addRemote r).power = s.power := by
  obtain ⟨k, u, p, h⟩ := s.addRemote_eq r; rw [h]

@[simp] theorem State.addHostReq_tick (s : State) (tag : Nat) (r : HostReq) : (s.addHostReq tag r).tick = s.tick := rfl
@[simp] theorem State.addHostReq_agent (s : State) (tag : Nat) (r : HostReq) : (s.addHostReq tag r).agent = s.agent := rfl
@[simp] theorem State.addHostReq_inputs (s : State) (tag : Nat) (r : HostReq) : (s.addHostReq tag r).inputs = s.inputs := rfl
@[simp] theorem State.addHostReq_cores (s : State) (tag : Nat) (r : HostReq) : (s.addHostReq tag r).cores = s.cores := rfl
@[simp] theorem State.addHostReq_fes (s : State) (tag : Nat) (r : HostReq) : (s.addHostReq tag r).fes = s.fes := rfl
@[simp] theorem State.addHostReq_feTab (s : State) (tag : Nat) (r : HostReq) : (s.addHostReq tag r).feTab = s.feTab := rfl
@[simp] theorem State.addHostReq_counters (s : State) (tag : Nat) (r : HostReq) : (s.addHostReq tag r).counters = s.counters := rfl
@[simp] theorem State.addHostReq_timestamp (s : State) (tag : Nat) (r : HostReq) : (s.addHostReq tag r).timestamp = s.timestamp := rfl
@[simp] theorem State.addHostReq_devid (s : State) (tag : Nat) (r : HostReq) : (s.addHostReq tag r).devid = s.devid := rfl
@[simp] theorem State.addHostReq_tiles (s : State) (tag : Nat) (r : HostReq) : (s.addHostReq tag r).tiles = s.tiles := rfl
@[simp] theorem State.addHostReq_clusters (s : State) (tag : Nat) (r : HostReq) : (s.addHostReq tag r).clusters = s.clusters := rfl
@[simp] theorem State.addHostReq_dies (s : State) (tag : Nat) (r : HostReq) : (s.addHostReq tag r).dies = s.dies := rfl
@[simp] theorem State.addHostReq_rails (s : State) (tag : Nat) (r : HostReq) : (s.addHostReq tag r).rails = s.rails := rfl
@[simp] theorem State.addHostReq_slices (s : State) (tag : Nat) (r : HostReq) : (s.addHostReq tag r).slices = s.slices := rfl
@[simp] theorem State.addHostReq_prog (s : State) (tag : Nat) (r : HostReq) : (s.addHostReq tag r).prog = s.prog := rfl
@[simp] theorem State.addHostReq_funcs (s : State) (tag : Nat) (r : HostReq) : (s.addHostReq tag r).funcs = s.funcs := rfl
@[simp] theorem State.addHostReq_vcps (s : State) (tag : Nat) (r : HostReq) : (s.addHostReq tag r).vcps = s.vcps := rfl
@[simp] theorem State.addHostReq_plugins (s : State) (tag : Nat) (r : HostReq) : (s.addHostReq tag r).plugins = s.plugins := rfl
@[simp] theorem State.addHostReq_journalUsed (s : State) (tag : Nat) (r : HostReq) : (s.addHostReq tag r).journalUsed = s.journalUsed := rfl
@[simp] theorem State.addHostReq_journalGap (s : State) (tag : Nat) (r : HostReq) : (s.addHostReq tag r).journalGap = s.journalGap := rfl
@[simp] theorem State.addHostReq_preempts (s : State) (tag : Nat) (r : HostReq) : (s.addHostReq tag r).preempts = s.preempts := rfl
@[simp] theorem State.addHostReq_shootdowns (s : State) (tag : Nat) (r : HostReq) : (s.addHostReq tag r).shootdowns = s.shootdowns := rfl
@[simp] theorem State.addHostReq_links (s : State) (tag : Nat) (r : HostReq) : (s.addHostReq tag r).links = s.links := rfl
@[simp] theorem State.addHostReq_boot (s : State) (tag : Nat) (r : HostReq) : (s.addHostReq tag r).boot = s.boot := rfl
@[simp] theorem State.addHostReq_service (s : State) (tag : Nat) (r : HostReq) : (s.addHostReq tag r).service = s.service := rfl
@[simp] theorem State.addHostReq_power (s : State) (tag : Nat) (r : HostReq) : (s.addHostReq tag r).power = s.power := rfl

/-! ### Units after an update of another unit -/

@[simp] theorem State.setCore_fe_frame (s : State) (lc : Nat) (c : Core) (k : Nat) : (s.setCore lc c).fe k = s.fe k := rfl
@[simp] theorem State.setCore_tile_frame (s : State) (lc : Nat) (c : Core) (k : Nat) : (s.setCore lc c).tile k = s.tile k := rfl
@[simp] theorem State.setCore_cluster_frame (s : State) (lc : Nat) (c : Core) (k : Nat) : (s.setCore lc c).cluster k = s.cluster k := rfl
@[simp] theorem State.setCore_die_frame (s : State) (lc : Nat) (c : Core) (k : Nat) : (s.setCore lc c).die k = s.die k := rfl
@[simp] theorem State.setCore_rail_frame (s : State) (lc : Nat) (c : Core) (k : Nat) : (s.setCore lc c).rail k = s.rail k := rfl
@[simp] theorem State.setCore_slice_frame (s : State) (lc : Nat) (c : Core) (k : Nat) : (s.setCore lc c).slice k = s.slice k := rfl
@[simp] theorem State.setCore_func_frame (s : State) (lc : Nat) (c : Core) (k : Nat) : (s.setCore lc c).func k = s.func k := rfl
@[simp] theorem State.setCore_vcp_frame (s : State) (lc : Nat) (c : Core) (k j : Nat) : (s.setCore lc c).vcp k j = s.vcp k j := rfl
@[simp] theorem State.setCore_plugin_frame (s : State) (lc : Nat) (c : Core) (k : Nat) : (s.setCore lc c).plugin k = s.plugin k := rfl
@[simp] theorem State.setCore_preemption_frame (s : State) (lc : Nat) (c : Core) (k : Nat) : (s.setCore lc c).preemption k = s.preemption k := rfl
@[simp] theorem State.setCore_link_frame (s : State) (lc : Nat) (c : Core) (k : Nat) : (s.setCore lc c).link k = s.link k := rfl
@[simp] theorem State.setCore_root_frame (s : State) (lc : Nat) (c : Core) (k : Nat) : (s.setCore lc c).root k = s.root k := rfl
@[simp] theorem State.setCore_node_frame (s : State) (lc : Nat) (c : Core) (k : Nat) : (s.setCore lc c).node k = s.node k := rfl
@[simp] theorem State.setCore_landing_frame (s : State) (lc : Nat) (c : Core) (k j : Nat) : (s.setCore lc c).landing k j = s.landing k j := rfl
@[simp] theorem State.setCore_graph_frame (s : State) (lc : Nat) (c : Core) (k : Nat) : (s.setCore lc c).graph k = s.graph k := rfl
@[simp] theorem State.setCore_entry_frame (s : State) (lc : Nat) (c : Core) (k j : Nat) : (s.setCore lc c).entry k j = s.entry k j := rfl
@[simp] theorem State.setCore_counter_frame (s : State) (lc : Nat) (c : Core) (k j : Nat) : (s.setCore lc c).counter k j = s.counter k j := rfl

@[simp] theorem State.setFe_core_frame (s : State) (n : Nat) (c : FeCore) (k : Nat) : (s.setFe n c).core k = s.core k := rfl
@[simp] theorem State.setFe_tile_frame (s : State) (n : Nat) (c : FeCore) (k : Nat) : (s.setFe n c).tile k = s.tile k := rfl
@[simp] theorem State.setFe_cluster_frame (s : State) (n : Nat) (c : FeCore) (k : Nat) : (s.setFe n c).cluster k = s.cluster k := rfl
@[simp] theorem State.setFe_die_frame (s : State) (n : Nat) (c : FeCore) (k : Nat) : (s.setFe n c).die k = s.die k := rfl
@[simp] theorem State.setFe_rail_frame (s : State) (n : Nat) (c : FeCore) (k : Nat) : (s.setFe n c).rail k = s.rail k := rfl
@[simp] theorem State.setFe_slice_frame (s : State) (n : Nat) (c : FeCore) (k : Nat) : (s.setFe n c).slice k = s.slice k := rfl
@[simp] theorem State.setFe_func_frame (s : State) (n : Nat) (c : FeCore) (k : Nat) : (s.setFe n c).func k = s.func k := rfl
@[simp] theorem State.setFe_vcp_frame (s : State) (n : Nat) (c : FeCore) (k j : Nat) : (s.setFe n c).vcp k j = s.vcp k j := rfl
@[simp] theorem State.setFe_plugin_frame (s : State) (n : Nat) (c : FeCore) (k : Nat) : (s.setFe n c).plugin k = s.plugin k := rfl
@[simp] theorem State.setFe_preemption_frame (s : State) (n : Nat) (c : FeCore) (k : Nat) : (s.setFe n c).preemption k = s.preemption k := rfl
@[simp] theorem State.setFe_link_frame (s : State) (n : Nat) (c : FeCore) (k : Nat) : (s.setFe n c).link k = s.link k := rfl
@[simp] theorem State.setFe_root_frame (s : State) (n : Nat) (c : FeCore) (k : Nat) : (s.setFe n c).root k = s.root k := rfl
@[simp] theorem State.setFe_node_frame (s : State) (n : Nat) (c : FeCore) (k : Nat) : (s.setFe n c).node k = s.node k := rfl
@[simp] theorem State.setFe_landing_frame (s : State) (n : Nat) (c : FeCore) (k j : Nat) : (s.setFe n c).landing k j = s.landing k j := rfl
@[simp] theorem State.setFe_graph_frame (s : State) (n : Nat) (c : FeCore) (k : Nat) : (s.setFe n c).graph k = s.graph k := rfl
@[simp] theorem State.setFe_entry_frame (s : State) (n : Nat) (c : FeCore) (k j : Nat) : (s.setFe n c).entry k j = s.entry k j := rfl
@[simp] theorem State.setFe_counter_frame (s : State) (n : Nat) (c : FeCore) (k j : Nat) : (s.setFe n c).counter k j = s.counter k j := rfl
@[simp] theorem State.setFe_top_frame (s : State) (n : Nat) (c : FeCore) (k : Nat) : (s.setFe n c).top k = s.top k := rfl

@[simp] theorem State.setTile_core_frame (s : State) (t : Nat) (x : Tile) (k : Nat) : (s.setTile t x).core k = s.core k := rfl
@[simp] theorem State.setTile_fe_frame (s : State) (t : Nat) (x : Tile) (k : Nat) : (s.setTile t x).fe k = s.fe k := rfl
@[simp] theorem State.setTile_cluster_frame (s : State) (t : Nat) (x : Tile) (k : Nat) : (s.setTile t x).cluster k = s.cluster k := rfl
@[simp] theorem State.setTile_die_frame (s : State) (t : Nat) (x : Tile) (k : Nat) : (s.setTile t x).die k = s.die k := rfl
@[simp] theorem State.setTile_rail_frame (s : State) (t : Nat) (x : Tile) (k : Nat) : (s.setTile t x).rail k = s.rail k := rfl
@[simp] theorem State.setTile_slice_frame (s : State) (t : Nat) (x : Tile) (k : Nat) : (s.setTile t x).slice k = s.slice k := rfl
@[simp] theorem State.setTile_func_frame (s : State) (t : Nat) (x : Tile) (k : Nat) : (s.setTile t x).func k = s.func k := rfl
@[simp] theorem State.setTile_vcp_frame (s : State) (t : Nat) (x : Tile) (k j : Nat) : (s.setTile t x).vcp k j = s.vcp k j := rfl
@[simp] theorem State.setTile_plugin_frame (s : State) (t : Nat) (x : Tile) (k : Nat) : (s.setTile t x).plugin k = s.plugin k := rfl
@[simp] theorem State.setTile_preemption_frame (s : State) (t : Nat) (x : Tile) (k : Nat) : (s.setTile t x).preemption k = s.preemption k := rfl
@[simp] theorem State.setTile_link_frame (s : State) (t : Nat) (x : Tile) (k : Nat) : (s.setTile t x).link k = s.link k := rfl
@[simp] theorem State.setTile_root_frame (s : State) (t : Nat) (x : Tile) (k : Nat) : (s.setTile t x).root k = s.root k := rfl
@[simp] theorem State.setTile_node_frame (s : State) (t : Nat) (x : Tile) (k : Nat) : (s.setTile t x).node k = s.node k := rfl
@[simp] theorem State.setTile_landing_frame (s : State) (t : Nat) (x : Tile) (k j : Nat) : (s.setTile t x).landing k j = s.landing k j := rfl
@[simp] theorem State.setTile_graph_frame (s : State) (t : Nat) (x : Tile) (k : Nat) : (s.setTile t x).graph k = s.graph k := rfl
@[simp] theorem State.setTile_entry_frame (s : State) (t : Nat) (x : Tile) (k j : Nat) : (s.setTile t x).entry k j = s.entry k j := rfl
@[simp] theorem State.setTile_counter_frame (s : State) (t : Nat) (x : Tile) (k j : Nat) : (s.setTile t x).counter k j = s.counter k j := rfl
@[simp] theorem State.setTile_top_frame (s : State) (t : Nat) (x : Tile) (k : Nat) : (s.setTile t x).top k = s.top k := rfl

@[simp] theorem State.setCluster_core_frame (s : State) (c : Nat) (x : Cluster) (k : Nat) : (s.setCluster c x).core k = s.core k := rfl
@[simp] theorem State.setCluster_fe_frame (s : State) (c : Nat) (x : Cluster) (k : Nat) : (s.setCluster c x).fe k = s.fe k := rfl
@[simp] theorem State.setCluster_tile_frame (s : State) (c : Nat) (x : Cluster) (k : Nat) : (s.setCluster c x).tile k = s.tile k := rfl
@[simp] theorem State.setCluster_die_frame (s : State) (c : Nat) (x : Cluster) (k : Nat) : (s.setCluster c x).die k = s.die k := rfl
@[simp] theorem State.setCluster_rail_frame (s : State) (c : Nat) (x : Cluster) (k : Nat) : (s.setCluster c x).rail k = s.rail k := rfl
@[simp] theorem State.setCluster_slice_frame (s : State) (c : Nat) (x : Cluster) (k : Nat) : (s.setCluster c x).slice k = s.slice k := rfl
@[simp] theorem State.setCluster_func_frame (s : State) (c : Nat) (x : Cluster) (k : Nat) : (s.setCluster c x).func k = s.func k := rfl
@[simp] theorem State.setCluster_vcp_frame (s : State) (c : Nat) (x : Cluster) (k j : Nat) : (s.setCluster c x).vcp k j = s.vcp k j := rfl
@[simp] theorem State.setCluster_plugin_frame (s : State) (c : Nat) (x : Cluster) (k : Nat) : (s.setCluster c x).plugin k = s.plugin k := rfl
@[simp] theorem State.setCluster_preemption_frame (s : State) (c : Nat) (x : Cluster) (k : Nat) : (s.setCluster c x).preemption k = s.preemption k := rfl
@[simp] theorem State.setCluster_link_frame (s : State) (c : Nat) (x : Cluster) (k : Nat) : (s.setCluster c x).link k = s.link k := rfl
@[simp] theorem State.setCluster_root_frame (s : State) (c : Nat) (x : Cluster) (k : Nat) : (s.setCluster c x).root k = s.root k := rfl
@[simp] theorem State.setCluster_node_frame (s : State) (c : Nat) (x : Cluster) (k : Nat) : (s.setCluster c x).node k = s.node k := rfl
@[simp] theorem State.setCluster_landing_frame (s : State) (c : Nat) (x : Cluster) (k j : Nat) : (s.setCluster c x).landing k j = s.landing k j := rfl
@[simp] theorem State.setCluster_graph_frame (s : State) (c : Nat) (x : Cluster) (k : Nat) : (s.setCluster c x).graph k = s.graph k := rfl
@[simp] theorem State.setCluster_entry_frame (s : State) (c : Nat) (x : Cluster) (k j : Nat) : (s.setCluster c x).entry k j = s.entry k j := rfl
@[simp] theorem State.setCluster_counter_frame (s : State) (c : Nat) (x : Cluster) (k j : Nat) : (s.setCluster c x).counter k j = s.counter k j := rfl
@[simp] theorem State.setCluster_top_frame (s : State) (c : Nat) (x : Cluster) (k : Nat) : (s.setCluster c x).top k = s.top k := rfl

@[simp] theorem State.setDie_core_frame (s : State) (d : Nat) (x : Die) (k : Nat) : (s.setDie d x).core k = s.core k := rfl
@[simp] theorem State.setDie_fe_frame (s : State) (d : Nat) (x : Die) (k : Nat) : (s.setDie d x).fe k = s.fe k := rfl
@[simp] theorem State.setDie_tile_frame (s : State) (d : Nat) (x : Die) (k : Nat) : (s.setDie d x).tile k = s.tile k := rfl
@[simp] theorem State.setDie_cluster_frame (s : State) (d : Nat) (x : Die) (k : Nat) : (s.setDie d x).cluster k = s.cluster k := rfl
@[simp] theorem State.setDie_rail_frame (s : State) (d : Nat) (x : Die) (k : Nat) : (s.setDie d x).rail k = s.rail k := rfl
@[simp] theorem State.setDie_slice_frame (s : State) (d : Nat) (x : Die) (k : Nat) : (s.setDie d x).slice k = s.slice k := rfl
@[simp] theorem State.setDie_func_frame (s : State) (d : Nat) (x : Die) (k : Nat) : (s.setDie d x).func k = s.func k := rfl
@[simp] theorem State.setDie_vcp_frame (s : State) (d : Nat) (x : Die) (k j : Nat) : (s.setDie d x).vcp k j = s.vcp k j := rfl
@[simp] theorem State.setDie_plugin_frame (s : State) (d : Nat) (x : Die) (k : Nat) : (s.setDie d x).plugin k = s.plugin k := rfl
@[simp] theorem State.setDie_preemption_frame (s : State) (d : Nat) (x : Die) (k : Nat) : (s.setDie d x).preemption k = s.preemption k := rfl
@[simp] theorem State.setDie_link_frame (s : State) (d : Nat) (x : Die) (k : Nat) : (s.setDie d x).link k = s.link k := rfl
@[simp] theorem State.setDie_root_frame (s : State) (d : Nat) (x : Die) (k : Nat) : (s.setDie d x).root k = s.root k := rfl
@[simp] theorem State.setDie_node_frame (s : State) (d : Nat) (x : Die) (k : Nat) : (s.setDie d x).node k = s.node k := rfl
@[simp] theorem State.setDie_landing_frame (s : State) (d : Nat) (x : Die) (k j : Nat) : (s.setDie d x).landing k j = s.landing k j := rfl
@[simp] theorem State.setDie_graph_frame (s : State) (d : Nat) (x : Die) (k : Nat) : (s.setDie d x).graph k = s.graph k := rfl
@[simp] theorem State.setDie_entry_frame (s : State) (d : Nat) (x : Die) (k j : Nat) : (s.setDie d x).entry k j = s.entry k j := rfl
@[simp] theorem State.setDie_counter_frame (s : State) (d : Nat) (x : Die) (k j : Nat) : (s.setDie d x).counter k j = s.counter k j := rfl
@[simp] theorem State.setDie_top_frame (s : State) (d : Nat) (x : Die) (k : Nat) : (s.setDie d x).top k = s.top k := rfl

@[simp] theorem State.setRail_core_frame (s : State) (r : Nat) (x : Rail) (k : Nat) : (s.setRail r x).core k = s.core k := rfl
@[simp] theorem State.setRail_fe_frame (s : State) (r : Nat) (x : Rail) (k : Nat) : (s.setRail r x).fe k = s.fe k := rfl
@[simp] theorem State.setRail_tile_frame (s : State) (r : Nat) (x : Rail) (k : Nat) : (s.setRail r x).tile k = s.tile k := rfl
@[simp] theorem State.setRail_cluster_frame (s : State) (r : Nat) (x : Rail) (k : Nat) : (s.setRail r x).cluster k = s.cluster k := rfl
@[simp] theorem State.setRail_die_frame (s : State) (r : Nat) (x : Rail) (k : Nat) : (s.setRail r x).die k = s.die k := rfl
@[simp] theorem State.setRail_slice_frame (s : State) (r : Nat) (x : Rail) (k : Nat) : (s.setRail r x).slice k = s.slice k := rfl
@[simp] theorem State.setRail_func_frame (s : State) (r : Nat) (x : Rail) (k : Nat) : (s.setRail r x).func k = s.func k := rfl
@[simp] theorem State.setRail_vcp_frame (s : State) (r : Nat) (x : Rail) (k j : Nat) : (s.setRail r x).vcp k j = s.vcp k j := rfl
@[simp] theorem State.setRail_plugin_frame (s : State) (r : Nat) (x : Rail) (k : Nat) : (s.setRail r x).plugin k = s.plugin k := rfl
@[simp] theorem State.setRail_preemption_frame (s : State) (r : Nat) (x : Rail) (k : Nat) : (s.setRail r x).preemption k = s.preemption k := rfl
@[simp] theorem State.setRail_link_frame (s : State) (r : Nat) (x : Rail) (k : Nat) : (s.setRail r x).link k = s.link k := rfl
@[simp] theorem State.setRail_root_frame (s : State) (r : Nat) (x : Rail) (k : Nat) : (s.setRail r x).root k = s.root k := rfl
@[simp] theorem State.setRail_node_frame (s : State) (r : Nat) (x : Rail) (k : Nat) : (s.setRail r x).node k = s.node k := rfl
@[simp] theorem State.setRail_landing_frame (s : State) (r : Nat) (x : Rail) (k j : Nat) : (s.setRail r x).landing k j = s.landing k j := rfl
@[simp] theorem State.setRail_graph_frame (s : State) (r : Nat) (x : Rail) (k : Nat) : (s.setRail r x).graph k = s.graph k := rfl
@[simp] theorem State.setRail_entry_frame (s : State) (r : Nat) (x : Rail) (k j : Nat) : (s.setRail r x).entry k j = s.entry k j := rfl
@[simp] theorem State.setRail_counter_frame (s : State) (r : Nat) (x : Rail) (k j : Nat) : (s.setRail r x).counter k j = s.counter k j := rfl
@[simp] theorem State.setRail_top_frame (s : State) (r : Nat) (x : Rail) (k : Nat) : (s.setRail r x).top k = s.top k := rfl

@[simp] theorem State.setSlice_core_frame (s : State) (n : Nat) (x : Slice) (k : Nat) : (s.setSlice n x).core k = s.core k := rfl
@[simp] theorem State.setSlice_fe_frame (s : State) (n : Nat) (x : Slice) (k : Nat) : (s.setSlice n x).fe k = s.fe k := rfl
@[simp] theorem State.setSlice_tile_frame (s : State) (n : Nat) (x : Slice) (k : Nat) : (s.setSlice n x).tile k = s.tile k := rfl
@[simp] theorem State.setSlice_cluster_frame (s : State) (n : Nat) (x : Slice) (k : Nat) : (s.setSlice n x).cluster k = s.cluster k := rfl
@[simp] theorem State.setSlice_die_frame (s : State) (n : Nat) (x : Slice) (k : Nat) : (s.setSlice n x).die k = s.die k := rfl
@[simp] theorem State.setSlice_rail_frame (s : State) (n : Nat) (x : Slice) (k : Nat) : (s.setSlice n x).rail k = s.rail k := rfl
@[simp] theorem State.setSlice_func_frame (s : State) (n : Nat) (x : Slice) (k : Nat) : (s.setSlice n x).func k = s.func k := rfl
@[simp] theorem State.setSlice_vcp_frame (s : State) (n : Nat) (x : Slice) (k j : Nat) : (s.setSlice n x).vcp k j = s.vcp k j := rfl
@[simp] theorem State.setSlice_plugin_frame (s : State) (n : Nat) (x : Slice) (k : Nat) : (s.setSlice n x).plugin k = s.plugin k := rfl
@[simp] theorem State.setSlice_preemption_frame (s : State) (n : Nat) (x : Slice) (k : Nat) : (s.setSlice n x).preemption k = s.preemption k := rfl
@[simp] theorem State.setSlice_link_frame (s : State) (n : Nat) (x : Slice) (k : Nat) : (s.setSlice n x).link k = s.link k := rfl
@[simp] theorem State.setSlice_root_frame (s : State) (n : Nat) (x : Slice) (k : Nat) : (s.setSlice n x).root k = s.root k := rfl
@[simp] theorem State.setSlice_node_frame (s : State) (n : Nat) (x : Slice) (k : Nat) : (s.setSlice n x).node k = s.node k := rfl
@[simp] theorem State.setSlice_landing_frame (s : State) (n : Nat) (x : Slice) (k j : Nat) : (s.setSlice n x).landing k j = s.landing k j := rfl
@[simp] theorem State.setSlice_graph_frame (s : State) (n : Nat) (x : Slice) (k : Nat) : (s.setSlice n x).graph k = s.graph k := rfl
@[simp] theorem State.setSlice_entry_frame (s : State) (n : Nat) (x : Slice) (k j : Nat) : (s.setSlice n x).entry k j = s.entry k j := rfl
@[simp] theorem State.setSlice_counter_frame (s : State) (n : Nat) (x : Slice) (k j : Nat) : (s.setSlice n x).counter k j = s.counter k j := rfl
@[simp] theorem State.setSlice_top_frame (s : State) (n : Nat) (x : Slice) (k : Nat) : (s.setSlice n x).top k = s.top k := rfl

@[simp] theorem State.setFunc_core_frame (s : State) (f : Nat) (x : Func) (k : Nat) : (s.setFunc f x).core k = s.core k := rfl
@[simp] theorem State.setFunc_fe_frame (s : State) (f : Nat) (x : Func) (k : Nat) : (s.setFunc f x).fe k = s.fe k := rfl
@[simp] theorem State.setFunc_tile_frame (s : State) (f : Nat) (x : Func) (k : Nat) : (s.setFunc f x).tile k = s.tile k := rfl
@[simp] theorem State.setFunc_cluster_frame (s : State) (f : Nat) (x : Func) (k : Nat) : (s.setFunc f x).cluster k = s.cluster k := rfl
@[simp] theorem State.setFunc_die_frame (s : State) (f : Nat) (x : Func) (k : Nat) : (s.setFunc f x).die k = s.die k := rfl
@[simp] theorem State.setFunc_rail_frame (s : State) (f : Nat) (x : Func) (k : Nat) : (s.setFunc f x).rail k = s.rail k := rfl
@[simp] theorem State.setFunc_slice_frame (s : State) (f : Nat) (x : Func) (k : Nat) : (s.setFunc f x).slice k = s.slice k := rfl
@[simp] theorem State.setFunc_vcp_frame (s : State) (f : Nat) (x : Func) (k j : Nat) : (s.setFunc f x).vcp k j = s.vcp k j := rfl
@[simp] theorem State.setFunc_plugin_frame (s : State) (f : Nat) (x : Func) (k : Nat) : (s.setFunc f x).plugin k = s.plugin k := rfl
@[simp] theorem State.setFunc_preemption_frame (s : State) (f : Nat) (x : Func) (k : Nat) : (s.setFunc f x).preemption k = s.preemption k := rfl
@[simp] theorem State.setFunc_link_frame (s : State) (f : Nat) (x : Func) (k : Nat) : (s.setFunc f x).link k = s.link k := rfl
@[simp] theorem State.setFunc_root_frame (s : State) (f : Nat) (x : Func) (k : Nat) : (s.setFunc f x).root k = s.root k := rfl
@[simp] theorem State.setFunc_node_frame (s : State) (f : Nat) (x : Func) (k : Nat) : (s.setFunc f x).node k = s.node k := rfl
@[simp] theorem State.setFunc_landing_frame (s : State) (f : Nat) (x : Func) (k j : Nat) : (s.setFunc f x).landing k j = s.landing k j := rfl
@[simp] theorem State.setFunc_graph_frame (s : State) (f : Nat) (x : Func) (k : Nat) : (s.setFunc f x).graph k = s.graph k := rfl
@[simp] theorem State.setFunc_entry_frame (s : State) (f : Nat) (x : Func) (k j : Nat) : (s.setFunc f x).entry k j = s.entry k j := rfl
@[simp] theorem State.setFunc_counter_frame (s : State) (f : Nat) (x : Func) (k j : Nat) : (s.setFunc f x).counter k j = s.counter k j := rfl
@[simp] theorem State.setFunc_top_frame (s : State) (f : Nat) (x : Func) (k : Nat) : (s.setFunc f x).top k = s.top k := rfl

@[simp] theorem State.setVcp_core_frame (s : State) (f v : Nat) (x : Vcp) (k : Nat) : (s.setVcp f v x).core k = s.core k := rfl
@[simp] theorem State.setVcp_fe_frame (s : State) (f v : Nat) (x : Vcp) (k : Nat) : (s.setVcp f v x).fe k = s.fe k := rfl
@[simp] theorem State.setVcp_tile_frame (s : State) (f v : Nat) (x : Vcp) (k : Nat) : (s.setVcp f v x).tile k = s.tile k := rfl
@[simp] theorem State.setVcp_cluster_frame (s : State) (f v : Nat) (x : Vcp) (k : Nat) : (s.setVcp f v x).cluster k = s.cluster k := rfl
@[simp] theorem State.setVcp_die_frame (s : State) (f v : Nat) (x : Vcp) (k : Nat) : (s.setVcp f v x).die k = s.die k := rfl
@[simp] theorem State.setVcp_rail_frame (s : State) (f v : Nat) (x : Vcp) (k : Nat) : (s.setVcp f v x).rail k = s.rail k := rfl
@[simp] theorem State.setVcp_slice_frame (s : State) (f v : Nat) (x : Vcp) (k : Nat) : (s.setVcp f v x).slice k = s.slice k := rfl
@[simp] theorem State.setVcp_func_frame (s : State) (f v : Nat) (x : Vcp) (k : Nat) : (s.setVcp f v x).func k = s.func k := rfl
@[simp] theorem State.setVcp_plugin_frame (s : State) (f v : Nat) (x : Vcp) (k : Nat) : (s.setVcp f v x).plugin k = s.plugin k := rfl
@[simp] theorem State.setVcp_preemption_frame (s : State) (f v : Nat) (x : Vcp) (k : Nat) : (s.setVcp f v x).preemption k = s.preemption k := rfl
@[simp] theorem State.setVcp_link_frame (s : State) (f v : Nat) (x : Vcp) (k : Nat) : (s.setVcp f v x).link k = s.link k := rfl
@[simp] theorem State.setVcp_root_frame (s : State) (f v : Nat) (x : Vcp) (k : Nat) : (s.setVcp f v x).root k = s.root k := rfl
@[simp] theorem State.setVcp_node_frame (s : State) (f v : Nat) (x : Vcp) (k : Nat) : (s.setVcp f v x).node k = s.node k := rfl
@[simp] theorem State.setVcp_landing_frame (s : State) (f v : Nat) (x : Vcp) (k j : Nat) : (s.setVcp f v x).landing k j = s.landing k j := rfl
@[simp] theorem State.setVcp_graph_frame (s : State) (f v : Nat) (x : Vcp) (k : Nat) : (s.setVcp f v x).graph k = s.graph k := rfl
@[simp] theorem State.setVcp_entry_frame (s : State) (f v : Nat) (x : Vcp) (k j : Nat) : (s.setVcp f v x).entry k j = s.entry k j := rfl
@[simp] theorem State.setVcp_counter_frame (s : State) (f v : Nat) (x : Vcp) (k j : Nat) : (s.setVcp f v x).counter k j = s.counter k j := rfl
@[simp] theorem State.setVcp_top_frame (s : State) (f v : Nat) (x : Vcp) (k : Nat) : (s.setVcp f v x).top k = s.top k := rfl

@[simp] theorem State.setPlugin_core_frame (s : State) (n : Nat) (x : Plugin) (k : Nat) : (s.setPlugin n x).core k = s.core k := rfl
@[simp] theorem State.setPlugin_fe_frame (s : State) (n : Nat) (x : Plugin) (k : Nat) : (s.setPlugin n x).fe k = s.fe k := rfl
@[simp] theorem State.setPlugin_tile_frame (s : State) (n : Nat) (x : Plugin) (k : Nat) : (s.setPlugin n x).tile k = s.tile k := rfl
@[simp] theorem State.setPlugin_cluster_frame (s : State) (n : Nat) (x : Plugin) (k : Nat) : (s.setPlugin n x).cluster k = s.cluster k := rfl
@[simp] theorem State.setPlugin_die_frame (s : State) (n : Nat) (x : Plugin) (k : Nat) : (s.setPlugin n x).die k = s.die k := rfl
@[simp] theorem State.setPlugin_rail_frame (s : State) (n : Nat) (x : Plugin) (k : Nat) : (s.setPlugin n x).rail k = s.rail k := rfl
@[simp] theorem State.setPlugin_slice_frame (s : State) (n : Nat) (x : Plugin) (k : Nat) : (s.setPlugin n x).slice k = s.slice k := rfl
@[simp] theorem State.setPlugin_func_frame (s : State) (n : Nat) (x : Plugin) (k : Nat) : (s.setPlugin n x).func k = s.func k := rfl
@[simp] theorem State.setPlugin_vcp_frame (s : State) (n : Nat) (x : Plugin) (k j : Nat) : (s.setPlugin n x).vcp k j = s.vcp k j := rfl
@[simp] theorem State.setPlugin_preemption_frame (s : State) (n : Nat) (x : Plugin) (k : Nat) : (s.setPlugin n x).preemption k = s.preemption k := rfl
@[simp] theorem State.setPlugin_link_frame (s : State) (n : Nat) (x : Plugin) (k : Nat) : (s.setPlugin n x).link k = s.link k := rfl
@[simp] theorem State.setPlugin_root_frame (s : State) (n : Nat) (x : Plugin) (k : Nat) : (s.setPlugin n x).root k = s.root k := rfl
@[simp] theorem State.setPlugin_node_frame (s : State) (n : Nat) (x : Plugin) (k : Nat) : (s.setPlugin n x).node k = s.node k := rfl
@[simp] theorem State.setPlugin_landing_frame (s : State) (n : Nat) (x : Plugin) (k j : Nat) : (s.setPlugin n x).landing k j = s.landing k j := rfl
@[simp] theorem State.setPlugin_graph_frame (s : State) (n : Nat) (x : Plugin) (k : Nat) : (s.setPlugin n x).graph k = s.graph k := rfl
@[simp] theorem State.setPlugin_entry_frame (s : State) (n : Nat) (x : Plugin) (k j : Nat) : (s.setPlugin n x).entry k j = s.entry k j := rfl
@[simp] theorem State.setPlugin_counter_frame (s : State) (n : Nat) (x : Plugin) (k j : Nat) : (s.setPlugin n x).counter k j = s.counter k j := rfl
@[simp] theorem State.setPlugin_top_frame (s : State) (n : Nat) (x : Plugin) (k : Nat) : (s.setPlugin n x).top k = s.top k := rfl

@[simp] theorem State.setPreemption_core_frame (s : State) (p : Nat) (x : Preemption) (k : Nat) : (s.setPreemption p x).core k = s.core k := rfl
@[simp] theorem State.setPreemption_fe_frame (s : State) (p : Nat) (x : Preemption) (k : Nat) : (s.setPreemption p x).fe k = s.fe k := rfl
@[simp] theorem State.setPreemption_tile_frame (s : State) (p : Nat) (x : Preemption) (k : Nat) : (s.setPreemption p x).tile k = s.tile k := rfl
@[simp] theorem State.setPreemption_cluster_frame (s : State) (p : Nat) (x : Preemption) (k : Nat) : (s.setPreemption p x).cluster k = s.cluster k := rfl
@[simp] theorem State.setPreemption_die_frame (s : State) (p : Nat) (x : Preemption) (k : Nat) : (s.setPreemption p x).die k = s.die k := rfl
@[simp] theorem State.setPreemption_rail_frame (s : State) (p : Nat) (x : Preemption) (k : Nat) : (s.setPreemption p x).rail k = s.rail k := rfl
@[simp] theorem State.setPreemption_slice_frame (s : State) (p : Nat) (x : Preemption) (k : Nat) : (s.setPreemption p x).slice k = s.slice k := rfl
@[simp] theorem State.setPreemption_func_frame (s : State) (p : Nat) (x : Preemption) (k : Nat) : (s.setPreemption p x).func k = s.func k := rfl
@[simp] theorem State.setPreemption_vcp_frame (s : State) (p : Nat) (x : Preemption) (k j : Nat) : (s.setPreemption p x).vcp k j = s.vcp k j := rfl
@[simp] theorem State.setPreemption_plugin_frame (s : State) (p : Nat) (x : Preemption) (k : Nat) : (s.setPreemption p x).plugin k = s.plugin k := rfl
@[simp] theorem State.setPreemption_link_frame (s : State) (p : Nat) (x : Preemption) (k : Nat) : (s.setPreemption p x).link k = s.link k := rfl
@[simp] theorem State.setPreemption_root_frame (s : State) (p : Nat) (x : Preemption) (k : Nat) : (s.setPreemption p x).root k = s.root k := rfl
@[simp] theorem State.setPreemption_node_frame (s : State) (p : Nat) (x : Preemption) (k : Nat) : (s.setPreemption p x).node k = s.node k := rfl
@[simp] theorem State.setPreemption_landing_frame (s : State) (p : Nat) (x : Preemption) (k j : Nat) : (s.setPreemption p x).landing k j = s.landing k j := rfl
@[simp] theorem State.setPreemption_graph_frame (s : State) (p : Nat) (x : Preemption) (k : Nat) : (s.setPreemption p x).graph k = s.graph k := rfl
@[simp] theorem State.setPreemption_entry_frame (s : State) (p : Nat) (x : Preemption) (k j : Nat) : (s.setPreemption p x).entry k j = s.entry k j := rfl
@[simp] theorem State.setPreemption_counter_frame (s : State) (p : Nat) (x : Preemption) (k j : Nat) : (s.setPreemption p x).counter k j = s.counter k j := rfl
@[simp] theorem State.setPreemption_top_frame (s : State) (p : Nat) (x : Preemption) (k : Nat) : (s.setPreemption p x).top k = s.top k := rfl

@[simp] theorem State.setLink_core_frame (s : State) (n : Nat) (x : Link) (k : Nat) : (s.setLink n x).core k = s.core k := rfl
@[simp] theorem State.setLink_fe_frame (s : State) (n : Nat) (x : Link) (k : Nat) : (s.setLink n x).fe k = s.fe k := rfl
@[simp] theorem State.setLink_tile_frame (s : State) (n : Nat) (x : Link) (k : Nat) : (s.setLink n x).tile k = s.tile k := rfl
@[simp] theorem State.setLink_cluster_frame (s : State) (n : Nat) (x : Link) (k : Nat) : (s.setLink n x).cluster k = s.cluster k := rfl
@[simp] theorem State.setLink_die_frame (s : State) (n : Nat) (x : Link) (k : Nat) : (s.setLink n x).die k = s.die k := rfl
@[simp] theorem State.setLink_rail_frame (s : State) (n : Nat) (x : Link) (k : Nat) : (s.setLink n x).rail k = s.rail k := rfl
@[simp] theorem State.setLink_slice_frame (s : State) (n : Nat) (x : Link) (k : Nat) : (s.setLink n x).slice k = s.slice k := rfl
@[simp] theorem State.setLink_func_frame (s : State) (n : Nat) (x : Link) (k : Nat) : (s.setLink n x).func k = s.func k := rfl
@[simp] theorem State.setLink_vcp_frame (s : State) (n : Nat) (x : Link) (k j : Nat) : (s.setLink n x).vcp k j = s.vcp k j := rfl
@[simp] theorem State.setLink_plugin_frame (s : State) (n : Nat) (x : Link) (k : Nat) : (s.setLink n x).plugin k = s.plugin k := rfl
@[simp] theorem State.setLink_preemption_frame (s : State) (n : Nat) (x : Link) (k : Nat) : (s.setLink n x).preemption k = s.preemption k := rfl
@[simp] theorem State.setLink_root_frame (s : State) (n : Nat) (x : Link) (k : Nat) : (s.setLink n x).root k = s.root k := rfl
@[simp] theorem State.setLink_node_frame (s : State) (n : Nat) (x : Link) (k : Nat) : (s.setLink n x).node k = s.node k := rfl
@[simp] theorem State.setLink_landing_frame (s : State) (n : Nat) (x : Link) (k j : Nat) : (s.setLink n x).landing k j = s.landing k j := rfl
@[simp] theorem State.setLink_graph_frame (s : State) (n : Nat) (x : Link) (k : Nat) : (s.setLink n x).graph k = s.graph k := rfl
@[simp] theorem State.setLink_entry_frame (s : State) (n : Nat) (x : Link) (k j : Nat) : (s.setLink n x).entry k j = s.entry k j := rfl
@[simp] theorem State.setLink_counter_frame (s : State) (n : Nat) (x : Link) (k j : Nat) : (s.setLink n x).counter k j = s.counter k j := rfl
@[simp] theorem State.setLink_top_frame (s : State) (n : Nat) (x : Link) (k : Nat) : (s.setLink n x).top k = s.top k := rfl

@[simp] theorem State.setRoot_core_frame (s : State) (g : Nat) (x : Root) (k : Nat) : (s.setRoot g x).core k = s.core k := rfl
@[simp] theorem State.setRoot_fe_frame (s : State) (g : Nat) (x : Root) (k : Nat) : (s.setRoot g x).fe k = s.fe k := rfl
@[simp] theorem State.setRoot_tile_frame (s : State) (g : Nat) (x : Root) (k : Nat) : (s.setRoot g x).tile k = s.tile k := rfl
@[simp] theorem State.setRoot_cluster_frame (s : State) (g : Nat) (x : Root) (k : Nat) : (s.setRoot g x).cluster k = s.cluster k := rfl
@[simp] theorem State.setRoot_die_frame (s : State) (g : Nat) (x : Root) (k : Nat) : (s.setRoot g x).die k = s.die k := rfl
@[simp] theorem State.setRoot_rail_frame (s : State) (g : Nat) (x : Root) (k : Nat) : (s.setRoot g x).rail k = s.rail k := rfl
@[simp] theorem State.setRoot_slice_frame (s : State) (g : Nat) (x : Root) (k : Nat) : (s.setRoot g x).slice k = s.slice k := rfl
@[simp] theorem State.setRoot_func_frame (s : State) (g : Nat) (x : Root) (k : Nat) : (s.setRoot g x).func k = s.func k := rfl
@[simp] theorem State.setRoot_vcp_frame (s : State) (g : Nat) (x : Root) (k j : Nat) : (s.setRoot g x).vcp k j = s.vcp k j := rfl
@[simp] theorem State.setRoot_plugin_frame (s : State) (g : Nat) (x : Root) (k : Nat) : (s.setRoot g x).plugin k = s.plugin k := rfl
@[simp] theorem State.setRoot_preemption_frame (s : State) (g : Nat) (x : Root) (k : Nat) : (s.setRoot g x).preemption k = s.preemption k := rfl
@[simp] theorem State.setRoot_link_frame (s : State) (g : Nat) (x : Root) (k : Nat) : (s.setRoot g x).link k = s.link k := rfl
@[simp] theorem State.setRoot_node_frame (s : State) (g : Nat) (x : Root) (k : Nat) : (s.setRoot g x).node k = s.node k := rfl
@[simp] theorem State.setRoot_landing_frame (s : State) (g : Nat) (x : Root) (k j : Nat) : (s.setRoot g x).landing k j = s.landing k j := rfl
@[simp] theorem State.setRoot_graph_frame (s : State) (g : Nat) (x : Root) (k : Nat) : (s.setRoot g x).graph k = s.graph k := rfl
@[simp] theorem State.setRoot_entry_frame (s : State) (g : Nat) (x : Root) (k j : Nat) : (s.setRoot g x).entry k j = s.entry k j := rfl
@[simp] theorem State.setRoot_counter_frame (s : State) (g : Nat) (x : Root) (k j : Nat) : (s.setRoot g x).counter k j = s.counter k j := rfl
@[simp] theorem State.setRoot_top_frame (s : State) (g : Nat) (x : Root) (k : Nat) : (s.setRoot g x).top k = s.top k := rfl

@[simp] theorem State.setNode_core_frame (s : State) (n : Nat) (x : List Delta) (k : Nat) : (s.setNode n x).core k = s.core k := rfl
@[simp] theorem State.setNode_fe_frame (s : State) (n : Nat) (x : List Delta) (k : Nat) : (s.setNode n x).fe k = s.fe k := rfl
@[simp] theorem State.setNode_tile_frame (s : State) (n : Nat) (x : List Delta) (k : Nat) : (s.setNode n x).tile k = s.tile k := rfl
@[simp] theorem State.setNode_cluster_frame (s : State) (n : Nat) (x : List Delta) (k : Nat) : (s.setNode n x).cluster k = s.cluster k := rfl
@[simp] theorem State.setNode_die_frame (s : State) (n : Nat) (x : List Delta) (k : Nat) : (s.setNode n x).die k = s.die k := rfl
@[simp] theorem State.setNode_rail_frame (s : State) (n : Nat) (x : List Delta) (k : Nat) : (s.setNode n x).rail k = s.rail k := rfl
@[simp] theorem State.setNode_slice_frame (s : State) (n : Nat) (x : List Delta) (k : Nat) : (s.setNode n x).slice k = s.slice k := rfl
@[simp] theorem State.setNode_func_frame (s : State) (n : Nat) (x : List Delta) (k : Nat) : (s.setNode n x).func k = s.func k := rfl
@[simp] theorem State.setNode_vcp_frame (s : State) (n : Nat) (x : List Delta) (k j : Nat) : (s.setNode n x).vcp k j = s.vcp k j := rfl
@[simp] theorem State.setNode_plugin_frame (s : State) (n : Nat) (x : List Delta) (k : Nat) : (s.setNode n x).plugin k = s.plugin k := rfl
@[simp] theorem State.setNode_preemption_frame (s : State) (n : Nat) (x : List Delta) (k : Nat) : (s.setNode n x).preemption k = s.preemption k := rfl
@[simp] theorem State.setNode_link_frame (s : State) (n : Nat) (x : List Delta) (k : Nat) : (s.setNode n x).link k = s.link k := rfl
@[simp] theorem State.setNode_root_frame (s : State) (n : Nat) (x : List Delta) (k : Nat) : (s.setNode n x).root k = s.root k := rfl
@[simp] theorem State.setNode_landing_frame (s : State) (n : Nat) (x : List Delta) (k j : Nat) : (s.setNode n x).landing k j = s.landing k j := rfl
@[simp] theorem State.setNode_graph_frame (s : State) (n : Nat) (x : List Delta) (k : Nat) : (s.setNode n x).graph k = s.graph k := rfl
@[simp] theorem State.setNode_entry_frame (s : State) (n : Nat) (x : List Delta) (k j : Nat) : (s.setNode n x).entry k j = s.entry k j := rfl
@[simp] theorem State.setNode_counter_frame (s : State) (n : Nat) (x : List Delta) (k j : Nat) : (s.setNode n x).counter k j = s.counter k j := rfl
@[simp] theorem State.setNode_top_frame (s : State) (n : Nat) (x : List Delta) (k : Nat) : (s.setNode n x).top k = s.top k := rfl

@[simp] theorem State.setLanding_core_frame (s : State) (g st : Nat) (x : Landing) (k : Nat) : (s.setLanding g st x).core k = s.core k := rfl
@[simp] theorem State.setLanding_fe_frame (s : State) (g st : Nat) (x : Landing) (k : Nat) : (s.setLanding g st x).fe k = s.fe k := rfl
@[simp] theorem State.setLanding_tile_frame (s : State) (g st : Nat) (x : Landing) (k : Nat) : (s.setLanding g st x).tile k = s.tile k := rfl
@[simp] theorem State.setLanding_cluster_frame (s : State) (g st : Nat) (x : Landing) (k : Nat) : (s.setLanding g st x).cluster k = s.cluster k := rfl
@[simp] theorem State.setLanding_die_frame (s : State) (g st : Nat) (x : Landing) (k : Nat) : (s.setLanding g st x).die k = s.die k := rfl
@[simp] theorem State.setLanding_rail_frame (s : State) (g st : Nat) (x : Landing) (k : Nat) : (s.setLanding g st x).rail k = s.rail k := rfl
@[simp] theorem State.setLanding_slice_frame (s : State) (g st : Nat) (x : Landing) (k : Nat) : (s.setLanding g st x).slice k = s.slice k := rfl
@[simp] theorem State.setLanding_func_frame (s : State) (g st : Nat) (x : Landing) (k : Nat) : (s.setLanding g st x).func k = s.func k := rfl
@[simp] theorem State.setLanding_vcp_frame (s : State) (g st : Nat) (x : Landing) (k j : Nat) : (s.setLanding g st x).vcp k j = s.vcp k j := rfl
@[simp] theorem State.setLanding_plugin_frame (s : State) (g st : Nat) (x : Landing) (k : Nat) : (s.setLanding g st x).plugin k = s.plugin k := rfl
@[simp] theorem State.setLanding_preemption_frame (s : State) (g st : Nat) (x : Landing) (k : Nat) : (s.setLanding g st x).preemption k = s.preemption k := rfl
@[simp] theorem State.setLanding_link_frame (s : State) (g st : Nat) (x : Landing) (k : Nat) : (s.setLanding g st x).link k = s.link k := rfl
@[simp] theorem State.setLanding_root_frame (s : State) (g st : Nat) (x : Landing) (k : Nat) : (s.setLanding g st x).root k = s.root k := rfl
@[simp] theorem State.setLanding_node_frame (s : State) (g st : Nat) (x : Landing) (k : Nat) : (s.setLanding g st x).node k = s.node k := rfl
@[simp] theorem State.setLanding_graph_frame (s : State) (g st : Nat) (x : Landing) (k : Nat) : (s.setLanding g st x).graph k = s.graph k := rfl
@[simp] theorem State.setLanding_entry_frame (s : State) (g st : Nat) (x : Landing) (k j : Nat) : (s.setLanding g st x).entry k j = s.entry k j := rfl
@[simp] theorem State.setLanding_counter_frame (s : State) (g st : Nat) (x : Landing) (k j : Nat) : (s.setLanding g st x).counter k j = s.counter k j := rfl
@[simp] theorem State.setLanding_top_frame (s : State) (g st : Nat) (x : Landing) (k : Nat) : (s.setLanding g st x).top k = s.top k := rfl

@[simp] theorem State.addFlight_core_frame (s : State) (x : Flight) (k : Nat) : (s.addFlight x).core k = s.core k := rfl
@[simp] theorem State.addFlight_fe_frame (s : State) (x : Flight) (k : Nat) : (s.addFlight x).fe k = s.fe k := rfl
@[simp] theorem State.addFlight_tile_frame (s : State) (x : Flight) (k : Nat) : (s.addFlight x).tile k = s.tile k := rfl
@[simp] theorem State.addFlight_cluster_frame (s : State) (x : Flight) (k : Nat) : (s.addFlight x).cluster k = s.cluster k := rfl
@[simp] theorem State.addFlight_die_frame (s : State) (x : Flight) (k : Nat) : (s.addFlight x).die k = s.die k := rfl
@[simp] theorem State.addFlight_rail_frame (s : State) (x : Flight) (k : Nat) : (s.addFlight x).rail k = s.rail k := rfl
@[simp] theorem State.addFlight_slice_frame (s : State) (x : Flight) (k : Nat) : (s.addFlight x).slice k = s.slice k := rfl
@[simp] theorem State.addFlight_func_frame (s : State) (x : Flight) (k : Nat) : (s.addFlight x).func k = s.func k := rfl
@[simp] theorem State.addFlight_vcp_frame (s : State) (x : Flight) (k j : Nat) : (s.addFlight x).vcp k j = s.vcp k j := rfl
@[simp] theorem State.addFlight_plugin_frame (s : State) (x : Flight) (k : Nat) : (s.addFlight x).plugin k = s.plugin k := rfl
@[simp] theorem State.addFlight_preemption_frame (s : State) (x : Flight) (k : Nat) : (s.addFlight x).preemption k = s.preemption k := rfl
@[simp] theorem State.addFlight_link_frame (s : State) (x : Flight) (k : Nat) : (s.addFlight x).link k = s.link k := rfl
@[simp] theorem State.addFlight_root_frame (s : State) (x : Flight) (k : Nat) : (s.addFlight x).root k = s.root k := rfl
@[simp] theorem State.addFlight_node_frame (s : State) (x : Flight) (k : Nat) : (s.addFlight x).node k = s.node k := rfl
@[simp] theorem State.addFlight_landing_frame (s : State) (x : Flight) (k j : Nat) : (s.addFlight x).landing k j = s.landing k j := rfl
@[simp] theorem State.addFlight_graph_frame (s : State) (x : Flight) (k : Nat) : (s.addFlight x).graph k = s.graph k := rfl
@[simp] theorem State.addFlight_entry_frame (s : State) (x : Flight) (k j : Nat) : (s.addFlight x).entry k j = s.entry k j := rfl
@[simp] theorem State.addFlight_counter_frame (s : State) (x : Flight) (k j : Nat) : (s.addFlight x).counter k j = s.counter k j := rfl
@[simp] theorem State.addFlight_top_frame (s : State) (x : Flight) (k : Nat) : (s.addFlight x).top k = s.top k := rfl

@[simp] theorem State.addBatch_core_frame (s : State) (b : Batch) (k : Nat) : (s.addBatch b).core k = s.core k := rfl
@[simp] theorem State.addBatch_fe_frame (s : State) (b : Batch) (k : Nat) : (s.addBatch b).fe k = s.fe k := rfl
@[simp] theorem State.addBatch_tile_frame (s : State) (b : Batch) (k : Nat) : (s.addBatch b).tile k = s.tile k := rfl
@[simp] theorem State.addBatch_cluster_frame (s : State) (b : Batch) (k : Nat) : (s.addBatch b).cluster k = s.cluster k := rfl
@[simp] theorem State.addBatch_die_frame (s : State) (b : Batch) (k : Nat) : (s.addBatch b).die k = s.die k := rfl
@[simp] theorem State.addBatch_rail_frame (s : State) (b : Batch) (k : Nat) : (s.addBatch b).rail k = s.rail k := rfl
@[simp] theorem State.addBatch_slice_frame (s : State) (b : Batch) (k : Nat) : (s.addBatch b).slice k = s.slice k := rfl
@[simp] theorem State.addBatch_func_frame (s : State) (b : Batch) (k : Nat) : (s.addBatch b).func k = s.func k := rfl
@[simp] theorem State.addBatch_vcp_frame (s : State) (b : Batch) (k j : Nat) : (s.addBatch b).vcp k j = s.vcp k j := rfl
@[simp] theorem State.addBatch_plugin_frame (s : State) (b : Batch) (k : Nat) : (s.addBatch b).plugin k = s.plugin k := rfl
@[simp] theorem State.addBatch_preemption_frame (s : State) (b : Batch) (k : Nat) : (s.addBatch b).preemption k = s.preemption k := rfl
@[simp] theorem State.addBatch_link_frame (s : State) (b : Batch) (k : Nat) : (s.addBatch b).link k = s.link k := rfl
@[simp] theorem State.addBatch_root_frame (s : State) (b : Batch) (k : Nat) : (s.addBatch b).root k = s.root k := rfl
@[simp] theorem State.addBatch_node_frame (s : State) (b : Batch) (k : Nat) : (s.addBatch b).node k = s.node k := rfl
@[simp] theorem State.addBatch_landing_frame (s : State) (b : Batch) (k j : Nat) : (s.addBatch b).landing k j = s.landing k j := rfl
@[simp] theorem State.addBatch_graph_frame (s : State) (b : Batch) (k : Nat) : (s.addBatch b).graph k = s.graph k := rfl
@[simp] theorem State.addBatch_entry_frame (s : State) (b : Batch) (k j : Nat) : (s.addBatch b).entry k j = s.entry k j := rfl
@[simp] theorem State.addBatch_counter_frame (s : State) (b : Batch) (k j : Nat) : (s.addBatch b).counter k j = s.counter k j := rfl
@[simp] theorem State.addBatch_top_frame (s : State) (b : Batch) (k : Nat) : (s.addBatch b).top k = s.top k := rfl

@[simp] theorem State.setEntry_core_frame (s : State) (tbl idx : Nat) (w : Word) (k : Nat) : (s.setEntry tbl idx w).core k = s.core k := rfl
@[simp] theorem State.setEntry_fe_frame (s : State) (tbl idx : Nat) (w : Word) (k : Nat) : (s.setEntry tbl idx w).fe k = s.fe k := rfl
@[simp] theorem State.setEntry_tile_frame (s : State) (tbl idx : Nat) (w : Word) (k : Nat) : (s.setEntry tbl idx w).tile k = s.tile k := rfl
@[simp] theorem State.setEntry_cluster_frame (s : State) (tbl idx : Nat) (w : Word) (k : Nat) : (s.setEntry tbl idx w).cluster k = s.cluster k := rfl
@[simp] theorem State.setEntry_die_frame (s : State) (tbl idx : Nat) (w : Word) (k : Nat) : (s.setEntry tbl idx w).die k = s.die k := rfl
@[simp] theorem State.setEntry_rail_frame (s : State) (tbl idx : Nat) (w : Word) (k : Nat) : (s.setEntry tbl idx w).rail k = s.rail k := rfl
@[simp] theorem State.setEntry_slice_frame (s : State) (tbl idx : Nat) (w : Word) (k : Nat) : (s.setEntry tbl idx w).slice k = s.slice k := rfl
@[simp] theorem State.setEntry_func_frame (s : State) (tbl idx : Nat) (w : Word) (k : Nat) : (s.setEntry tbl idx w).func k = s.func k := rfl
@[simp] theorem State.setEntry_vcp_frame (s : State) (tbl idx : Nat) (w : Word) (k j : Nat) : (s.setEntry tbl idx w).vcp k j = s.vcp k j := rfl
@[simp] theorem State.setEntry_plugin_frame (s : State) (tbl idx : Nat) (w : Word) (k : Nat) : (s.setEntry tbl idx w).plugin k = s.plugin k := rfl
@[simp] theorem State.setEntry_preemption_frame (s : State) (tbl idx : Nat) (w : Word) (k : Nat) : (s.setEntry tbl idx w).preemption k = s.preemption k := rfl
@[simp] theorem State.setEntry_link_frame (s : State) (tbl idx : Nat) (w : Word) (k : Nat) : (s.setEntry tbl idx w).link k = s.link k := rfl
@[simp] theorem State.setEntry_root_frame (s : State) (tbl idx : Nat) (w : Word) (k : Nat) : (s.setEntry tbl idx w).root k = s.root k := rfl
@[simp] theorem State.setEntry_node_frame (s : State) (tbl idx : Nat) (w : Word) (k : Nat) : (s.setEntry tbl idx w).node k = s.node k := rfl
@[simp] theorem State.setEntry_landing_frame (s : State) (tbl idx : Nat) (w : Word) (k j : Nat) : (s.setEntry tbl idx w).landing k j = s.landing k j := rfl
@[simp] theorem State.setEntry_graph_frame (s : State) (tbl idx : Nat) (w : Word) (k : Nat) : (s.setEntry tbl idx w).graph k = s.graph k := rfl
@[simp] theorem State.setEntry_counter_frame (s : State) (tbl idx : Nat) (w : Word) (k j : Nat) : (s.setEntry tbl idx w).counter k j = s.counter k j := rfl
@[simp] theorem State.setEntry_top_frame (s : State) (tbl idx : Nat) (w : Word) (k : Nat) : (s.setEntry tbl idx w).top k = s.top k := rfl

@[simp] theorem State.setCounter_core_frame (s : State) (code i : Nat) (v : BitVec 32) (k : Nat) : (s.setCounter code i v).core k = s.core k := rfl
@[simp] theorem State.setCounter_fe_frame (s : State) (code i : Nat) (v : BitVec 32) (k : Nat) : (s.setCounter code i v).fe k = s.fe k := rfl
@[simp] theorem State.setCounter_tile_frame (s : State) (code i : Nat) (v : BitVec 32) (k : Nat) : (s.setCounter code i v).tile k = s.tile k := rfl
@[simp] theorem State.setCounter_cluster_frame (s : State) (code i : Nat) (v : BitVec 32) (k : Nat) : (s.setCounter code i v).cluster k = s.cluster k := rfl
@[simp] theorem State.setCounter_die_frame (s : State) (code i : Nat) (v : BitVec 32) (k : Nat) : (s.setCounter code i v).die k = s.die k := rfl
@[simp] theorem State.setCounter_rail_frame (s : State) (code i : Nat) (v : BitVec 32) (k : Nat) : (s.setCounter code i v).rail k = s.rail k := rfl
@[simp] theorem State.setCounter_slice_frame (s : State) (code i : Nat) (v : BitVec 32) (k : Nat) : (s.setCounter code i v).slice k = s.slice k := rfl
@[simp] theorem State.setCounter_func_frame (s : State) (code i : Nat) (v : BitVec 32) (k : Nat) : (s.setCounter code i v).func k = s.func k := rfl
@[simp] theorem State.setCounter_vcp_frame (s : State) (code i : Nat) (v : BitVec 32) (k j : Nat) : (s.setCounter code i v).vcp k j = s.vcp k j := rfl
@[simp] theorem State.setCounter_plugin_frame (s : State) (code i : Nat) (v : BitVec 32) (k : Nat) : (s.setCounter code i v).plugin k = s.plugin k := rfl
@[simp] theorem State.setCounter_preemption_frame (s : State) (code i : Nat) (v : BitVec 32) (k : Nat) : (s.setCounter code i v).preemption k = s.preemption k := rfl
@[simp] theorem State.setCounter_link_frame (s : State) (code i : Nat) (v : BitVec 32) (k : Nat) : (s.setCounter code i v).link k = s.link k := rfl
@[simp] theorem State.setCounter_root_frame (s : State) (code i : Nat) (v : BitVec 32) (k : Nat) : (s.setCounter code i v).root k = s.root k := rfl
@[simp] theorem State.setCounter_node_frame (s : State) (code i : Nat) (v : BitVec 32) (k : Nat) : (s.setCounter code i v).node k = s.node k := rfl
@[simp] theorem State.setCounter_landing_frame (s : State) (code i : Nat) (v : BitVec 32) (k j : Nat) : (s.setCounter code i v).landing k j = s.landing k j := rfl
@[simp] theorem State.setCounter_graph_frame (s : State) (code i : Nat) (v : BitVec 32) (k : Nat) : (s.setCounter code i v).graph k = s.graph k := rfl
@[simp] theorem State.setCounter_entry_frame (s : State) (code i : Nat) (v : BitVec 32) (k j : Nat) : (s.setCounter code i v).entry k j = s.entry k j := rfl
@[simp] theorem State.setCounter_top_frame (s : State) (code i : Nat) (v : BitVec 32) (k : Nat) : (s.setCounter code i v).top k = s.top k := rfl

@[simp] theorem State.countBy_core_frame (s : State) (code i n : Nat) (k : Nat) : (s.countBy code i n).core k = s.core k := rfl
@[simp] theorem State.countBy_fe_frame (s : State) (code i n : Nat) (k : Nat) : (s.countBy code i n).fe k = s.fe k := rfl
@[simp] theorem State.countBy_tile_frame (s : State) (code i n : Nat) (k : Nat) : (s.countBy code i n).tile k = s.tile k := rfl
@[simp] theorem State.countBy_cluster_frame (s : State) (code i n : Nat) (k : Nat) : (s.countBy code i n).cluster k = s.cluster k := rfl
@[simp] theorem State.countBy_die_frame (s : State) (code i n : Nat) (k : Nat) : (s.countBy code i n).die k = s.die k := rfl
@[simp] theorem State.countBy_rail_frame (s : State) (code i n : Nat) (k : Nat) : (s.countBy code i n).rail k = s.rail k := rfl
@[simp] theorem State.countBy_slice_frame (s : State) (code i n : Nat) (k : Nat) : (s.countBy code i n).slice k = s.slice k := rfl
@[simp] theorem State.countBy_func_frame (s : State) (code i n : Nat) (k : Nat) : (s.countBy code i n).func k = s.func k := rfl
@[simp] theorem State.countBy_vcp_frame (s : State) (code i n : Nat) (k j : Nat) : (s.countBy code i n).vcp k j = s.vcp k j := rfl
@[simp] theorem State.countBy_plugin_frame (s : State) (code i n : Nat) (k : Nat) : (s.countBy code i n).plugin k = s.plugin k := rfl
@[simp] theorem State.countBy_preemption_frame (s : State) (code i n : Nat) (k : Nat) : (s.countBy code i n).preemption k = s.preemption k := rfl
@[simp] theorem State.countBy_link_frame (s : State) (code i n : Nat) (k : Nat) : (s.countBy code i n).link k = s.link k := rfl
@[simp] theorem State.countBy_root_frame (s : State) (code i n : Nat) (k : Nat) : (s.countBy code i n).root k = s.root k := rfl
@[simp] theorem State.countBy_node_frame (s : State) (code i n : Nat) (k : Nat) : (s.countBy code i n).node k = s.node k := rfl
@[simp] theorem State.countBy_landing_frame (s : State) (code i n : Nat) (k j : Nat) : (s.countBy code i n).landing k j = s.landing k j := rfl
@[simp] theorem State.countBy_graph_frame (s : State) (code i n : Nat) (k : Nat) : (s.countBy code i n).graph k = s.graph k := rfl
@[simp] theorem State.countBy_entry_frame (s : State) (code i n : Nat) (k j : Nat) : (s.countBy code i n).entry k j = s.entry k j := rfl
@[simp] theorem State.countBy_top_frame (s : State) (code i n : Nat) (k : Nat) : (s.countBy code i n).top k = s.top k := rfl

@[simp] theorem State.count_core_frame (s : State) (code i : Nat) (k : Nat) : (s.count code i).core k = s.core k := rfl
@[simp] theorem State.count_fe_frame (s : State) (code i : Nat) (k : Nat) : (s.count code i).fe k = s.fe k := rfl
@[simp] theorem State.count_tile_frame (s : State) (code i : Nat) (k : Nat) : (s.count code i).tile k = s.tile k := rfl
@[simp] theorem State.count_cluster_frame (s : State) (code i : Nat) (k : Nat) : (s.count code i).cluster k = s.cluster k := rfl
@[simp] theorem State.count_die_frame (s : State) (code i : Nat) (k : Nat) : (s.count code i).die k = s.die k := rfl
@[simp] theorem State.count_rail_frame (s : State) (code i : Nat) (k : Nat) : (s.count code i).rail k = s.rail k := rfl
@[simp] theorem State.count_slice_frame (s : State) (code i : Nat) (k : Nat) : (s.count code i).slice k = s.slice k := rfl
@[simp] theorem State.count_func_frame (s : State) (code i : Nat) (k : Nat) : (s.count code i).func k = s.func k := rfl
@[simp] theorem State.count_vcp_frame (s : State) (code i : Nat) (k j : Nat) : (s.count code i).vcp k j = s.vcp k j := rfl
@[simp] theorem State.count_plugin_frame (s : State) (code i : Nat) (k : Nat) : (s.count code i).plugin k = s.plugin k := rfl
@[simp] theorem State.count_preemption_frame (s : State) (code i : Nat) (k : Nat) : (s.count code i).preemption k = s.preemption k := rfl
@[simp] theorem State.count_link_frame (s : State) (code i : Nat) (k : Nat) : (s.count code i).link k = s.link k := rfl
@[simp] theorem State.count_root_frame (s : State) (code i : Nat) (k : Nat) : (s.count code i).root k = s.root k := rfl
@[simp] theorem State.count_node_frame (s : State) (code i : Nat) (k : Nat) : (s.count code i).node k = s.node k := rfl
@[simp] theorem State.count_landing_frame (s : State) (code i : Nat) (k j : Nat) : (s.count code i).landing k j = s.landing k j := rfl
@[simp] theorem State.count_graph_frame (s : State) (code i : Nat) (k : Nat) : (s.count code i).graph k = s.graph k := rfl
@[simp] theorem State.count_entry_frame (s : State) (code i : Nat) (k j : Nat) : (s.count code i).entry k j = s.entry k j := rfl
@[simp] theorem State.count_top_frame (s : State) (code i : Nat) (k : Nat) : (s.count code i).top k = s.top k := rfl

@[simp] theorem State.writeMem_core_frame (s : State) (l : List Nat) (bs : List Byte) (k : Nat) : (s.writeMem l bs).core k = s.core k := rfl
@[simp] theorem State.writeMem_fe_frame (s : State) (l : List Nat) (bs : List Byte) (k : Nat) : (s.writeMem l bs).fe k = s.fe k := rfl
@[simp] theorem State.writeMem_tile_frame (s : State) (l : List Nat) (bs : List Byte) (k : Nat) : (s.writeMem l bs).tile k = s.tile k := rfl
@[simp] theorem State.writeMem_cluster_frame (s : State) (l : List Nat) (bs : List Byte) (k : Nat) : (s.writeMem l bs).cluster k = s.cluster k := rfl
@[simp] theorem State.writeMem_die_frame (s : State) (l : List Nat) (bs : List Byte) (k : Nat) : (s.writeMem l bs).die k = s.die k := rfl
@[simp] theorem State.writeMem_rail_frame (s : State) (l : List Nat) (bs : List Byte) (k : Nat) : (s.writeMem l bs).rail k = s.rail k := rfl
@[simp] theorem State.writeMem_slice_frame (s : State) (l : List Nat) (bs : List Byte) (k : Nat) : (s.writeMem l bs).slice k = s.slice k := rfl
@[simp] theorem State.writeMem_func_frame (s : State) (l : List Nat) (bs : List Byte) (k : Nat) : (s.writeMem l bs).func k = s.func k := rfl
@[simp] theorem State.writeMem_vcp_frame (s : State) (l : List Nat) (bs : List Byte) (k j : Nat) : (s.writeMem l bs).vcp k j = s.vcp k j := rfl
@[simp] theorem State.writeMem_plugin_frame (s : State) (l : List Nat) (bs : List Byte) (k : Nat) : (s.writeMem l bs).plugin k = s.plugin k := rfl
@[simp] theorem State.writeMem_preemption_frame (s : State) (l : List Nat) (bs : List Byte) (k : Nat) : (s.writeMem l bs).preemption k = s.preemption k := rfl
@[simp] theorem State.writeMem_link_frame (s : State) (l : List Nat) (bs : List Byte) (k : Nat) : (s.writeMem l bs).link k = s.link k := rfl
@[simp] theorem State.writeMem_root_frame (s : State) (l : List Nat) (bs : List Byte) (k : Nat) : (s.writeMem l bs).root k = s.root k := rfl
@[simp] theorem State.writeMem_node_frame (s : State) (l : List Nat) (bs : List Byte) (k : Nat) : (s.writeMem l bs).node k = s.node k := rfl
@[simp] theorem State.writeMem_landing_frame (s : State) (l : List Nat) (bs : List Byte) (k j : Nat) : (s.writeMem l bs).landing k j = s.landing k j := rfl
@[simp] theorem State.writeMem_graph_frame (s : State) (l : List Nat) (bs : List Byte) (k : Nat) : (s.writeMem l bs).graph k = s.graph k := rfl
@[simp] theorem State.writeMem_entry_frame (s : State) (l : List Nat) (bs : List Byte) (k j : Nat) : (s.writeMem l bs).entry k j = s.entry k j := rfl
@[simp] theorem State.writeMem_counter_frame (s : State) (l : List Nat) (bs : List Byte) (k j : Nat) : (s.writeMem l bs).counter k j = s.counter k j := rfl
@[simp] theorem State.writeMem_top_frame (s : State) (l : List Nat) (bs : List Byte) (k : Nat) : (s.writeMem l bs).top k = s.top k := rfl

@[simp] theorem State.writeCellar_core_frame (s : State) (l : List Nat) (bs : List Byte) (k : Nat) : (s.writeCellar l bs).core k = s.core k := rfl
@[simp] theorem State.writeCellar_fe_frame (s : State) (l : List Nat) (bs : List Byte) (k : Nat) : (s.writeCellar l bs).fe k = s.fe k := rfl
@[simp] theorem State.writeCellar_tile_frame (s : State) (l : List Nat) (bs : List Byte) (k : Nat) : (s.writeCellar l bs).tile k = s.tile k := rfl
@[simp] theorem State.writeCellar_cluster_frame (s : State) (l : List Nat) (bs : List Byte) (k : Nat) : (s.writeCellar l bs).cluster k = s.cluster k := rfl
@[simp] theorem State.writeCellar_die_frame (s : State) (l : List Nat) (bs : List Byte) (k : Nat) : (s.writeCellar l bs).die k = s.die k := rfl
@[simp] theorem State.writeCellar_rail_frame (s : State) (l : List Nat) (bs : List Byte) (k : Nat) : (s.writeCellar l bs).rail k = s.rail k := rfl
@[simp] theorem State.writeCellar_slice_frame (s : State) (l : List Nat) (bs : List Byte) (k : Nat) : (s.writeCellar l bs).slice k = s.slice k := rfl
@[simp] theorem State.writeCellar_func_frame (s : State) (l : List Nat) (bs : List Byte) (k : Nat) : (s.writeCellar l bs).func k = s.func k := rfl
@[simp] theorem State.writeCellar_vcp_frame (s : State) (l : List Nat) (bs : List Byte) (k j : Nat) : (s.writeCellar l bs).vcp k j = s.vcp k j := rfl
@[simp] theorem State.writeCellar_plugin_frame (s : State) (l : List Nat) (bs : List Byte) (k : Nat) : (s.writeCellar l bs).plugin k = s.plugin k := rfl
@[simp] theorem State.writeCellar_preemption_frame (s : State) (l : List Nat) (bs : List Byte) (k : Nat) : (s.writeCellar l bs).preemption k = s.preemption k := rfl
@[simp] theorem State.writeCellar_link_frame (s : State) (l : List Nat) (bs : List Byte) (k : Nat) : (s.writeCellar l bs).link k = s.link k := rfl
@[simp] theorem State.writeCellar_root_frame (s : State) (l : List Nat) (bs : List Byte) (k : Nat) : (s.writeCellar l bs).root k = s.root k := rfl
@[simp] theorem State.writeCellar_node_frame (s : State) (l : List Nat) (bs : List Byte) (k : Nat) : (s.writeCellar l bs).node k = s.node k := rfl
@[simp] theorem State.writeCellar_landing_frame (s : State) (l : List Nat) (bs : List Byte) (k j : Nat) : (s.writeCellar l bs).landing k j = s.landing k j := rfl
@[simp] theorem State.writeCellar_graph_frame (s : State) (l : List Nat) (bs : List Byte) (k : Nat) : (s.writeCellar l bs).graph k = s.graph k := rfl
@[simp] theorem State.writeCellar_entry_frame (s : State) (l : List Nat) (bs : List Byte) (k j : Nat) : (s.writeCellar l bs).entry k j = s.entry k j := rfl
@[simp] theorem State.writeCellar_counter_frame (s : State) (l : List Nat) (bs : List Byte) (k j : Nat) : (s.writeCellar l bs).counter k j = s.counter k j := rfl
@[simp] theorem State.writeCellar_top_frame (s : State) (l : List Nat) (bs : List Byte) (k : Nat) : (s.writeCellar l bs).top k = s.top k := rfl

@[simp] theorem State.addRemote_core_frame (s : State) (r : RemoteReq) (k : Nat) : (s.addRemote r).core k = s.core k := by
  obtain ⟨x, u, p, h⟩ := s.addRemote_eq r; rw [h]; rfl
@[simp] theorem State.addRemote_fe_frame (s : State) (r : RemoteReq) (k : Nat) : (s.addRemote r).fe k = s.fe k := by
  obtain ⟨x, u, p, h⟩ := s.addRemote_eq r; rw [h]; rfl
@[simp] theorem State.addRemote_tile_frame (s : State) (r : RemoteReq) (k : Nat) : (s.addRemote r).tile k = s.tile k := by
  obtain ⟨x, u, p, h⟩ := s.addRemote_eq r; rw [h]; rfl
@[simp] theorem State.addRemote_cluster_frame (s : State) (r : RemoteReq) (k : Nat) : (s.addRemote r).cluster k = s.cluster k := by
  obtain ⟨x, u, p, h⟩ := s.addRemote_eq r; rw [h]; rfl
@[simp] theorem State.addRemote_die_frame (s : State) (r : RemoteReq) (k : Nat) : (s.addRemote r).die k = s.die k := by
  obtain ⟨x, u, p, h⟩ := s.addRemote_eq r; rw [h]; rfl
@[simp] theorem State.addRemote_rail_frame (s : State) (r : RemoteReq) (k : Nat) : (s.addRemote r).rail k = s.rail k := by
  obtain ⟨x, u, p, h⟩ := s.addRemote_eq r; rw [h]; rfl
@[simp] theorem State.addRemote_slice_frame (s : State) (r : RemoteReq) (k : Nat) : (s.addRemote r).slice k = s.slice k := by
  obtain ⟨x, u, p, h⟩ := s.addRemote_eq r; rw [h]; rfl
@[simp] theorem State.addRemote_func_frame (s : State) (r : RemoteReq) (k : Nat) : (s.addRemote r).func k = s.func k := by
  obtain ⟨x, u, p, h⟩ := s.addRemote_eq r; rw [h]; rfl
@[simp] theorem State.addRemote_vcp_frame (s : State) (r : RemoteReq) (k j : Nat) : (s.addRemote r).vcp k j = s.vcp k j := by
  obtain ⟨x, u, p, h⟩ := s.addRemote_eq r; rw [h]; rfl
@[simp] theorem State.addRemote_plugin_frame (s : State) (r : RemoteReq) (k : Nat) : (s.addRemote r).plugin k = s.plugin k := by
  obtain ⟨x, u, p, h⟩ := s.addRemote_eq r; rw [h]; rfl
@[simp] theorem State.addRemote_preemption_frame (s : State) (r : RemoteReq) (k : Nat) : (s.addRemote r).preemption k = s.preemption k := by
  obtain ⟨x, u, p, h⟩ := s.addRemote_eq r; rw [h]; rfl
@[simp] theorem State.addRemote_root_frame (s : State) (r : RemoteReq) (k : Nat) : (s.addRemote r).root k = s.root k := by
  obtain ⟨x, u, p, h⟩ := s.addRemote_eq r; rw [h]; rfl
@[simp] theorem State.addRemote_node_frame (s : State) (r : RemoteReq) (k : Nat) : (s.addRemote r).node k = s.node k := by
  obtain ⟨x, u, p, h⟩ := s.addRemote_eq r; rw [h]; rfl
@[simp] theorem State.addRemote_landing_frame (s : State) (r : RemoteReq) (k j : Nat) : (s.addRemote r).landing k j = s.landing k j := by
  obtain ⟨x, u, p, h⟩ := s.addRemote_eq r; rw [h]; rfl
@[simp] theorem State.addRemote_graph_frame (s : State) (r : RemoteReq) (k : Nat) : (s.addRemote r).graph k = s.graph k := by
  obtain ⟨x, u, p, h⟩ := s.addRemote_eq r; rw [h]; rfl
@[simp] theorem State.addRemote_entry_frame (s : State) (r : RemoteReq) (k j : Nat) : (s.addRemote r).entry k j = s.entry k j := by
  obtain ⟨x, u, p, h⟩ := s.addRemote_eq r; rw [h]; rfl
@[simp] theorem State.addRemote_counter_frame (s : State) (r : RemoteReq) (k j : Nat) : (s.addRemote r).counter k j = s.counter k j := by
  obtain ⟨x, u, p, h⟩ := s.addRemote_eq r; rw [h]; rfl
@[simp] theorem State.addRemote_top_frame (s : State) (r : RemoteReq) (k : Nat) : (s.addRemote r).top k = s.top k := by
  obtain ⟨x, u, p, h⟩ := s.addRemote_eq r; rw [h]; rfl

@[simp] theorem State.addHostReq_core_frame (s : State) (tag : Nat) (r : HostReq) (k : Nat) : (s.addHostReq tag r).core k = s.core k := rfl
@[simp] theorem State.addHostReq_fe_frame (s : State) (tag : Nat) (r : HostReq) (k : Nat) : (s.addHostReq tag r).fe k = s.fe k := rfl
@[simp] theorem State.addHostReq_tile_frame (s : State) (tag : Nat) (r : HostReq) (k : Nat) : (s.addHostReq tag r).tile k = s.tile k := rfl
@[simp] theorem State.addHostReq_cluster_frame (s : State) (tag : Nat) (r : HostReq) (k : Nat) : (s.addHostReq tag r).cluster k = s.cluster k := rfl
@[simp] theorem State.addHostReq_die_frame (s : State) (tag : Nat) (r : HostReq) (k : Nat) : (s.addHostReq tag r).die k = s.die k := rfl
@[simp] theorem State.addHostReq_rail_frame (s : State) (tag : Nat) (r : HostReq) (k : Nat) : (s.addHostReq tag r).rail k = s.rail k := rfl
@[simp] theorem State.addHostReq_slice_frame (s : State) (tag : Nat) (r : HostReq) (k : Nat) : (s.addHostReq tag r).slice k = s.slice k := rfl
@[simp] theorem State.addHostReq_func_frame (s : State) (tag : Nat) (r : HostReq) (k : Nat) : (s.addHostReq tag r).func k = s.func k := rfl
@[simp] theorem State.addHostReq_vcp_frame (s : State) (tag : Nat) (r : HostReq) (k j : Nat) : (s.addHostReq tag r).vcp k j = s.vcp k j := rfl
@[simp] theorem State.addHostReq_plugin_frame (s : State) (tag : Nat) (r : HostReq) (k : Nat) : (s.addHostReq tag r).plugin k = s.plugin k := rfl
@[simp] theorem State.addHostReq_preemption_frame (s : State) (tag : Nat) (r : HostReq) (k : Nat) : (s.addHostReq tag r).preemption k = s.preemption k := rfl
@[simp] theorem State.addHostReq_link_frame (s : State) (tag : Nat) (r : HostReq) (k : Nat) : (s.addHostReq tag r).link k = s.link k := rfl
@[simp] theorem State.addHostReq_root_frame (s : State) (tag : Nat) (r : HostReq) (k : Nat) : (s.addHostReq tag r).root k = s.root k := rfl
@[simp] theorem State.addHostReq_node_frame (s : State) (tag : Nat) (r : HostReq) (k : Nat) : (s.addHostReq tag r).node k = s.node k := rfl
@[simp] theorem State.addHostReq_landing_frame (s : State) (tag : Nat) (r : HostReq) (k j : Nat) : (s.addHostReq tag r).landing k j = s.landing k j := rfl
@[simp] theorem State.addHostReq_graph_frame (s : State) (tag : Nat) (r : HostReq) (k : Nat) : (s.addHostReq tag r).graph k = s.graph k := rfl
@[simp] theorem State.addHostReq_entry_frame (s : State) (tag : Nat) (r : HostReq) (k j : Nat) : (s.addHostReq tag r).entry k j = s.entry k j := rfl
@[simp] theorem State.addHostReq_counter_frame (s : State) (tag : Nat) (r : HostReq) (k j : Nat) : (s.addHostReq tag r).counter k j = s.counter k j := rfl
@[simp] theorem State.addHostReq_top_frame (s : State) (tag : Nat) (r : HostReq) (k : Nat) : (s.addHostReq tag r).top k = s.top k := rfl

/-! ### A unit after its own update -/

@[simp] theorem State.core_setCore (s : State) (lc : Nat) (c : Core) : (s.setCore lc c).core lc = c := tget_tput_same ..
@[simp] theorem State.fe_setFe (s : State) (n : Nat) (c : FeCore) : (s.setFe n c).fe n = c := tget_tput_same ..
@[simp] theorem State.tile_setTile (s : State) (t : Nat) (x : Tile) : (s.setTile t x).tile t = x := tget_tput_same ..
@[simp] theorem State.cluster_setCluster (s : State) (c : Nat) (x : Cluster) : (s.setCluster c x).cluster c = x := tget_tput_same ..
@[simp] theorem State.die_setDie (s : State) (d : Nat) (x : Die) : (s.setDie d x).die d = x := tget_tput_same ..
@[simp] theorem State.rail_setRail (s : State) (r : Nat) (x : Rail) : (s.setRail r x).rail r = x := tget_tput_same ..
@[simp] theorem State.slice_setSlice (s : State) (n : Nat) (x : Slice) : (s.setSlice n x).slice n = x := tget_tput_same ..
@[simp] theorem State.func_setFunc (s : State) (f : Nat) (x : Func) : (s.setFunc f x).func f = x := tget_tput_same ..
@[simp] theorem State.vcp_setVcp (s : State) (f v : Nat) (x : Vcp) : (s.setVcp f v x).vcp f v = x := tget_tput_same ..
@[simp] theorem State.plugin_setPlugin (s : State) (n : Nat) (x : Plugin) : (s.setPlugin n x).plugin n = x := tget_tput_same ..
@[simp] theorem State.preemption_setPreemption (s : State) (p : Nat) (x : Preemption) :
    (s.setPreemption p x).preemption p = x := tget_tput_same ..
@[simp] theorem State.link_setLink (s : State) (n : Nat) (x : Link) : (s.setLink n x).link n = x := tget_tput_same ..
@[simp] theorem State.root_setRoot (s : State) (g : Nat) (x : Root) : (s.setRoot g x).root g = x := tget_tput_same ..
@[simp] theorem State.node_setNode (s : State) (n : Nat) (x : List Delta) : (s.setNode n x).node n = x := tget_tput_same ..
@[simp] theorem State.landing_setLanding (s : State) (g st : Nat) (x : Landing) :
    (s.setLanding g st x).landing g st = x := tget_tput_same ..
@[simp] theorem State.entry_setEntry (s : State) (tbl idx : Nat) (w : Word) : (s.setEntry tbl idx w).entry tbl idx = w :=
  tget_tput_same ..

/-! ### Another unit of the same kind -/

theorem State.core_setCore_ne (s : State) (lc k : Nat) (c : Core) (h : k ≠ lc) : (s.setCore lc c).core k = s.core k :=
  tget_tput_other _ _ _ _ _ h
theorem State.fe_setFe_ne (s : State) (n k : Nat) (c : FeCore) (h : k ≠ n) : (s.setFe n c).fe k = s.fe k :=
  tget_tput_other _ _ _ _ _ h
theorem State.tile_setTile_ne (s : State) (t k : Nat) (x : Tile) (h : k ≠ t) : (s.setTile t x).tile k = s.tile k :=
  tget_tput_other _ _ _ _ _ h
theorem State.cluster_setCluster_ne (s : State) (c k : Nat) (x : Cluster) (h : k ≠ c) :
    (s.setCluster c x).cluster k = s.cluster k := tget_tput_other _ _ _ _ _ h
theorem State.rail_setRail_ne (s : State) (r k : Nat) (x : Rail) (h : k ≠ r) : (s.setRail r x).rail k = s.rail k :=
  tget_tput_other _ _ _ _ _ h
theorem State.func_setFunc_ne (s : State) (f k : Nat) (x : Func) (h : k ≠ f) : (s.setFunc f x).func k = s.func k :=
  tget_tput_other _ _ _ _ _ h
theorem State.vcp_setVcp_ne (s : State) (f v g u : Nat) (x : Vcp) (h : 16 * g + u ≠ 16 * f + v) :
    (s.setVcp f v x).vcp g u = s.vcp g u := tget_tput_other _ _ _ _ _ h
theorem State.link_setLink_ne (s : State) (n k : Nat) (x : Link) (h : k ≠ n) : (s.setLink n x).link k = s.link k :=
  tget_tput_other _ _ _ _ _ h
theorem State.root_setRoot_ne (s : State) (g k : Nat) (x : Root) (h : k ≠ g) : (s.setRoot g x).root k = s.root k :=
  tget_tput_other _ _ _ _ _ h

/-! ### The running frame -/

/-- Changing the running frame leaves every field but cores. -/
theorem State.setTop_eq (s : State) (lc : Nat) (f : Frame) : ∃ c, s.setTop lc f = { s with cores := c } := by
  simp only [State.setTop]
  split
  · exact ⟨s.cores, rfl⟩
  · exact ⟨_, rfl⟩

theorem State.setTop_top (s : State) (lc : Nat) (f g : Frame) (h : s.top lc = some g) : (s.setTop lc f).top lc = some f := by
  simp only [State.top] at h
  simp only [State.setTop]
  split
  · next h2 => simp [h2] at h
  · simp [State.top]

@[simp] theorem State.setTop_mem (s : State) (lc : Nat) (f : Frame) : (s.setTop lc f).mem = s.mem := by
  obtain ⟨c, h⟩ := s.setTop_eq lc f; rw [h]
@[simp] theorem State.setTop_agent (s : State) (lc : Nat) (f : Frame) : (s.setTop lc f).agent = s.agent := by
  obtain ⟨c, h⟩ := s.setTop_eq lc f; rw [h]
@[simp] theorem State.setTop_prog (s : State) (lc : Nat) (f : Frame) : (s.setTop lc f).prog = s.prog := by
  obtain ⟨c, h⟩ := s.setTop_eq lc f; rw [h]
@[simp] theorem State.setTop_fes (s : State) (lc : Nat) (f : Frame) : (s.setTop lc f).fes = s.fes := by
  obtain ⟨c, h⟩ := s.setTop_eq lc f; rw [h]

theorem State.setTop_core_ne (s : State) (lc k : Nat) (f : Frame) (h : k ≠ lc) : (s.setTop lc f).core k = s.core k := by
  simp only [State.setTop]
  split
  · rfl
  · exact State.core_setCore_ne _ _ _ _ h

/-- Changing the hart of the agent whose turn it is leaves memory, the records and the inputs. -/
theorem State.setHart_eq (s : State) (h : Hart) : ∃ c n, s.setHart h = { s with cores := c, fes := n } := by
  unfold State.setHart
  split
  · split
    · exact ⟨s.cores, s.fes, rfl⟩
    · next f _ => obtain ⟨c, e⟩ := s.setTop_eq _ { f with h := h }; exact ⟨c, s.fes, by rw [e]⟩
  · exact ⟨s.cores, _, rfl⟩

@[simp] theorem State.setHart_mem (s : State) (h : Hart) : (s.setHart h).mem = s.mem := by
  obtain ⟨c, n, e⟩ := s.setHart_eq h; rw [e]
@[simp] theorem State.setHart_agent (s : State) (h : Hart) : (s.setHart h).agent = s.agent := by
  obtain ⟨c, n, e⟩ := s.setHart_eq h; rw [e]
@[simp] theorem State.setHart_prog (s : State) (h : Hart) : (s.setHart h).prog = s.prog := by
  obtain ⟨c, n, e⟩ := s.setHart_eq h; rw [e]

end Sys2Proof.Machine
end

