-- ==== Sys2Proof/Laws/Ops.lean ====
section
/-! SUPPORT. What each shared operation of the meanings can do, said once: a proof about an instruction cites
these and unfolds no shared operation. -/

namespace Sys2Proof.Machine

/-! ### Running an instruction -/

@[simp] theorem State.run_go (s : State) (i : Instr) (v : List Word) (k : List Word → State) (h : s.front i = .go v) :
    s.run i k = .next (k v) := by simp [State.run, h]
@[simp] theorem State.run_bad (s : State) (i : Instr) (k : List Word → State) (h : s.front i = .bad) :
    s.run i k = .next (s.illegal i) := by simp [State.run, h]
@[simp] theorem State.run_stall (s : State) (i : Instr) (k : List Word → State) (h : s.front i = .stall) :
    s.run i k = .next s := by simp [State.run, h]
@[simp] theorem State.run_idle (s : State) (i : Instr) (k : List Word → State) (h : s.front i = .idle) :
    s.run i k = .next s := by simp [State.run, h]

/-- Running an instruction leaves the state, traps with ILLEGAL, or has the instruction's own effect. -/
theorem State.run_cases (s t : State) (i : Instr) (k : List Word → State) (h : s.run i k = .next t) :
    t = s ∨ (s.front i = .bad ∧ t = s.illegal i) ∨ ∃ v, s.front i = .go v ∧ t = k v := by
  unfold State.run at h
  split at h <;> cases h <;> simp_all

/-- An instruction always comes to a next state. -/
theorem State.run_next (s : State) (i : Instr) (k : List Word → State) : ∃ t, s.run i k = .next t := by
  unfold State.run; split <;> exact ⟨_, rfl⟩

theorem State.run1_go (s : State) (i : Instr) (d : Reg) (f : Word → Word) (x : Word) (h : s.front i = .go [x]) :
    s.run1 i d f = .next (s.finish i d (f x)) := by simp [State.run1, h]
theorem State.run2_go (s : State) (i : Instr) (d : Reg) (f : Word → Word → Word) (x y : Word) (h : s.front i = .go [x, y]) :
    s.run2 i d f = .next (s.finish i d (f x y)) := by simp [State.run2, h]

theorem State.withFrame_go (s : State) (i : Instr) (k : Nat → Frame → List Word → State) (lc : Nat) (f : Frame)
    (v : List Word) (ha : s.agent = .core lc) (hf : s.top lc = some f) (h : s.front i = .go v) :
    s.withFrame i k = .next (k lc f v) := by simp [State.withFrame, h, ha, hf]

/-- A form that only a frame has leaves the state, traps with ILLEGAL, or has its effect on the running frame. -/
theorem State.withFrame_cases (s t : State) (i : Instr) (k : Nat → Frame → List Word → State)
    (h : s.withFrame i k = .next t) :
    t = s ∨ t = s.illegal i ∨ ∃ lc f v, s.agent = .core lc ∧ s.top lc = some f ∧ s.front i = .go v ∧ t = k lc f v := by
  rcases State.run_cases _ _ _ _ h with h | ⟨_, h⟩ | ⟨v, hv, h⟩
  · exact .inl h
  · exact .inr (.inl h)
  · split at h
    · exact .inl h
    · next lc ha =>
      split at h
      · exact .inl h
      · next f hf => exact .inr (.inr ⟨lc, f, v, ha, hf, hv, h⟩)

/-! ### Accesses -/

/-- An access that an instruction makes is used, is trapped from the state before it, or waits. -/
theorem State.afterAcc_cases (s : State) (a : Acc) (k : Nat → State → State) :
    (∃ v t, a = .ok v t ∧ s.afterAcc a k = k v t) ∨ (∃ c w, a = .trap c w ∧ s.afterAcc a k = s.trap c w) ∨
      ∃ t, a = .wait t ∧ s.afterAcc a k = s.waited t := by
  cases a
  · exact .inl ⟨_, _, rfl, rfl⟩
  · exact .inr (.inl ⟨_, _, rfl, rfl⟩)
  · exact .inr (.inr ⟨_, rfl, rfl⟩)

theorem State.checked_space (s : State) (a : Word) (n need : Nat) (whole bytes : State → Acc) (k : Nat → State → State)
    (h : s.spaceOk a n = false) : s.checked a n need whole bytes k = s.trap ADDRESS a := by simp [State.checked, h]

theorem State.checked_aligned (s : State) (a : Word) (n need : Nat) (whole bytes : State → Acc) (k : Nat → State → State)
    (h : s.spaceOk a n = true) (ha : aligned a n = true) : s.checked a n need whole bytes k = s.afterAcc (whole s) k := by
  simp [State.checked, h, ha]

theorem State.checked_misaligned (s : State) (a : Word) (n need : Nat) (whole bytes : State → Acc) (k : Nat → State → State)
    (h : s.spaceOk a n = true) (ha : aligned a n = false) (hi : s.ignores ALIGN = false) :
    s.checked a n need whole bytes k = s.trap ALIGN a := by simp [State.checked, h, ha, hi]

theorem State.checkedNear_aligned (s : State) (lc : Nat) (off : Word) (n : Nat) (acc bytes : Nat → Acc) (k : Nat → State → State)
    (hs : s.agent = .core lc) (h : off.toNat + n ≤ 0x60000) (ha : aligned off n = true) :
    s.checkedNear off n acc bytes k = s.afterAcc (acc lc) k := by
  simp [State.checkedNear, hs, ha]; omega

/-! ### What stands before a sending or an ordered instruction -/

/-- An instruction that sends goes on where its core's counts and records can leave. -/
theorem State.unlessStalled_core (s : State) (lc : Nat) (k : Unit → State) (ha : s.agent = .core lc)
    (hp : s.parentFull lc = false) (h : s.heldFlight (.core lc) = none) : s.unlessStalled k = k () := by
  simp [State.unlessStalled, State.unlessHeld, ha, hp, h]

theorem State.unlessStalled_fe (s : State) (n : Nat) (k : Unit → State) (ha : s.agent = .fe n)
    (h : s.heldFlight .dispatcher = none) : s.unlessStalled k = k () := by
  simp [State.unlessStalled, State.unlessHeld, ha, h]

theorem State.acked_go (s : State) (k : Unit → State)
    (h : ∀ lc f, s.agent = .core lc → s.top lc = some f → f.unacked = 0 ∧ f.rejected = none) : s.acked k = k () := by
  unfold State.acked
  split
  · rfl
  · next lc ha =>
    split
    · rfl
    · next f hf =>
      obtain ⟨h1, h2⟩ := h lc f ha hf
      simp [h1, h2]

/-- An instruction that waits for its frame's stores leaves the state, takes the trap of the one that failed, or
goes on. -/
theorem State.acked_cases (s : State) (k : Unit → State) :
    s.acked k = s ∨ (∃ c a, s.acked k = s.trap c a) ∨ s.acked k = k () := by
  unfold State.acked
  split
  · exact .inr (.inr rfl)
  · split
    · exact .inr (.inr rfl)
    · split
      · exact .inl rfl
      · split
        · exact .inr (.inl ⟨_, _, rfl⟩)
        · exact .inr (.inr rfl)
/-- One that only waits leaves the state or goes on. -/
theorem State.storesDone_cases (s : State) (k : Unit → State) : s.storesDone k = s ∨ s.storesDone k = k () := by
  unfold State.storesDone
  split
  · exact .inr rfl
  · split
    · exact .inl rfl
    · exact .inr rfl

/-- A block of words is read, traps, or waits. -/
theorem State.blockFrom_cases (s s0 : State) (a : Word) (n : Nat) (m : Unit → State) (k : List Word → State → State) :
    s.blockFrom s0 a n m k = s.trap ADDRESS a ∨ s.blockFrom s0 a n m k = m () ∨
      (∃ l t, s0.loadWords a n = .ok l t ∧ s.blockFrom s0 a n m k = k l t) ∨
      (∃ c w, s.blockFrom s0 a n m k = s.trap c w) ∨ ∃ t, s.blockFrom s0 a n m k = s.waited t := by
  unfold State.blockFrom
  split
  · exact .inl rfl
  · split
    · exact .inr (.inl rfl)
    · unfold State.afterLoads
      split
      · next l t h => exact .inr (.inr (.inl ⟨l, t, h, rfl⟩))
      · exact .inr (.inr (.inr (.inl ⟨_, _, rfl⟩)))
      · exact .inr (.inr (.inr (.inr ⟨_, rfl⟩)))

theorem State.block_ok (s t : State) (a : Word) (n : Nat) (m : Unit → State) (k : List Word → State → State) (l : List Word)
    (h : s.spaceOk a (8 * n) = true) (ha : aligned a (8 * n) = true) (hl : s.loadWords a n = .ok l t) :
    s.block a n m k = k l t := by
  simp [State.block, State.blockFrom, State.afterLoads, h, ha, hl]

/-! ### Retiring -/

@[simp] theorem State.countRetired_mem (s : State) : s.countRetired.mem = s.mem := by unfold State.countRetired; split <;> rfl
@[simp] theorem State.countRetired_agent (s : State) : s.countRetired.agent = s.agent := by
  unfold State.countRetired; split <;> rfl
@[simp] theorem State.countRetired_prog (s : State) : s.countRetired.prog = s.prog := by
  unfold State.countRetired; split <;> rfl
@[simp] theorem State.goTo_mem (s : State) (pc : Nat) : (s.goTo pc).mem = s.mem := by simp [State.goTo]
@[simp] theorem State.goTo_agent (s : State) (pc : Nat) : (s.goTo pc).agent = s.agent := by simp [State.goTo]
@[simp] theorem State.goTo_prog (s : State) (pc : Nat) : (s.goTo pc).prog = s.prog := by simp [State.goTo]

@[simp] theorem State.postNode_mem (s : State) (n : Nat) (d : Delta) : (s.postNode n d).mem = s.mem := by
  unfold State.postNode; dsimp only; split <;> simp
@[simp] theorem State.dropAt_mem (s : State) (die : Nat) (r : Rec) (m : List Mark) : (s.dropAt die r m).mem = s.mem := by
  simp [State.dropAt]
@[simp] theorem State.cancelDrop_mem (s : State) (die : Nat) (r : Rec) : (s.cancelDrop die r).mem = s.mem := by
  simp [State.cancelDrop]
theorem State.release_mem (s : State) (src : Source) (die : Nat) (r : Rec) : (s.release src die r).mem = s.mem := by
  unfold State.release
  split
  · simp
  · rfl
theorem State.deliver_mem (s : State) (src : Source) (die : Nat) (r : Rec) (st : Word) : (s.deliver src die r st).mem = s.mem :=
  State.release_mem ..

/-- The bytes of memory and of the quarters: what a program can load. -/
def State.data (s : State) : List Host.Cell × List Host.Cell := (s.mem.bytes, s.mem.cellar)

theorem State.data_of_mem {s t : State} (h : t.mem = s.mem) : t.data = s.data := by simp [State.data, h]

@[simp] theorem State.forgetWalk_data (s : State) (h : Nat) : (s.forgetWalk h).data = s.data := rfl
@[simp] theorem State.dropHolder_data (s : State) (h : Nat) : (s.dropHolder h).data = s.data := rfl
@[simp] theorem State.engDone_data (s : State) (x : Issuer) : (s.engDone x).data = s.data := rfl
@[simp] theorem State.forgetKey_data (s : State) (key : Nat) : (s.forgetKey key).data = s.data := rfl
@[simp] theorem State.deliver_data (s : State) (src : Source) (die : Nat) (r : Rec) (st : Word) :
    (s.deliver src die r st).data = s.data := State.data_of_mem (State.deliver_mem ..)
@[simp] theorem State.streamOver_data (s : State) (lc : Nat) (x : Stream) (st : Word) : (s.streamOver lc x st).data = s.data := by
  simp [State.streamOver]
@[simp] theorem State.setTop_data (s : State) (lc : Nat) (f : Frame) : (s.setTop lc f).data = s.data := State.data_of_mem (by simp)
@[simp] theorem State.goTo_data (s : State) (pc : Nat) : (s.goTo pc).data = s.data := State.data_of_mem (by simp)

theorem State.popRead_data (s : State) (lc : Nat) (r : Reg) : (s.popRead lc r).data = s.data := by
  unfold State.popRead
  split
  · rfl
  · split
    · rfl
    · split
      · rfl
      · split <;> simp

theorem State.popReads_data (l : List Reg) (s : State) (lc : Nat) : (s.popReads lc l).data = s.data := by
  unfold State.popReads
  induction l generalizing s with
  | nil => rfl
  | cons r l ih => simp only [List.foldl_cons]; rw [ih, State.popRead_data]

@[simp] theorem State.pops_data (s : State) (i : Instr) : (s.pops i).data = s.data := by
  unfold State.pops; split
  · exact State.popReads_data ..
  · rfl

@[simp] theorem State.writeReg_mem (s : State) (r : Reg) (w : Word) : (s.writeReg r w).mem = s.mem := by
  unfold State.writeReg
  split
  · unfold State.writeFrame
    split
    · rfl
    · split
      · dsimp only; split
        · rfl
        · split <;> simp
      · simp
  · simp

/-- Retiring changes no byte of memory. -/
@[simp] theorem State.retire_data (s : State) (i : Instr) : (s.retire i).data = s.data := by simp [State.retire]
@[simp] theorem State.finish_data (s : State) (i : Instr) (d : Reg) (w : Word) : (s.finish i d w).data = s.data := by
  simp [State.finish, State.data_of_mem (State.writeReg_mem ..)]

/-- A form of the integer pipeline with two sources changes memory only by a trap. -/
theorem State.run2_data (s t : State) (i : Instr) (d : Reg) (f : Word → Word → Word) (h : s.run2 i d f = .next t) :
    t.data = s.data ∨ t = s.illegal i := by
  rcases State.run_cases _ _ _ _ h with h | ⟨_, h⟩ | ⟨_, _, h⟩
  · exact .inl (by rw [h])
  · exact .inr h
  · exact .inl (by rw [h]; simp)

/-! ### One step -/

/-- A step takes the input that comes first, or else is the turn of the agent. -/
theorem step_cases (s : State) :
    (∃ x l, s.inputs = x :: l ∧ step s = ({ s with tick := s.tick + 1, inputs := l } : State).takeInput x) ∨
    (s.inputs = [] ∧ ∃ lc, s.agent = .core lc ∧ step s = ({ s with tick := s.tick + 1 } : State).turnCore lc) ∨
    (s.inputs = [] ∧ ∃ n, s.agent = .fe n ∧ step s = ({ s with tick := s.tick + 1 } : State).turnFe n) := by
  unfold step
  split
  · next x l h => exact .inl ⟨x, l, h, rfl⟩
  · next h =>
    split
    · next lc ha => exact .inr (.inl ⟨h, lc, ha, rfl⟩)
    · next n ha => exact .inr (.inr ⟨h, n, ha, rfl⟩)

end Sys2Proof.Machine
end

