-- ==== Sys2Proof/Tests/Slice0.lean ====
section
/-! SUPPORT. Tests: words written out from the encodings, ill-formed operands, one step on a small state with
the result the spec gives, and a state and operands that meet the hypotheses of each statement. -/

open Sys2Proof Sys2Proof.Machine

namespace Sys2Proof.Tests

set_option maxRecDepth 40000
set_option Elab.async false

/-! ### Decoding: words laid out by the fields of R269 to R287 -/

/-- What the decoder reads from a list of words, if it reads all of them. -/
def reads (l : List Nat) : Option (List Instr) := l.mapM (decodeTableWord 32)

theorem test_decode_alu :
    reads [
      0x05266800, 0x05266801, 0x05266802, 0x05266803, 0x05266804, 0x05266805, 0x05266806, 0x05266807,
      0x05266808, 0x05266809, 0x0526680A, 0x0526680B, 0x0526680C, 0x05266810, 0x05266811, 0x05266812,
      0x05266813, 0x05266814, 0x05266815, 0x05266816, 0x05266817, 0x05266818, 0x05266819, 0x0526681A,
      0x0526681B, 0x05266820, 0x05266821, 0x05266822, 0x05266823, 0x05266824, 0x05266825, 0x05266826,
      0x05266828, 0x05266829, 0x0526682A, 0x0526682B, 0x0526682C, 0x0526682D, 0x0526682E, 0x0526682F,
      0x05260030, 0x05260031, 0x05260032, 0x05260033, 0x05260034, 0x05260035, 0x05260036, 0x05260037,
      0x05260038, 0x05260039, 0x0526003A] =
    some [
      .add 9 6 13, .sub 9 6 13, .and 9 6 13, .or 9 6 13, .xor 9 6 13, .andn 9 6 13, .orn 9 6 13, .xnor 9 6 13,
      .shl 9 6 13, .shr 9 6 13, .sra 9 6 13, .rol 9 6 13, .ror 9 6 13, .lt 9 6 13, .ltu 9 6 13, .eq 9 6 13, .ne
      9 6 13, .min 9 6 13, .max 9 6 13, .minu 9 6 13, .maxu 9 6 13, .adds 9 6 13, .subs 9 6 13, .addus 9 6 13,
      .subus 9 6 13, .mul 9 6 13, .mulh 9 6 13, .mulhu 9 6 13, .div 9 6 13, .divu 9 6 13, .rem 9 6 13, .remu 9 6
      13, .bpack 9 6 13, .bpack2 9 6 13, .bpack4 9 6 13, .bpack8 9 6 13, .bunpk 9 6 13, .bunpk2 9 6 13, .bunpk4
      9 6 13, .bunpk8 9 6 13, .clz 9 6, .ctz 9 6, .popc 9 6, .brev 9 6, .bswap 9 6, .sextB 9 6, .sextH 9 6,
      .sextW 9 6, .zextB 9 6, .zextH 9 6, .zextW 9 6] := rfl

theorem test_decode_immediate :
    reads [
      0x09269C5A, 0x0D269C5A, 0x11269C5A, 0x15269C5A, 0x19269C5A, 0x1D269C5A, 0x2126002B, 0x2526002B,
      0x2926002B, 0x2D35A5A5, 0x3135A5A5, 0x3525A5A5] =
    some [
      .addi 9 6 0x9c5a, .andi 9 6 0x9c5a, .ori 9 6 0x9c5a, .xori 9 6 0x9c5a, .lti 9 6 0x9c5a, .ltui 9 6 0x9c5a,
      .shli 9 6 0x2b, .shri 9 6 0x2b, .srai 9 6 0x2b, .lui 9 0x15a5a5, .lhi 9 0x15a5a5, .lco 9 0x5a5a5] := rfl

theorem test_decode_control :
    reads [
      0x42A5A5A5, 0x46A5A5A5, 0x49269C5A, 0x50CD9C5A, 0x54CD9C5A, 0x58CD9C5A, 0x5CCD9C5A, 0x60CD9C5A, 0x64CD9C5A] =
    some [
      .j 0x2a5a5a5, .jal 0x2a5a5a5, .jalr 9 6 0x9c5a, .beq 6 13 0x9c5a, .bne 6 13 0x9c5a, .blt 6 13 0x9c5a, .bge
      6 13 0x9c5a, .bltu 6 13 0x9c5a, .bgeu 6 13 0x9c5a] := rfl

theorem test_decode_load_store :
    reads [
      0x81269C5A, 0x85269C5A, 0x89269C5A, 0x8D269C5A, 0x91269C5A, 0x95269C5A, 0x99269C5A, 0xA1269C5A,
      0xA5269C5A, 0xA9269C5A, 0xAD269C5A, 0xC1269C5A, 0xC5269C5A, 0xC9269C5A, 0xCD269C5A, 0xD1269C5A,
      0xD5269C5A, 0xD9269C5A, 0xE1269C5A, 0xE5269C5A, 0xE9269C5A, 0xED269C5A] =
    some [
      .ldB 9 6 0x9c5a, .ldBu 9 6 0x9c5a, .ldH 9 6 0x9c5a, .ldHu 9 6 0x9c5a, .ldW 9 6 0x9c5a, .ldWu 9 6 0x9c5a,
      .ldD 9 6 0x9c5a, .stB 9 6 0x9c5a, .stH 9 6 0x9c5a, .stW 9 6 0x9c5a, .stD 9 6 0x9c5a, .lcB 9 6 0x9c5a,
      .lcBu 9 6 0x9c5a, .lcH 9 6 0x9c5a, .lcHu 9 6 0x9c5a, .lcW 9 6 0x9c5a, .lcWu 9 6 0x9c5a, .lcD 9 6 0x9c5a,
      .scB 9 6 0x9c5a, .scH 9 6 0x9c5a, .scW 9 6 0x9c5a, .scD 9 6 0x9c5a] := rfl

theorem test_decode_memx :
    reads [
      0xB1266800, 0xB1266801, 0xB1266802, 0xB0060008, 0xB0066810, 0xB0066811, 0xB0066812, 0xB0066813] =
    some [
      .bmov 9 6 13, .bset 9 6 13, .bcmp 9 6 13, .pref 6, .stnl 6 13, .stnh 6 13, .scnl 6 13, .scnh 6 13] := rfl

theorem test_decode_atomic :
    reads [
      0xB5266802, 0xB5266807, 0xB526680A, 0xB526680F, 0xB5266812, 0xB5266817, 0xB526681A, 0xB526681F,
      0xB5266822, 0xB5266827, 0xB526682A, 0xB406682F, 0xB4066832, 0xB5260034] =
    some [
      .amoswap .w 9 6 13, .amoadd .d 9 6 13, .amoand .w 9 6 13, .amoor .d 9 6 13, .amoxor .w 9 6 13, .amomin .d
      9 6 13, .amomax .w 9 6 13, .amominu .d 9 6 13, .amomaxu .w 9 6 13, .amocas .d 9 6 13, .amofadd .w 9 6 13,
      .amodadd .d 6 13, .amodfadd .w 6 13, .afl 9 6] := rfl

theorem test_decode_fp :
    reads [
      0xB9266800, 0xB9266805, 0xB926680A, 0xB926680F, 0xB9260010, 0xB9266815, 0xB926681A, 0xB926681F,
      0xB9266820, 0xB9266825, 0xB926682A, 0xB926002F, 0xB9260030, 0xB9260035, 0xB926003A, 0xB926003F, 0xB9260840] =
    some [
      .fadd .f64 9 6 13, .fsub .f32 9 6 13, .fmul .f16 9 6 13, .fdiv .bf16 9 6 13, .fsqrt .f64 9 6, .fmin .f32 9
      6 13, .fmax .f16 9 6 13, .fma .bf16 9 6 13, .feq .f64 9 6 13, .flt .f32 9 6 13, .fle .f16 9 6 13, .fclass
      .bf16 9 6, .ftoi .f64 9 6, .ftoiu .f32 9 6, .itof .f16 9 6, .iutof .bf16 9 6, .fcvt .f64 .f32 9 6] := rfl

theorem test_decode_valu :
    reads [
      0x725B5700, 0x725B5609, 0x725B5712, 0x725B561B, 0x725B5724, 0x725B562D, 0x725B5733, 0x725B5638,
      0x725B5741, 0x725B564A, 0x725B5753, 0x725B5658, 0x725B5761, 0x725B566A, 0x725B5773, 0x725B5678,
      0x725B5781, 0x725B568A, 0x725B5795, 0x7258169D, 0x725817A4, 0x725816AD, 0x725817B6, 0x725816BC,
      0x725817C5, 0x725816CE, 0x701B57D5, 0x701B56DE, 0x701B57E0, 0x701B56E9, 0x701B57F3, 0x701B56F8] =
    some [
      .vadd .i8 9 6 13 11 true, .vsub .i16 9 6 13 11 false, .vmul .i32 9 6 13 11 true, .vmadd .i64 9 6 13 11
      false, .vmin .f32 9 6 13 11 true, .vmax .bf16 9 6 13 11 false, .vadds .i64 9 6 13 11 true, .vsubs .i8 9 6
      13 11 false, .vaddus .i16 9 6 13 11 true, .vsubus .i32 9 6 13 11 false, .vminu .i64 9 6 13 11 true, .vmaxu
      .i8 9 6 13 11 false, .vand .i16 9 6 13 11 true, .vor .i32 9 6 13 11 false, .vxor .i64 9 6 13 11 true,
      .vshl .i8 9 6 13 11 false, .vshr .i16 9 6 13 11 true, .vsra .i32 9 6 13 11 false, .vdiv .bf16 9 6 13 11
      true, .vabs .bf16 9 6 11 false, .vsqrt .f32 9 6 11 true, .vrcp .bf16 9 6 11 false, .vrsqrt .f16 9 6 11
      true, .vexp2 .f32 9 6 11 false, .vlog2 .bf16 9 6 11 true, .vtanh .f16 9 6 11 false, .vceq .bf16 11 6 13
      true, .vcne .f16 11 6 13 false, .vclt .i8 11 6 13 true, .vcle .i16 11 6 13 false, .vcltu .i64 11 6 13
      true, .vcleu .i8 11 6 13 false] := rfl

theorem test_decode_vmem :
    reads [
      0x7658160D, 0x765B561E, 0x765B562F, 0x7658164A, 0x765B565B, 0x765B566C, 0x7658168D, 0x765B569E,
      0x765B56AF, 0x765816CA, 0x765B56DB, 0x765B56EC] =
    some [
      .vld 13 9 6 11, .vlds 14 9 6 13 11, .vldx 15 9 6 13 11, .vst 10 9 6 11, .vsts 11 9 6 13 11, .vstx 12 9 6
      13 11, .vlc 13 9 6 11, .vlcs 14 9 6 13 11, .vlcx 15 9 6 13 11, .vsc 10 9 6 11, .vscs 11 9 6 13 11, .vscx
      12 9 6 13 11] := rfl

theorem test_decode_vmisc :
    reads [
      0x7A581700, 0x7A5B5601, 0x7A5B4102, 0x7A5B4003, 0x7A581704, 0x7A581605, 0x781B5706, 0x7A435607,
      0x7A400008, 0x7A40161A, 0x7A581726, 0x7A581637, 0x7A581741, 0x7A59965E, 0x7A58016D, 0x7A5B407D,
      0x7A40008B, 0x7B001690] =
    some [
      .vmv 9 6 11 true, .vsel 9 6 13 11 false, .vperm 9 6 13 true, .vslide 9 6 13 false, .vcmpr 9 6 11 true,
      .vexpd 9 6 11 false, .vext 11 6 13 true, .vins 9 11 13, .vzero 9, .vbcs 10 9 11, .vredsum .bf16 9 6 11
      true, .vredmin .f16 9 6 11 false, .vredmax .i8 9 6 11 true, .vcvt 6 14 9 6 11 false, .vbsc 5 9 6 true,
      .vbsa 5 9 6 13 false, .vtag 9 11, .vloop 12 11] := rfl

theorem test_decode_engine :
    reads [
      0xF00099A0, 0xF08019BE, 0xF08099BE, 0xF10019A0, 0xF10099A0, 0xF1801800, 0xF1809800, 0xF18119A0,
      0xF20019A0, 0xF28019A0, 0xF28099A0, 0xF2811800] =
    some [
      .cpy 1 6 13, .strmIn 2 6 13, .strmOut 2 6 13, .gath 6 13, .scat 6 13, .mxcf 6, .mxq 6, .mxdr 6 13, .coll 6
      13, .ftake 6 13, .fput 6 13, .fclr 6] := rfl

theorem test_decode_task :
    reads [
      0xF4060000, 0xF4000001, 0xF40000F2, 0xF40000A3, 0xF4060004, 0xF52600D5, 0xF526AE56, 0xF52600D7,
      0xF5260258, 0xF526D008, 0xF5200029, 0xF400000A, 0xF4002A5B] =
    some [
      .post 6, .endTask, .claim 15, .rels 10, .ntfy 6, .tadv 9 6 13, .tadvi 9 6 5 3 0x25, .tcmp 9 6 13, .cnclT 9
      6 0x25, .cnclL 9 6 5, .gang 9 .tpair, .disband, .ovl 0x2a5] := rfl

theorem test_decode_system :
    reads [
      0xF920A350, 0xF806A351, 0xF80000A2, 0xF8000102, 0xF8000003, 0xF800A354, 0xF800A355, 0xF8000006, 0xF80600A7] =
    some [
      .mfs 9 0xa35, .mts 0xa35 6, .opreq 10, .opreqAuto, .ifence, .trap 0xa35, .brk 0xa35, .eret, .pmpw 10 6] := rfl

/-! ### Ill-formed operands (R276), and words that no instruction has -/

theorem test_ill_formed_refused :
    ([.bmov 0 4 5, .bmov 3 0 5, .bmov 3 4 0, .bmov 3 3 5, .bmov 3 4 3, .bmov 3 4 4, .bset 0 4 5, .bset 3 0 5, .bset 3 3 5,
      .bset 3 4 3, .bset 3 4 4, .bcmp 3 4 0, .fcvt .f16 .f16 1 2, .vadds .f32 1 2 3 0 false, .vmaxu .bf16 1 2 3 0 false,
      .vand .f16 1 2 3 0 false, .vsra .f32 1 2 3 0 false, .vdiv .i64 1 2 3 0 false, .vtanh .i8 1 2 0 false,
      .vcltu .f32 1 2 3 false, .vcleu .f16 1 2 3 false, .vld 0 1 2 0, .vstx 0 1 2 3 0, .vlc 0 1 2 0, .vscs 0 1 2 3 0,
      .vbcs 0 1 2, .vcvt 0 5 1 2 0 false, .vcvt 5 0 1 2 0 false, .vcvt 5 5 1 2 0 false] : List Instr).all
      (fun i => !WellFormed i) = true := by decide +kernel

theorem test_well_formed_admitted :
    ([.bmov 3 4 5, .bset 3 4 0, .bcmp 3 4 5, .fcvt .f16 .f32 1 2, .vadds .i8 1 2 3 0 false, .vdiv .f16 1 2 3 0 false,
      .vcltu .i64 1 2 3 true, .vld 15 1 2 0, .vsc 1 1 2 0, .vbcs 15 1 2, .vcvt 8 5 1 2 0 false] : List Instr).all
      WellFormed = true := by decide +kernel

/-- An unassigned opcode, function and type; a nonzero unused field; clashing registers; the all-zero word (R274,
R276, R278 to R287, R315, R325). -/
theorem test_refused_words :
    [0x00000000, 0x38000000, 0x4C000000, 0x68000000, 0x7C000000, 0x9C000000, 0xBC000000, 0xDC000000, 0xFC000000,
      0x0400000D, 0x04000027, 0x0400003B, 0x04010830, 0x20000040, 0x34080000, 0xB0230000, 0xB0430000, 0xB0200008,
      0xB4000000, 0xB4000001, 0xB4200036, 0xB8000044, 0xB8002040, 0x70000007, 0x70000034, 0x74000030, 0x74000000,
      0x74000105, 0x78000009, 0x78000020, 0x78000055, 0x78000060, 0x78000108, 0xF0010000, 0xF0800000, 0xF3000000,
      0xF400000C, 0xF4000039, 0xF4001008, 0xF8000008, 0xF8000112, 0xF8000107].all
      (fun w => (decodeTableWord 32 w).isNone) = true := by decide +kernel

/-! ### One step on a small state -/

/-- A frame of level 1 with a window of 32 registers at word 16 of its image, with some registers set. -/
def fr (l : List (Nat × Word)) : Frame :=
  { Frame.zero with
    h := l.foldl (fun h x => h.setReg ⟨x.1 % 32, by omega⟩ x.2) { Hart.zero with pc := 16 }
    window := 32, ltime := 0x1000000000000003#64 }

/-- Logical core 0 with one running frame; its page at 1000_0000H, of 64 KiB, may be read, written and fetched. -/
def on (f : Frame) : State := (State.reset.placeCore 0).setCore 0 { Core.reset with frames := [f] }

/-- What holds of the next state, if there is one. -/
def after (o : Out) (p : State → Bool) : Bool :=
  match o with
  | .next t => p t
  | _ => false

/-- An instruction writes a value to a register and goes on to the next word. -/
def gives (i : Instr) (l : List (Nat × Word)) (r : Reg) (w : Word) : Bool :=
  after (exec i (on (fr l))) fun t => t.hart.reg r == w && t.hart.pc == 17

/-- An instruction takes a trap of a class: its frame leaves the core. -/
def trapped (i : Instr) (f : Frame) (cls : Nat) : Bool :=
  after (exec i (on f)) fun t => (t.core 0).frames.length == 0 && t.counter (cTRAPS + cls) 0 == 1

/-- Case 2 of chapter 14 (R314). -/
theorem test_pack :
    (gives (.bpack 7 3 4) [(3, 0xF6), (4, 0x5555555555555555)] 7 0xE && gives (.bunpk 8 7 4) [(7, 0xE), (4, 0x5555555555555555)] 8 0x54
      && gives (.bpack2 10 3 11) [(3, 0xF6), (11, 5)] 10 0xE && gives (.bpack 3 3 0) [(3, 0xF6)] 3 0) = true := by decide +kernel

/-- R311, at the ends of the range. -/
theorem test_alu :
    (gives (.add 3 3 3) [(3, 0x8000000000000000)] 3 0 && gives (.sub 3 0 4) [(4, 1)] 3 0xFFFFFFFFFFFFFFFF
      && gives (.adds 3 4 4) [(4, 0x7FFFFFFFFFFFFFFF)] 3 0x7FFFFFFFFFFFFFFF
      && gives (.subs 3 4 5) [(4, 0x8000000000000000), (5, 1)] 3 0x8000000000000000
      && gives (.addus 3 4 5) [(4, 0xFFFFFFFFFFFFFFFF), (5, 1)] 3 0xFFFFFFFFFFFFFFFF && gives (.subus 3 4 5) [(4, 1), (5, 2)] 3 0
      && gives (.sra 3 4 5) [(4, 0x8000000000000000), (5, 0x13F)] 3 0xFFFFFFFFFFFFFFFF
      && gives (.ror 3 4 5) [(4, 1), (5, 4)] 3 0x1000000000000000 && gives (.rol 3 4 5) [(4, 0x8000000000000001), (5, 1)] 3 3
      && gives (.lt 3 4 5) [(4, 0xFFFFFFFFFFFFFFFF), (5, 0)] 3 1 && gives (.ltu 3 4 5) [(4, 0xFFFFFFFFFFFFFFFF), (5, 0)] 3 0
      && gives (.andn 3 4 5) [(4, 0xFF), (5, 0xF)] 3 0xF0 && gives (.max 3 4 5) [(4, 0xFFFFFFFFFFFFFFFF), (5, 0)] 3 0
      && gives (.maxu 3 4 5) [(4, 0xFFFFFFFFFFFFFFFF), (5, 0)] 3 0xFFFFFFFFFFFFFFFF && gives (.add 0 4 4) [(4, 1)] 0 0) = true := by
  decide +kernel

/-- R312, R313: the halves of a product, the most negative number over −1, and DIVZ. -/
theorem test_mul_div :
    (gives (.mulhu 3 4 4) [(4, 0xFFFFFFFFFFFFFFFF)] 3 0xFFFFFFFFFFFFFFFE && gives (.mulh 3 4 4) [(4, 0xFFFFFFFFFFFFFFFF)] 3 0
      && gives (.div 3 4 5) [(4, 0x8000000000000000), (5, 0xFFFFFFFFFFFFFFFF)] 3 0x8000000000000000
      && gives (.rem 3 4 5) [(4, 0xFFFFFFFFFFFFFFF9), (5, 2)] 3 0xFFFFFFFFFFFFFFFF
      && gives (.div 3 4 5) [(4, 0xFFFFFFFFFFFFFFF9), (5, 2)] 3 0xFFFFFFFFFFFFFFFD
      && trapped (.div 3 4 5) (fr [(4, 7)]) DIVZ && trapped (.remu 3 4 5) (fr [(4, 7)]) DIVZ) = true := by decide +kernel

/-- R315 to R317, and Case 2 of chapter 13: `li s5, 0x0200_0000_0251_0000` as `lui` and `lhi`. -/
theorem test_unary_and_immediate :
    (gives (.clz 3 4) [(4, 1)] 3 63 && gives (.ctz 3 4) [(4, 0)] 3 64 && gives (.bswap 3 4) [(4, 0x0102)] 3 0x0201000000000000
      && gives (.brev 3 4) [(4, 2)] 3 0x4000000000000000 && gives (.popc 3 4) [(4, 0xF0F)] 3 8
      && gives (.sextW 3 4) [(4, 0x80000000)] 3 0xFFFFFFFF80000000 && gives (.addi 3 3 0xFFFF) [(3, 0)] 3 0xFFFFFFFFFFFFFFFF
      && gives (.ori 3 4 0xFFFF) [(4, 0)] 3 0xFFFF && gives (.ltui 3 4 0xFFFF) [(4, 5)] 3 1 && gives (.lti 3 4 0xFFFF) [(4, 5)] 3 0
      && gives (.lui 5 0x1FFFFF) [] 5 0xFFFFFFFFFFFF0000 && gives (.lui 5 0x251) [] 5 0x2510000
      && gives (.lhi 5 0x100000) [(5, 0xFFFFFFE002510000)] 5 0x200000002510000 && gives (.lco 5 0x140) [] 5 0x140) = true := by decide +kernel

/-- R318 to R320: a taken branch, one that is not, a target before the image, and the link of `jalr` written after its
source is read. -/
theorem test_control :
    (after (exec (.beq 3 0 3) (on (fr []))) (fun t => t.hart.pc == 19)
      && after (exec (.bltu 3 4 0xFFFE) (on (fr [(4, 1)]))) (fun t => t.hart.pc == 14)
      && after (exec (.bge 3 4 0xFFFE) (on (fr [(4, 1)]))) (fun t => t.hart.pc == 17)
      && trapped (.j 0x3FFFFEF) (fr []) ADDRESS && !trapped (.j 0x3FFFFF0) (fr []) ADDRESS
      && trapped (.jalr 3 4 0) (fr [(4, 0x4000)]) ADDRESS
      && after (exec (.jalr 4 4 1) (on (fr [(4, 99)]))) (fun t => t.hart.pc == 100 && t.hart.reg 4 == 17)
      && after (exec (.jal 84) (on (fr []))) (fun t => t.hart.pc == 100 && t.hart.reg 25 == 17)) = true := by decide +kernel

/-- R308, R309, R321: the bytes of a store, the extension of a load, a misaligned address, a page that waits for a walk. -/
theorem test_load_store :
    (after (exec (.stD 3 4 0xFFF8) (on (fr [(3, 0x8877665544332211), (4, 0x10000010)])))
        (fun t => t.mem64 0x10000008 == 0x8877665544332211 && byteAt t.mem.bytes 0x10000008 == 0x11 && t.hart.pc == 17)
      && after (exec (.stH 3 4 2) (on (fr [(3, 0x8877665544338211), (4, 0x10000010)])))
        (fun t => t.mem64 0x10000010 == 0x82110000 &&
          after (exec (.ldH 5 4 2) t) (fun u => u.hart.reg 5 == 0xFFFFFFFFFFFF8211) &&
          after (exec (.ldHu 5 4 2) t) (fun u => u.hart.reg 5 == 0x8211) &&
          after (exec (.ldB 5 4 2) t) (fun u => u.hart.reg 5 == 0x11))
      && trapped (.ldD 3 4 4) (fr [(4, 0x10000000)]) ALIGN && after (exec (.ldD 3 4 0) (on (fr [(4, 0x20000000)]))) (fun t => t.mem.misses.length == 1 && t.hart.pc == 16)
      && trapped (.ldD 3 4 0) (fr [(4, 0x0300000000000000)]) ADDRESS) = true := by decide +kernel

/-- R322: the last bytes of a quarter, and the first beyond it. -/
theorem test_near :
    (after (exec (.scD 3 4 0x7FF8) (on (fr [(3, 0x8000000000000001), (4, 0x58000)])))
        (fun t => after (exec (.lcW 5 4 0x7FFC) t) (fun u => u.hart.reg 5 == 0xFFFFFFFF80000000) &&
          after (exec (.lcBu 5 4 0x7FF8) t) (fun u => u.hart.reg 5 == 1))
      && trapped (.scD 3 4 0x7FFC) (fr [(4, 0x58004)]) ADDRESS && trapped (.lcH 3 4 1) (fr [(4, 0)]) ALIGN) = true := by decide +kernel

/-- R323 to R326: one element of a block move, its load and then its store, an element of `bcmp` that differs, and the nibbles of a byte. -/
theorem test_memx :
    (after (exec (.bmov 3 4 5) (on (fr [(3, 2), (4, 0x10000080), (5, 0x10000040)]) |>.setMem64 0x10000040 0xAB))
        (fun u => u.hart.pc == 16 && byteAt u.mem.bytes 0x10000080 == 0 && after (exec (.bmov 3 4 5) u) fun t => byteAt t.mem.bytes 0x10000080 == 0xAB && t.hart.reg 3 == 1 && t.hart.reg 4 == 0x10000081 &&
          t.hart.reg 5 == 0x10000041 && t.hart.pc == 16)
      && after (exec (.bcmp 3 4 5) (on (fr [(3, 2), (4, 0x10000080), (5, 0x10000040)]) |>.setMem64 0x10000040 0xAB))
        (fun u => u.hart.pc == 16 && after (exec (.bcmp 3 4 5) u) fun t => t.hart.reg 3 == 2 && t.hart.pc == 17)
      && after (exec (.bset 3 4 5) (on (fr [(3, 0), (4, 0x10000080), (5, 1)]))) (fun t => t.hart.pc == 17)
      && after (exec (.stnh 4 5) (on (fr [(4, 0x10000040), (5, 0xC)]) |>.setMem64 0x10000040 0xAB))
        (fun t => byteAt t.mem.bytes 0x10000040 == 0xCB && t.hart.pc == 17)
      && after (exec (.scnl 4 5) (on (fr [(4, 0x40), (5, 0xC)]))) (fun t => byteAt t.mem.cellar 0x40 == 0xC)
      && after (exec (.pref 4) (on (fr []))) (fun t => t.hart.pc == 17)) = true := by decide +kernel

/-- R327 to R329: the old value is sign-extended, a compare that fails keeps the word, the float sum is rounded. -/
theorem test_atomics :
    (after (exec (.amoadd .w 3 4 5) (on (fr [(4, 0x10000040), (5, 2)]) |>.setMem64 0x10000040 0x1FFFFFFFF))
        (fun t => t.mem64 0x10000040 == 0x100000001 && t.hart.reg 3 == 0xFFFFFFFFFFFFFFFF)
      && after (exec (.amominu .d 3 4 5) (on (fr [(4, 0x10000040), (5, 2)]) |>.setMem64 0x10000040 0xFFFFFFFFFFFFFFFF))
        (fun t => t.mem64 0x10000040 == 2)
      && after (exec (.amomin .d 3 4 5) (on (fr [(4, 0x10000040), (5, 2)]) |>.setMem64 0x10000040 0xFFFFFFFFFFFFFFFF))
        (fun t => t.mem64 0x10000040 == 0xFFFFFFFFFFFFFFFF)
      && after (exec (.amocas .w 3 4 5) (on (fr [(3, 8), (4, 0x10000040), (5, 9)]) |>.setMem64 0x10000040 7))
        (fun t => t.mem64 0x10000040 == 7 && t.hart.reg 3 == 7)
      && after (exec (.amocas .w 3 4 5) (on (fr [(3, 0x500000007), (4, 0x10000040), (5, 9)]) |>.setMem64 0x10000040 7))
        (fun t => t.mem64 0x10000040 == 9 && t.hart.reg 3 == 7)
      && after (exec (.amofadd .w 3 4 5) (on (fr [(4, 0x10000040), (5, 0x3F800000)]) |>.setMem64 0x10000040 0x4B800000))
        (fun t => t.mem64 0x10000040 == 0x4B800000 && t.hart.reg 3 == 0x4B800000 && t.hart.fpstat == NX)
      && trapped (.amoswap .d 3 4 5) (fr [(4, 0x10000044)]) ALIGN) = true := by decide +kernel

/-- Case 7 of chapter 10 (R218, R331, R335): entries are applied by issuer key, and a load before the flush sees none. -/
theorem test_deterministic_atomics :
    (let e := fun (k q : Nat) (x : Word) =>
        (⟨0x10000040, k, q, true, false, x, 0, 0, some 0⟩ : Held)
     let s := (on (fr [(4, 0x10000040), (5, 0x3F800000)])).setMem64 0x10000040 0x4B800000
     let s1 := ((s.placeHeld (e 7 0 0x3F800000)).placeHeld (e 3 0 0x3F800000)).placeHeld (e 3 1 0x40000000)
     s1.mem64 0x10000040 == 0x4B800000 &&
       after (exec (.afl 3 4) s1) (fun t => t.hart.reg 3 == 3 && t.mem64 0x10000040 == 0x4B800002) &&
       after (exec (.amodfadd .w 4 5) s) (fun t => (t.core 0).frames.head?.any (fun f => f.detseq == 1) &&
         t.mem64 0x10000040 == 0x4B800000 && (t.slice (sliceOf 0x10000040)).hold.length == 1)) = true := by decide +kernel

/-- Case 5 of chapter 14 (R256, R257, R343). -/
theorem test_convert :
    (after (exec (.fcvt .f16 .f32 3 4) (on (fr [(4, 0x4B800001)]))) (fun t => t.hart.reg 3 == 0x7C00 && t.hart.fpstat == OF ||| NX)
      && after (exec (.fcvt .bf16 .f32 5 4) (on (fr [(4, 0x4B800001)]))) (fun t => t.hart.reg 5 == 0x4B80 && t.hart.fpstat == NX)
      && after (exec (.ftoi .f32 6 4) (on (fr [(4, 0x4B800001)]))) (fun t => t.hart.reg 6 == 16777218 && t.hart.fpstat == 0)
      && after (exec (.fcvt .f16 .f32 3 4) (on { fr [] with h := { (fr [(4, 0x4B800001)]).h with fpctl := 2 } }))
        (fun t => t.hart.reg 3 == 0x7BFF && t.hart.fpstat == OF ||| NX)) = true := by decide +kernel

/-- R338 to R342: an inexact sum, division by zero, a signalling NaN, a class. -/
theorem test_float :
    (after (exec (.fadd .f64 3 4 5) (on (fr [(4, 0x3FF0000000000000), (5, 0x3CA0000000000000)])))
        (fun t => t.hart.reg 3 == 0x3FF0000000000000 && t.hart.fpstat == NX)
      && after (exec (.fdiv .f32 3 4 5) (on (fr [(4, 0x3F800000), (5, 0x80000000)])))
        (fun t => t.hart.reg 3 == 0xFF800000 && t.hart.fpstat == DZ)
      && after (exec (.fsqrt .f32 3 4) (on (fr [(4, 0x40000000)]))) (fun t => t.hart.reg 3 == 0x3FB504F3)
      && after (exec (.fma .f32 3 4 5) (on (fr [(3, 0xBF800000), (4, 0x3F800001), (5, 0x3F7FFFFE)])))
        (fun t => t.hart.reg 3 == 0xA8800000 && t.hart.fpstat == 0)
      && after (exec (.fmin .f32 3 4 5) (on (fr [(4, 0x7FC00000), (5, 0x80000000)]))) (fun t => t.hart.reg 3 == 0x80000000)
      && after (exec (.flt .f32 3 4 5) (on (fr [(4, 0x7F800001), (5, 0)]))) (fun t => t.hart.reg 3 == 0 && t.hart.fpstat == NV)
      && after (exec (.ftoiu .f32 3 4) (on (fr [(4, 0xBF800000)]))) (fun t => t.hart.reg 3 == 0 && t.hart.fpstat == NV)
      && after (exec (.itof .f16 3 4) (on (fr [(4, 0xFFFFFFFFFFFFFFFF)]))) (fun t => t.hart.reg 3 == 0xBC00)) = true := by decide +kernel

/-- Case 2 of chapter 12 (R255 to R257): FP32 to E2M1. -/
theorem test_minifloat_rounding :
    (let r := fun (mode : Rnd) (fzo : Bool) (draw w : Nat) => (fdFmt 0x192).round ⟨mode, fzo, draw⟩ (f32.decode false w)
     [r .rne false 0 0x40300000, r .rtz false 0 0x40300000, r .sr false 0x5000 0x40300000, r .sr false 0x3FFF 0x40300000,
       r .rne false 0 0x40E00000, r .rdn false 0 0x40E00000, r .sr false 0x8000 0x40E00000, r .sr false 0x7FFF 0x40E00000,
       r .rne false 0 0xBE4CCCCD, r .rne false 0 0x3E99999A, r .rne true 0 0x3E99999A, r .rne false 0 0x7FC00000] =
     [(5, NX), (4, NX), (5, NX), (4, NX), (7, OF ||| NX), (7, NX), (7, OF ||| NX), (7, NX), (8, UF ||| NX), (1, UF ||| NX),
       (0, UF ||| NX), (0, NV)]) := by decide +kernel

/-- Case 3 of chapter 12 (R266): a sum of 16 elements in the order of the tree. -/
theorem test_reduction_tree :
    (reduceEls .sum 5 0 0 0xFFFFFFFFFFFFFFFF 0x3F8000003F8000003F8000004B800000 16) = (0x4B800001, NX) := by decide +kernel

/-- Case 1 of chapter 9:
3_0007_1234H has its home in slice 0 of stack 4, on die 2 (R193). -/
theorem test_home_slice :
    sliceOf 0x300071234 = 32 ∧ stackOf 0x300071234 = 4 := by decide +kernel

/-- Case 1 of chapter 9 (R199, R200): the walk of context 3, its leaf and the address; a fetch finds X = 0. -/
def walked : State :=
  (((((State.reset.placeCore 0).setEntry 11 3 0x8000000008000000).setMem64 0x08000000 0x08002001).setMem64 0x08002008
    0x08004001).setMem64 0x08004018 0x08006001).setMem64 0x08006028 0x30007005B

theorem test_page_walk :
    walked.walkCtx 3 0x100C051234 = .leaf 0x30007005B 3 ∧
    (match walked.xlate 0 [] 0 3 0x100C051234 (needR + needE) with
      | .pa p _ => p == 0x300071234
      | _ => false) = true ∧
    walked.xlate 0 [] 0 3 0x100C051234 needX = .trap PROT := by decide +kernel

/-- Case 2 of chapter 11 (R226, R242): DATA at pc 123H of a frame of level 2 whose header's action for DATA is 1. -/
theorem test_trap_words :
    (let f := { fr [(4, 0x10000040)] with
        level := 2, h := { (fr [(4, 0x10000040)]).h with pc := 0x123 }, hdr := { Header.zero with actions := 0x100 } }
     let s := (on f).strike (.line 0x10000040)
     ((s.noteTrap 0 DATA 1 0x10000040 none).top 0).any fun g =>
       g.h.trapcause == 0x0000000001232104 && g.h.trapval == 0x10000040) = true ∧
    after (exec (.ldD 3 4 0) ((on (fr [(4, 0x10000040)])).strike (.line 0x10000040)))
      (fun t => t.counter (cTRAPS + DATA) 0 == 1 && (t.core 0).frames.length == 0) = true := by decide +kernel

/-- R115 to R119, R138: the order of time words, the edges of Case 1 of chapter 6, and the reasons of TIME. -/
theorem test_time_words :
    (applySum 0x8200 0x1000000000000003 = some 0x2000000000000003 ∧ applySum 0x8001 0x2000000000000003 = some 0x2000000000008003 ∧
      applySum 0x9000 0x2000000000008003 = some 0x1000000000000003) ∧
    (gives (.tcmp 3 4 5) [(4, 0x1000000000000003), (5, 0x2000000000000003)] 3 0xFFFFFFFFFFFFFFFF
      && gives (.tcmp 3 4 5) [(4, 0x1000000000000004), (5, 0x2000000000000003)] 3 1
      && gives (.tadvi 3 4 1 0 0) [(4, 0x2000000000008003)] 3 0x1000000000000003
      && gives (.tadv 3 4 5) [(4, 0x1000000000000003), (5, 0x8200)] 3 0x2000000000000003
      && trapped (.tadv 3 4 5) (fr [(4, 0x1000000000000003), (5, 0x10000)]) TIME
      && trapped (.tcmp 3 4 5) (fr [(4, 0x5000000000000000)]) TIME) = true := by decide +kernel

/-- A graph of the claim test: slot 2 is homed on logical core 0, slot 3 on logical core 41 (R105). -/
def claimed (f : Frame) : State :=
  let s := on { f with hdr := { Header.zero with ceilings := 0x3300 } }
  let g : Graph := ⟨0, 0x10000000, 0x4000, 1, 0, [1], [], [0, 0, 0x80000000, 0x80000029], 0, 0, false⟩
  { s with prog := { s.prog with graphs := tput 0 g s.prog.graphs } }

/-- Case 1 of chapter 5 (R105 to R107): the threshold of a claim at ceiling 3, and the reason of one whose home is
another core. -/
theorem test_claim :
    after (exec (.claim 2) (claimed (fr []))) (fun t => (t.top 0).any fun f => f.thresh == 3 && claimsWord f.claims == 0x121) = true ∧
    after (exec (.claim 3) (claimed (fr []))) (fun t => t == (claimed (fr [])).trap CLAIM 0x103) = true ∧
    after (exec (.rels 2) (claimed { fr [] with thresh := 3, claims := [⟨1, 2⟩] }))
      (fun t => (t.top 0).any fun f => f.thresh == 1 && f.claims.isEmpty) = true := by decide +kernel

/-- Case 3 of chapter 16 (R182, R400): a partner whose threshold stands at the level or above gives code 1; a partner
with nothing above gives 0, and it holds a member frame. -/
theorem test_gang :
    (let leader := { fr [] with level := 3, thresh := 3, hdr := { Header.zero with flags := 2 } }
     let s := ((on leader).setEntry 12 1 0x8001).setEntry 24 1 0x8000000000000000
     let low := { fr [] with thresh := 4, low := 0x5FF00 }
     after (exec (.gang 3 .pair) (s.setCore 1 { Core.reset with frames := [low] })) (fun t => t.hart.reg 3 == 1)
       && after (exec (.gang 3 .pair) s) (fun t => t.hart.reg 3 == 0 &&
         (t.top 1).any fun f => f.leader == some 0 && f.level == 3)) = true := by decide +kernel

/-- R254, R258, R402, R403, R406: a rounding mode of 6 or 7 is stored as 0, a seed of 0 loads the generator's constant, a
read-only register cannot be written, and OPREQ takes an explicit request. -/
theorem test_system :
    (after (exec (.mts 0x20 4) (on (fr [(4, 0x1F)]))) (fun t => t.hart.fpctl == 0x18 && t.hart.pc == 17)
      && after (exec (.mts 0x22 4) (on (fr []))) (fun t => t.hart.gen == 0x9E3779B97F4A7C15)
      && trapped (.mts 0x000 4) (fr []) ILLEGAL && trapped (.mfs 3 0x7FF) (fr []) ILLEGAL
      && gives (.mfs 3 0x007) [] 3 0x1000000000000003 && gives (.mfs 3 0x004) [] 3 1
      && after (exec (.opreq 5) (on (fr []))) (fun t => (t.core 0).opreq == 5 && (t.core 0).opresult == 1)
      && trapped (.trap 0x123) (fr []) USER && trapped .eret (fr []) ILLEGAL && trapped (.pmpw 0 1) (fr []) ILLEGAL) = true := by
  decide +kernel

/-- Bytes that an instruction has read, an access a step. -/
def notedBytes (l : List Nat) : List Sent := l.map fun x => ⟨0, 0, false, some (.data (leBytes 8 x))⟩

/-- A trap by a frame whose header ignores its class goes on (R227); a misaligned load reads a byte a step (R309). -/
theorem test_ignored_traps :
    (let f := fun l => { fr l with hdr := { Header.zero with actions := 0xFFFFFFFF } }
     after (exec (.brk 7) (on (f []))) (fun t => t.hart.pc == 17 && t.hart.trapval == 7)
       && after (exec (.divu 3 4 5) (on (f [(4, 9)]))) (fun t => t.hart.reg 3 == 0xFFFFFFFFFFFFFFFF && t.hart.pc == 17)
       && after (exec (.remu 3 4 5) (on (f [(4, 9)]))) (fun t => t.hart.reg 3 == 9)
       && (let g := f [(4, 0x10000040)]
           after (exec (.ldW 3 4 1) (on { g with h := { g.h with sent := notedBytes [0x44, 0x33, 0x22] } } |>.setMem64 0x10000040 0x1122334455))
             (fun t => t.hart.reg 3 == 0x11223344 && t.hart.trapval == 0x10000041 && t.hart.pc == 17))) = true := by decide +kernel

/-- A frame whose sequencer holds one entry, and vector registers. -/
def fv (e : SeqEntry) (l : List (Fin 16 × Nat)) : Frame :=
  { fr [] with v := l.foldl (fun v x => v.set x.1.val (BitVec.ofNat 512 x.2)) (Vector.replicate 16 0), seq := [.one e] }

/-- An entry as issue captures it, with every element active. -/
def en (i : Instr) (fmt res : BitVec 4) : SeqEntry :=
  ⟨i, 16, 0, Vector.replicate 8 0, fmt, 0, res, 0, 0, 0xFFFFFFFFFFFFFFFF, 0x9E3779B97F4A7C15⟩

/-- What a register of logical core 0 holds after the sequencer's next chunk. -/
def chunk (e : SeqEntry) (l : List (Fin 16 × Nat)) (p : Frame → Bool) : Bool :=
  after (execSequencerChunk 0 (on (fv e l))) fun t => (t.top 0).any fun f => p f && f.seq.isEmpty

/-- R355 to R359, R363 to R367: lanes wrap and saturate by themselves, an inactive element stays, a compare writes its mask,
a slide and a permutation move units. -/
theorem test_vector :
    (chunk (en (.vadd .i8 1 2 3 0 false) 1 1) [(2, 0x80FF), (3, 0x8001)] (fun f => f.v.get 1 == 0 && f.tags.get 1 == 1)
      && chunk (en (.vadds .i8 1 2 3 0 false) 1 1) [(2, 0x807F), (3, 0x8001)] (fun f => f.v.get 1 == 0x807F)
      && chunk { en (.vsub .i16 1 2 3 0 false) 2 2 with mask := 2 } [(1, 0x11112222), (2, 0x00010001)]
        (fun f => f.v.get 1 == 0x00012222)
      && chunk (en (.vmul .f32 1 2 3 0 false) 5 5) [(2, 0x40000000), (3, 0x40400000)] (fun f => f.v.get 1 == 0x40C00000)
      && chunk (en (.vclt .f32 7 2 3 false) 5 5) [(2, 0xBF80000000000000), (3, 0)] (fun f => f.h.reg 7 == 2)
      && chunk (en (.vzero 1) 0 0) [(1, 7)] (fun f => f.v.get 1 == 0)
      && chunk (en (.vdiv .f32 1 2 3 0 false) 5 5) [(2, 0x3F800000)] (fun f => f.h.fpstat == DZ ||| NV)) = true := by decide +kernel

/-- Issue of a vector form: its tag does not match (R351), a base that is not aligned (R354), and one that enters. -/
theorem test_vector_issue :
    (trapped (.vadd .f32 1 2 3 0 false) { fr [] with itags := (Vector.replicate 16 0).set 3 2 } TAG
      && !trapped (.vadd .f32 1 2 3 0 false) (fr []) TAG
      && trapped (.vld 5 1 4 0) (fr [(4, 0x10000002)]) ALIGN
      && after (exec (.vld 5 1 4 0) (on (fr [(4, 0x10000040)]))) (fun t => (t.top 0).any fun f =>
        f.h.pc == 17 && f.seq.length == 1 && f.itags.get 1 == 5 && f.tags.get 1 == 0)
      && after (exec (.vloop 1 3) (on (fr [(3, 4)]))) (fun t => (t.top 0).any fun f => f.vloop.isSome && f.h.pc == 17)) = true := by
  decide +kernel

/-- Case 4 of chapter 10 (R177, R214): a near load at or above the watermark waits, one below it reads. -/
theorem test_watermark :
    (let s := (on (fr [(4, 0x10000)])).setCore 0 { Core.reset with
        frames := [fr [(4, 0x10000)]], arms := (Vector.replicate 4 none).set 0 (some ⟨0x10000, 0x11000, 0x10800⟩) }
     after (exec (.lcD 3 4 0x7F8) s) (fun t => t.hart.pc == 17) && after (exec (.lcD 3 4 0xC00) s) (fun t => t.hart.pc == 16)) =
      true := by decide +kernel

/-- Case 1 of chapter 2 (R37): packet 70 of a ring of 64 slots has lap 2. -/
theorem test_lap : lapOf 70 6 = 2 ∧ lapOf 6 6 = 1 := by decide

/-- A step fetches and runs the word at the pc; a front-end core runs `eret` and `pmpw`; a word no instruction has traps. -/
theorem test_step :
    after (step (State.reset.withFetchWord 32 0x08630001)) (fun t => t.hart.reg 3 == 1 && t.hart.pc == 17) = true ∧
    after (step (State.reset.withFetchWord 32 0xF8000006)) (fun t => (t.fe 0).priv == 0 && (t.fe 0).h.pc == 0) = true ∧
    after (step (State.reset.withFetchWord 32 0xF8010007)) (fun t => (t.fe 0).h.pc == 0x400001) = true ∧
    after (step (State.reset.withFetchWord 32 0)) (fun t => t.counter (cTRAPS + ILLEGAL) 0 == 1) = true := by decide +kernel

/-- The stop of a step whose agent the module does not have (R7, R50). -/
theorem test_no_such_agent :
    step { State.reset with agent := .core 1024 } = .fault .noSuchAgent ∧
    step { State.reset with agent := .fe 16 } = .fault .noSuchAgent := ⟨rfl, rfl⟩

/-! ### Each statement's hypotheses are met -/

/-- Every instruction of a list reads v on a state. -/
def readsAll (s : State) (l : List Instr) (v : List Word) : Bool := l.all fun i => decide (s.front i = .go v)

/-- Front-end core 0 has its turn, at a level. -/
def fe (priv : Nat) : State := (State.reset.setFe 0 { FeCore.reset 0 with priv := priv }).setModState 3

theorem meets_DecodeEncode :
    (WellFormed (.addi 31 31 0xFFFF) = true ∧ encode (.addi 31 31 0xFFFF) = some 0x0BFFFFFF) ∧
    (WellFormed (.bmov 31 1 2) = true ∧ encode (.bmov 31 1 2) = some 0xB3E11000) ∧
    (WellFormed (.vcvt 15 1 15 0 31 true) = true ∧ encode (.vcvt 15 1 15 0 31 true) = some 0x7BC3FF51) ∧
    (WellFormed (.ovl 1023) = true ∧ encode (.ovl 1023) = some 0xF4003FFB) := by decide +kernel

theorem meets_WordHasOneMeaning : 0xF8000112 < 2 ^ 32 ∧ decodeWord 0xF80000F2 = .ok (.opreq 15) ∧ decodeWord 0 = .error .opcode :=
  ⟨by decide, rfl, rfl⟩

theorem ready_on (f : Frame) (i : Instr) (h : f.leader = none ∧ f.gang = none ∧ f.vloop = none ∧ f.seq = [])
    (g : ∀ r, f.stream r = none) (k : feOnly i = false) (n : f.kind = 0) (w : ∀ r ∈ srcs i ++ dsts i ++ named i, r.val < f.window) :
    (on f).Ready i :=
  ⟨f, rfl, h.1, h.2.1, h.2.2.1, h.2.2.2, g, k, by omega, w⟩

theorem meets_ReadyReadsRegisters :
    (on (fr [(31, 7)])).Ready (.add 31 31 0) ∧ ({ fe 0 with agent := .fe 0 }).Ready (.add 31 31 0) := by
  refine ⟨ready_on _ _ ⟨rfl, rfl, rfl, rfl⟩ (by decide) rfl rfl (by decide), by decide, by decide⟩

theorem meets_BarredWordTraps :
    (Instr.encoded .eret = true ∧ (on (fr [])).front .eret = .bad) ∧
    (Instr.encoded (.mfs 3 0x21) = true ∧ (on (fv (en (.vzero 1) 0 0) [])).front (.mfs 3 0x21) = .stall) ∧
    (Instr.encoded (.add 3 1 2) = true ∧ (on { fr [] with leader := some 1 }).front (.add 3 1 2) = .idle) := by decide +kernel

theorem meets_WindowAndLevelBar :
    ((on { fr [] with window := 8 }).top 0 = some { fr [] with window := 8 } ∧
      ∃ r ∈ srcs (.add 1 8 2) ++ dsts (.add 1 8 2) ++ named (.add 1 8 2), 8 ≤ r.val) ∧
    (isVector (.vzero 15) = true ∧ isEngine (.fclr 1) = true ∧ Machine.feOk (.lcD 1 2 0) = false) ∧
    ((fe 0).fe 0).priv = 0 ∧ plugOk .eret = false := by decide +kernel

theorem meets_FinishWritesOnlyItsRegister :
    (on (fr [])).Ready (.add 31 31 0) ∧ (on (fr [])).Ready (.add 0 31 0) :=
  ⟨ready_on _ _ ⟨rfl, rfl, rfl, rfl⟩ (by decide) rfl rfl (by decide), ready_on _ _ ⟨rfl, rfl, rfl, rfl⟩ (by decide) rfl rfl (by decide)⟩

theorem meets_AluResults :
    readsAll (on (fr [(1, 0x8000000000000000), (2, 0xFFFFFFFFFFFFFFFF)])) [.add 3 1 2, .sub 3 1 2, .and 3 1 2, .or 3 1 2, .xor 3 1 2,
      .andn 3 1 2, .orn 3 1 2, .xnor 3 1 2, .shl 3 1 2, .shr 3 1 2, .sra 3 1 2, .rol 3 1 2, .ror 3 1 2, .lt 3 1 2, .ltu 3 1 2,
      .eq 3 1 2, .ne 3 1 2, .min 3 1 2, .max 3 1 2, .minu 3 1 2, .maxu 3 1 2, .adds 3 1 2, .subs 3 1 2, .addus 3 1 2,
      .subus 3 1 2] [0x8000000000000000, 0xFFFFFFFFFFFFFFFF] = true := by decide +kernel

theorem meets_MultiplyAndDivideResults :
    readsAll (on (fr [(1, 0x8000000000000000), (2, 0xFFFFFFFFFFFFFFFF)])) [.mul 3 1 2, .mulh 3 1 2, .mulhu 3 1 2, .div 3 1 2,
      .divu 3 1 2, .rem 3 1 2, .remu 3 1 2] [0x8000000000000000, 0xFFFFFFFFFFFFFFFF] = true ∧
    (readsAll (on (fr [(1, 9)])) [.div 3 1 2, .divu 3 1 2, .rem 3 1 2, .remu 3 1 2] [9, 0] = true ∧
      (on (fr [(1, 9)])).ignores DIVZ = false) ∧
    (let s := on { fr [(1, 9)] with hdr := { Header.zero with actions := 0xFFFFFFFF } }
     readsAll s [.div 3 1 2, .divu 3 1 2, .rem 3 1 2, .remu 3 1 2] [9, 0] = true ∧ s.ignores DIVZ = true) := by decide +kernel

theorem meets_UnaryResults :
    readsAll (on (fr [(1, 0)])) [.clz 3 1, .ctz 3 1, .popc 3 1, .brev 3 1, .bswap 3 1, .sextB 3 1, .sextH 3 1, .sextW 3 1,
      .zextB 3 1, .zextH 3 1, .zextW 3 1] [0] = true ∧
    readsAll (on (fr [(1, 0xFF), (2, 0)])) [.bpack 3 1 2, .bpack2 3 1 2, .bpack4 3 1 2, .bpack8 3 1 2, .bunpk 3 1 2,
      .bunpk2 3 1 2, .bunpk4 3 1 2, .bunpk8 3 1 2] [0xFF, 0] = true := by decide +kernel

theorem meets_ImmediateResults :
    readsAll (on (fr [(1, 5)])) [.addi 3 1 0x8000, .andi 3 1 0x8000, .ori 3 1 0x8000, .xori 3 1 0x8000, .lti 3 1 0x8000,
      .ltui 3 1 0x8000, .shli 3 1 63, .shri 3 1 63, .srai 3 1 63, .lhi 1 0x1FFFFF] [5] = true ∧
    readsAll (on (fr [])) [.lui 3 0x100000, .lco 3 0x7FFFF] [] = true := by decide +kernel

theorem meets_ControlFlowResults :
    (readsAll (on (fr [(1, 5), (2, 5)])) [.beq 1 2 4, .bge 1 2 4, .bgeu 1 2 4, .bne 1 2 4, .blt 1 2 4, .bltu 1 2 4] [5, 5] = true ∧
      (on (fr [])).target 20 = .ok 20 ∧ (on (fr [])).target (-1) = .outside 0xFFFFFFC) ∧
    (let s := on { fr [(1, 4)] with kind := 1 }
     readsAll s [.bne 1 2 0x7FFF, .bge 1 2 0x7FFF, .bgeu 1 2 0x7FFF] [4, 0] = true ∧
       readsAll s [.beq 1 1 0x7FFF] [4, 4] = true ∧ readsAll s [.blt 2 1 0x7FFF, .bltu 2 1 0x7FFF] [0, 4] = true ∧
       s.target (16 + 0x7FFF) = .handler) ∧
    readsAll (on (fr [])) [.j 1, .jal 0x3FFFFFF] [] = true ∧ (on (fr [(1, 0x3FFF)])).front (.jalr 25 1 0) = .go [0x3FFF] ∧
    (on (fr [])).target 0x3FFF = .ok 0x3FFF ∧ (on (fr [])).target 0x4000 = .outside 0x10010000 := by decide +kernel

theorem meets_ReachableTargets :
    ((on { fr [] with kind := 1 }).top 0 = some { fr [] with kind := 1 } ∧ (on { fr [] with kind := 1 }).target 11 = .ok 11 ∧
      (on { fr [] with kind := 1 }).target 12 = .handler ∧ (on { fr [] with kind := 1 }).target (-1) = .handler) ∧
    ((on { fr [] with overlay := some 0 }).graph 0).isSome = true ∧
    (on { fr [] with overlay := some 1 }).target 0x3FFF = .outside 0x1000FFFC := by decide +kernel

/-- What a load or a store of a list reads where it lies at an address. -/
def loadsAt (w : Word) (f : Frame) : Bool :=
  let s := on { f with h := (f.h.setReg 1 w).setReg 2 9 }
  readsAll s [.ldB 3 1 0, .ldBu 3 1 0, .ldH 3 1 0, .ldHu 3 1 0, .ldW 3 1 0, .ldWu 3 1 0, .ldD 3 1 0, .lcB 3 1 0, .lcBu 3 1 0,
      .lcH 3 1 0, .lcHu 3 1 0, .lcW 3 1 0, .lcWu 3 1 0, .lcD 3 1 0] [w]
    && readsAll s [.stB 2 1 0, .stH 2 1 0, .stW 2 1 0, .stD 2 1 0, .scB 2 1 0, .scH 2 1 0, .scW 2 1 0, .scD 2 1 0] [w, 9]

/-- An access is answered; it traps; it waits. -/
def done (a : Acc) : Bool := match a with | .ok _ _ => true | _ => false
def waits (a : Acc) : Bool := match a with | .wait _ => true | _ => false

theorem meets_LoadStoreResults :
    (let s := on (fr [])
     loadsAt 0x1000FFF8 (fr []) = true ∧ s.spaceOk 0x1000FFF8 8 = true ∧ done (s.load 0x1000FFF8 8) = true ∧
       done (s.store 0x1000FFF8 8 1) = true ∧ loadsAt 0x0300000000000000 (fr []) = true ∧ s.spaceOk 0x0300000000000000 1 = false ∧
       s.spaceOk 0x1000FFF9 2 = true ∧ s.ignores ALIGN = false) ∧
    (let s := on { fr [] with hdr := { Header.zero with actions := 0xFFFFFFFF } }
     let t := s.setHart { s.hart with sent := notedBytes [1, 2, 3, 4, 5, 6, 7] }
     s.spaceOk 0x10000041 8 = true ∧ s.ignores ALIGN = true ∧ done (s.pagesOf 0x10000041 8 needR) = true ∧
       waits (s.loadBytes 0x10000041 8) = true ∧ done (t.loadBytes 0x10000041 8) = true ∧ done (s.pagesOf 0x10000041 8 needW) = true ∧
       waits (s.storeBytes 0x10000041 8 1) = true ∧ done (t.storeBytes 0x10000041 8 1) = true) ∧
    (let s := on (fr [])
     let t := { s with mem := { s.mem with tlb := [⟨0, 0, 0x2000, 0x10000023, 3⟩] } }
     t.spaceOk 0x20000000 8 = true ∧ t.load 0x20000000 8 = .trap PROT 0x20000000 ∧ waits (s.load 0x20000000 8) = true) := by
  decide +kernel

theorem meets_NearResults :
    (loadsAt 0x5FFF8 (fr []) = true ∧ (0x5FFF8#64).toNat + 8 ≤ 0x60000 ∧ (on (fr [])).armedAt 0 0x5FFF8 8 = false ∧
      (on (fr [])).anyBadCellar (span (cellarKey 0 0x5FFF8) 8) = false ∧ (on (fr [])).storableCellar (span (cellarKey 0 0x5FFF8) 8) = true) ∧
    (loadsAt 0x5FFF9 (fr []) = true ∧ 0x60000 < (0x5FFF9#64).toNat + 8 ∧ (on (fr [])).ignores ALIGN = false) ∧
    (let s := on { fr [] with hdr := { Header.zero with actions := 0xFFFFFFFF } }
     s.ignores ALIGN = true ∧ (0x5FFF7#64).toNat % 8 ≠ 0 ∧ (notedBytes [1, 2, 3, 4, 5, 6, 7]).length = 7 ∧
       s.armedAt 0 0x5FFFE 1 = false ∧ s.badCellarAt (cellarKey 0 0x5FFFE) = false ∧ s.storableCellar [cellarKey 0 0x5FFFE] = true) ∧
    (let s := (on (fr [])).setCore 0 { Core.reset with
        frames := [fr []], arms := (Vector.replicate 4 none).set 0 (some ⟨0, 16, 0⟩) }
     s.armedAt 0 8 8 = true ∧ s.armedAt 0 16 8 = false) ∧
    (let s := (on (fr [])).strike (.cellar 0 8)
     s.anyBadCellar (span (cellarKey 0 8) 8) = true ∧ s.storableCellar (span (cellarKey 0 8) 4) = false ∧
       s.storableCellar (span (cellarKey 0 8) 8) = true) := by decide +kernel

theorem meets_AccessesOfLocalMemory :
    (let s := on (fr [])
     spaceOf 0x1000FFF8 8 = .global 0x1000FFF8 ∧
       (match s.coreSpan 0 0x1000FFF8 8 (needR + needW) with
         | .pas l t => decide (s.region (l.headD 0) = .hbm 0x1000FFF8) && !s.anyBad l && !l.any s.portFailed
             && !t.loadFails 0 l && !t.hostBusy l
         | _ => false) = true) := by decide +kernel

theorem meets_AccessFrames :
    done ((on (fr [])).load 0x1000FFF8 8) = true ∧ done ((on (fr [])).store 0x1000FFF8 8 1) = true ∧
    done ((on (fr [])).store 0x020000000005FFF8 8 1) = true ∧ done ((let s := fe 2; { s with agent := .fe 0, boot := { s.boot with modstat := 0xFFFF03 } } : State).store 0x08000000 8 1) = true := by
  decide +kernel

theorem meets_TranslationOfLeaf :
    (walked.lookup 0 [] 3 0x100C051234).1 = .leaf 0x30007005B 3 ∧ walked.populated 0 0x300071234 = true ∧
    ((0x30007005B#64).toNat &&& needX ≠ needX ∧ (0x30007005B#64).toNat &&& needR = needR) ∧
    walked.populated 1 0x300071234 = false ∧ bit (0x3000700DB#64) 7 = true := by decide +kernel

theorem meets_BlockMoveResults :
    (let s := on (fr [(3, 1), (4, 0x10000080), (5, 0x10000040)])
     s.front (.bmov 3 4 5) = .go [0x10000080, 0x10000040, 1] ∧ s.front (.bset 3 4 5) = .go [0x10000080, 0x10000040, 1] ∧
       s.front (.bcmp 3 4 5) = .go [0x10000080, 0x10000040, 1] ∧ s.spaceOk 0x10000040 1 = true ∧
       done (s.load 0x10000040 1) = true ∧ done (s.store 0x10000080 1 0) = true ∧ s.front (.pref 4) = .go [0x10000080]) ∧
    (let s := on (fr [(4, 0x0300000000000000), (5, 0x0300000000000000)])
     s.front (.bmov 3 4 5) = .go [0x0300000000000000, 0x0300000000000000, 0] ∧ s.spaceOk 0x0300000000000000 1 = false) ∧
    (let s := on (fr [(4, 0x10000040), (5, 0xC)])
     s.front (.stnl 4 5) = .go [0x10000040, 0xC] ∧ s.front (.stnh 4 5) = .go [0x10000040, 0xC] ∧
       s.isRemote 0x10000040 needW = false ∧ s.spaceOk 0x10000040 1 = true) ∧
    (let s := (on (fr [(4, 0x0200000100001000), (5, 0xC)])).setEntry 15 0 2
     s.front (.stnl 4 5) = .go [0x0200000100001000, 0xC] ∧ s.isRemote 0x0200000100001000 needW = true ∧ s.spaceOk 0x0200000100001000 1 = true) ∧
    (let s := on (fr [])
     s.front (.scnl 4 5) = .go [0, 0] ∧ s.front (.scnh 4 5) = .go [0, 0] ∧ s.badCellarAt (cellarKey 0 0x5FFFF) = false ∧
       (s.strike (.cellar 0 0x5FFFF)).badCellarAt (cellarKey 0 0x5FFFF) = true) := by decide +kernel

theorem meets_AtomicResults :
    (let s := on (fr [(4, 0x10000040), (5, 2)])
     readsAll s [.amoswap .w 3 4 5, .amoadd .d 3 4 5, .amoand .w 3 4 5, .amoor .d 3 4 5, .amoxor .w 3 4 5, .amomin .d 3 4 5,
         .amomax .w 3 4 5, .amominu .d 3 4 5, .amomaxu .w 3 4 5, .amofadd .d 3 4 5, .amodadd .w 4 5, .amodfadd .d 4 5]
         [0x10000040, 2] = true ∧
       s.front (.amocas .w 3 4 5) = .go [0x10000040, 2, 0] ∧ s.front (.afl 3 4) = .go [0x10000040] ∧
       s.spaceOk 0x10000040 8 = true ∧ done (s.homeAddress 0x10000040 8) = true ∧
       done (s.atomic 0x10000040 8 (needR + needW) (.atomic 10 true 2 0 0 s.draw) fun _ => 0) = true ∧
       s.spaceOk 0x10000044 8 = true ∧ s.spaceOk 0x0300000000000000 4 = false) := by decide +kernel

theorem meets_FloatResults :
    (let s := on (fr [(3, 0x7F800001), (4, 0x80000000), (5, 1)])
     readsAll s [.fadd .f64 3 4 5, .fsub .f32 3 4 5, .fmul .f16 3 4 5, .fdiv .bf16 3 4 5, .fmin .f32 3 4 5, .fmax .f32 3 4 5,
         .feq .f32 3 4 5, .flt .f32 3 4 5, .fle .f32 3 4 5] [0x80000000, 1] = true ∧
       readsAll s [.fsqrt .f32 3 4, .fclass .f32 3 4, .ftoi .f32 3 4, .ftoiu .f32 3 4, .itof .f32 3 4, .iutof .f32 3 4,
         .fcvt .f64 .f32 3 4] [0x80000000] = true ∧
       s.front (.fma .f32 3 4 5) = .go [0x80000000, 1, 0x7F800001]) ∧
    (on (fr [])).Ready (.fma .f32 31 30 29) := by
  refine ⟨by decide +kernel, ready_on _ _ ⟨rfl, rfl, rfl, rfl⟩ (by decide) rfl rfl (by decide)⟩

/-- A graph with one station of depth 1 whose path to itself is the identity. -/
def graph0 : Graph := ⟨0, 0x10000000, 0x4000, 1, 0, [1], [(0, 0x8000)], [], 0, 0, false⟩
def onG (f : Frame) : State := let s := on f; { s with prog := { s.prog with graphs := tput 0 graph0 s.prog.graphs } }

/-- A record of level 1 of that graph's station, at the frame's own time, for logical core 0. -/
def image0 : List Word := [0x01000000, 0x1000000000000003, 0, 0, 0, 0, 0, 0]

/-- A block of doublewords is read with these words. -/
def blockOk (s s0 : State) (a : Word) (d : List Word) : Bool :=
  s.spaceOk a (8 * d.length) && a.toNat % (8 * d.length) == 0 &&
    match s0.loadWords a d.length with
    | .ok l _ => l == d
    | _ => false

/-- The successor image at an address passes its checks. -/
def imageOk (s : State) (f : Frame) (a : Word) (l : List Word) : Bool :=
  blockOk s s a l && ((Rec.ofWords l).kind == 0 || (Rec.ofWords l).kind == 3) && (Rec.ofWords l).level != 7 && (Rec.ofWords l).fpn == 0 &&
    (Rec.ofWords l).level != 0 && !s.badTarget 0 (Rec.ofWords l) &&
    (s.checkTarget f (Rec.ofWords l).graph (Rec.ofWords l).station (Rec.ofWords l).q1).isNone

/-- The machine with an instruction's descriptor at 1000_0200H in s1 and its successor image at 1000_0100H in s2: the
bytes of the descriptor follow those of the image. -/
def issue (d : List Host.Cell) : State :=
  let s := onG (fr [(1, 0x10000200), (2, 0x10000100)])
  { s with mem := { s.mem with bytes := [(0x10000103, 0x1), (0x10000108, 0x3), (0x1000010F, 0x10)] ++ d } }
def issueF : Frame := fr [(1, 0x10000200), (2, 0x10000100)]
def clear (s : State) (f : Frame) : Bool :=
  !s.parentFull 0 && (s.prog.flights.find? fun x => x.src == .core 0 && s.noRoom x).isNone && f.unacked == 0 && f.rejected.isNone

/-- An entry of the sequencer at its head, and nothing that holds the sequencer back. -/
def seqReady (i : Instr) : Bool :=
  let s := on (fv (en i 5 5) [])
  s.goesOn 0 && (s.top 0).any fun f =>
    f.leader.isNone && f.gang.isNone && f.pending.isNone && f.chunk == 0 && f.seq == [.one (en i 5 5)] && f.streams.toList.all Option.isNone

theorem meets_VectorIssue :
    (let f := fr [(4, 0x10000042)]
     let p := planOf f (shapeOf (.vld 6 1 4 0)) [0x10000042, 0]
     readsAll (on f) [.vld 6 1 4 0] [0x10000042, 0] = true ∧ p.bad = false ∧ p.mismatch = none ∧ p.misaligned = none ∧
       (on { f with hdr := { Header.zero with actions := 0xFFFFFFFF } }).ignores TAG = true) ∧
    (planOf (fr []) (shapeOf (.vld 8 1 4 0)) [0, 0]).bad = true ∧
    (let f := { fr [] with itags := (Vector.replicate 16 0).set 3 2 }
     let p := planOf f (shapeOf (.vadd .f32 1 2 3 0 false)) [0]
     (on f).front (.vadd .f32 1 2 3 0 false) = .go [0] ∧ p.bad = false ∧ p.mismatch = some 3 ∧ p.misaligned = none ∧ (on f).ignores TAG = false) ∧
    (planOf (fr []) (shapeOf (.vld 5 1 4 0)) [0x10000042, 0]).misaligned = some 0x10000042 ∧
    isVector (.vld 5 1 4 0) = true ∧ isLoop (.vld 5 1 4 0) = false := by decide +kernel

theorem meets_VectorEntersSequencer :
    ((on (fr [])).top 0 = some (fr []) ∧ (fr []).vloop = none ∧ ∀ r, (fr []).stream r = none) ∧
    (on (fr [])).front (.vloop 15 31) = .go [0] ∧
    (let f := fun (need count : Nat) => { fr [] with vloop := some ⟨need, count, [], Vector.replicate 16 0⟩ }
     (f 2 0).vloop = some ⟨2, 0, [], Vector.replicate 16 0⟩ ∧ (f 1 0).vloop = some ⟨1, 0, [], Vector.replicate 16 0⟩ ∧
       (f 1 1).vloop = some ⟨1, 1, [], Vector.replicate 16 0⟩) := by decide +kernel

theorem meets_VectorElementwise :
    seqReady (.vdiv .f32 1 2 3 4 false) = true ∧ seqReady (.vabs .f32 1 2 4 true) = true ∧
    (match shapeOf (.vdiv .f32 1 2 3 4 false) with | .elem none (some _) .f32 1 2 (some 3) 4 => true | _ => false) = true ∧
    (match shapeOf (.vabs .i64 1 2 4 true) with | .elem (some _) _ .i64 1 2 none 4 => true | _ => false) = true := by decide +kernel

theorem meets_VectorOtherResults :
    [Instr.vcltu .i8 7 2 3 false, .vext 7 2 0 true, .vmv 1 2 7 false, .vsel 1 2 3 7 false, .vperm 1 2 3 false, .vslide 1 2 0 false,
      .vcmpr 1 2 7 false, .vexpd 1 2 7 false, .vins 1 7 0, .vzero 1, .vbcs 5 1 7, .vredsum .f32 1 2 7 false,
      .vcvt 6 5 1 2 7 false, .vbsc 0 1 2 false, .vbsa 7 1 2 3 true, .vtag 1 15].all seqReady = true ∧
    shapeOf (.vext 7 2 0 true) = .ext 7 2 ∧ shapeOf (.vmv 1 2 7 false) = .mv 1 2 7 ∧ shapeOf (.vsel 1 2 3 7 false) = .sel 1 2 3 7 ∧
    shapeOf (.vperm 1 2 3 false) = .perm 1 2 3 ∧ shapeOf (.vslide 1 2 0 false) = .slide 1 2 ∧ shapeOf (.vcmpr 1 2 7 false) = .cmpr 1 2 7 ∧
    shapeOf (.vexpd 1 2 7 false) = .expd 1 2 7 ∧ shapeOf (.vins 1 7 0) = .ins 1 ∧ shapeOf (.vzero 1) = .zero 1 ∧
    shapeOf (.vbcs 5 1 7) = .bcs 5 1 ∧ shapeOf (.vcvt 6 5 1 2 7 false) = .cvt 6 5 1 2 7 ∧ shapeOf (.vbsc 0 1 2 false) = .bsc 0 1 2 ∧
    shapeOf (.vbsa 7 1 2 3 true) = .bsa 7 1 2 3 ∧ shapeOf (.vtag 1 15) = .tag 1 15 ∧
    (match shapeOf (.vcltu .i8 7 2 3 false), shapeOf (.vredmax .f16 1 2 7 false) with
      | .cmp _ .i8 7 2 3, .red .max .f16 1 2 7 => true
      | _, _ => false) = true := by decide +kernel

theorem meets_VectorMemory :
    (let e := { en (.vld 5 1 4 0) 5 5 with base := 0x1000FFC0 }
     let s := on (fv e [])
     let p := s.planLoad false false 0 4 ((span 0 16).map fun j => e.unitAddr 0 1 e.base 0 j)
     shapeOf e.i = .mem false false 0 5 1 0 0 ∧ s.goesOn 0 = true ∧
       (match p with
         | .ok gs t => gs.length == 4 && (match t.loadNext 0 gs with | .wait _ => true | _ => false) &&
             (match (t.setHart { t.hart with sent := notedBytes [1, 2, 3] }).loadNext 0 gs with | .ok _ _ => true | _ => false)
         | _ => false) = true) ∧
    (let e := fun b => { en (.vsc 5 1 4 0) 5 5 with base := b }
     let s := fun b => on (fv (e b) [])
     let p := fun b => (s b).planStore true false 0 4 ((span 0 16).filterMap fun j => ((e b).unitAddr 0 1 b 0 j).map fun a => (j, a, 7))
     shapeOf (e 0).i = .mem true true 0 5 1 0 0 ∧
       (match p 0x5FFC0 with
         | .ok gs t => waits (t.storeNext 0 gs) && done ((t.setHart { t.hart with sent := notedBytes [1, 2, 3] }).storeNext 0 gs)
         | _ => false) = true ∧
       (match p 0x5FFC4 with | .trap c w => c == ADDRESS && w == 0x60000 | _ => false) = true) := by
  decide +kernel

/-- An engine instruction that meets its clause, and what it then leaves. -/
def issues (i : Instr) (c : List Host.Cell) (d : List Word) (fields : Fields) (p : State → Bool) : Bool :=
  let s := issue c
  decide (s.front i = .go [0x10000200, 0x10000100]) && blockOk s s 0x10000200 d && fields == .ok && imageOk s issueF 0x10000100 image0 &&
    clear s issueF && after (exec i s) fun t => p t && t.hart.pc == 17 && (t.core 0).progress == [⟨0, 0, 0x1000000000000003, 1, none, []⟩]

theorem meets_EngineIssue_copy :
    (let d : List Word := [0x10000400, 0x0200000000010000, 0x10000000040, 0]
     let c : List Host.Cell := [(0x10000201, 0x4), (0x10000203, 0x10), (0x1000020A, 0x1), (0x1000020F, 0x2), (0x10000210, 0x40), (0x10000215, 0x1)]
     issues (.cpy 1 1 2) c d (copyFields d) (fun t => (t.chan 0 1 1).queue.length == 1) &&
       (issue c).operandOk 0x0200000000010000 0x40) = true := by decide +kernel

theorem meets_EngineIssue_stream :
    (let d : List Word := [0x10000400, 2, 8, 0]
     let c : List Host.Cell := [(0x10000201, 0x4), (0x10000203, 0x10), (0x10000208, 0x2), (0x10000210, 0x8)]
     issues (.strmIn 3 1 2) c d (streamFields issueF 31 d) (fun t => (t.top 0).any fun f => (f.stream 31).isSome) &&
       issues (.strmOut 0 1 2) c d (streamFields issueF 28 d) (fun t => (t.top 0).any fun f => f.isOut 28)) = true ∧
    (let d : List Word := [0x0200000000000400, 2, 8, 0]
     let c : List Host.Cell := [(0x10000201, 0x4), (0x10000207, 0x2), (0x10000208, 0x2), (0x10000210, 0x8)]
     issues (.strmIn 3 1 2) c d (streamFields issueF 31 d) (fun _ => true) && (issue c).spaceOk 0x0200000000000408 8) = true := by
  decide +kernel

theorem meets_EngineIssue_gather :
    (let d : List Word := [0x10000400, 0x300000001, 0x10000800, 0, 0x10000C00, 0, 0, 0]
     let c : List Host.Cell := [(0x10000201, 0x4), (0x10000203, 0x10), (0x10000208, 0x1), (0x1000020C, 0x3), (0x10000211, 0x8), (0x10000213, 0x10), (0x10000221, 0xC), (0x10000223, 0x10)]
     issues (.gath 1 2) c d (gatherFields d) (fun t => (t.cluster 0).gathers.length == 1) &&
       issues (.scat 1 2) c d (gatherFields d) (fun t => (t.cluster 0).gathers.any Gather.scatter) &&
       (issue c).gatherOperand 0 d == none) = true := by decide +kernel

theorem meets_EngineIssue_collective :
    (let d : List Word := [0x50, 0, 0x100002000000, 7]
     let c : List Host.Cell := [(0x10000200, 0x50), (0x10000213, 0x2), (0x10000215, 0x10), (0x10000218, 0x7)]
     issues (.coll 1 2) c d ((issue c).collFields d 0) (fun t => t.prog.colls.length == 1) && (issue c).collReach d 0) = true := by
  decide +kernel

theorem meets_EngineIssue_matrix :
    (let d : List Word := [0x123, 0xF, 0, 0]
     let c : List Host.Cell := [(0x10000200, 0x23), (0x10000201, 0x1), (0x10000208, 0xF)]
     readsAll (issue c) [.mxcf 1] [0x10000200] && blockOk (issue c) (issue c) 0x10000200 d &&
       after (exec (.mxcf 1) (issue c)) (fun t => (t.top 0).any fun f => f.mxcfg.toList == d)) = true ∧
    (let d : List Word := [0x140000000, 0x40, 0, 0]
     let c : List Host.Cell := [(0x10000203, 0x40), (0x10000204, 0x1), (0x10000208, 0x40)]
     issues (.mxdr 1 2) c d (drainFields d) (fun t => (t.cluster 0).queue.any TileTask.drain) && !(issue c).drainRange 0 issueF.fd d) = true := by
  decide +kernel

/-- A tile-task record of one row, one column and one K, i8 times i8, without and with a successor. -/
def taskWords (succ : Word) : List Word := [0x0200000000000000, 0x0200000000001000, 0, 0x2200020000, 0x1000000010, 0, 0, succ]
def taskCells : List Host.Cell :=
  [(0x10000207, 0x2), (0x10000209, 0x10), (0x1000020F, 0x2), (0x1000021A, 0x2), (0x1000021C, 0x22), (0x10000220, 0x10), (0x10000224, 0x10)]

theorem meets_EngineIssue_task :
    (readsAll (issue taskCells) [.mxq 1] [0x10000200] && taskFields (taskWords 0) == .ok &&
      blockOk (issue taskCells) (issue taskCells) 0x10000200 (taskWords 0) &&
      (issue taskCells).taskRange 0 issueF.fd (taskWords 0) [0, 0, 0, 0] == none) = true ∧
    after (exec (.mxq 1) (issue taskCells)) (fun t => (t.cluster 0).queue.length == 1 && t.hart.pc == 17) = true ∧
    after (exec (.mxq 1) (issue (taskCells ++ [(0x10000239, 0x1), (0x1000023B, 0x10)])))
      (fun t => (t.cluster 0).queue.any fun x => x.succ.isSome) = true := by decide +kernel

theorem meets_FutureResults :
    (let s := issue []
     s.front (.ftake 1 2) = .go [0x10000200, 0x10000100] ∧ s.front (.fput 1 2) = .go [0x10000200, 0x10000100] ∧
       s.front (.fclr 1) = .go [0x10000200] ∧ clear s issueF = true ∧ imageOk s issueF 0x10000100 image0 = true ∧
       done (s.futureAt 0 0x10000200) = true ∧ s.isEmpty 0x10000200 = false ∧
       after (exec (.fclr 1) s) (fun t => t.isEmpty 0x10000200 && after (exec (.ftake 1 2) t) (fun u =>
         (u.slice (sliceOf 0x10000200)).pantry.length == 1 && after (exec (.fput 1 2) u) fun v =>
           v.prog.flights.any fun x => x.rcd.q6 == 0x10000100)) = true) ∧
    (let s := (issue []).setSlice 5 { Slice.reset with pantry := List.replicate 64 ⟨0, Rec.zero⟩ }
     64 ≤ (s.slice 5).pantry.length) := by decide +kernel

theorem meets_TaskRecordsAndEnd :
    ((claimed { fr [] with claims := [⟨1, 15⟩] }).front .endTask = .go [] ∧ (issue []).front .endTask = .go [] ∧
      clear (issue []) issueF = true ∧ issueF.claims = [] ∧ issueF.draining = [] ∧ issueF.gang = none ∧
      ∀ x ∈ issueF.streams.toList, x = none) ∧
    (let image := [(0x10000203, 0x1), (0x10000208, 0x3), (0x1000020F, 0x10)]
     let s := issue
     let q := fun (q0 q1 : Word) => [q0, q1, 0, 0, 0, 0, 0, (0 : Word)]
     (s image).front (.post 1) = .go [0x10000200] ∧ blockOk (s image) (s image) 0x10000200 image0 = true ∧
       (s image).badTarget 0 (Rec.ofWords image0) = false ∧ (s image).checkTarget issueF 0 0 0x1000000000000003 = none ∧
       after (exec (.post 1) (s image)) (fun t => t.prog.flights.length == 1) = true ∧
       (Rec.ofWords (q 0x07000000 0)).level = 7 ∧ (Rec.ofWords (q 0x11000000 0)).kind = 2 ∧
       (s []).badTarget 0 (Rec.ofWords (q 0xFFC0001000000 0)) = true ∧
       (s []).checkTarget issueF 0 0 0x1000000000000002 = some 3 ∧ (s []).checkTarget issueF 0 1 0x1000000000000003 = some 2 ∧
       (s []).checkTarget issueF 1 0 0x1000000000000003 = some 6 ∧ (s []).checkTarget issueF 0 0 0x2000000000000003 = some 1 ∧
       (s []).front (.ntfy 1) = .go [0x10000200] ∧ (Rec.ofWords (q 0x11000000 0x1000000000000003)).kind = 2 ∧
       after (exec (.ntfy 1) (s [(0x10000203, 0x11), (0x10000208, 0x3), (0x1000020F, 0x10)])) (fun t => (t.core 0).progress.length == 1) = true) := by
  decide +kernel

/-- Entries of n slots: a table that holds them all is full of n entries. -/
def ladder : Nat → List Delta
  | 0 => []
  | n + 1 => ⟨n, 0, 0, 1, none, []⟩ :: ladder n

theorem ladder_slots (n : Nat) : ∀ x ∈ ladder n, x.g < n := by
  induction n with
  | zero => simp [ladder]
  | succ n ih =>
    intro x hx
    rcases List.mem_cons.mp hx with rfl | h
    · exact Nat.lt_succ_self n
    · exact Nat.lt_succ_of_lt (ih x h)

theorem entriesOf_ladder (n : Nat) : entriesOf (ladder n) = n := by
  induction n with
  | zero => rfl
  | succ n ih =>
    have h : joins ⟨n, 0, 0, 1, none, []⟩ (ladder n) = false := by
      simp only [joins, Bool.and_eq_false_iff, List.any_eq_false]
      exact .inr fun x hx => by simp [Nat.ne_of_lt (ladder_slots n x hx)]
    show (if joins _ (ladder n) = true then entriesOf (ladder n) else entriesOf (ladder n) + 1) = n + 1
    rw [if_neg (by rw [h]; decide), ih]

/-- A batch of core 0 waits at its tile's node, which has no room, whatever room it is built with. -/
def stalled (s : State) : State :=
  let t := s.setNode 0 (ladder (Config.nodeRoom 0 + 1))
  { t with prog := { t.prog with batches := [⟨1024, 0, []⟩] } }

theorem meets_TaskRecordsAndEnd_stall :
    (stalled (issue [])).parentFull 0 = true ∧ (stalled (issue [])).front .endTask = .go [] ∧ issueF.claims = [] ∧
      (stalled (issue [])).front (.post 1) = .go [0x10000200] ∧ (stalled (issue [])).front (.ntfy 1) = .go [0x10000200] := by
  refine ⟨?_, by decide +kernel, rfl, by decide +kernel, by decide +kernel⟩
  have hn : (stalled (issue [])).node 0 = ladder (Config.nodeRoom 0 + 1) := by rfl
  have hf : (stalled (issue [])).accepts 0 = false := by
    unfold State.accepts
    rw [hn, entriesOf_ladder, show (ladder (Config.nodeRoom 0 + 1) == []) = false from rfl]
    simp
  show (([⟨1024, 0, []⟩] : List Batch).any fun b => b.src == 1024 + 0 && !(stalled (issue [])).accepts b.dst) = true
  simp [hf]

theorem meets_TaskRecordsAndEnd_more :
    (let s := onG { fr [] with streams := #v[none, none, none, some ⟨0, true, 0x10000040, 8, 2, 0, 0, [7], none, Rec.zero⟩] }
     s.front .endTask = .go [] ∧ clear s { fr [] with streams := #v[none, none, none, some ⟨0, true, 0x10000040, 8, 2, 0, 0, [7], none, Rec.zero⟩] } = true ∧
       after (exec .endTask s) (fun t => t.prog.flights.length == 0 && (t.core 0).frames.length == 1) = true) ∧
    (let s := onG (fr [(1, 0x10000204)])
     s.front (.post 1) = .go [0x10000204] ∧ s.spaceOk 0x10000204 64 = true ∧ (0x10000204#64).toNat % 64 ≠ 0) ∧
    (let s := onG (fr [(1, 0x0300000000000000)])
     s.front (.ntfy 1) = .go [0x0300000000000000] ∧ s.spaceOk 0x0300000000000000 64 = false) ∧
    (let s := { issue [(0x10000203, 0x1), (0x10000208, 0x3), (0x1000020F, 0x10)] with agent := .fe 0 }.setFe 0
        { (fe 1).fe 0 with h := { ((fe 1).fe 0).h with regs := (fr [(1, 0x10000200)]).h.regs } }
     s.front (.post 1) = .go [0x10000200] ∧ blockOk s s 0x10000200 image0 = true ∧ s.mapped (Rec.ofWords image0).tcore = true ∧
       s.checkTargetFe (Rec.ofWords image0) = none ∧
       after (exec (.post 1) s) (fun t => t.prog.flights.length == 1 && (t.root 0).counts.length == 1) = true) := by
  decide +kernel

theorem meets_ClaimAndRelease :
    readsAll (claimed (fr [])) [.claim 2, .claim 3, .claim 15, .rels 0] [] = true ∧
    ((claimed (fr [])).resource 0 2 = 0x80000000 ∧ (claimed (fr [])).resource 0 3 = 0x80000029 ∧ (claimed (fr [])).resource 0 1 = 0) ∧
    (bits (0x3300#64) (4 * 2) 4 = 3 ∧ bits (0x3300#64) (4 * 15) 4 = 0) ∧
    (let f := { fr [] with claims := List.replicate 7 ⟨1, 9⟩ }
     7 ≤ f.claims.length ∧ (claimed f).front (.claim 2) = .go []) ∧
    (let f := { fr [] with claims := [⟨1, 2⟩] }
     (∃ c ∈ f.claims, c.slot = 2) ∧ (claimed f).front (.rels 2) = .go [] ∧ (claimed f).front (.rels 3) = .go []) := by decide +kernel

theorem meets_TimeWords :
    (let s := on (fr [(4, 0x1000000000007FFF), (5, 0xFFFF)])
     s.front (.tadv 3 4 5) = .go [0x1000000000007FFF, 0xFFFF] ∧ s.front (.tcmp 3 4 5) = .go [0x1000000000007FFF, 0xFFFF] ∧
       s.front (.tadvi 3 4 0 0 1) = .go [0x1000000000007FFF]) ∧
    (65536 ≤ (0x10000#64).toNat ∧ advanceTime 0x1000000000007FFF 0x8001 = .inl 4 ∧ advanceTime 0x1000000000007FFE 0x8001 =
      .inr 0x1000000000007FFF ∧ advanceTime 0x5000000000000000 0x8000 = .inl 1 ∧ advanceTime 0 0x9000 = .inl 5) ∧
    (wellFormedTime 0x4000000000000000 = true ∧ wellFormedTime 0x5000000000000000 = false ∧ wellFormedTime 0x0000000000000001 = false) := by
  decide +kernel

theorem meets_TimeOrderTotal :
    (wellFormedTime 0x1000000000000003 = true ∧ wellFormedTime 0x2000000000000003 = true ∧ wellFormedTime 0x4FFFFFFFFFFFFFFF = true) ∧
    timeLt 0x1000000000000003 0x2000000000000003 = true ∧ timeLt 0x2000000000000003 0x4FFFFFFFFFFFFFFF = true := by decide +kernel

theorem meets_CancelResults :
    (let s := on (fr [(4, 0x1000000000000003)])
     s.front (.cnclT 3 4 63) = .go [0x1000000000000003] ∧ s.front (.cnclL 3 4 7) = .go [0x1000000000000003] ∧
       (s.root 0).marks.length < 8 ∧ ∀ m ∈ (s.root 0).marks, sameMark m ⟨0x1000000000000003, 7, false⟩ = false) ∧
    (let s := (on (fr [])).setRoot 0 { Root.reset with marks := [⟨0x1000000000000003, 1, false⟩] }
     ∃ m ∈ (s.root 0).marks, sameMark m ⟨0x2000000000000003, 1, true⟩ = true) ∧
    (let s := (on (fr [])).setRoot 0 { Root.reset with marks := List.replicate 8 ⟨0x1000000000000003, 1, false⟩ }
     8 ≤ (s.root 0).marks.length ∧ ∀ m ∈ (s.root 0).marks, sameMark m ⟨0, 0, false⟩ = false) := by decide +kernel

theorem meets_GangAndOverlay :
    (let f := { fr [] with hdr := { Header.zero with flags := 2 }, overlay := some 0 }
     readsAll (on f) [.gang 3 .tpair, .disband, .ovl 0, .ovl 1, .ovl 1023] [] = true ∧ f.hdr.flags / 2 % 2 = 1 ∧
       ((on f).gangCode 0 f .tpair).1 = 3 ∧ f.gang = none ∧ (on f).codeWords 0 = 0x4000 ∧ f.overlay = some 0) ∧
    (let f := { fr [] with hdr := { Header.zero with flags := 2 }, level := 3, thresh := 3 }
     (((on f).setEntry 12 1 0x8001).setEntry 24 1 0x8000000000000000 |>.gangCode 0 f .pair) = (0, [1])) ∧
    (let f := { fr [] with gang := some ⟨.pair, [0, 1]⟩ }
     let s := (on f).setCore 1 { Core.reset with frames := [{ fr [] with leader := some 0, window := 0 }] }
     s.front .disband = .go [] ∧ ((s.disband 0).top 0).isSome = true ∧ ((s.disband 0).top 1) = none) := by decide +kernel

theorem meets_RegisterValues :
    ((on (fr [])).top 0).isSome = true ∧ ((fe 0).fe 0).priv = 0 ∧ ((fe 1).fe 0).priv ≠ 0 ∧
    readsAll (on (fr [])) [.mfs 3 0x000, .mfs 3 0xFFF] [] = true ∧ (on (fr [])).sysReg 0xFFF = none ∧
    ((on (fr [])).sysReg 0x000).isSome = true ∧ (on (fr [(4, 7)])).front (.mts 0x020 4) = .go [7] ∧
    ((on (fr [])).setSysReg 0x020 7).isSome = true ∧ (on (fr [])).setSysReg 0x033 7 = none := by decide +kernel

theorem meets_SystemResults :
    readsAll (on (fr [])) [.opreq 15, .opreqAuto, .ifence, .trap 0xFFF, .brk 0xFFF] [] = true ∧
    ((on (fr [])).ignores USER = false ∧ (on (fr [])).ignores BRK = false) ∧
    (let s := on { fr [] with hdr := { Header.zero with actions := 0xFFFFFFFF } }
     s.ignores USER = true ∧ s.ignores BRK = true) ∧
    (let s := fun (p : Nat) => { fe p with agent := .fe 0 }
     (s 1).front .ifence = .go [] ∧ (s 1).front (.pmpw 15 0) = .go [0] ∧ badRegion 0 = false ∧ badRegion 0x8000000000000000 = true ∧
       bit (((s 1).fe 0).regions.get 15) 62 = false ∧
       bit (0x4000000000000000#64) 62 = true ∧ ((s 2).fe 0).priv = 2) := by decide +kernel

/-! The steps of the part. -/

/-- A record of a level at that graph's station for logical core 0, with a header at its entry. -/
def rec0 (level kind entry : Nat) : Rec := { ((Rec.zero.set 24 3 level).set 27 3 kind).set 0 24 entry with q1 := 0x1000000000000003 }
def queued (r : Rec) (arrival : Nat) : Queued := ⟨r, arrival, false, false, false, none⟩

/-- Logical core 0 with no frame, a record on its way, and one in its inbox. -/
def idle (c : Core) (l : List Flight) : State :=
  let s := (onG (fr [])).setCore 0 c
  { s with
    prog := { s.prog with flights := l }
    mem := { s.mem with bytes := [(0x10000040, 0x5C), (0x10000041, 0x7A), (0x10000042, 0x60), (0x10000043, 0x09), (0x10000044, 32),
      (0x10000045, 0x70)] } }
def flightTo (d : Dest) (r : Rec) : Flight := ⟨r, .root 0, d, false, false, false⟩

/-- A step of the part brings this about. -/
def brings (o : Out) (p : State → Bool) : Prop := after o p = true

/-- Case 1 of chapter 7 (R96, R148): of the records that wait, the highest level is first, then the earliest time, then the
lowest arrival; one whose footprint is not fetched does not count. -/
theorem test_admission_order :
    (let q := fun (level : Nat) (t : Word) (arrival fpn : Nat) => queued ({ (rec0 level 0 0x20).set 30 2 fpn with q1 := t }) arrival
     let a := q 3 0x1000000000000005 10 0
     let b := q 3 0x1000000000000004 11 1
     let c := q 4 0x1000000000000009 12 0
     let d := q 3 0x1000000000000004 13 0
     let at' := fun l => ((idle { Core.reset with inbox := l } []).firstEligible 0).map Prod.fst
     (at' [(28, a), (29, b), (30, c), (31, d)], at' [(28, a), (29, b), (31, d)])) =
    (some 30, some 31) := by decide +kernel

theorem meets_RecordMovement_core :
    (let x := flightTo (.core 0) (rec0 1 0 0x20)
     let s := idle Core.reset [x]
     (s.prog.flights[0]? == some x && s.foremost 0 x && s.mapped 0 && !s.heldCore 0 && s.recordOk x.rcd && !s.marked 0 x.rcd.q1) = true ∧
       brings (exec (.recordArrival 0) s) (fun t => (t.core 0).inbox.length == 1 && t.prog.flights == []) ∧
       brings (exec (.recordArrival 0) (s.setRoot 0 { Root.reset with marks := [⟨0, 0, false⟩] }))
         (fun t => (t.core 0).inbox == [] && (t.node 288).length == 1 && t.counter cCNCLDROP 0 == 1)) ∧
    (let x := flightTo (.core 0) (rec0 0 0 0x20)
     let s := idle Core.reset [x]
     s.recordOk x.rcd = false ∧ brings (exec (.recordArrival 0) s) (fun t => t.counter cBADREC 0 == 1)) ∧
    (let x := flightTo (.device 1) (rec0 1 0 0)
     let s := (idle Core.reset [x]).setEntry 14 1 1
     (s.foremost 0 x && s.routed 1 && !s.marked x.rcd.graph x.rcd.q1) = true ∧ s.routed 2 = false) ∧
    (let x := flightTo (.core 5) (rec0 1 0 0x20)
     let s := idle Core.reset [x]
     (s.foremost 0 x && !s.mapped 5 && !s.awaitsRestore 5) = true ∧
       brings (exec (.recordArrival 0) s) (fun t => t.prog.flights == [] && t.counter cFDROP 0 == 1)) := by
  unfold brings; decide +kernel

theorem meets_RecordMovement_landing :
    (let x := flightTo (.landing 0 0) (rec0 1 0 0x20)
     let s := idle Core.reset [x]
     (s.foremost 0 x && s.recordOk x.rcd && !s.marked 0 x.rcd.q1 && (s.land 0 0 x.rcd x.marked).isSome) = true ∧
       brings (exec (.landingArrival 0) s) (fun t => (t.landing 0 0).recs.length == 1) ∧
       brings (exec (.landingArrival 0) (s.setRoot 0 { Root.reset with marks := [⟨0, 0, false⟩] })) (fun t => t.counter cCNCLDROP 0 == 1) ∧
       brings (exec (.landingArrival 0) (idle Core.reset [flightTo (.landing 0 0) (rec0 7 0 0)])) (fun t => t.counter cBADREC 0 == 1)) ∧
    (let s := (idle Core.reset []).setLanding 0 0 { Landing.reset with recs := [⟨rec0 1 0 0x20, 0, false, none⟩], subs := [0] }
     brings (exec (.landingHandoff 0 0) s) (fun t => t.prog.flights.length == 1 && tget 0 (t.landing 0 0).handed 0 == 1)) := by
  unfold brings; decide +kernel

theorem meets_RecordMovement_front_end :
    (let s := idle Core.reset []
     let s1 := { s with prog := { s.prog with held7 := [(0, rec0 7 4 0x20)], deliveries := [⟨1, rec0 7 4 0x20⟩], late := [⟨0, ⟨0, 0, false⟩, 0⟩] } }
     brings (exec (.level7Retry 0) s1) (fun t => t.prog.held7 == [] && (t.core 0).inbox.length == 1) ∧
       brings (exec .trapDeliveryInject s1) (fun t => t.prog.deliveries == [] && t.prog.flights.length == 1) ∧
       brings (exec (.deferredCancelInstall 0) s1) (fun t => t.prog.late == [] && (t.root 0).marks.length == 1)) := by
  unfold brings; decide +kernel

/-- Where a record goes: a shared entry, an entry of its level, the spill ring, and no place. -/
theorem meets_RecordMovement_place :
    (let q := queued (rec0 1 0 0) 0
     let full := fun (l : List Nat) => { Core.reset with inbox := l.map fun i => (i, q) }
     (full []).freeEntry 6 = some 28 ∧ (full (span 28 36)).freeEntry 6 = some 20 ∧ (full (span 20 44)).freeEntry 6 = none ∧
       ({ full [] with spill := [q] }.spill.any fun x => x.rcd.level == 1) = true ∧ (full []).spill.length < 1024 ∧
       1024 ≤ ({ full (span 20 44) with spill := List.replicate 1024 q } : Core).spill.length) := by decide +kernel

theorem meets_AdmissionAndFootprints_admission :
    (let s := fun (r : Rec) => idle { Core.reset with inbox := [(28, queued r 5)] } []
     ((s (rec0 2 0 0x20)).active 0 && ((s (rec0 2 0 0x20)).sweepInbox 0).core 0 == { Core.reset with inbox := [(28, queued (rec0 2 0 0x20) 5)] }
         && (s (rec0 2 0 0x20)).firstEligible 0 == some (28, queued (rec0 2 0 0x20) 5)
         && (match (s (rec0 2 0 0x20)).readHeader 0 (rec0 2 0 0x20) with | .bytes h _ => headerReason h (rec0 2 0 0x20) false == none | _ => false)) = true ∧
       brings (exec (.admission 0) (s (rec0 2 0 0x20))) (fun t => (t.top 0).any fun f => f.h.pc == 0x20 && f.level == 2 && f.window == 32) ∧
       brings (exec (.admission 0) (s (rec0 2 1 0))) (fun t => (t.top 0).any fun f => f.kind == 1) ∧
       brings (exec (.admission 0) (s (rec0 2 0 0x21))) (fun t => t.counter cENTRYF 0 == 1 && (t.core 0).frames == [])) ∧
    (let r := { (rec0 2 0 0x20).set 30 2 2 with q6 := 0x0004000000400001#64, q7 := 0x6000000000400001#64 }
     let s := idle { Core.reset with inbox := [(28, queued r 5)] } []
     s.needs 0 r 0 = 0x60040 ∧ s.wantSlot 0 = [] ∧
       brings (exec (.admission 0) s) (fun t => t.counter cENTRYF 0 == 1 && (t.core 0).frames == [])) ∧
    (let s := idle { Core.reset with frames := [{ fr [] with thresh := 6 }], inbox := [(28, queued (rec0 6 0 0x20) 5)] } []
     (s.core 0).thresh = 6 ∧ brings (exec (.admission 0) s) (fun t => (t.core 0).frames.length == 1)) ∧
    (let s := on { fr [] with unl := false, left := 0 }
     brings (exec (.budgetExpire 0) s) (fun t => t.counter cBUDGETX 0 == 1 && (t.core 0).frames == [])) := by
  unfold brings; decide +kernel

theorem meets_AdmissionAndFootprints_footprint :
    (let r := { (rec0 2 0 0x20).set 30 2 1 with q7 := 0x0004000000400001#64 }
     let s := (idle { Core.reset with inbox := [(28, queued r 5)] } []).fillXlat ⟨1024, 0, 0x1000, 0x1000007B, 3⟩
     r.footprint = [(1, 0x10000040)] ∧
       brings (exec (.footprintFetchStart 0) s) (fun t => (t.core 0).foot.length == 1 && !(t.core 0).foot.any FootSlot.pinned) ∧
       footAt r.footprint [(0, 64)] 0 = some (0x10000040, 0x10000040, 0) ∧ footAt r.footprint [(0, 64)] 64 = none ∧
       brings (exec (.footprintPinned 0 0) (s.setCore 0 { s.core 0 with foot := [⟨0, 5, [(0, 64)], 0, false, none⟩] }))
         (fun t => (t.core 0).foot.any (fun f => f.fetched == 64) && byteAt t.mem.cellar 0 == 0x5C) ∧
       brings (exec (.footprintPinned 0 0) (s.setCore 0 { s.core 0 with foot := [⟨0, 5, [(0, 64)], 64, false, none⟩] }))
         (fun t => (t.core 0).foot.any FootSlot.pinned) ∧
       brings (exec (.footprintPinned 0 0) ((s.strike (.line 0x10000040)).setCore 0 { s.core 0 with foot := [⟨0, 5, [(0, 64)], 0, false, none⟩] }))
         (fun t => (t.core 0).foot.any fun f => f.pinned && f.fault == some (DATA, 0x10000040))) := by
  unfold brings; decide +kernel

theorem meets_AdmissionAndFootprints_governor :
    (let s := idle Core.reset []
     s.landingsOf 1 = [] ∧ s.landingsOf 0 = [(0, 0)] ∧
       (let t := (s.setLanding 0 0 { Landing.reset with recs := [⟨rec0 1 0 0x20, 0, false, none⟩] })
        (t.wants (0, 0) && !t.offers (0, 0) && (t.pool (0, 0)).take 1 == [0]) = true ∧
          brings (exec (.stageGovernorEval 0) t) (fun u => (u.landing 0 0).subs.length == 1))) := by
  unfold brings; decide +kernel

theorem meets_FrameAtAdmission : (rec0 2 0 0x20).kind ≠ 1 ∧ hdrField (2 ^ 37) 4 1 = 32 := by decide +kernel

theorem meets_ProgressSteps :
    (let d : Delta := ⟨0, 0, 0x1000000000000003, 1, none, []⟩
     let e : Delta := ⟨8, 0, 0x1000000000000003, 1, none, []⟩
     let s := idle { Core.reset with progress := [d] } []
     let b := fun (l : List Batch) => { s with prog := { s.prog with batches := l } }
     brings (exec (.progressFlushDeadline 0) s) (fun t => (t.core 0).progress == [] && t.prog.batches == [⟨1024, 0, [d]⟩]) ∧
       brings (exec (.treeBatchArrival 0) (b [⟨1024, 295, [d]⟩])) (fun t => t.node 295 == [d] && t.prog.batches == []) ∧
       brings (exec (.treeNodeForward 287) (s.setNode 287 [d])) (fun t => t.prog.batches == [⟨287, 295, [d]⟩]) ∧
       brings (exec (.treeNodeForward 288) ((s.flush 0).setNode 288 [d, { d with n := -1, st := 1 }, e])) (fun t => t.prog.batches.length == 3 && t.node 288 == []) ∧
       brings (exec (.treeNodeForward 288) ((b [⟨289, 296, [d]⟩]).setNode 288 [{ d with n := -1 }, e]))
         (fun t => t.prog.batches.length == 2 && t.node 288 == [{ d with n := -1 }]) ∧
       ((b [⟨288, 296, [d]⟩]).homed 0 = true ∧ (b [⟨288, 296, [d]⟩]).batchFirst 0 ⟨288, 296, [d]⟩ = true ∧
         (b [⟨288, 296, [d]⟩]).rootTakes 0 ⟨288, 296, [d]⟩ = true ∧
         brings (exec (.rootApplyBatch 0) (b [⟨288, 296, [d]⟩])) (fun t => (t.root 0).counts.length == 1 && t.prog.batches == [])) ∧
       brings (exec (.frontierAnnounce 0 0 7) (s.setRoot 0 { Root.reset with counts := [(stKey 0 0x1000000000000003, 1)] }))
         (fun t => tget none (t.die 7).frontiers 0 == some 0x1000000000000003)) := by
  unfold brings; decide +kernel

/-- The same, with the page in the TLB of the core's cluster. -/
def onE (f : Frame) : State := (onG f).fillXlat ⟨1024, 0, 0x1000, 0x1000007B, 3⟩
def succ0 : Rec := Rec.ofWords image0
def copy0 (src : Word) (len : Nat) (arm : Bool) : CopyDesc := ⟨src, 0x0200000000001000, len, arm, succ0⟩
def copying (src : Word) (reach : Nat) (fault : Option Nat) (moved : Table Bool) : CopyOp :=
  ⟨copy0 src 16 false, moved, 0, reach, fault, none, false⟩
def sent1 (t : State) : Bool := t.prog.flights.length == 1

theorem meets_EngineSteps_copy :
    (let s := onE (fr [])
     let c := fun (x : Chan) => s.setChan 0 1 0 x
     let q := fun (d : CopyDesc) => c ⟨none, [d]⟩
     s.enginesRun 0 = true ∧
       brings (exec (.copyStart 0 1 0) (q (copy0 0x10000040 0 false))) (fun t => sent1 t && t.chan 0 1 0 == ⟨none, []⟩) ∧
       brings (exec (.copyStart 0 1 0) (q (copy0 0x10000040 16 false))) (fun t => (t.chan 0 1 0).cur == some (copying 0x10000040 0 none [])) ∧
       (spaceOf (0x0200000000001000 : Word) 16 = .window s.devid.toNat 0 0x1000 ∧
         ((q (copy0 0x10000040 16 true)).takeArm 0 ⟨0x1000, 0x1010, 0x1000⟩).isSome = true ∧
         brings (exec (.copyStart 0 1 0) (q (copy0 0x10000040 16 true))) (fun t => (t.chan 0 1 0).cur.any fun op => op.arm == some (0, 0))) ∧
       (let x : Issuer := ⟨chanKey 0 1 0, 0, 0, (s.fnOf succ0.graph)⟩
        let op := copying 0x10000040 1 none []
        let away := (c ⟨some (copying 0x50000040 1 none []), []⟩).fillXlat ⟨1024, 0, 0x5000, 0x10000023, 3⟩
        let note := fun (s : State) => s.noteEng x.key ⟨0x10000040, 4, false, some (.data (List.replicate 16 5))⟩
        let held := fun (op : CopyOp) => note ((s.setCore 0 { s.core 0 with arms := (s.core 0).arms.set 0 (some ⟨0x1000, 0x1010, 0x1000⟩) }).setChan 0 1 0 ⟨some op, []⟩)
        ((c ⟨some op, []⟩).copyTurn x op 0 && away.copyTurn x (copying 0x50000040 1 none []) 0) = true ∧
          (match (c ⟨some op, []⟩).engRead x 0x10000040 16, (note (c ⟨some op, []⟩)).engMove x 0x10000040 0x0200000000001000 16 with
            | .ok _ _, .ok _ _ => true
            | _, _ => false) = true ∧
          (match ((c ⟨some op, []⟩).strike (.line 0x10000040)).engMove x 0x10000040 0x0200000000001000 16 with | .bad _ => true | _ => false) = true ∧
          (match away.engMove x 0x50000040 0x0200000000001000 16 with | .fault _ => true | _ => false) = true ∧
          brings (exec (.copyGranule 0 1 0 0) (c ⟨some op, []⟩)) (fun t => t.prog.eng.length == 1 && (t.chan 0 1 0).cur == some op) ∧
          brings (exec (.copyGranule 0 1 0 0) (note (c ⟨some op, []⟩))) (fun t => byteAt t.mem.cellar 0x1000 == 5 && t.prog.eng == [] &&
            (t.chan 0 1 0).cur.any fun y => y.moved == [(0, true)]) ∧
          brings (exec (.copyGranule 0 1 0 0) (held { op with arm := some (0, 0) })) (fun t => (t.core 0).arms.get 0 == none &&
            (t.chan 0 1 0).cur.any fun y => y.arm == none && y.moved == [(0, true)]) ∧
          brings (exec (.copyComplete 0 1 0) (held { copying 0x10000040 1 none [(0, true)] with arm := some (0, 0) }))
            (fun t => sent1 t && (t.core 0).arms.get 0 == none) ∧
          brings (exec (.copyGranule 0 1 0 0) ((c ⟨some op, []⟩).strike (.line 0x10000040)))
            (fun t => (t.chan 0 1 0).cur.any fun y => y.moved == [(0, false)] && y.skipped == 1) ∧
          brings (exec (.copyGranule 0 1 0 0) away) (fun t => (t.chan 0 1 0).cur.any fun y => y.fault == some 0)) ∧
       brings (exec (.copyComplete 0 1 0) (c ⟨some (copying 0x10000040 1 none [(0, true)]), []⟩)) (fun t => sent1 t && (t.chan 0 1 0).cur == none) ∧
       brings (exec (.copyComplete 0 1 0) (c ⟨some (copying 0x10000040 1 (some 0) []), []⟩)) (fun t => sent1 t && (t.chan 0 1 0).cur == none)) := by
  unfold brings; decide +kernel

def stream0 (out : Bool) (n used : Nat) (fifo : List Word) : Stream := ⟨0, out, 0x10000040, 8, n, 0, used, fifo, none, succ0⟩
def streamed (x : Stream) : Frame := { fr [] with streams := #v[some x, none, none, none] }

theorem meets_EngineSteps_stream :
    (let s := fun x => onE (streamed x)
     let y : Issuer := ⟨streamKey 0 (stream0 false 2 0 []), 0, 0, (onG (fr [])).fnOf succ0.graph⟩
     (s (stream0 false 2 0 [])).frameAt 0 1 = some (streamed (stream0 false 2 0 [])) ∧
       (match (s (stream0 false 2 0 [])).engRead y 0x10000040 8 with | .ok _ t => (t.frameAt 0 1).isSome | _ => false) = true ∧
       (match (s (stream0 true 2 0 [7])).engWrite y 0x10000040 (leBytes 8 7) with | .ok _ t => (t.frameAt 0 1).isSome | _ => false) = true ∧
       brings (exec (.streamElement 0 1 0) (s (stream0 false 2 0 []))) (fun t => (t.frameAt 0 1).any fun f => f.stream 28 == some { stream0 false 2 0 [0] with moved := 1 }) ∧
       brings (exec (.streamElement 0 1 0) (s (stream0 true 2 0 [7]))) (fun t => byteAt t.mem.bytes 0x10000040 == 7) ∧
       brings (exec (.streamElement 0 1 4) (onG { fr [] with draining := [stream0 true 1 1 []] })) sent1 ∧
       ((s (stream0 false 2 0 [9])).popRead 0 28).prog.flights = [] ∧
       (let t := (s (stream0 false 2 1 [9])).popRead 0 28
        (sent1 t && (t.top 0).any fun g => (g.stream 28).isNone && g.h.reg 28 == 9) = true)) := by
  unfold brings; decide +kernel

theorem meets_EngineSteps_gather :
    (let g := fun n : Word => (⟨0, false, words8 [0x10000040, n + 0x300000000, 0x10000000, 0, 0x10000080], 0, 1, 0, succ0, 0, 0, false⟩ : Gather)
     let s := fun n : Word => (((onE (fr [])).noteEng (gatherKey (g n)) ⟨0x10000040, 5, false, some (.data [0, 0, 0, 0])⟩).noteEng
       (gatherKey (g n)) ⟨0x10000000, 4, false, some (.data [0, 0, 0, 0, 0, 0, 0, 0])⟩).setCluster 0 { Cluster.reset with gathers := [g n] }
     ((s 2).gatherStep ⟨gatherKey (g 2), 0, 0, (s 2).fnOf succ0.graph⟩ (g 2)).1 = { g 2 with moved := 1 } ∧
       brings (exec (.gatherScatterElement 0 0) (s 2)) (fun t => (t.cluster 0).gathers == [{ g 2 with moved := 1 }]) ∧
       brings (exec (.gatherScatterElement 0 0) (s 1)) (fun t => sent1 t && (t.cluster 0).gathers == [])) := by
  unfold brings; decide +kernel

theorem meets_EngineSteps_collective :
    (let p := fun (lc : Nat) (l : List Word) => (⟨0, lc, 1, words4 l, [], succ0⟩ : Contribution)
     let one : List Word := [0x51, 0, 0x1000000000 + 0x200000000000000, 0]
     let at_ := fun (l : List Contribution) (got : Table (Option (BitVec 128))) (put : List Nat) =>
       let s := (onE (fr [])).setEntry 12 1 0x8001
       { s with prog := { s.prog with colls := [⟨0, 0, 0, l, got, put⟩] } }
     let s := fun (l : List Contribution) => at_ l [] []
     let a : List Word := [0x51, 0x400, 0x40000000000, 0]
     let b : List Word := [0x52, 0x400, 0x40000000000, 0]
     (Collective.full ⟨0, 0, 0, [p 0 one], [], []⟩ && (s []).enginesRun 0 && (s []).enginesRun 1 && !(s []).shut 0 && !(s []).shut 1
         && Collective.full ⟨0, 0, 0, [p 1 a, p 0 a], [], []⟩ && !sameColl (p 0 a) (p 1 b)) = true ∧
       brings (exec (.collectiveComplete 0) (at_ [p 1 a, p 0 a] [(0, some 1)] [])) (fun t => (t.prog.colls.map Collective.got) == [[(0, some 1), (65536, some 0)]]) ∧
       brings (exec (.collectiveComplete 0) (at_ [p 1 a, p 0 a] [(0, some 1), (65536, some 2)] [0]))
         (fun t => t.prog.flights.length == 2 && t.prog.colls == [] && byteAt t.mem.cellar 0x100000 == 1) ∧
       brings (exec (.collectiveComplete 0) (s [p 1 b, p 0 a])) (fun t => t.prog.flights.length == 2 && t.prog.colls == []
         && t.mem.cellar == [])) := by
  unfold brings; decide +kernel

def task0 (w3 : Word) : TileTask := taskOf false 0 (fr []) [0x0200000000000000, 0x0200000000001000, 0, w3, 0x1000000010, 0, 0, 0] none
def ran (t : TileTask) (o : Option (Nat × Nat × Nat)) : State :=
  let s := onE (fr [])
  let x := s.tile 0
  (s.setTile 0 { x with run := some t }).setBank 0 0 { Bank.reset with tag := o }

/-- An M = N = 1, K = 4 task of Int8: it runs, ends, drains, fails. -/
theorem meets_TileTaskSteps :
    (let t := task0 0x2200020000
     let d := task0 0x42200020000
     let u := { d with ksteps := 1 }
     let s := fun t => ran t (some (0, 0, 1))
     let q := fun (l : List TileTask) (cl : Nat) => (onE (fr [])).setCluster cl { Cluster.reset with queue := l }
     ((s t).engineRuns 0 t && t.stoppable && !(s t).operandWaits 0 && (((s t).tile 0).bankOf 0 0 1 == some 0) && !(((s t).tile 0).bank 0).bad) = true ∧
       t.unread 0 4 = [0, 256] ∧ ({ t with seen := [(256, 0)] } : TileTask).unread 0 4 = [0] ∧
       brings (exec (.matrixKStep 0) (s { t with seen := [(256, 0)] })) (fun x => (x.tile 0).run.any fun y => y.ksteps == 0 && y.seen.length == 2) ∧
       brings (exec (.matrixKStep 0) (s { t with seen := [(0, 0), (256, 0)] })) (fun x => (x.tile 0).run.any fun y => y.ksteps == 1) ∧
       brings (exec (.matrixKStep 0) ((s { t with seen := [(256, 0)] }).strike (.cellar 0 0))) (fun x => (x.tile 0).run.any fun y => y.code == 3 && y.skipped == 8192) ∧
       brings (exec (.tileTaskComplete 0) (s { t with code := 3 })) (fun x => (x.tile 0).run.isNone) ∧
       brings (exec (.tileTaskComplete 0) (s { t with ksteps := 1 })) (fun x => (x.tile 0).run.isNone) ∧
       brings (exec (.matrixDrain 0) ((s u).setCluster 0 { Cluster.reset with chains := [⟨0, 1, 0, 0, 0, false, false⟩] })) (fun x => (x.tile 0).run.isNone && (x.tile 0).bankOf 0 0 1 == none) ∧
       (((span 0 8).findSome? fun x => (q [t] 0).tryResume 0 x) = none ∧ ((q [t] 0).tryIssue 0 0 t).isSome = true ∧
         brings (exec (.tileTaskIssue 0) (q [t] 0)) (fun x => (x.cluster 0).queue == [] && (x.tile 0).run.isSome)) ∧
       (let h := (ran t (some (0, 0, 1))).setTile 0 { (ran t (some (0, 0, 1))).tile 0 with run := none, held := [{ t with ksteps := 1, issued := true }] }
        let c := h.setCluster 0 { Cluster.reset with chains := [⟨0, 1, 0, 0, 0, false, false⟩] }
        ((span 0 8).findSome? fun x => c.tryResume 0 x).isSome = true ∧
          brings (exec (.tileTaskIssue 0) c) (fun x => (x.tile 0).run.isSome && (x.tile 0).held == [])) ∧
       (wrongClass 3 t = true ∧ brings (exec (.tileTaskForward 3) (q [t] 3)) (fun x => (x.cluster 3).queue == [] && (x.cluster 2).queue.length == 1))) := by
  unfold brings; decide +kernel

/-- A table of one leaf at each level, for context 0: page 1000_0000H of 64 KiB, at 1000_1000H on. -/
def tabled : State :=
  let s := (onG (fr [])).setEntry 11 0 0x8000000010002000#64
  { s with mem := { s.mem with tlb := [], bytes := [(0x10002000, 0x01), (0x10002001, 0x40), (0x10002003, 0x10), (0x10004000, 0x01),
      (0x10004001, 0x60), (0x10004003, 0x10), (0x10006020, 0x01), (0x10006021, 0x80), (0x10006023, 0x10), (0x10008000, 0x7B),
      (0x10008002, 0x02), (0x10008003, 0x10), (0x10020000, 0x5C)] } }

theorem meets_TranslationSteps :
    (let s := tabled
     let q := fun (l : List Walk) => { s with mem := { s.mem with walks := l } }
     let va : Word := 0x10000000
     s.leafAt va.toNat [0, 1, 2, 3] 0x10002000 = some (0x10008000, 0x1002007B, 3) ∧
       brings (exec (.leaseTick 0) s) (fun t => (t.core 0).lease == 1) ∧
       (let m := fun (t : State) => { t with mem := { t.mem with misses := [⟨0, 0, 0, 0x1000⟩] } }
        let w : Walk := ⟨0, 0, 0x1000, [1024], false⟩
        brings (exec (.pageWalk 0 0 va) (m s)) (fun t => t.mem.walks == [⟨0, 0, 0x1000, Miss.waiters ⟨0, 0, 0, 0x1000⟩, false⟩] && t.mem.misses == []) ∧
          brings (exec (.pageWalk 0 0 va) (m (q [w]))) (fun t => t.mem.walks == [{ w with waiters := 1024 :: Miss.waiters ⟨0, 0, 0, 0x1000⟩ }]) ∧
          brings (exec (.pageWalk 0 0 va) (m (q (List.replicate 1152 ⟨0, 1, 0, [7], false⟩)))) (fun t => t.counter cWALKQ 0 == 1) ∧
          brings (exec (.walkComplete 0 0) (q [w])) (fun t => t.mem.walks == [] && t.mem.tlb.any fun x => x.holder == 1024) ∧
          brings (exec (.walkComplete 0 0) (q [{ w with page := 0, waiters := [0] }])) (fun t => t.mem.faults == [⟨0, 0, 0, ADDRESS⟩]) ∧
          brings (exec (.walkComplete 0 0) ((q [{ w with waiters := [0] }]).strike (.line 0x10008000)))
            (fun t => t.counter cWALKUE 0 == 1 && t.mem.faults == [⟨0, 0, 0x1000, DATA⟩])) ∧
       (let g := (s.setEntry 8 0 va).setEntry 9 0 16
        brings (exec (.shootdownGo 0) g) (fun t => sdBusy (t.entry 9 0)) ∧
          brings (exec (.shootdownGo 0) (g.setEntry 9 0 15)) (fun t => bits (t.entry 9 0) 6 2 == 2) ∧
          brings (exec (.shootdownGo 0) (g.setEntry 9 0 57)) (fun t => bits (t.entry 9 0) 6 2 == 2) ∧
          (let a := fun (l : List Nat) => { (g.setEntry 9 0 0x4000000000000010#64).fillXlat ⟨1024, 0, 0x1000, 0x1002007B, 3⟩ with
              shootdowns := tput 0 ⟨0x10000000, 16, 0, l⟩ g.shootdowns }
           (a [1024]).mayAck 1024 0 = true ∧
             brings (exec (.shootdownAck 0 1024) (a [0, 1024])) (fun t => t.mem.tlb == [] && (tfind t.shootdowns 0).any fun x => x.missing == [0]) ∧
             brings (exec (.shootdownAck 0 1024) (a [1024])) (fun t => !sdBusy (t.entry 9 0) && bits (t.entry 9 0) 6 2 == 1))) ∧
       (let m : Migration := ⟨0, 0x10000000, 16, 0x10008000, 0x10020000, 0x10030000, 0, 0⟩
        let go := fun (m : Migration) => s.setMigrations [m]
        (bit (s.entry 11 0) 63 && !sdBusy (s.entry 9 0) && (pageChunks 0x10030000 65536).all (s.populated 0) &&
            !(pageChunks 0x10020000 65536).any s.portFailed && s.isLocal [0x10020000] && s.isLocal [0x10030000]) = true ∧
         sdBusy ((s.setEntry 9 0 0x4000000000000010#64).entry 9 0) = true ∧
         brings (exec (.tierMigration 0 va 0x10030000 0) s) (fun t => t.mem.migrations == [m] && byteAt t.mem.bytes 0x10008000 == 0xFB) ∧
         brings (exec (.tierMigration 0 va 0x10030000 0) (go m)) (fun t => byteAt t.mem.bytes 0x10030000 == 0x5C && t.mem.migrations == [{ m with moved := 65536 }]) ∧
         brings (exec (.tierMigration 0 va 0x10030000 0) (go { m with moved := 65536 })) (fun t => t.mem.migrations == [] && byteAt t.mem.bytes 0x10008002 == 3) ∧
         brings (exec (.tierMigration 0 va 0x10030000 0) ((go m).setSlice 0 { s.slice 0 with pantry := [⟨0x10020000, succ0⟩] }))
           (fun t => t.counter cMIGABN 0 == 1 && byteAt t.mem.bytes 0x10008002 == 2))) := by
  unfold brings; decide +kernel

/-- Logical core 0 as a frame of an unacknowledged store and a request that has left. -/
def asked (r : RemoteReq) : State :=
  let s := (onG { fr [] with unacked := 1 }).setEntry 15 0 2
  { s with prog := { s.prog with remote := [r] } }

theorem meets_RemoteSteps :
    (let s := asked ⟨0, 1, 0x0200000100001000, .load 8⟩
     let w := asked ⟨0, 1, 0x0200000100001000, .store [5]⟩
     let rx := fun (s : State) (src : Nat) (m : Msg) => { s with prog := { s.prog with rx := [⟨0, src, 1, m⟩] } }
     let a : Word := 0x0200000000001000
     let own := fun (s : State) (a : Word) (op : RemoteOp) (p : State → Bool) =>
       match s.ownAccess 1 0 a op with
       | .done true _ t => p t
       | _ => false
     (spaceOf a 1 = .window s.devid.toNat 0 0x1000 ∧ s.admits 0 2 = false ∧
       (s.admits 0 1 && s.mapped 0 && !s.shut 0 && s.storableCellar [0x1000] && !s.armedAt 0 0x1000 1 && !s.anyBadCellar [0x1000]) = true ∧
       own s a (.store [5]) (fun t => t.mem.cellar == [(0x1000, 5)]) = true ∧ own s a (.nibble true 5) (fun t => t.mem.cellar == [(0x1000, 0x50)]) = true ∧
       (match s.ownAccess 2 0 a (.store [5]), (s.setEntry 12 0 0xC000).ownAccess 1 0 a (.store [5]) with
         | .reject, .wait => true
         | _, _ => false) = true ∧
       brings (exec (.remoteAccessArrival 2 0 a (.store [5])) (rx s 2 (.access 0 1 a (.store [5])))) (fun t => t.mem.cellar == [] && t.prog.rx == []) ∧
       brings (exec (.remoteAccessArrival 1 0 a (.store [5])) (rx s 1 (.access 0 1 a (.store [5])))) (fun t => t.mem.cellar == [(0x1000, 5)]) ∧
       brings (exec (.remoteAccessArrival 1 0 a (.store [5])) (rx (s.setEntry 12 0 0xC000) 1 (.access 0 1 a (.store [5])))) (fun t => t.prog.rx.length == 1)) ∧
     ((s.populated 0 0x10000040 && !s.portFailed 0x10000040 && s.storable [0x10000040] && !s.anyBad [0x10000040]) = true ∧
       own s 0x10000040 (.store [5]) (fun t => byteAt t.mem.bytes 0x10000040 == 5) = true) ∧
     brings (exec (.remoteResponseArrival 0 1 true []) (rx w 1 (.response 0 1 0x0200000100001000 true []))) (fun t => (t.top 0).any fun f => f.unacked == 0) ∧
     brings (exec (.remoteResponseArrival 0 1 true [5]) (rx s 1 (.response 0 1 0x0200000100001000 true [5]))) (fun t => t.prog.remote == []) ∧
     brings (exec (.remoteRejectArrival 0 1 0x0200000100001000) (rx w 1 (.reject 0 1 0x0200000100001000)))
       (fun t => t.counter cWREJ 0 == 1 && (t.top 0).any fun f => f.rejected == some (ADDRESS, 0x0200000100001000)) ∧
     brings (exec (.remoteRejectArrival 0 1 0x0200000100001000) (rx s 1 (.reject 0 1 0x0200000100001000))) (fun t => t.prog.remote == []) ∧
     (let h := fun (op : RemoteOp) (old : Option (List Byte)) => { s with mem := { s.mem with hostReqs := [(3, ⟨.core 0, 1, 0, 0x8000000000040, op, old⟩)] } }
      (h (.load 8) none).hostBusy (span 0x8000000000040 8) = false ∧ RemoteOp.whole (.nibble false 5) = false ∧
        brings (exec (.hostCompletionArrival 3 .ok) (h (.load 8) none)) (fun t => t.mem.hostReqs == []) ∧
        brings (exec (.hostCompletionArrival 3 .ok) (h (.nibble false 5) none)) (fun t => t.mem.hostReqs.any fun x => x.2.old == some [0]) ∧
        brings (exec (.hostCompletionArrival 3 .ok) (h (.nibble false 5) (some [0]))) (fun t => byteAt t.mem.bytes 0x8000000000040 == 5) ∧
        brings (exec (.hostCompletionArrival 3 .abort) (h (.load 8) none)) (fun t => t.counter cHOSTERR 0 == 1) ∧
        brings (exec (.hostRequestTimeout 3) (h (.load 8) none)) (fun t => t.counter cHOSTERR 0 == 1))) := by
  unfold brings; decide +kernel

/-- Partition 0 with logical core 0, in a state and with a result. -/
def parted (f : List Frame) (state result cmd : Nat) : State :=
  let s := onG (fr [])
  ((s.setCore 0 { Core.reset with frames := f }).setPart 0 state result).setPreemption 0 { s.preemption 0 with cmd := cmd }

theorem meets_PreemptSteps :
    (let out := fun (s : State) => { s with prog := { s.prog with remote := [⟨0, 1, 0x0200000100001000, .store [5]⟩] } }
     let image := fun (s : State) => { s.setEntry 7 0 0x10000000 with mem := { s.mem with bytes := [(0x10000000, 0x7E), (0x10000001, 0x5A),
       (0x10000002, 0x60), (0x10000003, 0x09), (0x10000004, 1)] } }
     brings (exec (.preemptHalt 0) (parted [fr []] 0 0 0)) (fun t => t.partState 0 == 1 && t.partResult 0 == 4) ∧
       brings (exec (.preemptHalt 0) (parted [fr []] 2 1 0)) (fun t => t.partState 0 == 2 && t.partResult 0 == 2) ∧
       (((parted [fr []] 1 4 1).coresOf 0).all (fun lc => !(parted [fr []] 1 4 1).midway lc && !(parted [fr []] 1 4 1).inMove lc) = true ∧ (parted [fr []] 1 4 1).mem.flying = [] ∧
         brings (exec (.preemptHaltComplete 0) (parted [fr []] 1 4 1)) (fun t => t.partState 0 == 2 && (t.core 0).stopped)) ∧
       ((out (parted [] 2 1 0)).storesOut 0 = true ∧
         brings (exec (.preemptSave 0) (out (parted [] 2 1 0))) (fun t => t.partState 0 == 2 && t.partResult 0 == 4 && (t.preemption 0).cmd == 2)) ∧
       (((parted [] 2 4 2).preemption 0).cmd = 2 ∧ (parted [] 2 4 2).storesOut 0 = false) ∧
       brings (exec (.preemptResume 0) (parted [fr []] 2 1 0)) (fun t => t.partState 0 == 0 && t.partResult 0 == 1) ∧
       brings (exec (.preemptRestore 0 [0]) (parted [] 3 4 3)) (fun t => t.partState 0 == 3 && t.partResult 0 == 3) ∧
       (let s := image (parted [] 3 4 3)
        s.physByte (s.entry 7 0).toNat = 0x10000000 ∧ s.imageOk 0 0x10000000 = true ∧ s.freePhys (s.coresOf 0) [4] = true) ∧
       brings (exec (.preemptKill 0) (parted [fr []] 3 1 0)) (fun t => t.partState 0 == 5 && t.partResult 0 == 4) ∧
       ((parted [] 5 4 5).victimStores 0 = false ∧
         brings (exec (.killComplete 0) (parted [] 5 4 5)) (fun t => t.partState 0 == 6 && t.partResult 0 == 1))) := by
  unfold brings; decide +kernel

/-- A virtual command processor that runs with a ring of 64 slots at the page of `tabled`, one packet ahead. -/
def vcp0 : Vcp := { Vcp.reset with ctl := 1, ringbase := 0x10000000, ringsz := 6, base := 0x10000000, state := .running, tail := 1 }
def onV (x : Vcp) : State := tabled.setVcp 0 0 x
/-- The page of `tabled` holds a record of level 1, and a slot of lap 1 after it. -/
def onW (x : Vcp) : State :=
  let s := onV x
  { s with mem := { s.mem with bytes := [(0x10002000, 0x01), (0x10002001, 0x40), (0x10002003, 0x10), (0x10004000, 0x01),
      (0x10004001, 0x60), (0x10004003, 0x10), (0x10006020, 0x01), (0x10006021, 0x80), (0x10006023, 0x10), (0x10008000, 0x7B),
      (0x10008002, 0x02), (0x10008003, 0x10), (0x10020003, 0x01), (0x10020041, 0x01), (0x10020087, 0x80)] } }

theorem meets_VcpControl :
    brings (exec (.vcpResume 0 0) (onV { vcp0 with ctl := 3, state := .error, code := 1 })) (fun t => (t.vcp 0 0).state == .running) ∧
      (let x := { vcp0 with state := .disabled }
       let y := { x with ringsz := 5 }
       let z := { x with ringsz := 17 }
       (onV x).ringOk 0 0x10000000 6 = true ∧ brings (exec (.vcpEnable 0 0) (onV x)) (fun t => (t.vcp 0 0).state == .running) ∧
         brings (exec (.vcpEnable 0 0) (onV y)) (fun t => (t.vcp 0 0).code == BADPKT) ∧
         brings (exec (.vcpEnable 0 0) (onV z)) (fun t => (t.vcp 0 0).code == BADPKT)) ∧
      brings (exec (.vcpDisable 0 0) (onV { vcp0 with ctl := 0 })) (fun t => (t.vcp 0 0).state == .disabled) ∧
      brings (exec (.vcpResume 0 0) (onV { vcp0 with ctl := 2 })) (fun t => (t.vcp 0 0).state == .disabled) ∧
      brings (exec (.vcpVreset 0 0) (onV { vcp0 with ctl := 4, tail := 0 })) (fun t => t.vcp 0 0 == Vcp.reset) ∧
      brings (exec (.vcpVreset 0 0) (onV { vcp0 with resetting := true, tail := 0 })) (fun t => t.vcp 0 0 == Vcp.reset) ∧
      ((onV { vcp0 with ctl := 4, tail := 0 }).wipeVcp 0 0).2 = true ∧
      (let n := fun (w : BitVec 32) => exec (.notify 0 0 w) (onV { vcp0 with state := .stale, head := 1, done := 1 })
       brings (n 65) (fun t => (t.vcp 0 0).tail == 65 && (t.vcp 0 0).state == .running) ∧
         brings (n 66) (fun t => (t.vcp 0 0).tail == 1 && (t.vcp 0 0).code == OVERRUN)) ∧
      ((match (onW { vcp0 with seq := 1 }).fnRead 0 (packetKey 0 0 0) 0x10000040 64 needR with
          | .ok bs _ => (recOfBytes bs).lap == lapOf 1 6
          | _ => false) = true ∧
        brings (exec (.packetFetch 0 0) (onW { vcp0 with seq := 1 })) (fun t => (t.vcp 0 0).fetched.isSome) ∧
        brings (exec (.packetFetch 0 0) (onV vcp0)) (fun t => (t.vcp 0 0).missed)) ∧
      brings (exec (.pollBoundExpire 0 0) (onV { vcp0 with missed := true })) (fun t => (t.vcp 0 0).state == .stale && (t.vcp 0 0).stalecnt == 1) ∧
      (let s := { (onV vcp0).setEntry 20 0 0x10000041 with journalGap := [(0, 2)] }
       s.journalRoom 0 = true ∧ brings (exec (.journalGapEntry 0) s) (fun t => tget 0 t.journalGap 0 == 0 && tget 0 t.journalUsed 0 == 1)) := by
  unfold brings; decide +kernel

def pkt (op : Nat) (q3 q4 q5 q6 : Word) : Rec := { Rec.zero with q0 := ofN (op + 256), q3 := q3, q4 := q4, q5 := q5, q6 := q6 }
def atHead (p : Rec) : State := onW { vcp0 with fetched := some p, admitted := some true, pmap := [(1, 1)] }
def begun (q : Started) : State := onW { vcp0 with started := [q], head := 1, seq := 1 }
/-- One packet has left the head; some work is left of it, or none. -/
def began (n : Nat) (t : State) : Bool := (t.vcp 0 0).head == 1 && (t.vcp 0 0).started.length == 1 && ((t.vcp 0 0).started.filter fun q => q.ending.isSome).length == n
def openOne (s : State) : State := s.setRoot 0 { Root.reset with launches := [⟨0, 0x1000000000000003, 0x1000000000000003, none, 0, 0, 0, 0, false, false⟩], serial := 1 }

theorem meets_PacketSteps_start :
    (let nop := pkt 0 0 0 0 0
     let copy := fun n => pkt 2 0x10000000 0x10000080 n 0
     let launch := pkt 1 0x10000000 1 0x1000000000000003 0
     let cancel := pkt 6 0x1000000000000000 0 0 0
     let signal := pkt 3 0x10000040 5 3 0
     let mark := pkt 5 0x10000040 0 0 0
     let wait := fun a => pkt 4 a 0 0 1
     ([nop, copy 0, copy 16, launch, cancel, signal, mark, wait 0x10000080].all fun p =>
         (atHead p).vcpStarts 0 0 && !p.malformed && (atHead p).checkAddr 0 p.signalAt == .ok [] (atHead p) &&
           (atHead p).checkAddr 0 p.statusAt == .ok [] (atHead p) && ((atHead p).vcp 0 0).mayStart p && ((atHead p).vcp 0 0).pending p.op == none
           && (match (atHead p).checkAddr 0 (some 0x50000000) with | .fault _ => true | _ => false)) = true ∧
       brings (exec (.nopPacket 0 0) (atHead { nop with q0 := nop.q0 + 0x300000, q1 := 0x50000000 })) (began 1) ∧
       brings (exec (.nopPacket 0 0) (atHead nop)) (began 1) ∧
       brings (exec (.copyPacket 0 0) (atHead (copy 0))) (began 1) ∧ brings (exec (.copyPacket 0 0) (atHead (copy 16))) (began 0) ∧
       brings (exec (.signalPacket 0 0) (atHead signal)) (fun t => byteAt t.mem.bytes 0x10020040 == 5) ∧
       brings (exec (.markPacket 0 0) (atHead mark)) (began 1) ∧
       brings (exec (.waitPacket 0 0) (atHead (wait 0x100000C0))) (began 1) ∧
       ((atHead cancel).install 0 cancel.cancelMark).1 ≠ 2 ∧
       brings (exec (.cancelPacket 0 0) (atHead cancel)) (began 1) ∧ brings (exec (.cancelPacket 0 0) (openOne (atHead cancel))) (began 0) ∧
       (match (atHead launch).launchRecords 0 (packetKey 0 0 0) launch with
         | .ok l t => (t.forgetKey (packetKey 0 0 0)).launchPoint launch == some 0x1000000000000003 && (t.forgetKey (packetKey 0 0 0)).launchOk 0 launch l
             && firstUnmapped [(1, 1)] l == none
         | _ => false) = true ∧
       brings (exec (.launchPacket 0 0) (atHead launch)) (fun t => began 0 t && sent1 t) ∧
       brings (exec (.launchPacket 0 0) (atHead { launch with q5 := 0x1000000000000003 + 0x1000000000000000 })) (began 1)) := by
  unfold brings; decide +kernel

theorem meets_PacketSteps_go_on :
    (let s0 := onW vcp0
     let q := fun p => Started.new vcp0 p
     let w := fun a => q (pkt 4 a 0 0 1)
     let c := q (pkt 2 0x10000000 0x10000080 32 0)
     let k := { q (pkt 6 0x1000000000000000 0 0 0) with matched := 1, limit := 1 }
     ((begun (w 0x100000C0)).runsPackets 0 && (match (begun (w 0x10000080)).waitWords 0 (packetKey 0 0 0) [(0x10000080, none)] with
         | .ok ws _ => ws.any fun w => decide (w.toInt < 0)
         | _ => false)) = true ∧
       brings (exec (.waitEvaluate 0 0 0) (begun (w 0x10000080))) (fun t => (t.vcp 0 0).state == .error && (t.vcp 0 0).code == ABORT) ∧
       brings (exec (.waitPoll 0 0 0) (begun (w 0x100000C0))) (fun t => (t.vcp 0 0).started.any fun q => q.ending.isSome) ∧
       (c.canMove 0 = true ∧
        brings (exec (.quayCopyGranule 0 0 0 0) (begun c)) (fun t => (t.quayGranule 0 (granuleKey 0 0 0 0) (quayHolder (copyKey 0 0 0)) c 0).1.isSome) ∧
         brings (exec (.quayCopyGranule 0 0 0 0) (begun c)) (fun t => byteAt t.mem.bytes 0x10020083 == 0 &&
           after (exec (.quayCopyGranule 0 0 0 0) t) fun u => byteAt u.mem.bytes 0x10020083 == 1)) ∧
       brings (exec (.packetComplete 0 0 0) (begun { w 0x100000C0 with ending := some (.ok, none) })) (fun t => (t.vcp 0 0).started == [] && (t.vcp 0 0).done == 1) ∧
       brings (exec (.packetComplete 0 0 0) (begun k)) (fun t => (t.vcp 0 0).started == []) ∧
       (let p : List Word := [0x101, 0, 0, 0, 1, 0x1000000000000003, 0, 0]
        let r : List (List Word) := [[0x01000020, 0, 0, 0, 0, 0, 0, 0]]
        let e := fun (key : Word) (a : Option Bool) => let s := (s0.setEntry 13 0 0x0001E00000000001#64).setEntry 13 1 7
          let t := s.setFunc 0 { s.func 0 with admitted := a, pmap := [(1, 1)], extern := some (.launch 0 key p r), externDev := 1 }
          { t with prog := { t.prog with rx := [⟨0, 1, 5, .launch 0 key p r⟩] } }
        ((e 7 none).tenantOk 0 7 (Rec.ofWords p) (r.map Rec.ofWords) && !(e 8 none).tenantOk 0 8 (Rec.ofWords p) (r.map Rec.ofWords)) = true ∧
          (e 7 none).launchPoint (Rec.ofWords p) = some 0x1000000000000003 ∧
          (((e 7 (some true)).takeRx (fun x => x.src == 1 && x.link / 12 == 0 && x.msg == .launch 0 7 p r) fun _ => false).any fun y =>
            !(y.2.injected (Rec.ofWords p) [(1, 1)] (r.map Rec.ofWords)).isEmpty) = true ∧
          brings (exec (.externalLaunch 0 1 0 8 p r) (e 8 none)) (fun t => t.counter cLREJ 0 == 1) ∧
          brings (exec (.externalLaunch 0 1 0 7 p r) (e 7 (some false))) (fun t => t.counter cLREJ 0 == 1) ∧
          brings (exec (.externalLaunch 0 1 0 7 p r) (e 7 (some true))) sent1)) := by
  unfold brings; decide +kernel

theorem meets_PluginCalls :
    (let c := fun (w : Policy) => (⟨w, [7]⟩ : Call)
     let x := fun l => { Plugin.reset with loaded := true, entry := 0x40, queue := l }
     let s := fun l => (onV vcp0).setPlugin 0 (x l)
     let back := fun w r => (onV vcp0).setPlugin 0 { x [c w] with returned := some r }
     let late := fun w => ((onV vcp0).setPlugin 0 { x [c w] with running := some (3, 10) }).setFe 3 { (fe 0).fe 3 with released := true, priv := 0, cycle := 8203 }
     (s []).fnPlug 0 = 0 ∧ (s []).partPlug 0 = some 0 ∧ ((s []).graph 0).isSome = true ∧ (x []).usable = true ∧ (x []).busy = false ∧
       (let t := ((s [c (.opvote 0)]).setFe 3 { (fe 1).fe 3 with released := true, halted := false, priv := 1 }).makeCall 0 3
        (t.fe 3).priv = 0 ∧ (t.fe 3).h.reg 1 = 7 ∧ (t.plugin 0).running.isSome = true) ∧
       brings (exec (.admitCall 0 0 (.value 0)) (back (.letIn 0 0) (.value 0))) (fun t => (t.vcp 0 0).admitted == some true && (t.plugin 0).queue == []) ∧
       brings (exec (.admitCall 0 0 .fault) (back (.letIn 0 0) .fault)) (fun t => (t.vcp 0 0).admitted == some false && (t.plugin 0).failures == 1) ∧
       brings (exec (.pmap 0 0 2 (.value 7)) (back (.pmap 0 0 2) (.value 7))) (fun t => tfind (t.vcp 0 0).pmap 2 == some 2) ∧
       brings (exec (.pmap 0 0 2 (.value 6)) (back (.pmap 0 0 2) (.value 6))) (fun t => tfind (t.vcp 0 0).pmap 2 == some 6) ∧
       brings (exec (.lweight 0 0 (.value 255)) (back (.lweight 0 0) (.value 255))) (fun t => bits (t.entry 5 0) 0 8 == 255) ∧
       brings (exec (.opvote 0 (.value 15)) (back (.opvote 0) (.value 15))) (fun t => tfind t.power.votes 0 == some 15) ∧
       brings (exec (.pluginBudgetOverrun 0) (late (.pmap 0 0 2))) (fun t => (t.plugin 0).failures == 1 && (t.fe 3).priv == 1) ∧
       brings (exec (.pluginBudgetOverrun 0) (late (.letIn 0 0))) (fun t => (t.vcp 0 0).admitted == some false)) := by
  unfold brings; decide +kernel

theorem meets_HostSteps :
    (let s := onV vcp0
     let b := s.setFunc 0 { s.func 0 with winbase := 0x10000000 }
     s.journalMode (s.fnPart 0) ≠ 2 ∧ brings (exec (.bar2Write 0 0x18 [9]) s) (fun t => (t.vcp 0 0).ringsz == 9) ∧
       brings (exec (.bar2Read 0 0x18 4) s) (fun t => t.service.read == [6, 0, 0, 0]) ∧
       brings (exec (.registerWrite 0 0x2008 7) s) (fun t => tget 0 (t.func 0).msix 1 == 7) ∧
       brings (exec (.bar4Read 0 0 8) s) (fun t => (t.func 0).barerr == 1) ∧
       (match b.barSpan 0 0 8 needR with | .pas l t => t.isLocal l && !t.anyBad l && !l.any t.portFailed | _ => false) = true ∧
       (match b.barSpan 0 0 1 needW with
         | .pas l t => t.journalMode 0 != 2 && t.region (l.headD 0) == .hbm 0x10020000 && !l.any t.portFailed && t.storable l
         | _ => false) = true ∧
       brings (exec (.bar4Write 0 0 [9]) b) (fun t => byteAt t.mem.bytes 0x10020000 == 9) ∧
       brings (exec (.bar4Write 0 0 [9]) s) (fun t => (t.func 0).barerr == 1) ∧
       brings (exec (.registerWrite 0 0x10 0x12345) s) (fun t => (t.func 0).winbase == 0x10000) ∧
       (let r := s.setFunc 0 { s.func 0 with flr := true }
        r.writesOut 0 = false ∧ ((r.setVcp 0 0 { vcp0 with tail := 0 }).wipeVcps 0 (span 0 16)).2 = true ∧ brings (exec (.flrComplete 0) (r.setVcp 0 0 { vcp0 with tail := 0 })) (fun t => !(t.func 0).flr && t.vcp 0 0 == Vcp.reset)) ∧
       brings (exec (.jobCancel 0) s) (fun t => t.counter cKILLS 0 == 1 && (t.core 0).frames == [])) := by
  unfold brings; decide +kernel

def served (cmd : BitVec 32) (buf : Word) (len : Word) (vf : Option Nat) : State :=
  let s := (onV Vcp.reset).setEntry 23 5 0x8000000000000000#64
  { s with service := { s.service with migcmd := cmd, migbuf := buf, miglen := len, migVf := vf } }
/-- A restore of function 5 that has read an image of one page, that of VCP 0, with no entry. -/
def imaged (lines : Table Nat) : State :=
  let s := served 0 0 0x11000 none
  { s with service := { s.service with migcmd := 5, restoring := some 5, imageAt := if lines = [] then 0 else 0x440, image := lines } }

theorem meets_MigrationAndAttestation_migration :
    (let s := served 0 0 0x11000 none
     let one := imaged [(0, 0x10960316A + 2 ^ 64 + 0x11000 * 2 ^ 192)]
     let line : State := (imaged []).noteEng (bufferKey 0) ⟨BitVec.ofNat 64 0x8000000000000, 0, false, some (.data (List.replicate 64 1))⟩
     let waits := (served 5 0 0x11000 (some 5)).setVcp 5 0 { vcp0 with head := 1, started := [Started.new vcp0 (pkt 4 0x100000C0 0 0 0)] }
     brings (exec (.migSuspendSave 0x45000000) s) (fun t => t.migResult == 5 && t.service.migVf == some 5) ∧
       brings (exec (.migSuspendSave 0x40000000) s) (fun t => t.migResult == 3) ∧
       brings (exec (.migSuspendSave 0x46000000) s) (fun t => t.migResult == 3) ∧
       brings (exec (.migSuspendSave 0x45000000) one) (fun t => t.migResult == 2) ∧
       brings (exec (.migRestore 0x80000000) s) (fun t => t.migResult == 3) ∧
       brings (exec (.migRestore 0x85000000) (s.setVcp 5 3 vcp0)) (fun t => t.migResult == 6) ∧
       brings (exec (.migRestore 0x85000000) s) (fun t => t.migResult == 5 && t.service.restoring == some 5) ∧
       (one.migNeed ≤ 64 * one.service.imageAt ∧ one.migImageOk = true ∧ one.migStep.migResult = 1 ∧
         (one.migStep.vcp 5 0).state = .suspended ∧ (one.migStep.vcp 5 1).state = .disabled) ∧
       (let bad := imaged [(0, 0)]
        bad.migNeed ≤ 64 * bad.service.imageAt ∧ bad.migImageOk = false ∧ bad.migStep.migResult = 4) ∧
       (0 < line.migNeed ∧ (line.migStep.service.imageAt = 1 ∧ tget 0 line.migStep.service.image 0 % 65536 = 257)) ∧
       brings (exec (.migResume 0xC5000000) s) (fun t => t.migResult == 6) ∧
       brings (exec (.migResume 0xC5000000) ((s.setVcp 5 3 { vcp0 with state := .suspended, before := .stale }).setVcp 5 4
         { vcp0 with state := .suspended, before := .error })) (fun t => t.migResult == 1 && (t.vcp 5 3).state == .running && (t.vcp 5 4).state == .error) ∧
       brings (exec .migSaveImageWrite (served 5 0 0x10FFF (some 5))) (fun t => t.migResult == 4 && t.service.migVf == none) ∧
       brings (exec .migSaveImageWrite (served 5 0 0x11000 (some 5))) (fun t => t.migResult == 1 && t.service.migVf == none) ∧
       ((waits.vcp 5 0).savable = true ∧ brings (exec .migSaveImageWrite waits) (fun t => t.service.migVf == none)) ∧
       (({ vcp0 with started := [Started.new vcp0 (pkt 2 0 0 0 0)] } : Vcp).savable = false)) := by
  unfold brings; decide +kernel

/-- A monitor runs. -/
def monitored (s : State) : State :=
  let u := s.setFe 0 { s.fe 0 with released := true, halted := false }
  { u with boot := { u.boot with quayUp := #v[true, false] } }

theorem meets_MigrationAndAttestation_attestation :
    (let s := served 0 0 0 none
     let busy := fun x => { s with service := { s.service with attBusy := true, attFn := x } }
     s.service.attBusy = false ∧ s.service.attbuf.toNat % 64 = 0 ∧ hostFits s.service.attbuf 512 = true ∧
       brings (exec (.attReport 0x46000000) s) (fun t => t.attResult == 2) ∧
       brings (exec (.attReport 0x45000000) { s with service := { s.service with attbuf := 32 } }) (fun t => t.attResult == 3) ∧
       brings (exec (.attReport 0x45000000) s) (fun t => t.attResult == 5 && t.service.attFn == some 5) ∧
       brings (exec (.attReport 0x45000000) (busy none)) (fun t => t.attResult == 4) ∧
       brings (exec (.attReadCertificate 0x85000000) (busy none)) (fun t => t.attResult == 4) ∧
       (busy none).monitorRuns = false ∧ (monitored (busy none)).monitorRuns = true ∧
       (let n := (monitored (busy (some 5))).noteEng (bufferKey 1) ⟨BitVec.ofNat 64 0x8000000000000, 0, false, some (.data (List.replicate 32 1))⟩
        (match n.reach 0 (bufferKey 1) (hostPa n.service.attbuf) 0 (.load 32) with | .ok bs _ => bs == List.replicate 32 1 | _ => false) = true)) := by
  unfold brings; decide +kernel

/-- The certificate fits, whatever its length. -/
theorem meets_MigrationAndAttestation_certificate : hostFits 0 (4 + (Config.certificate.take 4096).length) = true := by
  have h : (Config.certificate.take 4096).length ≤ 4096 := List.length_take_le _ _
  unfold hostFits
  have : (0 : Word).toNat = 0 := rfl
  simp only [this]
  exact decide_eq_true (by omega)

theorem meets_RegisterSteps :
    (let s := onG (fr [])
     let fe1 := ({ s with agent := .fe 0 }).setFe 0 { FeCore.reset 0 with priv := 1, sel := 0x01000000 }
     let op := fun (v : BitVec 5) (r eff : Nat) => (s.setEntry 1 0 0x52).setCore 0 { s.core 0 with opreq := v, opresult := r, eff := eff }
     let hold := s.setDie 0 { s.die 0 with swap := some { newSwap [(0, 1)] none with phase := .holding, missing := [ackKey 0 3] } }
     brings (exec (.counterReadClear 1 0) ((s.count 1 0).count 1 1)) (fun t => t.counter 1 0 == 0 && t.counter 1 1 == 1) ∧
       (s.feOk 1 0 0x50 = true ∧ s.feOk 1 0 0x05 = false ∧ s.feOk 21 0 0 = false ∧ s.feOk 13 0 0 = true) ∧
       brings (exec (.fedataWrite 0x50) fe1) (fun t => t.entry 1 0 == 0x50) ∧
       (s.l2pOk 1 0x8000 = false ∧ brings (exec (.l2pWrite 1 0x8000) s) (fun t => t.entry 12 1 == 0)) ∧
       (s.l2pOk 1 0x4005 = true ∧ brings (exec (.l2pWrite 1 0x4005) s) (fun t => t.entry 12 1 == 0x4005)) ∧
       brings (exec (.l2pHoldAck 0 3) hold) (fun t => (t.die 0).swap.any fun x => x.missing == []) ∧
       brings (exec (.opreqWrite 0 false 7) s) (fun t => (t.core 0).opreq == 7 && (t.core 0).opresult == 1) ∧
       brings (exec (.opreqDecide 0 0 0) (op 1 1 9)) (fun t => (t.core 0).opresult == 3) ∧
       brings (exec (.opreqDecide 0 0 0) (op 6 1 9)) (fun t => (t.core 0).opresult == 4) ∧
       (let u := op 2 1 9
        u.opFloor (u.partOf 0) = 2 ∧ u.opCap (u.partOf 0) = 5 ∧ (u.core 0).opresult = 1 ∧ (u.core 0).eff = 9 ∧ (op 3 1 2).overEstimate 0 0 3 = false ∧
          (let v := (op 3 1 2).setEntry 2 0 100
           ({ v with power := { v.power with watts := 95 } } : State).overEstimate 0 20000000 3 = true)) ∧
       ((newSwap [(0, 1)] none).needs.contains 3 && hold.earlyAt 3) = false ∧
       brings (exec (.seedWrite 0) fe1) (fun t => (t.fe 0).h.gen == 0x9E3779B97F4A7C15) ∧
       (s.goesOn 0 = true ∧ brings (exec (.fpstatAccess 0) (on (fv (en (.vadd .f32 3 1 2 0 false) 5 5) []))) (fun t => (t.top 0).isSome))) := by
  unfold brings; decide +kernel

/-- The same where a frame runs on the tile. -/
def roused (x : Sleep) : State := let s := onG (fr []); s.setTile 0 { s.tile 0 with sleep := x }
def slept (x : Sleep) : State := let s := State.reset; (s.setModState 3).setTile 0 { s.tile 0 with sleep := x }

theorem meets_PowerSteps :
    (let s := (State.reset).setModState 3
     let r := fun (x : Rail) => s.setRail 0 x
     let x0 := s.rail 0
     (let p := { s with power := { s.power with forced := true, watts := 94 } }
      100 * p.power.watts < 95 * ((p.setEntry 2 0 100).entry 2 0).toNat ∧ 3 ≤ { s.power with above := 3 }.above ∧ s.power.forced = false ∧
        (let q := s.setEntry 2 0 100
         ({ q with power := { q.power with watts := 101 } } : State).overCap = true)) ∧
       (let u := r { x0 with code := 20 }
        u.railNow 0 < u.railNeed 0) ∧
       (let u := (span 0 4).foldl (fun s t => s.setTile t { s.tile t with cur := 0 }) (r { x0 with code := 90, holding := true })
        u.railFollowed 0 = true ∧ brings (exec (.railHoldExpire 0) u) (fun t => (t.rail 0).goal.isSome && !(t.rail 0).holding)) ∧
       brings (exec (.railDescentStop 0) (r { x0 with code := 90, goal := some 80 })) (fun t => (t.rail 0).code == 80 && (t.rail 0).holding) ∧
       brings (exec (.frequencySwitchComplete 0) (s.setTile 0 { s.tile 0 with switching := some 4 })) (fun t => (t.tile 0).cur == 4) ∧
       ((slept .awake).tileIdle 0 && (slept .awake).allowsDepth 0 2 && (slept .awake).allowsDepth 0 1) = true ∧
       brings (exec (.sleepHoldExpire 0 true) (slept .awake)) (fun t => (t.tile 0).sleep == .entering 0 2) ∧
       brings (exec (.sleepHoldExpire 0 true) (slept (.asleep 1))) (fun t => (t.tile 0).sleep == .entering 1 2) ∧
       brings (exec (.sleepEntryComplete 0) (slept (.entering 0 2))) (fun t => (t.tile 0).sleep == .asleep 2) ∧
       brings (exec (.sleepD3Enter 0) (slept .awake)) (fun t => (t.tile 0).sleep == .asleep 3) ∧
       ((roused (.asleep 2)).tileIdle 0 = false ∧ ((slept (.waking 2)).tile 0).sleep = .waking 2 ∧ (slept .awake).coresOn 0 = []) ∧
       brings (exec (.tileWake 0) (roused (.asleep 1))) (fun t => (t.tile 0).sleep == .waking 1) ∧
       brings (exec (.tileWake 0) (roused (.asleep 2))) (fun t => (t.tile 0).sleep == .waking 2 && (t.rail 0).grants == [0]) ∧
       brings (exec (.tileWake 0) ((roused (.asleep 2)).setRail 0 { x0 with grants := [1, 2] })) (fun t => (t.tile 0).sleep == .waiting 2 && (t.rail 0).waiters == [0]) ∧
       brings (exec (.inrushGrant 0) ((slept (.waiting 2)).setRail 0 { x0 with grants := [1], waiters := [0] })) (fun t => (t.tile 0).sleep == .waking 2) ∧
       brings (exec (.droopDetect 0) s) (fun t => (t.rail 0).throttles == 1 && t.counter cDROOP 0 == 1) ∧
       brings (exec (.matrixColumnRamp 0) (ran (task0 0x2200020000) none)) (fun t => (t.tile 0).columns == ((ran (task0 0x2200020000) none).tile 0).columns + 1)) := by
  unfold brings; decide +kernel

/-- Tiles 0 and 4 of die 0 with temperatures; logical core 0 stands on tile 0. -/
def warmed (a b : Nat) (l : List Frame) : State :=
  let s := onG (fr [])
  let s1 := (s.setCore 0 { Core.reset with frames := l }).setEntry 4 0 0x00000A5F00000001#64
  (s1.setTile 0 { s1.tile 0 with temp := a }).setTile 4 { s1.tile 4 with temp := b, sleep := .awake }
def swapping (x : Swap) (s : State) : State := s.setDie 0 { s.die 0 with swap := some x }
def hot (s : State) (t : Nat) : State := s.setTile 0 { s.tile 0 with temp := t, emergency := true }

/-- Where logical core 0 alone is mapped, at slot 0, it is what stands there, and nothing stands elsewhere. -/
theorem logicalAt_alone (s : State) (h : ∀ lc < 1024, lc ≠ 0 → s.mapped lc = false) (h0 : s.mapped 0 = true) (hp : s.phys 0 = 0) (p n : Nat)
    (hn : n < 1024) : s.logicalAt p (n + 1) = if p = 0 then some 0 else none := by
  induction n with
  | zero =>
    show (if (s.mapped 0 && s.phys 0 == p) = true then some 0 else none) = _
    rw [h0, hp]
    cases p <;> rfl
  | succ n ih =>
    show (if (s.mapped (n + 1) && s.phys (n + 1) == p) = true then some (n + 1) else s.logicalAt p (n + 1)) = _
    rw [h (n + 1) hn (Nat.succ_ne_zero n), ih (Nat.lt_of_succ_lt hn)]
    rfl

theorem one_mapped : ∀ lc < 1024, lc ≠ 0 → (warmed 0 0 []).mapped lc = false := by decide +kernel

theorem logicalAt_one (s : State) (h : s.feTab = (warmed 0 0 []).feTab) (p : Nat) : s.logicalAt p 1024 = if p = 0 then some 0 else none := by
  have e : ∀ tbl idx, s.entry tbl idx = (warmed 0 0 []).entry tbl idx := fun tbl idx => by simp only [State.entry, h]
  have m : ∀ lc, s.mapped lc = (warmed 0 0 []).mapped lc := fun lc => by simp only [State.mapped, e]
  refine logicalAt_alone s (fun lc a b => by rw [m]; exact one_mapped lc a b) (by rw [m]; decide +kernel) ?_ p 1023 (by omega)
  simp only [State.phys, e]; decide +kernel

/-- The cores on a tile, and the choices that rest on them. -/
def coresOn0 (t : Nat) : List Nat := (span (4 * t) 4).filterMap fun p => if p = 0 then some 0 else none

theorem coresOn_one (s : State) (h : s.feTab = (warmed 0 0 []).feTab) : s.coresOn = coresOn0 := by
  funext t; simp only [State.coresOn, coresOn0, logicalAt_one s h]

theorem coresOn_warmed (a b : Nat) (l : List Frame) : (warmed a b l).coresOn = coresOn0 := coresOn_one _ rfl
theorem coresOn_hot (a b t : Nat) (l : List Frame) : (hot (warmed a b l) t).coresOn = coresOn0 := coresOn_one _ rfl
theorem logicalAt_hot (a b t p : Nat) (l : List Frame) : (hot (warmed a b l) t).logicalAt p 1024 = if p = 0 then some 0 else none :=
  logicalAt_one (hot (warmed a b l) t) rfl p

theorem meets_RotationAndThermal_rotation :
    let s := warmed 60 40 [fr []]
    let g := warmed 60 40 [{ fr [] with gang := some ⟨.tpair, [0]⟩ }]
    s.rotEnabled 0 = true ∧ s.hottest 0 = some 0 ∧ s.holdsTpair 0 = false ∧
      s.coolest ((s.partners 0).filter fun t => decide (s.temp t + s.dtmin 0 ≤ s.temp 0 ∧ s.temp t < s.temp 0)) = some 1 ∧
      g.hottest 0 = some 0 ∧ g.holdsTpair 0 = true := by
  simp only [State.hottest, State.partners, State.holdsTpair, coresOn_warmed]; decide +kernel

theorem logicalAt_none (s : State) (h : ∀ lc < 1024, s.mapped lc = false) (p n : Nat) (hn : n ≤ 1024) : s.logicalAt p n = none := by
  induction n with
  | zero => rfl
  | succ n ih =>
    show (if (s.mapped n && s.phys n == p) = true then some n else s.logicalAt p n) = _
    rw [h n hn, ih (Nat.le_of_succ_le hn)]
    rfl

theorem meets_RotationAndThermal_none :
    (State.reset.setEntry 4 0 0x00000A5F00000001#64).hottest 0 = none := by
  have h : ∀ p, (State.reset.setEntry 4 0 0x00000A5F00000001#64).logicalAt p 1024 = none := fun p =>
    logicalAt_none _ (by decide +kernel) p 1024 (Nat.le_refl _)
  have c : (State.reset.setEntry 4 0 0x00000A5F00000001#64).coresOn = fun _ => [] := by
    funext t; simp [State.coresOn, h]
  simp only [State.hottest, c]; decide +kernel

theorem meets_RotationAndThermal_swap :
    let s := warmed 60 40 [fr []]
    let x : Swap := { newSwap [(0, 4)] none with phase := .holding }
    let q := swapping { x with phase := .quiesced } (s.setCore 0 { s.core 0 with stopped := true })
    (s.swapCores x) = [0] ∧ s.midway 0 = false ∧ q.inMove 0 = true ∧ q.storableCellar (span (cellarKey 0 0x5FFFF) 1) = true ∧
      (let w : Flying := ⟨0, 1, 0, 0, 0, 0x5FFFF, [9]⟩
       let u := { q with mem := { q.mem with flying := [w] } }.setChan 0 1 0 ⟨some (copying 0x10000040 1 none []), []⟩
       (u.mem.flying.find? (fun f => f.core == 0 && f.off == 0x5FFFF && f.data == [9])) = some w ∧ (u.tile (u.tileOf 0)).sleep.deep = false ∧
         (u.chan 0 1 0).cur.isSome = true ∧
         brings (exec (.movedCoreWriteArrival 0 0x5FFFF [9]) u) (fun t => t.mem.cellar == [(0x5FFFF, 9)] && t.mem.flying == []) ∧
         brings (exec (.movedCoreWriteArrival 0 0x5FFFF [9]) (u.setTile (u.tileOf 0) { u.tile (u.tileOf 0) with sleep := .asleep 2 }))
           (fun t => t.mem.cellar == [] && t.mem.flying == [w])) := by
  unfold brings; simp only [State.swapCores, coresOn_warmed]; decide +kernel

theorem meets_RotationAndThermal_thermal :
    (let s := warmed 95 40 [fr []]
     s.tcrit 0 = 95 ∧ brings (exec (.thermalEmergency 0) s) (fun t => (t.tile 0).emergency) ∧ 84 + s.dtmin 0 < 95) := by
  unfold brings; decide +kernel

theorem meets_RotationAndThermal_emergency :
    let s := hot (warmed 95 40 [fr []]) 95
    let g := hot (warmed 95 40 [{ fr [] with gang := some ⟨.tpair, [0]⟩ }]) 95
    s.coolest (s.partners 0) = some 1 ∧ s.holdsTpair 0 = false ∧ s.tcrit 0 ≤ s.temp 0 ∧ (s.tile 0).emergency = true ∧
      g.holdsTpair 0 = true ∧ g.coolestPair 0 = some 2 := by
  simp only [State.partners, State.holdsTpair, State.coolestPair, coresOn_hot]; decide +kernel

/-- One core of the tile can move, whatever the temperatures of the quarters. -/
theorem meets_RotationAndThermal_migration :
    let s := hot (warmed 95 40 []) 95
    ((s.coresOn 0).filter fun lc => !s.ganged lc && !s.hasTasks lc) = [0] ∧
      ((span 0 128).filter fun q => (s.logicalAt q 1024).isNone && wideTile (q / 4) == wideTile 0 &&
        decide (s.temp (q / 4) + s.dtmin 0 < s.tcrit 0) && !(s.tile (q / 4)).tripped && !(s.tile (q / 4)).withdrawn).length = 92 := by
  simp only [coresOn_hot, logicalAt_hot]
  decide +kernel

/-- A plug-in image of 64 zero bytes at 2000_0000H under the key pair whose private key is 1; the signature is that of an
ECDSA written apart from the model. -/
def pluginKey : List Byte := beBytes 48 ecGx ++ beBytes 48 ecGy
def pluginImage : List Byte :=
  leBytes 4 0x0960B007 ++ leBytes 2 3 ++ leBytes 2 0 ++ leBytes 4 0 ++ leBytes 4 64 ++ leBytes 8 0x20000000 ++ leBytes 8 0x20000000 ++
    hashBytes (sha384 (List.replicate 64 0)) ++ pluginKey ++ List.replicate 16 0 ++
    beBytes 48 0x2a300edfed7cfa7b4aa988699c1715448b24088c979bca3dfb4cc2237c2be38bccf6c88b75ef549e59ac2a961dc7e5f9 ++
    beBytes 48 0x21afc3faf43b97ad395bcf940ce7632eb2eca852334037c65f616a6df0a34ada79f4d9e9832ef8d9f14256a1e9d411aa ++
    List.replicate (224 + 64) 0

theorem pluginImage_fields :
    (imgField pluginImage 0 4 == 0x0960B007 && imgField pluginImage 4 2 == 3 && imgField pluginImage 6 2 ≤ 1 && imgSvn pluginImage ≤ 63
      && imgLen pluginImage % 64 == 0 && imgLen pluginImage ≤ 2 ^ 24 && pluginImage.length == 0x200 + imgLen pluginImage
      && imgLoad pluginImage + imgLen pluginImage ≤ 0xC000000000 && imgLoad pluginImage ≤ imgEntry pluginImage
      && imgEntry pluginImage < imgLoad pluginImage + imgLen pluginImage && imgEntry pluginImage % 4 == 0
      && imgField pluginImage 0xB0 16 == 0 && imgField pluginImage 0x120 224 == 0
      && hashBytes (sha384 (imgBody pluginImage)) == imgBytes pluginImage 0x20 48) = true := by decide +kernel

set_option maxRecDepth 100000 in
/-- R57: the signature verifies. -/
theorem pluginImage_signature :
    imgBytes pluginImage 0x50 96 = pluginKey ∧
    ecdsaVerify (hashBytes (sha384 (pluginImage.take 0xC0))) (imgBytes pluginImage 0xC0 96) (imgBytes pluginImage 0x50 96) = true := by
  decide +kernel

/-- The image is good where its key is the operator's. -/
theorem meets_BootAndService_plugin (hk : Config.operatorKey 0 = pluginKey) :
    imageGood pluginImage 3 (fun k => k == Config.operatorKey 0) = true := by
  have hr : imageGood pluginImage 3 (fun k => k == Config.operatorKey 0) =
      ((imgField pluginImage 0 4 == 0x0960B007 && imgField pluginImage 4 2 == 3 && imgField pluginImage 6 2 ≤ 1 && imgSvn pluginImage ≤ 63
        && imgLen pluginImage % 64 == 0 && imgLen pluginImage ≤ 2 ^ 24 && pluginImage.length == 0x200 + imgLen pluginImage
        && imgLoad pluginImage + imgLen pluginImage ≤ 0xC000000000 && imgLoad pluginImage ≤ imgEntry pluginImage
        && imgEntry pluginImage < imgLoad pluginImage + imgLen pluginImage && imgEntry pluginImage % 4 == 0
        && imgField pluginImage 0xB0 16 == 0 && imgField pluginImage 0x120 224 == 0
        && hashBytes (sha384 (imgBody pluginImage)) == imgBytes pluginImage 0x20 48) &&
      (imgBytes pluginImage 0x50 96 == Config.operatorKey 0 &&
        ecdsaVerify (hashBytes (sha384 (pluginImage.take 0xC0))) (imgBytes pluginImage 0xC0 96) (imgBytes pluginImage 0x50 96))) := by
    simp only [imageGood, Bool.and_assoc]
  rw [hr, pluginImage_fields, pluginImage_signature.2, pluginImage_signature.1, hk]
  simp

/-- A graph image of one word and one station. -/
def graphImage : Image :=
  { eflags := 0, pflags := [5, 4, 6], textVa := 0x20000000, text := [0x01000000], rodataVa := 0, rodata := [], dataVa := 0, data := [], bss := 0
    cellar := [], magic := 0x09600A9F, stations := 1, exit := 0, zero006 := 0, codeSize := 4, depths := [1], resources := [], handler := 0
    cellarSize := 0, zero0A0 := List.replicate 96 0, summaries := [(0, 0x8000)], celoff := [], pages := [0x1003], tables := [0x8020, 0x8021] }

theorem meets_BootAndService :
    (let s := tabled
     let bare := { s with prog := { s.prog with graphs := [] } }
     let up := fun (n : Nat) => State.reset.setModState n
     let dies := fun (w : BitVec 32) => let u := up 3; { u with boot := { u.boot with modstat := w } }.setModState 2
     let serves := let u := s.setDie 0 { s.die 0 with inService := true }; { u with boot := { u.boot with modstat := u.boot.modstat ||| 0xFF000000 } }
     (exec (.tileDiePass 7 3) (up 1) matches .next _) = true ∧ (exec .bringupEnd (dies 0xFFFFFF00) matches .next _) = true ∧
       (let t := up 1; { t with boot := { t.boot with quayUp := #v[true, false] } }.boot.quayUp.toList.getD 0 false = true) ∧
       brings (exec (.monitorTrapHalt 15) (State.reset.setFe 15 { FeCore.reset 15 with priv := 2, halted := false })) (fun t => (t.fe 15).halted) ∧
       (serves.modState = 3 ∧ (serves.die 0).inService = true) ∧
       (2 ≤ (dies 0x01000100).modState ∧ (let u := (dies 0x01000100).setDie 0 { s.die 0 with inService := true }
         (u.die 0).inService = true)) ∧
       (Image.ok graphImage = true ∧ bare.bound 0 = true ∧ (bare.mapImage (bare.fnCtx 0) graphImage [0, 0, 0, 1]).isSome = true ∧
         brings (exec (.graphImageLoad 0 0 1 0 graphImage) bare) (fun t => (t.graph 0).isNone && t.service.refused.length == 1) ∧
         brings (exec (.graphImageLoad 0 0 0 0 graphImage) bare) (fun t => (t.graph 0).any fun x => x.words == 1 && x.stations == 1)) ∧
       (let e := s.setCore 0 Core.reset
        ((e.installLate 0 ⟨0, 0, false⟩).settle 0).slotEmpty 0 = true ∧ brings (exec (.graphUnload 0) e) (fun t => (t.graph 0).isNone)) ∧
       (((s.installLate 0 ⟨0, 0, false⟩).settle 0).slotEmpty 0 = false ∧ brings (exec (.graphUnload 0) s) (fun t => (t.graph 0).isSome)) ∧
       (let j := fun r => let y := (((onG (fr [])).setEntry 20 0 0x100000A1).setEntry 20 1 2).setPreemption 0 { s.preemption 0 with replay := r }
          { y with mem := { y.mem with bytes := [(0x10000088, 1), (0x1000008C, 1), (0x10000093, 1), (0x10000098, 3), (0x1000009F, 0x10)] } }
        (j none).journalHas 0 1 = true ∧ brings (exec (.replay 0) (j none)) (fun t => (t.preemption 0).replay == some (1, 2)) ∧
          ((j (some (1, 2))).journalInfo 0 1 32 = 1 ∧ ((j (some (1, 2))).replayEntry 0 1).isSome = true ∧
            brings (exec (.replay 0) (j (some (1, 2)))) (fun t => (t.preemption 0).replay == none && sent1 t)))) := by
  unfold brings; decide +kernel

def flit (type : BitVec 4) (seq : BitVec 12) : Flit :=
  ⟨⟨type, 0, seq, 0, 7, 1, 0, 0⟩, .none⟩

/-- R18: the checksum of "123456789", as every description of this CRC-32 gives it. -/
theorem test_crc32 : crc32 [0x31, 0x32, 0x33, 0x34, 0x35, 0x36, 0x37, 0x38, 0x39] = 0xCBF43926 := by decide +kernel

theorem meets_LinkSteps_crc : flitSum (flit 1 0) + 1 ≠ flitSum (flit 1 0) := by
  generalize flitSum (flit 1 0) = x
  bv_omega

theorem meets_LinkSteps :
    (let s := State.reset
     let l := fun (x : Link) => s.setLink 0 x
     let u := Link.reset
     (s.link 0).up = true ∧ (s.link 0).training = false ∧ s.protocolError (flit 4 0).h = true ∧
       s.protocolError (flit 0 5).h = false ∧ (flit 0 5).h.seq.toNat ≠ (s.link 0).expect ∧
       s.protocolError (flit 1 4095).h = false ∧ (flit 1 4095).h.seq.toNat = ((l { u with expect := 4095 }).link 0).expect ∧
       (∀ y ∈ (s.link 0).replay, y.h.seq ≠ 5) ∧ ((s.link 0).replay = []) ∧
       (let a := ({ u with replay := [flit 1 4, flit 1 5, flit 1 6], used := #v[3, 0, 0, 0, 0, 0, 0, 0], naks := 2 } : Link)
        (a.acked 5).replay = [flit 1 6] ∧ (a.acked 5).naks = 0 ∧ (a.credited 2).used.toList.getD 0 9 = 0 ∧
          brings (exec (.ferryNakReceive 0 5) (l a)) (fun t => (t.link 0).naks == 0 && (t.link 0).replay.length == 1) ∧
          brings (exec (.ferryNakReceive 0 9) (l a)) (fun t => (t.link 0).naks == 3 && (t.link 0).replay.length == 3)) ∧
       brings (exec (.ferryLinkRetrain 0) (l { u with naks := 16 })) (fun t => (t.link 0).training && t.counter cFRTRN 0 == 1) ∧
       brings (exec (.ferryRetrainComplete 0 true) (l { u with training := true, naks := 16 })) (fun t => !(t.link 0).training && (t.link 0).naks == 0) ∧
       brings (exec (.ferryRetrainComplete 0 false) (l { u with training := true, retrains := 1 })) (fun t => (t.link 0).retrains == 2) ∧
       brings (exec (.ferryRetrainComplete 0 false) (l { u with training := true, retrains := 2 })) (fun t => !(t.link 0).up && t.counter cFDOWN 0 == 1) ∧
       brings (exec (.ferryRouteReturn 1) ((l { u with up := false }).setEntry 14 1 1)) (fun t => (t.link 0).up) ∧
       brings (exec (.d2dEdgeRetrain 13 11 32) s) (fun t => tfind t.boot.edges 13 == some (11, 32) && t.counter cD2DDEG 13 == 1) ∧
       brings (exec (.atticPortFail 3) (s.setPort 3 .up)) (fun t => t.boot.ports.toList.getD 3 .up == .failed)) := by
  unfold brings; decide +kernel

/-- A NAK that acknowledges the second of three flits. -/
theorem meets_LinkSteps_nak :
    ((State.reset.setLink 0 { Link.reset with replay := [flit 0 4, flit 0 5, flit 0 6] }).link 0).replay = [flit 0 4] ++ flit 0 5 :: [flit 0 6] ∧
    (flit 0 5).h.seq = 5 ∧ ∀ z ∈ [flit 0 4], z.h.seq ≠ 5 := by
  refine ⟨rfl, rfl, fun z hz => ?_⟩
  rw [List.mem_singleton.mp hz]
  decide

theorem meets_TrapEntry :
    (let s := onG { fr [] with rcd := rec0 1 0 0x20, hdr := { (fr []).hdr with actions := 0x55555555 } }
     let h := s.setEntry 10 0 0x8000000000000000#64
     ((s.core 0).frames.length == 1 && (s.top 0).any fun f => f.action DIVZ == 1) = true ∧ bit (h.handler 0 0) 63 = true ∧ bit (s.handler 0 0) 63 = false ∧
       (h.takeTrap 0 DIVZ 0 none).prog.deliveries.length = 1 ∧ (s.takeTrap 0 DIVZ 0 none).prog.deliveries = [] ∧
       (s.takeTrap 0 DIVZ 0 none).counter (cTRAPS + DIVZ) 0 = 1) := by decide +kernel

theorem meets_FrontEndTraps :
    (let s := fun priv prev => let f := fe priv; { f.setFe 0 { f.fe 0 with prev := prev, epc := 0x40 } with agent := .fe 0 }
     (s 1 0).agent = .fe 0 ∧ ((s 1 0).fe 0).priv = 1 ∧ (((s 1 0).trap DIVZ 0).fe 0).priv = 2 ∧ (((s 2 0).trap DIVZ 0).fe 0).halted = true ∧
       (s 1 0).front .eret = .go [] ∧ brings (exec .eret (s 1 0)) (fun t => (t.fe 0).priv == 0 && (t.fe 0).h.pc == 0x10) ∧
       brings (exec .eret (s 1 1)) (fun t => (t.fe 0).priv == 1) ∧
       brings (exec .eret (s 1 2)) (fun t => (t.fe 0).h.trapcause == causeWord false ((fe 1).fe 0).h.pc false 0 0 ILLEGAL)
       ∧ brings (exec .eret (s 1 3)) (fun t => (t.fe 0).priv == 2)) := by
  unfold brings; decide +kernel

/-- A running frame whose word is fetched through the tile's window, one with the window another's, an inline handler, and a
front-end core. -/
theorem meets_StepRunsDecoded :
    (let s := { (State.reset.placeCore 0x08630001) with tick := 0 }
     let s1 := ({ s with tick := 1 } : State).clockCore 0
     s.inputs = [] ∧ s.agent = .core 0 ∧ ({ s with tick := 1 } : State).goesOn 0 = true ∧
       (s1.active 0 && s1.admissionDue 0 && !s1.begunAt 0) = false ∧
       (match s1.top 0 with
        | some f => !Machine.begun f.vsent && f.leader.isNone && s1.gangReady 0 f && f.pending.isNone && f.unl && f.kind != 1
            && decide (f.h.pc < s1.codeWords f.graph) && inOverlay f.overlay f.h.pc &&
            (match s1.xlate (s1.dieOf 0) (s1.holdersOf 0) (s1.partOf 0) (s1.ctxOf f.graph) (s1.codeBase f.graph + 64).toNat needX with
             | .pa pa s2 => s2.isLocal [pa] && !s2.portFailed pa && !s2.anyBad (span pa 4) && !s2.windowed (s2.tileOf 0) &&
                 (let s3 := s2.openWindow 0 f
                  !tget false s3.mem.badIcache (icacheKey (s3.tileOf 0) pa / 2) && (tfind s3.mem.icache (icacheKey (s3.tileOf 0) pa)).isNone)
             | _ => false) &&
            (match decodeWord 0x08630001 with | .ok i => !f.readsBad i && !f.waitsSeq i && (match s1.front i with | .go _ => true | _ => false) | _ => false)
        | none => false) = true ∧
       (handlerWord Rec.zero 0 = 0) ∧
       (let c := { ((fe 2).setModState 2) with inputs := [] }
        (c.fe 0).halted = false ∧ (c.fe 0).released = true ∧
          (let u := ({ c with tick := c.tick + 1, agent := .fe 0 } : State).clockFe 0
           (u.feCheck 0 (BitVec.ofNat 64 ((c.fe 0).h.pc * 4)) 4 needX).isNone = true ∧ u.isLocal (u.feBytes ((c.fe 0).h.pc * 4) 4) = true))) := by
  decide +kernel

/-- Memory after reset, and after a store, is in canonical form. -/
theorem meets_StepKeepsMemory : State.reset.memOk = true ∧ (tabled.setMem64 0x10020000 7).memOk = true := by decide +kernel

end Sys2Proof.Tests
end

section
/-! PROOFS. Translation and the accesses of local memory. -/

namespace Sys2Proof.Machine

/-! ### Runs of addresses and bytes -/

theorem span_eq_range' (a n : Nat) : span a n = List.range' a n := by
  induction n generalizing a with
  | zero => rfl
  | succ n ih => rw [span, ih, List.range'_succ]

@[simp] theorem length_span (a n : Nat) : (span a n).length = n := by rw [span_eq_range', List.length_range']

@[simp] theorem mem_span {a n x : Nat} : x ∈ span a n ↔ a ≤ x ∧ x < a + n := by rw [span_eq_range', List.mem_range'_1]

@[simp] theorem length_leBytes (n v : Nat) : (leBytes n v).length = n := by
  induction n generalizing v with
  | zero => rfl
  | succ n ih => rw [leBytes, List.length_cons, ih]

/-! ### What a translation leaves unchanged -/

/-- A state differs from another in what the translation units hold alone: held translations, misses, and the accesses that
have been counted as waiting on a page (R201, R204). -/
def State.Translated (s t : State) : Prop :=
  ∃ tlb misses waits, t = { s with mem := { s.mem with tlb := tlb, misses := misses, migWaits := waits } }

theorem State.Translated.refl (s : State) : s.Translated s := ⟨_, _, _, rfl⟩

theorem State.Translated.trans {s t u : State} (h : s.Translated t) (k : t.Translated u) : s.Translated u := by
  obtain ⟨_, _, _, rfl⟩ := h
  obtain ⟨_, _, _, rfl⟩ := k
  exact ⟨_, _, _, rfl⟩

section
variable {s t : State} (h : s.Translated t)
include h

theorem State.Translated.bytes : t.mem.bytes = s.mem.bytes := by obtain ⟨_, _, _, rfl⟩ := h; rfl
theorem State.Translated.cellar : t.mem.cellar = s.mem.cellar := by obtain ⟨_, _, _, rfl⟩ := h; rfl
theorem State.Translated.region (a : Nat) : t.region a = s.region a := by obtain ⟨_, _, _, rfl⟩ := h; rfl
theorem State.Translated.portFailed : t.portFailed = s.portFailed := by obtain ⟨_, _, _, rfl⟩ := h; rfl
theorem State.Translated.storable (l : List Nat) : t.storable l = s.storable l := by obtain ⟨_, _, _, rfl⟩ := h; rfl

end

theorem State.fillXlat_translated (s : State) (x : Xlat) : s.Translated (s.fillXlat x) := by
  unfold State.fillXlat
  split <;> exact ⟨_, _, _, rfl⟩

theorem State.fillAll_translated (s : State) (holders : List Nat) (ctx va : Nat) (e : Word) (l : Nat) :
    s.Translated (s.fillAll holders ctx va e l) :=
  List.foldlRecOn holders _ (.refl s) fun t h _ _ => h.trans (t.fillXlat_translated _)

theorem State.missServed_translated (s : State) (x : Miss) : s.Translated (s.missServed x) := by
  unfold State.missServed
  split <;> exact ⟨_, _, _, rfl⟩

theorem State.noteMiss_translated (s : State) (x : Miss) : s.Translated (s.noteMiss x) := by
  unfold State.noteMiss
  split <;> exact ⟨_, _, _, rfl⟩

theorem State.migGone_translated (s : State) (x : Miss) : s.Translated (s.migGone x) := by
  unfold State.migGone
  split <;> exact ⟨_, _, _, rfl⟩

theorem State.lookup_translated (s : State) (die : Nat) (holders : List Nat) (ctx va : Nat) :
    s.Translated (s.lookup die holders ctx va).2 := by
  unfold State.lookup
  split
  · exact (s.fillAll_translated ..).trans (missServed_translated ..)
  · split
    · split
      · exact s.fillAll_translated ..
      · exact .refl s
    · dsimp only
      split
      · exact .refl s
      · exact s.noteMiss_translated _

theorem State.xlate_translated {s t : State} {die : Nat} {holders : List Nat} {part ctx va need p : Nat}
    (h : s.xlate die holders part ctx va need = .pa p t) : s.Translated t := by
  have hl := s.lookup_translated die holders ctx va
  unfold State.xlate at h
  split at h
  · cases h
  · cases h
  · cases h
  · next e l s1 he =>
    rw [he] at hl
    have hg : s.Translated (if need / needW % 2 == 1 then s1.migGone (missOf die holders ctx va) else s1) := by
      split
      · exact hl.trans (s1.migGone_translated _)
      · exact hl
    dsimp only at h
    split at h
    · cases h
    · split at h
      · cases h
      · split at h
        · cases h
        · split at h <;> cases h <;> exact hg

/-- An access within one page touches the bytes that follow the one its address translates to (R192). -/
theorem State.xlateSpan_onePage {s t : State} {die : Nat} {holders : List Nat} {part ctx va n need : Nat} {l : List Nat}
    (hn : n ≤ 65536 - va % 65536) (h : s.xlateSpan die holders part ctx va n need = .pas l t) :
    l.length = n ∧ s.Translated t := by
  unfold State.xlateSpan at h
  split at h
  · cases h
  · cases h
  · next p s1 hp =>
    rw [if_pos hn] at h
    cases h
    exact ⟨length_span p n, State.xlate_translated hp⟩

theorem pageParts_onePage {va : Nat} {l : List Nat} (h : l.length ≤ 65536 - va % 65536) : pageParts va l = [(0, l)] :=
  if_pos h

/-! ### What the line times leave unchanged (R195) -/

theorem State.leaseLoad_data (s : State) (lc line : Nat) : (s.leaseLoad lc line).data = s.data := by
  unfold State.leaseLoad
  dsimp only
  split <;> rfl

theorem State.leaseStore_data (s : State) (lc line : Nat) : (s.leaseStore lc line).data = s.data := rfl

theorem State.leaseLoads_data (s : State) (lc : Nat) (l : List Nat) : (s.leaseLoads lc l).data = s.data :=
  List.foldlRecOn (motive := fun t : State => t.data = s.data) (linesOf l) _ rfl fun t h a _ => (t.leaseLoad_data lc a).trans h

theorem State.leaseStores_data (s : State) (lc : Nat) (l : List Nat) : (s.leaseStores lc l).data = s.data :=
  List.foldlRecOn (motive := fun t : State => t.data = s.data) (linesOf l) _ rfl fun t h a _ => (t.leaseStore_data lc a).trans h

/-- A store to local memory puts its bytes there. -/
theorem State.leaseStores_writeMem_bytes (s : State) (lc : Nat) (l : List Nat) (bs : List Byte) :
    ((s.leaseStores lc l).writeMem l bs).mem.bytes = scatterBytes s.mem.bytes l bs := by
  have h := congrArg Prod.fst (s.leaseStores_data lc l)
  simp only [State.data] at h
  simp [State.writeMem, h]

theorem State.leaseStores_writeMem_cellar (s : State) (lc : Nat) (l : List Nat) (bs : List Byte) :
    ((s.leaseStores lc l).writeMem l bs).mem.cellar = s.mem.cellar :=
  congrArg Prod.snd (s.leaseStores_data lc l)

/-! ### Accesses of local memory -/

/-- A store whose codewords are all good covers none of the bad ones in part (R242). -/
theorem State.storable_of_good {s : State} {l : List Nat} (h : s.anyBad l = false) : s.storable l = true := by
  simp only [State.anyBad, List.any_eq_false, State.badAt, Bool.or_eq_true, not_or, Bool.not_eq_true] at h
  simp only [State.storable, List.all_eq_true]
  intro a ha
  simp [h a ha]

section
variable {s s1 : State} {lc va n need pa : Nat} {ea : Word} {l : List Nat}
variable (ha : s.agent = .core lc) (hs : spaceOf ea n = .global va) (hl : s.coreSpan lc va n need = .pas l s1)
  (hr : s.region (l.headD 0) = .hbm pa)
include ha hs hl hr

/-- An atomic in local HBM gives the old value and writes the new one (R210, R217). -/
theorem State.atomic_local (op : RemoteOp) (f : Nat → Nat) (hb : s.anyBad l = false) (hp : l.any s.portFailed = false) :
    s.atomic ea n need op f = .ok (s.readMem l) ((s1.leaseStores lc l).writeMem l (leBytes n (f (s.readMem l)))) := by
  simp [State.atomic, ha, State.coreAtomic, hs, hl, -List.headD_eq_head?_getD, hr, hp, hb]

variable (hn : n ≤ 65536 - va % 65536)
include hn

/-- A load in local HBM gives the bytes at its addresses (R308). -/
theorem State.load_local (h : need = needR) (hf : s1.loadFails lc l = false) :
    s.load ea n = .ok (s.readMem l) (s1.leaseLoads lc l) := by
  subst h
  obtain ⟨hlen, ht⟩ := State.xlateSpan_onePage hn hl
  have hr1 := (ht.region _).trans hr
  simp [State.load, ha, State.coreLoad, hs, hl, pageParts_onePage (hlen ▸ hn), State.loadParts,
    State.loadPart, -List.headD_eq_head?_getD, hr1, hf, State.readMem, ht.bytes]

/-- A store in local HBM writes its bytes there. -/
theorem State.store_local (h : need = needW) (v : Nat) (hb : s.anyBad l = false) (hp : l.any s.portFailed = false)
    (hf : s1.hostBusy l = false) :
    s.store ea n v = .ok 0 ((s1.leaseStores lc l).writeMem l (leBytes n v)) := by
  subst h
  obtain ⟨hlen, ht⟩ := State.xlateSpan_onePage hn hl
  have hr1 := (ht.region _).trans hr
  have hst : s1.storable l = true := (ht.storable l).trans (State.storable_of_good hb)
  have hok : s1.partsStorable [(0, l)] = true := by
    simp [State.partsStorable, hst, ht.portFailed, hp]
  have htake : (leBytes n v).take l.length = leBytes n v := List.take_of_length_le (by rw [length_leBytes, hlen])
  simp [State.store, ha, State.coreStore, hs, hl, pageParts_onePage (hlen ▸ hn), hf, hok,
    State.storePart, -List.headD_eq_head?_getD, hr1, htake]

end

/-- Settles O15: an access within one page that translates to local HBM, by what the translation and the line times leave
unchanged. -/
theorem accessesOfLocalMemory : Obligations.AccessesOfLocalMemory := by
  intro s lc va n need v pa ea l s1 op f ha hs hn hl hr hb hp
  have ht := (State.xlateSpan_onePage hn hl).2
  have written : ∀ bs, let t := (s1.leaseStores lc l).writeMem l bs
      t.mem.bytes = scatterBytes s.mem.bytes l bs ∧ (∀ a, a ∉ l → byteAt t.mem.bytes a = byteAt s.mem.bytes a) ∧
        t.mem.cellar = s.mem.cellar := by
    intro bs
    have hw := (State.leaseStores_writeMem_bytes s1 lc l bs).trans (by rw [ht.bytes])
    exact ⟨hw, fun a h => by rw [hw]; exact byteAt_scatterBytes_other l bs _ a h,
      (State.leaseStores_writeMem_cellar s1 lc l bs).trans ht.cellar⟩
  refine ⟨fun h hf => ?_, fun h hf => ?_, ?_⟩
  · have hd := s1.leaseLoads_data lc l
    exact ⟨_, State.load_local ha hs hl hr hn h hf, (congrArg Prod.fst hd).trans ht.bytes,
      (congrArg Prod.snd hd).trans ht.cellar⟩
  · exact ⟨_, State.store_local ha hs hl hr hn h v hb hp hf, written _⟩
  · exact ⟨_, State.atomic_local ha hs hl hr op f hb hp, written _⟩

end Sys2Proof.Machine
end

section
/-! PROOFS. A step of an agent fetches a word and runs what it decodes to. -/

namespace Sys2Proof.Machine

/-! ### What comes before a fetch leaves the agent's turn as it is -/

theorem State.Translated.agent {s t : State} (h : s.Translated t) : t.agent = s.agent := by obtain ⟨_, _, _, rfl⟩ := h; rfl

@[simp] theorem State.clockCore_agent (s : State) (lc : Nat) : (s.clockCore lc).agent = s.agent := by
  simp only [State.clockCore]
  split
  · split <;> simp
  · rfl

/-- Opening a window changes the cached words and the tiles alone (R305). -/
theorem State.openWindow_eq (s : State) (lc : Nat) (f : Frame) :
    ∃ c x, s.openWindow lc f = { s with mem := { s.mem with icache := c }, tiles := x } := by
  unfold State.openWindow
  dsimp only
  split <;> exact ⟨_, _, rfl⟩

/-! ### Fetching -/

/-- The word at a physical address can be read in this module: it is local, its port is up, and its codewords are good. -/
def State.Fetchable (s : State) (pa : Nat) : Prop :=
  s.isLocal [pa] = true ∧ s.portFailed pa = false ∧ s.anyBad (span pa 4) = false

theorem State.Fetchable.openWindow {s : State} {pa : Nat} (h : s.Fetchable pa) (lc : Nat) (f : Frame) :
    (s.openWindow lc f).Fetchable pa := by
  obtain ⟨c, x, he⟩ := s.openWindow_eq lc f
  rw [he]
  exact h

theorem State.fetchMem_local {s : State} {pa : Nat} (va : Word) (h : s.Fetchable pa) :
    s.fetchMem pa va = .word (s.readMem (span pa 4)) s := by
  obtain ⟨hl, hp, hb⟩ := h
  unfold State.fetchMem
  simp only [State.isLocal, List.headD_cons] at hl
  simp only [hp, hb]
  split at hl
  · cases hl
  · cases hl
  · split <;> simp_all

theorem State.fetchWord_held {s : State} {lc pa : Nat} {w : BitVec 32} (va : Word)
    (hb : tget false s.mem.badIcache (icacheKey (s.tileOf lc) pa / 2) = false)
    (hw : tfind s.mem.icache (icacheKey (s.tileOf lc) pa) = some w) : s.fetchWord lc pa va = .word w.toNat s := by
  simp [State.fetchWord, hb, hw]

/-- A word that the cache does not hold is read and kept (R219). -/
theorem State.fetchWord_missed {s : State} {lc pa : Nat} (va : Word)
    (hb : tget false s.mem.badIcache (icacheKey (s.tileOf lc) pa / 2) = false)
    (hw : tfind s.mem.icache (icacheKey (s.tileOf lc) pa) = none) (h : s.Fetchable pa) :
    s.fetchWord lc pa va = .word (s.readMem (span pa 4))
      (s.fillIcache (icacheKey (s.tileOf lc) pa) (BitVec.ofNat 32 (s.readMem (span pa 4)))) := by
  simp [State.fetchWord, hb, hw, State.fetchMem_local va h]

theorem State.fetchCore_handler {s : State} {lc : Nat} {f : Frame} (hk : f.kind = 1) (h : f.h.pc < 12) :
    s.fetchCore lc f = .word (handlerWord f.rcd f.h.pc) s := by simp [State.fetchCore, hk, h]

theorem State.fetchCore_past {s : State} {lc : Nat} {f : Frame} (hk : f.kind = 1) (h : 12 ≤ f.h.pc) :
    s.fetchCore lc f = .past := by simp [State.fetchCore, hk, Nat.not_lt.mpr h]

section
variable {s t : State} {lc pa : Nat} {f : Frame} (hk : f.kind ≠ 1) (hpc : f.h.pc < s.codeWords f.graph)
  (ho : inOverlay f.overlay f.h.pc = true)
  (hx : s.xlate (s.dieOf lc) (s.holdersOf lc) (s.partOf lc) (s.ctxOf f.graph)
    (s.codeBase f.graph + BitVec.ofNat 64 (4 * f.h.pc)).toNat needX = .pa pa t)
include hk hpc ho hx

/-- Code of no overlay is read through L2 where the window is another's (R305). -/
theorem State.fetchCore_besideWindow (hv : f.overlay = none) (hw : t.windowed (t.tileOf lc) = true) :
    s.fetchCore lc f = t.fetchMem pa (s.codeBase f.graph + BitVec.ofNat 64 (4 * f.h.pc)) := by
  have hw' : (f.overlay.isNone && t.windowed (t.tileOf lc)) = true := by simp [hv, hw]
  rw [State.fetchCore, if_neg hk, if_neg (by simp [Nat.not_le.mpr hpc, ho])]
  simp only [hx, hw']
  rfl

/-- Other code is read through the tile's instruction cache. -/
theorem State.fetchCore_cached (hw : f.overlay.isSome = true ∨ t.windowed (t.tileOf lc) = false) :
    s.fetchCore lc f = (t.openWindow lc f).fetchWord lc pa (s.codeBase f.graph + BitVec.ofNat 64 (4 * f.h.pc)) := by
  have hw' : (f.overlay.isNone && t.windowed (t.tileOf lc)) = false := by
    rcases hw with h | h
    · simp [Option.isNone_eq_false_iff.mpr h]
    · simp [h]
  rw [State.fetchCore, if_neg hk, if_neg (by simp [Nat.not_le.mpr hpc, ho])]
  simp only [hx, hw']
  rfl

end

/-! ### Running a word -/

/-- An outcome is that of running a fetched word on a compute core in a state: the word's instruction, or ILLEGAL; before an
instruction that waits for the sequencer a chunk of it, and DATA for one that reads an uncorrectable register (R171, R242,
R276). -/
def RunsWord (o : Out) (lc w : Nat) (t : State) : Prop :=
  (∀ e, decodeWord w = .error e → o = .next (t.trap ILLEGAL (BitVec.ofNat 64 w))) ∧
  (∀ i g, decodeWord w = .ok i → t.top lc = some g →
    (∀ v, t.front i = .go v → (g.readsBad i = false → o = exec i t) ∧
      (g.readsBad i = true → o = .next ((t.setTop lc { g with bad := true }).takeTrap lc DATA 0 none))) ∧
    ((∀ v, t.front i ≠ .go v) → (g.waitsSeq i = false → o = exec i t) ∧
      (g.waitsSeq i = true → o = exec (.sequencerChunk lc) t)))

theorem State.runWord_illegal {s : State} {w : Nat} {e : DecodeError} (h : decodeWord w = .error e) :
    s.runWord w = .next (s.trap ILLEGAL (BitVec.ofNat 64 w)) := by simp [State.runWord, h]

theorem State.runWord_fe {s : State} {w n : Nat} {i : Instr} (ha : s.agent = .fe n) (h : decodeWord w = .ok i) :
    s.runWord w = exec i s := by simp [State.runWord, h, ha]

theorem State.runsWord_runWord {s : State} {lc w : Nat} (ha : s.agent = .core lc) : RunsWord (s.runWord w) lc w s := by
  refine ⟨fun e he => State.runWord_illegal he, fun i g hi hg => ⟨fun v hv => ?_, fun hv => ?_⟩⟩
  · constructor <;> intro hb <;> simp [State.runWord, hi, ha, hg, hv, hb]
  · have he : s.runWord w = if g.waitsSeq i then execSequencerChunk lc s else exec i s := by
      simp only [State.runWord, hi, ha, hg]
    constructor <;> intro hb <;> simp only [he, hb] <;> rfl

/-! ### A turn -/

section
variable {s : State} {lc : Nat} {f : Frame} (hl : f.leader = none) (hg : s.gangReady lc f = true) (hp : f.pending = none)
  (hu : f.unl = true ∨ f.left ≠ 0)
include hl hg hp hu

/-- Where no gang, no trap and no used-up budget stands before it, the frame fetches. -/
theorem State.runFrame_word {t : State} {w : Nat} (h : s.fetchCore lc f = .word w t) : s.runFrame lc f = t.runWord w := by
  rcases hu with hu | hu <;> simp [State.runFrame, hl, hg, hp, hu, h]

theorem State.runFrame_past (h : s.fetchCore lc f = .past) : s.runFrame lc f = exec .endTask s := by
  rcases hu with hu | hu <;> simp [State.runFrame, hl, hg, hp, hu, h]

end

theorem step_core {s : State} {lc : Nat} (hin : s.inputs = []) (ha : s.agent = .core lc) :
    step s = ({ s with tick := s.tick + 1 } : State).turnCore lc := by
  unfold step
  split
  · next h => simp [hin] at h
  · split
    · next h => cases ha.symm.trans h; rfl
    · next h => cases ha.symm.trans h

theorem step_fe {s : State} {n : Nat} (hin : s.inputs = []) (ha : s.agent = .fe n) :
    step s = ({ s with tick := s.tick + 1 } : State).turnFe n := by
  unfold step
  split
  · next h => simp [hin] at h
  · split
    · next h => cases ha.symm.trans h
    · next h => cases ha.symm.trans h; rfl

theorem State.turnCore_runFrame {s s1 : State} {lc : Nat} {f : Frame} (hlt : lc < 1024) (hgo : s.goesOn lc = true)
    (hc : s.clockCore lc = s1) (hf : s1.top lc = some f) (hv : begun f.vsent = false)
    (hadm : (s1.active lc && s1.admissionDue lc && !s1.begunAt lc) = false) : s.turnCore lc = s1.runFrame lc f := by
  subst hc
  simp only [State.turnCore, ge_iff_le, Nat.not_le.mpr hlt, hgo, hf, hadm, Option.any_some, hv]
  rfl

theorem State.turnFe_word {s t : State} {n w : Nat} (hn : n < 16) (hh : (s.fe n).halted = false) (hr : (s.fe n).released = true)
    (h : (s.clockFe n).fetchFe n = .word w t) : s.turnFe n = t.runWord w := by
  simp [State.turnFe, Nat.not_le.mpr hn, hh, hr, h]

/-- A front-end core fetches at the physical address in its pc (R50). -/
theorem State.fetchFe_word {s : State} {n a : Nat} (ha : a = (s.fe n).h.pc * 4)
    (hc : s.feCheck n (BitVec.ofNat 64 a) 4 needX = none) (h : s.Fetchable ((s.feBytes a 4).headD 0)) :
    s.fetchFe n = .word (s.readMem (span ((s.feBytes a 4).headD 0) 4)) s := by
  subst ha
  simp only [State.fetchFe, hc, State.fetchMem_local _ h]

/-! ### The statement -/

/-- Settles O57: each clause names the fetch of its case, and running the fetched word is one lemma. -/
theorem stepRunsDecoded : Obligations.StepRunsDecoded := by
  intro s
  refine ⟨fun x l h => by simp [step, h], fun hin => ⟨?_, ?_⟩⟩
  · intro lc f s1 ha hlt hgo hc hf hv hadm hl hg hp hu runs
    have hstep : step s = s1.runFrame lc f := (step_core hin ha).trans (State.turnCore_runFrame hlt hgo hc hf hv hadm)
    have ha1 : s1.agent = .core lc := by rw [← hc, State.clockCore_agent]; exact ha
    have hruns : ∀ w t, t.agent = .core lc → s1.fetchCore lc f = .word w t → runs w t := by
      intro w t hat hw
      have h : RunsWord (step s) lc w t := by
        rw [hstep, State.runFrame_word hl hg hp hu hw]
        exact State.runsWord_runWord hat
      exact h
    refine ⟨fun hk => ⟨fun hpc => ?_, fun hpc => ?_⟩, ?_⟩
    · exact hruns _ _ ha1 (State.fetchCore_handler hk hpc)
    · exact hstep.trans (State.runFrame_past hl hg hp hu (State.fetchCore_past hk hpc))
    · intro pa s2 hk hpc ho va hx good
      have ha2 : s2.agent = .core lc := (State.xlate_translated hx).agent.trans ha1
      refine ⟨fun hov hw hgood => ?_, ?_⟩
      · exact hruns _ _ ha2 ((State.fetchCore_besideWindow hk hpc ho hx hov hw).trans (State.fetchMem_local _ hgood))
      · intro hw s3 k hb
        have ha3 : s3.agent = .core lc := by
          obtain ⟨c, x, he⟩ := s2.openWindow_eq lc f
          simp only [s3, he]
          exact ha2
        have hcached := State.fetchCore_cached hk hpc ho hx hw
        exact ⟨fun w hw => hruns _ _ ha3 (hcached.trans (State.fetchWord_held _ hb hw)), fun hn hgood =>
          hruns _ _ ha3 (hcached.trans (State.fetchWord_missed _ hb hn (State.Fetchable.openWindow hgood lc f)))⟩
  · intro n ha hn hh hr s1 a pa hc hl hp hb w
    have hpc : a = (s1.fe n).h.pc * 4 := by simp only [s1, State.clockFe, State.fe_setFe]; rfl
    have hstep : step s = s1.runWord w :=
      (step_fe hin ha).trans (State.turnFe_word hn hh hr (State.fetchFe_word hpc hc ⟨hl, hp, hb⟩))
    exact ⟨fun i hi => hstep.trans (State.runWord_fe ha hi), fun e he => hstep.trans (State.runWord_illegal he)⟩

end Sys2Proof.Machine
end

section
/-! PROOFS. Writes and reads of registers by the steps of the part. -/

namespace Sys2Proof.Machine

/-! ### Counters and entries -/

theorem tget_mput_same {α : Type} [DecidableEq α] (d v : α) (k : Nat) (t : Table α) : tget d (mput d k v t) k = v := by
  unfold mput
  split
  · next h => rw [tget_tdel_same, h]
  · exact tget_tput_same ..

theorem tget_mput_other {α : Type} [DecidableEq α] (d v : α) (k x : Nat) (t : Table α) (h : x ≠ k) :
    tget d (mput d k v t) x = tget d t x := by
  unfold mput
  split
  · exact tget_tdel_other _ _ _ _ h
  · exact tget_tput_other _ _ _ _ _ h

theorem State.counter_setCounter (s : State) (code inst : Nat) (v : BitVec 32) :
    (s.setCounter code inst v).counter code inst = v := tget_mput_same ..

theorem State.counter_setCounter_ne (s : State) {code inst c i : Nat} (v : BitVec 32) (hi : inst < 4096) (hj : i < 4096)
    (h : (c, i) ≠ (code, inst)) : (s.setCounter code inst v).counter c i = s.counter c i := by
  refine tget_mput_other _ _ _ _ _ fun he => h ?_
  simp only [Prod.mk.injEq]
  omega

/-- FEDATA of the counters' table reads one and clears it (R29). -/
theorem State.feRead_counter (s : State) {code inst : Nat} (hc : code < 4096) (hi : inst < 4096) :
    s.feRead 16 (code * 4096 + inst) = ((s.counter code inst).setWidth 64, s.setCounter code inst 0) := by
  have hsize : ¬ code * 4096 + inst ≥ feSize 16 := by simp only [feSize]; omega
  have hq : (code * 4096 + inst) / 4096 = code := by omega
  have hr : (code * 4096 + inst) % 4096 = inst := by omega
  simp only [State.feRead, hsize, if_false, hq, hr]

/-- A write to a table that brings nothing about beside its entry. -/
theorem State.feWrite_accepted (s : State) {tbl idx : Nat} {w : Word} (hidx : idx < feSize tbl)
    (ht : tbl ∉ [3, 6, 9, 12, 14, 16, 24]) (h : s.feOk tbl idx w = true) :
    s.feWrite tbl idx w = s.setEntry tbl idx (s.merged tbl idx w) := by
  simp only [List.mem_cons, List.not_mem_nil, or_false, not_or] at ht
  obtain ⟨h3, h6, h9, h12, h14, h16, h24⟩ := ht
  simp only [State.feWrite, ge_iff_le, Nat.not_le.mpr hidx, if_false, h6, h16, h, if_true]
  simp only [State.feAfter]

/-- A field that a mask covers is taken from the word written (R5). -/
theorem bits_masked (e w m : Word) {lo len : Nat} (h : ∀ i < len, m.getLsbD (lo + i) = true) :
    bits ((e &&& ~~~m) ||| (w &&& m)) lo len = bits w lo len := by
  have bits_eq (x : Word) : bits x lo len = (x.extractLsb' lo len).toNat := by simp [bits, Nat.shiftRight_eq_div_pow]
  rw [bits_eq, bits_eq]
  congr 1
  refine BitVec.eq_of_getLsbD_eq fun i hi => ?_
  simp [hi, h i hi]

/-- A write that the table's rule refuses changes nothing. -/
theorem State.feWrite_refused (s : State) {tbl idx : Nat} {w : Word} (h6 : tbl ≠ 6) (h : s.feOk tbl idx w = false) :
    s.feWrite tbl idx w = s := by
  simp [State.feWrite, h6, h]

/-! ### What the rails' following of a request leaves unchanged (R73) -/

/-- A state differs from another in tiles and rails alone. -/
def State.Tuned (s t : State) : Prop := ∃ x y, t = { s with tiles := x, rails := y }

theorem State.Tuned.refl (s : State) : s.Tuned s := ⟨_, _, rfl⟩

theorem State.Tuned.trans {s t u : State} (h : s.Tuned t) (k : t.Tuned u) : s.Tuned u := by
  obtain ⟨_, _, rfl⟩ := h
  obtain ⟨_, _, rfl⟩ := k
  exact ⟨_, _, rfl⟩

theorem State.Tuned.core {s t : State} (h : s.Tuned t) (n : Nat) : t.core n = s.core n := by
  obtain ⟨_, _, rfl⟩ := h
  rfl

theorem State.Tuned.entry {s t : State} (h : s.Tuned t) (tbl idx : Nat) : t.entry tbl idx = s.entry tbl idx := by
  obtain ⟨_, _, rfl⟩ := h
  rfl

theorem State.setTile_tuned (s : State) (n : Nat) (x : Tile) : s.Tuned (s.setTile n x) := ⟨_, _, rfl⟩
theorem State.setRail_tuned (s : State) (r : Nat) (x : Rail) : s.Tuned (s.setRail r x) := ⟨_, _, rfl⟩
theorem State.addEnergy_tuned (s : State) (n k : Nat) : s.Tuned (s.addEnergy n k) := s.setTile_tuned ..

theorem State.switchTile_tuned (s : State) (n : Nat) : s.Tuned (s.switchTile n) := by
  unfold State.switchTile
  dsimp only
  split
  · exact s.setTile_tuned ..
  · split
    · exact s.setTile_tuned ..
    · exact .refl s

theorem State.chargeRail_tuned (s : State) (r : Nat) : s.Tuned (s.chargeRail r) := by
  unfold State.chargeRail
  dsimp only
  split
  · exact .refl s
  · refine .trans (.trans (.trans ?_ (State.addEnergy_tuned ..)) (State.addEnergy_tuned ..)) (State.setRail_tuned ..)
    exact List.foldlRecOn _ _ (.refl s) fun t h n _ => h.trans (t.addEnergy_tuned ..)

theorem State.retune_tuned (s : State) (r : Nat) : s.Tuned (s.retune r) := by
  unfold State.retune State.switchTiles State.setLevel
  refine List.foldlRecOn _ _ ?_ fun t h n _ => h.trans (t.switchTile_tuned n)
  exact (s.chargeRail_tuned r).trans (State.setRail_tuned ..)

theorem State.retuneCore_tuned (s : State) (lc : Nat) : s.Tuned (s.retuneCore lc) := by
  unfold State.retuneCore
  split
  · exact s.retune_tuned _
  · exact .refl s

/-- A write of the logical-to-physical master that its rules let through sets the place, the hold and the mapping (R24). -/
theorem State.entry_feWrite_l2p (s : State) {lc : Nat} {w : Word} (hlc : lc < 1024) (h : s.l2pOk lc w = true) :
    (s.feWrite 12 lc w).entry 12 lc = s.merged 12 lc w := by
  have hw : s.feWrite 12 lc w = (((s.setEntry 12 lc (s.merged 12 lc w)).retuneCore lc).retune (s.tileOf lc / 4)) := by
    have hok : s.feOk 12 lc w = true := h
    have hsize : ¬ lc ≥ feSize 12 := by simp only [feSize]; omega
    simp only [State.feWrite, hsize, if_false, hok, if_true, State.feAfter]
    rfl
  rw [hw, ((State.retuneCore_tuned _ lc).trans (State.retune_tuned ..)).entry, State.entry_setEntry]

theorem ofN_feMask_l2p (lc : Nat) : ofN (feMask 12 lc) = 0xC3FF := rfl

/-! ### Requests of operating points (R70) -/

/-- A request that the governor does not deny is granted. -/
theorem execOpreqDecide_grant (s : State) (lc watts milliwatts : Nat) (hr : (s.core lc).opresult = 1)
    (hfloor : s.opFloor (s.partOf lc) ≤ (s.core lc).opreq.toNat % 16)
    (hcap : (s.core lc).opreq.toNat % 16 ≤ s.opCap (s.partOf lc))
    (hpow : (s.core lc).opreq.toNat % 16 ≤ (s.core lc).eff ∨
      s.overEstimate lc (1000 * watts + milliwatts) ((s.core lc).opreq.toNat % 16) = false) :
    ∃ t, execOpreqDecide lc watts milliwatts s = .next t ∧ (t.core lc).eff = (s.core lc).opreq.toNat % 16 ∧
      (t.core lc).opresult = 2 := by
  have hpow' : ¬ ((s.core lc).opreq.toNat % 16 > (s.core lc).eff ∧
      s.overEstimate lc (1000 * watts + milliwatts) ((s.core lc).opreq.toNat % 16) = true) := by
    rintro ⟨h1, h2⟩
    rcases hpow with h | h
    · omega
    · simp [h] at h2
  unfold execOpreqDecide
  rw [if_neg (not_not.mpr hr), if_neg (Nat.not_lt.mpr hfloor), if_neg (Nat.not_lt.mpr hcap), if_neg hpow']
  refine ⟨_, rfl, ?_⟩
  rw [(State.retuneCore_tuned ..).core, State.core_setCore]
  exact ⟨rfl, rfl⟩

/-! ### The meanings of the steps -/

theorem exec_counterReadClear (code inst : Nat) (s : State) :
    exec (.counterReadClear code inst) s = execCounterReadClear code inst s := rfl
theorem exec_fedataWrite (w : Word) (s : State) : exec (.fedataWrite w) s = execFedataWrite w s := rfl
theorem exec_l2pWrite (lc : Nat) (w : Word) (s : State) : exec (.l2pWrite lc w) s = execL2pWrite lc w s := rfl
theorem exec_l2pHoldAck (lc stop : Nat) (s : State) : exec (.l2pHoldAck lc stop) s = execL2pHoldAck lc stop s := rfl
theorem exec_opreqDecide (lc watts milliwatts : Nat) (s : State) :
    exec (.opreqDecide lc watts milliwatts) s = execOpreqDecide lc watts milliwatts s := rfl
theorem exec_seedWrite (w : Word) (s : State) : exec (.seedWrite w) s = execSeedWrite w s := rfl
theorem exec_fpstatAccess (lc : Nat) (s : State) : exec (.fpstatAccess lc) s = execFpstatAccess lc s := rfl

/-! ### The statement -/

/-- Settles O50: each clause is the meaning of its step, by the laws of counters, entries and units, and by what retuning a
rail leaves unchanged. -/
theorem registerSteps : Obligations.RegisterSteps := by
  intro s code inst tbl idx lc stop k watts milliwatts w auto op
  refine ⟨fun hc hi => ?_, fun hidx ht => ⟨s.feWrite_accepted hidx ht, s.feWrite_refused ?_⟩, fun ha hp => ?_,
    fun hlc => ⟨fun h => ?_, fun h => ?_⟩, fun x hx hph hearly => ?_, ?_, ?_, fun k ha => ?_, fun f hgo hf => ?_⟩
  · have hr := s.feRead_counter hc hi
    refine ⟨s.setCounter code inst 0, ?_, s.counter_setCounter .., by rw [hr], fun c i _ hi' hne => ?_⟩
    · simp only [exec_counterReadClear, execCounterReadClear, hc, hi, and_self, if_true, hr]
    · exact s.counter_setCounter_ne 0 hi hi' hne
  · rintro rfl
    simp at ht
  · simp only [exec_fedataWrite, execFedataWrite, State.actingFe, ha, hp, if_false]
    rfl
  · simp only [exec_l2pWrite, execL2pWrite, s.feWrite_refused (by decide) (tbl := 12) h]
  · have hw : bits ((s.feWrite 12 lc w).entry 12 lc) 0 10 = bits w 0 10 ∧ bit ((s.feWrite 12 lc w).entry 12 lc) 15 = bit w 15 ∧
        bit ((s.feWrite 12 lc w).entry 12 lc) 14 = bit w 14 := by
      rw [s.entry_feWrite_l2p hlc h, State.merged, ofN_feMask_l2p]
      refine ⟨bits_masked _ _ _ (by decide), ?_, ?_⟩ <;> rw [bit, bit, bits_masked _ _ _ (by decide)]
    exact ⟨_, rfl, hw⟩
  · simp only [exec_l2pHoldAck, execL2pHoldAck, hx, hph, hearly]
    rfl
  · have hauto : (BitVec.ofNat 5 (auto.toNat * 16 + op.val)).getLsbD 4 = auto := by
      revert auto op
      decide
    refine ⟨_, rfl, by simp [State.writeOpreq], fun h => ?_, fun h hr => ?_, fun n hn => State.core_setCore_ne _ _ _ _ hn⟩
    · rw [h] at hauto ⊢
      simp only [State.writeOpreq, State.core_setCore, hauto, Bool.false_eq_true, if_false]
    · rw [h] at hauto ⊢
      simp only [State.writeOpreq, State.core_setCore, hauto, if_true, hr]
  · intro hr r
    refine ⟨fun h => ?_, fun h1 h2 => ?_, fun h1 h2 h3 h4 => ?_, execOpreqDecide_grant s lc watts milliwatts hr⟩
    · rw [exec_opreqDecide, execOpreqDecide, if_neg (not_not.mpr hr), if_pos h]
    · rw [exec_opreqDecide, execOpreqDecide, if_neg (not_not.mpr hr), if_neg (Nat.not_lt.mpr h1), if_pos h2]
    · rw [exec_opreqDecide, execOpreqDecide, if_neg (not_not.mpr hr), if_neg (Nat.not_lt.mpr h1),
        if_neg (Nat.not_lt.mpr h2), if_pos ⟨h3, h4⟩]
  · simp only [exec_seedWrite, execSeedWrite, State.setHart, State.hart, ha]
    rfl
  · have hrun : exec (.fpstatAccess lc) s = .next (if f.seq != [] then s.seqStep lc else s) := by
      simp only [exec_fpstatAccess, execFpstatAccess, hgo, hf]
      rfl
    rw [hrun]
    exact ⟨fun h => by simp [h], fun h => by simp [h]⟩

end Sys2Proof.Machine
end

section
/-! PROOFS. What the accesses that the front end makes for a function leave unchanged. -/

namespace Sys2Proof.Machine

/-- A state differs from another in what accesses for a function's packets reach alone: memory and what translates, the
requests under way, the links, the counters, and the journals with their table. -/
def State.Outward (s t : State) : Prop :=
  ∃ m p k e c u g, t = { s with mem := m, prog := p, links := k, feTab := e, counters := c, journalUsed := u, journalGap := g }

theorem State.Outward.refl (s : State) : s.Outward s := ⟨_, _, _, _, _, _, _, rfl⟩

theorem State.Outward.trans {s t u : State} (h : s.Outward t) (k : t.Outward u) : s.Outward u := by
  obtain ⟨_, _, _, _, _, _, _, rfl⟩ := h
  obtain ⟨_, _, _, _, _, _, _, rfl⟩ := k
  exact ⟨_, _, _, _, _, _, _, rfl⟩

theorem State.Outward.vcp {s t : State} (h : s.Outward t) (f v : Nat) : t.vcp f v = s.vcp f v := by
  obtain ⟨_, _, _, _, _, _, _, rfl⟩ := h
  rfl

theorem State.Translated.outward {s t : State} (h : s.Translated t) : s.Outward t := by
  obtain ⟨_, _, _, rfl⟩ := h
  exact ⟨_, _, _, _, _, _, _, rfl⟩

/-! ### Single updates -/

theorem State.count_outward (s : State) (code i : Nat) : s.Outward (s.count code i) := ⟨_, _, _, _, _, _, _, rfl⟩
theorem State.writeMem_outward (s : State) (l : List Nat) (bs : List Byte) : s.Outward (s.writeMem l bs) :=
  ⟨_, _, _, _, _, _, _, rfl⟩
theorem State.setEntry_outward (s : State) (tbl idx : Nat) (w : Word) : s.Outward (s.setEntry tbl idx w) :=
  ⟨_, _, _, _, _, _, _, rfl⟩
theorem State.noteEng_outward (s : State) (key : Nat) (x : Sent) : s.Outward (s.noteEng key x) := ⟨_, _, _, _, _, _, _, rfl⟩
theorem State.forgetVcp_outward (s : State) (f v : Nat) : s.Outward (s.forgetVcp f v) := ⟨_, _, _, _, _, _, _, rfl⟩
theorem State.addHostReq_outward (s : State) (tag : Nat) (r : HostReq) : s.Outward (s.addHostReq tag r) :=
  ⟨_, _, _, _, _, _, _, rfl⟩
theorem State.zeroRange_outward (s : State) (b n : Nat) : s.Outward (s.zeroRange b n) := ⟨_, _, _, _, _, _, _, rfl⟩

theorem State.addRemote_outward (s : State) (r : RemoteReq) : s.Outward (s.addRemote r) := by
  obtain ⟨k, u, p, h⟩ := s.addRemote_eq r
  rw [h]
  exact ⟨_, _, _, _, _, _, _, rfl⟩

theorem State.homeWrite_outward (s : State) (l : List Nat) : s.Outward (s.homeWrite l) :=
  List.foldlRecOn _ _ (.refl s) fun _ h _ _ => h.trans ⟨_, _, _, _, _, _, _, rfl⟩

theorem State.putWords_outward (s : State) (b : Nat) (l : Words) : s.Outward (s.putWords b l) :=
  List.foldlRecOn _ _ (.refl s) fun t h _ _ => h.trans (t.writeMem_outward ..)

theorem State.countUe_outward (s : State) (pa : Nat) : s.Outward (s.countUe pa) := by
  unfold State.countUe
  split
  · exact s.count_outward ..
  · split
    · exact s.count_outward ..
    · exact s.count_outward ..
    · exact .refl s

theorem State.meetUe_outward (s : State) (l : List Nat) : s.Outward (s.meetUe l) := by
  unfold State.meetUe
  cases l.find? s.badAt with
  | none => exact .refl s
  | some a => exact s.countUe_outward a

theorem State.meetWalk_outward (s : State) (die ctx va : Nat) : s.Outward (s.meetWalk die ctx va) := by
  unfold State.meetWalk
  split
  · exact s.count_outward ..
  · exact .refl s

/-! ### The journal -/

theorem State.journalPut_outward (s : State) (p kind f v : Nat) (body : Words) : s.Outward (s.journalPut p kind f v body) :=
  .trans (((s.zeroRange_outward ..).trans (State.putWords_outward ..)).trans (State.setEntry_outward ..)) ⟨_, _, _, _, _, _, _, rfl⟩

theorem State.journalGapPut_outward (s : State) (p : Nat) : s.Outward (s.journalGapPut p) := by
  unfold State.journalGapPut
  dsimp only
  split
  · exact .refl s
  · exact (s.journalPut_outward ..).trans ⟨_, _, _, _, _, _, _, rfl⟩

theorem State.journal_outward (s : State) (p kind f v : Nat) (body : Words) : s.Outward (s.journal p kind f v body) := by
  unfold State.journal
  dsimp only
  split
  · exact .refl s
  · split
    · exact (s.journalGapPut_outward p).trans (State.journalPut_outward ..)
    · exact (s.journalGapPut_outward p).trans ⟨_, _, _, _, _, _, _, rfl⟩

/-! ### Translation -/

theorem State.xlate_wait_outward {s t : State} {die : Nat} {holders : List Nat} {part ctx va need : Nat}
    (h : s.xlate die holders part ctx va need = .wait t) : s.Outward t := by
  have hl := (s.lookup_translated die holders ctx va).outward
  unfold State.xlate at h
  split at h
  · cases h
  · cases h
  · next s1 he =>
    cases h
    rw [he] at hl
    exact hl
  · next e l s1 he =>
    rw [he] at hl
    dsimp only at h
    split at h
    · cases h
    · split at h
      · cases h
      · split at h
        · cases h
          refine hl.trans ?_
          unfold State.migWait
          split
          · exact .refl s1
          · exact ⟨_, _, _, _, _, _, _, rfl⟩
        · split at h <;> cases h

/-- Where a translation leads: to a state that differs outward alone, or to a trap. -/
def XlSpan.Outward (s : State) : XlSpan → Prop
  | .pas _ t | .wait t => s.Outward t
  | .trap _ => True

theorem State.xlateSpan_outward (s : State) (die : Nat) (holders : List Nat) (part ctx va n need : Nat) :
    (s.xlateSpan die holders part ctx va n need).Outward s := by
  unfold State.xlateSpan
  split
  · trivial
  · next t h => exact State.xlate_wait_outward h
  · next p t h =>
    have ht := (State.xlate_translated h).outward
    dsimp only
    split
    · exact ht
    · split
      · trivial
      · next u hu => exact ht.trans (State.xlate_wait_outward hu)
      · next q u hu => exact ht.trans (State.xlate_translated hu).outward

theorem State.vaSpan_outward (s : State) (f va n need holder : Nat) : (s.vaSpan f va n need holder).Outward s := by
  unfold State.vaSpan
  split
  · trivial
  · exact s.xlateSpan_outward ..

/-! ### Accesses -/

/-- The state that an access of an engine leads to. -/
def Eng.state : Eng → State
  | .ok _ s | .bad s | .fault s | .wait s => s

theorem State.reach_outward (s : State) (f key pa tag : Nat) (op : RemoteOp) : s.Outward (s.reach f key pa tag op).state := by
  unfold State.reach
  dsimp only
  split
  · exact .refl s
  · exact .refl s
  · split <;> exact .refl s
  · split
    · split
      · exact (s.noteEng_outward ..).trans (State.addRemote_outward ..)
      · split <;> exact .refl s
    · exact (s.noteEng_outward ..).trans (State.addHostReq_outward ..)

theorem State.fnRead_outward (s : State) (f key va n need holder : Nat) : s.Outward (s.fnRead f key va n need holder).state := by
  have h := s.vaSpan_outward f va n need holder
  unfold State.fnRead
  split
  · exact s.meetWalk_outward ..
  · next t ht => rw [ht] at h; exact h
  · next l t ht =>
    rw [ht] at h
    replace h : s.Outward t := h
    split
    · exact h.trans (t.reach_outward ..)
    · exact h.trans (t.reach_outward ..)
    · split
      · exact h.trans (t.meetUe_outward l)
      · exact h

theorem State.once_outward (s : State) (key : Nat) (va : Word) (tag : Nat) (k : Unit → Eng) (h : s.Outward (k ()).state) :
    s.Outward (s.once key va tag k).state := by
  unfold State.once
  split
  · split <;> exact .refl s
  · exact .refl s
  · split
    · next hk => rw [hk] at h; exact h.trans (State.noteEng_outward ..)
    · next hk => rw [hk] at h; exact h.trans (State.noteEng_outward ..)
    · next hk => rw [hk] at h; exact h.trans (State.noteEng_outward ..)
    · next hk => rw [hk] at h; exact h

theorem State.signalOld_outward (s : State) (f key tag pa : Nat) : s.Outward (s.signalOld f key tag pa).state := by
  unfold State.signalOld
  split
  · exact .refl s
  · exact s.reach_outward ..

theorem State.signalAway_outward (s : State) (f v key tag : Nat) (a : Word) (op : Nat) (x : Word) (pa : Nat) :
    s.Outward (s.signalAway f v key tag a op x pa).state := by
  have h := s.signalOld_outward f key tag pa
  unfold State.signalAway
  split
  · exact s.reach_outward ..
  · split
    · next bs t ht =>
      rw [ht] at h
      exact h.trans ((t.journal_outward ..).trans (State.reach_outward ..))
    · exact h

theorem State.signal_outward (s : State) (f v key tag : Nat) (a : Word) (op : Nat) (x : Word) :
    s.Outward (s.signal f v key tag a op x).state := by
  refine s.once_outward _ _ _ _ ?_
  have h := s.vaSpan_outward f a.toNat 8 needW (frontHolder key)
  dsimp only
  split
  · exact .refl s
  · split
    · exact s.meetWalk_outward ..
    · next t ht => rw [ht] at h; exact h
    · next l t ht =>
      rw [ht] at h
      replace h : s.Outward t := h
      have haway := h.trans (t.signalAway_outward f v key tag a op x (l.headD 0))
      split
      · exact haway
      · split
        · next u hu => rw [hu] at haway; exact haway
        · exact haway
      · split
        · exact h.trans (t.meetUe_outward l)
        · exact h.trans (((t.journal_outward ..).trans (State.homeWrite_outward ..)).trans (State.writeMem_outward ..))

/-! ### Giving up a VCP (R35, R45) -/

theorem State.propagateOut_outward (s : State) (f v i : Nat) (p : Rec) : s.Outward (s.propagateOut f v i p).state := by
  unfold State.propagateOut
  split
  · exact .refl s
  · exact s.signal_outward ..

theorem State.propagateAll_outward (f v : Nat) (l : List (Nat × Rec)) (s : State) : s.Outward (s.propagateAll f v l).1 := by
  induction l generalizing s with
  | nil => exact .refl s
  | cons x l ih =>
    have h := s.propagateOut_outward f v x.1 x.2
    unfold State.propagateAll
    split
    · next ht => rw [ht] at h; exact h
    all_goals next ht => rw [ht] at h; exact h.trans (ih _)

/-- The state that reading the slots of a ring leads to. -/
def Slots.state : Slots → State
  | .ok _ s | .wait s => s

theorem State.ringSlot_outward (s : State) (f v : Nat) (x : Vcp) (k : Nat) : s.Outward (s.ringSlot f v x k).state := by
  have h := s.fnRead_outward f (packetKey f v ((x.head + k) % 2 ^ 24)) (x.base.toNat + 64 * ((x.seq + k) % 2 ^ x.lgsz)) 64 needR
    (frontHolder (packetKey f v ((x.head + k) % 2 ^ 24)))
  unfold State.ringSlot
  dsimp only
  split
  · exact .refl s
  · exact .refl s
  · split <;> next ht => rw [ht] at h; exact h

theorem State.ringSlots_outward (f v : Nat) (x : Vcp) (l : List Nat) (s : State) : s.Outward (s.ringSlots f v x l).state := by
  induction l generalizing s with
  | nil => exact .refl s
  | cons k l ih =>
    have h := s.ringSlot_outward f v x k
    unfold State.ringSlots
    split
    · next t ht => rw [ht] at h; exact h
    · next a t ht =>
      rw [ht] at h
      have h2 := h.trans (ih t)
      split
      · next b u hu => rw [hu] at h2; exact h2
      · exact h2

end Sys2Proof.Machine
end

section
/-! PROOFS. The host's accesses through the BARs, function-level reset and job cancel. -/

namespace Sys2Proof.Machine

/-! ### The meanings of the host's steps -/

theorem exec_bar2Read (f off n : Nat) (s : State) : exec (.bar2Read f off n) s = execBar2Read f off n s := rfl
theorem exec_barerrRead (f : Nat) (s : State) : exec (.barerrRead f) s = execBarerrRead f s := rfl
theorem exec_jobCancel (f : Nat) (s : State) : exec (.jobCancel f) s = execJobCancel f s := rfl

/-! ### The order of arrival (R220) -/

/-- A write that comes behind one that waits is queued behind it. -/
theorem State.arrive_behind {s : State} (h : s.service.tlps ≠ []) (x : Tlp) :
    s.arrive x = .next (s.setService { s.service with tlps := s.service.tlps ++ [x] }) := if_pos h

theorem State.arrive_committed {s t : State} {x : Tlp} (h : s.service.tlps = []) (hx : s.commit x = (t, true)) :
    s.arrive x = .next t := by simp [State.arrive, h, hx]

theorem State.arrive_waits {s t : State} {x : Tlp} (h : s.service.tlps = []) (hx : s.commit x = (t, false)) :
    s.arrive x = .next (t.setService { t.service with tlps := [x] }) := by simp [State.arrive, h, hx]

/-! ### A write of one block -/

/-- The blocks of a write that stays within an aligned block of 64 bytes. -/
theorem blocksOf_one {off : Nat} {data : List Byte} (hd : data ≠ []) (h : off % 64 + data.length ≤ 64) :
    blocksOf data.length off data = [(off, data)] := by
  obtain ⟨n, hn⟩ := Nat.exists_eq_succ_of_ne_zero (List.length_pos_iff.mpr hd).ne'
  have hk : data.length ≤ 64 - off % 64 := by omega
  rw [hn, blocksOf, if_neg hd]
  dsimp only
  rw [List.take_of_length_le hk, List.drop_eq_nil_of_le hk]
  cases n <;> rfl

/-- A function whose partition keeps no journal of the host's writes. -/
theorem State.journalHost_off {s : State} {f : Nat} (h : s.journalMode (s.fnPart f) ≠ 2) (v : Nat) (a : Word) (bs : List Byte) :
    s.journalHost f v a bs = s := by simp [State.journalHost, State.journal, h]

/-! ### BAR2 (R38) -/

/-- A byte written to a VCP's page leaves its state and head, and at 20H and above all of it. -/
theorem Vcp.putByte_keeps (x : Vcp) (k : Nat) (b : Byte) :
    (32 ≤ k → x.putByte k b = x) ∧ (x.putByte k b).state = x.state ∧ (x.putByte k b).head = x.head := by
  have hword (i : Nat) (w : Word) (touched : Bool) :
      (4 ≤ i → x.putWord i w touched = x) ∧ (x.putWord i w touched).state = x.state ∧ (x.putWord i w touched).head = x.head := by
    unfold Vcp.putWord
    split
    · exact ⟨fun h => absurd h (by decide), rfl, rfl⟩
    · exact ⟨fun h => absurd h (by decide), by split <;> rfl, by split <;> rfl⟩
    · exact ⟨fun h => absurd h (by decide), rfl, rfl⟩
    · exact ⟨fun h => absurd h (by decide), rfl, rfl⟩
    · exact ⟨fun _ => rfl, rfl, rfl⟩
  obtain ⟨hhigh, hkept⟩ := hword (k / 8) _ _
  exact ⟨fun h => hhigh (by omega), hkept⟩

theorem State.commit_bar2_byte {s : State} {f v k : Nat} (b : Byte) (hf : f < 64) (hv : v < 16) (hk : k < 4096)
    (hj : s.journalMode (s.fnPart f) ≠ 2) :
    s.commit (.bar2 f (0x1000 * v + k) [b]) = (s.setVcp f v ((s.vcp f v).putByte k b), true) := by
  have hin : ¬ (f ≥ 64 ∨ 0x1000 * v + k + [b].length > 0x10000) := by simp only [List.length_singleton]; omega
  have hdiv : (0x1000 * v + k) / 0x1000 = v := by omega
  have hmod : (0x1000 * v + k) % 0x1000 = k := by omega
  rw [State.commit, State.bar2Write, if_neg hin, blocksOf_one (by simp) (by simp only [List.length_singleton]; omega)]
  simp only [List.foldl_cons, List.foldl_nil, State.bar2Block, State.journalHost_off hj, hdiv, hmod, Vcp.putBytes]

/-! ### BAR4 (R31) -/

/-- The span of a BAR4 access within one page has as many bytes as the access. -/
theorem State.barSpan_length {s t : State} {f off n need : Nat} {l : List Nat} (h : s.barSpan f off n need = .pas l t)
    (hp : ((s.func f).winbase.toNat + off) % 65536 + n ≤ 65536) : l.length = n := by
  unfold State.barSpan at h
  dsimp only at h
  split at h
  · cases h
  · split at h
    · cases h
    · split at h
      · exact (State.xlateSpan_onePage (by omega) h).1
      · cases h

/-- A BAR4 read of bytes of one page of this module. -/
theorem State.barParts_local {t : State} (f key : Nat) {l : List Nat} (h : t.isLocal l = true) :
    t.barParts f key [l] = .ok (t.barBytes l) (t.meetUe l) := by
  have hpart : t.barPart f key l = .ok (t.barBytes l) (t.meetUe l) := by
    cases hr : t.region (l.headD 0) with
    | remote dev off => simp only [State.isLocal, hr, Bool.false_eq_true] at h
    | host => simp only [State.isLocal, hr, Bool.false_eq_true] at h
    | _ => simp only [State.barPart, hr]
  simp [State.barParts, hpart]

section
variable {s : State} {f off n : Nat} (hq : s.service.tlps = []) (hf : f < 64) (hn : 0 < n) (hoff : off + n ≤ 2 ^ 36)
include hq hf hn hoff

theorem execBar4Read_fails {c : Nat} (h : s.barSpan f off n needR = .trap c) :
    execBar4Read f off n s = .next (((s.meetBar f off).barFail f).hostReads (List.replicate n 0xFF)) := by
  have hin : ¬ (f ≥ 64 ∨ off + n > 2 ^ 36 ∨ n = 0) := by omega
  simp only [execBar4Read, State.afterWrites, hq, if_true, hin, if_false, h]

theorem execBar4Read_local {l : List Nat} {t : State} (h : s.barSpan f off n needR = .pas l t)
    (hp : ((s.func f).winbase.toNat + off) % 65536 + n ≤ 65536) (hl : t.isLocal l = true) :
    execBar4Read f off n s = .next (((t.meetUe l).forgetKey (readKey f off)).hostReads (t.barBytes l)) := by
  have hin : ¬ (f ≥ 64 ∨ off + n > 2 ^ 36 ∨ n = 0) := by omega
  have hpage : pageParts ((s.func f).winbase.toNat + off) l = [(0, l)] :=
    pageParts_onePage (by rw [State.barSpan_length h hp]; omega)
  simp only [execBar4Read, State.afterWrites, hq, if_true, hin, if_false, h, hpage, List.map_cons, List.map_nil,
    State.barParts_local f _ hl]

end

section
variable {s : State} {f off : Nat} {data : List Byte} (hf : f < 64) (hd : data ≠ []) (hb : off % 64 + data.length ≤ 64)
  (hoff : off + data.length ≤ 2 ^ 36)
include hf hd hb hoff

/-- A BAR4 write of one block is committed where nothing makes it wait. -/
theorem State.commit_bar4 (h : s.barWaits f [(off, data)] = none) :
    s.commit (.bar4 f off data) = (s.bar4Block f (off, data), true) := by
  have hin : ¬ (f ≥ 64 ∨ off + data.length > 2 ^ 36) := by omega
  simp only [State.commit, State.bar4Write, blocksOf_one hd hb, hin, if_false, h, List.foldl_cons, List.foldl_nil]

theorem State.commit_bar4_waits {t : State} (h : s.barSpan f off data.length needW = .wait t) :
    s.commit (.bar4 f off data) = (t, false) := by
  have hin : ¬ (f ≥ 64 ∨ off + data.length > 2 ^ 36) := by omega
  simp only [State.commit, State.bar4Write, blocksOf_one hd hb, hin, if_false, State.barWaits, List.findSome?_cons, h]

/-- One whose translation fails is discarded and counted. -/
theorem State.commit_bar4_fails {c : Nat} (h : s.barSpan f off data.length needW = .trap c) :
    s.commit (.bar4 f off data) = ((s.meetBar f off).barFail f, true) := by
  rw [State.commit_bar4 hf hd hb hoff]
  · simp only [State.bar4Block, h]
  · simp only [State.barWaits, List.findSome?_cons, List.findSome?_nil, h]

section
variable {l : List Nat} {t : State} (h : s.barSpan f off data.length needW = .pas l t)
  (hj : t.journalMode (t.fnPart f) ≠ 2)
include h hj

theorem State.commit_bar4_hbm {p : Nat} (hr : t.region (l.headD 0) = .hbm p) (hp : l.any t.portFailed = false)
    (hs : t.storable l = true) : s.commit (.bar4 f off data) = ((t.homeWrite l).writeMem l data, true) := by
  rw [State.commit_bar4 hf hd hb hoff]
  · simp only [State.bar4Block, h, State.journalHost_off hj, hr, hp, hs]
    rfl
  · simp only [State.barWaits, List.findSome?_cons, List.findSome?_nil, h, hr]
    rfl

theorem State.commit_bar4_remote {d o : Nat} (hr : t.region (l.headD 0) = .remote d o) :
    s.commit (.bar4 f off data) = (t.addRemote ⟨4096 + barKey f, 0, ofN (l.headD 0), .store data⟩, true) := by
  rw [State.commit_bar4 hf hd hb hoff]
  · simp only [State.bar4Block, h, State.journalHost_off hj, hr]
  · simp only [State.barWaits, List.findSome?_cons, List.findSome?_nil, h, hr]
    rfl

theorem State.commit_bar4_host (hr : t.region (l.headD 0) = .host) (hy : t.hostBusy l = false) :
    s.commit (.bar4 f off data) = (t.hostWrite f l data, true) := by
  rw [State.commit_bar4 hf hd hb hoff]
  · simp only [State.bar4Block, h, State.journalHost_off hj, hr]
  · simp only [State.barWaits, List.findSome?_cons, List.findSome?_nil, h, hr, hy]
    rfl

end

end

/-! ### Registers (R32) -/

theorem setBits_low16 (w : Word) : setBits w 0 16 0 = w &&& 0xFFFFFFFFFFFF0000#64 := by
  have hmask : ∀ i < 64, (0xFFFFFFFFFFFF0000#64).getLsbD i = decide (16 ≤ i) := by decide
  have hshift : w &&& 0xFFFFFFFFFFFF0000#64 = (w >>> 16) <<< 16 := by
    refine BitVec.eq_of_getLsbD_eq fun i hi => ?_
    rw [BitVec.getLsbD_and, BitVec.getLsbD_shiftLeft, BitVec.getLsbD_ushiftRight, hmask i hi]
    by_cases h : 16 ≤ i
    · simp [h, hi, Nat.not_lt.mpr h]
    · simp [h, Nat.lt_of_not_le h]
  rw [hshift]
  apply BitVec.eq_of_toNat_eq
  simp [setBits, bits]
  omega

theorem State.commit_winbase (s : State) {f : Nat} (hf : f < 64) (w : Word) :
    s.commit (.register f 0x10 w) = (s.setFunc f { s.func f with winbase := setBits w 0 16 0 }, true) := by
  simp [State.commit, State.writeRegister, Nat.not_le.mpr hf]

/-- The MSI-X table holds what is written. -/
theorem State.commit_msix (s : State) {f k : Nat} (hf : f < 64) (hk : k < 34) (w : Word) :
    s.commit (.register f (0x2000 + 8 * k) w) = (s.setFunc f { s.func f with msix := tput k w (s.func f).msix }, true) := by
  have hidx : (0x2000 + 8 * k - 0x2000) / 8 = k := by omega
  unfold State.commit State.writeRegister
  dsimp only
  rw [if_neg (by omega), if_neg (by omega), if_neg (by omega), if_pos (by omega), hidx]

/-! ### Function-level reset and job cancel (R45, R110) -/

theorem State.propagateAll_result {s t : State} {f v : Nat} {l : List (Nat × Rec)} {b : Bool}
    (h : s.propagateAll f v l = (t, b)) : s.Outward t := by
  have ht := s.propagateAll_outward f v l
  rwa [h] at ht

theorem State.unstarted_result {s t : State} {f v : Nat} {l : List (Nat × Option Rec)} (h : s.unstarted f v = .ok l t) :
    s.Outward t := by
  have ht : s.Outward (s.unstarted f v).state := s.ringSlots_outward ..
  rwa [h] at ht

/-- A VCP that has been given up stands at its reset values, and every other as it did. -/
theorem State.wipeVcp_done {s t : State} {f v : Nat} (h : s.wipeVcp f v = (t, true)) :
    ∃ u, s.Outward u ∧ t = u.setVcp f v Vcp.reset := by
  unfold State.wipeVcp at h
  split at h
  · cases h
  · split at h
    · cases h
    · next l s1 hl =>
      dsimp only at h
      split at h
      · cases h
      · next s2 hs2 =>
        cases h
        exact ⟨_, ((State.unstarted_result hl).trans (State.propagateAll_result hs2)).trans (s2.forgetVcp_outward f v), rfl⟩

/-- Once all of a list have been given up, each of them is at its reset values, and what was so before still is. -/
theorem State.wipeVcps_reset {f : Nat} {l : List Nat} {s t : State} (h : s.wipeVcps f l = (t, true)) {v : Nat}
    (hv : v ∈ l ∨ s.vcp f v = Vcp.reset) : t.vcp f v = Vcp.reset := by
  induction l generalizing s with
  | nil =>
    cases h
    exact hv.resolve_left List.not_mem_nil
  | cons u l ih =>
    unfold State.wipeVcps at h
    split at h
    · next s1 hs1 =>
      obtain ⟨r, hr, rfl⟩ := State.wipeVcp_done hs1
      refine ih h ?_
      by_cases hvu : v = u
      · exact .inr (by rw [hvu, State.vcp_setVcp])
      · rcases hv with hv | hv
        · exact .inl ((List.mem_cons.mp hv).resolve_left hvu)
        · exact .inr (by rw [State.vcp_setVcp_ne _ _ _ _ _ _ (by omega), hr.vcp, hv])
    · cases h

/-- The marks that the start of a reset leaves. -/
theorem execFlrInitiate_marks (s : State) {f : Nat} (hf : f < 64) : ∃ t, execFlrInitiate f s = .next t ∧
    (t.func f).flr = true ∧ t.service.migVf ≠ some f ∧ t.service.restoring ≠ some f := by
  have hend (u : State) (hu : (u.func f).flr = true) :
      let t := if u.service.migVf = some f ∨ u.service.restoring = some f then u.endMig 1 else u
      (t.func f).flr = true ∧ t.service.migVf ≠ some f ∧ t.service.restoring ≠ some f := by
    dsimp only
    split
    · exact ⟨hu, nofun, nofun⟩
    · next h => exact ⟨hu, fun h1 => h (.inl h1), fun h1 => h (.inr h1)⟩
  unfold execFlrInitiate
  rw [if_neg (Nat.not_le.mpr hf)]
  exact ⟨_, rfl, hend _ (congrArg Func.flr (State.func_setFunc ..))⟩

/-- A reset completes once every VCP has been given up (R45). -/
theorem execFlrComplete_wipes {s : State} {f : Nat} (hflr : (s.func f).flr = true) (hw : s.writesOut f = false) :
    execFlrComplete f s = .next (if (s.wipeVcps f (span 0 16)).2 = true then
      let t := (s.wipeVcps f (span 0 16)).1.clearCalls f
      (t.setFunc f { t.func f with flr := false, cancelling := false, winbase := 0 }).count cKILLS (s.fnPart f)
      else (s.wipeVcps f (span 0 16)).1) := by
  unfold execFlrComplete
  simp only [hflr, hw]
  rcases s.wipeVcps f (span 0 16) with ⟨t, _ | _⟩ <;> rfl

/-! ### The statement -/

/-- Settles O48: each clause is the law of its access; a reset's VCPs by what giving one up leaves of the others. -/
theorem hostSteps : Obligations.HostSteps := by
  intro s f off n data w hf
  refine ⟨⟨rfl, rfl, rfl, fun h0 k hk => ?_⟩, fun hq => ⟨?_, ?_⟩, fun hq => ⟨?_, ?_, ?_, ?_, ?_, ?_, fun k hk => ?_⟩,
    execFlrInitiate_marks s hf, fun hflr hw => ⟨fun h => ⟨fun v hv => ?_, ?_⟩, fun h => ?_⟩, ?_⟩
  · unfold State.bar0Word
    dsimp only
    rw [if_neg (by omega), if_neg (by omega), if_neg (by omega), if_neg (by omega), if_neg (by omega), if_neg (by omega),
      if_neg (by omega), if_pos h0]
  · intro i x v u hi
    simp only [List.mem_cons, List.not_mem_nil, or_false, Prod.mk.injEq] at hi
    rcases hi with ⟨rfl, rfl⟩ | ⟨rfl, rfl⟩ | ⟨rfl, rfl⟩ | ⟨rfl, rfl⟩
    · exact State.arrive_behind hq (.bar2 f off data)
    · exact State.arrive_behind hq (.bar4 f off data)
    · exact State.arrive_behind hq (.notify f v u)
    · exact State.arrive_behind hq (.register f off w)
  · intro i hi
    simp only [List.mem_cons, List.not_mem_nil, or_false] at hi
    rcases hi with rfl | rfl | rfl <;> exact congrArg Host.Outcome.next (if_neg hq)
  · rw [exec_bar2Read, execBar2Read, State.afterWrites, if_pos hq]
    by_cases h : off + n ≤ 0x10000
    · rw [if_pos h, if_neg (by omega)]
    · rw [if_neg h, if_pos (by omega)]
  · intro v k b hv hk hj
    have hkeep := (s.vcp f v).putByte_keeps k b
    refine ⟨_, State.arrive_committed hq (State.commit_bar2_byte b hf hv hk hj), ?_⟩
    rw [State.vcp_setVcp]
    exact ⟨rfl, rfl, hkeep⟩
  · intro hn hoff
    exact ⟨fun c h => execBar4Read_fails hq hf hn hoff h, fun l t h hp hl => ⟨execBar4Read_local hq hf hn hoff h hp hl,
      fun hb hpf => by simp [State.barBytes, hb, hpf]⟩⟩
  · intro hd hb hoff
    refine ⟨fun c h => State.arrive_committed hq (State.commit_bar4_fails hf hd hb hoff h),
      fun t h => State.arrive_waits hq (State.commit_bar4_waits hf hd hb hoff h), fun l t h hj => ⟨fun p hr hp hs => ?_, ?_, ?_⟩⟩
    · exact State.arrive_committed hq (State.commit_bar4_hbm hf hd hb hoff h hj hr hp hs)
    · exact fun d o hr => State.arrive_committed hq (State.commit_bar4_remote hf hd hb hoff h hj hr)
    · exact fun hr hy => State.arrive_committed hq (State.commit_bar4_host hf hd hb hoff h hj hr hy)
  · rw [exec_barerrRead, execBarerrRead, State.afterWrites, if_pos hq, if_pos hf]
  · refine ⟨_, State.arrive_committed hq (s.commit_winbase hf w), ?_, fun g hg =>
      State.func_setFunc_ne _ _ _ _ hg⟩
    rw [State.func_setFunc]
    exact setBits_low16 w
  · exact State.arrive_committed hq (s.commit_msix hf hk w)
  · exact State.wipeVcps_reset (Prod.ext rfl h) (.inl (mem_span.mpr (by omega)))
  · exact (execFlrComplete_wipes hflr hw).trans (congrArg Host.Outcome.next (if_pos h))
  · exact (execFlrComplete_wipes hflr hw).trans (congrArg Host.Outcome.next (if_neg (by simp [h])))
  · rw [exec_jobCancel, execJobCancel, if_neg (Nat.not_le.mpr hf)]
    exact (apply_ite Host.Outcome.next _ _ _).symm

end Sys2Proof.Machine
end

section
/-! PROOFS. Live migration and attestation. -/

namespace Sys2Proof.Machine

/-! ### What a change of PF0's service registers leaves unchanged -/

/-- A state differs from another in PF0's service registers alone. -/
def State.Served (s t : State) : Prop := ∃ x, t = s.setService x

theorem State.Served.trans {s t u : State} (h : s.Served t) (k : t.Served u) : s.Served u := by
  obtain ⟨_, rfl⟩ := h
  obtain ⟨x, rfl⟩ := k
  exact ⟨x, rfl⟩

section
variable {s t : State} (h : s.Served t)
include h

theorem State.Served.bound (f : Nat) : t.bound f = s.bound f := by obtain ⟨_, rfl⟩ := h; rfl
theorem State.Served.vcp (f v : Nat) : t.vcp f v = s.vcp f v := by obtain ⟨_, rfl⟩ := h; rfl
theorem State.Served.vcps : t.vcps = s.vcps := by obtain ⟨_, rfl⟩ := h; rfl
theorem State.Served.mem : t.mem = s.mem := by obtain ⟨_, rfl⟩ := h; rfl

end

theorem State.setMig_served (s : State) (n : Nat) : s.Served (s.setMig n) := ⟨_, rfl⟩
theorem State.endMig_served (s : State) (n : Nat) : s.Served (s.endMig n) := ⟨_, rfl⟩
theorem State.setAtt_served (s : State) (n : Nat) : s.Served (s.setAtt n) := ⟨_, rfl⟩

/-! ### The result fields (R46, R62) -/

theorem State.migResult_setMig (s : State) {n : Nat} (h : n < 16) : (s.setMig n).migResult = n := by
  simp only [State.setMig, State.migResult, BitVec.toNat_ofNat]
  omega

theorem State.attResult_setAtt (s : State) {n : Nat} (h : n < 16) : (s.setAtt n).attResult = n := by
  simp only [State.setAtt, State.attResult, BitVec.toNat_ofNat]
  omega

theorem State.migResult_endMig (s : State) {n : Nat} (h : n < 16) : (s.endMig n).migResult = n := s.migResult_setMig h

/-! ### Commands of migration (R46) -/

/-- MIGCMD has taken the fields of a write. -/
def State.migTaken (s : State) (w : BitVec 32) : State :=
  { s with service := { s.service with migcmd := migFields w s.service.migcmd } }

theorem State.migTaken_served (s : State) (w : BitVec 32) : s.Served (s.migTaken w) := ⟨_, rfl⟩

/-- What is known of the state in which a command's result stands. -/
theorem State.setMig_migTaken (s : State) (w : BitVec 32) {n : Nat} (h : n < 16) :
    ∃ u, (s.migTaken w).setMig n = u ∧ u.migResult = n ∧ s.Served u :=
  ⟨_, rfl, State.migResult_setMig _ h, (s.migTaken_served w).trans (State.setMig_served _ n)⟩

theorem State.onMig_busy {s : State} {cmd : Nat} {w : BitVec 32} (k : Nat → State → State)
    (h : s.service.migVf.isSome = true ∨ s.service.restoring.isSome = true) (hc : migCmdOf w = cmd) :
    s.onMig cmd w k = (s.migTaken w).setMig 2 := by
  rw [State.onMig, if_neg (not_not.mpr hc), if_pos (by simpa using h)]
  rfl

theorem State.onMig_free {s : State} {cmd : Nat} {w : BitVec 32} (k : Nat → State → State) (hv : s.service.migVf = none)
    (hr : s.service.restoring = none) (hc : migCmdOf w = cmd) : s.onMig cmd w k = k (migVfOf w) (s.migTaken w) := by
  rw [State.onMig, if_neg (not_not.mpr hc), if_neg (by simp [hv, hr])]
  rfl

section
variable {s : State} {w : BitVec 32} (hv : s.service.migVf = none) (hr : s.service.restoring = none)
include hv hr

/-- A save of a function that may be saved starts. -/
theorem execMigSuspendSave_starts (hc : migCmdOf w = 1) (h0 : migVfOf w ≠ 0) (hb : s.bound (migVfOf w) = true) :
    ∃ t, execMigSuspendSave w s = .next t ∧ t.migResult = 5 ∧ t.service.migVf = some (migVfOf w) ∧
      t.service.migDst = w.toNat / 2 ^ 17 % 128 ∧ t.vcps = s.vcps ∧ t.mem = s.mem := by
  rw [execMigSuspendSave, State.onMig_free _ hv hr hc, (s.migTaken_served w).bound, if_neg (by simp [h0, hb])]
  obtain ⟨u, hu, hres, hs⟩ := s.setMig_migTaken w (n := 5) (by decide)
  rw [hu]
  exact ⟨_, rfl, hres, rfl, rfl, hs.vcps, hs.mem⟩

theorem execMigSuspendSave_refused (hc : migCmdOf w = 1) (h : migVfOf w = 0 ∨ s.bound (migVfOf w) = false) :
    execMigSuspendSave w s = .next ((s.migTaken w).setMig 3) := by
  rw [execMigSuspendSave, State.onMig_free _ hv hr hc, (s.migTaken_served w).bound, if_pos h]

theorem execMigRestore_refused (hc : migCmdOf w = 2) (h : migVfOf w = 0 ∨ s.bound (migVfOf w) = false) :
    execMigRestore w s = .next ((s.migTaken w).setMig 3) := by
  rw [execMigRestore, State.onMig_free _ hv hr hc, (s.migTaken_served w).bound, if_pos h]

section
variable (hc : migCmdOf w = 2) (h0 : migVfOf w ≠ 0) (hb : s.bound (migVfOf w) = true)
include hc h0 hb

/-- A restore over a function with an enabled VCP is in the wrong state. -/
theorem execMigRestore_enabled (h : ∃ v, v < 16 ∧ (s.vcp (migVfOf w) v).state ≠ .disabled) :
    execMigRestore w s = .next ((s.migTaken w).setMig 6) := by
  obtain ⟨v, hlt, hne⟩ := h
  have hany : ((span 0 16).any fun v => ((s.migTaken w).vcp (migVfOf w) v).state != .disabled) = true :=
    List.any_eq_true.mpr ⟨v, mem_span.mpr (by omega), by rw [(s.migTaken_served w).vcp]; exact bne_iff_ne.mpr hne⟩
  rw [execMigRestore, State.onMig_free _ hv hr hc, (s.migTaken_served w).bound, if_neg (by simp [h0, hb]), if_pos hany]

/-- A restore starts to read its image. -/
theorem execMigRestore_starts (h : ∀ v < 16, (s.vcp (migVfOf w) v).state = .disabled) :
    ∃ t, execMigRestore w s = .next t ∧ t.migResult = 5 ∧ t.service.restoring = some (migVfOf w) ∧ t.service.imageAt = 0 ∧
      t.service.image = [] ∧ t.vcps = s.vcps := by
  have hany : ¬ ((span 0 16).any fun v => ((s.migTaken w).vcp (migVfOf w) v).state != .disabled) = true := by
    rw [List.any_eq_true]
    rintro ⟨v, hm, hne⟩
    rw [(s.migTaken_served w).vcp] at hne
    exact bne_iff_ne.mp hne (h v (by simpa using hm))
  rw [execMigRestore, State.onMig_free _ hv hr hc, (s.migTaken_served w).bound, if_neg (by simp [h0, hb]), if_neg hany]
  obtain ⟨u, hu, hres, hs⟩ := s.setMig_migTaken w (n := 5) (by decide)
  rw [hu]
  exact ⟨_, rfl, hres, rfl, rfl, rfl, hs.vcps⟩

end

end

/-! ### VCPs by a fold over their numbers -/

/-- The VCPs of a function after each of a list has been replaced by what it was made to. -/
theorem State.vcp_foldl_setVcp (g : Vcp → Vcp) (f : Nat) (l : List Nat) (hl : l.Nodup) (s : State) (v : Nat) :
    (l.foldl (fun s v => s.setVcp f v (g (s.vcp f v))) s).vcp f v = if v ∈ l then g (s.vcp f v) else s.vcp f v := by
  induction l generalizing s with
  | nil => rfl
  | cons u l ih =>
    obtain ⟨hu, hl⟩ := List.nodup_cons.mp hl
    rw [List.foldl_cons, ih hl]
    by_cases hvu : v = u
    · subst hvu
      simp [hu]
    · rw [State.vcp_setVcp_ne _ _ _ _ _ _ (by omega)]
      simp [hvu]

/-- The VCPs after those that a condition names have been put in place. -/
theorem State.vcp_foldl_place (p : Nat → Bool) (y : Nat → Vcp) (f : Nat) (l : List Nat) (s : State) (v : Nat) :
    (l.foldl (fun t v => if p v then t.setVcp f v (y v) else t) s).vcp f v =
      if v ∈ l ∧ p v = true then y v else s.vcp f v := by
  induction l generalizing s with
  | nil => simp
  | cons u l ih =>
    rw [List.foldl_cons, ih]
    by_cases hl : v ∈ l ∧ p v = true
    · rw [if_pos hl, if_pos ⟨List.mem_cons_of_mem _ hl.1, hl.2⟩]
    · rw [if_neg hl]
      by_cases hvu : v = u
      · subst hvu
        cases hp : p v <;> simp
      · have hkeep : (if p u then s.setVcp f u (y u) else s).vcp f v = s.vcp f v := by
          split
          · exact State.vcp_setVcp_ne _ _ _ _ _ _ (by omega)
          · rfl
        rw [hkeep, if_neg (by simpa [hvu] using hl)]

theorem nodup_span (a n : Nat) : (span a n).Nodup := by
  rw [span_eq_range']
  exact List.nodup_range'

/-! ### Resuming (R48) -/

theorem Vcp.unsuspend_waits (x : Vcp) : x.unsuspend.waits = x.waits := by
  unfold Vcp.unsuspend
  split <;> rfl

theorem Vcp.unsuspend_of_ne {x : Vcp} (h : x.state ≠ .suspended) : x.unsuspend = x := if_neg h

/-- The suspended VCPs of a function. -/
def State.suspendedVcps (s : State) (f : Nat) : List Nat := (span 0 16).filter fun v => (s.vcp f v).state == .suspended

/-- Every VCP of a list has taken back the state it had. -/
def State.unsuspendAll (s : State) (f : Nat) (vs : List Nat) : State :=
  vs.foldl (fun s v => s.setVcp f v (s.vcp f v).unsuspend) s

theorem State.vcp_unsuspendAll (s : State) (f : Nat) {v : Nat} (hv : v < 16) :
    (s.unsuspendAll f (s.suspendedVcps f)).vcp f v = (s.vcp f v).unsuspend := by
  have hnodup : (s.suspendedVcps f).Nodup := (nodup_span 0 16).filter _
  rw [State.unsuspendAll, State.vcp_foldl_setVcp Vcp.unsuspend f _ hnodup]
  split
  · rfl
  · next h =>
    refine (Vcp.unsuspend_of_ne fun hs => h ?_).symm
    exact List.mem_filter.mpr ⟨mem_span.mpr (by omega), beq_iff_eq.mpr hs⟩

theorem State.unsuspendAll_mem (s : State) (f : Nat) (vs : List Nat) : (s.unsuspendAll f vs).mem = s.mem :=
  List.foldlRecOn (motive := fun t : State => t.mem = s.mem) vs _ rfl fun _ h _ _ => h

/-- The WAITs of VCPs, each with its VCP. -/
def State.waitsOf (s : State) (f : Nat) (vs : List Nat) : List (Nat × Started) :=
  vs.flatMap fun v => (s.vcp f v).waits.map fun q => (v, q)

/-- No WAIT is there to evaluate where the suspended VCPs have none. -/
theorem State.unsuspendAll_waits (s : State) (f : Nat) (h : ∀ v ∈ s.suspendedVcps f, (s.vcp f v).waits = []) :
    (s.unsuspendAll f (s.suspendedVcps f)).waitsOf f (s.suspendedVcps f) = [] := by
  refine List.flatMap_eq_nil_iff.mpr fun v hv => ?_
  have hlt : v < 16 := by simpa using (List.mem_filter.mp hv).1
  rw [s.vcp_unsuspendAll f hlt, Vcp.unsuspend_waits, h v hv, List.map_nil]

/-- WAITs are evaluated, those that have not ended. -/
def State.evaluateAll (s : State) (f : Nat) (l : List (Nat × Started)) : State :=
  l.foldl (fun s x => if x.2.ending.isNone then s.evaluate f x.1 x.2 else s) s

theorem State.migTaken_suspendedVcps (s : State) (w : BitVec 32) (f : Nat) :
    (s.migTaken w).suspendedVcps f = s.suspendedVcps f := by
  simp only [State.suspendedVcps, (s.migTaken_served w).vcp]

section
variable {s : State} {w : BitVec 32} (hv : s.service.migVf = none) (hr : s.service.restoring = none)
  (hc : migCmdOf w = 3)
include hv hr hc

theorem execMigResume_none (h : s.suspendedVcps (migVfOf w) = []) :
    execMigResume w s = .next ((s.migTaken w).setMig 6) := by
  rw [← s.migTaken_suspendedVcps w] at h
  rw [execMigResume, State.onMig_free _ hv hr hc]
  exact congrArg Host.Outcome.next (if_pos h)

theorem execMigResume_some (h : s.suspendedVcps (migVfOf w) ≠ []) : execMigResume w s =
    .next ((((s.migTaken w).unsuspendAll (migVfOf w) (s.suspendedVcps (migVfOf w))).evaluateAll (migVfOf w)
      (((s.migTaken w).unsuspendAll (migVfOf w) (s.suspendedVcps (migVfOf w))).waitsOf (migVfOf w)
        (s.suspendedVcps (migVfOf w)))).setMig 1) := by
  rw [← s.migTaken_suspendedVcps w] at h ⊢
  rw [execMigResume, State.onMig_free _ hv hr hc]
  exact congrArg Host.Outcome.next (if_neg h)

/-- Where no WAIT is to be evaluated, every suspended VCP has its state back and memory is as it was. -/
theorem execMigResume_noWaits (h : s.suspendedVcps (migVfOf w) ≠ [])
    (hw : ∀ v ∈ s.suspendedVcps (migVfOf w), (s.vcp (migVfOf w) v).waits = []) :
    ∃ t, execMigResume w s = .next t ∧ t.migResult = 1 ∧
      (∀ v < 16, t.vcp (migVfOf w) v = (s.vcp (migVfOf w) v).unsuspend) ∧ t.mem = s.mem := by
  have hs := s.migTaken_served w
  refine ⟨_, execMigResume_some hv hr hc h, State.migResult_setMig _ (by decide), ?_⟩
  rw [← s.migTaken_suspendedVcps w] at hw ⊢
  generalize s.migTaken w = r at hs hw ⊢
  rw [r.unsuspendAll_waits _ fun v hm => by rw [hs.vcp]; exact hw v hm]
  refine ⟨fun v hlt => ?_, ?_⟩
  · rw [(State.setMig_served _ 1).vcp]
    exact (r.vcp_unsuspendAll _ hlt).trans (by rw [hs.vcp])
  · rw [(State.setMig_served _ 1).mem]
    exact (r.unsuspendAll_mem ..).trans hs.mem

end

/-! ### Reading an image (R46, R48) -/

section
variable {s : State} {f : Nat} (hr : s.service.restoring = some f)
include hr

theorem State.migStep_bad (hn : s.migNeed ≤ 64 * s.service.imageAt) (h : s.migImageOk = false) : s.migStep = s.endMig 4 := by
  simp only [State.migStep, hr, hn, if_true, State.migDone, h]
  rfl

/-- An image that passes its check gives each saved VCP as it has it. -/
theorem State.migStep_good (hn : s.migNeed ≤ 64 * s.service.imageAt) (h : s.migImageOk = true) :
    s.migStep.migResult = 1 ∧ s.migStep.service.restoring = none ∧ s.migStep.mem = s.mem ∧
      ∀ v < 16, s.migStep.vcp f v = if bit (s.migWord 8) v then s.migVcp v else s.vcp f v := by
  have hstep : s.migStep =
      ((span 0 16).foldl (fun t v => if bit (s.migWord 8) v then t.setVcp f v (s.migVcp v) else t) s).endMig 1 := by
    simp only [State.migStep, hr, hn, if_true, State.migDone, h]
    rfl
  rw [hstep]
  refine ⟨State.migResult_endMig _ (by decide), rfl, ?_, fun v hv => ?_⟩
  · rw [(State.endMig_served _ 1).mem]
    refine List.foldlRecOn (motive := fun t : State => t.mem = s.mem) _ _ rfl fun t ht v _ => ?_
    split
    · exact ht
    · exact ht
  · rw [(State.endMig_served _ 1).vcp, State.vcp_foldl_place]
    simp [hv]

/-- A line that has come is kept, and the next one follows. -/
theorem State.migStep_line {bs : List Byte} {t : State} (hn : 64 * s.service.imageAt < s.migNeed)
    (h : s.reach 0 (bufferKey 0) (hostPa s.service.migbuf + 64 * s.service.imageAt) 0 (.load 64) = .ok bs t) :
    s.migStep.service.imageAt = s.service.imageAt + 1 ∧
      s.migStep.service.image = mput 0 s.service.imageAt (leNat bs) t.service.image := by
  simp only [State.migStep, hr, Nat.not_le.mpr hn, if_false, h, true_and]
  rfl

end

/-! ### Writing an image (R47) -/

/-- The VCPs of a function that are not disabled. -/
def State.enabledVcps (s : State) (f : Nat) : List Nat := (span 0 16).filter fun v => (s.vcp f v).state != .disabled

section
variable {s : State} {f : Nat} (hm : s.service.migVf = some f)
include hm

theorem execMigSaveImageWrite_waits (h : ∃ v ∈ s.enabledVcps f, (s.vcp f v).savable = false) :
    execMigSaveImageWrite s = .next s := by
  have hall : ((s.enabledVcps f).all fun v => (s.vcp f v).savable) = false := by
    rw [List.all_eq_false]
    obtain ⟨v, hv, hs⟩ := h
    exact ⟨v, hv, by simp [hs]⟩
  unfold State.enabledVcps at hall
  simp only [execMigSaveImageWrite, hm, hall]
  rfl

section
variable {ps : List (List Word)} {t t1 : State} (hs : ∀ v ∈ s.enabledVcps f, (s.vcp f v).savable = true)
  (hp : s.savedPackets f (s.enabledVcps f) = .ok ps t)
include hs hp

theorem execMigSaveImageWrite_busy (h : t.proxies f t.service.migDst (s.waitsOf f (s.enabledVcps f)) = .busy t1) :
    execMigSaveImageWrite s = .next (t1.endMig 2) := by
  have hall := List.all_eq_true.mpr hs
  unfold State.waitsOf at h
  unfold State.enabledVcps at hall hp h
  simp only [execMigSaveImageWrite, hm, hall, hp, h]
  rfl

/-- The image is written where the buffer takes it. -/
theorem execMigSaveImageWrite_writes {ws : List (List Word)}
    (h : t.proxies f t.service.migDst (s.waitsOf f (s.enabledVcps f)) = .ok ws t1) :
    execMigSaveImageWrite s = .next (
      if 0x11000 + 128 * ps.length + 64 * ws.length ≤ t1.service.miglen.toNat ∧ t1.service.migbuf.toNat % 65536 = 0 ∧
        hostFits t1.service.migbuf (0x11000 + 128 * ps.length + 64 * ws.length) = true
      then (t1.writeMig f (s.enabledVcps f) ps ws).endMig 1 else t1.endMig 4) := by
  have hall := List.all_eq_true.mpr hs
  unfold State.waitsOf at h
  unfold State.enabledVcps at hall hp h ⊢
  simp only [execMigSaveImageWrite, hm, hall, hp, h, Bool.not_true, Bool.false_eq_true, if_false]
  split
  · next hbad => rw [if_neg fun hgood => by simp [hgood.2.1, hgood.2.2] at hbad; omega]
  · next hgood =>
    rw [not_or, not_or, Bool.not_eq_false, not_not, gt_iff_lt, Nat.not_lt] at hgood
    rw [if_pos hgood]

end

end

/-! ### Attestation (R61, R62) -/

/-- ATTCMD has taken the field of a write. -/
def State.attTaken (s : State) (w : BitVec 32) : State :=
  { s with service := { s.service with attcmd := BitVec.ofNat 32 (w.toNat / 2 ^ 24 % 64 * 2 ^ 24 + s.attResult) } }

theorem State.attTaken_served (s : State) (w : BitVec 32) : s.Served (s.attTaken w) := ⟨_, rfl⟩

theorem State.setAtt_attTaken (s : State) (w : BitVec 32) {n : Nat} (h : n < 16) :
    ∃ u, (s.attTaken w).setAtt n = u ∧ u.attResult = n ∧ s.Served u :=
  ⟨_, rfl, State.attResult_setAtt _ h, (s.attTaken_served w).trans (State.setAtt_served _ n)⟩

/-- A buffer of PF0 takes n bytes of a report or of the certificate. -/
def State.attFits (s : State) (n : Nat) : Prop := s.service.attbuf.toNat % 64 = 0 ∧ hostFits s.service.attbuf n = true

theorem State.not_attFits {s : State} {n : Nat} (h : ¬ s.attFits n) :
    s.service.attbuf.toNat % 64 ≠ 0 ∨ hostFits s.service.attbuf n = false := by
  rwa [State.attFits, not_and_or, Bool.not_eq_true] at h

theorem State.onAtt_busy {s : State} {cmd : Nat} {w : BitVec 32} (n : Nat) (fn : Nat → Option Nat)
    (hb : s.service.attBusy = true) (hc : w.toNat / 2 ^ 30 = cmd) : s.onAtt cmd w n fn = (s.attTaken w).setAtt 4 := by
  rw [State.onAtt, if_neg (not_not.mpr hc), if_pos hb]
  rfl

section
variable {s : State} {cmd : Nat} {w : BitVec 32} {n : Nat} (fn : Nat → Option Nat) (hb : s.service.attBusy = false)
  (hc : w.toNat / 2 ^ 30 = cmd)
include hb hc

theorem State.onAtt_badFn (hcmd : cmd = 1) (h : s.bound (w.toNat / 2 ^ 24 % 64) = false) :
    s.onAtt cmd w n fn = (s.attTaken w).setAtt 2 := by
  rw [State.onAtt, if_neg (not_not.mpr hc), if_neg (by simp [hb])]
  exact if_pos ⟨hcmd, h⟩

section
variable (hf : cmd = 1 → s.bound (w.toNat / 2 ^ 24 % 64) = true)
include hf

theorem State.onAtt_badBuffer (h : ¬ s.attFits n) : s.onAtt cmd w n fn = (s.attTaken w).setAtt 3 := by
  have hf' : ¬ (cmd = 1 ∧ s.bound (w.toNat / 2 ^ 24 % 64) = false) := fun h' => Bool.noConfusion ((hf h'.1).symm.trans h'.2)
  rw [State.onAtt, if_neg (not_not.mpr hc), if_neg (by simp [hb])]
  exact (if_neg hf').trans (if_pos (State.not_attFits h))

/-- A command over a buffer that fits is taken. -/
theorem State.onAtt_starts (h : s.attFits n) : (s.onAtt cmd w n fn).attResult = 5 ∧
    (s.onAtt cmd w n fn).service.attBusy = true ∧
    (s.onAtt cmd w n fn).service.attFn = fn (w.toNat / 2 ^ 24 % 64) ∧ s.Served (s.onAtt cmd w n fn) := by
  have hf' : ¬ (cmd = 1 ∧ s.bound (w.toNat / 2 ^ 24 % 64) = false) := fun h' => Bool.noConfusion ((hf h'.1).symm.trans h'.2)
  have hfit : ¬ (s.service.attbuf.toNat % 64 ≠ 0 ∨ hostFits s.service.attbuf n = false) := by
    rintro (hbad | hbad)
    · exact hbad h.1
    · exact absurd h.2 (by simp [hbad])
  obtain ⟨u, hu, hres, hs⟩ := s.setAtt_attTaken w (n := 5) (by decide)
  have htaken : s.onAtt cmd w n fn =
      u.setService { u.service with attBusy := true, attFn := fn (w.toNat / 2 ^ 24 % 64) } := by
    rw [State.onAtt, if_neg (not_not.mpr hc), if_neg (by simp [hb]), ← hu]
    exact (if_neg hf').trans (if_neg hfit)
  rw [htaken]
  exact ⟨hres, rfl, rfl, hs.trans ⟨_, rfl⟩⟩

end

end

section
variable {s : State} (hb : s.service.attBusy = true)
include hb

/-- Without a monitor that runs nothing goes on (R59). -/
theorem execAttComplete_waits (h : s.monitorRuns = false) : execAttComplete s = .next s := by
  simp only [execAttComplete, hb, h]
  rfl

variable (hm : s.monitorRuns = true)
include hm

theorem execAttComplete_certificate (h : s.service.attFn = none) :
    execAttComplete s = .next ((s.putBuffer certBytes).endAtt 1) := by
  simp only [execAttComplete, hb, hm, h]
  rfl

theorem execAttComplete_report {g : Nat} {nonce : List Byte} {t : State} (h : s.service.attFn = some g)
    (hn : s.reach 0 (bufferKey 1) (hostPa s.service.attbuf) 0 (.load 32) = .ok nonce t) :
    execAttComplete s = .next (((t.forgetKey (bufferKey 1)).putBuffer (t.report g nonce)).endAtt 1) := by
  simp only [execAttComplete, hb, hm, h, hn]
  rfl

theorem execAttComplete_badNonce {g : Nat} {t : State} (h : s.service.attFn = some g)
    (hn : s.reach 0 (bufferKey 1) (hostPa s.service.attbuf) 0 (.load 32) = .bad t) :
    execAttComplete s = .next ((t.forgetKey (bufferKey 1)).endAtt 3) := by
  simp only [execAttComplete, hb, hm, h, hn]
  rfl

end

/-! ### The statement -/

/-- Settles O49: each clause is the law of its command, in the state in which the command register has taken its fields. -/
theorem migrationAndAttestation : Obligations.MigrationAndAttestation := by
  rintro s w f rfl s1
  refine ⟨fun hv hr => ⟨?_, ?_, fun hc => ⟨?_, ?_, ?_⟩, fun hc => ?_⟩, fun hr => ?_,
    fun hbusy => ⟨fun hc => ?_, fun hc => ?_, fun hc => ?_⟩, fun hm => ?_, ?_⟩
  · exact fun hc h0 hb => execMigSuspendSave_starts hv hr hc h0 hb
  · exact fun hc h => execMigSuspendSave_refused hv hr hc h
  · exact execMigRestore_refused hv hr hc
  · exact execMigRestore_enabled hv hr hc
  · exact execMigRestore_starts hv hr hc
  · exact ⟨execMigResume_none hv hr hc, fun hne =>
      ⟨execMigResume_some hv hr hc hne, execMigResume_noWaits hv hr hc hne⟩⟩
  · exact ⟨fun hn => ⟨State.migStep_bad hr hn, State.migStep_good hr hn⟩,
      fun bs t hn h => State.migStep_line hr hn h⟩
  · exact congrArg Host.Outcome.next (State.onMig_busy _ hbusy hc)
  · exact congrArg Host.Outcome.next (State.onMig_busy _ hbusy hc)
  · exact congrArg Host.Outcome.next (State.onMig_busy _ hbusy hc)
  · intro vs waits
    refine ⟨execMigSaveImageWrite_waits hm, fun ps t hs hp =>
      ⟨fun t1 h => execMigSaveImageWrite_busy hm hs hp h, fun ws t1 h => ?_⟩, fun h => ?_⟩
    · have hw := execMigSaveImageWrite_writes hm hs hp h
      exact ⟨fun hfit => hw.trans (congrArg Host.Outcome.next (if_pos hfit)),
        fun hfit => hw.trans (congrArg Host.Outcome.next (if_neg hfit))⟩
    · simp only [waits, h]
      exact ⟨rfl, rfl⟩
  · refine ⟨fun hb => ⟨fun hc => ⟨?_, ?_, ?_⟩, fun hc => ⟨?_, ?_⟩⟩,
      fun hb => ⟨fun hc => ?_, fun hc => ?_, ?_, fun hm => ⟨?_, ?_, ?_⟩⟩⟩
    · exact fun hf => congrArg Host.Outcome.next (State.onAtt_badFn some hb hc rfl hf)
    · exact fun hf h => congrArg Host.Outcome.next (State.onAtt_badBuffer some hb hc (fun _ => hf) h)
    · intro hf h
      obtain ⟨hres, hbusy, hfn, hserved⟩ := State.onAtt_starts some hb hc (fun _ => hf) h
      exact ⟨_, rfl, hres, hbusy, hfn, hserved.vcps, hserved.mem⟩
    · exact fun h => congrArg Host.Outcome.next (State.onAtt_badBuffer _ hb hc (by simp) h)
    · intro h
      obtain ⟨hres, hbusy, hfn, hserved⟩ :=
        State.onAtt_starts (fun _ => none) hb hc (by simp) h
      exact ⟨_, rfl, hres, hbusy, hfn, hserved.mem⟩
    · exact congrArg Host.Outcome.next (State.onAtt_busy _ _ hb hc)
    · exact congrArg Host.Outcome.next (State.onAtt_busy _ _ hb hc)
    · exact execAttComplete_waits hb
    · exact execAttComplete_certificate hb hm
    · exact fun g nonce t h hn => execAttComplete_report hb hm h hn
    · exact fun g t h hn => execAttComplete_badNonce hb hm h hn

end Sys2Proof.Machine
end

section
/-! PROOFS. The machine right after reset. -/

namespace Sys2Proof.Machine

/-! ### What each unit reads as after reset -/

@[simp] theorem State.core_reset (lc : Nat) : State.reset.core lc = Core.reset := rfl
@[simp] theorem State.fe_reset (n : Nat) : State.reset.fe n = FeCore.reset n := rfl
@[simp] theorem State.tile_reset (t : Nat) : State.reset.tile t = Tile.reset := rfl
@[simp] theorem State.rail_reset (r : Nat) : State.reset.rail r = Rail.reset := rfl
@[simp] theorem State.vcp_reset (f v : Nat) : State.reset.vcp f v = Vcp.reset := rfl
@[simp] theorem State.graph_reset (g : Nat) : State.reset.graph g = none := rfl

/-- A table entry that nothing has written reads as its default: no core is mapped (R24). -/
theorem State.mapped_reset (lc : Nat) : State.reset.mapped lc = false := by
  have hentry : State.reset.entry 12 lc = 0 := rfl
  rw [State.mapped, hentry]
  rfl

theorem FeCore.released_reset (n : Nat) : (FeCore.reset n).released = true ↔ n = 0 ∨ n = 8 := by
  simp [FeCore.reset]

theorem Vcp.status_reset : Vcp.reset.status = 0 := by decide

/-! ### The statement -/

/-- Settles O59: each unit of the reset state is its reset value, whose fields are those stated. -/
theorem resetState : Obligations.ResetState := by
  refine ⟨fun lc => ?_, fun f v => ?_, fun n => ?_, fun r => ?_, fun t => ?_, rfl, rfl, State.graph_reset, memOk_reset, rfl, rfl⟩
  · rw [State.core_reset]
    exact ⟨rfl, rfl, rfl, rfl, rfl, rfl, State.mapped_reset lc⟩
  · rw [State.vcp_reset]
    exact ⟨rfl, rfl, Vcp.status_reset⟩
  · rw [State.fe_reset]
    exact ⟨rfl, rfl, FeCore.released_reset n⟩
  · rw [State.rail_reset]; rfl
  · rw [State.tile_reset]; rfl

end Sys2Proof.Machine
end

section
/-! PROOFS. Records on their way, and where one goes at a core. -/

namespace Sys2Proof.Machine

/-! ### The meanings of the steps -/

theorem exec_recordArrival (k : Nat) (s : State) : exec (.recordArrival k) s = execRecordArrival k s := rfl
theorem exec_landingArrival (k : Nat) (s : State) : exec (.landingArrival k) s = execLandingArrival k s := rfl
theorem exec_level7Retry (lc : Nat) (s : State) : exec (.level7Retry lc) s = execLevel7Retry lc s := rfl
theorem exec_trapDeliveryInject (s : State) : exec .trapDeliveryInject s = execTrapDeliveryInject s := rfl
theorem exec_deferredCancelInstall (g : Nat) (s : State) :
    exec (.deferredCancelInstall g) s = execDeferredCancelInstall g s := rfl
theorem exec_landingHandoff (g st : Nat) (s : State) : exec (.landingHandoff g st) s = execLandingHandoff g st s := rfl

/-! ### A record arrives (R24, R91, R110, R144, R153) -/

section
variable {s : State} {k : Nat} {x : Flight} (hx : s.prog.flights[k]? = some x) (hf : s.foremost k x = true)
include hx hf

section
variable {lc : Nat} (hd : x.dst = .core lc)
include hd

theorem execRecordArrival_unmapped (hm : s.mapped lc = false) (ha : s.awaitsRestore lc = false) :
    execRecordArrival k s =
      .next (((s.dropFlight k).dropAtQuay (s.dropQuay x) x.rcd).unhand x.rcd lc x.landed) := by
  simp [execRecordArrival, hx, hf, hd, hm, ha]

section
variable (hm : s.mapped lc = true) (hh : s.heldCore lc = false ∨ x.early = true)
include hm hh

theorem execRecordArrival_bad (hok : s.recordOk x.rcd = false) : execRecordArrival k s =
    .next (((s.dropFlight k).badRecord (s.dieOf lc) x.rcd).unhand x.rcd lc x.landed) := by
  rcases hh with hh | hh <;> simp [execRecordArrival, hx, hf, hd, hm, hh, hok]

theorem execRecordArrival_marked (hok : s.recordOk x.rcd = true) (hk : s.marked x.rcd.graph x.rcd.q1 = true) :
    execRecordArrival k s = .next (((s.dropFlight k).cancelDrop (s.dieOf lc) x.rcd).unhand x.rcd lc x.landed) := by
  rcases hh with hh | hh <;> simp [execRecordArrival, hx, hf, hd, hm, hh, hok, hk]

theorem execRecordArrival_taken {t : State} (hok : s.recordOk x.rcd = true) (hk : s.marked x.rcd.graph x.rcd.q1 = false)
    (h7 : x.rcd.level ≠ 7 ∨ s.holds7 lc = false) (ht : (s.dropFlight k).takeIn lc x.rcd x.marked x.landed = some t) :
    execRecordArrival k s = .next (t.wakeTile (t.tileOf lc)) := by
  have h7' : (x.rcd.level == 7 && s.holds7 lc) = false := by rcases h7 with h | h <;> simp [h]
  rcases hh with hh | hh <;> simp [execRecordArrival, hx, hf, hd, hm, hh, hok, hk, h7', ht]

end

end

/-- A record for another module leaves. -/
theorem execRecordArrival_device {d : Nat} (hd : x.dst = .device d) :
    execRecordArrival k s = .next ((s.dropFlight k).leave d x) := by
  simp [execRecordArrival, hx, hf, hd]

section
variable {g st : Nat} (hd : x.dst = .landing g st)
include hd

theorem execLandingArrival_bad (hok : s.recordOk x.rcd = false) :
    execLandingArrival k s = .next ((s.dropFlight k).badRecord ((s.landing g st).home / 16) x.rcd) := by
  simp [execLandingArrival, hx, hf, hd, hok]

theorem execLandingArrival_marked (hok : s.recordOk x.rcd = true) (hk : s.marked g x.rcd.q1 = true) :
    execLandingArrival k s = .next ((s.dropFlight k).cancelDrop ((s.landing g st).home / 16) x.rcd) := by
  simp [execLandingArrival, hx, hf, hd, hok, hk]

theorem execLandingArrival_taken {t : State} (hok : s.recordOk x.rcd = true) (hk : s.marked g x.rcd.q1 = false)
    (ht : (s.dropFlight k).land g st x.rcd x.marked = some t) : execLandingArrival k s = .next t := by
  simp [execLandingArrival, hx, hf, hd, hok, hk, ht]

end

end

/-! ### A record leaves the module (R19, R21, R110) -/

section
variable {s : State} {d : Nat} {x : Flight}

theorem State.leave_marked (h : s.marked x.rcd.graph x.rcd.q1 = true) : s.leave d x =
    (s.postNode (quayNode x.rcd.graph) (x.rcd.delta (-1) [])).count cCNCLDROP (s.fnPart (s.fnOf x.rcd.graph)) := if_pos h

variable (h : s.marked x.rcd.graph x.rcd.q1 = false)
include h

theorem State.leave_routed (hr : s.routed d = true) : s.leave d x = s.sendMsg d (.record x.rcd) := by
  simp [State.leave, h, hr]

theorem State.leave_unrouted (hr : s.routed d = false) : s.leave d x = s.dropAtQuay (s.quayOf d) x.rcd := by
  simp [State.leave, h, hr]

end

/-! ### What the front end and a landing send on (R144, R154, R229, R230) -/

theorem execLevel7Retry_taken {s t : State} {lc : Nat} {r : Rec} (hr : (s.prog.held7.find? fun y => y.1 == lc) = some (lc, r))
    (hm : s.mapped lc = true) (hh : s.heldCore lc = false) (ht : s.takeIn lc r false false = some t) :
    execLevel7Retry lc s =
      .next ({ t with prog := { t.prog with held7 := t.prog.held7.eraseP fun y => y.1 == lc } }.wakeTile (t.tileOf lc)) := by
  simp [execLevel7Retry, hr, hm, hh, ht]

section
variable {s : State} {d : Delivery} {l : List Delivery} (hd : s.prog.deliveries = d :: l)
include hd

theorem execTrapDeliveryInject_sends (h : s.holds7 d.lc = false) : execTrapDeliveryInject s =
    .next (({ s with prog := { s.prog with deliveries := l } } : State).send .dispatcher d.rcd false) := by
  have h' : ({ s with prog := { s.prog with deliveries := l } } : State).holds7 d.lc = false := h
  simp only [execTrapDeliveryInject, hd, h']
  rfl

variable (h : s.holds7 d.lc = true)
include h

theorem execTrapDeliveryInject_waits (hs : s.sent7 d.lc = true) : execTrapDeliveryInject s = .next s := by
  have h' : ({ s with prog := { s.prog with deliveries := l } } : State).holds7 d.lc = true := h
  have hs' : ({ s with prog := { s.prog with deliveries := l } } : State).sent7 d.lc = true := hs
  simp only [execTrapDeliveryInject, hd, h', hs']
  rfl

theorem execTrapDeliveryInject_holds (hs : s.sent7 d.lc = false) : execTrapDeliveryInject s =
    .next (({ s with prog := { s.prog with deliveries := l } } : State).hold7 d.lc d.rcd) := by
  have h' : ({ s with prog := { s.prog with deliveries := l } } : State).holds7 d.lc = true := h
  have hs' : ({ s with prog := { s.prog with deliveries := l } } : State).sent7 d.lc = false := hs
  simp only [execTrapDeliveryInject, hd, h', hs']
  rfl

end

theorem execDeferredCancelInstall_installs {s t : State} {g n : Nat} {c : LateCancel}
    (hc : (s.prog.late.find? fun y => y.g == g) = some c) (hi : s.installHere g c.mark = (n, t)) (hn : n ≠ 2) :
    execDeferredCancelInstall g s =
      .next (({ t with prog := { t.prog with late := t.prog.late.eraseP fun y => y.g == g } } : State).tellMark g c.mark c.dev) := by
  unfold execDeferredCancelInstall
  simp only [hc, hi]

theorem execLandingHandoff_hands {s : State} {g st lc : Nat} {y : Landed} {l : List Landed} {r : Rec}
    (hl : (s.landing g st).recs = y :: l) (hk : s.marked g y.rcd.q1 = false) (hr : s.landedRec g st y = some r)
    (hc : leastBy (fun a b => keyLess (s.handKey a) (s.handKey b))
      ((s.landing g st).subs.filter fun c => s.mayHand (s.landing g st) y.rcd c && s.earliestHead g st y c) = some lc) :
    execLandingHandoff g st s =
      .next ((s.setLanding g st { s.landing g st with
        recs := l, handed := mput 0 lc (tget 0 (s.landing g st).handed lc + 1) (s.landing g st).handed }).addFlight
        ⟨r.toCore s.devid.toNat lc, .landing g st, .core lc, y.marked, true, false⟩) := by
  unfold execLandingHandoff
  simp only [hl, hk, hr, hc]
  rfl

/-! ### The place a record takes (R144, R145) -/

/-- A free entry is a shared one or one of the level's four. -/
theorem Core.freeEntry_some {c : Core} {level i : Nat} (h : c.freeEntry level = some i) :
    (28 ≤ i ∨ (4 * (level - 1) ≤ i ∧ i < 4 * (level - 1) + 4)) ∧ c.isFree i = true := by
  unfold Core.freeEntry at h
  split at h
  · next hs =>
    cases h
    exact ⟨.inl (mem_span.mp (List.mem_of_find?_eq_some hs)).1, List.find?_some hs⟩
  · exact ⟨.inr (mem_span.mp (List.mem_of_find?_eq_some h)), List.find?_some h⟩

section
variable {c : Core} {level : Nat} (h7 : level < 7)
include h7

theorem Core.place_entry {i : Nat} (hs : (c.spill.any fun q => q.rcd.level == level) = false)
    (hi : c.freeEntry level = some i) : c.place level = .entry i := by
  simp [Core.place, Nat.ne_of_lt h7, hs, hi]

/-- Without a free entry, or behind a spilled record of its level, a record goes to the ring while it has room. -/
theorem Core.place_ring (h : (c.spill.any fun q => q.rcd.level == level) = true ∨ c.freeEntry level = none) :
    c.place level = if c.spill.length < 1024 then .spill else .none := by
  unfold Core.place
  rw [if_neg (Nat.ne_of_lt h7)]
  rcases h with h | h
  · exact if_pos h
  · simp [h]

end

/-- Of one place more than a ring's list names, one is free. -/
theorem freeRing_notMem (taken : List Nat) : freeRing taken ∉ taken := by
  have hsome : ((span 0 (taken.length + 1)).find? fun k => !taken.contains k).isSome = true := by
    rw [Option.isSome_iff_ne_none, Ne, List.find?_eq_none]
    intro hall
    have hsub : span 0 (taken.length + 1) ⊆ taken := fun k hk => by simpa using hall k hk
    have hlen := ((nodup_span 0 _).subperm hsub).length_le
    rw [length_span] at hlen
    omega
  obtain ⟨k, hk⟩ := Option.isSome_iff_exists.mp hsome
  have hfree := List.find?_some hk
  rw [freeRing, hk]
  simpa using hfree

section
variable (s : State) {lc : Nat} {r : Rec} (m l : Bool)

theorem State.takeIn_entry {i : Nat} (h : (s.core lc).place r.level = .entry i) :
    s.takeIn lc r m l = some (s.setCore lc ((s.core lc).enter i r m l)) := by simp only [State.takeIn, h]

theorem State.takeIn_none (h : (s.core lc).place r.level = .none) : s.takeIn lc r m l = none := by
  simp only [State.takeIn, h]

theorem State.takeIn_spill (h : (s.core lc).place r.level = .spill) :
    s.takeIn lc r m l = some (((s.setCore lc { s.core lc with
      spill := (s.core lc).spill ++
        [⟨r, (s.core lc).arrivals, m, false, l, some (freeRing ((s.core lc).spill.filterMap Queued.ring))⟩],
      arrivals := (s.core lc).arrivals + 1 }).ringWrite (bit (s.entry 18 lc) 63) (s.spillBase lc)
        (freeRing ((s.core lc).spill.filterMap Queued.ring)) r).count cISPILL (s.partOf lc)) := by
  simp only [State.takeIn, h]

end

/-! ### The statement -/

/-- Settles O36: each clause is the law of its step; where a record goes at a core, by the place it takes. -/
theorem recordMovement : Obligations.RecordMovement := by
  refine ⟨fun s t k lc g st x => ⟨fun hx hf => ?_, ?_, fun d l hd => ?_, ?_, ?_⟩, fun s lc r m l h1 h7 => ⟨?_, ?_, ?_⟩⟩
  · refine ⟨fun hd hm hh => ?_, fun hd hm ha => ?_, fun d hd hk => ?_, fun d hd hk => ?_, fun hd => ?_⟩
    · exact ⟨fun hok hk h7 ht => execRecordArrival_taken hx hf hd hm hh hok hk h7 ht,
        fun hok hk => execRecordArrival_marked hx hf hd hm hh hok hk, fun hok => execRecordArrival_bad hx hf hd hm hh hok⟩
    · exact execRecordArrival_unmapped hx hf hd hm ha
    · exact (execRecordArrival_device hx hf hd).trans (congrArg Host.Outcome.next (State.leave_marked (s := s.dropFlight k) hk))
    · exact ⟨fun hr => (execRecordArrival_device hx hf hd).trans
          (congrArg Host.Outcome.next (State.leave_routed (s := s.dropFlight k) hk hr)),
        fun hr => (execRecordArrival_device hx hf hd).trans
          (congrArg Host.Outcome.next (State.leave_unrouted (s := s.dropFlight k) hk hr))⟩
    · exact ⟨fun hok hk ht => execLandingArrival_taken hx hf hd hok hk ht,
        fun hok hk => execLandingArrival_marked hx hf hd hok hk, fun hok => execLandingArrival_bad hx hf hd hok⟩
  · exact fun r hr hm hh ht => execLevel7Retry_taken hr hm hh ht
  · exact ⟨execTrapDeliveryInject_sends hd, execTrapDeliveryInject_waits hd, execTrapDeliveryInject_holds hd⟩
  · exact fun c n hc hi hn => execDeferredCancelInstall_installs hc hi hn
  · exact fun y l r hl hk hr hc => execLandingHandoff_hands hl hk hr hc
  · intro i hs hi
    obtain ⟨hrange, hfree⟩ := Core.freeEntry_some hi
    exact ⟨by omega, hfree, s.takeIn_entry m l (Core.place_entry h7 hs hi)⟩
  · exact fun h hroom => ⟨freeRing_notMem _, s.takeIn_spill m l ((Core.place_ring h7 h).trans (if_pos hroom))⟩
  · exact fun h hfull => s.takeIn_none m l ((Core.place_ring h7 h).trans (if_neg (Nat.not_lt.mpr hfull)))

end Sys2Proof.Machine
end

section
/-! PROOFS. Accesses between modules and to the host, and their answers. -/

namespace Sys2Proof.Machine

/-! ### The meanings of the steps -/

theorem exec_remoteAccessArrival (src lc : Nat) (addr : Word) (op : RemoteOp) (s : State) :
    exec (.remoteAccessArrival src lc addr op) s = execRemoteAccessArrival src lc addr op s := rfl
theorem exec_remoteResponseArrival (lc level : Nat) (ok : Bool) (data : List Byte) (s : State) :
    exec (.remoteResponseArrival lc level ok data) s = execRemoteResponseArrival lc level ok data s := rfl
theorem exec_remoteRejectArrival (lc level : Nat) (addr : Word) (s : State) :
    exec (.remoteRejectArrival lc level addr) s = execRemoteRejectArrival lc level addr s := rfl
theorem exec_hostCompletionArrival (tag : Nat) (st : HostStatus) (s : State) :
    exec (.hostCompletionArrival tag st) s = execHostCompletionArrival tag st s := rfl
theorem exec_hostRequestTimeout (tag : Nat) (s : State) :
    exec (.hostRequestTimeout tag) s = execHostRequestTimeout tag s := rfl

/-! ### An access at its owner (R189, R222) -/

section
variable {s : State} {src who lc off p : Nat} {addr : Word} {op : RemoteOp}

theorem State.ownAccess_window (hs : spaceOf addr (RemoteOp.bytes op) = .window s.devid.toNat lc off)
    (ha : addr.toNat / 2 ^ 56 = 2) : s.ownAccess src who addr op = s.remoteWindow src who lc off op := by
  rw [State.ownAccess, if_pos ha, hs]
  exact if_pos rfl

theorem State.ownAccess_hbm (ha : addr.toNat / 2 ^ 56 ≠ 2) (hr : s.region addr.toNat = .hbm p) :
    s.ownAccess src who addr op = s.remoteHbm p op := by
  rw [State.ownAccess, if_neg ha, hr]

theorem State.remoteWindow_rejects (h : s.admits lc src = false) : s.remoteWindow src who lc off op = .reject := by
  simp [State.remoteWindow, h]

/-- Of the codewords of a range, a store needs those that it covers in part to be good, any other operation all (R242). -/
theorem opFails_eq_false {store whole bad : Bool} (hst : store = true → whole = true) (hgood : store = false → bad = false) :
    (if store then !whole else bad) = false := by
  cases store
  · exact hgood rfl
  · simp [hst rfl]

section
variable {as : List Nat} {bs : List Byte} (has : as = span (cellarKey lc off) (RemoteOp.bytes op))
  (hbs : bs = gatherBytes s.mem.cellar as)
  (had : s.admits lc src = true) (hm : s.mapped lc = true) (hsh : s.shut lc = false)
  (harm : op.isLoad = false ∨ 1024 ≤ who ∨ s.armedAt lc off (RemoteOp.bytes op) = false)
  (hst : isStore op = true → s.storableCellar (RemoteOp.stores op as) = true) (hgood : isStore op = false → s.anyBadCellar as = false)
include has hbs had hm hsh harm hst hgood

/-- An admitted access to an open quarter is performed on its good codewords. -/
theorem State.remoteWindow_done :
    (∀ v, RemoteOp.apply op (leNat bs) = some v → s.remoteWindow src who lc off op =
      .done true bs (s.writeCellar (RemoteOp.stores op as) (RemoteOp.values op v))) ∧
    (RemoteOp.apply op (leNat bs) = none → s.remoteWindow src who lc off op = .done true bs s) := by
  subst has hbs
  have hwait : (!s.mapped lc || s.shut lc || (op.isLoad && decide (who < 1024) && s.armedAt lc off (RemoteOp.bytes op))) = false := by
    rcases harm with h | h | h <;> simp [hm, hsh, h]
  constructor
  · intro v hv
    simp only [State.remoteWindow, had, hwait, opFails_eq_false hst hgood, hv]
    rfl
  · intro hv
    simp only [State.remoteWindow, had, hwait, opFails_eq_false hst hgood, hv]
    rfl

end

section
variable {as : List Nat} {bs : List Byte} (has : as = span p (RemoteOp.bytes op)) (hbs : bs = gatherBytes s.mem.bytes as)
  (hpop : s.populated 0 p = true) (hport : as.any s.portFailed = false)
  (hst : isStore op = true → s.storable (RemoteOp.stores op as) = true) (hgood : isStore op = false → s.anyBad as = false)
include has hbs hpop hport hst hgood

theorem State.remoteHbm_done :
    (∀ v, RemoteOp.apply op (leNat bs) = some v → s.remoteHbm p op =
      .done true bs ((s.homeWrite (RemoteOp.stores op as)).writeMem (RemoteOp.stores op as) (RemoteOp.values op v))) ∧
    (RemoteOp.apply op (leNat bs) = none → s.remoteHbm p op = .done true bs s) := by
  subst has hbs
  constructor
  · intro v hv
    simp only [State.remoteHbm, hpop, hport, opFails_eq_false hst hgood, hv]
    rfl
  · intro hv
    simp only [State.remoteHbm, hpop, hport, opFails_eq_false hst hgood, hv]
    rfl

end

end

/-! ### What has arrived from another module (R19, R190, R321) -/

/-- A message is taken, and its receive buffer is free again. -/
def State.received (s : State) (y : Arrived) (l : List Arrived) : State :=
  ({ s with prog := { s.prog with rx := l } } : State).setLink y.link ((s.link y.link).freed y.vc)

section
variable {s : State} {y : Arrived} {l : List Arrived} (hy : s.prog.rx = y :: l)
include hy

/-- The first message that has arrived is taken by what it is for. -/
theorem State.takeRx_head {p : Arrived → Bool} (skip : Arrived → Bool) (hp : p y = true) :
    s.takeRx p skip = some (y, s.received y l) := by
  simp [State.takeRx, hy, takeArrived, hp, State.received]

section
variable {src lc level : Nat} {addr : Word} {op : RemoteOp} (hsrc : y.src = src) (hmsg : y.msg = .access lc level addr op)
include hsrc hmsg

/-- What the access comes to at its owner is answered, or called for where it waits. -/
theorem execRemoteAccessArrival_owned :
    (∀ good bs t, (s.received y l).ownAccess src lc addr op = .done good bs t →
      execRemoteAccessArrival src lc addr op s = .next (t.sendMsg src (.response lc level addr good bs))) ∧
    ((s.received y l).ownAccess src lc addr op = .reject →
      execRemoteAccessArrival src lc addr op s = .next ((s.received y l).sendMsg src (.reject lc level addr))) ∧
    ((s.received y l).ownAccess src lc addr op = .wait → execRemoteAccessArrival src lc addr op s = .next (s.callAt addr)) := by
  obtain ⟨_, _, _, _⟩ := y
  subst hsrc hmsg
  unfold execRemoteAccessArrival
  dsimp only
  rw [State.takeRx_head hy _ (by simp)]
  refine ⟨fun good bs t h => ?_, fun h => ?_, fun h => ?_⟩ <;> simp only [h]

end

section
variable {lc level : Nat} {addr : Word} {r : RemoteReq} {t : State}
  (hr : (s.received y l).takeRequest lc level addr = some (r, t))
include hr

/-- The acknowledgement of a core's store, and the answer of any other access. -/
theorem execRemoteResponseArrival_answers {ok : Bool} {data : List Byte} (hmsg : y.msg = .response lc level addr ok data)
    (hlc : r.lc < 4096) : execRemoteResponseArrival lc level ok data s = .next (if isStore r.op then
      t.ackStore lc r.level (if ok then none else some (DATA, addr)) else t.answer r (if ok then .data data else .refused DATA)) := by
  obtain ⟨_, _, _, _⟩ := y
  subst hmsg
  unfold execRemoteResponseArrival
  rw [State.takeRx_head hy _ (by simp)]
  cases hst : isStore r.op <;> simp [hr, hst, hlc]

theorem execRemoteRejectArrival_answers (hmsg : y.msg = .reject lc level addr) (hlc : r.lc < 4096) :
    execRemoteRejectArrival lc level addr s = .next (if isStore r.op then
      (t.ackStore lc r.level (some (ADDRESS, addr))).count cWREJ (s.partOf lc) else t.answer r (.refused ADDRESS)) := by
  unfold execRemoteRejectArrival
  rw [State.takeRx_head hy _ (by simp [hmsg])]
  cases hst : isStore r.op <;> simp [hr, hst, hlc]

end

end

/-! ### Completions from the host (R14, R41, R194) -/

/-- A request to the host is no longer under way. -/
def State.hostEnded (s : State) (tag : Nat) : State := { s with mem := { s.mem with hostReqs := tdel tag s.mem.hostReqs } }

section
variable {s : State} {tag : Nat} {r : HostReq} (hr : tfind s.mem.hostReqs tag = some r)
include hr

theorem execHostRequestTimeout_fails :
    execHostRequestTimeout tag s = .next (((s.hostEnded tag).answerHost tag r (.refused DATA)).count cHOSTERR 0) := by
  simp only [execHostRequestTimeout, hr, State.hostEnded]

theorem execHostCompletionArrival_fails {st : HostStatus} (h : st ≠ .ok) : execHostCompletionArrival tag st s =
    .next (((s.hostEnded tag).answerHost tag r (.refused DATA)).count cHOSTERR 0) := by
  simp only [execHostCompletionArrival, hr, h, if_false, State.hostEnded]

variable {as : List Nat} {now : List Byte} (has : as = span r.addr (RemoteOp.bytes r.op))
  (hnow : now = gatherBytes s.mem.bytes as)
include has hnow

/-- Another access is between its read and its write: this one waits (R194). -/
theorem execHostCompletionArrival_waits (ho : r.old = none) (hb : s.hostBusy as = true) :
    execHostCompletionArrival tag .ok s = .next s := by
  subst has
  simp [execHostCompletionArrival, hr, ho, hb]

/-- The first completion of an atomic that is no AtomicOp brings what it reads. -/
theorem execHostCompletionArrival_reads (ho : r.old = none) (hb : s.hostBusy as = false) (hw : RemoteOp.whole r.op = false) :
    execHostCompletionArrival tag .ok s = .next (s.addHostReq tag { r with old := some now }) := by
  subst has hnow
  simp [execHostCompletionArrival, hr, ho, hb, hw]

/-- The host has stored in between: the CompareAndSwap is repeated with what it finds (R41). -/
theorem execHostCompletionArrival_repeats {o : List Byte} (ho : r.old = some o) (hs : r.swaps = true) (hne : o ≠ now) :
    execHostCompletionArrival tag .ok s = .next (s.addHostReq tag { r with old := some now }) := by
  subst has hnow
  simp [execHostCompletionArrival, hr, ho, hs, hne]

/-- The completion that ends an access. -/
theorem execHostCompletionArrival_ends
    (h : (r.old ≠ none ∧ (r.swaps = true → r.old = some now)) ∨
      (r.old = none ∧ s.hostBusy as = false ∧ RemoteOp.whole r.op = true)) :
    (RemoteOp.apply r.op (leNat (r.old.getD now)) = none → execHostCompletionArrival tag .ok s =
      .next ((s.hostEnded tag).answerHost tag r (.data (r.old.getD now)))) ∧
    (∀ v, RemoteOp.apply r.op (leNat (r.old.getD now)) = some v → execHostCompletionArrival tag .ok s =
      .next (((s.hostEnded tag).hostWrite r.fn (RemoteOp.stores r.op as) (RemoteOp.values r.op v)).answerHost tag r
        (.data (r.old.getD now)))) := by
  subst has hnow
  have hbusy : ¬ (r.old.isNone = true ∧ s.hostBusy (span r.addr (RemoteOp.bytes r.op)) = true) := by
    rcases h with ⟨h, _⟩ | ⟨_, h, _⟩
    · simp [h]
    · simp [h]
  have hswap : ¬ (r.swaps = true ∧
      r.old.any (fun b => b != gatherBytes s.mem.bytes (span r.addr (RemoteOp.bytes r.op))) = true) := by
    rintro ⟨hs, hany⟩
    rcases h with ⟨_, h⟩ | ⟨h, _⟩
    · simp [h hs] at hany
    · simp [h] at hany
  have hread : (!RemoteOp.whole r.op && r.old.isNone) = false := by
    rcases h with ⟨h, _⟩ | ⟨_, _, h⟩
    · simp [Option.isNone_eq_false_iff.mpr (Option.isSome_iff_ne_none.mpr h)]
    · simp [h]
  constructor
  · intro hv
    simp only [execHostCompletionArrival, hr, if_true, if_neg hbusy, if_neg hswap, hread, hv]
    rfl
  · intro v hv
    simp only [execHostCompletionArrival, hr, if_true, if_neg hbusy, if_neg hswap, hread, hv]
    rfl

end

/-! ### The statement -/

/-- Settles O43: an access at its owner, what an arrived message brings, and a completion, each by its law. -/
theorem remoteSteps : Obligations.RemoteSteps := by
  intro s src lc tlc off level tag addr op data ok
  refine ⟨fun hs ha => ⟨fun h => ?_, fun had hm hsh harm hst hgood => ?_⟩, fun p ha hr hpop hport hst hgood => ?_,
    fun y l hy => ⟨fun hsrc hmsg => ?_, fun r t hmsg hr hlc => ?_, fun r t hmsg hr hlc => ?_⟩,
    fun r hr => ⟨?_, ?_, ?_, ?_, ?_, ?_⟩⟩
  · exact (State.ownAccess_window hs ha).trans (State.remoteWindow_rejects h)
  · rw [State.ownAccess_window hs ha]
    exact State.remoteWindow_done rfl rfl had hm hsh harm hst hgood
  · rw [State.ownAccess_hbm ha hr]
    exact State.remoteHbm_done rfl rfl hpop hport hst hgood
  · exact execRemoteAccessArrival_owned hy hsrc hmsg
  · have hans := execRemoteResponseArrival_answers hy hr hmsg hlc
    exact ⟨fun h => hans.trans (congrArg Host.Outcome.next (if_pos h)),
      fun h => hans.trans (congrArg Host.Outcome.next (if_neg (by simp [h])))⟩
  · have hans := execRemoteRejectArrival_answers hy hr hmsg hlc
    exact ⟨fun h => hans.trans (congrArg Host.Outcome.next (if_pos h)),
      fun h => hans.trans (congrArg Host.Outcome.next (if_neg (by simp [h])))⟩
  · exact execHostCompletionArrival_waits hr rfl rfl
  · intro ho hb hw
    rw [ho]
    exact execHostCompletionArrival_reads hr rfl rfl ho hb hw
  · exact fun o ho hs hne => execHostCompletionArrival_repeats hr rfl rfl ho hs hne
  · exact execHostCompletionArrival_ends hr rfl rfl
  · exact fun st h => execHostCompletionArrival_fails hr h
  · exact execHostRequestTimeout_fails hr

end Sys2Proof.Machine
end

section
/-! PROOFS. Ferry links, die-to-die edges, attic ports and the upkeep of memory. -/

namespace Sys2Proof.Machine

/-! ### The meanings of the steps -/

theorem exec_ferryFlitReceive (link : Nat) (crc : BitVec 32) (f : Flit) (s : State) :
    exec (.ferryFlitReceive link crc f) s = execFerryFlitReceive link crc f s := rfl
theorem exec_ferryNakReceive (link : Nat) (seq : BitVec 12) (s : State) :
    exec (.ferryNakReceive link seq) s = execFerryNakReceive link seq s := rfl
theorem exec_ferryLinkRetrain (link : Nat) (s : State) : exec (.ferryLinkRetrain link) s = execFerryLinkRetrain link s := rfl
theorem exec_ferryRetrainComplete (link : Nat) (ok : Bool) (s : State) :
    exec (.ferryRetrainComplete link ok) s = execFerryRetrainComplete link ok s := rfl
theorem exec_ferryRouteReturn (dev : Nat) (s : State) : exec (.ferryRouteReturn dev) s = execFerryRouteReturn dev s := rfl
theorem exec_d2dEdgeRetrain (edge modules rate : Nat) (s : State) :
    exec (.d2dEdgeRetrain edge modules rate) s = execD2dEdgeRetrain edge modules rate s := rfl
theorem exec_d2dRetry (edge : Nat) (s : State) : exec (.d2dRetry edge) s = execD2dRetry edge s := rfl
theorem exec_atticPortFail (port : Nat) (s : State) : exec (.atticPortFail port) s = execAtticPortFail port s := rfl
theorem exec_atticPortRetrain (port : Nat) (s : State) : exec (.atticPortRetrain port) s = execAtticPortRetrain port s := rfl
theorem exec_sramScrub (die : Nat) (k : SramKind) (c : Bool) (s : State) :
    exec (.sramScrub die k c) s = execSramScrub die k c s := rfl

/-! ### What sending on a link leaves unchanged (R18 to R20) -/

theorem Link.sendAll_keeps (link : Nat) (fs : List Flit) (shut : List (BitVec 3)) (l : Link) :
    (l.sendAll link fs shut).up = l.up ∧ (l.sendAll link fs shut).expect = l.expect := by
  induction fs generalizing shut l with
  | nil => exact ⟨rfl, rfl⟩
  | cons f fs ih =>
    unfold Link.sendAll
    split
    · exact ih ..
    · exact ih ..

theorem Link.pump_keeps (link : Nat) (l : Link) : (l.pump link).up = l.up ∧ (l.pump link).expect = l.expect := by
  unfold Link.pump
  split
  · exact Link.sendAll_keeps ..
  · exact ⟨rfl, rfl⟩

theorem Link.acked_expect (l : Link) (seq : BitVec 12) : (l.acked seq).expect = l.expect := by
  unfold Link.acked
  split <;> rfl

theorem Link.nak_expect (l : Link) (seq : BitVec 12) : (l.nak seq).expect = l.expect := by
  unfold Link.nak
  dsimp only
  split
  · exact l.acked_expect seq
  · rfl

/-! ### Acknowledgements and credits (R19, R20) -/

/-- Credits come back in buffers of four flits. -/
theorem Link.credited_used (l : Link) (x : BitVec 16) {i : Nat} (hi : i < 8) :
    (l.credited x).used.toList.getD i 0 = l.used.toList.getD i 0 - 4 * (x.toNat / 4 ^ i % 4) := by
  simp [Link.credited, List.getD_eq_getElem?_getD, hi]

section
variable {l : Link} {seq : BitVec 12}

section
variable (h : ∀ y ∈ l.replay, y.h.seq ≠ seq)
include h

theorem Link.acked_none : l.acked seq = l := by
  rw [Link.acked, if_neg (by simpa using h)]

/-- A NAK that acknowledges nothing is counted. -/
theorem Link.nak_none : l.nak seq = { l with naks := l.naks + 1, wire := l.wire ++ l.replay } := by
  rw [Link.nak, if_neg (by simpa using h)]

end

section
variable {a b : List Flit} {y : Flit} (hl : l.replay = a ++ y :: b) (hy : y.h.seq = seq) (ha : ∀ z ∈ a, z.h.seq ≠ seq)
include hl hy

theorem Link.replay_has : (l.replay.any fun f => f.h.seq == seq) = true := by simp [hl, hy]

include ha

/-- The flits up to an acknowledged one are forgotten. -/
theorem Link.acked_some : l.acked seq = { l with replay := b, naks := 0 } := by
  have hrest : (l.replay.dropWhile fun f => f.h.seq != seq) = y :: b := by
    rw [hl, List.dropWhile_append_of_pos (by simpa using ha)]
    simp [hy]
  rw [Link.acked, if_pos (Link.replay_has hl hy), hrest]
  rfl

theorem Link.nak_some : l.nak seq = { l with replay := b, naks := 0, wire := l.wire ++ b } := by
  rw [Link.nak, if_pos (Link.replay_has hl hy), Link.acked_some hl hy ha]

end

end

/-! ### A flit arrives (R18, R20) -/

section
variable {s : State} {link : Nat} (hl : link < 24) (hup : (s.link link).up = true) (ht : (s.link link).training = false)
include hl hup ht

theorem execFerryFlitReceive_receives (crc : BitVec 32) (f : Flit) :
    execFerryFlitReceive link crc f s = .next (s.receiveFlit link f (crc == flitSum f)) := by
  simp [execFerryFlitReceive, hup, ht, hl]

end

section
variable {s : State} {link : Nat} {f : Flit}

theorem State.receiveFlit_crc : s.receiveFlit link f false = (s.count cFCRC link).sendControl link 2 := rfl

theorem State.receiveFlit_protocol (h : s.protocolError f.h = true) :
    s.receiveFlit link f true = (s.count cFPROT link).sendControl link 2 := by simp [State.receiveFlit, h]

variable (hp : s.protocolError f.h = false)
include hp

theorem State.receiveFlit_disorder (h : f.h.seq.toNat ≠ (s.link link).expect) : s.receiveFlit link f true = s := by
  simp [State.receiveFlit, hp, h]

/-- The link's end after a flit in order: the next sequence is expected, and its credits and acknowledgement are taken. -/
def Link.taken (l : Link) (link : Nat) (f : Flit) : Link :=
  let l1 := ({ l with expect := (l.expect + 1) % 4096 } : Link).credited f.h.credits
  (if f.h.type = 2 then l1.nak f.h.ack else l1.acked f.h.ack).pump link

omit hp in
theorem Link.taken_expect (l : Link) (link : Nat) (f : Flit) : (l.taken link f).expect = (l.expect + 1) % 4096 := by
  unfold Link.taken
  dsimp only
  rw [(Link.pump_keeps ..).2]
  split
  · exact Link.nak_expect ..
  · exact Link.acked_expect ..

theorem State.receiveFlit_ordered (h : f.h.seq.toNat = (s.link link).expect) : s.receiveFlit link f true =
    if f.h.type = 1 then (s.setLink link ((s.link link).taken link f)).acceptFlit link f
    else s.setLink link ((s.link link).taken link f) := by
  simp only [State.receiveFlit, hp, h, ne_eq, not_true_eq_false, if_false]
  rfl

omit hp

/-- A data flit for this module waits for its unit. -/
theorem State.acceptFlit_here (h : f.h.dstdev.toNat = s.devid.toNat) : s.acceptFlit link f =
    { s with prog := { s.prog with rx := s.prog.rx ++ [⟨link, f.h.srcdev.toNat, f.h.vc.toNat, f.msg⟩] } } := if_pos h

section
variable (h : f.h.dstdev.toNat ≠ s.devid.toNat)
include h

/-- One for another module is passed on with one hop less, or lost where no live link leads on. -/
theorem State.acceptFlit_passes {out : Nat}
    (ho : (s.setLink link ((s.link link).freed f.h.vc.toNat)).linkTo f.h.srcdev.toNat f.h.dstdev.toNat = some out) :
    s.acceptFlit link f = (s.setLink link ((s.link link).freed f.h.vc.toNat)).sendFlit out
      { f with h := { f.h with hops := f.h.hops - 1 } } := by
  simp only [State.acceptFlit, if_neg h, ho]

theorem State.acceptFlit_lost
    (ho : (s.setLink link ((s.link link).freed f.h.vc.toNat)).linkTo f.h.srcdev.toNat f.h.dstdev.toNat = none) :
    s.acceptFlit link f = s.setLink link ((s.link link).freed f.h.vc.toNat) := by
  simp only [State.acceptFlit, if_neg h, ho]

end

end

/-! ### A route returns (R21) -/

theorem State.sendFlit_up (s : State) (link : Nat) (f : Flit) (l : Nat) : ((s.sendFlit link f).link l).up = (s.link l).up := by
  have hset (x : Link) (hx : x.up = (s.link link).up) : ((s.setLink link x).link l).up = (s.link l).up := by
    by_cases hl : l = link
    · rw [hl, State.link_setLink, hx]
    · rw [State.link_setLink_ne _ _ _ _ hl]
  have hpump := hset _ (Link.pump_keeps link { s.link link with waiting := (s.link link).waiting ++ [f] }).1
  unfold State.sendFlit
  dsimp only
  split
  · exact hpump
  · exact hpump

theorem State.sendMsg_up (s : State) (dev : Nat) (m : Msg) (l : Nat) : ((s.sendMsg dev m).link l).up = (s.link l).up := by
  unfold State.sendMsg
  split
  · exact s.sendFlit_up ..
  · rfl

theorem State.sendUnrouted_up (s : State) (l : Nat) : (s.sendUnrouted.link l).up = (s.link l).up :=
  List.foldlRecOn (motive := fun t : State => (t.link l).up = (s.link l).up) _ _ rfl
    fun t h x _ => (t.sendMsg_up x.1 x.2 l).trans h

theorem State.sendUnrouted_links {s : State} (h : s.prog.unrouted = []) : s.sendUnrouted.links = s.links := by
  rw [State.sendUnrouted, h]
  rfl

/-- A link that leads to a device is up again. -/
def State.bringUp (dev : Nat) (s : State) (l : Nat) : State :=
  if bit (s.entry 14 dev) l && !(s.link l).up then s.setLink l { s.link l with up := true, naks := 0, retrains := 0 } else s

theorem execFerryRouteReturn_eq (dev : Nat) (s : State) :
    execFerryRouteReturn dev s = .next ((span 0 24).foldl (State.bringUp dev) s).sendUnrouted := rfl

/-- Bringing links up changes links alone. -/
theorem State.bringUp_eq (dev : Nat) (s : State) (l : Nat) : ∃ x, s.bringUp dev l = { s with links := x } := by
  unfold State.bringUp
  split <;> exact ⟨_, rfl⟩

theorem State.bringUp_entry (dev : Nat) (s : State) (l tbl idx : Nat) : (s.bringUp dev l).entry tbl idx = s.entry tbl idx := by
  obtain ⟨x, h⟩ := s.bringUp_eq dev l
  rw [h]
  rfl

theorem State.bringUp_up {dev l k : Nat} {s : State} (h : (k = l ∧ bit (s.entry 14 dev) k = true) ∨ (s.link k).up = true) :
    ((s.bringUp dev l).link k).up = true := by
  unfold State.bringUp
  by_cases hk : k = l
  · subst hk
    split
    · rw [State.link_setLink]
    · next hno => rcases h with ⟨_, hbit⟩ | hup <;> simp_all
  · have hup : (s.link k).up = true := h.resolve_left fun h' => hk h'.1
    split
    · rw [State.link_setLink_ne _ _ _ _ hk, hup]
    · exact hup

theorem State.bringUp_link {dev l k : Nat} {s : State} (h : bit (s.entry 14 dev) k = false) :
    (s.bringUp dev l).link k = s.link k := by
  unfold State.bringUp
  split
  · next hl =>
    refine State.link_setLink_ne _ _ _ _ ?_
    rintro rfl
    simp [h] at hl
  · rfl

section
variable {dev k : Nat} (ls : List Nat) (s : State)

theorem State.bringUps_up (hk : bit (s.entry 14 dev) k = true) (h : k ∈ ls ∨ (s.link k).up = true) :
    ((ls.foldl (State.bringUp dev) s).link k).up = true := by
  induction ls generalizing s with
  | nil => exact h.resolve_left List.not_mem_nil
  | cons l ls ih =>
    refine ih _ (by rw [State.bringUp_entry, hk]) ?_
    rcases h with h | h
    · rcases List.mem_cons.mp h with h | h
      · exact .inr (State.bringUp_up (.inl ⟨h, hk⟩))
      · exact .inl h
    · exact .inr (State.bringUp_up (.inr h))

theorem State.bringUps_link (hk : bit (s.entry 14 dev) k = false) :
    (ls.foldl (State.bringUp dev) s).link k = s.link k := by
  induction ls generalizing s with
  | nil => rfl
  | cons l ls ih => exact (ih _ (by rw [State.bringUp_entry, hk])).trans (State.bringUp_link hk)

theorem State.bringUps_prog : (ls.foldl (State.bringUp dev) s).prog = s.prog :=
  List.foldlRecOn (motive := fun t : State => t.prog = s.prog) ls _ rfl fun t h l _ => by
    obtain ⟨x, hx⟩ := t.bringUp_eq dev l
    rw [hx]
    exact h

end

/-! ### Edges and ports (R11, R15, R16) -/

theorem execD2dEdgeRetrain_trains {s : State} {edge modules rate : Nat} (he : edge < 14) (h1 : 1 ≤ modules)
    (h12 : modules ≤ 12) (h16 : 16 ≤ rate) (h32 : rate ≤ 32) : ∃ t, execD2dEdgeRetrain edge modules rate s = .next t ∧
      tfind t.boot.edges edge = some (modules, rate) ∧
      t.counters = if modules = 12 ∧ rate = 32 then s.counters else (s.count cD2DDEG edge).counters := by
  unfold execD2dEdgeRetrain
  rw [if_neg (by omega)]
  refine ⟨_, rfl, ?_⟩
  by_cases hfull : modules = 12 ∧ rate = 32
  · rw [if_neg (by omega), if_pos hfull]
    exact ⟨tfind_tput_same .., rfl⟩
  · rw [if_pos (by omega), if_neg hfull]
    exact ⟨tfind_tput_same .., rfl⟩

theorem State.port_setPort (s : State) {port : Nat} (hp : port < 4) (x d : Port) :
    (s.setPort port x).boot.ports.toList.getD port d = x := by
  simp [State.setPort, hp, List.getD_eq_getElem?_getD]

/-! ### The statement -/

/-- Settles O54: each clause is the law of its step; a flit in order by what its link's end takes from it. -/
theorem linkSteps : Obligations.LinkSteps := by
  intro s link dev edge modules rate port die crc f seq k c
  refine ⟨fun hl hup ht => ?_, fun l x i hi => ⟨l.credited_used x hi, Link.acked_none, fun a y b => Link.acked_some⟩,
    fun hup => ?_, fun hup ht hn => ?_, fun ht => ?_, ?_, execD2dEdgeRetrain_trains, fun he => if_pos he, fun hp => ⟨fun h => ?_, ?_⟩,
    fun hd => ?_, rfl⟩
  · have hrun := execFerryFlitReceive_receives hl hup ht crc f
    refine ⟨fun hc => ?_, fun hc hp => ?_, fun hc hp hs => ?_, fun hc hp hs => ?_⟩
    · rw [exec_ferryFlitReceive, hrun, beq_false_of_ne hc, State.receiveFlit_crc]
    · rw [exec_ferryFlitReceive, hrun, beq_iff_eq.mpr hc, State.receiveFlit_protocol hp]
    · rw [exec_ferryFlitReceive, hrun, beq_iff_eq.mpr hc, State.receiveFlit_disorder hp hs]
    · rw [exec_ferryFlitReceive, hrun, beq_iff_eq.mpr hc, State.receiveFlit_ordered hp hs]
      refine ⟨?_, fun htype => ?_, fun htype hdst => ?_, fun htype hdst => ⟨fun out hout => ?_, fun hout => ?_⟩⟩
      · rw [State.link_setLink]
        exact Link.taken_expect ..
      · rw [if_neg htype]
        rfl
      · rw [if_pos htype, State.acceptFlit_here (s := s.setLink link ((s.link link).taken link f)) hdst]
        rfl
      · rw [if_pos htype]
        exact congrArg Host.Outcome.next (State.acceptFlit_passes (s := s.setLink link ((s.link link).taken link f)) hdst hout)
      · rw [if_pos htype]
        exact congrArg Host.Outcome.next (State.acceptFlit_lost (s := s.setLink link ((s.link link).taken link f)) hdst hout)
  · rw [exec_ferryNakReceive, execFerryNakReceive, if_pos hup]
    refine ⟨fun h => ?_, fun a y b hab hy ha => ?_⟩
    · rw [Link.nak_none h]
    · rw [Link.nak_some hab hy ha]
  · rw [exec_ferryLinkRetrain, execFerryLinkRetrain]
    simp [hup, ht, hn]
  · simp only [exec_ferryRetrainComplete, execFerryRetrainComplete, ht]
    refine ⟨rfl, fun h => ?_, fun h => ?_⟩
    · simp [Nat.not_le.mpr h]
    · simp [h]
  · refine ⟨_, rfl, fun l hl hbit => ?_, fun l hl hbit => ⟨?_, fun hu => ?_⟩⟩
    · rw [State.sendUnrouted_up]
      exact State.bringUps_up _ s hbit (.inl (mem_span.mpr (by omega)))
    · rw [State.sendUnrouted_up]
      exact congrArg Link.up (State.bringUps_link _ s hbit)
    · have hlinks := State.sendUnrouted_links (s := (span 0 24).foldl (State.bringUp dev) s) (by rw [State.bringUps_prog, hu])
      exact (congrArg (fun x => tget Link.reset x l) hlinks).trans (State.bringUps_link _ s hbit)
  · rw [exec_atticPortFail, execAtticPortFail, if_pos h]
    exact ⟨_, rfl, s.port_setPort hp ..⟩
  · exact ⟨_, rfl, s.port_setPort hp ..⟩
  · rw [exec_sramScrub, execSramScrub, if_neg (Nat.not_le.mpr hd)]

end Sys2Proof.Machine
end

section
/-! PROOFS. Boot, module reset, service and measurements. -/

namespace Sys2Proof.Machine

/-! ### The meanings of the steps -/

theorem exec_powerGood (s : State) : exec .powerGood s = execPowerGood s := rfl
theorem exec_moduleReset (s : State) : exec .moduleReset s = execModuleReset s := rfl
theorem exec_tileDiePass (die : Nat) (hbm : BitVec 2) (s : State) : exec (.tileDiePass die hbm) s = execTileDiePass die hbm s := rfl
theorem exec_bringupEnd (s : State) : exec .bringupEnd s = execBringupEnd s := rfl
theorem exec_quayBringupTimeout (q : Nat) (s : State) : exec (.quayBringupTimeout q) s = execQuayBringupTimeout q s := rfl
theorem exec_monitorTrapHalt (n : Nat) (s : State) : exec (.monitorTrapHalt n) s = execMonitorTrapHalt n s := rfl
theorem exec_dieWithdraw (part : Nat) (s : State) : exec (.dieWithdraw part) s = execDieWithdraw part s := rfl
theorem exec_pluginLoad (p plg : Nat) (image : List Byte) (s : State) :
    exec (.pluginLoad p plg image) s = execPluginLoad p plg image s := rfl

/-! ### The fields of MODSTAT (R26) -/

theorem State.modState_setModState (s : State) {n : Nat} (h : n < 16) : (s.setModState n).modState = n := by
  simp only [State.setModState, State.modState, BitVec.toNat_ofNat]
  omega

/-- A state field leaves the bits above it. -/
theorem State.modstat_setModState (s : State) (n : Nat) {j : Nat} (hj : 4 ≤ j) :
    (s.setModState n).boot.modstat.getLsbD j = s.boot.modstat.getLsbD j := by
  have hlow : n % 16 < 2 ^ 4 := Nat.mod_lt _ (by decide)
  have hfield : s.boot.modstat.toNat / 16 * 16 + n % 16 = 2 ^ 4 * (s.boot.modstat.toNat / 2 ^ 4) + n % 16 := by omega
  rw [State.setModState]
  dsimp only
  rw [BitVec.getLsbD_ofNat, hfield, Nat.testBit_two_pow_mul_add _ hlow, if_neg (by omega), Nat.testBit_div_two_pow,
    Nat.sub_add_cancel hj]
  rcases Nat.lt_or_ge j 32 with h | h
  · simp [h, BitVec.getLsbD]
  · simp [Nat.not_lt.mpr h, BitVec.getLsbD_of_ge _ _ h]

/-- One bit of a number is replaced. -/
theorem testBit_replace (w : Nat) (v : Bool) (i j : Nat) :
    (w - w / 2 ^ i % 2 * 2 ^ i + v.toNat * 2 ^ i).testBit j = if j = i then v else w.testBit j := by
  have hw := Nat.div_add_mod w (2 ^ i)
  have hlow : w % 2 ^ i < 2 ^ i := Nat.mod_lt _ (Nat.two_pow_pos i)
  have hsplit (b : Nat) : 2 ^ i * (2 * (w / 2 ^ i / 2) + b) = 2 ^ i * (2 * (w / 2 ^ i / 2)) + b * 2 ^ i := by
    rw [Nat.mul_add, Nat.mul_comm (2 ^ i) b]
  have hbit : w / 2 ^ i = 2 * (w / 2 ^ i / 2) + w / 2 ^ i % 2 := by omega
  have hnew : w - w / 2 ^ i % 2 * 2 ^ i + v.toNat * 2 ^ i = 2 ^ i * (2 * (w / 2 ^ i / 2) + v.toNat) + w % 2 ^ i := by
    have hold := hsplit (w / 2 ^ i % 2)
    rw [← hbit] at hold
    rw [hsplit]
    omega
  have hold : w = 2 ^ i * (w / 2 ^ i) + w % 2 ^ i := hw.symm
  have htest : w.testBit j = if j < i then (w % 2 ^ i).testBit j else (w / 2 ^ i).testBit (j - i) := by
    conv_lhs => rw [hold]
    exact Nat.testBit_two_pow_mul_add _ hlow j
  rw [hnew, Nat.testBit_two_pow_mul_add _ hlow, htest]
  rcases Nat.lt_trichotomy j i with h | h | h
  · rw [if_pos h, if_neg (by omega), if_pos h]
  · subst h
    cases v <;> simp [Nat.testBit_zero]
  · obtain ⟨k, hk⟩ : ∃ k, j - i = k + 1 := ⟨j - i - 1, by omega⟩
    rw [if_neg (by omega), if_neg (by omega), if_neg (by omega), hk, Nat.testBit_succ, Nat.testBit_succ]
    congr 1
    cases v <;> simp only [Bool.toNat_false, Bool.toNat_true] <;> omega

theorem State.modstat_setStat (s : State) {i : Nat} (hi : i < 32) (v : Bool) (j : Nat) :
    (s.setStat i v).boot.modstat.getLsbD j = if j = i then v else s.boot.modstat.getLsbD j := by
  rw [State.setStat]
  dsimp only
  rw [BitVec.getLsbD_ofNat, testBit_replace]
  rcases Nat.lt_or_ge j 32 with h | h
  · simp [h, BitVec.getLsbD]
  · have hne : j ≠ i := by omega
    simp [Nat.not_lt.mpr h, BitVec.getLsbD_of_ge _ _ h, hne]

/-- The state is the low four bits. -/
theorem State.modState_congr {s t : State} (h : ∀ j < 4, t.boot.modstat.getLsbD j = s.boot.modstat.getLsbD j) :
    t.modState = s.modState := by
  refine Nat.eq_of_testBit_eq fun j => ?_
  have hmod (u : State) : u.modState.testBit j = (decide (j < 4) && u.boot.modstat.getLsbD j) :=
    Nat.testBit_mod_two_pow u.boot.modstat.toNat 4 j
  rw [hmod, hmod]
  by_cases hj : j < 4
  · rw [h j hj]
  · simp [hj]

theorem State.modState_setStat (s : State) {i : Nat} (hi : i < 32) (h4 : 4 ≤ i) (v : Bool) :
    (s.setStat i v).modState = s.modState :=
  State.modState_congr fun j hj => by rw [s.modstat_setStat hi, if_neg (by omega)]

theorem State.Tuned.boot {s t : State} (h : s.Tuned t) : t.boot = s.boot := by
  obtain ⟨_, _, rfl⟩ := h
  rfl

theorem State.retuneAll_tuned (s : State) : s.Tuned s.retuneAll :=
  List.foldlRecOn _ _ (.refl s) fun t h r _ => h.trans (t.retune_tuned r)

theorem State.modState_toState (s : State) {n : Nat} (h : n < 16) : (s.toState n).modState = n := by
  unfold State.toState
  split
  · assumption
  · rw [State.modState, (State.retuneAll_tuned _).boot]
    exact s.modState_setModState h

theorem State.modstat_toState (s : State) (n : Nat) {j : Nat} (hj : 4 ≤ j) :
    (s.toState n).boot.modstat.getLsbD j = s.boot.modstat.getLsbD j := by
  unfold State.toState
  split
  · rfl
  · rw [(State.retuneAll_tuned _).boot]
    exact s.modstat_setModState n hj

/-! ### Service (R26, R51) -/

/-- A die that passes brings the module to state 2, with the bits of its stacks that have trained. -/
theorem execTileDiePass_passes {s : State} {die : Nat} {hbm : BitVec 2} (hd : die < 8) (hm : s.modState = 1) :
    ∃ t, execTileDiePass die hbm s = .next t ∧ t.modState = 2 ∧ t.boot.modstat.getLsbD (24 + die) = true ∧
      t.boot.modstat.getLsbD (8 + 2 * die) = hbm[0] ∧ t.boot.modstat.getLsbD (9 + 2 * die) = hbm[1] := by
  unfold execTileDiePass
  rw [if_neg (by omega)]
  refine ⟨_, rfl, State.modState_toState _ (by decide), ?_⟩
  rw [State.modstat_toState _ _ (by omega), State.modstat_toState _ _ (by omega), State.modstat_toState _ _ (by omega)]
  simp only [State.setDie_boot]
  refine ⟨?_, ?_, ?_⟩
  · rw [State.modstat_setStat _ (by omega), if_neg (by omega), State.modstat_setStat _ (by omega), if_neg (by omega),
      State.modstat_setStat _ (by omega), if_pos rfl]
  · rw [State.modstat_setStat _ (by omega), if_neg (by omega), State.modstat_setStat _ (by omega), if_pos rfl]
  · rw [State.modstat_setStat _ (by omega), if_pos rfl]

theorem State.unmapGone_modState (s : State) (lc : Nat) : (s.unmapGone lc).modState = s.modState := by
  unfold State.unmapGone
  split <;> rfl

theorem execBringupEnd_modState {s : State} (hm : s.modState = 1 ∨ s.modState = 2) : ∃ t, execBringupEnd s = .next t ∧
    t.modState = if s.boot.modstat.toNat / 2 ^ 24 = 0 then 15 else if s.boot.modstat.toNat / 2 ^ 8 = 0xFFFFFF then 3 else 4 := by
  unfold execBringupEnd
  dsimp only
  rw [if_neg (by omega)]
  refine ⟨_, rfl, ?_⟩
  generalize hn : (if s.boot.modstat.toNat / 2 ^ 24 = 0 then 15 else if s.boot.modstat.toNat / 2 ^ 8 = 0xFFFFFF then 3 else 4) = n
  have hlt : n < 16 := by
    rw [← hn]
    split
    · decide
    · split <;> decide
  have hstate := s.modState_toState hlt
  split
  · exact List.foldlRecOn (motive := fun t : State => t.modState = n) _ _ hstate
      fun t h lc _ => (t.unmapGone_modState lc).trans h
  · exact hstate

theorem State.fe_haltFe (s : State) (n : Nat) : ((s.haltFe n).fe n).halted = true := by
  have hset : ((s.setFe n { s.fe n with halted := true }).fe n).halted = true := by rw [State.fe_setFe]
  unfold State.haltFe
  dsimp only
  split <;> exact hset

section
variable {s : State} {part : Nat} (h2 : 2 ≤ s.modState) (h4 : s.modState ≤ 4)
include h2 h4

/-- A withdrawn die leaves service and its partitions are killed. -/
theorem execDieWithdraw_die (hp : part < 8) (hs : (s.die part).inService = true) : execDieWithdraw part s =
    let s1 := (s.setStat (24 + part) false).setDie part { s.die part with inService := false }
    let s2 := (s.partsOn part).foldl (fun s p => s.killPart p) s1
    .next (s2.toState (if s2.boot.modstat.toNat / 2 ^ 24 = 0 then 15 else if s.modState = 2 then 2 else 4)) := by
  rw [execDieWithdraw, if_neg (by omega), if_pos hp, if_neg (by simp [hs])]

/-- A withdrawn stack leaves the partitions running. -/
theorem execDieWithdraw_stack (h8 : 8 ≤ part) (hp : part < 24) :
    execDieWithdraw part s = .next ((s.setStat part false).toState (if s.modState = 2 then 2 else 4)) := by
  rw [execDieWithdraw, if_neg (by omega), if_neg (by omega), if_pos hp]

end

/-! ### What the boot of a quay die changes (R58) -/

/-- A state differs from another in what boot writes: memory, the boot unit, the front-end cores and the counters; the fused
SVN does not fall. -/
def State.Booted (s t : State) : Prop :=
  ∃ m b x c, t = { s with mem := m, boot := b, fes := x, counters := c } ∧ s.boot.svn ≤ b.svn

theorem State.Booted.refl (s : State) : s.Booted s := ⟨_, _, _, _, rfl, Nat.le_refl _⟩

theorem State.Booted.trans {s t u : State} (h : s.Booted t) (k : t.Booted u) : s.Booted u := by
  obtain ⟨_, _, _, _, rfl, hs⟩ := h
  obtain ⟨_, _, _, _, rfl, ht⟩ := k
  exact ⟨_, _, _, _, rfl, Nat.le_trans hs ht⟩

theorem State.Booted.svn {s t : State} (h : s.Booted t) : s.boot.svn ≤ t.boot.svn := by
  obtain ⟨_, _, _, _, rfl, hs⟩ := h
  exact hs

theorem State.Booted.cores {s t : State} (h : s.Booted t) : t.cores = s.cores := by
  obtain ⟨_, _, _, _, rfl, _⟩ := h
  rfl

theorem State.Booted.devid {s t : State} (h : s.Booted t) : t.devid = s.devid := by
  obtain ⟨_, _, _, _, rfl, _⟩ := h
  rfl

theorem State.setModState_booted (s : State) (n : Nat) : s.Booted (s.setModState n) := ⟨_, _, _, _, rfl, Nat.le_refl _⟩
theorem State.setFe_booted (s : State) (n : Nat) (c : FeCore) : s.Booted (s.setFe n c) := ⟨_, _, _, _, rfl, Nat.le_refl _⟩
theorem State.count_booted (s : State) (code i : Nat) : s.Booted (s.count code i) := ⟨_, _, _, _, rfl, Nat.le_refl _⟩
theorem State.loadBody_booted (s : State) (b : List Byte) : s.Booted (s.loadBody b) := ⟨_, _, _, _, rfl, Nat.le_refl _⟩

/-- An extended measurement changes the measurements alone (R60). -/
theorem State.extend_eq (s : State) (i : Nat) (h : BitVec 384) :
    ∃ m, s.extend i h = { s with boot := { s.boot with meas := m } } := by
  unfold State.extend
  split <;> exact ⟨_, rfl⟩

theorem State.extend_booted (s : State) (i : Nat) (h : BitVec 384) : s.Booted (s.extend i h) := by
  obtain ⟨m, he⟩ := s.extend_eq i h
  rw [he]
  exact ⟨_, _, _, _, rfl, Nat.le_refl _⟩

theorem State.extend_counters (s : State) (i : Nat) (h : BitVec 384) : (s.extend i h).counters = s.counters := by
  obtain ⟨m, he⟩ := s.extend_eq i h
  rw [he]

theorem State.extend_quayUp (s : State) (i : Nat) (h : BitVec 384) : (s.extend i h).boot.quayUp = s.boot.quayUp := by
  obtain ⟨m, he⟩ := s.extend_eq i h
  rw [he]

theorem State.setQuay_booted (s : State) (q : Nat) {b : Boot → Fin 2 → Boot} (h : ∀ x i, (b x i).svn = x.svn) :
    s.Booted (s.setQuay q b) := by
  unfold State.setQuay
  split
  · exact ⟨_, _, _, _, rfl, Nat.le_of_eq (h ..).symm⟩
  · exact .refl s

theorem State.setQuay_fe (s : State) (q : Nat) (b : Boot → Fin 2 → Boot) (n : Nat) : (s.setQuay q b).fe n = s.fe n := by
  unfold State.setQuay
  split <;> rfl

theorem State.setQuay_counters (s : State) (q : Nat) (b : Boot → Fin 2 → Boot) : (s.setQuay q b).counters = s.counters := by
  unfold State.setQuay
  split <;> rfl

/-- Changing front-end cores one by one. -/
def State.mapFes (s : State) (g : FeCore → FeCore) (l : List Nat) : State := l.foldl (fun s n => s.setFe n (g (s.fe n))) s

theorem State.mapFes_eq (s : State) (g : FeCore → FeCore) (l : List Nat) : ∃ x, s.mapFes g l = { s with fes := x } :=
  List.foldlRecOn (motive := fun t : State => ∃ x, t = { s with fes := x }) l _ ⟨_, rfl⟩ fun t h n _ => by
    obtain ⟨x, rfl⟩ := h
    exact ⟨_, rfl⟩

theorem State.fe_mapFes (g : FeCore → FeCore) (l : List Nat) (hl : l.Nodup) (s : State) (n : Nat) :
    (s.mapFes g l).fe n = if n ∈ l then g (s.fe n) else s.fe n := by
  induction l generalizing s with
  | nil => rfl
  | cons k l ih =>
    obtain ⟨hk, hl⟩ := List.nodup_cons.mp hl
    refine (ih hl _).trans ?_
    by_cases hn : n = k
    · subst hn
      simp [hk]
    · rw [State.fe_setFe_ne _ _ _ _ hn]
      simp [hn]

theorem State.mapFes_booted (s : State) (g : FeCore → FeCore) (l : List Nat) : s.Booted (s.mapFes g l) := by
  obtain ⟨x, h⟩ := s.mapFes_eq g l
  rw [h]
  exact ⟨_, _, _, _, rfl, Nat.le_refl _⟩

theorem State.mapFes_counters (s : State) (g : FeCore → FeCore) (l : List Nat) : (s.mapFes g l).counters = s.counters := by
  obtain ⟨x, h⟩ := s.mapFes_eq g l
  rw [h]

theorem State.mapFes_boot (s : State) (g : FeCore → FeCore) (l : List Nat) : (s.mapFes g l).boot = s.boot := by
  obtain ⟨x, h⟩ := s.mapFes_eq g l
  rw [h]

/-- What a front-end core is when its quay die enters a level at an address. -/
def FeCore.entered (priv entry : Nat) (c : FeCore) : FeCore :=
  { c with released := true, priv := priv, h := { c.h with pc := entry / 4, sent := [], stalled := false } }

/-- The return address and level with which the monitor enters the scheduler. -/
def FeCore.returnsTo (entry : Nat) (c : FeCore) : FeCore := { c with epc := BitVec.ofNat 52 entry, prev := 1 }

theorem State.enterQuay_eq (s : State) (q priv entry : Nat) :
    s.enterQuay q priv entry = s.mapFes (FeCore.entered priv entry) (span (8 * q) 8) := rfl

theorem State.enterScheduler_eq (s : State) (q entry : Nat) : s.enterScheduler q entry =
    (s.mapFes (FeCore.entered 1 entry) (span (8 * q) 8)).mapFes (FeCore.returnsTo entry) (span (8 * q) 8) := rfl

/-- A core of a quay die runs at a level of its firmware. -/
def FeCore.Up (c : FeCore) : Prop := c.released = true ∧ 1 ≤ c.priv ∧ c.priv ≤ 2

theorem State.enterScheduler_up (s : State) {q n : Nat} (entry : Nat) (hn : n ∈ span (8 * q) 8) :
    ((s.enterScheduler q entry).fe n).Up := by
  rw [State.enterScheduler_eq, State.fe_mapFes _ _ (nodup_span ..), if_pos hn, State.fe_mapFes _ _ (nodup_span ..), if_pos hn]
  exact ⟨rfl, Nat.le_refl 1, Nat.le_succ 1⟩

/-! ### The monitor's part (R58) -/

/-- The state in which the monitor has entered the scheduler. -/
def State.withScheduler (s : State) (q slot : Nat) : State :=
  ((s.loadBody (Config.flashScheduler q slot)).extend 2 (sha384 (imgBody (Config.flashScheduler q slot)))).enterScheduler q
    (imgEntry (Config.flashScheduler q slot))

/-- The monitor leaves the state, enters the scheduler, or enters it with a raised SVN. -/
theorem State.bootScheduler_cases (s : State) (q slot : Nat) (m : List Byte) :
    s.bootScheduler q slot m = s ∨ ∃ v, (s.withScheduler q slot).boot.svn ≤ v ∧ s.bootScheduler q slot m =
      { s.withScheduler q slot with boot := { (s.withScheduler q slot).boot with svn := v } } := by
  have heq : s.bootScheduler q slot m =
      if !imageGood (Config.flashScheduler q slot) 2 (fun k => rootKey k || Config.makerKey k) then s
      else if imgField m 6 2 % 2 = 1 then { s.withScheduler q slot with
        boot := { (s.withScheduler q slot).boot with svn := max (s.withScheduler q slot).boot.svn (imgSvn m) } }
      else s.withScheduler q slot := rfl
  rw [heq]
  generalize s.withScheduler q slot = u
  split
  · exact .inl rfl
  · split
    · exact .inr ⟨_, Nat.le_max_left .., rfl⟩
    · exact .inr ⟨u.boot.svn, Nat.le_refl _, rfl⟩

theorem State.enterScheduler_booted (s : State) (q entry : Nat) : s.Booted (s.enterScheduler q entry) := by
  rw [State.enterScheduler_eq]
  exact (s.mapFes_booted ..).trans (State.mapFes_booted ..)

theorem State.withScheduler_booted (s : State) (q slot : Nat) : s.Booted (s.withScheduler q slot) := by
  unfold State.withScheduler
  exact ((s.loadBody_booted _).trans (State.extend_booted ..)).trans (State.enterScheduler_booted ..)

theorem State.bootScheduler_booted (s : State) (q slot : Nat) (m : List Byte) : s.Booted (s.bootScheduler q slot m) := by
  rcases s.bootScheduler_cases q slot m with h | ⟨v, hv, h⟩
  · rw [h]
    exact .refl s
  · rw [h]
    exact (s.withScheduler_booted q slot).trans ⟨_, _, _, _, rfl, hv⟩

theorem State.withScheduler_counters (s : State) (q slot : Nat) : (s.withScheduler q slot).counters = s.counters := by
  rw [State.withScheduler, State.enterScheduler_eq, State.mapFes_counters, State.mapFes_counters, State.extend_counters]
  rfl

theorem State.withScheduler_quayUp (s : State) (q slot : Nat) : (s.withScheduler q slot).boot.quayUp = s.boot.quayUp := by
  rw [State.withScheduler, State.enterScheduler_eq, State.mapFes_boot, State.mapFes_boot, State.extend_quayUp]
  rfl

theorem State.bootScheduler_counters (s : State) (q slot : Nat) (m : List Byte) :
    (s.bootScheduler q slot m).counters = s.counters := by
  rcases s.bootScheduler_cases q slot m with h | ⟨v, -, h⟩
  · rw [h]
  · simp only [h, State.withScheduler_counters]

theorem State.bootScheduler_quayUp (s : State) (q slot : Nat) (m : List Byte) :
    (s.bootScheduler q slot m).boot.quayUp = s.boot.quayUp := by
  rcases s.bootScheduler_cases q slot m with h | ⟨v, -, h⟩
  · rw [h]
  · simp only [h, State.withScheduler_quayUp]

theorem State.bootScheduler_up {s : State} {q n : Nat} (slot : Nat) (m : List Byte) (hn : n ∈ span (8 * q) 8)
    (h : (s.fe n).Up) : ((s.bootScheduler q slot m).fe n).Up := by
  rcases s.bootScheduler_cases q slot m with he | ⟨v, -, he⟩
  · rwa [he]
  · have hup : ((s.withScheduler q slot).fe n).Up := State.enterScheduler_up _ _ hn
    rw [he]
    generalize s.withScheduler q slot = u at hup ⊢
    exact hup

/-! ### The boot ROM's part (R58) -/

/-- The boot ROM takes the monitor of a slot. -/
def State.monitorGood (s : State) (q slot : Nat) : Bool :=
  imageGood (Config.flashMonitor q slot) 1 rootKey && decide (s.boot.svn ≤ imgSvn (Config.flashMonitor q slot))

/-- The boot ROM has measured itself, and counted that it takes slot B. -/
def State.romRun (s : State) (q slot : Nat) : State :=
  if slot = 1 then (s.extend 0 Config.romHash).count cBOOTALT q else s.extend 0 Config.romHash

/-- The monitor of a slot has been loaded and measured, and its quay die has entered it. -/
def State.withMonitor (s : State) (q slot : Nat) : State :=
  ((((s.romRun q slot).loadBody (Config.flashMonitor q slot)).extend 1 (sha384 (imgBody (Config.flashMonitor q slot)))).enterQuay q 2
    (imgEntry (Config.flashMonitor q slot))).setQuay q fun x i =>
      { x with quayUp := x.quayUp.set i true, svnRunning := imgSvn (Config.flashMonitor q slot) }

/-- Neither slot is good: the ROM tells why, and its core halts. -/
def State.romFailed (s : State) (q : Nat) : State :=
  (((s.extend 0 Config.romHash).setQuay q fun b i => { b with romStatus := b.romStatus.set i (Config.romReason q) }).setModState
    15).setFe (8 * q) { ((s.extend 0 Config.romHash).setModState 15).fe (8 * q) with halted := true }

theorem State.bootQuay_some {s : State} {q slot : Nat} (h : [0, 1].find? (s.monitorGood q) = some slot) :
    s.bootQuay q = (s.withMonitor q slot).bootScheduler q slot (Config.flashMonitor q slot) := by
  unfold State.bootQuay
  dsimp only
  split
  · next h0 => cases h.symm.trans h0
  · next h0 => cases h.symm.trans h0; rfl

theorem State.bootQuay_none {s : State} {q : Nat} (h : [0, 1].find? (s.monitorGood q) = none) : s.bootQuay q = s.romFailed q := by
  unfold State.bootQuay
  dsimp only
  split
  · rfl
  · next h0 => cases h.symm.trans h0

theorem State.romRun_booted (s : State) (q slot : Nat) : s.Booted (s.romRun q slot) := by
  unfold State.romRun
  split
  · exact (s.extend_booted ..).trans (State.count_booted ..)
  · exact s.extend_booted ..

theorem State.withMonitor_booted (s : State) (q slot : Nat) : s.Booted (s.withMonitor q slot) := by
  unfold State.withMonitor
  rw [State.enterQuay_eq]
  exact ((((s.romRun_booted ..).trans (State.loadBody_booted ..)).trans (State.extend_booted ..)).trans
    (State.mapFes_booted ..)).trans (State.setQuay_booted _ _ fun _ _ => rfl)

theorem State.romFailed_booted (s : State) (q : Nat) : s.Booted (s.romFailed q) := by
  unfold State.romFailed
  refine .trans ?_ (State.setFe_booted ..)
  refine .trans ?_ (State.setModState_booted ..)
  exact (s.extend_booted ..).trans (State.setQuay_booted _ _ fun _ _ => rfl)

theorem State.bootQuay_booted (s : State) (q : Nat) : s.Booted (s.bootQuay q) := by
  cases h : [0, 1].find? (s.monitorGood q) with
  | none =>
    rw [State.bootQuay_none h]
    exact s.romFailed_booted q
  | some slot =>
    rw [State.bootQuay_some h]
    exact (s.withMonitor_booted q slot).trans (State.bootScheduler_booted ..)

theorem State.quaysUp_booted (s : State) : s.Booted s.quaysUp := by
  unfold State.quaysUp
  split
  · exact s.setModState_booted 1
  · exact .refl s

theorem State.withMonitor_up (s : State) {q n : Nat} (slot : Nat) (hn : n ∈ span (8 * q) 8) : ((s.withMonitor q slot).fe n).Up := by
  rw [State.withMonitor, State.setQuay_fe, State.enterQuay_eq, State.fe_mapFes _ _ (nodup_span ..), if_pos hn]
  exact ⟨rfl, Nat.le_succ 1, Nat.le_refl 2⟩

theorem State.withMonitor_counters (s : State) (q slot : Nat) : (s.withMonitor q slot).counters = (s.romRun q slot).counters := by
  rw [State.withMonitor, State.setQuay_counters, State.enterQuay_eq, State.mapFes_counters, State.extend_counters]
  rfl

/-- Slot B is counted. -/
theorem State.romRun_counter (s : State) (q slot : Nat) : (s.romRun q slot).counter cBOOTALT q =
    if slot = 1 then satAdd (s.counter cBOOTALT q) 1 else s.counter cBOOTALT q := by
  have hext : (s.extend 0 Config.romHash).counter cBOOTALT q = s.counter cBOOTALT q := by
    rw [State.counter, State.extend_counters]
    rfl
  unfold State.romRun
  split
  · exact (State.counter_setCounter ..).trans (by rw [hext])
  · exact hext

section
variable {q : Nat} (hq : q < 2)
include hq

theorem State.setQuay_lt (s : State) (b : Boot → Fin 2 → Boot) : s.setQuay q b = { s with boot := b s.boot ⟨q, hq⟩ } := dif_pos hq

theorem State.withMonitor_quayUp (s : State) (slot : Nat) : (s.withMonitor q slot).boot.quayUp.toList.getD q false = true := by
  rw [State.withMonitor, State.setQuay_lt hq]
  simp [List.getD_eq_getElem?_getD, hq]

/-- The lowest slot that is good runs. -/
theorem State.bootQuay_up {s : State} (h : s.monitorGood q 0 = true ∨ s.monitorGood q 1 = true) :
    (s.bootQuay q).boot.quayUp.toList.getD q false = true ∧
    (∀ n, 8 * q ≤ n → n < 8 * q + 8 → ((s.bootQuay q).fe n).Up) ∧
    (s.bootQuay q).counter cBOOTALT q =
      if s.monitorGood q 0 = true then s.counter cBOOTALT q else satAdd (s.counter cBOOTALT q) 1 := by
  have hslot : [0, 1].find? (s.monitorGood q) = some (if s.monitorGood q 0 = true then 0 else 1) := by
    cases h0 : s.monitorGood q 0
    · simp [h0, h.resolve_left (by simp [h0])]
    · simp [h0]
  rw [State.bootQuay_some hslot]
  refine ⟨?_, fun n hl hu => ?_, ?_⟩
  · rw [State.bootScheduler_quayUp]
    exact State.withMonitor_quayUp hq ..
  · have hn : n ∈ span (8 * q) 8 := mem_span.mpr ⟨hl, hu⟩
    exact State.bootScheduler_up _ _ hn (State.withMonitor_up _ _ hn)
  · rw [State.counter, State.bootScheduler_counters, State.withMonitor_counters]
    refine (State.romRun_counter ..).trans ?_
    cases s.monitorGood q 0 <;> rfl

/-- With no good slot the module has failed. -/
theorem State.bootQuay_failed {s : State} (h0 : s.monitorGood q 0 = false) (h1 : s.monitorGood q 1 = false) :
    (s.bootQuay q).modState = 15 ∧ ((s.bootQuay q).fe (8 * q)).halted = true ∧
    (s.bootQuay q).boot.quayUp = s.boot.quayUp ∧ (s.bootQuay q).boot.romStatus.toList.getD q 0 = Config.romReason q := by
  rw [State.bootQuay_none (by simp [h0, h1]), State.romFailed, State.setQuay_lt hq]
  refine ⟨State.modState_setModState _ (by decide), by rw [State.fe_setFe], ?_, ?_⟩
  · exact s.extend_quayUp 0 Config.romHash
  · simp [State.setModState, List.getD_eq_getElem?_getD, hq]

end

/-! ### Power good and module reset (R26, R58) -/

theorem execPowerGood_boots (s : State) : ∃ t, execPowerGood s = .next t ∧ t = ((s.powerUp.bootQuay 0).bootQuay 1).quaysUp ∧
    t.cores = [] ∧ t.devid = s.devid ∧ s.boot.svn ≤ t.boot.svn := by
  have h := ((s.powerUp.bootQuay_booted 0).trans (State.bootQuay_booted _ 1)).trans (State.quaysUp_booted _)
  exact ⟨_, rfl, rfl, h.cores, h.devid, h.svn⟩

end Sys2Proof.Machine
end

section
/-! PROOFS. Plug-in images, graph images and replay. -/

namespace Sys2Proof.Machine

/-! ### The meanings of the steps -/

theorem exec_graphImageLoad (g f base home : Nat) (im : Image) (s : State) :
    exec (.graphImageLoad g f base home im) s = execGraphImageLoad g f base home im s := rfl
theorem exec_graphUnload (g : Nat) (s : State) : exec (.graphUnload g) s = execGraphUnload g s := rfl
theorem exec_replay (p : Nat) (s : State) : exec (.replay p) s = execReplay p s := rfl

/-! ### What a measurement leaves unchanged (R60) -/

theorem State.extend_mem (s : State) (i : Nat) (x : BitVec 384) : (s.extend i x).mem = s.mem := by
  obtain ⟨m, he⟩ := s.extend_eq i x
  rw [he]

theorem State.extend_meas_congr {s t : State} (h : t.boot = s.boot) (i : Nat) (x : BitVec 384) :
    (t.extend i x).boot.meas = (s.extend i x).boot.meas := by
  unfold State.extend
  split <;> simp only [h]

/-! ### Plug-in images (R58, R60) -/

/-- A good image is measured in MEAS3 and loaded where a monitor runs. -/
theorem execPluginLoad_loads {s : State} {p plg : Nat} {image : List Byte} (hn : plg < 256) (hm : s.monitorRuns = true)
    (hc : s.coresOf p ≠ []) (hg : imageGood image 3 (fun k => k == Config.operatorKey p) = true) :
    ∃ t, execPluginLoad p plg image s = .next t ∧ t.plugin plg =
      { s.plugin plg with loaded := true, disabled := false, failures := 0, entry := imgEntry image } ∧
      t.boot.meas = (s.extend 3 (sha384 (imgBody image))).boot.meas ∧ t.mem = (s.loadBody image).mem := by
  unfold execPluginLoad
  rw [if_neg (by simp [hn, hm, hc, hg])]
  refine ⟨_, rfl, ?_, ?_, ?_⟩
  all_goals generalize sha384 (imgBody image) = h
  · rw [State.plugin_setPlugin]
    obtain ⟨m, he⟩ := (s.loadBody image).extend_eq 3 h
    rw [he]
    rfl
  · exact State.extend_meas_congr (s := s) (t := s.loadBody image) rfl 3 h
  · exact State.extend_mem ..

theorem execPluginLoad_refuses {s : State} {p : Nat} (plg : Nat) {image : List Byte} (h : s.monitorRuns = false ∨ s.coresOf p = [] ∨
    imageGood image 3 (fun k => k == Config.operatorKey p) = false) : execPluginLoad p plg image s = .next s := by
  refine if_pos ?_
  rcases h with h | h | h <;> simp [h]

/-! ### Graph images (R60, R303, R304) -/

/-- Two states have the same boot unit and the same bytes of memory. -/
def State.SameBytes (s t : State) : Prop := t.boot = s.boot ∧ t.mem.bytes = s.mem.bytes

theorem State.SameBytes.trans {s t u : State} (h : s.SameBytes t) (k : t.SameBytes u) : s.SameBytes u :=
  ⟨k.1.trans h.1, k.2.trans h.2⟩

theorem State.eachCore_sameBytes (s : State) (p : Nat) {f : State → Nat → State} (h : ∀ (t : State) lc, t.SameBytes (f t lc)) :
    s.SameBytes (s.eachCore p f) :=
  List.foldlRecOn _ _ ⟨rfl, rfl⟩ fun t ht lc _ => ht.trans (h t lc)

theorem State.dropIcaches_sameBytes (s : State) (p : Nat) : s.SameBytes (s.dropIcaches p) :=
  s.eachCore_sameBytes p fun t lc => by
    split <;> exact ⟨rfl, rfl⟩

/-- A write of a slot's handler changes the table alone (R405). -/
theorem State.feWrite_handler_sameBytes (s : State) (idx : Nat) (w : Word) : s.SameBytes (s.feWrite 10 idx w) := by
  cases h : s.feOk 10 idx w with
  | false =>
    rw [s.feWrite_refused (by decide) h]
    exact ⟨rfl, rfl⟩
  | true =>
    rcases Nat.lt_or_ge idx (feSize 10) with hidx | hidx
    · rw [s.feWrite_accepted hidx (by decide) h]
      exact ⟨rfl, rfl⟩
    · rw [State.feWrite, if_pos hidx]
      exact ⟨rfl, rfl⟩

/-- The cores of a partition have the image's bytes for their quarters, and the slot has its handler. -/
def State.placeImage (s : State) (p g base : Nat) (im : Image) : State :=
  ((s.eachCore p fun s lc => s.writeCellar (span (cellarKey lc base) im.cellar.length) im.cellar).dropIcaches p).feWrite 10
    (16 * p + g) im.handler

theorem State.placeImage_sameBytes (s : State) (p g base : Nat) (im : Image) : s.SameBytes (s.placeImage p g base im) := by
  unfold State.placeImage
  refine .trans ?_ (State.feWrite_handler_sameBytes ..)
  refine .trans ?_ (State.dropIcaches_sameBytes ..)
  exact s.eachCore_sameBytes p fun _ _ => ⟨rfl, rfl⟩

/-- The graph that an image is for a function. -/
def Image.graph (im : Image) (f base home words : Nat) : Graph :=
  { fn := f, text := im.textVa, words := words, stations := im.stations, exit := im.exit, depths := im.depths
    table := im.summaries, resources := im.resources, home := home, cellarBase := base, overlays := im.eflags == 1 }

section
variable {s : State} {g f base home : Nat} {im : Image}

/-- An image fails a check of its load. -/
def State.imageFails (s : State) (g f base home : Nat) (im : Image) : Prop :=
  g ≥ 16 ∨ f ≥ 64 ∨ home ≥ 128 ∨ (s.graph g).isSome ∨ s.bound f = false ∨ Image.ok im = false ∨ base % 64 ≠ 0 ∨
    base + im.cellar.length > bits (s.entry 17 (s.fnPart f)) 0 19

theorem execGraphImageLoad_refuses (h : s.imageFails g f base home im ∨ relocate base im.text im.celoff = none) :
    execGraphImageLoad g f base home im s = .next (s.refuseLoad g f) := by
  by_cases hf : s.imageFails g f base home im
  · exact if_pos hf
  · refine (if_neg hf).trans ?_
    rw [h.resolve_left hf]

section
variable {text : List (BitVec 32)} (hf : ¬ s.imageFails g f base home im) (hr : relocate base im.text im.celoff = some text)
include hf hr

theorem execGraphImageLoad_unmapped (hm : s.mapImage (s.fnCtx f) im (text.flatMap fun w => leBytes 4 w.toNat) = none) :
    execGraphImageLoad g f base home im s = .next (s.refuseLoad g f) := by
  refine (if_neg hf).trans ?_
  simp only [hr, hm]

/-- A good image is mapped and measured in MEAS5, and its slot made resident. -/
theorem execGraphImageLoad_loads {s1 : State}
    (hm : s.mapImage (s.fnCtx f) im (text.flatMap fun w => leBytes 4 w.toNat) = some s1) :
    execGraphImageLoad g f base home im s =
      .next (((s1.placeImage (s.fnPart f) g base im).extend 5 (sha384 (text.flatMap fun w => leBytes 4 w.toNat))).makeResident g
        (Image.graph im f base home text.length)) := by
  refine (if_neg hf).trans ?_
  simp only [hr, hm]
  rfl

end

end

/-- Unloading puts a mark on every time of the slot, and frees it once nothing of it is left (R109). -/
theorem execGraphUnload_some {s : State} {g : Nat} (h : (s.graph g).isSome = true) : execGraphUnload g s =
    .next (if ((s.installLate g ⟨0, 0, false⟩).settle g).slotEmpty g then ((s.installLate g ⟨0, 0, false⟩).settle g).freeSlot g
      else (s.installLate g ⟨0, 0, false⟩).settle g) := by
  rw [execGraphUnload, if_neg (by simpa [Option.isSome_iff_ne_none] using h)]

/-! ### Replay (R244) -/

/-- A replay begins with the entry after the checkpoint, where the range has no gap. -/
theorem execReplay_begins {s : State} {p a e m : Nat} (hp : p < 256) (hr : (s.preemption p).replay = none)
    (hs : s.partState p = 0) (ha : a = ((s.preemption p).seq + 1) % 2 ^ 32)
    (he : e = ((s.preemption p).upto.map fun k => (k + 1) % 2 ^ 32).getD (s.journalSeq p)) (hm : m = (e + 2 ^ 32 - a) % 2 ^ 32)
    (h0 : m ≠ 0) (hsize : m ≤ s.journalSize p) (hall : ∀ k < m, s.journalHas p ((a + k) % 2 ^ 32) = true) :
    execReplay p s = .next (s.setReplay p (some (a, e)) none) := by
  have hgap : ¬ ((span 0 m).any (fun k => !s.journalHas p ((a + k) % 2 ^ 32)) = true) := by
    rw [List.any_eq_true]
    rintro ⟨k, hk, hno⟩
    simp only [hall k (by simpa using hk), Bool.not_true, Bool.false_eq_true] at hno
  unfold execReplay
  simp only [hr, ← ha, ← he, ← hm]
  rw [if_neg]
  rintro (h | h | h | h | h)
  · omega
  · exact h hs
  · exact h0 h
  · omega
  · exact hgap h

/-- The entry of a record is applied, and the next one follows. -/
theorem execReplay_applies {s t : State} {p k e : Nat} (hr : (s.preemption p).replay = some (k, e))
    (hc : (s.preemption p).copying = none) (hk : s.journalInfo p k 32 = 1) (ht : s.replayEntry p k = some t) :
    execReplay p s = .next (t.setReplay p (nextOf k e) none) := by
  unfold execReplay
  simp only [hr, hc, hk, ht]
  rfl

/-! ### The statement -/

/-- Settles O53: each clause is the law of its step; boot by what the ROM and the monitor change, the state fields by the
bits of MODSTAT. -/
theorem bootAndService : Obligations.BootAndService := by
  intro s die q n part p plg i g f base home hbm image h im
  refine ⟨execPowerGood_boots s, fun hq => ⟨State.bootQuay_up hq, fun h0 h1 => ?_⟩, ⟨_, rfl, rfl, rfl, rfl, rfl, rfl, rfl, rfl⟩,
    execTileDiePass_passes, execBringupEnd_modState, fun hq h1 h0 => ?_, fun hn hp hh => ?_, fun h2 h4 => ⟨?_, ?_⟩,
    execPluginLoad_loads, execPluginLoad_refuses plg, rfl, ?_, fun hbad => ?_, fun hg => ⟨fun he => ?_, fun he => ?_⟩, ?_, ?_⟩
  · exact State.bootQuay_failed hq (Bool.eq_false_iff.mpr h0) (Bool.eq_false_iff.mpr h1)
  · rw [exec_quayBringupTimeout, execQuayBringupTimeout, if_pos (by rw [h1, h0]; rfl)]
    exact ⟨_, rfl, s.modState_toState (by decide)⟩
  · rw [exec_monitorTrapHalt, execMonitorTrapHalt, if_pos ⟨hn, hp, hh⟩]
    exact ⟨_, rfl, s.fe_haltFe n⟩
  · exact execDieWithdraw_die h2 h4
  · exact execDieWithdraw_stack h2 h4
  · intro text s1 hg hf hhome hgraph hbound hok hbase hroom hr
    have hgood : ¬ s.imageFails g f base home im := by
      simp [State.imageFails, hgraph, hbound, hok, hbase]
      omega
    refine ⟨fun hm => ?_, execGraphImageLoad_unmapped hgood hr⟩
    have hsame := s1.placeImage_sameBytes (s.fnPart f) g base im
    exact ⟨_, _, execGraphImageLoad_loads hgood hr hm, rfl, rfl, rfl, rfl, rfl, rfl, rfl, rfl, rfl, rfl, rfl,
      State.extend_meas_congr hsame.1 .., (congrArg Mem.bytes (State.extend_mem ..)).trans hsame.2⟩
  · refine execGraphImageLoad_refuses ?_
    unfold State.imageFails
    rcases hbad with h | h | h | h | h <;> simp [h]
  · exact (execGraphUnload_some hg).trans (congrArg Host.Outcome.next (if_pos he))
  · exact (execGraphUnload_some hg).trans (congrArg Host.Outcome.next (if_neg (Bool.eq_false_iff.mp he)))
  · exact fun hp hr hs h0 hsize hall => execReplay_begins hp hr hs rfl rfl rfl h0 hsize hall
  · exact fun k e t hr hc hk ht => execReplay_applies hr hc hk ht

end Sys2Proof.Machine
end

section
/-! PROOFS. What the end of a frame and the rails leave unchanged. -/

namespace Sys2Proof.Machine

/-- A state differs from another in memory, in what is on its way, in the cores, and in counters from CNCLDROP on; no core
stops or goes on. -/
def State.Ran (s t : State) : Prop :=
  (∃ m p c k, t = { s with mem := m, prog := p, cores := c, counters := k }) ∧
  (∀ n, (t.core n).stopped = (s.core n).stopped) ∧
  ∀ code i, code < cCNCLDROP → i < 4096 → t.counter code i = s.counter code i

theorem State.Ran.refl (s : State) : s.Ran s := ⟨⟨_, _, _, _, rfl⟩, fun _ => rfl, fun _ _ _ _ => rfl⟩

theorem State.Ran.trans {s t u : State} (h : s.Ran t) (k : t.Ran u) : s.Ran u := by
  obtain ⟨⟨_, _, _, _, rfl⟩, hstop, hcount⟩ := h
  obtain ⟨⟨_, _, _, _, rfl⟩, kstop, kcount⟩ := k
  exact ⟨⟨_, _, _, _, rfl⟩, fun n => (kstop n).trans (hstop n),
    fun code i hc hi => (kcount code i hc hi).trans (hcount code i hc hi)⟩

section
variable {s t : State} (h : s.Ran t)
include h

theorem State.Ran.stopped (n : Nat) : (t.core n).stopped = (s.core n).stopped := h.2.1 n

theorem State.Ran.counter {code i : Nat} (hc : code < cCNCLDROP) (hi : i < 4096) : t.counter code i = s.counter code i :=
  h.2.2 code i hc hi

theorem State.Ran.entry (tbl idx : Nat) : t.entry tbl idx = s.entry tbl idx := by
  obtain ⟨⟨_, _, _, _, rfl⟩, -⟩ := h
  rfl

theorem State.Ran.feTab : t.feTab = s.feTab := by
  obtain ⟨⟨_, _, _, _, rfl⟩, -⟩ := h
  rfl

theorem State.Ran.tile (n : Nat) : t.tile n = s.tile n := by
  obtain ⟨⟨_, _, _, _, rfl⟩, -⟩ := h
  rfl

theorem State.Ran.die (n : Nat) : t.die n = s.die n := by
  obtain ⟨⟨_, _, _, _, rfl⟩, -⟩ := h
  rfl

theorem State.Ran.power : t.power = s.power := by
  obtain ⟨⟨_, _, _, _, rfl⟩, -⟩ := h
  rfl

end

/-! ### Single updates -/

theorem State.ran_mem_prog (s : State) (m : Mem) (p : Progress) : s.Ran { s with mem := m, prog := p } :=
  ⟨⟨_, _, _, _, rfl⟩, fun _ => rfl, fun _ _ _ _ => rfl⟩

theorem State.ran_mem (s : State) (m : Mem) : s.Ran { s with mem := m } := s.ran_mem_prog m s.prog
theorem State.ran_prog (s : State) (p : Progress) : s.Ran { s with prog := p } := s.ran_mem_prog s.mem p

theorem State.setCore_ran (s : State) {lc : Nat} {c : Core} (h : c.stopped = (s.core lc).stopped) : s.Ran (s.setCore lc c) := by
  refine ⟨⟨_, _, _, _, rfl⟩, fun n => ?_, fun _ _ _ _ => rfl⟩
  by_cases hn : n = lc
  · rw [hn, State.core_setCore, h]
  · rw [State.core_setCore_ne _ _ _ _ hn]

theorem State.count_ran (s : State) {code : Nat} (h : cCNCLDROP ≤ code) (i : Nat) : s.Ran (s.count code i) := by
  refine ⟨⟨_, _, _, _, rfl⟩, fun _ => rfl, fun c j hc hj => tget_mput_other _ _ _ _ _ ?_⟩
  omega

theorem State.setTop_ran (s : State) (lc : Nat) (f : Frame) : s.Ran (s.setTop lc f) := by
  simp only [State.setTop]
  split
  · exact .refl s
  · exact s.setCore_ran rfl

theorem State.forgetWalk_ran (s : State) (who : Nat) : s.Ran (s.forgetWalk who) := s.ran_mem _

theorem State.abandon_ran (s : State) (lc : Nat) : s.Ran (s.abandon lc) := by
  unfold State.abandon
  split
  · exact s.forgetWalk_ran _
  · exact ((s.setTop_ran ..).trans (State.ran_mem_prog ..)).trans (State.forgetWalk_ran ..)

theorem State.flush_ran (s : State) (lc : Nat) : s.Ran (s.flush lc) := by
  unfold State.flush
  dsimp only
  split
  · exact .refl s
  · exact (s.ran_prog _).trans (State.setCore_ran _ rfl)

/-! ### Counts and records (R110, R124) -/

theorem State.post_ran (s : State) (lc : Nat) (d : Delta) : s.Ran (s.post lc d) := by
  unfold State.post
  dsimp only
  split
  · exact (s.flush_ran lc).trans (State.setCore_ran _ rfl)
  · exact s.setCore_ran rfl

theorem State.postNode_ran (s : State) (n : Nat) (d : Delta) : s.Ran (s.postNode n d) := by
  unfold State.postNode
  dsimp only
  split
  · exact (s.ran_prog _).trans (State.count_ran _ (by decide) _)
  · exact s.ran_prog _

theorem State.release_ran (s : State) (src : Source) (die : Nat) (r : Rec) : s.Ran (s.release src die r) := by
  unfold State.release
  split
  · exact (s.postNode_ran ..).trans (State.count_ran _ (by decide) _)
  · exact s.ran_prog _

/-! ### The end of a frame (R97, R99, R228, R232) -/

theorem State.streamOver_ran (s : State) (lc : Nat) (t : Stream) (status : Word) : s.Ran (s.streamOver lc t status) :=
  ((s.ran_mem _).trans (State.ran_prog ..)).trans (State.release_ran ..)

theorem State.endStream_ran (s : State) (lc : Nat) (aborted : Bool) (x : Option Stream) : s.Ran (s.endStream lc aborted x) := by
  cases x with
  | none => exact .refl s
  | some t =>
    simp only [State.endStream]
    split
    · exact s.setCore_ran rfl
    · exact s.streamOver_ran ..

theorem State.disbandAt_ran (s : State) (leader level lc : Nat) : s.Ran (s.disbandAt leader level lc) := by
  unfold State.disbandAt
  dsimp only
  split
  · exact .refl s
  · split
    · refine .trans ?_ (State.flush_ran ..)
      exact s.setCore_ran rfl
    · exact s.setCore_ran rfl

theorem State.disband_ran (s : State) (lc : Nat) : s.Ran (s.disband lc) := by
  unfold State.disband
  split
  · split
    · refine .trans ?_ (State.setTop_ran ..)
      exact List.foldlRecOn _ _ (.refl s) fun t h m _ => h.trans (t.disbandAt_ran ..)
    · exact .refl s
  · exact .refl s

theorem Core.refill_stopped (c : Core) (unspill : Queued → Queued) (i : Nat) : (c.refill unspill i).stopped = c.stopped := by
  unfold Core.refill
  split
  · rfl
  · split <;> rfl

theorem State.freeInbox_ran (s : State) (lc i : Nat) : s.Ran (s.freeInbox lc i) := s.setCore_ran (Core.refill_stopped ..)

theorem State.orphan_ran (s : State) (lc level : Nat) : s.Ran (s.orphan lc level) := s.ran_mem_prog ..

theorem State.pop_ran (s : State) (lc : Nat) : s.Ran (s.pop lc) := by
  unfold State.pop
  split
  · exact .refl s
  · next f _ =>
    have huncover : ∀ c : Core, c.stopped = (s.core lc).stopped →
        s.Ran (((s.setCore lc c).orphan lc f.level).forgetWalk (s.phys lc)) := fun c hc =>
      ((s.setCore_ran hc).trans (State.orphan_ran ..)).trans (State.forgetWalk_ran ..)
    dsimp only
    split
    · split
      · refine .trans (.trans ?_ (State.freeInbox_ran ..)) (State.flush_ran ..)
        exact huncover _ rfl
      · refine .trans ?_ (State.freeInbox_ran ..)
        exact huncover _ rfl
    · split
      · refine .trans ?_ (State.flush_ran ..)
        exact huncover _ rfl
      · exact huncover _ rfl

theorem State.endFrame_ran (s : State) (lc : Nat) (aborted : Bool) (marks : List Mark) : s.Ran (s.endFrame lc aborted marks) := by
  unfold State.endFrame
  split
  · exact .refl s
  · refine .trans (.trans (.trans ?_ (State.disband_ran ..)) (State.post_ran ..)) (State.pop_ran ..)
    exact List.foldlRecOn _ _ (.refl s) fun t h x _ => h.trans (t.endStream_ran ..)

theorem State.repost_ran (s : State) (lc : Nat) (f : Frame) : s.Ran (s.repost lc f) :=
  ((s.post_ran ..).trans (State.ran_prog ..)).trans (State.count_ran _ (by decide) _)

theorem State.rerunAt_ran (s : State) (lc level : Nat) : s.Ran (s.rerunAt lc level) := by
  unfold State.rerunAt
  split
  · exact .refl s
  · split
    · exact .refl s
    · refine .trans (.trans ?_ (State.repost_ran ..)) (State.endFrame_ran ..)
      exact s.setCore_ran rfl

theorem State.rerunMoved_ran (s old : State) (lc : Nat) : s.Ran (s.rerunMoved old lc) := by
  unfold State.rerunMoved
  split
  · exact List.foldlRecOn _ _ (.refl s) fun t h level _ => h.trans (t.rerunAt_ran ..)
  · exact .refl s

end Sys2Proof.Machine
end

section
/-! PROOFS. Which swap starts, and what a swap and a thermal event leave (R80 to R84). -/

namespace Sys2Proof.Machine

/-! ### The end of an interval (R80) -/

section
variable {s : State} {die : Nat}

theorem execRotationInterval_swapping (h : (s.die die).swap.isSome = true) : execRotationInterval die s = .next s := by
  simp [execRotationInterval, h]

variable (hdie : die < 8) (hon : s.rotEnabled die = true) (hidle : (s.die die).swap = none)
include hdie hon hidle

theorem execRotationInterval_empty (h : s.hottest die = none) : execRotationInterval die s = .next (s.count cROTSKIP die) := by
  simp [execRotationInterval, hdie, hon, hidle, h]

/-- A hottest tile that stays where it is, or that no tile is cool enough for, keeps its place. -/
theorem execRotationInterval_skips {h : Nat} (hot : s.hottest die = some h)
    (hno : s.holdsTpair h = true ∨ (s.tile h).tripped = true ∨
      s.coolest ((s.partners h).filter fun t => decide (s.temp t + s.dtmin die ≤ s.temp h ∧ s.temp t < s.temp h)) = none) :
    execRotationInterval die s = .next (s.count cROTSKIP die) := by
  have hdie' : (decide (die ≥ 8)) = false := decide_eq_false (by omega)
  by_cases hfix : s.fixed h = true
  · simp only [execRotationInterval, hdie', hon, hidle, hot, hfix]
    rfl
  · simp only [State.fixed, Bool.or_eq_true, not_or] at hfix
    have hnone := (hno.resolve_left hfix.1).resolve_left hfix.2
    simp only [execRotationInterval, hdie', hon, hidle, hot, hnone, ite_self]
    rfl

theorem execRotationInterval_swaps {h c : Nat} (hot : s.hottest die = some h) (hpair : s.holdsTpair h = false)
    (hruns : (s.tile h).tripped = false)
    (hc : s.coolest ((s.partners h).filter fun t => decide (s.temp t + s.dtmin die ≤ s.temp h ∧ s.temp t < s.temp h)) = some c) :
    execRotationInterval die s = .next (s.startSwap die (newSwap [(h, c)] none)) := by
  have hdie' : (decide (die ≥ 8)) = false := decide_eq_false (by omega)
  have hfix : s.fixed h = false := by rw [State.fixed, hpair, hruns]; rfl
  simp only [execRotationInterval, hdie', hon, hidle, hot, hfix, hc]
  rfl

end

/-! ### Emergencies (R84, R232) -/

theorem execThermalEmergency_hot {s : State} {tile : Nat} (htile : tile < 256) (hcalm : (s.tile tile).emergency = false)
    (hhot : s.tcrit (tile / 32) ≤ s.temp tile) :
    execThermalEmergency tile s = .next (s.setTile tile { s.tile tile with emergency := true, cur := 0, switching := none }) :=
  if_pos ⟨htile, hcalm, hhot⟩

section
variable {s : State} {tile : Nat} (hruns : (s.tile tile).tripped = false) (hidle : (s.die (tile / 32)).swap = none)
include hruns hidle

theorem execEmergencyMigration_moves {c q : Nat} (hleave : (s.tile tile).emergency = true ∨ (s.tile tile).withdrawn = true)
    (hq : s.freeQuarter tile = some q)
    (hc : leastBy (fun a b => decide (Config.quarterTemp s.tick (s.phys b) < Config.quarterTemp s.tick (s.phys a)))
      ((s.coresOn tile).filter fun lc => !s.ganged lc && !s.hasTasks lc) = some c) :
    execEmergencyMigration tile s = .next (s.startSwap (tile / 32) (newSwap [] (some (c, q)))) := by
  have hstays : (!((s.tile tile).emergency || (s.tile tile).withdrawn) || (s.tile tile).tripped ||
      (s.die (tile / 32)).swap.isSome) = false := by
    rcases hleave with h | h <;> simp [h, hruns, hidle]
  simp only [execEmergencyMigration, hstays, hc, hq]
  rfl

variable (hmust : s.mustRotate tile = true) (hcores : s.coresOn tile ≠ [])
include hmust hcores

theorem execEmergencyRotation_tile {c : Nat} (hpair : s.holdsTpair tile = false) (hc : s.coolest (s.partners tile) = some c) :
    execEmergencyRotation tile s = .next (s.startSwap (tile / 32) (newSwap [(tile, c)] none)) := by
  simp [execEmergencyRotation, hmust, hruns, hidle, hcores, hpair, hc]

theorem execEmergencyRotation_tpair {c : Nat} (hpair : s.holdsTpair tile = true)
    (hother : (s.tile (tile / 2 * 2 + (1 - tile % 2))).tripped = false) (hc : s.coolestPair tile = some c) :
    execEmergencyRotation tile s =
      .next (s.startSwap (tile / 32) (newSwap [(tile / 2 * 2, c), (tile / 2 * 2 + 1, c + 1)] none)) := by
  simp [execEmergencyRotation, hmust, hruns, hidle, hcores, hpair, hother, hc]

end

/-! ### A granule that was routed before the hold (R83) -/

theorem State.raise_mem (s : State) (op : CopyOp) : (s.raise op).1.mem = s.mem := by
  unfold State.raise
  split
  · rfl
  · split
    · rfl
    · dsimp only
      split <;> (simp only [State.setArm]; split <;> rfl)

theorem State.setChan_mem (s : State) (lc level ch : Nat) (x : Chan) : (s.setChan lc level ch x).mem = s.mem := rfl

theorem State.landFlying_cellar (s : State) (x : Flying) {op : CopyOp} (hcur : (s.chan x.lc x.level x.ch).cur = some op)
    (hok : s.storableCellar (span (cellarKey x.core x.off) x.data.length) = true) :
    (s.landFlying x).mem.cellar = (s.writeCellar (span (cellarKey x.core x.off) x.data.length) x.data).mem.cellar := by
  unfold State.landFlying
  dsimp only
  split
  · next h => exact absurd (h.symm.trans hcur) nofun
  · rw [State.setChan_mem, State.raise_mem]
    split
    · rfl
    · next h => exact absurd hok h

/-! ### Recovery (R84) -/

/-- No tile enters or leaves an emergency. -/
def State.SameAlarms (s t : State) : Prop := ∀ n, (t.tile n).emergency = (s.tile n).emergency

theorem State.SameAlarms.trans {s t u : State} (h : s.SameAlarms t) (k : t.SameAlarms u) : s.SameAlarms u :=
  fun n => (k n).trans (h n)

theorem State.setTile_sameAlarms (s : State) {n : Nat} {x : Tile} (h : x.emergency = (s.tile n).emergency) :
    s.SameAlarms (s.setTile n x) := by
  intro k
  by_cases hk : k = n
  · rw [hk, State.tile_setTile, h]
  · rw [State.tile_setTile_ne _ _ _ _ hk]

theorem State.switchTile_sameAlarms (s : State) (n : Nat) : s.SameAlarms (s.switchTile n) := by
  unfold State.switchTile
  dsimp only
  split
  · exact s.setTile_sameAlarms rfl
  · split
    · exact s.setTile_sameAlarms rfl
    · exact fun _ => rfl

theorem State.addEnergy_sameAlarms (s : State) (n k : Nat) : s.SameAlarms (s.addEnergy n k) := s.setTile_sameAlarms rfl

theorem State.chargeRail_sameAlarms (s : State) (r : Nat) : s.SameAlarms (s.chargeRail r) := by
  unfold State.chargeRail
  dsimp only
  split
  · exact fun _ => rfl
  · refine State.SameAlarms.trans (.trans ?_ (State.addEnergy_sameAlarms _ _ _)) (State.addEnergy_sameAlarms _ _ _)
    exact List.foldlRecOn _ _ (fun _ => rfl) fun t h n _ => State.SameAlarms.trans h (t.addEnergy_sameAlarms _ _)

theorem State.retune_sameAlarms (s : State) (r : Nat) : s.SameAlarms (s.retune r) := by
  unfold State.retune State.switchTiles State.setLevel
  refine List.foldlRecOn _ _ ?_ fun t h n _ => State.SameAlarms.trans h (t.switchTile_sameAlarms n)
  exact s.chargeRail_sameAlarms r

theorem execThermalRecover_cool {s : State} {tile : Nat} (halarm : (s.tile tile).emergency = true)
    (hcool : s.temp tile + s.dtmin (tile / 32) < s.tcrit (tile / 32)) :
    ∃ t, execThermalRecover tile s = .next t ∧ (t.tile tile).emergency = false := by
  refine ⟨_, if_pos ⟨halarm, hcool⟩, ?_⟩
  rw [State.retune_sameAlarms, State.tile_setTile]

end Sys2Proof.Machine
end

section
/-! PROOFS. The steps of a swap and the hardware trip (R25, R81 to R84). -/

namespace Sys2Proof.Machine

/-! ### A swap is quiesced (R81 step 4) -/

/-- A core stops, what its running frame waits for given up. -/
def State.halt (s : State) (lc : Nat) : State :=
  let s' := s.abandon lc
  s'.setCore lc { s'.core lc with stopped := true, frames := uncover (s'.core lc).frames }

theorem State.halt_tile (s : State) (lc n : Nat) : (s.halt lc).tile n = s.tile n := (s.abandon_ran lc).tile n

theorem State.foldl_halt_tile (s : State) (l : List Nat) (n : Nat) : (l.foldl State.halt s).tile n = s.tile n :=
  List.foldlRecOn l _ (motive := fun t : State => t.tile n = s.tile n) rfl fun t h lc _ => (t.halt_tile lc n).trans h

theorem State.halt_stopped (s : State) {lc n : Nat} (h : n = lc ∨ (s.core n).stopped = true) :
    ((s.halt lc).core n).stopped = true := by
  by_cases hn : n = lc
  · rw [hn, State.halt, State.core_setCore]
  · rw [State.halt, State.core_setCore_ne _ _ _ _ hn, (s.abandon_ran lc).stopped]
    exact h.resolve_left hn

theorem State.foldl_halt_stopped {l : List Nat} {s : State} {n : Nat} (h : n ∈ l ∨ (s.core n).stopped = true) :
    ((l.foldl State.halt s).core n).stopped = true := by
  induction l generalizing s with
  | nil => exact h.resolve_left List.not_mem_nil
  | cons lc l ih =>
    refine ih ?_
    rcases h with h | h
    · rcases List.mem_cons.mp h with h | h
      · exact .inr (s.halt_stopped (.inl h))
      · exact .inl h
    · exact .inr (s.halt_stopped (.inr h))

/-- The tiles of a state once two of them have exchanged what moves with a tile. -/
def State.exchanged (s : State) (a b : Nat) : State :=
  let x := s.tile a
  let y := s.tile b
  (s.setTile a { x with banks := y.banks, run := y.run, held := y.held, window := y.window }).setTile b
    { y with banks := x.banks, run := x.run, held := x.held, window := x.window }

theorem State.swapChains_eq (s : State) (a b : Nat) : ∃ c, s.swapChains a b = { s with clusters := c } := by
  unfold State.swapChains
  refine List.foldlRecOn _ _ (motive := fun t : State => ∃ c, t = { s with clusters := c }) ⟨s.clusters, rfl⟩ fun t h cl _ => ?_
  obtain ⟨_, rfl⟩ := h
  exact ⟨_, rfl⟩

theorem State.moveQueued_eq (s : State) (lcs : List Nat) (a b : Nat) : ∃ c, s.moveQueued lcs a b = { s with clusters := c } := by
  unfold State.moveQueued
  split
  · exact ⟨_, rfl⟩
  · exact ⟨_, rfl⟩

/-- An exchange of two tiles changes beside them only clusters and memory. -/
theorem State.moveTiles_eq (s : State) (a b : Nat) : ∃ c m, s.moveTiles a b = { s.exchanged a b with clusters := c, mem := m } := by
  obtain ⟨c₁, h₁⟩ := (s.exchanged a b).swapChains_eq a b
  obtain ⟨c₂, h₂⟩ := ((s.exchanged a b).swapChains a b).moveQueued_eq (s.coresOn a) (a / 8) (b / 8)
  obtain ⟨c₃, h₃⟩ := (((s.exchanged a b).swapChains a b).moveQueued (s.coresOn a) (a / 8) (b / 8)).moveQueued_eq (s.coresOn b)
    (b / 8) (a / 8)
  refine ⟨c₃, (s.moveTiles a b).mem, ?_⟩
  have hmove : s.moveTiles a b = { (((s.exchanged a b).swapChains a b).moveQueued (s.coresOn a) (a / 8) (b / 8)).moveQueued
      (s.coresOn b) (b / 8) (a / 8) with mem := (s.moveTiles a b).mem } := rfl
  rw [hmove, h₃, h₂, h₁]

theorem State.moveTiles_core (s : State) (a b n : Nat) : (s.moveTiles a b).core n = s.core n := by
  obtain ⟨_, _, h⟩ := s.moveTiles_eq a b
  rw [h]
  rfl

theorem State.moveTiles_tile (s : State) (a b n : Nat) : (s.moveTiles a b).tile n = (s.exchanged a b).tile n := by
  obtain ⟨_, _, h⟩ := s.moveTiles_eq a b
  rw [h]
  rfl

theorem State.exchanged_right (s : State) (a b : Nat) : (s.exchanged a b).tile b =
    { s.tile b with banks := (s.tile a).banks, run := (s.tile a).run, held := (s.tile a).held, window := (s.tile a).window } :=
  State.tile_setTile ..

theorem State.exchanged_left (s : State) {a b : Nat} (h : a ≠ b) : (s.exchanged a b).tile a =
    { s.tile a with banks := (s.tile b).banks, run := (s.tile b).run, held := (s.tile b).held, window := (s.tile b).window } :=
  (State.tile_setTile_ne _ _ _ _ h).trans (State.tile_setTile ..)

/-- The tiles of a swap have exchanged their state, or the single core's old and new places have dropped what they cached. -/
def State.carried (s old : State) (x : Swap) : State :=
  let s2 := x.pairs.foldl (fun s p => s.moveTiles p.1 p.2) s
  match x.single with
  | some (lc, q) =>
    ({ s2 with mem := { s2.mem with tlb := s2.mem.tlb.filter fun t => t.holder != old.phys lc && t.holder != q } } : State).dropIcache (q / 4)
  | none => s2

theorem State.carried_core (s old : State) (x : Swap) (n : Nat) : (s.carried old x).core n = s.core n := by
  have hpairs : (x.pairs.foldl (fun s p => s.moveTiles p.1 p.2) s).core n = s.core n :=
    List.foldlRecOn _ _ (motive := fun t : State => t.core n = s.core n) rfl fun t h p _ => (t.moveTiles_core ..).trans h
  unfold State.carried
  split
  · exact hpairs
  · exact hpairs

theorem State.carried_pair (s old : State) {x : Swap} {a b : Nat} (hp : x.pairs = [(a, b)]) (h : x.single = none) :
    s.carried old x = s.moveTiles a b := by
  simp only [State.carried, hp, h, List.foldl]

/-- The state in which a swap of a die is quiesced. -/
def State.quiesced (s : State) (die : Nat) (x : Swap) : State :=
  let s3 := ((s.swapCores x).foldl State.halt s).carried s x
  s3.setDie die { s3.die die with swap := some { x with phase := .quiesced } }

theorem execRotationQuiesce_ready {s : State} {die : Nat} {x : Swap} (hswap : (s.die die).swap = some x)
    (hphase : x.phase = .holding) (hacks : x.missing = [])
    (hcores : ∀ c ∈ s.swapCores x, s.midway c = false ∧ (s.core c).strays = [])
    (hsingle : ∀ y, x.single = some y → s.ganged y.1 = false ∧ s.hasTasks y.1 = false) :
    execRotationQuiesce die s = .next (s.quiesced die x) := by
  have hcores' : (s.swapCores x).any (fun lc => s.midway lc || (s.core lc).strays != []) = false := by
    rw [List.any_eq_false]
    intro c hc
    obtain ⟨hmid, hstray⟩ := hcores c hc
    simp [hmid, hstray]
  have hsingle' : x.single.any (fun y => s.ganged y.1 || s.hasTasks y.1) = false := by
    rw [Option.any_eq_false]
    intro y hy
    obtain ⟨hgang, htask⟩ := hsingle y hy
    simp [hgang, htask]
  have hready : ¬ (decide (x.phase ≠ .holding) || x.missing != [] ||
      (s.swapCores x).any (fun lc => s.midway lc || (s.core lc).strays != []) ||
      x.single.any (fun y => s.ganged y.1 || s.hasTasks y.1)) = true := by
    rw [hphase, hacks, hcores', hsingle']
    decide
  simp only [execRotationQuiesce, hswap]
  rw [if_neg hready]
  rfl

theorem State.quiesced_stopped (s : State) (die : Nat) {x : Swap} {c : Nat} (h : c ∈ s.swapCores x) :
    ((s.quiesced die x).core c).stopped = true := by
  rw [State.quiesced, State.setDie_core_frame, State.carried_core]
  exact State.foldl_halt_stopped (.inl h)

theorem State.quiesced_exchanges (s : State) (die : Nat) {x : Swap} {a b : Nat} (hp : x.pairs = [(a, b)]) (h : x.single = none)
    (hab : a ≠ b) (t : State) (ht : t = s.quiesced die x) :
    (t.tile a).banks = (s.tile b).banks ∧ (t.tile a).run = (s.tile b).run ∧ (t.tile a).held = (s.tile b).held ∧
      (t.tile a).window = (s.tile b).window ∧ (t.tile b).banks = (s.tile a).banks ∧ (t.tile b).run = (s.tile a).run ∧
      (t.tile b).held = (s.tile a).held ∧ (t.tile b).window = (s.tile a).window := by
  have htile (n : Nat) : t.tile n = (((s.swapCores x).foldl State.halt s).exchanged a b).tile n := by
    rw [ht, State.quiesced, State.carried_pair _ _ hp h, State.setDie_tile_frame, State.moveTiles_tile]
  rw [htile, htile, State.exchanged_left _ hab, State.exchanged_right, State.foldl_halt_tile, State.foldl_halt_tile]
  exact ⟨rfl, rfl, rfl, rfl, rfl, rfl, rfl, rfl⟩

/-! ### The new places are written (R81 steps 5, 6) -/

theorem State.entry_setEntry_ne (s : State) {tbl i k : Nat} (w : Word) (h : k ≠ i) :
    (s.setEntry tbl i w).entry tbl k = s.entry tbl k := by
  simp only [State.entry, State.setEntry]
  exact tget_tput_other _ _ _ _ _ (by omega)

theorem State.counter_countBy (s : State) (code i n : Nat) : (s.countBy code i n).counter code i = satAdd (s.counter code i) n :=
  State.counter_setCounter ..

theorem State.Tuned.counter {s t : State} (h : s.Tuned t) (code i : Nat) : t.counter code i = s.counter code i := by
  obtain ⟨_, _, rfl⟩ := h
  rfl

theorem State.Tuned.die {s t : State} (h : s.Tuned t) (n : Nat) : t.die n = s.die n := by
  obtain ⟨_, _, rfl⟩ := h
  rfl

theorem State.creditTile_counters (s : State) (n : Nat) : (s.creditTile n).counters = s.counters := rfl

/-- A core gets its place and goes on or stays stopped. -/
def State.place (w : Nat → Word) (b : Nat → Bool) (s : State) (lc : Nat) : State :=
  (s.setEntry 12 lc (w lc)).setCore lc { s.core lc with stopped := b lc }

/-- A core stands where it is to stand, and runs if it is to run. -/
def State.Placed (w : Nat → Word) (b : Nat → Bool) (s : State) (lc : Nat) : Prop :=
  s.entry 12 lc = w lc ∧ (s.core lc).stopped = b lc

section
variable (w : Nat → Word) (b : Nat → Bool)

theorem State.place_placed (s : State) {lc n : Nat} (h : n = lc ∨ s.Placed w b n) : (s.place w b lc).Placed w b n := by
  by_cases hn : n = lc
  · subst hn
    exact ⟨State.entry_setEntry .., by rw [State.place, State.core_setCore]⟩
  · obtain ⟨hentry, hstop⟩ := h.resolve_left hn
    refine ⟨(s.entry_setEntry_ne _ hn).trans hentry, ?_⟩
    rw [State.place, State.core_setCore_ne _ _ _ _ hn]
    exact hstop

theorem State.foldl_place_placed {l : List Nat} {s : State} {n : Nat} (h : n ∈ l ∨ s.Placed w b n) :
    (l.foldl (State.place w b) s).Placed w b n := by
  induction l generalizing s with
  | nil => exact h.resolve_left List.not_mem_nil
  | cons lc l ih =>
    refine ih ?_
    rcases h with h | h
    · rcases List.mem_cons.mp h with h | h
      · exact .inr (s.place_placed w b (.inl h))
      · exact .inl h
    · exact .inr (s.place_placed w b (.inr h))

theorem State.foldl_place_counters (l : List Nat) (s : State) : (l.foldl (State.place w b) s).counters = s.counters :=
  List.foldlRecOn l _ (motive := fun t : State => t.counters = s.counters) rfl fun _ h _ _ => h

end

/-- The tiles of a swap are charged and their meters read. -/
def State.metered (s : State) (x : Swap) : State :=
  x.tiles.foldl (fun s t => s.creditTile t) (x.tiles.foldl (fun s t => s.chargeRail (t / 4)) s)

theorem State.metered_counter (s : State) (x : Swap) (code i : Nat) : (s.metered x).counter code i = s.counter code i := by
  have hcharged : s.Tuned (x.tiles.foldl (fun s t => s.chargeRail (t / 4)) s) :=
    List.foldlRecOn _ _ (.refl s) fun t h n _ => h.trans (t.chargeRail_tuned (n / 4))
  refine Eq.trans ?_ (hcharged.counter code i)
  exact congrArg (tget 0 · _) (List.foldlRecOn _ _ (motive := fun t : State => t.counters = _) rfl fun t h n _ =>
    (t.creditTile_counters n).trans h)

/-- The place and the stop of a core once a swap is written. -/
def State.newPlace (s : State) (x : Swap) (lc : Nat) : Word := ofN (0x8000 + x.newPhys lc (s.phys lc))
def State.staysStopped (s : State) (lc : Nat) : Bool := s.partState (s.partOf lc) == 2 || (s.tile (s.tileOf lc)).tripped

/-- The state in which the cores of a swap stand at their new places and the swap is over. -/
def State.landed (s : State) (die : Nat) (x : Swap) : State :=
  let s1 := (s.swapCores x).foldl (State.place (s.newPlace x) s.staysStopped) (s.metered x)
  s1.setDie die { s1.die die with swap := none }

theorem State.landed_placed (s : State) (die : Nat) {x : Swap} {c : Nat} (h : c ∈ s.swapCores x) :
    (s.landed die x).Placed (s.newPlace x) s.staysStopped c :=
  State.foldl_place_placed (s.newPlace x) s.staysStopped (.inl h)

theorem State.landed_counter (s : State) (die : Nat) (x : Swap) (code i : Nat) : (s.landed die x).counter code i = s.counter code i :=
  (congrArg (tget 0 · _) (State.foldl_place_counters ..)).trans (s.metered_counter x code i)

/-- What follows the new places: the rails of the tiles follow, and what was on a withdrawn tile is posted again. -/
def State.settled (s old : State) (x : Swap) : State :=
  let tiles := x.needs ++ (x.single.map fun y => old.tileOf y.1).toList
  (old.swapCores x).foldl (fun s' lc => s'.rerunMoved old lc) (tiles.foldl (fun s t => s.retune (t / 4)) s)

theorem State.settled_keeps (s old : State) (x : Swap) : ∃ t, s.Tuned t ∧ t.Ran (s.settled old x) := by
  refine ⟨_, ?_, List.foldlRecOn _ _ (.refl _) fun t h lc _ => h.trans (t.rerunMoved_ran old lc)⟩
  exact List.foldlRecOn _ _ (.refl s) fun t h n _ => h.trans (t.retune_tuned (n / 4))

section
variable (s old : State) (x : Swap)

theorem State.settled_placed {w : Nat → Word} {b : Nat → Bool} {c : Nat} (h : s.Placed w b c) : (s.settled old x).Placed w b c := by
  obtain ⟨t, htuned, hran⟩ := s.settled_keeps old x
  obtain ⟨hentry, hstop⟩ := h
  refine ⟨?_, ?_⟩
  · rw [hran.entry, htuned.entry, hentry]
  · rw [hran.stopped, htuned.core, hstop]

theorem State.settled_die (n : Nat) : (s.settled old x).die n = s.die n := by
  obtain ⟨t, htuned, hran⟩ := s.settled_keeps old x
  rw [hran.die, htuned.die]

theorem State.settled_counter {code i : Nat} (hc : code < cCNCLDROP) (hi : i < 4096) :
    (s.settled old x).counter code i = s.counter code i := by
  obtain ⟨t, htuned, hran⟩ := s.settled_keeps old x
  rw [hran.counter hc hi, htuned.counter]

end

theorem execRotationRemap_pairs {s : State} {die : Nat} {x : Swap} (hswap : (s.die die).swap = some x)
    (hphase : x.phase = .quiesced) (hsingle : x.single = none) :
    execRotationRemap die s = .next (((s.landed die x).settled s x).countBy cROTCNT die x.pairs.length) := by
  have hphase' : ¬ x.phase ≠ .quiesced := not_not.mpr hphase
  have hone : ¬ x.single.isSome = true := by rw [hsingle]; exact nofun
  simp only [execRotationRemap, hswap]
  rw [if_neg hphase', if_neg hone]
  rfl

/-! ### The hardware trip (R84) -/

theorem State.setTop_progress (s : State) (lc : Nat) (f : Frame) (n : Nat) : ((s.setTop lc f).core n).progress = (s.core n).progress := by
  simp only [State.setTop]
  split
  · rfl
  · by_cases hn : n = lc
    · rw [hn, State.core_setCore]
    · rw [State.core_setCore_ne _ _ _ _ hn]

theorem State.abandon_progress (s : State) (lc n : Nat) : ((s.abandon lc).core n).progress = (s.core n).progress := by
  unfold State.abandon
  split
  · rfl
  · exact s.setTop_progress ..

theorem State.flush_progress (s : State) {lc n : Nat} (h : n = lc ∨ (s.core n).progress = []) :
    ((s.flush lc).core n).progress = [] := by
  unfold State.flush
  dsimp only
  by_cases hn : n = lc
  · subst hn
    split
    · assumption
    · rw [State.core_setCore]
  · split
    · exact h.resolve_left hn
    · rw [State.core_setCore_ne _ _ _ _ hn]
      exact h.resolve_left hn

/-- A core halts at a boundary, its buffer flushed. -/
def State.haltFlushed (s : State) (lc : Nat) : State := (s.abandon lc).flush lc

theorem State.foldl_haltFlushed_ran (s : State) (l : List Nat) : s.Ran (l.foldl State.haltFlushed s) :=
  List.foldlRecOn _ _ (.refl s) fun t h lc _ => h.trans ((t.abandon_ran lc).trans (State.flush_ran ..))

theorem State.foldl_haltFlushed_progress {l : List Nat} {s : State} {n : Nat} (h : n ∈ l ∨ (s.core n).progress = []) :
    ((l.foldl State.haltFlushed s).core n).progress = [] := by
  induction l generalizing s with
  | nil => exact h.resolve_left List.not_mem_nil
  | cons lc l ih =>
    have hkeep (k : n = lc ∨ (s.core n).progress = []) : ((s.haltFlushed lc).core n).progress = [] :=
      State.flush_progress _ (k.imp_right (s.abandon_progress lc n).trans)
    refine ih ?_
    rcases h with h | h
    · rcases List.mem_cons.mp h with h | h
      · exact .inr (hkeep (.inl h))
      · exact .inl h
    · exact .inr (hkeep (.inr h))

theorem State.phys_of_logicalAt {s : State} {p c n : Nat} (h : s.logicalAt p n = some c) : s.phys c = p := by
  induction n with
  | zero => exact nomatch h
  | succ n ih =>
    simp only [State.logicalAt] at h
    split at h
    · next hn =>
      cases h
      simp only [Bool.and_eq_true, beq_iff_eq] at hn
      exact hn.2
    · exact ih h

theorem State.tileOf_of_mem_coresOn {s : State} {tile c : Nat} (h : c ∈ s.coresOn tile) : s.tileOf c = tile := by
  obtain ⟨p, hp, hc⟩ := List.mem_filterMap.mp h
  have hphys := State.phys_of_logicalAt hc
  have hrange := mem_span.mp hp
  rw [State.tileOf]
  omega

/-- A core of a tile that the trip has stopped does not execute. -/
theorem State.active_of_tripped {s : State} {c : Nat} (h : (s.tile (s.tileOf c)).tripped = true) : s.active c = false := by
  simp [State.active, State.live, Tile.runs, h]

/-- The state after the trip of a tile. -/
def State.trip (s : State) (tile : Nat) : State :=
  let s1 := (s.coresOn tile).foldl State.haltFlushed (s.setTile tile { s.tile tile with tripped := true })
  { s1 with power := { s1.power with trips := s1.power.trips ++ [tripRecord tile] } }.count cTHTRIP (tile / 32)

theorem execThermalTrip_hot {s : State} {tile : Nat} (htile : tile < 256) (hruns : (s.tile tile).tripped = false)
    (hhot : 115 ≤ s.temp tile) : execThermalTrip tile s = .next (s.trip tile) := if_pos ⟨htile, hruns, hhot⟩

section
variable (s : State) (tile : Nat)

theorem State.trip_halted : (s.setTile tile { s.tile tile with tripped := true }).Ran
    ((s.coresOn tile).foldl State.haltFlushed (s.setTile tile { s.tile tile with tripped := true })) :=
  State.foldl_haltFlushed_ran ..

theorem State.trip_tripped : ((s.trip tile).tile tile).tripped = true := by
  have h := (s.trip_halted tile).tile tile
  rw [State.tile_setTile] at h
  exact congrArg Tile.tripped h

theorem State.trip_trips : (s.trip tile).power.trips = s.power.trips ++ [tripRecord tile] :=
  congrArg (fun p : Power => p.trips ++ [tripRecord tile]) (s.trip_halted tile).power

theorem State.trip_counter (h : tile < 256) :
    (s.trip tile).counter cTHTRIP (tile / 32) = satAdd (s.counter cTHTRIP (tile / 32)) 1 :=
  (State.counter_countBy ..).trans (congrArg (satAdd · 1) ((s.trip_halted tile).counter (by decide) (by omega)))

theorem State.trip_active {c : Nat} (h : c ∈ s.coresOn tile) : (s.trip tile).active c = false := by
  have hplace : (s.trip tile).tileOf c = s.tileOf c := congrArg (fun w => bits w 0 10 / 4) ((s.trip_halted tile).entry 12 c)
  refine State.active_of_tripped ?_
  rw [hplace, State.tileOf_of_mem_coresOn h]
  exact s.trip_tripped tile

end

/-! ### The obligation -/

/-- Settles O52: an interval, an emergency and a routed write by the equations of their steps; a swap's cores and tiles, and a
trip's cores, by induction on the cores they stop or place. -/
theorem rotationAndThermal : Obligations.RotationAndThermal := by
  unfold Obligations.RotationAndThermal
  intro s die tile lc off data
  refine ⟨fun hdie hon => ⟨execRotationInterval_swapping, fun hidle => ⟨execRotationInterval_empty hdie hon hidle, fun h hot =>
      ⟨execRotationInterval_skips hdie hon hidle hot, fun c => execRotationInterval_swaps hdie hon hidle hot⟩⟩⟩,
    fun x hswap hphase hacks hcores hsingle => ?_, fun x hswap hphase hsingle hdie => ?_,
    fun x hx => ⟨fun hawake => ?_, fun hdeep => ?_⟩, fun x op hcur hok => s.landFlying_cellar x hcur hok,
    execThermalEmergency_hot, fun c q hleave hruns hidle hq hc => execEmergencyMigration_moves hruns hidle hleave hq hc,
    fun c hmust hruns hidle hcores => ?_, execThermalRecover_cool, fun htile hruns hhot => ?_⟩
  · exact ⟨_, execRotationQuiesce_ready hswap hphase hacks hcores hsingle,
      congrArg Die.swap (State.die_setDie ..), fun c hc => s.quiesced_stopped die hc,
      fun a b hp h hab => s.quiesced_exchanges die hp h hab _ rfl⟩
  · refine ⟨_, execRotationRemap_pairs hswap hphase hsingle, ?_, ?_, fun c hc => ?_⟩
    · refine congrArg Die.swap (((s.landed die x).settled_die s x die).trans (State.die_setDie ..))
    · rw [State.counter_countBy, State.settled_counter _ _ _ (by decide) (by omega), State.landed_counter]
    · exact State.settled_placed _ s x (s.landed_placed die hc)
  · simp [exec, execMovedCoreWriteArrival, hx, hawake]
  · simp [exec, execMovedCoreWriteArrival, hx, hdeep]
  · have hmust' : s.mustRotate tile = true := by simpa [State.mustRotate] using hmust
    exact ⟨execEmergencyRotation_tile hruns hidle hmust' hcores, execEmergencyRotation_tpair hruns hidle hmust' hcores⟩
  · exact ⟨_, execThermalTrip_hot htile hruns hhot, s.trip_tripped tile, s.trip_trips tile, s.trip_counter tile htile,
      fun c hc => ⟨State.foldl_haltFlushed_progress (.inl hc), s.trip_active tile hc⟩⟩

end Sys2Proof.Machine
end

section
/-! PROOFS. The control word of a VCP, NOTIFY and the ring (R33 to R37, R39, R43). -/

namespace Sys2Proof.Machine

/-! ### The meanings of the steps -/

theorem exec_vcpVreset (f v : Nat) (s : State) : exec (.vcpVreset f v) s = execVcpVreset f v s := rfl
theorem exec_packetFetch (f v : Nat) (s : State) : exec (.packetFetch f v) s = execPacketFetch f v s := rfl

/-! ### The control word (R35) -/

theorem bit_setBits_cleared (w : Word) : bit (setBits w 1 2 0) 1 = false := by
  simp only [bit, setBits, bits, BitVec.toNat_ofNat, beq_eq_false_iff_ne]
  omega

/-- A VCP with another word in CTL. -/
def Vcp.putCtl (x : Vcp) (w : Word) : Vcp := { x with ctl := w }

/-- What the resume bit leaves of a VCP. -/
def Vcp.ctlResume (x : Vcp) : Vcp := if bit x.ctl 1 then x.resumeCtl else x

theorem Vcp.ctlResume_error {x : Vcp} (h1 : bit x.ctl 1 = true) (hs : x.state = .error) (hd : x.discard = none) :
    x.ctlResume = x.resumed := by simp [Vcp.ctlResume, h1, Vcp.resumeCtl, hs, hd]

theorem Vcp.ctlResume_off {x : Vcp} (h1 : bit x.ctl 1 = false) : x.ctlResume = x := by simp [Vcp.ctlResume, h1]

theorem Vcp.ctlResume_disabled {x : Vcp} (h : x.state = .disabled) : x.ctlResume = x := by
  simp [Vcp.ctlResume, Vcp.resumeCtl, h]

theorem Vcp.ctlResume_started (x : Vcp) : x.ctlResume.started = x.started := by
  unfold Vcp.ctlResume Vcp.resumeCtl
  split_ifs <;> rfl

theorem Vcp.ctlResume_enabled {x : Vcp} (h : x.state ≠ .disabled) : x.ctlResume.state ≠ .disabled := by
  unfold Vcp.ctlResume Vcp.resumeCtl
  split_ifs
  · exact h
  · exact h
  · nofun
  · exact h

theorem Vcp.disableCtl_idle {x : Vcp} (h : x.started = []) : x.disableCtl.state = .disabled ∧ x.disableCtl.closing = false := by
  simp [Vcp.disableCtl, Vcp.close, h]

theorem Vcp.disableCtl_busy {x : Vcp} (h : x.started ≠ []) :
    x.disableCtl = { x with closing := true, discard := none, paused := false, resume := false } := by
  simp [Vcp.disableCtl, Vcp.close, h]

theorem State.enableVcp_accepted {s : State} {f : Nat} {x : Vcp} (h6 : 6 ≤ bits x.ringsz 0 5) (h16 : bits x.ringsz 0 5 ≤ 16)
    (h : s.ringOk f x.ringbase (bits x.ringsz 0 5) = true) : s.enableVcp f x =
      { x with state := .running, head := 0, done := 0, seq := 0, tail := 0, base := x.ringbase, lgsz := bits x.ringsz 0 5,
               fetched := none, started := [], missed := false, discard := none, paused := false, resume := false, restored := [],
               admitted := none, pmap := [] } := by
  unfold State.enableVcp
  exact if_neg (by simp [h, Nat.not_lt.mpr h6, Nat.not_lt.mpr h16])

theorem State.enableVcp_refused {s : State} {f : Nat} {x : Vcp}
    (h : bits x.ringsz 0 5 < 6 ∨ 16 < bits x.ringsz 0 5 ∨ s.ringOk f x.ringbase (bits x.ringsz 0 5) = false) :
    s.enableVcp f x = { x with code := BADPKT } := if_pos h

section
variable {s : State} {f v : Nat} {x : Vcp} (hx : s.vcp f v = x)
include hx

/-- An enabled VCP whose enable bit is set goes on. -/
theorem State.actCtl_on (h0 : bit x.ctl 0 = true) (hs : x.state ≠ .disabled) :
    s.actCtl f v = s.setVcp f v (x.ctlResume.putCtl (setBits x.ctl 1 2 0)) := by
  subst hx
  have hr := Vcp.ctlResume_enabled hs
  simp only [Vcp.ctlResume] at hr
  simp only [State.actCtl, Vcp.ctlResume, h0, if_true, if_neg hr, true_and]
  rfl

/-- A disabled VCP whose enable bit is set has its ring checked. -/
theorem State.actCtl_enable (h0 : bit x.ctl 0 = true) (hs : x.state = .disabled) :
    s.actCtl f v = (s.meetRing f x).setVcp f v ((s.enableVcp f x).putCtl (setBits x.ctl 1 2 0)) := by
  subst hx
  have hr := Vcp.ctlResume_disabled hs
  simp only [Vcp.ctlResume] at hr
  simp only [State.actCtl, h0, if_true, hr, hs, true_and]
  rfl

/-- An enabled VCP whose enable bit is clear is disabled as soon as it may be. -/
theorem State.actCtl_off (h0 : bit x.ctl 0 = false) (hs : x.state ≠ .disabled) :
    s.actCtl f v = s.setVcp f v (x.ctlResume.disableCtl.putCtl (setBits x.ctl 1 2 0)) := by
  subst hx
  have hr := Vcp.ctlResume_enabled hs
  simp only [Vcp.ctlResume] at hr
  simp only [State.actCtl, Vcp.ctlResume, h0, if_neg hr, Bool.false_eq_true, if_false, false_and]
  rfl

end

/-! ### NOTIFY (R34, R35) -/

theorem Vcp.takeTail_disabled {x : Vcp} (h : x.state = .disabled) (t : Nat) : x.takeTail t = x := if_pos h

theorem Vcp.takeTail_overrun {x : Vcp} {t : Nat} (hs : x.state ≠ .disabled) (h : 2 ^ x.lgsz < ahead t x.done) :
    x.takeTail t = x.fail 0 x.tail OVERRUN := by
  unfold Vcp.takeTail
  rw [if_neg hs]
  exact if_pos h

theorem Vcp.takeTail_within {x : Vcp} {t : Nat} (hs : x.state ≠ .disabled) (h : ahead t x.done ≤ 2 ^ x.lgsz) :
    x.takeTail t = { x with
      tail := if ahead t x.done < ahead x.tail x.done then x.tail else t
      state := if x.state = .stale then .running else x.state, missed := false, paused := false } := by
  unfold Vcp.takeTail
  dsimp only
  rw [if_neg hs, if_neg (Nat.not_lt.mpr h)]
  split_ifs <;> rfl

/-- A tail is taken whatever stands in CTL. -/
theorem Vcp.takeTail_putCtl (x : Vcp) (w : Word) (t : Nat) : (x.putCtl w).takeTail t = (x.takeTail t).putCtl w := by
  unfold Vcp.takeTail Vcp.putCtl
  dsimp only
  split_ifs <;> rfl

section
variable {s : State} {f v : Nat} (hf : f < 64) (hv : v < 16) (hflr : (s.func f).flr = false)
include hf hv hflr

/-- A NOTIFY where no reset runs acts on CTL and then on its tail. -/
theorem State.takeNotify_acts (h2 : bit (s.vcp f v).ctl 2 = false) (hr : (s.vcp f v).resetting = false) (w : BitVec 32) :
    s.takeNotify f v w = (s.actCtl f v).setVcp f v (((s.actCtl f v).vcp f v).takeTail (w.toNat % 2 ^ 24)) := by
  unfold State.takeNotify
  rw [if_neg (by simp [hflr, Nat.not_le.mpr hf, Nat.not_le.mpr hv]), if_neg (by simp [h2, hr])]

theorem State.takeNotify_vreset (h : bit (s.vcp f v).ctl 2 = true ∨ (s.vcp f v).resetting = true) (w : BitVec 32) :
    s.takeNotify f v w = s.vreset f v := by
  unfold State.takeNotify
  rw [if_neg (by simp [hflr, Nat.not_le.mpr hf, Nat.not_le.mpr hv]), if_pos (by simpa using h)]

end

theorem execNotify_taken {s : State} (h : s.service.tlps = []) (f v : Nat) (w : BitVec 32) :
    execNotify f v w s = .next (s.takeNotify f v w) := State.arrive_committed h (x := .notify f v w) rfl

/-- A step on CTL is a NOTIFY that names the tail again (R33, R35). -/
theorem State.onCtl_notifies {s : State} {f v : Nat} {p : Vcp → Bool} (h : p (s.vcp f v) = true) (t : Nat) :
    s.onCtl f v t p = .next (s.takeNotify f v (BitVec.ofNat 32 t)) := congrArg Host.Outcome.next (if_pos h)

/-- The tail that a step on CTL names, as a NOTIFY has it. -/
theorem toNat_ofNat_mod_tail (t : Nat) : (BitVec.ofNat 32 t).toNat % 2 ^ 24 = t % 2 ^ 24 := by
  rw [BitVec.toNat_ofNat]
  omega

section
variable {s : State} {f v : Nat} {x : Vcp} (hf : f < 64) (hv : v < 16) (hflr : (s.func f).flr = false) (hx : s.vcp f v = x)
  (hr : x.resetting = false) (h2 : bit x.ctl 2 = false)
include hf hv hflr hx hr h2

/-- A resume leaves an error that discards nothing (R43). -/
theorem execVcpResume_error (h1 : bit x.ctl 1 = true) (h0 : bit x.ctl 0 = true) (hs : x.state = .error) (hd : x.discard = none)
    (ht : ahead (x.tail % 2 ^ 24) x.done ≤ 2 ^ x.lgsz) : ∃ t, execVcpResume f v s = .next t ∧
      (t.vcp f v).state = .running ∧ (t.vcp f v).code = 0 ∧ (t.vcp f v).index = 0 ∧ bit (t.vcp f v).ctl 1 = false := by
  have hon : x.state ≠ .disabled := by simp [hs]
  refine ⟨_, State.onCtl_notifies (by rwa [hx]) _, ?_⟩
  rw [State.takeNotify_acts hf hv hflr (by rwa [hx]) (by rwa [hx]), State.vcp_setVcp, State.actCtl_on hx h0 hon,
    Vcp.ctlResume_error h1 hs hd, State.vcp_setVcp, hx, toNat_ofNat_mod_tail, Vcp.takeTail_putCtl,
    Vcp.takeTail_within (x := x.resumed) nofun ht]
  exact ⟨rfl, rfl, rfl, bit_setBits_cleared _⟩

/-- An enable bit of 0 beside a resume disables a VCP with nothing started. -/
theorem execVcpResume_disables (h1 : bit x.ctl 1 = true) (h0 : bit x.ctl 0 = false) (hs : x.state ≠ .disabled)
    (hq : x.started = []) : ∃ t, execVcpResume f v s = .next t ∧ (t.vcp f v).state = .disabled := by
  have hidle := (Vcp.disableCtl_idle (x.ctlResume_started.trans hq)).1
  refine ⟨_, State.onCtl_notifies (by rwa [hx]) _, ?_⟩
  rw [State.takeNotify_acts hf hv hflr (by rwa [hx]) (by rwa [hx]), State.vcp_setVcp, State.actCtl_off hx h0 hs,
    State.vcp_setVcp, Vcp.takeTail_putCtl, Vcp.takeTail_disabled hidle]
  exact hidle

section
variable (h0 : bit x.ctl 0 = true) (hs : x.state = .disabled)
include h0 hs

theorem execVcpEnable_starts (h6 : 6 ≤ bits x.ringsz 0 5) (h16 : bits x.ringsz 0 5 ≤ 16)
    (hok : s.ringOk f x.ringbase (bits x.ringsz 0 5) = true) : ∃ t, execVcpEnable f v s = .next t ∧
      (t.vcp f v).state = .running ∧ (t.vcp f v).head = 0 ∧ (t.vcp f v).done = 0 ∧
      (t.vcp f v).tail = 0 ∧ (t.vcp f v).base = x.ringbase ∧ (t.vcp f v).lgsz = bits x.ringsz 0 5 := by
  refine ⟨_, State.onCtl_notifies (by simp [hx, h0, hs]) _, ?_⟩
  rw [State.takeNotify_acts hf hv hflr (by rwa [hx]) (by rwa [hx]), State.vcp_setVcp, State.actCtl_enable hx h0 hs,
    State.enableVcp_accepted h6 h16 hok, State.vcp_setVcp, toNat_ofNat_mod_tail, Nat.zero_mod,
    Vcp.takeTail_putCtl, Vcp.takeTail_within]
  · exact ⟨rfl, rfl, rfl, by simp [Vcp.putCtl], rfl, rfl⟩
  · nofun
  · simp [ahead]

theorem execVcpEnable_refused
    (hbad : bits x.ringsz 0 5 < 6 ∨ 16 < bits x.ringsz 0 5 ∨ s.ringOk f x.ringbase (bits x.ringsz 0 5) = false) :
    ∃ t, execVcpEnable f v s = .next t ∧ t = { s.meetRing f x with vcps := t.vcps } ∧
      t.vcp f v = { x with code := BADPKT, ctl := setBits x.ctl 1 2 0 } := by
  refine ⟨_, State.onCtl_notifies (by simp [hx, h0, hs]) _, ?_⟩
  rw [State.takeNotify_acts hf hv hflr (by rwa [hx]) (by rwa [hx]), State.vcp_setVcp, State.actCtl_enable hx h0 hs,
    State.enableVcp_refused hbad, State.vcp_setVcp, Vcp.takeTail_putCtl,
    Vcp.takeTail_disabled (x := { x with code := BADPKT }) hs]
  exact ⟨rfl, rfl⟩

end

theorem execVcpDisable_closes (h0 : bit x.ctl 0 = false) (h1 : bit x.ctl 1 = false) (hs : x.state ≠ .disabled)
    (ht : ahead (x.tail % 2 ^ 24) x.done ≤ 2 ^ x.lgsz) : ∃ t, execVcpDisable f v s = .next t ∧
      (t.vcp f v).state = (if x.started = [] then .disabled else if x.state = .stale then .running else x.state) ∧
      ((t.vcp f v).closing = true ↔ x.started ≠ []) := by
  refine ⟨_, State.onCtl_notifies (by simp [hx, h0, hs]) _, ?_⟩
  rw [State.takeNotify_acts hf hv hflr (by rwa [hx]) (by rwa [hx]), State.vcp_setVcp, State.actCtl_off hx h0 hs,
    State.vcp_setVcp, Vcp.ctlResume_off h1, Vcp.takeTail_putCtl]
  by_cases hq : x.started = []
  · obtain ⟨hidle, hclosed⟩ := Vcp.disableCtl_idle hq
    rw [Vcp.takeTail_disabled hidle, if_pos hq]
    exact ⟨hidle, iff_of_false (Bool.eq_false_iff.mp hclosed) (not_not.mpr hq)⟩
  · rw [Vcp.disableCtl_busy hq, hx, toNat_ofNat_mod_tail, Vcp.takeTail_within, if_neg hq]
    · exact ⟨rfl, iff_of_true rfl hq⟩
    · exact hs
    · exact ht

/-- A NOTIFY of a VCP whose CTL asks for nothing. -/
theorem State.takeNotify_tail (h1 : bit x.ctl 1 = false) (h0 : bit x.ctl 0 = true) (hs : x.state ≠ .disabled) (w : BitVec 32) :
    (s.takeNotify f v w).vcp f v = (x.takeTail (w.toNat % 2 ^ 24)).putCtl (setBits x.ctl 1 2 0) := by
  rw [State.takeNotify_acts hf hv hflr (by rwa [hx]) (by rwa [hx]), State.vcp_setVcp, State.actCtl_on hx h0 hs,
    Vcp.ctlResume_off h1, State.vcp_setVcp, Vcp.takeTail_putCtl]

end

/-! ### vreset (R35, R45) -/

theorem State.wipeVcp_reset {s : State} {f v : Nat} (h : (s.wipeVcp f v).2 = true) : (s.wipeVcp f v).1.vcp f v = Vcp.reset := by
  rcases hw : s.wipeVcp f v with ⟨t, b⟩
  rw [hw] at h
  obtain rfl : b = true := h
  obtain ⟨u, -, rfl⟩ := State.wipeVcp_done hw
  exact State.vcp_setVcp ..

section
variable {s : State} {f v : Nat} (hf : f < 64) (hv : v < 16) (hflr : (s.func f).flr = false)
include hf hv hflr

theorem execVcpVreset_vresets (h : bit (s.vcp f v).ctl 2 = true ∨ (s.vcp f v).resetting = true) :
    execVcpVreset f v s = .next (s.vreset f v) := by
  rw [execVcpVreset, State.onCtl_notifies (by simpa using h), State.takeNotify_vreset hf hv hflr h]

end

/-! ### Reading the ring (R36, R37) -/

section
variable {s : State} {f v : Nat} {x : Vcp} (hf : f < 64) (hv : v < 16) (hx : s.vcp f v = x) (hstart : s.vcpStarts f v = true)
  (hc : x.closing = false) (hs : x.state = .running) (hfe : x.fetched = none) (hne : x.head ≠ x.tail)
  (hres : tfind x.restored x.head = none) {bs : List Byte} {t : State}
  (hrd : s.fnRead f (packetKey f v x.head) (x.base.toNat + 64 * (x.seq % 2 ^ x.lgsz)) 64 needR = .ok bs t)

theorem State.vcpRuns_of_vcpStarts (h : s.vcpStarts f v = true) : s.vcpRuns f v = true := by
  simp only [State.vcpStarts, State.startsPackets, Bool.and_eq_true] at h
  obtain ⟨⟨hruns, -⟩, hreset⟩ := h
  simp [State.vcpRuns, hruns, hreset]

include hf hv hx hstart hc hs hfe hne hres hrd

/-- A running VCP with packets ahead takes the packet of a slot whose lap is right, and misses any other. -/
theorem execPacketFetch_reads : execPacketFetch f v s = .next (
    let u := t.forgetKey (packetKey f v x.head)
    if (recOfBytes bs).lap = lapOf x.seq x.lgsz then
      (u.journal (u.fnPart f) 2 f v (wordsFrom 0x10 (recOfBytes bs).words ++ [(0x50, ofN x.head)])).setVcp f v
        { x with fetched := some (recOfBytes bs), missed := false }
    else u.setVcp f v { x with missed := true }) := by
  subst hx
  have hgo : ¬ (f ≥ 64 ∨ v ≥ 16 ∨ s.vcpRuns f v = false ∨ (s.vcp f v).closing = true) := by
    simp [Nat.not_le.mpr hf, Nat.not_le.mpr hv, State.vcpRuns_of_vcpStarts hstart, hc]
  unfold execPacketFetch
  dsimp only
  rw [if_neg hgo, if_neg (by simp [hs]), if_neg (by simp [hs, hstart]), hfe]
  simp [Vcp.ready, hne, State.readSlot, hres, hrd, hfe]

end

theorem execPollBoundExpire_stale {s : State} {f v : Nat} (hm : (s.vcp f v).missed = true) (hs : (s.vcp f v).state = .running) :
    execPollBoundExpire f v s = .next (s.setVcp f v
      { s.vcp f v with state := .stale, stalecnt := (s.vcp f v).stalecnt + 1, missed := false }) := by
  simp [execPollBoundExpire, hm, hs]

/-! ### The gap entry of a journal (R64) -/

theorem State.journalGapPut_room {s : State} {p : Nat} (hn : 0 < tget 0 s.journalGap p) (hr : s.journalRoom p = true) :
    s.journalGapPut p = { s.journalPut p 6 0 255 [(0x10, ofN (tget 0 s.journalGap p))] with journalGap := tdel p s.journalGap } := by
  unfold State.journalGapPut
  exact if_neg (by simp [hn.ne', hr])

theorem execJournalGapEntry_puts {s : State} {p : Nat} (hn : 0 < tget 0 s.journalGap p) (hr : s.journalRoom p = true)
    (hm : s.journalMode p ≠ 0) : ∃ t, execJournalGapEntry p s = .next t ∧ tget 0 t.journalGap p = 0 ∧
      tget 0 t.journalUsed p = tget 0 s.journalUsed p + 1 := by
  refine ⟨_, congrArg Host.Outcome.next (if_neg hm), ?_⟩
  rw [State.journalGapPut_room hn hr]
  exact ⟨tget_tdel_same .., tget_tput_same ..⟩

/-! ### The statement -/

/-- Settles O45: CTL is acted on by one law for each of its cases, and a tail is taken by one law for each distance from done. -/
theorem vcpControl : Obligations.VcpControl := by
  intro s f v x hf hv hflr hx
  refine ⟨fun hr h2 => ⟨execVcpResume_error hf hv hflr hx hr h2, execVcpResume_disables hf hv hflr hx hr h2,
      fun h0 hs => ⟨execVcpEnable_starts hf hv hflr hx hr h2 h0 hs, execVcpEnable_refused hf hv hflr hx hr h2 h0 hs⟩,
      execVcpDisable_closes hf hv hflr hx hr h2, fun w hq h1 h0 hs => ?_⟩,
    fun h2 hr => ⟨?_, State.wipeVcp_reset⟩, fun hr => ⟨?_, State.wipeVcp_reset⟩, fun bs t hstart hc hs hfe hne hres => ?_,
    fun hm hs => ?_, fun p hn hroom hm => execJournalGapEntry_puts hn hroom hm⟩
  · refine ⟨_, execNotify_taken hq f v w, fun hd hle => ?_, fun hd => ?_⟩
    all_goals rw [State.takeNotify_tail hf hv hflr hx hr h2 h1 h0 hs]
    · rw [Vcp.takeTail_within hs hd]
      exact ⟨if_neg (Nat.not_lt.mpr hle), rfl⟩
    · rw [Vcp.takeTail_overrun hs hd]
      exact ⟨rfl, rfl, rfl⟩
  · rw [exec_vcpVreset, execVcpVreset_vresets hf hv hflr (.inl (by rwa [hx])), State.vreset, if_neg (by simp [hx, hr])]
  · rw [exec_vcpVreset, execVcpVreset_vresets hf hv hflr (.inr (by rwa [hx])), State.vreset, if_pos (by rwa [hx])]
  · intro key hrd
    have hread := execPacketFetch_reads hf hv hx hstart hc hs hfe hne hres hrd
    refine ⟨fun hl => ⟨_, hread, ?_⟩, fun hl => ?_⟩
    · dsimp only
      rw [if_pos hl, State.vcp_setVcp]
    · rw [exec_packetFetch, hread]
      exact congrArg Host.Outcome.next (if_neg hl)
  · subst hx
    exact execPollBoundExpire_stale hm hs

end Sys2Proof.Machine
end

section
/-! PROOFS. How packets start, proceed and complete (R22, R40, R42 to R44, R49, R109, R126, R136). -/

namespace Sys2Proof.Machine

/-! ### The meanings of the steps -/

theorem exec_nopPacket (f v : Nat) (s : State) : exec (.nopPacket f v) s =
    s.begin f v 0 fun x p => s.startPacket f v { Started.new x p with ending := some (.ok, none) } := rfl
theorem exec_copyPacket (f v : Nat) (s : State) : exec (.copyPacket f v) s = s.begin f v 2 fun x p => s.startPacket f v
    (if p.cLen = 0 then { Started.new x p with ending := some (.ok, some 0) } else Started.new x p) := rfl
theorem exec_waitPacket (f v : Nat) (s : State) : exec (.waitPacket f v) s =
    s.begin f v 4 fun x p => (s.startPacket f v (Started.new x p)).evaluate f v (Started.new x p) := rfl
theorem exec_signalPacket (f v : Nat) (s : State) :
    exec (.signalPacket f v) s = s.oneAccess f v 3 fun s q => s.doSignal f v q := rfl
theorem exec_markPacket (f v : Nat) (s : State) :
    exec (.markPacket f v) s = s.oneAccess f v 5 fun s q => s.doMark f v q := rfl
theorem exec_launchPacket (f v : Nat) (s : State) : exec (.launchPacket f v) s = execLaunchPacket f v s := rfl
theorem exec_cancelPacket (f v : Nat) (s : State) : exec (.cancelPacket f v) s = execCancelPacket f v s := rfl

/-! ### Starting (R40, R44) -/

/-- A well-formed packet has been read at the head of a VCP, and the barriers let it start (R39, R40). -/
structure State.AtHead (s : State) (f v : Nat) (x : Vcp) (p : Rec) : Prop where
  fn : f < 64
  num : v < 16
  vcp : s.vcp f v = x
  starts : s.vcpStarts f v = true
  fetched : x.fetched = some p
  formed : p.malformed = false
  may : x.mayStart p = true

section
variable {s : State} {f v op : Nat} {x : Vcp} {p : Rec} (h : s.AtHead f v x p)
include h

theorem State.AtHead.runs : ¬ (f ≥ 64 ∨ v ≥ 16 ∨ s.vcpStarts f v = false) := by
  simp [Nat.not_le.mpr h.fn, Nat.not_le.mpr h.num, h.starts]

variable (hop : p.op = op)
include hop

theorem State.AtHead.startable : ¬ (p.op ≠ op ∨ p.malformed = true ∨ x.mayStart p = false) := by
  simp [hop, h.formed, h.may]

variable (k : Vcp → Rec → State)

/-- A packet whose completion-signal address is wrong ends with XLATE and no effect (R44 check 2). -/
theorem State.AtHead.begin_signalFault {t : State} (ha : s.checkAddr f p.signalAt = .fault t) : s.begin f v op k =
    .next (t.startPacket f v { Started.new x p with ending := some (.error XLATE, none), failed := p.signalAt }) := by
  simp only [State.begin, if_neg h.runs, h.vcp, h.fetched, if_neg (h.startable hop), ha]

variable (ha : s.checkAddr f p.signalAt = .ok [] s)
include ha

/-- So does one whose status address is wrong. -/
theorem State.AtHead.begin_statusFault {t : State} (hb : s.checkAddr f p.statusAt = .fault t) : s.begin f v op k =
    .next (t.startPacket f v { Started.new x p with ending := some (.error XLATE, none), failed := p.statusAt }) := by
  simp only [State.begin, if_neg h.runs, h.vcp, h.fetched, if_neg (h.startable hop), ha, hb]

/-- A packet whose addresses are right has its op's effect. -/
theorem State.AtHead.begin_starts (hb : s.checkAddr f p.statusAt = .ok [] s) : s.begin f v op k = .next (k x p) := by
  simp only [State.begin, if_neg h.runs, h.vcp, h.fetched, if_neg (h.startable hop), ha, hb]

end

/-- A packet of one access of which none is at work starts from the head. -/
theorem State.oneAccess_begins {s : State} {f v op : Nat} (h : (s.vcp f v).pending op = none) (act : State → Started → State) :
    s.oneAccess f v op act = s.begin f v op fun x p => act (s.startPacket f v (Started.new x p)) (Started.new x p) := by
  simp only [State.oneAccess, h]

/-- The step of each op, where none of its packets is at work, starts the packet at head. -/
theorem exec_begins {s : State} {f v op : Nat} {i : Instr}
    (hi : (i, op) ∈ [(Instr.nopPacket f v, 0), (.launchPacket f v, 1), (.copyPacket f v, 2), (.signalPacket f v, 3),
      (.waitPacket f v, 4), (.markPacket f v, 5), (.cancelPacket f v, 6)])
    (hn : (s.vcp f v).pending op = none) : ∃ k, exec i s = s.begin f v op k := by
  simp only [List.mem_cons, List.not_mem_nil, or_false, Prod.mk.injEq] at hi
  rcases hi with ⟨rfl, rfl⟩ | ⟨rfl, rfl⟩ | ⟨rfl, rfl⟩ | ⟨rfl, rfl⟩ | ⟨rfl, rfl⟩ | ⟨rfl, rfl⟩ | ⟨rfl, rfl⟩
  · exact ⟨_, exec_nopPacket f v s⟩
  · exact ⟨_, exec_launchPacket f v s⟩
  · exact ⟨_, exec_copyPacket f v s⟩
  · exact ⟨_, (exec_signalPacket f v s).trans (State.oneAccess_begins hn _)⟩
  · exact ⟨_, exec_waitPacket f v s⟩
  · exact ⟨_, (exec_markPacket f v s).trans (State.oneAccess_begins hn _)⟩
  · exact ⟨_, exec_cancelPacket f v s⟩

/-! ### CANCEL (R42, R109) -/

/-- The packet that a CANCEL starts as: it has matched the launches that are open. -/
def State.cancelStarted (s : State) (f : Nat) (x : Vcp) (p : Rec) : Started :=
  let limit := (s.root (bits p.q4 0 4)).serial
  { Started.new x p with matched := (s.cancelOpen f p limit).length, limit := limit }

theorem State.cancelOpen_unbound {s : State} {f : Nat} {p : Rec} (h : s.cancelSlot f p = false) (limit : Nat) :
    s.cancelOpen f p limit = [] := if_neg (by simp [h])

section
variable {s : State} {f v : Nat} {x : Vcp} {p : Rec} (h : s.AtHead f v x p) (hop : p.op = 6)
  (ha : s.checkAddr f p.signalAt = .ok [] s) (hb : s.checkAddr f p.statusAt = .ok [] s)
include h hop ha hb

/-- A CANCEL of a slot that is not its function's matches nothing. -/
theorem execCancelPacket_unbound (hc : s.cancelSlot f p = false) : execCancelPacket f v s =
    .next (s.startPacket f v { s.cancelStarted f x p with ending := some (.ok, some 0) }) := by
  rw [execCancelPacket, h.begin_starts hop _ ha hb]
  simp [hc, State.cancelOpen_unbound hc, State.cancelStarted]

variable {t : State} {n : Nat} (hc : s.cancelSlot f p = true) (hi : s.install (bits p.q4 0 4) p.cancelMark = (n, t)) (hn : n ≠ 2)
include hc hi hn

/-- The mark of a slot homed here hits at once. -/
theorem execCancelPacket_homed (hh : s.homed (bits p.q4 0 4) = true) : execCancelPacket f v s =
    .next ((t.startPacket f v (if (s.cancelStarted f x p).matched = 0
      then { s.cancelStarted f x p with ending := some (.ok, some 0) } else s.cancelStarted f x p)).settle (bits p.q4 0 4)) := by
  rw [execCancelPacket, h.begin_starts hop _ ha hb]
  simp [hc, hi, hh, State.cancelStarted]

/-- Of a slot that another module homes, its home says what matches (log entry 111). -/
theorem execCancelPacket_away (hh : s.homed (bits p.q4 0 4) = false) : execCancelPacket f v s =
    .next ((t.startPacket f v (s.cancelStarted f x p)).sendMsg (s.homeOf (bits p.q4 0 4))
      (.matching (bits p.q4 0 4) p.cancelMark.depth p.q3 f v s.tick)) := by
  rw [execCancelPacket, h.begin_starts hop _ ha hb]
  simp [hc, hi, hh, State.cancelStarted]

end

/-! ### LAUNCH (R42, R49, R126, R136) -/

section
variable {s : State} {f v : Nat} {x : Vcp} {p : Rec} (h : s.AtHead f v x p) (hop : p.op = 1)
  (ha : s.checkAddr f p.signalAt = .ok [] s) (hb : s.checkAddr f p.statusAt = .ok [] s)
include h hop ha hb

/-- A LAUNCH whose records cannot be read is refused. -/
theorem execLaunchPacket_unread {c va : Nat} {t : State} (hr : s.launchRecords f (packetKey f v x.head) p = .fail c va t) :
    execLaunchPacket f v s = .next ((t.forgetKey (packetKey f v x.head)).refuseLaunch f v x p c (some (ofN va))) := by
  rw [execLaunchPacket, h.begin_starts hop _ ha hb]
  simp only [hr]

variable {l : List Rec} {t t1 : State} (hr : s.launchRecords f (packetKey f v x.head) p = .ok l t)
  (ht : t.forgetKey (packetKey f v x.head) = t1)
include hr ht

/-- One that passes its checks, with its plug-in calls made, is accepted. -/
theorem execLaunchPacket_accepted {point : Word} (hp : t1.launchPoint p = some point) (hok : t1.launchOk f p l = true)
    (hadm : x.admitted = some true) (hmap : firstUnmapped x.pmap l = none) :
    execLaunchPacket f v s = .next (t1.acceptLaunch f v x p point l) := by
  rw [execLaunchPacket, h.begin_starts hop _ ha hb]
  simp only [hr, ht, hp, hok, hadm, hmap, Bool.not_true, Bool.false_eq_true, if_false]

/-- One that fails a check is refused. -/
theorem execLaunchPacket_refused (hbad : ∀ point, t1.launchPoint p = some point → t1.launchOk f p l = false) :
    execLaunchPacket f v s = .next (t1.refuseLaunch f v x p LIMIT) := by
  rw [execLaunchPacket, h.begin_starts hop _ ha hb]
  simp only [hr, ht]
  cases hp : t1.launchPoint p with
  | none => rfl
  | some point => simp only [hbad point hp, Bool.not_false, if_true]

end

/-! ### WAIT (R43) -/

theorem waitStep_evaluates {s : State} {f v i : Nat} {q : Started} (hr : s.vcpRuns f v = true)
    (hq : (s.vcp f v).started.find? (fun q => q.index == i && q.p.op == 4 && q.ending.isNone) = some q)
    (hs : (s.vcp f v).state ≠ .suspended) : waitStep f v i s = .next (s.evaluate f v q) := by
  simp [waitStep, hq, hs, hr]

section
variable {s t : State} {f v : Nat} {q : Started} {ws : List Word} (hp : q.proxy = [none, none, none])
  (hw : s.waitWords f (packetKey f v q.index) ([(q.p.q3, none), (q.p.q4, none), (q.p.q5, none)].take (bits q.p.q6 0 2)) = .ok ws t)
include hp hw

/-- A WAIT whose signals have been read looks at their values. -/
theorem State.evaluate_read : s.evaluate f v q =
    (if ws.any fun w => w.toInt < 0 then (t.forgetKey (packetKey f v q.index)).abortWait f v q ABORT
     else if ws.all (· == 0) then (t.forgetKey (packetKey f v q.index)).packetOver f v q.index .ok none
     else t.forgetKey (packetKey f v q.index)) := by
  unfold State.evaluate
  rw [hp]
  simp only [List.zip_cons_cons, List.zip_nil_right, hw]

theorem State.evaluate_aborts (hneg : ∃ w ∈ ws, w.toInt < 0) :
    s.evaluate f v q = (t.forgetKey (packetKey f v q.index)).abortWait f v q ABORT := by
  rw [State.evaluate_read hp hw, if_pos (by simpa using hneg)]

theorem State.evaluate_satisfied (hz : ∀ w ∈ ws, w = 0) :
    s.evaluate f v q = (t.forgetKey (packetKey f v q.index)).packetOver f v q.index .ok none := by
  have hnonneg : ¬ (ws.any fun w => decide (w.toInt < 0)) = true := by
    rw [List.any_eq_true]
    rintro ⟨w, hm, hneg⟩
    simp [hz w hm] at hneg
  rw [State.evaluate_read hp hw, if_neg hnonneg, if_pos (by simpa using hz)]

end

/-! ### COPY (R42, R202) -/

theorem execQuayCopyGranule_moves {s t : State} {f v i g : Nat} {q r : Started} (hr : s.vcpRuns f v = true)
    (hq : (s.vcp f v).started.find? (fun q => q.index == i && q.p.op == 2 && q.ending.isNone) = some q)
    (hm : q.canMove g = true) (hg : s.quayGranule f (granuleKey f v i g) (quayHolder (copyKey f v i)) q g = (some r, t)) :
    execQuayCopyGranule f v i g s = .next ((if r.ending.isSome
      then (t.forgetKey (granuleKey f v i g)).dropHolder (quayHolder (copyKey f v i))
      else t.forgetKey (granuleKey f v i g)).setStarted f v r) := by
  simp [execQuayCopyGranule, hq, hr, hm, hg]

/-! ### Completion (R40) -/

section
variable {s : State} {f v i : Nat} {q : Started} (hq : (s.vcp f v).started.find? (fun q => q.index == i) = some q)
  (hflr : (s.func f).flr = false) (hr : (s.vcp f v).resetting = false)
include hq hflr hr

theorem execPacketComplete_over {e : PacketEnd} {w : Option Word} (he : q.ending = some (e, w)) :
    execPacketComplete f v i s = .next (s.completePacket f v q e w) := by
  simp [execPacketComplete, hq, hflr, hr, he]

/-- A CANCEL completes once no launch that it matched is open. -/
theorem execPacketComplete_cancel (he : q.ending = none) (hop : q.p.op = 6) (hh : s.homed (bits q.p.q4 0 4) = true)
    (hc : s.cancelOpen f q.p q.limit = []) :
    execPacketComplete f v i s = .next (s.completePacket f v q .ok (some (ofN q.matched))) := by
  simp [execPacketComplete, hq, hflr, hr, he, hop, hh, hc]

end

/-! ### The external LAUNCH (R22) -/

section
variable {s s0 : State} {q dev tenant f : Nat} {key : Word} {packet : List Word} {records : List (List Word)} {y : Arrived}
  {p : Rec} {l : List Rec} (hp : Rec.ofWords packet = p) (hl : records.map Rec.ofWords = l) (hf : s.fnOf p.lGraph = f)
  (hrx : s.takeRx (fun x => x.src == dev && x.link / 12 == q && x.msg == .launch tenant key packet records) (fun _ => false) =
    some (y, s0))
include hp hl hrx

/-- A LAUNCH that its tenant may not make is turned away. -/
theorem execExternalLaunch_invalid (h : s.tenantOk tenant key p l = false) :
    execExternalLaunch q dev tenant key packet records s = .next (s0.turnAway q dev tenant) := by
  simp only [execExternalLaunch, hrx, hp, hl, h]

variable (h : s.tenantOk tenant key p l = true) {point : Word} (hpt : s.launchPoint p = some point)
include hf h hpt

/-- One that finds its function's calls made for another waits. -/
theorem execExternalLaunch_waits (hbusy : s.externBusy f dev (.launch tenant key packet records) = true) :
    execExternalLaunch q dev tenant key packet records s = .next s := by
  simp only [execExternalLaunch, hrx, hp, hl, h, hpt, hf, hbusy, if_true]

variable (hfree : s.externBusy f dev (.launch tenant key packet records) = false)
include hfree

theorem execExternalLaunch_keptOut (hadm : (s.func f).admitted = some false) :
    execExternalLaunch q dev tenant key packet records s = .next ((s0.clearCalls f).turnAway q dev tenant) := by
  simp only [execExternalLaunch, hrx, hp, hl, h, hpt, hf, hfree, hadm, Bool.false_eq_true, if_false]

theorem execExternalLaunch_injects (hadm : (s.func f).admitted = some true) (hmap : firstUnmapped (s.func f).pmap l = none)
    (hout : s0.injected p (s.func f).pmap l ≠ []) : execExternalLaunch q dev tenant key packet records s =
      .next ((s0.clearCalls f).inject p point none (s0.injected p (s.func f).pmap l) 5 f 255 (ofN (dev + tenant * 256))) := by
  simp only [execExternalLaunch, hrx, hp, hl, h, hpt, hf, hfree, hadm, hmap, hout, Bool.false_eq_true, if_false]

end

/-! ### The statement -/

/-- Settles O46: the packet at head starts by one law for every op, and each op, granule and completion has a law of its own. -/
theorem packetSteps : Obligations.PacketSteps := by
  intro s f v x p hf hv hx
  refine ⟨fun hstart hfe hmal hmay => ?_, fun q i hr hq hs hp => ⟨?_, ?_, fun ws t hw => ?_⟩, fun q i g r t hr hq hm => ?_,
    fun q i e w hq hflr hr => ?_, fun q i hq hflr hr => ?_, ?_, ?_⟩
  · have hat : s.AtHead f v x p := ⟨hf, hv, hx, hstart, hfe, hmal, hmay⟩
    refine ⟨fun i hi hn => ?_, fun ha hb => ⟨?_, ?_, ?_, ?_, ?_, fun hop => ?_, fun c va t hop hr => ?_, fun l t hop hr => ?_⟩⟩
    · obtain ⟨k, hk⟩ := exec_begins (s := s) hi (by rwa [hx])
      rw [hk]
      exact ⟨fun t => hat.begin_signalFault rfl k, fun t ha => hat.begin_statusFault rfl k ha⟩
    · exact fun hop => (exec_nopPacket f v s).trans (hat.begin_starts hop _ ha hb)
    · exact fun hop => (exec_copyPacket f v s).trans (hat.begin_starts hop _ ha hb)
    · intro hop hn
      rw [exec_signalPacket, State.oneAccess_begins (by rwa [hx]), hat.begin_starts hop _ ha hb]
    · intro hop hn
      rw [exec_markPacket, State.oneAccess_begins (by rwa [hx]), hat.begin_starts hop _ ha hb]
    · exact fun hop => (exec_waitPacket f v s).trans (hat.begin_starts hop _ ha hb)
    · refine ⟨fun hc => ?_, fun t n hc hi hn => ⟨?_, ?_⟩⟩
      · exact execCancelPacket_unbound hat hop ha hb hc
      · exact execCancelPacket_homed hat hop ha hb hc hi hn
      · exact execCancelPacket_away hat hop ha hb hc hi hn
    · exact execLaunchPacket_unread hat hop ha hb hr
    · exact ⟨fun point => execLaunchPacket_accepted hat hop ha hb hr rfl, execLaunchPacket_refused hat hop ha hb hr rfl⟩
  · subst hx
    exact waitStep_evaluates hr hq hs
  · subst hx
    exact waitStep_evaluates hr hq hs
  · exact ⟨State.evaluate_aborts hp hw, State.evaluate_satisfied hp hw⟩
  · subst hx
    exact execQuayCopyGranule_moves hr hq hm
  · subst hx
    exact execPacketComplete_over hq hflr hr
  · subst hx
    exact execPacketComplete_cancel hq hflr hr
  · intro q dev tenant key packet records point y s0 _ _ hp hfn hrx
    exact ⟨execExternalLaunch_invalid hp rfl hrx, fun h hpt => ⟨execExternalLaunch_waits hp rfl hfn hrx h hpt,
      execExternalLaunch_keptOut hp rfl hfn hrx h hpt, execExternalLaunch_injects hp rfl hfn hrx h hpt⟩⟩
  · rintro g point packet l kind w rfl hh
    exact if_pos hh

end Sys2Proof.Machine
end

section
/-! PROOFS. What bars a word before it executes (R50, R51, R93, R275). -/

namespace Sys2Proof.Machine

/-- No vector and no engine form is a form of a front-end core (R50). -/
theorem feOk_eq (i : Instr) : feOk i = (!isVector i && !isEngine i && feOk i) := by cases i <;> rfl

theorem feOk_of_isVector {i : Instr} (h : isVector i = true) : feOk i = false := by rw [feOk_eq, h]; rfl
theorem feOk_of_isEngine {i : Instr} (h : isEngine i = true) : feOk i = false := by
  rw [feOk_eq, h, Bool.not_true, Bool.and_false, Bool.false_and]

/-- A register at or above the window bars the word (R93, R267). -/
theorem State.front_outsideWindow {s : State} {i : Instr} {lc : Nat} {f : Frame} (ha : s.agent = .core lc)
    (hf : s.top lc = some f) (hl : f.leader = none) (hg : f.gang = none)
    (hr : ∃ r ∈ srcs i ++ dsts i ++ named i, f.window ≤ r.val) : s.front i = .bad := by
  have hready : s.gangReady lc f = true := by simp only [State.gangReady, hg]
  have hout : ((srcs i ++ dsts i ++ named i).any fun r => decide (f.window ≤ r.val)) = true := by
    simpa only [List.any_eq_true, decide_eq_true_eq] using hr
  simp only [State.front, ha, hf, hl, hready, hout, Option.isSome_none, Bool.not_true, Bool.or_false, Bool.false_eq_true, if_false,
    if_true, ite_self]

/-- What a front-end core or its level lacks is barred (R50, R51). -/
theorem State.front_notOfFrontEnd {s : State} {i : Instr} {n : Nat} (ha : s.agent = .fe n)
    (h : Machine.feOk i = false ∨ ((s.fe n).priv = 0 ∧ plugOk i = false)) : s.front i = .bad := by
  simp only [State.front, ha]
  rcases h with h | ⟨hp, h⟩
  · simp [h]
  · simp [hp, h]

/-- Settles O5: the window bars on a frame, and on a front-end core the forms that it or plug-in level lacks. -/
theorem windowAndLevelBar : Obligations.WindowAndLevelBar := by
  intro s i
  refine ⟨fun lc f ha hf hl hg hr => State.front_outsideWindow ha hf hl hg hr, fun n ha h => State.front_notOfFrontEnd ha ?_⟩
  rcases h with h | h | h | h
  · exact .inl (feOk_of_isVector h)
  · exact .inl (feOk_of_isEngine h)
  · exact .inl h
  · exact .inr h

end Sys2Proof.Machine
end

section
/-! PROOFS. The system registers (R51, R186, R226, R254, R258, R402, R403). -/

namespace Sys2Proof.Machine

/-- The low bits of a word, as a narrower vector. -/
theorem ofNat_bits_low (n : Nat) (w : Word) : BitVec.ofNat n (bits w 0 n) = w.setWidth n := by
  apply BitVec.eq_of_toNat_eq
  simp [bits]

theorem Hart.setFp_none (h : Hart) {n : Nat} (hn : n < 0x020 ∨ 0x023 ≤ n) (w : Word) : h.setFp n w = none := by
  unfold Hart.setFp
  split
  · omega
  · omega
  · omega
  · rfl

/-! ### The registers of a front-end core -/

section
variable {s : State} {k : Nat}

/-- At plug-in level a front-end core has no register of the levels above (R51). -/
theorem State.feReg_barred {n : Nat} (hp : (s.fe k).priv = 0) (h1 : 0x801 ≤ n) (h2 : n ≤ 0x805) : s.feReg k n = none := by
  interval_cases n <;> exact if_pos hp

theorem State.setFeReg_barred {n : Nat} (hp : (s.fe k).priv = 0) (h1 : 0x801 ≤ n) (w : Word) : s.setFeReg k n w = none := by
  have hfp := Hart.setFp_none (s.fe k).h (n := n) (.inr (by omega)) w
  simp only [State.setFeReg, hfp, hp, if_true]

variable (hp : (s.fe k).priv ≠ 0) (w : Word)
include hp

theorem State.setFeReg_prev : s.setFeReg k 0x801 w = some (s.setFe k { s.fe k with prev := w.toNat % 4 }) := by
  refine (if_neg hp).trans ?_
  simp only [bits, pow_zero, Nat.div_one, Nat.reducePow]

theorem State.setFeReg_sel : s.setFeReg k 0x804 w = some (s.setFe k { s.fe k with sel := w.setWidth 32 }) := by
  refine (if_neg hp).trans ?_
  simp only [ofNat_bits_low]

end

/-! ### The registers of a compute core -/

section
variable (s : State) (lc : Nat) (f : Frame)

theorem State.coreReg_fd (n : Fin 8) : s.coreReg lc f (0x028 + n.val) = some ((f.fd.get n).setWidth 64) := by
  have hreg : s.coreReg lc f (0x028 + n.val) = some ((f.fd.toList.getD n.val 0).zeroExtend 64) := by fin_cases n <;> rfl
  simp [hreg, Vector.get]

variable (w : Word)

theorem State.setCoreReg_fd (n : Fin 8) :
    s.setCoreReg lc f (0x028 + n.val) w = some (s.setTop lc { f with fd := f.fd.set n.val (w.setWidth 32) }) := by
  simp only [State.setCoreReg, Hart.setFp_none f.h (n := 0x028 + n.val) (.inr (by omega)) w]
  fin_cases n <;> simp [ofNat_bits_low]

theorem State.setCoreReg_fpstat :
    s.setCoreReg lc f 0x021 w = some (s.setTop lc { f with h := { f.h with fpstat := w.setWidth 5 } }) := by
  simp only [State.setCoreReg, Hart.setFp, ofNat_bits_low]

theorem State.setCoreReg_none {n : Nat} (hn : n < 0x020 ∨ 0x033 ≤ n) : s.setCoreReg lc f n w = none := by
  simp only [State.setCoreReg, Hart.setFp_none f.h (n := n) (by omega) w]
  split
  · omega
  · omega
  · exact dif_neg (by omega)

end

/-! ### `mfs` and `mts` (R402) -/

section
variable {s : State} {d a : Reg} {r : BitVec 12}

theorem exec_mfs_none {v : List Word} (hv : s.front (.mfs d r) = .go v) (hr : s.sysReg r.toNat = none) :
    exec (.mfs d r) s = .next (s.illegal (.mfs d r)) := by
  change execMfs d r s = _
  simp only [execMfs, State.run_go _ _ _ _ hv, hr]

theorem exec_mfs_reads {v : List Word} {w : Word} {t : State} (hv : s.front (.mfs d r) = .go v)
    (hr : s.sysReg r.toNat = some (w, t)) : exec (.mfs d r) s = .next (t.finish (.mfs d r) d w) := by
  change execMfs d r s = _
  simp only [execMfs, State.run_go _ _ _ _ hv, hr]

theorem exec_mts_none {x : Word} (hv : s.front (.mts r a) = .go [x]) (hr : (s.pops (.mts r a)).setSysReg r.toNat x = none) :
    exec (.mts r a) s = .next (s.illegal (.mts r a)) := by
  change execMts r a s = _
  simp only [execMts, State.run_go _ _ _ _ hv, List.getD_cons_zero, hr]

theorem exec_mts_writes {x : Word} {t : State} (hv : s.front (.mts r a) = .go [x])
    (hr : (s.pops (.mts r a)).setSysReg r.toNat x = some t) : exec (.mts r a) s = .next (t.goTo (t.hart.pc + 1)) := by
  change execMts r a s = _
  simp only [execMts, State.run_go _ _ _ _ hv, List.getD_cons_zero, hr]

end

/-- Settles O34: a register by its number is a branch of the model's tables; the FDn, the numbers without a register and the
two instructions by their lemmas. -/
theorem registerValues : Obligations.RegisterValues := by
  refine ⟨⟨fun s k w => ⟨rfl, rfl, rfl, rfl, rfl, rfl, fun n hp h1 h2 => ?_, fun hp => ?_⟩, fun s lc f w _ => ?_⟩,
    fun s d a r x v => ⟨fun hv => ⟨?_, fun w t => ?_⟩, fun hv => ⟨?_, fun t => ?_⟩⟩⟩
  · exact ⟨State.feReg_barred hp h1 h2, State.setFeReg_barred hp h1 w⟩
  · exact ⟨if_neg hp, if_neg hp, if_neg hp, if_neg hp, State.setFeReg_prev hp w, State.setFeReg_sel hp w, if_neg hp, if_neg hp⟩
  · exact ⟨rfl, rfl, rfl, rfl, rfl, rfl, rfl, rfl, rfl, rfl, rfl, rfl, rfl,
      fun n => ⟨s.coreReg_fd lc f n, s.setCoreReg_fd lc f w n⟩, rfl, s.setCoreReg_fpstat lc f w, rfl,
      fun n hn => s.setCoreReg_none lc f w hn⟩
  · exact exec_mfs_none hv
  · exact exec_mfs_reads hv
  · exact exec_mts_none hv
  · exact exec_mts_writes hv

end Sys2Proof.Machine
end

section
/-! PROOFS. The system instructions (R53, R68, R225, R227, R406 to R408, R410). -/

namespace Sys2Proof.Machine

/-! ### What a region stores (R53) -/

/-- A number less its field from bit lo keeps its other bits. -/
theorem testBit_sub_field (n lo len i : Nat) :
    (n - n / 2 ^ lo % 2 ^ len * 2 ^ lo).testBit i = (n.testBit i && !(decide (lo ≤ i) && decide (i < lo + len))) := by
  have hparts : n - n / 2 ^ lo % 2 ^ len * 2 ^ lo = 2 ^ (lo + len) * (n / 2 ^ (lo + len)) + n % 2 ^ lo := by
    have hn := Nat.div_add_mod n (2 ^ (lo + len))
    have hlow : n % 2 ^ (lo + len) = n % 2 ^ lo + n / 2 ^ lo % 2 ^ len * 2 ^ lo := by
      rw [pow_add, Nat.mod_mul, mul_comm (2 ^ lo) (_ % _)]
    omega
  have hlt : n % 2 ^ lo < 2 ^ (lo + len) :=
    (Nat.mod_lt _ (Nat.two_pow_pos lo)).trans_le (Nat.pow_le_pow_right Nat.two_pos (Nat.le_add_right ..))
  rw [hparts, Nat.testBit_two_pow_mul_add _ hlt]
  split
  · next h =>
    rw [Nat.testBit_mod_two_pow]
    by_cases hi : i < lo
    · simp [hi]
    · simp [hi, h, Nat.not_lt.mp hi]
  · next h => rw [Nat.testBit_div_two_pow, Nat.sub_add_cancel (Nat.not_lt.mp h)]; simp [h]

theorem getLsbD_setBits_zero (w : Word) {lo len i : Nat} (hi : i < 64) :
    (setBits w lo len 0).getLsbD i = (w.getLsbD i && !(decide (lo ≤ i) && decide (i < lo + len))) := by
  simp only [setBits, bits, Nat.zero_mod, Nat.zero_mul, Nat.add_zero, BitVec.getLsbD_ofNat, hi, decide_true, Bool.true_and,
    testBit_sub_field, BitVec.testBit_toNat]

/-- A region stores the word with its reserved bits cleared. -/
theorem regionWord_eq (w : Word) : regionWord w = w &&& 0xFBFFFFFFFFFFF000 := by
  have hmask : ∀ i < 64, (0xFBFFFFFFFFFFF000 : Word).getLsbD i =
      (!(decide (58 ≤ i) && decide (i < 58 + 1)) && !(decide (0 ≤ i) && decide (i < 0 + 12))) := by decide
  refine BitVec.eq_of_getLsbD_eq fun i hi => ?_
  rw [BitVec.getLsbD_and, hmask i hi, regionWord, getLsbD_setBits_zero _ hi, getLsbD_setBits_zero _ hi, Bool.and_assoc]

/-! ### OPREQ and `ifence` (R68, R406, R407) -/

section
variable {s : State} {lc : Nat} {f : Frame} {v : List Word} (ha : s.agent = .core lc) (hf : s.top lc = some f)
include ha hf

theorem opreqForm_writes {i : Instr} (hv : s.front i = .go v) (w : BitVec 5) :
    opreqForm i w s = .next ((s.writeOpreq lc w).retire i) := State.withFrame_go s i _ lc f v ha hf hv

theorem exec_ifence_core (hv : s.front .ifence = .go v) (h : f.unacked = 0) :
    exec .ifence s = .next ((s.dropIcache (s.tileOf lc)).retire .ifence) := by
  change execIfence s = _
  rw [execIfence, State.run_go _ _ _ _ hv]
  simp [State.storesDone, ha, hf, h]

end

/-! ### A front-end core: `ifence` and `pmpw` (R53, R407, R410) -/

section
variable {s : State} {k : Nat} (ha : s.agent = .fe k)
include ha

theorem exec_ifence_fe {v : List Word} (hv : s.front .ifence = .go v) : exec .ifence s = .next (s.retire .ifence) := by
  change execIfence s = _
  rw [execIfence, State.run_go _ _ _ _ hv]
  simp [State.storesDone, ha]

variable {n : Fin 16} {a : Reg} {x : Word} (hv : s.front (.pmpw n a) = .go [x])
include hv

theorem exec_pmpw_bad (hb : badRegion x = true) : exec (.pmpw n a) s = .next (s.illegal (.pmpw n a)) := by
  change execPmpw n a s = _
  rw [execPmpw, State.run_go _ _ _ _ hv]
  simp [ha, hb]

variable (hb : badRegion x = false)
include hb

theorem exec_pmpw_locked (hp : (s.fe k).priv ≠ 2) (hl : bit ((s.fe k).regions.get n) 62 = true) :
    exec (.pmpw n a) s = .next (s.trap PROT (Config.pmpwProtVal s.tick)) := by
  change execPmpw n a s = _
  rw [execPmpw, State.run_go _ _ _ _ hv]
  simp [ha, hb, hp, hl]

theorem exec_pmpw_writes (h : (s.fe k).priv = 2 ∨ bit ((s.fe k).regions.get n) 62 = false) :
    exec (.pmpw n a) s =
      .next ((s.setFe k { s.fe k with regions := (s.fe k).regions.set n.val (regionWord x) }).retire (.pmpw n a)) := by
  have hopen : ¬ ((s.fe k).priv ≠ 2 ∧ bit ((s.fe k).regions.get n) 62 = true) := by
    rintro ⟨hp, hl⟩
    rcases h with h | h
    · exact hp h
    · simp [hl] at h
  change execPmpw n a s = _
  rw [execPmpw, State.run_go _ _ _ _ hv]
  simp [ha, hb, hopen]

end

/-! ### `trap` and `brk` (R225, R227, R408) -/

section
variable {s : State} {i : Instr} {v : List Word} (hv : s.front i = .go v) (cls : Nat) (imm : BitVec 12)
include hv

theorem trapForm_ignored (h : s.ignores cls = true) :
    trapForm i cls imm s = .next ((s.ignore cls (imm.setWidth 64)).retire i) := by
  rw [trapForm, State.run_go _ _ _ _ hv]
  simp [h]

theorem trapForm_taken (h : s.ignores cls = false) : trapForm i cls imm s = .next (s.trap cls (imm.setWidth 64)) := by
  rw [trapForm, State.run_go _ _ _ _ hv]
  simp [h]

end

/-- Settles O35: each clause is the law of its instruction; `opreq` and `opreq auto`, and `trap` and `brk`, share a form. -/
theorem systemResults : Obligations.SystemResults := by
  intro s i n a x v
  refine ⟨fun lc f ha hf => ⟨fun hv => ?_, fun hv => ?_, fun hv hu => ?_⟩,
    fun k ha => ⟨fun hv => ?_, fun hv => ⟨?_, ?_, ?_⟩⟩, fun hv => ⟨?_, ?_⟩, fun hv => ⟨?_, ?_⟩⟩
  · exact opreqForm_writes ha hf hv _
  · exact opreqForm_writes ha hf hv _
  · exact exec_ifence_core ha hf hv hu
  · exact exec_ifence_fe ha hv
  · exact exec_pmpw_bad ha hv
  · exact fun hb hp hl => ⟨_, exec_pmpw_locked ha hv hb hp hl⟩
  · exact fun hb h => regionWord_eq x ▸ exec_pmpw_writes ha hv hb h
  · exact trapForm_ignored hv USER i
  · exact trapForm_taken hv USER i
  · exact trapForm_ignored hv BRK i
  · exact trapForm_taken hv BRK i

end Sys2Proof.Machine
end

section
/-! PROOFS. Plug-in calls and their ends (R55, R56). -/

namespace Sys2Proof.Machine

/-! ### What the result of a call changes -/

/-- A state differs from another in what the result of a call can change: the weight of a landing, what the LAUNCH of a function
or a VCP waits for, and the votes (R55). -/
def State.Answered (s t : State) : Prop := ∃ a b c d, t = { s with feTab := a, funcs := b, vcps := c, power := d }

theorem State.Answered.refl (s : State) : s.Answered s := ⟨_, _, _, _, rfl⟩

theorem State.Answered.trans {s t u : State} (h : s.Answered t) (k : t.Answered u) : s.Answered u := by
  obtain ⟨_, _, _, _, rfl⟩ := h
  obtain ⟨_, _, _, _, rfl⟩ := k
  exact ⟨_, _, _, _, rfl⟩

theorem State.Answered.plugin {s t : State} (h : s.Answered t) (n : Nat) : t.plugin n = s.plugin n := by
  obtain ⟨_, _, _, _, rfl⟩ := h
  rfl

theorem State.policyResult_answered (s : State) (n : Nat) (c : Policy) (w : Option Word) : s.Answered (s.policyResult n c w) := by
  cases c with
  | letIn f v =>
    simp only [State.policyResult, State.setAdmit]
    split <;> exact ⟨_, _, _, _, rfl⟩
  | pmap f v level =>
    simp only [State.policyResult, State.setPmap]
    split <;> exact ⟨_, _, _, _, rfl⟩
  | opvote p => exact ⟨_, _, _, _, rfl⟩
  | lweight g st =>
    cases w with
    | none => exact .refl s
    | some w =>
      simp only [State.policyResult, State.setWeight]
      split <;> exact ⟨_, _, _, _, rfl⟩
  | dropped code => exact .refl s

theorem State.foldl_policyResult_answered (s : State) (n : Nat) (l : List Call) (w : Option Word) :
    s.Answered (l.foldl (fun s c => s.policyResult n c.what w) s) :=
  List.foldlRecOn l _ (.refl s) fun t h c _ => h.trans (t.policyResult_answered n c.what w)

theorem State.Answered.prog {s t : State} (h : s.Answered t) : t.prog = s.prog := by obtain ⟨_, _, _, _, rfl⟩ := h; rfl

/-! ### A call that fails -/

/-- A plug-in once a call of it has failed: the 16th failure in a row disables it. -/
def Plugin.failed (x : Plugin) : Plugin :=
  let off := x.disabled || decide (16 ≤ x.failures + 1)
  { x with failures := x.failures + 1, disabled := off, queue := if off then [] else x.queue }

theorem State.plugFail_eq (s : State) (n code : Nat) :
    s.plugFail n code =
      let t := (s.setPlugin n (s.plugin n).failed).count code n
      if (s.plugin n).failed.disabled then (s.plugin n).queue.foldl (fun s c => s.policyResult n c.what none) t else t := rfl

theorem State.plugFail_answered (s : State) (n code : Nat) :
    ((s.setPlugin n (s.plugin n).failed).count code n).Answered (s.plugFail n code) := by
  rw [State.plugFail_eq]
  dsimp only
  split
  · exact State.foldl_policyResult_answered ..
  · exact .refl _

theorem State.plugin_plugFail (s : State) (n code : Nat) : (s.plugFail n code).plugin n = (s.plugin n).failed :=
  ((s.plugFail_answered n code).plugin n).trans (s.plugin_setPlugin n _)

/-! ### The end of a call -/

/-- A state differs from another in what the end of a call can change: the plug-ins, the counters, and what its result changes. -/
def State.CallOver (s t : State) : Prop :=
  ∃ a b c d e f, t = { s with feTab := a, funcs := b, vcps := c, power := d, plugins := e, counters := f }

theorem State.CallOver.refl (s : State) : s.CallOver s := ⟨_, _, _, _, _, _, rfl⟩

theorem State.CallOver.trans {s t u : State} (h : s.CallOver t) (k : t.CallOver u) : s.CallOver u := by
  obtain ⟨_, _, _, _, _, _, rfl⟩ := h
  obtain ⟨_, _, _, _, _, _, rfl⟩ := k
  exact ⟨_, _, _, _, _, _, rfl⟩

theorem State.Answered.callOver {s t : State} (h : s.Answered t) : s.CallOver t := by
  obtain ⟨_, _, _, _, rfl⟩ := h
  exact ⟨_, _, _, _, _, _, rfl⟩

theorem State.CallOver.fe {s t : State} (h : s.CallOver t) (k : Nat) : t.fe k = s.fe k := by
  obtain ⟨_, _, _, _, _, _, rfl⟩ := h
  rfl

theorem State.CallOver.mem {s t : State} (h : s.CallOver t) : t.mem = s.mem := by obtain ⟨_, _, _, _, _, _, rfl⟩ := h; rfl
theorem State.CallOver.cores {s t : State} (h : s.CallOver t) : t.cores = s.cores := by obtain ⟨_, _, _, _, _, _, rfl⟩ := h; rfl

theorem State.setPlugin_callOver (s : State) (n : Nat) (x : Plugin) : s.CallOver (s.setPlugin n x) := ⟨_, _, _, _, _, _, rfl⟩

theorem State.plugFail_callOver (s : State) (n code : Nat) : s.CallOver (s.plugFail n code) :=
  .trans ⟨_, _, _, _, _, _, rfl⟩ (s.plugFail_answered n code).callOver

theorem State.callEnds_callOver (s : State) (n : Nat) (r : PlugRes) : s.CallOver (s.callEnds n r).2 := by
  cases r with
  | value w => exact s.setPlugin_callOver ..
  | fault => exact s.plugFail_callOver ..
  | overrun => exact s.plugFail_callOver ..

/-- A plug-in whose oldest call is over: no call of it runs, and no result of it waits. -/
def Plugin.freed (x : Plugin) (l : List Call) : Plugin := { x with queue := l, running := none, returned := none }

/-- A plug-in whose oldest call has given a value. -/
def Plugin.served (x : Plugin) (l : List Call) : Plugin := { x.freed l with failures := 0 }

/-- The oldest call of a plug-in leaves its queue, those of a list behind it. -/
def State.withoutCall (s : State) (n : Nat) (l : List Call) : State := s.setPlugin n ((s.plugin n).freed l)

@[simp] theorem State.plugin_withoutCall (s : State) (n : Nat) (l : List Call) :
    (s.withoutCall n l).plugin n = (s.plugin n).freed l :=
  s.plugin_setPlugin n _

/-- A call that gives no value fails. -/
theorem State.callEnds_failed (s : State) (n : Nat) {r : PlugRes} (hr : ∀ w, r ≠ .value w) :
    ∃ code, s.callEnds n r = (none, s.plugFail n code) := by
  cases r with
  | value w => exact absurd rfl (hr w)
  | fault => exact ⟨_, rfl⟩
  | overrun => exact ⟨_, rfl⟩

theorem State.takeResult_eq {s : State} {n : Nat} {c : Call} {l : List Call} (hq : (s.plugin n).queue = c :: l) (r : PlugRes) :
    s.takeResult n r =
      ((s.withoutCall n l).callEnds n r).2.policyResult n c.what ((s.withoutCall n l).callEnds n r).1 := by
  simp only [State.takeResult, hq, State.withoutCall, Plugin.freed]

theorem State.takeResult_callOver (s : State) (n : Nat) (r : PlugRes) : s.CallOver (s.takeResult n r) := by
  cases hq : (s.plugin n).queue with
  | nil => simp only [State.takeResult, hq]; exact .refl s
  | cons c l =>
    rw [State.takeResult_eq hq]
    exact (s.setPlugin_callOver ..).trans ((State.callEnds_callOver ..).trans (State.policyResult_answered ..).callOver)

theorem State.noteReturn_callOver (s : State) (core cls : Nat) (val : Word) : s.CallOver (s.noteReturn core cls val) := by
  unfold State.noteReturn
  split
  · exact .refl s
  · simp only [State.hasResult]
    split
    · exact s.takeResult_callOver ..
    · exact s.setPlugin_callOver ..

/-! ### A result that is taken -/

section
variable {s : State} {n : Nat} {c : Call} {l : List Call} (hq : (s.plugin n).queue = c :: l)
include hq

theorem State.madeCall_returned {r : PlugRes} (hr : (s.plugin n).returned = some r) : s.madeCall n c.what r = s.takeResult n r := by
  simp [State.madeCall, State.hasReturned, hq, hr]

/-- The result of a call that gave a value is taken in a state in which the plug-in has been served. -/
theorem State.takeResult_value (w : Word) : ∃ t : State, t.plugin n = (s.plugin n).served l ∧ t.prog = s.prog ∧
    s.takeResult n (.value w) = t.policyResult n c.what (some w) := by
  refine ⟨((s.withoutCall n l).callEnds n (.value w)).2, ?_, rfl, State.takeResult_eq hq _⟩
  simp only [State.callEnds, State.plugin_setPlugin, State.plugin_withoutCall, Plugin.served]

/-- The fallback of a call that failed is taken in a state in which the plug-in has failed. -/
theorem State.takeResult_failed {r : PlugRes} (hr : ∀ w, r ≠ .value w) :
    ∃ t : State, t.plugin n = ((s.plugin n).freed l).failed ∧ s.takeResult n r = t.policyResult n c.what none := by
  obtain ⟨code, hc⟩ := (s.withoutCall n l).callEnds_failed n hr
  exact ⟨(s.withoutCall n l).plugFail n code, by rw [State.plugin_plugFail, State.plugin_withoutCall],
    by rw [State.takeResult_eq hq, hc]⟩

end

/-! ### What each result brings -/

theorem State.setAdmit_vcp (s : State) {f v : Nat} (hv : v < 16) (b : Bool) : ((s.setAdmit f v b).vcp f v).admitted = some b := by
  rw [State.setAdmit, if_neg (by omega), State.vcp_setVcp]

theorem State.setPmap_vcp (s : State) {f v : Nat} (hv : v < 16) (level dst : Nat) :
    tfind ((s.setPmap f v level dst).vcp f v).pmap level = some dst := by
  rw [State.setPmap, if_neg (by omega), State.vcp_setVcp]
  exact tfind_tput_same ..

theorem bits_setBits_byte (w : Word) {k : Nat} (hk : k ≤ 255) : bits (setBits w 0 8 k) 0 8 = k := by
  simp only [bits, setBits, BitVec.toNat_ofNat]
  omega

theorem State.setWeight_entry (s : State) (g st : Nat) {w : Word} (hw : w.toNat ≤ 255) :
    bits ((s.setWeight g st (some w)).entry 5 (64 * g + st)) 0 8 = w.toNat := by
  simp only [State.setWeight, hw, if_true, State.entry_setEntry]
  exact bits_setBits_byte _ hw

theorem State.setVote_votes (s : State) (p : Nat) {w : Word} (hw : w.toNat < 16) :
    tfind (s.setVote p (some w)).power.votes p = some w.toNat := by
  simp [State.setVote, hw]

/-! ### The clauses of a result -/

section
variable {s : State} {n : Nat} {c : Call} {l : List Call} (hq : (s.plugin n).queue = c :: l)
include hq

section
variable {w : Word} (hr : (s.plugin n).returned = some (.value w))
include hr

theorem exec_admitCall_value {f v : Nat} (hv : v < 16) (hn : s.fnPlug f = n) (hc : c.what = .letIn f v) :
    ∃ t, exec (.admitCall f v (.value w)) s = .next t ∧ (t.vcp f v).admitted = some (w == 0) ∧
      t.plugin n = (s.plugin n).served l := by
  obtain ⟨t, hp, -, ht⟩ := State.takeResult_value hq w
  refine ⟨t.policyResult n c.what (some w), ?_, ?_, ?_⟩
  · rw [← ht, ← State.madeCall_returned hq hr, hc, ← hn]
    rfl
  · rw [hc]
    exact t.setAdmit_vcp hv _
  · rw [(t.policyResult_answered ..).plugin, hp]

theorem exec_pmap_value {f v level : Nat} (hv : v < 16) (hn : s.fnPlug f = n) (hc : c.what = .pmap f v level) :
    ∃ t, exec (.pmap f v level (.value w)) s = .next t ∧
      tfind (t.vcp f v).pmap level = some ((s.plugin n).granted level (some w)) ∧ t.plugin n = (s.plugin n).served l := by
  obtain ⟨t, hp, -, ht⟩ := State.takeResult_value hq w
  refine ⟨t.policyResult n c.what (some w), ?_, ?_, ?_⟩
  · rw [← ht, ← State.madeCall_returned hq hr, hc, ← hn]
    rfl
  · have hg : (t.plugin n).granted level (some w) = (s.plugin n).granted level (some w) := by rw [hp]; rfl
    rw [hc, ← hg]
    exact t.setPmap_vcp hv level _
  · rw [(t.policyResult_answered ..).plugin, hp]

theorem exec_lweight_value {g st : Nat} (hn : s.fnPlug (s.fnOf g) = n) (hc : c.what = .lweight g st) (hw : w.toNat ≤ 255) :
    ∃ t, exec (.lweight g st (.value w)) s = .next t ∧ bits (t.entry 5 (64 * g + st)) 0 8 = w.toNat ∧ t.prog = s.prog := by
  obtain ⟨t, -, hp, ht⟩ := State.takeResult_value hq w
  refine ⟨t.policyResult n c.what (some w), ?_, ?_, ?_⟩
  · rw [← ht, ← State.madeCall_returned hq hr, hc, ← hn]
    rfl
  · rw [hc]
    exact t.setWeight_entry g st hw
  · rw [(t.policyResult_answered ..).prog, hp]

theorem exec_opvote_value {p : Nat} (hn : s.partPlug p = some n) (hc : c.what = .opvote p) (hw : w.toNat < 16) :
    ∃ t, exec (.opvote p (.value w)) s = .next t ∧ tfind t.power.votes p = some w.toNat := by
  obtain ⟨t, -, -, ht⟩ := State.takeResult_value hq w
  refine ⟨t.policyResult n c.what (some w), ?_, ?_⟩
  · change execOpvote p (.value w) s = _
    rw [← ht, ← State.madeCall_returned hq hr, hc, execOpvote, hn]
  · rw [hc]
    exact t.setVote_votes p hw

end

theorem exec_admitCall_fault {f v : Nat} (hv : v < 16) (hr : (s.plugin n).returned = some .fault) (hn : s.fnPlug f = n)
    (hc : c.what = .letIn f v) : ∃ t, exec (.admitCall f v .fault) s = .next t ∧ (t.vcp f v).admitted = some false ∧
      t.plugin n = ((s.plugin n).freed l).failed := by
  obtain ⟨t, hp, ht⟩ := State.takeResult_failed hq (r := .fault) nofun
  refine ⟨t.policyResult n c.what none, ?_, ?_, ?_⟩
  · rw [← ht, ← State.madeCall_returned hq hr, hc, ← hn]
    rfl
  · rw [hc]
    exact t.setAdmit_vcp hv _
  · rw [(t.policyResult_answered ..).plugin, hp]

/-- A call past its budget: its core is at scheduler level, the plug-in has failed, and an ADMIT keeps its LAUNCH out. -/
theorem exec_pluginBudgetOverrun {core : Nat} {ts : Word} (hr : (s.plugin n).running = some (core, ts))
    (hb : Config.callBudget c.what.code < ((s.fe core).cycle - ts).toNat) :
    ∃ t, exec (.pluginBudgetOverrun n) s = .next t ∧ (t.fe core).priv = 1 ∧ t.plugin n = ((s.plugin n).freed l).failed ∧
      ∀ f v, v < 16 → c.what = .letIn f v → (t.vcp f v).admitted = some false := by
  let y := s.fe core
  let s1 := s.setFe core { y with
    priv := 1, h := { y.h with pc := (Config.feTrapEntry core 1).toNat / 4, sent := [], stalled := false } }
  have hpast : s.pastBudget (s.plugin n) = true := by simp only [State.pastBudget, hr, hq, hb, decide_true]
  obtain ⟨t, hp, ht⟩ := State.takeResult_failed (s := s1) hq (r := .overrun) nofun
  refine ⟨s1.takeResult n .overrun, ?_, ?_, ?_, fun f v hv hc => ?_⟩
  · change execPluginBudgetOverrun n s = _
    simp only [execPluginBudgetOverrun, hr, hpast, Bool.not_true, Bool.false_eq_true, if_false]
    rfl
  · rw [(s1.takeResult_callOver n .overrun).fe, State.fe_setFe]
  · rw [ht, (t.policyResult_answered ..).plugin, hp]
    rfl
  · rw [ht, hc]
    exact t.setAdmit_vcp hv _

end

/-! ### Making a call -/

/-- The address that a call is entered at is that of a word (R55). -/
theorem callEntry_word (entry code : Nat) :
    (BitVec.ofNat 52 ((Config.callEntry entry code).toNat / 4 * 4)).toNat = (Config.callEntry entry code).toNat / 4 * 4 := by
  have := (Config.callEntry entry code).isLt
  rw [BitVec.toNat_ofNat]
  omega

theorem FeCore.enterPlugin_epc (x : FeCore) (n entry code : Nat) (args : List Word) :
    (x.enterPlugin n entry code args).epc.toNat = (Config.callEntry entry code).toNat / 4 * 4 := callEntry_word entry code

theorem FeCore.enterPlugin_pc (x : FeCore) (n entry code : Nat) (args : List Word) :
    (x.enterPlugin n entry code args).h.pc = (Config.callEntry entry code).toNat / 4 := by
  simp only [FeCore.enterPlugin, callEntry_word, Nat.mul_div_cancel _ (show 0 < 4 by decide)]

theorem FeCore.enterPlugin_argument (x : FeCore) (n entry code : Nat) {args : List Word} {i : Nat} {a : Word} (hi : i < 31)
    (ha : args[i]? = some a) : (x.enterPlugin n entry code args).h.regs.toList.getD (i + 1) 0 = a := by
  have hlt : i < args.length := (List.getElem?_eq_some_iff.mp ha).1
  have hreg : i + 1 < 32 := by omega
  simp [FeCore.enterPlugin, ha, hreg, Nat.succ_le_of_lt hlt]

/-- A call that can be made is made (R55). -/
theorem State.makeCall_made {s : State} {n core : Nat} {c : Call} {l : List Call} (hcore : core < 16)
    (hq : (s.plugin n).queue = c :: l) (hu : (s.plugin n).usable = true) (hb : (s.plugin n).busy = false)
    (hp : (s.fe core).priv = 1) (hr : (s.fe core).released = true) (hh : (s.fe core).halted = false) :
    s.makeCall n core = (s.setFe core ((s.fe core).enterPlugin n (s.plugin n).entry c.what.code c.args)).setPlugin n
      { s.plugin n with running := some (core, (s.fe core).cycle) } := by
  simp [State.makeCall, hq, hu, hb, hp, hr, hh, hcore]

/-- Settles O47: a call is made by one law, each result is the law of its kind, and a fault and an overrun fail the plug-in. -/
theorem pluginCalls : Obligations.PluginCalls := by
  rintro s f v level g st p n core w ts x c l hv hcore rfl hq
  refine ⟨fun hu hb hp hr hh => ?_, fun hr => ⟨exec_admitCall_value hq hr hv, exec_pmap_value hq hr hv,
    exec_lweight_value hq hr, exec_opvote_value hq hr⟩, fun hr hn hc => ?_, fun hr hb => ?_⟩
  · rw [State.makeCall_made hcore hq hu hb hp hr hh]
    simp only [State.setPlugin_fe_frame, State.fe_setFe]
    exact ⟨rfl, rfl, FeCore.enterPlugin_epc .., FeCore.enterPlugin_pc ..,
      fun i hi a ha => FeCore.enterPlugin_argument _ _ _ _ hi ha, State.plugin_setPlugin .., rfl⟩
  · obtain ⟨t, he, ha, hp⟩ := exec_admitCall_fault hq hv hr hn hc
    exact ⟨t, he, ha, by rw [hp]; rfl⟩
  · obtain ⟨t, he, hlevel, hp, ha⟩ := exec_pluginBudgetOverrun hq hr hb
    refine ⟨t, he, hlevel, ?_, ?_, ?_, ha f v hv⟩
    · rw [hp]; rfl
    · rw [hp]
      simp [Plugin.failed, Plugin.freed]
    · rw [hp]
      simp [Plugin.failed, Plugin.freed]

end Sys2Proof.Machine
end

section
/-! PROOFS. Traps of a front-end core and `eret` (R51, R235, R409). -/

namespace Sys2Proof.Machine

/-! ### A core halts -/

theorem State.haltFe_fe (s : State) (n k : Nat) : (s.haltFe n).fe k = (s.setFe n { s.fe n with halted := true }).fe k := by
  simp only [State.haltFe]
  split <;> rfl

theorem State.haltFe_mem (s : State) (n : Nat) : (s.haltFe n).mem = s.mem := by
  simp only [State.haltFe]
  split <;> rfl

theorem State.haltFe_cores (s : State) (n : Nat) : (s.haltFe n).cores = s.cores := by
  simp only [State.haltFe]
  split <;> rfl

/-! ### A trap -/

/-- A front-end core once a trap is noted: where it came from, its level, its cause and its value. -/
def FeCore.trapped (c : FeCore) (cls : Nat) (val : Word) : FeCore :=
  { c with
    epc := BitVec.ofNat 52 (c.h.pc * 4), prev := c.priv
    h := { c.h with trapcause := causeWord false c.h.pc false 0 0 cls, trapval := val, sent := [], stalled := false } }

/-- A front-end core of number n at the level above the one it came from. -/
def FeCore.raised (c : FeCore) (n : Nat) : FeCore :=
  { c with priv := c.priv + 1, h := { c.h with pc := (Config.feTrapEntry n (c.priv + 1)).toNat / 4 } }

/-- The state in which a trap of a front-end core is noted: at plug-in level the call that ran there is over (R55). -/
def State.callLeft (s : State) (n cls : Nat) (val : Word) : State := if (s.fe n).priv = 0 then s.noteReturn n cls val else s

theorem State.callLeft_callOver (s : State) (n cls : Nat) (val : Word) : s.CallOver (s.callLeft n cls val) := by
  unfold State.callLeft
  split
  · exact s.noteReturn_callOver ..
  · exact .refl s

section
variable {s : State} {n : Nat} (cls : Nat) (val : Word)

theorem State.feTrap_halts (hp : (s.fe n).priv = 2) :
    s.feTrap n cls val = ((s.callLeft n cls val).setFe n ((s.fe n).trapped cls val)).haltFe n := if_pos hp

theorem State.feTrap_rises (hp : (s.fe n).priv ≠ 2) :
    s.feTrap n cls val = (s.callLeft n cls val).setFe n (((s.fe n).trapped cls val).raised n) := if_neg hp

/-- A trap of a front-end core changes no memory, no compute core and no other front-end core. -/
theorem State.feTrap_frame : (s.feTrap n cls val).mem = s.mem ∧ (s.feTrap n cls val).cores = s.cores ∧
    ∀ k, k ≠ n → (s.feTrap n cls val).fe k = s.fe k := by
  have hleft := s.callLeft_callOver n cls val
  by_cases hp : (s.fe n).priv = 2
  · rw [State.feTrap_halts cls val hp]
    refine ⟨(State.haltFe_mem ..).trans hleft.mem, (State.haltFe_cores ..).trans hleft.cores, fun k hk => ?_⟩
    rw [State.haltFe_fe, State.fe_setFe_ne _ _ _ _ hk, State.fe_setFe_ne _ _ _ _ hk, hleft.fe]
  · rw [State.feTrap_rises cls val hp]
    exact ⟨hleft.mem, hleft.cores, fun k hk => (State.fe_setFe_ne _ _ _ _ hk).trans (hleft.fe k)⟩

end

/-! ### `eret` -/

section
variable {s : State} {n : Nat} {v : List Word} (ha : s.agent = .fe n) (hv : s.front .eret = .go v)
include ha hv

theorem exec_eret_returns (h : ¬ ((s.fe n).prev > (s.fe n).priv ∨ (s.fe n).prev = 3)) :
    exec .eret s = .next (s.countRetired.feReturn n) := by
  change execEret s = _
  simp only [execEret, State.run_go _ _ _ _ hv, ha, h, if_false]

theorem exec_eret_barred (h : (s.fe n).prev > (s.fe n).priv ∨ (s.fe n).prev = 3) : exec .eret s = .next (s.illegal .eret) := by
  change execEret s = _
  simp only [execEret, State.run_go _ _ _ _ hv, ha, h, if_true]

end

theorem State.countRetired_fe {s : State} {n : Nat} (ha : s.agent = .fe n) :
    s.countRetired = s.setFe n { s.fe n with instret := (s.fe n).instret + 1 } := by
  simp only [State.countRetired, ha]

/-- Settles O56: below monitor level the core rises, at monitor level it halts, and the rest is what neither touches. -/
theorem frontEndTraps : Obligations.FrontEndTraps := by
  intro s n cls val v _ ha c t
  have ht : t = s.feTrap n cls val := by simp only [t, State.trap, ha]
  obtain ⟨hmem, hcores, hfes⟩ := State.feTrap_frame (s := s) (n := n) cls val
  refine ⟨fun hp => ?_, fun hp => ?_, ht ▸ hmem, ht ▸ hcores, ht ▸ hfes,
    fun hv => ⟨fun h1 h2 => ?_, exec_eret_barred ha hv⟩⟩
  · rw [ht, State.feTrap_rises cls val (Nat.ne_of_lt hp), State.fe_setFe]
    exact ⟨rfl, rfl, rfl, rfl, rfl, rfl, rfl, rfl⟩
  · rw [ht, State.feTrap_halts cls val hp, State.haltFe_fe, State.fe_setFe]
  · refine ⟨_, exec_eret_returns ha hv (not_or.mpr ⟨Nat.not_lt.mpr h1, h2⟩), ?_⟩
    simp only [State.feReturn, State.countRetired_fe ha, State.fe_setFe]
    exact ⟨rfl, rfl, rfl, rfl, rfl, fun k hk => (State.fe_setFe_ne _ _ _ _ hk).trans (State.fe_setFe_ne _ _ _ _ hk)⟩

end Sys2Proof.Machine
end

section
/-! PROOFS. What a rail's following of its tiles' targets changes (R67, R73, R74). -/

namespace Sys2Proof.Machine

/-! ### Tiles keep all but their pace, rails all but their level -/

/-- A tile differs from another in its frequency, the switch in progress and its meter alone. -/
def Tile.Paced (x y : Tile) : Prop := ∃ c w e, y = { x with cur := c, switching := w, energy := e }

/-- A rail differs from another in its level and its charging alone. -/
def Rail.Paced (x y : Rail) : Prop :=
  ∃ c h g v l n, y = { x with code := c, holding := h, goal := g, setter := v, targets := l, charged := n }

/-- Every tile keeps all but its pace, every rail all but its level. -/
def State.Paced (s t : State) : Prop := (∀ n, (s.tile n).Paced (t.tile n)) ∧ ∀ r, (s.rail r).Paced (t.rail r)

theorem Tile.Paced.refl (x : Tile) : x.Paced x := ⟨_, _, _, rfl⟩
theorem Rail.Paced.refl (x : Rail) : x.Paced x := ⟨_, _, _, _, _, _, rfl⟩

theorem Tile.Paced.trans {x y z : Tile} (h : x.Paced y) (k : y.Paced z) : x.Paced z := by
  obtain ⟨_, _, _, rfl⟩ := h
  obtain ⟨_, _, _, rfl⟩ := k
  exact ⟨_, _, _, rfl⟩

theorem Rail.Paced.trans {x y z : Rail} (h : x.Paced y) (k : y.Paced z) : x.Paced z := by
  obtain ⟨_, _, _, _, _, _, rfl⟩ := h
  obtain ⟨_, _, _, _, _, _, rfl⟩ := k
  exact ⟨_, _, _, _, _, _, rfl⟩

theorem Tile.Paced.sleep {x y : Tile} (h : x.Paced y) : y.sleep = x.sleep := by
  obtain ⟨_, _, _, rfl⟩ := h
  rfl

theorem Rail.Paced.grants {x y : Rail} (h : x.Paced y) : y.grants = x.grants := by
  obtain ⟨_, _, _, _, _, _, rfl⟩ := h
  rfl

theorem State.Paced.refl (s : State) : s.Paced s := ⟨fun _ => .refl _, fun _ => .refl _⟩

theorem State.Paced.trans {s t u : State} (h : s.Paced t) (k : t.Paced u) : s.Paced u :=
  ⟨fun n => (h.1 n).trans (k.1 n), fun r => (h.2 r).trans (k.2 r)⟩

theorem State.Paced.sleep {s t : State} (h : s.Paced t) (n : Nat) : (t.tile n).sleep = (s.tile n).sleep := (h.1 n).sleep
theorem State.Paced.grants {s t : State} (h : s.Paced t) (r : Nat) : (t.rail r).grants = (s.rail r).grants := (h.2 r).grants

/-! ### Single updates -/

theorem State.setTile_paced (s : State) {n : Nat} {x : Tile} (h : (s.tile n).Paced x) : s.Paced (s.setTile n x) := by
  refine ⟨fun k => ?_, fun _ => .refl _⟩
  by_cases hk : k = n
  · rwa [hk, State.tile_setTile]
  · rw [State.tile_setTile_ne _ _ _ _ hk]
    exact .refl _

theorem State.setRail_paced (s : State) {r : Nat} {x : Rail} (h : (s.rail r).Paced x) : s.Paced (s.setRail r x) := by
  refine ⟨fun _ => .refl _, fun k => ?_⟩
  by_cases hk : k = r
  · rwa [hk, State.rail_setRail]
  · rw [State.rail_setRail_ne _ _ _ _ hk]
    exact .refl _

theorem State.addEnergy_paced (s : State) (n k : Nat) : s.Paced (s.addEnergy n k) := s.setTile_paced ⟨_, _, _, rfl⟩

theorem State.switchTile_paced (s : State) (n : Nat) : s.Paced (s.switchTile n) := by
  unfold State.switchTile
  dsimp only
  split
  · exact s.setTile_paced ⟨_, _, _, rfl⟩
  · split
    · exact s.setTile_paced ⟨_, _, _, rfl⟩
    · exact .refl s

theorem State.switchTiles_paced (s : State) (r : Nat) : s.Paced (s.switchTiles r) :=
  List.foldlRecOn _ _ (.refl s) fun t h n _ => h.trans (t.switchTile_paced n)

/-- Charging a rail changes meters, and notes the step. -/
theorem State.chargeRail_cases (s : State) (r : Nat) : s.chargeRail r = s ∨ ∃ t, s.Paced t ∧ t.rails = s.rails ∧
    s.chargeRail r = t.setRail r { t.rail r with charged := s.tick } := by
  unfold State.chargeRail
  dsimp only
  split
  · exact .inl rfl
  · refine .inr ⟨_, .trans (.trans ?_ (State.addEnergy_paced ..)) (State.addEnergy_paced ..), ?_, rfl⟩
    · exact List.foldlRecOn _ _ (.refl s) fun t h n _ => h.trans (t.addEnergy_paced n _)
    · exact List.foldlRecOn (motive := fun t : State => t.rails = s.rails) _ _ rfl fun _ h _ _ => h

theorem State.chargeRail_paced (s : State) (r : Nat) : s.Paced (s.chargeRail r) := by
  rcases s.chargeRail_cases r with h | ⟨t, ht, -, h⟩
  · rw [h]
    exact .refl s
  · rw [h]
    exact ht.trans (t.setRail_paced ⟨_, _, _, _, _, _, rfl⟩)

/-- A change of level that is one of pace keeps the rest of the rail. -/
theorem State.setLevel_paced (s : State) (r : Nat) {f : Rail → Rail} (hf : ∀ x : Rail, x.Paced (f x)) : s.Paced (s.setLevel r f) :=
  (s.chargeRail_paced r).trans (State.setRail_paced _ ((hf _).trans ⟨_, _, _, _, _, _, rfl⟩))

theorem State.retune_paced (s : State) (r : Nat) : s.Paced (s.retune r) := by
  refine (s.setLevel_paced r fun x => ?_).trans (State.switchTiles_paced ..)
  split <;> exact ⟨_, _, _, _, _, _, rfl⟩

/-! ### The level of a rail -/

theorem State.rail_switchTile (s : State) (n r : Nat) : (s.switchTile n).rail r = s.rail r := by
  unfold State.switchTile
  dsimp only
  split
  · rfl
  · split <;> rfl

theorem State.rail_switchTiles (s : State) (k r : Nat) : (s.switchTiles k).rail r = s.rail r :=
  List.foldlRecOn (motive := fun t : State => t.rail r = s.rail r) _ _ rfl fun t h n _ => (t.rail_switchTile n r).trans h

/-- Charging a rail's tiles leaves the rail but for the step of its last charge. -/
theorem State.rail_chargeRail (s : State) (r : Nat) : ∃ n, (s.chargeRail r).rail r = { s.rail r with charged := n } := by
  rcases s.chargeRail_cases r with h | ⟨t, -, ht, h⟩
  · exact ⟨_, congrArg (State.rail · r) h⟩
  · have hr : t.rail r = s.rail r := congrArg (tget Rail.reset · r) ht
    exact ⟨s.tick, by rw [h, State.rail_setRail, hr]⟩

/-- A rail whose level changes, and whose tiles then switch, is as the change has it, charged anew. -/
theorem State.rail_setLevel (s : State) (r : Nat) (f : Rail → Rail) :
    ∃ n l, (s.setLevel r f).rail r = { f { s.rail r with charged := n } with targets := l } := by
  obtain ⟨n, h⟩ := s.rail_chargeRail r
  exact ⟨n, _, (State.rail_setRail ..).trans (by rw [h])⟩

end Sys2Proof.Machine
end

section
/-! PROOFS. Power, rails, sleep and the current limits (R66 to R79). -/

namespace Sys2Proof.Machine

/-! ### The power trip (R72) -/

theorem State.Tuned.power {s t : State} (h : s.Tuned t) : t.power = s.power := by
  obtain ⟨_, _, rfl⟩ := h
  rfl

theorem State.Tuned.mem {s t : State} (h : s.Tuned t) : t.mem = s.mem := by
  obtain ⟨_, _, rfl⟩ := h
  rfl

theorem State.Tuned.cores {s t : State} (h : s.Tuned t) : t.cores = s.cores := by
  obtain ⟨_, _, rfl⟩ := h
  rfl

/-- While the trip lasts, every tile is to run at the frequency of OP0. -/
theorem State.wantedOp_forced {s : State} (h : s.power.forced = true) (n : Nat) : s.wantedOp n = 0 := by
  simp [State.wantedOp, h]

theorem execPowerTrip_forces {s : State} (habove : 3 ≤ s.power.above) (hfree : s.power.forced = false) (hover : s.overCap = true) :
    ∃ t, execPowerTrip s = .next t ∧ t.power.forced = true ∧ (∀ n, t.wantedOp n = 0) ∧
      t.counter cPWRTRIP 0 = satAdd (s.counter cPWRTRIP 0) 1 := by
  have hgo : (decide (s.power.above < 3) || s.power.forced || !s.overCap) = false := by simp [hfree, hover, habove]
  let u : State := { s with power := { s.power with forced := true } }
  have htuned := u.retuneAll_tuned
  have hforced : (u.retuneAll.count cPWRTRIP 0).power.forced = true := by rw [State.count_power, htuned.power]
  refine ⟨u.retuneAll.count cPWRTRIP 0, ?_, hforced, State.wantedOp_forced hforced, ?_⟩
  · simp only [execPowerTrip, hgo]
    rfl
  · exact (State.counter_countBy ..).trans (congrArg (satAdd · 1) (htuned.counter ..))

theorem execPowerTripEnd_ends {s : State} (hforced : s.power.forced = true) (hlow : 100 * s.power.watts < 95 * (s.entry 2 0).toNat) :
    ∃ t, execPowerTripEnd s = .next t ∧ t.power.forced = false ∧ t.power.above = 0 := by
  let u : State := { s with power := { s.power with forced := false, above := 0 } }
  refine ⟨u.retuneAll, if_pos ⟨hforced, hlow⟩, ?_, ?_⟩ <;> rw [u.retuneAll_tuned.power]

/-! ### Rails (R73) -/

theorem execRailSettle_settles {s : State} {rail : Nat} (hrail : rail < 64) (hneed : s.railNow rail < s.railNeed rail) :
    ∃ t, execRailSettle rail s = .next t ∧ (t.rail rail).code = s.railNeed rail ∧ (t.rail rail).goal = none ∧
      (t.rail rail).holding = false ∧ (t.rail rail).setter = some (s.highestVoter rail) := by
  refine ⟨_, if_neg (by omega), ?_⟩
  obtain ⟨n, l, h⟩ := s.rail_setLevel rail _
  rw [State.rail_switchTiles, h]
  exact ⟨rfl, rfl, rfl, rfl⟩

theorem execRailHoldExpire_descends {s : State} {rail : Nat} (hhold : (s.rail rail).holding = true)
    (hfollowed : s.railFollowed rail = true) : ∃ t, execRailHoldExpire rail s = .next t ∧
      (t.rail rail).holding = false ∧ (t.rail rail).code = (s.rail rail).code ∧
      (t.rail rail).goal = if s.railNeed rail < (s.rail rail).code then some (s.railNeed rail) else none := by
  refine ⟨_, if_neg (by simp [hhold, hfollowed]), ?_⟩
  obtain ⟨n, l, h⟩ := s.rail_setLevel rail _
  rw [h]
  exact ⟨rfl, rfl, rfl⟩

theorem execRailDescentStop_stops {s : State} {rail g : Nat} (hgoal : (s.rail rail).goal = some g) :
    ∃ t, execRailDescentStop rail s = .next t ∧ (t.rail rail).code = g ∧ (t.rail rail).goal = none ∧
      ((t.rail rail).holding = true ↔ s.railNeed rail < g) := by
  simp only [execRailDescentStop, hgoal]
  refine ⟨_, rfl, ?_⟩
  obtain ⟨n, l, h⟩ := s.rail_setLevel rail _
  rw [State.rail_switchTiles, h]
  exact ⟨rfl, rfl, decide_eq_true_iff⟩

section
variable {s : State} {tile n : Nat} (hswitch : (s.tile tile).switching = some n)
include hswitch

theorem execFrequencySwitchComplete_reaches (h : opCode n ≤ s.railNow (tile / 4)) : execFrequencySwitchComplete tile s =
    .next (s.setTile tile { s.tile tile with cur := n, switching := none }) := by
  simp only [execFrequencySwitchComplete, hswitch, h, if_true]

theorem execFrequencySwitchComplete_retries (h : s.railNow (tile / 4) < opCode n) : execFrequencySwitchComplete tile s =
    .next ((s.setTile tile { s.tile tile with switching := none }).switchTile tile) := by
  simp only [execFrequencySwitchComplete, hswitch, Nat.not_le.mpr h, if_false]

end

/-! ### Going to sleep (R75 to R78) -/

section
variable {s : State} {tile : Nat} {deep : Bool} (htile : tile < 256) (hidle : s.tileIdle tile = true)
  (hdepth : s.allowsDepth tile (if deep then 2 else 1) = true)
include htile hidle hdepth

theorem execSleepHoldExpire_enters (h : (s.tile tile).sleep = .awake) : execSleepHoldExpire tile deep s =
    .next (s.setTile tile { s.tile tile with sleep := .entering 0 (if deep then 2 else 1) }) := by
  simp only [execSleepHoldExpire, h, htile, hidle, hdepth]
  rfl

theorem execSleepHoldExpire_deepens (h : (s.tile tile).sleep = .asleep 1) (hd : deep = true) : execSleepHoldExpire tile deep s =
    .next (s.setTile tile { s.tile tile with sleep := .entering 1 2 }) := by
  subst hd
  have hdepth' : s.allowsDepth tile 2 = true := hdepth
  simp [execSleepHoldExpire, h, htile, hidle, hdepth', State.setSleep]

end

/-- What a tile loses at a depth is no byte of memory and nothing of a core. -/
theorem State.losesAt_eq (s : State) (tile d : Nat) : ∃ m x, s.losesAt tile d = { s with mem := m, tiles := x } ∧ m.bytes = s.mem.bytes := by
  unfold State.losesAt
  dsimp only
  split <;> split <;> exact ⟨_, _, rfl, rfl⟩

/-- A tile that rests at a depth stays there while its rail follows. -/
theorem State.sleep_retuned (s : State) (tile r : Nat) (x : Sleep) : (((s.setSleep tile x).retune r).tile tile).sleep = x := by
  rw [(State.retune_paced ..).sleep, State.setSleep, State.tile_setTile]

theorem execSleepEntryComplete_rests {s : State} {tile k d : Nat} (h : (s.tile tile).sleep = .entering k d) :
    ∃ t, execSleepEntryComplete tile s = .next t ∧ (t.tile tile).sleep = .asleep d ∧ t.mem.bytes = s.mem.bytes ∧ t.cores = s.cores := by
  obtain ⟨m, x, hloses, hbytes⟩ := s.losesAt_eq tile d
  have htuned := (({ s with mem := m, tiles := x } : State).setSleep tile (.asleep d)).retune_tuned (tile / 4)
  simp only [execSleepEntryComplete, h, hloses]
  exact ⟨_, rfl, State.sleep_retuned .., (congrArg Mem.bytes htuned.mem).trans hbytes, htuned.cores⟩

theorem execSleepD3Enter_rests {s : State} {tile : Nat} (htile : tile < 256) (hcores : s.coresOn tile = [])
    (hrests : (s.tile tile).sleep.rests = true) (hidle : s.tileIdle tile = true) (hbanks : ∀ b ∈ (s.tile tile).banks.toList, b.tag = none) :
    ∃ t, execSleepD3Enter tile s = .next t ∧ (t.tile tile).sleep = .asleep 3 := by
  have hfree : (s.tile tile).banks.toList.all (fun b => b.tag.isNone) = true :=
    List.all_eq_true.mpr fun b hb => Option.isNone_iff_eq_none.mpr (hbanks b hb)
  exact ⟨_, if_pos ⟨hcores, hrests, htile, hidle, hfree⟩, State.sleep_retuned ..⟩

/-! ### Waking (R77, R78) -/

section
variable {s : State} {tile d : Nat} (hbusy : s.tileIdle tile = false) (h : (s.tile tile).sleep = .asleep d)
include hbusy h

theorem execTileWake_shallow (hd : d < 2) : execTileWake tile s = .next (s.setTile tile { s.tile tile with sleep := .waking d }) := by
  simp only [execTileWake, hbusy, State.wakeTile, h, hd, if_true]
  rfl

theorem execTileWake_granted (hd : 2 ≤ d) (hfew : (s.rail (tile / 4)).grants.length < 2) (hnone : (s.rail (tile / 4)).waiters = []) :
    ∃ t, execTileWake tile s = .next t ∧ (t.tile tile).sleep = .waking d ∧
      (t.rail (tile / 4)).grants = (s.rail (tile / 4)).grants ++ [tile] := by
  refine ⟨(s.setRail (tile / 4) { s.rail (tile / 4) with grants := (s.rail (tile / 4)).grants ++ [tile] }).setSleep tile (.waking d), ?_, ?_, ?_⟩
  · simp [execTileWake, hbusy, State.wakeTile, h, Nat.not_lt.mpr hd, hfew, hnone]
  · rw [State.setSleep, State.tile_setTile]
  · rw [State.setSleep, State.setTile_rail_frame, State.rail_setRail]

theorem execTileWake_waits (hd : 2 ≤ d) (hfull : 2 ≤ (s.rail (tile / 4)).grants.length ∨ (s.rail (tile / 4)).waiters ≠ []) :
    ∃ t, execTileWake tile s = .next t ∧ (t.tile tile).sleep = .waiting d ∧
      (t.rail (tile / 4)).waiters = (s.rail (tile / 4)).waiters ++ [tile] ∧
      t.counter cWAKEWAIT (tile / 4) = satAdd (s.counter cWAKEWAIT (tile / 4)) 1 := by
  have hno : (decide ((s.rail (tile / 4)).grants.length < 2) && (s.rail (tile / 4)).waiters == []) = false := by
    rcases hfull with h | h
    · simp [Nat.not_lt.mpr h]
    · simp [h]
  refine ⟨((s.setRail (tile / 4) { s.rail (tile / 4) with waiters := (s.rail (tile / 4)).waiters ++ [tile] }).setSleep tile
    (.waiting d)).count cWAKEWAIT (tile / 4), ?_, ?_, ?_, State.counter_countBy ..⟩
  · simp only [execTileWake, hbusy, State.wakeTile, h, Nat.not_lt.mpr hd, hno]
    rfl
  · rw [State.count_tile_frame, State.setSleep, State.tile_setTile]
  · rw [State.count_rail_frame, State.setSleep, State.setTile_rail_frame, State.rail_setRail]

end

theorem execInrushGrant_grants {s : State} {rail x d : Nat} {l : List Nat} (hwait : (s.rail rail).waiters = x :: l)
    (hfew : (s.rail rail).grants.length < 2) (h : (s.tile x).sleep = .waiting d) :
    ∃ t, execInrushGrant rail s = .next t ∧ (t.tile x).sleep = .waking d ∧ (t.rail rail).waiters = l ∧
      (t.rail rail).grants = (s.rail rail).grants ++ [x] := by
  simp only [execInrushGrant, hwait, Nat.not_le.mpr hfew, if_false, h]
  refine ⟨_, rfl, ?_⟩
  rw [State.setSleep, State.tile_setTile, State.setTile_rail_frame, State.rail_setRail]
  exact ⟨rfl, rfl, rfl⟩

/-- A swap that begins to hold its cores, or is given up, changes no tile and no rail. -/
theorem State.beginHold_eq (s : State) (die : Nat) :
    ∃ d f p c, s.beginHold die = { s with dies := d, feTab := f, prog := p, counters := c } := by
  unfold State.beginHold
  split
  · exact ⟨_, _, _, _, rfl⟩
  · split
    · exact ⟨_, _, _, _, rfl⟩
    · split
      · dsimp only
        split <;> exact ⟨_, _, _, _, rfl⟩
      · next x _ _ _ =>
        obtain ⟨f, hf⟩ : ∃ f, (s.swapCores x).foldl (fun s lc => s.setEntry 12 lc (setBits (s.entry 12 lc) 14 1 1)) s =
            { s with feTab := f } := by
          refine List.foldlRecOn (motive := fun t : State => ∃ f, t = { s with feTab := f }) _ _ ⟨_, rfl⟩ ?_
          rintro t ⟨f, rfl⟩ lc _
          exact ⟨_, rfl⟩
        dsimp only
        rw [hf]
        exact ⟨_, _, _, _, rfl⟩

theorem State.beginHold_tile (s : State) (die n : Nat) : (s.beginHold die).tile n = s.tile n := by
  obtain ⟨_, _, _, _, h⟩ := s.beginHold_eq die
  rw [h]
  rfl

theorem State.beginHold_rail (s : State) (die r : Nat) : (s.beginHold die).rail r = s.rail r := by
  obtain ⟨_, _, _, _, h⟩ := s.beginHold_eq die
  rw [h]
  rfl

theorem execWakeComplete_wakes {s : State} {tile d : Nat} (h : (s.tile tile).sleep = .waking d) :
    ∃ t, execWakeComplete tile s = .next t ∧ (t.tile tile).sleep = .awake ∧
      (t.rail (tile / 4)).grants = (s.rail (tile / 4)).grants.filter (· != tile) := by
  simp only [execWakeComplete, h]
  refine ⟨_, rfl, ?_⟩
  rw [State.beginHold_tile, State.beginHold_rail, (State.retune_paced ..).grants, State.setSleep, State.setTile_rail_frame,
    State.rail_setRail]
  exact ⟨State.sleep_retuned .., rfl⟩

/-! ### The statement -/

/-- Settles O51: what a rail's following keeps (`State.Paced`) and what a change of level leaves of the rail, with one law for
each step. -/
theorem powerSteps : Obligations.PowerSteps := by
  intro s die tile rail deep
  exact ⟨fun hdie => if_neg (Nat.not_le.mpr hdie), execPowerTrip_forces, execPowerTripEnd_ends, execRailSettle_settles,
    execRailHoldExpire_descends, fun g => execRailDescentStop_stops,
    fun n hn => ⟨execFrequencySwitchComplete_reaches hn, execFrequencySwitchComplete_retries hn⟩,
    fun htile hidle hdepth => ⟨execSleepHoldExpire_enters htile hidle hdepth, execSleepHoldExpire_deepens htile hidle hdepth⟩,
    fun k d => execSleepEntryComplete_rests, execSleepD3Enter_rests,
    fun d hbusy h => ⟨execTileWake_shallow hbusy h, execTileWake_granted hbusy h, execTileWake_waits hbusy h⟩,
    fun x l d => execInrushGrant_grants, fun d => execWakeComplete_wakes,
    fun hrail => if_neg (Nat.not_le.mpr hrail), rfl, fun hrun hcol => if_pos ⟨hrun, hcol⟩⟩

end Sys2Proof.Machine
end

section
/-! PROOFS. Copies, and the watermark of an arm entry (R175, R176, R202, R382). -/

namespace Sys2Proof.Machine

/-! ### Where a watermark stops (R176) -/

theorem le_risen (m : Table Bool) (k n : Nat) : k ≤ risen m k n := by
  induction n generalizing k with
  | zero => exact Nat.le_refl k
  | succ n ih =>
    rw [risen]
    split
    · exact Nat.le_of_succ_le (ih (k + 1))
    · exact Nat.le_refl k

/-- What a watermark has risen over has been written or skipped. -/
theorem tfind_of_lt_risen {m : Table Bool} {k n i : Nat} (hk : k ≤ i) (hi : i < risen m k n) : (tfind m i).isSome = true := by
  induction n generalizing k with
  | zero => exact absurd hi (Nat.not_lt.mpr hk)
  | succ n ih =>
    rw [risen] at hi
    split at hi
    · next h =>
      rcases Nat.eq_or_lt_of_le hk with rfl | hlt
      · exact h
      · exact ih hlt hi
    · exact absurd hi (Nat.not_lt.mpr hk)

/-- It stops at a granule that is neither, or where it has risen by all it was to look at. -/
theorem risen_stops (m : Table Bool) (k n : Nat) : tfind m (risen m k n) = none ∨ risen m k n = k + n := by
  induction n generalizing k with
  | zero => exact .inr rfl
  | succ n ih =>
    rw [risen]
    split
    · rw [show k + (n + 1) = k + 1 + n by omega]
      exact ih (k + 1)
    · next h => exact .inl (Option.not_isSome_iff_eq_none.mp h)

theorem mem_keys_of_tfind {α : Type} {m : Table α} {k : Nat} (h : (tfind m k).isSome = true) : k ∈ m.map Prod.fst := by
  induction m with
  | nil => simp at h
  | cons e m ih =>
    obtain ⟨key, v⟩ := e
    rw [tfind] at h
    split at h
    · next he => simp [he]
    · exact List.mem_cons_of_mem _ (ih h)

/-- A table has as many entries as it answers keys in a row. -/
theorem le_length_of_tfind {α : Type} {m : Table α} {k n : Nat} (h : ∀ i, k ≤ i → i < k + n → (tfind m i).isSome = true) :
    n ≤ m.length := by
  have hsub : List.range' k n ⊆ m.map Prod.fst := fun i hi => by
    obtain ⟨hk, hn⟩ := List.mem_range'_1.mp hi
    exact mem_keys_of_tfind (h i hk hn)
  simpa using (List.subperm_of_subset List.nodup_range' hsub).length_le

/-- A table of n entries stops a watermark within n granules. -/
theorem tfind_risen (m : Table Bool) (k : Nat) : tfind m (risen m k m.length) = none := by
  rcases risen_stops m k m.length with h | h
  · exact h
  · refine Option.not_isSome_iff_eq_none.mp fun hsome => ?_
    have hrow : ∀ i, k ≤ i → i < k + (m.length + 1) → (tfind m i).isSome = true := fun i hk hi => by
      by_cases hlt : i < risen m k m.length
      · exact tfind_of_lt_risen hk hlt
      · rwa [show i = risen m k m.length by omega]
    exact absurd (le_length_of_tfind hrow) (by omega)

/-! ### Arm entries (R176) -/

theorem State.raise_unarmed (s : State) {op : CopyOp} (h : op.arm = none) : s.raise op = (s, op) := by
  simp only [State.raise, h]

section
variable {s : State} {op : CopyOp} {tlc i : Nat} {a : Arm} (harm : op.arm = some (tlc, i))
  (ha : (s.core tlc).arms.toList.getD i none = some a)
include harm ha

theorem State.raise_over (h : a.hi ≤ a.lo + 16 * risen op.moved ((a.wm - a.lo) / 16) op.moved.length) :
    s.raise op = (s.setArm tlc i none, { op with arm := none }) := by
  simp only [State.raise, harm, ha, ge_iff_le, h, if_true]

theorem State.raise_within (h : a.lo + 16 * risen op.moved ((a.wm - a.lo) / 16) op.moved.length < a.hi) :
    s.raise op =
      (s.setArm tlc i (some { a with wm := a.lo + 16 * risen op.moved ((a.wm - a.lo) / 16) op.moved.length }), op) := by
  simp only [State.raise, harm, ha, ge_iff_le, Nat.not_le.mpr h, if_false]

end

theorem State.arms_setArm (s : State) (lc : Nat) {i : Nat} (h : i < 4) (x : Option Arm) :
    ((s.setArm lc i x).core lc).arms.toList.getD i none = x := by
  simp [State.setArm, h]

theorem State.armRange_unarmed (s : State) {d : CopyDesc} (h : d.arm = false) : s.armRange d = none := by
  unfold State.armRange
  split
  · rw [h]
    rfl
  · rfl

theorem State.armRange_window {s : State} {d : CopyDesc} {tlc off : Nat} (harm : d.arm = true)
    (hdst : spaceOf d.dst d.len = .window s.devid.toNat tlc off) : s.armRange d = some (tlc, ⟨off, off + d.len, off⟩) := by
  simp [State.armRange, hdst, harm]

/-! ### A copy starts (R175, R382) -/

section
variable {s : State} {lc level ch : Nat} {d : CopyDesc} {l : List CopyDesc} (hrun : s.enginesRun lc = true)
  (hq : s.chan lc level ch = ⟨none, d :: l⟩)
include hrun hq

theorem execCopyStart_empty (hlen : d.len = 0) : execCopyStart lc level ch s =
    .next ((s.setChan lc level ch ⟨none, l⟩).deliver (s.copyUnit lc) (s.dieOf lc) d.succ 0) := by
  simp [execCopyStart, hq, hrun, hlen]

variable (hlen : d.len ≠ 0)
include hlen

theorem execCopyStart_unarmed (harm : d.arm = false) : execCopyStart lc level ch s =
    .next (s.setChan lc level ch ⟨some ⟨d, [], 0, 0, none, none, false⟩, l⟩) := by
  simp [execCopyStart, hq, hrun, hlen, harm, s.armRange_unarmed harm]

variable {tlc off : Nat} (harm : d.arm = true) (hdst : spaceOf d.dst d.len = .window s.devid.toNat tlc off)
include harm hdst

theorem execCopyStart_armed {i : Nat} {t : State} (ht : s.takeArm tlc ⟨off, off + d.len, off⟩ = some (i, t)) :
    execCopyStart lc level ch s = .next (t.setChan lc level ch ⟨some ⟨d, [], 0, 0, none, some (tlc, i), false⟩, l⟩) := by
  simp [execCopyStart, hq, hrun, hlen, State.armRange_window harm hdst, ht]

theorem execCopyStart_refused (ht : s.takeArm tlc ⟨off, off + d.len, off⟩ = none) :
    execCopyStart lc level ch s = .next (s.setChan lc level ch ⟨some ⟨d, [], 0, 0, none, none, true⟩, l⟩) := by
  simp [execCopyStart, hq, hrun, hlen, harm, State.armRange_window harm hdst, ht]

end

/-! ### A granule is read, and written in a later step (R202, R213) -/

section
variable {s t : State} {x : Issuer} {src : Word} {bs : List Byte}

theorem State.engMove_reads (dst : Word) {n : Nat} (hfind : findEng x.key src 4 s.prog.eng = none) (hread : s.engRead x src n = .ok bs t) :
    s.engMove x src dst n = .wait (t.noteEng x.key ⟨src, 4, false, some (.data bs)⟩) := by
  simp only [State.engMove, State.keepRead, hfind, hread]

theorem State.engMove_writes {dst : Word} (n : Nat) {y : Sent} {z : List Byte} (hfind : findEng x.key src 4 s.prog.eng = some y)
    (hdata : y.answer = some (.data bs)) (hwrite : s.engWrite x dst bs = .ok z t) :
    s.engMove x src dst n = .ok [] (t.forgetEng x.key src 4) := by
  obtain ⟨_, _, _, _⟩ := y
  cases hdata
  simp only [State.engMove, State.keepRead, hfind, hwrite]

end

theorem State.granuleDue_of {s : State} {lc level ch g : Nat} {op : CopyOp} (hlen : g < op.d.len / 16) (hok : op.fault = none)
    (hmoved : tfind op.moved g = none) (hfly : ∀ y ∈ s.mem.flying, Flying.of lc level ch g y = false) :
    s.granuleDue lc level ch op g = true := by
  have hany : s.mem.flying.any (Flying.of lc level ch g) = false := by simpa using hfly
  simp [State.granuleDue, hlen, hok, hmoved, hany]

section
variable {s t : State} {lc level ch g : Nat} {op : CopyOp} {l : List CopyDesc} (hrun : s.enginesRun lc = true)
  (hq : s.chan lc level ch = ⟨some op, l⟩) (hdue : s.granuleDue lc level ch op g = true) (hreach : g < op.reach)
  (hturn : s.copyTurn (s.copyIssuer lc level ch op) op g = true)
include hrun hq hdue hreach hturn

theorem execCopyGranule_written {bs : List Byte} (h : s.engMove (s.copyIssuer lc level ch op) (op.d.src + BitVec.ofNat 64 (16 * g))
      (op.d.dst + BitVec.ofNat 64 (16 * g)) 16 = .ok bs t) : execCopyGranule lc level ch g s =
    .next ((t.raise { op with moved := tput g true op.moved }).1.setChan lc level ch
      ⟨some (t.raise { op with moved := tput g true op.moved }).2, l⟩) := by
  simp [execCopyGranule, hq, hrun, hdue, hturn, Nat.not_le.mpr hreach, h]

theorem execCopyGranule_skipped (h : s.engMove (s.copyIssuer lc level ch op) (op.d.src + BitVec.ofNat 64 (16 * g))
      (op.d.dst + BitVec.ofNat 64 (16 * g)) 16 = .bad t) : execCopyGranule lc level ch g s =
    .next ((t.raise { op with moved := tput g false op.moved, skipped := op.skipped + 1 }).1.setChan lc level ch
      ⟨some (t.raise { op with moved := tput g false op.moved, skipped := op.skipped + 1 }).2, l⟩) := by
  simp [execCopyGranule, hq, hrun, hdue, hturn, Nat.not_le.mpr hreach, h]

theorem execCopyGranule_faults (h : s.engMove (s.copyIssuer lc level ch op) (op.d.src + BitVec.ofNat 64 (16 * g))
      (op.d.dst + BitVec.ofNat 64 (16 * g)) 16 = .fault t) : execCopyGranule lc level ch g s =
    .next (t.setChan lc level ch ⟨some { op with fault := some (op.stopAt g) }, l⟩) := by
  simp [execCopyGranule, hq, hrun, hdue, hturn, Nat.not_le.mpr hreach, h]

theorem execCopyGranule_waits (h : s.engMove (s.copyIssuer lc level ch op) (op.d.src + BitVec.ofNat 64 (16 * g))
      (op.d.dst + BitVec.ofNat 64 (16 * g)) 16 = .wait t) : execCopyGranule lc level ch g s = .next t := by
  simp [execCopyGranule, hq, hrun, hdue, hturn, Nat.not_le.mpr hreach, h]

end

/-- What handling a granule comes to, by the arm entry of its copy: the same for one that is written and one that is skipped. -/
theorem State.raise_next {o : Out} {t : State} {op : CopyOp} {put : State → CopyOp → State}
    (h : o = .next (put (t.raise op).1 (t.raise op).2)) :
    (op.arm = none → o = .next (put t op)) ∧
    (∀ tlc i a, op.arm = some (tlc, i) → (t.core tlc).arms.toList.getD i none = some a →
      let wm := a.lo + 16 * risen op.moved ((a.wm - a.lo) / 16) op.moved.length
      (a.hi ≤ wm → o = .next (put (t.setArm tlc i none) { op with arm := none })) ∧
      (wm < a.hi → o = .next (put (t.setArm tlc i (some { a with wm := wm })) op))) := by
  subst h
  refine ⟨fun harm => ?_, fun tlc i a harm ha => ⟨fun hover => ?_, fun hwithin => ?_⟩⟩
  · rw [State.raise_unarmed t harm]
  · rw [State.raise_over harm ha hover]
  · rw [State.raise_within harm ha hwithin]

/-! ### A copy ends (R176, R382) -/

/-- The arm entry of a copy frees, where it has one. -/
def State.freeArm (s : State) (op : CopyOp) : State :=
  match op.arm with
  | some (tlc, i) => s.setArm tlc i none
  | none => s

theorem State.arms_freeArm (s : State) {op : CopyOp} {tlc i : Nat} (harm : op.arm = some (tlc, i)) (hi : i < 4) :
    ((s.freeArm op).core tlc).arms.toList.getD i none = none := by
  simp only [State.freeArm, harm, s.arms_setArm tlc hi]

theorem execCopyComplete_ends {s : State} {lc level ch : Nat} {op : CopyOp} {l : List CopyDesc}
    (hq : s.chan lc level ch = ⟨some op, l⟩) (hall : (op.moved.filter fun e => e.1 < op.goal).length = op.goal)
    (hfly : ∀ y ∈ s.mem.flying, ¬ (y.lc = lc ∧ y.level = level ∧ y.ch = ch)) (hwait : s.engWaits (chanKey lc level ch) = false) :
    execCopyComplete lc level ch s = .next (((((s.freeArm op).engDone (s.copyIssuer lc level ch op)).forgetKey
      (chanKey lc level ch)).setChan lc level ch ⟨none, l⟩).deliver (s.copyUnit lc) (s.dieOf lc) op.d.succ op.status) := by
  have hany : (s.mem.flying.any fun x => x.lc == lc && x.level == level && x.ch == ch) = false := by
    simpa [and_assoc] using hfly
  have hgo : (decide ((op.moved.filter fun e => e.1 < op.goal).length < op.goal) ||
      (s.mem.flying.any fun x => x.lc == lc && x.level == level && x.ch == ch) ||
      s.engWaits (s.copyIssuer lc level ch op).key) = false := by
    rw [hall, hany, State.copyIssuer, hwait]
    simp
  simp only [execCopyComplete, hq, hgo]
  rfl

end Sys2Proof.Machine
end

section
/-! PROOFS. Streams, gathers and scatters (R173, R174, R383 to R385). -/

namespace Sys2Proof.Machine

/-! ### The stream of a register -/

theorem Frame.stream_setStream (f : Frame) {r : Reg} (hr : 28 ≤ r.val) (x : Option Stream) : (f.setStream r x).stream r = x := by
  have hlt : r.val - 28 < 4 := by omega
  simp [Frame.stream, Frame.setStream, Nat.not_lt.mpr hr, hlt]

theorem Frame.setStream_h (f : Frame) (r : Reg) (x : Option Stream) : (f.setStream r x).h = f.h := by
  unfold Frame.setStream
  split <;> rfl

theorem Frame.le_of_stream {f : Frame} {r : Reg} {x : Stream} (h : f.stream r = some x) : 28 ≤ r.val := by
  refine Nat.not_lt.mp fun hlt => ?_
  rw [Frame.stream, if_pos hlt] at h
  exact absurd h nofun

theorem Frame.streams_of_stream {f : Frame} {r : Reg} {x : Stream} (h : f.stream r = some x) (hlt : r.val - 28 < 4) :
    f.streams[r.val - 28] = some x := by
  rw [Frame.stream, if_neg (Nat.not_lt.mpr (Frame.le_of_stream h))] at h
  simpa [List.getD, hlt] using h

/-! ### Elements of a stream (R173, R383) -/

theorem State.refill_reads {s u : State} {y : Issuer} {x : Stream} {bs : List Byte} (hend : x.ended = none) (hn : x.moved < x.n)
    (hroom : x.fifo.length < 16) (hread : s.engRead y x.next 8 = .ok bs u) :
    s.refill y x = ({ x with fifo := x.fifo ++ [BitVec.ofNat 64 (leNat bs)], moved := x.moved + 1 }, u) := by
  simp [State.refill, hend, Nat.not_le.mpr hn, Nat.not_le.mpr hroom, hread]

theorem State.drainOut_writes {s u : State} {y : Issuer} {x : Stream} {w : Word} {l : List Word} {bs : List Byte}
    (hend : x.ended = none) (hfifo : x.fifo = w :: l) (hwrite : s.engWrite y x.next (leBytes 8 w.toNat) = .ok bs u) :
    s.drainOut y x = ({ x with fifo := l, moved := x.moved + 1 }, u) := by
  simp [State.drainOut, hfifo, hend, hwrite]

section
variable {s : State} {lc level : Nat} (hrun : s.enginesRun lc = true)
include hrun

section
variable {f h : Frame} {r : Reg} {x y : Stream} {t : State} (hf : s.frameAt lc level = some f) (hx : f.stream r = some x)
  (hh : t.frameAt lc level = some h)
include hf hx hh

theorem execStreamElement_input (hin : x.out = false) (hy : s.refill (s.streamIssuer lc x) x = (y, t)) :
    execStreamElement lc level (r.val - 28) s = .next (t.setFrameAt lc level (h.setStream r (some y))) := by
  have hlt : r.val - 28 < 4 := by omega
  have hbound : ¬ 20 ≤ r.val - 28 := by omega
  simp [execStreamElement, hrun, hbound, hf, hlt, Frame.streams_of_stream hx hlt, hin, hy, hh, Frame.setStream]

theorem execStreamElement_output (hout : x.out = true) (hy : s.drainOut (s.streamIssuer lc x) x = (y, t)) :
    execStreamElement lc level (r.val - 28) s = .next (t.setFrameAt lc level (h.setStream r (some y))) := by
  have hlt : r.val - 28 < 4 := by omega
  have hbound : ¬ 20 ≤ r.val - 28 := by omega
  simp [execStreamElement, hrun, hbound, hf, hlt, Frame.streams_of_stream hx hlt, hout, hy, hh, Frame.setStream]

end

section
variable {f : Frame} {j : Nat} {x : Stream} (hf : s.frameAt lc level = some f) (hj : j < 16) (hx : f.draining[j]? = some x)
include hf hj hx

theorem execStreamElement_drained (hfifo : x.fifo = []) : execStreamElement lc level (j + 4) s =
    .next ((s.setFrameAt lc level { f with draining := removeAt f.draining j }).streamOver lc x (x.ended.getD 0)) := by
  have hbound : ¬ 20 ≤ j + 4 := by omega
  simp [execStreamElement, hrun, hbound, hf, hx, hfifo]

theorem execStreamElement_drains {y : Stream} {t : State} (hfifo : x.fifo ≠ [])
    (hy : s.drainOut (s.streamIssuer lc x) x = (y, t)) : execStreamElement lc level (j + 4) s =
    .next (t.setFrameAt lc level { f with draining := modifyAt (fun _ => y) f.draining j }) := by
  have hbound : ¬ 20 ≤ j + 4 := by omega
  simp [execStreamElement, hrun, hbound, hf, hx, hfifo, hy]

end

section
variable {j : Nat} {x : Stream} (hx : (s.core lc).strays[j]? = some x)
include hx

theorem execStreamElement_strayWaits (hout : s.streamOut lc x = true) : execStreamElement lc level (j + 20) s = .next s := by
  simp [execStreamElement, hrun, hx, hout]

theorem execStreamElement_strayOver (hout : s.streamOut lc x = false) : execStreamElement lc level (j + 20) s =
    .next ((s.setCore lc { s.core lc with strays := removeAt (s.core lc).strays j }).streamOver lc x (x.ended.getD 0)) := by
  simp [execStreamElement, hrun, hx, hout]

end

end

/-! ### An instruction reads an input stream (R173, R383) -/

section
variable {s : State} {lc : Nat} {f : Frame} {r : Reg} {x : Stream} {w : Word} {l : List Word} (hf : s.top lc = some f)
  (hx : f.stream r = some x) (hin : x.out = false) (hfifo : x.fifo = w :: l)
include hf hx hin hfifo

theorem State.popRead_goesOn (hmore : x.used + 1 < x.n) :
    s.popRead lc r = s.setTop lc (f.setStream r (some { x with fifo := l, used := x.used + 1 })) := by
  simp [State.popRead, hf, hx, hin, hfifo, Nat.ne_of_lt hmore]

theorem State.popRead_ends (hlast : x.used + 1 = x.n) :
    s.popRead lc r = (s.setTop lc ((f.setStream r none).setReg r w)).streamOver lc x (x.ended.getD 0) := by
  simp [State.popRead, hf, hx, hin, hfifo, hlast]

end

theorem Frame.reg_setReg (f : Frame) {r : Reg} (h : r ≠ 0) (w : Word) : (f.setReg r w).h.reg r = w := by
  simp only [Frame.setReg, Hart.setReg, Hart.reg, if_neg h]
  exact Vector.getElem_set_self ..

/-! ### Gather and scatter (R384, R385) -/

section
variable {s t : State} {cl k : Nat} {x y : Gather} (hx : (s.cluster cl).gathers[k]? = some x) (hrun : s.enginesRun x.lc = true)
  (hstep : s.gatherStep (s.gatherIssuer x) x = (y, t))
include hx hrun hstep

theorem execGatherScatterElement_goesOn (hok : y.fault = false) (hmore : y.moved < gatherN x.words.toList) :
    execGatherScatterElement cl k s =
      .next (t.setCluster cl { t.cluster cl with gathers := modifyAt (fun _ => y) (t.cluster cl).gathers k }) := by
  simp [execGatherScatterElement, hx, hrun, hstep, hok, Nat.not_le.mpr hmore]

theorem execGatherScatterElement_ends (hok : y.fault = false) (hall : gatherN x.words.toList ≤ y.moved) :
    execGatherScatterElement cl k s =
      .next (((t.setCluster cl { t.cluster cl with gathers := removeAt (t.cluster cl).gathers k }).engDone (s.gatherIssuer x)).deliver
        (.engine cl) (cl / 4) x.succ (statusWord y.skipped false 0 0)) := by
  simp [execGatherScatterElement, hx, hrun, hstep, hok, hall]

theorem execGatherScatterElement_faults (hbad : y.fault = true) :
    execGatherScatterElement cl k s =
      .next (((t.setCluster cl { t.cluster cl with gathers := removeAt (t.cluster cl).gathers k }).engDone (s.gatherIssuer x)).deliver
        (.engine cl) (cl / 4) x.succ (statusWord y.moved false 0 2)) := by
  simp [execGatherScatterElement, hx, hrun, hstep, hbad]

end

end Sys2Proof.Machine
end

section
/-! PROOFS. Collectives, and the statement of the engines' steps (R139, R213, R391, R392). -/

namespace Sys2Proof.Machine

/-! ### Which access comes next (R213) -/

theorem pickAccess_nil {α : Type} (tick : Nat) : pickAccess tick ([] : List α) = none := rfl

theorem mem_of_pickAccess {α : Type} {tick : Nat} {l : List α} {x : α} (h : pickAccess tick l = some x) : x ∈ l := by
  unfold pickAccess at h
  split at h
  · exact absurd h nofun
  · cases h
    exact List.mem_singleton_self _
  · rcases Option.or_eq_some_iff.mp h with h | ⟨-, h⟩
    · exact List.mem_of_getElem? h
    · exact List.mem_of_head? h

theorem isSome_pickAccess {α : Type} (tick : Nat) {l : List α} (h : l ≠ []) : (pickAccess tick l).isSome = true := by
  unfold pickAccess
  split
  · exact absurd rfl h
  · rfl
  · simp [Option.isSome_or, List.isSome_head?, h]

/-! ### A collective (R391, R392) -/

theorem sameColl_comm (x y : Contribution) : sameColl x y = sameColl y x := by
  simp only [sameColl]
  rw [BEq.comm (a := x.words.toList.getD 0 0), BEq.comm (a := x.words.toList.getD 1 0), BEq.comm (a := x.words.toList.getD 3 0),
    BEq.comm (a := collLen x.words.toList)]

/-- That the descriptors agree is asked of each with the first. -/
theorem all_sameColl (p : Contribution) (l : List Contribution) :
    (l.all fun q => Option.any (sameColl q) (some p)) = l.all (sameColl p) :=
  congrArg l.all (funext fun q => sameColl_comm q p)

/-- A full collective goes on where the engines of every participant of the module run, and none of their quarters is shut. -/
theorem State.collective_runs (s : State) {c : Collective} {own : List Contribution} (hfull : c.full = true)
    (hruns : ∀ q ∈ own, s.enginesRun q.lc = true) : (!c.full || own.any fun q => !s.enginesRun q.lc) = false := by
  simpa [hfull] using hruns

theorem State.collective_open (s : State) {own : List Contribution} (hopen : ∀ q ∈ own, s.shut q.lc = false) :
    (own.any fun q => s.shut q.lc) = false := by simpa using hopen

/-- A collective after one of its accesses. -/
def State.keepColl (s : State) (k : Nat) (c : Collective) : State :=
  { s with prog := { s.prog with colls := modifyAt (fun _ => c) s.prog.colls k } }

/-- A collective is over: every participant of the module has its successor. -/
def State.endColl (s : State) (k : Nat) (own : List Contribution) (status : Word) : State :=
  own.foldl (fun s q => s.deliver (.engine 512) (s.dieOf q.lc) q.succ status)
    { s with prog := { s.prog with colls := removeAt s.prog.colls k } }

/-- The bytes of a granule of a contribution's source, and of its place for the result. -/
def Contribution.sourceAt (q : Contribution) (g : Nat) : List Nat := span (cellarKey q.lc (collSrc q.words.toList + 16 * g)) 16
def Contribution.resultAt (q : Contribution) (g : Nat) : List Nat := span (cellarKey q.lc (collDst q.words.toList + 16 * g)) 16

/-- What a collective has read of a granule: none where it is uncorrectable. -/
def State.readGranule (s : State) (as : List Nat) : Option (BitVec 128) :=
  if s.anyBadCellar as then none else some (BitVec.ofNat 128 (s.readCellar as))

section
variable {s : State} {k : Nat} {c : Collective} {p : Contribution} {l own : List Contribution} (hc : s.prog.colls[k]? = some c)
  (hfull : c.full = true) (hsorted : c.sorted = p :: l) (hown : (p :: l).filter (fun q => q.dev == s.devid.toNat) = own)
  (hruns : ∀ q ∈ own, s.enginesRun q.lc = true)
include hc hfull hsorted hown hruns

theorem execCollectiveComplete_calls (hshut : ∃ q ∈ own, s.shut q.lc = true) :
    execCollectiveComplete k s = .next (own.foldl (fun s q => s.callTile q.lc) s) := by
  simp only [execCollectiveComplete, hc, hsorted, hown, s.collective_runs hfull hruns, List.any_eq_true.mpr hshut,
    Bool.false_eq_true, if_false, if_true]

variable (hopen : ∀ q ∈ own, s.shut q.lc = false)
include hopen

theorem execCollectiveComplete_disagrees (hsame : l.all (sameColl p) = false) :
    execCollectiveComplete k s = .next (s.endColl k own (statusWord 0 false 0 6)) := by
  simp only [execCollectiveComplete, hc, hsorted, hown, s.collective_runs hfull hruns, s.collective_open hopen,
    List.drop_succ_cons, List.drop_zero, List.head?_cons, all_sameColl, hsame]
  rfl

variable (hsame : l.all (sameColl p) = true) {n : Nat} (hn : collLen p.words.toList / 16 = n)
include hsame hn

theorem execCollectiveComplete_reads {q : Contribution} {g : Nat} (hpick : pickAccess s.tick (c.unread n) = some (q, g)) :
    execCollectiveComplete k s = .next ((s.meetCellarUe (q.sourceAt g)).keepColl k
      { c with got := tput (partKey q.lc g) (s.readGranule (q.sourceAt g)) c.got }) := by
  simp only [execCollectiveComplete, hc, hsorted, hown, s.collective_runs hfull hruns, s.collective_open hopen,
    List.drop_succ_cons, List.drop_zero, List.head?_cons, all_sameColl, hsame, Option.map_some, Option.getD_some, hn, hpick]
  rfl

variable (hread : c.unread n = []) {op tag : Nat} (hop : collOp p.words.toList = op) (htag : collTag p.words.toList = tag)
include hread hop htag

theorem execCollectiveComplete_allWritten (hleft : c.unwritten own op tag n = []) :
    execCollectiveComplete k s = .next (s.endColl k own (c.status op tag n)) := by
  simp only [execCollectiveComplete, hc, hsorted, hown, s.collective_runs hfull hruns, s.collective_open hopen,
    List.drop_succ_cons, List.drop_zero, List.head?_cons, all_sameColl, hsame, Option.map_some, Option.getD_some, hn, hread, hop,
    htag, hleft, pickAccess_nil]
  rfl

variable {q : Contribution} {g x : Nat} {fl : BitVec 5} (hpick : pickAccess s.tick (c.unwritten own op tag n) = some (q, g))
  (hresult : c.result op tag g = some (x, fl))
include hpick hresult

theorem execCollectiveComplete_writesLast (hlast : (c.unwritten own op tag n).length = 1) :
    execCollectiveComplete k s = .next ((s.writeCellar (q.resultAt g) (leBytes 16 x)).endColl k own (c.status op tag n)) := by
  simp only [execCollectiveComplete, hc, hsorted, hown, s.collective_runs hfull hruns, s.collective_open hopen,
    List.drop_succ_cons, List.drop_zero, List.head?_cons, all_sameColl, hsame, Option.map_some, Option.getD_some, hn, hread, hop,
    htag, hpick, hresult, hlast, pickAccess_nil]
  rfl

theorem execCollectiveComplete_writes (hmore : 1 < (c.unwritten own op tag n).length) :
    execCollectiveComplete k s = .next ((s.writeCellar (q.resultAt g) (leBytes 16 x)).keepColl k
      { c with put := partKey q.lc g :: c.put }) := by
  simp only [execCollectiveComplete, hc, hsorted, hown, s.collective_runs hfull hruns, s.collective_open hopen,
    List.drop_succ_cons, List.drop_zero, List.head?_cons, all_sameColl, hsame, Option.map_some, Option.getD_some, hn, hread, hop,
    htag, hpick, hresult, Nat.not_le.mpr hmore, pickAccess_nil]
  rfl

end

/-! ### The statement -/

/-- Settles O40: each step of an engine by the law of its branch; the watermark by the table's length, since n entries answer no
more than n keys in a row. -/
theorem engineSteps : Obligations.EngineSteps := by
  refine ⟨fun s lc level ch g j cl k hrun => ⟨fun d l => execCopyStart_empty hrun, fun d l => execCopyStart_unarmed hrun,
    fun d l tlc off hq hlen harm hdst => ⟨fun i t => execCopyStart_armed hrun hq hlen harm hdst,
      execCopyStart_refused hrun hq hlen harm hdst⟩, ?_, ?_, ?_, ?_, ?_, ?_, ?_, ?_, ?_⟩, ?_⟩
  · rintro op l _ hq hlen hok hmoved hfly hreach rfl hturn
    have hdue := State.granuleDue_of hlen hok hmoved hfly
    refine ⟨fun bs t hfind hread => ?_, fun y bs z t hfind hdata hwrite => State.engMove_writes 16 hfind hdata hwrite,
      fun bs t h => ?_, fun t h => ?_, fun t => execCopyGranule_faults hrun hq hdue hreach hturn,
      fun t => execCopyGranule_waits hrun hq hdue hreach hturn⟩
    · exact execCopyGranule_waits hrun hq hdue hreach hturn (State.engMove_reads _ hfind hread)
    · exact State.raise_next (put := fun t op => t.setChan lc level ch ⟨some op, l⟩)
        (execCopyGranule_written hrun hq hdue hreach hturn h)
    · exact State.raise_next (put := fun t op => t.setChan lc level ch ⟨some op, l⟩)
        (execCopyGranule_skipped hrun hq hdue hreach hturn h)
  · exact fun m n => ⟨le_risen m n _, fun i => tfind_of_lt_risen, tfind_risen m n⟩
  · rintro op l _ hq hall hfly hwait rfl
    exact ⟨fun tlc i harm => State.arms_freeArm s harm, execCopyComplete_ends hq hall hfly hwait⟩
  · rintro f r x _ bs hf _ hx hend rfl
    refine ⟨fun t h hin hn hroom hread hh => ?_, fun w l t h hout hfifo hwrite hh => ?_⟩
    · exact execStreamElement_input hrun hf hx hh hin (State.refill_reads hend hn hroom hread)
    · exact execStreamElement_output hrun hf hx hh hout (State.drainOut_writes hend hfifo hwrite)
  · intro f x hf hj hx
    refine ⟨execStreamElement_drained hrun hf hj hx, fun w l bs t hfifo hend hwrite => ?_⟩
    exact execStreamElement_drains hrun hf hj hx (by simp [hfifo]) (State.drainOut_writes hend hfifo hwrite)
  · exact fun x hx => ⟨execStreamElement_strayWaits hrun hx, execStreamElement_strayOver hrun hx⟩
  · rintro x y _ t hx rfl rfl hstep
    exact ⟨execGatherScatterElement_goesOn hx hrun hstep, execGatherScatterElement_ends hx hrun hstep,
      execGatherScatterElement_faults hx hrun hstep⟩
  · intro c p l hc hfull hsorted own hruns n op tag kept ended
    refine ⟨execCollectiveComplete_calls hc hfull hsorted rfl hruns, fun hopen =>
      ⟨execCollectiveComplete_disagrees hc hfull hsorted rfl hruns hopen, fun hsame => ⟨fun q g =>
        execCollectiveComplete_reads hc hfull hsorted rfl hruns hopen hsame rfl, fun hread =>
          ⟨execCollectiveComplete_allWritten hc hfull hsorted rfl hruns hopen hsame rfl hread rfl rfl,
            fun q g x fl hpick hresult =>
              ⟨execCollectiveComplete_writesLast hc hfull hsorted rfl hruns hopen hsame rfl hread rfl rfl hpick hresult,
                execCollectiveComplete_writes hc hfull hsorted rfl hruns hopen hsame rfl hread rfl rfl hpick hresult⟩⟩⟩⟩⟩
  · exact fun l => ⟨fun x => mem_of_pickAccess, isSome_pickAccess s.tick⟩
  · intro s lc f r x w l hf hx hin hfifo
    have hr := Frame.le_of_stream hx
    refine ⟨fun hmore => ⟨_, ?_, f.stream_setStream hr _, f.setStream_h r _⟩, fun hlast => ?_⟩
    · exact (congrArg (State.top · lc) (State.popRead_goesOn hf hx hin hfifo hmore)).trans (State.setTop_top _ _ _ _ hf)
    · have hr0 : r ≠ 0 := fun h => absurd (h ▸ hr) (by decide)
      exact ⟨_, (f.setStream r none).setReg r w, State.popRead_ends hf hx hin hfifo hlast, State.setTop_top _ _ _ _ hf,
        f.stream_setStream hr none, Frame.reg_setReg _ hr0 w⟩

end Sys2Proof.Machine
end

section
/-! PROOFS. What the end of a frame changes, and the entry of a trap (R97, R224 to R230, R234). -/

namespace Sys2Proof.Machine

/-! ### The bounds of the fields that number a counter's place (R7, R29, R193, R405) -/

theorem bits_lt (w : Word) (lo len : Nat) : bits w lo len < 2 ^ len := Nat.mod_lt _ (Nat.two_pow_pos len)

theorem State.partOf_lt (s : State) (lc : Nat) : s.partOf lc < 256 := bits_lt ..

theorem State.dieOf_lt (s : State) (lc : Nat) : s.dieOf lc < 8 :=
  Nat.div_lt_of_lt_mul (bits_lt (s.entry 12 lc) 0 10)

theorem stackOf_lt (pa : Nat) : stackOf pa < 16 := by
  have hmod : ∀ n, n % 16 < 2 ^ 4 := fun n => Nat.mod_lt _ (by decide)
  exact Nat.xor_lt_two_pow (Nat.xor_lt_two_pow (Nat.xor_lt_two_pow (Nat.xor_lt_two_pow
    (Nat.xor_lt_two_pow (hmod _) (hmod _)) (hmod _)) (hmod _)) (hmod _)) (hmod _)

theorem sliceOf_lt (pa : Nat) : sliceOf pa < 128 := by
  have hmod : ∀ n, n % 8 < 2 ^ 3 := fun n => Nat.mod_lt _ (by decide)
  have hlow := Nat.xor_lt_two_pow (Nat.xor_lt_two_pow (hmod (pa / 2 ^ 6)) (hmod (pa / 2 ^ 9))) (hmod (pa / 2 ^ 12))
  have hstack := stackOf_lt pa
  unfold sliceOf
  omega

/-! ### What happens beside a frame -/

/-- A state differs from another beside the frames of core lc from the n-th on: the bytes of memory, the front-end tables, the
deliveries and the counts of traps are as they were, and so is the number of the core's frames. -/
structure State.Aside (lc n : Nat) (s t : State) : Prop where
  data : t.data = s.data
  feTab : t.feTab = s.feTab
  deliveries : t.prog.deliveries = s.prog.deliveries
  traps : ∀ cls i, cls < 16 → i < 4096 → t.counter (cTRAPS + cls) i = s.counter (cTRAPS + cls) i
  below : (t.core lc).frames.drop n = (s.core lc).frames.drop n
  depth : (t.core lc).frames.length = (s.core lc).frames.length

section
variable {lc n : Nat}

theorem State.Aside.refl (s : State) : s.Aside lc n s := ⟨rfl, rfl, rfl, fun _ _ _ _ => rfl, rfl, rfl⟩

theorem State.Aside.trans {s t u : State} (h : s.Aside lc n t) (k : t.Aside lc n u) : s.Aside lc n u :=
  ⟨k.data.trans h.data, k.feTab.trans h.feTab, k.deliveries.trans h.deliveries,
    fun cls i hc hi => (k.traps cls i hc hi).trans (h.traps cls i hc hi), k.below.trans h.below, k.depth.trans h.depth⟩

theorem State.Aside.partOf {s t : State} (h : s.Aside lc n t) (k : Nat) : t.partOf k = s.partOf k := by
  simp only [State.partOf, State.entry, h.feTab]

/-- A core that has a running frame still has one. -/
theorem State.Aside.top {s t : State} (h : s.Aside lc n t) {f : Frame} (hf : s.top lc = some f) : ∃ g, t.top lc = some g := by
  have hd := h.depth
  unfold State.top at hf ⊢
  cases hs : (s.core lc).frames with
  | nil => simp [hs] at hf
  | cons x l =>
    cases ht : (t.core lc).frames with
    | nil => simp [hs, ht] at hd
    | cons y r => exact ⟨y, rfl⟩

/-- A fold of steps that leave a core's frames alone does so too. -/
theorem State.Aside.foldl {α : Type} (g : State → α → State) (h : ∀ (t : State) x, t.Aside lc n (g t x)) (l : List α) (s : State) :
    s.Aside lc n (l.foldl g s) := List.foldlRecOn l g (.refl s) fun t ht x _ => ht.trans (h t x)

variable (s : State)

/-! ### Single updates -/

theorem State.aside_mem (m : Mem) (h : (m.bytes, m.cellar) = s.data) : s.Aside lc n { s with mem := m } :=
  ⟨h, rfl, rfl, fun _ _ _ _ => rfl, rfl, rfl⟩

theorem State.aside_prog (p : Progress) (h : p.deliveries = s.prog.deliveries) : s.Aside lc n { s with prog := p } :=
  ⟨rfl, rfl, h, fun _ _ _ _ => rfl, rfl, rfl⟩

theorem State.setSlice_aside (k : Nat) (x : Slice) : s.Aside lc n (s.setSlice k x) :=
  ⟨rfl, rfl, rfl, fun _ _ _ _ => rfl, rfl, rfl⟩

theorem State.setCore_aside {k : Nat} {c : Core} (h : c.frames = (s.core k).frames) : s.Aside lc n (s.setCore k c) := by
  have hframes : ((s.setCore k c).core lc).frames = (s.core lc).frames := by
    by_cases hk : lc = k
    · rw [hk, State.core_setCore, h]
    · rw [State.core_setCore_ne _ _ _ _ hk]
  exact ⟨rfl, rfl, rfl, fun _ _ _ _ => rfl, by rw [hframes], by rw [hframes]⟩

theorem State.setCore_aside_ne {k : Nat} (c : Core) (h : lc ≠ k) : s.Aside lc n (s.setCore k c) := by
  have hcore := s.core_setCore_ne k lc c h
  exact ⟨rfl, rfl, rfl, fun _ _ _ _ => rfl, by rw [hcore], by rw [hcore]⟩

theorem State.setTop_aside (f : Frame) : s.Aside lc 1 (s.setTop lc f) := by
  simp only [State.setTop]
  split
  · exact .refl s
  · next g l hl => exact ⟨rfl, rfl, rfl, fun _ _ _ _ => rfl, by simp [hl], by simp [hl]⟩

theorem State.count_aside {code i : Nat} (hc : code < cTRAPS ∨ cRERUN ≤ code) (hi : i < 4096) : s.Aside lc n (s.count code i) := by
  refine ⟨rfl, rfl, rfl, fun cls j hcls hj => State.counter_setCounter_ne s _ hi hj fun he => ?_, rfl, rfl⟩
  simp only [Prod.mk.injEq, cTRAPS, cRERUN] at he hc
  omega

theorem State.sendMsg_aside (dev : Nat) (m : Msg) : s.Aside lc n (s.sendMsg dev m) := by
  obtain ⟨k, u, p, h⟩ := s.sendMsg_eq dev m
  rw [h]
  exact ⟨rfl, rfl, rfl, fun _ _ _ _ => rfl, rfl, rfl⟩

theorem State.forgetWalk_aside (who : Nat) : s.Aside lc n (s.forgetWalk who) := s.aside_mem _ rfl
theorem State.dropHolder_aside (h : Nat) : s.Aside lc n (s.dropHolder h) := s.aside_mem _ rfl
theorem State.forgetKey_aside (key : Nat) : s.Aside lc n (s.forgetKey key) := s.aside_prog _ rfl
theorem State.addBatch_aside (b : Batch) : s.Aside lc n (s.addBatch b) := s.aside_prog _ rfl
theorem State.setNode_aside (k : Nat) (l : List Delta) : s.Aside lc n (s.setNode k l) := s.aside_prog _ rfl
theorem State.setRoot_aside (g : Nat) (r : Root) : s.Aside lc n (s.setRoot g r) := s.aside_prog _ rfl
theorem State.send_aside (src : Source) (r : Rec) (m : Bool) : s.Aside lc n (s.send src r m) := s.aside_prog _ rfl
theorem State.orphan_aside (k level : Nat) : s.Aside lc n (s.orphan k level) :=
  ⟨rfl, rfl, rfl, fun _ _ _ _ => rfl, rfl, rfl⟩

theorem State.flush_aside (k : Nat) : s.Aside lc n (s.flush k) := by
  unfold State.flush
  dsimp only
  split
  · exact .refl s
  · exact (s.addBatch_aside _).trans (State.setCore_aside _ rfl)

/-! ### Counts and records (R110, R124) -/

theorem State.post_aside (k : Nat) (d : Delta) : s.Aside lc n (s.post k d) := by
  unfold State.post
  dsimp only
  split
  · exact (s.flush_aside k).trans (State.setCore_aside _ rfl)
  · exact s.setCore_aside rfl

theorem State.postNode_aside (k : Nat) (d : Delta) : s.Aside lc n (s.postNode k d) := by
  unfold State.postNode
  dsimp only
  split
  · next h => exact (s.setNode_aside ..).trans (State.count_aside _ (code := cPSPILL) (by decide) (by omega))
  · exact s.setNode_aside ..

theorem State.cancelDrop_aside (die : Nat) (r : Rec) : s.Aside lc n (s.cancelDrop die r) :=
  (s.postNode_aside ..).trans (State.count_aside _ (code := cCNCLDROP) (by decide) ((bits_lt ..).trans (by decide)))

theorem State.release_aside (src : Source) (die : Nat) (r : Rec) : s.Aside lc n (s.release src die r) := by
  unfold State.release
  split
  · exact s.cancelDrop_aside ..
  · exact s.send_aside ..

/-! ### Cancel marks (R109 to R111, R230) -/

theorem State.cancelPantry_aside (g : Nat) (m : CancelMark) (k : Nat) : s.Aside lc n (s.cancelPantry g m k) := by
  unfold State.cancelPantry
  dsimp only
  split
  · exact (s.setSlice_aside ..).trans (.foldl _ (fun t x => t.cancelDrop_aside ..) _ _)
  · exact .refl s

theorem State.cancelColls_aside (g : Nat) (m : CancelMark) : s.Aside lc n (s.cancelColls g m) := by
  refine .trans ?_ (.foldl _ (fun t x => t.cancelDrop_aside ..) _ _)
  exact s.aside_prog _ rfl

theorem State.putMark_aside (g : Nat) (m : CancelMark) : s.Aside lc n (s.putMark g m) := by
  refine .trans (.trans ?_ (.foldl _ (fun t k => t.cancelPantry_aside g m k) _ _)) (State.cancelColls_aside ..)
  exact s.setRoot_aside ..

theorem State.spreadMark_aside (g : Nat) (m : CancelMark) (dev : Nat) : s.Aside lc n (s.spreadMark g m dev) := by
  unfold State.spreadMark
  dsimp only
  split
  · split
    · exact .refl s
    · exact s.sendMsg_aside ..
  · refine .trans ?_ (.foldl _ (fun t d => t.sendMsg_aside ..) _ _)
    exact s.aside_prog _ rfl

theorem State.tellMark_aside (g : Nat) (m : CancelMark) (dev : Nat) : s.Aside lc n (s.tellMark g m dev) := by
  unfold State.tellMark
  split
  · exact s.spreadMark_aside ..
  · refine .trans ?_ (State.sendMsg_aside ..)
    exact s.aside_prog _ rfl

theorem State.installHere_aside (g : Nat) (m : CancelMark) : s.Aside lc n (s.installHere g m).2 := by
  unfold State.installHere
  split
  · exact s.setRoot_aside ..
  · split
    · exact .refl s
    · exact s.putMark_aside g m

theorem State.install_aside (g : Nat) (m : CancelMark) : s.Aside lc n (s.install g m).2 := by
  unfold State.install
  dsimp only
  split
  · exact s.installHere_aside g m
  · exact (s.installHere_aside g m).trans (State.tellMark_aside ..)

theorem State.installLate_aside (g : Nat) (m : CancelMark) : s.Aside lc n (s.installLate g m) := by
  have hinstall := s.install_aside (lc := lc) (n := n) g m
  unfold State.installLate
  split
  · next t ht => rw [ht] at hinstall; exact hinstall.trans (t.aside_prog _ rfl)
  · next k t _ ht => rw [ht] at hinstall; exact hinstall

/-! ### The end of a frame (R97, R99, R101, R174, R185) -/

theorem State.streamOver_aside (k : Nat) (x : Stream) (st : Word) : s.Aside lc n (s.streamOver k x st) :=
  ((s.dropHolder_aside _).trans (State.forgetKey_aside ..)).trans (State.release_aside ..)

theorem State.endStream_aside (k : Nat) (aborted : Bool) (x : Option Stream) : s.Aside lc n (s.endStream k aborted x) := by
  cases x with
  | none => exact .refl s
  | some t =>
    simp only [State.endStream]
    split
    · exact s.setCore_aside rfl
    · exact s.streamOver_aside ..

theorem State.disbandAt_aside (level m : Nat) : s.Aside lc n (s.disbandAt lc level m) := by
  unfold State.disbandAt
  split
  · exact .refl s
  · next h =>
    dsimp only
    split
    · exact (s.setCore_aside_ne _ (Ne.symm h)).trans (State.flush_aside ..)
    · exact s.setCore_aside_ne _ (Ne.symm h)

theorem State.disband_aside : s.Aside lc 1 (s.disband lc) := by
  unfold State.disband
  split
  · split
    · exact (State.Aside.foldl _ (fun t m => t.disbandAt_aside ..) _ _).trans (State.setTop_aside ..)
    · exact .refl s
  · exact .refl s

theorem Core.refill_frames (c : Core) (unspill : Queued → Queued) (i : Nat) : (c.refill unspill i).frames = c.frames := by
  unfold Core.refill
  split
  · rfl
  · split <;> rfl

theorem State.freeInbox_aside (k i : Nat) : s.Aside lc n (s.freeInbox k i) := s.setCore_aside (Core.refill_frames ..)

/-- The running frame of a core is gone, and the one below runs. -/
def State.popped (s : State) (lc : Nat) : State := s.setCore lc { s.core lc with frames := uncover (s.core lc).frames.tail }

/-- An inline handler gives its inbox entry back; a core without a frame flushes. -/
def State.entryFreed (s : State) (lc : Nat) (f : Frame) : State := if f.kind = 1 then s.freeInbox lc f.entry else s
def State.idleFlushed (s : State) (lc : Nat) : State := if (s.core lc).frames = [] then s.flush lc else s

theorem State.pop_eq {f : Frame} (hf : s.top lc = some f) : s.pop lc =
    ((((s.popped lc).orphan lc f.level).forgetWalk (s.phys lc)).entryFreed lc f).idleFlushed lc := by
  simp only [State.pop, hf]
  rfl

theorem State.entryFreed_aside (f : Frame) : s.Aside lc n (s.entryFreed lc f) := by
  unfold State.entryFreed
  split
  · exact s.freeInbox_aside ..
  · exact .refl s

theorem State.idleFlushed_aside : s.Aside lc n (s.idleFlushed lc) := by
  unfold State.idleFlushed
  split
  · exact s.flush_aside lc
  · exact .refl s

theorem State.pop_aside {f : Frame} (hf : s.top lc = some f) : (s.popped lc).Aside lc n (s.pop lc) := by
  rw [s.pop_eq hf]
  exact (((State.orphan_aside ..).trans (State.forgetWalk_aside ..)).trans (State.entryFreed_aside ..)).trans
    (State.idleFlushed_aside _)

/-- A frame leaves its core: beside that, what a state leaves unchanged holds before and after. -/
structure State.Leaves (lc : Nat) (s t : State) : Prop where
  data : t.data = s.data
  deliveries : t.prog.deliveries = s.prog.deliveries
  traps : ∀ cls i, cls < 16 → i < 4096 → t.counter (cTRAPS + cls) i = s.counter (cTRAPS + cls) i
  uncovers : (t.core lc).frames = uncover ((s.core lc).frames.drop 1)

theorem State.Aside.leaves {s t u : State} (h : s.Aside lc 1 t) (k : (t.popped lc).Aside lc 0 u) : s.Leaves lc u where
  data := k.data.trans h.data
  deliveries := k.deliveries.trans h.deliveries
  traps cls i hc hi := (k.traps cls i hc hi).trans (h.traps cls i hc hi)
  uncovers := by
    have hbelow := k.below
    simp only [List.drop_zero, State.popped, State.core_setCore] at hbelow
    rw [hbelow, ← h.below, List.drop_one]

theorem State.Leaves.after {s t u : State} (h : s.Aside lc 1 t) (k : t.Leaves lc u) : s.Leaves lc u :=
  ⟨k.data.trans h.data, k.deliveries.trans h.deliveries, fun cls i hc hi => (k.traps cls i hc hi).trans (h.traps cls i hc hi),
    by rw [k.uncovers, h.below]⟩

theorem State.Leaves.before {s t u : State} (h : s.Leaves lc t) (k : t.Aside lc 0 u) : s.Leaves lc u :=
  ⟨k.data.trans h.data, k.deliveries.trans h.deliveries, fun cls i hc hi => (k.traps cls i hc hi).trans (h.traps cls i hc hi),
    k.below.trans h.uncovers⟩

theorem State.endFrame_leaves {f : Frame} (hf : s.top lc = some f) (aborted : Bool) (marks : List Mark) :
    s.Leaves lc (s.endFrame lc aborted marks) := by
  have hstreams : s.Aside lc 1 ((f.streams.toList ++ f.draining.map some).foldl (fun s x => s.endStream lc aborted x) s) :=
    .foldl _ (fun t x => t.endStream_aside ..) _ _
  have hposted := (hstreams.trans (State.disband_aside _)).trans
    (State.post_aside _ lc ⟨f.graph, f.station, f.ltime, -1, none, marks⟩)
  obtain ⟨g, hg⟩ := hposted.top hf
  simp only [State.endFrame, hf]
  exact hposted.leaves (State.pop_aside _ hg)

end


/-! ### The error that a DATA trap meets (R28, R29, R200) -/

theorem State.xlateSpan_translated {s t : State} {die : Nat} {holders : List Nat} {part ctx va n need : Nat} {l : List Nat}
    (h : s.xlateSpan die holders part ctx va n need = .pas l t) : s.Translated t := by
  unfold State.xlateSpan at h
  split at h
  · cases h
  · cases h
  · next p u hp =>
    have hu := State.xlate_translated hp
    dsimp only at h
    split at h
    · cases h; exact hu
    · split at h
      · cases h
      · cases h
      · next q v hq => cases h; exact hu.trans (State.xlate_translated hq)

section
variable {lc n : Nat}

theorem State.Translated.aside {s t : State} (h : s.Translated t) : s.Aside lc n t := by
  obtain ⟨_, _, _, rfl⟩ := h
  exact s.aside_mem _ rfl

variable (s : State)

theorem State.countSram_aside {die kind : Nat} (hd : die < 8) (hk : kind < 6) : s.Aside lc n (s.countSram cSRAMUE die kind) :=
  s.count_aside (code := cSRAMUE) (by decide) (by omega)

theorem State.countUe_aside (pa : Nat) : s.Aside lc n (s.countUe pa) := by
  unfold State.countUe
  split
  · exact s.countSram_aside (Nat.div_lt_of_lt_mul (sliceOf_lt pa)) (by decide)
  · split
    · next a _ => exact s.count_aside (code := cHBMUE) (by decide) ((stackOf_lt a).trans (by decide))
    · exact s.count_aside (code := cCXLUE) (by decide) ((Nat.mod_lt _ (by decide)).trans (by decide : 4 < 4096))
    · exact .refl s

theorem State.meetUe_aside (l : List Nat) : s.Aside lc n (s.meetUe l) := by
  unfold State.meetUe
  cases l.find? s.badAt with
  | none => exact .refl s
  | some a => exact s.countUe_aside a

theorem State.meetCellarUe_aside (l : List Nat) : s.Aside lc n (s.meetCellarUe l) := by
  unfold State.meetCellarUe
  cases l.find? s.badCellarAt with
  | none => exact .refl s
  | some a => exact s.countSram_aside (s.dieOf_lt _) (by decide)

theorem State.meetLoad_aside (k : Nat) (l : List Nat) : s.Aside lc n (s.meetLoad k l) := by
  unfold State.meetLoad
  split
  · exact s.meetUe_aside l
  · split
    · exact s.countSram_aside (s.dieOf_lt k) (by decide)
    · exact s.meetUe_aside _

theorem State.meetData_aside (k : Nat) (addr : Word) : s.Aside lc n (s.meetData k addr) := by
  unfold State.meetData
  split
  · exact s.countSram_aside (s.dieOf_lt k) (by decide)
  · split
    · split
      · exact s.meetCellarUe_aside _
      · exact .refl s
    · split
      · next h => exact (State.xlateSpan_translated h).aside.trans (State.meetLoad_aside ..)
      · split
        · next h => exact (State.xlateSpan_translated h).aside.trans (State.meetLoad_aside ..)
        · exact .refl s
    · exact .refl s

/-! ### A trap is noted (R224 to R227) -/

/-- A frame with TRAPCAUSE and TRAPVAL of a trap. -/
def Frame.caused (f : Frame) (cls act : Nat) (val : Word) (late : Option Nat) : Frame :=
  { f with h := { f.h with
    trapcause := causeWord late.isSome (late.getD f.h.pc) (f.kind == 1) f.level act cls, trapval := val } }

/-- The counters of single classes (R245). -/
def State.classCounted (s : State) (cls p : Nat) : State :=
  if cls = TIME then s.count cTIMEF p
  else if cls = CLAIM then s.count cCLAIMF p
  else if cls = BUDGET then s.count cBUDGETX p
  else if cls = ENTRY then s.count cENTRYF p
  else s

theorem State.classCounted_cores (cls p : Nat) : (s.classCounted cls p).cores = s.cores := by
  unfold State.classCounted
  repeat' split
  all_goals rfl

theorem State.classCounted_top (cls p k : Nat) : (s.classCounted cls p).top k = s.top k := by
  simp only [State.top, State.core, State.classCounted_cores]

theorem State.noteTrap_eq {s : State} {f : Frame} (hf : s.top lc = some f) (cls act : Nat) (val : Word) (late : Option Nat) :
    s.noteTrap lc cls act val late =
      ((s.count (cTRAPS + cls) (s.partOf lc)).classCounted cls (s.partOf lc)).setTop lc (f.caused cls act val late) := by
  have htop := ((s.count (cTRAPS + cls) (s.partOf lc)).classCounted_top cls (s.partOf lc) lc).trans hf
  simp only [State.classCounted] at htop ⊢
  simp only [State.noteTrap, htop]
  rfl

/-- A trap that is noted changes nothing else of its frame. -/
theorem State.noteTrap_top {s : State} {f : Frame} (hf : s.top lc = some f) (cls act : Nat) (val : Word) (late : Option Nat) :
    (s.noteTrap lc cls act val late).top lc = some (f.caused cls act val late) := by
  rw [State.noteTrap_eq hf]
  exact State.setTop_top _ _ _ f ((State.classCounted_top ..).trans hf)

theorem State.classCounted_aside (cls : Nat) {p : Nat} (hp : p < 4096) : s.Aside lc n (s.classCounted cls p) := by
  unfold State.classCounted
  split
  · exact s.count_aside (code := cTIMEF) (by decide) hp
  · split
    · exact s.count_aside (code := cCLAIMF) (by decide) hp
    · split
      · exact s.count_aside (code := cBUDGETX) (by decide) hp
      · split
        · exact s.count_aside (code := cENTRYF) (by decide) hp
        · exact .refl s

end

/-! ### The steps of a trap (R224, R227 to R232) -/

/-- The action that a trap takes (R227): action 3 acts as 0, and so does a delivery without a handler (log entry 23). -/
def State.trapAct (s : State) (lc : Nat) (f : Frame) (cls : Nat) : Nat :=
  let a := f.action cls
  if a = 3 ∨ (a = 1 ∧ !bit (s.handler lc f.graph) 63) then 0 else a

/-- A DATA trap has met its error. -/
def State.dataMet (s : State) (lc cls : Nat) (val : Word) : State := if cls = DATA then s.meetData lc val else s

/-- The trap is noted, and one of a trap handler is counted. -/
def State.trapNoted (s : State) (lc : Nat) (f : Frame) (cls act : Nat) (val : Word) (late : Option Nat) : State :=
  let s1 := (s.dataMet lc cls val).noteTrap lc cls act val late
  if f.level = 7 then s1.count cHNDFLT (s.partOf lc) else s1

/-- Further deliveries wait for the front end. -/
def State.awaiting (s : State) (l : List Delivery) : State :=
  { s with prog := { s.prog with deliveries := s.prog.deliveries ++ l } }

/-- Action 1 has a delivery counted, which then waits. -/
def State.trapDelivered (s : State) (lc act : Nat) (r : Rec) : State :=
  if act = 1 then (s.post lc (r.delta 1 [])).awaiting [⟨lc, r⟩] else s

/-- The record that delivers a trap of an action, and the deliveries that it brings. -/
def State.trapRec (s : State) (lc : Nat) (f : Frame) (cls act : Nat) (val : Word) (late : Option Nat) : Rec :=
  (s.trapNoted lc f cls act val late).trapRecord lc f
    (causeWord late.isSome (late.getD f.h.pc) (f.kind == 1) f.level act cls) val
def State.trapDue (s : State) (lc : Nat) (f : Frame) (cls act : Nat) (val : Word) (late : Option Nat) : List Delivery :=
  if act = 1 then [⟨lc, s.trapRec lc f cls act val late⟩] else []

/-- A frame that is run again has its record posted anew. -/
def State.trapRerun (s : State) (lc : Nat) (f : Frame) (cls : Nat) : State := if f.reruns cls then s.repost lc f else s

/-- The marks of the decrement of a frame that a trap ends. -/
def Frame.trapMarks (f : Frame) (act cls : Nat) : List Mark :=
  if f.reruns cls then (if act = 2 then [.drop] else []) else [.abort cls]

/-- Action 2 halts the launch. -/
def State.trapHalted (s : State) (lc : Nat) (f : Frame) (act : Nat) : State := if act = 2 then s.haltLaunch lc f else s

section
variable {s : State} {lc n : Nat} {f : Frame}

theorem State.takeTrap_eq (hf : s.top lc = some f) (cls : Nat) (val : Word) (late : Option Nat) :
    s.takeTrap lc cls val late =
      let act := s.trapAct lc f cls
      let t := s.trapNoted lc f cls act val late
      (((t.trapDelivered lc act (s.trapRec lc f cls act val late)).trapRerun lc f cls).endFrame lc true (f.trapMarks act cls)).trapHalted lc f act := by
  simp only [State.takeTrap, hf]
  rfl

theorem State.dataMet_aside (s : State) (cls : Nat) (val : Word) : s.Aside lc n (s.dataMet lc cls val) := by
  unfold State.dataMet
  split
  · exact s.meetData_aside ..
  · exact .refl s

theorem State.trapNoted_aside (hf : s.top lc = some f) (cls act : Nat) (val : Word) (late : Option Nat) :
    ((s.dataMet lc cls val).count (cTRAPS + cls) (s.partOf lc)).Aside lc 1 (s.trapNoted lc f cls act val late) := by
  have hmet := s.dataMet_aside (lc := lc) (n := 1) cls val
  have hpart : s.partOf lc < 4096 := (s.partOf_lt lc).trans (by decide)
  obtain ⟨g, hg⟩ := hmet.top hf
  have hnoted : ((s.dataMet lc cls val).count (cTRAPS + cls) (s.partOf lc)).Aside lc 1
      ((s.dataMet lc cls val).noteTrap lc cls act val late) := by
    rw [State.noteTrap_eq hg, hmet.partOf]
    exact (State.classCounted_aside _ cls hpart).trans (State.setTop_aside ..)
  unfold State.trapNoted
  dsimp only
  split
  · exact hnoted.trans (State.count_aside _ (code := cHNDFLT) (by decide) hpart)
  · exact hnoted

theorem State.Aside.awaiting {t : State} (h : s.Aside lc n t) (l : List Delivery) : (s.awaiting l).Aside lc n (t.awaiting l) :=
  ⟨h.data, h.feTab, congrArg (· ++ l) h.deliveries, h.traps, h.below, h.depth⟩

theorem State.awaiting_counter (s : State) (l : List Delivery) (code i : Nat) :
    (s.awaiting l).counter code i = s.counter code i := rfl

theorem State.awaiting_nil (s : State) : s.awaiting [] = s := by rw [State.awaiting, List.append_nil]

theorem State.trapRerun_aside (s : State) (f : Frame) (cls : Nat) : s.Aside lc n (s.trapRerun lc f cls) := by
  unfold State.trapRerun
  split
  · exact ((s.post_aside ..).trans (State.send_aside ..)).trans
      (State.count_aside _ (code := cRERUN) (by decide) ((bits_lt ..).trans (by decide)))
  · exact .refl s

theorem State.trapHalted_aside (s : State) (f : Frame) (act : Nat) : s.Aside lc n (s.trapHalted lc f act) := by
  unfold State.trapHalted
  split
  · exact s.installLate_aside ..
  · exact .refl s

/-- What a trap does beside the frame that leaves: the error it met is counted, its class is counted, and its delivery waits
where it takes action 1. -/
theorem State.takeTrap_leaves (hf : s.top lc = some f) (cls : Nat) (val : Word) (late : Option Nat) :
    (((s.dataMet lc cls val).count (cTRAPS + cls) (s.partOf lc)).awaiting
      (s.trapDue lc f cls (s.trapAct lc f cls) val late)).Leaves lc (s.takeTrap lc cls val late) := by
  have hnoted := State.trapNoted_aside hf cls (s.trapAct lc f cls) val late
  have hdelivered : (((s.dataMet lc cls val).count (cTRAPS + cls) (s.partOf lc)).awaiting
      (s.trapDue lc f cls (s.trapAct lc f cls) val late)).Aside lc 1
        ((s.trapNoted lc f cls (s.trapAct lc f cls) val late).trapDelivered lc (s.trapAct lc f cls)
          (s.trapRec lc f cls (s.trapAct lc f cls) val late)) := by
    unfold State.trapDelivered State.trapDue
    split
    · exact (hnoted.trans (State.post_aside ..)).awaiting _
    · rw [State.awaiting_nil]; exact hnoted
  have hrerun := hdelivered.trans (State.trapRerun_aside _ f cls)
  obtain ⟨g, hg⟩ := (s.dataMet_aside (lc := lc) (n := 1) cls val).top hf
  obtain ⟨g', hg'⟩ := hrerun.top hg
  rw [State.takeTrap_eq hf]
  exact .before (.after hrerun (State.endFrame_leaves _ hg' true _)) (State.trapHalted_aside ..)

theorem State.trapAct_delivers {cls : Nat} (h : f.action cls = 1 ∧ bit (s.handler lc f.graph) 63 = true) :
    s.trapAct lc f cls = 1 := by
  simp [State.trapAct, h.1, h.2]

theorem State.trapAct_keeps {cls : Nat} (h : ¬ (f.action cls = 1 ∧ bit (s.handler lc f.graph) 63 = true)) :
    s.trapAct lc f cls ≠ 1 := by
  simp only [State.trapAct]
  split
  · decide
  · next hact => exact fun ha => h ⟨ha, by simpa [ha] using hact⟩

end

/-! ### The fields of TRAPCAUSE (R226, R234) -/

theorem toNat_causeWord (late inh : Bool) (pc level act cls : Nat) : (causeWord late pc inh level act cls).toNat =
    late.toNat * 2 ^ 40 + pc % 2 ^ 24 * 2 ^ 16 + inh.toNat * 2 ^ 15 + level % 8 * 2 ^ 12 + act % 4 * 2 ^ 8 + cls % 16 := by
  have hlate := Bool.toNat_le late
  have hinh := Bool.toNat_le inh
  rw [causeWord, BitVec.toNat_ofNat, Nat.mod_eq_of_lt]
  omega

theorem beq_one_of_toNat (b : Bool) : (b.toNat == 1) = b := by cases b <;> rfl

theorem causeWord_fields (late inh : Bool) (pc level act cls : Nat) :
    let w := causeWord late pc inh level act cls
    bits w 0 4 = cls % 16 ∧ bits w 8 2 = act % 4 ∧ bits w 12 3 = level % 8 ∧ bit w 15 = inh ∧ bits w 16 24 = pc % 2 ^ 24 ∧
      bit w 40 = late ∧ bits w 4 4 = 0 ∧ bits w 10 2 = 0 ∧ bits w 41 23 = 0 := by
  have hlate := Bool.toNat_le late
  have hinh := Bool.toNat_le inh
  have h15 : bits (causeWord late pc inh level act cls) 15 1 = inh.toNat := by rw [bits, toNat_causeWord]; omega
  have h40 : bits (causeWord late pc inh level act cls) 40 1 = late.toNat := by rw [bits, toNat_causeWord]; omega
  simp only [bit, h15, h40, beq_one_of_toNat, true_and]
  simp only [bits, toNat_causeWord]
  omega

/-! ### The statement -/

/-- Settles O55: what a trap does beside its frame, by its steps; the fields of TRAPCAUSE, by its number. -/
theorem trapEntry : Obligations.TrapEntry := by
  refine ⟨fun s lc cls f l val late hframes => ?_, causeWord_fields⟩
  have hf : s.top lc = some f := by rw [State.top, hframes]; rfl
  have hpart : s.partOf lc < 4096 := (s.partOf_lt lc).trans (by decide)
  have hmet := s.dataMet_aside (lc := lc) (n := 1) cls val
  have hleaves := State.takeTrap_leaves hf cls val late
  have hdata := hleaves.data.trans hmet.data
  have hdue : ∀ ds, s.trapDue lc f cls (s.trapAct lc f cls) val late = ds →
      (s.takeTrap lc cls val late).prog.deliveries = s.prog.deliveries ++ ds := by
    intro ds hds
    rw [hleaves.deliveries, hds]
    exact congrArg (· ++ ds) hmet.deliveries
  refine ⟨fun act => ?_, fun hcls => ?_, ?_, ⟨congrArg Prod.fst hdata, congrArg Prod.snd hdata⟩, fun _ hd => ?_, fun _ hd => ?_⟩
  · exact State.noteTrap_top hf cls act val late
  · rw [hleaves.traps cls _ hcls hpart, State.awaiting_counter, State.count, State.counter_countBy, hmet.traps cls _ hcls hpart]
  · rw [hleaves.uncovers]
    exact congrArg uncover (hmet.below.trans (by rw [hframes, List.drop_one, List.tail_cons]))
  · exact ⟨_, hdue _ (by rw [State.trapDue, State.trapAct_delivers hd, if_pos rfl]), rfl, rfl, rfl, rfl, rfl, rfl⟩
  · rw [hdue [] (by rw [State.trapDue, if_neg (State.trapAct_keeps hd)]), List.append_nil]

end Sys2Proof.Machine
end

section
/-! PROOFS. Where control may go, claims, and task-level and launch-level cancels (R101, R105 to R111, R304, R320, R399). -/

namespace Sys2Proof.Machine

/-! ### Targets (R101, R304, R320) -/

theorem inOverlay_iff (o : Option Nat) (t : Nat) :
    inOverlay o t = true ↔ ∀ n, o = some n → 0x4000 * n ≤ t ∧ t ≤ 0x4000 * n + 0x3FFF := by
  cases o with
  | none => simp [inOverlay]
  | some n =>
    simp only [inOverlay, beq_iff_eq, Option.some.injEq, forall_eq']
    omega

section
variable {s : State} {lc : Nat} {f : Frame} (ha : s.agent = .core lc) (hf : s.top lc = some f) (t : Int)
include ha hf

theorem State.target_handler (hk : f.kind = 1) : s.target t = if 0 ≤ t ∧ t ≤ 11 then .ok t.toNat else .handler := by
  have hlt : t < 12 ↔ t ≤ 11 := by omega
  simp only [State.target, ha, hf, hk, if_true, hlt]

theorem State.target_image {g : Graph} (hk : f.kind ≠ 1) (hg : s.graph f.graph = some g) : s.target t =
    if 0 ≤ t ∧ t < g.words ∧ inOverlay f.overlay t.toNat then .ok t.toNat
    else .outside (BitVec.ofInt 64 (g.text.toNat + 4 * t)) := by
  have hval : g.text + BitVec.ofInt 64 (4 * t) = BitVec.ofInt 64 (g.text.toNat + 4 * t) := by
    rw [BitVec.ofInt_add, BitVec.ofInt_natCast, BitVec.ofNat_toNat, BitVec.setWidth_eq]
  simp only [State.target, ha, hf, hk, if_false, State.codeWords, State.codeBase, hg, Option.map_some, Option.getD_some, hval]

end

/-- Settles O12: a handler reaches its twelve words, another frame a word of its image and its overlay. -/
theorem reachableTargets : Obligations.ReachableTargets := by
  intro s lc f g t ha hf
  refine ⟨State.target_handler ha hf t, fun hk hg => ?_⟩
  simp only [State.target_image ha hf t hk hg, inOverlay_iff]

/-! ### Claims (R105 to R107) -/

theorem claimVal_eq (reason k : Nat) : claimVal reason k = BitVec.ofNat 64 (reason * 256 + k) := rfl

section
variable {s : State} {lc : Nat} {f : Frame} {k : Nat}

theorem State.claimReason_away (h : (s.resource f.graph k).getLsbD 31 = false ∨ (s.resource f.graph k).toNat % 1024 ≠ lc) :
    s.claimReason lc f k = some 1 := by
  refine if_pos (Bool.or_eq_true_iff.mpr (h.imp (fun h => ?_) bne_iff_ne.mpr))
  rw [h, Bool.not_false]

section
variable (hv : (s.resource f.graph k).getLsbD 31 = true) (hh : (s.resource f.graph k).toNat % 1024 = lc)
include hv hh

theorem State.claimReason_home : s.claimReason lc f k =
    if f.ceiling k = 0 ∨ f.ceiling k < f.level then some 2
    else if f.claims.length ≥ 7 then some 3
    else if f.claims.any fun x => x.slot == k then some 4
    else none := by
  have hhome : ¬ (!(s.resource f.graph k).getLsbD 31 || (s.resource f.graph k).toNat % 1024 != lc) = true := by simp [hv, hh]
  exact if_neg hhome

theorem State.claimReason_ceiling (h : f.ceiling k = 0 ∨ f.ceiling k < f.level) : s.claimReason lc f k = some 2 := by
  rw [State.claimReason_home hv hh, if_pos h]

section
variable (h0 : f.ceiling k ≠ 0) (hl : f.level ≤ f.ceiling k)
include h0 hl

theorem State.claimReason_depth (h : 7 ≤ f.claims.length) : s.claimReason lc f k = some 3 := by
  rw [State.claimReason_home hv hh, if_neg (not_or.mpr ⟨h0, Nat.not_lt.mpr hl⟩), if_pos h]

theorem State.claimReason_held (h : f.claims.length < 7) (hc : ∃ c ∈ f.claims, c.slot = k) : s.claimReason lc f k = some 4 := by
  rw [State.claimReason_home hv hh, if_neg (not_or.mpr ⟨h0, Nat.not_lt.mpr hl⟩), if_neg (Nat.not_le.mpr h),
    if_pos (by simpa using hc)]

theorem State.claimReason_none (h : f.claims.length < 7) (hc : ∀ c ∈ f.claims, c.slot ≠ k) : s.claimReason lc f k = none := by
  rw [State.claimReason_home hv hh, if_neg (not_or.mpr ⟨h0, Nat.not_lt.mpr hl⟩), if_neg (Nat.not_le.mpr h),
    if_neg (by simpa using hc)]

end

end

end

section
variable {s : State} {lc : Nat} {f : Frame} {v : List Word} (ha : s.agent = .core lc) (hf : s.top lc = some f)
include ha hf

section
variable {k : Fin 16} (hv : s.front (.claim k) = .go v)
include hv

theorem exec_claim_refused {r : Nat} (hr : s.claimReason lc f k.val = some r) :
    exec (.claim k) s = .next (s.trap CLAIM (BitVec.ofNat 64 (r * 256 + k.val))) := by
  change execClaim k s = _
  rw [execClaim, State.withFrame_go s _ _ lc f v ha hf hv, hr]
  rfl

theorem exec_claim_granted (hr : s.claimReason lc f k.val = none) : exec (.claim k) s =
    .next ((s.setTop lc { f with
      claims := ⟨f.thresh, k.val⟩ :: f.claims, thresh := max f.thresh (f.ceiling k.val) }).retire (.claim k)) := by
  change execClaim k s = _
  rw [execClaim, State.withFrame_go s _ _ lc f v ha hf hv, hr]

end

section
variable {k : Fin 16} (hv : s.front (.rels k) = .go v)
include hv

theorem exec_rels_empty (hc : f.claims = []) :
    exec (.rels k) s = .next (s.trap CLAIM (BitVec.ofNat 64 (6 * 256 + k.val))) := by
  change execRels k s = _
  simp only [execRels, State.withFrame_go s _ _ lc f v ha hf hv, hc, claimVal_eq]

theorem exec_rels_other {c : Claim} {l : List Claim} (hc : f.claims = c :: l) (hs : c.slot ≠ k.val) :
    exec (.rels k) s = .next (s.trap CLAIM (BitVec.ofNat 64 (5 * 256 + k.val))) := by
  change execRels k s = _
  simp only [execRels, State.withFrame_go s _ _ lc f v ha hf hv, hc, claimVal_eq, if_pos hs]

theorem exec_rels_latest {c : Claim} {l : List Claim} (hc : f.claims = c :: l) (hs : c.slot = k.val) :
    exec (.rels k) s = .next ((s.setTop lc { f with claims := l, thresh := c.before }).retire (.rels k)) := by
  change execRels k s = _
  simp only [execRels, State.withFrame_go s _ _ lc f v ha hf hv, hc, if_neg (not_not.mpr hs)]

end

end

/-- Settles O29: a claim takes its first reason or is granted; a release has three cases of the claim stack. -/
theorem claimAndRelease : Obligations.ClaimAndRelease := by
  intro s lc f k v ha hf ceiling home
  refine ⟨fun hv => ⟨fun h => ?_, fun hvalid hhome => ⟨fun h => ?_, fun h0 hl => ⟨fun h => ?_, fun h hc => ?_, fun h hc => ?_⟩⟩⟩,
    fun hv => ⟨fun hc => ?_, fun c l hc hs => ?_, fun c l hc hs => ?_⟩⟩
  · exact exec_claim_refused ha hf hv (State.claimReason_away h)
  · exact exec_claim_refused ha hf hv (State.claimReason_ceiling hvalid hhome h)
  · exact exec_claim_refused ha hf hv (State.claimReason_depth hvalid hhome h0 hl h)
  · exact exec_claim_refused ha hf hv (State.claimReason_held hvalid hhome h0 hl h hc)
  · exact exec_claim_granted ha hf hv (State.claimReason_none hvalid hhome h0 hl h hc)
  · exact exec_rels_empty ha hf hv hc
  · exact exec_rels_other ha hf hv hc hs
  · exact exec_rels_latest ha hf hv hc hs

/-! ### The marks of a slot (R109 to R111, R399; log entry 111) -/

section
variable {s : State} {g : Nat} {m : CancelMark}

theorem State.installHere_present (h : ∃ y ∈ (s.root g).marks, sameMark m y = true) :
    s.installHere g m = (1, s.renewMark g m) := by
  rw [State.installHere, if_pos (by simpa using h)]

section
variable (h : ∀ y ∈ (s.root g).marks, sameMark m y = false)
include h

theorem State.installHere_full (hfull : 8 ≤ (s.root g).marks.length) : s.installHere g m = (2, s) := by
  rw [State.installHere, if_neg (by simpa using h), if_pos (show Config.cancelMarks ≤ _ from hfull)]

theorem State.installHere_free (hroom : (s.root g).marks.length < 8) : s.installHere g m = (0, s.putMark g m) := by
  rw [State.installHere, if_neg (by simpa using h), if_neg (show ¬ Config.cancelMarks ≤ _ from Nat.not_le.mpr hroom)]

end

theorem State.install_full (h : s.installHere g m = (2, s)) : s.install g m = (2, s) := by
  simp only [State.install, h, if_true]

/-- A module that is alone in the domain of a slot of its own has nobody to tell of a mark. -/
theorem State.install_alone {n : Nat} {t : State} (h : s.installHere g m = (n, t)) (hn : n ≠ 2) (hhome : t.homed g = true)
    (halone : t.domainOf g = []) (hdev : t.devid = s.devid) : s.install g m = (n, t) := by
  simp only [State.install, h, if_neg hn, State.tellMark, hhome, if_true, State.spreadMark, halone, hdev]

end

/-! ### What a mark leaves unchanged -/

/-- A state differs from another in what a new mark of a slot can change: roots, nodes, collectives, deferred reads, counts. -/
def State.Marked (s t : State) : Prop :=
  ∃ r n c k x, t = { s with prog := { s.prog with roots := r, nodes := n, colls := c }, counters := k, slices := x }

theorem State.Marked.refl (s : State) : s.Marked s := ⟨_, _, _, _, _, rfl⟩

theorem State.Marked.trans {s t u : State} (h : s.Marked t) (k : t.Marked u) : s.Marked u := by
  obtain ⟨_, _, _, _, _, rfl⟩ := h
  obtain ⟨_, _, _, _, _, rfl⟩ := k
  exact ⟨_, _, _, _, _, rfl⟩

section
variable {s t : State} (h : s.Marked t) (g : Nat)
include h

theorem State.Marked.homed : t.homed g = s.homed g := by obtain ⟨_, _, _, _, _, rfl⟩ := h; rfl
theorem State.Marked.domainOf : t.domainOf g = s.domainOf g := by obtain ⟨_, _, _, _, _, rfl⟩ := h; rfl
theorem State.Marked.devid : t.devid = s.devid := by obtain ⟨_, _, _, _, _, rfl⟩ := h; rfl
theorem State.Marked.markOut (m : CancelMark) : t.markOut g m = s.markOut g m := by obtain ⟨_, _, _, _, _, rfl⟩ := h; rfl

end

/-- A fold of steps that change no more does not either. -/
theorem State.Marked.foldl {α : Type} (g : State → α → State) (h : ∀ (t : State) x, t.Marked (g t x)) (l : List α) (s : State) :
    s.Marked (l.foldl g s) := List.foldlRecOn l g (.refl s) fun t ht x _ => ht.trans (h t x)

theorem State.setRoot_marked (s : State) (g : Nat) (r : Root) : s.Marked (s.setRoot g r) := ⟨_, _, _, _, _, rfl⟩
theorem State.setSlice_marked (s : State) (k : Nat) (x : Slice) : s.Marked (s.setSlice k x) := ⟨_, _, _, _, _, rfl⟩
theorem State.setColls_marked (s : State) (l : List Collective) :
    s.Marked { s with prog := { s.prog with colls := l } } := ⟨_, _, _, _, _, rfl⟩

theorem State.cancelDrop_marked (s : State) (die : Nat) (r : Rec) : s.Marked (s.cancelDrop die r) := by
  unfold State.cancelDrop State.dropAt State.postNode
  dsimp only
  split <;> exact ⟨_, _, _, _, _, rfl⟩

theorem State.cancelPantry_marked (s : State) (g : Nat) (m : CancelMark) (k : Nat) : s.Marked (s.cancelPantry g m k) := by
  unfold State.cancelPantry
  dsimp only
  split
  · exact (s.setSlice_marked ..).trans (.foldl _ (fun t x => t.cancelDrop_marked ..) _ _)
  · exact .refl s

theorem State.cancelColls_marked (s : State) (g : Nat) (m : CancelMark) : s.Marked (s.cancelColls g m) :=
  (s.setColls_marked _).trans (.foldl _ (fun t _ => t.cancelDrop_marked ..) _ _)

theorem State.putMark_marked (s : State) (g : Nat) (m : CancelMark) : s.Marked (s.putMark g m) :=
  ((s.setRoot_marked ..).trans (.foldl _ (fun t k => t.cancelPantry_marked g m k) _ _)).trans (State.cancelColls_marked ..)

theorem State.renewMark_marked (s : State) (g : Nat) (m : CancelMark) : s.Marked (s.renewMark g m) :=
  s.setRoot_marked ..

/-! ### `cncl.t` and `cncl.l` (R109 to R111, R165, R399) -/

section
variable {s : State} {lc : Nat} {f : Frame} {t : Word} {d a : Reg} (ha : s.agent = .core lc) (hf : s.top lc = some f)
include ha hf

section
variable {st : Fin 64} (hv : s.front (.cnclT d a st) = .go [t])
include hv

theorem exec_cnclT_named (h : s.namesTime f.graph st.val t = true) : exec (.cnclT d a st) s =
    .next ((s.cancelQueued lc f.graph st.val t).2.finish (.cnclT d a st) d
      (BitVec.ofNat 64 (s.cancelQueued lc f.graph st.val t).1)) := by
  change execCnclT d a st s = _
  simp only [execCnclT, State.withFrame_go s _ _ lc f [t] ha hf hv, List.getD_cons_zero, h, if_true]

theorem exec_cnclT_unnamed (h : s.namesTime f.graph st.val t = false) :
    exec (.cnclT d a st) s = .next (s.finish (.cnclT d a st) d 0) := by
  change execCnclT d a st s = _
  simp [execCnclT, State.withFrame_go s _ _ lc f [t] ha hf hv, h]

end

section
variable {p : Fin 8} (hv : s.front (.cnclL d a p) = .go [t])
include hv

/-- `cncl.l` that has installed its mark waits for the other modules, and then gives the result that it has kept. -/
theorem exec_cnclL_kept {x : Sent} (hx : (f.h.sent.find? fun y => y.tag == cnclTag) = some x) :
    exec (.cnclL d a p) s =
      .next (if s.markOut f.graph ⟨t, p.val, false⟩ then s else s.finish (.cnclL d a p) d x.addr) := by
  change execCnclL d a p s = _
  simp only [execCnclL, State.withFrame_go s _ _ lc f [t] ha hf hv, List.getD_cons_zero, hx]

section
variable (hx : (f.h.sent.find? fun y => y.tag == cnclTag) = none)
include hx

theorem exec_cnclL_busy {u : State} (hi : s.install f.graph ⟨t, p.val, false⟩ = (2, u)) :
    exec (.cnclL d a p) s = .next ((u.count cCNCLBUSY (s.partOf lc)).finish (.cnclL d a p) d 2) := by
  change execCnclL d a p s = _
  simp only [execCnclL, State.withFrame_go s _ _ lc f [t] ha hf hv, List.getD_cons_zero, hx, hi, if_true]

section
variable {n : Nat} {u : State} (hi : s.install f.graph ⟨t, p.val, false⟩ = (n, u)) (hn : n ≠ 2)
include hi hn

theorem exec_cnclL_waits (h : u.markOut f.graph ⟨t, p.val, false⟩ = true) :
    exec (.cnclL d a p) s = .next (u.noteSent ⟨BitVec.ofNat 64 n, cnclTag, false, some (.data [])⟩) := by
  change execCnclL d a p s = _
  simp only [execCnclL, State.withFrame_go s _ _ lc f [t] ha hf hv, List.getD_cons_zero, hx, hi, if_neg hn, h, if_true]

theorem exec_cnclL_done (h : u.markOut f.graph ⟨t, p.val, false⟩ = false) :
    exec (.cnclL d a p) s = .next (u.finish (.cnclL d a p) d (BitVec.ofNat 64 n)) := by
  change execCnclL d a p s = _
  simp only [execCnclL, State.withFrame_go s _ _ lc f [t] ha hf hv, List.getD_cons_zero, hx, hi, if_neg hn, h, if_false,
    Bool.false_eq_true]

end

/-- In a module that is alone in the domain of its slot, `cncl.l` is done at once. -/
theorem exec_cnclL_alone {n : Nat} {u : State} (hi : s.installHere f.graph ⟨t, p.val, false⟩ = (n, u)) (hn : n ≠ 2)
    (hu : s.Marked u) (hhome : s.homed f.graph = true) (halone : s.domainOf f.graph = [])
    (hout : s.markOut f.graph ⟨t, p.val, false⟩ = false) :
    exec (.cnclL d a p) s = .next (u.finish (.cnclL d a p) d (BitVec.ofNat 64 n)) :=
  exec_cnclL_done ha hf hv hx (State.install_alone hi hn ((hu.homed _).trans hhome) ((hu.domainOf _).trans halone) hu.devid) hn
    ((hu.markOut _ _).trans hout)

end

end

end

/-- Settles O32: `cncl.t` by its two cases, `cncl.l` by what it has kept and by what installing its mark comes to. -/
theorem cancelResults : Obligations.CancelResults := by
  intro s lc f d a st p t ha hf
  refine ⟨fun hv => ⟨exec_cnclT_named ha hf hv, exec_cnclT_unnamed ha hf hv⟩, fun hv => ?_⟩
  refine ⟨fun x hx => ⟨fun h => ?_, fun h => ?_⟩, fun hx => ⟨fun hnew hfull => ?_, fun n u hi hn => ?_, fun hh hd ho => ⟨fun h => ?_,
    fun hnew hroom => ?_⟩⟩⟩
  · rw [exec_cnclL_kept ha hf hv hx, if_pos h]
  · rw [exec_cnclL_kept ha hf hv hx, if_neg (by rw [h]; decide)]
  · exact exec_cnclL_busy ha hf hv hx (State.install_full (State.installHere_full hnew hfull))
  · exact ⟨exec_cnclL_waits ha hf hv hx hi hn, exec_cnclL_done ha hf hv hx hi hn⟩
  · refine ⟨_, ?_, ?_, exec_cnclL_alone ha hf hv hx (State.installHere_present h) (by decide) (s.renewMark_marked ..) hh hd ho⟩
    · simp only [State.renewMark, State.root_setRoot]
    · simp only [State.renewMark, State.root_setRoot, List.length_map]
  · exact exec_cnclL_alone ha hf hv hx (State.installHere_free hnew hroom) (by decide) (s.putMark_marked ..) hh hd ho

end Sys2Proof.Machine
end

section
/-! PROOFS. Admission, the frame it makes, budgets, footprints and the stage governor (R88, R89, R93 to R104, R148 to R157). -/

namespace Sys2Proof.Machine

/-! ### The frame of a record and its header (R89, R93, R94) -/

/-- The registers at entry: s1 to s6 are the arguments, s24 the top of the frame in a window of 32, every other is 0. -/
theorem entryRegs_get (w : Nat) (args : List Word) (top : Nat) (x : Reg) : (entryRegs w args top).get x =
    if 1 ≤ x.val ∧ x.val ≤ 6 then args.getD (x.val - 1) 0
    else if x.val = 24 ∧ w = 32 then BitVec.ofNat 64 top else 0 := by
  simp [entryRegs, Vector.get_eq_getElem]

theorem frameOf_reg (lc h : Nat) (r : Rec) (q : Queued) (c : Core) (x : Reg) : (frameOf lc r q h c [] none).h.reg x =
    if 1 ≤ x.val ∧ x.val ≤ 6 then [r.q2, r.q3, r.q4, r.q5, r.q6, r.q7].getD (x.val - 1) 0
    else if x.val = 24 ∧ hdrField h 4 1 = 32 then BitVec.ofNat 64 c.lowest else 0 := by
  by_cases hx : x = 0
  · subst hx; rfl
  · rw [Hart.reg, if_neg hx]
    exact entryRegs_get ..

/-- Settles O38: the registers by their numbers; what the record and the header give is the frame's own. -/
theorem frameAtAdmission : Obligations.FrameAtAdmission := by
  intro lc h r q c hk f
  have hreg : ∀ x : Reg, f.h.reg x = _ := frameOf_reg lc h r q c
  refine ⟨if_neg hk, hreg 1, hreg 2, hreg 3, hreg 4, hreg 5, hreg 6, fun hw => ?_, fun x h7 h24 => ?_, rfl, rfl, rfl, rfl, rfl, rfl,
    rfl, rfl, rfl, rfl, rfl, rfl, rfl, rfl, rfl⟩
  · rw [hreg, if_neg (by decide), if_pos ⟨rfl, hw⟩]
  · have hval : x.val ≠ 24 := fun h => h24 (Fin.ext h)
    rw [hreg, if_neg (by omega), if_neg fun h => hval h.1]

/-! ### Admission (R94, R96, R97, R104, R148, R149, R151) -/

theorem exec_admission (lc : Nat) (s : State) : exec (.admission lc) s = execAdmission lc s := rfl

theorem execAdmission_begun {s : State} {lc : Nat} (h : s.begunAt lc = true) : execAdmission lc s = .next s := by
  simp only [execAdmission, h, Bool.or_true, if_true]

theorem execAdmission_admits {s : State} {lc : Nat} (hactive : s.active lc = true) (h : s.begunAt lc = false) :
    execAdmission lc s = .next ((s.sweepInbox lc).admitFirst lc) := by
  simp only [execAdmission, hactive, h, Bool.not_true, Bool.or_false, Bool.false_eq_true, if_false]

section
variable {s : State} {lc i : Nat} {q : Queued} (hfirst : s.firstEligible lc = some (i, q))
include hfirst

theorem State.admitFirst_below (h : q.rcd.level ≤ (s.core lc).thresh) : s.admitFirst lc = s := by
  simp only [State.admitFirst, hfirst, if_pos h]

section
variable (hlevel : (s.core lc).thresh < q.rcd.level)
include hlevel

theorem State.admitFirst_handler (hk : q.rcd.kind = 1) :
    s.admitFirst lc = s.push lc (i, q) (bareFrame lc q.rcd q i q.rcd.budget (s.core lc).lowest) := by
  simp only [State.admitFirst, hfirst, if_neg (Nat.not_le.mpr hlevel), if_pos hk]

section
variable (hk : q.rcd.kind ≠ 1)
include hk

theorem State.admitFirst_trapped {x : Nat × Word} (hx : s.entryTrap lc q.rcd = some x) :
    s.admitFirst lc = s.refuseEntry lc (i, q) x.1 x.2 := by
  simp only [State.admitFirst, hfirst, if_neg (Nat.not_le.mpr hlevel), if_neg hk, hx]

section
variable (hx : s.entryTrap lc q.rcd = none)
include hx

theorem State.admitFirst_waits {t : State} (hread : s.readHeader lc q.rcd = .wait t) : s.admitFirst lc = t := by
  simp only [State.admitFirst, hfirst, if_neg (Nat.not_le.mpr hlevel), if_neg hk, hx, hread]

theorem State.admitFirst_pushes {h : Nat} {t : State} (hread : s.readHeader lc q.rcd = .bytes h t) :
    s.admitFirst lc = t.pushTask lc (i, q) h := by
  simp only [State.admitFirst, hfirst, if_neg (Nat.not_le.mpr hlevel), if_neg hk, hx, hread]

end

end

end

end

/-! ### The trap that a record takes at its admission (R104, R149) -/

section
variable {s : State} {lc : Nat} {r : Rec} (hk : r.kind ≠ 1)
include hk

theorem State.entryTrap_waits {t : State} (hread : s.readHeader lc r = .wait t) : s.entryTrap lc r = none := by
  simp only [State.entryTrap, if_neg hk, hread]

section
variable {h : Nat} {t : State} (hread : s.readHeader lc r = .bytes h t)
include hread

theorem State.entryTrap_refused {n : Nat} (hr : headerReason h r ((s.graph r.graph).any Graph.overlays) = some n) :
    s.entryTrap lc r = some (ENTRY, BitVec.ofNat 64 n) := by
  simp only [State.entryTrap, if_neg hk, hread, hr]

variable (hr : headerReason h r ((s.graph r.graph).any Graph.overlays) = none)
include hr

theorem State.entryTrap_accepted : s.entryTrap lc r =
    if s.needs lc r (hdrField h 8 4) > 0x60000 then some (ENTRY, BitVec.ofNat 64 (s.needs lc r (hdrField h 8 4))) else none := by
  simp only [State.entryTrap, if_neg hk, hread, hr]

theorem State.entryTrap_unfit (hn : 0x60000 < s.needs lc r (hdrField h 8 4)) :
    s.entryTrap lc r = some (ENTRY, BitVec.ofNat 64 (s.needs lc r (hdrField h 8 4))) := by
  rw [State.entryTrap_accepted hk hread hr, if_pos hn]

theorem State.entryTrap_none (hn : s.needs lc r (hdrField h 8 4) ≤ 0x60000) : s.entryTrap lc r = none := by
  rw [State.entryTrap_accepted hk hread hr, if_neg (Nat.not_lt.mpr hn)]

end

end

/-! ### Room for a frame (R151) -/

section
variable {s : State} {lc i h : Nat} {q : Queued}

/-- The bytes of a record's frame lie above the static area and meet no footprint. -/
def State.HasRoom (s : State) (lc : Nat) (q : Queued) (z : Nat) : Prop :=
  s.cstat lc + z ≤ (s.core lc).lowest ∧
    ((s.core lc).frames.flatMap Frame.regions ++ (s.core lc).regionsOf q.arrival).any
      (overlaps ((s.core lc).lowest - z, z)) = false

theorem State.frameFits_iff : s.frameFits lc (i, q) h = true ↔ s.HasRoom lc q (hdrField h 8 4) := by
  simp only [State.frameFits, State.HasRoom, Bool.and_eq_true, decide_eq_true_eq, Bool.not_eq_true']

theorem State.pushTask_room (hroom : s.HasRoom lc q (hdrField h 8 4)) :
    let c := s.core lc
    let z := hdrField h 8 4
    let f := frameOf lc q.rcd q h c (c.regionsOf q.arrival) ((c.slotOf q.arrival).bind FootSlot.fault)
    s.pushTask lc (i, q) h = ((s.evictUnder lc q.arrival (c.lowest - z, z)).openWindow lc f).push lc (i, q) f := by
  simp only [State.pushTask, State.frameFits_iff.mpr hroom, Bool.not_true, Bool.false_eq_true, if_false]

theorem State.pushTask_full (hfull : ¬ s.HasRoom lc q (hdrField h 8 4)) : s.pushTask lc (i, q) h = s := by
  have hfits : s.frameFits lc (i, q) h = false := Bool.eq_false_iff.mpr fun hf => hfull (State.frameFits_iff.mp hf)
  simp only [State.pushTask, hfits, Bool.not_false, if_true]

end

/-! ### Budgets (R103) -/

theorem exec_budgetExpire_used {s : State} {lc : Nat} {f : Frame} (hactive : s.active lc = true) (hb : s.begunAt lc = false)
    (hf : s.top lc = some f) (hu : f.unl = false) (hl : f.left = 0) (hm : f.leader = none) (hg : s.gangReady lc f = true) :
    exec (.budgetExpire lc) s = .next (s.takeTrap lc BUDGET 0 none) := by
  change execBudgetExpire lc s = _
  simp [execBudgetExpire, hf, hactive, hb, hu, hl, hm, hg]

/-! ### Footprints (R88, R149 to R151) -/

section
variable {s : State} {lc : Nat} {e : Nat × Queued} (hactive : s.active lc = true)
include hactive

section
variable (hfirst : leastBy queuedBefore ((s.sweepInbox lc).wantSlot lc) = some e)
include hfirst

theorem exec_footprintFetchStart_waits {t : State} (hread : (s.sweepInbox lc).readHeader lc e.2.rcd = .wait t) :
    exec (.footprintFetchStart lc) s = .next t := by
  change execFootprintFetchStart lc s = _
  simp [execFootprintFetchStart, hactive, hfirst, hread]

theorem exec_footprintFetchStart_fetches (hread : ∀ t, (s.sweepInbox lc).readHeader lc e.2.rcd ≠ .wait t) :
    exec (.footprintFetchStart lc) s = .next ((s.sweepInbox lc).fetchFor lc e 3) := by
  change execFootprintFetchStart lc s = _
  simp only [execFootprintFetchStart, hactive, Bool.not_true, Bool.false_eq_true, if_false, hfirst]
  rfl

end

theorem exec_footprintPinned_fetches {slot : Nat} {f g : FootSlot} {t : State} (hslot : (s.core lc).foot[slot]? = some f)
    (hp : f.pinned = false) (he : ((s.core lc).inbox.find? fun e => e.2.arrival == f.arrival) = some e)
    (hlines : s.fetchLines lc e.2.rcd f (f.size / 64 + 1) = (g, t)) :
    let u := t.setCore lc { t.core lc with foot := modifyAt (fun _ => g) (t.core lc).foot slot }
    exec (.footprintPinned lc slot) s =
      .next (if g.pinned then u.dropHolder (4096 + 64 * footKey lc f.id + s.clusterOf lc) else u) := by
  change execFootprintPinned lc slot s = _
  simp [execFootprintPinned, State.fetchSlot, hslot, hp, hactive, he, hlines]

end

section
variable {s : State} {lc : Nat} {r : Rec} {f : FootSlot}

theorem State.fetchLine_over (h : footAt r.footprint f.regions f.fetched = none) :
    s.fetchLine lc r f = (true, { f with pinned := true }, s) := by
  simp only [State.fetchLine, h]

/-- Who a slot's fetch works for. -/
def State.footIssuer (s : State) (lc : Nat) (r : Rec) (f : FootSlot) : Issuer :=
  ⟨footKey lc f.id, lc, s.ctxOf r.graph, s.fnOf r.graph⟩

section
variable {region va off : Nat} (h : footAt r.footprint f.regions f.fetched = some (region, va, off))
include h

theorem State.fetchLine_refused {c : Nat} (hx : s.engSpan (s.footIssuer lc r f) va 64 needR 0 = .trap c) :
    s.fetchLine lc r f =
      (true, { f with pinned := true, fault := some (if c = DATA then DATA else ADDRESS, BitVec.ofNat 64 region) }, s) := by
  simp only [State.footIssuer] at hx
  simp only [State.fetchLine, h, hx]

section
variable {l : List Nat} {t u : State} (hx : s.engSpan (s.footIssuer lc r f) va 64 needR 0 = .pas l t)
include hx

theorem State.fetchLine_copies {bs : List Byte} (hr : s.engRead (s.footIssuer lc r f) (BitVec.ofNat 64 va) 64 0 = .ok bs u) :
    s.fetchLine lc r f =
      (true, { f with fetched := f.fetched + 64 }, u.writeCellar (span (cellarKey lc off) 64) bs) := by
  simp only [State.footIssuer] at hx hr
  simp only [State.fetchLine, h, hx, hr]

theorem State.fetchLine_bad (hr : s.engRead (s.footIssuer lc r f) (BitVec.ofNat 64 va) 64 0 = .bad u) :
    s.fetchLine lc r f = (true, { f with pinned := true, fault := some (DATA, BitVec.ofNat 64 region) }, u) := by
  simp only [State.footIssuer] at hx hr
  simp only [State.fetchLine, h, hx, hr]

end

end

end

/-! ### The stage governor (R155 to R157) -/

/-- A plug-in that cannot be called leaves the weight of a landing as it is (R55, R56). -/
theorem State.askWeight_unusable {s : State} {p : Nat × Nat} (h : (s.plugin (s.fnPlug (s.fnOf p.1))).usable = false) :
    s.askWeight p = s := by
  simp only [State.askWeight, State.raiseOnce, State.raiseCall, h, Bool.not_false, if_true]
  split <;> rfl

/-- One landing that wants a core takes the first of its pool that serves no landing. -/
theorem State.governed_one {s : State} {die c : Nat} {p : Nat × Nat} (hg : (s.graph p.1).isSome = true) :
    let s1 := s.setDie die { s.die die with governing := none }
    ((s1.pool p).find? fun c => (s1.core c).subs.isEmpty && !s1.heldCore c) = some c →
    s.governed die [p] [] = s1.subscribe p c := by
  intro s1 hc
  have hserve : s1.serve p [] = (s1.subscribe p c, none) := by simp only [State.serve, hc]
  have hall : s1.serveAll [p] [] = (s1.subscribe p c, []) := by simp only [State.serveAll, hserve]
  have hwant : sortBy s.servedBefore ([p].filter fun q => (s.graph q.1).isSome) = [p] := by
    simp only [List.filter_cons, hg, if_true, List.filter_nil, sortBy, insertBy]
  unfold State.governed
  simp only [hwant, List.filter_nil]
  rw [show (s.setDie die { s.die die with governing := none }).serveAll [p] [] = _ from hall]
  rfl

section
variable {s : State} {die : Nat}

theorem exec_stageGovernorEval_weighed {want offer : List (Nat × Nat)} (h : (s.die die).governing = some (want, offer)) :
    exec (.stageGovernorEval die) s = .next (if want.any s.weightDue then s else s.governed die want offer) := by
  change execStageGovernorEval die s = _
  simp only [execStageGovernorEval, h]

variable (hidle : (s.die die).governing = none)
include hidle

theorem exec_stageGovernorEval_empty (hl : s.landingsOf die = []) :
    exec (.stageGovernorEval die) s = .next (s.setDie die { s.die die with governing := none }) := by
  change execStageGovernorEval die s = _
  simp [execStageGovernorEval, hidle, hl, State.governed, sortBy, State.serveAll]

theorem exec_stageGovernorEval_serves {p : Nat × Nat} {c : Nat} (hl : s.landingsOf die = [p])
    (hg : (s.graph p.1).isSome = true) (hplug : (s.plugin (s.fnPlug (s.fnOf p.1))).usable = false)
    (hdue : s.weightDue p = false) (hrecs : (s.landing p.1 p.2).recs ≠ []) (hw : s.wants p = true) (ho : s.offers p = false) :
    let s1 := (s.setLanding p.1 p.2 { s.landing p.1 p.2 with empties := 0 }).setDie die { s.die die with governing := none }
    ((s1.pool p).find? fun c => (s1.core c).subs.isEmpty && !s1.heldCore c) = some c →
    exec (.stageGovernorEval die) s = .next (s1.subscribe p c) := by
  intro s1 hc
  have hask : (s.setLanding p.1 p.2 { s.landing p.1 p.2 with empties := 0 }).askWeight p = _ := State.askWeight_unusable hplug
  have hnot : (s.setLanding p.1 p.2 { s.landing p.1 p.2 with empties := 0 }).weightDue p = false := hdue
  change execStageGovernorEval die s = _
  unfold execStageGovernorEval
  simp only [hidle, hl, List.foldl_cons, List.foldl_nil, if_neg hrecs, List.filter_cons, hw, ho, List.filter_nil,
    if_true, hask, List.any_cons, List.any_nil, hnot, Bool.or_false, Bool.false_eq_true, if_false]
  exact congrArg Host.Outcome.next (State.governed_one hg hc)

end

/-! ### The statement -/

/-- Settles O37: each clause is the law of its step. -/
theorem admissionAndFootprints : Obligations.AdmissionAndFootprints := by
  intro s lc hactive
  refine ⟨fun hb => execAdmission_begun hb, fun hb => ?_, fun f hb hf hu hl hm hg => exec_budgetExpire_used hactive hb hf hu hl hm hg,
    fun e he => ⟨fun h => exec_footprintFetchStart_fetches hactive he h, fun t ht => exec_footprintFetchStart_waits hactive he ht⟩,
    fun slot f g e t hslot hp he hlines => exec_footprintPinned_fetches hactive hslot hp he hlines, ?_,
    fun die hl hidle => exec_stageGovernorEval_empty hidle hl, ?_, fun die want offer h => ⟨fun hdue => ?_, fun hdue => ?_⟩⟩
  · intro s1 i q hfirst
    have hadmit : exec (.admission lc) s = .next (s1.admitFirst lc) := execAdmission_admits hactive hb
    rw [hadmit]
    refine ⟨fun hlevel => ?_, fun hlevel hk => ?_, fun t hlevel hk hread => ?_, fun h t hlevel hk hread => ?_⟩
    · rw [State.admitFirst_below hfirst hlevel]
    · rw [State.admitFirst_handler hfirst hlevel hk]
    · rw [State.admitFirst_waits hfirst hlevel hk (State.entryTrap_waits hk hread) hread]
    · refine ⟨fun n hr => ?_, fun hr hn => ?_, fun hr hn hroom => ?_, fun hr hn hfull => ?_⟩
      · rw [State.admitFirst_trapped hfirst hlevel hk (State.entryTrap_refused hk hread hr)]
      · rw [State.admitFirst_trapped hfirst hlevel hk (State.entryTrap_unfit hk hread hr hn)]
      · rw [State.admitFirst_pushes hfirst hlevel hk (State.entryTrap_none hk hread hr hn) hread]
        exact congrArg Host.Outcome.next (State.pushTask_room hroom)
      · rw [State.admitFirst_pushes hfirst hlevel hk (State.entryTrap_none hk hread hr hn) hread, State.pushTask_full hfull]
  · intro r f region va off bs l t u x
    exact ⟨State.fetchLine_over, fun h => ⟨fun hx hr => State.fetchLine_copies h hx hr, fun c hx => State.fetchLine_refused h hx,
      fun hx hr => State.fetchLine_bad h hx hr⟩⟩
  · intro die p c l hl hg hidle hplug hdue hlanding hrecs s1 hw ho hc
    subst hlanding
    exact exec_stageGovernorEval_serves hidle hl hg hplug hdue hrecs hw ho hc
  · rw [exec_stageGovernorEval_weighed h, if_pos hdue]
  · rw [exec_stageGovernorEval_weighed h, if_neg (by rw [hdue]; decide)]

end Sys2Proof.Machine
end

section
/-! PROOFS. `end`, `post` and `ntfy` (R90, R99, R107, R110, R122 to R124, R133, R395 to R397). -/

namespace Sys2Proof.Machine

/-! ### What holds a sender back (R124, R146, R153, R190) -/

theorem State.hart_of_top {s : State} {lc : Nat} {f : Frame} (ha : s.agent = .core lc) (hf : s.top lc = some f) : s.hart = f.h := by
  simp only [State.hart, ha, hf, Option.map_some, Option.getD_some]

theorem State.unlessHeld_some {s : State} {src : Source} {x : Flight} (hx : s.heldFlight src = some x) (part : Flight → Nat)
    (k : Unit → State) : s.unlessHeld src part k =
      if s.hart.stalled then s else (s.setHart { s.hart with stalled := true }).count (stallCode x) (part x) := by
  simp only [State.unlessHeld, hx]

section
variable {s : State} {lc : Nat} (ha : s.agent = .core lc) (k : Unit → State)
include ha

theorem State.unlessStalled_parent (hp : s.parentFull lc = true) : s.unlessStalled k = s := by
  simp only [State.unlessStalled, ha, hp, if_true]

theorem State.unlessStalled_held {x : Flight} (hp : s.parentFull lc = false) (hx : s.heldFlight (.core lc) = some x) :
    s.unlessStalled k =
      if s.hart.stalled then s else (s.setHart { s.hart with stalled := true }).count (stallCode x) (s.partOf lc) := by
  simp only [State.unlessStalled, ha, hp, Bool.false_eq_true, if_false, State.unlessHeld_some hx]

end

theorem State.unlessStalled_dispatcher {s : State} {n : Nat} {x : Flight} (ha : s.agent = .fe n)
    (hx : s.heldFlight .dispatcher = some x) (k : Unit → State) : s.unlessStalled k =
      if s.hart.stalled then s
      else (s.setHart { s.hart with stalled := true }).count (stallCode x) (s.fnPart (s.fnOf x.rcd.graph)) := by
  simp only [State.unlessStalled, ha, State.unlessHeld_some hx]

/-- Where nothing holds its frame back, a sending instruction goes on. -/
theorem State.SenderClear.go {s : State} {lc : Nat} {f : Frame} (h : s.SenderClear lc f) (ha : s.agent = .core lc)
    (hf : s.top lc = some f) (k : Unit → State) : (s.unlessStalled fun _ => s.acked k) = k () := by
  obtain ⟨hp, hx, hu, hr⟩ := h
  rw [State.unlessStalled_core s lc _ ha hp hx, State.acked_go]
  intro lc' f' ha' hf'
  rw [ha] at ha'
  cases ha'
  rw [hf] at hf'
  cases hf'
  exact ⟨hu, hr⟩

/-! ### Reading a block (R377) -/

theorem aligned_iff (a : Word) (n : Nat) : aligned a n = true ↔ a.toNat % n = 0 := beq_iff_eq

section
variable {s : State} {a : Word} {n : Nat} (m : Unit → State) (k : List Word → State → State)

theorem State.block_outside (h : s.spaceOk a (8 * n) = false) : s.block a n m k = s.trap ADDRESS a := by
  simp only [State.block, State.blockFrom, h, Bool.not_false, if_true]

theorem State.block_misaligned (h : s.spaceOk a (8 * n) = true) (ha : a.toNat % (8 * n) ≠ 0) : s.block a n m k = m () := by
  have hal : aligned a (8 * n) = false := Bool.eq_false_iff.mpr fun hal => ha ((aligned_iff ..).mp hal)
  simp only [State.block, State.blockFrom, h, hal, Bool.not_true, Bool.not_false, Bool.false_eq_true, if_false, if_true]

/-- A block that is read is used. -/
theorem State.BlockReads.blockFrom {s0 t : State} {d : List Word} (h : s.BlockReads s0 a n d t) : s.blockFrom s0 a n m k = k d t := by
  obtain ⟨hspace, hal, hread⟩ := h
  simp only [State.blockFrom, hspace, (aligned_iff ..).mpr hal, hread, State.afterLoads, Bool.not_true, Bool.false_eq_true, if_false]

theorem State.BlockReads.block {t : State} {d : List Word} (h : s.BlockReads s a n d t) : s.block a n m k = k d t := h.blockFrom m k

end

/-! ### `end` (R99, R107, R396) -/

/-- A frame that no gang, no stream and no draining write holds ends by its decrement and its pop. -/
theorem State.endFrame_plain {s : State} {lc : Nat} {f : Frame} (hf : s.top lc = some f) (hs : ∀ x ∈ f.streams.toList, x = none)
    (hd : f.draining = []) (hg : f.gang = none) (aborted : Bool) (marks : List Mark) : s.endFrame lc aborted marks =
      (s.post lc ⟨f.graph, f.station, f.ltime, -1, none, marks⟩).pop lc := by
  have hstreams : (f.streams.toList ++ f.draining.map some).foldl (fun s x => s.endStream lc aborted x) s = s := by
    rw [hd, List.map_nil, List.append_nil]
    refine List.foldlRecOn (motive := fun t => t = s) _ _ rfl fun t ht x hx => ?_
    rw [hs x hx, ht]
    rfl
  simp only [State.endFrame, hf, hstreams, State.disband, hg]

theorem State.countRetired_core {s : State} {lc : Nat} (ha : s.agent = .core lc) :
    s.countRetired = s.setCore lc { s.core lc with instret := (s.core lc).instret + 1 } := by
  simp only [State.countRetired, ha]

theorem State.countRetired_top {s : State} {lc : Nat} (ha : s.agent = .core lc) : s.countRetired.top lc = s.top lc := by
  rw [State.countRetired_core ha, State.top, State.core_setCore]
  rfl

section
variable {s : State} {lc : Nat} {f : Frame} {v : List Word} (ha : s.agent = .core lc) (hf : s.top lc = some f)
  (hv : s.front .endTask = .go v)
include ha hf hv

theorem exec_endTask_claimed {c : Claim} {l : List Claim} (hc : f.claims = c :: l) :
    exec .endTask s = .next (s.trap CLAIM (BitVec.ofNat 64 (7 * 256 + c.slot))) := by
  change execEndTask s = _
  rw [execEndTask, State.run_go _ _ _ _ hv]
  simp only [ha, hf, hc]
  rfl

variable (hc : f.claims = [])
include hc

theorem exec_endTask_free : exec .endTask s = .next (s.unlessStalled fun _ => s.acked fun _ => s.endNow lc f) := by
  change execEndTask s = _
  rw [execEndTask, State.run_go _ _ _ _ hv]
  simp only [ha, hf, hc]

theorem exec_endTask_clear (h : s.SenderClear lc f) : exec .endTask s = .next (s.endNow lc f) := by
  rw [exec_endTask_free ha hf hv hc, h.go ha hf]

end

/-! ### `post` by a frame (R90, R110, R122, R123, R395) -/

/-- What `post` does with the image that it has read. -/
def State.postRead (s : State) (a : Reg) (ea : Word) (l : List Word) (t : State) : State :=
  match t.agent with
  | .fe _ => t.postByFe (.post a) ea (Rec.ofWords l)
  | .core lc =>
    match t.top lc with
    | none => s
    | some f => t.postByFrame (.post a) lc f ea (Rec.ofWords l)

theorem exec_post_go {s : State} {a : Reg} {ea : Word} (hv : s.front (.post a) = .go [ea]) : exec (.post a) s =
    .next (s.unlessStalled fun _ => s.acked fun _ => s.block ea 8 (fun _ => s.trap ALIGN ea) (s.postRead a ea)) := by
  change execPost a s = _
  rw [execPost, State.run_go _ _ _ _ hv]
  rfl

theorem State.postRead_core {t : State} {lc : Nat} {g : Frame} (ht : t.agent = .core lc) (hg : t.top lc = some g) (s : State)
    (a : Reg) (ea : Word) (l : List Word) : s.postRead a ea l t = t.postByFrame (.post a) lc g ea (Rec.ofWords l) := by
  simp only [State.postRead, ht, hg]

theorem State.postRead_fe {t : State} {n : Nat} (ht : t.agent = .fe n) (s : State) (a : Reg) (ea : Word) (l : List Word) :
    s.postRead a ea l t = t.postByFe (.post a) ea (Rec.ofWords l) := by
  simp only [State.postRead, ht]

/-- A record image with the level that 0 stands for. -/
def Rec.leveled (r : Rec) (n : Nat) : Rec := if r.level = 0 then r.set 24 3 n else r

section
variable {s : State} {i : Instr} {lc : Nat} {g : Frame} {ea : Word} {r0 r : Rec} (hr : r0.leveled g.level = r)
include hr

theorem State.postByFrame_illegal (h : r.level = 7 ∨ 2 ≤ r.kind) : s.postByFrame i lc g ea r0 = s.illegal i := by
  subst hr
  exact if_pos h

section
variable (h7 : r.level ≠ 7) (hk : r.kind < 2)
include h7 hk

theorem State.postByFrame_address (hb : s.badTarget lc r = true) : s.postByFrame i lc g ea r0 = s.trap ADDRESS ea := by
  subst hr
  exact (if_neg (not_or.mpr ⟨h7, Nat.not_le.mpr hk⟩)).trans (if_pos hb)

variable (hb : s.badTarget lc r = false)
include hb

theorem State.postByFrame_time {k : Nat} (ht : s.checkTarget g r.graph r.station r.q1 = some k) :
    s.postByFrame i lc g ea r0 = s.trap TIME (BitVec.ofNat 64 k) := by
  have hlevel : (if r0.level = 0 then r0.set 24 3 g.level else r0) = r := hr
  simp only [State.postByFrame, hlevel, h7, Nat.not_le.mpr hk, or_self, hb, ht, if_false, Bool.false_eq_true]

theorem State.postByFrame_sends (ht : s.checkTarget g r.graph r.station r.q1 = none) :
    s.postByFrame i lc g ea r0 = (s.postRecord lc r).retire i := by
  have hlevel : (if r0.level = 0 then r0.set 24 3 g.level else r0) = r := hr
  simp only [State.postByFrame, hlevel, h7, Nat.not_le.mpr hk, or_self, hb, ht, if_false, Bool.false_eq_true]

end

end

/-! ### `post` by a front-end core (R395, log entry 33) -/

section
variable {s : State} {i : Instr} {ea : Word} {r0 r : Rec}
  (hr : r0.leveled (1 + Config.fePostLevel s.tick % 6) = r)
include hr

theorem State.postByFe_illegal (h : r.level = 7 ∨ 2 ≤ r.kind) : s.postByFe i ea r0 = s.illegal i := by
  subst hr
  exact if_pos h

section
variable (h7 : r.level ≠ 7) (hk : r.kind < 2)
include h7 hk

theorem State.postByFe_address (hb : s.badTargetIn (s.fnPart (s.fnOf r.graph)) r = true) :
    s.postByFe i ea r0 = s.trap ADDRESS ea := by
  subst hr
  exact (if_neg (not_or.mpr ⟨h7, Nat.not_le.mpr hk⟩)).trans (if_pos hb)

variable (hb : s.badTargetIn (s.fnPart (s.fnOf r.graph)) r = false)
include hb

theorem State.postByFe_time {k : Nat} (ht : s.checkTargetFe r = some k) :
    s.postByFe i ea r0 = s.trap TIME (BitVec.ofNat 64 k) := by
  have hlevel : (if r0.level = 0 then r0.set 24 3 (1 + Config.fePostLevel s.tick % 6) else r0) = r := hr
  simp only [State.postByFe, hlevel, h7, Nat.not_le.mpr hk, or_self, hb, ht, if_false, Bool.false_eq_true]

theorem State.postByFe_sends (ht : s.checkTargetFe r = none) : s.postByFe i ea r0 =
    (if s.marked r.graph r.q1 then s.dropUnsent r
      else (s.applyDeltas r.graph [r.delta 1 []]).send .dispatcher r false).retire i := by
  have hlevel : (if r0.level = 0 then r0.set 24 3 (1 + Config.fePostLevel s.tick % 6) else r0) = r := hr
  simp only [State.postByFe, hlevel, h7, Nat.not_le.mpr hk, or_self, hb, ht, if_false, Bool.false_eq_true]
  split <;> rfl

end

end

/-- A target fits where it names a mapped core of the device, or another device, and its device is in the domain. -/
theorem State.badTargetIn_iff (s : State) (p : Nat) (r : Rec) : s.badTargetIn p r = true ↔
    ¬ ((r.any = true ∨ r.dev ≠ s.devid.toNat ∨ s.mapped r.tcore = true) ∧ s.inDomain p r.dev = true) := by
  simp only [State.badTargetIn, Bool.or_eq_true, Bool.and_eq_true, Bool.not_eq_true', beq_iff_eq]
  cases r.any <;> cases s.mapped r.tcore <;> cases s.inDomain p r.dev <;> simp

/-! ### `ntfy` (R133, R397) -/

/-- What `ntfy` does with the image that it has read. -/
def State.ntfyRead (s : State) (a : Reg) (lc : Nat) (f : Frame) (ea : Word) (l : List Word) (t : State) : State :=
  match t.top lc with
  | none => s
  | some _ => t.request (.ntfy a) lc f ea (Rec.ofWords l)

theorem exec_ntfy_go {s : State} {lc : Nat} {f : Frame} {a : Reg} {ea : Word} (ha : s.agent = .core lc)
    (hf : s.top lc = some f) (hv : s.front (.ntfy a) = .go [ea]) : exec (.ntfy a) s =
      .next (s.unlessStalled fun _ => s.acked fun _ =>
        s.block ea 8 (fun _ => s.illegal (.ntfy a)) (s.ntfyRead a lc f ea)) := by
  change execNtfy a s = _
  rw [execNtfy, State.withFrame_go _ _ _ lc f _ ha hf hv]
  rfl

theorem State.ntfyRead_top {t : State} {lc : Nat} {g : Frame} (hg : t.top lc = some g) (s : State) (a : Reg) (f : Frame)
    (ea : Word) (l : List Word) : s.ntfyRead a lc f ea l t = t.request (.ntfy a) lc f ea (Rec.ofWords l) := by
  simp only [State.ntfyRead, hg]

/-- A request has the kind 2, a level that a record may have, and no fields beside (R133). -/
def Rec.requests (r : Rec) : Prop := r.kind = 2 ∧ r.level ≠ 0 ∧ r.level ≠ 7 ∧ r.q2 = 0 ∧ r.q3 = 0

section
variable {s : State} {i : Instr} {lc : Nat} {f : Frame} {ea : Word} {r : Rec}

theorem Rec.not_requests_iff : ¬ r.requests ↔ r.kind ≠ 2 ∨ r.level = 0 ∨ r.level = 7 ∨ r.q2 ≠ 0 ∨ r.q3 ≠ 0 := by
  simp only [Rec.requests, not_and_or, not_not, ne_eq]

theorem State.request_illegal (h : ¬ r.requests) : s.request i lc f ea r = s.illegal i :=
  if_pos (Rec.not_requests_iff.mp h)

variable (h : r.requests)
include h

theorem State.request_address (hb : s.badTarget lc r = true) : s.request i lc f ea r = s.trap ADDRESS ea :=
  (if_neg fun hn => Rec.not_requests_iff.mpr hn h).trans (if_pos hb)

variable (hb : s.badTarget lc r = false)
include hb

theorem State.request_time {k : Nat} (ht : s.checkTarget f r.graph r.station r.q1 = some k) :
    s.request i lc f ea r = s.trap TIME (BitVec.ofNat 64 k) := by
  have hgood := mt Rec.not_requests_iff.mpr (not_not.mpr h)
  simp only [State.request, hgood, hb, ht, Bool.false_eq_true, if_false]

theorem State.request_posts (ht : s.checkTarget f r.graph r.station r.q1 = none) :
    s.request i lc f ea r = (s.post lc ⟨r.graph, r.station, r.q1, 1, some r, []⟩).retire i := by
  have hgood := mt Rec.not_requests_iff.mpr (not_not.mpr h)
  simp only [State.request, hgood, hb, ht, Bool.false_eq_true, if_false]

end

/-! ### The cases of the statement -/

section
variable {s : State} {lc : Nat} {f : Frame}

/-- An output stream of the frame has not drained (R99). -/
def Frame.drains (f : Frame) : Bool :=
  f.streams.toList.any (fun x => x.any fun t => t.out && t.fifo != []) || f.draining != []

theorem State.endNow_waits (h : f.drains = true) : s.endNow lc f = s := if_pos h

theorem State.endNow_ends (h : f.drains = false) : s.endNow lc f = s.countRetired.endFrame lc false [] :=
  if_neg (Bool.eq_false_iff.mp h)

theorem Frame.drains_plain (hs : ∀ x ∈ f.streams.toList, x = none) (hd : f.draining = []) : f.drains = false := by
  have hany : f.streams.toList.any (fun x => x.any fun t => t.out && t.fifo != []) = false := by
    refine List.any_eq_false.mpr fun x hx => ?_
    rw [hs x hx]
    exact Bool.false_ne_true
  simp only [Frame.drains, hany, hd, bne_self_eq_false, Bool.or_self]

end

/-- `end` (R99, R107, R396). -/
theorem exec_endTask_cases {s : State} {lc : Nat} {f : Frame} {v : List Word} (ha : s.agent = .core lc)
    (hf : s.top lc = some f) (hv : s.front .endTask = .go v) :
    (∀ c l, f.claims = c :: l → exec .endTask s = .next (s.trap CLAIM (BitVec.ofNat 64 (7 * 256 + c.slot)))) ∧
    (f.claims = [] → s.parentFull lc = true → exec .endTask s = .next s) ∧
    (f.claims = [] → s.SenderClear lc f →
      (f.drains = true → exec .endTask s = .next s) ∧
      (f.drains = false → exec .endTask s = .next (s.countRetired.endFrame lc false [])) ∧
      ((∀ x ∈ f.streams.toList, x = none) → f.draining = [] → f.gang = none →
        exec .endTask s = .next ((s.countRetired.post lc ⟨f.graph, f.station, f.ltime, -1, none, []⟩).pop lc))) := by
  refine ⟨fun _ _ hc => exec_endTask_claimed ha hf hv hc, fun hc hp => ?_, fun hc h => ?_⟩
  · rw [exec_endTask_free ha hf hv hc, State.unlessStalled_parent ha _ hp]
  · rw [exec_endTask_clear ha hf hv hc h]
    refine ⟨fun hw => by rw [State.endNow_waits hw], fun hw => by rw [State.endNow_ends hw], fun hs hd hg => ?_⟩
    rw [State.endNow_ends (Frame.drains_plain hs hd),
      State.endFrame_plain ((State.countRetired_top ha).trans hf) hs hd hg]

section
variable {s : State} {lc : Nat} {f : Frame} {a : Reg} {ea : Word} (ha : s.agent = .core lc) (hf : s.top lc = some f)
include ha hf

/-- `post` and `ntfy` where the parent node takes no counts, where a record of the core waits, and where the image is not a
block of the core's (R124, R146, R377). -/
theorem exec_post_ntfy_held :
    (s.parentFull lc = true →
      (s.front (.post a) = .go [ea] → exec (.post a) s = .next s) ∧ (s.front (.ntfy a) = .go [ea] → exec (.ntfy a) s = .next s)) ∧
    (∀ x, s.parentFull lc = false → s.heldFlight (.core lc) = some x → f.h.stalled = false →
      let t := (s.setHart { s.hart with stalled := true }).count (stallCode x) (s.partOf lc)
      (s.front (.post a) = .go [ea] → exec (.post a) s = .next t) ∧ (s.front (.ntfy a) = .go [ea] → exec (.ntfy a) s = .next t)) ∧
    (s.SenderClear lc f →
      (s.spaceOk ea 64 = false →
        (s.front (.post a) = .go [ea] → exec (.post a) s = .next (s.trap ADDRESS ea)) ∧
        (s.front (.ntfy a) = .go [ea] → exec (.ntfy a) s = .next (s.trap ADDRESS ea))) ∧
      (s.spaceOk ea 64 = true → ea.toNat % 64 ≠ 0 →
        (s.front (.post a) = .go [ea] → exec (.post a) s = .next (s.trap ALIGN ea)) ∧
        (s.front (.ntfy a) = .go [ea] → exec (.ntfy a) s = .next (s.illegal (.ntfy a))))) := by
  refine ⟨fun hp => ⟨fun hv => ?_, fun hv => ?_⟩, fun x hp hx hst => ?_, fun h => ⟨fun hsp => ⟨fun hv => ?_, fun hv => ?_⟩,
    fun hsp hal => ⟨fun hv => ?_, fun hv => ?_⟩⟩⟩
  · rw [exec_post_go hv, State.unlessStalled_parent ha _ hp]
  · rw [exec_ntfy_go ha hf hv, State.unlessStalled_parent ha _ hp]
  · have hstalled : ¬ s.hart.stalled = true := by rw [State.hart_of_top ha hf, hst]; exact Bool.false_ne_true
    refine ⟨fun hv => ?_, fun hv => ?_⟩
    · rw [exec_post_go hv, State.unlessStalled_held ha _ hp hx, if_neg hstalled]
    · rw [exec_ntfy_go ha hf hv, State.unlessStalled_held ha _ hp hx, if_neg hstalled]
  · rw [exec_post_go hv, h.go ha hf, State.block_outside _ _ hsp]
  · rw [exec_ntfy_go ha hf hv, h.go ha hf, State.block_outside _ _ hsp]
  · rw [exec_post_go hv, h.go ha hf, State.block_misaligned _ _ hsp hal]
  · rw [exec_ntfy_go ha hf hv, h.go ha hf, State.block_misaligned _ _ hsp hal]

variable {t : State} {l : List Word} (h : s.SenderClear lc f) (hl : s.BlockReads s ea 8 l t) {g : Frame} (hg : t.top lc = some g)
include h hl hg

/-- `post` by a frame, its image read (R90, R395). -/
theorem exec_post_read (hv : s.front (.post a) = .go [ea]) (ht : t.agent = .core lc) :
    exec (.post a) s = .next (t.postByFrame (.post a) lc g ea (Rec.ofWords l)) := by
  rw [exec_post_go hv, h.go ha hf, hl.block, State.postRead_core ht hg]

/-- `ntfy`, its image read (R133, R397). -/
theorem exec_ntfy_read (hv : s.front (.ntfy a) = .go [ea]) :
    exec (.ntfy a) s = .next (t.request (.ntfy a) lc f ea (Rec.ofWords l)) := by
  rw [exec_ntfy_go ha hf hv, h.go ha hf, hl.block, State.ntfyRead_top hg]

end

section
variable {n : Nat} {s : State} {a : Reg} {ea : Word} (ha : s.agent = .fe n) (hv : s.front (.post a) = .go [ea])
include ha hv

theorem exec_post_fe_held {x : Flight} (hx : s.heldFlight .dispatcher = some x) : exec (.post a) s =
    .next (if s.hart.stalled then s
      else (s.setHart { s.hart with stalled := true }).count (stallCode x) (s.fnPart (s.fnOf x.rcd.graph))) := by
  rw [exec_post_go hv, State.unlessStalled_dispatcher ha hx]

theorem exec_post_fe_read {t : State} {l : List Word} (ht : t.agent = .fe n) (hl : s.BlockReads s ea 8 l t)
    (hx : s.heldFlight .dispatcher = none) : exec (.post a) s = .next (t.postByFe (.post a) ea (Rec.ofWords l)) := by
  rw [exec_post_go hv, State.unlessStalled_fe s n _ ha hx]
  simp only [State.acked, ha]
  rw [hl.block, State.postRead_fe ht]

end

/-- Settles O28: what holds a sender back is decided first, then the block that holds the image, then the checks of the image
in their order; each is one lemma of the instruction. -/
theorem taskRecordsAndEnd : Obligations.TaskRecordsAndEnd := by
  unfold Obligations.TaskRecordsAndEnd
  refine ⟨fun s lc f v ha hf hv => exec_endTask_cases ha hf hv, fun s lc f a ea ha hf => exec_post_ntfy_held ha hf,
    fun s t lc f a ea l ha hf h hl => ⟨fun hv g ht hg hgf => ?_, fun hv g hg => ?_⟩,
    fun n s t a ea l ha ht hv hl => ⟨fun x hx => ?_, fun hx => ?_⟩⟩
  · rw [exec_post_read ha hf h hl hg hv ht]
    have hr : (Rec.ofWords l).leveled g.level = (Rec.ofWords l).leveled f.level := by rw [hgf]
    exact ⟨fun hbad => congrArg _ (State.postByFrame_illegal hr hbad),
      fun h7 hk hb => congrArg _ (State.postByFrame_address hr h7 hk hb),
      fun k h7 hk hb hk' => congrArg _ (State.postByFrame_time hr h7 hk hb hk'),
      fun h7 hk hb hn => congrArg _ (State.postByFrame_sends hr h7 hk hb hn)⟩
  · rw [exec_ntfy_read ha hf h hl hg hv]
    exact ⟨fun hbad => congrArg _ (State.request_illegal hbad), fun hgood hb => congrArg _ (State.request_address hgood hb),
      fun k hgood hb hk => congrArg _ (State.request_time hgood hb hk),
      fun hgood hb hn => congrArg _ (State.request_posts hgood hb hn)⟩
  · rw [exec_post_fe_held ha hv hx]
    exact ⟨fun hst => by rw [if_pos hst], fun hst => by rw [if_neg (Bool.eq_false_iff.mp hst)]; rfl⟩
  · rw [exec_post_fe_read ha hv ht hl hx]
    have fits (r : Rec) := State.badTargetIn_iff t (t.fnPart (t.fnOf r.graph)) r
    exact ⟨fun hbad => congrArg _ (State.postByFe_illegal rfl hbad),
      fun h7 hk hno => congrArg _ (State.postByFe_address rfl h7 hk ((fits _).mpr hno)),
      fun k h7 hk hthere hk' => congrArg _ (State.postByFe_time rfl h7 hk (Bool.eq_false_iff.mpr fun hb => (fits _).mp hb hthere) hk'),
      fun h7 hk hthere hn =>
        congrArg _ (State.postByFe_sends rfl h7 hk (Bool.eq_false_iff.mpr fun hb => (fits _).mp hb hthere) hn)⟩

end Sys2Proof.Machine
end

section
/-! PROOFS. Where the issue of an engine instruction is refused: the image of a level 7 that a level 0 stands for (R102, R378). -/

namespace Sys2Proof.Machine

/-- The words of loads that have ended. -/
def Loads.words : Loads → Option (List Word)
  | .ok l _ => some l
  | _ => none

/-- The state that loads which have ended leave; loads that have not leave the state s0. -/
def Loads.left (s0 : State) : Loads → State
  | .ok _ s => s
  | _ => s0

theorem Loads.eq_ok_of_words {a : Loads} {l : List Word} (h : a.words = some l) (s0 : State) : a = .ok l (a.left s0) := by
  cases a with
  | ok l' s => exact congrArg (Loads.ok · s) (Option.some.inj h)
  | trap cls val => cases h
  | wait s => cases h

/-- The number of frames of logical core 0 in the next state. -/
def framesAfter : Out → Option Nat
  | .next t => some (t.core 0).frames.length
  | _ => none

/-! ### The machine of the refutation

A frame of level 7, which a trap record's handler has, runs `cpy` on logical core 0. Its descriptor at 1000_0200H copies 64
bytes and passes every check; its successor image at 1000_0100H gives the level 0. -/

def levelSevenFrame : Frame :=
  { Frame.zero with
    h := ((Hart.zero.setReg 1 0x10000200).setReg 2 0x10000100)
    window := 32, ltime := 0x1000000000000003#64, level := 7, thresh := 7 }

def levelSevenGraph : Graph :=
  { fn := 0, text := 0x10000000, words := 0x4000, stations := 1, exit := 0, depths := [1], table := [(0, 0x8000)], resources := []
    home := 0, cellarBase := 0, overlays := false }

def levelSevenState : State :=
  let s := (State.reset.placeCore 0).setCore 0 { Core.reset with frames := [levelSevenFrame] }
  { s with
    prog := { s.prog with graphs := tput 0 levelSevenGraph s.prog.graphs }
    mem := { s.mem with
      bytes := [(0x10000108, 0x3), (0x1000010F, 0x10), (0x10000201, 0x4), (0x10000203, 0x10), (0x1000020A, 0x1), (0x1000020F, 0x2),
        (0x10000210, 0x40), (0x10000215, 0x1)] } }

def levelSevenDescriptor : List Word := [0x10000400, 0x0200000000010000, 0x10000000040, 0]
def levelSevenImage : List Word := [0, 0x1000000000000003, 0, 0, 0, 0, 0, 0]

/-- The record that `ImageReads` takes the image for: its level is the frame's. -/
def levelSevenRecord : Rec := (Rec.ofWords levelSevenImage).set 24 3 7

/-- The state after the descriptor is read, and the one after the image is. -/
def levelSevenRead : State := (levelSevenState.loadWords 0x10000200 4).left levelSevenState
def levelSevenReady : State := (levelSevenRead.loadWords 0x10000100 8).left levelSevenRead

theorem levelSeven_blockReads :
    levelSevenState.BlockReads levelSevenState 0x10000200 4 levelSevenDescriptor levelSevenRead :=
  ⟨by decide +kernel, by decide +kernel, Loads.eq_ok_of_words (by decide +kernel) _⟩

theorem levelSeven_imageReads :
    levelSevenState.ImageReads levelSevenRead 0 levelSevenFrame 0x10000100 levelSevenRecord levelSevenReady :=
  ⟨levelSevenImage, ⟨by decide +kernel, by decide +kernel, Loads.eq_ok_of_words (by decide +kernel) _⟩, by decide +kernel⟩

theorem levelSeven_senderClear : levelSevenState.SenderClear 0 levelSevenFrame := by
  unfold State.SenderClear
  decide +kernel

/-- The instruction takes ILLEGAL, and its frame leaves the core (R378). -/
theorem framesAfter_levelSeven : framesAfter (exec (.cpy 1 1 2) levelSevenState) = some 0 := by decide +kernel

/-- Refutes O26: a frame of level 7 issues `cpy` with a successor image of level 0. The level 0 stands for the frame's, so the
image is of level 7 and takes ILLEGAL (R378), which `ImageReads` looks for in the image's own level field only; the statement
keeps the frame on its core. -/
theorem not_engineIssue : ¬ Obligations.EngineIssue := by
  unfold Obligations.EngineIssue
  intro h
  obtain ⟨hcpy, -⟩ := h levelSevenState levelSevenRead levelSevenReady 0 levelSevenFrame 1 2 0x10000200 0x10000100
    levelSevenDescriptor levelSevenRecord (by decide +kernel) (by decide +kernel) levelSeven_senderClear
  have hissued := hcpy 1 (by decide +kernel) levelSeven_blockReads (by decide +kernel) levelSeven_imageReads
    (by decide +kernel) (by decide +kernel) (by decide +kernel)
  have hframes := (congrArg framesAfter hissued).symm.trans framesAfter_levelSeven
  exact absurd hframes (by decide +kernel)

end Sys2Proof.Machine
end

section
/-! PROOFS. Time words: their order, and the forms that advance and compare them (R115 to R119, R138, R398). -/

namespace Sys2Proof.Machine

/-! ### The order of time words (R115, R116) -/

/-- The place of a time word in the order of R116: by its key, and among words of one key by its depth. -/
def timeRank (t : Word) : Nat := 16 * timeKey t + depthOf t

theorem depthOf_lt (t : Word) : depthOf t < 16 := bits_lt t 60 4

theorem counterOf_lt (t : Word) (i : Nat) : counterOf t i < 32768 := bits_lt t (15 * i) 15

theorem timeLt_iff (t u : Word) : timeLt t u = true ↔ timeRank t < timeRank u := by
  have ht := depthOf_lt t
  have hu := depthOf_lt u
  simp only [timeLt, timeRank, Bool.or_eq_true, Bool.and_eq_true, decide_eq_true_eq, beq_iff_eq]
  omega

theorem timeLt_eq_false_iff (t u : Word) : timeLt t u = false ↔ timeRank u ≤ timeRank t := by
  rw [← Bool.not_eq_true, timeLt_iff, Nat.not_lt]

/-- A time word is its depth and its four counters (R115). -/
theorem toNat_eq_fields (t : Word) : t.toNat =
    depthOf t * 2 ^ 60 + counterOf t 3 * 2 ^ 45 + counterOf t 2 * 2 ^ 30 + counterOf t 1 * 2 ^ 15 + counterOf t 0 := by
  have ht := t.isLt
  simp only [depthOf, counterOf, bits]
  omega

/-- The key gives the four counters, which lie in 15 bits each. -/
theorem counterOf_eq_of_timeKey {t u : Word} (h : timeKey t = timeKey u) : counterOf t 0 = counterOf u 0 ∧
    counterOf t 1 = counterOf u 1 ∧ counterOf t 2 = counterOf u 2 ∧ counterOf t 3 = counterOf u 3 := by
  have digit {a b c d : Nat} (hb : b < 32768) (hd : d < 32768) (h : 32768 * a + b = 32768 * c + d) : a = c ∧ b = d := by omega
  have nested (w : Word) : timeKey w =
      32768 * (32768 * (32768 * counterOf w 0 + counterOf w 1) + counterOf w 2) + counterOf w 3 := by
    unfold timeKey
    omega
  rw [nested, nested] at h
  obtain ⟨h, h3⟩ := digit (counterOf_lt t 3) (counterOf_lt u 3) h
  obtain ⟨h, h2⟩ := digit (counterOf_lt t 2) (counterOf_lt u 2) h
  obtain ⟨h0, h1⟩ := digit (counterOf_lt t 1) (counterOf_lt u 1) h
  exact ⟨h0, h1, h2, h3⟩

/-- No two words share a place. -/
theorem timeRank_injective : Function.Injective timeRank := by
  intro t u h
  have ht := depthOf_lt t
  have hu := depthOf_lt u
  have hkey : timeKey t = timeKey u := by unfold timeRank at h; omega
  have hdepth : depthOf t = depthOf u := by unfold timeRank at h; omega
  obtain ⟨h0, h1, h2, h3⟩ := counterOf_eq_of_timeKey hkey
  exact BitVec.eq_of_toNat_eq (by rw [toNat_eq_fields, toNat_eq_fields u, hdepth, h0, h1, h2, h3])

/-- Settles O31: the place of a word in the order is a number, and no other word, well formed or not, has it. -/
theorem timeOrderTotal : Obligations.TimeOrderTotal := by
  intro t u v _ _ _
  simp only [timeLt_iff, timeLt_eq_false_iff]
  refine ⟨?_, Nat.le_of_lt, Nat.lt_trans⟩
  obtain hlt | heq | hgt := Nat.lt_trichotomy (timeRank t) (timeRank u)
  · exact .inr (.inl hlt)
  · exact .inl (timeRank_injective heq)
  · exact .inr (.inr hgt)

/-! ### `tadv`, `tadvi` and `tcmp` (R138, R398) -/

theorem exec_tadv (d a b : Reg) (s : State) : exec (.tadv d a b) s = execTadv d a b s := rfl
theorem exec_tadvi (d a : Reg) (l e : Fin 8) (k : Fin 64) (s : State) : exec (.tadvi d a l e k) s = execTadvi d a l e k s :=
  rfl
theorem exec_tcmp (d a b : Reg) (s : State) : exec (.tcmp d a b) s = execTcmp d a b s := rfl

theorem bits_above_eq_zero_iff (m : Word) : bits m 16 48 = 0 ↔ m.toNat < 65536 := by
  have hm := m.isLt
  simp only [bits]
  omega

section
variable {s : State} {d a b : Reg} {t m : Word} (h : s.front (.tadv d a b) = .go [t, m])
include h

/-- Bits above the summary are looked at first. -/
theorem exec_tadv_long (hm : 65536 ≤ m.toNat) : exec (.tadv d a b) s = .next (s.trap TIME 5) := by
  have hbits : bits m 16 48 ≠ 0 := fun hz => Nat.not_le.mpr ((bits_above_eq_zero_iff m).mp hz) hm
  rw [exec_tadv, execTadv, State.run_go _ _ _ _ h]
  simp only [List.getD_cons_succ, List.getD_cons_zero, hbits, ne_eq, not_false_eq_true, if_true, State.advanceTo]
  rfl

theorem exec_tadv_summary (hm : m.toNat < 65536) :
    exec (.tadv d a b) s = .next (s.advanceTo (.tadv d a b) d (advanceTime t (m.setWidth 16))) := by
  have hbits : bits m 16 48 = 0 := (bits_above_eq_zero_iff m).mpr hm
  have hsum : BitVec.ofNat 16 m.toNat = m.setWidth 16 := by rw [BitVec.ofNat_toNat]
  rw [exec_tadv, execTadv, State.run_go _ _ _ _ h]
  simp only [List.getD_cons_succ, List.getD_cons_zero, hbits, ne_eq, not_true_eq_false, if_false, hsum]

end

theorem exec_tadvi_go {s : State} {d a : Reg} {l e : Fin 8} {k : Fin 64} {t : Word} (h : s.front (.tadvi d a l e k) = .go [t]) :
    exec (.tadvi d a l e k) s = .next (s.advanceTo (.tadvi d a l e k) d
      (advanceTime t (BitVec.ofNat 16 (32768 + 4096 * l.val + 512 * e.val + k.val)))) := by
  rw [exec_tadvi, execTadvi, State.run_go _ _ _ _ h, Nat.mul_comm 4096, Nat.mul_comm 512]
  rfl

theorem exec_tcmp_go {s : State} {d a b : Reg} {t m : Word} (h : s.front (.tcmp d a b) = .go [t, m]) :
    exec (.tcmp d a b) s = .next (if !wellFormedTime t || !wellFormedTime m then s.trap TIME 1
      else s.finish (.tcmp d a b) d (compareTimes t m)) := by
  rw [exec_tcmp, execTcmp, State.run_go _ _ _ _ h]
  rfl

/-- Settles O30: each form is the equation of its operands, and a time that cannot be had or compared takes TIME. -/
theorem timeWords : Obligations.TimeWords := by
  intro s d a b l e k t m
  refine ⟨fun h => ⟨exec_tadv_long h, fun n hm hn => ?_, fun u hm hu => ?_⟩, fun h => ⟨fun n hn => ?_, fun u hu => ?_⟩,
    fun h => ⟨fun hbad => ?_, fun ht hm => ?_⟩⟩
  · rw [exec_tadv_summary h hm, hn, State.advanceTo]
  · rw [exec_tadv_summary h hm, hu, State.advanceTo]
  · rw [exec_tadvi_go h, hn, State.advanceTo]
  · rw [exec_tadvi_go h, hu, State.advanceTo]
  · have hor : (!wellFormedTime t || !wellFormedTime m) = true := by simpa using hbad
    rw [exec_tcmp_go h, if_pos hor]
  · rw [exec_tcmp_go h, ht, hm]
    rfl

end Sys2Proof.Machine
end

section
/-! PROOFS. Counts on their way up, frontiers and the high point of a slot (R124 to R132). -/

namespace Sys2Proof.Machine

/-! ### The meanings of the steps -/

theorem exec_progressFlushDeadline (lc : Nat) (s : State) : exec (.progressFlushDeadline lc) s = .next (s.flush lc) := rfl
theorem exec_treeBatchArrival (k : Nat) (s : State) : exec (.treeBatchArrival k) s = execTreeBatchArrival k s := rfl
theorem exec_treeNodeForward (node : Nat) (s : State) : exec (.treeNodeForward node) s = execTreeNodeForward node s := rfl
theorem exec_rootApplyBatch (k : Nat) (s : State) : exec (.rootApplyBatch k) s = execRootApplyBatch k s := rfl
theorem exec_frontierAnnounce (g st die : Nat) (s : State) :
    exec (.frontierAnnounce g st die) s = execFrontierAnnounce g st die s := rfl

/-! ### Batches below the roots (R124, R125) -/

/-- A buffer that holds a count leaves as one batch to the node of the core's tile. -/
theorem State.flush_nonempty {s : State} {lc : Nat} (h : (s.core lc).progress ≠ []) : s.flush lc =
    (s.addBatch ⟨1024 + lc, s.tileOf lc, (s.core lc).progress⟩).setCore lc { s.core lc with progress := [] } := by
  simp only [State.flush, h, if_false]

theorem State.sendBatch_nonempty (s : State) (src dst : Nat) {l : List Delta} (h : l ≠ []) :
    s.sendBatch src dst l = s.addBatch ⟨src, dst, l⟩ := by
  simp only [State.sendBatch, h, if_false]

section
variable {s : State} {k : Nat} {b : Batch} (hb : s.prog.batches[k]? = some b) (hfirst : s.batchFirst k b = true)
include hb hfirst

theorem exec_treeBatchArrival_below (hdst : b.dst < 296) : exec (.treeBatchArrival k) s = .next
    (if s.accepts b.dst then b.deltas.foldl (fun s d => s.postNode b.dst d) (s.dropBatch k) else s) := by
  have hlow : decide (b.dst ≥ 296) = false := decide_eq_false (Nat.not_le.mpr hdst)
  rw [exec_treeBatchArrival, execTreeBatchArrival, hb]
  simp only [hlow, hfirst, Bool.not_true, Bool.false_or]
  cases s.accepts b.dst <;> rfl

theorem exec_rootApplyBatch_root (hdst : 296 ≤ b.dst) : exec (.rootApplyBatch k) s = .next
    (if s.rootTakes (b.dst - 296) b then (slotsOf b.deltas).foldl
      (fun s g => s.applyDeltas g (b.deltas.filter fun d => d.g == g)) (s.dropBatch k) else s) := by
  have hhigh : decide (b.dst < 296) = false := decide_eq_false (Nat.not_lt.mpr hdst)
  rw [exec_rootApplyBatch, execRootApplyBatch, hb]
  simp only [hhigh, hfirst, Bool.not_true, Bool.false_or]
  cases s.rootTakes (b.dst - 296) b <;> rfl

end

section
variable {s : State} {node : Nat} (hl : s.node node ≠ [])
include hl

/-- A tile's or a cluster's node sends all it has to its parent. -/
theorem exec_treeNodeForward_below (hn : node < 288) : exec (.treeNodeForward node) s = .next
    (if s.accepts (parentNode node) then (s.setNode node []).addBatch ⟨node, parentNode node, s.node node⟩ else s) := by
  have hgo : ¬(s.node node = [] ∨ node ≥ 300) := by simp only [hl, false_or]; omega
  rw [exec_treeNodeForward, execTreeNodeForward]
  simp only [hgo, hn, if_true, if_false, State.sendBatch_nonempty _ _ _ hl]
  cases s.accepts (parentNode node) <;> rfl

/-- A die's node, and a quay die's own, sends each root what it offers it of the root's slots. -/
theorem exec_treeNodeForward_die (hlow : 288 ≤ node) (hhigh : node < 300) (h6 : node ≠ 296) (h7 : node ≠ 297) :
    let r0 := s.offered node 0 ((s.node node).filter fun d => d.g < 8)
    let r1 := s.offered node 1 ((s.node node).filter fun d => d.g ≥ 8)
    exec (.treeNodeForward node) s =
      .next (((s.setNode node (r0.2 ++ r1.2)).sendBatch node 296 r0.1).sendBatch node 297 r1.1) := by
  have hgo : ¬(s.node node = [] ∨ node ≥ 300) := by simp only [hl, false_or]; omega
  simp only [exec_treeNodeForward, execTreeNodeForward, hgo, Nat.not_lt.mpr hlow, h6, h7, or_self, if_false]

end

/-- A root sends what belongs to another module's root to the home of the first entry. -/
theorem exec_treeNodeForward_root {s : State} {q : Nat} {d : Delta} {l : List Delta} (hq : q < 2)
    (hl : s.node (296 + q) = d :: l) : exec (.treeNodeForward (296 + q)) s = .next (s.toHome q (s.homeOf d.g)) := by
  have hgo : ¬(d :: l = [] ∨ 296 + q ≥ 300) := by simp only [reduceCtorEq, false_or]; omega
  have hbelow : ¬ 296 + q < 288 := by omega
  have hroot : 296 + q = 296 ∨ 296 + q = 297 := by omega
  simp only [exec_treeNodeForward, execTreeNodeForward, hl, hgo, hbelow, hroot, if_true, if_false, Nat.add_sub_cancel_left]

/-! ### What a node offers a root (R125, R131) -/

/-- Whether a slot's deltas may go on together depends on its own ones only. -/
theorem State.safeWith_congr {s : State} {node g : Nat} {l m : List Delta}
    (h : (l.filter fun d => d.g == g) = m.filter fun d => d.g == g) : s.safeWith node l g = s.safeWith node m g := by
  simp only [State.safeWith, h]

/-- Every decrement of a list is safe with the rest of it. -/
def State.Safe (s : State) (node : Nat) (l : List Delta) : Prop := ∀ d ∈ l, d.n < 0 → s.safeWith node l d.g = true

/-- One more delta that is safe with a list leaves the others of its slot as safe as itself, and those of other slots as they
were. -/
theorem State.Safe.append_singleton {s : State} {node : Nat} {l : List Delta} {d : Delta} (hl : s.Safe node l)
    (hd : s.safeWith node (l ++ [d]) d.g = true) : s.Safe node (l ++ [d]) := by
  intro x hx hneg
  by_cases hg : x.g = d.g
  · rw [hg, hd]
  · have hmem : x ∈ l := by
      rcases List.mem_append.mp hx with hx | hx
      · exact hx
      · exact absurd (congrArg Delta.g (List.mem_singleton.mp hx)) hg
    have hother : (d.g == x.g) = false := beq_false_of_ne (Ne.symm hg)
    rw [← hl x hmem hneg]
    exact State.safeWith_congr (by simp [hother])

section
variable (s : State) (node : Nat)

theorem State.pickNegatives_safe {go : List Delta} (l : List Delta) (h : s.Safe node go) :
    s.Safe node (s.pickNegatives node go l).1 := by
  induction l generalizing go with
  | nil => exact h
  | cons d l ih =>
    simp only [State.pickNegatives]
    split
    · next hd => exact ih (h.append_singleton hd)
    · exact ih h

theorem State.mem_pickNegatives {x : Delta} {go : List Delta} (l : List Delta) :
    (x ∈ go → x ∈ (s.pickNegatives node go l).1) ∧
      (x ∈ l → x ∈ (s.pickNegatives node go l).1 ∨ x ∈ (s.pickNegatives node go l).2) := by
  induction l generalizing go with
  | nil => exact ⟨id, fun h => absurd h List.not_mem_nil⟩
  | cons d l ih =>
    simp only [State.pickNegatives, List.mem_cons]
    split
    · obtain ⟨hgo, hl⟩ := ih (go := go ++ [d])
      refine ⟨fun h => hgo (List.mem_append_left _ h), ?_⟩
      rintro (rfl | h)
      · exact .inl (hgo (List.mem_append_right _ (List.mem_singleton_self _)))
      · exact hl h
    · obtain ⟨hgo, hl⟩ := ih (go := go)
      refine ⟨hgo, ?_⟩
      rintro (rfl | h)
      · exact .inr (List.mem_cons_self ..)
      · exact (hl h).imp_right (List.mem_cons_of_mem _)

theorem mem_filter_increments {d : Delta} {l : List Delta} :
    d ∈ (l.filter fun d => decide (0 ≤ d.n)) ↔ d ∈ l ∧ 0 ≤ d.n := by
  simp only [List.mem_filter, decide_eq_true_eq]

theorem mem_filter_decrements {d : Delta} {l : List Delta} :
    d ∈ (l.filter fun d => !decide (0 ≤ d.n)) ↔ d ∈ l ∧ d.n < 0 := by
  simp only [List.mem_filter, Bool.not_eq_true', decide_eq_false_iff_not, Int.not_le]

theorem State.safe_increments (l : List Delta) : s.Safe node (l.filter fun d => decide (0 ≤ d.n)) :=
  fun _ hd hneg => absurd (mem_filter_increments.mp hd).2 (Int.not_le.mpr hneg)

variable (q : Nat) {d : Delta} {l : List Delta}

/-- Every increment goes on. -/
theorem State.mem_toRoot_of_increment (hd : d ∈ l) (hn : 0 ≤ d.n) : d ∈ (s.toRoot node q l).1 := by
  have hplus := mem_filter_increments.mpr ⟨hd, hn⟩
  simp only [State.toRoot]
  split
  · exact hplus
  · exact (s.mem_pickNegatives node _).1 hplus

/-- What does not go on is kept. -/
theorem State.mem_toRoot (hd : d ∈ l) : d ∈ (s.toRoot node q l).1 ∨ d ∈ (s.toRoot node q l).2 := by
  by_cases hn : 0 ≤ d.n
  · exact .inl (s.mem_toRoot_of_increment node q hd hn)
  · have hminus := mem_filter_decrements.mpr ⟨hd, Int.not_le.mp hn⟩
    simp only [State.toRoot]
    split
    · exact .inr hminus
    · exact (s.mem_pickNegatives node _).2 hminus

theorem State.toRoot_safe (l : List Delta) : s.Safe node (s.toRoot node q l).1 := by
  simp only [State.toRoot]
  split
  · exact s.safe_increments node l
  · exact s.pickNegatives_safe node _ (s.safe_increments node l)

theorem State.offered_eq (l : List Delta) : s.offered node q l =
    if s.rootTakes q ⟨node, 296 + q, (s.toRoot node q l).1⟩ then s.toRoot node q l else ([], l) := rfl

end

/-! ### A root takes deltas, and a frontier reaches a die (R126, R127, R130) -/

/-- Beside its own effect, a step of a root changes RSPILL and NSPILL only. -/
theorem State.spilling_eq (s : State) (q : Nat) (step : State → State) :
    ∃ n m, s.spilling q step = ((step s).countBy cRSPILL q n).countBy cNSPILL q m := ⟨_, _, rfl⟩

theorem State.applyDeltas_homed {s : State} {g : Nat} {gr : Graph} (ds : List Delta) (hg : s.graph g = some gr)
    (hh : s.homed g = true) : ∃ t : State, s.applyDeltas g ds = t.settle g ∧
      t.root g = ds.foldl (fun r d => r.apply gr d) (s.root g) ∧ t.mem = s.mem ∧ t.cores = s.cores := by
  obtain ⟨n, m, hcounts⟩ := s.spilling_eq (g / 8) fun s => s.takeDeltas g gr ds
  refine ⟨((s.takeDeltas g gr ds).countBy cRSPILL (g / 8) n).countBy cNSPILL (g / 8) m, ?_, s.root_setRoot .., rfl, rfl⟩
  simp only [State.applyDeltas, hg, hh, if_true, hcounts]

section
variable {s : State} {g : Nat} {gr : Graph} (st die : Nat) (hg : s.graph g = some gr) (hf : (s.root g).failed = false)
include hg hf

/-- A frontier that the module knows reaches the copy of a die, and nothing else changes in the tree or in memory. -/
theorem exec_frontierAnnounce_known {x : Option Word} (hx : s.known g gr st = some x) :
    ∃ t, exec (.frontierAnnounce g st die) s = .next t ∧
      tget none (t.die die).frontiers (64 * g + st) = x ∧ t.prog = s.prog ∧ t.mem = s.mem := by
  refine ⟨s.setDie die { s.die die with frontiers := tput (64 * g + st) x (s.die die).frontiers }, ?_, ?_, rfl, rfl⟩
  · simp only [exec_frontierAnnounce, execFrontierAnnounce, hg, hf, hx, Bool.false_eq_true, if_false]
  · rw [State.die_setDie]
    exact tget_tput_same ..

theorem exec_frontierAnnounce_unknown (hx : s.known g gr st = none) : exec (.frontierAnnounce g st die) s = .next s := by
  simp only [exec_frontierAnnounce, execFrontierAnnounce, hg, hf, hx, Bool.false_eq_true, if_false]

end

/-! ### The high point (R132) -/

theorem mem_highest_cases {a : Option Word} {p h : Word} (hh : h ∈ highest a p) : h ∈ a ∨ h = p := by
  cases a with
  | none => exact .inr (Option.some.inj hh).symm
  | some q =>
    simp only [highest] at hh
    split at hh
    · exact .inr (Option.some.inj hh).symm
    · exact .inl hh

/-- A time is reached where the high point, if there is one, is at or after it. -/
def Reached (a : Option Word) (p : Word) : Prop := ∃ h ∈ a, timeLt h p = false

theorem reached_highest (a : Option Word) (p : Word) : Reached (highest a p) p := by
  cases a with
  | none => exact ⟨p, rfl, (timeLt_eq_false_iff p p).mpr (Nat.le_refl _)⟩
  | some q =>
    simp only [highest]
    split
    · exact ⟨p, rfl, (timeLt_eq_false_iff p p).mpr (Nat.le_refl _)⟩
    · next hle => exact ⟨q, rfl, Bool.eq_false_iff.mpr hle⟩

/-- What has been reached stays so as the high point rises. -/
theorem Reached.rises {a : Option Word} {x : Word} (h : Reached a x) (p : Word) : Reached (highest a p) x := by
  obtain ⟨q, rfl, hq⟩ := h
  simp only [highest]
  split
  · next hlt =>
    rw [timeLt_iff] at hlt
    rw [timeLt_eq_false_iff] at hq
    exact ⟨p, rfl, (timeLt_eq_false_iff p x).mpr (hq.trans hlt.le)⟩
  · exact ⟨q, rfl, hq⟩

theorem Reached.rises_foldl {a : Option Word} {x : Word} (h : Reached a x) (l : List Launch) :
    Reached (l.foldl (fun h l => highest h l.point) a) x :=
  List.foldlRecOn (motive := fun b => Reached b x) l _ h fun _ hb y _ => hb.rises y.point

theorem reached_foldl_highest {a : Option Word} {x : Launch} {l : List Launch} (hx : x ∈ l) :
    Reached (l.foldl (fun h l => highest h l.point) a) x.point := by
  induction l generalizing a with
  | nil => exact absurd hx List.not_mem_nil
  | cons y l ih =>
    rcases List.mem_cons.mp hx with rfl | hx
    · exact (reached_highest a x.point).rises_foldl l
    · exact ih hx

theorem mem_foldl_highest_cases {a : Option Word} {h : Word} (l : List Launch)
    (hh : h ∈ l.foldl (fun h l => highest h l.point) a) : h ∈ a ∨ ∃ m ∈ l, m.point = h := by
  induction l generalizing a with
  | nil => exact .inl hh
  | cons y l ih =>
    rcases ih hh with hmem | ⟨m, hm, hp⟩
    · exact (mem_highest_cases hmem).imp_right fun hp => ⟨y, List.mem_cons_self .., hp.symm⟩
    · exact .inr ⟨m, List.mem_cons_of_mem _ hm, hp⟩

/-- The high point after launches have completed is at or after each of their points, and is the one before or one of these. -/
theorem Root.raised_of_done {r : Root} {done : Launch → Bool} {l : Launch} (hl : l ∈ r.launches) (hd : done l = true) :
    ∃ h, r.raised (r.launches.filter done) = some h ∧ timeLt h l.point = false ∧
      (r.high = some h ∨ ∃ m ∈ r.launches, done m = true ∧ m.point = h) := by
  obtain ⟨h, hh, hle⟩ := reached_foldl_highest (a := r.high) (List.mem_filter.mpr ⟨hl, hd⟩)
  refine ⟨h, hh, hle, (mem_foldl_highest_cases _ hh).imp_right ?_⟩
  rintro ⟨m, hm, hp⟩
  obtain ⟨hmem, hdone⟩ := List.mem_filter.mp hm
  exact ⟨m, hmem, hdone, hp⟩

/-! ### What completes launches leaves the roots (R126, R132) -/

theorem State.sendMsg_root (s : State) (dev : Nat) (m : Msg) (g : Nat) : (s.sendMsg dev m).root g = s.root g := by
  obtain ⟨_, _, _, h⟩ := s.sendMsg_eq dev m
  rw [h]
  rfl

theorem State.completeLaunch_root (s : State) (l : Launch) (g : Nat) : (s.completeLaunch l).root g = s.root g := by
  unfold State.completeLaunch
  split
  · split
    · rfl
    · exact s.sendMsg_root ..
  · rfl

theorem State.answerAsked_root (s : State) (g k : Nat) : (s.answerAsked g).root k = s.root k :=
  List.foldlRecOn (motive := fun t : State => t.root k = s.root k) _ _ rfl fun t h _ _ => (t.sendMsg_root ..).trans h

theorem State.completeLaunches_root (s : State) (g : Nat) (done : Launch → Bool) : (s.completeLaunches g done).root g =
    { s.root g with
      launches := (s.root g).launches.filter fun l => !done l
      high := (s.root g).raised ((s.root g).launches.filter done) } := by
  rw [State.completeLaunches, State.answerAsked_root]
  exact List.foldlRecOn (motive := fun t : State => t.root g = _) _ _ (s.root_setRoot ..) fun t h l _ =>
    (t.completeLaunch_root ..).trans h

/-! ### A launch opens (R132) -/

theorem Root.reopens_some {r : Root} {h : Word} (hh : r.high = some h) (point : Word) : r.reopens point = !timeLt h point := by
  rw [Root.reopens, hh, Option.any_some]

theorem Root.reopens_none {r : Root} (hh : r.high = none) (point : Word) : r.reopens point = false := by
  rw [Root.reopens, hh, Option.any_none]

section
variable (s : State) (g st : Nat) (t point : Word) (dev : Nat) (packet : Option (Nat × Nat × Nat))

/-- The launch joins the open ones, and the high point stays. -/
theorem State.openLaunch_root : ∃ l, (s.openLaunch g st t point dev packet).root g =
    { s.root g with launches := (s.root g).launches ++ [l], serial := (s.root g).serial + 1 } := by
  unfold State.openLaunch
  dsimp only
  split
  · exact ⟨_, s.root_setRoot ..⟩
  · exact ⟨_, s.root_setRoot ..⟩

theorem State.openLaunch_counter : (s.openLaunch g st t point dev packet).counter cLREOPEN g =
    if (s.root g).reopens point then satAdd (s.counter cLREOPEN g) 1 else s.counter cLREOPEN g := by
  unfold State.openLaunch
  dsimp only
  split
  · exact State.counter_countBy ..
  · rfl

end

/-! ### A slot is loaded (R132) -/

theorem State.subscribeMin_root (s : State) (p : Nat × Nat) (n k : Nat) : (s.subscribeMin p n).root k = s.root k := by
  induction n generalizing s with
  | zero => rfl
  | succ n ih =>
    simp only [State.subscribeMin]
    split
    · exact ih _
    · rfl

theorem State.openLanding_root (s : State) (g st k : Nat) : (s.openLanding g st).root k = s.root k :=
  State.subscribeMin_root ..

theorem State.makeResident_root (s : State) (g : Nat) (gr : Graph) : (s.makeResident g gr).root g = Root.reset := by
  refine List.foldlRecOn (motive := fun t : State => t.root g = Root.reset) _ _ ?_ fun t h st _ => (t.openLanding_root ..).trans h
  refine List.foldlRecOn (motive := fun t : State => t.root g = Root.reset) _ _ ?_ fun _ h _ _ => h
  exact tget_tput_same ..

/-! ### The statement -/

/-- Settles O39: each step is its equation, what goes to a root is safe by induction over the decrements, and the high point
is the latest of the points by the order of time words. -/
theorem progressSteps : Obligations.ProgressSteps := by
  intro s lc k node g st die b gr
  refine ⟨fun h => ?flush, fun hb hfirst hdst => ⟨fun ha => ?arrives, fun ha => ?waits⟩,
    fun hn hl => ⟨fun ha => ?forwards, fun ha => ?keeps⟩,
    fun hlow hhigh h6 h7 hl => exec_treeNodeForward_die hl hlow hhigh h6 h7, fun q d l hq hl => exec_treeNodeForward_root hq hl,
    fun q l d => ⟨fun ht => ?offers, fun ht => ?withholds, s.mem_toRoot node q, s.mem_toRoot_of_increment node q,
      s.toRoot_safe node q l d⟩,
    fun hb hfirst hdst => ⟨fun ht => ?applies, fun ht => ?refuses⟩, fun ds hg hh => s.applyDeltas_homed ds hg hh,
    fun hg hf => ⟨fun hh => exec_frontierAnnounce_known st die hg hf ?own,
      fun x hh hx => exec_frontierAnnounce_known st die hg hf ?announced,
      fun hh hx => exec_frontierAnnounce_unknown st die hg hf ?unknown⟩,
    fun done => ⟨?rises, fun hnone => ?stays, fun _ _ l hl hd => Root.raised_of_done hl hd⟩,
    fun t point dev packet => ?opens, ?loaded⟩
  case flush =>
    refine ⟨_, exec_progressFlushDeadline lc s, ?_⟩
    rw [State.flush_nonempty h, State.core_setCore]
    exact ⟨rfl, rfl⟩
  case arrives =>
    rw [exec_treeBatchArrival_below hb hfirst hdst, if_pos ha]
    rfl
  case waits => rw [exec_treeBatchArrival_below hb hfirst hdst, if_neg (Bool.eq_false_iff.mp ha)]
  case forwards =>
    exact ⟨_, (exec_treeNodeForward_below hl hn).trans (congrArg _ (if_pos ha)), s.node_setNode .., rfl⟩
  case keeps => exact (exec_treeNodeForward_below hl hn).trans (congrArg _ (if_neg (Bool.eq_false_iff.mp ha)))
  case offers => rw [State.offered_eq, if_pos ht]
  case withholds => rw [State.offered_eq, if_neg (Bool.eq_false_iff.mp ht)]
  case applies =>
    rw [exec_rootApplyBatch_root hb hfirst hdst, if_pos ht]
    rfl
  case refuses => rw [exec_rootApplyBatch_root hb hfirst hdst, if_neg (Bool.eq_false_iff.mp ht)]
  case own => rw [State.known, if_pos hh]
  case announced => rw [State.known, if_neg (Bool.eq_false_iff.mp hh), hx]
  case unknown => rw [State.known, if_neg (Bool.eq_false_iff.mp hh), hx]
  case rises => rw [State.completeLaunches_root]
  case stays =>
    rw [hnone]
    rfl
  case opens =>
    obtain ⟨l, hroot⟩ := s.openLaunch_root g st t point dev packet
    have hcount := s.openLaunch_counter g st t point dev packet
    refine ⟨by rw [hroot], by rw [hroot, List.length_append, List.length_singleton], fun h hh hle => ?_, fun h hh hlt => ?_,
      fun hh => ?_⟩
    · rw [hcount, Root.reopens_some hh, hle]
      rfl
    · rw [hcount, Root.reopens_some hh, hlt]
      rfl
    · rw [hcount, Root.reopens_none hh]
      rfl
  case loaded =>
    rw [State.makeResident_root]
    rfl

end Sys2Proof.Machine
end

section
/-! PROOFS. Where `ftake` is refused: the image of a level 7 that a level 0 stands for (R378, R393). -/

namespace Sys2Proof.Machine

/-- The place of a future. -/
def Acc.place : Acc → Option Nat
  | .ok v _ => some v
  | _ => none

/-- The state that an access which has ended leaves; one that has not leaves the state s0. -/
def Acc.left (s0 : State) : Acc → State
  | .ok _ s => s
  | _ => s0

theorem Acc.eq_ok_of_place {a : Acc} {pa : Nat} (h : a.place = some pa) (s0 : State) : a = .ok pa (a.left s0) := by
  cases a with
  | ok v s => exact congrArg (Acc.ok · s) (Option.some.inj h)
  | trap cls val => cases h
  | wait s => cases h

/-! ### The machine of the refutation

The frame of level 7 that `cpy` has above runs `ftake` on the future at 1000_0200H, with the same successor image of level 0 at
1000_0100H. -/

/-- The state after the image is read, and the one after the future's word is found. -/
def levelSevenImageRead : State := (levelSevenState.loadWords 0x10000100 8).left levelSevenState
def levelSevenFutureFound : State := (levelSevenImageRead.futureAt 0 0x10000200).left levelSevenImageRead

theorem levelSeven_imageReads_first :
    levelSevenState.ImageReads levelSevenState 0 levelSevenFrame 0x10000100 levelSevenRecord levelSevenImageRead :=
  ⟨levelSevenImage, ⟨by decide +kernel, by decide +kernel, Loads.eq_ok_of_words (by decide +kernel) _⟩, by decide +kernel⟩

theorem levelSeven_futureAt : levelSevenImageRead.futureAt 0 0x10000200 = .ok 0x10000200 levelSevenFutureFound :=
  Acc.eq_ok_of_place (by decide +kernel) _

/-- The instruction takes ILLEGAL, and its frame leaves the core (R378). -/
theorem framesAfter_levelSeven_ftake : framesAfter (exec (.ftake 1 2) levelSevenState) = some 0 := by decide +kernel

/-- Refutes O27: a frame of level 7 takes a future with a successor image of level 0. The level 0 stands for the frame's, so the
image is of level 7 and takes ILLEGAL (R378), which `ImageReads` looks for in the image's own level field only; the statement
keeps the frame on its core. -/
theorem not_futureResults : ¬ Obligations.FutureResults := by
  unfold Obligations.FutureResults
  intro h
  obtain ⟨hftake, -⟩ := h levelSevenState levelSevenImageRead levelSevenFutureFound 0 0x10000200 levelSevenFrame 1 2 0x10000200
    0x10000100 levelSevenRecord (by decide +kernel) (by decide +kernel) (by decide +kernel) (by decide +kernel)
  have htaken := hftake (by decide +kernel) levelSeven_senderClear levelSeven_imageReads_first levelSeven_futureAt
  have hframes := (congrArg framesAfter htaken).symm.trans framesAfter_levelSeven_ftake
  exact absurd hframes (by decide +kernel)

end Sys2Proof.Machine
end

section
/-! PROOFS. Tile tasks: issue, forwarding, K steps, completion and drains (R159 to R161, R213, R264, R265, R388 to R390, R417). -/

namespace Sys2Proof.Machine

/-! ### The meanings of the steps -/

theorem exec_tileTaskIssue (cl : Nat) (s : State) : exec (.tileTaskIssue cl) s = execTileTaskIssue cl s := rfl
theorem exec_tileTaskForward (cl : Nat) (s : State) : exec (.tileTaskForward cl) s = execTileTaskForward cl s := rfl
theorem exec_matrixKStep (tile : Nat) (s : State) : exec (.matrixKStep tile) s = execMatrixKStep tile s := rfl
theorem exec_tileTaskComplete (tile : Nat) (s : State) : exec (.tileTaskComplete tile) s = execTileTaskComplete tile s := rfl
theorem exec_matrixDrain (tile : Nat) (s : State) : exec (.matrixDrain tile) s = execMatrixDrain tile s := rfl

/-! ### Issue (R159) -/

/-- The first number below n that has a value is k. -/
theorem findSome?_span {α : Type} {f : Nat → Option α} {n k : Nat} {y : α} (hk : k < n) (hy : f k = some y)
    (hfirst : ∀ j < k, f j = none) : (span 0 n).findSome? f = some y := by
  obtain ⟨m, rfl⟩ := Nat.exists_eq_add_of_lt hk
  rw [List.findSome?_eq_some_iff]
  refine ⟨span 0 k, k, span (k + 1) m, ?_, hy, fun j hj => hfirst j ?_⟩
  · rw [Nat.add_assoc, span_eq_range', span_eq_range', span_eq_range', ← List.range'_append_1, Nat.zero_add, List.range'_succ]
  · simpa using hj

section
variable {s s1 : State} {cl : Nat}

theorem exec_tileTaskIssue_resumes (h : (span (8 * cl) 8).findSome? (fun x => s.tryResume cl x) = some s1) :
    exec (.tileTaskIssue cl) s = .next s1 := by
  rw [exec_tileTaskIssue, execTileTaskIssue, h]

/-- Where no stopped task resumes, the first queued record that can be issued is. -/
theorem exec_tileTaskIssue_issues {k : Nat} {t : TileTask} (hresume : ∀ x, s.tryResume cl x = none)
    (hk : (s.cluster cl).queue[k]? = some t) (ht : s.tryIssue cl k t = some s1)
    (hfirst : ∀ j < k, ∀ y, (s.cluster cl).queue[j]? = some y → s.tryIssue cl j y = none) :
    exec (.tileTaskIssue cl) s = .next s1 := by
  have hnone : (span (8 * cl) 8).findSome? (fun x => s.tryResume cl x) = none :=
    List.findSome?_eq_none_iff.mpr fun x _ => hresume x
  have hissue : (span 0 (s.cluster cl).queue.length).findSome?
      (fun j => ((s.cluster cl).queue[j]?).bind fun t => s.tryIssue cl j t) = some s1 := by
    refine findSome?_span (List.getElem?_eq_some_iff.mp hk).1 ?_ fun j hj => ?_
    · rw [hk, Option.bind_some, ht]
    · exact Option.bind_eq_none_iff.mpr (hfirst j hj)
  rw [exec_tileTaskIssue, execTileTaskIssue, hnone]
  dsimp only
  rw [hissue, Option.getD_some]

/-! ### Forwarding (R160) -/

/-- Where nothing waits to be forwarded, a first record of the other class goes to the queue of the cluster that serves it. -/
theorem exec_tileTaskForward_head {t : TileTask} {l : List TileTask} (hforward : (s.cluster cl).forward = [])
    (hqueue : (s.cluster cl).queue = t :: l) (hclass : wrongClass cl t = true)
    (hroom : (s.cluster (otherCluster cl)).queue.length < Config.tileQueue) : exec (.tileTaskForward cl) s =
      .next (((s.setCluster cl { s.cluster cl with queue := l }).setCluster (otherCluster cl)
        ((s.cluster (otherCluster cl)).enqueue { t with forwarded := true })).count cMXFWD (cl / 4)) := by
  have hfirst : (span 0 (t :: l).length).find? (fun k => ((t :: l)[k]?).any (wrongClass cl)) = some 0 :=
    List.find?_cons_of_pos hclass
  rw [exec_tileTaskForward, execTileTaskForward]
  simp only [hforward, execTileTaskForward.forwardOne, hqueue, hfirst, hroom, List.getElem?_cons_zero, List.take_zero,
    List.any_nil, Bool.not_false, Option.filter_some, if_true, and_self]
  rfl

end

/-! ### What an engine keeps -/

/-- The task that an engine runs becomes t. -/
def State.keepTask (s : State) (tile : Nat) (t : TileTask) : State := s.setTile tile { s.tile tile with run := some t }

/-- A task that has met an uncorrectable granule or bank (R242). -/
def TileTask.fail (t : TileTask) : TileTask := { t with code := 3, skipped := 8192 }

section
variable (s : State) (tile b : Nat) (x : Bank)

theorem State.run_setBank : ((s.setBank tile b x).tile tile).run = (s.tile tile).run := by
  rw [State.setBank]
  split
  · rw [State.tile_setTile]
  · rfl

theorem State.bank_setBank (hb : b < 2) : ((s.setBank tile b x).tile tile).bank b = x := by
  simp [State.setBank, Tile.bank, hb, List.getD_eq_getElem?_getD]

theorem State.setBank_mem : (s.setBank tile b x).mem = s.mem := by
  rw [State.setBank]
  split <;> rfl

end

/-! ### K steps (R213, R264, R265, R417) -/

/-- The first column of the next K step of a task, and the end of its columns. -/
def TileTask.stepStart (t : TileTask) : Nat := (if isNarrow t.words.toList then 64 else 32) * t.ksteps
def TileTask.stepEnd (t : TileTask) : Nat := min (tK t.words.toList) (t.stepStart + if isNarrow t.words.toList then 64 else 32)

/-- The granules that the next K step of a task has still to read. -/
def TileTask.toRead (t : TileTask) : List Nat := t.unread t.stepStart t.stepEnd

/-- A task reads a granule for its K step, or fails at it. -/
def State.readOperand (s : State) (tile : Nat) (t : TileTask) (g : Nat) : State :=
  let as := span (16 * g) 16
  if s.anyBadCellar as then (s.keepTask tile t.fail).meetCellarUe as
  else s.keepTask tile { t with seen := tput g (BitVec.ofNat 128 (s.readCellar as)) t.seen }

theorem State.readOperand_bad {s : State} {tile g : Nat} {t : TileTask} (h : s.anyBadCellar (span (16 * g) 16) = true) :
    s.readOperand tile t g = (s.keepTask tile t.fail).meetCellarUe (span (16 * g) 16) := if_pos h

theorem State.readOperand_good {s : State} {tile g : Nat} {t : TileTask} (h : s.anyBadCellar (span (16 * g) 16) = false) :
    s.readOperand tile t g =
      s.keepTask tile { t with seen := tput g (BitVec.ofNat 128 (s.readCellar (span (16 * g) 16))) t.seen } :=
  if_neg (Bool.eq_false_iff.mp h)

/-- An engine after a K step of its task, whose accumulators and flags come to r. -/
def State.keepStep (s : State) (tile k : Nat) (t : TileTask) (r : Table (BitVec 32) × BitVec 5) : State :=
  (s.keepTask tile { t with ksteps := t.ksteps + 1, flags := t.flags ||| r.2 }).setBank tile k
    { (s.tile tile).bank k with data := r.1 }

section
variable (s : State) (tile k : Nat) (t : TileTask) (r : Table (BitVec 32) × BitVec 5)

theorem State.keepStep_run : ((s.keepStep tile k t r).tile tile).run =
    some { t with ksteps := t.ksteps + 1, flags := t.flags ||| r.2 } := by
  rw [State.keepStep, State.run_setBank, State.keepTask, State.tile_setTile]

theorem State.keepStep_data (hk : k < 2) : (((s.keepStep tile k t r).tile tile).bank k).data = r.1 := by
  rw [State.keepStep, State.bank_setBank _ _ _ _ hk]

theorem State.keepStep_mem : (s.keepStep tile k t r).mem = s.mem := State.setBank_mem ..

end

section
variable {s : State} {tile : Nat} {t : TileTask} (hrun : (s.tile tile).run = some t) (hgoes : s.engineRuns tile t = true)
include hrun hgoes

section
variable (hstop : t.stoppable = true)
include hstop

theorem exec_matrixKStep_waits (hwait : s.operandWaits t.opA.lc = true ∨ s.operandWaits t.opB.lc = true) :
    exec (.matrixKStep tile) s = .next ((s.callTile t.opA.lc).callTile t.opB.lc) := by
  rw [exec_matrixKStep, execMatrixKStep]
  simp only [hrun, hstop, hgoes, Bool.or_eq_true, hwait, Bool.not_true, Bool.or_self, Bool.false_eq_true, if_false, if_true]

variable (hA : s.operandWaits t.opA.lc = false) (hB : s.operandWaits t.opB.lc = false) {k : Nat}
  (hk : (s.tile tile).bankOf t.name t.lc t.level = some k)
include hA hB hk

theorem exec_matrixKStep_badBank (hbad : ((s.tile tile).bank k).bad = true) :
    exec (.matrixKStep tile) s = .next (s.keepTask tile t.fail) := by
  rw [exec_matrixKStep, execMatrixKStep]
  simp only [hrun, hstop, hgoes, hA, hB, hk, hbad, Bool.not_true, Bool.or_self, Bool.false_eq_true, if_false, if_true]
  rfl

variable (hgood : ((s.tile tile).bank k).bad = false)
include hgood

theorem exec_matrixKStep_reads {g : Nat} (hg : pickAccess s.tick t.toRead = some g) :
    exec (.matrixKStep tile) s = .next (s.readOperand tile t g) := by
  rw [TileTask.toRead, TileTask.stepEnd, TileTask.stepStart] at hg
  rw [exec_matrixKStep, execMatrixKStep, State.readOperand]
  simp only [hrun, hstop, hgoes, hA, hB, hk, hgood, hg, Bool.not_true, Bool.or_self, Bool.false_eq_true, if_false]
  split <;> rfl

/-- With every granule read, the K step accumulates over its columns. -/
theorem exec_matrixKStep_accumulates (hread : t.toRead = []) : exec (.matrixKStep tile) s =
    .next (s.keepStep tile k t (accStep t t.stepStart t.stepEnd ((s.tile tile).bank k).data)) := by
  rw [TileTask.toRead, TileTask.stepEnd, TileTask.stepStart] at hread
  rw [exec_matrixKStep, execMatrixKStep, State.keepStep]
  simp only [hrun, hstop, hgoes, hA, hB, hk, hgood, hread, pickAccess_nil, Bool.not_true, Bool.or_self, Bool.false_eq_true, if_false]
  rfl

end

/-! ### Completion (R389) -/

theorem exec_tileTaskComplete_fails (hcode : t.code ≠ 0) : exec (.tileTaskComplete tile) s = .next (s.failTask tile t) := by
  rw [exec_tileTaskComplete, execTileTaskComplete]
  simp only [hrun, hgoes, Bool.not_true, Bool.false_eq_true, if_false, if_pos hcode]

variable (hcode : t.code = 0)
include hcode

theorem exec_tileTaskComplete_ends (hdrain : t.drain = false) (hdrn : tDrn t.words.toList = false) (hover : t.stoppable = false) :
    exec (.tileTaskComplete tile) s =
      .next ((s.setTile tile { s.tile tile with run := none }).endTask tile (tile / 32) t (statusWord 0 false t.flags 0)) := by
  rw [exec_tileTaskComplete, execTileTaskComplete]
  simp only [hrun, hgoes, hcode, hdrain, hdrn, hover, ne_eq, not_true, Bool.not_true, Bool.or_self, Bool.false_eq_true, if_false]

end

/-! ### Drains (R389, R390, R242) -/

/-- A task drains: it is a drain, or its record asks for one and its K steps are done. -/
def TileTask.drains (t : TileTask) : Bool := t.drain || (tDrn t.words.toList && !t.stoppable)

theorem TileTask.drains_iff (t : TileTask) :
    t.drains = true ↔ t.drain = true ∨ (tDrn t.words.toList = true ∧ t.stoppable = false) := by
  simp [TileTask.drains]

/-- Nothing bars the drain of a task that has not failed, drains, and whose engine's work goes on. -/
theorem drainBarred_eq {s : State} {tile : Nat} {t : TileTask} (hgoes : s.engineRuns tile t = true) (hcode : t.code = 0)
    (hdrains : t.drains = true) :
    (decide (t.code ≠ 0) || !(t.drain || (tDrn t.words.toList && !t.stoppable)) || !s.engineRuns tile t) = false := by
  rw [TileTask.drains] at hdrains
  simp [hgoes, hcode, hdrains]

/-- The granules that a drain has still to write. -/
def TileTask.toDrain (t : TileTask) : List Nat :=
  (span 0 (t.drainTo.rows * t.drainTo.perRow t)).filter fun g => !t.drained.contains g

/-- A piece of a drain covers no failed codeword in part. -/
def State.pieceFits (s : State) (lc : Nat) (w : Nat × List Byte) : Bool := s.storableCellar (span (cellarKey lc w.1) w.2.length)

/-- The bytes of a piece of a drain go where it lies, if it fits. -/
def State.drainPiece (s : State) (lc : Nat) (w : Nat × List Byte) : State :=
  if s.pieceFits lc w then s.writeCellar (span (cellarKey lc w.1) w.2.length) w.2 else s

/-- A task that has drained a granule, or skipped and counted it. -/
def TileTask.drop (t : TileTask) (g : Nat) (written : Bool) : TileTask :=
  { t with drained := g :: t.drained, skipped := t.skipped + (!written).toNat }

theorem State.drainPiece_tile (s : State) (lc : Nat) (w : Nat × List Byte) (tile : Nat) :
    (s.drainPiece lc w).tile tile = s.tile tile := by
  rw [State.drainPiece]
  split <;> rfl

section
variable {s : State} {tile : Nat} {t : TileTask} (hrun : (s.tile tile).run = some t) (hgoes : s.engineRuns tile t = true)
  (hcode : t.code = 0) (hdrains : t.drains = true)
include hrun hgoes hcode hdrains

theorem exec_matrixDrain_waits (hwait : s.operandWaits t.drainTo.lc = true) :
    exec (.matrixDrain tile) s = .next (s.callTile t.drainTo.lc) := by
  rw [exec_matrixDrain, execMatrixDrain]
  simp only [hrun, drainBarred_eq hgoes hcode hdrains, hwait, Bool.false_eq_true, if_false, if_true]

variable (hopen : s.operandWaits t.drainTo.lc = false) {k : Nat} (hk : (s.tile tile).bankOf t.name t.lc t.level = some k)
include hopen hk

theorem exec_matrixDrain_badBank (hbad : ((s.tile tile).bank k).bad = true) :
    exec (.matrixDrain tile) s = .next (s.failTask tile t.fail) := by
  rw [exec_matrixDrain, execMatrixDrain]
  simp only [hrun, drainBarred_eq hgoes hcode hdrains, hopen, hk, hbad, Bool.false_eq_true, if_false, if_true]
  rfl

variable (hgood : ((s.tile tile).bank k).bad = false) {data : Table (BitVec 32)} (hdata : ((s.tile tile).bank k).data = data)
include hgood hdata

theorem exec_matrixDrain_over (hleft : t.toDrain = []) :
    exec (.matrixDrain tile) s = .next (s.endDrain tile t (t.drainTo.flags t data)) := by
  rw [TileTask.toDrain] at hleft
  rw [exec_matrixDrain, execMatrixDrain]
  simp only [hrun, drainBarred_eq hgoes hcode hdrains, hopen, hk, hgood, hdata, hleft, pickAccess_nil, Bool.false_eq_true, if_false]

variable {g : Nat} {w : Nat × List Byte} (hg : pickAccess s.tick t.toDrain = some g) (hw : t.drainTo.piece t data g = w)
include hg hw

theorem exec_matrixDrain_piece : exec (.matrixDrain tile) s =
    .next (if t.toDrain.length ≤ 1 then
      (s.drainPiece t.drainTo.lc w).endDrain tile (t.drop g (s.pieceFits t.drainTo.lc w)) (t.drainTo.flags t data)
    else (s.drainPiece t.drainTo.lc w).keepTask tile (t.drop g (s.pieceFits t.drainTo.lc w))) := by
  rw [TileTask.toDrain] at hg
  rw [exec_matrixDrain, execMatrixDrain, State.keepTask, State.drainPiece_tile]
  simp only [hrun, drainBarred_eq hgoes hcode hdrains, hopen, hk, hgood, hdata, hg, hw, Bool.false_eq_true, if_false]
  rfl

end

/-! ### The statement -/

/-- Settles O41: each step is its law: an issue by the first record that can be issued, a K step by whether it has still a granule
to read, and a drain by how many it has still to write. -/
theorem tileTaskSteps : Obligations.TileTaskSteps := by
  intro s cl tile t
  refine ⟨fun s1 => exec_tileTaskIssue_resumes, fun k s1 => exec_tileTaskIssue_issues, fun l => exec_tileTaskForward_head,
    fun hrun hgoes => ⟨fun hstop => ⟨exec_matrixKStep_waits hrun hgoes hstop, fun hA hB k hk =>
        ⟨exec_matrixKStep_badBank hrun hgoes hstop hA hB hk, fun hgood => ⟨fun g hg => ⟨fun hue => ?fails, fun hue => ?reads⟩,
          fun hread data fl hstep => ?accumulates⟩⟩⟩,
      exec_tileTaskComplete_fails hrun hgoes, exec_tileTaskComplete_ends hrun hgoes, fun hcode hdrain => ?drains⟩⟩
  case fails => exact (exec_matrixKStep_reads hrun hgoes hstop hA hB hk hgood hg).trans (congrArg _ (State.readOperand_bad hue))
  case reads => exact (exec_matrixKStep_reads hrun hgoes hstop hA hB hk hgood hg).trans (congrArg _ (State.readOperand_good hue))
  case accumulates =>
    have hnext := exec_matrixKStep_accumulates hrun hgoes hstop hA hB hk hgood hread
    rw [show accStep t t.stepStart t.stepEnd ((s.tile tile).bank k).data = (data, fl) from hstep] at hnext
    exact ⟨_, hnext, s.keepStep_run tile k t (data, fl), s.keepStep_data tile k t (data, fl), s.keepStep_mem tile k t (data, fl)⟩
  case drains =>
    have hdrains := t.drains_iff.mpr hdrain
    refine ⟨exec_matrixDrain_waits hrun hgoes hcode hdrains, fun hopen k hk =>
      ⟨exec_matrixDrain_badBank hrun hgoes hcode hdrains hopen hk, fun hgood =>
        ⟨exec_matrixDrain_over hrun hgoes hcode hdrains hopen hk hgood rfl, fun g at_ bs hg hw => ?_⟩⟩⟩
    have hpiece := exec_matrixDrain_piece hrun hgoes hcode hdrains hopen hk hgood rfl hg hw
    exact ⟨fun hlast => hpiece.trans (congrArg _ (if_pos (Nat.le_of_eq hlast))),
      fun hmore => hpiece.trans (congrArg _ (if_neg (Nat.not_le.mpr hmore)))⟩

end Sys2Proof.Machine
end

section
/-! PROOFS. What an instruction that nothing holds back reads, gangs and overlays (R173, R182 to R185, R267, R304 to R306, R400,
R401). -/

namespace Sys2Proof.Machine

/-! ### A frame without streams (R173) -/

section
variable {f : Frame} (hs : ∀ r, f.stream r = none)
include hs

/-- Each read of an instruction takes its register. -/
theorem Frame.readVals_noStream (seen l : List Reg) : f.readVals seen l = l.map f.h.reg := by
  induction l generalizing seen with
  | nil => rfl
  | cons r l ih => simp only [Frame.readVals, Frame.readVal, hs, ih, List.map_cons]

theorem Frame.isOut_noStream (r : Reg) : f.isOut r = false := by simp only [Frame.isOut, hs, Option.any_none]

theorem Frame.isIn_noStream (r : Reg) : f.isIn r = false := by simp only [Frame.isIn, hs, Option.any_none]

theorem Frame.streamStall_noStream (reads writes : List Reg) : f.streamStall reads writes = false := by
  simp only [Frame.streamStall, hs, List.any_eq_false.mpr fun _ _ => Bool.false_ne_true, Bool.or_false]

/-- Retiring pops nothing. -/
theorem State.pops_noStream {s : State} {lc : Nat} (ha : s.agent = .core lc) (hf : s.top lc = some f) (i : Instr) :
    s.pops i = s := by
  have hpop : ∀ r, s.popRead lc r = s := fun r => by simp only [State.popRead, hf, hs]
  simp only [State.pops, ha, State.popReads]
  exact List.foldlRecOn (motive := fun t => t = s) (srcs i) _ rfl fun t ht r _ => by rw [ht, hpop]

end

/-! ### Nothing holds an instruction back (R93, R171, R182, R276) -/

theorem Frame.waitsSeq_nil {f : Frame} (h : f.seq = []) (i : Instr) : f.waitsSeq i = false := by
  simp only [Frame.waitsSeq, h, List.isEmpty_nil, Bool.not_true, Bool.false_and]

theorem State.gangReady_alone {f : Frame} (h : f.gang = none) (s : State) (lc : Nat) : s.gangReady lc f = true := by
  simp only [State.gangReady, h]

/-- A bar that holds at one kind of frame, or at one level, alone is off for a form which that kind or level may execute. -/
theorem levelBar_off {k n : Nat} {ok : Bool} (h : k = n → ok = true) : (k == n && !ok) = false := by
  by_cases hk : k = n
  · rw [h hk, Bool.not_true, Bool.and_false]
  · rw [beq_eq_false_iff_ne.mpr hk, Bool.false_and]

/-- Settles O3: on a frame each bar and each wait of the front is off, on a front-end core the two that it has. -/
theorem readyReadsRegisters : Obligations.ReadyReadsRegisters := by
  intro s i hready
  unfold State.Ready at hready
  cases ha : s.agent with
  | core lc =>
    simp only [ha] at hready
    obtain ⟨f, hf, hleader, hgang, hvloop, hseq, hs, honly, hkind, hwindow⟩ := hready
    have hinside : ((srcs i ++ dsts i ++ named i).any fun r => decide (f.window ≤ r.val)) = false :=
      List.any_eq_false.mpr fun r hr => by simpa using hwindow r hr
    have hbound : ((srcs i).any f.isOut || (dsts i).any f.isIn) = false := by
      simp only [Bool.or_eq_false_iff, List.any_eq_false, Frame.isOut_noStream hs, Frame.isIn_noStream hs]
      exact ⟨fun _ _ => Bool.false_ne_true, fun _ _ => Bool.false_ne_true⟩
    simp only [State.front, ha, hf, hleader, State.gangReady_alone hgang, hvloop, honly, levelBar_off hkind, hinside, hbound,
      Frame.waitsSeq_nil hseq, Frame.streamStall_noStream hs, Frame.readVals_noStream hs, State.hart_of_top ha hf,
      Option.isSome_none, Bool.not_true, Bool.or_self, Bool.false_and, Bool.false_eq_true, if_false]
  | fe n =>
    simp only [ha] at hready
    obtain ⟨hok, hplug⟩ := hready
    simp only [State.front, State.hart, ha, hok, levelBar_off hplug, Bool.not_true, Bool.or_self, Bool.false_eq_true, if_false]

/-! ### `gang`, `disband` and `ovl` (R182 to R185, R298, R304, R305, R400, R401) -/

section
variable {s : State} {lc : Nat} {f : Frame} {v : List Word} (ha : s.agent = .core lc) (hf : s.top lc = some f)
include ha hf

section
variable {d : Reg} {form : GangForm} (hv : s.front (.gang d form) = .go v)
include hv

theorem exec_gang_barred (hflag : f.hdr.flags / 2 % 2 = 0) : exec (.gang d form) s = .next (s.illegal (.gang d form)) :=
  (State.withFrame_go _ _ _ _ _ _ ha hf hv).trans (congrArg _ (if_pos hflag))

variable (hflag : f.hdr.flags / 2 % 2 = 1)
include hflag

theorem exec_gang_refused (hcode : (s.gangCode lc f form).1 ≠ 0) : exec (.gang d form) s =
    .next (s.finish (.gang d form) d (BitVec.ofNat 64 (s.gangCode lc f form).1)) := by
  refine (State.withFrame_go _ _ _ _ _ _ ha hf hv).trans ?_
  simp only [hflag, hcode, Nat.one_ne_zero, if_false]

theorem exec_gang_granted (hcode : (s.gangCode lc f form).1 = 0) : exec (.gang d form) s =
    .next (((s.gangCode lc f form).2.foldl (fun s m => s.joinGang lc f m)
      (s.setTop lc { f with gang := some ⟨form, lc :: (s.gangCode lc f form).2⟩, latch := none })).finish
        (.gang d form) d 0) := by
  refine (State.withFrame_go _ _ _ _ _ _ ha hf hv).trans ?_
  simp only [hflag, hcode, Nat.one_ne_zero, if_false, if_true, BitVec.ofNat_eq_ofNat]

end

section
variable (hv : s.front .disband = .go v)
include hv

theorem exec_disband_alone (hgang : f.gang = none) : exec .disband s = .next (s.retire .disband) := by
  have hsame : s.disband lc = s := by simp only [State.disband, hf, hgang]
  refine (State.withFrame_go _ _ _ _ _ _ ha hf hv).trans ?_
  simp only [hsame, hf, hgang, Option.isSome_none, Bool.false_eq_true, if_false]

theorem exec_disband_leader {g : Gang} {h : Frame} (hgang : f.gang = some g) (hh : (s.disband lc).top lc = some h) :
    exec .disband s = .next (((s.disband lc).setTop lc { h with latch := none }).retire .disband) := by
  refine (State.withFrame_go _ _ _ _ _ _ ha hf hv).trans ?_
  simp only [hh, hgang, Option.isSome_some, if_true]

end

section
variable {n : Fin 1024} (hv : s.front (.ovl n) = .go v)
include hv

theorem exec_ovl_barred (ho : f.overlay = none) : exec (.ovl n) s = .next (s.illegal (.ovl n)) := by
  refine (State.withFrame_go _ _ _ _ _ _ ha hf hv).trans ?_
  simp only [ho]

variable {o : Nat} (ho : f.overlay = some o)
include ho

theorem exec_ovl_beyond (h : s.codeWords f.graph ≤ 0x4000 * n.val) : exec (.ovl n) s =
    .next (s.trap ADDRESS (s.codeBase f.graph + BitVec.ofNat 64 (4 * (0x4000 * n.val + (f.h.pc + 1) % 0x4000)))) := by
  refine (State.withFrame_go _ _ _ _ _ _ ha hf hv).trans ?_
  simp only [ho, if_pos h]

theorem exec_ovl_selects (h : 0x4000 * n.val < s.codeWords f.graph) : exec (.ovl n) s =
    .next ((((s.setTop lc { f with overlay := some n.val }).dropIcache (s.tileOf lc)).openWindow lc
      { f with overlay := some n.val }).goTo (0x4000 * n.val + (f.h.pc + 1) % 0x4000)) := by
  refine (State.withFrame_go _ _ _ _ _ _ ha hf hv).trans ?_
  simp only [ho, if_neg (Nat.not_le.mpr h)]

end

end

/-- Settles O33: each clause is the law of its instruction's case. -/
theorem gangAndOverlay : Obligations.GangAndOverlay := by
  intro s lc f d form n v ha hf
  exact ⟨fun hv => ⟨exec_gang_barred ha hf hv, exec_gang_refused ha hf hv, exec_gang_granted ha hf hv⟩,
    exec_disband_alone ha hf, fun g h hv => exec_disband_leader ha hf hv,
    fun hv => ⟨exec_ovl_barred ha hf hv, fun o => exec_ovl_beyond ha hf hv, fun o => exec_ovl_selects ha hf hv⟩⟩

end Sys2Proof.Machine
end

section
/-! PROOFS. The issue of vector instructions and of loops (R171, R349 to R354, R361, R372). -/

namespace Sys2Proof.Machine

/-! ### Retiring leaves the running frame but for what it forgets (R403) -/

section
variable {s : State} {lc : Nat} {f : Frame} (ha : s.agent = .core lc) (hf : s.top lc = some f)
include ha hf

theorem State.setHart_core (h : Hart) : s.setHart h = s.setTop lc { f with h := h } := by
  simp only [State.setHart, ha, hf]

theorem State.goTo_top (pc : Nat) :
    (s.goTo pc).top lc = some { f with h := { f.h with pc := pc, sent := [], stalled := false } } := by
  rw [State.goTo, State.hart_of_top ha hf, State.countRetired_top ((s.setHart_agent _).trans ha), State.setHart_core ha hf,
    State.setTop_top _ _ _ _ hf]

theorem State.goTo_core_ne (pc : Nat) {c : Nat} (hc : c ≠ lc) : (s.goTo pc).core c = s.core c := by
  rw [State.goTo, State.countRetired_core ((s.setHart_agent _).trans ha), State.core_setCore_ne _ _ _ _ hc,
    State.setHart_core ha hf, State.setTop_core_ne _ _ _ _ hc]

end

/-! ### The meaning of a vector form (R354) -/

/-- Every vector form but `vloop` is issued by one law. -/
theorem exec_eq_issueVec (i : Instr) (s : State) : exec i s = bif isVector i && !isLoop i then s.issueVec i else exec i s := by
  cases i <;> rfl

theorem exec_vector {i : Instr} (hi : isVector i = true) (hl : isLoop i = false) (s : State) : exec i s = s.issueVec i := by
  rw [exec_eq_issueVec, hi, hl]
  rfl

theorem State.issueAligned_aligned {p : Plan} (h : p.misaligned = none) (s : State) (lc : Nat) (i : Instr) :
    s.issueAligned lc i p = s.enter lc i p := by
  simp only [State.issueAligned, h]

section
variable {s : State} {i : Instr} {lc : Nat} {f : Frame} {v : List Word} (ha : s.agent = .core lc) (hf : s.top lc = some f)
  (hi : isVector i = true) (hl : isLoop i = false) (hv : s.front i = .go v)
include ha hf hi hl hv

theorem exec_vector_barred (hbad : (planOf f (shapeOf i) v).bad = true) : exec i s = .next (s.illegal i) := by
  rw [exec_vector hi hl, State.issueVec, State.run_go _ _ _ _ hv]
  simp only [ha, hf, hbad, if_true]

variable {p : Plan} (hp : planOf f (shapeOf i) v = p) (hbad : p.bad = false)
include hp hbad

theorem exec_vector_mismatch {r : VReg} (hr : p.mismatch = some r) : exec i s = .next (if s.ignores TAG
    then (s.ignore TAG (f.tagVal r)).issueAligned lc i p else s.trap TAG (f.tagVal r)) := by
  rw [exec_vector hi hl, State.issueVec, State.run_go _ _ _ _ hv]
  simp only [ha, hf, hp, hbad, hr, Bool.false_eq_true, if_false]

theorem exec_vector_matches (hr : p.mismatch = none) : exec i s = .next (s.issueAligned lc i p) := by
  rw [exec_vector hi hl, State.issueVec, State.run_go _ _ _ _ hv]
  simp only [ha, hf, hp, hbad, hr, Bool.false_eq_true, if_false]

end

/-- Settles O21: the form is barred, or its first mismatch or its misalignment is ignored or trapped, or it enters. -/
theorem vectorIssue : Obligations.VectorIssue := by
  intro i s lc f v ha hf hi hl hv
  refine ⟨exec_vector_barred ha hf hi hl hv, fun r hbad hr hig => ?tag, fun b hbad hr hb hig => ?align,
    fun r hbad hr hig hb => ?tagIgnored, fun b hbad hr hb hig => ?alignIgnored, fun hbad hr hb => ?enters⟩
  case tag => exact (exec_vector_mismatch ha hf hi hl hv rfl hbad hr).trans (congrArg _ (if_neg (Bool.eq_false_iff.mp hig)))
  case align =>
    rw [exec_vector_matches ha hf hi hl hv rfl hbad hr]
    simp only [State.issueAligned, hb, hig, Bool.false_eq_true, if_false]
  case tagIgnored =>
    rw [exec_vector_mismatch ha hf hi hl hv rfl hbad hr, if_pos hig, State.issueAligned_aligned hb]
    rfl
  case alignIgnored =>
    rw [exec_vector_matches ha hf hi hl hv rfl hbad hr]
    simp only [State.issueAligned, hb, hig, if_true]
  case enters => rw [exec_vector_matches ha hf hi hl hv rfl hbad hr, State.issueAligned_aligned hb]

/-! ### What enters the sequencer (R171, R349, R372) -/

/-- What issue captures for an entry (R349). -/
def Frame.capture (f : Frame) (i : Instr) (p : Plan) : SeqEntry :=
  ⟨i, f.h.pc, f.h.fpctl, f.fd, p.fmt, p.aux, p.res, p.base, p.stride, p.mask, f.h.gen⟩

/-- The issued tags after an entry (R350). -/
def Frame.itagsAfter (f : Frame) (e : SeqEntry) : Vector (BitVec 4) 16 :=
  match (shapeOf e.i).dst with
  | some d => f.itags.set d.val e.res
  | none => f.itags

theorem Frame.enqueue_straight {f : Frame} (h : f.vloop = none) (e : SeqEntry) : f.enqueue e =
    { f with itags := f.itagsAfter e, seq := f.seq ++ [.one e],
             h := { f.h with gen := genAfter f.h.gen (e.draws f.width) } } := by
  unfold Frame.enqueue Frame.itagsAfter
  cases (shapeOf e.i).dst <;> simp only [h]

section
variable {f : Frame} {l : LoopIssue} (h : f.vloop = some l) (e : SeqEntry)
include h

theorem Frame.enqueue_body (hneed : 1 < l.need) : f.enqueue e =
    { f with itags := f.itagsAfter e, vloop := some { l with need := l.need - 1, body := l.body ++ [e] } } := by
  unfold Frame.enqueue Frame.itagsAfter
  cases (shapeOf e.i).dst <;> simp only [h, gt_iff_lt, hneed, if_true]

variable (hneed : l.need ≤ 1)
include hneed

theorem Frame.enqueue_discards (hcount : l.count = 0) : f.enqueue e = { f with itags := l.before, vloop := none } := by
  unfold Frame.enqueue
  cases (shapeOf e.i).dst <;> simp only [h, gt_iff_lt, Nat.not_lt.mpr hneed, hcount, if_false, if_true]

theorem Frame.enqueue_loop (hcount : l.count ≠ 0) : f.enqueue e =
    { f with
      itags := f.itagsAfter e, vloop := none, seq := f.seq ++ [.loop ⟨l.body ++ [e], l.count, 0, 0, f.h.gen⟩]
      h := { f.h with gen := genAfter f.h.gen (l.count * (l.body ++ [e]).foldl (fun n e => n + e.draws f.width) 0) } } := by
  unfold Frame.enqueue Frame.itagsAfter
  cases (shapeOf e.i).dst <;> simp only [h, gt_iff_lt, Nat.not_lt.mpr hneed, hcount, if_false]

end

section
variable {s : State} {lc : Nat} {f : Frame} (ha : s.agent = .core lc) (hf : s.top lc = some f) (hs : ∀ r, f.stream r = none)
include ha hf hs

theorem State.enter_noStream (i : Instr) (p : Plan) :
    s.enter lc i p = (s.setTop lc (f.enqueue (f.capture i p))).goTo (f.h.pc + 1) := by
  simp only [State.enter, State.pops_noStream hs ha hf, hf]
  rfl

theorem exec_vloop_noStream {n : Fin 16} {m : Reg} {x : Word} (hv : s.front (.vloop n m) = .go [x]) : exec (.vloop n m) s =
    .next ((s.setTop lc { f with vloop := some ⟨n.val + 1, x.toNat, [], f.itags⟩ }).goTo (f.h.pc + 1)) := by
  refine (State.run_go _ _ _ _ hv).trans ?_
  simp only [ha, State.pops_noStream hs ha hf, hf]
  rfl

end

/-- Settles O22: an entry is what issue captures, and a loop grows, is discarded, or is queued with its last instruction. -/
theorem vectorEntersSequencer : Obligations.VectorEntersSequencer := by
  refine ⟨fun i s lc f p ha hf hs hstraight => ?enters, fun n m s lc f x ha hf hs => exec_vloop_noStream ha hf hs,
    fun f e l hl => ⟨fun hneed => ?body, fun hneed hcount => ?discards, fun hneed hcount => ?queues⟩⟩
  case enters =>
    have hagent : (s.setTop lc (f.enqueue (f.capture i p))).agent = .core lc := (s.setTop_agent ..).trans ha
    have htop := s.setTop_top lc (f.enqueue (f.capture i p)) f hf
    refine ⟨_, _, f.capture i p, State.enter_noStream ha hf hs i p, State.goTo_top hagent htop _, ?_⟩
    rw [Frame.enqueue_straight hstraight]
    refine ⟨rfl, rfl, ?_, rfl, rfl, rfl, rfl, rfl, ?_, fun c hc => ?_⟩
    · cases h : (shapeOf i).dst <;> simp [Frame.itagsAfter, Frame.capture, h]
    · rw [State.goTo_mem, State.setTop_mem]
    · rw [← Frame.enqueue_straight hstraight, State.goTo_core_ne hagent htop _ hc, State.setTop_core_ne _ _ _ _ hc]
  case body => rw [Frame.enqueue_body hl e hneed]; exact ⟨rfl, rfl⟩
  case discards => rw [Frame.enqueue_discards hl e hneed hcount]; exact ⟨rfl, rfl, rfl⟩
  case queues => rw [Frame.enqueue_loop hl e hneed hcount]; exact ⟨rfl, rfl⟩

end Sys2Proof.Machine
end

section
/-! PROOFS. One step of the sequencer on its head entry, and the element-wise forms (R171, R347, R348, R354 to R358). -/

namespace Sys2Proof.Machine

/-! ### A core whose running frame becomes another -/

/-- The running frame of core lc is f, and memory and the other cores are as they were. -/
structure State.Becomes (lc : Nat) (f : Frame) (s t : State) : Prop where
  top : t.top lc = some f
  mem : t.mem = s.mem
  others : ∀ c, c ≠ lc → t.core c = s.core c

section
variable {s t : State} {lc : Nat} {f : Frame}

theorem State.Becomes.refl (hf : s.top lc = some f) : s.Becomes lc f s := ⟨hf, rfl, fun _ _ => rfl⟩

variable (h : s.Becomes lc f t)
include h

theorem State.Becomes.setTop (g : Frame) : s.Becomes lc g (t.setTop lc g) :=
  ⟨t.setTop_top lc g f h.top, (t.setTop_mem lc g).trans h.mem, fun c hc => (t.setTop_core_ne lc c g hc).trans (h.others c hc)⟩

theorem State.Becomes.turn (a : Agent) : s.Becomes lc f { t with agent := a } := ⟨h.top, h.mem, h.others⟩

/-- A frame without a gang takes its register, which is good again, and its tag (R242, R350). -/
theorem State.Becomes.vput (d : VReg) (x : Nat) (tg : BitVec 4) : s.Becomes lc
    { f with
      v := f.v.set d.val (BitVec.ofNat 512 x), badRegs := f.badRegs.filter (· != 32 + d.val), tags := f.tags.set d.val tg }
    (t.vput [lc] lc d x tg) := by
  have hput := h.setTop { f with v := f.v.set d.val (BitVec.ofNat 512 x), badRegs := f.badRegs.filter (· != 32 + d.val) }
  simp only [State.vput, h.top, List.foldl_cons, List.foldl_nil, hput.top]
  exact hput.setTop _

theorem State.Becomes.vflags (fl : BitVec 5) :
    s.Becomes lc { f with h := { f.h with fpstat := f.h.fpstat ||| fl } } (t.vflags lc fl) := by
  simp only [State.vflags, h.top]
  exact h.setTop _

end

/-! ### A step on the head entry (R171, R234) -/

/-- The frame as a chunk sees it: the accesses sent are those of the chunk. -/
def Frame.forChunk (f : Frame) : Frame := { f with h := { f.h with sent := f.vsent } }

/-- The state in which a chunk of core lc runs. -/
def State.forChunk (s : State) (lc : Nat) (f : Frame) : State := ({ s with agent := .core lc } : State).setTop lc f.forChunk

/-- The frame whose hart has the accesses sent for the instruction at pc again, those of the chunk kept apart. -/
def Frame.chunkWaits (f1 f : Frame) : Frame := { f1 with vsent := f1.h.sent, h := { f1.h with sent := f.h.sent } }

/-- What the state becomes by what a chunk of an entry comes to. -/
def State.chunkComes (s : State) (lc : Nat) (f : Frame) (e : SeqEntry) : Chunked → State
  | .trap c w => s.setTop lc { f with pending := some (c, w, some e.pc) }
  | .wait s1 =>
    match s1.top lc with
    | none => s
    | some f1 => { s1.setTop lc (f1.chunkWaits f) with agent := s.agent }
  | .done s1 last =>
    match s1.top lc with
    | none => s
    | some f1 => { s1.setTop lc (({ f1 with h := { f1.h with sent := f.h.sent } }).afterChunk e.i last) with agent := s.agent }

section
variable {s : State} {lc : Nat} {f : Frame} {e : SeqEntry} {rest : List SeqItem} (h : s.ChunkReady lc f e rest)
include h

theorem State.ChunkReady.alone : f.gang = none := by
  obtain ⟨-, -, -, hgang, -⟩ := h
  exact hgang

/-- The items after the entry. -/
theorem State.ChunkReady.nextItems_seq (G : Nat) : nextItems G f.seq = rest := by
  obtain ⟨-, -, -, -, -, -, -, -, hseq⟩ := h
  rw [hseq, nextItems]

theorem State.ChunkReady.forChunk_becomes : s.Becomes lc f.forChunk (s.forChunk lc f) := by
  obtain ⟨-, hf, -⟩ := h
  exact ((State.Becomes.refl hf).turn (.core lc)).setTop f.forChunk

theorem State.ChunkReady.exec_eq : exec (.sequencerChunk lc) s =
    .next (s.chunkComes lc f e ((s.forChunk lc f).runChunk lc f.forChunk e 0 0)) := by
  obtain ⟨hgoes, hf, hleader, hgang, hpending, hgood, hchunk, hhold, hseq⟩ := h
  have hfree : (f.leader.isSome || (!begun f.vsent && (!s.gangReady lc f || f.pending.isSome))) = false := by
    simp only [hleader, State.gangReady_alone hgang, hpending, Option.isSome_none, Bool.not_true, Bool.or_self, Bool.and_false]
  have hentry : currentEntry f.seq = some (e, 0) := by rw [hseq]; rfl
  change execSequencerChunk lc s = _
  rw [execSequencerChunk, if_pos hgoes, State.seqStep]
  simp only [hf, hfree, hentry, hgood, Bool.false_eq_true, if_false]
  exact congrArg (fun k => (.next (s.chunkComes lc f e ((s.forChunk lc f).runChunk lc f.forChunk e 0 k)) : Out)) hchunk

/-- A trap waits for the next boundary with the pc of the entry (R234). -/
theorem State.ChunkReady.trap {c : Nat} {w : Word} (hrun : (s.forChunk lc f).runChunk lc f.forChunk e 0 0 = .trap c w) :
    exec (.sequencerChunk lc) s = .next (s.setTop lc { f with pending := some (c, w, some e.pc) }) := by
  rw [h.exec_eq, hrun]
  rfl

section
variable {u s1 : State} {f1 : Frame} (hf1 : u.Becomes lc f1 s1)
include hf1

theorem State.ChunkReady.wait (hrun : (s.forChunk lc f).runChunk lc f.forChunk e 0 0 = .wait s1) :
    ∃ t, exec (.sequencerChunk lc) s = .next t ∧ u.Becomes lc (f1.chunkWaits f) t := by
  refine ⟨_, h.exec_eq, ?_⟩
  simp only [hrun, State.chunkComes, hf1.top]
  exact (hf1.setTop _).turn _

theorem State.ChunkReady.done (hrun : (s.forChunk lc f).runChunk lc f.forChunk e 0 0 = .done s1 true) :
    ∃ t, exec (.sequencerChunk lc) s = .next t ∧
      u.Becomes lc (({ f1 with h := { f1.h with sent := f.h.sent } } : Frame).afterChunk e.i true) t := by
  refine ⟨_, h.exec_eq, ?_⟩
  simp only [hrun, State.chunkComes, hf1.top]
  exact (hf1.setTop _).turn _

end

end

/-! ### The registers of a frame without a gang (R183, R375) -/

theorem Frame.members_alone {f : Frame} (h : f.gang = none) (lc : Nat) : f.members lc = [lc] := by
  simp only [Frame.members, h, Option.map_none, Option.getD_none]

theorem State.vreg_top {s : State} {lc : Nat} {f : Frame} (hf : s.top lc = some f) (r : VReg) :
    s.vreg lc r = (f.v.get r).toNat := by
  simp only [State.vreg, hf, Option.map_some, Option.getD_some]

/-! ### Elements of what is made element by element (R348) -/

theorem getEl_lt (x w j : Nat) : getEl x w j < 2 ^ w := Nat.mod_lt _ (Nat.two_pow_pos w)

/-- The last of n + 1 elements. -/
theorem getEl_add_top {x w n v : Nat} (hx : x < 2 ^ (w * n)) (hv : v < 2 ^ w) : getEl (x + v * 2 ^ (w * n)) w n = v := by
  rw [getEl, Nat.add_mul_div_right _ _ (Nat.two_pow_pos _), Nat.div_eq_of_lt hx, Nat.zero_add, Nat.mod_eq_of_lt hv]

/-- An element below the last. -/
theorem getEl_add_below {x w n v j : Nat} (hj : j < n) : getEl (x + v * 2 ^ (w * n)) w j = getEl x w j := by
  obtain ⟨k, rfl⟩ := Nat.exists_eq_add_of_lt hj
  have hsplit : v * 2 ^ (w * (j + k + 1)) = v * 2 ^ (w * k) * 2 ^ w * 2 ^ (w * j) := by ring
  rw [getEl, getEl, hsplit, Nat.add_mul_div_right _ _ (Nat.two_pow_pos _), Nat.add_mul_mod_self_right]

section
variable (op : ElemOp) (w pos : Nat) (act : Nat → Bool) (a b d : Nat)

/-- Element j of what an operation makes of registers. -/
def mapEl (j : Nat) : Nat :=
  if act (pos + j) then (op (getEl a w j) (getEl b w j) (getEl d w j) (pos + j)).1 % 2 ^ w else getEl d w j

theorem mapEl_lt (j : Nat) : mapEl op w pos act a b d j < 2 ^ w := by
  unfold mapEl
  split
  · exact Nat.mod_lt _ (Nat.two_pow_pos w)
  · exact getEl_lt d w j

theorem mapEls_succ (n : Nat) : (mapEls op w pos act a b d (n + 1)).1 =
    (mapEls op w pos act a b d n).1 + mapEl op w pos act a b d n * 2 ^ (w * n) := by
  simp only [mapEls, mapEl]
  split <;> rfl

theorem mapEls_lt (n : Nat) : (mapEls op w pos act a b d n).1 < 2 ^ (w * n) := by
  induction n with
  | zero => exact Nat.two_pow_pos _
  | succ n ih =>
    calc (mapEls op w pos act a b d (n + 1)).1
        = (mapEls op w pos act a b d n).1 + mapEl op w pos act a b d n * 2 ^ (w * n) := mapEls_succ ..
      _ < (mapEl op w pos act a b d n + 1) * 2 ^ (w * n) := by rw [Nat.add_one_mul]; omega
      _ ≤ 2 ^ w * 2 ^ (w * n) := Nat.mul_le_mul_right _ (mapEl_lt ..)
      _ = 2 ^ (w * (n + 1)) := by rw [← Nat.pow_add, Nat.mul_succ, Nat.add_comm]

theorem getEl_mapEls {j n : Nat} (hj : j < n) : getEl (mapEls op w pos act a b d n).1 w j = mapEl op w pos act a b d j := by
  induction n with
  | zero => exact absurd hj (Nat.not_lt_zero j)
  | succ n ih =>
    rw [mapEls_succ]
    rcases Nat.lt_succ_iff_lt_or_eq.mp hj with hlt | rfl
    · rw [getEl_add_below hlt, ih hlt]
    · exact getEl_add_top (mapEls_lt ..) (mapEl_lt ..)

end

/-! ### The element-wise forms (R354 to R358) -/

theorem State.runChunk_elem {s : State} {lc : Nat} {f : Frame} {e : SeqEntry} {io : Option IntOp} {fo : Option FloatOp} {t : VTy}
    {d a : VReg} {b : Option VReg} {m : Reg} (hgang : f.gang = none) (hf : s.top lc = some f)
    (hshape : shapeOf e.i = .elem io fo t d a b m) {l : Layout} (hl : layoutOf e.fd e.fmt = l) {r : Nat × BitVec 5}
    (hr : mapEls (elemOpOf e t io fo) l.w 0 (unitActive e.mask l.elems) (f.v.get a).toNat (f.v.get (b.getD 0)).toNat
      (f.v.get d).toNat l.elems = r) :
    s.runChunk lc f e 0 0 = .done ((s.vput [lc] lc d r.1 e.res).vflags lc r.2) true := by
  subst hr
  simp only [State.runChunk, hshape, hl, Frame.members_alone hgang, List.length_singleton, List.getD_cons_zero, Nat.zero_mul,
    Nat.one_mul, State.vreg_top hf, Nat.zero_add, ge_iff_le, Nat.le_refl, decide_true]

/-- Settles O23: the chunk is the entry's last and writes what `mapEls` makes, whose elements are those of the statement. -/
theorem vectorElementwise : Obligations.VectorElementwise := by
  intro s lc f e rest io fo t d a b m hready hshape l r
  refine ⟨?_, fun j hj => ?_⟩
  · have hstart := hready.forChunk_becomes
    obtain ⟨u, hexec, htop, hmem, hothers⟩ := hready.done ((hstart.vput d r.1 e.res).vflags r.2)
      (State.runChunk_elem (f := f.forChunk) hready.alone hstart.top hshape rfl rfl)
    refine ⟨u, _, hexec, htop, ?_, hmem, hothers⟩
    simp only [Frame.afterChunk, Frame.forChunk, hready.nextItems_seq, if_true]
  · have hel := getEl_mapEls (elemOpOf e t io fo) l.w 0 (unitActive e.mask l.elems) (f.v.get a).toNat (f.v.get (b.getD 0)).toNat
      (f.v.get d).toNat hj
    rwa [mapEl, Nat.zero_add] at hel

end Sys2Proof.Machine
end

section
/-! PROOFS. Vector loads and stores (R171, R209, R234, R354, R360 to R362). -/

namespace Sys2Proof.Machine

/-! ### What accesses leave of the running frame -/

/-- The running frame of core lc differs from what it was in its hart and in its stores that are not acknowledged, if at all. -/
def State.Accessed (lc : Nat) (s t : State) : Prop :=
  ∀ f, s.top lc = some f → ∃ h n, t.top lc = some { f with h := h, unacked := n }

section
variable {lc : Nat}

theorem State.Accessed.of_top {s t : State} (h : t.top lc = s.top lc) : s.Accessed lc t := fun _ hf => ⟨_, _, h.trans hf⟩

theorem State.Accessed.trans {s t u : State} (h : s.Accessed lc t) (k : t.Accessed lc u) : s.Accessed lc u := by
  intro f hf
  obtain ⟨h1, n1, hg⟩ := h f hf
  exact k { f with h := h1, unacked := n1 } hg

theorem State.Translated.accessed {s t : State} (h : s.Translated t) : s.Accessed lc t := by
  obtain ⟨_, _, _, rfl⟩ := h
  exact .of_top rfl

variable (s : State)

theorem State.setHart_accessed (h : Hart) : s.Accessed lc (s.setHart h) := by
  intro f hf
  unfold State.setHart
  split
  · next k _ =>
    split
    · exact ⟨_, _, hf⟩
    · next g hg =>
      by_cases hk : lc = k
      · subst hk
        cases hf.symm.trans hg
        exact ⟨h, f.unacked, s.setTop_top lc _ f hf⟩
      · exact ⟨_, _, (congrArg (fun c => c.frames.head?) (s.setTop_core_ne k lc _ hk)).trans hf⟩
  · exact ⟨_, _, hf⟩

theorem State.noteSent_accessed (x : Sent) : s.Accessed lc (s.noteSent x) := s.setHart_accessed _

theorem State.sendStore_accessed (a : Word) (op : RemoteOp) : s.Accessed lc (s.sendStore lc a op) := by
  intro f hf
  have hsent := (s.addRemote_top_frame ⟨lc, s.agentLevel, a, op⟩ lc).trans hf
  simp only [State.sendStore, hsent]
  exact ⟨_, _, State.setTop_top _ _ _ _ hsent⟩

/-! ### What accesses leave the running frame as it is -/

theorem State.leaseLoad_top (line : Nat) : (s.leaseLoad lc line).top lc = s.top lc := by
  unfold State.leaseLoad
  dsimp only
  split <;> simp only [State.top, State.core_setCore]

theorem State.leaseStore_top (line : Nat) : (s.leaseStore lc line).top lc = s.top lc := by
  simp only [State.leaseStore, State.top, State.core_setCore]

theorem State.leaseLoads_top (l : List Nat) : (s.leaseLoads lc l).top lc = s.top lc :=
  List.foldlRecOn (motive := fun t : State => t.top lc = s.top lc) (linesOf l) _ rfl fun t h a _ => (t.leaseLoad_top a).trans h

theorem State.leaseStores_top (l : List Nat) : (s.leaseStores lc l).top lc = s.top lc :=
  List.foldlRecOn (motive := fun t : State => t.top lc = s.top lc) (linesOf l) _ rfl fun t h a _ => (t.leaseStore_top a).trans h

theorem State.top_of_cores {s t : State} (h : t.cores = s.cores) : t.top lc = s.top lc := by
  simp only [State.top, State.core, h]

theorem State.wakeTile_cores (tile : Nat) : (s.wakeTile tile).cores = s.cores := by
  unfold State.wakeTile
  dsimp only
  repeat' split
  all_goals rfl

theorem State.callTile_cores (k : Nat) : (s.callTile k).cores = s.cores := by
  unfold State.callTile
  split
  · exact s.wakeTile_cores _
  · rfl

theorem State.callQuarters_cores (l : List VByte) : (s.callQuarters l).cores = s.cores :=
  List.foldlRecOn (motive := fun t : State => t.cores = s.cores) (quarterBytes l) _ rfl fun t h _ _ =>
    (t.callTile_cores _).trans h

theorem State.callQuarters_accessed (l : List VByte) : s.Accessed lc (s.callQuarters l) :=
  .of_top (State.top_of_cores (s.callQuarters_cores l))

end

/-! ### The accesses of a chunk are planned by translating addresses alone (R354) -/

section
variable {s : State} {lc : Nat} {near indexed : Bool} {u need : Nat}

theorem State.locate_translated {t : State} {a : Word} {l : List ByteAt} (h : s.locate near lc a u need = .ok l t) :
    s.Translated t := by
  unfold State.locate at h
  split at h
  · split at h
    · cases h
    · cases h; exact .refl s
  · split at h
    · cases h
    · split at h
      · cases h
      · split at h
        · cases h; exact .refl s
        · split at h
          · cases h
          · cases h; exact .refl s
    · split at h
      · cases h
      · cases h
      · next hx => cases h; exact State.xlateSpan_translated hx

theorem State.places_translated {l : List (Nat × Word × Nat)} {s t : State} {r : List VByte}
    (h : s.places near lc u need l = .ok r t) : s.Translated t := by
  induction l generalizing s r with
  | nil => cases h; exact .refl _
  | cons x l ih =>
    obtain ⟨j, a, v⟩ := x
    rw [State.places] at h
    split at h
    · cases h
    · cases h
    · next s1 hlocated =>
      split at h
      · next hrest => cases h; exact (State.locate_translated hlocated).trans (ih hrest)
      · next hno => exact absurd h (hno _ _)

theorem State.planStore_translated {t : State} {units : List (Nat × Word × Nat)} {gs : List (List VByte)}
    (h : s.planStore near indexed lc u units = .ok gs t) : s.Translated t := by
  unfold State.planStore at h
  split at h
  · cases h
  · cases h
  · next hplaced =>
    split at h <;> cases h
    exact State.places_translated hplaced

theorem State.planLoad_translated {t : State} {units : List (Option Word)} {gs : List (List VByte)}
    (h : s.planLoad near indexed lc u units = .ok gs t) : s.Translated t := by
  unfold State.planLoad at h
  split at h
  · cases h
  · cases h
  · next hplaced =>
    split at h
    · cases h
    · dsimp only at h
      split at h <;> cases h
      exact State.places_translated hplaced

end

/-! ### The next access of a chunk (R354) -/

section
variable {lc : Nat}

/-- What the accesses of a load chunk leave: with the last, the line times; with another, the frame but for what is noted. -/
def VLoad.Leaves (lc : Nat) (s : State) : VLoad → Prop
  | .ok _ t => ∃ l, t = s.leaseLoads lc l
  | .trap .. => True
  | .wait t => s.Accessed lc t

/-- What is kept of an access that is made in the module leaves the frame, or the line times with the last. -/
theorem VLoad.kept_leaves {s : State} (last : Prop) [Decidable last] (bs : List Byte) (x : Sent) (l : List Nat) :
    (if last then VLoad.ok bs (s.leaseLoads lc l) else .wait ((s.leaseLoads lc l).noteSent x)).Leaves lc s := by
  split
  · exact ⟨l, rfl⟩
  · exact (State.Accessed.of_top (s.leaseLoads_top l)).trans (State.noteSent_accessed _ x)

theorem State.loadNext_leaves (s : State) (gs : List (List VByte)) : (s.loadNext lc gs).Leaves lc s := by
  unfold State.loadNext
  dsimp only
  split
  · exact .of_top rfl
  · trivial
  · split
    · exact ⟨[], rfl⟩
    · split
      · trivial
      · split
        · exact s.callQuarters_accessed _
        · split
          · exact s.setHart_accessed _
          · split
            · exact VLoad.kept_leaves ..
            · exact VLoad.kept_leaves _ _ _ []
            · split
              · exact (s.noteSent_accessed _).trans (.of_top (State.addRemote_top_frame ..))
              · trivial
            · exact (s.noteSent_accessed _).trans (.of_top (State.addHostReq_top_frame ..))
            · exact ⟨[], rfl⟩

theorem State.storeAccess_accessed (s : State) (g : List VByte) : s.Accessed lc (s.storeAccess lc g) := by
  unfold State.storeAccess
  dsimp only
  split
  · exact .of_top ((State.writeMem_top_frame ..).trans (s.leaseStores_top _))
  · exact .of_top rfl
  · exact .of_top rfl
  · exact s.sendStore_accessed _ _
  · exact .of_top rfl

/-- What the accesses of a store chunk leave: the frame but for what is noted and its stores on their way. -/
def Acc.Leaves (lc : Nat) (s : State) : Acc → Prop
  | .ok _ t | .wait t => s.Accessed lc t
  | .trap .. => True

theorem State.storeNext_leaves (s : State) (gs : List (List VByte)) : (s.storeNext lc gs).Leaves lc s := by
  unfold State.storeNext
  split
  · exact .of_top rfl
  · next g rest _ =>
    have hstored := s.storeAccess_accessed (lc := lc) g
    split
    · exact s.callQuarters_accessed _
    · dsimp only
      split
      · exact hstored.trans (.of_top rfl)
      · exact hstored.trans (State.noteSent_accessed _ _)

end

/-! ### A chunk of a memory form without a gang (R354, R360) -/

/-- The address of unit j of an entry's only chunk, its indices in register x. -/
def SeqEntry.chunkAddr (e : SeqEntry) (f : Frame) (mode : Nat) (x : VReg) (j : Nat) : Option Word :=
  e.unitAddr mode 1 e.base (f.v.get x).toNat j

/-- The plan of an entry's only chunk: the one it has begun, or a new one. -/
def State.chunkPlan (s : State) (lc : Nat) (f : Frame) (e : SeqEntry) (store near : Bool) (mode : Nat) (d x : VReg) : Planned :=
  let l := layoutOf e.fd e.fmt
  f.planned s (if store
    then s.planStore near (mode == 2) lc (l.ubits / 8) ((span 0 l.units).filterMap fun j => (e.chunkAddr f mode x j).map fun a =>
      (j, a, l.cleanUnit (getEl (f.v.get d).toNat l.ubits j)))
    else s.planLoad near (mode == 2) lc (l.ubits / 8) ((span 0 l.units).map (e.chunkAddr f mode x)))

/-- What a load chunk writes: the units read, the inactive ones kept (R354, R362). -/
def SeqEntry.loaded (e : SeqEntry) (f : Frame) (mode : Nat) (d x : VReg) (bs : List Byte) : Nat :=
  let l := layoutOf e.fd e.fmt
  let vs := unitsFrom (l.ubits / 8) ((span 0 l.units).map (e.chunkAddr f mode x)) bs
  buildEls l.ubits (fun j => match vs.getD j none with
    | some v => l.cleanUnit v
    | none => getEl (f.v.get d).toNat l.ubits j) l.units

/-- What a chunk comes to by its plan: its next access, and its effect with the last. -/
def SeqEntry.access (e : SeqEntry) (lc : Nat) (f : Frame) (store : Bool) (mode : Nat) (d x : VReg) : Planned → Chunked
  | .trap c w => .trap c w
  | .wait s1 => .wait s1
  | .ok gs s1 =>
    if store then
      match s1.storeNext lc gs with
      | .ok _ s2 => .done s2 true
      | .trap c w => .trap c w
      | .wait s2 => .wait (s2.keepPlan lc gs)
    else
      match s1.loadNext lc gs with
      | .trap c w => .trap c w
      | .wait s2 => .wait (s2.keepPlan lc gs)
      | .ok bs s2 => .done (s2.vput [lc] lc d (e.loaded f mode d x bs) e.res) true

section
variable {s1 s2 : State} {lc : Nat} {gs : List (List VByte)} (e : SeqEntry) (f : Frame) (mode : Nat) (d x : VReg)

theorem SeqEntry.access_loaded {bs : List Byte} (h : s1.loadNext lc gs = .ok bs s2) : e.access lc f false mode d x (.ok gs s1) =
    .done (s2.vput [lc] lc d (e.loaded f mode d x bs) e.res) true := by
  simp only [SeqEntry.access, h, Bool.false_eq_true, if_false]

theorem SeqEntry.access_load_waits (h : s1.loadNext lc gs = .wait s2) : e.access lc f false mode d x (.ok gs s1) =
    .wait (s2.keepPlan lc gs) := by
  simp only [SeqEntry.access, h, Bool.false_eq_true, if_false]

theorem SeqEntry.access_stored {y : Nat} (h : s1.storeNext lc gs = .ok y s2) : e.access lc f true mode d x (.ok gs s1) =
    .done s2 true := by
  simp only [SeqEntry.access, h, if_true]

theorem SeqEntry.access_store_waits (h : s1.storeNext lc gs = .wait s2) : e.access lc f true mode d x (.ok gs s1) =
    .wait (s2.keepPlan lc gs) := by
  simp only [SeqEntry.access, h, if_true]

end

theorem SeqEntry.baseAt_first (e : SeqEntry) (mode G : Nat) : e.baseAt mode 0 G = e.base := by
  simp only [SeqEntry.baseAt, Nat.zero_mul, BitVec.zero_mul, BitVec.add_zero, ite_self]

section
variable {s : State} {lc : Nat} {f : Frame} {e : SeqEntry} {store near : Bool} {mode : Nat} {tg : BitVec 4} {d x : VReg} {m : Reg}
  (hgang : f.gang = none) (hf : s.top lc = some f) (hshape : shapeOf e.i = .mem store near mode tg d x m)
include hgang hf hshape

theorem State.runChunk_mem :
    s.runChunk lc f e 0 0 = e.access lc f store mode d x (s.chunkPlan lc f e store near mode d x) := by
  have hcat : s.vcat x [lc] = (f.v.get x).toNat := by rw [State.vcat, State.vcat, Nat.mul_zero, Nat.add_zero, State.vreg_top hf]
  simp only [State.runChunk, hshape, State.memChunk, Frame.members_alone hgang, List.length_singleton, List.getD_cons_zero,
    Nat.zero_mul, Nat.zero_add, SeqEntry.baseAt_first, hcat, State.vreg_top hf, ge_iff_le, Nat.le_refl, decide_true]
  cases store
  · rfl
  · rfl

end

theorem State.chunkPlan_translated {s t : State} {lc : Nat} {f : Frame} {e : SeqEntry} {store near : Bool} {mode : Nat}
    {d x : VReg} {gs : List (List VByte)} (h : s.chunkPlan lc f e store near mode d x = .ok gs t) : s.Translated t := by
  unfold State.chunkPlan Frame.planned at h
  dsimp only at h
  split at h
  · split at h
    · exact State.planStore_translated h
    · exact State.planLoad_translated h
  · cases h; exact .refl s

/-- The plan is kept while an access of the chunk is noted (R354). -/
theorem State.Becomes.keepPlan {s t : State} {lc : Nat} {f : Frame} (h : s.Becomes lc f t) (gs : List (List VByte)) :
    s.Becomes lc { f with vplan := if f.h.sent = [] then [] else gs } (t.keepPlan lc gs) := by
  simp only [State.keepPlan, h.top]
  exact h.setTop _

/-! ### The steps of a memory form -/

section
variable {s s1 : State} {lc : Nat} {f : Frame} {e : SeqEntry} {rest : List SeqItem} {store near : Bool} {mode : Nat}
  {tg : BitVec 4} {d x : VReg} {m : Reg} {gs : List (List VByte)} (hready : s.ChunkReady lc f e rest)
  (hshape : shapeOf e.i = .mem store near mode tg d x m)
include hready

/-- The accesses of a chunk leave the frame that began it but for its hart and its stores on their way. -/
theorem State.ChunkReady.accessed {s2 : State}
    (hplan : (s.forChunk lc f).chunkPlan lc f.forChunk e store near mode d x = .ok gs s1) (h : s1.Accessed lc s2) :
    ∃ hart n, s2.top lc = some { f.forChunk with h := hart, unacked := n } :=
  (State.chunkPlan_translated hplan).accessed.trans h _ hready.forChunk_becomes.top

include hshape

theorem State.ChunkReady.runChunk_mem : (s.forChunk lc f).runChunk lc f.forChunk e 0 0 =
    e.access lc f.forChunk store mode d x ((s.forChunk lc f).chunkPlan lc f.forChunk e store near mode d x) :=
  State.runChunk_mem (f := f.forChunk) hready.alone hready.forChunk_becomes.top hshape

theorem exec_chunk_traps {c : Nat} {w : Word}
    (hplan : (s.forChunk lc f).chunkPlan lc f.forChunk e store near mode d x = .trap c w) :
    exec (.sequencerChunk lc) s = .next (s.setTop lc { f with pending := some (c, w, some e.pc) }) :=
  hready.trap (by rw [hready.runChunk_mem hshape, hplan, SeqEntry.access])

variable (hplan : (s.forChunk lc f).chunkPlan lc f.forChunk e store near mode d x = .ok gs s1)
include hplan

/-- A chunk that waits keeps its plan while an access of it is noted. -/
theorem exec_chunk_waits {s2 : State} (h : s1.Accessed lc s2)
    (hwait : e.access lc f.forChunk store mode d x (.ok gs s1) = .wait (s2.keepPlan lc gs)) :
    ∃ t g, exec (.sequencerChunk lc) s = .next t ∧ t.top lc = some g ∧ g.seq = f.seq ∧ g.v = f.v ∧
      g.vplan = (if g.vsent = [] then [] else gs) ∧ t.mem = s2.mem := by
  obtain ⟨hart, n, htop⟩ := hready.accessed hplan h
  obtain ⟨t, hexec, ht⟩ := hready.wait ((State.Becomes.refl htop).keepPlan gs)
    (by rw [hready.runChunk_mem hshape, hplan, hwait])
  exact ⟨t, _, hexec, ht.top, rfl, rfl, rfl, ht.mem⟩

theorem exec_chunk_stored {s2 : State} (h : s1.Accessed lc s2)
    (hdone : e.access lc f.forChunk store mode d x (.ok gs s1) = .done s2 true) :
    ∃ t g, exec (.sequencerChunk lc) s = .next t ∧ t.top lc = some g ∧ g.seq = rest ∧ g.v = f.v ∧ t.mem = s2.mem := by
  obtain ⟨hart, n, htop⟩ := hready.accessed hplan h
  obtain ⟨t, hexec, ht⟩ := hready.done (.refl htop) (by rw [hready.runChunk_mem hshape, hplan, hdone])
  exact ⟨t, _, hexec, ht.top, hready.nextItems_seq _, rfl, ht.mem⟩

theorem exec_chunk_loaded {l : List Nat} {bs : List Byte} (hdone : e.access lc f.forChunk store mode d x (.ok gs s1) =
      .done ((s1.leaseLoads lc l).vput [lc] lc d (e.loaded f.forChunk mode d x bs) e.res) true) :
    ∃ t g, exec (.sequencerChunk lc) s = .next t ∧ t.top lc = some g ∧ g.seq = rest ∧
      g.v = f.v.set d.val (BitVec.ofNat 512 (e.loaded f mode d x bs)) ∧ g.tags = f.tags.set d.val e.res ∧
      t.mem.bytes = s.mem.bytes ∧ t.mem.cellar = s.mem.cellar := by
  obtain ⟨hart, n, htop⟩ := hready.accessed hplan (.of_top (s1.leaseLoads_top l))
  obtain ⟨t, hexec, ht⟩ := hready.done ((State.Becomes.refl htop).vput d (e.loaded f.forChunk mode d x bs) e.res)
    (by rw [hready.runChunk_mem hshape, hplan, hdone])
  have hplanned := State.chunkPlan_translated hplan
  have hdata : t.data = s.data := calc
    t.data = (s1.leaseLoads lc l).data := State.data_of_mem ht.mem
    _ = s1.data := s1.leaseLoads_data lc l
    _ = (s.forChunk lc f).data := by rw [State.data, State.data, hplanned.bytes, hplanned.cellar]
    _ = s.data := State.data_of_mem hready.forChunk_becomes.mem
  exact ⟨t, _, hexec, ht.top, hready.nextItems_seq _, rfl, rfl, congrArg Prod.fst hdata, congrArg Prod.snd hdata⟩

end

/-- Settles O25: a chunk is planned and makes its next access, whose outcomes are those of the statement. -/
theorem vectorMemory : Obligations.VectorMemory := by
  intro s lc f e rest store near mode tg d x m hready hshape s0 l u addr plan
  refine ⟨fun gs s1 hplan => ⟨fun hload => ?_, fun hstore => ?_⟩, fun c w hplan => exec_chunk_traps hready hshape hplan⟩
  · subst hload
    have hleaves := s1.loadNext_leaves (lc := lc) gs
    refine ⟨fun bs s2 hnext => ?_, fun s2 hnext => ?_⟩
    · rw [hnext] at hleaves
      obtain ⟨lines, rfl⟩ := hleaves
      exact exec_chunk_loaded hready hshape hplan (SeqEntry.access_loaded _ _ _ _ _ hnext)
    · rw [hnext] at hleaves
      exact exec_chunk_waits hready hshape hplan hleaves (SeqEntry.access_load_waits _ _ _ _ _ hnext)
  · subst hstore
    have hleaves := s1.storeNext_leaves (lc := lc) gs
    refine ⟨fun y s2 hnext => ?_, fun s2 hnext => ?_⟩
    · rw [hnext] at hleaves
      exact exec_chunk_stored hready hshape hplan hleaves (SeqEntry.access_stored _ _ _ _ _ hnext)
    · rw [hnext] at hleaves
      exact exec_chunk_waits hready hshape hplan hleaves (SeqEntry.access_store_waits _ _ _ _ _ hnext)

end Sys2Proof.Machine
end

section
/-! PROOFS. What a translation by a leaf comes to (R199, R200, R204). -/

namespace Sys2Proof.Machine

theorem State.Translated.cores {s t : State} (h : s.Translated t) : t.cores = s.cores := by obtain ⟨_, _, _, rfl⟩ := h; rfl

/-! ### A write that waits on a migrating page (R204, log entry 27) -/

theorem State.migWait_counted {s : State} {x : Miss} (h : x ∈ s.mem.migWaits) (part : Nat) : s.migWait x part = s := by
  simp only [State.migWait, List.contains_iff_mem, h, if_true]

theorem State.migWait_counter {s : State} {x : Miss} (h : x ∉ s.mem.migWaits) (part : Nat) :
    (s.migWait x part).counter cMIGWAIT part = satAdd (s.counter cMIGWAIT part) 1 := by
  simp only [State.migWait, List.contains_iff_mem, h, if_false]
  exact State.counter_countBy ..

/-! ### A held or walked leaf -/

section
variable {s s1 : State} {die part ctx va need l : Nat} {h : List Nat} {e : Word}
variable (hleaf : s.lookup die h ctx va = (.leaf e l, s1))
include hleaf

theorem State.xlate_unpopulated (hp : s.populated (bits e 8 2) (leafPa e l va) = false) :
    s.xlate die h part ctx va need = .trap ADDRESS := by
  simp only [State.xlate, hleaf, hp, Bool.not_false, if_true]

variable (hp : s.populated (bits e 8 2) (leafPa e l va) = true)
include hp

theorem State.xlate_forbidden (hneed : e.toNat &&& need ≠ need) : s.xlate die h part ctx va need = .trap PROT := by
  simp only [State.xlate, hleaf, hp, Bool.not_true, Bool.false_eq_true, if_false, if_pos hneed]

variable (hneed : e.toNat &&& need = need)
include hneed

theorem State.xlate_migrating (hmig : bit e 7 = true) (hw : need / 16 % 2 = 1) :
    s.xlate die h part ctx va need = .wait (s1.migWait (missOf die h ctx va) part) := by
  have hwrite : (bit e 7 && need / needW % 2 == 1) = true := by rw [hmig, needW, hw]; rfl
  simp only [State.xlate, hleaf, hp, hneed, hwrite, Bool.not_true, Bool.false_eq_true, if_false, if_true, ne_eq, not_true_eq_false]

theorem State.xlate_mapped (hmig : bit e 7 = false ∨ need / 16 % 2 = 0) :
    ∃ p t, s.xlate die h part ctx va need = .pa p t ∧ (p = leafPa e l va ∨ s.region (leafPa e l va) = .hbm p) ∧
      s1.Translated t := by
  have hgoes : (bit e 7 && need / needW % 2 == 1) = false := by
    rcases hmig with hm | hw
    · rw [hm, Bool.false_and]
    · rw [needW, hw]
      exact Bool.and_false _
  have hgone : s1.Translated (if need / needW % 2 == 1 then s1.migGone (missOf die h ctx va) else s1) := by
    split
    · exact s1.migGone_translated _
    · exact .refl s1
  simp only [State.xlate, hleaf, hp, hneed, hgoes, Bool.not_true, Bool.false_eq_true, if_false, ne_eq, not_true_eq_false]
  split
  · next a ha => exact ⟨a, _, rfl, .inr ha, hgone⟩
  · exact ⟨_, _, rfl, .inl rfl, hgone⟩

end

/-- Settles O17: each clause is the law of its outcome; an access that goes on changes the translation units alone. -/
theorem translationOfLeaf : Obligations.TranslationOfLeaf := by
  intro s s1 die part ctx va need l h e hleaf
  refine ⟨State.xlate_unpopulated hleaf, State.xlate_forbidden hleaf, fun hp hneed => ⟨fun hmig hw => ?_, fun hmig => ?_⟩⟩
  · exact ⟨State.xlate_migrating hleaf hp hneed hmig hw, (State.migWait_counter · part), (State.migWait_counted · part)⟩
  · obtain ⟨p, t, hx, hpa, ht⟩ := State.xlate_mapped (part := part) hleaf hp hneed hmig
    exact ⟨p, t, hx, hpa, ht.bytes, ht.cores⟩

end Sys2Proof.Machine
end

section
/-! PROOFS. The lease clock and walks (R195, R199 to R201). -/

namespace Sys2Proof.Machine

/-! ### The meanings of the steps -/

theorem exec_leaseTick (lc : Nat) (s : State) : exec (.leaseTick lc) s = execLeaseTick lc s := rfl
theorem exec_pageWalk (die ctx : Nat) (va : Word) (s : State) : exec (.pageWalk die ctx va) s = execPageWalk die ctx va s := rfl
theorem exec_walkComplete (die k : Nat) (s : State) : exec (.walkComplete die k) s = execWalkComplete die k s := rfl
theorem exec_shootdownGo (q : Nat) (s : State) : exec (.shootdownGo q) s = execShootdownGo q s := rfl
theorem exec_shootdownAck (q holder : Nat) (s : State) : exec (.shootdownAck q holder) s = execShootdownAck q holder s := rfl
theorem exec_tierMigration (ctx : Nat) (va pa : Word) (tier : Nat) (s : State) :
    exec (.tierMigration ctx va pa tier) s = execTierMigration ctx va pa tier s := rfl

/-! ### The lease clock (R195) -/

theorem exec_leaseTick_active {s : State} {lc : Nat} (h : s.active lc = true) :
    exec (.leaseTick lc) s = .next (s.setCore lc { s.core lc with lease := (s.core lc).lease + 1 }) := by
  rw [exec_leaseTick, execLeaseTick, if_pos h]

/-! ### The misses of a page (R201) -/

/-- A miss of a die for a page of a context. -/
def Miss.isFor (die ctx page : Nat) (m : Miss) : Bool := m.die == die && m.ctx == ctx && m.page == page

/-- Who the misses of a page bring to its walk. -/
def State.missWaiters (s : State) (die ctx page : Nat) : List Nat :=
  (s.mem.misses.filter (Miss.isFor die ctx page)).flatMap Miss.waiters

/-- The misses of a page have come to a walker, whose walks are others. -/
def State.withWalks (s : State) (die ctx page : Nat) (l : List Walk) : State :=
  { s with mem := { s.mem with misses := s.mem.misses.filter fun m => !Miss.isFor die ctx page m, walks := l } }

section
variable {s : State} {die ctx page : Nat} {va : Word} (hpage : va.toNat % 2 ^ 56 / 65536 = page)
include hpage

theorem exec_pageWalk_none (h : s.missWaiters die ctx page = []) : exec (.pageWalk die ctx va) s = .next s := by
  subst hpage
  exact if_pos h

variable (h : s.missWaiters die ctx page ≠ [])
include h

theorem exec_pageWalk_joins (hserved : s.mem.walks.any (fun w => w.serves die ctx page) = true) :
    exec (.pageWalk die ctx va) s = .next (s.withWalks die ctx page (s.mem.walks.map fun w =>
      if w.serves die ctx page then { w with waiters := w.waiters ++ s.missWaiters die ctx page } else w)) := by
  subst hpage
  exact (if_neg h).trans (if_pos hserved)

variable (hserved : s.mem.walks.any (fun w => w.serves die ctx page) = false)
include hserved

theorem exec_pageWalk_refused (hroom : 1152 ≤ (s.walksOf die).length) :
    exec (.pageWalk die ctx va) s = .next (s.count cWALKQ die) := by
  subst hpage
  exact (if_neg h).trans ((if_neg (Bool.eq_false_iff.mp hserved)).trans (if_pos hroom))

theorem exec_pageWalk_starts (hroom : (s.walksOf die).length < 1152) : exec (.pageWalk die ctx va) s =
    .next (s.withWalks die ctx page (s.mem.walks ++ [⟨die, ctx, page, s.missWaiters die ctx page, false⟩])) := by
  subst hpage
  exact (if_neg h).trans ((if_neg (Bool.eq_false_iff.mp hserved)).trans (if_neg (Nat.not_le.mpr hroom)))

end

/-! ### The end of a walk (R200, R201) -/

theorem State.walkBy_counters (s : State) (die ctx va : Nat) : (s.walkBy die ctx va).2.counters = s.counters := by
  unfold State.walkBy
  dsimp only
  split <;> rfl

/-- A fault of a class comes to the requesters that wait for a walk. -/
def State.faultWaiters (s : State) (w : Walk) (cls : Nat) : State :=
  { s with mem := { s.mem with
    faults := s.mem.faults ++ (w.waiters.filter fun h => h < 1024 || 4096 ≤ h).map fun h => ⟨h, w.ctx, w.page, cls⟩ } }

theorem State.endWalk_addr (s : State) (w : Walk) : s.endWalk w .addr = s.faultWaiters w ADDRESS := rfl
theorem State.endWalk_data (s : State) (w : Walk) : s.endWalk w .data = s.faultWaiters w DATA := rfl

theorem State.faultWaiters_mem (s : State) {w : Walk} (cls : Nat) {h : Nat} (hw : h ∈ w.waiters) (hr : h < 1024 ∨ 4096 ≤ h) :
    ⟨h, w.ctx, w.page, cls⟩ ∈ (s.faultWaiters w cls).mem.faults := by
  refine List.mem_append_right _ (List.mem_map_of_mem (List.mem_filter.mpr ⟨hw, ?_⟩))
  simpa only [Bool.or_eq_true, decide_eq_true_eq] using hr

theorem exec_walkComplete_ends {s t : State} {die k : Nat} {w : Walk} {x : WalkEnd} (hw : (s.walksOf die)[k]? = some w)
    (hk : k < 128)
    (hx : ({ s with mem := { s.mem with walks := s.mem.walks.erase w } } : State).walkBy die w.ctx (w.page * 65536) = (x, t)) :
    exec (.walkComplete die k) s = .next (if x = .data then (t.endWalk w x).count cWALKUE die else t.endWalk w x) := by
  simp only [exec_walkComplete, execWalkComplete, hw, hx, ge_iff_le, Nat.not_le.mpr hk, if_false]

end Sys2Proof.Machine
end

section
/-! PROOFS. Shootdowns (R203). -/

namespace Sys2Proof.Machine

/-! ### The fields of SDCTL (R203) -/

theorem sdBusy_setBits_busy (w : Word) (b : Bool) : sdBusy (setBits w 62 1 b.toNat) = b := by
  have h : bits (setBits w 62 1 b.toNat) 62 1 = b.toNat := by
    have := b.toNat_le
    simp only [bits, setBits, BitVec.toNat_ofNat]
    omega
  rw [sdBusy, bit, h]
  cases b <;> rfl

theorem sdBusy_setBits_result (w : Word) (v : Nat) : sdBusy (setBits w 6 2 v) = sdBusy w := by
  have h : bits (setBits w 6 2 v) 62 1 = bits w 62 1 := by
    simp only [bits, setBits, BitVec.toNat_ofNat]
    omega
  rw [sdBusy, bit, h]
  rfl

theorem bits_setBits_result (w : Word) (v : Nat) : bits (setBits w 6 2 v) 6 2 = v % 4 := by
  simp only [bits, setBits, BitVec.toNat_ofNat]
  omega

/-! ### A shootdown starts (R203) -/

theorem exec_shootdownGo_next (s : State) {q : Nat} (hq : q < 2) : exec (.shootdownGo q) s = .next (s.shootdown q) :=
  if_pos hq

/-- What SDVA and SDCTL of a quay die name is no range to shoot down: a shootdown is busy, or the range is none. -/
def State.shotRefused (s : State) (q : Nat) : Bool :=
  sdBusy (s.entry 9 q) || sdLgsz (s.entry 9 q) < 16 || sdLgsz (s.entry 9 q) > 56 ||
    (s.entry 8 q).toNat % 2 ^ sdLgsz (s.entry 9 q) ≠ 0

theorem State.shotRefused_iff {s : State} {q : Nat} : s.shotRefused q = true ↔ sdBusy (s.entry 9 q) = true ∨
    sdLgsz (s.entry 9 q) < 16 ∨ 56 < sdLgsz (s.entry 9 q) ∨ (s.entry 8 q).toNat % 2 ^ sdLgsz (s.entry 9 q) ≠ 0 := by
  simp only [State.shotRefused, Bool.or_eq_true, decide_eq_true_eq, or_assoc, gt_iff_lt]

/-- The walks of a context that are under way when its shootdown starts serve no later miss. -/
def Walk.overtaken (ctx : Nat) (x : Walk) : Walk := if x.ctx = ctx then { x with old := true } else x

theorem Walk.overtaken_old {ctx : Nat} {x : Walk} (h : (x.overtaken ctx).ctx = ctx) : (x.overtaken ctx).old = true := by
  unfold Walk.overtaken at h ⊢
  split
  · rfl
  · next hne =>
    rw [if_neg hne] at h
    exact absurd h hne

/-- A shootdown has started that waits for every holder. -/
def State.shotStarted (s : State) (q : Nat) : State :=
  let w := s.entry 9 q
  { s.setEntry 9 q (setBits (setBits w 62 1 1) 6 2 0) with
    shootdowns := tput q ⟨(s.entry 8 q).toNat, sdLgsz w, sdCtx w, holders⟩ s.shootdowns
    mem := { s.mem with walks := s.mem.walks.map (Walk.overtaken (sdCtx w)) } }

theorem State.shootdown_refused {s : State} {q : Nat} (h : s.shotRefused q = true) :
    s.shootdown q = s.setEntry 9 q (setBits (s.entry 9 q) 6 2 2) := if_pos h

theorem State.shootdown_starts {s : State} {q : Nat} (h : s.shotRefused q = false) : s.shootdown q = s.shotStarted q :=
  if_neg (Bool.eq_false_iff.mp h)

theorem State.shotStarted_entry (s : State) (q : Nat) :
    (s.shotStarted q).entry 9 q = setBits (setBits (s.entry 9 q) 62 1 1) 6 2 0 := State.entry_setEntry ..

theorem State.shotStarted_walk (s : State) (q : Nat) {x : Walk} (hx : x ∈ (s.shotStarted q).mem.walks)
    (hctx : x.ctx = sdCtx (s.entry 9 q)) : x.old = true := by
  obtain ⟨y, -, rfl⟩ := List.mem_map.mp hx
  exact Walk.overtaken_old hctx

/-! ### What draining the holding buffers leaves unchanged (R337) -/

/-- Translations, the walkers' non-leaf entries and the front-end tables are the same. -/
structure State.SameXlats (s t : State) : Prop where
  tlb : t.mem.tlb = s.mem.tlb
  nonleaf : t.mem.nonleaf = s.mem.nonleaf
  feTab : t.feTab = s.feTab

theorem State.SameXlats.refl (s : State) : s.SameXlats s := ⟨rfl, rfl, rfl⟩

theorem State.SameXlats.trans {s t u : State} (h : s.SameXlats t) (k : t.SameXlats u) : s.SameXlats u :=
  ⟨k.tlb.trans h.tlb, k.nonleaf.trans h.nonleaf, k.feTab.trans h.feTab⟩

theorem State.SameXlats.entry {s t : State} (h : s.SameXlats t) (tbl i : Nat) : t.entry tbl i = s.entry tbl i := by
  rw [State.entry, State.entry, h.feTab]

theorem State.homeWrite_sameXlats (s : State) (l : List Nat) : s.SameXlats (s.homeWrite l) :=
  List.foldlRecOn _ _ (.refl s) fun _ h _ _ => h.trans ⟨rfl, rfl, rfl⟩

theorem State.meetUe_sameXlats (s : State) (l : List Nat) : s.SameXlats (s.meetUe l) := by
  unfold State.meetUe
  cases l.find? s.badAt with
  | none => exact .refl s
  | some a =>
    change s.SameXlats (s.countUe a)
    unfold State.countUe
    split
    · exact ⟨rfl, rfl, rfl⟩
    · split <;> exact ⟨rfl, rfl, rfl⟩

theorem State.applyHeld_sameXlats (s : State) (e : Held) : s.SameXlats (s.applyHeld e).2.2 := by
  unfold State.applyHeld
  dsimp only
  generalize (if e.double = true then 8 else 4) = n
  split
  · exact s.meetUe_sameXlats _
  · split <;> exact (s.homeWrite_sameXlats _).trans ⟨rfl, rfl, rfl⟩

theorem State.applyAll_sameXlats (s : State) (l : List Held) : s.SameXlats (s.applyAll l).2.2 := by
  induction l generalizing s with
  | nil => exact .refl s
  | cons e l ih => exact (s.applyHeld_sameXlats e).trans (ih _)

theorem State.bumpDetovf_sameXlats (s : State) (lc : Nat) : s.SameXlats (s.bumpDetovf lc) := by
  unfold State.bumpDetovf
  split <;> exact ⟨rfl, rfl, rfl⟩

theorem State.drainHeld_sameXlats (s : State) (n : Nat) (sel : Held → Bool) : s.SameXlats (s.drainHeld n sel) := by
  have hput (x : Slice) : s.SameXlats (s.setSlice n x) := ⟨rfl, rfl, rfl⟩
  exact List.foldlRecOn _ _ ((hput _).trans (State.applyAll_sameXlats _ _)) fun t h lc _ => h.trans (t.bumpDetovf_sameXlats lc)

theorem State.drainPages_sameXlats (s : State) (x : Shootdown) : s.SameXlats (s.drainPages x) :=
  List.foldlRecOn _ _ (.refl s) fun _ h _ _ =>
    List.foldlRecOn _ _ h fun t ht n _ => ht.trans (t.drainHeld_sameXlats n _)

/-! ### A holder acknowledges (R203) -/

/-- A unit has dropped what it holds of the range of a shootdown, and a walker what it holds of its context. -/
def State.shotDrops (s : State) (unit : Nat) (x : Shootdown) : State :=
  let s0 := s.dropXlats (· != unit) x.ctx x.va x.lgsz
  if 1056 ≤ unit ∧ unit < 1064 then s0.dropNonleaf (unit - 1056) x.ctx else s0

/-- The last unit has acknowledged a shootdown. -/
def State.shotEnds (s : State) (q : Nat) (x : Shootdown) (ctl : Word) : State :=
  (({ s with shootdowns := tdel q s.shootdowns }.setEntry 9 q (setBits (setBits ctl 62 1 0) 6 2 1)).count cTLBSD q).drainPages x

theorem State.shotDrops_tlb (s : State) (unit : Nat) (x : Shootdown) (y : Xlat) : y ∈ (s.shotDrops unit x).mem.tlb ↔
    y ∈ s.mem.tlb ∧ ¬ (ackUnit y.holder = unit ∧ y.hits x.ctx x.va x.lgsz = true) := by
  have htlb : (s.shotDrops unit x).mem.tlb =
      s.mem.tlb.filter fun y => ackUnit y.holder != unit || !y.hits x.ctx x.va x.lgsz := by
    unfold State.shotDrops
    dsimp only
    split <;> rfl
  rw [htlb, List.mem_filter, Bool.or_eq_true, bne_iff_ne, Bool.not_eq_true', ← Bool.not_eq_true, not_and_or]

theorem State.shotDrops_nonleaf (s : State) {unit : Nat} (x : Shootdown) (hlo : 1056 ≤ unit) (hhi : unit < 1064) {y : NonLeaf}
    (hy : y ∈ (s.shotDrops unit x).mem.nonleaf) : ¬ (y.die = unit - 1056 ∧ y.ctx = x.ctx) := by
  rw [State.shotDrops, if_pos ⟨hlo, hhi⟩] at hy
  rintro ⟨hdie, hctx⟩
  simpa [hdie, hctx] using (List.mem_filter.mp hy).2

theorem State.shotEnds_xlats (s : State) (q : Nat) (x : Shootdown) (ctl : Word) :
    (s.shotEnds q x ctl).mem.tlb = s.mem.tlb ∧ (s.shotEnds q x ctl).mem.nonleaf = s.mem.nonleaf ∧
      (s.shotEnds q x ctl).entry 9 q = setBits (setBits ctl 62 1 0) 6 2 1 := by
  have h := State.drainPages_sameXlats
    (({ s with shootdowns := tdel q s.shootdowns }.setEntry 9 q (setBits (setBits ctl 62 1 0) 6 2 1)).count cTLBSD q) x
  exact ⟨h.tlb, h.nonleaf, (h.entry 9 q).trans (State.entry_setEntry ..)⟩

section
variable {s : State} {q unit : Nat} {x : Shootdown} (hx : tfind s.shootdowns q = some x) (hunit : unit ∈ x.missing)
  (hack : s.mayAck unit x.ctx = true)
include hx hunit hack

theorem exec_shootdownAck_last (hlast : x.missing.filter (· != unit) = []) :
    exec (.shootdownAck q unit) s = .next ((s.shotDrops unit x).shotEnds q x (s.entry 9 q)) := by
  have hin : x.missing.contains unit = true := List.contains_iff_mem.mpr hunit
  simp only [exec_shootdownAck, execShootdownAck, hx, hin, hack, hlast, Bool.not_true, Bool.or_self, Bool.false_eq_true,
    if_false, if_true]
  rfl

theorem exec_shootdownAck_more (hmore : x.missing.filter (· != unit) ≠ []) :
    exec (.shootdownAck q unit) s = .next { s.shotDrops unit x with
      shootdowns := tput q { x with missing := x.missing.filter (· != unit) } (s.shotDrops unit x).shootdowns } := by
  have hin : x.missing.contains unit = true := List.contains_iff_mem.mpr hunit
  simp only [exec_shootdownAck, execShootdownAck, hx, hin, hack, hmore, Bool.not_true, Bool.or_self, Bool.false_eq_true,
    if_false]
  rfl

theorem exec_shootdownAck_drops : ∃ t, exec (.shootdownAck q unit) s = .next t ∧
    (∀ y, y ∈ t.mem.tlb ↔ y ∈ s.mem.tlb ∧ ¬ (ackUnit y.holder = unit ∧ y.hits x.ctx x.va x.lgsz = true)) ∧
    (1056 ≤ unit → unit < 1064 → ∀ y ∈ t.mem.nonleaf, ¬ (y.die = unit - 1056 ∧ y.ctx = x.ctx)) ∧
    (x.missing.filter (· != unit) ≠ [] →
      tfind t.shootdowns q = some { x with missing := x.missing.filter (· != unit) }) ∧
    (x.missing.filter (· != unit) = [] → q < 2 → sdBusy (t.entry 9 q) = false ∧ bits (t.entry 9 q) 6 2 = 1) := by
  by_cases hlast : x.missing.filter (· != unit) = []
  · obtain ⟨htlb, hnonleaf, hctl⟩ := (s.shotDrops unit x).shotEnds_xlats q x (s.entry 9 q)
    refine ⟨_, exec_shootdownAck_last hx hunit hack hlast, fun y => ?_, fun hlo hhi y hy => ?_, (absurd hlast ·), fun _ _ => ?_⟩
    · rw [htlb, s.shotDrops_tlb]
    · rw [hnonleaf] at hy
      exact s.shotDrops_nonleaf x hlo hhi hy
    · rw [hctl]
      exact ⟨(sdBusy_setBits_result ..).trans (sdBusy_setBits_busy _ false), bits_setBits_result _ 1⟩
  · exact ⟨_, exec_shootdownAck_more hx hunit hack hlast, s.shotDrops_tlb unit x,
      fun hlo hhi _ => s.shotDrops_nonleaf x hlo hhi, fun _ => tfind_tput_same .., (absurd · hlast)⟩

end

end Sys2Proof.Machine
end

section
/-! PROOFS. Tier migration (R16, R204) and the statement of the part. -/

namespace Sys2Proof.Machine

/-! ### A step of the front end's procedure -/

theorem exec_tierMigration_busy {s : State} {ctx tier : Nat} {va pa : Word} (h : sdBusy (s.entry 9 0) = true) :
    exec (.tierMigration ctx va pa tier) s = .next s := if_pos h

/-- The migration under way for the page of an address. -/
def State.migrationAt (s : State) (ctx : Nat) (va : Word) : Option Migration :=
  s.mem.migrations.find? fun m => m.ctx == ctx && inPage m.va (2 ^ m.lgsz) va.toNat

section
variable {s : State} {ctx tier : Nat} {va pa : Word} (hfree : sdBusy (s.entry 9 0) = false)
include hfree

theorem exec_tierMigration_begins (hm : s.migrationAt ctx va = none) :
    exec (.tierMigration ctx va pa tier) s = .next (s.migrateStart ctx va pa tier) := by
  rw [State.migrationAt] at hm
  simp only [exec_tierMigration, execTierMigration, hfree, hm, Bool.false_eq_true, if_false]

theorem exec_tierMigration_goesOn {m : Migration} (hm : s.migrationAt ctx va = some m) :
    exec (.tierMigration ctx va pa tier) s = .next (s.migrateOn m) := by
  rw [State.migrationAt] at hm
  simp only [exec_tierMigration, execTierMigration, hfree, hm, Bool.false_eq_true, if_false]

end

/-! ### Step 1: mig is set and the page is shot down -/

theorem State.migrateStart_shoots {s : State} {ctx tier ea l : Nat} {va pa e : Word} (hroot : bit (s.entry 11 ctx) 63 = true)
    (hleaf : s.leafAt va.toNat [0, 1, 2, 3] (bits (s.entry 11 ctx) 13 39 * 2 ^ 13) = some (ea, e, l))
    (halign : pa.toNat % 2 ^ pageBits l = 0) (hpop : (pageChunks pa.toNat (2 ^ pageBits l)).all (s.populated tier) = true)
    (hsrc : (pageChunks (bits e 16 36 * 2 ^ 16) (2 ^ pageBits l)).any s.portFailed = false)
    (hdst : (pageChunks pa.toNat (2 ^ pageBits l)).any s.portFailed = false) :
    s.migrateStart ctx va pa tier =
      ((s.setMem64 ea (setBits e 7 1 1)).shootPage ctx (va.toNat / 2 ^ pageBits l * 2 ^ pageBits l) (pageBits l)).setMigrations
        (s.mem.migrations ++ [⟨ctx, va.toNat / 2 ^ pageBits l * 2 ^ pageBits l, pageBits l, ea, bits e 16 36 * 2 ^ 16,
          pa.toNat, tier, 0⟩]) := by
  simp only [State.migrateStart, hroot, hleaf, halign, hpop, hsrc, hdst, if_true, ne_eq, not_true_eq_false, decide_false,
    Bool.not_true, Bool.or_self, Bool.false_eq_true, if_false]

/-! ### Steps 2 to 4: the migration goes on once its shootdown is over -/

/-- A deferred future read waits for a word of the page that is to move (R204 step 2). -/
def State.readDeferred (s : State) (m : Migration) : Bool :=
  s.slices.any fun x => x.2.pantry.any fun d => inPage (s.physAddr m.src) (2 ^ m.lgsz) d.word

/-- A port that the page or its new place lies on has failed (R16). -/
def State.pagePortFailed (s : State) (m : Migration) : Bool :=
  (pageChunks m.src (2 ^ m.lgsz) ++ pageChunks m.dst (2 ^ m.lgsz)).any s.portFailed

theorem State.migrateOn_abandons {s : State} {m : Migration} (hmoved : m.moved = 0) (hread : s.readDeferred m = true) :
    s.migrateOn m = (s.migrateStop m).count cMIGABN (s.ctxPart m.ctx) := if_pos ⟨hmoved, hread⟩

section
variable {s : State} {m : Migration} (hgo : m.moved ≠ 0 ∨ s.readDeferred m = false) (hmore : m.moved < 2 ^ m.lgsz)
include hgo hmore

theorem State.migrateOn_stops (hport : s.pagePortFailed m = true) : s.migrateOn m = s.migrateStop m := by
  have hkeep : ¬ (m.moved = 0 ∧ s.readDeferred m = true) := by simpa only [not_and_or, Bool.not_eq_true] using hgo
  exact (if_neg hkeep).trans (if_pos ⟨hmore, hport⟩)

theorem State.migrateOn_copies (hport : s.pagePortFailed m = false) : s.migrateOn m =
    (s.migrateCopy m).1.setMigrations ((s.migrateCopy m).1.mem.migrations.map fun x => if x = m then (s.migrateCopy m).2 else x) := by
  have hkeep : ¬ (m.moved = 0 ∧ s.readDeferred m = true) := by simpa only [not_and_or, Bool.not_eq_true] using hgo
  exact (if_neg hkeep).trans ((if_neg fun h => Bool.eq_false_iff.mp hport h.2).trans (if_pos hmore))

end

/-- A page that has been copied is at its new place: its leaf names it, and its words' future states are there. -/
theorem State.migrateOn_ends {s : State} {m : Migration} (hdone : 2 ^ m.lgsz ≤ m.moved) : s.migrateOn m =
    (((s.moveFutures m).setMem64 m.leaf
      (setBits (setBits (setBits (s.mem64 m.leaf) 16 36 (m.dst / 2 ^ 16)) 8 2 m.tier) 7 1 0)).shootPage m.ctx m.va
        m.lgsz).setMigrations (s.mem.migrations.filter fun x => x != m) := by
  have hpos := Nat.two_pow_pos m.lgsz
  have hmoved : ¬ m.moved = 0 := by omega
  simp only [State.migrateOn, hmoved, Nat.not_lt.mpr hdone, false_and, if_false]

/-! ### Step 3: a page of the module is copied at once -/

theorem State.moveTimes_migrations (s : State) (src dst size : Nat) :
    (s.moveTimes src dst size).mem.migrations = s.mem.migrations :=
  List.foldlRecOn (motive := fun t : State => t.mem.migrations = s.mem.migrations) _ _ rfl fun _ h _ _ => h

/-- A place of a page that lies in another module or the host. -/
def State.liesAway (s : State) (pa : Nat) : Bool :=
  match s.region pa with
  | .remote _ _ | .host => true
  | _ => false

theorem State.liesAway_eq (s : State) (pa : Nat) : s.liesAway pa = !s.isLocal [pa] := by
  rw [State.liesAway, State.isLocal, List.headD_cons]
  cases s.region pa <;> rfl

/-- A page of the module stands at its new place, with its line times and its uncorrectable codewords. -/
def State.pageCopied (s : State) (m : Migration) : State :=
  let src := s.physAddr m.src
  let dst := s.physAddr m.dst
  let size := 2 ^ m.lgsz
  let t := s.moveTimes src dst size
  { t with mem := { t.mem with
    bytes := moveCells s.mem.bytes src dst size
    badLines := moveMarks s.mem.badLines (src / 64) (dst / 64) (size / 64) } }

theorem State.pageCopied_migrations (s : State) (m : Migration) : (s.pageCopied m).mem.migrations = s.mem.migrations :=
  s.moveTimes_migrations ..

theorem State.migrateCopy_local {s : State} {m : Migration} (hsrc : s.isLocal [m.src] = true) (hdst : s.isLocal [m.dst] = true) :
    s.migrateCopy m = (s.pageCopied m, { m with moved := 2 ^ m.lgsz }) := by
  have hhere : (!s.liesAway m.src && !s.liesAway m.dst) = true := by
    rw [s.liesAway_eq, s.liesAway_eq, hsrc, hdst]
    rfl
  exact if_pos hhere

/-! ### The statement -/

/-- Settles O42: each clause is the law of its step. -/
theorem translationSteps : Obligations.TranslationSteps := by
  intro s lc die ctx k q holder tier ea l va pa e w
  refine ⟨fun hactive => ?lease, ⟨exec_pageWalk_none rfl, exec_pageWalk_joins rfl, fun hws hserved =>
      ⟨exec_pageWalk_starts rfl hws hserved, exec_pageWalk_refused rfl hws hserved⟩⟩,
    fun hw hk => ⟨fun x n t hx => exec_walkComplete_ends hw hk hx, fun t hx => ?addr, fun t hx => ?data⟩,
    fun hq => ⟨fun hfree hlo hhi halign => ?starts, fun hbad => ?refused⟩,
    fun x => exec_shootdownAck_drops, exec_tierMigration_busy, ?begins, fun m hfree hm => ⟨?_, ?_, ?_, ?_⟩⟩
  case lease =>
    exact ⟨_, exec_leaseTick_active hactive, by rw [State.core_setCore], by rw [State.core_setCore], rfl,
      fun n hn => State.core_setCore_ne _ _ _ _ hn⟩
  case addr =>
    refine ⟨_, exec_walkComplete_ends hw hk hx, rfl, ?_, fun h hh => t.faultWaiters_mem ADDRESS hh⟩
    exact (congrArg (·.2.counters) hx).symm.trans (State.walkBy_counters ..)
  case data =>
    refine ⟨_, exec_walkComplete_ends hw hk hx, rfl, ?_, fun h hh => t.faultWaiters_mem DATA hh⟩
    have hcount : t.counters = s.counters := (congrArg (·.2.counters) hx).symm.trans (State.walkBy_counters ..)
    refine (State.counter_countBy ..).trans (congrArg (satAdd · 1) ?_)
    exact congrArg (tget 0 · (cWALKUE * 4096 + die)) hcount
  case starts =>
    have hstart : s.shotRefused q = false := by
      rw [← Bool.not_eq_true, State.shotRefused_iff]
      simp [hfree, halign, hlo, hhi]
    refine ⟨s.shotStarted q, by rw [exec_shootdownGo_next s hq, State.shootdown_starts hstart], ?_, ?_, tfind_tput_same ..,
      fun x => s.shotStarted_walk q⟩
    · rw [s.shotStarted_entry, sdBusy_setBits_result]
      exact sdBusy_setBits_busy _ true
    · rw [s.shotStarted_entry, bits_setBits_result]
  case refused =>
    have hrefused := State.shotRefused_iff.mpr hbad
    refine ⟨s.setEntry 9 q (setBits (s.entry 9 q) 6 2 2), by rw [exec_shootdownGo_next s hq, State.shootdown_refused hrefused],
      ?_, rfl⟩
    rw [State.entry_setEntry, bits_setBits_result]
  case begins =>
    intro hfree hm hroot hleaf size src page halign hpop hsrc hdst
    rw [exec_tierMigration_begins hfree hm, State.migrateStart_shoots hroot hleaf halign hpop hsrc hdst]
  all_goals rw [exec_tierMigration_goesOn hfree hm]
  · exact fun hmoved hread => congrArg _ (State.migrateOn_abandons hmoved hread)
  · exact fun hgo hmore hport => congrArg _ (State.migrateOn_stops hgo hmore hport)
  · intro hgo hmore hport hsrc hdst
    have hnext := State.migrateOn_copies hgo hmore hport
    rw [State.migrateCopy_local hsrc hdst, s.pageCopied_migrations] at hnext
    exact ⟨_, congrArg _ hnext, rfl, List.mem_map.mpr ⟨m, List.mem_of_find?_eq_some hm, if_pos rfl⟩⟩
  · exact fun hdone => congrArg _ (State.migrateOn_ends hdone)

end Sys2Proof.Machine
end

section
/-! PROOFS. Block moves, `pref` and the nibble stores (R207, R209, R210, R323 to R326). -/

namespace Sys2Proof.Machine

/-! ### Bytes of a number (R3) -/

theorem leNat_leBytes (n v : Nat) : leNat (leBytes n v) = v % 256 ^ n := by
  induction n generalizing v with
  | zero => simp [leBytes, leNat, Nat.mod_one]
  | succ n ih => simp [leBytes, leNat, ih, pow_succ', Nat.mod_mul]

/-! ### Accesses that an instruction makes one a step (R206, R207, R209) -/

/-- What an instruction keeps of a byte that it has loaded. -/
def byteNote (addr : Word) (c : Nat) : Sent := ⟨addr, 0, false, some (.data (leBytes 8 c))⟩

section
variable {s t : State} {addr : Word} {c : Nat} {keep last : Bool} {q : Sent} {acc : State → Acc}

theorem State.byteOf_inSpace (h : s.spaceOk addr 1 = true) : s.byteOf addr acc = acc s := if_pos h

theorem State.byteOf_outside (h : s.spaceOk addr 1 = false) : s.byteOf addr acc = .trap ADDRESS addr := by
  simp [State.byteOf, h]

/-- A byte that has been loaded is not loaded again. -/
theorem State.access_noted (hs : s.hart.sent = [byteNote addr c]) (hc : c < 256) :
    s.access 0 last keep addr acc = .ok c s := by
  have hval : leNat (leBytes 8 c) = c := (leNat_leBytes 8 c).trans (Nat.mod_eq_of_lt (by omega))
  simp [State.access, hs, byteNote, hval]

/-- The first of two accesses leaves its note, and the second to a later step. -/
theorem State.access_first_made (hs : s.hart.sent = []) (h : acc (s.setHart { s.hart with sent := [] }) = .ok c t) :
    s.access 0 false false addr acc = .wait (t.setHart { t.hart with sent := [byteNote addr c] }) := by
  simp [State.access, hs, h, byteNote]

theorem State.access_first_traps {cls : Nat} {w : Word} (hs : s.hart.sent = [])
    (h : acc (s.setHart { s.hart with sent := [] }) = .trap cls w) : s.access 0 false keep addr acc = .trap cls w := by
  simp [State.access, hs, h]

/-- The second of two accesses is the last. -/
theorem State.access_second_made (hs : s.hart.sent = [q]) (h : acc (s.setHart { s.hart with sent := [] }) = .ok c t) :
    s.access 1 true keep addr acc = .ok c (t.setHart { t.hart with sent := q :: t.hart.sent }) := by
  simp [State.access, hs, h]

end

/-- Where an instruction is one access and what follows from it, the three ends of the access are those of the instruction. -/
theorem follows_afterAcc (s : State) (a : Acc) (k : Nat → State → State) : Follows a s (.next (s.afterAcc a k)) k := by
  refine ⟨fun v t h => ?_, fun c w h => ?_, fun t h => ?_⟩ <;> (subst h; rfl)

/-! ### Block moves (R325, R326) -/

section
variable {s s1 : State} {d a b : Reg} {x y n : Word} {c e u : Nat}

section
variable (hv : s.front (.bmov d a b) = .go [x, y, n])
include hv

theorem exec_bmov_empty (hn : n = 0) : exec (.bmov d a b) s = .next (s.retire (.bmov d a b)) :=
  (State.run_go _ _ _ _ hv).trans (congrArg _ (if_pos hn))

theorem exec_bmov_element (hn : n ≠ 0) : exec (.bmov d a b) s =
    .next (s.afterAcc (s.access 0 false false y fun s => s.byteOf y fun s => s.load y 1) fun c s1 =>
      s.afterAcc (s1.access 1 true true x fun s => s.byteOf x fun s => s.store x 1 (c % 256)) fun _ s2 =>
        s2.stepBlock [(a, x + 1), (b, y + 1), (d, n - 1)]) :=
  (State.run_go _ _ _ _ hv).trans (congrArg _ (if_neg hn))

theorem exec_bmov_loads (hn : n ≠ 0) (hs : s.hart.sent = [])
    (hy : (s.setHart { s.hart with sent := [] }).spaceOk y 1 = true)
    (hl : (s.setHart { s.hart with sent := [] }).load y 1 = .ok c s1) :
    exec (.bmov d a b) s = .next (s1.setHart { s1.hart with sent := [byteNote y c] }) := by
  rw [exec_bmov_element hv hn, State.access_first_made hs ((State.byteOf_inSpace hy).trans hl)]
  rfl

theorem exec_bmov_traps (hn : n ≠ 0) (hs : s.hart.sent = [])
    (hy : (s.setHart { s.hart with sent := [] }).spaceOk y 1 = false) :
    exec (.bmov d a b) s = .next (s.trap ADDRESS y) := by
  rw [exec_bmov_element hv hn, State.access_first_traps hs (State.byteOf_outside hy)]
  rfl

theorem exec_bmov_stores (hn : n ≠ 0) (hs : s.hart.sent = [byteNote y c]) (hc : c < 256)
    (hx : (s.setHart { s.hart with sent := [] }).spaceOk x 1 = true)
    (ht : (s.setHart { s.hart with sent := [] }).store x 1 c = .ok u s1) :
    exec (.bmov d a b) s = .next ((s1.setHart { s1.hart with sent := byteNote y c :: s1.hart.sent }).stepBlock
      [(a, x + 1), (b, y + 1), (d, n - 1)]) := by
  rw [← Nat.mod_eq_of_lt hc] at ht
  rw [exec_bmov_element hv hn, State.access_noted hs hc]
  dsimp only [State.afterAcc]
  rw [State.access_second_made hs ((State.byteOf_inSpace hx).trans ht)]

end

section
variable (hv : s.front (.bset d a b) = .go [x, y, n])
include hv

theorem exec_bset_empty (hn : n = 0) : exec (.bset d a b) s = .next (s.retire (.bset d a b)) :=
  (State.run_go _ _ _ _ hv).trans (congrArg _ (if_pos hn))

theorem exec_bset_stores (hn : n ≠ 0) (hx : s.spaceOk x 1 = true) (ht : s.store x 1 (y.toNat % 256) = .ok u s1) :
    exec (.bset d a b) s = .next (s1.stepBlock [(a, x + 1), (d, n - 1)]) := by
  have hbyte : (s.byteOf x fun s => s.store x 1 (y.toNat % 256)) = .ok u s1 := (State.byteOf_inSpace hx).trans ht
  exact (State.run_go _ _ _ _ hv).trans (congrArg _ ((if_neg hn).trans (congrArg (s.afterAcc · _) hbyte)))

end

section
variable (hv : s.front (.bcmp d a b) = .go [x, y, n])
include hv

theorem exec_bcmp_empty (hn : n = 0) : exec (.bcmp d a b) s = .next (s.retire (.bcmp d a b)) :=
  (State.run_go _ _ _ _ hv).trans (congrArg _ (if_pos hn))

theorem exec_bcmp_element (hn : n ≠ 0) : exec (.bcmp d a b) s =
    .next (s.afterAcc (s.access 0 false false x fun s => s.byteOf x fun s => s.load x 1) fun c s1 =>
      s.afterAcc (s1.access 1 true false y fun s => s.byteOf y fun s => s.load y 1) fun e s2 =>
        if c = e then s2.stepBlock [(a, x + 1), (b, y + 1), (d, n - 1)] else s2.retire (.bcmp d a b)) :=
  (State.run_go _ _ _ _ hv).trans (congrArg _ (if_neg hn))

theorem exec_bcmp_loads (hn : n ≠ 0) (hs : s.hart.sent = [])
    (hx : (s.setHart { s.hart with sent := [] }).spaceOk x 1 = true)
    (hl : (s.setHart { s.hart with sent := [] }).load x 1 = .ok c s1) :
    exec (.bcmp d a b) s = .next (s1.setHart { s1.hart with sent := [byteNote x c] }) := by
  rw [exec_bcmp_element hv hn, State.access_first_made hs ((State.byteOf_inSpace hx).trans hl)]
  rfl

theorem exec_bcmp_compares (hn : n ≠ 0) (hs : s.hart.sent = [byteNote x c]) (hc : c < 256)
    (hy : (s.setHart { s.hart with sent := [] }).spaceOk y 1 = true)
    (hl : (s.setHart { s.hart with sent := [] }).load y 1 = .ok e s1) :
    let s2 := s1.setHart { s1.hart with sent := byteNote x c :: s1.hart.sent }
    exec (.bcmp d a b) s = .next (if c = e then s2.stepBlock [(a, x + 1), (b, y + 1), (d, n - 1)]
      else s2.retire (.bcmp d a b)) := by
  rw [exec_bcmp_element hv hn, State.access_noted hs hc]
  dsimp only [State.afterAcc]
  rw [State.access_second_made hs ((State.byteOf_inSpace hy).trans hl)]

end

end

/-! ### Nibble stores (R210, R324) -/

section
variable {s : State} {i : Instr} {x y : Word} (high : Bool) (hv : s.front i = .go [x, y])
include hv

theorem nibbleForm_follows (hx : s.spaceOk x 1 = true) (hr : s.isRemote x needW = false) :
    Follows (s.atomic x 1 needW (.nibble high (BitVec.ofNat 4 (y.toNat % 16))) (withNibble high (y.toNat % 16))) s
      (nibbleForm i high s) fun _ t => t.retire i := by
  have hform : nibbleForm i high s = .next (s.afterAcc (s.atomic x 1 needW (.nibble high (BitVec.ofNat 4 (y.toNat % 16)))
      (withNibble high (y.toNat % 16))) fun _ t => t.retire i) := by simp [nibbleForm, hv, hx, hr]
  rw [hform]
  exact follows_afterAcc ..

theorem nibbleForm_sends (hx : s.spaceOk x 1 = true) (hr : s.isRemote x needW = true) :
    nibbleForm i high s = .next ((s.sendNibble x high (y.toNat % 16)).retire i) := by
  simp [nibbleForm, hv, hx, hr]

variable {lc : Nat} (ha : s.agent = .core lc)
include ha

theorem nibbleNear_beyond (hx : 0x60000 < x.toNat + 1) : nibbleNear i high s = .next (s.trap ADDRESS x) := by
  simp only [nibbleNear, State.run_go _ _ _ _ hv, ha]
  exact congrArg _ (if_pos hx)

theorem nibbleNear_failed (hx : x.toNat + 1 ≤ 0x60000) (hb : s.badCellarAt (cellarKey lc x.toNat) = true) :
    nibbleNear i high s = .next (s.trap DATA x) := by
  simp only [nibbleNear, State.run_go _ _ _ _ hv, ha]
  exact congrArg _ ((if_neg (Nat.not_lt.mpr hx)).trans (if_pos hb))

theorem nibbleNear_writes (hx : x.toNat + 1 ≤ 0x60000) (hb : s.badCellarAt (cellarKey lc x.toNat) = false) :
    nibbleNear i high s = .next ((s.writeCellar [cellarKey lc x.toNat]
      [BitVec.ofNat 8 (withNibble high (y.toNat % 16) (s.readCellar [cellarKey lc x.toNat]))]).retire i) := by
  simp only [nibbleNear, State.run_go _ _ _ _ hv, ha]
  exact congrArg _ ((if_neg (Nat.not_lt.mpr hx)).trans (if_neg (Bool.not_eq_true _ ▸ hb)))

end

theorem withNibble_low (x old : Nat) : withNibble false (x % 16) old = old / 16 * 16 + x % 16 := by
  simp [withNibble]

theorem withNibble_high (x old : Nat) : withNibble true (x % 16) old = x % 16 * 16 + old % 16 := by
  simp [withNibble]

/-! ### The statement -/

/-- Settles O18: a block move by the law of its element's next access, a nibble store by the law of its form at either half. -/
theorem blockMoveResults : Obligations.BlockMoveResults := by
  refine ⟨fun s s1 d a b x y n c e u => ⟨fun hv => ?bmov, fun hv => ?bset, fun hv => ?bcmp, State.run_go _ _ _ _⟩,
    fun s a b x y hx hr => ?atomic, fun s a b x y hx hr => ?sent, fun s lc a b x y ha => ⟨fun hv => ?low, fun hv => ?high⟩⟩
  case bmov => exact ⟨exec_bmov_empty hv, exec_bmov_loads hv, exec_bmov_stores hv, exec_bmov_traps hv⟩
  case bset => exact ⟨exec_bset_empty hv, exec_bset_stores hv⟩
  case bcmp => exact ⟨exec_bcmp_empty hv, exec_bcmp_loads hv, exec_bcmp_compares hv⟩
  case atomic => exact ⟨fun hv => nibbleForm_follows false hv hx hr, fun hv => nibbleForm_follows true hv hx hr⟩
  case sent => exact ⟨fun hv => nibbleForm_sends false hv hx hr, fun hv => nibbleForm_sends true hv hx hr⟩
  case low =>
    refine ⟨nibbleNear_beyond false hv ha, nibbleNear_failed false hv ha, fun hle hb => ?_⟩
    rw [← withNibble_low]
    exact nibbleNear_writes false hv ha hle hb
  case high =>
    refine ⟨nibbleNear_beyond true hv ha, nibbleNear_failed true hv ha, fun hle hb => ?_⟩
    rw [← withNibble_high]
    exact nibbleNear_writes true hv ha hle hb

end Sys2Proof.Machine
end


section
/-! PROOFS. The encoder, and that decoding undoes it (R269 to R287). -/

namespace Sys2Proof

/-! ### Codes of types and sizes (R280 to R282) -/

theorem FTy.code_lt (t : FTy) : t.code < 4 := by cases t <;> decide
theorem VTy.code_lt (t : VTy) : t.code < 7 := by cases t <;> decide
theorem ASz.code_lt (z : ASz) : z.code < 4 := by cases z <;> decide

theorem FTy.ofCode_code (t : FTy) : FTy.ofCode t.code = t := by cases t <;> rfl
theorem VTy.ofCode_code (t : VTy) : VTy.ofCode t.code = some t := by cases t <;> rfl

theorem FTy.code_ofCode {n : Nat} (h : n < 4) : (FTy.ofCode n).code = n := by
  interval_cases n <;> rfl

theorem VTy.code_of_ofCode {n : Nat} {t : VTy} (h : VTy.ofCode n = some t) : t.code = n := by
  unfold VTy.ofCode at h
  split at h <;> cases h <;> rfl

/-! ### The fields of a word of each format (R269) -/

theorem encA_eq_some {op fn w : Nat} {d a b : Reg} (hop : op < 64) (hfn : fn < 2048) : encA op d a b fn = some w ↔
    w < 2 ^ 32 ∧ w / 2 ^ 26 % 64 = op ∧ regField w 21 = d ∧ regField w 16 = a ∧ regField w 11 = b ∧ w % 2048 = fn := by
  simp only [encA, Option.some.injEq, regField, Fin.ext_iff]
  omega

theorem encI_eq_some {op w : Nat} {d a : Reg} {imm : BitVec 16} (hop : op < 64) : encI op d a imm.toNat = some w ↔
    w < 2 ^ 32 ∧ w / 2 ^ 26 % 64 = op ∧ regField w 21 = d ∧ regField w 16 = a ∧ BitVec.ofNat 16 w = imm := by
  have hi := imm.isLt
  simp only [encI, Option.some.injEq, regField, Fin.ext_iff, ← BitVec.toNat_inj, BitVec.toNat_ofNat]
  omega

/-- A shift by a constant has six bits of its immediate, and ten that are 0. -/
theorem encI_shift_eq_some {op w : Nat} {d a : Reg} {n : BitVec 6} (hop : op < 64) : encI op d a n.toNat = some w ↔
    w < 2 ^ 32 ∧ w / 2 ^ 26 % 64 = op ∧ regField w 21 = d ∧ regField w 16 = a ∧ w / 64 % 1024 = 0 ∧ BitVec.ofNat 6 w = n := by
  have hi := n.isLt
  simp only [encI, Option.some.injEq, regField, Fin.ext_iff, ← BitVec.toNat_inj, BitVec.toNat_ofNat]
  omega

/-- The value of `lui` and `lhi` lies over the place of the second register. -/
theorem encI_upper_eq_some {op w : Nat} {d : Reg} {imm : BitVec 21} (hop : op < 64) : encI op d 0 imm.toNat = some w ↔
    w < 2 ^ 32 ∧ w / 2 ^ 26 % 64 = op ∧ regField w 21 = d ∧ BitVec.ofNat 21 w = imm := by
  have hi := imm.isLt
  simp only [encI, Option.some.injEq, regField, Fin.ext_iff, ← BitVec.toNat_inj, BitVec.toNat_ofNat, Fin.val_zero]
  omega

theorem encI_lco_eq_some {op w : Nat} {d : Reg} {imm : BitVec 19} (hop : op < 64) : encI op d 0 imm.toNat = some w ↔
    w < 2 ^ 32 ∧ w / 2 ^ 26 % 64 = op ∧ regField w 21 = d ∧ w / 2 ^ 19 % 4 = 0 ∧ BitVec.ofNat 19 w = imm := by
  have hi := imm.isLt
  simp only [encI, Option.some.injEq, regField, Fin.ext_iff, ← BitVec.toNat_inj, BitVec.toNat_ofNat, Fin.val_zero]
  omega

/-- A jump's offset lies over the places of both registers. -/
theorem encI_jump_eq_some {op w : Nat} {o : BitVec 26} (hop : op < 64) : encI op 0 0 o.toNat = some w ↔
    w < 2 ^ 32 ∧ w / 2 ^ 26 % 64 = op ∧ BitVec.ofNat 26 w = o := by
  have hi := o.isLt
  simp only [encI, Option.some.injEq, ← BitVec.toNat_inj, BitVec.toNat_ofNat, Fin.val_zero]
  omega

theorem encV_eq_some {op fn w : Nat} {d a b : Fin 16} {m : Reg} {k : Bool} (hop : op < 64) (hfn : fn < 256) :
    encV op d a b m k fn = some w ↔ w < 2 ^ 32 ∧ w / 2 ^ 26 % 64 = op ∧ nibField w 22 = d ∧ nibField w 18 = a ∧
      nibField w 14 = b ∧ regField w 9 = m ∧ w / 256 % 2 = k.toNat ∧ w % 256 = fn := by
  have hk := k.toNat_lt
  simp only [encV, Option.some.injEq, regField, nibField, Fin.ext_iff]
  omega

theorem encE_eq_some {eng fn d w : Nat} {a b : Reg} (he : eng < 8) (hfn : fn < 256) (hd : d < 32) :
    encE eng fn a b d = some w ↔ w < 2 ^ 32 ∧ w / 2 ^ 26 % 64 = 0x3C ∧ w / 2 ^ 23 % 8 = eng ∧ w / 2 ^ 15 % 256 = fn ∧
      regField w 10 = a ∧ regField w 5 = b ∧ w % 32 = d := by
  simp only [encE, Option.some.injEq, regField, Fin.ext_iff]
  omega

theorem encS_eq_some {op sys fn w : Nat} {d a : Reg} (hop : op < 64) (hs : sys < 4096) (hfn : fn < 16) :
    encS op d a sys fn = some w ↔ w < 2 ^ 32 ∧ w / 2 ^ 26 % 64 = op ∧ regField w 21 = d ∧ regField w 16 = a ∧
      w / 16 % 4096 = sys ∧ w % 16 = fn := by
  simp only [encS, Option.some.injEq, regField, Fin.ext_iff]
  omega

/-- The word of `fcvt` holds the code of its source type in place of a second register. -/
theorem encode_fcvt_eq_some {w : Nat} {t u : FTy} {d a : Reg} : encode (.fcvt t u d a) = some w ↔
    w < 2 ^ 32 ∧ w / 2 ^ 26 % 64 = 0x2E ∧ regField w 21 = d ∧ regField w 16 = a ∧ (regField w 11).val = u.code ∧
      w % 2048 = 64 + t.code := by
  have ht := t.code_lt
  have hu := u.code_lt
  change some (0x2E * 2 ^ 26 + d.val * 2 ^ 21 + a.val * 2 ^ 16 + u.code * 2 ^ 11 + (64 + t.code)) = some w ↔ _
  simp only [Option.some.injEq, regField, Fin.ext_iff]
  omega

/-! ### What the function code of a group says of the operation and the type -/

theorem fp_fields {w f : Nat} {t : FTy} (h : w % 2048 = f + t.code) (hf : f % 4 = 0) :
    w / 4 % 512 = f / 4 ∧ FTy.ofCode (w % 4) = t := by
  have ht := t.code_lt
  rw [show w % 4 = t.code by omega, FTy.ofCode_code]
  exact ⟨by omega, rfl⟩

theorem fp_code {w k : Nat} (h : w / 4 % 512 = k) : w % 2048 = 4 * k + (FTy.ofCode (w % 4)).code := by
  rw [FTy.code_ofCode (Nat.mod_lt _ (by decide))]
  omega

theorem valu_fields {w f : Nat} {t : VTy} (h : w % 256 = f + t.code) (hf : f % 8 = 0) :
    w / 8 % 32 = f / 8 ∧ VTy.ofCode (w % 8) = some t := by
  have ht := t.code_lt
  rw [show w % 8 = t.code by omega, VTy.ofCode_code]
  exact ⟨by omega, rfl⟩

theorem valu_code {w k : Nat} {t : VTy} (h : w / 8 % 32 = k) (ht : VTy.ofCode (w % 8) = some t) : w % 256 = 8 * k + t.code := by
  have := VTy.code_of_ofCode ht
  omega

theorem tag_fields {w f t : Nat} (h : w % 256 = f + t) (hf : f % 16 = 0) (ht : t < 16) : w / 16 % 16 = f / 16 ∧ w % 16 = t := by
  omega

theorem tag_code {w k : Nat} (h : w / 16 % 16 = k) : w % 256 = 16 * k + w % 16 := by omega

theorem red_code {w k : Nat} {t : VTy} (h : w / 16 % 16 = k) (h0 : w % 16 ≠ 0) (ht : VTy.ofCode (w % 16 - 1) = some t) :
    w % 256 = 16 * k + 1 + t.code := by
  have := VTy.code_of_ofCode ht
  omega

theorem toNat_beq_one (k : Bool) : (k.toNat == 1) = k := by cases k <;> rfl

theorem toNat_mod_two_beq_one (n : Nat) : (n % 2 == 1).toNat = n % 2 := by
  obtain h | h := Nat.mod_two_eq_zero_or_one n <;> simp [h]

/-! ### The major opcodes of the groups (R274) -/

section
variable {w : Nat}

theorem decodeWord_alu (h : w / 2 ^ 26 % 64 = 0x01) : decodeWord w = decodeAlu w := by rw [decodeWord, h]; rfl
theorem decodeWord_memx (h : w / 2 ^ 26 % 64 = 0x2C) : decodeWord w = decodeMemx w := by rw [decodeWord, h]; rfl
theorem decodeWord_atom (h : w / 2 ^ 26 % 64 = 0x2D) : decodeWord w = decodeAtom w := by rw [decodeWord, h]; rfl
theorem decodeWord_fp (h : w / 2 ^ 26 % 64 = 0x2E) : decodeWord w = decodeFp w := by rw [decodeWord, h]; rfl
theorem decodeWord_valu (h : w / 2 ^ 26 % 64 = 0x1C) : decodeWord w = decodeValu w := by rw [decodeWord, h]; rfl
theorem decodeWord_vmem (h : w / 2 ^ 26 % 64 = 0x1D) : decodeWord w = decodeVmem w := by rw [decodeWord, h]; rfl
theorem decodeWord_vmisc (h : w / 2 ^ 26 % 64 = 0x1E) : decodeWord w = decodeVmisc w := by rw [decodeWord, h]; rfl
theorem decodeWord_eng (h : w / 2 ^ 26 % 64 = 0x3C) : decodeWord w = decodeEng w := by rw [decodeWord, h]; rfl
theorem decodeWord_task (h : w / 2 ^ 26 % 64 = 0x3D) : decodeWord w = decodeTask w := by rw [decodeWord, h]; rfl
theorem decodeWord_sys (h : w / 2 ^ 26 % 64 = 0x3E) : decodeWord w = decodeSys w := by rw [decodeWord, h]; rfl

end

end Sys2Proof
end


section
/-! PROOFS. A word that decodes is the word of a well-formed instruction (R269, R276). -/

namespace Sys2Proof

/-! ### What an answer of the decoder means -/

/-- An instruction that the decoder answers is well formed and has the word w. -/
def Sound (w : Nat) (r : Except DecodeError Instr) : Prop :=
  ∀ i, r = .ok i → WellFormed i = true ∧ encode i = some w

section
variable {w : Nat} {i : Instr} {r : Except DecodeError Instr}

theorem sound_ok (hwf : WellFormed i = true) (h : encode i = some w) : Sound w (.ok i) := by
  rintro _ ⟨⟩; exact ⟨hwf, h⟩

theorem sound_error {e : DecodeError} : Sound w (.error e) := nofun

theorem sound_zeroThen {x : Nat} (h : x = 0 → Sound w r) : Sound w (zeroThen x r) := by
  unfold zeroThen
  split
  · next hx => exact h hx
  · exact sound_error

theorem sound_admitted (h : encode i = some w) : Sound w (admitted i) := by
  unfold admitted
  split
  · next hwf => exact sound_ok hwf h
  · exact sound_error

theorem sound_typed {t : Option VTy} {f : VTy → Instr} (h : ∀ ty, t = some ty → encode (f ty) = some w) :
    Sound w (typed t f) := by
  unfold typed
  split
  · exact sound_error
  · next ty =>
    split
    · next hwf => exact sound_ok hwf (h ty rfl)
    · exact sound_error

end

/-! ### Each group -/

section
variable {w : Nat} (hw : w < 2 ^ 32)
include hw

theorem sound_decodeAlu (hop : w / 2 ^ 26 % 64 = 0x01) : Sound w (decodeAlu w) := by
  unfold decodeAlu
  split
  iterate 40 next hf => exact sound_ok rfl ((encA_eq_some (by decide) (by decide)).2 ⟨hw, hop, rfl, rfl, rfl, hf⟩)
  iterate 11 next hf =>
    exact sound_zeroThen fun hb =>
      sound_ok rfl ((encA_eq_some (by decide) (by decide)).2 ⟨hw, hop, rfl, rfl, Fin.ext hb, hf⟩)
  exact sound_error

theorem sound_decodeMemx (hop : w / 2 ^ 26 % 64 = 0x2C) : Sound w (decodeMemx w) := by
  unfold decodeMemx
  split
  iterate 3 next hf => exact sound_admitted ((encA_eq_some (by decide) (by decide)).2 ⟨hw, hop, rfl, rfl, rfl, hf⟩)
  · next hf =>
    exact sound_zeroThen fun h => sound_ok rfl ((encA_eq_some (by decide) (by decide)).2
      ⟨hw, hop, Fin.ext (Nat.add_eq_zero_iff.1 h).1, rfl, Fin.ext (Nat.add_eq_zero_iff.1 h).2, hf⟩)
  iterate 4 next hf =>
    exact sound_zeroThen fun hd =>
      sound_ok rfl ((encA_eq_some (by decide) (by decide)).2 ⟨hw, hop, Fin.ext hd, rfl, rfl, hf⟩)
  exact sound_error

theorem sound_decodeAtom (hop : w / 2 ^ 26 % 64 = 0x2D) : Sound w (decodeAtom w) := by
  unfold decodeAtom
  split
  iterate 22 next hf => exact sound_ok rfl ((encA_eq_some (by decide) (by decide)).2 ⟨hw, hop, rfl, rfl, rfl, hf⟩)
  iterate 4 next hf =>
    exact sound_zeroThen fun hd =>
      sound_ok rfl ((encA_eq_some (by decide) (by decide)).2 ⟨hw, hop, Fin.ext hd, rfl, rfl, hf⟩)
  · next hf =>
    exact sound_zeroThen fun hb =>
      sound_ok rfl ((encA_eq_some (by decide) (by decide)).2 ⟨hw, hop, rfl, rfl, Fin.ext hb, hf⟩)
  · exact sound_error

/-- A form of the FP group, its second register as the group's table gives it. -/
theorem encA_fp {k : Nat} {b : Reg} (hop : w / 2 ^ 26 % 64 = 0x2E) (hk : w / 4 % 512 = k) (hb : regField w 11 = b) :
    encA 0x2E (regField w 21) (regField w 16) b (4 * k + (FTy.ofCode (w % 4)).code) = some w :=
  (encA_eq_some (by decide) (by rw [← fp_code hk]; exact Nat.mod_lt _ (by decide))).2 ⟨hw, hop, rfl, rfl, hb, fp_code hk⟩

theorem sound_decodeFp (hop : w / 2 ^ 26 % 64 = 0x2E) : Sound w (decodeFp w) := by
  unfold decodeFp
  split
  case h_5 hk | h_12 hk | h_13 hk | h_14 hk | h_15 hk | h_16 hk =>
    exact sound_zeroThen fun hb => sound_ok rfl (encA_fp hw hop hk (Fin.ext hb))
  case h_17 hk =>
    dsimp only
    split
    · next hb =>
      exact sound_admitted (encode_fcvt_eq_some.2 ⟨hw, hop, rfl, rfl, (FTy.code_ofCode hb).symm, fp_code hk⟩)
    · exact sound_error
  case h_18 => exact sound_error
  all_goals next hk => exact sound_ok rfl (encA_fp hw hop hk rfl)

/-- A form of the VALU group, its first two registers as the group's table gives them. -/
theorem encV_valu {k : Nat} {t : VTy} {d b : Fin 16} (hop : w / 2 ^ 26 % 64 = 0x1C) (hk : w / 8 % 32 = k)
    (ht : VTy.ofCode (w % 8) = some t) (hd : nibField w 22 = d) (hb : nibField w 14 = b) :
    encV 0x1C d (nibField w 18) b (regField w 9) (w / 256 % 2 == 1) (8 * k + t.code) = some w :=
  (encV_eq_some (by decide) (by rw [← valu_code hk ht]; exact Nat.mod_lt _ (by decide))).2
    ⟨hw, hop, hd, rfl, hb, rfl, (toNat_mod_two_beq_one _).symm, valu_code hk ht⟩

theorem sound_decodeValu (hop : w / 2 ^ 26 % 64 = 0x1C) : Sound w (decodeValu w) := by
  unfold decodeValu
  split
  iterate 19 next hk => exact sound_typed fun ty ht => encV_valu hw hop hk ht rfl rfl
  iterate 7 next hk => exact sound_zeroThen fun hb => sound_typed fun ty ht => encV_valu hw hop hk ht rfl (Fin.ext hb)
  iterate 5 next hk => exact sound_zeroThen fun hd => sound_typed fun ty ht => encV_valu hw hop hk ht (Fin.ext hd) rfl
  · simp only [imp_false] at *
    exact sound_zeroThen fun hd => sound_typed fun ty ht => encV_valu hw hop (k := 31) (by omega) ht (Fin.ext hd) rfl

/-- A form of the VMEM group, its third field as the group's table gives it. -/
theorem encV_vmem {k : Nat} {b : Fin 16} (hop : w / 2 ^ 26 % 64 = 0x1D) (hk : w / 16 % 16 = k) (h0 : w / 256 % 2 = 0)
    (hb : nibField w 14 = b) :
    encV 0x1D (nibField w 22) (nibField w 18) b (regField w 9) false (16 * k + (nibField w 0).val) = some w := by
  have ht : (nibField w 0).val = w % 16 := by simp [nibField]
  exact (encV_eq_some (by decide) (by omega)).2 ⟨hw, hop, rfl, rfl, hb, rfl, h0, by rw [ht]; exact tag_code hk⟩

theorem sound_decodeVmem (hop : w / 2 ^ 26 % 64 = 0x1D) : Sound w (decodeVmem w) := by
  unfold decodeVmem
  refine sound_zeroThen fun h0 => ?_
  split
  case h_1 hk | h_4 hk | h_7 hk | h_10 hk =>
    exact sound_zeroThen fun hb => sound_admitted (encV_vmem hw hop hk h0 (Fin.ext hb))
  case h_13 => exact sound_error
  all_goals next hk => exact sound_admitted (encV_vmem hw hop hk h0 rfl)

/-- A form of the VMISC group with function code 16 k + t. -/
theorem encV_vmisc {k t : Nat} {d a b : Fin 16} {m : Reg} {keep : Bool} (hop : w / 2 ^ 26 % 64 = 0x1E)
    (hk : w / 16 % 16 = k) (ht : w % 16 = t) (hd : nibField w 22 = d) (ha : nibField w 18 = a) (hb : nibField w 14 = b)
    (hm : regField w 9 = m) (hkeep : w / 256 % 2 = keep.toNat) : encV 0x1E d a b m keep (16 * k + t) = some w := by
  exact (encV_eq_some (by decide) (by omega)).2 ⟨hw, hop, hd, ha, hb, hm, hkeep, by omega⟩

theorem sound_vred {k : Nat} {f : VTy → Instr} (hop : w / 2 ^ 26 % 64 = 0x1E) (hk : w / 16 % 16 = k)
    (hf : ∀ ty, encode (f ty) = encV 0x1E (nibField w 22) (nibField w 18) 0 (regField w 9) (w / 256 % 2 == 1) (16 * k + 1 + ty.code)) :
    Sound w (if w % 16 = 0 then .error .function else zeroThen (nibField w 14).val (typed (VTy.ofCode (w % 16 - 1)) f)) := by
  split
  · exact sound_error
  · next h0 =>
    refine sound_zeroThen fun hb => sound_typed fun ty ht => ?_
    have hfn := red_code hk h0 ht
    rw [hf, hfn.symm]
    exact (encV_eq_some (by decide) (Nat.mod_lt _ (by decide))).2
      ⟨hw, hop, rfl, rfl, Fin.ext hb, rfl, (toNat_mod_two_beq_one _).symm, rfl⟩

theorem sound_decodeVmisc (hop : w / 2 ^ 26 % 64 = 0x1E) : Sound w (decodeVmisc w) := by
  have keep := (toNat_mod_two_beq_one (w / 256)).symm
  have tag : w % 16 = (nibField w 0).val := by simp [nibField]
  unfold decodeVmisc
  split
  case h_1 hk =>
    dsimp only
    split
    case h_1 hf => exact sound_zeroThen fun hb => sound_ok rfl (encV_vmisc hw hop hk hf rfl rfl (Fin.ext hb) rfl keep)
    case h_2 hf => exact sound_ok rfl (encV_vmisc hw hop hk hf rfl rfl rfl rfl keep)
    case h_3 hf | h_4 hf => exact sound_zeroThen fun hm => sound_ok rfl (encV_vmisc hw hop hk hf rfl rfl rfl (Fin.ext hm) keep)
    case h_5 hf | h_6 hf => exact sound_zeroThen fun hb => sound_ok rfl (encV_vmisc hw hop hk hf rfl rfl (Fin.ext hb) rfl keep)
    case h_7 hf => exact sound_zeroThen fun hd => sound_ok rfl (encV_vmisc hw hop hk hf (Fin.ext hd) rfl rfl rfl keep)
    case h_8 hf =>
      refine sound_zeroThen fun h => ?_
      obtain ⟨ha, h0⟩ := Nat.add_eq_zero_iff.1 h
      exact sound_ok rfl (encV_vmisc hw hop hk hf rfl (Fin.ext ha) rfl rfl h0)
    case h_9 hf =>
      refine sound_zeroThen fun h => ?_
      simp only [Nat.add_eq_zero_iff] at h
      obtain ⟨⟨⟨ha, hb⟩, hm⟩, h0⟩ := h
      exact sound_ok rfl (encV_vmisc hw hop hk hf rfl (Fin.ext ha) (Fin.ext hb) (Fin.ext hm) h0)
    case h_10 => exact sound_error
  case h_2 hk =>
    refine sound_zeroThen fun h => ?_
    simp only [Nat.add_eq_zero_iff] at h
    obtain ⟨⟨ha, hb⟩, h0⟩ := h
    exact sound_admitted (encV_vmisc hw hop hk tag rfl (Fin.ext ha) (Fin.ext hb) rfl h0)
  case h_3 hk | h_4 hk | h_5 hk => exact sound_vred hw hop hk fun _ => rfl
  case h_6 hk => exact sound_admitted (encV_vmisc hw hop hk tag rfl rfl rfl rfl keep)
  case h_7 hk =>
    dsimp only
    split
    · exact sound_error
    · refine sound_zeroThen fun h => ?_
      obtain ⟨hb, hm⟩ := Nat.add_eq_zero_iff.1 h
      exact sound_ok rfl ((encV_eq_some (by decide) (by omega)).2
        ⟨hw, hop, rfl, rfl, Fin.ext hb, Fin.ext hm, keep, by dsimp only; omega⟩)
  case h_8 hk =>
    dsimp only
    split
    · exact sound_error
    · exact sound_zeroThen fun hm => sound_ok rfl ((encV_eq_some (by decide) (by omega)).2
        ⟨hw, hop, rfl, rfl, rfl, Fin.ext hm, keep, by dsimp only; omega⟩)
  case h_9 hk =>
    refine sound_zeroThen fun h => ?_
    simp only [Nat.add_eq_zero_iff] at h
    obtain ⟨⟨⟨ha, hb⟩, hm⟩, h0⟩ := h
    exact sound_ok rfl (encV_vmisc hw hop hk tag rfl (Fin.ext ha) (Fin.ext hb) (Fin.ext hm) h0)
  case h_10 hk =>
    dsimp only
    split
    · next ht =>
      refine sound_zeroThen fun h => ?_
      simp only [Nat.add_eq_zero_iff] at h
      obtain ⟨⟨ha, hb⟩, h0⟩ := h
      exact sound_ok rfl (encV_vmisc hw hop hk ht rfl (Fin.ext ha) (Fin.ext hb) rfl h0)
    · exact sound_error
  case h_11 => exact sound_error

end

end Sys2Proof
end


section
/-! PROOFS. A word that decodes is the word of a well-formed instruction: the ENG, TASK and SYS groups, and the opcodes. -/

namespace Sys2Proof

section
variable {w : Nat} (hw : w < 2 ^ 32)
include hw

/-- A form of the ENG group, its last field as the group's table gives it. -/
theorem encE_eng {eng fn : Nat} {b : Reg} {d : Nat} (hop : w / 2 ^ 26 % 64 = 0x3C) (he : w / 2 ^ 23 % 8 = eng)
    (hf : w / 2 ^ 15 % 256 = fn) (hb : regField w 5 = b) (hd : (regField w 0).val = d) :
    encE eng fn (regField w 10) b d = some w := by
  have h0 : w % 32 = d := by simpa [regField] using hd
  exact (encE_eq_some (by omega) (by omega) (by omega)).2 ⟨hw, hop, he, hf, rfl, hb, h0⟩

theorem sound_decodeEng (hop : w / 2 ^ 26 % 64 = 0x3C) : Sound w (decodeEng w) := by
  have stream : 28 ≤ (regField w 0).val → (regField w 0).val = 28 + w % 4 := by simp only [regField]; omega
  unfold decodeEng
  split
  case h_3 he hf | h_4 he hf =>
    dsimp only
    split
    · next hd => exact sound_ok rfl (encE_eng hw hop he hf rfl (stream hd))
    · exact sound_error
  case h_7 he hf | h_8 he hf | h_13 he hf =>
    refine sound_zeroThen fun h => ?_
    obtain ⟨hb, hd⟩ := Nat.add_eq_zero_iff.1 h
    exact sound_ok rfl (encE_eng hw hop he hf (Fin.ext hb) hd)
  case h_14 => exact sound_error
  all_goals next he hf => exact sound_zeroThen fun hd => sound_ok rfl (encE_eng hw hop he hf rfl hd)

/-- A form of the TASK or of the SYS group. -/
theorem encS_sys {op sys fn : Nat} {d a : Reg} (hop : w / 2 ^ 26 % 64 = op) (hd : regField w 21 = d) (ha : regField w 16 = a)
    (hs : w / 16 % 4096 = sys) (hf : w % 16 = fn) : encS op d a sys fn = some w :=
  (encS_eq_some (by omega) (by omega) (by omega)).2 ⟨hw, hop, hd, ha, hs, hf⟩

theorem sound_decodeTask (hop : w / 2 ^ 26 % 64 = 0x3D) : Sound w (decodeTask w) := by
  have low : (nibField w 4).val = w / 16 % 16 := rfl
  have reg : (regField w 4).val = w / 16 % 32 := rfl
  unfold decodeTask
  split
  case h_9 hf =>
    dsimp only
    split
    · exact sound_zeroThen fun h => sound_ok rfl (encS_sys hw hop rfl rfl (by dsimp only; omega) hf)
    · exact sound_zeroThen fun h => sound_ok rfl (encS_sys hw hop rfl rfl (by dsimp only; omega) hf)
  case h_10 hf =>
    refine sound_zeroThen fun ha => ?_
    split
    case h_4 => exact sound_error
    all_goals next hs => exact sound_ok rfl (encS_sys hw hop rfl (Fin.ext ha) hs hf)
  case h_13 => exact sound_error
  case h_7 hf => exact sound_ok rfl (encS_sys hw hop rfl rfl (by dsimp only; omega) hf)
  case h_6 hf | h_8 hf => exact sound_zeroThen fun h => sound_ok rfl (encS_sys hw hop rfl rfl (by omega) hf)
  case h_1 hf | h_5 hf =>
    refine sound_zeroThen fun h => ?_
    simp only [Nat.add_eq_zero_iff] at h
    obtain ⟨hd, hs⟩ := h
    exact sound_ok rfl (encS_sys hw hop (Fin.ext hd) rfl hs hf)
  case h_12 hf =>
    refine sound_zeroThen fun h => ?_
    simp only [Nat.add_eq_zero_iff] at h
    obtain ⟨⟨hd, ha⟩, hs⟩ := h
    exact sound_ok rfl (encS_sys hw hop (Fin.ext hd) (Fin.ext ha) (by dsimp only; omega) hf)
  all_goals
    next hf =>
    refine sound_zeroThen fun h => ?_
    simp only [Nat.add_eq_zero_iff] at h
    obtain ⟨⟨hd, ha⟩, hs⟩ := h
    exact sound_ok rfl (encS_sys hw hop (Fin.ext hd) (Fin.ext ha) (by omega) hf)

theorem sound_decodeSys (hop : w / 2 ^ 26 % 64 = 0x3E) : Sound w (decodeSys w) := by
  have low : (nibField w 4).val = w / 16 % 16 := rfl
  have reg : (BitVec.ofNat 12 (w / 16 % 4096)).toNat = w / 16 % 4096 := by simp
  unfold decodeSys
  split
  case h_1 hf => exact sound_zeroThen fun ha => sound_ok rfl (encS_sys hw hop rfl (Fin.ext ha) reg.symm hf)
  case h_2 hf => exact sound_zeroThen fun hd => sound_ok rfl (encS_sys hw hop (Fin.ext hd) rfl reg.symm hf)
  case h_9 => exact sound_error
  case h_3 hf =>
    refine sound_zeroThen fun h => ?_
    simp only [Nat.add_eq_zero_iff] at h
    obtain ⟨⟨hd, ha⟩, hs⟩ := h
    split
    · exact sound_ok rfl (encS_sys hw hop (Fin.ext hd) (Fin.ext ha) (by omega) hf)
    · exact sound_zeroThen fun h0 => sound_ok rfl (encS_sys hw hop (Fin.ext hd) (Fin.ext ha) (by omega) hf)
  case h_5 hf | h_6 hf =>
    refine sound_zeroThen fun h => ?_
    obtain ⟨hd, ha⟩ := Nat.add_eq_zero_iff.1 h
    exact sound_ok rfl (encS_sys hw hop (Fin.ext hd) (Fin.ext ha) reg.symm hf)
  case h_8 hf =>
    refine sound_zeroThen fun h => ?_
    obtain ⟨hd, hs⟩ := Nat.add_eq_zero_iff.1 h
    exact sound_ok rfl (encS_sys hw hop (Fin.ext hd) rfl (by omega) hf)
  all_goals
    next hf =>
    refine sound_zeroThen fun h => ?_
    simp only [Nat.add_eq_zero_iff] at h
    obtain ⟨⟨hd, ha⟩, hs⟩ := h
    exact sound_ok rfl (encS_sys hw hop (Fin.ext hd) (Fin.ext ha) hs hf)

/-! ### Every word -/

/-- The major opcode says which group or which form a word has (R274, R277). -/
theorem sound_decodeWord : Sound w (decodeWord w) := by
  unfold decodeWord
  split
  case h_1 hop => exact sound_decodeAlu hw hop
  case h_8 hop | h_9 hop | h_10 hop =>
    exact sound_zeroThen fun h0 => sound_ok rfl ((encI_shift_eq_some (by decide)).2 ⟨hw, hop, rfl, rfl, h0, rfl⟩)
  case h_11 hop | h_12 hop => exact sound_ok rfl ((encI_upper_eq_some (by decide)).2 ⟨hw, hop, rfl, rfl⟩)
  case h_13 hop => exact sound_zeroThen fun h0 => sound_ok rfl ((encI_lco_eq_some (by decide)).2 ⟨hw, hop, rfl, h0, rfl⟩)
  case h_14 hop | h_15 hop => exact sound_ok rfl ((encI_jump_eq_some (by decide)).2 ⟨hw, hop, rfl⟩)
  case h_23 hop => exact sound_decodeValu hw hop
  case h_24 hop => exact sound_decodeVmem hw hop
  case h_25 hop => exact sound_decodeVmisc hw hop
  case h_37 hop => exact sound_decodeMemx hw hop
  case h_38 hop => exact sound_decodeAtom hw hop
  case h_39 hop => exact sound_decodeFp hw hop
  case h_51 hop => exact sound_decodeEng hw hop
  case h_52 hop => exact sound_decodeTask hw hop
  case h_53 hop => exact sound_decodeSys hw hop
  case h_54 => exact sound_error
  all_goals next hop => exact sound_ok rfl ((encI_eq_some (by decide)).2 ⟨hw, hop, rfl, rfl, rfl⟩)

end

/-- Settles O2: every answer of the decoder is sound. -/
theorem wordHasOneMeaning : Obligations.WordHasOneMeaning :=
  fun i _ hw h => sound_decodeWord hw i h

end Sys2Proof
end


section
/-! PROOFS. Decoding the word of a well-formed instruction gives it back (R269 to R287). -/

namespace Sys2Proof

theorem low_nibbles {w fn : Nat} (h : w % 256 = fn) : w / 16 % 16 = fn / 16 ∧ w % 16 = fn % 16 := by omega

theorem red_fields {w f : Nat} {t : VTy} (h : w % 256 = f + t.code) (hf : f % 16 = 1) :
    w / 16 % 16 = f / 16 ∧ w % 16 = t.code + 1 := by
  have ht := t.code_lt
  omega

theorem typed_ok {t : Option VTy} {ty : VTy} {f : VTy → Instr} (ht : t = some ty) (h : WellFormed (f ty) = true) :
    typed t f = .ok (f ty) := by simp [typed, ht, h]

theorem zeroThen_typed_ok {x : Nat} {t : Option VTy} {ty : VTy} {f : VTy → Instr} (hx : x = 0) (ht : t = some ty)
    (h : WellFormed (f ty) = true) : zeroThen x (typed t f) = .ok (f ty) := by rw [hx]; exact typed_ok ht h

theorem admitted_ok {i : Instr} (h : WellFormed i = true) : admitted i = .ok i := by simp [admitted, h]

theorem nibField_zero {w : Nat} {t : Fin 16} (h : w % 16 = t.val) : nibField w 0 = t := by
  simp [nibField, h]

theorem regField_zero {w d : Nat} (h : w % 32 = d) : (regField w 0).val = d := by simpa [regField] using h

/-- Settles O1: the fields of a word of each format are the operands, and the decoder reads them back. -/
theorem decodeEncode : Obligations.DecodeEncode := by
  intro i w hwf h
  cases i
  case add | sub | and | or | xor | andn | orn | xnor | shl | shr | sra | rol | ror | lt | ltu | eq | ne | min | max |
      minu | maxu | adds | subs | addus | subus | mul | mulh | mulhu | div | divu | rem | remu | bpack | bpack2 |
      bpack4 | bpack8 | bunpk | bunpk2 | bunpk4 | bunpk8 =>
    obtain ⟨hw, hop, rfl, rfl, rfl, hf⟩ := (encA_eq_some (by decide) (by decide)).1 h
    exact ⟨hw, by rw [decodeWord_alu hop, decodeAlu, hf]; rfl⟩
  case clz | ctz | popc | brev | bswap | sextB | sextH | sextW | zextB | zextH | zextW =>
    obtain ⟨hw, hop, rfl, rfl, hb, hf⟩ := (encA_eq_some (by decide) (by decide)).1 h
    exact ⟨hw, by rw [decodeWord_alu hop, decodeAlu, hf, hb]; rfl⟩
  case addi | andi | ori | xori | lti | ltui | jalr | ldB | ldBu | ldH | ldHu | ldW | ldWu | ldD | stB | stH | stW |
      stD | lcB | lcBu | lcH | lcHu | lcW | lcWu | lcD | scB | scH | scW | scD | beq | bne | blt | bge | bltu | bgeu =>
    obtain ⟨hw, hop, rfl, rfl, rfl⟩ := (encI_eq_some (by decide)).1 h
    exact ⟨hw, by rw [decodeWord, hop]; rfl⟩
  case shli | shri | srai =>
    obtain ⟨hw, hop, rfl, rfl, h0, rfl⟩ := (encI_shift_eq_some (by decide)).1 h
    exact ⟨hw, by rw [decodeWord, hop, h0]; rfl⟩
  case lui | lhi =>
    obtain ⟨hw, hop, rfl, rfl⟩ := (encI_upper_eq_some (by decide)).1 h
    exact ⟨hw, by rw [decodeWord, hop]; rfl⟩
  case lco =>
    obtain ⟨hw, hop, rfl, h0, rfl⟩ := (encI_lco_eq_some (by decide)).1 h
    exact ⟨hw, by rw [decodeWord, hop, h0]; rfl⟩
  case j | jal =>
    obtain ⟨hw, hop, rfl⟩ := (encI_jump_eq_some (by decide)).1 h
    exact ⟨hw, by rw [decodeWord, hop]; rfl⟩
  case bmov | bset | bcmp =>
    obtain ⟨hw, hop, rfl, rfl, rfl, hf⟩ := (encA_eq_some (by decide) (by decide)).1 h
    exact ⟨hw, by rw [decodeWord_memx hop, decodeMemx, hf]; exact admitted_ok hwf⟩
  case pref =>
    obtain ⟨hw, hop, hd, rfl, hb, hf⟩ := (encA_eq_some (by decide) (by decide)).1 h
    exact ⟨hw, by rw [decodeWord_memx hop, decodeMemx, hf, hd, hb]; rfl⟩
  case stnl | stnh | scnl | scnh =>
    obtain ⟨hw, hop, hd, rfl, rfl, hf⟩ := (encA_eq_some (by decide) (by decide)).1 h
    exact ⟨hw, by rw [decodeWord_memx hop, decodeMemx, hf, hd]; rfl⟩
  case amoswap z _ _ _ | amoadd z _ _ _ | amoand z _ _ _ | amoor z _ _ _ | amoxor z _ _ _ | amomin z _ _ _ |
      amomax z _ _ _ | amominu z _ _ _ | amomaxu z _ _ _ | amocas z _ _ _ | amofadd z _ _ _ =>
    have hz := z.code_lt
    obtain ⟨hw, hop, rfl, rfl, rfl, hf⟩ := (encA_eq_some (by decide) (by omega)).1 h
    exact ⟨hw, by rw [decodeWord_atom hop, decodeAtom, hf]; cases z <;> rfl⟩
  case amodadd z _ _ | amodfadd z _ _ =>
    have hz := z.code_lt
    obtain ⟨hw, hop, hd, rfl, rfl, hf⟩ := (encA_eq_some (by decide) (by omega)).1 h
    exact ⟨hw, by rw [decodeWord_atom hop, decodeAtom, hf, hd]; cases z <;> rfl⟩
  case afl =>
    obtain ⟨hw, hop, rfl, rfl, hb, hf⟩ := (encA_eq_some (by decide) (by decide)).1 h
    exact ⟨hw, by rw [decodeWord_atom hop, decodeAtom, hf, hb]; rfl⟩
  case fadd t _ _ _ | fsub t _ _ _ | fmul t _ _ _ | fdiv t _ _ _ | fmin t _ _ _ | fmax t _ _ _ | fma t _ _ _ |
      feq t _ _ _ | flt t _ _ _ | fle t _ _ _ =>
    have ht := t.code_lt
    obtain ⟨hw, hop, rfl, rfl, rfl, hf⟩ := (encA_eq_some (by decide) (by omega)).1 h
    obtain ⟨hk, ht⟩ := fp_fields hf rfl
    exact ⟨hw, by rw [decodeWord_fp hop, decodeFp, hk, ht]; rfl⟩
  case fsqrt t _ _ | fclass t _ _ | ftoi t _ _ | ftoiu t _ _ | itof t _ _ | iutof t _ _ =>
    have ht := t.code_lt
    obtain ⟨hw, hop, rfl, rfl, hb, hf⟩ := (encA_eq_some (by decide) (by omega)).1 h
    obtain ⟨hk, ht⟩ := fp_fields hf rfl
    exact ⟨hw, by rw [decodeWord_fp hop, decodeFp, hk, ht, hb]; rfl⟩
  case fcvt t u _ _ =>
    obtain ⟨hw, hop, rfl, rfl, hb, hf⟩ := encode_fcvt_eq_some.1 h
    obtain ⟨hk, ht⟩ := fp_fields hf rfl
    refine ⟨hw, ?_⟩
    rw [decodeWord_fp hop, decodeFp, hk, ht, hb]
    rw [FTy.ofCode_code, if_pos u.code_lt, admitted_ok hwf]
    rfl
  case vadd t _ _ _ _ k | vsub t _ _ _ _ k | vmul t _ _ _ _ k | vmadd t _ _ _ _ k | vmin t _ _ _ _ k | vmax t _ _ _ _ k |
      vadds t _ _ _ _ k | vsubs t _ _ _ _ k | vaddus t _ _ _ _ k | vsubus t _ _ _ _ k | vminu t _ _ _ _ k |
      vmaxu t _ _ _ _ k | vand t _ _ _ _ k | vor t _ _ _ _ k | vxor t _ _ _ _ k | vshl t _ _ _ _ k | vshr t _ _ _ _ k |
      vsra t _ _ _ _ k | vdiv t _ _ _ _ k =>
    have ht := t.code_lt
    obtain ⟨hw, hop, rfl, rfl, rfl, rfl, hkeep, hf⟩ := (encV_eq_some (by decide) (by omega)).1 h
    obtain ⟨hk, ht⟩ := valu_fields hf rfl
    exact ⟨hw, by rw [decodeWord_valu hop, decodeValu, hk, ht, hkeep, toNat_beq_one]; exact typed_ok rfl hwf⟩
  case vabs t _ _ _ k | vsqrt t _ _ _ k | vrcp t _ _ _ k | vrsqrt t _ _ _ k | vexp2 t _ _ _ k | vlog2 t _ _ _ k |
      vtanh t _ _ _ k =>
    have ht := t.code_lt
    obtain ⟨hw, hop, rfl, rfl, hb, rfl, hkeep, hf⟩ := (encV_eq_some (by decide) (by omega)).1 h
    obtain ⟨hk, ht⟩ := valu_fields hf rfl
    exact ⟨hw, by rw [decodeWord_valu hop, decodeValu, hk, ht, hkeep, toNat_beq_one, hb]; exact zeroThen_typed_ok rfl rfl hwf⟩
  case vceq t _ _ _ k | vcne t _ _ _ k | vclt t _ _ _ k | vcle t _ _ _ k | vcltu t _ _ _ k | vcleu t _ _ _ k =>
    have ht := t.code_lt
    obtain ⟨hw, hop, hd, rfl, rfl, rfl, hkeep, hf⟩ := (encV_eq_some (by decide) (by omega)).1 h
    obtain ⟨hk, ht⟩ := valu_fields hf rfl
    exact ⟨hw, by rw [decodeWord_valu hop, decodeValu, hk, ht, hkeep, toNat_beq_one, hd]; exact zeroThen_typed_ok rfl rfl hwf⟩
  case vld t _ _ _ | vst t _ _ _ | vlc t _ _ _ | vsc t _ _ _ =>
    obtain ⟨hw, hop, rfl, rfl, hb, rfl, h0, hf⟩ := (encV_eq_some (by decide) (by omega)).1 h
    obtain ⟨hk, ht⟩ := tag_fields hf rfl t.isLt
    exact ⟨hw, by rw [decodeWord_vmem hop, decodeVmem, hk, nibField_zero ht, h0, hb]; exact admitted_ok hwf⟩
  case vlds t _ _ _ _ | vldx t _ _ _ _ | vsts t _ _ _ _ | vstx t _ _ _ _ | vlcs t _ _ _ _ | vlcx t _ _ _ _ |
      vscs t _ _ _ _ | vscx t _ _ _ _ =>
    obtain ⟨hw, hop, rfl, rfl, rfl, rfl, h0, hf⟩ := (encV_eq_some (by decide) (by omega)).1 h
    obtain ⟨hk, ht⟩ := tag_fields hf rfl t.isLt
    exact ⟨hw, by rw [decodeWord_vmem hop, decodeVmem, hk, nibField_zero ht, h0]; exact admitted_ok hwf⟩
  case vmv | vcmpr | vexpd =>
    obtain ⟨hw, hop, rfl, rfl, hb, rfl, hkeep, hf⟩ := (encV_eq_some (by decide) (by decide)).1 h
    obtain ⟨hk, ht⟩ := low_nibbles hf
    exact ⟨hw, by rw [decodeWord_vmisc hop, decodeVmisc, hk, ht, hkeep, toNat_beq_one, hb]; rfl⟩
  case vsel =>
    obtain ⟨hw, hop, rfl, rfl, rfl, rfl, hkeep, hf⟩ := (encV_eq_some (by decide) (by decide)).1 h
    obtain ⟨hk, ht⟩ := low_nibbles hf
    exact ⟨hw, by rw [decodeWord_vmisc hop, decodeVmisc, hk, ht, hkeep, toNat_beq_one]; rfl⟩
  case vperm | vslide =>
    obtain ⟨hw, hop, rfl, rfl, rfl, hm, hkeep, hf⟩ := (encV_eq_some (by decide) (by decide)).1 h
    obtain ⟨hk, ht⟩ := low_nibbles hf
    exact ⟨hw, by rw [decodeWord_vmisc hop, decodeVmisc, hk, ht, hkeep, toNat_beq_one, hm]; rfl⟩
  case vext =>
    obtain ⟨hw, hop, hd, rfl, rfl, rfl, hkeep, hf⟩ := (encV_eq_some (by decide) (by decide)).1 h
    obtain ⟨hk, ht⟩ := low_nibbles hf
    exact ⟨hw, by rw [decodeWord_vmisc hop, decodeVmisc, hk, ht, hkeep, toNat_beq_one, hd]; rfl⟩
  case vins =>
    obtain ⟨hw, hop, rfl, ha, rfl, rfl, hkeep, hf⟩ := (encV_eq_some (by decide) (by decide)).1 h
    obtain ⟨hk, ht⟩ := low_nibbles hf
    exact ⟨hw, by rw [decodeWord_vmisc hop, decodeVmisc, hk, ht, hkeep, ha]; rfl⟩
  case vzero =>
    obtain ⟨hw, hop, rfl, ha, hb, hm, hkeep, hf⟩ := (encV_eq_some (by decide) (by decide)).1 h
    obtain ⟨hk, ht⟩ := low_nibbles hf
    exact ⟨hw, by rw [decodeWord_vmisc hop, decodeVmisc, hk, ht, hkeep, ha, hb, hm]; rfl⟩
  case vbcs t _ _ =>
    obtain ⟨hw, hop, rfl, ha, hb, rfl, hkeep, hf⟩ := (encV_eq_some (by decide) (by omega)).1 h
    obtain ⟨hk, ht⟩ := tag_fields hf rfl t.isLt
    exact ⟨hw, by rw [decodeWord_vmisc hop, decodeVmisc, hk, nibField_zero ht, hkeep, ha, hb]; exact admitted_ok hwf⟩
  case vredsum t _ _ _ k | vredmin t _ _ _ k | vredmax t _ _ _ k =>
    have hc := t.code_lt
    obtain ⟨hw, hop, rfl, rfl, hb, rfl, hkeep, hf⟩ := (encV_eq_some (by decide) (by omega)).1 h
    obtain ⟨hk, ht⟩ := red_fields hf rfl
    refine ⟨hw, ?_⟩
    rw [decodeWord_vmisc hop, decodeVmisc, hk, ht, hkeep, toNat_beq_one, hb]
    exact (if_neg (Nat.succ_ne_zero _)).trans (zeroThen_typed_ok rfl (by rw [Nat.add_sub_cancel, VTy.ofCode_code]) hwf)
  case vcvt t _ _ _ _ =>
    obtain ⟨hw, hop, rfl, rfl, rfl, rfl, hkeep, hf⟩ := (encV_eq_some (by decide) (by omega)).1 h
    obtain ⟨hk, ht⟩ := tag_fields hf rfl t.isLt
    exact ⟨hw, by rw [decodeWord_vmisc hop, decodeVmisc, hk, nibField_zero ht, hkeep, toNat_beq_one]; exact admitted_ok hwf⟩
  case vbsc n _ _ k =>
    obtain ⟨hw, hop, rfl, rfl, hb, hm, hkeep, hf⟩ := (encV_eq_some (by decide) (by omega)).1 h
    refine ⟨hw, ?_⟩
    rw [decodeWord_vmisc hop, decodeVmisc, (show w / 16 % 16 = 6 by omega), hkeep, toNat_beq_one, hb, hm]
    exact (if_neg (by omega)).trans (congrArg _ (by simp [Fin.ext_iff]; omega))
  case vbsa n _ _ _ k =>
    obtain ⟨hw, hop, rfl, rfl, rfl, hm, hkeep, hf⟩ := (encV_eq_some (by decide) (by omega)).1 h
    refine ⟨hw, ?_⟩
    rw [decodeWord_vmisc hop, decodeVmisc, (show w / 16 % 16 = 7 by omega), hkeep, toNat_beq_one, hm]
    exact (if_neg (by omega)).trans (congrArg _ (by simp [Fin.ext_iff]; omega))
  case vtag t =>
    obtain ⟨hw, hop, rfl, ha, hb, hm, hkeep, hf⟩ := (encV_eq_some (by decide) (by omega)).1 h
    obtain ⟨hk, ht⟩ := tag_fields hf rfl t.isLt
    exact ⟨hw, by rw [decodeWord_vmisc hop, decodeVmisc, hk, nibField_zero ht, hkeep, ha, hb, hm]; rfl⟩
  case vloop =>
    obtain ⟨hw, hop, rfl, ha, hb, rfl, hkeep, hf⟩ := (encV_eq_some (by decide) (by decide)).1 h
    obtain ⟨hk, ht⟩ := low_nibbles hf
    exact ⟨hw, by rw [decodeWord_vmisc hop, decodeVmisc, hk, ht, hkeep, ha, hb]; rfl⟩
  case cpy c _ _ =>
    obtain ⟨hw, hop, he, hf, rfl, rfl, hd⟩ := (encE_eq_some (by decide) (by omega) (by decide)).1 h
    rw [decodeWord_eng hop, decodeEng, he, hf, regField_zero hd]
    exact ⟨hw, by fin_cases c <;> rfl⟩
  case strmIn d _ _ | strmOut d _ _ =>
    obtain ⟨hw, hop, he, hf, rfl, rfl, hd⟩ := (encE_eq_some (by decide) (by decide) (by omega)).1 h
    have hs : (⟨w % 4, Nat.mod_lt _ (by decide)⟩ : Fin 4) = d := Fin.ext (by dsimp only; omega)
    rw [decodeWord_eng hop, decodeEng, he, hf, hs, regField_zero hd]
    exact ⟨hw, if_pos (Nat.le_add_right ..)⟩
  case gath | scat | mxdr | coll | ftake | fput =>
    obtain ⟨hw, hop, he, hf, rfl, rfl, hd⟩ := (encE_eq_some (by decide) (by decide) (by decide)).1 h
    exact ⟨hw, by rw [decodeWord_eng hop, decodeEng, he, hf, regField_zero hd]; rfl⟩
  case mxcf | mxq | fclr =>
    obtain ⟨hw, hop, he, hf, rfl, hb, hd⟩ := (encE_eq_some (by decide) (by decide) (by decide)).1 h
    exact ⟨hw, by rw [decodeWord_eng hop, decodeEng, he, hf, hb, regField_zero hd]; rfl⟩
  case post | ntfy =>
    obtain ⟨hw, hop, hd, rfl, hs, hf⟩ := (encS_eq_some (by decide) (by decide) (by decide)).1 h
    exact ⟨hw, by rw [decodeWord_task hop, decodeTask, hf, hs, hd]; rfl⟩
  case endTask | disband =>
    obtain ⟨hw, hop, hd, ha, hs, hf⟩ := (encS_eq_some (by decide) (by decide) (by decide)).1 h
    exact ⟨hw, by rw [decodeWord_task hop, decodeTask, hf, hs, hd, ha]; rfl⟩
  case claim k | rels k =>
    obtain ⟨hw, hop, hd, ha, hs, hf⟩ := (encS_eq_some (by decide) (by omega) (by decide)).1 h
    have hk : nibField w 4 = k := Fin.ext (by dsimp only [nibField]; omega)
    rw [decodeWord_task hop, decodeTask, hf, hd, ha, hk, hs]
    exact ⟨hw, if_pos (by rw [Nat.div_eq_of_lt k.isLt]; rfl)⟩
  case tadv _ _ b | tcmp _ _ b =>
    obtain ⟨hw, hop, rfl, rfl, hs, hf⟩ := (encS_eq_some (by decide) (by omega) (by decide)).1 h
    have hb : regField w 4 = b := Fin.ext (by dsimp only [regField]; omega)
    rw [decodeWord_task hop, decodeTask, hf, hb, hs]
    exact ⟨hw, if_pos (Nat.div_eq_of_lt b.isLt)⟩
  case tadvi _ _ l e k =>
    obtain ⟨hw, hop, rfl, rfl, hs, hf⟩ := (encS_eq_some (by decide) (by omega) (by decide)).1 h
    have hl : (⟨w / 2 ^ 13 % 8, Nat.mod_lt _ (by decide)⟩ : Fin 8) = l := Fin.ext (by dsimp only; omega)
    have he : (⟨w / 2 ^ 10 % 8, Nat.mod_lt _ (by decide)⟩ : Fin 8) = e := Fin.ext (by dsimp only; omega)
    have hk : (⟨w / 2 ^ 4 % 64, Nat.mod_lt _ (by decide)⟩ : Fin 64) = k := Fin.ext (by dsimp only; omega)
    exact ⟨hw, by rw [decodeWord_task hop, decodeTask, hf, hl, he, hk]; rfl⟩
  case cnclT _ _ st =>
    obtain ⟨hw, hop, rfl, rfl, hs, hf⟩ := (encS_eq_some (by decide) (by omega) (by decide)).1 h
    have hst : (⟨w / 2 ^ 4 % 64, Nat.mod_lt _ (by decide)⟩ : Fin 64) = st := Fin.ext (by dsimp only; omega)
    rw [decodeWord_task hop, decodeTask, hf, hst, hs]
    exact ⟨hw, (if_pos (by omega)).trans (if_pos (by omega))⟩
  case cnclL _ _ p =>
    obtain ⟨hw, hop, rfl, rfl, hs, hf⟩ := (encS_eq_some (by decide) (by omega) (by decide)).1 h
    have hp : (⟨w / 2 ^ 12 % 8, Nat.mod_lt _ (by decide)⟩ : Fin 8) = p := Fin.ext (by dsimp only; omega)
    rw [decodeWord_task hop, decodeTask, hf, hp, hs]
    exact ⟨hw, (if_neg (by omega)).trans (if_pos (by omega))⟩
  case gang _ f =>
    obtain ⟨hw, hop, rfl, ha, hs, hf⟩ := (encS_eq_some (by decide) (by cases f <;> decide) (by decide)).1 h
    rw [decodeWord_task hop, decodeTask, hf, ha, hs]
    exact ⟨hw, by cases f <;> rfl⟩
  case ovl n =>
    obtain ⟨hw, hop, hd, ha, hs, hf⟩ := (encS_eq_some (by decide) (by omega) (by decide)).1 h
    have hn : (⟨w / 2 ^ 4 % 1024, Nat.mod_lt _ (by decide)⟩ : Fin 1024) = n := Fin.ext (by dsimp only; omega)
    rw [decodeWord_task hop, decodeTask, hf, hd, ha, hn, hs]
    exact ⟨hw, if_pos (by rw [Nat.div_eq_of_lt n.isLt]; rfl)⟩
  case mfs _ r =>
    obtain ⟨hw, hop, rfl, ha, hs, hf⟩ := (encS_eq_some (by decide) r.isLt (by decide)).1 h
    exact ⟨hw, by rw [decodeWord_sys hop, decodeSys, hf, ha, hs, BitVec.ofNat_toNat, BitVec.setWidth_eq]; rfl⟩
  case mts r _ =>
    obtain ⟨hw, hop, hd, rfl, hs, hf⟩ := (encS_eq_some (by decide) r.isLt (by decide)).1 h
    exact ⟨hw, by rw [decodeWord_sys hop, decodeSys, hf, hd, hs, BitVec.ofNat_toNat, BitVec.setWidth_eq]; rfl⟩
  case opreq n =>
    obtain ⟨hw, hop, hd, ha, hs, hf⟩ := (encS_eq_some (by decide) (by omega) (by decide)).1 h
    have hn : nibField w 4 = n := Fin.ext (by dsimp only [nibField]; omega)
    rw [decodeWord_sys hop, decodeSys, hf, hd, ha, hn, hs]
    exact ⟨hw, (if_pos (by rw [Nat.div_eq_of_lt (by omega)]; rfl)).trans (if_pos (by omega))⟩
  case opreqAuto | ifence | eret =>
    obtain ⟨hw, hop, hd, ha, hs, hf⟩ := (encS_eq_some (by decide) (by decide) (by decide)).1 h
    exact ⟨hw, by rw [decodeWord_sys hop, decodeSys, hf, hd, ha, hs]; rfl⟩
  case trap r | brk r =>
    obtain ⟨hw, hop, hd, ha, hs, hf⟩ := (encS_eq_some (by decide) r.isLt (by decide)).1 h
    exact ⟨hw, by rw [decodeWord_sys hop, decodeSys, hf, hd, ha, hs, BitVec.ofNat_toNat, BitVec.setWidth_eq]; rfl⟩
  case pmpw n _ =>
    obtain ⟨hw, hop, hd, rfl, hs, hf⟩ := (encS_eq_some (by decide) (by omega) (by decide)).1 h
    have hn : nibField w 4 = n := Fin.ext (by dsimp only [nibField]; omega)
    rw [decodeWord_sys hop, decodeSys, hf, hd, hn, hs]
    exact ⟨hw, if_pos (by rw [Nat.div_eq_of_lt n.isLt]; rfl)⟩
  all_goals exact nomatch h

end Sys2Proof
end


section
/-! PROOFS. The integer register and immediate forms (R277, R311 to R313, R316, R317). -/

namespace Sys2Proof.Machine

/-! ### Forms of one and of two sources -/

/-- A form whose meaning is `State.run1` writes what its function gives. -/
theorem runs1_of {i : Reg → Reg → Instr} {f g : Word → Word} (hfg : ∀ x, f x = g x)
    (h : ∀ d a s, exec (i d a) s = s.run1 (i d a) d f) : Runs1 i g := fun d a x s hv => by
  rw [h, State.run1_go _ _ _ _ _ hv, hfg]

theorem runs2_of {i : Reg → Reg → Reg → Instr} {f g : Word → Word → Word}
    (hfg : ∀ x y, f x y = g x y) (h : ∀ d a b s, exec (i d a b) s = s.run2 (i d a b) d f) : Runs2 i g :=
  fun d a b x y s hv => by rw [h, State.run2_go _ _ _ _ _ _ hv, hfg]

/-! ### Truth values, shifts and rotations (R311) -/

theorem ofBool_decide (p : Prop) [Decidable p] : ofBool (decide p) = if p then 1 else 0 := by
  unfold ofBool; split <;> simp_all

theorem slt_eq_decide (x y : Word) : x.slt y = decide (x.toInt < y.toInt) := rfl
theorem ult_eq_decide (x y : Word) : x.ult y = decide (x.toNat < y.toNat) := rfl

theorem shl_eq_mul (x : Word) (n : Nat) : x <<< n = BitVec.ofNat 64 (x.toNat * 2 ^ n) := by
  rw [← BitVec.toNat_inj, BitVec.toNat_shiftLeft, BitVec.toNat_ofNat, Nat.shiftLeft_eq]

theorem shr_eq_div (x : Word) (n : Nat) : x >>> n = BitVec.ofNat 64 (x.toNat / 2 ^ n) := by
  rw [← BitVec.toNat_inj, BitVec.toNat_ushiftRight, BitVec.toNat_ofNat, Nat.shiftRight_eq_div_pow,
    Nat.mod_eq_of_lt (Nat.lt_of_le_of_lt (Nat.div_le_self ..) x.isLt)]

theorem sra_eq_div (x : Word) (n : Nat) : x.sshiftRight n = BitVec.ofInt 64 (x.toInt / 2 ^ n) := by
  rw [BitVec.sshiftRight, Int.shiftRight_eq_div_pow]; norm_cast

/-- The two parts of a rotation share no bit. -/
theorem shl_or_shr (x : Word) {n : Nat} (hn : n ≤ 64) :
    x <<< n ||| x >>> (64 - n) = BitVec.ofNat 64 (x.toNat * 2 ^ n + x.toNat / 2 ^ (64 - n)) := by
  have hdisj : x <<< n &&& x >>> (64 - n) = 0#64 := by
    ext j hj
    simp only [BitVec.getElem_and, BitVec.getElem_shiftLeft, BitVec.getElem_ushiftRight, BitVec.getElem_zero,
      Bool.and_eq_false_iff]
    by_cases h : j < n
    · simp [h]
    · right
      exact BitVec.getLsbD_of_ge _ _ (by omega)
  rw [← BitVec.add_eq_or_of_and_eq_zero _ _ hdisj, shl_eq_mul, shr_eq_div, BitVec.ofNat_add]

theorem rol_eq (x : Word) {n : Nat} (hn : n < 64) :
    x.rotateLeft n = BitVec.ofNat 64 (x.toNat * 2 ^ n + x.toNat / 2 ^ (64 - n)) := by
  rw [BitVec.rotateLeft_def, Nat.mod_eq_of_lt hn, shl_or_shr x hn.le]

theorem ror_eq (x : Word) {n : Nat} (hn : n < 64) :
    x.rotateRight n = BitVec.ofNat 64 (x.toNat / 2 ^ n + x.toNat * 2 ^ (64 - n)) := by
  rw [BitVec.rotateRight_def, Nat.mod_eq_of_lt hn, BitVec.or_comm]
  have h := shl_or_shr x (Nat.sub_le 64 n)
  rw [Nat.sub_sub_self hn.le] at h
  rw [h, Nat.add_comm]

theorem clampS_eq (x : Int) : clampS x = BitVec.ofInt 64 (max (-(2 ^ 63)) (min (2 ^ 63 - 1) x)) := by
  unfold clampS
  split
  · congr 1; omega
  · split <;> congr 1 <;> omega

theorem clampU_natCast (n : Nat) : clampU n = BitVec.ofNat 64 (min (2 ^ 64 - 1) n) := by
  unfold clampU
  rw [if_neg (by omega)]
  split
  · rw [Nat.min_eq_left (by omega)]; rfl
  · rw [Nat.min_eq_right (by omega), BitVec.ofInt_natCast]

theorem clampU_sub (x y : Word) : clampU ((x.toNat : Int) - y.toNat) = BitVec.ofNat 64 (x.toNat - y.toNat) := by
  have hx := x.isLt
  rcases Nat.lt_or_ge x.toNat y.toNat with h | h
  · rw [clampU, if_pos (by omega), Nat.sub_eq_zero_of_le h.le]; rfl
  · rw [← Int.ofNat_sub h, clampU_natCast, Nat.min_eq_right (by omega)]

theorem ofBool_ne (x y : Word) : ofBool (x != y) = if x = y then 0 else 1 := by
  by_cases h : x = y <;> simp [ofBool, h]

theorem if_slt {α : Type} (x y : Word) (a b : α) : (if x.slt y then a else b) = if x.toInt < y.toInt then a else b := by
  simp only [slt_eq_decide, decide_eq_true_eq]

theorem if_ult {α : Type} (x y : Word) (a b : α) : (if x.ult y then a else b) = if x.toNat < y.toNat then a else b := by
  simp only [ult_eq_decide, decide_eq_true_eq]

/-- Settles O7: each form is `State.run2` of its value. -/
theorem aluResults : Obligations.AluResults := by
  have hmod : ∀ y : Word, shamt y < 64 := fun y => Nat.mod_lt _ (by decide)
  refine ⟨?_, ?_, ?_, ?_, ?_, ?_, ?_, ?_, ?_, ?_, ?_, ?_, ?_, ?_, ?_, ?_, ?_, ?_, ?_, ?_, ?_, ?_, ?_, ?_, ?_⟩
  iterate 8 exact runs2_of (fun _ _ => rfl) fun _ _ _ _ => rfl
  · exact runs2_of (f := fun x y => x <<< shamt y) (fun x y => shl_eq_mul x _) fun _ _ _ _ => rfl
  · exact runs2_of (f := fun x y => x >>> shamt y) (fun x y => shr_eq_div x _) fun _ _ _ _ => rfl
  · exact runs2_of (f := fun x y => x.sshiftRight (shamt y)) (fun x y => sra_eq_div x _) fun _ _ _ _ => rfl
  · exact runs2_of (f := fun x y => x.rotateLeft (shamt y)) (fun x y => rol_eq x (hmod y)) fun _ _ _ _ => rfl
  · exact runs2_of (f := fun x y => x.rotateRight (shamt y)) (fun x y => ror_eq x (hmod y)) fun _ _ _ _ => rfl
  · exact runs2_of (f := fun x y => ofBool (x.slt y)) (fun x y => ofBool_decide _) fun _ _ _ _ => rfl
  · exact runs2_of (f := fun x y => ofBool (x.ult y)) (fun x y => ofBool_decide _) fun _ _ _ _ => rfl
  · exact runs2_of (f := fun x y => ofBool (x == y)) (fun x y => ofBool_decide _) fun _ _ _ _ => rfl
  · exact runs2_of (f := fun x y => ofBool (x != y)) ofBool_ne fun _ _ _ _ => rfl
  · exact runs2_of (f := fun x y => if x.slt y then x else y) (fun x y => if_slt ..) fun _ _ _ _ => rfl
  · exact runs2_of (f := fun x y => if x.slt y then y else x) (fun x y => if_slt ..) fun _ _ _ _ => rfl
  · exact runs2_of (f := fun x y => if x.ult y then x else y) (fun x y => if_ult ..) fun _ _ _ _ => rfl
  · exact runs2_of (f := fun x y => if x.ult y then y else x) (fun x y => if_ult ..) fun _ _ _ _ => rfl
  · exact runs2_of (f := fun x y => clampS (x.toInt + y.toInt)) (fun _ _ => clampS_eq _) fun _ _ _ _ => rfl
  · exact runs2_of (f := fun x y => clampS (x.toInt - y.toInt)) (fun _ _ => clampS_eq _) fun _ _ _ _ => rfl
  · exact runs2_of (f := fun x y => clampU (x.toNat + y.toNat)) (fun _ _ => clampU_natCast _) fun _ _ _ _ => rfl
  · exact runs2_of (f := fun x y => clampU ((x.toNat : Int) - y.toNat)) clampU_sub fun _ _ _ _ => rfl

/-! ### Multiplying and dividing (R312, R313) -/

theorem mul_eq_ofInt (x y : Word) : x * y = BitVec.ofInt 64 (x.toInt * y.toInt) := by
  rw [BitVec.ofInt_mul, BitVec.ofInt_toInt, BitVec.ofInt_toInt]

theorem mul_eq_ofNat (x y : Word) : x * y = BitVec.ofNat 64 (x.toNat * y.toNat) := by
  rw [BitVec.ofNat_mul, BitVec.ofNat_toNat, BitVec.ofNat_toNat]; simp

/-- A form whose meaning is `divide` has the three cases of a divide form. -/
theorem divides_of {i : Reg → Reg → Reg → Instr} {q q' : Word → Word → Word} {z : Word → Word}
    (hq : ∀ x y, q x y = q' x y) (h : ∀ d a b s, exec (i d a b) s = divide (i d a b) d z q s) : Divides i q' z := by
  intro d a b x y s hv
  rw [h]
  simp only [divide, State.run_go _ _ _ _ hv, List.getD_cons_zero, List.getD_cons_succ]
  refine ⟨fun hy => ?_, fun hy hi => ?_, fun hy hi => ?_⟩
  · rw [if_neg hy, hq]
  · rw [if_pos hy, hi]; rfl
  · rw [if_pos hy, hi]; rfl

/-- Settles O8: each form is `State.run2` or `divide` of its value. -/
theorem multiplyAndDivideResults : Obligations.MultiplyAndDivideResults := by
  refine ⟨?_, ?_, ?_, ?_, ?_, ?_, ?_, ?_, by decide⟩
  · exact runs2_of (f := fun x y => x * y) mul_eq_ofNat fun _ _ _ _ => rfl
  · exact runs2_of (f := fun x y => x * y) mul_eq_ofInt fun _ _ _ _ => rfl
  · exact runs2_of (fun _ _ => rfl) fun _ _ _ _ => rfl
  · exact runs2_of (fun _ _ => rfl) fun _ _ _ _ => rfl
  · exact divides_of (q := quotS) (fun _ _ => rfl) fun _ _ _ _ => rfl
  · exact divides_of (fun _ _ => rfl) fun _ _ _ _ => rfl
  · exact divides_of (q := remS) (fun x y => by rw [remS, Int.tmod_def]) fun _ _ _ _ => rfl
  · exact divides_of (q := fun x y => BitVec.ofNat 64 (x.toNat % y.toNat)) (fun x y => by rw [Nat.mod_eq_sub_mul_div])
      fun _ _ _ _ => rfl

/-! ### Immediate and constant forms (R277, R316, R317) -/

theorem upper_eq (n : BitVec 21) : n.signExtend 64 <<< 16 = BitVec.ofInt 64 (n.toInt * 2 ^ 16) := by
  rw [shl_eq_mul, ← BitVec.toInt_signExtend_of_le (w := 21) (v := 64) (x := n) (by decide), BitVec.ofNat_mul, BitVec.ofInt_mul,
    BitVec.ofInt_toInt, BitVec.ofNat_toNat, BitVec.setWidth_eq]
  rfl

/-- The two parts of the value of `lhi` share no bit. -/
theorem high_eq (x : Word) (n : BitVec 21) :
    BitVec.ofNat 64 (x.toNat % 2 ^ 37 + n.toNat * 2 ^ 37) = (x &&& 0x1FFFFFFFFF) ||| (n.setWidth 64 <<< 37) := by
  have hx := x.isLt
  have hn := n.isLt
  have hlow : x.toNat &&& 0x1FFFFFFFFF = x.toNat % 2 ^ 37 := Nat.and_two_pow_sub_one_eq_mod x.toNat 37
  rw [← BitVec.toNat_inj, BitVec.toNat_or]
  change _ = x.toNat &&& 0x1FFFFFFFFF ||| _
  rw [hlow, BitVec.toNat_shiftLeft, BitVec.toNat_setWidth, BitVec.toNat_ofNat,
    Nat.mod_eq_of_lt (show n.toNat < 2 ^ 64 by omega), Nat.or_comm, Nat.shiftLeft_eq,
    Nat.mod_eq_of_lt (show n.toNat * 2 ^ 37 < 2 ^ 64 by omega), Nat.mod_eq_of_lt (by omega), ← Nat.shiftLeft_eq, Nat.add_comm,
    Nat.shiftLeft_add_eq_or_of_lt (Nat.mod_lt _ (by decide))]

/-- Settles O10: each form is `State.run1` of its value, and a constant form writes its constant. -/
theorem immediateResults : Obligations.ImmediateResults := by
  refine ⟨fun n => ⟨?_, ?_, ?_, ?_, ?_, ?_⟩, fun n => ⟨?_, ?_, ?_⟩, fun n d x v s => ⟨fun hv => ?_, fun hv => ?_⟩,
    fun n d v s hv => ?_⟩
  iterate 4 exact runs1_of (fun _ => rfl) fun _ _ _ => rfl
  · exact runs1_of (f := fun x => ofBool (x.slt (immS n))) (fun x => by
      rw [slt_eq_decide, ofBool_decide, immS, BitVec.toInt_signExtend_of_le (by decide)]) fun _ _ _ => rfl
  · exact runs1_of (f := fun x => ofBool (x.ult (immS n))) (fun x => ofBool_decide _) fun _ _ _ => rfl
  · exact runs1_of (f := fun x => x <<< n.toNat) (fun x => shl_eq_mul x _) fun _ _ _ => rfl
  · exact runs1_of (f := fun x => x >>> n.toNat) (fun x => shr_eq_div x _) fun _ _ _ => rfl
  · exact runs1_of (f := fun x => x.sshiftRight n.toNat) (fun x => sra_eq_div x _) fun _ _ _ => rfl
  · rw [← upper_eq]
    exact State.run_go _ _ _ (fun _ => s.finish (.lui d n) d (n.signExtend 64 <<< 16)) hv
  · rw [← high_eq]
    exact State.run1_go _ _ _ (fun x => BitVec.ofNat 64 (x.toNat % 2 ^ 37 + n.toNat * 2 ^ 37)) _ hv
  · exact State.run_go _ _ _ (fun _ => s.finish (.lco d n) d (n.setWidth 64)) hv

end Sys2Proof.Machine
end


section
/-! PROOFS. The unary forms, packing and unpacking (R314, R315). -/

namespace Sys2Proof.Machine

/-! ### Bits of a number -/

theorem bit_eq_one_iff (x i : Nat) : x / 2 ^ i % 2 = 1 ↔ x.testBit i = true := by
  rw [Nat.testBit_eq_decide_div_mod_eq, decide_eq_true_eq]

/-- A group of g bits. -/
theorem testBit_group (g x i b : Nat) : (x / 2 ^ i % 2 ^ g).testBit b = (decide (b < g) && x.testBit (i + b)) := by
  rw [Nat.testBit_mod_two_pow, Nat.testBit_div_two_pow, Nat.add_comm]

/-- A group below the groups of r. -/
theorem testBit_above_group {g a : Nat} (r b : Nat) (ha : a < 2 ^ g) :
    (2 ^ g * r + a).testBit b = if b < g then a.testBit b else r.testBit (b - g) := Nat.testBit_two_pow_mul_add _ ha _

/-! ### Counts (R315) -/

theorem zerosDown_eq {x n : Nat} (hx : x < 2 ^ n) : zerosDown x n = if x = 0 then n else n - 1 - x.log2 := by
  induction n with
  | zero => simp_all [zerosDown]
  | succ n ih =>
    rw [zerosDown]
    by_cases hb : x / 2 ^ n % 2 = 1
    · have hn : 2 ^ n ≤ x := by
        by_contra h
        rw [Nat.div_eq_of_lt (by omega)] at hb
        exact absurd hb (by decide)
      have h0 : x ≠ 0 := by have := Nat.two_pow_pos n; omega
      have hlog : x.log2 = n := (Nat.log2_eq_iff h0).2 ⟨hn, hx⟩
      rw [if_pos hb, if_neg h0]
      omega
    · have hlt : x < 2 ^ n := by
        by_contra h
        have : x / 2 ^ n = 1 := Nat.div_eq_of_lt_le (by omega) (by rw [Nat.pow_succ] at hx; omega)
        omega
      rw [if_neg hb, ih hlt]
      split
      · omega
      · next h0 =>
        have := (Nat.log2_lt h0).2 hlt
        omega

/-- The count of zeros upward is the distance to the first one. -/
theorem zerosUp_spec (x n i : Nat) : zerosUp x n i ≤ n ∧ (∀ j < zerosUp x n i, x.testBit (i + j) = false) ∧
    (zerosUp x n i < n → x.testBit (i + zerosUp x n i) = true) := by
  induction n generalizing i with
  | zero => simp [zerosUp]
  | succ n ih =>
    obtain ⟨hle, hzero, hone⟩ := ih (i + 1)
    rw [zerosUp]
    split
    · next hb => exact ⟨Nat.zero_le _, nofun, fun _ => (bit_eq_one_iff ..).1 hb⟩
    · next hb =>
      refine ⟨by omega, fun j hj => ?_, fun h => ?_⟩
      · cases j with
        | zero => exact Bool.eq_false_iff.2 fun h => hb ((bit_eq_one_iff ..).2 h)
        | succ j => rw [← hzero j (by omega)]; congr 1; omega
      · rw [← hone (by omega)]; congr 1; omega

theorem zerosUp_zero (n i : Nat) : zerosUp 0 n i = n := by
  induction n generalizing i with
  | zero => rfl
  | succ n ih => rw [zerosUp, if_neg (by simp), ih, Nat.add_comm]

theorem ctz_spec (x : Word) (hx : x ≠ 0) : x.getLsbD (zerosUp x.toNat 64 0) = true ∧
    ∀ j < zerosUp x.toNat 64 0, x.getLsbD j = false := by
  obtain ⟨hle, hzero, hone⟩ := zerosUp_spec x.toNat 64 0
  simp only [Nat.zero_add] at hzero hone
  refine ⟨hone (Nat.lt_of_le_of_ne hle fun h => hx ?_), hzero⟩
  rw [h] at hzero
  exact BitVec.eq_of_getLsbD_eq fun j hj => (hzero j hj).trans BitVec.getLsbD_zero.symm

theorem onesIn_eq (x : Word) (n : Nat) : onesIn x.toNat n = (List.range n).countP fun j => x.getLsbD j := by
  induction n with
  | zero => rfl
  | succ n ih =>
    rw [onesIn, ih, List.range_succ, List.countP_append, List.countP_singleton, Nat.add_comm, BitVec.getLsbD]
    congr 1
    rw [Nat.testBit_eq_decide_div_mod_eq]
    rcases Nat.mod_two_eq_zero_or_one (x.toNat / 2 ^ n) with h | h <;> simp [h]

/-! ### Reversals (R315) -/

theorem reverseGroups_lt (g x n i : Nat) : reverseGroups g x n i < 2 ^ (g * n) := by
  induction n generalizing i with
  | zero => simp [reverseGroups]
  | succ n ih =>
    have hlow := ih (i + 1)
    have hg := Nat.mod_lt (x / 2 ^ (g * i)) (Nat.two_pow_pos g)
    rw [reverseGroups, Nat.mul_succ, Nat.pow_add, Nat.mul_comm (2 ^ (g * n))]
    nlinarith

/-- Bit j of the reversal is in the group that far from the top. -/
theorem testBit_reverseGroups (g x n i j : Nat) (hj : j < g * n) :
    (reverseGroups g x n i).testBit j = x.testBit (g * (i + (n - 1 - j / g)) + j % g) := by
  induction n generalizing i with
  | zero => simp at hj
  | succ n ih =>
    rw [reverseGroups, Nat.mul_comm _ (2 ^ (g * n)), testBit_above_group _ _ (reverseGroups_lt ..)]
    split
    · next h =>
      have hq : j / g < n := Nat.div_lt_of_lt_mul h
      rw [ih _ h]
      congr 3
      omega
    · next h =>
      have hq : j / g = n := Nat.div_eq_of_lt_le (by rw [Nat.mul_comm]; omega) (by rw [Nat.mul_comm]; omega)
      have hm : j % g = j - g * n := by rw [Nat.mod_eq_sub_mul_div, hq]
      rw [testBit_group, hm, hq, decide_eq_true (by rw [Nat.mul_succ] at hj; omega)]
      simp

/-! ### Extensions (R315) -/

theorem sext_eq_signExtend (x : Nat) {n : Nat} (h0 : 0 < n) (hn : n ≤ 64) : sext n x = (BitVec.ofNat n x).signExtend 64 := by
  have hpow : 2 ^ n ≤ 2 ^ 64 := Nat.pow_le_pow_right (by decide) hn
  have hlt := Nat.mod_lt x (Nat.two_pow_pos n)
  have hmsb : (BitVec.ofNat n x).msb = decide (x / 2 ^ (n - 1) % 2 = 1) := by
    rw [BitVec.msb_eq_getLsbD_last, BitVec.getLsbD_ofNat, Nat.testBit_eq_decide_div_mod_eq]
    simp [h0]
  rw [← BitVec.toNat_inj, BitVec.toNat_signExtend, BitVec.toNat_setWidth, BitVec.toNat_ofNat,
    Nat.mod_eq_of_lt (Nat.lt_of_lt_of_le hlt hpow), hmsb, sext]
  split
  · next h => rw [BitVec.toNat_ofNat, decide_eq_true h, if_pos rfl, Nat.mod_eq_of_lt (by omega)]
  · next h => rw [BitVec.toNat_ofNat, decide_eq_false h, if_neg (by decide), Nat.mod_eq_of_lt (by omega), Nat.add_zero]

theorem zext_eq_setWidth (x : Word) (n : Nat) : BitVec.ofNat 64 (x.toNat % 2 ^ n) = (x.setWidth n).setWidth 64 := by
  rw [← BitVec.toNat_inj, BitVec.toNat_ofNat, BitVec.toNat_setWidth, BitVec.toNat_setWidth]

/-! ### Packing (R314) -/

section
variable (g x m : Nat)

theorem packGroups_shift (n i j : Nat) : packGroups g x m n i j = 2 ^ (g * j) * packGroups g x m n i 0 := by
  induction n generalizing i j with
  | zero => rfl
  | succ n ih =>
    simp only [packGroups]
    split
    · rw [ih (i + 1) (j + 1), ih (i + 1) (0 + 1)]
      ring
    · rw [ih]

theorem packGroups_selected {n i : Nat} (h : m / 2 ^ i % 2 = 1) :
    packGroups g x m (n + 1) i 0 = 2 ^ g * packGroups g x m n (i + 1) 0 + x / 2 ^ (g * i) % 2 ^ g := by
  rw [packGroups, if_pos h, packGroups_shift g x m n (i + 1) (0 + 1)]
  ring

theorem packGroups_unselected {n i : Nat} (h : ¬ m / 2 ^ i % 2 = 1) :
    packGroups g x m (n + 1) i 0 = packGroups g x m n (i + 1) 0 := by rw [packGroups, if_neg h]

theorem packGroups_lt (n i : Nat) : packGroups g x m n i 0 < 2 ^ (g * n) := by
  induction n generalizing i with
  | zero => simp [packGroups]
  | succ n ih =>
    have hrest := ih (i + 1)
    rw [Nat.mul_succ, Nat.pow_add, Nat.mul_comm (2 ^ (g * n))]
    by_cases h : m / 2 ^ i % 2 = 1
    · have hg := Nat.mod_lt (x / 2 ^ (g * i)) (Nat.two_pow_pos g)
      rw [packGroups_selected g x m h]
      have := Nat.mul_le_mul_left (2 ^ g) (Nat.succ_le_of_lt hrest)
      rw [Nat.mul_succ] at this
      omega
    · rw [packGroups_unselected g x m h]
      exact Nat.lt_of_lt_of_le hrest (Nat.le_mul_of_pos_left _ (Nat.two_pow_pos g))

/-- What unpacks from the packed groups is the value under its mask: from group i on, n groups. -/
theorem unpackGroups_packed {g : Nat} (hg : 0 < g) (y n i j : Nat) (hy : y / 2 ^ (g * j) = packGroups g x m n i 0) :
    ∃ r, unpackGroups g y m n i j = 2 ^ (g * i) * r ∧
      ∀ b, r.testBit b = (decide (b < g * n) && x.testBit (g * i + b) && m.testBit (i + b / g)) := by
  induction n generalizing i j with
  | zero => exact ⟨0, rfl, fun b => by simp⟩
  | succ n ih =>
    have hdiv : ∀ b, ¬ b < g → i + 1 + (b - g) / g = i + b / g := fun b hb => by
      rw [Nat.div_eq_sub_div hg (Nat.le_of_not_lt hb)]; omega
    by_cases h : m / 2 ^ i % 2 = 1
    · have hm : m.testBit i = true := (bit_eq_one_iff ..).1 h
      have hlt := Nat.mod_lt (x / 2 ^ (g * i)) (Nat.two_pow_pos g)
      rw [packGroups_selected g x m h] at hy
      have hnext : y / 2 ^ (g * (j + 1)) = packGroups g x m n (i + 1) 0 := by
        rw [Nat.mul_succ, Nat.pow_add, ← Nat.div_div_eq_div_mul, hy, Nat.mul_add_div (Nat.two_pow_pos g), Nat.div_eq_of_lt hlt,
          Nat.add_zero]
      have hgroup : y / 2 ^ (g * j) % 2 ^ g = x / 2 ^ (g * i) % 2 ^ g := by
        rw [hy, Nat.mul_add_mod, Nat.mod_eq_of_lt hlt]
      obtain ⟨r, hr, hbits⟩ := ih (i + 1) (j + 1) hnext
      refine ⟨2 ^ g * r + x / 2 ^ (g * i) % 2 ^ g, ?_, fun b => ?_⟩
      · rw [unpackGroups, if_pos h, hr, hgroup]
        ring
      · rw [testBit_above_group _ _ hlt]
        split
        · next hb =>
          have : b < g * (n + 1) := by rw [Nat.mul_succ]; omega
          rw [testBit_group]
          simp [hb, this, Nat.div_eq_of_lt hb, hm]
        · next hb =>
          rw [hbits, hdiv b hb]
          congr 2
          · rw [Nat.mul_succ]; simp; omega
          · congr 1; rw [Nat.mul_succ]; omega
    · have hm : m.testBit i = false := Bool.eq_false_iff.2 fun hb => h ((bit_eq_one_iff ..).2 hb)
      rw [packGroups_unselected g x m h] at hy
      obtain ⟨r, hr, hbits⟩ := ih (i + 1) j hy
      refine ⟨2 ^ g * r + 0, ?_, fun b => ?_⟩
      · rw [unpackGroups, if_neg h, hr]
        ring
      · rw [testBit_above_group _ _ (Nat.two_pow_pos g)]
        split
        · next hb => simp [Nat.div_eq_of_lt hb, hm]
        · next hb =>
          rw [hbits, hdiv b hb]
          congr 2
          · rw [Nat.mul_succ]; simp; omega
          · congr 1; rw [Nat.mul_succ]; omega

end

/-- Unpacking undoes packing where groups of g bits fill the word. -/
theorem unpack_pack {g : Nat} (hg : 0 < g) (h64 : g * (64 / g) = 64) (x m : Word) {j : Nat} (hj : j < 64) :
    (unpack g (pack g x m) m).getLsbD j = (x.getLsbD j && m.getLsbD (j / g)) := by
  have hlt := packGroups_lt g x.toNat m.toNat (64 / g) 0
  rw [h64] at hlt
  have hy : (pack g x m).toNat / 2 ^ (g * 0) = packGroups g x.toNat m.toNat (64 / g) 0 0 := by
    rw [pack, BitVec.toNat_ofNat, Nat.mod_eq_of_lt hlt]; simp
  obtain ⟨r, hr, hbits⟩ := unpackGroups_packed x.toNat m.toNat hg _ _ _ _ hy
  rw [unpack, BitVec.getLsbD_ofNat, hr, decide_eq_true hj]
  simp [hbits, h64, hj, BitVec.getLsbD]

/-- Settles O9: each form is `State.run1` or `State.run2` of its value, whose bits are those stated. -/
theorem unaryResults : Obligations.UnaryResults := by
  refine ⟨⟨?_, ⟨fun x => BitVec.ofNat 64 (zerosUp x.toNat 64 0), runs1_of (fun _ => rfl) fun _ _ _ => rfl, ?_, fun x hx => ?_⟩, ?_,
    ⟨fun x => BitVec.ofNat 64 (reverseGroups 1 x.toNat 64 0), runs1_of (fun _ => rfl) fun _ _ _ => rfl, fun x j hj => ?_⟩,
    ⟨fun x => BitVec.ofNat 64 (reverseGroups 8 x.toNat 8 0), runs1_of (fun _ => rfl) fun _ _ _ => rfl, fun x j hj => ?_⟩,
    ?_, ?_, ?_, ?_, ?_, ?_⟩, ?_, ?_, ?_, ?_, ?_, ?_, ?_, ?_, ?_⟩
  · refine runs1_of (f := fun x => BitVec.ofNat 64 (zerosDown x.toNat 64)) (fun x => ?_) fun _ _ _ => rfl
    rw [zerosDown_eq x.isLt]
    by_cases hx : x = 0
    · simp [hx]
    · rw [if_neg hx, if_neg fun h => hx (BitVec.eq_of_toNat_eq (h.trans rfl))]
  · exact congrArg (BitVec.ofNat 64) (zerosUp_zero 64 0)
  · have hle := (zerosUp_spec x.toNat 64 0).1
    rw [BitVec.toNat_ofNat, Nat.mod_eq_of_lt (by omega)]
    exact ctz_spec x hx
  · exact runs1_of (f := fun x => BitVec.ofNat 64 (onesIn x.toNat 64)) (fun x => by rw [onesIn_eq]) fun _ _ _ => rfl
  · rw [BitVec.getLsbD_ofNat, testBit_reverseGroups _ _ _ _ _ (by omega), decide_eq_true hj, Nat.div_one, Nat.mod_one,
      Bool.true_and, Nat.one_mul, Nat.zero_add, Nat.add_zero, BitVec.getLsbD]
  · rw [BitVec.getLsbD_ofNat, testBit_reverseGroups _ _ _ _ _ (by omega), decide_eq_true hj, Bool.true_and,
      Nat.zero_add, BitVec.getLsbD]
  · exact runs1_of (f := fun x => sext 8 x.toNat) (fun x => sext_eq_signExtend _ (by decide) (by decide)) fun _ _ _ => rfl
  · exact runs1_of (f := fun x => sext 16 x.toNat) (fun x => sext_eq_signExtend _ (by decide) (by decide)) fun _ _ _ => rfl
  · exact runs1_of (f := fun x => sext 32 x.toNat) (fun x => sext_eq_signExtend _ (by decide) (by decide)) fun _ _ _ => rfl
  · exact runs1_of (f := fun x => BitVec.ofNat 64 (x.toNat % 2 ^ 8)) (fun x => zext_eq_setWidth x 8) fun _ _ _ => rfl
  · exact runs1_of (f := fun x => BitVec.ofNat 64 (x.toNat % 2 ^ 16)) (fun x => zext_eq_setWidth x 16) fun _ _ _ => rfl
  · exact runs1_of (f := fun x => BitVec.ofNat 64 (x.toNat % 2 ^ 32)) (fun x => zext_eq_setWidth x 32) fun _ _ _ => rfl
  iterate 8 exact runs2_of (fun _ _ => rfl) fun _ _ _ _ => rfl
  · intro g hg x m j hj
    have h : 0 < g ∧ g * (64 / g) = 64 := by revert g; decide
    exact unpack_pack h.1 h.2 x m hj

end Sys2Proof.Machine
end


section
/-! PROOFS. A barred word, one that waits, and one that no frame executes (R225, R276). -/

namespace Sys2Proof.Machine

/-- Every instruction that has a word is run behind what stands before it. -/
theorem exec_eq_run (i : Instr) (s : State) (h : i.encoded = true) : ∃ k, exec i s = s.run i k := by
  cases i
  any_goals exact ⟨_, rfl⟩
  all_goals cases h

/-- Settles O4: what bars a word, and what makes it wait, is decided by `State.run`, whatever the instruction's own effect. -/
theorem barredWordTraps : Obligations.BarredWordTraps := by
  intro i s hi
  obtain ⟨k, hk⟩ := exec_eq_run i s hi
  rw [hk]
  refine ⟨fun h => State.run_bad _ _ _ h, fun h => ?_⟩
  rcases h with h | h
  · exact State.run_stall _ _ _ h
  · exact State.run_idle _ _ _ h

/-- Settles O58: each word by evaluating the decoder on it. -/
theorem decodeWords : Obligations.DecodeWords := by
  refine ⟨rfl, rfl, rfl, rfl, rfl, rfl, rfl, rfl, rfl, rfl, rfl, rfl, rfl, rfl, rfl, rfl, rfl, rfl, rfl, rfl, rfl, rfl⟩

end Sys2Proof.Machine
end


section
/-! PROOFS. What an instruction with one destination leaves (R242, R267, R306, R403). -/

namespace Sys2Proof.Machine

/-! ### A hart after a register write, and after it has retired -/

theorem Hart.reg_setReg (h : Hart) (d r : Reg) (w : Word) :
    (h.setReg d w).reg r = if r = d ∧ d ≠ 0 then w else h.reg r := by
  by_cases hd : d = 0
  · simp [Hart.setReg, hd]
  · by_cases hr : r = d
    · subst hr
      rw [if_pos ⟨rfl, hd⟩]
      simp only [Hart.setReg, Hart.reg, hd, if_false]
      exact Vector.getElem_set_self ..
    · rw [if_neg fun h => hr h.1]
      simp only [Hart.setReg, Hart.reg, hd, if_false]
      split
      · rfl
      · exact Vector.getElem_set_ne _ _ fun h => hr (Fin.ext h.symm)

/-- A register write changes nothing else of a hart. -/
theorem Hart.setReg_eq (h : Hart) (d : Reg) (w : Word) : h.setReg d w = { h with regs := (h.setReg d w).regs } := by
  unfold Hart.setReg; split <;> rfl

/-- A hart that has moved to an instruction has forgotten what it sent for the one before. -/
def Hart.at (h : Hart) (pc : Nat) : Hart := { h with pc := pc, sent := [], stalled := false }

theorem Hart.at_reg (h : Hart) (pc : Nat) (r : Reg) : (h.at pc).reg r = h.reg r := rfl

theorem Hart.setReg_at (h : Hart) (d : Reg) (w : Word) (pc : Nat) :
    (h.setReg d w).at pc = { h with regs := ((h.setReg d w).at pc).regs, pc := pc, sent := [], stalled := false } := by
  rw [Hart.setReg_eq]; rfl

theorem Hart.setReg_pc (h : Hart) (d : Reg) (w : Word) : (h.setReg d w).pc = h.pc := by rw [Hart.setReg_eq]

/-! ### A compute core -/

section
variable {s : State} {lc : Nat} {f : Frame} (ha : s.agent = .core lc) (hf : s.top lc = some f)
include ha hf

theorem State.writeReg_core (hs : ∀ r, f.stream r = none) (d : Reg) (w : Word) : s.writeReg d w = s.setTop lc (f.setReg d w) := by
  simp only [State.writeReg, ha, State.writeFrame, hf, hs]

/-- The state that an instruction of a frame without streams leaves: the core's frame and its count of instructions change. -/
theorem State.finish_core (hs : ∀ r, f.stream r = none) (i : Instr) (d : Reg) (w : Word) :
    s.finish i d w = (((s.setTop lc (f.setReg d w)).setTop lc
      { f.setReg d w with h := (f.h.setReg d w).at (f.h.pc + 1) }).countRetired) := by
  have hg := s.setTop_top lc (f.setReg d w) f hf
  have hag := (s.setTop_agent lc (f.setReg d w)).trans ha
  simp only [State.finish, State.pops_noStream hs ha hf, State.writeReg_core ha hf hs, State.goTo, State.setHart_core hag hg,
    State.hart_of_top hag hg]
  rw [show (f.setReg d w).h.pc = f.h.pc from Hart.setReg_pc ..]
  rfl

end

/-- Changing the running frame changes the head of the core's frames. -/
theorem State.setTop_cons {s : State} {lc : Nat} {f : Frame} {l : List Frame} (h : (s.core lc).frames = f :: l) (g : Frame) :
    s.setTop lc g = s.setCore lc { s.core lc with frames := g :: l } := by
  simp only [State.setTop, h]

theorem finishes_core {s : State} {lc : Nat} {i : Instr} (ha : s.agent = .core lc) (hready : s.Ready i) (d : Reg) (w : Word) :
    ∃ f l, (s.core lc).frames = f :: l ∧ (s.finish i d w).hart = (f.h.setReg d w).at (f.h.pc + 1) ∧
      { s.finish i d w with cores := s.cores } = s ∧ s.hart = f.h ∧
      (s.finish i d w).core lc = { s.core lc with
        frames := { f with h := (f.h.setReg d w).at (f.h.pc + 1), badRegs := f.badRegs.filter (· != d.val) } :: l,
        instret := (s.core lc).instret + 1 } ∧
      ∀ c, c ≠ lc → (s.finish i d w).core c = s.core c := by
  simp only [State.Ready, ha] at hready
  obtain ⟨f, hf, -, -, -, -, hs, -⟩ := hready
  obtain ⟨l, hl⟩ : ∃ l, (s.core lc).frames = f :: l := List.head?_eq_some_iff.1 hf
  have hl2 : ((s.setTop lc (f.setReg d w)).core lc).frames = f.setReg d w :: l := by
    rw [State.setTop_cons hl, State.core_setCore]
  have hfin := State.finish_core ha hf hs i d w
  rw [State.setTop_cons hl2, State.setTop_cons hl, State.countRetired_core (lc := lc) (by exact ha),
    State.core_setCore, State.core_setCore] at hfin
  have hcore : (s.finish i d w).core lc = { s.core lc with
      frames := { f with h := (f.h.setReg d w).at (f.h.pc + 1), badRegs := f.badRegs.filter (· != d.val) } :: l,
      instret := (s.core lc).instret + 1 } := by rw [hfin, State.core_setCore]; rfl
  refine ⟨f, l, hl, ?_, ?_, State.hart_of_top ha hf, hcore, fun c hc => ?_⟩
  · have hagent : (s.finish i d w).agent = .core lc := by rw [hfin]; exact ha
    have htop : (s.finish i d w).top lc = some
        { f with h := (f.h.setReg d w).at (f.h.pc + 1), badRegs := f.badRegs.filter (· != d.val) } := by rw [State.top, hcore]; rfl
    exact State.hart_of_top hagent htop
  · rw [hfin]; rfl
  · rw [hfin, State.core_setCore_ne _ _ _ _ hc, State.core_setCore_ne _ _ _ _ hc, State.core_setCore_ne _ _ _ _ hc]

/-! ### A front-end core -/

section
variable {s : State} {n : Nat} (ha : s.agent = .fe n)
include ha

theorem State.hart_fe : s.hart = (s.fe n).h := by simp only [State.hart, ha]

theorem State.setHart_fe (h : Hart) : s.setHart h = s.setFe n { s.fe n with h := h } := by simp only [State.setHart, ha]

theorem State.goTo_fe (pc : Nat) : s.goTo pc = (s.setFe n { s.fe n with h := (s.fe n).h.at pc }).setFe n
    { s.fe n with h := (s.fe n).h.at pc, instret := (s.fe n).instret + 1 } := by
  rw [State.goTo, State.setHart_fe ha, State.hart_fe ha, State.countRetired_fe (n := n) (by exact ha), State.fe_setFe]
  rfl

theorem State.writeReg_fe (d : Reg) (w : Word) : s.writeReg d w = s.setFe n { s.fe n with h := (s.fe n).h.setReg d w } := by
  simp only [State.writeReg, ha, State.setHart_fe ha, State.hart_fe ha]

theorem finishes_fe (i : Instr) (d : Reg) (w : Word) :
    (s.finish i d w).hart = (s.hart.setReg d w).at (s.hart.pc + 1) ∧ { s.finish i d w with fes := s.fes } = s ∧
      (s.finish i d w).fe n = { s.fe n with
        h := (s.hart.setReg d w).at (s.hart.pc + 1), instret := (s.fe n).instret + 1 } ∧
      ∀ c, c ≠ n → (s.finish i d w).fe c = s.fe c := by
  have hpops : s.pops i = s := by simp only [State.pops, ha]
  have hw := State.writeReg_fe ha d w
  have hag : (s.writeReg d w).agent = .fe n := by rw [hw]; exact ha
  have hfe : (s.writeReg d w).fe n = { s.fe n with h := (s.fe n).h.setReg d w } := by rw [hw, State.fe_setFe]
  have hfin : s.finish i d w = ((s.setFe n { s.fe n with h := (s.fe n).h.setReg d w }).setFe n
      { s.fe n with h := ((s.fe n).h.setReg d w).at ((s.fe n).h.pc + 1) }).setFe n
      { s.fe n with h := ((s.fe n).h.setReg d w).at ((s.fe n).h.pc + 1), instret := (s.fe n).instret + 1 } := by
    simp only [State.finish, hpops]
    rw [State.goTo_fe hag, State.hart_fe hag, hfe, hw, Hart.setReg_pc]
  have hagent : (s.finish i d w).agent = .fe n := by rw [hfin]; exact ha
  have hcore : (s.finish i d w).fe n = { s.fe n with
      h := (s.hart.setReg d w).at (s.hart.pc + 1), instret := (s.fe n).instret + 1 } := by
    rw [hfin, State.fe_setFe, State.hart_fe ha]
  refine ⟨?_, by rw [hfin]; rfl, hcore, fun c hc => ?_⟩
  · rw [State.hart_fe hagent, hcore]
  · rw [hfin, State.fe_setFe_ne _ _ _ _ hc, State.fe_setFe_ne _ _ _ _ hc, State.fe_setFe_ne _ _ _ _ hc]

end

/-- Settles O6: what is left of the state by each kind of agent, and the registers of the hart that it leaves. -/
theorem finishWritesOnlyItsRegister : Obligations.FinishWritesOnlyItsRegister := by
  intro s i d w hready
  cases ha : s.agent with
  | core lc =>
    obtain ⟨f, l, hl, hhart, hrest, hsf, hcore, hothers⟩ := finishes_core ha hready d w
    refine ⟨fun r => ?_, ?_, ?_, ?_, hothers, f, l, hl, ?_⟩
    · rw [hhart, hsf, Hart.at_reg, Hart.reg_setReg]
    · rw [hhart, hsf]; exact Hart.setReg_at ..
    · exact congrArg (fun u : State => { u with fes := s.fes }) hrest
    · exact (congrArg State.fes hrest :)
    · rw [hcore, hhart]
  | fe n =>
    obtain ⟨hhart, hrest, hfe, hothers⟩ := finishes_fe ha i d w
    refine ⟨fun r => ?_, ?_, ?_, ?_, hothers, ?_⟩
    · rw [hhart, Hart.at_reg, Hart.reg_setReg]
    · rw [hhart]; exact Hart.setReg_at ..
    · exact congrArg (fun u : State => { u with cores := s.cores }) hrest
    · exact (congrArg State.cores hrest :)
    · rw [hfe, hhart]

end Sys2Proof.Machine
end


section
/-! PROOFS. Branches, jumps, and global loads and stores (R308, R309, R318 to R321). -/

namespace Sys2Proof.Machine

/-! ### Branches and jumps (R318 to R320) -/

section
variable {s : State} {i : Instr} {t : Int} {link : Option Reg}

theorem State.jump_outside {v : Word} (h : s.target t = .outside v) : s.jump i t link = s.trap ADDRESS v := by
  simp only [State.jump, h]

theorem State.jump_handler (h : s.target t = .handler) : s.jump i t link = s.trap ILLEGAL (wordOf i) := by
  simp only [State.jump, h, State.illegal]

theorem State.jump_ok {pc : Nat} (h : s.target t = .ok pc) : s.jump i t none = (s.pops i).goTo pc := by
  simp only [State.jump, h]

theorem State.jump_link {pc : Nat} {r : Reg} (h : s.target t = .ok pc) : s.jump i t (some r) =
    ((s.pops i).writeReg r (BitVec.ofNat 64 ((s.pops i).hart.pc + 1))).goTo pc := by simp only [State.jump, h]

theorem State.pops_of_no_srcs (h : srcs i = []) : s.pops i = s := by
  unfold State.pops
  split
  · rw [h]; rfl
  · rfl

end

/-- A form whose meaning is `branch` goes to its target where its condition holds. -/
theorem branches_of {i : Reg → Reg → BitVec 16 → Instr} {p : Word → Word → Bool} {c : Word → Word → Prop}
    (hp : ∀ x y, p x y = true ↔ c x y) (h : ∀ a b o s, exec (i a b o) s = branch (i a b o) o p s) : Branches i c := by
  intro a b o x y s hv
  rw [h, branch, State.run_go _ _ _ _ hv]
  refine ⟨fun hc => ?_, fun hc => ⟨fun pc ht => ?_, fun v ht => ?_, fun ht => ?_⟩⟩
  · exact congrArg _ (if_neg fun hb => hc ((hp x y).1 hb))
  · exact congrArg _ ((if_pos ((hp x y).2 hc)).trans (State.jump_ok ht))
  · exact congrArg _ ((if_pos ((hp x y).2 hc)).trans (State.jump_outside ht))
  · exact congrArg _ ((if_pos ((hp x y).2 hc)).trans (State.jump_handler ht))

section
variable {s : State} {o : BitVec 26} {d a : Reg} {n : BitVec 16} {x : Word} {v : List Word}

theorem exec_j (hv : s.front (.j o) = .go v) : exec (.j o) s = .next (s.jump (.j o) (s.hart.pc + o.toInt) none) :=
  State.run_go _ _ _ _ hv

theorem exec_jal (hv : s.front (.jal o) = .go v) :
    exec (.jal o) s = .next (s.jump (.jal o) (s.hart.pc + o.toInt) (some linkReg)) := State.run_go _ _ _ _ hv

theorem exec_jalr (hv : s.front (.jalr d a n) = .go [x]) : exec (.jalr d a n) s =
    .next (s.jump (.jalr d a n) ((x + n.signExtend 64).toNat : Int) (some d)) :=
  State.run_go s (.jalr d a n) [x] (fun v => s.jump (.jalr d a n) ((v.getD 0 0 + immS n).toNat : Int) (some d)) hv

end

/-- Settles O11: a branch by its condition, and a jump by where its target lies. -/
theorem controlFlowResults : Obligations.ControlFlowResults := by
  refine ⟨?_, ?_, ?_, ?_, ?_, ?_, fun s o d a n x v => ⟨fun hv => ?_, fun hv => ?_, fun hv => ?_⟩⟩
  · exact branches_of (p := fun x y => x == y) (fun x y => beq_iff_eq) fun _ _ _ _ => rfl
  · exact branches_of (p := fun x y => x != y) (fun x y => bne_iff_ne) fun _ _ _ _ => rfl
  · exact branches_of (p := fun x y => x.slt y) (fun x y => decide_eq_true_iff) fun _ _ _ _ => rfl
  · exact branches_of (p := fun x y => !x.slt y) (fun x y => by simp [slt_eq_decide]) fun _ _ _ _ => rfl
  · exact branches_of (p := fun x y => x.ult y) (fun x y => decide_eq_true_iff) fun _ _ _ _ => rfl
  · exact branches_of (p := fun x y => !x.ult y) (fun x y => by simp [ult_eq_decide]) fun _ _ _ _ => rfl
  · rw [exec_j hv]
    refine ⟨fun pc h => ?_, fun w h => by rw [State.jump_outside h]⟩
    rw [State.jump_ok h, State.pops_of_no_srcs rfl]
  · rw [exec_jal hv]
    refine ⟨fun pc h => ?_, fun w h => by rw [State.jump_outside h]⟩
    rw [State.jump_link h, State.pops_of_no_srcs rfl]
    rfl
  · rw [exec_jalr hv]
    exact ⟨fun pc h => by rw [State.jump_link h], fun w h => by rw [State.jump_outside h]⟩

/-! ### The order of checks (R308, R309) -/

theorem not_aligned {a : Word} {n : Nat} (h : a.toNat % n ≠ 0) : aligned a n = false :=
  Bool.eq_false_iff.2 fun hb => h ((aligned_iff a n).1 hb)

section
variable {s s1 s2 : State} {a : Word} {n need v x : Nat} {whole bytes : State → Acc} {k : Nat → State → State}
  (hs : s.spaceOk a n = true) (ha : a.toNat % n ≠ 0) (hi : s.ignores ALIGN = true) (hp : s.pagesOf a n need = .ok v s1)
include hs ha hi hp

/-- A misaligned access that is ignored is the accesses of its bytes. -/
theorem State.checked_ignored (hb : bytes s1 = .ok x s2) : s.checked a n need whole bytes k = k x (s2.ignore ALIGN a) := by
  simp [State.checked, hs, not_aligned ha, hi, hp, hb]

theorem State.checked_ignored_waits (hb : bytes s1 = .wait s2) : s.checked a n need whole bytes k = s2 := by
  simp [State.checked, hs, not_aligned ha, hi, hp, hb, State.waited]

end

/-! ### Global loads and stores (R321) -/

theorem loads1_of {i : Reg → Reg → BitVec 16 → Instr} {n : Nat} {signed : Bool} {ext : Nat → Word}
    (hext : ∀ x, extended signed n x = ext x)
    (h : ∀ d a o s, exec (i d a o) s = loadForm (i d a o) d o n signed s) : Loads1 i n ext := by
  intro d a o b s hv
  rw [h, loadForm, State.run_go _ _ _ _ hv, funext hext]
  simp only [List.getD_cons_zero, immS]
  refine ⟨fun hs => ?_, fun hs ha => ?_, fun hs ha hi => ?_, fun v x s1 s2 hs ha hi hp => ⟨fun hb => ?_, fun hb => ?_⟩⟩
  · exact congrArg _ (State.checked_space _ _ _ _ _ _ _ hs)
  · rw [State.checked_aligned _ _ _ _ _ _ _ hs ((aligned_iff _ _).2 ha)]
    exact follows_afterAcc ..
  · exact congrArg _ (State.checked_misaligned _ _ _ _ _ _ _ hs (not_aligned ha) hi)
  · exact congrArg _ (State.checked_ignored hs ha hi hp hb)
  · exact congrArg _ (State.checked_ignored_waits hs ha hi hp hb)

theorem stores1_of {i : Reg → Reg → BitVec 16 → Instr} {n : Nat}
    (h : ∀ d a o s, exec (i d a o) s = storeForm (i d a o) o n s) : Stores1 i n := by
  intro d a o b y s hv
  rw [h, storeForm, State.run_go _ _ _ _ hv]
  simp only [List.getD_cons_zero, List.getD_cons_succ, immS]
  refine ⟨fun hs => ?_, fun hs ha => ?_, fun hs ha hi => ?_, fun v x s1 s2 hs ha hi hp => ⟨fun hb => ?_, fun hb => ?_⟩⟩
  · exact congrArg _ (State.checked_space _ _ _ _ _ _ _ hs)
  · rw [State.checked_aligned _ _ _ _ _ _ _ hs ((aligned_iff _ _).2 ha)]
    exact follows_afterAcc ..
  · exact congrArg _ (State.checked_misaligned _ _ _ _ _ _ _ hs (not_aligned ha) hi)
  · exact congrArg _ (State.checked_ignored hs ha hi hp hb)
  · exact congrArg _ (State.checked_ignored_waits hs ha hi hp hb)

/-- What a signed load of one, two or four bytes leaves. -/
theorem extended_signed {n : Nat} (h0 : 0 < 8 * n) (hn : 8 * n ≤ 64) (x : Nat) :
    extended true n x = (BitVec.ofNat (8 * n) x).signExtend 64 := sext_eq_signExtend x h0 hn

theorem extended_unsigned (n x : Nat) : extended false n x = BitVec.ofNat 64 x := rfl

theorem extended_double (x : Nat) : extended true 8 x = BitVec.ofNat 64 x := by
  rw [extended_signed (by decide) (by decide)]
  exact BitVec.signExtend_eq _

/-- Settles O13: a load is `loadForm` and a store `storeForm` of its size. -/
theorem loadStoreResults : Obligations.LoadStoreResults :=
  ⟨loads1_of (extended_signed (n := 1) (by decide) (by decide)) fun _ _ _ _ => rfl,
    loads1_of (extended_unsigned 1) fun _ _ _ _ => rfl,
    loads1_of (extended_signed (n := 2) (by decide) (by decide)) fun _ _ _ _ => rfl,
    loads1_of (extended_unsigned 2) fun _ _ _ _ => rfl,
    loads1_of (extended_signed (n := 4) (by decide) (by decide)) fun _ _ _ _ => rfl,
    loads1_of (extended_unsigned 4) fun _ _ _ _ => rfl, loads1_of extended_double fun _ _ _ _ => rfl,
    stores1_of fun _ _ _ _ => rfl, stores1_of fun _ _ _ _ => rfl, stores1_of fun _ _ _ _ => rfl,
    stores1_of fun _ _ _ _ => rfl⟩

end Sys2Proof.Machine
end


section
/-! PROOFS. Near loads and stores (R309, R322). -/

namespace Sys2Proof.Machine

/-! ### Accesses that an instruction makes one a step -/

section
variable {s t : State} {addr : Word} {keep last : Bool} {acc : State → Acc} {k v : Nat}

/-- An access that has been performed gives its value again. -/
theorem State.access_given {q : Sent} (hq : s.hart.sent[k]? = some q) (ha : q.answer = some (.data (leBytes 8 v))) :
    s.access k last keep addr acc = .ok (v % 256 ^ 8) s := by
  obtain ⟨qa, qt, qk, qs⟩ := q
  subst ha
  simp only [State.access, hq, leNat_leBytes]

section
variable (hk : s.hart.sent.length = k) (hacc : acc (s.setHart { s.hart with sent := [] }) = .ok v t) (ht : t.hart.sent = [])
include hk hacc

/-- An access that follows those performed, and is not the last, is kept with the instruction. -/
theorem State.access_next : s.access k false keep addr acc =
    .wait (t.setHart { t.hart with sent := s.hart.sent ++ [⟨addr, 0, keep, some (.data (leBytes 8 v))⟩] }) := by
  subst hk
  simp [State.access, hacc]

include ht

theorem State.access_last : s.access k true keep addr acc = .ok v (t.setHart { t.hart with sent := s.hart.sent }) := by
  subst hk
  simp [State.access, hacc, ht]

end
end

/-- From the k-th access of an instruction on, the accesses performed have given the values vs (R209). -/
def NotedFrom (l : List Sent) (k : Nat) (vs : List Nat) : Prop :=
  l.length = k + vs.length ∧ ∀ j v, vs[j]? = some v → ∃ q, l[k + j]? = some q ∧ q.answer = some (.data (leBytes 8 v))

theorem Noted.from_zero {l : List Sent} {vs : List Nat} (h : Noted l vs) : NotedFrom l 0 vs := by
  obtain ⟨hlen, hq⟩ := h
  refine ⟨by omega, fun j v hv => ?_⟩
  obtain ⟨hj, rfl⟩ := List.getElem?_eq_some_iff.1 hv
  have hl : l[0 + j]? = some l[j] := by simp [show j < l.length by omega]
  refine ⟨_, hl, ?_⟩
  rw [hq j _ (by rw [← hl, Nat.zero_add]), List.getD_eq_getElem _ _ hj]

theorem NotedFrom.tail {l : List Sent} {k v : Nat} {vs : List Nat} (h : NotedFrom l k (v :: vs)) : NotedFrom l (k + 1) vs := by
  obtain ⟨hlen, hq⟩ := h
  refine ⟨by simp only [List.length_cons] at hlen; omega, fun j w hw => ?_⟩
  obtain ⟨q, hl, ha⟩ := hq (j + 1) w (by simpa using hw)
  exact ⟨q, by rw [← hl]; congr 1; omega, ha⟩

theorem add_one_ofNat (a : Word) (n : Nat) : a + 1 + BitVec.ofNat 64 n = a + BitVec.ofNat 64 (n + 1) := by
  rw [BitVec.add_assoc, BitVec.add_right_inj, BitVec.add_comm, BitVec.ofNat_add]; rfl

section
variable {s t u : State} {addr : Word} {k n x v : Nat} {vs : List Nat}

/-- Byte loads go on behind those that have been performed. -/
theorem State.eachLoad_resumes {one : State → Word → Acc} (h : NotedFrom s.hart.sent k vs) (hvs : ∀ v ∈ vs, v < 256) :
    s.eachLoad one addr k (vs.length + n) = match s.eachLoad one (addr + BitVec.ofNat 64 vs.length) (k + vs.length) n with
      | .ok r t => .ok (vs.foldr (fun v r => v + 256 * r) r) t
      | x => x := by
  induction vs generalizing addr k with
  | nil => simp only [List.length_nil, Nat.zero_add, Nat.add_zero, BitVec.add_zero, List.foldr_nil]; split <;> simp_all
  | cons v vs ih =>
    obtain ⟨q, hl, ha⟩ := h.2 0 v rfl
    have hb : v < 256 := hvs v (List.mem_cons_self ..)
    rw [show (v :: vs).length + n = (vs.length + n) + 1 by simp; omega, State.eachLoad,
      State.access_given (by exact hl) ha, Nat.mod_eq_of_lt (by omega)]
    simp only [ih h.tail fun w hw => hvs w (List.mem_cons_of_mem _ hw)]
    rw [add_one_ofNat, show k + 1 + vs.length = k + (v :: vs).length by simp; omega, List.length_cons]
    cases s.eachLoad one (addr + BitVec.ofNat 64 (vs.length + 1)) (k + (vs.length + 1)) n <;> rfl

theorem State.eachStore_resumes {one : State → Word → Nat → Acc} (h : NotedFrom s.hart.sent k vs) :
    s.eachStore one addr k (vs.length + n) x =
      s.eachStore one (addr + BitVec.ofNat 64 vs.length) (k + vs.length) n (x / 256 ^ vs.length) := by
  induction vs generalizing addr k x with
  | nil => simp
  | cons v vs ih =>
    obtain ⟨q, hl, ha⟩ := h.2 0 v rfl
    rw [show (v :: vs).length + n = (vs.length + n) + 1 by simp; omega, State.eachStore,
      State.access_given (by exact hl) ha]
    simp only [ih h.tail]
    rw [add_one_ofNat, show k + 1 + vs.length = k + (v :: vs).length by simp; omega, Nat.div_div_eq_div_mul, List.length_cons, pow_succ']

end
/-! ### Near loads and stores (R322) -/

section
variable {s : State} {lc : Nat} {off : Word} {n : Nat}

theorem State.nearLoad_waits (hb : off.toNat + n ≤ 0x60000) (ha : s.armedAt lc off.toNat n = true) : s.nearLoad lc off n = .wait s := by
  simp [State.nearLoad, Nat.not_lt.2 hb, ha]

theorem State.nearLoad_bad (hb : off.toNat + n ≤ 0x60000) (ha : s.armedAt lc off.toNat n = false)
    (hc : s.anyBadCellar (span (cellarKey lc off.toNat) n) = true) : s.nearLoad lc off n = .trap DATA off := by
  simp [State.nearLoad, Nat.not_lt.2 hb, ha, hc]

theorem State.nearLoad_ok (hb : off.toNat + n ≤ 0x60000) (ha : s.armedAt lc off.toNat n = false)
    (hc : s.anyBadCellar (span (cellarKey lc off.toNat) n) = false) :
    s.nearLoad lc off n = .ok (s.readCellar (span (cellarKey lc off.toNat) n)) s := by
  simp [State.nearLoad, Nat.not_lt.2 hb, ha, hc]

theorem State.nearStore_bad {v : Nat} (hb : off.toNat + n ≤ 0x60000)
    (hc : s.storableCellar (span (cellarKey lc off.toNat) n) = false) : s.nearStore lc off n v = .trap DATA off := by
  simp [State.nearStore, Nat.not_lt.2 hb, hc]

theorem State.nearStore_ok {v : Nat} (hb : off.toNat + n ≤ 0x60000)
    (hc : s.storableCellar (span (cellarKey lc off.toNat) n) = true) :
    s.nearStore lc off n v = .ok 0 (s.writeCellar (span (cellarKey lc off.toNat) n) (leBytes n v)) := by
  simp [State.nearStore, Nat.not_lt.2 hb, hc]

/-! The steps about a near access, on a compute core. -/

section
variable {acc bytes : Nat → Acc} {k : Nat → State → State} (ha : s.agent = .core lc)
include ha

theorem State.checkedNear_range (hb : 0x60000 < off.toNat + n) : s.checkedNear off n acc bytes k = s.trap ADDRESS off := by
  simp [State.checkedNear, ha, hb]

theorem State.checkedNear_misaligned (hb : off.toNat + n ≤ 0x60000) (hm : off.toNat % n ≠ 0) (hi : s.ignores ALIGN = false) :
    s.checkedNear off n acc bytes k = s.trap ALIGN off := by
  simp [State.checkedNear, ha, Nat.not_lt.2 hb, not_aligned hm, hi]

section
variable (hb : off.toNat + n ≤ 0x60000) (hm : off.toNat % n ≠ 0) (hi : s.ignores ALIGN = true) {s1 : State} {c v : Nat} {w : Word}
include hb hm hi

theorem State.checkedNear_traps (h : bytes lc = .trap c w) : s.checkedNear off n acc bytes k = (s.ignore ALIGN off).trap c off := by
  simp [State.checkedNear, ha, Nat.not_lt.2 hb, not_aligned hm, hi, h]

theorem State.checkedNear_waits (h : bytes lc = .wait s1) : s.checkedNear off n acc bytes k = s.waited s1 := by
  simp [State.checkedNear, ha, Nat.not_lt.2 hb, not_aligned hm, hi, h]

theorem State.checkedNear_ignored (h : bytes lc = .ok v s1) : s.checkedNear off n acc bytes k = k v (s1.ignore ALIGN off) := by
  simp [State.checkedNear, ha, Nat.not_lt.2 hb, not_aligned hm, hi, h]

end
end
end

/-! A change of the hart leaves the arms and the cellars. -/

section
variable {s : State} {lc : Nat}

theorem State.setTop_arms (c : Nat) (f : Frame) : ((s.setTop lc f).core c).arms = (s.core c).arms := by
  cases hl : (s.core lc).frames with
  | nil => simp only [State.setTop, hl]
  | cons g l =>
    rw [State.setTop_cons hl]
    by_cases h : c = lc
    · subst h; rw [State.core_setCore]
    · rw [State.core_setCore_ne _ _ _ _ h]

theorem State.setHart_arms (c : Nat) (h : Hart) : ((s.setHart h).core c).arms = (s.core c).arms := by
  unfold State.setHart
  split
  · split
    · rfl
    · exact State.setTop_arms ..
  · rfl

@[simp] theorem State.setHart_armedAt (c off n : Nat) (h : Hart) : (s.setHart h).armedAt c off n = s.armedAt c off n := by
  simp only [State.armedAt, State.setHart_arms]

@[simp] theorem State.setHart_anyBadCellar (h : Hart) (l : List Nat) : (s.setHart h).anyBadCellar l = s.anyBadCellar l := by
  simp only [State.anyBadCellar, funext fun a => show (s.setHart h).badCellarAt a = s.badCellarAt a by rw [State.badCellarAt, State.setHart_mem]; rfl]

@[simp] theorem State.setHart_storableCellar (h : Hart) (l : List Nat) : (s.setHart h).storableCellar l = s.storableCellar l := by
  simp only [State.storableCellar, funext fun a => show (s.setHart h).badCellarAt a = s.badCellarAt a by rw [State.badCellarAt, State.setHart_mem]; rfl]

@[simp] theorem State.setHart_readCellar (h : Hart) (l : List Nat) : (s.setHart h).readCellar l = s.readCellar l := by
  rw [State.readCellar, State.setHart_mem]; rfl

/-- An agent that executes an instruction has a hart to write. -/
theorem State.hart_setHart {i : Instr} {v : List Word} (hv : s.front i = .go v) (h : Hart) : (s.setHart h).hart = h := by
  cases ha : s.agent with
  | fe n => rw [State.hart_fe ((s.setHart_agent h).trans ha), State.setHart_fe ha, State.fe_setFe]
  | core lc =>
    cases hf : s.top lc with
    | none => simp [State.front, ha, hf] at hv
    | some f =>
      rw [State.setHart_core ha hf]
      exact State.hart_of_top (f := { f with h := h }) ((s.setTop_agent ..).trans ha) (s.setTop_top _ _ _ hf)

theorem State.writeCellar_hart (l : List Nat) (bs : List Byte) : (s.writeCellar l bs).hart = s.hart := rfl

end

theorem toNat_add_ofNat {off : Word} {n k : Nat} (hb : off.toNat + n ≤ 0x60000) (hk : k < n) :
    (off + BitVec.ofNat 64 k).toNat = off.toNat + k := by
  rw [BitVec.toNat_add, BitVec.toNat_ofNat]; omega

theorem leBytes_drop_take {n k x : Nat} (h : k < n) : (leBytes n x |>.drop k |>.take 1) = leBytes 1 (x / 256 ^ k % 256) := by
  induction n generalizing k x with
  | zero => omega
  | succ n ih =>
    cases k with
    | zero => simp [leBytes, ← BitVec.toNat_inj]
    | succ k => rw [leBytes, List.drop_succ_cons, ih (by omega), pow_succ', Nat.div_div_eq_div_mul]

section
variable {s : State} {lc n : Nat} {off : Word} {i : Instr} {v : List Word} {vs : List Nat} (hv : s.front i = .go v)
  (hb : off.toNat + n ≤ 0x60000) (hn : Noted s.hart.sent vs)
include hv hb hn

section
variable (hlt : ∀ v ∈ vs, v < 256) (harm : s.armedAt lc (off.toNat + vs.length) 1 = false)
  (hbad : s.badCellarAt (cellarKey lc (off.toNat + vs.length)) = false)
include hlt harm hbad

omit hv hn hlt in
/-- The byte of a misaligned near load that follows those read. -/
theorem State.nearLoad_byte (hl : vs.length < n) : let t := s.setHart { s.hart with sent := [] }
    t.nearLoad lc (off + BitVec.ofNat 64 vs.length) 1 = .ok (s.readCellar [cellarKey lc (off.toNat + vs.length)]) t := by
  intro t
  have h := toNat_add_ofNat hb hl
  have hok := State.nearLoad_ok (s := t) (lc := lc) (off := off + BitVec.ofNat 64 vs.length) (n := 1) (by omega)
    (by rw [h, State.setHart_armedAt, harm]) (by rw [h, State.setHart_anyBadCellar]; simpa [span, State.anyBadCellar] using hbad)
  rwa [h, State.setHart_readCellar] at hok

omit hv in
theorem State.nearLoadBytes_next (hl : vs.length + 1 < n) : let t := s.setHart { s.hart with sent := [] }
    s.nearLoadBytes lc off n = .wait (t.setHart { t.hart with sent := s.hart.sent ++
      [⟨off + BitVec.ofNat 64 vs.length, 0, false, some (.data (leBytes 8 (s.readCellar [cellarKey lc (off.toNat + vs.length)])))⟩] }) := by
  intro t
  obtain ⟨m, rfl⟩ : ∃ m, n = vs.length + (m + 1 + 1) := ⟨n - vs.length - 2, by omega⟩
  have hacc := State.nearLoad_byte hb harm hbad (by omega)
  rw [State.nearLoadBytes, State.eachLoad_resumes hn.from_zero hlt, State.eachLoad, Nat.zero_add,
    show (m + 1 == 0) = false from rfl, State.access_next hn.1 hacc]

theorem State.nearLoadBytes_last (hl : vs.length + 1 = n) : let t := s.setHart { s.hart with sent := [] }
    s.nearLoadBytes lc off n = .ok (vs.foldr (fun v r => v + 256 * r) (s.readCellar [cellarKey lc (off.toNat + vs.length)]))
      (t.setHart { t.hart with sent := s.hart.sent }) := by
  intro t
  subst hl
  have hacc := State.nearLoad_byte hb harm hbad (by omega)
  rw [State.nearLoadBytes, State.eachLoad_resumes hn.from_zero hlt, State.eachLoad, Nat.zero_add,
    show ((0 : Nat) == 0) = true from rfl, State.access_last hn.1 hacc (by rw [State.hart_setHart hv])]
  rfl

end

section
variable {x : Nat} (hs0 : vs = [] → s.storableCellar (span (cellarKey lc off.toNat) n) = true)
  (hs : s.storableCellar [cellarKey lc (off.toNat + vs.length)] = true)
include hs0 hs

omit hb hs hv in
/-- The codewords of a misaligned near store have been checked, now or before its first byte. -/
theorem State.nearStoreBytes_eq : s.nearStoreBytes lc off n x = s.eachStore (fun t a x => t.nearStore lc a 1 x) off 0 n x := by
  unfold State.nearStoreBytes
  refine if_neg fun h => ?_
  simp only [Bool.and_eq_true, beq_iff_eq, Bool.not_eq_true'] at h
  have hvs : vs = [] := List.length_eq_zero_iff.1 (by rw [← hn.1, h.1]; rfl)
  rw [hs0 hvs] at h
  exact absurd h.2 (by simp)

omit hs0 hn hv in
theorem State.nearStore_byte (hl : vs.length < n) : let t := s.setHart { s.hart with sent := [] }
    t.nearStore lc (off + BitVec.ofNat 64 vs.length) 1 (x / 256 ^ vs.length % 256) =
      .ok 0 (t.writeCellar [cellarKey lc (off.toNat + vs.length)] ((leBytes n x).drop vs.length |>.take 1)) := by
  intro t
  have h := toNat_add_ofNat hb hl
  have hok := State.nearStore_ok (s := t) (lc := lc) (off := off + BitVec.ofNat 64 vs.length) (n := 1) (v := x / 256 ^ vs.length % 256)
    (by omega) (by rw [h, State.setHart_storableCellar]; exact hs)
  rw [hok, h, leBytes_drop_take hl]
  rfl

omit hv in
theorem State.nearStoreBytes_next (hl : vs.length + 1 < n) :
    let t := (s.setHart { s.hart with sent := [] }).writeCellar [cellarKey lc (off.toNat + vs.length)]
      ((leBytes n x).drop vs.length |>.take 1)
    s.nearStoreBytes lc off n x = .wait (t.setHart { t.hart with sent := s.hart.sent ++
      [⟨off + BitVec.ofNat 64 vs.length, 0, true, some (.data (leBytes 8 0))⟩] }) := by
  intro t
  rw [State.nearStoreBytes_eq hn hs0]
  obtain ⟨m, hm⟩ : ∃ m, n = vs.length + (m + 1 + 1) := ⟨n - vs.length - 2, by omega⟩
  have hacc := State.nearStore_byte (x := x) hb hs (by omega)
  have hr := State.eachStore_resumes (one := fun t a x => t.nearStore lc a 1 x) (addr := off) (x := x) (n := m + 1 + 1) hn.from_zero
  rw [← hm] at hr
  rw [hr, State.eachStore, Nat.zero_add, show (m + 1 == 0) = false from rfl, State.access_next hn.1 hacc]

theorem State.nearStoreBytes_last (hl : vs.length + 1 = n) :
    let t := (s.setHart { s.hart with sent := [] }).writeCellar [cellarKey lc (off.toNat + vs.length)]
      ((leBytes n x).drop vs.length |>.take 1)
    s.nearStoreBytes lc off n x = .ok 0 (t.setHart { t.hart with sent := s.hart.sent }) := by
  intro t
  rw [State.nearStoreBytes_eq hn hs0]
  have hacc := State.nearStore_byte (x := x) hb hs (by omega)
  have hr := State.eachStore_resumes (one := fun t a x => t.nearStore lc a 1 x) (addr := off) (x := x) (n := 1) hn.from_zero
  rw [hl] at hr
  rw [hr, State.eachStore, Nat.zero_add, show ((0 : Nat) == 0) = true from rfl,
    State.access_last hn.1 hacc (by rw [State.writeCellar_hart, State.hart_setHart hv])]
  rfl

end
end

theorem nearLoads_of {i : Reg → Reg → BitVec 16 → Instr} {n : Nat} {signed : Bool} {ext : Nat → Word}
    (hext : ∀ x, extended signed n x = ext x)
    (h : ∀ d a o s, exec (i d a o) s = loadNear (i d a o) d o n signed s) : NearLoads i n ext := by
  intro d a o b lc s ha hv
  rw [h, loadNear, State.run_go _ _ _ _ hv, funext hext]
  simp only [List.getD_cons_zero, immS]
  refine ⟨fun hb => ?_, fun hb hm hi => ?_, fun hb hm => ?_, fun hb hm hi vs t hn hl hlt ht => ?_⟩
  · exact congrArg _ (State.checkedNear_range ha hb)
  · exact congrArg _ (State.checkedNear_misaligned ha hb hm hi)
  · rw [State.checkedNear_aligned _ _ _ _ _ _ _ ha hb ((aligned_iff _ _).2 hm)]
    obtain ⟨hok, htrap, hwait⟩ := follows_afterAcc s (s.nearLoad lc (b + o.signExtend 64) n) fun x s1 => s1.finish (i d a o) d (ext x)
    exact ⟨fun h => hwait _ (State.nearLoad_waits hb h), fun h hc => htrap _ _ (State.nearLoad_bad hb h hc),
      fun h hc => hok _ _ (State.nearLoad_ok hb h hc)⟩
  · subst ht
    intro harm hbad
    exact ⟨fun hl => congrArg _ (State.checkedNear_waits ha hb hm hi (State.nearLoadBytes_next hb hn hlt harm hbad hl)),
      fun hl => congrArg _ (State.checkedNear_ignored ha hb hm hi (State.nearLoadBytes_last hv hb hn hlt harm hbad hl))⟩

theorem nearStores_of {i : Reg → Reg → BitVec 16 → Instr} {n : Nat}
    (h : ∀ d a o s, exec (i d a o) s = storeNear (i d a o) o n s) : NearStores i n := by
  intro d a o b y lc s ha hv
  rw [h, storeNear, State.run_go _ _ _ _ hv]
  simp only [List.getD_cons_zero, List.getD_cons_succ, immS]
  refine ⟨fun hb => ?_, fun hb hm hi => ?_, fun hb hm => ?_, fun hb hm hi => ⟨fun hs hc => ?_, fun vs t hn hl hs0 hs ht => ?_⟩⟩
  · exact congrArg _ (State.checkedNear_range ha hb)
  · exact congrArg _ (State.checkedNear_misaligned ha hb hm hi)
  · rw [State.checkedNear_aligned _ _ _ _ _ _ _ ha hb ((aligned_iff _ _).2 hm)]
    obtain ⟨hok, htrap, -⟩ := follows_afterAcc s (s.nearStore lc (b + o.signExtend 64) n (y.toNat % 2 ^ (8 * n)))
      fun _ s1 => s1.retire (i d a o)
    exact ⟨fun hc => htrap _ _ (State.nearStore_bad hb hc), fun hc => hok _ _ (State.nearStore_ok hb hc)⟩
  · have hbytes : s.nearStoreBytes lc (b + o.signExtend 64) n (y.toNat % 2 ^ (8 * n)) = .trap DATA (b + o.signExtend 64) := by
      rw [State.nearStoreBytes, hs, hc]; rfl
    exact congrArg _ (State.checkedNear_traps ha hb hm hi hbytes)
  · subst ht
    exact ⟨fun hl => congrArg _ (State.checkedNear_waits ha hb hm hi (State.nearStoreBytes_next hb hn hs0 hs hl)),
      fun hl => congrArg _ (State.checkedNear_ignored ha hb hm hi (State.nearStoreBytes_last hv hb hn hs0 hs hl))⟩

/-- Settles O14: a near load is `loadNear` and a near store `storeNear` of its size. -/
theorem nearResults : Obligations.NearResults :=
  ⟨nearLoads_of (extended_signed (n := 1) (by decide) (by decide)) fun _ _ _ _ => rfl,
    nearLoads_of (extended_unsigned 1) fun _ _ _ _ => rfl,
    nearLoads_of (extended_signed (n := 2) (by decide) (by decide)) fun _ _ _ _ => rfl,
    nearLoads_of (extended_unsigned 2) fun _ _ _ _ => rfl,
    nearLoads_of (extended_signed (n := 4) (by decide) (by decide)) fun _ _ _ _ => rfl,
    nearLoads_of (extended_unsigned 4) fun _ _ _ _ => rfl, nearLoads_of extended_double fun _ _ _ _ => rfl,
    nearStores_of fun _ _ _ _ => rfl, nearStores_of fun _ _ _ _ => rfl, nearStores_of fun _ _ _ _ => rfl,
    nearStores_of fun _ _ _ _ => rfl⟩

end Sys2Proof.Machine
end


section
/-! PROOFS. What a load and a store may change (R321). -/

namespace Sys2Proof.Machine

/-! ### A load -/

/-- A state has the bytes, the hart and the agent of another. -/
def State.Loaded (s t : State) : Prop := t.data = s.data ∧ t.hart = s.hart ∧ t.agent = s.agent

theorem State.Loaded.refl (s : State) : s.Loaded s := ⟨rfl, rfl, rfl⟩

theorem State.Loaded.trans {s t u : State} (h : s.Loaded t) (k : t.Loaded u) : s.Loaded u :=
  ⟨k.1.trans h.1, k.2.1.trans h.2.1, k.2.2.trans h.2.2⟩

theorem State.Translated.loaded {s t : State} (h : s.Translated t) : s.Loaded t := by
  obtain ⟨_, _, _, rfl⟩ := h
  exact .refl s

theorem State.leaseLoads_agent (s : State) (lc : Nat) (l : List Nat) : (s.leaseLoads lc l).agent = s.agent :=
  List.foldlRecOn (motive := fun t : State => t.agent = s.agent) (linesOf l) _ rfl fun t h a _ => by
    refine Eq.trans ?_ h
    unfold State.leaseLoad
    dsimp only
    split <;> rfl

section
variable {s t : State} {lc n x : Nat} {ea : Word}

theorem State.leaseLoads_loaded (ha : s.agent = .core lc) (l : List Nat) : s.Loaded (s.leaseLoads lc l) := by
  have hag := s.leaseLoads_agent lc l
  refine ⟨s.leaseLoads_data lc l, ?_, hag⟩
  simp only [State.hart, hag, ha, s.leaseLoads_top]

/-- The answer of an access that has been sent is given where it is. -/
theorem State.ask_ok {dev : Option Nat} {pa nth : Nat} {op : RemoteOp} (h : s.ask ea dev pa op nth = .ok x t) : t = s := by
  unfold State.ask at h
  split at h
  · cases h
  · cases h; rfl
  · cases h
  · split at h
    · split at h <;> cases h
    · cases h

theorem State.loadPart_loaded (ha : s.agent = .core lc) {p : Nat × List Nat} (h : s.loadPart lc ea p = .ok x t) : s.Loaded t := by
  unfold State.loadPart at h
  dsimp only at h
  split at h
  · rw [State.ask_ok h]; exact .refl s
  · rw [State.ask_ok h]; exact .refl s
  · split at h
    · cases h
    · cases h; exact State.leaseLoads_loaded ha _

theorem State.loadParts_loaded (ha : s.agent = .core lc) {l : List (Nat × List Nat)} (h : s.loadParts lc ea l = .ok x t) :
    s.Loaded t := by
  unfold State.loadParts at h
  split at h
  · exact State.loadPart_loaded ha h
  · dsimp only at h
    split at h
    · next s1 h1 =>
      have hfirst := State.loadPart_loaded ha h1
      split at h
      · next h2 => cases h; exact hfirst.trans (State.loadPart_loaded (hfirst.2.2.trans ha) h2)
      · cases h
      · next hno _ => exact (hno _ _ h).elim
    · cases h
    · next hno _ => exact (hno _ _ h).elim
  · cases h; exact .refl s

theorem State.coreLoad_loaded (ha : s.agent = .core lc) (h : s.coreLoad lc ea n = .ok x t) : s.Loaded t := by
  unfold State.coreLoad at h
  split at h
  · cases h
  · split at h
    · cases h
    · split at h
      · rw [State.ask_ok h]; exact .refl s
      · repeat' split at h
        all_goals cases h
        exact .refl s
  · split at h
    · cases h
    · cases h
    · next hspan =>
      have ht := State.xlateSpan_translated hspan
      exact ht.loaded.trans (State.loadParts_loaded (ht.agent.trans ha) h)

theorem State.feLoad_loaded {c : Nat} (h : s.feLoad c ea n = .ok x t) : s.Loaded t := by
  unfold State.feLoad at h
  split at h
  · cases h
  · split at h
    · rw [State.ask_ok h]; exact .refl s
    · rw [State.ask_ok h]; exact .refl s
    · dsimp only at h
      split at h <;> cases h
      exact .refl s

theorem State.load_loaded (h : s.load ea n = .ok x t) : s.Loaded t := by
  unfold State.load at h
  split at h
  · next ha => exact State.coreLoad_loaded ha h
  · exact State.feLoad_loaded h

end

/-! ### A store -/

/-- A state has the cellars of another and, but for the addresses l, its bytes of memory. -/
def State.Stored (l : List Nat) (s t : State) : Prop :=
  t.mem.cellar = s.mem.cellar ∧ ∀ a, a ∉ l → byteAt t.mem.bytes a = byteAt s.mem.bytes a

section
variable {s t u : State} {lc n v x : Nat} {ea : Word} {l m : List Nat}

theorem State.Stored.trans (h : s.Stored l t) (k : t.Stored l u) : s.Stored l u :=
  ⟨k.1.trans h.1, fun a ha => (k.2 a ha).trans (h.2 a ha)⟩

theorem State.Stored.mono (h : s.Stored l t) (hl : ∀ a ∈ l, a ∈ m) : s.Stored m t := ⟨h.1, fun a ha => h.2 a fun k => ha (hl a k)⟩

theorem State.Stored.of_data (h : t.data = s.data) : s.Stored l t :=
  ⟨congrArg Prod.snd h, fun a _ => by rw [show t.mem.bytes = s.mem.bytes from congrArg Prod.fst h]⟩

theorem State.writeMem_stored (bs : List Byte) : s.Stored l (s.writeMem l bs) :=
  ⟨rfl, fun a h => byteAt_scatterBytes_other l bs _ a h⟩

theorem State.hostWrite_stored (fn : Nat) (bs : List Byte) : s.Stored l (s.hostWrite fn l bs) :=
  ⟨rfl, fun a h => byteAt_scatterBytes_other l bs _ a h⟩

theorem State.homeWrite_data : (s.homeWrite l).data = s.data :=
  List.foldlRecOn (motive := fun t : State => t.data = s.data) (linesOf l) _ rfl fun _ h _ _ => h

theorem State.sendStore_data (op : RemoteOp) : (s.sendStore lc ea op).data = s.data := by
  have hmem := s.addRemote_mem ⟨lc, s.agentLevel, ea, op⟩
  unfold State.sendStore
  dsimp only
  split
  · exact (State.setTop_data ..).trans (State.data_of_mem hmem)
  · exact State.data_of_mem hmem

theorem State.storePart_stored (bs : List Byte) (p : Nat × List Nat) : s.Stored p.2 (s.storePart lc bs p) := by
  unfold State.storePart
  dsimp only
  split
  · exact .of_data (State.sendStore_data _)
  · exact State.hostWrite_stored ..
  · exact (State.Stored.of_data (s.leaseStores_data lc p.2)).trans (State.writeMem_stored _)

theorem mem_of_pageParts {va a : Nat} {p : Nat × List Nat} (hp : p ∈ pageParts va l) (ha : a ∈ p.2) : a ∈ l := by
  unfold pageParts at hp
  dsimp only at hp
  split at hp
  · rw [List.mem_singleton.1 hp] at ha; exact ha
  · rcases List.mem_pair.1 hp with rfl | rfl
    · exact List.mem_of_mem_take ha
    · exact List.mem_of_mem_drop ha

theorem State.storeParts_stored (va : Nat) (bs : List Byte) :
    s.Stored l ((pageParts va l).foldl (fun s p => s.storePart lc bs p) s) :=
  List.foldlRecOn (motive := fun t : State => s.Stored l t) (pageParts va l) _ (.of_data rfl) fun t h p hp =>
    h.trans ((t.storePart_stored bs p).mono fun _ ha => mem_of_pageParts hp ha)

/-- What a store of a core in a window leaves: the bytes of memory, and the cellars outside it. -/
theorem State.coreStore_window {dev tlc off : Nat} (hs : spaceOf ea n = .window dev tlc off)
    (h : s.coreStore lc ea n v = .ok x t) : t.mem.bytes = s.mem.bytes ∧
      ∀ a, a ∉ span (cellarKey tlc off) n → byteAt t.mem.cellar a = byteAt s.mem.cellar a := by
  simp only [State.coreStore, hs] at h
  split at h
  · cases h
  · split at h
    · cases h
      have hd := s.sendStore_data (lc := lc) (ea := ea) (.store (leBytes n v))
      exact ⟨congrArg Prod.fst hd, fun a _ => congrArg (byteAt · a) (congrArg Prod.snd hd)⟩
    · repeat' split at h
      all_goals cases h
      exact ⟨rfl, fun a ha => byteAt_scatterBytes_other _ _ _ a ha⟩

theorem State.coreStore_global {va : Nat} (hs : spaceOf ea n = .global va) (h : s.coreStore lc ea n v = .ok x t) :
    ∃ l s1, s.coreSpan lc va n needW = .pas l s1 ∧ s.Stored l t := by
  simp only [State.coreStore, hs] at h
  split at h
  · cases h
  · cases h
  · next l s1 hspan =>
    split at h
    · cases h
    · split at h <;> cases h
      exact ⟨l, s1, hspan, (State.Stored.of_data (State.xlateSpan_translated hspan).loaded.1).trans (State.storeParts_stored ..)⟩

theorem State.feStore_stored {c : Nat} (h : s.feStore c ea n v = .ok x t) : s.Stored (s.feBytes ea.toNat n) t := by
  unfold State.feStore at h
  split at h
  · cases h
  · split at h
    · cases h; exact .of_data (State.sendStore_data _)
    · next hr =>
      split at h <;> cases h
      rw [State.feBytes, hr]
      exact State.hostWrite_stored ..
    · dsimp only at h
      split at h <;> cases h
      exact (State.Stored.of_data State.homeWrite_data).trans (State.writeMem_stored _)

end

/-- Settles O16: by the agent, the space of the address and the region of each page. -/
theorem accessFrames : Obligations.AccessFrames := by
  refine ⟨fun s t ea n x h => ?_, fun s t ea n v x h => ?_⟩
  · obtain ⟨hdata, hhart, hagent⟩ := State.load_loaded h
    exact ⟨congrArg Prod.fst hdata, congrArg Prod.snd hdata, hhart, hagent⟩
  · unfold State.store at h
    cases ha : s.agent with
    | fe c =>
      rw [ha] at h
      exact State.feStore_stored h
    | core lc =>
      rw [ha] at h
      cases hs : spaceOf ea n with
      | bad => simp only [State.coreStore, hs] at h; cases h
      | window dev tlc off => exact State.coreStore_window hs h
      | global va =>
        obtain ⟨l, s1, hspan, hcellar, hbytes⟩ := State.coreStore_global hs h
        exact ⟨hcellar, l, s1, hspan, hbytes⟩

end Sys2Proof.Machine
end


section
/-! PROOFS. Atomics, deterministic atomics and `afl` (R327 to R335). -/

namespace Sys2Proof.Machine

/-! ### The order of checks of an atomic (R308, R309) -/

section
variable {s : State} {a : Word} {n : Nat} {acc : Acc} {k : Nat → State → State}

theorem State.checkedAtomic_space (h : s.spaceOk a n = false) : s.checkedAtomic a n acc k = s.trap ADDRESS a := by
  simp [State.checkedAtomic, h]

theorem State.checkedAtomic_misaligned (h : s.spaceOk a n = true) (ha : a.toNat % n ≠ 0) :
    s.checkedAtomic a n acc k = s.trap ALIGN a := by
  simp [State.checkedAtomic, h, not_aligned ha]

theorem State.checkedAtomic_aligned (h : s.spaceOk a n = true) (ha : a.toNat % n = 0) :
    s.checkedAtomic a n acc k = s.afterAcc acc k := by
  simp [State.checkedAtomic, h, (aligned_iff a n).2 ha]

end

/-! ### Ordinary atomics (R327, R328) -/

/-- What an atomic leaves in its destination: the old word, sign-extended. -/
theorem sext_asz (z : ASz) (old : Nat) :
    sext (8 * ASz.bytes z) old = (BitVec.ofNat (8 * ASz.bytes z) old).signExtend 64 := by
  cases z <;> exact sext_eq_signExtend old (by decide) (by decide)

/-- The access of an atomic, with its operand and the value it expects. -/
def State.atomicOf (s : State) (z : ASz) (op : Nat) (ea y e : Word) : Acc :=
  s.atomic ea (ASz.bytes z) (needR + needW)
    (.atomic op (ASz.bytes z == 8) (BitVec.ofNat 64 (y.toNat % 2 ^ (8 * ASz.bytes z)))
      (BitVec.ofNat 64 (e.toNat % 2 ^ (8 * ASz.bytes z))) 0 0)
    fun old => atomicNew op (8 * ASz.bytes z) old (y.toNat % 2 ^ (8 * ASz.bytes z)) (e.toNat % 2 ^ (8 * ASz.bytes z)) 0 0

theorem atomicForm_go {i : Instr} {op : Nat} {z : ASz} {d : Reg} {s : State} {v : List Word} (hv : s.front i = .go v) :
    atomicForm i op z d s = .next (s.checkedAtomic (v.getD 0 0) (ASz.bytes z)
      (s.atomicOf z op (v.getD 0 0) (v.getD 1 0) (v.getD 2 0))
      fun old t => t.finish i d ((BitVec.ofNat (8 * ASz.bytes z) old).signExtend 64)) := by
  rw [atomicForm, State.run_go _ _ _ _ hv]
  simp only [sext_asz]
  rfl

theorem atomicForm_follows {i : Instr} {op : Nat} {z : ASz} {d : Reg} {s : State} {ea y : Word} {v : List Word}
    (hv : s.front i = .go (ea :: y :: v)) (hs : s.spaceOk ea (ASz.bytes z) = true) (ha : ea.toNat % ASz.bytes z = 0) :
    Follows (s.atomicOf z op ea y (v.getD 0 0)) s (atomicForm i op z d s)
      fun old t => t.finish i d ((BitVec.ofNat (8 * ASz.bytes z) old).signExtend 64) := by
  rw [atomicForm_go hv]
  simp only [List.getD_cons_zero, List.getD_cons_succ]
  rw [State.checkedAtomic_aligned hs ha]
  exact follows_afterAcc ..

/-- The access of an atomic that expects no value. -/
theorem State.atomicOf_none {op : Nat} {f : Nat → Nat → Nat → Nat} (hf : ∀ w old x, atomicNew op w old x 0 0 0 = f w old x)
    (s : State) (z : ASz) (ea y : Word) : s.atomicOf z op ea y 0 = s.atomic ea (ASz.bytes z) (needR + needW)
      (.atomic op (ASz.bytes z == 8) (BitVec.ofNat 64 (y.toNat % 2 ^ (8 * ASz.bytes z))) 0 0 0)
      fun old => f (8 * ASz.bytes z) old (y.toNat % 2 ^ (8 * ASz.bytes z)) := by
  have h0 : (0 : Word).toNat % 2 ^ (8 * ASz.bytes z) = 0 := Nat.zero_mod _
  simp only [State.atomicOf, h0, hf]
  rfl

/-- A form whose meaning is `atomicForm`, and that expects no value. -/
theorem atomics_of {i : ASz → Reg → Reg → Reg → Instr} {op : Nat} {f : Nat → Nat → Nat → Nat}
    (hf : ∀ w old x, atomicNew op w old x 0 0 0 = f w old x)
    (h : ∀ z d a b s, exec (i z d a b) s = atomicForm (i z d a b) op z d s) : Atomics i op f := by
  intro z d a b ea y s hv
  have hgo := (h z d a b s).trans (atomicForm_go hv)
  refine ⟨fun hs => ?_, fun hs ha => ?_, fun hs ha => ?_⟩
  · exact hgo.trans (congrArg _ (State.checkedAtomic_space hs))
  · exact hgo.trans (congrArg _ (State.checkedAtomic_misaligned hs ha))
  · have hfollows := atomicForm_follows (op := op) (z := z) (d := d) hv hs ha
    rw [List.getD_nil, State.atomicOf_none hf, ← h] at hfollows
    exact hfollows

/-- `amocas` writes its operand only where the old value is the one it expects. -/
theorem amocas_follows {z : ASz} {n : Nat} {d a b : Reg} {ea y e : Word} {s : State}
    (hv : s.front (.amocas z d a b) = .go [ea, y, e]) (hs : s.spaceOk ea n = true) (ha : ea.toNat % n = 0) (hn : n = ASz.bytes z) :
    Follows (s.atomic ea n (needR + needW) (.atomic 9 (n == 8) (BitVec.ofNat 64 (y.toNat % 2 ^ (8 * n)))
        (BitVec.ofNat 64 (e.toNat % 2 ^ (8 * n))) 0 0)
        fun old => if old = e.toNat % 2 ^ (8 * n) then y.toNat % 2 ^ (8 * n) else old)
      s (exec (.amocas z d a b) s) fun old t => t.finish (.amocas z d a b) d ((BitVec.ofNat (8 * n) old).signExtend 64) := by
  subst hn
  have hfollows := atomicForm_follows (op := 9) (z := z) (d := d) hv hs ha
  simp only [State.atomicOf, atomicNew, List.getD_cons_zero] at hfollows
  exact hfollows

/-- `amofadd` writes the rounded sum, and leaves the old word with the flags of the sum and its draw. -/
theorem exec_amofadd {z : ASz} {n : Nat} {d a b : Reg} {ea y : Word} {s t : State} {old : Nat}
    (hv : s.front (.amofadd z d a b) = .go [ea, y]) (hs : s.spaceOk ea n = true) (ha : ea.toNat % n = 0)
    (hacc : s.atomic ea n (needR + needW)
      (.atomic 10 (n == 8) (BitVec.ofNat 64 (y.toNat % 2 ^ (8 * n))) 0 s.hart.fpctl.toNat s.draw)
      (fun old => (addRounded (n == 8) old (y.toNat % 2 ^ (8 * n)) s.hart.fpctl s.draw).1) = .ok old t)
    (hn : n = ASz.bytes z) : exec (.amofadd z d a b) s =
      .next (((t.orFlags (addRounded (n == 8) old (y.toNat % 2 ^ (8 * n)) s.hart.fpctl s.draw).2).advance).finish
        (.amofadd z d a b) d (BitVec.ofNat 64 old)) := by
  subst hn
  rw [show exec (.amofadd z d a b) s = _ from State.run_go _ _ _ _ hv]
  simp only [List.getD_cons_zero, List.getD_cons_succ]
  rw [State.checkedAtomic_aligned hs ha, hacc]
  rfl

/-! ### The holding buffer (R331 to R335) -/

/-- A deterministic atomic of a core places its entry. -/
theorem detForm_go {i : Instr} {float : Bool} {z : ASz} {ea y : Word} {pa lc : Nat} {f : Frame} {s s1 : State}
    (hag : s.agent = .core lc) (hf : s.top lc = some f) (hs : s.spaceOk ea (ASz.bytes z) = true) (hlt : ea.toNat < 2 ^ 56)
    (ha : ea.toNat % ASz.bytes z = 0) (hh : s.homeAddress ea (ASz.bytes z) = .ok pa s1) (hv : s.front i = .go [ea, y]) :
    let e : Held := ⟨pa, lc, f.detseq, float, ASz.bytes z == 8, BitVec.ofNat 64 (y.toNat % 2 ^ (8 * ASz.bytes z)),
      if float then s.hart.fpctl else 0, if float then s.draw else 0, some f.graph⟩
    let s2 := (s1.placeHeld e).bumpSeq
    detForm i float z s = .next ((if float then s2.advance else s2).retire i) := by
  intro e s2
  rw [detForm, State.run_go _ _ _ _ hv]
  simp only [List.getD_cons_zero, List.getD_cons_succ, hs, hag, hlt, (aligned_iff ea _).2 ha, hh, State.afterAcc, State.issuerKey, hf]
  rfl

theorem keyBefore_iff {x y : Held} : keyBefore x y = false ↔ y.issuer < x.issuer ∨ (y.issuer = x.issuer ∧ y.seq ≤ x.seq) := by
  simp only [keyBefore, Bool.or_eq_false_iff, Bool.and_eq_false_iff, decide_eq_false_iff_not, beq_eq_false_iff_ne]
  omega

theorem mem_insertBy {before : Held → Held → Bool} {x y : Held} {l : List Held} (h : y ∈ insertBy before x l) : y = x ∨ y ∈ l := by
  induction l with
  | nil => exact .inl (List.mem_singleton.1 h)
  | cons z l ih =>
    rw [insertBy] at h
    split at h
    · exact List.mem_cons.1 h
    · rcases List.mem_cons.1 h with rfl | h
      · exact .inr (List.mem_cons_self ..)
      · exact (ih h).imp_right (List.mem_cons_of_mem _)

/-- An entry stands before another in issuer-key order, or level with it (R335). -/
def KeyLe (x y : Held) : Prop := x.issuer < y.issuer ∨ (x.issuer = y.issuer ∧ x.seq ≤ y.seq)

theorem KeyLe.trans {x y z : Held} (h : KeyLe x y) (k : KeyLe y z) : KeyLe x z := by
  unfold KeyLe at *; omega

theorem KeyLe.total {x y : Held} (h : ¬ KeyLe x y) : KeyLe y x := by
  unfold KeyLe at *; omega

theorem pairwise_insertBy {x : Held} {l : List Held} (h : l.Pairwise KeyLe) :
    (insertBy (fun a b => !keyBefore b a) x l).Pairwise KeyLe := by
  induction l with
  | nil => exact List.pairwise_singleton ..
  | cons y l ih =>
    obtain ⟨hy, hl⟩ := List.pairwise_cons.1 h
    rw [insertBy]
    split
    · next hb =>
      have hxy : KeyLe x y := keyBefore_iff.1 (by simpa using hb)
      refine List.pairwise_cons.2 ⟨fun w hw => ?_, h⟩
      rcases List.mem_cons.1 hw with rfl | hw
      · exact hxy
      · exact hxy.trans (hy w hw)
    · next hb =>
      have hyx : KeyLe y x := KeyLe.total fun h => hb (by simpa using keyBefore_iff.2 h)
      refine List.pairwise_cons.2 ⟨fun w hw => ?_, ih hl⟩
      rcases mem_insertBy hw with rfl | hw
      · exact hyx
      · exact hy w hw

/-- The entries of a doubleword are applied in ascending issuer key (R335). -/
theorem pairwise_sortHeld (l : List Held) : (sortHeld keyBefore l).Pairwise KeyLe := by
  induction l with
  | nil => exact .nil
  | cons x l ih => exact pairwise_insertBy ih

/-- Settles O19. -/
theorem atomicResults : Obligations.AtomicResults := by
  refine ⟨⟨?_, ?_, ?_, ?_, ?_, ?_, ?_, ?_, ?_, ?_⟩, ?_, ?_, ?_⟩
  · exact atomics_of (fun _ _ _ => rfl) fun _ _ _ _ _ => rfl
  · exact atomics_of (fun _ _ _ => rfl) fun _ _ _ _ _ => rfl
  · exact atomics_of (fun _ _ _ => rfl) fun _ _ _ _ _ => rfl
  · exact atomics_of (fun _ _ _ => rfl) fun _ _ _ _ _ => rfl
  · exact atomics_of (fun _ _ _ => rfl) fun _ _ _ _ _ => rfl
  · exact atomics_of (fun _ _ _ => rfl) fun _ _ _ _ _ => rfl
  · exact atomics_of (fun _ _ _ => rfl) fun _ _ _ _ _ => rfl
  · exact atomics_of (fun _ _ _ => rfl) fun _ _ _ _ _ => rfl
  · exact atomics_of (fun _ _ _ => rfl) fun _ _ _ _ _ => rfl
  · intro z d a b ea y e s hv n x c hs ha
    exact amocas_follows hv hs ha rfl
  · intro z d a b ea y s t old hv n x sum hs ha hacc
    exact exec_amofadd hv hs ha hacc rfl
  · intro z a b ea y pa lc f s s1 hag hf n e hs hlt ha hh
    exact ⟨fun hv => detForm_go (float := false) hag hf hs hlt ha hh hv, fun hv => detForm_go (float := true) hag hf hs hlt ha hh hv⟩
  · intro d a ea pa s s1 hv hs hh
    refine ⟨?_, pairwise_sortHeld _⟩
    rw [show exec (.afl d a) s = _ from State.run_go _ _ _ _ hv]
    simp only [List.getD_cons_zero, hs, hh, State.afterAcc]
    rfl

end Sys2Proof.Machine
end


section
/-! PROOFS. The scalar floating-point forms (R247, R254 to R261, R338 to R343). -/

namespace Sys2Proof.Machine

/-! ### What a form that nothing holds back may change of the hart (R254, R260, R261, R267) -/

theorem State.Ready.setHart {s : State} {i : Instr} (hready : s.Ready i) (h : Hart) : (s.setHart h).Ready i := by
  have hagent := s.setHart_agent h
  unfold State.Ready at hready ⊢
  cases ha : s.agent with
  | core lc =>
    rw [ha] at hready
    obtain ⟨f, hf, hrest⟩ := hready
    rw [hagent, ha, State.setHart_core ha hf]
    exact ⟨{ f with h := h }, s.setTop_top _ _ _ hf, hrest⟩
  | fe n =>
    rw [ha] at hready
    rw [hagent, ha, State.setHart_fe ha]
    simp only [State.fe_setFe]
    exact hready

/-- The front of an instruction that nothing holds back lets it go. -/
theorem State.Ready.front {s : State} {i : Instr} (hready : s.Ready i) : s.front i = .go ((srcs i).map s.hart.reg) :=
  readyReadsRegisters s i hready

theorem State.Ready.finish {s : State} {i : Instr} (hready : s.Ready i) (d : Reg) (w : Word) :
    (s.finish i d w).hart = (s.hart.setReg d w).at (s.hart.pc + 1) ∧ (s.finish i d w).mem = s.mem := by
  cases ha : s.agent with
  | core lc =>
    obtain ⟨f, l, -, hhart, hrest, hsf, -⟩ := finishes_core ha hready d w
    exact ⟨by rw [hhart, hsf], (congrArg State.mem hrest :)⟩
  | fe n =>
    obtain ⟨hhart, hrest, -⟩ := finishes_fe ha i d w
    exact ⟨hhart, (congrArg State.mem hrest :)⟩

/-- A hart has taken flags and, under stochastic rounding, at most one draw. -/
def Hart.Flagged (h k : Hart) : Prop :=
  ∃ fl g, k = { h with fpstat := h.fpstat ||| fl, gen := g } ∧ (g = h.gen ∨ (rndOf h.fpctl = .sr ∧ g = nextGen h.gen))

theorem Hart.Flagged.refl (h : Hart) : h.Flagged h := ⟨0, h.gen, by simp, .inl rfl⟩

/-- A floating-point instruction completes: it takes its flags and its draw, and writes its destination. -/
def State.CompletesFloat (s : State) (i : Instr) (d : Reg) : Prop :=
  ∃ (t : State) (w : Word), exec i s = .next (t.finish i d w) ∧ t.Ready i ∧ t.mem = s.mem ∧ s.hart.Flagged t.hart

section
variable {s : State} {i : Instr} {d : Reg} (hready : s.Ready i)
include hready

theorem State.orFlags_hart (fl : BitVec 5) : (s.orFlags fl).hart = { s.hart with fpstat := s.hart.fpstat ||| fl } :=
  State.hart_setHart hready.front _

/-- The flags of a rounding and the draw that it took. -/
theorem State.orFlags_advance_hart (fl : BitVec 5) : s.hart.Flagged (s.orFlags fl).advance.hart := by
  have hflags := State.orFlags_hart hready fl
  unfold State.advance
  split
  · next hsr =>
    rw [State.hart_setHart (s := s.orFlags fl) (hready.setHart _).front, hflags]
    rw [hflags] at hsr
    exact ⟨fl, nextGen s.hart.gen, rfl, .inr ⟨hsr, rfl⟩⟩
  · exact ⟨fl, s.hart.gen, hflags, .inl rfl⟩

theorem State.advance_ready : s.advance.Ready i := by
  unfold State.advance
  split
  · exact hready.setHart _
  · exact hready

omit hready in
theorem State.advance_mem : s.advance.mem = s.mem := by
  unfold State.advance
  split
  · exact s.setHart_mem _
  · rfl

/-- A form that rounds. -/
theorem completesFloat_round {r : List Word → Nat × BitVec 5} (h : exec i s = s.run i fun v => s.finishRound i d (r v)) :
    s.CompletesFloat i d := by
  rw [State.run_go _ _ _ _ hready.front] at h
  refine ⟨_, _, h, State.advance_ready (hready.setHart _), State.advance_mem.trans (s.setHart_mem _), State.orFlags_advance_hart hready _⟩

/-- A form that sets flags and does not round. -/
theorem completesFloat_flags {w : List Word → Word} {fl : List Word → BitVec 5}
    (h : exec i s = s.run i fun v => s.finishFlags i d (w v) (fl v)) : s.CompletesFloat i d := by
  rw [State.run_go _ _ _ _ hready.front] at h
  exact ⟨_, _, h, hready.setHart _, s.setHart_mem _, _, _, State.orFlags_hart hready _, .inl rfl⟩

/-- A form that sets no flag. -/
theorem completesFloat_plain {w : List Word → Word} (h : exec i s = s.run i fun v => s.finish i d (w v)) : s.CompletesFloat i d := by
  rw [State.run_go _ _ _ _ hready.front] at h
  exact ⟨_, _, h, hready, rfl, .refl _⟩

end

theorem Hart.reg_setReg_ne {h : Hart} {d r : Reg} (hr : r ≠ d) (w : Word) : (h.setReg d w).reg r = h.reg r := by
  rw [Hart.reg_setReg, if_neg fun hd => hr hd.1]

/-- What a floating-point instruction leaves as it was. -/
theorem State.CompletesFloat.frame {s : State} {i : Instr} {d : Reg} (h : s.CompletesFloat i d) :
    ∃ r : State, exec i s = .next r ∧ s.hart.fpstat &&& r.hart.fpstat = s.hart.fpstat ∧ r.hart.fpctl = s.hart.fpctl ∧
      r.hart.seed = s.hart.seed ∧ (r.hart.gen = s.hart.gen ∨ (rndOf s.hart.fpctl = .sr ∧ r.hart.gen = nextGen s.hart.gen)) ∧
      (∀ x : Reg, x ≠ d → r.hart.reg x = s.hart.reg x) ∧ r.hart.pc = s.hart.pc + 1 ∧ r.mem = s.mem := by
  obtain ⟨t, w, hexec, hready, hmem, fl, g, ht, hg⟩ := h
  obtain ⟨hhart, hmem1⟩ := hready.finish d w
  refine ⟨_, hexec, ?_, ?_, ?_, ?_, fun x hx => ?_, ?_, hmem1.trans hmem⟩
  all_goals rw [hhart]
  · rw [Hart.setReg_at, ht]
    simp only [BitVec.and_or_distrib_left, BitVec.and_self]
    ext j
    simp
    tauto
  · rw [Hart.setReg_at, ht]
  · rw [Hart.setReg_at, ht]
  · rw [Hart.setReg_at, ht]
    exact hg
  · rw [Hart.at_reg, Hart.reg_setReg_ne hx, ht]
    rfl
  · rw [Hart.setReg_at, ht]

/-- Each scalar floating-point form is one of three: it rounds, it sets flags only, or it sets none. -/
theorem completesFloat {t u : FTy} {d a b : Reg} {s : State} {i : Instr}
    (hi : i ∈ [.fadd t d a b, .fsub t d a b, .fmul t d a b, .fdiv t d a b, .fsqrt t d a, .fma t d a b, .fmin t d a b,
      .fmax t d a b, .feq t d a b, .flt t d a b, .fle t d a b, .fclass t d a, .ftoi t d a, .ftoiu t d a, .itof t d a,
      .iutof t d a, .fcvt t u d a]) (hready : s.Ready i) : s.CompletesFloat i d := by
  simp only [List.mem_cons, List.not_mem_nil, or_false] at hi
  rcases hi with rfl | rfl | rfl | rfl | rfl | rfl | rfl | rfl | rfl | rfl | rfl | rfl | rfl | rfl | rfl | rfl | rfl
  · exact completesFloat_round hready (h := rfl)
  · exact completesFloat_round hready (h := rfl)
  · exact completesFloat_round hready (h := rfl)
  · exact completesFloat_round hready (h := rfl)
  · exact completesFloat_round hready (h := rfl)
  · exact completesFloat_round hready (h := rfl)
  · exact completesFloat_flags hready (h := rfl)
  · exact completesFloat_flags hready (h := rfl)
  · exact completesFloat_flags hready (h := rfl)
  · exact completesFloat_flags hready (h := rfl)
  · exact completesFloat_flags hready (h := rfl)
  · exact completesFloat_plain hready (h := rfl)
  · exact completesFloat_round hready (h := rfl)
  · exact completesFloat_round hready (h := rfl)
  · exact completesFloat_round hready (h := rfl)
  · exact completesFloat_round hready (h := rfl)
  · exact completesFloat_round hready (h := rfl)

/-! ### The values they leave -/

section
variable {s : State} {i : Instr} {t : FTy} {d : Reg} {x y : Word}

/-- An instruction that rounds leaves the rounded result, with the flags of the operation and of the rounding. -/
theorem State.finishRound_rounded (r : FRes) : s.finishRound i d (s.rounded (FTy.fmt t) r) =
    ((s.orFlags (((FTy.fmt t).round ⟨rndOf s.hart.fpctl, fzoOf s.hart.fpctl, s.draw⟩ r.1).2 ||| r.2)).advance).finish i d
      (BitVec.ofNat 64 ((FTy.fmt t).round ⟨rndOf s.hart.fpctl, fzoOf s.hart.fpctl, s.draw⟩ r.1).1) := rfl

theorem arith2_go {op : FVal → FVal → FRes} (hv : s.front i = .go [x, y]) : arith2 i t d op s =
    .next (s.finishRound i d (s.rounded (FTy.fmt t) (op (s.value (FTy.fmt t) x) (s.value (FTy.fmt t) y)))) := by
  rw [arith2, State.run_go _ _ _ _ hv]; rfl

theorem arith1_go {op : FVal → FRes} (hv : s.front i = .go [x]) : arith1 i t d op s =
    .next (s.finishRound i d (s.rounded (FTy.fmt t) (op (s.value (FTy.fmt t) x)))) := by
  rw [arith1, State.run_go _ _ _ _ hv]; rfl

theorem pick_go {greater : Bool} (hv : s.front i = .go [x, y]) : pick i t d greater s =
    let r := fPick greater (s.value (FTy.fmt t) x) (s.value (FTy.fmt t) y)
    .next (s.finishFlags i d (BitVec.ofNat 64 ((FTy.fmt t).exact r.1)) r.2) := by
  rw [pick, State.run_go _ _ _ _ hv]; rfl

theorem compareF_go {op : FVal → FVal → Bool × BitVec 5} (hv : s.front i = .go [x, y]) : compareF i t d op s =
    let r := op (s.value (FTy.fmt t) x) (s.value (FTy.fmt t) y)
    .next (s.finishFlags i d (ofBool r.1) r.2) := by
  rw [compareF, State.run_go _ _ _ _ hv]; rfl

theorem toInteger_go {lo hi : Int} (hv : s.front i = .go [x]) : toInteger i t d lo hi s =
    let r := toInt s.mode lo hi (s.value (FTy.fmt t) x)
    .next (((s.orFlags r.2).advance).finish i d (BitVec.ofInt 64 r.1)) := by
  rw [toInteger, State.run_go _ _ _ _ hv]
  simp only [State.finishRound, BitVec.ofNat_toNat, BitVec.setWidth_eq, List.getD_cons_zero]

end

/-- Settles O20: the value of each form by what it is a case of, and its frame. -/
theorem floatResults : Obligations.FloatResults := by
  refine ⟨fun t d a b x y z s => ?_, fun t u d a b s i hi hready => (completesFloat hi hready).frame⟩
  refine ⟨fun hv => ?_, fun hv => ?_, fun hv => ?_, fun hv => ?_, fun hv => ?_, fun hv => ?_, fun hv => ?_, fun hv => ?_,
    fun u hv => ?_, fun hv => ?_, fun hv => ?_, fun hv => ?_, fun hv => ?_, fun hv => ?_, fun hv => ?_, fun hv => ?_, fun hv => ?_⟩
  · rw [show exec (.fadd t d a b) s = arith2 (.fadd t d a b) t d (fAdd s.isRdn) s from rfl, arith2_go hv]; rfl
  · rw [show exec (.fsub t d a b) s = arith2 (.fsub t d a b) t d (fun x y => fAdd s.isRdn x y.neg) s from rfl, arith2_go hv]; rfl
  · rw [show exec (.fmul t d a b) s = arith2 (.fmul t d a b) t d fMul s from rfl, arith2_go hv]; rfl
  · rw [show exec (.fdiv t d a b) s = arith2 (.fdiv t d a b) t d fDiv s from rfl, arith2_go hv]; rfl
  · rw [show exec (.fsqrt t d a) s = arith1 (.fsqrt t d a) t d fSqrt s from rfl, arith1_go hv]; rfl
  · rw [show exec (.fma t d a b) s = s.run (.fma t d a b) fun v => s.finishRound (.fma t d a b) d (s.rounded (FTy.fmt t)
      (fFma s.isRdn (s.value (FTy.fmt t) (v.getD 0 0)) (s.value (FTy.fmt t) (v.getD 1 0)) (s.value (FTy.fmt t) (v.getD 2 0)))) from rfl,
      State.run_go _ _ _ _ hv]
    rfl
  · rw [show exec (.itof t d a) s = s.run (.itof t d a) fun v =>
      s.finishRound (.itof t d a) d (s.rounded (FTy.fmt t) (ofInt (v.getD 0 0).toInt, 0)) from rfl, State.run_go _ _ _ _ hv]
    rfl
  · rw [show exec (.iutof t d a) s = s.run (.iutof t d a) fun v =>
      s.finishRound (.iutof t d a) d (s.rounded (FTy.fmt t) (ofInt (v.getD 0 0).toNat, 0)) from rfl, State.run_go _ _ _ _ hv]
    rfl
  · rw [show exec (.fcvt t u d a) s = s.run (.fcvt t u d a) fun v => s.finishRound (.fcvt t u d a) d
      ((FTy.fmt t).convert (FTy.fmt u) s.mode (s.value (FTy.fmt u) (v.getD 0 0))) from rfl, State.run_go _ _ _ _ hv]
    rfl
  · rw [show exec (.fmin t d a b) s = pick (.fmin t d a b) t d false s from rfl, pick_go hv]; rfl
  · rw [show exec (.fmax t d a b) s = pick (.fmax t d a b) t d true s from rfl, pick_go hv]; rfl
  · rw [show exec (.feq t d a b) s = compareF (.feq t d a b) t d fEq s from rfl, compareF_go hv]; rfl
  · rw [show exec (.flt t d a b) s = compareF (.flt t d a b) t d fLt s from rfl, compareF_go hv]; rfl
  · rw [show exec (.fle t d a b) s = compareF (.fle t d a b) t d fLe s from rfl, compareF_go hv]; rfl
  · rw [show exec (.fclass t d a) s = s.run1 (.fclass t d a) d
      fun x => BitVec.ofNat 64 (2 ^ (FTy.fmt t).classify (x.toNat % 2 ^ (FTy.fmt t).width)) from rfl, State.run1_go _ _ _ _ _ hv]
  · rw [show exec (.ftoi t d a) s = toInteger (.ftoi t d a) t d (-(2 ^ 63)) (2 ^ 63 - 1) s from rfl, toInteger_go hv]; rfl
  · rw [show exec (.ftoiu t d a) s = toInteger (.ftoiu t d a) t d 0 (2 ^ 64 - 1) s from rfl, toInteger_go hv]; rfl

end Sys2Proof.Machine
end


section
/-! PROOFS. The vector forms that move, place, reduce, convert and scale, the compares and `vext` (R359, R363 to R371). -/

namespace Sys2Proof.Machine

/-- A scalar register of a frame without streams is written in its hart alone. -/
theorem State.Becomes.writeFrame {s t : State} {lc : Nat} {f : Frame} (h : s.Becomes lc f t) (hs : ∀ r, f.stream r = none)
    (r : Reg) (w : Word) : s.Becomes lc (f.setReg r w) (t.writeFrame lc r w) := by
  simp only [State.writeFrame, h.top, hs]
  exact h.setTop _

/-! ### What a chunk of several registers makes of a frame, in the words of `runChunk` -/

section
variable (s : State) (lc : Nat) (f : Frame) (e : SeqEntry) (d : VReg)

/-- The first register of a result that is the same for every chunk. -/
def State.chunkPart (x : Nat) : Chunked :=
  .done (s.vput (f.members lc) ((f.members lc).getD 0 lc) d (x / 2 ^ (512 * 0)) e.res) (0 + 1 ≥ (f.members lc).length)

/-- The first register of a result that is made once, with its flags. -/
def State.chunkFlagged (r : Nat × BitVec 5) : Chunked :=
  let x := f.vhold.getD r
  let s1 := s.vput (f.members lc) ((f.members lc).getD 0 lc) d (x.1 / 2 ^ (512 * 0)) e.res
  let s2 := if f.vhold.isSome then s1 else s1.vflags lc x.2
  .done (if 0 + 1 < (f.members lc).length then s2.holdResult lc (some x) else s2) (0 + 1 ≥ (f.members lc).length)

/-- The registers that a chunk reads, of all members. -/
def State.chunkReads (r : VReg) : Nat := s.vcat r (f.members lc)

end

section
variable {s : State} {lc : Nat} {f : Frame} {e : SeqEntry} {rest : List SeqItem} (hready : s.ChunkReady lc f e rest)
include hready

/-! ### A frame without a gang -/

theorem State.ChunkReady.members : f.forChunk.members lc = [lc] := Frame.members_alone hready.alone lc

theorem State.ChunkReady.reads : (s.forChunk lc f).chunkReads lc f.forChunk = fun r => (f.v.get r).toNat := by
  funext r
  simp only [State.chunkReads, hready.members, State.vcat, State.vreg_top hready.forChunk_becomes.top, Nat.mul_zero, Nat.add_zero]
  rfl

/-- A form that writes its register part by part: the one part is the whole. -/
theorem State.ChunkReady.writes_part {d : VReg} {x : Nat}
    (hrun : (s.forChunk lc f).runChunk lc f.forChunk e 0 0 = (s.forChunk lc f).chunkPart lc f.forChunk e d x) :
    ChunkWrites s lc f e rest d x 0 := by
  simp only [State.chunkPart, hready.members, List.getD_cons_zero, Nat.mul_zero, Nat.pow_zero, Nat.div_one] at hrun
  have hflags : f.h.fpstat ||| 0 = f.h.fpstat := BitVec.or_zero
  obtain ⟨u, hexec, htop, hmem, hothers⟩ := hready.done (hready.forChunk_becomes.vput d x e.res) hrun
  refine ⟨u, _, hexec, htop, ?_, hmem, hothers⟩
  simp only [Frame.afterChunk, Frame.forChunk, hready.nextItems_seq, if_true, hflags]

/-- A form whose result is made once: its flags are those of the result. -/
theorem State.ChunkReady.writes_flagged {d : VReg} {r : Nat × BitVec 5}
    (hrun : (s.forChunk lc f).runChunk lc f.forChunk e 0 0 = (s.forChunk lc f).chunkFlagged lc f.forChunk e d r) :
    ChunkWrites s lc f e rest d r.1 r.2 := by
  have hhold : f.forChunk.vhold = none := by
    obtain ⟨-, -, -, -, -, -, -, hhold, -⟩ := hready
    exact hhold
  simp only [State.chunkFlagged, hready.members, hhold, Option.getD_none, Option.isSome_none, Bool.false_eq_true, if_false,
    List.getD_cons_zero, List.length_singleton, Nat.zero_add, Nat.lt_irrefl, Nat.mul_zero, Nat.pow_zero, Nat.div_one] at hrun
  obtain ⟨u, hexec, htop, hmem, hothers⟩ := hready.done ((hready.forChunk_becomes.vput d r.1 e.res).vflags r.2) hrun
  refine ⟨u, _, hexec, htop, ?_, hmem, hothers⟩
  simp only [Frame.afterChunk, Frame.forChunk, hready.nextItems_seq, if_true]

/-- A form that writes a scalar register of the frame that a state has become. -/
theorem State.ChunkReady.writes_scalar {t : State} {fl : BitVec 5} {r : Reg} {x : Word} (hs : ∀ r, f.stream r = none)
    (ht : s.Becomes lc { f.forChunk with h := { f.forChunk.h with fpstat := f.h.fpstat ||| fl } } t)
    (hrun : (s.forChunk lc f).runChunk lc f.forChunk e 0 0 = .done (t.writeFrame lc r x) true) :
    ChunkWritesScalar s lc f e rest r x fl := by
  obtain ⟨u, hexec, htop, hmem, hothers⟩ := hready.done (ht.writeFrame hs r x) hrun
  refine ⟨u, _, hexec, htop, fun q => ?_, ?_, rfl, rfl, rfl, ?_, rfl, hmem, hothers⟩
  · exact Hart.reg_setReg _ r q x
  · simp only [Frame.afterChunk, Frame.setReg, if_true]
    rw [Hart.setReg_eq]
  · exact hready.nextItems_seq _

theorem State.ChunkReady.compares {o : CmpOp} {t : VTy} {m : Reg} {a b : VReg} (hs : ∀ r, f.stream r = none)
    (hshape : shapeOf e.i = .cmp o t m a b) :
    let r := compareEls o (VTy.tag t) e.fpctl (f.v.get a).toNat (f.v.get b).toNat (layoutOf e.fd e.fmt).elems
    ChunkWritesScalar s lc f e rest m r.1 r.2 := by
  intro r
  refine hready.writes_scalar hs (hready.forChunk_becomes.vflags r.2) ?_
  have hreads := hready.reads
  simp only [State.chunkReads, hready.members, funext_iff] at hreads
  simp only [State.runChunk, hshape, hready.members, hreads, List.length_singleton, Nat.zero_add, Nat.lt_irrefl, if_false, Nat.one_mul, r]

theorem State.ChunkReady.extracts {m : Reg} {a : VReg} (hs : ∀ r, f.stream r = none) (hshape : shapeOf e.i = .ext m a) :
    ChunkWritesScalar s lc f e rest m (extracted e (f.v.get a).toNat 1) 0 := by
  have hflags : f.forChunk.h.fpstat ||| 0 = f.forChunk.h.fpstat := BitVec.or_zero
  refine hready.writes_scalar hs (t := s.forChunk lc f) ?_ ?_
  · exact cast (congrArg (fun fl => s.Becomes lc { f.forChunk with h := { f.forChunk.h with fpstat := fl } } _) hflags.symm)
      hready.forChunk_becomes
  · have hreads := hready.reads
    simp only [State.chunkReads, hready.members, funext_iff] at hreads
    simp only [State.runChunk, hshape, hready.members, hreads, List.length_singleton, Nat.zero_add, Nat.lt_irrefl, if_false]

/-- The result of a form that is written part by part, of the registers it reads. -/
theorem State.ChunkReady.part {d : VReg} {x : Nat → (VReg → Nat) → Nat}
    (hrun : (s.forChunk lc f).runChunk lc f.forChunk e 0 0 = (s.forChunk lc f).chunkPart lc f.forChunk e d
      (x (f.forChunk.members lc).length ((s.forChunk lc f).chunkReads lc f.forChunk))) :
    ChunkWrites s lc f e rest d (x 1 fun r => (f.v.get r).toNat) 0 := by
  rw [hready.reads, hready.members] at hrun
  exact hready.writes_part hrun

/-- The result of a form that is made once, of the registers it reads. -/
theorem State.ChunkReady.flagged {d : VReg} {x : Nat → (VReg → Nat) → Nat × BitVec 5}
    (hrun : (s.forChunk lc f).runChunk lc f.forChunk e 0 0 = (s.forChunk lc f).chunkFlagged lc f.forChunk e d
      (x (f.forChunk.members lc).length ((s.forChunk lc f).chunkReads lc f.forChunk))) :
    ChunkWrites s lc f e rest d (x 1 fun r => (f.v.get r).toNat).1 (x 1 fun r => (f.v.get r).toNat).2 := by
  rw [hready.reads, hready.members] at hrun
  exact hready.writes_flagged hrun

end

/-- Settles O24: the value is what the form's chunk makes of the registers it reads. -/
theorem vectorOtherResults : Obligations.VectorOtherResults := by
  refine ⟨fun s lc f e rest a b m t o hready hs => ⟨hready.compares hs, hready.extracts hs⟩,
    fun s lc f e rest d a b m n t tg dt st o hready => ?_⟩
  intro l A B D W
  refine ⟨fun hshape => ?mv, fun hshape => ?sel, fun hshape => ?perm, fun hshape => ?slide, fun hshape => ?cmpr, fun hshape => ?expd,
    fun hshape => ?ins, fun hshape => ?zero, fun hshape => ?bcs, fun hshape => ?red, fun hshape => ?cvt, fun hshape => ?bsc,
    fun hshape => ?bsa, fun hshape => ?tag⟩
  case mv =>
    simpa only [Nat.one_mul] using hready.part (x := fun G v => selectUnits l.ubits (G * l.units) e.mask (v a) (v d))
      (by simp only [State.runChunk, hshape]; rfl)
  case sel =>
    simpa only [Nat.one_mul] using hready.part (x := fun G v => selectUnits l.ubits (G * l.units) e.mask (v a) (v b))
      (by simp only [State.runChunk, hshape]; rfl)
  case perm =>
    simpa only [Nat.one_mul] using hready.flagged (x := fun G v => (permUnits l.ubits (G * l.units) (v a) (v b), 0))
      (by simp only [State.runChunk, hshape]; rfl)
  case slide =>
    simpa only [Nat.one_mul] using hready.flagged (x := fun G v => (slideUnits l.ubits (G * l.units) e.stride (v a), 0))
      (by simp only [State.runChunk, hshape]; rfl)
  case cmpr =>
    simpa only [Nat.one_mul] using hready.flagged (x := fun G v => (compressUnits l.ubits (G * l.units) e.mask (v a), 0))
      (by simp only [State.runChunk, hshape]; rfl)
  case expd =>
    simpa only [Nat.one_mul] using hready.flagged (x := fun G v => (expandUnits l.ubits (G * l.units) e.mask (v a), 0))
      (by simp only [State.runChunk, hshape]; rfl)
  case ins =>
    simpa only [Nat.one_mul] using hready.part (x := fun G v => inserted e (v d) G)
      (by simp only [State.runChunk, hshape]; rfl)
  case zero =>
    simpa only [Nat.one_mul] using hready.part (x := fun G v => 0)
      (by simp only [State.runChunk, hshape]; rfl)
  case bcs =>
    simpa only [Nat.one_mul] using hready.part (x := fun G v => buildEls l.w (fun _ => e.base.toNat % 2 ^ l.code) (G * l.elems))
      (by simp only [State.runChunk, hshape]; rfl)
  case red =>
    simpa only [Nat.one_mul] using hready.flagged (x := fun G v => reduceEls o (VTy.tag t) e.fpctl e.gen e.mask (v a) (G * l.elems))
      (by simp only [State.runChunk, hshape]; rfl)
  case cvt =>
    simpa only [Nat.one_mul] using hready.flagged (x := fun G v => convertEls e.fd dt st e.fpctl e.gen e.mask G (v a) (v d))
      (by simp only [State.runChunk, hshape]; rfl)
  case bsc =>
    simpa only [Nat.one_mul] using hready.flagged (x := fun G v => (blockScales (descOf e.fd (BitVec.ofNat 4 (8 + n.val))) (fmtOfTag e.fd e.fmt) (fziOf e.fpctl) (v a) (G * l.elems), 0))
      (by simp only [State.runChunk, hshape]; rfl)
  case bsa =>
    simpa only [Nat.one_mul] using hready.flagged (x := fun G v => applyScales (descOf e.fd (BitVec.ofNat 4 (8 + n.val))) (fmtOfTag e.fd e.fmt) e.fpctl e.gen (v a) (v b) (G * l.elems))
      (by simp only [State.runChunk, hshape]; rfl)
  case tag =>
    simpa only [Nat.one_mul] using hready.part (x := fun G v => v d)
      (by simp only [State.runChunk, hshape]; rfl)

end Sys2Proof.Machine
end


section
/-! PROOFS. The commands of PREEMPT, halt, save, resume and restore (R236 to R240). -/

namespace Sys2Proof.Machine

/-! ### The fields of PREEMPT (R236) -/

theorem bits_setBits_state (w : Word) {v r : Nat} (hv : v < 8) : bits (setBits (setBits w 56 3 v) 52 4 r) 56 3 = v := by
  have hw := w.isLt
  simp only [bits, setBits, BitVec.toNat_ofNat]
  omega

theorem bits_setBits_result4 (w : Word) {v r : Nat} (hr : r < 16) : bits (setBits (setBits w 56 3 v) 52 4 r) 52 4 = r := by
  have hw := w.isLt
  simp only [bits, setBits, BitVec.toNat_ofNat]
  omega

section
variable (s : State) (p : Nat) {st r cmd : Nat}

theorem State.entry_setEntry_table (k i j : Nat) (w : Word) (h : k * 2 ^ 24 + i ≠ j * 2 ^ 24 + p) :
    (s.setEntry j p w).entry k i = s.entry k i := tget_tput_other _ _ _ _ _ h

theorem State.setPart_partState (h : st < 8) : (s.setPart p st r).partState p = st := by
  rw [State.partState, State.setPart, State.entry_setEntry]
  exact bits_setBits_state _ h

theorem State.setPart_partResult (h : r < 16) : (s.setPart p st r).partResult p = r := by
  rw [State.partResult, State.setPart, State.entry_setEntry]
  exact bits_setBits_result4 _ h

theorem State.endCmd_partState (h : st < 8) : (s.endCmd p st r).partState p = st := s.setPart_partState p h
theorem State.endCmd_partResult (h : r < 16) : (s.endCmd p st r).partResult p = r := s.setPart_partResult p h
theorem State.beginCmd_partState (h : st < 8) : (s.beginCmd p cmd st).partState p = st := s.setPart_partState p h
theorem State.beginCmd_partResult : (s.beginCmd p cmd st).partResult p = 4 := s.setPart_partResult p (by decide)
theorem State.beginCmd_cmd : ((s.beginCmd p cmd st).preemption p).cmd = cmd := by rw [State.beginCmd, State.preemption_setPreemption]
theorem State.endCmd_time : ((s.endCmd p st r).preemption p).time = (s.preemption p).time := by
  rw [State.endCmd, State.preemption_setPreemption]
theorem State.endCmd_seq : ((s.endCmd p st r).preemption p).seq = (s.preemption p).seq := by
  rw [State.endCmd, State.preemption_setPreemption]

end

/-! ### Halt (R237) -/

section
variable {s : State} {p : Nat} (hp : p < 256)
include hp

theorem exec_preemptHalt_accepted (hidle : s.partResult p ≠ 4) (h0 : s.partState p = 0) :
    exec (.preemptHalt p) s = .next ((s.abandonSwaps p).beginCmd p 1 1) :=
  (if_pos hp).trans (congrArg Host.Outcome.next (if_pos ⟨h0, hidle⟩))

theorem exec_preemptHalt_refused (hidle : s.partResult p ≠ 4) (h0 : s.partState p ≠ 0) :
    exec (.preemptHalt p) s = .next (s.setPart p (s.partState p) 2) :=
  (if_pos hp).trans (congrArg Host.Outcome.next ((if_neg fun h => h0 h.1).trans (if_neg hidle)))

end

theorem State.partState_lt (s : State) (p : Nat) : s.partState p < 8 := Nat.mod_lt _ (by decide)

/-- A core halts at a boundary, its buffer flushed, and stops. -/
def State.stopFlushed (s : State) (lc : Nat) : State :=
  (s.haltFlushed lc).setCore lc { (s.haltFlushed lc).core lc with stopped := true }

/-- A state differs from another in memory, in what is on its way, and in the cores. -/
def State.Halting (s t : State) : Prop := ∃ m p c, t = { s with mem := m, prog := p, cores := c }

theorem State.Halting.refl (s : State) : s.Halting s := ⟨_, _, _, rfl⟩

theorem State.Halting.trans {s t u : State} (h : s.Halting t) (k : t.Halting u) : s.Halting u := by
  obtain ⟨_, _, _, rfl⟩ := h
  obtain ⟨_, _, _, rfl⟩ := k
  exact ⟨_, _, _, rfl⟩

theorem State.Halting.tileOf {s t : State} (h : s.Halting t) (lc : Nat) : t.tileOf lc = s.tileOf lc := by
  obtain ⟨_, _, _, rfl⟩ := h
  rfl

theorem State.setTop_halting (s : State) (lc : Nat) (f : Frame) : s.Halting (s.setTop lc f) := by
  obtain ⟨c, h⟩ := s.setTop_eq lc f
  rw [h]
  exact ⟨_, _, _, rfl⟩

theorem State.abandon_halting (s : State) (lc : Nat) : s.Halting (s.abandon lc) := by
  unfold State.abandon
  split
  · exact ⟨_, _, _, rfl⟩
  · exact (s.setTop_halting ..).trans ⟨_, _, _, rfl⟩

theorem State.flush_halting (s : State) (lc : Nat) : s.Halting (s.flush lc) := by
  unfold State.flush
  dsimp only
  split
  · exact .refl s
  · exact ⟨_, _, _, rfl⟩

theorem State.stopFlushed_halting (s : State) (lc : Nat) : s.Halting (s.stopFlushed lc) :=
  ((s.abandon_halting lc).trans (State.flush_halting ..)).trans ⟨_, _, _, rfl⟩

theorem State.foldl_stopFlushed_halting (l : List Nat) (s : State) : s.Halting (l.foldl State.stopFlushed s) :=
  List.foldlRecOn l _ (.refl s) fun t h lc _ => h.trans (t.stopFlushed_halting lc)

/-- What a core's buffer held in s is under way, and the core stands still. -/
structure State.Stopped (s : State) (n : Nat) (t : State) : Prop where
  stopped : (t.core n).stopped = true
  progress : (t.core n).progress = []
  sent : (s.core n).progress ≠ [] → ⟨1024 + n, s.tileOf n, (s.core n).progress⟩ ∈ t.prog.batches

theorem State.setTop_prog_batches (s : State) (lc : Nat) (f : Frame) : (s.setTop lc f).prog = s.prog := by
  obtain ⟨c, h⟩ := s.setTop_eq lc f
  rw [h]

theorem State.abandon_batches (s : State) (lc : Nat) : (s.abandon lc).prog.batches = s.prog.batches := by
  unfold State.abandon
  split
  · rfl
  · simp only [State.forgetWalk, State.setTop_prog_batches]

theorem State.flush_batches (s : State) (lc : Nat) : (s.flush lc).prog.batches =
    if (s.core lc).progress = [] then s.prog.batches else s.prog.batches ++ [⟨1024 + lc, s.tileOf lc, (s.core lc).progress⟩] := by
  unfold State.flush
  dsimp only
  split <;> rfl

theorem State.flush_core_ne (s : State) {lc n : Nat} (h : n ≠ lc) : (s.flush lc).core n = s.core n := by
  unfold State.flush
  dsimp only
  split
  · rfl
  · exact State.core_setCore_ne _ _ _ _ h

theorem State.stopFlushed_batches (s : State) (lc : Nat) : (s.stopFlushed lc).prog.batches =
    if (s.core lc).progress = [] then s.prog.batches else s.prog.batches ++ [⟨1024 + lc, s.tileOf lc, (s.core lc).progress⟩] := by
  show ((s.abandon lc).flush lc).prog.batches = _
  rw [State.flush_batches, State.abandon_progress, State.abandon_batches, (s.abandon_halting lc).tileOf]

theorem State.abandon_stopped (s : State) (lc n : Nat) : ((s.abandon lc).core n).stopped = (s.core n).stopped := (s.abandon_ran lc).stopped n

theorem State.stopFlushed_core_ne (s : State) {lc n : Nat} (h : n ≠ lc) : ((s.stopFlushed lc).core n).progress = (s.core n).progress ∧
    ((s.stopFlushed lc).core n).stopped = (s.core n).stopped := by
  rw [State.stopFlushed, State.core_setCore_ne _ _ _ _ h, State.haltFlushed, State.flush_core_ne _ h]
  exact ⟨s.abandon_progress lc n, s.abandon_stopped lc n⟩

theorem State.Stopped.step {s t : State} {n : Nat} (h : s.Stopped n t) (lc : Nat) : s.Stopped n (t.stopFlushed lc) := by
  have hsent : ∀ b ∈ t.prog.batches, b ∈ (t.stopFlushed lc).prog.batches := fun b hb => by
    rw [State.stopFlushed_batches]
    split
    · exact hb
    · exact List.mem_append_left _ hb
  by_cases hn : n = lc
  · subst hn
    refine ⟨?_, ?_, fun hne => hsent _ (h.sent hne)⟩
    · rw [State.stopFlushed, State.core_setCore]
    · rw [State.stopFlushed, State.core_setCore]
      exact State.flush_progress _ (.inl rfl)
  · obtain ⟨hprogress, hstopped⟩ := t.stopFlushed_core_ne hn
    exact ⟨hstopped.trans h.stopped, hprogress.trans h.progress, fun hne => hsent _ (h.sent hne)⟩

/-- The core at the head of the list stops with its buffer sent. -/
theorem State.stopFlushed_stopped {s t : State} (h : s.Halting t) {n : Nat} (hp : (t.core n).progress = (s.core n).progress) :
    s.Stopped n (t.stopFlushed n) := by
  refine ⟨?_, ?_, fun hne => ?_⟩
  · rw [State.stopFlushed, State.core_setCore]
  · rw [State.stopFlushed, State.core_setCore]
    exact State.flush_progress _ (.inl rfl)
  · rw [State.stopFlushed_batches, if_neg (by rw [hp]; exact hne), h.tileOf, hp]
    exact List.mem_append_right _ (List.mem_singleton.2 rfl)

theorem State.foldl_stopFlushed_stopped {s t : State} (h : s.Halting t) {n : Nat} {l : List Nat}
    (hn : s.Stopped n t ∨ (n ∈ l ∧ (t.core n).progress = (s.core n).progress)) : s.Stopped n (l.foldl State.stopFlushed t) := by
  induction l generalizing t with
  | nil => exact hn.resolve_right fun hl => List.not_mem_nil hl.1
  | cons lc l ih =>
    refine ih (h.trans (t.stopFlushed_halting lc)) ?_
    rcases hn with hn | ⟨hmem, hprogress⟩
    · exact .inl (hn.step lc)
    · by_cases hlc : n = lc
      · subst hlc
        exact .inl (State.stopFlushed_stopped h hprogress)
      · exact .inr ⟨(List.mem_cons.1 hmem).resolve_left hlc, (t.stopFlushed_core_ne hlc).1.trans hprogress⟩

/-- A halt is over in the state u: what the image needs of the state s before it is kept. -/
def State.haltEnds (u s : State) (p : Nat) : State :=
  ((u.setPreemption p { u.preemption p with time := s.timestamp, seq := s.lastSeq p }).endCmd p 2 1).count cPREEMPTS p

/-- The state that a halt leaves. -/
def State.halted (s : State) (p : Nat) : State := ((s.coresOf p).foldl State.stopFlushed s).haltEnds s p

theorem exec_preemptHaltComplete {s : State} {p : Nat} (h1 : s.partState p = 1)
    (hstill : ∀ lc ∈ s.coresOf p, s.midway lc = false ∧ (s.core lc).strays = [] ∧ s.inMove lc = false)
    (hfly : ∀ x ∈ s.mem.flying, x.lc ∉ s.coresOf p) : exec (.preemptHaltComplete p) s = .next (s.halted p) := by
  refine if_neg ?_
  simp only [Bool.or_eq_true, List.any_eq_true, decide_eq_true_iff, not_or, not_exists, not_and, not_not]
  refine ⟨h1, fun lc hlc => ?_⟩
  obtain ⟨hmid, hstrays, hmove⟩ := hstill lc hlc
  simp only [hmid, hstrays, hmove, bne_self_eq_false, Bool.false_eq_true, not_false_eq_true, true_and]
  intro x hx heq
  exact hfly x hx (by rwa [beq_iff_eq.1 heq])

/-! ### Resume and restore (R240) -/

theorem State.releaseCores_eq (l : List Nat) (s : State) : ∃ c, l.foldl (fun s lc => s.setCore lc { s.core lc with stopped := s.inMove lc }) s =
    { s with cores := c } :=
  List.foldlRecOn (motive := fun t : State => ∃ c, t = { s with cores := c }) l _ ⟨s.cores, rfl⟩ fun t h lc _ => by
    obtain ⟨c, rfl⟩ := h
    exact ⟨_, rfl⟩

/-- What releasing a list of cores leaves of a core. -/
theorem State.releaseCores_core {l : List Nat} {s t : State} {n : Nat} (hst : ∃ c, t = { s with cores := c })
    (hframes : (t.core n).frames = (s.core n).frames) (h : n ∈ l ∨ (t.core n).stopped = s.inMove n) :
    let u := l.foldl (fun s lc => s.setCore lc { s.core lc with stopped := s.inMove lc }) t
    (u.core n).stopped = s.inMove n ∧ (u.core n).frames = (s.core n).frames := by
  induction l generalizing t with
  | nil => exact ⟨h.resolve_left List.not_mem_nil, hframes⟩
  | cons lc l ih =>
    obtain ⟨c, rfl⟩ := hst
    refine ih ⟨_, rfl⟩ ?_ ?_
    · by_cases hn : n = lc
      · subst hn; rw [State.core_setCore]; exact hframes
      · rw [State.core_setCore_ne _ _ _ _ hn]; exact hframes
    · by_cases hn : n = lc
      · subst hn; exact .inr (by rw [State.core_setCore]; rfl)
      · rw [State.core_setCore_ne _ _ _ _ hn]
        exact h.imp_left fun h => (List.mem_cons.1 h).resolve_left hn

section
variable {s : State} {p : Nat} {phys : List Nat} (hp : p < 256)
include hp

theorem exec_preemptResume (hidle : s.partResult p ≠ 4) (h2 : s.partState p = 2) :
    exec (.preemptResume p) s = .next ((s.releasePart p).endCmd p 0 1) :=
  (if_pos hp).trans (congrArg Host.Outcome.next (if_pos ⟨h2, hidle⟩))

/-- A save that is under way, and what it comes to. -/
theorem exec_preemptSave_begun (hcmd : (s.preemption p).cmd = 2) : exec (.preemptSave p) s =
    .next (if s.storesOut p then s else (s.writeImage p).endCmd p 3 1) := by
  change execPreemptSave p s = _
  rw [execPreemptSave, if_neg (by omega)]
  simp only [hcmd, if_true, ne_eq, not_true_eq_false, decide_false, Bool.false_or]
  split <;> rfl

/-- The command of a save begins it. -/
theorem exec_preemptSave_commanded (hidle : s.partResult p ≠ 4) (h2 : s.partState p = 2) (hcmd : (s.preemption p).cmd = 0) :
    exec (.preemptSave p) s = exec (.preemptSave p) (s.beginCmd p 2 2) := by
  have hsave : s.savePart p = s.beginCmd p 2 2 := if_pos ⟨h2, hidle⟩
  change execPreemptSave p s = execPreemptSave p (s.beginCmd p 2 2)
  have hbegun := s.beginCmd_cmd p (cmd := 2) (st := 2)
  simp [execPreemptSave, Nat.not_le.2 hp, hcmd, hsave, hbegun]

theorem State.beginCmd_storesOut {cmd st : Nat} : (s.beginCmd p cmd st).storesOut p = s.storesOut p := by
  have hpart : ∀ lc, (s.beginCmd p cmd st).inPart p lc = s.inPart p lc := fun lc => by
    have h : ∀ w, (s.setEntry 6 p w).entry 24 lc = s.entry 24 lc := fun w => State.entry_setEntry_table _ _ _ _ _ _ (by omega)
    simp only [State.inPart, State.partOf]
    rw [show (s.beginCmd p cmd st).entry 24 lc = s.entry 24 lc from h _]
  simp only [State.storesOut, hpart]
  rfl

theorem exec_preemptRestore_begun (hcmd : (s.preemption p).cmd = 3) : exec (.preemptRestore p phys) s =
    let b := s.physByte (s.entry 7 p).toNat
    .next (if !s.imageOk p b then s.endCmd p 3 3 else if !s.freePhys (s.coresOf p) phys then s
      else ((s.readImage p b phys).releasePart p).endCmd p 0 1) := by
  change execPreemptRestore p phys s = _
  rw [execPreemptRestore, if_neg (by omega)]
  simp only [hcmd, if_true, ne_eq, not_true_eq_false, if_false]
  split
  · rfl
  · split <;> rfl

theorem exec_preemptRestore_commanded (hidle : s.partResult p ≠ 4) (h3 : s.partState p = 3) (hcmd : (s.preemption p).cmd = 0) :
    exec (.preemptRestore p phys) s = exec (.preemptRestore p phys) (s.beginCmd p 3 4) := by
  have hrestore : s.restorePart p = s.beginCmd p 3 4 := if_pos ⟨h3, hidle⟩
  have hbegun := s.beginCmd_cmd p (cmd := 3) (st := 4)
  change execPreemptRestore p phys s = execPreemptRestore p phys (s.beginCmd p 3 4)
  simp [execPreemptRestore, Nat.not_le.2 hp, hcmd, hrestore, hbegun]

end
end Sys2Proof.Machine
end


section
/-! PROOFS. Kill (R140, R241): what a kill leaves of frames, records, tasks and entries. -/

namespace Sys2Proof.Machine

/-! ### States that hold no more than another -/

/-- A state holds no frame, spilled record, tile task, landed or travelling record and no slice entry that another does not; a
frame may have changed but for its graph slot and its time. -/
structure State.Shrinks (s t : State) : Prop where
  frames : ∀ lc, ∀ f ∈ (t.core lc).frames, ∃ g ∈ (s.core lc).frames, g.graph = f.graph ∧ g.ltime = f.ltime
  spill : ∀ lc, (t.core lc).spill ⊆ (s.core lc).spill
  queue : ∀ cl, (t.cluster cl).queue ⊆ (s.cluster cl).queue
  forward : ∀ cl, (t.cluster cl).forward ⊆ (s.cluster cl).forward
  run : ∀ n, ∀ k ∈ (t.tile n).run, k ∈ (s.tile n).run
  held : ∀ n, (t.tile n).held ⊆ (s.tile n).held
  landed : ∀ g st, (t.landing g st).recs ⊆ (s.landing g st).recs
  flights : t.prog.flights ⊆ s.prog.flights
  pantry : ∀ n, (t.slice n).pantry ⊆ (s.slice n).pantry
  hold : ∀ n, (t.slice n).hold ⊆ (s.slice n).hold

namespace State.Shrinks

theorem refl (s : State) : s.Shrinks s where
  frames _ f h := ⟨f, h, rfl, rfl⟩
  spill _ _ h := h
  queue _ _ h := h
  forward _ _ h := h
  run _ _ h := h
  held _ _ h := h
  landed _ _ _ h := h
  flights _ h := h
  pantry _ _ h := h
  hold _ _ h := h

theorem trans {s t u : State} (h : s.Shrinks t) (k : t.Shrinks u) : s.Shrinks u where
  frames lc f hf := by
    obtain ⟨g, hg, hgraph, htime⟩ := k.frames lc f hf
    obtain ⟨g2, hg2, hgraph2, htime2⟩ := h.frames lc g hg
    exact ⟨g2, hg2, hgraph2.trans hgraph, htime2.trans htime⟩
  spill lc _ hx := h.spill lc (k.spill lc hx)
  queue cl _ hx := h.queue cl (k.queue cl hx)
  forward cl _ hx := h.forward cl (k.forward cl hx)
  run n _ hx := h.run n _ (k.run n _ hx)
  held n _ hx := h.held n (k.held n hx)
  landed g st _ hx := h.landed g st (k.landed g st hx)
  flights _ hx := h.flights (k.flights hx)
  pantry n _ hx := h.pantry n (k.pantry n hx)
  hold n _ hx := h.hold n (k.hold n hx)

theorem foldl {α : Type} (g : State → α → State) (h : ∀ (t : State) x, t.Shrinks (g t x)) (l : List α) (s : State) :
    s.Shrinks (l.foldl g s) := List.foldlRecOn l g (.refl s) fun t ht x _ => ht.trans (h t x)

end State.Shrinks

section
variable (s : State)

/-! ### Single updates -/

/-- What holds no record may change. -/
theorem State.shrinks_beside (m : Mem) (p : Progress) (k : Table (BitVec 32)) (e : Table Word) (d : Table Die) (x : Table Preemption)
    (hl : p.landings = s.prog.landings) (hf : p.flights ⊆ s.prog.flights) :
    s.Shrinks { s with mem := m, prog := p, counters := k, feTab := e, dies := d, preempts := x } :=
  { State.Shrinks.refl s with landed := fun g st _ hx => by simpa only [State.landing, hl] using hx, flights := fun _ hx => hf hx }

theorem State.shrinks_mem (m : Mem) : s.Shrinks { s with mem := m } := s.shrinks_beside m _ _ _ _ _ rfl fun _ h => h

theorem State.shrinks_prog (p : Progress) (hl : p.landings = s.prog.landings) (hf : p.flights ⊆ s.prog.flights) :
    s.Shrinks { s with prog := p } := s.shrinks_beside _ p _ _ _ _ hl hf

theorem State.setNode_shrinks (n : Nat) (l : List Delta) : s.Shrinks (s.setNode n l) := s.shrinks_prog _ rfl fun _ h => h
theorem State.addBatch_shrinks (b : Batch) : s.Shrinks (s.addBatch b) := s.shrinks_prog _ rfl fun _ h => h
theorem State.forgetKey_shrinks (k : Nat) : s.Shrinks (s.forgetKey k) := s.shrinks_prog _ rfl fun _ h => h
theorem State.setEntry_shrinks (k i : Nat) (w : Word) : s.Shrinks (s.setEntry k i w) := s.shrinks_beside _ _ _ _ _ _ rfl fun _ h => h
theorem State.setDie_shrinks (n : Nat) (x : Die) : s.Shrinks (s.setDie n x) := s.shrinks_beside _ _ _ _ _ _ rfl fun _ h => h
theorem State.count_shrinks (c i : Nat) : s.Shrinks (s.count c i) := s.shrinks_beside _ _ _ _ _ _ rfl fun _ h => h
theorem State.setPreemption_shrinks (p : Nat) (x : Preemption) : s.Shrinks (s.setPreemption p x) :=
  s.shrinks_beside _ _ _ _ _ _ rfl fun _ h => h

theorem State.setCore_shrinks {k : Nat} {c : Core}
    (hf : ∀ f ∈ c.frames, ∃ g ∈ (s.core k).frames, g.graph = f.graph ∧ g.ltime = f.ltime) (hs : c.spill ⊆ (s.core k).spill) :
    s.Shrinks (s.setCore k c) :=
  { State.Shrinks.refl s with
    frames := fun lc f h => by
      by_cases hk : lc = k
      · subst hk; rw [State.core_setCore] at h; exact hf f h
      · rw [State.core_setCore_ne _ _ _ _ hk] at h; exact ⟨f, h, rfl, rfl⟩
    spill := fun lc q h => by
      by_cases hk : lc = k
      · subst hk; rw [State.core_setCore] at h; exact hs h
      · rwa [State.core_setCore_ne _ _ _ _ hk] at h }

/-- A core whose frames and spilled records stay. -/
theorem State.setCore_shrinks_same {k : Nat} {c : Core} (hf : c.frames = (s.core k).frames) (hs : c.spill = (s.core k).spill) :
    s.Shrinks (s.setCore k c) := s.setCore_shrinks (fun f h => ⟨f, hf ▸ h, rfl, rfl⟩) fun _ h => hs ▸ h

theorem State.setCluster_shrinks {k : Nat} {x : Cluster} (hq : x.queue ⊆ (s.cluster k).queue) (hf : x.forward ⊆ (s.cluster k).forward) :
    s.Shrinks (s.setCluster k x) :=
  { State.Shrinks.refl s with
    queue := fun cl t h => by
      by_cases hk : cl = k
      · subst hk; rw [State.cluster_setCluster] at h; exact hq h
      · rwa [State.cluster_setCluster_ne _ _ _ _ hk] at h
    forward := fun cl t h => by
      by_cases hk : cl = k
      · subst hk; rw [State.cluster_setCluster] at h; exact hf h
      · rwa [State.cluster_setCluster_ne _ _ _ _ hk] at h }

theorem State.setTile_shrinks {k : Nat} {x : Tile} (hr : ∀ t ∈ x.run, t ∈ (s.tile k).run) (hh : x.held ⊆ (s.tile k).held) :
    s.Shrinks (s.setTile k x) :=
  { State.Shrinks.refl s with
    run := fun n t h => by
      by_cases hk : n = k
      · subst hk; rw [State.tile_setTile] at h; exact hr t h
      · rwa [State.tile_setTile_ne _ _ _ _ hk] at h
    held := fun n t h => by
      by_cases hk : n = k
      · subst hk; rw [State.tile_setTile] at h; exact hh h
      · rwa [State.tile_setTile_ne _ _ _ _ hk] at h }

theorem State.slice_setSlice_ne {k n : Nat} (x : Slice) (h : n ≠ k) : (s.setSlice k x).slice n = s.slice n :=
  tget_tput_other _ _ _ _ _ h

theorem State.setSlice_shrinks {k : Nat} {x : Slice} (hp : x.pantry ⊆ (s.slice k).pantry) (hh : x.hold ⊆ (s.slice k).hold) :
    s.Shrinks (s.setSlice k x) :=
  { State.Shrinks.refl s with
    pantry := fun n t h => by
      by_cases hk : n = k
      · subst hk; rw [State.slice_setSlice] at h; exact hp h
      · rwa [s.slice_setSlice_ne x hk] at h
    hold := fun n t h => by
      by_cases hk : n = k
      · subst hk; rw [State.slice_setSlice] at h; exact hh h
      · rwa [s.slice_setSlice_ne x hk] at h }

theorem State.setLanding_shrinks {g st : Nat} {x : Landing} (h : x.recs ⊆ (s.landing g st).recs) : s.Shrinks (s.setLanding g st x) :=
  { State.Shrinks.refl s with
    landed := fun g2 st2 y hy => by
      by_cases hk : 64 * g2 + st2 = 64 * g + st
      · simp only [State.landing, State.setLanding, hk, tget_tput_same] at hy ⊢
        exact h hy
      · simp only [State.landing, State.setLanding] at hy ⊢
        rwa [tget_tput_other _ _ _ _ _ hk] at hy }

/-! ### What drops and frees leave -/

theorem State.dropAt_shrinks (die : Nat) (r : Rec) (m : List Mark) : s.Shrinks (s.dropAt die r m) := by
  unfold State.dropAt State.postNode
  dsimp only
  split
  · exact (s.setNode_shrinks ..).trans (State.count_shrinks ..)
  · exact s.setNode_shrinks ..

theorem State.dropVictims_shrinks (die : Nat) (l : List Rec) : s.Shrinks (s.dropVictims die l) :=
  .foldl _ (fun t r => t.dropAt_shrinks die r []) l s

theorem State.flush_shrinks (lc : Nat) : s.Shrinks (s.flush lc) := by
  unfold State.flush
  dsimp only
  split
  · exact .refl s
  · exact (s.addBatch_shrinks _).trans (State.setCore_shrinks_same _ rfl rfl)

/-- A core that may be left without a frame flushes where it is. -/
theorem State.flushEmpty_shrinks (lc : Nat) : s.Shrinks (if (s.core lc).frames = [] then s.flush lc else s) := by
  split
  · exact s.flush_shrinks lc
  · exact .refl s

theorem State.post_shrinks (lc : Nat) (d : Delta) : s.Shrinks (s.post lc d) := by
  unfold State.post
  dsimp only
  split
  · exact (s.flush_shrinks lc).trans (State.setCore_shrinks_same _ rfl rfl)
  · exact s.setCore_shrinks_same rfl rfl

theorem State.dropHolder_shrinks (h : Nat) : s.Shrinks (s.dropHolder h) := s.shrinks_mem _

theorem State.engDone_shrinks (x : Issuer) : s.Shrinks (s.engDone x) := s.dropHolder_shrinks _

theorem State.unhand_shrinks (r : Rec) (lc : Nat) (landed : Bool) : s.Shrinks (s.unhand r lc landed) := by
  unfold State.unhand
  split
  · exact s.setLanding_shrinks fun _ h => h
  · exact .refl s

theorem takeSpilled_subset {level : Nat} {l r : List Queued} {q : Queued} (h : takeSpilled level l = some (q, r)) : r ⊆ l := by
  induction l generalizing r with
  | nil => cases h
  | cons y l ih =>
    rw [takeSpilled] at h
    split at h
    · cases h; exact List.subset_cons_self ..
    · split at h
      · next hx => cases h; exact List.cons_subset_cons _ (ih hx)
      · cases h

theorem Core.refill_spill (c : Core) (unspill : Queued → Queued) (i : Nat) : (c.refill unspill i).spill ⊆ c.spill := by
  unfold Core.refill
  split
  · exact fun _ h => h
  · split
    · next h => exact takeSpilled_subset h
    · exact fun _ h => h

theorem State.freeInbox_shrinks (lc i : Nat) : s.Shrinks (s.freeInbox lc i) := by
  refine s.setCore_shrinks (fun f h => ⟨f, ?_, rfl, rfl⟩) (Core.refill_spill { s.core lc with inbox := _ } _ _)
  rwa [Core.refill_frames] at h

theorem State.freeFoot_shrinks (lc arrival : Nat) : s.Shrinks (s.freeFoot lc arrival) := by
  unfold State.freeFoot
  dsimp only
  split
  · exact .refl s
  · refine .trans (.trans ?_ (State.forgetKey_shrinks ..)) (State.dropHolder_shrinks ..)
    exact s.setCore_shrinks_same rfl rfl

theorem State.dropQueued_shrinks (lc : Nat) (e : Nat × Queued) : s.Shrinks (s.dropQueued lc e) :=
  ((s.freeFoot_shrinks ..).trans (State.freeInbox_shrinks ..)).trans (State.unhand_shrinks ..)

theorem State.setChan_shrinks (lc level ch : Nat) (x : Chan) : s.Shrinks (s.setChan lc level ch x) := s.setCore_shrinks_same rfl rfl

theorem State.setArm_shrinks (lc i : Nat) (x : Option Arm) : s.Shrinks (s.setArm lc i x) := by
  unfold State.setArm
  dsimp only
  split
  · exact s.setCore_shrinks_same rfl rfl
  · exact .refl s

theorem State.freeBank_shrinks (tile name lc level : Nat) : s.Shrinks (s.freeBank tile name lc level) := by
  unfold State.freeBank State.setBank
  split
  · dsimp only
    split
    · exact s.setTile_shrinks (fun _ h => h) fun _ h => h
    · exact .refl s
  · exact .refl s

theorem State.dropChain_shrinks (cl : Nat) (c : Chain) : s.Shrinks (s.dropChain cl c) := by
  refine .trans ?_ (State.freeBank_shrinks ..)
  exact s.setCluster_shrinks (fun _ h => h) fun _ h => h

/-! ### What each part of a kill leaves -/

variable (hit : Victim)

theorem State.killStrays_shrinks (lc : Nat) : s.Shrinks (s.killStrays hit lc) := by
  unfold State.killStrays
  dsimp only
  split
  · exact .refl s
  · refine .trans ?_ (State.dropVictims_shrinks ..)
    exact s.setCore_shrinks_same rfl rfl

theorem uncover_mem {l : List Frame} {f : Frame} (h : f ∈ uncover l) : ∃ g ∈ l, g.graph = f.graph ∧ g.ltime = f.ltime := by
  cases l with
  | nil => cases h
  | cons x l =>
    rcases List.mem_cons.1 h with rfl | h
    · exact ⟨x, List.mem_cons_self .., rfl, rfl⟩
    · exact ⟨f, List.mem_cons_of_mem _ h, rfl, rfl⟩

/-- The frames that a kill leaves on a core. -/
def keptFrames (hit : Victim) (l : List Frame) : List Frame :=
  if l.head?.any fun f => hit f.graph (some f.ltime) then uncover (l.filter fun f => !hit f.graph (some f.ltime))
  else l.filter fun f => !hit f.graph (some f.ltime)

theorem mem_keptFrames {l : List Frame} {f : Frame} (h : f ∈ keptFrames hit l) :
    hit f.graph (some f.ltime) = false ∧ ∃ g ∈ l, g.graph = f.graph ∧ g.ltime = f.ltime := by
  obtain ⟨g, hg, hgraph, htime⟩ : ∃ g ∈ l.filter fun f => !hit f.graph (some f.ltime), g.graph = f.graph ∧ g.ltime = f.ltime := by
    unfold keptFrames at h
    split at h
    · exact uncover_mem h
    · exact ⟨f, h, rfl, rfl⟩
  obtain ⟨hl, hno⟩ := List.mem_filter.1 hg
  refine ⟨?_, g, hl, hgraph, htime⟩
  rw [← hgraph, ← htime]
  simpa using hno

/-- What follows the frames that go: their decrements, and the entries of inline handlers. -/
def State.frameGone (lc : Nat) (s : State) (f : Frame) : State :=
  let s1 := s.dropVictims (s.dieOf lc) f.streamSuccs
  let s2 := if f.leader.isSome then s1 else s1.post lc ⟨f.graph, f.station, f.ltime, -1, none, []⟩
  if f.kind = 1 then s2.freeInbox lc f.entry else s2

theorem State.frameGone_shrinks (lc : Nat) (f : Frame) : s.Shrinks (s.frameGone lc f) := by
  have hpost : s.Shrinks (if f.leader.isSome then s.dropVictims (s.dieOf lc) f.streamSuccs
      else (s.dropVictims (s.dieOf lc) f.streamSuccs).post lc ⟨f.graph, f.station, f.ltime, -1, none, []⟩) := by
    split
    · exact s.dropVictims_shrinks ..
    · exact (s.dropVictims_shrinks ..).trans (State.post_shrinks ..)
  unfold State.frameGone
  dsimp only
  split
  · exact hpost.trans (State.freeInbox_shrinks ..)
  · exact hpost

/-- The frames of a core are those kept, before what follows those that go. -/
theorem State.killFrames_step (lc : Nat) : ∃ t, t.Shrinks (s.killFrames hit lc) ∧ s.Shrinks t ∧
    ∀ f ∈ (t.core lc).frames, hit f.graph (some f.ltime) = false := by
  have hstrays := s.killStrays_shrinks hit lc
  unfold State.killFrames
  dsimp only
  generalize s.killStrays hit lc = u at hstrays
  split
  · next hnone =>
    refine ⟨u, .refl u, hstrays, fun f hf => ?_⟩
    have := List.filter_eq_nil_iff.1 hnone f hf
    simpa using this
  · refine ⟨u.setCore lc { u.core lc with frames := keptFrames hit (u.core lc).frames }, ?_, hstrays.trans ?_, fun f hf => ?_⟩
    · have hgone := State.Shrinks.foldl (State.frameGone lc) (fun t f => t.frameGone_shrinks lc f)
        ((u.core lc).frames.filter fun f => hit f.graph (some f.ltime)) (u.setCore lc { u.core lc with frames := keptFrames hit (u.core lc).frames })
      exact hgone.trans (State.flushEmpty_shrinks ..)
    · exact u.setCore_shrinks (fun f hf => (mem_keptFrames hit hf).2) fun _ h => h
    · rw [State.core_setCore] at hf
      exact (mem_keptFrames hit hf).1

/-- The spilled records of a core are those kept, before what follows those that go. -/
theorem State.killQueued_step (lc : Nat) : ∃ t, t.Shrinks (s.killQueued hit lc) ∧ s.Shrinks t ∧
    ∀ q ∈ (t.core lc).spill, hit q.rcd.graph (some q.rcd.q1) = false := by
  unfold State.killQueued
  dsimp only
  refine ⟨_, .trans (.trans (State.dropVictims_shrinks _ (s.dieOf lc) _) (.foldl _ (fun t q => t.unhand_shrinks ..) _ _))
    (.foldl _ (fun t e => (t.dropAt_shrinks ..).trans (State.dropQueued_shrinks ..)) _ _),
    s.setCore_shrinks (fun f h => ⟨f, h, rfl, rfl⟩) (List.filter_subset_self _), fun q hq => ?_⟩
  rw [State.core_setCore] at hq
  simpa using (List.mem_filter.1 hq).2

theorem State.killChan_shrinks (lc level ch : Nat) : s.Shrinks (s.killChan hit lc level ch) := by
  unfold State.killChan
  dsimp only
  have hqueue := (s.setChan_shrinks lc level ch
    { s.chan lc level ch with queue := (s.chan lc level ch).queue.filter fun d => !hit d.succ.graph (some d.succ.q1) }).trans
      (State.dropVictims_shrinks _ (s.dieOf lc)
        (((s.chan lc level ch).queue.filter fun d => hit d.succ.graph (some d.succ.q1)).map CopyDesc.succ))
  split
  · exact hqueue
  · next op _ =>
    split
    · exact hqueue
    · refine .trans ?_ (State.dropAt_shrinks ..)
      refine .trans ?_ (State.setChan_shrinks ..)
      refine .trans ?_ (State.shrinks_mem _ _)
      refine .trans ?_ (State.engDone_shrinks ..)
      split
      · exact hqueue.trans (State.setArm_shrinks ..)
      · exact hqueue

theorem State.killChans_shrinks (lc : Nat) : s.Shrinks (s.killChans hit lc) := .foldl _ (fun t _ => t.killChan_shrinks ..) _ _

end

/-! ### What a kill leaves of each unit -/

section
variable (hit : Victim)

/-- The frames of a core, its spilled records, the tasks of a cluster, the records of a landing, and the entries of a slice are
none that is hit. -/
def State.FramesClean (s : State) (lc : Nat) : Prop := ∀ f ∈ (s.core lc).frames, hit f.graph (some f.ltime) = false
def State.SpillClean (s : State) (lc : Nat) : Prop := ∀ q ∈ (s.core lc).spill, hit q.rcd.graph (some q.rcd.q1) = false
def State.QueuesClean (s : State) (cl : Nat) : Prop :=
  ∀ k ∈ (s.cluster cl).queue ++ (s.cluster cl).forward, hit k.graph (some k.ltime) = false
def State.TileClean (s : State) (n : Nat) : Prop := ∀ k ∈ (s.tile n).run.toList ++ (s.tile n).held, hit k.graph (some k.ltime) = false
def State.LandingClean (s : State) (e : Nat) : Prop :=
  ∀ x ∈ (s.landing (e / 64) (e % 64)).recs, hit (e / 64) (some x.rcd.q1) = false
def State.FlightsClean (s : State) : Prop := ∀ x ∈ s.prog.flights, hit x.rcd.graph (some x.rcd.q1) = false
def State.SliceClean (s : State) (n : Nat) : Prop := (∀ d ∈ (s.slice n).pantry, hit d.succ.graph (some d.succ.q1) = false) ∧
  ∀ h ∈ (s.slice n).hold, ∀ g, h.graph = some g → hit g none = false

section
variable {hit} {s t : State} (h : s.Shrinks t) {n : Nat}
include h

theorem State.Shrinks.framesClean (k : s.FramesClean hit n) : t.FramesClean hit n := fun f hf => by
  obtain ⟨g, hg, hgraph, htime⟩ := h.frames n f hf
  rw [← hgraph, ← htime]
  exact k g hg

theorem State.Shrinks.spillClean (k : s.SpillClean hit n) : t.SpillClean hit n := fun q hq => k q (h.spill n hq)

theorem State.Shrinks.queuesClean (k : s.QueuesClean hit n) : t.QueuesClean hit n := fun x hx => by
  rcases List.mem_append.1 hx with hx | hx
  · exact k x (List.mem_append_left _ (h.queue n hx))
  · exact k x (List.mem_append_right _ (h.forward n hx))

theorem State.Shrinks.tileClean (k : s.TileClean hit n) : t.TileClean hit n := fun x hx => by
  rcases List.mem_append.1 hx with hx | hx
  · exact k x (List.mem_append_left _ (Option.mem_toList.2 (h.run n x (Option.mem_toList.1 hx))))
  · exact k x (List.mem_append_right _ (h.held n hx))

theorem State.Shrinks.landingClean (k : s.LandingClean hit n) : t.LandingClean hit n := fun x hx => k x (h.landed _ _ hx)
theorem State.Shrinks.flightsClean (k : s.FlightsClean hit) : t.FlightsClean hit := fun x hx => k x (h.flights hx)
theorem State.Shrinks.sliceClean (k : s.SliceClean hit n) : t.SliceClean hit n :=
  ⟨fun d hd => k.1 d (h.pantry n hd), fun x hx => k.2 x (h.hold n hx)⟩

end

/-- A fold of steps that shrink, each of which cleans its own unit, cleans every unit of the list. -/
theorem State.Shrinks.foldl_cleans {α β : Type} {P : State → β → Prop} {key : α → β} (hP : ∀ {s t : State} {n}, s.Shrinks t → P s n → P t n)
    {g : State → α → State} (hg : ∀ (t : State) x, t.Shrinks (g t x)) (hclean : ∀ (t : State) x, P (g t x) (key x)) {l : List α}
    {s : State} {n : β} (h : n ∈ l.map key ∨ P s n) : P (l.foldl g s) n := by
  induction l generalizing s with
  | nil => exact h.resolve_left List.not_mem_nil
  | cons x l ih =>
    refine ih ?_
    rcases h with h | h
    · rcases List.mem_cons.1 h with rfl | h
      · exact .inr (hclean s x)
      · exact .inl h
    · exact .inr (hP (hg s x) h)

/-! #### Clusters and tiles -/

/-- A tile keeps the tasks that are not hit. -/
def State.killTile (hit : Victim) (s : State) (n : Nat) : State :=
  s.setTile n { s.tile n with
    run := (s.tile n).run.filter fun y => !hit y.graph (some y.ltime), held := (s.tile n).held.filter fun y => !hit y.graph (some y.ltime) }

theorem State.killTile_shrinks (s : State) (n : Nat) : s.Shrinks (s.killTile hit n) :=
  s.setTile_shrinks (fun _ h => (Option.mem_filter_iff.1 h).1) (List.filter_subset_self _)

theorem State.killTile_clean (s : State) (n : Nat) : (s.killTile hit n).TileClean hit n := fun k hk => by
  rw [State.killTile, State.tile_setTile] at hk
  rcases List.mem_append.1 hk with hk | hk
  · simpa using (Option.mem_filter_iff.1 (Option.mem_toList.1 hk)).2
  · simpa using (List.mem_filter.1 hk).2

/-- The queues of a cluster are those kept, and so are its tiles, before what follows the tasks that go. -/
theorem State.killCluster_step (s : State) (dead : Nat → Nat → Bool) (cl : Nat) : ∃ t, t.Shrinks (s.killCluster hit dead cl) ∧
    s.Shrinks t ∧ t.QueuesClean hit cl ∧ ∀ n ∈ span (8 * cl) 8, t.TileClean hit n := by
  unfold State.killCluster
  dsimp only
  have hqueues := s.setCluster_shrinks (k := cl) (x := { s.cluster cl with
    queue := (s.cluster cl).queue.filter fun t => !hit t.graph (some t.ltime)
    forward := (s.cluster cl).forward.filter fun t => !hit t.graph (some t.ltime)
    gathers := (s.cluster cl).gathers.filter fun g => !hit g.succ.graph (some g.succ.q1) })
    (List.filter_subset_self _) (List.filter_subset_self _)
  have htiles := fun u => State.Shrinks.foldl (State.killTile hit) (fun t n => t.killTile_shrinks hit n) (span (8 * cl) 8) u
  refine ⟨(span (8 * cl) 8).foldl (State.killTile hit) _, ?_, hqueues.trans (htiles _), (htiles _).queuesClean fun k hk => ?_, fun n hn => ?_⟩
  · refine .trans ?_ (State.dropVictims_shrinks ..)
    refine .trans ?_ (.foldl _ (fun t k => t.dropChain_shrinks ..) _ _)
    exact .foldl _ (fun t g => t.engDone_shrinks _) _ _
  · rw [State.cluster_setCluster] at hk
    rcases List.mem_append.1 hk with hk | hk
    · simpa using (List.mem_filter.1 hk).2
    · simpa using (List.mem_filter.1 hk).2
  · exact State.Shrinks.foldl_cleans (P := State.TileClean hit) (key := id) (fun h k => h.tileClean k) (fun t n => t.killTile_shrinks hit n)
      (fun t n => t.killTile_clean hit n) (.inl (by simpa using hn))

/-! #### Landings, flights and slices -/

/-- A landing keeps the records that are not hit. -/
def State.killLanding (hit : Victim) (s : State) (e : Nat × Landing) : State :=
  let g := e.1 / 64
  let l := s.landing g (e.1 % 64)
  let out := l.recs.filter fun x => hit g (some x.rcd.q1)
  if out = [] then s
  else (s.setLanding g (e.1 % 64) { l with recs := l.recs.filter fun x => !hit g (some x.rcd.q1) }).dropVictims (l.home / 16) (out.map Landed.rcd)

theorem State.killLandings_eq (s : State) : s.killLandings hit = s.prog.landings.foldl (State.killLanding hit) s := rfl

theorem State.killLanding_shrinks (s : State) (e : Nat × Landing) : s.Shrinks (s.killLanding hit e) := by
  unfold State.killLanding
  dsimp only
  split
  · exact .refl s
  · refine .trans ?_ (State.dropVictims_shrinks ..)
    exact s.setLanding_shrinks (List.filter_subset_self _)

theorem State.killLanding_clean (s : State) (e : Nat × Landing) : (s.killLanding hit e).LandingClean hit e.1 := by
  unfold State.killLanding
  dsimp only
  split
  · next hnone => exact fun x hx => by simpa using List.filter_eq_nil_iff.1 hnone x hx
  · refine (State.dropVictims_shrinks ..).landingClean fun x hx => ?_
    rw [State.landing_setLanding] at hx
    simpa using (List.mem_filter.1 hx).2

/-- What is not listed in a table is its default. -/
theorem tget_of_not_mem {α : Type} (d : α) {t : Table α} {k : Nat} (h : k ∉ t.map Prod.fst) : tget d t k = d := by
  induction t with
  | nil => rfl
  | cons e t ih =>
    obtain ⟨i, v⟩ := e
    simp only [List.map_cons, List.mem_cons, not_or] at h
    rw [tget, if_neg (Ne.symm h.1), ih h.2]

theorem State.killLandings_clean (s : State) (e : Nat) : (s.killLandings hit).LandingClean hit e := by
  rw [State.killLandings_eq]
  refine State.Shrinks.foldl_cleans (P := State.LandingClean hit) (key := Prod.fst) (fun h k => h.landingClean k) (fun t e => t.killLanding_shrinks hit e)
    (fun t e => t.killLanding_clean hit e) ?_
  by_cases he : e ∈ s.prog.landings.map Prod.fst
  · exact .inl he
  · refine .inr fun x hx => ?_
    rw [State.landing, Nat.div_add_mod, tget_of_not_mem _ he] at hx
    cases hx

theorem State.killLandings_shrinks (s : State) : s.Shrinks (s.killLandings hit) :=
  .foldl _ (fun t e => t.killLanding_shrinks hit e) _ _

theorem State.killFlights_step (s : State) : ∃ t, t.Shrinks (s.killFlights hit) ∧ s.Shrinks t ∧ t.FlightsClean hit := by
  unfold State.killFlights
  dsimp only
  refine ⟨_, .trans (State.dropVictims_shrinks _ 0 _) (.foldl _ (fun t x => ?_) _ _), s.shrinks_prog _ rfl (List.filter_subset_self _), fun x hx => ?_⟩
  · split
    · exact t.unhand_shrinks ..
    · exact .refl t
  · simpa using (List.mem_filter.1 hx).2

/-- A slice keeps the entries that are not hit. -/
def State.killSlice (hit : Victim) (s : State) (e : Nat × Slice) : State :=
  let x := s.slice e.1
  (s.setSlice e.1 { x with
    pantry := x.pantry.filter fun d => !hit d.succ.graph (some d.succ.q1)
    hold := x.hold.filter fun h => !h.graph.any fun g => hit g none }).dropVictims (e.1 / 16)
      ((x.pantry.filter fun d => hit d.succ.graph (some d.succ.q1)).map Deferred.succ)

theorem State.killSlices_eq (s : State) : s.killSlices hit = s.slices.foldl (State.killSlice hit) s := rfl

theorem State.killSlice_shrinks (s : State) (e : Nat × Slice) : s.Shrinks (s.killSlice hit e) := by
  refine .trans ?_ (State.dropVictims_shrinks ..)
  exact s.setSlice_shrinks (List.filter_subset_self _) (List.filter_subset_self _)

theorem State.killSlice_clean (s : State) (e : Nat × Slice) : (s.killSlice hit e).SliceClean hit e.1 := by
  refine (State.dropVictims_shrinks ..).sliceClean ⟨fun d hd => ?_, fun h hh g hg => ?_⟩
  · rw [State.slice_setSlice] at hd
    simpa using (List.mem_filter.1 hd).2
  · rw [State.slice_setSlice] at hh
    simpa [hg] using (List.mem_filter.1 hh).2

theorem State.killSlices_clean (s : State) (n : Nat) : (s.killSlices hit).SliceClean hit n := by
  rw [State.killSlices_eq]
  refine State.Shrinks.foldl_cleans (P := State.SliceClean hit) (key := Prod.fst) (fun h k => h.sliceClean k) (fun t e => t.killSlice_shrinks hit e)
    (fun t e => t.killSlice_clean hit e) ?_
  by_cases hn : n ∈ s.slices.map Prod.fst
  · exact .inl hn
  · refine .inr ?_
    have hreset : s.slice n = Slice.reset := tget_of_not_mem _ hn
    simp only [State.SliceClean, hreset]
    exact ⟨nofun, nofun⟩

theorem State.killSlices_shrinks (s : State) : s.Shrinks (s.killSlices hit) := .foldl _ (fun t e => t.killSlice_shrinks hit e) _ _

/-! #### Cores -/

/-- The engines of a core's streams that are hit are done. -/
def State.endStreams (hit : Victim) (s : State) (lc : Nat) : State :=
  ((s.core lc).allStreams.filter fun t => hit t.succ.graph (some t.succ.q1)).foldl (fun s t => s.engDone (s.streamIssuer lc t)) s

/-- A core loses what is hit of its engines, its queues and its frames. -/
def State.killCore (hit : Victim) (s : State) (lc : Nat) : State :=
  (((s.endStreams hit lc).killChans hit lc).killQueued hit lc).killFrames hit lc

theorem State.killCore_shrinks (s : State) (lc : Nat) : s.Shrinks (s.killCore hit lc) := by
  have hengines : s.Shrinks ((s.endStreams hit lc).killChans hit lc) :=
    (State.Shrinks.foldl _ (fun t x => t.engDone_shrinks _) _ _).trans (State.killChans_shrinks ..)
  obtain ⟨t, hqueued, hstart, -⟩ := ((s.endStreams hit lc).killChans hit lc).killQueued_step hit lc
  obtain ⟨u, hframes, hbegin, -⟩ := (((s.endStreams hit lc).killChans hit lc).killQueued hit lc).killFrames_step hit lc
  exact ((hengines.trans (hstart.trans hqueued)).trans hbegin).trans hframes

theorem State.killCore_clean (s : State) (lc : Nat) :
    (s.killCore hit lc).FramesClean hit lc ∧ (s.killCore hit lc).SpillClean hit lc := by
  obtain ⟨t, hqueued, -, hspill⟩ := ((s.endStreams hit lc).killChans hit lc).killQueued_step hit lc
  obtain ⟨u, hframes, hbegin, hclean⟩ := (((s.endStreams hit lc).killChans hit lc).killQueued hit lc).killFrames_step hit lc
  exact ⟨hframes.framesClean hclean, ((hqueued.trans hbegin).trans hframes).spillClean hspill⟩

/-! ### The whole of a kill -/

theorem State.killRequests_shrinks (s : State) (dead : Nat → Nat → Bool) : s.Shrinks (s.killRequests hit dead) := by
  refine s.shrinks_beside _ _ _ _ _ _ rfl fun _ h => h

/-- The clusters after a kill. -/
def State.killClusters (hit : Victim) (s : State) : State :=
  let dead := fun lc level => (s.frameAt lc level).any fun f => hit f.graph (some f.ltime)
  (span 0 32).foldl (fun s cl => s.killCluster hit dead cl) (s.killRequests hit dead)

theorem State.killSlots_eq (s : State) : s.killSlots hit =
    ((((s.cores.map Prod.fst).foldl (State.killCore hit) (s.killClusters hit)).killLandings hit).killFlights hit).killSlices hit := rfl

theorem State.killCluster_shrinks (s : State) (dead : Nat → Nat → Bool) (cl : Nat) : s.Shrinks (s.killCluster hit dead cl) := by
  obtain ⟨t, hafter, hbefore, -⟩ := s.killCluster_step hit dead cl
  exact hbefore.trans hafter

theorem State.killClusters_shrinks (s : State) : s.Shrinks (s.killClusters hit) :=
  (s.killRequests_shrinks ..).trans (.foldl _ (fun t _ => t.killCluster_shrinks ..) _ _)

/-- No cluster keeps a task that is hit, nor do its tiles. -/
theorem State.killClusters_clean (s : State) {cl : Nat} (h : cl < 32) :
    (s.killClusters hit).QueuesClean hit cl ∧ ∀ n ∈ span (8 * cl) 8, (s.killClusters hit).TileClean hit n := by
  refine State.Shrinks.foldl_cleans (P := fun t cl => t.QueuesClean hit cl ∧ ∀ n ∈ span (8 * cl) 8, t.TileClean hit n) (key := id)
    (fun h k => ⟨h.queuesClean k.1, fun n hn => h.tileClean (k.2 n hn)⟩) (fun t _ => t.killCluster_shrinks ..) (fun t cl => ?_)
    (.inl (by simpa using h))
  obtain ⟨u, hafter, -, hqueues, htiles⟩ := t.killCluster_step hit _ cl
  exact ⟨hafter.queuesClean hqueues, fun n hn => hafter.tileClean (htiles n hn)⟩

theorem State.killFlights_shrinks (s : State) : s.Shrinks (s.killFlights hit) := by
  obtain ⟨t, hafter, hbefore, -⟩ := s.killFlights_step hit
  exact hbefore.trans hafter

/-- A state holds nothing that is hit. -/
structure State.Killed (s : State) : Prop where
  frames : ∀ lc, s.FramesClean hit lc
  spill : ∀ lc, s.SpillClean hit lc
  queues : ∀ cl < 32, s.QueuesClean hit cl
  tiles : ∀ cl < 32, ∀ n ∈ span (8 * cl) 8, s.TileClean hit n
  landings : ∀ e, s.LandingClean hit e
  flights : s.FlightsClean hit
  slices : ∀ n, s.SliceClean hit n

theorem State.Killed.shrinks {s t : State} (h : s.Killed hit) (k : s.Shrinks t) : t.Killed hit where
  frames lc := k.framesClean (h.frames lc)
  spill lc := k.spillClean (h.spill lc)
  queues cl hcl := k.queuesClean (h.queues cl hcl)
  tiles cl hcl n hn := k.tileClean (h.tiles cl hcl n hn)
  landings e := k.landingClean (h.landings e)
  flights := k.flightsClean h.flights
  slices n := k.sliceClean (h.slices n)

theorem State.killSlots_killed (s : State) : (s.killSlots hit).Killed hit := by
  rw [State.killSlots_eq]
  have hcores := State.Shrinks.foldl (State.killCore hit) (fun t lc => t.killCore_shrinks hit lc) (s.cores.map Prod.fst) (s.killClusters hit)
  have hclean : ∀ lc, ((s.cores.map Prod.fst).foldl (State.killCore hit) (s.killClusters hit)).FramesClean hit lc ∧
      ((s.cores.map Prod.fst).foldl (State.killCore hit) (s.killClusters hit)).SpillClean hit lc := fun lc => by
    refine State.Shrinks.foldl_cleans (P := fun t lc => t.FramesClean hit lc ∧ t.SpillClean hit lc) (key := id)
      (fun h k => ⟨h.framesClean k.1, h.spillClean k.2⟩) (fun t lc => t.killCore_shrinks hit lc) (fun t lc => t.killCore_clean hit lc) ?_
    by_cases hlc : lc ∈ s.cores.map Prod.fst
    · exact .inl (by simpa using hlc)
    · have hreset : s.core lc = Core.reset := tget_of_not_mem _ hlc
      refine .inr ⟨(s.killClusters_shrinks hit).framesClean fun f hf => ?_, (s.killClusters_shrinks hit).spillClean fun q hq => ?_⟩
      · rw [hreset] at hf; cases hf
      · rw [hreset] at hq; cases hq
  generalize hu : (s.cores.map Prod.fst).foldl (State.killCore hit) (s.killClusters hit) = u at hcores hclean
  obtain ⟨t, hafter, -, hflights⟩ := (u.killLandings hit).killFlights_step hit
  have hslices := (((u.killLandings hit).killFlights hit).killSlices_shrinks hit)
  have hrest := ((u.killLandings_shrinks hit).trans ((u.killLandings hit).killFlights_shrinks hit)).trans hslices
  have hall := hcores.trans hrest
  exact {
    frames := fun lc => hrest.framesClean (hclean lc).1
    spill := fun lc => hrest.spillClean (hclean lc).2
    queues := fun cl hcl => hall.queuesClean (s.killClusters_clean hit hcl).1
    tiles := fun cl hcl n hn => hall.tileClean ((s.killClusters_clean hit hcl).2 n hn)
    landings := fun e => (((u.killLandings hit).killFlights_shrinks hit).trans hslices).landingClean (u.killLandings_clean hit e)
    flights := (hafter.trans hslices).flightsClean hflights
    slices := fun n => State.killSlices_clean hit _ n }

end

theorem State.killPart_killed (s : State) (p : Nat) : (s.killPart p).Killed (s.slotIn p) := by
  refine (State.killSlots_killed (s.slotIn p) (s.abandonSwaps p)).shrinks _ ?_
  refine .trans ?_ (State.setPreemption_shrinks ..)
  refine .trans ?_ (State.setEntry_shrinks ..)
  refine .trans ?_ (State.setPreemption_shrinks ..)
  exact State.dropVictims_shrinks ..

end Sys2Proof.Machine
end


section
/-! PROOFS. Preemption and kill (R140, R236 to R241, R245). -/

namespace Sys2Proof.Machine

section
variable {s : State} {p : Nat}

theorem State.count_partState (s : State) (c i : Nat) : (s.count c i).partState p = s.partState p := rfl
theorem State.count_partResult (s : State) (c i : Nat) : (s.count c i).partResult p = s.partResult p := rfl

section
variable (u s : State) (p : Nat)

theorem State.haltEnds_core (lc : Nat) : (u.haltEnds s p).core lc = u.core lc := rfl
theorem State.haltEnds_prog : (u.haltEnds s p).prog = u.prog := rfl
theorem State.haltEnds_counter : (u.haltEnds s p).counter cPREEMPTS p = satAdd (u.counter cPREEMPTS p) 1 := State.counter_countBy ..

theorem State.haltEnds_partState : (u.haltEnds s p).partState p = 2 :=
  (State.count_partState ..).trans (State.endCmd_partState _ p (by decide))

theorem State.haltEnds_partResult : (u.haltEnds s p).partResult p = 1 :=
  (State.count_partResult ..).trans (State.endCmd_partResult _ p (by decide))

theorem State.haltEnds_time : ((u.haltEnds s p).preemption p).time = s.timestamp := by
  show (((State.setPreemption _ p _).endCmd p 2 1).preemption p).time = _
  rw [State.endCmd_time, State.preemption_setPreemption]

theorem State.haltEnds_seq : ((u.haltEnds s p).preemption p).seq = s.lastSeq p := by
  show (((State.setPreemption _ p _).endCmd p 2 1).preemption p).seq = _
  rw [State.endCmd_seq, State.preemption_setPreemption]

end

theorem State.Halting.counter {s t : State} (h : s.Halting t) (c i : Nat) : t.counter c i = s.counter c i := by
  obtain ⟨_, _, _, rfl⟩ := h
  rfl

/-- What a halt leaves (R237). -/
theorem State.halted_spec (s : State) (p : Nat) : let t := s.halted p
    t.partState p = 2 ∧ t.partResult p = 1 ∧
    (∀ lc ∈ s.coresOf p, (t.core lc).stopped = true ∧ (t.core lc).progress = [] ∧
      ((s.core lc).progress ≠ [] → ⟨1024 + lc, s.tileOf lc, (s.core lc).progress⟩ ∈ t.prog.batches)) ∧
    (t.preemption p).time = s.timestamp ∧ (t.preemption p).seq = s.lastSeq p ∧
    t.counter cPREEMPTS p = satAdd (s.counter cPREEMPTS p) 1 := by
  have hhalting := State.foldl_stopFlushed_halting (s.coresOf p) s
  have hstopped := fun lc hlc => State.foldl_stopFlushed_stopped (State.Halting.refl s) (l := s.coresOf p) (n := lc) (.inr ⟨hlc, rfl⟩)
  unfold State.halted
  generalize (s.coresOf p).foldl State.stopFlushed s = u at hhalting hstopped
  refine ⟨u.haltEnds_partState s p, u.haltEnds_partResult s p, fun lc hlc => ?_, u.haltEnds_time s p, u.haltEnds_seq s p, ?_⟩
  · obtain ⟨hstop, hprogress, hsent⟩ := hstopped lc hlc
    exact ⟨hstop, hprogress, hsent⟩
  · rw [← hhalting.counter]
    exact u.haltEnds_counter s p

/-- What resuming in place leaves (R240). -/
theorem State.resumed_spec (s : State) (p : Nat) : let t := (s.releasePart p).endCmd p 0 1
    t.partState p = 0 ∧ t.partResult p = 1 ∧ t.mem = s.mem ∧
      ∀ lc ∈ s.coresOf p, (t.core lc).stopped = s.inMove lc ∧ (t.core lc).frames = (s.core lc).frames := by
  have hcores := fun lc hlc => State.releaseCores_core (l := s.coresOf p) (s := s) (t := s) (n := lc) ⟨_, rfl⟩ rfl (.inl hlc)
  obtain ⟨c, heq⟩ := State.releaseCores_eq (s.coresOf p) s
  unfold State.releasePart State.eachCore
  rw [heq] at hcores ⊢
  exact ⟨State.endCmd_partState _ p (by decide), State.endCmd_partResult _ p (by decide), rfl, hcores⟩

/-! ### The end of a kill (R241) -/

/-- A core of a killed partition is released. -/
def State.releaseKilled (s : State) (lc : Nat) : State := (s.setCore lc { s.core lc with stopped := false }).unmapGone lc

theorem State.unmapGone_core (s : State) (lc n : Nat) : (s.unmapGone lc).core n = s.core n := by
  unfold State.unmapGone
  split <;> rfl

theorem State.unmapGone_counters (s : State) (lc : Nat) : (s.unmapGone lc).counters = s.counters := by
  unfold State.unmapGone
  split <;> rfl

theorem State.foldl_releaseKilled_counters (l : List Nat) (s : State) : (l.foldl State.releaseKilled s).counters = s.counters :=
  List.foldlRecOn (motive := fun t : State => t.counters = s.counters) l _ rfl fun _ h _ _ => (State.unmapGone_counters ..).trans h

theorem State.foldl_releaseKilled_stopped {l : List Nat} {s : State} {n : Nat} (h : n ∈ l ∨ (s.core n).stopped = false) :
    ((l.foldl State.releaseKilled s).core n).stopped = false := by
  induction l generalizing s with
  | nil => exact h.resolve_left List.not_mem_nil
  | cons lc l ih =>
    refine ih ?_
    rw [State.releaseKilled, State.unmapGone_core]
    by_cases hn : n = lc
    · subst hn
      rw [State.core_setCore]
      exact .inr rfl
    · rw [State.core_setCore_ne _ _ _ _ hn]
      exact h.imp_left fun h => (List.mem_cons.1 h).resolve_left hn

theorem exec_killComplete (h5 : s.partState p = 5) (hv : s.victimStores p = false) :
    exec (.killComplete p) s = .next ((((s.coresOf p).foldl State.releaseKilled s).endCmd p 6 1).count cKILLS p) :=
  if_neg (by simp [h5, hv])

theorem State.killed_released (s : State) (p : Nat) :
    let t := (((s.coresOf p).foldl State.releaseKilled s).endCmd p 6 1).count cKILLS p
    t.partState p = 6 ∧ t.partResult p = 1 ∧ t.counter cKILLS p = satAdd (s.counter cKILLS p) 1 ∧
      ∀ lc ∈ s.coresOf p, (t.core lc).stopped = false := by
  have hcounters := State.foldl_releaseKilled_counters (s.coresOf p) s
  have hstopped := fun lc hlc => State.foldl_releaseKilled_stopped (l := s.coresOf p) (s := s) (n := lc) (.inl hlc)
  generalize (s.coresOf p).foldl State.releaseKilled s = u at hcounters hstopped
  refine ⟨(State.count_partState ..).trans (State.endCmd_partState _ p (by decide)),
    (State.count_partResult ..).trans (State.endCmd_partResult _ p (by decide)), ?_, hstopped⟩
  refine (State.counter_countBy ..).trans (congrArg (satAdd · 1) ?_)
  exact congrArg (tget 0 · _) hcounters

end

/-- A partition is killed: what is left is nothing of its slots (R140, R241). -/
theorem State.killPart_spec (s : State) (p : Nat) : let t := s.killPart p
    let hit := s.slotIn p
    t.partState p = 5 ∧ t.partResult p = 4 ∧
    (∀ lc, ∀ f ∈ (t.core lc).frames, hit f.graph (some f.ltime) = false) ∧
    (∀ lc, ∀ q ∈ (t.core lc).spill, hit q.rcd.graph (some q.rcd.q1) = false) ∧
    (∀ cl < 32, ∀ k ∈ (t.cluster cl).queue ++ (t.cluster cl).forward ++ t.onEngines cl, hit k.graph (some k.ltime) = false) ∧
    (∀ g st, st < 64 → ∀ x ∈ (t.landing g st).recs, hit g (some x.rcd.q1) = false) ∧
    (∀ x ∈ t.prog.flights, hit x.rcd.graph (some x.rcd.q1) = false) ∧
    (∀ n, ∀ d ∈ (t.slice n).pantry, hit d.succ.graph (some d.succ.q1) = false) ∧
    ∀ n, ∀ h ∈ (t.slice n).hold, ∀ g, h.graph = some g → hit g none = false := by
  obtain ⟨hframes, hspill, hqueues, htiles, hlandings, hflights, hslices⟩ := s.killPart_killed p
  refine ⟨State.beginCmd_partState _ p (by decide), State.beginCmd_partResult _ p, hframes, hspill, fun cl hcl k hk => ?_,
    fun g st hst x hx => ?_, hflights, fun n => (hslices n).1, fun n => (hslices n).2⟩
  · rcases List.mem_append.1 hk with hk | hk
    · exact hqueues cl hcl k hk
    · obtain ⟨n, hn, hk⟩ := List.mem_flatMap.1 hk
      exact htiles cl hcl n hn k hk
  · have hland := hlandings (64 * g + st)
    rw [State.LandingClean, show (64 * g + st) / 64 = g by omega, show (64 * g + st) % 64 = st by omega] at hland
    exact hland x hx

/-- Settles O44: each command by the state that it finds. -/
theorem preemptSteps : Obligations.PreemptSteps := by
  intro s p phys hp idle hit
  refine ⟨fun hidle h0 => ?halt, fun hidle h0 => ?refuse, fun h1 hstill hfly => ?halted, fun hidle h2 hcmd => ?save,
    fun hcmd hout => ?image, fun hidle h2 => ?resume, fun hidle h3 hcmd => exec_preemptRestore_commanded hp hidle h3 hcmd,
    fun hcmd => ?restore, ?kill, fun h5 hv => ?killed⟩
  case halt =>
    exact ⟨_, exec_preemptHalt_accepted hp hidle h0, State.beginCmd_partState _ p (by decide), State.beginCmd_partResult _ p⟩
  case refuse =>
    exact ⟨_, exec_preemptHalt_refused hp hidle h0, State.setPart_partState _ p (s.partState_lt p),
      State.setPart_partResult _ p (by decide), rfl, rfl⟩
  case halted => exact ⟨_, exec_preemptHaltComplete h1 hstill hfly, s.halted_spec p⟩
  case save =>
    rw [exec_preemptSave_commanded hp hidle h2 hcmd, exec_preemptSave_begun hp (s.beginCmd_cmd p), State.beginCmd_storesOut hp]
    exact ⟨fun hout => by rw [if_pos hout], fun hout => by rw [if_neg (Bool.eq_false_iff.1 hout)]⟩
  case image => rw [exec_preemptSave_begun hp hcmd, if_neg (Bool.eq_false_iff.1 hout)]
  case resume => exact ⟨_, exec_preemptResume hp hidle h2, s.resumed_spec p⟩
  case restore =>
    intro b
    rw [exec_preemptRestore_begun hp hcmd]
    exact ⟨fun hno => congrArg _ (if_pos (by rw [hno]; rfl)), fun hok hfree => by
      simp only [b] at hok
      simp only [hok, hfree, Bool.not_true, Bool.false_eq_true, if_false, b]⟩
  case kill => exact ⟨_, if_pos hp, s.killPart_spec p⟩
  case killed => exact ⟨_, exec_killComplete h5 hv, s.killed_released p⟩

end Sys2Proof.Machine
end


section
/-! PROOFS. The canonical form of memory (log entry 2): what it is of every outcome that carries a state, and the operations over
lists of cells that keep it. -/

namespace Sys2Proof.Machine

/-! ### The canonical form of a memory -/

/-- Every cell of a canonical memory lies above the first. -/
theorem wf_lt_of_mem (c : Host.Cell) (m : List Host.Cell) (h : Memory.wf (c :: m) = true) : ∀ d ∈ m, c.1 < d.1 := by
  induction m generalizing c with
  | nil => simp
  | cons e m ih =>
    obtain ⟨_, hm, hlt⟩ := (wf_cons c.1 c.2 _).1 h
    have he : c.1 < e.1 := hlt e rfl
    intro d hd
    rcases List.mem_cons.1 hd with rfl | hd
    · exact he
    · exact he.trans (ih e hm d hd)

theorem wf_filter (p : Host.Cell → Bool) (m : List Host.Cell) (h : Memory.wf m = true) : Memory.wf (m.filter p) = true := by
  induction m with
  | nil => rfl
  | cons c m ih =>
    obtain ⟨hc, hm, hlt⟩ := (wf_cons c.1 c.2 m).1 h
    have hw := ih hm
    simp only [List.filter_cons]
    split
    · refine (wf_cons c.1 c.2 _).2 ⟨hc, hw, fun d hd => ?_⟩
      exact wf_lt_of_mem c m h d (List.mem_of_mem_filter (List.mem_of_mem_head? hd))
    · exact hw

/-- Memory in canonical form. -/
def Mem.ok (m : Mem) : Bool := Memory.wf m.bytes && Memory.wf m.cellar

@[simp] theorem Mem.ok_mk (b c : List Host.Cell) (x1 x2 x3 x4 x5 x6 x7 x8 x9 x10 x11 x12 x13 x14 x15 x16 x17 x18 x19) :
    (Mem.mk b c x1 x2 x3 x4 x5 x6 x7 x8 x9 x10 x11 x12 x13 x14 x15 x16 x17 x18 x19).ok = (Memory.wf b && Memory.wf c) := rfl

@[simp] theorem Mem.wf_and_wf (m : Mem) : (Memory.wf m.bytes && Memory.wf m.cellar) = m.ok := rfl

theorem Mem.ok_iff (m : Mem) : m.ok ↔ Memory.wf m.bytes ∧ Memory.wf m.cellar := by rw [Mem.ok, Bool.and_eq_true]

theorem wf_copy (p q : Host.Cell → Bool) (g : Host.Cell → Nat) (m t : List Host.Cell) (h : Memory.wf t = true) :
    Memory.wf ((m.filter p).foldl (fun t c => putByte t (g c) c.2) (t.filter q)) = true :=
  List.foldlRecOn (motive := fun t => Memory.wf t = true) _ _ (wf_filter q t h) fun _ ht c _ => wf_putByte _ _ c.2 ht

theorem wf_copyCells (m : List Host.Cell) (src size dst : Nat) (t : List Host.Cell) (h : Memory.wf t = true) :
    Memory.wf (copyCells m src size dst t) = true := wf_copy _ _ _ m t h

theorem wf_moveCells (m : List Host.Cell) (src dst size : Nat) (h : Memory.wf m = true) :
    Memory.wf (moveCells m src dst size) = true := wf_copy _ _ _ m m h

theorem State.ok_of_data {s t : State} (h : t.data = s.data) : t.mem.ok = s.mem.ok := by
  have h1 := congrArg Prod.fst h
  have h2 := congrArg Prod.snd h
  simp only [State.data] at h1 h2
  unfold Mem.ok; rw [h1, h2]

@[simp] theorem foldl_memOk {α : Type} (f : State → α → State) (h : ∀ s x, (f s x).mem.ok = s.mem.ok) (l : List α) (s : State) :
    (l.foldl f s).mem.ok = s.mem.ok := by
  induction l generalizing s with
  | nil => rfl
  | cons x l ih => rw [List.foldl_cons, ih, h]

theorem foldl_keeps {α : Type} (f : State → α → State) (h : ∀ s x, s.mem.ok → (f s x).mem.ok) (l : List α) (s : State)
    (hs : s.mem.ok) : (l.foldl f s).mem.ok := List.foldlRecOn l f hs fun t ht x _ => h t x ht

@[simp] theorem State.writeMem_memOk (s : State) (l : List Nat) (bs : List Byte) (h : s.mem.ok) : (s.writeMem l bs).mem.ok :=
  memOk_writeMem s l bs h
@[simp] theorem State.writeCellar_memOk (s : State) (l : List Nat) (bs : List Byte) (h : s.mem.ok) : (s.writeCellar l bs).mem.ok :=
  memOk_writeCellar s l bs h

@[simp] theorem State.memOk_ite (c : Prop) [Decidable c] (a b : State) :
    (if c then a else b).mem.ok = if c then a.mem.ok else b.mem.ok := apply_ite (fun t : State => t.mem.ok) c a b

@[simp] theorem State.memOk_elim {α : Type} (o : Option α) (s : State) (f : α → State) (h : ∀ x, (f x).mem.ok = s.mem.ok) :
    (o.elim s f).mem.ok = s.mem.ok := by
  cases o with
  | none => rfl
  | some x => exact h x

@[simp] theorem State.memOk_getD_map {α : Type} (o : Option α) (s : State) (f : α → State) (h : ∀ x, (f x).mem.ok = s.mem.ok) :
    ((o.map f).getD s).mem.ok = s.mem.ok := by
  cases o with
  | none => rfl
  | some x => exact h x

/-! ### Outcomes whose state has a memory in canonical form -/

def Acc.good : Acc → Bool
  | .ok _ t => t.mem.ok
  | .wait t => t.mem.ok
  | .trap _ _ => true
@[simp] theorem Acc.good_eq :
    (∀ v t, (Acc.ok v t).good = t.mem.ok) ∧ (∀ t, (Acc.wait t).good = t.mem.ok) ∧ (∀ c w, (Acc.trap c w).good = true) :=
  ⟨fun _ _ => rfl, fun _ => rfl, fun _ _ => rfl⟩

def Xl.good : Xl → Bool
  | .pa _ t => t.mem.ok
  | .wait t => t.mem.ok
  | .trap _ => true
@[simp] theorem Xl.good_eq : (∀ p t, (Xl.pa p t).good = t.mem.ok) ∧ (∀ t, (Xl.wait t).good = t.mem.ok) ∧ (∀ c, (Xl.trap c).good = true) :=
  ⟨fun _ _ => rfl, fun _ => rfl, fun _ => rfl⟩

def XlSpan.good : XlSpan → Bool
  | .pas _ t => t.mem.ok
  | .wait t => t.mem.ok
  | .trap _ => true
@[simp] theorem XlSpan.good_eq :
    (∀ l t, (XlSpan.pas l t).good = t.mem.ok) ∧ (∀ t, (XlSpan.wait t).good = t.mem.ok) ∧ (∀ c, (XlSpan.trap c).good = true) :=
  ⟨fun _ _ => rfl, fun _ => rfl, fun _ => rfl⟩

def Loads.good : Loads → Bool
  | .ok _ t => t.mem.ok
  | .wait t => t.mem.ok
  | .trap _ _ => true
@[simp] theorem Loads.good_eq :
    (∀ l t, (Loads.ok l t).good = t.mem.ok) ∧ (∀ t, (Loads.wait t).good = t.mem.ok) ∧ (∀ c w, (Loads.trap c w).good = true) :=
  ⟨fun _ _ => rfl, fun _ => rfl, fun _ _ => rfl⟩

def Eng.good : Eng → Bool
  | .ok _ t => t.mem.ok
  | .bad t => t.mem.ok
  | .fault t => t.mem.ok
  | .wait t => t.mem.ok
@[simp] theorem Eng.good_eq :
    (∀ bs t, (Eng.ok bs t).good = t.mem.ok) ∧ (∀ t, (Eng.bad t).good = t.mem.ok) ∧ (∀ t, (Eng.fault t).good = t.mem.ok) ∧ (∀ t, (Eng.wait
    t).good = t.mem.ok) :=
  ⟨fun _ _ => rfl, fun _ => rfl, fun _ => rfl, fun _ => rfl⟩

def HeaderRead.good : HeaderRead → Bool
  | .bytes _ t => t.mem.ok
  | .wait t => t.mem.ok
  | .outside => true
  | .trap _ _ => true
@[simp] theorem HeaderRead.good_eq :
    (∀ n t, (HeaderRead.bytes n t).good = t.mem.ok) ∧ (∀ t, (HeaderRead.wait t).good = t.mem.ok) ∧ HeaderRead.outside.good = true ∧ (∀ c
    w, (HeaderRead.trap c w).good = true) :=
  ⟨fun _ _ => rfl, fun _ => rfl, rfl, fun _ _ => rfl⟩

def Chunked.good : Chunked → Bool
  | .done t _ => t.mem.ok
  | .wait t => t.mem.ok
  | .trap _ _ => true
@[simp] theorem Chunked.good_eq :
    (∀ t b, (Chunked.done t b).good = t.mem.ok) ∧ (∀ t, (Chunked.wait t).good = t.mem.ok) ∧ (∀ c w, (Chunked.trap c w).good = true) :=
  ⟨fun _ _ => rfl, fun _ => rfl, fun _ _ => rfl⟩

def Places.good : Places → Bool
  | .ok _ t => t.mem.ok
  | .wait t => t.mem.ok
  | .trap _ _ => true
@[simp] theorem Places.good_eq :
    (∀ l t, (Places.ok l t).good = t.mem.ok) ∧ (∀ t, (Places.wait t).good = t.mem.ok) ∧ (∀ c w, (Places.trap c w).good = true) :=
  ⟨fun _ _ => rfl, fun _ => rfl, fun _ _ => rfl⟩

def Located.good : Located → Bool
  | .ok _ t => t.mem.ok
  | .wait t => t.mem.ok
  | .trap _ => true
@[simp] theorem Located.good_eq :
    (∀ l t, (Located.ok l t).good = t.mem.ok) ∧ (∀ t, (Located.wait t).good = t.mem.ok) ∧ (∀ c, (Located.trap c).good = true) :=
  ⟨fun _ _ => rfl, fun _ => rfl, fun _ => rfl⟩

def Planned.good : Planned → Bool
  | .ok _ t => t.mem.ok
  | .wait t => t.mem.ok
  | .trap _ _ => true
@[simp] theorem Planned.good_eq :
    (∀ l t, (Planned.ok l t).good = t.mem.ok) ∧ (∀ t, (Planned.wait t).good = t.mem.ok) ∧ (∀ c w, (Planned.trap c w).good = true) :=
  ⟨fun _ _ => rfl, fun _ => rfl, fun _ _ => rfl⟩

def VLoad.good : VLoad → Bool
  | .ok _ t => t.mem.ok
  | .wait t => t.mem.ok
  | .trap _ _ => true
@[simp] theorem VLoad.good_eq :
    (∀ bs t, (VLoad.ok bs t).good = t.mem.ok) ∧ (∀ t, (VLoad.wait t).good = t.mem.ok) ∧ (∀ c w, (VLoad.trap c w).good = true) :=
  ⟨fun _ _ => rfl, fun _ => rfl, fun _ _ => rfl⟩

def Owned.good : Owned → Bool
  | .done _ _ t => t.mem.ok
  | .reject => true
  | .wait => true
@[simp] theorem Owned.good_eq : (∀ b bs t, (Owned.done b bs t).good = t.mem.ok) ∧ Owned.reject.good = true ∧ Owned.wait.good = true :=
  ⟨fun _ _ _ => rfl, rfl, rfl⟩

def Slots.good : Slots → Bool
  | .ok _ t => t.mem.ok
  | .wait t => t.mem.ok
@[simp] theorem Slots.good_eq : (∀ l t, (Slots.ok l t).good = t.mem.ok) ∧ (∀ t, (Slots.wait t).good = t.mem.ok) :=
  ⟨fun _ _ => rfl, fun _ => rfl⟩

def Records.good : Records → Bool
  | .ok _ t => t.mem.ok
  | .fail _ _ t => t.mem.ok
  | .wait t => t.mem.ok
@[simp] theorem Records.good_eq :
    (∀ l t, (Records.ok l t).good = t.mem.ok) ∧ (∀ c a t, (Records.fail c a t).good = t.mem.ok) ∧ (∀ t, (Records.wait t).good = t.mem.ok)
    :=
  ⟨fun _ _ => rfl, fun _ _ _ => rfl, fun _ => rfl⟩

def Signals.good : Signals → Bool
  | .ok _ t => t.mem.ok
  | .fail _ _ t => t.mem.ok
  | .wait t => t.mem.ok
@[simp] theorem Signals.good_eq :
    (∀ l t, (Signals.ok l t).good = t.mem.ok) ∧ (∀ c a t, (Signals.fail c a t).good = t.mem.ok) ∧ (∀ t, (Signals.wait t).good = t.mem.ok)
    :=
  ⟨fun _ _ => rfl, fun _ _ _ => rfl, fun _ => rfl⟩

def Saved.good : Saved → Bool
  | .ok _ t => t.mem.ok
  | .wait t => t.mem.ok
@[simp] theorem Saved.good_eq : (∀ l t, (Saved.ok l t).good = t.mem.ok) ∧ (∀ t, (Saved.wait t).good = t.mem.ok) :=
  ⟨fun _ _ => rfl, fun _ => rfl⟩

def Proxies.good : Proxies → Bool
  | .ok _ t => t.mem.ok
  | .busy t => t.mem.ok
  | .wait t => t.mem.ok
@[simp] theorem Proxies.good_eq :
    (∀ l t, (Proxies.ok l t).good = t.mem.ok) ∧ (∀ t, (Proxies.busy t).good = t.mem.ok) ∧ (∀ t, (Proxies.wait t).good = t.mem.ok) :=
  ⟨fun _ _ => rfl, fun _ => rfl, fun _ => rfl⟩

def Fetch.good : Fetch → Bool
  | .word _ t => t.mem.ok
  | .wait t => t.mem.ok
  | .past => true
  | .trap _ _ => true
@[simp] theorem Fetch.good_eq :
    (∀ n t, (Fetch.word n t).good = t.mem.ok) ∧ (∀ t, (Fetch.wait t).good = t.mem.ok) ∧ Fetch.past.good = true ∧ (∀ c w, (Fetch.trap c
    w).good = true) :=
  ⟨fun _ _ => rfl, fun _ => rfl, rfl, fun _ _ => rfl⟩

def Out.good : Out → Bool
  | .next t => t.mem.ok
  | .fault _ => true
  | .refused _ => true
@[simp] theorem Out.good_eq :
    (∀ t, Out.good (.next t) = t.mem.ok) ∧ (∀ r, Out.good (.fault r) = true) ∧ (∀ r, Out.good (.refused r) = true) :=
  ⟨fun _ => rfl, fun _ => rfl, fun _ => rfl⟩

end Sys2Proof.Machine
end


section
/-! PROOFS. The canonical form of memory (log entry 2) through what an access, a trap and a frame's registers do. -/

namespace Sys2Proof.Machine

/-! ### Reset -/

@[simp] theorem State.reset_memOk  : State.reset.mem.ok := (Mem.ok_iff _).2 ⟨rfl, rfl⟩

/-! ### Messages between modules -/

@[simp] theorem State.sendFlit_memOk (s : State) (link : Nat) (f : Flit) : (s.sendFlit link f).mem.ok = s.mem.ok := by
  simp [State.sendFlit]

@[simp] theorem State.sendMsg_memOk (s : State) (dev : Nat) (m : Msg) : (s.sendMsg dev m).mem.ok = s.mem.ok := by
  unfold State.sendMsg
  (repeat' split) <;> simp

@[simp] theorem State.sendUnrouted_memOk (s : State) : s.sendUnrouted.mem.ok = s.mem.ok := by simp [State.sendUnrouted]

@[simp] theorem State.takeRx_memOk (s : State) (p skip : Arrived → Bool) (h : s.mem.ok) : (s.takeRx p skip).all (·.2.mem.ok) := by
  unfold State.takeRx
  cases takeArrived p skip [] s.prog.rx with
  | none => rfl
  | some r => simp [h]

/-! ### Translation and accesses -/

@[simp] theorem State.setMem64_memOk (s : State) (pa : Nat) (w : Word) (h : s.mem.ok) : (s.setMem64 pa w).mem.ok := by
  simp [State.setMem64, h]

@[simp] theorem State.walkBy_memOk (s : State) (die ctx va : Nat) : (s.walkBy die ctx va).2.mem.ok = s.mem.ok := by
  unfold State.walkBy
  dsimp only
  (repeat' split) <;> simp

@[simp] theorem State.fillXlat_memOk (s : State) (x : Xlat) : (s.fillXlat x).mem.ok = s.mem.ok := by simp [State.fillXlat]

@[simp] theorem State.forgetWalk_memOk (s : State) (who : Nat) : (s.forgetWalk who).mem.ok = s.mem.ok :=
  State.ok_of_data (State.forgetWalk_data ..)

@[simp] theorem State.dropHolder_memOk (s : State) (h : Nat) : (s.dropHolder h).mem.ok = s.mem.ok :=
  State.ok_of_data (State.dropHolder_data ..)

@[simp] theorem State.noteMiss_memOk (s : State) (x : Miss) : (s.noteMiss x).mem.ok = s.mem.ok := by simp [State.noteMiss]
@[simp] theorem State.missServed_memOk (s : State) (x : Miss) : (s.missServed x).mem.ok = s.mem.ok := by simp [State.missServed]

@[simp] theorem State.fillAll_memOk (s : State) (holders : List Nat) (ctx va : Nat) (e : Word) (l : Nat) :
    (s.fillAll holders ctx va e l).mem.ok = s.mem.ok := by
  simp [State.fillAll]

@[simp] theorem State.lookup_memOk (s : State) (die : Nat) (holders : List Nat) (ctx va : Nat) :
    (s.lookup die holders ctx va).2.mem.ok = s.mem.ok := by
  unfold State.lookup
  dsimp only
  (repeat' split) <;> simp

@[simp] theorem State.migWait_memOk (s : State) (x : Miss) (part : Nat) : (s.migWait x part).mem.ok = s.mem.ok := by simp [State.migWait]
@[simp] theorem State.migGone_memOk (s : State) (x : Miss) : (s.migGone x).mem.ok = s.mem.ok := by simp [State.migGone]

@[simp] theorem State.xlate_memOk (s : State) (die : Nat) (holders : List Nat) (part ctx va need : Nat) (h : s.mem.ok) :
    (s.xlate die holders part ctx va need).good := by
  grind [State.xlate, Xl.good, State.lookup_memOk, State.migWait_memOk, State.migGone_memOk]

@[simp] theorem State.xlateSpan_memOk (s : State) (die : Nat) (holders : List Nat) (part ctx va n need : Nat) (h : s.mem.ok) :
    (s.xlateSpan die holders part ctx va n need).good := by
  grind [State.xlateSpan, Xl.good, XlSpan.good, State.xlate_memOk]

@[simp] theorem State.setSleep_memOk (s : State) (t : Nat) (x : Sleep) : (s.setSleep t x).mem.ok = s.mem.ok := by simp [State.setSleep]

@[simp] theorem State.wakeTile_memOk (s : State) (tile : Nat) : (s.wakeTile tile).mem.ok = s.mem.ok := by
  unfold State.wakeTile
  (repeat' split) <;> simp

@[simp] theorem State.callTile_memOk (s : State) (lc : Nat) : (s.callTile lc).mem.ok = s.mem.ok := by simp [State.callTile]

@[simp] theorem State.fillL1_memOk (s : State) (slot line : Nat) (x : Nat × Nat) : (s.fillL1 slot line x).mem.ok = s.mem.ok := by
  simp [State.fillL1]

@[simp] theorem State.leaseLoad_memOk (s : State) (lc line : Nat) : (s.leaseLoad lc line).mem.ok = s.mem.ok :=
  State.ok_of_data (State.leaseLoad_data ..)

@[simp] theorem State.leaseStore_memOk (s : State) (lc line : Nat) : (s.leaseStore lc line).mem.ok = s.mem.ok :=
  State.ok_of_data (State.leaseStore_data ..)

@[simp] theorem State.leaseLoads_memOk (s : State) (lc : Nat) (pas : List Nat) : (s.leaseLoads lc pas).mem.ok = s.mem.ok :=
  State.ok_of_data (State.leaseLoads_data ..)

@[simp] theorem State.leaseStores_memOk (s : State) (lc : Nat) (pas : List Nat) : (s.leaseStores lc pas).mem.ok = s.mem.ok :=
  State.ok_of_data (State.leaseStores_data ..)

@[simp] theorem State.homeWrite_memOk (s : State) (pas : List Nat) : (s.homeWrite pas).mem.ok = s.mem.ok :=
  foldl_memOk _ (fun _ _ => by simp) _ _

@[simp] theorem State.noteSent_memOk (s : State) (x : Sent) : (s.noteSent x).mem.ok = s.mem.ok := by simp [State.noteSent]

@[simp] theorem State.addHostReq_memOk (s : State) (tag : Nat) (r : HostReq) : (s.addHostReq tag r).mem.ok = s.mem.ok := by
  simp [State.addHostReq]

@[simp] theorem State.ask_memOk (s : State) (addr : Word) (dev : Option Nat) (pa : Nat) (op : RemoteOp) (nth : Nat) (h : s.mem.ok) :
    (s.ask addr dev pa op nth).good := by
  unfold State.ask
  (repeat' split) <;> simp [h]

@[simp] theorem State.access_memOk (s : State) (k : Nat) (last keep : Bool) (addr : Word) (acc : State → Acc) (h : s.mem.ok)
    (hacc : ∀ t, t.mem.ok → (acc t).good) :
    (s.access k last keep addr acc).good := by
  unfold State.access
  split
  · exact h
  · have ha := hacc (s.setHart { s.hart with sent := s.hart.sent.drop k }) (by simp [h])
    dsimp only
    split
    · next heq =>
      rw [heq] at ha
      split <;> simpa using ha
    · next heq =>
      rw [heq] at ha
      simpa using ha
    · exact ha

@[simp] theorem State.hostWrite_memOk (s : State) (fn : Nat) (pas : List Nat) (bs : List Byte) (h : s.mem.ok) :
    (s.hostWrite fn pas bs).mem.ok := by
  simp [State.hostWrite, h]

@[simp] theorem State.orphan_memOk (s : State) (lc level : Nat) : (s.orphan lc level).mem.ok = s.mem.ok := by simp [State.orphan]

@[simp] theorem State.abandon_memOk (s : State) (lc : Nat) : (s.abandon lc).mem.ok = s.mem.ok := by
  unfold State.abandon
  (repeat' split) <;> simp

@[simp] theorem State.sendStore_memOk (s : State) (lc : Nat) (a : Word) (op : RemoteOp) : (s.sendStore lc a op).mem.ok = s.mem.ok := by
  unfold State.sendStore
  dsimp only
  (repeat' split) <;> simp

@[simp] theorem State.coreSpan_memOk (s : State) (lc va n need : Nat) (h : s.mem.ok) : (s.coreSpan lc va n need).good := by
  simp [State.coreSpan, h]

@[simp] theorem State.loadPart_memOk (s : State) (lc : Nat) (addr : Word) (x : Nat × List Nat) (h : s.mem.ok) :
    (s.loadPart lc addr x).good := by
  unfold State.loadPart
  (repeat' split) <;> simp [h]

@[simp] theorem State.loadParts_memOk (s : State) (lc : Nat) (addr : Word) (l : List (Nat × List Nat)) (h : s.mem.ok) :
    (s.loadParts lc addr l).good := by
  unfold State.loadParts
  (repeat' split) <;> grind [Acc.good, State.loadPart_memOk]

@[simp] theorem State.coreLoad_memOk (s : State) (lc : Nat) (addr : Word) (n : Nat) (h : s.mem.ok) : (s.coreLoad lc addr n).good := by
  grind [State.coreLoad, Acc.good, XlSpan.good, State.ask_memOk, State.callTile_memOk, State.coreSpan_memOk, State.loadParts_memOk]

@[simp] theorem State.storePart_memOk (s : State) (lc : Nat) (bs : List Byte) (x : Nat × List Nat) (h : s.mem.ok) :
    (s.storePart lc bs x).mem.ok := by
  unfold State.storePart
  (repeat' split) <;> simp [h]

@[simp] theorem State.coreStore_memOk (s : State) (lc : Nat) (addr : Word) (n v : Nat) (h : s.mem.ok) :
    (s.coreStore lc addr n v).good := by
  unfold State.coreStore
  split
  · rfl
  · split
    · rfl
    · split
      · simp [h]
      · split
        · rfl
        · split
          · simp [h]
          · split
            · rfl
            · exact s.writeCellar_memOk _ _ h
  · next va _ =>
    have hc := s.coreSpan_memOk lc va n needW h
    split <;> rename_i heq <;> rw [heq] at hc
    · rfl
    · exact hc
    · dsimp only
      split
      · exact hc
      · split
        · exact foldl_keeps _ (fun t x ht => t.storePart_memOk lc _ x ht) _ _ hc
        · rfl

@[simp] theorem State.coreAtomic_memOk (s : State) (lc : Nat) (addr : Word) (n need : Nat) (op : RemoteOp) (f : Nat → Nat) (h : s.mem.ok) :
    (s.coreAtomic lc addr n need op f).good := by
  unfold State.coreAtomic
  split
  · rfl
  · split
    · rfl
    · split
      · simp [h]
      · split
        · rfl
        · split
          · simp [h]
          · split
            · rfl
            · exact s.writeCellar_memOk _ _ h
  · next va _ =>
    have hc := s.coreSpan_memOk lc va n need h
    split <;> rename_i heq <;> rw [heq] at hc
    · rfl
    · exact hc
    · split
      · exact State.ask_memOk (h := hc) ..
      · exact State.ask_memOk (h := hc) ..
      · split
        · rfl
        · exact State.writeMem_memOk _ _ _ (by simpa using hc)

@[simp] theorem State.nearLoad_memOk (s : State) (lc : Nat) (off : Word) (n : Nat) (h : s.mem.ok) : (s.nearLoad lc off n).good := by
  unfold State.nearLoad
  (repeat' split) <;> simp [h]

@[simp] theorem State.nearStore_memOk (s : State) (lc : Nat) (off : Word) (n v : Nat) (h : s.mem.ok) : (s.nearStore lc off n v).good := by
  unfold State.nearStore
  (repeat' split) <;> simp [h]

@[simp] theorem State.countSram_memOk (s : State) (code die kind : Nat) : (s.countSram code die kind).mem.ok = s.mem.ok := by
  simp [State.countSram]

@[simp] theorem State.countUe_memOk (s : State) (pa : Nat) : (s.countUe pa).mem.ok = s.mem.ok := by
  unfold State.countUe
  (repeat' split) <;> simp

@[simp] theorem State.meetUe_memOk (s : State) (pas : List Nat) : (s.meetUe pas).mem.ok = s.mem.ok := by simp [State.meetUe]

@[simp] theorem State.meetCellarUe_memOk (s : State) (as : List Nat) : (s.meetCellarUe as).mem.ok = s.mem.ok := by
  simp [State.meetCellarUe]

@[simp] theorem State.meetWalk_memOk (s : State) (die ctx va : Nat) : (s.meetWalk die ctx va).mem.ok = s.mem.ok := by
  unfold State.meetWalk
  (repeat' split) <;> simp

@[simp] theorem State.meetLoad_memOk (s : State) (lc : Nat) (l : List Nat) : (s.meetLoad lc l).mem.ok = s.mem.ok := by
  unfold State.meetLoad
  (repeat' split) <;> simp

@[simp] theorem State.meetData_memOk (s : State) (lc : Nat) (addr : Word) (h : s.mem.ok) : (s.meetData lc addr).mem.ok := by
  grind [State.meetData, XlSpan.good, State.countSram_memOk, State.meetCellarUe_memOk, State.coreSpan_memOk, State.meetLoad_memOk]

@[simp] theorem State.feLoad_memOk (s : State) (c : Nat) (addr : Word) (n : Nat) (h : s.mem.ok) : (s.feLoad c addr n).good := by
  unfold State.feLoad
  dsimp only
  (repeat' split) <;> simp [h]

@[simp] theorem State.feStore_memOk (s : State) (c : Nat) (addr : Word) (n v : Nat) (h : s.mem.ok) : (s.feStore c addr n v).good := by
  unfold State.feStore
  dsimp only
  (repeat' split) <;> simp [h]

@[simp] theorem State.feAtomic_memOk (s : State) (c : Nat) (addr : Word) (n need : Nat) (op : RemoteOp) (f : Nat → Nat) (h : s.mem.ok) :
    (s.feAtomic c addr n need op f).good := by
  unfold State.feAtomic
  split
  · rfl
  · split
    · simp [h]
    · simp [h]
    · dsimp only
      split
      · rfl
      · exact State.writeMem_memOk _ _ _ (by simpa using h)

@[simp] theorem State.load_memOk (s : State) (addr : Word) (n : Nat) (h : s.mem.ok) : (s.load addr n).good := by
  unfold State.load
  (repeat' split) <;> simp [h]

@[simp] theorem State.store_memOk (s : State) (addr : Word) (n v : Nat) (h : s.mem.ok) : (s.store addr n v).good := by
  unfold State.store
  (repeat' split) <;> simp [h]

@[simp] theorem State.atomic_memOk (s : State) (addr : Word) (n need : Nat) (op : RemoteOp) (f : Nat → Nat) (h : s.mem.ok) :
    (s.atomic addr n need op f).good := by
  unfold State.atomic
  split
  · exact s.coreAtomic_memOk _ addr n need op f h
  · exact s.feAtomic_memOk _ addr n need op f h

@[simp] theorem State.loadWords_memOk (s : State) (addr : Word) (n : Nat) (h : s.mem.ok) : (s.loadWords addr n).good := by
  induction n generalizing s addr with
  | zero => exact h
  | succ n ih =>
    have hl := s.load_memOk addr 8 h
    unfold State.loadWords
    split <;> rename_i heq <;> rw [heq] at hl
    · rfl
    · exact hl
    · have hi := ih _ (addr + 8) hl
      split <;> rename_i heq2 <;> rw [heq2] at hi
      · exact hi
      · rfl
      · exact hi

@[simp] theorem State.forgetEng_memOk (s : State) (key : Nat) (addr : Word) (tag : Nat) :
    (s.forgetEng key addr tag).mem.ok = s.mem.ok := by
  simp [State.forgetEng]

@[simp] theorem State.noteEng_memOk (s : State) (key : Nat) (x : Sent) : (s.noteEng key x).mem.ok = s.mem.ok := by simp [State.noteEng]

@[simp] theorem State.forgetKey_memOk (s : State) (key : Nat) : (s.forgetKey key).mem.ok = s.mem.ok :=
  State.ok_of_data (State.forgetKey_data ..)

@[simp] theorem State.engRemote_memOk (s : State) (key : Nat) (addr : Word) (dev tag : Nat) (op : RemoteOp) (h : s.mem.ok) :
    (s.engRemote key addr dev tag op).good := by
  unfold State.engRemote
  (repeat' split) <;> simp [h]

@[simp] theorem State.engHost_memOk (s : State) (key fn pa n : Nat) (h : s.mem.ok) : (s.engHost key fn pa n).good := by
  unfold State.engHost
  dsimp only
  (repeat' split) <;> simp [h]

@[simp] theorem State.engSpan_memOk (s : State) (x : Issuer) (va n need e : Nat) (h : s.mem.ok) : (s.engSpan x va n need e).good := by
  simp [State.engSpan, h]

@[simp] theorem State.engDone_memOk (s : State) (x : Issuer) : (s.engDone x).mem.ok = s.mem.ok := State.ok_of_data (State.engDone_data ..)

@[simp] theorem State.engRead_memOk (s : State) (x : Issuer) (addr : Word) (n e : Nat) (h : s.mem.ok) : (s.engRead x addr n e).good := by
  grind [State.engRead, Eng.good, XlSpan.good, State.engRemote_memOk, State.callTile_memOk, State.meetCellarUe_memOk, State.engSpan_memOk,
    State.engHost_memOk, State.meetUe_memOk]

@[simp] theorem State.engWrite_memOk (s : State) (x : Issuer) (addr : Word) (bs : List Byte) (h : s.mem.ok) :
    (s.engWrite x addr bs).good := by
  unfold State.engWrite
  dsimp only
  split
  · exact h
  · split
    · exact s.engRemote_memOk x.key addr _ 1 _ h
    · split
      · simp [h]
      · split
        · exact h
        · split
          · simp [h]
          · exact s.writeCellar_memOk _ _ h
  · next va _ =>
    have hs := s.engSpan_memOk x va bs.length needW needE h
    split <;> rename_i heq <;> rw [heq] at hs
    · exact h
    · exact hs
    · split
      · exact State.engRemote_memOk _ x.key _ _ 1 _ hs
      · split
        · exact hs
        · exact State.hostWrite_memOk _ _ _ _ hs
      · split
        · simpa using hs
        · exact State.writeMem_memOk _ _ _ (by simpa using hs)

@[simp] theorem State.keepRead_memOk (s : State) (key : Nat) (addr : Word) (tag : Nat) (read : Eng) (h : s.mem.ok) (hread : read.good) :
    (s.keepRead key addr tag read).good := by
  unfold State.keepRead
  (repeat' split) <;> grind [Eng.good, State.noteEng_memOk]

/-! ### Plugins -/

@[simp] theorem State.setAdmit_memOk (s : State) (f v : Nat) (b : Bool) : (s.setAdmit f v b).mem.ok = s.mem.ok := by simp [State.setAdmit]

@[simp] theorem State.setPmap_memOk (s : State) (f v level dst : Nat) : (s.setPmap f v level dst).mem.ok = s.mem.ok := by
  simp [State.setPmap]

@[simp] theorem State.setWeight_memOk (s : State) (g st : Nat) (w : Option Word) : (s.setWeight g st w).mem.ok = s.mem.ok := by
  unfold State.setWeight
  (repeat' split) <;> simp

@[simp] theorem State.setVote_memOk (s : State) (p : Nat) (w : Option Word) : (s.setVote p w).mem.ok = s.mem.ok := by simp [State.setVote]

@[simp] theorem State.policyResult_memOk (s : State) (n : Nat) (c : Policy) (w : Option Word) :
    (s.policyResult n c w).mem.ok = s.mem.ok := by
  unfold State.policyResult
  (repeat' split) <;> simp

@[simp] theorem State.raiseCall_memOk (s : State) (n : Nat) (c : Call) : (s.raiseCall n c).mem.ok = s.mem.ok := by simp [State.raiseCall]
@[simp] theorem State.raiseOnce_memOk (s : State) (n : Nat) (c : Call) : (s.raiseOnce n c).mem.ok = s.mem.ok := by simp [State.raiseOnce]

@[simp] theorem State.makeCall_memOk (s : State) (n core : Nat) : (s.makeCall n core).mem.ok = s.mem.ok := by
  unfold State.makeCall
  dsimp only
  (repeat' split) <;> simp

@[simp] theorem State.plugFail_memOk (s : State) (n code : Nat) : (s.plugFail n code).mem.ok = s.mem.ok := by simp [State.plugFail]

@[simp] theorem State.callEnds_memOk (s : State) (n : Nat) (r : PlugRes) (h : s.mem.ok) : (s.callEnds n r).2.mem.ok := by
  unfold State.callEnds
  (repeat' split) <;> simp [h]

@[simp] theorem State.takeResult_memOk (s : State) (n : Nat) (r : PlugRes) (h : s.mem.ok) : (s.takeResult n r).mem.ok := by
  unfold State.takeResult
  dsimp only
  (repeat' split) <;> simp [h]

@[simp] theorem State.hasResult_memOk (s : State) (n : Nat) (r : PlugRes) (h : s.mem.ok) : (s.hasResult n r).mem.ok := by
  simp [State.hasResult, h]

@[simp] theorem State.noteReturn_memOk (s : State) (core cls : Nat) (val : Word) (h : s.mem.ok) : (s.noteReturn core cls val).mem.ok := by
  unfold State.noteReturn
  (repeat' split) <;> simp [h]

@[simp] theorem State.dropCalls_memOk (s : State) (f v : Nat) (h : s.mem.ok) : (s.dropCalls f v).mem.ok := by
  unfold State.dropCalls
  refine foldl_keeps _ (fun t x ht => ?_) _ _ h
  split
  · split
    · exact t.takeResult_memOk _ _ ht
    · exact ht
  · exact ht

@[simp] theorem State.madeCall_memOk (s : State) (n : Nat) (c : Policy) (r : PlugRes) (h : s.mem.ok) : (s.madeCall n c r).mem.ok := by
  simp [State.madeCall, h]

/-! ### Shared operations -/

@[simp] theorem State.flush_memOk (s : State) (lc : Nat) : (s.flush lc).mem.ok = s.mem.ok := by simp [State.flush]
@[simp] theorem State.post_memOk (s : State) (lc : Nat) (d : Delta) : (s.post lc d).mem.ok = s.mem.ok := by simp [State.post]

@[simp] theorem State.send_memOk (s : State) (src : Source) (r : Rec) (marked : Bool) : (s.send src r marked).mem.ok = s.mem.ok := by
  simp [State.send]

@[simp] theorem State.release_memOk (s : State) (src : Source) (die : Nat) (r : Rec) : (s.release src die r).mem.ok = s.mem.ok :=
  congrArg Mem.ok (State.release_mem ..)

@[simp] theorem State.deliver_memOk (s : State) (src : Source) (die : Nat) (img : Rec) (status : Word) :
    (s.deliver src die img status).mem.ok = s.mem.ok :=
  congrArg Mem.ok (State.deliver_mem ..)

@[simp] theorem State.cancelPantry_memOk (s : State) (g : Nat) (m : CancelMark) (n : Nat) : (s.cancelPantry g m n).mem.ok = s.mem.ok := by
  simp [State.cancelPantry]

@[simp] theorem State.cancelColls_memOk (s : State) (g : Nat) (m : CancelMark) : (s.cancelColls g m).mem.ok = s.mem.ok := by
  simp [State.cancelColls]

@[simp] theorem State.putMark_memOk (s : State) (g : Nat) (m : CancelMark) : (s.putMark g m).mem.ok = s.mem.ok := by simp [State.putMark]

@[simp] theorem State.renewMark_memOk (s : State) (g : Nat) (m : CancelMark) : (s.renewMark g m).mem.ok = s.mem.ok := by
  simp [State.renewMark]

@[simp] theorem State.installHere_memOk (s : State) (g : Nat) (m : CancelMark) : (s.installHere g m).2.mem.ok = s.mem.ok := by
  unfold State.installHere
  (repeat' split) <;> simp

@[simp] theorem State.spreadMark_memOk (s : State) (g : Nat) (m : CancelMark) (dev : Nat) : (s.spreadMark g m dev).mem.ok = s.mem.ok := by
  simp [State.spreadMark]

@[simp] theorem State.tellMark_memOk (s : State) (g : Nat) (m : CancelMark) (dev : Nat) : (s.tellMark g m dev).mem.ok = s.mem.ok := by
  simp [State.tellMark]

@[simp] theorem State.install_memOk (s : State) (g : Nat) (m : CancelMark) : (s.install g m).2.mem.ok = s.mem.ok := by
  unfold State.install
  dsimp only
  (repeat' split) <;> simp

@[simp] theorem State.installLate_memOk (s : State) (g : Nat) (m : CancelMark) : (s.installLate g m).mem.ok = s.mem.ok := by
  grind [State.installLate, State.install_memOk]

@[simp] theorem State.ringWrite_memOk (s : State) (present : Bool) (base k : Nat) (r : Rec) (h : s.mem.ok) :
    (s.ringWrite present base k r).mem.ok := by
  simp [State.ringWrite, h]

@[simp] theorem State.freeInbox_memOk (s : State) (lc i : Nat) : (s.freeInbox lc i).mem.ok = s.mem.ok := by simp [State.freeInbox]

@[simp] theorem State.disbandAt_memOk (s : State) (leader level lc : Nat) : (s.disbandAt leader level lc).mem.ok = s.mem.ok := by
  simp [State.disbandAt]

@[simp] theorem State.disband_memOk (s : State) (lc : Nat) : (s.disband lc).mem.ok = s.mem.ok := by
  unfold State.disband
  (repeat' split) <;> simp

@[simp] theorem State.streamOver_memOk (s : State) (lc : Nat) (t : Stream) (status : Word) :
    (s.streamOver lc t status).mem.ok = s.mem.ok :=
  State.ok_of_data (State.streamOver_data ..)

@[simp] theorem State.endStream_memOk (s : State) (lc : Nat) (aborted : Bool) (x : Option Stream) :
    (s.endStream lc aborted x).mem.ok = s.mem.ok := by
  unfold State.endStream
  (repeat' split) <;> simp

@[simp] theorem State.pop_memOk (s : State) (lc : Nat) : (s.pop lc).mem.ok = s.mem.ok := by
  unfold State.pop
  (repeat' split) <;> simp

@[simp] theorem State.endFrame_memOk (s : State) (lc : Nat) (aborted : Bool) (marks : List Mark) :
    (s.endFrame lc aborted marks).mem.ok = s.mem.ok := by
  unfold State.endFrame
  split
  · rfl
  · dsimp only
    rw [State.pop_memOk, State.post_memOk, State.disband_memOk]
    exact foldl_memOk _ (fun _ _ => by simp) _ _

@[simp] theorem State.noteTrap_memOk (s : State) (lc cls act : Nat) (val : Word) (late : Option Nat) :
    (s.noteTrap lc cls act val late).mem.ok = s.mem.ok := by
  unfold State.noteTrap
  dsimp only
  (repeat' split) <;> simp

@[simp] theorem State.repost_memOk (s : State) (lc : Nat) (f : Frame) : (s.repost lc f).mem.ok = s.mem.ok := by simp [State.repost]

@[simp] theorem State.haltLaunch_memOk (s : State) (lc : Nat) (f : Frame) : (s.haltLaunch lc f).mem.ok = s.mem.ok := by
  simp [State.haltLaunch]

@[simp] theorem State.takeTrap_memOk (s : State) (lc cls : Nat) (val : Word) (late : Option Nat) (h : s.mem.ok) :
    (s.takeTrap lc cls val late).mem.ok := by
  unfold State.takeTrap
  (repeat' split) <;> simp [h]

@[simp] theorem State.setModState_memOk (s : State) (n : Nat) : (s.setModState n).mem.ok = s.mem.ok := by simp [State.setModState]
@[simp] theorem State.haltFe_memOk (s : State) (n : Nat) : (s.haltFe n).mem.ok = s.mem.ok := congrArg Mem.ok (State.haltFe_mem ..)

@[simp] theorem State.feTrap_memOk (s : State) (n cls : Nat) (val : Word) (h : s.mem.ok) : (s.feTrap n cls val).mem.ok := by
  simp [State.feTrap, h]

@[simp] theorem State.feReturn_memOk (s : State) (n : Nat) : (s.feReturn n).mem.ok = s.mem.ok := by simp [State.feReturn]

@[simp] theorem State.trap_memOk (s : State) (cls : Nat) (val : Word) (h : s.mem.ok) : (s.trap cls val).mem.ok := by
  unfold State.trap
  (repeat' split) <;> simp [h]

@[simp] theorem State.ignore_memOk (s : State) (cls : Nat) (val : Word) : (s.ignore cls val).mem.ok = s.mem.ok := by
  unfold State.ignore
  (repeat' split) <;> simp

/-! ### Operands and retiring -/

@[simp] theorem State.popRead_memOk (s : State) (lc : Nat) (r : Reg) : (s.popRead lc r).mem.ok = s.mem.ok :=
  State.ok_of_data (State.popRead_data ..)

@[simp] theorem State.popReads_memOk (s : State) (lc : Nat) (l : List Reg) : (s.popReads lc l).mem.ok = s.mem.ok :=
  State.ok_of_data (State.popReads_data ..)

@[simp] theorem State.writeFrame_memOk (s : State) (lc : Nat) (r : Reg) (w : Word) : (s.writeFrame lc r w).mem.ok = s.mem.ok := by
  unfold State.writeFrame
  (repeat' split) <;> simp

@[simp] theorem State.illegal_memOk (s : State) (i : Instr) (h : s.mem.ok) : (s.illegal i).mem.ok := by simp [State.illegal, h]
@[simp] theorem State.pops_memOk (s : State) (i : Instr) : (s.pops i).mem.ok = s.mem.ok := State.ok_of_data (State.pops_data ..)
@[simp] theorem State.retire_memOk (s : State) (i : Instr) : (s.retire i).mem.ok = s.mem.ok := State.ok_of_data (State.retire_data ..)

@[simp] theorem State.finish_memOk (s : State) (i : Instr) (d : Reg) (w : Word) : (s.finish i d w).mem.ok = s.mem.ok :=
  State.ok_of_data (State.finish_data ..)

@[simp] theorem State.run_memOk (s : State) (i : Instr) (k : List Word → State) (h : s.mem.ok) (hk : ∀ x0, (k x0).mem.ok) :
    Out.good (s.run i k) := by
  unfold State.run; (repeat' split) <;> simp [*]

@[simp] theorem State.run1_memOk (s : State) (i : Instr) (d : Reg) (f : Word → Word) (h : s.mem.ok) : Out.good (s.run1 i d f) :=
  s.run_memOk i _ h fun v => by simp [h]

@[simp] theorem State.run2_memOk (s : State) (i : Instr) (d : Reg) (f : Word → Word → Word) (h : s.mem.ok) : Out.good (s.run2 i d f) :=
  s.run_memOk i _ h fun v => by simp [h]

@[simp] theorem State.waited_memOk (s s1 : State) (h1 : s1.mem.ok) : (s.waited s1).mem.ok := by
  simp [State.waited, h1]

@[simp] theorem State.afterAcc_memOk (s : State) (a : Acc) (k : Nat → State → State) (h : s.mem.ok) (ha : a.good)
    (hk : ∀ x0 t, t.mem.ok → (k x0 t).mem.ok) :
    (s.afterAcc a k).mem.ok := by
  cases a with
  | ok v t => exact hk v t ha
  | trap c w => simp [State.afterAcc, h]
  | wait t => exact ha

@[simp] theorem State.afterLoads_memOk (s : State) (a : Loads) (k : List Word → State → State) (h : s.mem.ok) (ha : a.good)
    (hk : ∀ x0 t, t.mem.ok → (k x0 t).mem.ok) :
    (s.afterLoads a k).mem.ok := by
  cases a with
  | ok l t => exact hk l t ha
  | trap c w => simp [State.afterLoads, h]
  | wait t => exact ha

end Sys2Proof.Machine
end


section
/-! PROOFS. The canonical form of memory (log entry 2) through scalar instructions. -/

namespace Sys2Proof.Machine

/-! ### Integer forms -/

@[simp] theorem divide_memOk (i : Instr) (d : Reg) (z : Word → Word) (q : Word → Word → Word) (s : State) (h : s.mem.ok) :
    Out.good (divide i d z q s) := by
  refine s.run_memOk i _ h fun v => ?_
  dsimp only
  split
  · split <;> simp [h]
  · simp [h]

/-! ### Branches -/

@[simp] theorem State.jump_memOk (s : State) (i : Instr) (t : ℤ) (link : Option Reg) (h : s.mem.ok) : (s.jump i t link).mem.ok := by
  unfold State.jump
  (repeat' split) <;> simp [h]

@[simp] theorem branch_memOk (i : Instr) (o : BitVec 16) (c : Word → Word → Bool) (s : State) (h : s.mem.ok) :
    Out.good (branch i o c s) := by
  refine s.run_memOk i _ h fun v => ?_
  split <;> simp [h]

/-! ### Flags -/

@[simp] theorem State.orFlags_memOk (s : State) (f : BitVec 5) : (s.orFlags f).mem.ok = s.mem.ok := by simp [State.orFlags]
@[simp] theorem State.advance_memOk (s : State) : s.advance.mem.ok = s.mem.ok := by simp [State.advance]

/-! ### Scalar floating point -/

@[simp] theorem State.finishRound_memOk (s : State) (i : Instr) (d : Reg) (r : Nat × BitVec 5) :
    (s.finishRound i d r).mem.ok = s.mem.ok := by
  simp [State.finishRound]

@[simp] theorem State.finishFlags_memOk (s : State) (i : Instr) (d : Reg) (w : Word) (fl : BitVec 5) :
    (s.finishFlags i d w fl).mem.ok = s.mem.ok := by
  simp [State.finishFlags]

@[simp] theorem arith2_memOk (i : Instr) (t : FTy) (d : Reg) (op : FVal → FVal → FRes) (s : State) (h : s.mem.ok) :
    Out.good (arith2 i t d op s) :=
  s.run_memOk i _ h fun v => by simp [h]

@[simp] theorem arith1_memOk (i : Instr) (t : FTy) (d : Reg) (op : FVal → FRes) (s : State) (h : s.mem.ok) :
    Out.good (arith1 i t d op s) :=
  s.run_memOk i _ h fun v => by simp [h]

@[simp] theorem pick_memOk (i : Instr) (t : FTy) (d : Reg) (greater : Bool) (s : State) (h : s.mem.ok) :
    Out.good (pick i t d greater s) := by
  simp [pick, h]

@[simp] theorem compareF_memOk (i : Instr) (t : FTy) (d : Reg) (op : FVal → FVal → Bool × BitVec 5) (s : State) (h : s.mem.ok) :
    Out.good (compareF i t d op s) :=
  s.run_memOk i _ h fun v => by simp [h]

@[simp] theorem toInteger_memOk (i : Instr) (t : FTy) (d : Reg) (lo hi : ℤ) (s : State) (h : s.mem.ok) :
    Out.good (toInteger i t d lo hi s) := by
  simp [toInteger, h]

/-! ### Loads and stores -/

@[simp] theorem State.pagesOf_memOk (s : State) (addr : Word) (n need : Nat) (h : s.mem.ok) : (s.pagesOf addr n need).good := by
  grind [State.pagesOf, Acc.good, XlSpan.good, State.coreSpan_memOk]

@[simp] theorem State.eachLoad_memOk (one : State → Word → Acc) (s : State) (addr : Word) (k n : Nat) (h : s.mem.ok)
    (hone : ∀ t x1, t.mem.ok → (one t x1).good) :
    (State.eachLoad one s addr k n).good := by
  induction n generalizing s addr k with
  | zero => exact h
  | succ n ih =>
    have ha := s.access_memOk k (n == 0) false addr (fun t => one t addr) h fun t => hone t addr
    unfold State.eachLoad
    split
    · next heq =>
      rw [heq] at ha
      have hr := ih _ (addr + 1) (k + 1) ha
      split
      · next heq2 => rw [heq2] at hr; exact hr
      · exact hr
    · exact ha

@[simp] theorem State.eachStore_memOk (one : State → Word → Nat → Acc) (s : State) (addr : Word) (k n m : Nat) (h : s.mem.ok)
    (hone : ∀ t x1 x2, t.mem.ok → (one t x1 x2).good) :
    (State.eachStore one s addr k n m).good := by
  induction n generalizing s addr k m with
  | zero => exact h
  | succ n ih =>
    have ha := s.access_memOk k (n == 0) true addr (fun t => one t addr (m % 256)) h fun t => hone t addr _
    unfold State.eachStore
    split
    · next heq =>
      rw [heq] at ha
      exact ih _ (addr + 1) (k + 1) _ ha
    · exact ha

@[simp] theorem State.loadBytes_memOk (s : State) (addr : Word) (n : Nat) (h : s.mem.ok) : (s.loadBytes addr n).good := by
  grind [State.loadBytes, Acc.good, State.eachLoad_memOk, State.load_memOk]

@[simp] theorem State.storeBytes_memOk (s : State) (addr : Word) (n v : Nat) (h : s.mem.ok) : (s.storeBytes addr n v).good := by
  grind [State.storeBytes, Acc.good, State.eachStore_memOk, State.store_memOk]

@[simp] theorem State.checked_memOk (s : State) (addr : Word) (n need : Nat) (whole bytes : State → Acc) (k : Nat → State → State)
    (h : s.mem.ok) (hwhole : ∀ t, t.mem.ok → (whole t).good) (hbytes : ∀ t, t.mem.ok → (bytes t).good)
    (hk : ∀ x0 t, t.mem.ok → (k x0 t).mem.ok) :
    (s.checked addr n need whole bytes k).mem.ok := by
  unfold State.checked
  split
  · simp [h]
  · split
    · exact s.afterAcc_memOk _ k h (hwhole s h) hk
    · split
      · simp [h]
      · have hp := s.pagesOf_memOk addr n need h
        split <;> rename_i heq <;> rw [heq] at hp
        · simp [h]
        · exact hp
        · have hb := hbytes _ hp
          split <;> rename_i heq2 <;> rw [heq2] at hb
          · simp [h]
          · exact hb
          · exact hk _ _ (by simpa using hb)

@[simp] theorem loadForm_memOk (i : Instr) (d : Reg) (imm : BitVec 16) (n : Nat) (signed : Bool) (s : State) (h : s.mem.ok) :
    Out.good (loadForm i d imm n signed s) := by
  grind [loadForm, Acc.good, Out.good, State.run_memOk, State.checked_memOk, State.load_memOk, State.loadBytes_memOk, State.finish_memOk]

@[simp] theorem storeForm_memOk (i : Instr) (imm : BitVec 16) (n : Nat) (s : State) (h : s.mem.ok) : Out.good (storeForm i imm n s) :=
  s.run_memOk i _ h fun v => s.checked_memOk _ n needW _ _ _ h (fun t ht => t.store_memOk _ n _ ht)
    (fun t ht => t.storeBytes_memOk _ n _ ht) fun _ t ht => by simp [ht]

@[simp] theorem State.nearLoadBytes_memOk (s : State) (lc : Nat) (off : Word) (n : Nat) (h : s.mem.ok) :
    (s.nearLoadBytes lc off n).good := by
  grind [State.nearLoadBytes, Acc.good, State.eachLoad_memOk, State.nearLoad_memOk]

@[simp] theorem State.nearStoreBytes_memOk (s : State) (lc : Nat) (off : Word) (n v : Nat) (h : s.mem.ok) :
    (s.nearStoreBytes lc off n v).good := by
  grind [State.nearStoreBytes, Acc.good, State.eachStore_memOk, State.nearStore_memOk]

@[simp] theorem State.checkedNear_memOk (s : State) (off : Word) (n : Nat) (acc bytes : Nat → Acc) (k : Nat → State → State)
    (h : s.mem.ok) (hacc : ∀ x0, (acc x0).good) (hbytes : ∀ x0, (bytes x0).good) (hk : ∀ x0 t, t.mem.ok → (k x0 t).mem.ok) :
    (s.checkedNear off n acc bytes k).mem.ok := by
  unfold State.checkedNear
  split
  · exact h
  · next lc _ =>
    split
    · simp [h]
    · split
      · exact s.afterAcc_memOk _ k h (hacc lc) hk
      · split
        · simp [h]
        · have hb := hbytes lc
          split <;> rename_i heq <;> rw [heq] at hb
          · simp [h]
          · exact hb
          · exact hk _ _ (by simpa using hb)

@[simp] theorem loadNear_memOk (i : Instr) (d : Reg) (imm : BitVec 16) (n : Nat) (signed : Bool) (s : State) (h : s.mem.ok) :
    Out.good (loadNear i d imm n signed s) := by
  grind [loadNear, Acc.good, Out.good, State.run_memOk, State.checkedNear_memOk, State.nearLoad_memOk, State.nearLoadBytes_memOk,
    State.finish_memOk]

@[simp] theorem storeNear_memOk (i : Instr) (imm : BitVec 16) (n : Nat) (s : State) (h : s.mem.ok) : Out.good (storeNear i imm n s) :=
  s.run_memOk i _ h fun v => s.checkedNear_memOk _ n _ _ _ h (fun lc => s.nearStore_memOk lc _ n _ h)
    (fun lc => s.nearStoreBytes_memOk lc _ n _ h) fun _ t ht => by simp [ht]

@[simp] theorem State.sendNibble_memOk (s : State) (addr : Word) (high : Bool) (x : Nat) (h : s.mem.ok) :
    (s.sendNibble addr high x).mem.ok := by
  grind [State.sendNibble, XlSpan.good, State.coreSpan_memOk, State.sendStore_memOk]

@[simp] theorem nibbleForm_memOk (i : Instr) (high : Bool) (s : State) (h : s.mem.ok) : Out.good (nibbleForm i high s) := by
  grind [nibbleForm, Acc.good, Out.good, State.run_memOk, State.trap_memOk, State.retire_memOk, State.sendNibble_memOk,
    State.afterAcc_memOk, State.atomic_memOk]

@[simp] theorem nibbleNear_memOk (i : Instr) (high : Bool) (s : State) (h : s.mem.ok) : Out.good (nibbleNear i high s) := by
  refine s.run_memOk i _ h fun v => ?_
  split
  · exact h
  · dsimp only
    split
    · simp [h]
    · split <;> simp [h]

@[simp] theorem State.stepBlock_memOk (s : State) (ds : List (Reg × Word)) : (s.stepBlock ds).mem.ok = s.mem.ok := by
  simp [State.stepBlock]

@[simp] theorem State.byteOf_memOk (s : State) (addr : Word) (acc : State → Acc) (h : s.mem.ok) (hacc : ∀ t, t.mem.ok → (acc t).good) :
    (s.byteOf addr acc).good := by
  unfold State.byteOf
  split
  · exact hacc s h
  · rfl

@[simp] theorem execBmov_memOk (d a b : Reg) (s : State) (h : s.mem.ok) : Out.good (execBmov d a b s) := by
  grind [execBmov, Acc.good, Out.good, State.run_memOk, State.retire_memOk, State.afterAcc_memOk, State.access_memOk, State.byteOf_memOk,
    State.load_memOk, State.store_memOk, State.stepBlock_memOk]

@[simp] theorem execBset_memOk (d a b : Reg) (s : State) (h : s.mem.ok) : Out.good (execBset d a b s) := by
  grind [execBset, Acc.good, Out.good, State.run_memOk, State.retire_memOk, State.afterAcc_memOk, State.byteOf_memOk, State.store_memOk,
    State.stepBlock_memOk]

@[simp] theorem execBcmp_memOk (d a b : Reg) (s : State) (h : s.mem.ok) : Out.good (execBcmp d a b s) := by
  grind [execBcmp, Acc.good, Out.good, State.run_memOk, State.retire_memOk, State.afterAcc_memOk, State.access_memOk, State.byteOf_memOk,
    State.load_memOk, State.stepBlock_memOk]

/-! ### Atomics -/

@[simp] theorem State.checkedAtomic_memOk (s : State) (addr : Word) (n : Nat) (acc : Acc) (k : Nat → State → State) (h : s.mem.ok)
    (hacc : acc.good) (hk : ∀ x0 t, t.mem.ok → (k x0 t).mem.ok) :
    (s.checkedAtomic addr n acc k).mem.ok := by
  unfold State.checkedAtomic
  split
  · simp [h]
  · split
    · simp [h]
    · exact s.afterAcc_memOk acc k h hacc hk

@[simp] theorem atomicForm_memOk (i : Instr) (op : Nat) (z : ASz) (d : Reg) (s : State) (h : s.mem.ok) :
    Out.good (atomicForm i op z d s) := by
  grind [atomicForm, Acc.good, Out.good, State.run_memOk, State.checkedAtomic_memOk, State.atomic_memOk, State.finish_memOk]

@[simp] theorem execAmofadd_memOk (z : ASz) (d a b : Reg) (s : State) (h : s.mem.ok) : Out.good (execAmofadd z d a b s) := by
  grind [execAmofadd, Acc.good, Out.good, State.run_memOk, State.checkedAtomic_memOk, State.atomic_memOk, State.finishRound_memOk]

@[simp] theorem State.applyHeld_memOk (s : State) (e : Held) (h : s.mem.ok) : (s.applyHeld e).2.2.mem.ok := by
  unfold State.applyHeld
  dsimp only
  (repeat' split) <;> simp [h]

@[simp] theorem State.applyAll_memOk (s : State) (l : List Held) (h : s.mem.ok) : (s.applyAll l).2.2.mem.ok := by
  induction l generalizing s with
  | nil => exact h
  | cons e l ih => exact ih _ (s.applyHeld_memOk e h)

@[simp] theorem State.bumpDetovf_memOk (s : State) (lc : Nat) : (s.bumpDetovf lc).mem.ok = s.mem.ok := by simp [State.bumpDetovf]

@[simp] theorem State.drainHeld_memOk (s : State) (n : Nat) (sel : Held → Bool) (h : s.mem.ok) : (s.drainHeld n sel).mem.ok := by
  unfold State.drainHeld
  dsimp only
  rw [foldl_memOk _ fun _ _ => State.bumpDetovf_memOk ..]
  exact State.applyAll_memOk _ _ (by simpa using h)

@[simp] theorem State.placeHeld_memOk (s : State) (e : Held) (h : s.mem.ok) : (s.placeHeld e).mem.ok := by simp [State.placeHeld, h]

@[simp] theorem State.homeAddress_memOk (s : State) (addr : Word) (n : Nat) (h : s.mem.ok) : (s.homeAddress addr n).good := by
  unfold State.homeAddress
  (repeat' split) <;> grind [Acc.good, XlSpan.good, State.coreSpan_memOk]

@[simp] theorem State.bumpSeq_memOk (s : State) : s.bumpSeq.mem.ok = s.mem.ok := by
  unfold State.bumpSeq
  (repeat' split) <;> simp

@[simp] theorem detForm_memOk (i : Instr) (float : Bool) (z : ASz) (s : State) (h : s.mem.ok) : Out.good (detForm i float z s) := by
  grind [detForm, Acc.good, Out.good, State.run_memOk, State.trap_memOk, State.afterAcc_memOk, State.homeAddress_memOk,
    State.bumpSeq_memOk, State.placeHeld_memOk, State.retire_memOk, State.advance_memOk]

@[simp] theorem execAfl_memOk (d a : Reg) (s : State) (h : s.mem.ok) : Out.good (execAfl d a s) := by
  grind [execAfl, Acc.good, Out.good, State.run_memOk, State.trap_memOk, State.afterAcc_memOk, State.homeAddress_memOk,
    State.applyAll_memOk, State.finishFlags_memOk, State.setSlice_mem]

end Sys2Proof.Machine
end


section
/-! PROOFS. The canonical form of memory (log entry 2) through records, admission and the progress tree. -/

namespace Sys2Proof.Machine

/-! ### Records and admission -/

@[simp] theorem State.badRecord_memOk (s : State) (die : Nat) (r : Rec) : (s.badRecord die r).mem.ok = s.mem.ok := by
  simp [State.badRecord]

@[simp] theorem State.dropFlight_memOk (s : State) (k : Nat) : (s.dropFlight k).mem.ok = s.mem.ok := by simp [State.dropFlight]

@[simp] theorem State.unhand_memOk (s : State) (r : Rec) (lc : Nat) (landed : Bool) : (s.unhand r lc landed).mem.ok = s.mem.ok := by
  simp [State.unhand]

@[simp] theorem State.hold7_memOk (s : State) (lc : Nat) (r : Rec) : (s.hold7 lc r).mem.ok = s.mem.ok := by simp [State.hold7]

@[simp] theorem State.takeIn_memOk (s : State) (lc : Nat) (r : Rec) (marked landed : Bool) (h : s.mem.ok) :
    (s.takeIn lc r marked landed).all (·.mem.ok) := by
  unfold State.takeIn
  dsimp only
  (repeat' split) <;> simp [h]

@[simp] theorem State.dropAtQuay_memOk (s : State) (q : Nat) (r : Rec) : (s.dropAtQuay q r).mem.ok = s.mem.ok := by
  simp [State.dropAtQuay]

@[simp] theorem State.leave_memOk (s : State) (d : Nat) (x : Flight) : (s.leave d x).mem.ok = s.mem.ok := by simp [State.leave]

@[simp] theorem execRecordArrival_memOk (k : Nat) (s : State) (h : s.mem.ok) : Out.good (execRecordArrival k s) := by
  unfold execRecordArrival
  (repeat' split) <;> grind [Out.good, State.leave_memOk, State.dropFlight_memOk, State.unhand_memOk,
    State.dropAtQuay_memOk, State.badRecord_memOk, State.hold7_memOk, State.takeIn_memOk, State.wakeTile_memOk, State.cancelDrop_mem]

@[simp] theorem execLevel7Retry_memOk (lc : Nat) (s : State) (h : s.mem.ok) : Out.good (execLevel7Retry lc s) := by
  grind [execLevel7Retry, Out.good, State.takeIn_memOk, State.wakeTile_memOk]

@[simp] theorem execTrapDeliveryInject_memOk (s : State) (h : s.mem.ok) : Out.good (execTrapDeliveryInject s) := by
  unfold execTrapDeliveryInject
  dsimp only
  (repeat' split) <;> simp [h]

@[simp] theorem execDeferredCancelInstall_memOk (g : Nat) (s : State) (h : s.mem.ok) : Out.good (execDeferredCancelInstall g s) := by
  grind [execDeferredCancelInstall, Out.good, State.installHere_memOk, State.tellMark_memOk]

@[simp] theorem State.readHeaderBy_memOk (s : State) (holders : List Nat) (lc : Nat) (r : Rec) (h : s.mem.ok) :
    (s.readHeaderBy holders lc r).good := by
  grind [State.readHeaderBy, Eng.good, HeaderRead.good, XlSpan.good, State.xlateSpan_memOk, State.engRemote_memOk, State.engHost_memOk]

@[simp] theorem State.readHeader_memOk (s : State) (lc : Nat) (r : Rec) (h : s.mem.ok) : (s.readHeader lc r).good := by
  simp [State.readHeader, h]

@[simp] theorem State.freeFoot_memOk (s : State) (lc arrival : Nat) : (s.freeFoot lc arrival).mem.ok = s.mem.ok := by
  unfold State.freeFoot
  dsimp only
  (repeat' split) <;> simp

@[simp] theorem State.dropQueued_memOk (s : State) (lc : Nat) (e : Nat × Queued) : (s.dropQueued lc e).mem.ok = s.mem.ok := by
  simp [State.dropQueued]

@[simp] theorem State.sweepInbox_memOk (s : State) (lc : Nat) : (s.sweepInbox lc).mem.ok = s.mem.ok := by simp [State.sweepInbox]
@[simp] theorem State.evict_memOk (s : State) (lc : Nat) (e : Nat × Queued) : (s.evict lc e).mem.ok = s.mem.ok := by simp [State.evict]

@[simp] theorem State.startFetch_memOk (s : State) (lc : Nat) (e : Nat × Queued) (h : s.mem.ok) : (s.startFetch lc e).all (·.mem.ok) := by
  unfold State.startFetch
  dsimp only
  (repeat' split) <;> simp [h]

@[simp] theorem State.fetchFor_memOk (s : State) (lc : Nat) (e : Nat × Queued) (n : Nat) (h : s.mem.ok) : (s.fetchFor lc e n).mem.ok := by
  induction n generalizing s with
  | zero => exact h
  | succ n ih =>
    have hf := s.startFetch_memOk lc e h
    unfold State.fetchFor
    dsimp only
    split <;> rename_i heq
    · split at heq
      · rw [heq] at hf; exact hf
      · exact absurd heq (by simp)
    · split
      · split
        · exact ih _ (by simp [h])
        · exact h
      · exact h

@[simp] theorem execFootprintFetchStart_memOk (lc : Nat) (s : State) (h : s.mem.ok) : Out.good (execFootprintFetchStart lc s) := by
  grind [execFootprintFetchStart, HeaderRead.good, Out.good, State.sweepInbox_memOk, State.readHeader_memOk, State.fetchFor_memOk]

@[simp] theorem State.fetchLine_memOk (s : State) (lc : Nat) (rcd : Rec) (f : FootSlot) (h : s.mem.ok) :
    (s.fetchLine lc rcd f).2.2.mem.ok := by
  unfold State.fetchLine
  split
  · exact h
  · next region va off _ =>
    dsimp only
    have hs := s.engSpan_memOk ⟨footKey lc f.id, lc, s.ctxOf rcd.graph, s.fnOf rcd.graph⟩ va 64 needR 0 h
    split <;> rename_i heq <;> rw [heq] at hs
    · exact h
    · exact hs
    · have hr := s.engRead_memOk ⟨footKey lc f.id, lc, s.ctxOf rcd.graph, s.fnOf rcd.graph⟩ (BitVec.ofNat 64 va) 64 0 h
      split <;> rename_i heq2 <;> rw [heq2] at hr
      · exact State.writeCellar_memOk _ _ _ hr
      · exact hr
      · exact h
      · exact hr

@[simp] theorem State.fetchLines_memOk (s : State) (lc : Nat) (rcd : Rec) (f : FootSlot) (n : Nat) (h : s.mem.ok) :
    (s.fetchLines lc rcd f n).2.mem.ok := by
  induction n generalizing s f with
  | zero => exact h
  | succ n ih =>
    have hf := s.fetchLine_memOk lc rcd f h
    unfold State.fetchLines
    dsimp only
    split
    · exact hf
    · exact ih _ _ hf

@[simp] theorem State.fetchSlot_memOk (s : State) (lc slot n : Nat) (h : s.mem.ok) : (s.fetchSlot lc slot n).mem.ok := by
  unfold State.fetchSlot
  dsimp only
  (repeat' split) <;> simp [h]

@[simp] theorem State.push_memOk (s : State) (lc : Nat) (e : Nat × Queued) (f : Frame) : (s.push lc e f).mem.ok = s.mem.ok := by
  simp [State.push]

@[simp] theorem State.refuseEntry_memOk (s : State) (lc : Nat) (e : Nat × Queued) (cls : Nat) (val : Word) (h : s.mem.ok) :
    (s.refuseEntry lc e cls val).mem.ok := by
  simp [State.refuseEntry, h]

@[simp] theorem State.evictUnder_memOk (s : State) (lc arrival : Nat) (bytes : Nat × Nat) :
    (s.evictUnder lc arrival bytes).mem.ok = s.mem.ok := by
  simp [State.evictUnder]

@[simp] theorem State.dropIcache_memOk (s : State) (tile : Nat) : (s.dropIcache tile).mem.ok = s.mem.ok := by simp [State.dropIcache]

@[simp] theorem State.openWindow_memOk (s : State) (lc : Nat) (f : Frame) : (s.openWindow lc f).mem.ok = s.mem.ok := by
  simp [State.openWindow]

@[simp] theorem State.pushTask_memOk (s : State) (lc : Nat) (e : Nat × Queued) (h : Nat) : (s.pushTask lc e h).mem.ok = s.mem.ok := by
  simp [State.pushTask]

@[simp] theorem State.admitFirst_memOk (s : State) (lc : Nat) (h : s.mem.ok) : (s.admitFirst lc).mem.ok := by
  grind [State.admitFirst, HeaderRead.good, State.push_memOk, State.readHeader_memOk, State.refuseEntry_memOk, State.pushTask_memOk]

@[simp] theorem execAdmission_memOk (lc : Nat) (s : State) (h : s.mem.ok) : Out.good (execAdmission lc s) := by
  unfold execAdmission
  (repeat' split) <;> simp [h]

@[simp] theorem execBudgetExpire_memOk (lc : Nat) (s : State) (h : s.mem.ok) : Out.good (execBudgetExpire lc s) := by
  unfold execBudgetExpire
  (repeat' split) <;> simp [h]

@[simp] theorem State.land_memOk (s : State) (g st : Nat) (r : Rec) (marked : Bool) (h : s.mem.ok) :
    (s.land g st r marked).all (·.mem.ok) := by
  unfold State.land
  dsimp only
  (repeat' split) <;> simp [h]

@[simp] theorem execLandingArrival_memOk (k : Nat) (s : State) (h : s.mem.ok) : Out.good (execLandingArrival k s) := by
  unfold execLandingArrival
  split
  · exact h
  · next x _ =>
    split
    · next g st _ =>
      split
      · exact h
      · dsimp only
        split
        · simp [h]
        · split
          · simp [h]
          · have hl := (s.dropFlight k).land_memOk g st x.rcd x.marked (by simp [h])
            cases hs : (s.dropFlight k).land g st x.rcd x.marked with
            | none => exact h
            | some t => rw [hs] at hl; exact hl
    · exact h

@[simp] theorem execLandingHandoff_memOk (g st : Nat) (s : State) (h : s.mem.ok) : Out.good (execLandingHandoff g st s) := by
  unfold execLandingHandoff
  dsimp only
  (repeat' split) <;> simp [h]

@[simp] theorem State.subscribe_memOk (s : State) (p : Nat × Nat) (lc : Nat) : (s.subscribe p lc).mem.ok = s.mem.ok := by
  simp [State.subscribe]

@[simp] theorem State.unsubscribe_memOk (s : State) (p : Nat × Nat) (lc : Nat) : (s.unsubscribe p lc).mem.ok = s.mem.ok := by
  simp [State.unsubscribe]

@[simp] theorem State.serve_memOk (s : State) (p : Nat × Nat) (offering : List (Nat × Nat)) :
    (s.serve p offering).1.mem.ok = s.mem.ok := by
  unfold State.serve
  dsimp only
  (repeat' split) <;> simp

@[simp] theorem State.serveAll_memOk (s : State) (l ls : List (Nat × Nat)) : (s.serveAll l ls).1.mem.ok = s.mem.ok := by
  induction l generalizing s ls with
  | nil => rfl
  | cons p l ih =>
    have hp := s.serve_memOk p ls
    unfold State.serveAll
    split <;> rename_i heq <;> rw [heq] at hp
    · exact (ih _ _).trans hp
    · exact (ih _ _).trans hp

@[simp] theorem State.letGo_memOk (s : State) (p : Nat × Nat) : (s.letGo p).mem.ok = s.mem.ok := by
  unfold State.letGo
  dsimp only
  (repeat' split) <;> simp

@[simp] theorem State.askWeight_memOk (s : State) (p : Nat × Nat) : (s.askWeight p).mem.ok = s.mem.ok := by simp [State.askWeight]

@[simp] theorem State.governed_memOk (s : State) (die : Nat) (want offer : List (Nat × Nat)) :
    (s.governed die want offer).mem.ok = s.mem.ok := by
  simp [State.governed]

@[simp] theorem execStageGovernorEval_memOk (die : Nat) (s : State) (h : s.mem.ok) : Out.good (execStageGovernorEval die s) := by
  unfold execStageGovernorEval
  split
  · split
    · exact h
    · simp [h]
  · dsimp only
    have hs : ∀ t : State, t.mem.ok = s.mem.ok → t.mem.ok := fun t ht => ht.trans h
    split
    · exact hs _ (((foldl_memOk _ (fun _ _ => by simp) _ _).trans (foldl_memOk _ (fun _ _ => by simp) _ _)))
    · exact hs _ ((State.governed_memOk ..).trans ((foldl_memOk _ (fun _ _ => by simp) _ _).trans (foldl_memOk _ (fun _ _ => by simp) _
      _)))

/-! ### Progress and launches -/

@[simp] theorem State.vaSpan_memOk (s : State) (f va n need holder : Nat) (h : s.mem.ok) : (s.vaSpan f va n need holder).good := by
  unfold State.vaSpan
  (repeat' split) <;> simp [h]

@[simp] theorem State.releaseRequests_memOk (s : State) (g : Nat) (gr : Graph) : (s.releaseRequests g gr).mem.ok = s.mem.ok := by
  simp [State.releaseRequests]

@[simp] theorem State.packetOver_memOk (s : State) (f v i : Nat) (e : PacketEnd) (w failed : Option Word) :
    (s.packetOver f v i e w failed).mem.ok = s.mem.ok := by
  simp [State.packetOver]

@[simp] theorem State.launchOver_memOk (s : State) (f v i : Nat) (w : Word) : (s.launchOver f v i w).mem.ok = s.mem.ok := by
  simp [State.launchOver]

@[simp] theorem State.completeLaunch_memOk (s : State) (l : Launch) : (s.completeLaunch l).mem.ok = s.mem.ok := by
  unfold State.completeLaunch
  (repeat' split) <;> simp

@[simp] theorem State.answerAsked_memOk (s : State) (g : Nat) : (s.answerAsked g).mem.ok = s.mem.ok := by simp [State.answerAsked]

@[simp] theorem State.completeLaunches_memOk (s : State) (g : Nat) (done : Launch → Bool) :
    (s.completeLaunches g done).mem.ok = s.mem.ok := by
  simp [State.completeLaunches]

@[simp] theorem State.removeMarks_memOk (s : State) (g : Nat) (gr : Graph) : (s.removeMarks g gr).mem.ok = s.mem.ok := by
  simp [State.removeMarks]

@[simp] theorem State.settle_memOk (s : State) (g : Nat) : (s.settle g).mem.ok = s.mem.ok := by
  unfold State.settle
  (repeat' split) <;> simp

@[simp] theorem State.spilling_memOk (s : State) (q : Nat) (step : State → State) (h : s.mem.ok) (hstep : ∀ t, t.mem.ok → (step t).mem.ok) :
    (s.spilling q step).mem.ok := by
  unfold State.spilling
  dsimp only
  rw [State.countBy_mem, State.countBy_mem]
  exact hstep s h

@[simp] theorem State.takeDeltas_memOk (s : State) (g : Nat) (gr : Graph) (ds : List Delta) :
    (s.takeDeltas g gr ds).mem.ok = s.mem.ok := by
  simp [State.takeDeltas]

@[simp] theorem State.applyDeltas_memOk (s : State) (g : Nat) (ds : List Delta) (h : s.mem.ok) : (s.applyDeltas g ds).mem.ok := by
  unfold State.applyDeltas
  (repeat' split) <;> simp [h]

@[simp] theorem State.failSlot_memOk (s : State) (g : Nat) : (s.failSlot g).mem.ok = s.mem.ok := by
  unfold State.failSlot
  (repeat' split) <;> simp

@[simp] theorem State.dropBatch_memOk (s : State) (k : Nat) : (s.dropBatch k).mem.ok = s.mem.ok := by simp [State.dropBatch]

@[simp] theorem execTreeBatchArrival_memOk (k : Nat) (s : State) (h : s.mem.ok) : Out.good (execTreeBatchArrival k s) := by
  unfold execTreeBatchArrival
  (repeat' split) <;> simp [h]

@[simp] theorem State.sendBatch_memOk (s : State) (src dst : Nat) (ds : List Delta) : (s.sendBatch src dst ds).mem.ok = s.mem.ok := by
  simp [State.sendBatch]

@[simp] theorem State.toHome_memOk (s : State) (q home : Nat) : (s.toHome q home).mem.ok = s.mem.ok := by simp [State.toHome]

@[simp] theorem execTreeNodeForward_memOk (node : Nat) (s : State) (h : s.mem.ok) : Out.good (execTreeNodeForward node s) := by
  unfold execTreeNodeForward
  dsimp only
  (repeat' split) <;> simp [h]

@[simp] theorem execRootApplyBatch_memOk (k : Nat) (s : State) (h : s.mem.ok) : Out.good (execRootApplyBatch k s) := by
  unfold execRootApplyBatch
  split
  · exact h
  · split
    · exact h
    · exact foldl_keeps _ (fun t g ht => t.applyDeltas_memOk g _ ht) _ _ ((s.dropBatch_memOk k).trans h)

@[simp] theorem execFrontierAnnounce_memOk (g st die : Nat) (s : State) (h : s.mem.ok) : Out.good (execFrontierAnnounce g st die s) := by
  unfold execFrontierAnnounce
  (repeat' split) <;> simp [h]

@[simp] theorem State.announceTo_memOk (s : State) (g st dev : Nat) : (s.announceTo g st dev).mem.ok = s.mem.ok := by
  unfold State.announceTo
  (repeat' split) <;> simp

@[simp] theorem State.openLaunch_memOk (s : State) (g st : Nat) (t point : Word) (dev : Nat) (packet : Option (Nat × Nat × Nat)) :
    (s.openLaunch g st t point dev packet).mem.ok = s.mem.ok := by
  simp [State.openLaunch]

@[simp] theorem State.countLaunch_memOk (s : State) (g st : Nat) (t point : Word) (n dev : Nat) (packet : Option (Nat × Nat × Nat))
    (h : s.mem.ok) :
    (s.countLaunch g st t point n dev packet).mem.ok := by
  simp [State.countLaunch, h]

end Sys2Proof.Machine
end


section
/-! PROOFS. The canonical form of memory (log entry 2) through the sequencer, task instructions and the engines. -/

namespace Sys2Proof.Machine

/-! ### The sequencer -/

@[simp] theorem State.enter_memOk (s : State) (lc : Nat) (i : Instr) (p : Plan) : (s.enter lc i p).mem.ok = s.mem.ok := by
  unfold State.enter
  dsimp only
  (repeat' split) <;> simp

@[simp] theorem State.issueAligned_memOk (s : State) (lc : Nat) (i : Instr) (p : Plan) (h : s.mem.ok) :
    (s.issueAligned lc i p).mem.ok := by
  unfold State.issueAligned
  (repeat' split) <;> simp [h]

@[simp] theorem State.issueVec_memOk (s : State) (i : Instr) (h : s.mem.ok) : Out.good (s.issueVec i) := by
  unfold State.issueVec
  (repeat' split) <;> grind [Out.good, State.run_memOk, State.illegal_memOk, State.issueAligned_memOk, State.ignore_memOk,
    State.trap_memOk]

@[simp] theorem execVloop_memOk (n : Fin 16) (m : Reg) (s : State) (h : s.mem.ok) : Out.good (execVloop n m s) := by
  unfold execVloop
  dsimp only
  (repeat' split) <;> simp [h]

@[simp] theorem State.vput_memOk (s : State) (ms : List Nat) (m : Nat) (r : VReg) (x : Nat) (t : BitVec 4) :
    (s.vput ms m r x t).mem.ok = s.mem.ok := by
  unfold State.vput
  dsimp only
  refine (foldl_memOk _ (fun t x => ?_) _ _).trans ?_ <;> split <;> simp

@[simp] theorem State.vflags_memOk (s : State) (lc : Nat) (fl : BitVec 5) : (s.vflags lc fl).mem.ok = s.mem.ok := by
  unfold State.vflags
  (repeat' split) <;> simp

@[simp] theorem State.locate_memOk (s : State) (near : Bool) (lc : Nat) (addr : Word) (u need : Nat) (h : s.mem.ok) :
    (s.locate near lc addr u need).good := by
  grind [State.locate, Located.good, XlSpan.good, State.coreSpan_memOk]

@[simp] theorem State.places_memOk (s : State) (near : Bool) (lc u need : Nat) (l : List (Nat × Word × Nat)) (h : s.mem.ok) :
    (s.places near lc u need l).good := by
  induction l generalizing s with
  | nil => exact h
  | cons x l ih =>
    have hl := s.locate_memOk near lc x.2.1 u need h
    unfold State.places
    split <;> rename_i heq <;> rw [heq] at hl
    · rfl
    · exact hl
    · have hi := ih _ hl
      split
      · next heq2 => rw [heq2] at hi; exact hi
      · exact hi

@[simp] theorem State.callQuarters_memOk (s : State) (l : List VByte) : (s.callQuarters l).mem.ok = s.mem.ok := by
  simp [State.callQuarters]

@[simp] theorem State.storeAccess_memOk (s : State) (lc : Nat) (g : List VByte) (h : s.mem.ok) : (s.storeAccess lc g).mem.ok := by
  unfold State.storeAccess
  (repeat' split) <;> simp [h]

@[simp] theorem State.cleanWords_memOk (s : State) (l : List VByte) : (s.cleanWords l).mem.ok = s.mem.ok := by simp [State.cleanWords]

@[simp] theorem State.planStore_memOk (s : State) (near indexed : Bool) (lc u : Nat) (units : List (Nat × Word × Nat)) (h : s.mem.ok) :
    (s.planStore near indexed lc u units).good := by
  grind [State.planStore, Places.good, Planned.good, State.places_memOk]

@[simp] theorem State.storeNext_memOk (s : State) (lc : Nat) (gs : List (List VByte)) (h : s.mem.ok) : (s.storeNext lc gs).good := by
  unfold State.storeNext
  (repeat' split) <;> simp [h]

@[simp] theorem State.loadNext_memOk (s : State) (lc : Nat) (gs : List (List VByte)) (h : s.mem.ok) : (s.loadNext lc gs).good := by
  unfold State.loadNext
  dsimp only
  (repeat' split) <;> simp [h]

@[simp] theorem State.planLoad_memOk (s : State) (near indexed : Bool) (lc u : Nat) (l : List (Option Word)) (h : s.mem.ok) :
    (s.planLoad near indexed lc u l).good := by
  grind [State.planLoad, Places.good, Planned.good, State.places_memOk, State.callQuarters_memOk]

@[simp] theorem Frame.planned_memOk (f : Frame) (s : State) (new : Planned) (h : s.mem.ok) (hnew : new.good) :
    (f.planned s new).good := by
  unfold Frame.planned
  split
  · exact hnew
  · exact h

@[simp] theorem State.keepPlan_memOk (s : State) (lc : Nat) (gs : List (List VByte)) : (s.keepPlan lc gs).mem.ok = s.mem.ok := by
  unfold State.keepPlan
  (repeat' split) <;> simp

@[simp] theorem State.memChunk_memOk (s : State) (lc : Nat) (f : Frame) (e : SeqEntry) (store near : Bool) (mode : Nat) (d x : VReg)
    (base : Word) (k : Nat) (h : s.mem.ok) :
    (s.memChunk lc f e store near mode d x base k).good := by
  grind [State.memChunk, Acc.good, Chunked.good, Planned.good, VLoad.good, Frame.planned_memOk, State.planStore_memOk,
    State.storeNext_memOk, State.keepPlan_memOk, State.planLoad_memOk, State.loadNext_memOk, State.vput_memOk]

@[simp] theorem State.holdResult_memOk (s : State) (lc : Nat) (r : Option (Nat × BitVec 5)) : (s.holdResult lc r).mem.ok = s.mem.ok := by
  unfold State.holdResult
  (repeat' split) <;> simp

@[simp] theorem State.runChunk_memOk (s : State) (lc : Nat) (f : Frame) (e : SeqEntry) (iter k : Nat) (h : s.mem.ok) :
    (s.runChunk lc f e iter k).good := by
  unfold State.runChunk
  dsimp only
  (repeat' split) <;> simp [h]

@[simp] theorem State.seqStep_memOk (s : State) (lc : Nat) (h : s.mem.ok) : (s.seqStep lc).mem.ok := by
  unfold State.seqStep
  (repeat' split) <;> grind [Chunked.good, State.runChunk_memOk, State.setTop_mem, State.runChunk_mem]

@[simp] theorem execSequencerChunk_memOk (lc : Nat) (s : State) (h : s.mem.ok) : Out.good (execSequencerChunk lc s) := by
  simp [execSequencerChunk, h]

/-! ### Task instructions -/

@[simp] theorem State.unlessHeld_memOk (s : State) (src : Source) (part : Flight → Nat) (k : Unit → State) (h : s.mem.ok)
    (hk : ∀ x0, (k x0).mem.ok) :
    (s.unlessHeld src part k).mem.ok := by
  unfold State.unlessHeld; (repeat' split) <;> simp [*]

@[simp] theorem State.unlessStalled_memOk (s : State) (k : Unit → State) (h : s.mem.ok) (hk : ∀ x0, (k x0).mem.ok) :
    (s.unlessStalled k).mem.ok := by
  unfold State.unlessStalled; (repeat' split) <;> simp [*]

@[simp] theorem State.storesDone_memOk (s : State) (k : Unit → State) (h : s.mem.ok) (hk : ∀ x0, (k x0).mem.ok) :
    (s.storesDone k).mem.ok := by
  unfold State.storesDone; (repeat' split) <;> simp [*]

@[simp] theorem State.acked_memOk (s : State) (k : Unit → State) (h : s.mem.ok) (hk : ∀ x0, (k x0).mem.ok) : (s.acked k).mem.ok := by
  unfold State.acked; (repeat' split) <;> simp [*]

@[simp] theorem State.blockFrom_memOk (s s0 : State) (addr : Word) (n : Nat) (misaligned : Unit → State) (k : List Word → State → State)
    (h : s.mem.ok) (h1 : s0.mem.ok) (hmisaligned : ∀ x0, (misaligned x0).mem.ok) (hk : ∀ x0 t, t.mem.ok → (k x0 t).mem.ok) :
    (s.blockFrom s0 addr n misaligned k).mem.ok := by
  unfold State.blockFrom
  split
  · simp [h]
  · split
    · exact hmisaligned ()
    · exact s.afterLoads_memOk _ k h (s0.loadWords_memOk addr n h1) hk

@[simp] theorem State.block_memOk (s : State) (addr : Word) (n : Nat) (misaligned : Unit → State) (k : List Word → State → State)
    (h : s.mem.ok) (hmisaligned : ∀ x0, (misaligned x0).mem.ok) (hk : ∀ x0 t, t.mem.ok → (k x0 t).mem.ok) :
    (s.block addr n misaligned k).mem.ok :=
  s.blockFrom_memOk s addr n misaligned k h h hmisaligned hk

@[simp] theorem State.dropUnsent_memOk (s : State) (r : Rec) : (s.dropUnsent r).mem.ok = s.mem.ok := by simp [State.dropUnsent]

@[simp] theorem State.postRecord_memOk (s : State) (lc : Nat) (r : Rec) : (s.postRecord lc r).mem.ok = s.mem.ok := by
  simp [State.postRecord]

@[simp] theorem State.postByFrame_memOk (s : State) (i : Instr) (lc : Nat) (f : Frame) (addr : Word) (r : Rec) (h : s.mem.ok) :
    (s.postByFrame i lc f addr r).mem.ok := by
  unfold State.postByFrame
  dsimp only
  (repeat' split) <;> simp [h]

@[simp] theorem State.postByFe_memOk (s : State) (i : Instr) (addr : Word) (r : Rec) (h : s.mem.ok) : (s.postByFe i addr r).mem.ok := by
  unfold State.postByFe
  dsimp only
  (repeat' split) <;> simp [h]

@[simp] theorem execPost_memOk (a : Reg) (s : State) (h : s.mem.ok) : Out.good (execPost a s) := by
  refine s.run_memOk _ _ h fun v => s.unlessStalled_memOk _ h fun _ => s.acked_memOk _ h fun _ => ?_
  refine s.block_memOk _ 8 _ _ h (fun _ => by simp [h]) fun l t ht => ?_
  dsimp only
  split
  · simp [ht]
  · split
    · exact h
    · simp [ht]

@[simp] theorem State.endNow_memOk (s : State) (lc : Nat) (f : Frame) : (s.endNow lc f).mem.ok = s.mem.ok := by simp [State.endNow]

@[simp] theorem execEndTask_memOk (s : State) (h : s.mem.ok) : Out.good (execEndTask s) := by
  unfold execEndTask
  (repeat' split) <;> grind [Out.good, State.run_memOk, State.trap_memOk, State.unlessStalled_memOk, State.acked_memOk,
    State.endNow_memOk]

@[simp] theorem State.withFrame_memOk (s : State) (i : Instr) (k : Nat → Frame → List Word → State) (h : s.mem.ok)
    (hk : ∀ x0 x1 x2, (k x0 x1 x2).mem.ok) :
    Out.good (s.withFrame i k) := by
  refine s.run_memOk i _ h fun v => ?_
  split
  · exact h
  · split
    · exact h
    · exact hk _ _ v

@[simp] theorem execClaim_memOk (k : Fin 16) (s : State) (h : s.mem.ok) : Out.good (execClaim k s) := by
  grind [execClaim, Out.good, State.withFrame_memOk, State.trap_memOk, State.retire_memOk, State.setTop_mem]

@[simp] theorem execRels_memOk (k : Fin 16) (s : State) (h : s.mem.ok) : Out.good (execRels k s) := by
  grind [execRels, Out.good, State.withFrame_memOk, State.trap_memOk, State.retire_memOk, State.setTop_mem]

@[simp] theorem State.request_memOk (s : State) (i : Instr) (lc : Nat) (f : Frame) (addr : Word) (r : Rec) (h : s.mem.ok) :
    (s.request i lc f addr r).mem.ok := by
  unfold State.request
  (repeat' split) <;> simp [h]

@[simp] theorem execNtfy_memOk (a : Reg) (s : State) (h : s.mem.ok) : Out.good (execNtfy a s) := by
  refine s.withFrame_memOk _ _ h fun lc f v => s.unlessStalled_memOk _ h fun _ => s.acked_memOk _ h fun _ => ?_
  refine s.block_memOk _ 8 _ _ h (fun _ => by simp [h]) fun l t ht => ?_
  split
  · exact h
  · simp [ht]

@[simp] theorem State.advanceTo_memOk (s : State) (i : Instr) (d : Reg) (r : Nat ⊕ Word) (h : s.mem.ok) : (s.advanceTo i d r).mem.ok := by
  unfold State.advanceTo
  (repeat' split) <;> simp [h]

@[simp] theorem State.cancelQueued_memOk (s : State) (lc g st : Nat) (t : Word) : (s.cancelQueued lc g st t).2.mem.ok = s.mem.ok := by
  simp [State.cancelQueued]

@[simp] theorem execCnclT_memOk (d a : Reg) (st : Fin 64) (s : State) (h : s.mem.ok) : Out.good (execCnclT d a st s) := by
  grind [execCnclT, Out.good, State.withFrame_memOk, State.cancelQueued_memOk, State.finish_memOk]

@[simp] theorem execCnclL_memOk (d a : Reg) (p : Fin 8) (s : State) (h : s.mem.ok) : Out.good (execCnclL d a p s) := by
  grind [execCnclL, Out.good, State.withFrame_memOk, State.finish_memOk, State.install_memOk, State.noteSent_memOk, State.count_mem]

@[simp] theorem State.joinGang_memOk (s : State) (lc : Nat) (f : Frame) (m : Nat) : (s.joinGang lc f m).mem.ok = s.mem.ok := by
  simp [State.joinGang]

@[simp] theorem execGang_memOk (d : Reg) (form : GangForm) (s : State) (h : s.mem.ok) : Out.good (execGang d form s) := by
  refine s.withFrame_memOk _ _ h fun lc f v => ?_
  split
  · simp [h]
  · dsimp only
    rw [State.finish_memOk]
    split
    · exact (foldl_memOk _ (fun _ _ => by simp) _ _).trans (by simp [h])
    · exact h

@[simp] theorem execDisband_memOk (s : State) (h : s.mem.ok) : Out.good (execDisband s) := by
  grind [execDisband, Out.good, State.withFrame_memOk, State.disband_memOk, State.retire_memOk, State.setTop_mem]

@[simp] theorem execOvl_memOk (n : Fin 1024) (s : State) (h : s.mem.ok) : Out.good (execOvl n s) := by
  grind [execOvl, Out.good, State.withFrame_memOk, State.illegal_memOk, State.trap_memOk, State.openWindow_memOk, State.dropIcache_memOk,
    State.goTo_mem, State.setTop_mem]

/-! ### Engines -/

@[simp] theorem State.engMove_memOk (s : State) (x : Issuer) (src dst : Word) (n : Nat) (h : s.mem.ok) :
    (s.engMove x src dst n).good := by
  grind [State.engMove, Eng.good, State.keepRead_memOk, State.engRead_memOk, State.engWrite_memOk, State.forgetEng_memOk]

@[simp] theorem State.image_memOk (s s0 : State) (i : Instr) (lc : Nat) (f : Frame) (addr : Word) (k : Rec → State → State) (h : s.mem.ok)
    (h1 : s0.mem.ok) (hk : ∀ x0 t, t.mem.ok → (k x0 t).mem.ok) :
    (s.image s0 i lc f addr k).mem.ok := by
  refine s.blockFrom_memOk s0 addr 8 _ _ h h1 (fun _ => by simp [h]) fun l t ht => ?_
  extract_lets r r'
  split
  · exact s.illegal_memOk i h
  · split
    · simp [h]
    · split
      · simp [h]
      · exact hk _ t ht

@[simp] theorem State.engine_memOk (s : State) (i : Instr) (n : Nat) (fields : Frame → List Word → Fields)
    (k : Nat → Frame → List Word → List Word → State → State) (names : List Word → Bool) (h : s.mem.ok)
    (hk : ∀ x0 x1 x2 x3 t, t.mem.ok → (k x0 x1 x2 x3 t).mem.ok) :
    Out.good (s.engine i n fields k names) := by
  refine s.withFrame_memOk i _ h fun lc f v => s.acked_memOk _ h fun _ => ?_
  refine s.block_memOk _ n _ _ h (fun _ => by simp [h]) fun d t ht => ?_
  split
  · simp [h]
  · simp [h]
  · split
    · exact s.unlessStalled_memOk _ h fun _ => hk lc f v d t ht
    · exact hk lc f v d t ht

@[simp] theorem State.started_memOk (s : State) (i : Instr) (lc : Nat) (succ : Option Rec) : (s.started i lc succ).mem.ok = s.mem.ok := by
  unfold State.started
  (repeat' split) <;> simp

@[simp] theorem State.setFrameAt_memOk (s : State) (lc level : Nat) (x : Frame) : (s.setFrameAt lc level x).mem.ok = s.mem.ok := by
  simp [State.setFrameAt]

@[simp] theorem State.setChan_memOk (s : State) (lc level ch : Nat) (x : Chan) : (s.setChan lc level ch x).mem.ok = s.mem.ok :=
  congrArg Mem.ok (State.setChan_mem ..)

@[simp] theorem execCpy_memOk (c : Fin 2) (a b : Reg) (s : State) (h : s.mem.ok) : Out.good (execCpy c a b s) := by
  grind [execCpy, Out.good, State.engine_memOk, State.image_memOk, State.trap_memOk, State.started_memOk, State.setChan_memOk,
    State.setChan_mem]

@[simp] theorem State.takeArm_memOk (s : State) (lc : Nat) (x : Arm) (h : s.mem.ok) : (s.takeArm lc x).all (·.2.mem.ok) := by
  unfold State.takeArm
  dsimp only
  cases (span 0 4).find? fun i => ((s.core lc).arms.toList.getD i none).isNone with
  | none => rfl
  | some i =>
    rw [Option.bind_some]
    split
    · simpa using h
    · rfl

@[simp] theorem State.setArm_memOk (s : State) (lc i : Nat) (x : Option Arm) : (s.setArm lc i x).mem.ok = s.mem.ok := by
  unfold State.setArm
  (repeat' split) <;> simp

@[simp] theorem execCopyStart_memOk (lc level ch : Nat) (s : State) (h : s.mem.ok) : Out.good (execCopyStart lc level ch s) := by
  unfold execCopyStart
  dsimp only
  split
  · split
    · exact h
    · split
      · simp [h]
      · next d l _ _ _ _ =>
        split <;> rename_i heq
        · have ht : ∀ r : Nat × Arm, (s.takeArm r.1 r.2).all (·.2.mem.ok) := fun r => s.takeArm_memOk r.1 r.2 h
          cases hr : s.armRange d with
          | none => simp [hr] at heq
          | some r =>
            have ht := s.takeArm_memOk r.1 r.2 h
            rw [hr, Option.bind_some] at heq
            cases hk : s.takeArm r.1 r.2 with
            | none => simp [hk] at heq
            | some u =>
              rw [hk] at heq ht
              simp only [Option.map_some, Option.some.injEq, Prod.mk.injEq] at heq
              obtain ⟨_, rfl⟩ := heq
              simpa using ht
        · simp [h]
  · exact h

@[simp] theorem State.raise_memOk (s : State) (op : CopyOp) : (s.raise op).1.mem.ok = s.mem.ok := by
  unfold State.raise
  dsimp only
  (repeat' split) <;> simp

@[simp] theorem State.reachOn_memOk (s : State) (x : Issuer) (op : CopyOp) (h : s.mem.ok) : (s.reachOn x op).2.mem.ok := by
  grind [State.reachOn, XlSpan.good, State.engSpan_memOk]

@[simp] theorem State.routeGranule_memOk (s : State) (lc level ch g : Nat) (h : s.mem.ok) : (s.routeGranule lc level ch g).mem.ok := by
  unfold State.routeGranule
  dsimp only
  (repeat' split) <;> simp [h]
  grind [Eng.good, State.engRead_memOk]

@[simp] theorem State.landFlying_memOk (s : State) (f : Flying) (h : s.mem.ok) : (s.landFlying f).mem.ok := by
  unfold State.landFlying
  dsimp only
  split
  · simp [h]
  · rw [State.setChan_mem, State.raise_mem]
    split <;> simp [h]

@[simp] theorem State.dropFlying_memOk (s : State) (lc level ch : Nat) : (s.dropFlying lc level ch).mem.ok = s.mem.ok := by
  simp [State.dropFlying]

@[simp] theorem execCopyGranule_memOk (lc level ch g : Nat) (s : State) (h : s.mem.ok) : Out.good (execCopyGranule lc level ch g s) := by
  grind [execCopyGranule, Eng.good, Out.good, State.setChan_memOk, State.reachOn_memOk, State.engMove_memOk, State.raise_memOk,
    State.setChan_mem, State.raise_mem]

@[simp] theorem execCopyComplete_memOk (lc level ch : Nat) (s : State) (h : s.mem.ok) : Out.good (execCopyComplete lc level ch s) := by
  unfold execCopyComplete
  dsimp only
  (repeat' split) <;> simp [h]

@[simp] theorem bindStream_memOk (i : Instr) (out : Bool) (d : Fin 4) (s : State) (h : s.mem.ok) : Out.good (bindStream i out d s) := by
  grind [bindStream, Out.good, State.engine_memOk, State.image_memOk, State.trap_memOk, State.started_memOk, State.setTop_mem]

@[simp] theorem State.refill_memOk (s : State) (x : Issuer) (t : Stream) (h : s.mem.ok) : (s.refill x t).2.mem.ok := by
  grind [State.refill, Eng.good, State.engRead_memOk]

@[simp] theorem State.drainOut_memOk (s : State) (x : Issuer) (t : Stream) (h : s.mem.ok) : (s.drainOut x t).2.mem.ok := by
  grind [State.drainOut, Eng.good, State.engWrite_memOk]

@[simp] theorem execStreamElement_memOk (lc level j : Nat) (s : State) (h : s.mem.ok) : Out.good (execStreamElement lc level j s) := by
  unfold execStreamElement
  dsimp only
  (repeat' split) <;> simp [h]

@[simp] theorem gatherForm_memOk (i : Instr) (scatter : Bool) (s : State) (h : s.mem.ok) : Out.good (gatherForm i scatter s) := by
  grind [gatherForm, Out.good, State.engine_memOk, State.image_memOk, State.trap_memOk, State.started_memOk, State.setCluster_mem]

@[simp] theorem State.gatherStep_memOk (s : State) (k : Issuer) (g : Gather) (h : s.mem.ok) : (s.gatherStep k g).2.mem.ok := by
  grind [State.gatherStep, Eng.good, State.forgetEng_memOk, State.keepRead_memOk, State.engRead_memOk, State.engMove_memOk]

@[simp] theorem execGatherScatterElement_memOk (cl k : Nat) (s : State) (h : s.mem.ok) : Out.good (execGatherScatterElement cl k s) := by
  unfold execGatherScatterElement
  dsimp only
  (repeat' split) <;> simp [h]

@[simp] theorem State.addPart_memOk (s : State) (g key m : Nat) (x : Contribution) : (s.addPart g key m x).mem.ok = s.mem.ok := by
  simp [State.addPart]

@[simp] theorem State.join_memOk (s : State) (g key : Nat) (x : Contribution) : (s.join g key x).mem.ok = s.mem.ok := by simp [State.join]

@[simp] theorem State.contribute_memOk (s : State) (dev : Nat) (x : Msg) : (s.contribute dev x).mem.ok = s.mem.ok := by
  unfold State.contribute
  (repeat' split) <;> simp

@[simp] theorem execColl_memOk (a b : Reg) (s : State) (h : s.mem.ok) : Out.good (execColl a b s) := by
  grind [execColl, Out.good, State.engine_memOk, State.image_memOk, State.trap_memOk, State.started_memOk, State.join_memOk]

@[simp] theorem execCollectiveComplete_memOk (k : Nat) (s : State) (h : s.mem.ok) : Out.good (execCollectiveComplete k s) := by
  unfold execCollectiveComplete
  dsimp only
  (repeat' split) <;> simp [h]

@[simp] theorem State.futureAt_memOk (s : State) (lc : Nat) (addr : Word) (h : s.mem.ok) : (s.futureAt lc addr).good := by
  grind [State.futureAt, Acc.good, XlSpan.good, State.coreSpan_memOk]

@[simp] theorem State.take_memOk (s : State) (pa : Nat) (r : Rec) : (s.take pa r).mem.ok = s.mem.ok := by simp [State.take]

@[simp] theorem execFtake_memOk (a b : Reg) (s : State) (h : s.mem.ok) : Out.good (execFtake a b s) := by
  grind [execFtake, Acc.good, Out.good, State.withFrame_memOk, State.unlessStalled_memOk, State.acked_memOk, State.image_memOk,
    State.futureAt_memOk, State.trap_memOk, State.waited_memOk, State.started_memOk, State.take_memOk, State.leaseStores_memOk]

@[simp] theorem State.satisfy_memOk (s : State) (pa : Nat) (v : Word) : (s.satisfy pa v).mem.ok = s.mem.ok := by
  unfold State.satisfy
  dsimp only
  exact (foldl_memOk _ (fun _ _ => by simp) _ _).trans (by simp)

@[simp] theorem execFput_memOk (a b : Reg) (s : State) (h : s.mem.ok) : Out.good (execFput a b s) := by
  grind [execFput, Acc.good, Mem.ok_mk, Mem.wf_and_wf, Out.good, State.withFrame_memOk, State.acked_memOk, State.afterAcc_memOk,
    State.futureAt_memOk, State.setMem64_memOk, State.leaseStores_memOk, State.retire_memOk, State.satisfy_memOk]

@[simp] theorem execFclr_memOk (a : Reg) (s : State) (h : s.mem.ok) : Out.good (execFclr a s) := by
  grind [execFclr, Acc.good, Mem.ok_mk, Mem.wf_and_wf, Out.good, State.withFrame_memOk, State.acked_memOk, State.afterAcc_memOk,
    State.futureAt_memOk, State.leaseStores_memOk, State.retire_memOk]

/-! ### Tile tasks -/

@[simp] theorem execMxcf_memOk (a : Reg) (s : State) (h : s.mem.ok) : Out.good (execMxcf a s) := by
  grind [execMxcf, Out.good, State.engine_memOk, State.started_memOk, State.setTop_mem]

@[simp] theorem State.enqueueTask_memOk (s s1 : State) (i : Instr) (lc : Nat) (t : TileTask) (h : s.mem.ok) (h1 : s1.mem.ok) :
    (s.enqueueTask s1 i lc t).mem.ok := by
  simp [State.enqueueTask, h, h1]

@[simp] theorem execMxq_memOk (a : Reg) (s : State) (h : s.mem.ok) : Out.good (execMxq a s) := by
  grind [execMxq, Out.good, State.engine_memOk, State.trap_memOk, State.enqueueTask_memOk, State.image_memOk]

@[simp] theorem execMxdr_memOk (a b : Reg) (s : State) (h : s.mem.ok) : Out.good (execMxdr a b s) := by
  grind [execMxdr, Out.good, State.engine_memOk, State.image_memOk, State.trap_memOk, State.enqueueTask_memOk]

@[simp] theorem State.setBank_memOk (s : State) (tile b : Nat) (k : Bank) : (s.setBank tile b k).mem.ok = s.mem.ok :=
  congrArg Mem.ok (State.setBank_mem ..)

@[simp] theorem State.freeBank_memOk (s : State) (tile name lc level : Nat) : (s.freeBank tile name lc level).mem.ok = s.mem.ok := by
  unfold State.freeBank
  (repeat' split) <;> simp

@[simp] theorem State.dropChain_memOk (s : State) (cl : Nat) (c : Chain) : (s.dropChain cl c).mem.ok = s.mem.ok := by
  simp [State.dropChain]

@[simp] theorem State.closeChain_memOk (s : State) (die : Nat) (t : TileTask) : (s.closeChain die t).mem.ok = s.mem.ok := by
  simp [State.closeChain]

@[simp] theorem State.updateChain_memOk (s : State) (die : Nat) (t : TileTask) (f : Chain → Chain) :
    (s.updateChain die t f).mem.ok = s.mem.ok := by
  simp [State.updateChain]

@[simp] theorem State.endTask_memOk (s : State) (src die : Nat) (t : TileTask) (st : Word) :
    (s.endTask src die t st).mem.ok = s.mem.ok := by
  unfold State.endTask
  (repeat' split) <;> simp

@[simp] theorem State.evictChain_memOk (s : State) (cl : Nat) (c : Chain) : (s.evictChain cl c).mem.ok = s.mem.ok := by
  simp [State.evictChain]

@[simp] theorem State.openChain_memOk (s : State) (cl tile : Nat) (t : TileTask) (h : s.mem.ok) :
    (s.openChain cl tile t).all (·.mem.ok) := by
  unfold State.openChain
  dsimp only
  (repeat' split) <;> simp [h]

@[simp] theorem State.spillBank_memOk (s : State) (tile b : Nat) (h : s.mem.ok) : (s.spillBank tile b).mem.ok := by
  unfold State.spillBank
  dsimp only
  split
  · exact h
  · rw [State.setBank_mem, foldl_memOk _ fun _ _ => by simp]
    split
    · exact h
    · exact s.writeMem_memOk _ _ h

@[simp] theorem State.takeBank_memOk (s : State) (tile : Nat) (t : TileTask) (h : s.mem.ok) : (s.takeBank tile t).all (·.2.mem.ok) := by
  unfold State.takeBank
  dsimp only
  split
  · exact h
  · split
    · simpa [State.setBank_mem] using h
    · cases (s.tile tile).victim t.level with
      | none => rfl
      | some b => simpa [State.setBank_mem] using s.spillBank_memOk tile b h

@[simp] theorem State.reload_memOk (s : State) (die tile b : Nat) (t : TileTask) : (s.reload die tile b t).mem.ok = s.mem.ok := by
  unfold State.reload
  (repeat' split) <;> simp

@[simp] theorem State.stopTask_memOk (s : State) (tile : Nat) : (s.stopTask tile).mem.ok = s.mem.ok := by
  unfold State.stopTask
  dsimp only
  (repeat' split) <;> simp

@[simp] theorem State.enterEngine_memOk (s : State) (cl tile : Nat) (t : TileTask) (h : s.mem.ok) :
    (s.enterEngine cl tile t).all (·.mem.ok) := by
  grind [State.enterEngine, State.openChain_memOk, State.updateChain_memOk, State.takeBank_memOk,
    State.setBank_memOk, State.reload_memOk, State.setBank_mem, State.setTile_mem]

@[simp] theorem State.endUnissued_memOk (s : State) (cl : Nat) (t : TileTask) (h : s.mem.ok) : (s.endUnissued cl t).all (·.mem.ok) := by
  unfold State.endUnissued
  dsimp only
  (repeat' split) <;> simp [h]

@[simp] theorem State.tryIssue_memOk (s : State) (cl k : Nat) (t : TileTask) (h : s.mem.ok) : (s.tryIssue cl k t).all (·.mem.ok) := by
  grind [State.tryIssue, State.endUnissued_memOk, State.wakeTile_memOk, State.enterEngine_memOk,
    State.stopTask_memOk, State.setCluster_mem]

@[simp] theorem State.tryResume_memOk (s : State) (cl tile : Nat) (h : s.mem.ok) : (s.tryResume cl tile).all (·.mem.ok) := by
  unfold State.tryResume
  dsimp only
  (repeat' split) <;> simp [h]

@[simp] theorem execTileTaskIssue_memOk (cl : Nat) (s : State) (h : s.mem.ok) : Out.good (execTileTaskIssue cl s) := by
  have hr : ∀ l : List Nat, (l.findSome? fun x => s.tryResume cl x).all (·.mem.ok) := by
    intro l
    induction l with
    | nil => rfl
    | cons x l ih =>
      have hx := s.tryResume_memOk cl x h
      rw [List.findSome?_cons]
      split <;> rename_i heq
      · rw [heq] at hx; exact hx
      · exact ih
  have hi : ∀ (q : List TileTask) (l : List Nat), ((l.findSome? fun k => (q[k]?).bind fun t => s.tryIssue cl k t).getD s).mem.ok := by
    intro q l
    induction l with
    | nil => exact h
    | cons k l ih =>
      rw [List.findSome?_cons]
      split <;> rename_i heq
      · cases hq : q[k]? with
        | none => simp [hq] at heq
        | some t =>
          have ht := s.tryIssue_memOk cl k t h
          rw [hq, Option.bind_some] at heq
          rw [heq] at ht
          exact ht
      · exact ih
  have hs := hr (span (8 * cl) 8)
  unfold execTileTaskIssue
  split <;> rename_i heq
  · rw [heq] at hs; exact hs
  · exact hi _ _

@[simp] theorem execTileTaskForward.forwardOne_memOk (cl : Nat) (s : State) (c : Cluster) (dst : Nat) (d : Cluster) (h : s.mem.ok) :
    Out.good (execTileTaskForward.forwardOne cl s c dst d) := by
  unfold execTileTaskForward.forwardOne
  (repeat' split) <;> simp [h]

@[simp] theorem execTileTaskForward_memOk (cl : Nat) (s : State) (h : s.mem.ok) : Out.good (execTileTaskForward cl s) := by
  unfold execTileTaskForward
  dsimp only
  (repeat' split) <;> simp [h]

@[simp] theorem execMatrixKStep_memOk (tile : Nat) (s : State) (h : s.mem.ok) : Out.good (execMatrixKStep tile s) := by
  unfold execMatrixKStep
  dsimp only
  (repeat' split) <;> simp [h]

@[simp] theorem State.failTask_memOk (s : State) (tile : Nat) (t : TileTask) : (s.failTask tile t).mem.ok = s.mem.ok := by
  simp [State.failTask]

@[simp] theorem execTileTaskComplete_memOk (tile : Nat) (s : State) (h : s.mem.ok) : Out.good (execTileTaskComplete tile s) := by
  unfold execTileTaskComplete
  dsimp only
  (repeat' split) <;> simp [h]

@[simp] theorem State.endDrain_memOk (s : State) (tile : Nat) (t : TileTask) (fl : BitVec 5) :
    (s.endDrain tile t fl).mem.ok = s.mem.ok := by
  simp [State.endDrain]

@[simp] theorem execMatrixDrain_memOk (tile : Nat) (s : State) (h : s.mem.ok) : Out.good (execMatrixDrain tile s) := by
  unfold execMatrixDrain
  dsimp only
  (repeat' split) <;> simp [h]

end Sys2Proof.Machine
end


section
/-! PROOFS. The canonical form of memory (log entry 2) through walks, links, preemption, power and special registers. -/

namespace Sys2Proof.Machine

/-! ### Walks, shootdowns and migrations -/

@[simp] theorem execLeaseTick_memOk (lc : Nat) (s : State) (h : s.mem.ok) : Out.good (execLeaseTick lc s) := by
  unfold execLeaseTick
  (repeat' split) <;> simp [h]

@[simp] theorem execPageWalk_memOk (die ctx : Nat) (va : Word) (s : State) (h : s.mem.ok) : Out.good (execPageWalk die ctx va s) := by
  unfold execPageWalk
  dsimp only
  (repeat' split) <;> simp [h]

@[simp] theorem State.endWalk_memOk (s : State) (w : Walk) (x : WalkEnd) : (s.endWalk w x).mem.ok = s.mem.ok := by
  unfold State.endWalk
  (repeat' split) <;> simp

@[simp] theorem execWalkComplete_memOk (die k : Nat) (s : State) (h : s.mem.ok) : Out.good (execWalkComplete die k s) := by
  unfold execWalkComplete
  (repeat' split) <;> simp [h]

@[simp] theorem State.dropXlats_memOk (s : State) (keep : Nat → Bool) (ctx va lgsz : Nat) :
    (s.dropXlats keep ctx va lgsz).mem.ok = s.mem.ok := by
  simp [State.dropXlats]

@[simp] theorem State.dropNonleaf_memOk (s : State) (die ctx : Nat) : (s.dropNonleaf die ctx).mem.ok = s.mem.ok := by
  simp [State.dropNonleaf]

@[simp] theorem State.shootdown_memOk (s : State) (q : Nat) : (s.shootdown q).mem.ok = s.mem.ok := by simp [State.shootdown]

@[simp] theorem execShootdownGo_memOk (q : Nat) (s : State) (h : s.mem.ok) : Out.good (execShootdownGo q s) := by
  unfold execShootdownGo
  (repeat' split) <;> simp [h]

@[simp] theorem State.drainPages_memOk (s : State) (x : Shootdown) (h : s.mem.ok) : (s.drainPages x).mem.ok :=
  foldl_keeps _ (fun _ _ ht => foldl_keeps _ (fun u n hu => u.drainHeld_memOk n _ hu) _ _ ht) _ _ h

@[simp] theorem execShootdownAck_memOk (q unit : Nat) (s : State) (h : s.mem.ok) : Out.good (execShootdownAck q unit s) := by
  unfold execShootdownAck
  dsimp only
  (repeat' split) <;> simp [h]

@[simp] theorem State.pageRead_memOk (s : State) (key pa : Nat) (h : s.mem.ok) : (s.pageRead key pa).good := by
  unfold State.pageRead
  dsimp only
  (repeat' split) <;> simp [h]

@[simp] theorem State.moveTimes_memOk (s : State) (src dst size : Nat) : (s.moveTimes src dst size).mem.ok = s.mem.ok :=
  foldl_memOk _ (fun _ _ => by simp) _ _

@[simp] theorem State.pageWrite_memOk (s : State) (key pa : Nat) (bs : List Byte) (h : s.mem.ok) : (s.pageWrite key pa bs).good := by
  unfold State.pageWrite
  (repeat' split) <;> simp [h]

@[simp] theorem State.shootPage_memOk (s : State) (ctx va lgsz : Nat) : (s.shootPage ctx va lgsz).mem.ok = s.mem.ok := by
  simp [State.shootPage]

@[simp] theorem State.setMigrations_memOk (s : State) (l : List Migration) : (s.setMigrations l).mem.ok = s.mem.ok := by
  simp [State.setMigrations]

@[simp] theorem State.migrateStart_memOk (s : State) (ctx : Nat) (va pa : Word) (tier : Nat) (h : s.mem.ok) :
    (s.migrateStart ctx va pa tier).mem.ok := by
  unfold State.migrateStart
  dsimp only
  (repeat' split) <;> simp [h]

@[simp] theorem State.migrateCopy_memOk (s : State) (m : Migration) (h : s.mem.ok) : (s.migrateCopy m).1.mem.ok := by
  unfold State.migrateCopy
  dsimp only
  split
  · obtain ⟨hb, hc⟩ := (Mem.ok_iff _).1 h
    have ht : (s.moveTimes (s.physAddr m.src) (s.physAddr m.dst) (2 ^ m.lgsz)).mem.ok := by simpa using h
    obtain ⟨_, htc⟩ := (Mem.ok_iff _).1 ht
    exact (Mem.ok_iff _).2 ⟨wf_moveCells _ _ _ _ hb, htc⟩
  · have hr := s.pageRead_memOk (migrationKey m.ctx) (m.src + m.moved) h
    split <;> rename_i heq <;> rw [heq] at hr
    · exact hr
    · exact hr
    · exact hr
    · next bs s1 =>
      have hw := s1.pageWrite_memOk (migrationKey m.ctx) (m.dst + m.moved) bs hr
      split <;> rename_i heq2 <;> rw [heq2] at hw
      · exact hw
      · exact hw
      · exact hw
      · have hw2 := s.pageWrite_memOk (migrationKey m.ctx) (m.dst + m.moved) bs h
        split
        · next heq3 => rw [heq3] at hw2; exact hw2
        · exact h

@[simp] theorem State.migrateStop_memOk (s : State) (m : Migration) (h : s.mem.ok) : (s.migrateStop m).mem.ok := by
  simp [State.migrateStop, h]

@[simp] theorem State.moveFutures_memOk (s : State) (m : Migration) : (s.moveFutures m).mem.ok = s.mem.ok := by simp [State.moveFutures]
@[simp] theorem State.migrateOn_memOk (s : State) (m : Migration) (h : s.mem.ok) : (s.migrateOn m).mem.ok := by simp [State.migrateOn, h]

@[simp] theorem execTierMigration_memOk (ctx : Nat) (va pa : Word) (tier : Nat) (s : State) (h : s.mem.ok) :
    Out.good (execTierMigration ctx va pa tier s) := by
  unfold execTierMigration
  (repeat' split) <;> simp [h]

/-! ### Links and remote accesses -/

@[simp] theorem State.answerEng_memOk (s : State) (key : Nat) (addr : Word) (a : Answer) :
    (s.answerEng key addr a).mem.ok = s.mem.ok := by
  simp [State.answerEng]

@[simp] theorem State.answer_memOk (s : State) (r : RemoteReq) (a : Answer) : (s.answer r a).mem.ok = s.mem.ok := by
  unfold State.answer
  (repeat' split) <;> simp

@[simp] theorem State.cutRoutes_memOk (s : State) : s.cutRoutes.mem.ok = s.mem.ok := by simp [State.cutRoutes]

@[simp] theorem State.resend_memOk (s : State) (link : Nat) (f : Flit) : (s.resend link f).mem.ok = s.mem.ok := by
  unfold State.resend
  (repeat' split) <;> simp

@[simp] theorem State.sendControl_memOk (s : State) (link : Nat) (type : BitVec 4) : (s.sendControl link type).mem.ok = s.mem.ok := by
  simp [State.sendControl]

@[simp] theorem State.acceptFlit_memOk (s : State) (link : Nat) (f : Flit) : (s.acceptFlit link f).mem.ok = s.mem.ok := by
  unfold State.acceptFlit
  dsimp only
  (repeat' split) <;> simp

@[simp] theorem State.receiveFlit_memOk (s : State) (link : Nat) (f : Flit) (good : Bool) :
    (s.receiveFlit link f good).mem.ok = s.mem.ok := by
  simp [State.receiveFlit]

@[simp] theorem execFerryFlitReceive_memOk (link : Nat) (crc : BitVec 32) (f : Flit) (s : State) (h : s.mem.ok) :
    Out.good (execFerryFlitReceive link crc f s) := by
  unfold execFerryFlitReceive
  (repeat' split) <;> simp [h]

@[simp] theorem execFerryNakReceive_memOk (link : Nat) (seq : BitVec 12) (s : State) (h : s.mem.ok) :
    Out.good (execFerryNakReceive link seq s) := by
  unfold execFerryNakReceive
  (repeat' split) <;> simp [h]

@[simp] theorem execFerryLinkRetrain_memOk (link : Nat) (s : State) (h : s.mem.ok) : Out.good (execFerryLinkRetrain link s) := by
  unfold execFerryLinkRetrain
  dsimp only
  (repeat' split) <;> simp [h]

@[simp] theorem State.linkDown_memOk (s : State) (link : Nat) : (s.linkDown link).mem.ok = s.mem.ok := by simp [State.linkDown]

@[simp] theorem execFerryRetrainComplete_memOk (link : Nat) (ok : Bool) (s : State) (h : s.mem.ok) :
    Out.good (execFerryRetrainComplete link ok s) := by
  unfold execFerryRetrainComplete
  dsimp only
  (repeat' split) <;> simp [h]

@[simp] theorem State.linkIdle_memOk (s : State) (link : Nat) : (s.linkIdle link).mem.ok = s.mem.ok := by simp [State.linkIdle]
@[simp] theorem State.wireTaken_memOk (s : State) (link : Nat) : (s.wireTaken link).mem.ok = s.mem.ok := by simp [State.wireTaken]

@[simp] theorem State.remoteWindow_memOk (s : State) (src who lc off : Nat) (op : RemoteOp) (h : s.mem.ok) :
    (s.remoteWindow src who lc off op).good := by
  unfold State.remoteWindow
  dsimp only
  (repeat' split) <;> simp [h]

@[simp] theorem State.remoteHbm_memOk (s : State) (pa : Nat) (op : RemoteOp) (h : s.mem.ok) : (s.remoteHbm pa op).good := by
  unfold State.remoteHbm
  dsimp only
  (repeat' split) <;> simp [h]

@[simp] theorem State.ownAccess_memOk (s : State) (src who : Nat) (addr : Word) (op : RemoteOp) (h : s.mem.ok) :
    (s.ownAccess src who addr op).good := by
  unfold State.ownAccess
  (repeat' split) <;> simp [h]

@[simp] theorem State.callAt_memOk (s : State) (addr : Word) : (s.callAt addr).mem.ok = s.mem.ok := by
  unfold State.callAt
  (repeat' split) <;> simp

@[simp] theorem execRemoteAccessArrival_memOk (src lc : Nat) (addr : Word) (op : RemoteOp) (s : State) (h : s.mem.ok) :
    Out.good (execRemoteAccessArrival src lc addr op s) := by
  grind [execRemoteAccessArrival, Out.good, Owned.good, State.takeRx_memOk, State.ownAccess_memOk,
    State.sendMsg_memOk, State.callAt_memOk]

@[simp] theorem State.ackStore_memOk (s : State) (lc level : Nat) (fails : Option (Nat × Word)) :
    (s.ackStore lc level fails).mem.ok = s.mem.ok := by
  unfold State.ackStore
  (repeat' split) <;> simp

@[simp] theorem State.takeRequest_memOk (s : State) (lc level : Nat) (addr : Word) (h : s.mem.ok) :
    (s.takeRequest lc level addr).all (·.2.mem.ok) := by
  unfold State.takeRequest
  rw [Option.all_map]
  cases takeFirst (fun r => askedAt lc level addr r || askedAt lc (level + 8) addr r) s.prog.remote with
  | none => rfl
  | some r => exact h

@[simp] theorem execRemoteResponseArrival_memOk (lc level : Nat) (ok : Bool) (data : List Byte) (s : State) (h : s.mem.ok) :
    Out.good (execRemoteResponseArrival lc level ok data s) := by
  grind [execRemoteResponseArrival, Out.good, State.takeRx_memOk, State.takeRequest_memOk,
    State.ackStore_memOk, State.answer_memOk]

@[simp] theorem execRemoteRejectArrival_memOk (lc level : Nat) (addr : Word) (s : State) (h : s.mem.ok) :
    Out.good (execRemoteRejectArrival lc level addr s) := by
  grind [execRemoteRejectArrival, Out.good, State.takeRx_memOk, State.takeRequest_memOk,
    State.ackStore_memOk, State.answer_memOk, State.count_mem]

@[simp] theorem State.answerHost_memOk (s : State) (tag : Nat) (r : HostReq) (a : Answer) : (s.answerHost tag r a).mem.ok = s.mem.ok := by
  unfold State.answerHost
  (repeat' split) <;> simp

@[simp] theorem execHostCompletionArrival_memOk (tag : Nat) (st : HostStatus) (s : State) (h : s.mem.ok) :
    Out.good (execHostCompletionArrival tag st s) := by
  unfold execHostCompletionArrival
  dsimp only
  (repeat' split) <;> simp [h]

@[simp] theorem execHostRequestTimeout_memOk (tag : Nat) (s : State) (h : s.mem.ok) : Out.good (execHostRequestTimeout tag s) := by
  unfold execHostRequestTimeout
  (repeat' split) <;> simp [h]

@[simp] theorem execD2dEdgeRetrain_memOk (edge modules rate : Nat) (s : State) (h : s.mem.ok) :
    Out.good (execD2dEdgeRetrain edge modules rate s) := by
  unfold execD2dEdgeRetrain
  (repeat' split) <;> simp [h]

@[simp] theorem execD2dRetry_memOk (edge : Nat) (s : State) (h : s.mem.ok) : Out.good (execD2dRetry edge s) := by
  unfold execD2dRetry
  (repeat' split) <;> simp [h]

@[simp] theorem State.setPort_memOk (s : State) (p : Nat) (x : Port) : (s.setPort p x).mem.ok = s.mem.ok := by
  unfold State.setPort
  (repeat' split) <;> simp

@[simp] theorem execAtticPortFail_memOk (port : Nat) (s : State) (h : s.mem.ok) : Out.good (execAtticPortFail port s) := by
  unfold execAtticPortFail
  (repeat' split) <;> simp [h]

@[simp] theorem execSramScrub_memOk (die : Nat) (k : SramKind) (corrected : Bool) (s : State) (h : s.mem.ok) :
    Out.good (execSramScrub die k corrected s) := by
  unfold execSramScrub
  (repeat' split) <;> simp [h]

/-! ### Preemption -/

@[simp] theorem State.setPart_memOk (s : State) (p state result : Nat) : (s.setPart p state result).mem.ok = s.mem.ok := by
  simp [State.setPart]

@[simp] theorem State.endCmd_memOk (s : State) (p state result : Nat) : (s.endCmd p state result).mem.ok = s.mem.ok := by
  simp [State.endCmd]

@[simp] theorem State.refuseCmd_memOk (s : State) (p : Nat) : (s.refuseCmd p).mem.ok = s.mem.ok := by simp [State.refuseCmd]

@[simp] theorem State.beginCmd_memOk (s : State) (p cmd state : Nat) : (s.beginCmd p cmd state).mem.ok = s.mem.ok := by
  simp [State.beginCmd]

@[simp] theorem State.eachCore_memOk (s : State) (p : Nat) (f : State → Nat → State) (h : s.mem.ok)
    (hf : ∀ t x1, t.mem.ok → (f t x1).mem.ok) :
    (s.eachCore p f).mem.ok :=
  foldl_keeps f hf _ s h

@[simp] theorem State.dropVictim_memOk (s : State) (die : Nat) (r : Rec) : (s.dropVictim die r).mem.ok = s.mem.ok := by
  simp [State.dropVictim]

@[simp] theorem State.dropVictims_memOk (s : State) (die : Nat) (l : List Rec) : (s.dropVictims die l).mem.ok = s.mem.ok := by
  simp [State.dropVictims]

@[simp] theorem State.killStrays_memOk (s : State) (hit : Victim) (lc : Nat) : (s.killStrays hit lc).mem.ok = s.mem.ok := by
  simp [State.killStrays]

@[simp] theorem State.killFrames_memOk (s : State) (hit : Victim) (lc : Nat) : (s.killFrames hit lc).mem.ok = s.mem.ok := by
  simp [State.killFrames]

@[simp] theorem State.killQueued_memOk (s : State) (hit : Victim) (lc : Nat) : (s.killQueued hit lc).mem.ok = s.mem.ok := by
  simp [State.killQueued]

@[simp] theorem State.killChan_memOk (s : State) (hit : Victim) (lc level ch : Nat) : (s.killChan hit lc level ch).mem.ok = s.mem.ok := by
  unfold State.killChan
  dsimp only
  (repeat' split) <;> simp

@[simp] theorem State.killChans_memOk (s : State) (hit : Victim) (lc : Nat) : (s.killChans hit lc).mem.ok = s.mem.ok := by
  simp [State.killChans]

@[simp] theorem State.killCluster_memOk (s : State) (hit : Victim) (dead : Nat → Nat → Bool) (cl : Nat) :
    (s.killCluster hit dead cl).mem.ok = s.mem.ok := by
  unfold State.killCluster
  dsimp only
  rw [State.dropVictims_memOk, foldl_memOk _ fun _ _ => State.dropChain_memOk .., foldl_memOk _ fun _ _ => State.engDone_memOk ..,
    foldl_memOk]
  · simp
  · intro t x; simp

@[simp] theorem State.killLandings_memOk (s : State) (hit : Victim) : (s.killLandings hit).mem.ok = s.mem.ok := by
  simp [State.killLandings]

@[simp] theorem State.killFlights_memOk (s : State) (hit : Victim) : (s.killFlights hit).mem.ok = s.mem.ok := by
  unfold State.killFlights
  dsimp only
  refine (foldl_memOk _ (fun t x => ?_) _ _).trans ?_
  · split <;> simp
  · simp

@[simp] theorem State.killSlices_memOk (s : State) (hit : Victim) : (s.killSlices hit).mem.ok = s.mem.ok := by simp [State.killSlices]

@[simp] theorem State.killRequests_memOk (s : State) (hit : Victim) (dead : Nat → Nat → Bool) :
    (s.killRequests hit dead).mem.ok = s.mem.ok := by
  simp [State.killRequests]

@[simp] theorem State.killSlots_memOk (s : State) (hit : Victim) : (s.killSlots hit).mem.ok = s.mem.ok := by simp [State.killSlots]

@[simp] theorem State.abandonSwap_memOk (s : State) (die : Nat) : (s.abandonSwap die).mem.ok = s.mem.ok := by
  unfold State.abandonSwap
  split
  · rfl
  · dsimp only
    rw [State.setDie_mem]
    exact foldl_memOk _ (fun _ _ => by simp) _ _

@[simp] theorem State.abandonSwaps_memOk (s : State) (p : Nat) (h : s.mem.ok) : (s.abandonSwaps p).mem.ok := by
  grind [State.abandonSwaps, State.eachCore_memOk, State.abandonSwap_memOk]

@[simp] theorem State.killPart_memOk (s : State) (p : Nat) (h : s.mem.ok) : (s.killPart p).mem.ok := by simp [State.killPart, h]

@[simp] theorem execPreemptKill_memOk (p : Nat) (s : State) (h : s.mem.ok) : Out.good (execPreemptKill p s) := by
  unfold execPreemptKill
  (repeat' split) <;> simp [h]

@[simp] theorem State.unmapGone_memOk (s : State) (lc : Nat) : (s.unmapGone lc).mem.ok = s.mem.ok := by simp [State.unmapGone]

@[simp] theorem execKillComplete_memOk (p : Nat) (s : State) (h : s.mem.ok) : Out.good (execKillComplete p s) := by
  unfold execKillComplete
  (repeat' split) <;> simp [h]

@[simp] theorem State.haltPart_memOk (s : State) (p : Nat) (h : s.mem.ok) : (s.haltPart p).mem.ok := by simp [State.haltPart, h]

@[simp] theorem execPreemptHalt_memOk (p : Nat) (s : State) (h : s.mem.ok) : Out.good (execPreemptHalt p s) := by
  unfold execPreemptHalt
  (repeat' split) <;> simp [h]

@[simp] theorem execPreemptHaltComplete_memOk (p : Nat) (s : State) (h : s.mem.ok) : Out.good (execPreemptHaltComplete p s) := by
  unfold execPreemptHaltComplete
  dsimp only
  (repeat' split) <;> simp [h]

@[simp] theorem State.releasePart_memOk (s : State) (p : Nat) (h : s.mem.ok) : (s.releasePart p).mem.ok := by
  grind [State.releasePart, State.eachCore_memOk, State.setCore_mem]

@[simp] theorem State.resumePart_memOk (s : State) (p : Nat) (h : s.mem.ok) : (s.resumePart p).mem.ok := by simp [State.resumePart, h]

@[simp] theorem execPreemptResume_memOk (p : Nat) (s : State) (h : s.mem.ok) : Out.good (execPreemptResume p s) := by
  unfold execPreemptResume
  (repeat' split) <;> simp [h]

@[simp] theorem State.putWords_memOk (s : State) (b : Nat) (l : Words) (h : s.mem.ok) : (s.putWords b l).mem.ok :=
  foldl_keeps _ (fun t _ ht => t.setMem64_memOk _ _ ht) l s h

@[simp] theorem State.zeroRange_memOk (s : State) (b n : Nat) (h : s.mem.ok) : (s.zeroRange b n).mem.ok := by
  obtain ⟨hb, hc⟩ := (Mem.ok_iff _).1 h
  exact (Mem.ok_iff _).2 ⟨wf_filter _ _ hb, hc⟩

@[simp] theorem State.saveBlock_memOk (s : State) (b lc : Nat) (h : s.mem.ok) : (s.saveBlock b lc).mem.ok := by
  unfold State.saveBlock
  have hs := s.putWords_memOk b (s.blockWords lc) h
  obtain ⟨hb, hc⟩ := (Mem.ok_iff _).1 hs
  exact (Mem.ok_iff _).2 ⟨wf_copyCells _ _ _ _ _ hb, hc⟩

@[simp] theorem State.dropTasks_memOk (s : State) (p : Nat) : (s.dropTasks p).mem.ok = s.mem.ok :=
  (foldl_memOk _ (fun _ _ => by simp) _ _).trans (foldl_memOk _ (fun _ _ => by simp) _ _)

@[simp] theorem State.spillPart_memOk (s : State) (p : Nat) (h : s.mem.ok) : (s.spillPart p).mem.ok := by
  refine foldl_keeps _ (fun t x ht => foldl_keeps _ (fun u b hu => ?_) _ _ ht) _ _ h
  split
  · split
    · exact u.spillBank_memOk _ _ hu
    · exact hu
  · exact hu

@[simp] theorem State.writeImage_memOk (s : State) (p : Nat) (h : s.mem.ok) : (s.writeImage p).mem.ok := by
  unfold State.writeImage
  dsimp only
  rw [State.setPreemption_mem, foldl_memOk _ fun _ _ => by simp]
  refine foldl_keeps _ (fun t x ht => t.putWords_memOk _ _ ht) _ _ ?_
  refine foldl_keeps _ (fun t x ht => t.saveBlock_memOk _ _ ht) _ _ ?_
  refine State.putWords_memOk _ _ _ (State.zeroRange_memOk _ _ _ ?_)
  rw [State.dropTasks_memOk]
  exact s.spillPart_memOk p h

@[simp] theorem State.savePart_memOk (s : State) (p : Nat) : (s.savePart p).mem.ok = s.mem.ok := by simp [State.savePart]

@[simp] theorem execPreemptSave_memOk (p : Nat) (s : State) (h : s.mem.ok) : Out.good (execPreemptSave p s) := by
  unfold execPreemptSave
  dsimp only
  (repeat' split) <;> simp [h]

@[simp] theorem State.loadBlock_memOk (s : State) (b lc : Nat) (h : s.mem.ok) : (s.loadBlock b lc).mem.ok := by
  obtain ⟨hb, hc⟩ := (Mem.ok_iff _).1 h
  exact (Mem.ok_iff _).2 ⟨hb, wf_copyCells _ _ _ _ _ hc⟩

@[simp] theorem State.putTask_memOk (s : State) (x : Nat × TileTask) : (s.putTask x).mem.ok = s.mem.ok := by simp [State.putTask]

@[simp] theorem State.moveChains_memOk (s : State) (lc die : Nat) : (s.moveChains lc die).mem.ok = s.mem.ok := by
  unfold State.moveChains
  split
  · rfl
  · exact foldl_memOk _ (fun _ _ => by simp) _ _

@[simp] theorem State.restorePart_memOk (s : State) (p : Nat) : (s.restorePart p).mem.ok = s.mem.ok := by simp [State.restorePart]
@[simp] theorem State.regang_memOk (s : State) (lc : Nat) : (s.regang lc).mem.ok = s.mem.ok := by simp [State.regang]

@[simp] theorem State.readImage_memOk (s : State) (p b : Nat) (phys : List Nat) (h : s.mem.ok) : (s.readImage p b phys).mem.ok := by
  unfold State.readImage
  dsimp only
  rw [State.setPreemption_mem, foldl_memOk _ fun _ _ => State.putTask_memOk .., foldl_memOk _ fun _ _ => State.regang_memOk ..]
  refine foldl_keeps _ (fun t i ht => t.loadBlock_memOk _ _ ht) _ _ ?_
  exact (foldl_memOk _ (fun _ _ => by simp) _ _).trans h

@[simp] theorem execPreemptRestore_memOk (p : Nat) (phys : List Nat) (s : State) (h : s.mem.ok) :
    Out.good (execPreemptRestore p phys s) := by
  unfold execPreemptRestore
  dsimp only
  (repeat' split) <;> simp [h]

@[simp] theorem State.preemptCmd_memOk (s : State) (p cmd : Nat) (h : s.mem.ok) : (s.preemptCmd p cmd).mem.ok := by
  unfold State.preemptCmd
  (repeat' split) <;> simp [h]

/-! ### Power -/

@[simp] theorem State.switchTile_memOk (s : State) (t : Nat) : (s.switchTile t).mem.ok = s.mem.ok := by simp [State.switchTile]
@[simp] theorem State.switchTiles_memOk (s : State) (r : Nat) : (s.switchTiles r).mem.ok = s.mem.ok := by simp [State.switchTiles]
@[simp] theorem State.addEnergy_memOk (s : State) (t n : Nat) : (s.addEnergy t n).mem.ok = s.mem.ok := by simp [State.addEnergy]
@[simp] theorem State.chargeRail_memOk (s : State) (r : Nat) : (s.chargeRail r).mem.ok = s.mem.ok := by simp [State.chargeRail]

@[simp] theorem State.setLevel_memOk (s : State) (r : Nat) (f : Rail → Rail) : (s.setLevel r f).mem.ok = s.mem.ok := by
  simp [State.setLevel]

@[simp] theorem State.retune_memOk (s : State) (r : Nat) : (s.retune r).mem.ok = s.mem.ok := by simp [State.retune]
@[simp] theorem State.retuneAll_memOk (s : State) : s.retuneAll.mem.ok = s.mem.ok := by simp [State.retuneAll]
@[simp] theorem State.retuneCore_memOk (s : State) (lc : Nat) : (s.retuneCore lc).mem.ok = s.mem.ok := by simp [State.retuneCore]

@[simp] theorem execRailSettle_memOk (rail : Nat) (s : State) (h : s.mem.ok) : Out.good (execRailSettle rail s) := by
  unfold execRailSettle
  dsimp only
  (repeat' split) <;> simp [h]

@[simp] theorem execRailHoldExpire_memOk (rail : Nat) (s : State) (h : s.mem.ok) : Out.good (execRailHoldExpire rail s) := by
  unfold execRailHoldExpire
  (repeat' split) <;> simp [h]

@[simp] theorem State.railLevel_memOk (s : State) (rail code : Nat) : (s.railLevel rail code).mem.ok = s.mem.ok := by
  unfold State.railLevel
  (repeat' split) <;> simp

@[simp] theorem execRailDescentStop_memOk (rail : Nat) (s : State) (h : s.mem.ok) : Out.good (execRailDescentStop rail s) := by
  unfold execRailDescentStop
  (repeat' split) <;> simp [h]

@[simp] theorem execFrequencySwitchComplete_memOk (tile : Nat) (s : State) (h : s.mem.ok) :
    Out.good (execFrequencySwitchComplete tile s) := by
  unfold execFrequencySwitchComplete
  dsimp only
  (repeat' split) <;> simp [h]

@[simp] theorem State.writeOpreq_memOk (s : State) (lc : Nat) (v : BitVec 5) : (s.writeOpreq lc v).mem.ok = s.mem.ok := by
  simp [State.writeOpreq]

@[simp] theorem State.answerOpreq_memOk (s : State) (lc result : Nat) : (s.answerOpreq lc result).mem.ok = s.mem.ok := by
  simp [State.answerOpreq]

@[simp] theorem State.denyOpreq_memOk (s : State) (lc result : Nat) : (s.denyOpreq lc result).mem.ok = s.mem.ok := by
  simp [State.denyOpreq]

@[simp] theorem execOpreqDecide_memOk (lc watts milliwatts : Nat) (s : State) (h : s.mem.ok) :
    Out.good (execOpreqDecide lc watts milliwatts s) := by
  unfold execOpreqDecide
  dsimp only
  (repeat' split) <;> simp [h]

@[simp] theorem State.sampleCore_memOk (s : State) (lc : Nat) : (s.sampleCore lc).mem.ok = s.mem.ok := by simp [State.sampleCore]

@[simp] theorem State.askVotes_memOk (s : State) (lcs : List Nat) : (s.askVotes lcs).mem.ok = s.mem.ok := by
  unfold State.askVotes
  refine foldl_memOk _ (fun t p => ?_) _ _
  dsimp only
  split
  · rfl
  · simp

@[simp] theorem execPowerGovernorSample_memOk (die : Nat) (s : State) (h : s.mem.ok) : Out.good (execPowerGovernorSample die s) := by
  unfold execPowerGovernorSample
  (repeat' split) <;> simp [h]

@[simp] theorem execPowerTrip_memOk (s : State) (h : s.mem.ok) : Out.good (execPowerTrip s) := by
  unfold execPowerTrip
  (repeat' split) <;> simp [h]

@[simp] theorem execPowerTripEnd_memOk (s : State) (h : s.mem.ok) : Out.good (execPowerTripEnd s) := by
  unfold execPowerTripEnd
  (repeat' split) <;> simp [h]

@[simp] theorem execSleepHoldExpire_memOk (tile : Nat) (deep : Bool) (s : State) (h : s.mem.ok) :
    Out.good (execSleepHoldExpire tile deep s) := by
  unfold execSleepHoldExpire
  (repeat' split) <;> simp [h]

@[simp] theorem State.dropSlots_memOk (s : State) (tile : Nat) : (s.dropSlots tile).mem.ok = s.mem.ok := by simp [State.dropSlots]
@[simp] theorem State.losesAt_memOk (s : State) (tile d : Nat) : (s.losesAt tile d).mem.ok = s.mem.ok := by simp [State.losesAt]

@[simp] theorem execSleepEntryComplete_memOk (tile : Nat) (s : State) (h : s.mem.ok) : Out.good (execSleepEntryComplete tile s) := by
  unfold execSleepEntryComplete
  (repeat' split) <;> simp [h]

@[simp] theorem execSleepD3Enter_memOk (tile : Nat) (s : State) (h : s.mem.ok) : Out.good (execSleepD3Enter tile s) := by
  unfold execSleepD3Enter
  (repeat' split) <;> simp [h]

@[simp] theorem execInrushGrant_memOk (rail : Nat) (s : State) (h : s.mem.ok) : Out.good (execInrushGrant rail s) := by
  unfold execInrushGrant
  dsimp only
  (repeat' split) <;> simp [h]

@[simp] theorem State.markEarly_memOk (s : State) (lcs : List Nat) : (s.markEarly lcs).mem.ok = s.mem.ok := by simp [State.markEarly]

@[simp] theorem State.beginHold_memOk (s : State) (die : Nat) : (s.beginHold die).mem.ok = s.mem.ok := by
  unfold State.beginHold
  split
  · rfl
  · split
    · rfl
    · split
      · dsimp only
        split <;> simp
      · dsimp only
        rw [State.setDie_mem, State.markEarly_memOk]
        exact foldl_memOk _ (fun _ _ => by simp) _ _

@[simp] theorem execWakeComplete_memOk (tile : Nat) (s : State) (h : s.mem.ok) : Out.good (execWakeComplete tile s) := by
  unfold execWakeComplete
  (repeat' split) <;> simp [h]

@[simp] theorem execDroopDetect_memOk (rail : Nat) (s : State) (h : s.mem.ok) : Out.good (execDroopDetect rail s) := by
  unfold execDroopDetect
  (repeat' split) <;> simp [h]

@[simp] theorem execMatrixColumnRamp_memOk (tile : Nat) (s : State) (h : s.mem.ok) : Out.good (execMatrixColumnRamp tile s) := by
  unfold execMatrixColumnRamp
  dsimp only
  (repeat' split) <;> simp [h]

/-! ### Rotation -/

@[simp] theorem State.startSwap_memOk (s : State) (die : Nat) (x : Swap) : (s.startSwap die x).mem.ok = s.mem.ok := by
  simp [State.startSwap]

@[simp] theorem execRotationInterval_memOk (die : Nat) (s : State) (h : s.mem.ok) : Out.good (execRotationInterval die s) := by
  unfold execRotationInterval
  (repeat' split) <;> simp [h]

@[simp] theorem execL2pHoldAck_memOk (lc stop : Nat) (s : State) (h : s.mem.ok) : Out.good (execL2pHoldAck lc stop s) := by
  unfold execL2pHoldAck
  dsimp only
  (repeat' split) <;> simp [h]

@[simp] theorem State.swapIcaches_memOk (s : State) (a b : Nat) : (s.swapIcaches a b).mem.ok = s.mem.ok := by simp [State.swapIcaches]

@[simp] theorem State.dropSlotXlats_memOk (s : State) (a b : Nat) : (s.dropSlotXlats a b).mem.ok = s.mem.ok := by
  simp [State.dropSlotXlats]

@[simp] theorem State.swapChains_memOk (s : State) (a b : Nat) : (s.swapChains a b).mem.ok = s.mem.ok :=
  foldl_memOk _ (fun _ _ => by simp) _ _

@[simp] theorem State.moveQueued_memOk (s : State) (lcs : List Nat) (from_ dst : Nat) :
    (s.moveQueued lcs from_ dst).mem.ok = s.mem.ok := by
  simp [State.moveQueued]

@[simp] theorem State.moveTiles_memOk (s : State) (a b : Nat) : (s.moveTiles a b).mem.ok = s.mem.ok := by simp [State.moveTiles]

@[simp] theorem execRotationQuiesce_memOk (die : Nat) (s : State) (h : s.mem.ok) : Out.good (execRotationQuiesce die s) := by
  unfold execRotationQuiesce
  dsimp only
  (repeat' split) <;> simp [h]

@[simp] theorem State.creditTile_memOk (s : State) (t : Nat) : (s.creditTile t).mem.ok = s.mem.ok := by simp [State.creditTile]

@[simp] theorem State.rerunAt_memOk (lc : Nat) (s : State) (level : Nat) : (State.rerunAt lc s level).mem.ok = s.mem.ok := by
  unfold State.rerunAt
  (repeat' split) <;> simp

@[simp] theorem State.rerunMoved_memOk (s old : State) (lc : Nat) (h : s.mem.ok) : (s.rerunMoved old lc).mem.ok := by
  simp [State.rerunMoved, h]

@[simp] theorem execRotationRemap_memOk (die : Nat) (s : State) (h : s.mem.ok) : Out.good (execRotationRemap die s) := by
  unfold execRotationRemap
  split
  · exact h
  · next x _ =>
    split
    · exact h
    · dsimp only
      have hk : ∀ u : State, u.mem.ok → ((s.swapCores x).foldl (fun s' lc => s'.rerunMoved s lc) u).mem.ok :=
        fun u hu => foldl_keeps _ (fun t lc ht => t.rerunMoved_memOk s lc ht) _ _ hu
      simp only [Out.good_eq, State.memOk_ite, State.count_mem, State.countBy_mem, ite_self]
      refine hk _ (((foldl_memOk _ (fun _ _ => State.retune_memOk ..) _ _).trans ?_).trans h)
      refine (congrArg Mem.ok (State.setDie_mem ..)).trans ?_
      refine (foldl_memOk _ (fun _ _ => by simp) _ _).trans ?_
      exact (foldl_memOk _ (fun _ _ => State.creditTile_memOk ..) _ _).trans (foldl_memOk _ (fun _ _ => State.chargeRail_memOk ..) _ _)

@[simp] theorem execMovedCoreWriteArrival_memOk (lc off : Nat) (data : List Byte) (s : State) (h : s.mem.ok) :
    Out.good (execMovedCoreWriteArrival lc off data s) := by
  unfold execMovedCoreWriteArrival
  (repeat' split) <;> simp [h]

@[simp] theorem execThermalEmergency_memOk (tile : Nat) (s : State) (h : s.mem.ok) : Out.good (execThermalEmergency tile s) := by
  unfold execThermalEmergency
  dsimp only
  (repeat' split) <;> simp [h]

@[simp] theorem execEmergencyMigration_memOk (tile : Nat) (s : State) (h : s.mem.ok) : Out.good (execEmergencyMigration tile s) := by
  unfold execEmergencyMigration
  dsimp only
  (repeat' split) <;> simp [h]

@[simp] theorem execEmergencyRotation_memOk (tile : Nat) (s : State) (h : s.mem.ok) : Out.good (execEmergencyRotation tile s) := by
  unfold execEmergencyRotation
  dsimp only
  (repeat' split) <;> simp [h]

@[simp] theorem execThermalRecover_memOk (tile : Nat) (s : State) (h : s.mem.ok) : Out.good (execThermalRecover tile s) := by
  unfold execThermalRecover
  dsimp only
  (repeat' split) <;> simp [h]

@[simp] theorem execThermalTrip_memOk (tile : Nat) (s : State) (h : s.mem.ok) : Out.good (execThermalTrip tile s) := by
  unfold execThermalTrip
  dsimp only
  (repeat' split) <;> simp [h]

/-! ### Front-end tables -/

@[simp] theorem State.fillFutures_memOk (s : State) (p : Nat) : (s.fillFutures p).mem.ok = s.mem.ok := by simp [State.fillFutures]

@[simp] theorem State.feAfter_memOk (s : State) (tbl idx : Nat) (w : Word) (old : State) (h : s.mem.ok) :
    (s.feAfter tbl idx w old).mem.ok := by
  unfold State.feAfter
  (repeat' split) <;> simp [h]

@[simp] theorem State.feWrite_memOk (s : State) (tbl idx : Nat) (w : Word) (h : s.mem.ok) : (s.feWrite tbl idx w).mem.ok := by
  simp [State.feWrite, h]

@[simp] theorem State.feRead_memOk (s : State) (tbl idx : Nat) : (s.feRead tbl idx).2.mem.ok = s.mem.ok := by
  unfold State.feRead
  (repeat' split) <;> simp

@[simp] theorem execFedataWrite_memOk (w : Word) (s : State) (h : s.mem.ok) : Out.good (execFedataWrite w s) := by
  unfold execFedataWrite
  dsimp only
  (repeat' split) <;> simp [h]

@[simp] theorem execCounterReadClear_memOk (code inst : Nat) (s : State) (h : s.mem.ok) :
    Out.good (execCounterReadClear code inst s) := by
  unfold execCounterReadClear
  (repeat' split) <;> simp [h]

/-! ### Special registers -/

@[simp] theorem State.feReg_memOk (s : State) (k n : Nat) (h : s.mem.ok) : (s.feReg k n).all (·.2.mem.ok) := by
  unfold State.feReg
  dsimp only
  (repeat' split) <;> simp [h]

@[simp] theorem State.sysReg_memOk (s : State) (n : Nat) (h : s.mem.ok) : (s.sysReg n).all (·.2.mem.ok) := by
  unfold State.sysReg
  split
  · cases s.top _ with
    | none => rfl
    | some f =>
      rw [Option.bind_some, Option.all_map]
      cases s.coreReg _ f n with
      | none => rfl
      | some w => exact h
  · exact s.feReg_memOk _ n h

@[simp] theorem execMfs_memOk (d : Reg) (r : BitVec 12) (s : State) (h : s.mem.ok) : Out.good (execMfs d r s) := by
  grind [execMfs, Out.good, State.run_memOk, State.sysReg_memOk, State.finish_memOk,
    State.illegal_memOk]

@[simp] theorem State.setCoreReg_memOk (s : State) (lc : Nat) (f : Frame) (n : Nat) (w : Word) (h : s.mem.ok) :
    (s.setCoreReg lc f n w).all (·.mem.ok) := by
  unfold State.setCoreReg
  (repeat' split) <;> simp [h]

@[simp] theorem State.setFeReg_memOk (s : State) (k n : Nat) (w : Word) (h : s.mem.ok) : (s.setFeReg k n w).all (·.mem.ok) := by
  unfold State.setFeReg
  dsimp only
  (repeat' split) <;> simp [h]

@[simp] theorem State.setSysReg_memOk (s : State) (n : Nat) (w : Word) (h : s.mem.ok) : (s.setSysReg n w).all (·.mem.ok) := by
  unfold State.setSysReg
  split
  · cases s.top _ with
    | none => rfl
    | some f => exact s.setCoreReg_memOk _ f n w h
  · exact s.setFeReg_memOk _ n w h

@[simp] theorem execMts_memOk (r : BitVec 12) (a : Reg) (s : State) (h : s.mem.ok) : Out.good (execMts r a s) := by
  grind [execMts, Out.good, State.run_memOk, State.pops_memOk, State.setSysReg_memOk,
    State.illegal_memOk, State.goTo_mem]

@[simp] theorem opreqForm_memOk (i : Instr) (v : BitVec 5) (s : State) (h : s.mem.ok) : Out.good (opreqForm i v s) := by
  simp [opreqForm, h]

@[simp] theorem execIfence_memOk (s : State) (h : s.mem.ok) : Out.good (execIfence s) := by
  unfold execIfence
  (repeat' split) <;> simp [h]

@[simp] theorem trapForm_memOk (i : Instr) (cls : Nat) (imm : BitVec 12) (s : State) (h : s.mem.ok) :
    Out.good (trapForm i cls imm s) := by
  simp [trapForm, h]

@[simp] theorem execEret_memOk (s : State) (h : s.mem.ok) : Out.good (execEret s) := by
  unfold execEret
  (repeat' split) <;> simp [h]

@[simp] theorem execPmpw_memOk (n : Fin 16) (a : Reg) (s : State) (h : s.mem.ok) : Out.good (execPmpw n a s) := by
  unfold execPmpw
  (repeat' split) <;> simp [h]

end Sys2Proof.Machine
end


section
/-! PROOFS. The canonical form of memory (log entry 2) through the VCPs, their packets and the host's windows. -/

namespace Sys2Proof.Machine

/-! ### VCPs -/

@[simp] theorem State.forgetVcp_memOk (s : State) (f v : Nat) : (s.forgetVcp f v).mem.ok = s.mem.ok := by simp [State.forgetVcp]

@[simp] theorem State.reach_memOk (s : State) (f key pa tag : Nat) (op : RemoteOp) (h : s.mem.ok) : (s.reach f key pa tag op).good := by
  unfold State.reach
  dsimp only
  (repeat' split) <;> simp [h]

@[simp] theorem Eng.code_memOk (e : Eng) (k : Nat → State → State) (he : e.good) (hk : ∀ x0 t, t.mem.ok → (k x0 t).mem.ok) :
    (e.code k).mem.ok := by
  cases e with
  | ok _ t => exact hk 0 t he
  | bad t => exact hk MEMERR t he
  | fault t => exact hk XLATE t he
  | wait t => exact he

@[simp] theorem State.fnRead_memOk (s : State) (f key va n need holder : Nat) (h : s.mem.ok) :
    (s.fnRead f key va n need holder).good := by
  grind [State.fnRead, Eng.good, XlSpan.good, State.vaSpan_memOk, State.meetWalk_memOk, State.reach_memOk, State.meetUe_memOk]

@[simp] theorem State.once_memOk (s : State) (key : Nat) (va : Word) (tag : Nat) (k : Unit → Eng) (h : s.mem.ok) (hk : ∀ x0, (k x0).good) :
    (s.once key va tag k).good := by
  unfold State.once
  have he := hk ()
  split
  · split <;> exact h
  · exact h
  · split <;> next heq => rw [heq] at he; simpa using he

@[simp] theorem State.fnWrite_memOk (s : State) (f key va : Nat) (bs : List Byte) (need holder : Nat) (h : s.mem.ok) :
    (s.fnWrite f key va bs need holder).good := by
  unfold State.fnWrite
  have hv := s.vaSpan_memOk f va bs.length need holder h
  split <;> rename_i heq <;> rw [heq] at hv
  · simp [h]
  · exact hv
  · split
    · exact State.reach_memOk _ f key _ 1 _ hv
    · split
      · exact hv
      · exact State.hostWrite_memOk _ _ _ _ hv
    · split
      · simpa using hv
      · exact State.writeMem_memOk _ _ _ (by simpa using hv)

@[simp] theorem State.fnWord_memOk (s : State) (f key : Nat) (a w : Word) (h : s.mem.ok) : (s.fnWord f key a w).good := by
  unfold State.fnWord
  (repeat' split) <;> simp [h]

@[simp] theorem State.journalPut_memOk (s : State) (p kind f v : Nat) (body : Words) (h : s.mem.ok) :
    (s.journalPut p kind f v body).mem.ok := by
  simp [State.journalPut, h]

@[simp] theorem State.journalGapPut_memOk (s : State) (p : Nat) (h : s.mem.ok) : (s.journalGapPut p).mem.ok := by
  simp [State.journalGapPut, h]

@[simp] theorem State.journal_memOk (s : State) (p kind f v : Nat) (body : Words) (h : s.mem.ok) :
    (s.journal p kind f v body).mem.ok := by
  simp [State.journal, h]

@[simp] theorem State.journalSignal_memOk (s : State) (f v : Nat) (a x : Word) (op : Nat) (new : Word) (h : s.mem.ok) :
    (s.journalSignal f v a x op new).mem.ok := by
  simp [State.journalSignal, h]

@[simp] theorem State.signalOld_memOk (s : State) (f key tag pa : Nat) (h : s.mem.ok) : (s.signalOld f key tag pa).good := by
  unfold State.signalOld
  (repeat' split) <;> simp [h]

@[simp] theorem State.signalAway_memOk (s : State) (f v key tag : Nat) (a : Word) (op : Nat) (x : Word) (pa : Nat) (h : s.mem.ok) :
    (s.signalAway f v key tag a op x pa).good := by
  grind [State.signalAway, Eng.good, State.reach_memOk, State.signalOld_memOk, State.journalSignal_memOk]

@[simp] theorem State.signal_memOk (s : State) (f v key tag : Nat) (a : Word) (op : Nat) (x : Word) (h : s.mem.ok) :
    (s.signal f v key tag a op x).good := by
  refine s.once_memOk key a tag _ h fun _ => ?_
  split
  · exact h
  · have hv := s.vaSpan_memOk f a.toNat 8 needW (frontHolder key) h
    split <;> rename_i heq <;> rw [heq] at hv
    · simp [h]
    · exact hv
    · next l s1 =>
      have ha := s1.signalAway_memOk f v key tag a op x (l.headD 0) hv
      dsimp only
      split
      · exact ha
      · split
        · next heq2 => rw [heq2] at ha; exact ha
        · exact ha
      · split
        · simpa using hv
        · simp [s1.journalSignal_memOk f v a x op _ hv]

@[simp] theorem State.propagate_memOk (s : State) (f v key tag : Nat) (a : Word) (h : s.mem.ok) : (s.propagate f v key tag a).good := by
  simp [State.propagate, h]

@[simp] theorem State.propagateSop_memOk (s : State) (f v key : Nat) (p : Rec) (h : s.mem.ok) : (s.propagateSop f v key p).good := by
  unfold State.propagateSop
  (repeat' split) <;> simp [h]

@[simp] theorem State.raiseIrq_memOk (s : State) (f v : Nat) (p : Rec) : (s.raiseIrq f v p).mem.ok = s.mem.ok := by simp [State.raiseIrq]
@[simp] theorem State.dropAsks_memOk (s : State) (mine : Nat → Bool) : (s.dropAsks mine).mem.ok = s.mem.ok := by simp [State.dropAsks]

@[simp] theorem State.propagateOut_memOk (s : State) (f v i : Nat) (p : Rec) (h : s.mem.ok) : (s.propagateOut f v i p).good := by
  unfold State.propagateOut
  (repeat' split) <;> simp [h]

@[simp] theorem State.propagateAll_memOk (s : State) (f v : Nat) (l : List (Nat × Rec)) (h : s.mem.ok) :
    (s.propagateAll f v l).1.mem.ok := by
  induction l generalizing s with
  | nil => exact h
  | cons x l ih =>
    have hp := s.propagateOut_memOk f v x.1 x.2 h
    unfold State.propagateAll
    split <;> rename_i heq <;> rw [heq] at hp
    · exact hp
    · exact ih _ hp
    · exact ih _ hp
    · exact ih _ hp

@[simp] theorem State.ringSlot_memOk (s : State) (f v : Nat) (x : Vcp) (k : Nat) (h : s.mem.ok) : (s.ringSlot f v x k).good := by
  grind [State.ringSlot, Eng.good, Slots.good, State.fnRead_memOk]

@[simp] theorem State.ringSlots_memOk (s : State) (f v : Nat) (x : Vcp) (l : List Nat) (h : s.mem.ok) : (s.ringSlots f v x l).good := by
  induction l generalizing s with
  | nil => exact h
  | cons k l ih =>
    have hr := s.ringSlot_memOk f v x k h
    unfold State.ringSlots
    split <;> rename_i heq <;> rw [heq] at hr
    · exact hr
    · have hi := ih _ hr
      split
      · next heq2 => rw [heq2] at hi; exact hi
      · exact hi

@[simp] theorem State.unstarted_memOk (s : State) (f v : Nat) (h : s.mem.ok) : (s.unstarted f v).good := by simp [State.unstarted, h]
@[simp] theorem State.cancelVcp_memOk (s : State) (f v : Nat) : (s.cancelVcp f v).mem.ok = s.mem.ok := by simp [State.cancelVcp]
@[simp] theorem State.quietVcp_memOk (s : State) (f v : Nat) (h : s.mem.ok) : (s.quietVcp f v).mem.ok := by simp [State.quietVcp, h]

@[simp] theorem State.wipeVcp_memOk (s : State) (f v : Nat) (h : s.mem.ok) : (s.wipeVcp f v).1.mem.ok := by
  unfold State.wipeVcp
  split
  · exact h
  · have hu := s.unstarted_memOk f v h
    split <;> rename_i heq <;> rw [heq] at hu
    · exact hu
    · next l s1 =>
      have hp := fun ps => s1.propagateAll_memOk f v ps hu
      dsimp only
      split <;> rename_i heq2
      · exact (congrArg (fun r => r.1.mem.ok) heq2).symm.trans (hp _)
      · simpa using (congrArg (fun r => r.1.mem.ok) heq2).symm.trans (hp _)

@[simp] theorem State.vreset_memOk (s : State) (f v : Nat) (h : s.mem.ok) : (s.vreset f v).mem.ok := by simp [State.vreset, h]

@[simp] theorem State.meetRing_memOk (s : State) (f : Nat) (x : Vcp) : (s.meetRing f x).mem.ok = s.mem.ok := by
  unfold State.meetRing
  dsimp only
  (repeat' split) <;> simp

@[simp] theorem State.actCtl_memOk (s : State) (f v : Nat) : (s.actCtl f v).mem.ok = s.mem.ok := by simp [State.actCtl]

@[simp] theorem State.takeNotify_memOk (s : State) (f v : Nat) (w : BitVec 32) (h : s.mem.ok) : (s.takeNotify f v w).mem.ok := by
  simp [State.takeNotify, h]

@[simp] theorem State.onCtl_memOk (s : State) (f v t : Nat) (p : Vcp → Bool) (h : s.mem.ok) : Out.good (s.onCtl f v t p) := by
  simp [State.onCtl, *]

@[simp] theorem State.readSlot_memOk (s : State) (f v : Nat) (x : Vcp) (k : Rec → State → State) (bad : Nat → State → State)
    (h : s.mem.ok) (hk : ∀ x0 t, t.mem.ok → (k x0 t).mem.ok) (hbad : ∀ x0 t, t.mem.ok → (bad x0 t).mem.ok) :
    (s.readSlot f v x k bad).mem.ok := by
  unfold State.readSlot
  split
  · exact hk _ s h
  · have hr := s.fnRead_memOk f (packetKey f v x.head) (x.base.toNat + 64 * (x.seq % 2 ^ x.lgsz)) 64 needR
      (frontHolder (packetKey f v x.head)) h
    dsimp only
    split <;> rename_i heq <;> rw [heq] at hr
    · split
      · exact hk _ _ (by simpa using hr)
      · simpa using hr
    · exact hbad _ _ (by simpa using hr)
    · exact hbad _ _ (by simpa using hr)
    · exact hr

@[simp] theorem State.passOver_memOk (s : State) (f v : Nat) (p : Rec) (target : Bool) (k : Vcp → Vcp) (h : s.mem.ok) :
    (s.passOver f v p target k).mem.ok := by
  refine Eng.code_memOk _ _ (s.propagateSop_memOk f v _ p h) fun c t ht => Eng.code_memOk _ _ ?_ fun d u hu => ?_
  · split
    · exact t.propagate_memOk f v _ 4 p.q3 ht
    · exact ht
  · simp [hu]

@[simp] theorem State.rejectMalformed_memOk (s : State) (f v : Nat) (p : Rec) (h : s.mem.ok) : (s.rejectMalformed f v p).mem.ok := by
  simp [State.rejectMalformed, h]

@[simp] theorem State.discardOne_memOk (s : State) (f v : Nat) (x : Vcp) (h : s.mem.ok) : (s.discardOne f v x).mem.ok := by
  unfold State.discardOne
  dsimp only
  split
  · exact s.passOver_memOk f v _ _ _ h
  · exact s.readSlot_memOk f v x _ _ h (fun p t ht => t.passOver_memOk f v p _ _ ht) fun _ t ht => by simp [ht]

@[simp] theorem execPacketFetch_memOk (f v : Nat) (s : State) (h : s.mem.ok) : Out.good (execPacketFetch f v s) := by
  grind [execPacketFetch, Out.good, State.discardOne_memOk, State.rejectMalformed_memOk, State.readSlot_memOk, State.journal_memOk,
    State.setVcp_mem]

@[simp] theorem execPollBoundExpire_memOk (f v : Nat) (s : State) (h : s.mem.ok) : Out.good (execPollBoundExpire f v s) := by
  unfold execPollBoundExpire
  dsimp only
  (repeat' split) <;> simp [h]

@[simp] theorem State.startPacket_memOk (s : State) (f v : Nat) (q : Started) : (s.startPacket f v q).mem.ok = s.mem.ok := by
  simp [State.startPacket]

@[simp] theorem State.checkAddr_memOk (s : State) (f : Nat) (a : Option Word) (h : s.mem.ok) : (s.checkAddr f a).good := by
  unfold State.checkAddr
  (repeat' split) <;> simp [h]

@[simp] theorem State.begin_memOk (s : State) (f v op : Nat) (k : Vcp → Rec → State) (h : s.mem.ok) (hk : ∀ x0 x1, (k x0 x1).mem.ok) :
    Out.good (s.begin f v op k) := by
  unfold State.begin
  dsimp only
  split
  · exact h
  · split
    · exact h
    · next p _ =>
      split
      · exact h
      · have hc := s.checkAddr_memOk f p.signalAt h
        split <;> rename_i heq <;> rw [heq] at hc
        · simpa using hc
        · simpa using hc
        · exact hc
        · have hd := State.checkAddr_memOk _ f p.statusAt hc
          split <;> rename_i heq2 <;> rw [heq2] at hd
          · simpa using hd
          · simpa using hd
          · exact hd
          · exact hk ..

@[simp] theorem State.finishPacket_memOk (s : State) (f v : Nat) (q : Started) (e : PacketEnd) (perr : Bool) :
    (s.finishPacket f v q e perr).mem.ok = s.mem.ok := by
  simp [State.finishPacket]

@[simp] theorem State.completePacket_memOk (s : State) (f v : Nat) (q : Started) (e : PacketEnd) (w : Option Word) (h : s.mem.ok) :
    (s.completePacket f v q e w).mem.ok := by
  unfold State.completePacket
  (repeat' split) <;> grind [Eng.good, State.fnWord_memOk, Eng.code_memOk, State.signal_memOk, State.propagate_memOk,
    State.finishPacket_memOk, State.forgetKey_memOk]

/-! ### Packets -/

@[simp] theorem execOpvote_memOk (p : Nat) (r : PlugRes) (s : State) (h : s.mem.ok) : Out.good (execOpvote p r s) := by
  unfold execOpvote
  (repeat' split) <;> simp [h]

@[simp] theorem execPluginBudgetOverrun_memOk (n : Nat) (s : State) (h : s.mem.ok) : Out.good (execPluginBudgetOverrun n s) := by
  unfold execPluginBudgetOverrun
  dsimp only
  (repeat' split) <;> simp [h]

@[simp] theorem State.askAdmit_memOk (s : State) (f v : Nat) (p : Rec) : (s.askAdmit f v p).mem.ok = s.mem.ok := by simp [State.askAdmit]
@[simp] theorem State.askPmap_memOk (s : State) (f v level : Nat) : (s.askPmap f v level).mem.ok = s.mem.ok := by simp [State.askPmap]

@[simp] theorem State.readRecords_memOk (s : State) (f key va n : Nat) (h : s.mem.ok) : (s.readRecords f key va n).good := by
  induction n generalizing s va with
  | zero => exact h
  | succ n ih =>
    have hr := s.fnRead_memOk f key va 64 needR (frontHolder key) h
    unfold State.readRecords
    split <;> rename_i heq <;> rw [heq] at hr
    · exact hr
    · exact hr
    · exact hr
    · have hi := ih _ (va + 64) hr
      split
      · next heq2 => rw [heq2] at hi; exact hi
      · exact hi

@[simp] theorem State.launchRecords_memOk (s : State) (f key : Nat) (p : Rec) (h : s.mem.ok) : (s.launchRecords f key p).good := by
  unfold State.launchRecords
  dsimp only
  (repeat' split) <;> simp [h]

@[simp] theorem State.dispatch_memOk (s : State) (kind f v : Nat) (w : Word) (r : Rec) (h : s.mem.ok) :
    (s.dispatch kind f v w r).mem.ok := by
  simp [State.dispatch, h]

@[simp] theorem State.inject_memOk (s : State) (p : Rec) (point : Word) (packet : Option (Nat × Nat × Nat)) (l : List Rec)
    (kind f v : Nat) (w : Word) (h : s.mem.ok) :
    (s.inject p point packet l kind f v w).mem.ok := by
  unfold State.inject
  dsimp only
  split
  · exact foldl_keeps _ (fun t x ht => t.dispatch_memOk kind f v w x ht) _ _ (by simp [h])
  · simp [h]

@[simp] theorem State.acceptLaunch_memOk (s : State) (f v : Nat) (x : Vcp) (p : Rec) (point : Word) (l : List Rec) (h : s.mem.ok) :
    (s.acceptLaunch f v x p point l).mem.ok := by
  simp [State.acceptLaunch, h]

@[simp] theorem State.refuseLaunch_memOk (s : State) (f v : Nat) (x : Vcp) (p : Rec) (code : Nat) (failed : Option Word) (h : s.mem.ok) :
    (s.refuseLaunch f v x p code failed).mem.ok := by
  simp [State.refuseLaunch, h]

@[simp] theorem execLaunchPacket_memOk (f v : Nat) (s : State) (h : s.mem.ok) : Out.good (execLaunchPacket f v s) := by
  unfold execLaunchPacket
  grind [Out.good, Records.good, State.begin_memOk, State.launchRecords_memOk, State.refuseLaunch_memOk,
    State.forgetKey_memOk, State.askAdmit_memOk, State.askPmap_memOk, State.acceptLaunch_memOk]

@[simp] theorem State.clearCalls_memOk (s : State) (f : Nat) (h : s.mem.ok) : (s.clearCalls f).mem.ok := by simp [State.clearCalls, h]

@[simp] theorem State.askExtern_memOk (s : State) (f dev : Nat) (m : Msg) (p : Rec) : (s.askExtern f dev m p).mem.ok = s.mem.ok := by
  simp [State.askExtern]

@[simp] theorem State.turnAway_memOk (s : State) (q dev tenant : Nat) : (s.turnAway q dev tenant).mem.ok = s.mem.ok := by
  simp [State.turnAway]

@[simp] theorem execExternalLaunch_memOk (q dev tenant : Nat) (key : Word) (packet : List Word) (records : List (List Word)) (s : State)
    (h : s.mem.ok) :
    Out.good (execExternalLaunch q dev tenant key packet records s) := by
  grind [execExternalLaunch, Out.good, State.takeRx_memOk, State.askExtern_memOk, State.turnAway_memOk,
    State.clearCalls_memOk, State.askPmap_memOk, State.inject_memOk]

@[simp] theorem State.remoteOver_memOk (s : State) (f v u : Nat) (w : Word) : (s.remoteOver f v u w).mem.ok = s.mem.ok := by
  unfold State.remoteOver
  (repeat' split) <;> simp

@[simp] theorem State.releaseHeld_memOk (s : State) (key : Nat × Nat × Nat) (h : s.mem.ok) : (s.releaseHeld key).mem.ok :=
  foldl_keeps _ (fun t _ ht => foldl_keeps _ (fun u r hu => u.dispatch_memOk _ _ _ _ r hu) _ t ht) _ _ h

@[simp] theorem State.takeMark_memOk (s : State) (dev g : Nat) (m : CancelMark) : (s.takeMark dev g m).mem.ok = s.mem.ok := by
  grind [State.takeMark, State.sendMsg_memOk, State.installHere_memOk, State.settle_memOk, State.spreadMark_memOk, State.renewMark_memOk,
    State.putMark_memOk]

@[simp] theorem State.ackMark_memOk (s : State) (dev g : Nat) (m : CancelMark) : (s.ackMark dev g m).mem.ok = s.mem.ok := by
  simp [State.ackMark]

@[simp] theorem State.takeCancel_memOk (s : State) (dev g : Nat) (m : CancelMark) (key : Nat × Nat × Nat) :
    (s.takeCancel dev g m key).mem.ok = s.mem.ok := by
  simp [State.takeCancel]

@[simp] theorem State.rootMessage_memOk (s : State) (dev : Nat) (x : Msg) (h : s.mem.ok) : (s.rootMessage dev x).mem.ok := by
  unfold State.rootMessage
  (repeat' split) <;> simp [h]

@[simp] theorem State.doSignal_memOk (s : State) (f v : Nat) (q : Started) (h : s.mem.ok) : (s.doSignal f v q).mem.ok := by
  simp [State.doSignal, h]

@[simp] theorem State.doMark_memOk (s : State) (f v : Nat) (q : Started) (h : s.mem.ok) : (s.doMark f v q).mem.ok := by
  simp [State.doMark, h]

@[simp] theorem State.oneAccess_memOk (s : State) (f v op : Nat) (act : State → Started → State) (h : s.mem.ok)
    (hact : ∀ t x1, t.mem.ok → (act t x1).mem.ok) :
    Out.good (s.oneAccess f v op act) := by
  unfold State.oneAccess
  split
  · split
    · exact hact s _ h
    · exact h
  · exact s.begin_memOk f v op _ h fun x p => hact _ _ (by simp [h])

@[simp] theorem execSignalPacket_memOk (f v : Nat) (s : State) (h : s.mem.ok) : Out.good (execSignalPacket f v s) := by
  grind [execSignalPacket, Out.good, State.oneAccess_memOk, State.doSignal_memOk]

@[simp] theorem execMarkPacket_memOk (f v : Nat) (s : State) (h : s.mem.ok) : Out.good (execMarkPacket f v s) := by
  grind [execMarkPacket, Out.good, State.oneAccess_memOk, State.doMark_memOk]

@[simp] theorem State.setStarted_memOk (s : State) (f v : Nat) (q : Started) : (s.setStarted f v q).mem.ok = s.mem.ok := by
  simp [State.setStarted]

@[simp] theorem State.fnReadAcross_memOk (s : State) (f key va n need holder : Nat) (h : s.mem.ok) :
    (s.fnReadAcross f key va n need holder).good := by
  grind [State.fnReadAcross, Eng.good, State.fnRead_memOk]

@[simp] theorem State.quayGranule_memOk (s : State) (f key holder : Nat) (q : Started) (g : Nat) (h : s.mem.ok) :
    (s.quayGranule f key holder q g).2.mem.ok := by
  grind [State.quayGranule, Eng.good, State.keepRead_memOk, State.fnReadAcross_memOk,
    State.fnWrite_memOk]

@[simp] theorem execQuayCopyGranule_memOk (f v i g : Nat) (s : State) (h : s.mem.ok) : Out.good (execQuayCopyGranule f v i g s) := by
  grind [execQuayCopyGranule, Out.good, State.quayGranule_memOk, State.setStarted_memOk,
    State.dropHolder_memOk, State.forgetKey_memOk]

@[simp] theorem State.waitWord_memOk (s : State) (f key : Nat) (a : Word) (proxy : Option Nat) (h : s.mem.ok) :
    (s.waitWord f key a proxy).good := by
  unfold State.waitWord
  (repeat' split) <;> grind [Eng.good, XlSpan.good, State.reach_memOk, State.meetUe_memOk, State.vaSpan_memOk, State.fnRead_memOk]

@[simp] theorem State.waitWords_memOk (s : State) (f key : Nat) (l : List (Word × Option Nat)) (h : s.mem.ok) :
    (s.waitWords f key l).good := by
  induction l generalizing s with
  | nil => exact h
  | cons x l ih =>
    have hw := s.waitWord_memOk f key x.1 x.2 h
    unfold State.waitWords
    split <;> rename_i heq <;> rw [heq] at hw
    · exact hw
    · exact hw
    · exact hw
    · have hi := ih _ hw
      split
      · next heq2 => rw [heq2] at hi; exact hi
      · exact hi

@[simp] theorem State.abortWait_memOk (s : State) (f v : Nat) (q : Started) (code : Nat) (failed : Option Word) :
    (s.abortWait f v q code failed).mem.ok = s.mem.ok := by
  simp [State.abortWait]

@[simp] theorem State.evaluate_memOk (s : State) (f v : Nat) (q : Started) (h : s.mem.ok) : (s.evaluate f v q).mem.ok := by
  grind [State.evaluate, Signals.good, State.waitWords_memOk, State.abortWait_memOk, State.forgetKey_memOk, State.packetOver_memOk]

@[simp] theorem waitStep_memOk (f v i : Nat) (s : State) (h : s.mem.ok) : Out.good (waitStep f v i s) := by
  unfold waitStep
  dsimp only
  (repeat' split) <;> simp [h]

@[simp] theorem execCancelPacket_memOk (f v : Nat) (s : State) (h : s.mem.ok) : Out.good (execCancelPacket f v s) := by
  grind [execCancelPacket, Out.good, State.begin_memOk, State.install_memOk, State.startPacket_memOk, State.sendMsg_memOk,
    State.settle_memOk]

@[simp] theorem execPacketComplete_memOk (f v i : Nat) (s : State) (h : s.mem.ok) : Out.good (execPacketComplete f v i s) := by
  unfold execPacketComplete
  (repeat' split) <;> simp [h]

/-! ### Measurements -/

@[simp] theorem State.extend_memOk (s : State) (i : Nat) (h : BitVec 384) : (s.extend i h).mem.ok = s.mem.ok :=
  congrArg Mem.ok (State.extend_mem ..)

/-! ### The host's windows -/

@[simp] theorem State.journalHost_memOk (s : State) (f v : Nat) (a : Word) (bs : List Byte) (h : s.mem.ok) :
    (s.journalHost f v a bs).mem.ok := by
  simp [State.journalHost, h]

@[simp] theorem State.bar2Block_memOk (s : State) (f : Nat) (x : Nat × List Byte) (h : s.mem.ok) : (s.bar2Block f x).mem.ok := by
  simp [State.bar2Block, h]

@[simp] theorem State.bar2Write_memOk (s : State) (f off : Nat) (data : List Byte) (h : s.mem.ok) : (s.bar2Write f off data).mem.ok := by
  unfold State.bar2Write
  split
  · exact h
  · exact foldl_keeps _ (fun t x ht => t.bar2Block_memOk f x ht) _ _ h

@[simp] theorem State.hostReads_memOk (s : State) (bs : List Byte) : (s.hostReads bs).mem.ok = s.mem.ok := by simp [State.hostReads]

@[simp] theorem State.afterWrites_memOk (s : State) (k : Unit → State) (h : s.mem.ok) (hk : ∀ x0, (k x0).mem.ok) :
    Out.good (s.afterWrites k) := by
  simp [State.afterWrites, *]

@[simp] theorem State.barSpan_memOk (s : State) (f off n need : Nat) (h : s.mem.ok) : (s.barSpan f off n need).good := by
  unfold State.barSpan
  dsimp only
  (repeat' split) <;> simp [h]

@[simp] theorem State.barFail_memOk (s : State) (f : Nat) : (s.barFail f).mem.ok = s.mem.ok := by simp [State.barFail]
@[simp] theorem State.meetBar_memOk (s : State) (f off : Nat) : (s.meetBar f off).mem.ok = s.mem.ok := by simp [State.meetBar]

@[simp] theorem State.barPart_memOk (s : State) (f key : Nat) (l : List Nat) (h : s.mem.ok) : (s.barPart f key l).good := by
  unfold State.barPart
  (repeat' split) <;> simp [h]

@[simp] theorem State.barParts_memOk (s : State) (f key : Nat) (l : List (List Nat)) (h : s.mem.ok) : (s.barParts f key l).good := by
  induction l generalizing s with
  | nil => exact h
  | cons x ls ih =>
    have hgo : ∀ (bs : List Byte) (t : State), t.mem.ok → Eng.good (match t.barParts f key ls with
        | .ok cs s1 => Eng.ok (bs ++ cs) s1
        | e => e) := by
      intro bs t ht
      have hi := ih t ht
      split
      · next heq => rw [heq] at hi; exact hi
      · exact hi
    have hp := s.barPart_memOk f key x h
    unfold State.barParts
    dsimp only
    split <;> rename_i heq <;> rw [heq] at hp
    · exact hgo _ _ hp
    · exact hgo _ _ (by simpa using hp)
    · exact hgo _ _ (by simpa using hp)
    · exact hp

@[simp] theorem execBar4Read_memOk (f off n : Nat) (s : State) (h : s.mem.ok) : Out.good (execBar4Read f off n s) := by
  grind [execBar4Read, Eng.good, Out.good, XlSpan.good, State.afterWrites_memOk, State.barSpan_memOk, State.hostReads_memOk,
    State.barFail_memOk, State.meetBar_memOk, State.barParts_memOk, State.forgetKey_memOk]

@[simp] theorem State.bar4Block_memOk (s : State) (f : Nat) (x : Nat × List Byte) (h : s.mem.ok) : (s.bar4Block f x).mem.ok := by
  unfold State.bar4Block
  have hb := s.barSpan_memOk f x.1 x.2.length needW h
  split <;> rename_i heq <;> rw [heq] at hb
  · simp [h]
  · exact hb
  · next l s1 =>
    have h2 := s1.journalHost_memOk f 255 ((s1.func f).winbase + ofN x.1) x.2 hb
    dsimp only
    split
    · simp [h2]
    · exact State.hostWrite_memOk _ f l x.2 h2
    · split <;> simp [h2]

@[simp] theorem State.barWaits_memOk (s : State) (f : Nat) (l : List (Nat × List Byte)) (h : s.mem.ok) :
    (s.barWaits f l).all (·.mem.ok) := by
  unfold State.barWaits
  induction l with
  | nil => rfl
  | cons x l ih =>
    rw [List.findSome?_cons]
    have hb := s.barSpan_memOk f x.1 x.2.length needW h
    cases hs : s.barSpan f x.1 x.2.length needW with
    | trap c => exact ih
    | wait t => rw [hs] at hb; exact hb
    | pas as t =>
      rw [hs] at hb
      dsimp only
      split <;> rename_i heq
      · split at heq <;> simp_all
      · exact ih

@[simp] theorem State.bar4Write_memOk (s : State) (f off : Nat) (data : List Byte) (h : s.mem.ok) :
    (s.bar4Write f off data).1.mem.ok := by
  unfold State.bar4Write
  dsimp only
  split
  · exact h
  · have hb := s.barWaits_memOk f (blocksOf data.length off data) h
    split <;> rename_i heq
    · rw [heq] at hb; exact hb
    · exact foldl_keeps _ (fun t x ht => t.bar4Block_memOk f x ht) _ _ h

@[simp] theorem State.cancelJob_memOk (s : State) (f : Nat) : (s.cancelJob f).mem.ok = s.mem.ok := by simp [State.cancelJob]
@[simp] theorem State.setMig_memOk (s : State) (n : Nat) : (s.setMig n).mem.ok = s.mem.ok := by simp [State.setMig]
@[simp] theorem State.endMig_memOk (s : State) (n : Nat) : (s.endMig n).mem.ok = s.mem.ok := by simp [State.endMig]

@[simp] theorem execFlrInitiate_memOk (f : Nat) (s : State) (h : s.mem.ok) : Out.good (execFlrInitiate f s) := by
  unfold execFlrInitiate
  split
  · exact h
  · dsimp only
    have hs : ((span 0 16).foldl (fun s v => (s.cancelVcp f v).quietVcp f v) (s.cancelJob f)).mem.ok :=
      foldl_keeps _ (fun t v ht => by simp [ht]) _ _ ((s.cancelJob_memOk f).trans h)
    split <;> simp [hs]

@[simp] theorem execJobCancel_memOk (f : Nat) (s : State) (h : s.mem.ok) : Out.good (execJobCancel f s) := by
  unfold execJobCancel
  dsimp only
  (repeat' split) <;> simp [h]

@[simp] theorem State.wipeVcps_memOk (s : State) (f : Nat) (l : List Nat) (h : s.mem.ok) : (s.wipeVcps f l).1.mem.ok := by
  induction l generalizing s with
  | nil => exact h
  | cons v l ih =>
    have hw := s.wipeVcp_memOk f v h
    unfold State.wipeVcps
    split <;> rename_i heq <;> rw [heq] at hw
    · exact ih _ hw
    · exact hw

@[simp] theorem execFlrComplete_memOk (f : Nat) (s : State) (h : s.mem.ok) : Out.good (execFlrComplete f s) := by
  grind [execFlrComplete, Out.good, State.wipeVcps_memOk, State.clearCalls_memOk, State.count_mem, State.setFunc_mem]

@[simp] theorem State.onMig_memOk (s : State) (cmd : Nat) (w : BitVec 32) (k : Nat → State → State) (h : s.mem.ok)
    (hk : ∀ x0 t, t.mem.ok → (k x0 t).mem.ok) :
    (s.onMig cmd w k).mem.ok := by
  simp [State.onMig, *]

@[simp] theorem execMigSuspendSave_memOk (w : BitVec 32) (s : State) (h : s.mem.ok) : Out.good (execMigSuspendSave w s) := by
  simp [execMigSuspendSave, h]

theorem Saved.good_brecOn (F : (l : List ℕ) → List.below (motive := fun _ => State → Saved) l → State → Saved)
    (hnil : ∀ B s, s.mem.ok → (F [] B s).good)
    (hcons : ∀ v l B, (∀ t, t.mem.ok → (B.1 t).good) → ∀ s, s.mem.ok → (F (v :: l) B s).good) (l : List ℕ) (s : State) (h : s.mem.ok) :
    (List.brecOn (motive := fun _ => State → Saved) l F s).good := by
  induction l generalizing s with
  | nil => exact hnil _ s h
  | cons v l ih => exact hcons v l _ ih s h

@[simp] theorem State.savedPackets_memOk (s : State) (f : ℕ) (l : List ℕ) (h : s.mem.ok) : (s.savedPackets f l).good := by
  obtain ⟨U, hU⟩ : ∃ U, State.unstarted = U := ⟨_, rfl⟩
  have hu : ∀ t v, t.mem.ok → (U t f v).good := fun t v ht => hU ▸ t.unstarted_memOk f v ht
  delta State.savedPackets State.savedPackets._f
  rw [hU]
  refine Saved.good_brecOn _ ?_ ?_ l s h
  · intro B s hs
    exact hs
  · intro v l B hB s hs
    have hv := hu s v hs
    dsimp only
    split <;> rename_i heq <;> rw [heq] at hv
    · exact hv
    · split
      · simpa using hv
      · have hi := hB _ ((State.forgetVcp_memOk _ f v).trans hv)
        split
        · next heq2 => exact (congrArg Saved.good heq2).symm.trans hi
        · exact hi

@[simp] theorem State.proxies_memOk (s : State) (f dst : Nat) (l : List (Nat × Started)) (h : s.mem.ok) : (s.proxies f dst l).good := by
  induction l generalizing s with
  | nil => exact h
  | cons x l ih =>
    have hw := s.waitWords_memOk f (packetKey f x.1 x.2.index) x.2.signals h
    unfold State.proxies
    dsimp only
    split <;> rename_i heq <;> rw [heq] at hw
    · exact hw
    · simpa using hw
    · split
      · simpa using hw
      · have hi := ih (State.forgetKey _ (packetKey f x.1 x.2.index)) (by simpa using hw)
        split
        · next heq2 => rw [heq2] at hi; exact hi
        · exact hi

@[simp] theorem State.writeMig_memOk (s : State) (f : Nat) (vs : List Nat) (ps ws : List (List Word)) (h : s.mem.ok) :
    (s.writeMig f vs ps ws).mem.ok := by
  unfold State.writeMig
  dsimp only
  refine State.putWords_memOk _ _ _ (State.putWords_memOk _ _ _ (foldl_keeps _ (fun t x ht => t.putWords_memOk _ _ ht) _ _ ?_))
  refine State.putWords_memOk _ _ _ (State.zeroRange_memOk _ _ _ ?_)
  exact (foldl_memOk _ (fun _ _ => by simp) _ _).trans h

@[simp] theorem execMigSaveImageWrite_memOk (s : State) (h : s.mem.ok) : Out.good (execMigSaveImageWrite s) := by
  grind [execMigSaveImageWrite, Out.good, Proxies.good, Saved.good, State.savedPackets_memOk, State.proxies_memOk, State.endMig_memOk,
    State.writeMig_memOk]

@[simp] theorem execMigRestore_memOk (w : BitVec 32) (s : State) (h : s.mem.ok) : Out.good (execMigRestore w s) := by
  simp [execMigRestore, h]

@[simp] theorem State.migDone_memOk (s : State) (f : Nat) : (s.migDone f).mem.ok = s.mem.ok := by simp [State.migDone]

@[simp] theorem State.migStep_memOk (s : State) (h : s.mem.ok) : s.migStep.mem.ok := by
  grind [State.migStep, Eng.good, State.migDone_memOk, State.reach_memOk, State.endMig_memOk, State.forgetKey_memOk]

@[simp] theorem execMigResume_memOk (w : BitVec 32) (s : State) (h : s.mem.ok) : Out.good (execMigResume w s) := by
  refine s.onMig_memOk 3 w _ h fun f t ht => ?_
  dsimp only
  split
  · simp [ht]
  · rw [State.setMig_memOk]
    refine foldl_keeps _ (fun u x hu => ?_) _ _ ((foldl_memOk _ (fun _ _ => by simp) _ _).trans ht)
    split
    · exact u.evaluate_memOk f x.1 x.2 hu
    · exact hu

@[simp] theorem State.setAtt_memOk (s : State) (n : Nat) : (s.setAtt n).mem.ok = s.mem.ok := by simp [State.setAtt]

@[simp] theorem State.onAtt_memOk (s : State) (cmd : Nat) (w : BitVec 32) (n : Nat) (fn : Nat → Option Nat) :
    (s.onAtt cmd w n fn).mem.ok = s.mem.ok := by
  simp [State.onAtt]

@[simp] theorem execAttReport_memOk (w : BitVec 32) (s : State) (h : s.mem.ok) : Out.good (execAttReport w s) := by
  simp [execAttReport, h]

@[simp] theorem execAttReadCertificate_memOk (w : BitVec 32) (s : State) (h : s.mem.ok) : Out.good (execAttReadCertificate w s) := by
  simp [execAttReadCertificate, h]

@[simp] theorem State.endAtt_memOk (s : State) (n : Nat) : (s.endAtt n).mem.ok = s.mem.ok := by simp [State.endAtt]

@[simp] theorem State.putBuffer_memOk (s : State) (bs : List Byte) (h : s.mem.ok) : (s.putBuffer bs).mem.ok := by
  simp [State.putBuffer, h]

@[simp] theorem execAttComplete_memOk (s : State) (h : s.mem.ok) : Out.good (execAttComplete s) := by
  grind [execAttComplete, Eng.good, Out.good, State.endAtt_memOk, State.putBuffer_memOk, State.reach_memOk, State.forgetKey_memOk]

@[simp] theorem State.setService_memOk (s : State) (x : Service) : (s.setService x).mem.ok = s.mem.ok := by simp [State.setService]

@[simp] theorem migWrite_memOk (w : BitVec 32) (s : State) (h : s.mem.ok) : Out.good (migWrite w s) := by
  unfold migWrite
  (repeat' split) <;> simp [h]

@[simp] theorem attWrite_memOk (w : BitVec 32) (s : State) (h : s.mem.ok) : Out.good (attWrite w s) := by
  unfold attWrite
  (repeat' split) <;> simp [h]

@[simp] theorem State.readBar0_memOk (s : State) (f off n : Nat) : (s.readBar0 f off n).mem.ok = s.mem.ok := by simp [State.readBar0]

@[simp] theorem Out.stateOr_memOk (s : State) (o : Out) (h : s.mem.ok) (ho : Out.good o) : (Out.stateOr s o).mem.ok := by
  cases o with
  | next t => exact ho
  | fault r => exact h
  | refused r => exact h

@[simp] theorem State.writeRegister_memOk (s : State) (f off : Nat) (w : Word) (h : s.mem.ok) : (s.writeRegister f off w).mem.ok := by
  unfold State.writeRegister
  (repeat' split) <;> simp [h]

@[simp] theorem State.commit_memOk (s : State) (x : Tlp) (h : s.mem.ok) : (s.commit x).1.mem.ok := by
  unfold State.commit
  (repeat' split) <;> simp [h]

@[simp] theorem State.arrive_memOk (s : State) (t : Tlp) (h : s.mem.ok) : Out.good (s.arrive t) := by
  grind [State.arrive, Out.good, State.setService_memOk, State.commit_memOk]

@[simp] theorem State.commitAt_memOk (s : State) (k : Nat) (h : s.mem.ok) : (s.commitAt k).mem.ok := by
  grind [State.commitAt, State.commit_memOk, State.setService_memOk]

end Sys2Proof.Machine
end


section
/-! PROOFS. The canonical form of memory (log entry 2) through firmware, the turn of an agent and one step. -/

namespace Sys2Proof.Machine

/-! ### Firmware -/

@[simp] theorem State.loadBody_memOk (s : State) (b : List Byte) (h : s.mem.ok) : (s.loadBody b).mem.ok := by simp [State.loadBody, h]

@[simp] theorem State.enterQuay_memOk (s : State) (q priv entry : Nat) : (s.enterQuay q priv entry).mem.ok = s.mem.ok :=
  foldl_memOk _ (fun _ _ => by simp) _ _

@[simp] theorem State.enterScheduler_memOk (s : State) (q entry : Nat) : (s.enterScheduler q entry).mem.ok = s.mem.ok :=
  (foldl_memOk _ (fun _ _ => by simp) _ _).trans (s.enterQuay_memOk q 1 entry)

@[simp] theorem State.setQuay_memOk (s : State) (q : Nat) (b : Boot → Fin 2 → Boot) : (s.setQuay q b).mem.ok = s.mem.ok := by
  unfold State.setQuay; (repeat' split) <;> simp

@[simp] theorem State.bootScheduler_memOk (s : State) (q slot : Nat) (m : List Byte) (h : s.mem.ok) :
    (s.bootScheduler q slot m).mem.ok := by
  simp [State.bootScheduler, h]

@[simp] theorem State.bootQuay_memOk (s : State) (q : Nat) (h : s.mem.ok) : (s.bootQuay q).mem.ok := by
  unfold State.bootQuay
  extract_lets ok s0
  have h0 : s0.mem.ok := (s.extend_memOk 0 _).trans h
  split
  · simp [h0]
  · next slot _ =>
    extract_lets b s1 s2 s3
    have h1 : s1.mem.ok := by
      unfold s1
      split <;> simp [h0]
    refine s3.bootScheduler_memOk q slot b ?_
    refine (State.setQuay_memOk ..).trans ((State.enterQuay_memOk ..).trans ((State.extend_memOk ..).trans ?_))
    exact s1.loadBody_memOk b h1

@[simp] theorem State.powerUp_memOk (s : State) (h : s.mem.ok) : s.powerUp.mem.ok := by
  obtain ⟨hb, _⟩ := (Mem.ok_iff _).1 h
  exact (Mem.ok_iff _).2 ⟨wf_filter _ _ hb, rfl⟩

@[simp] theorem State.quaysUp_memOk (s : State) : s.quaysUp.mem.ok = s.mem.ok := by simp [State.quaysUp]

@[simp] theorem execPowerGood_memOk (s : State) (h : s.mem.ok) : Out.good (execPowerGood s) := by
  grind [execPowerGood, Out.good, State.quaysUp_memOk, State.bootQuay_memOk, State.powerUp_memOk]

@[simp] theorem State.bootAgain_memOk (s : State) (q : Nat) (h : s.mem.ok) : (s.bootAgain q).mem.ok := by simp [State.bootAgain, h]

@[simp] theorem execModuleReset_memOk (s : State) (h : s.mem.ok) : Out.good (execModuleReset s) := by
  obtain ⟨hb, _⟩ := (Mem.ok_iff _).1 h
  exact (Mem.ok_iff _).2 ⟨hb, rfl⟩

@[simp] theorem State.setStat_memOk (s : State) (i : Nat) (v : Bool) : (s.setStat i v).mem.ok = s.mem.ok := rfl
@[simp] theorem State.toState_memOk (s : State) (n : Nat) : (s.toState n).mem.ok = s.mem.ok := by simp [State.toState]

@[simp] theorem execTileDiePass_memOk (die : Nat) (hbm : BitVec 2) (s : State) (h : s.mem.ok) : Out.good (execTileDiePass die hbm s) := by
  unfold execTileDiePass
  (repeat' split) <;> simp [h]

@[simp] theorem execBringupEnd_memOk (s : State) (h : s.mem.ok) : Out.good (execBringupEnd s) := by
  unfold execBringupEnd
  (repeat' split) <;> simp [h]

@[simp] theorem execMonitorTrapHalt_memOk (n : Nat) (s : State) (h : s.mem.ok) : Out.good (execMonitorTrapHalt n s) := by
  unfold execMonitorTrapHalt
  (repeat' split) <;> simp [h]

@[simp] theorem execDieWithdraw_memOk (part : Nat) (s : State) (h : s.mem.ok) : Out.good (execDieWithdraw part s) := by
  unfold execDieWithdraw
  split
  · exact h
  · split
    · split
      · exact h
      · dsimp only
        exact (State.toState_memOk ..).trans (foldl_keeps _ (fun t p ht => t.killPart_memOk p ht) _ _ (by simpa using h))
    · split <;> simp [h]

@[simp] theorem execPluginLoad_memOk (p plg : Nat) (image : List Byte) (s : State) (h : s.mem.ok) :
    Out.good (execPluginLoad p plg image s) := by
  unfold execPluginLoad
  (repeat' split) <;> simp [h]

@[simp] theorem State.clearTable_memOk (s : State) (pa : Nat) (h : s.mem.ok) : (s.clearTable pa).mem.ok := by
  obtain ⟨hb, hc⟩ := (Mem.ok_iff _).1 h
  exact (Mem.ok_iff _).2 ⟨wf_filter _ _ hb, hc⟩

@[simp] theorem State.entryPlace_memOk (s : State) (va : Nat) (l : List Nat) (n : Nat) (ls : List Nat) (h : s.mem.ok) :
    (s.entryPlace va l n ls).all (·.2.2.mem.ok) := by
  induction l generalizing s n ls with
  | nil => exact h
  | cons j js ih =>
    unfold State.entryPlace
    dsimp only
    split
    · rfl
    · split
      · split
        · rfl
        · exact ih _ _ _ h
      · split
        · rfl
        · split
          · rfl
          · exact ih _ _ _ (State.setMem64_memOk _ _ _ (s.clearTable_memOk _ h))

@[simp] theorem State.mapPage_memOk (s : State) (ctx va pa rights : Nat) (free : List Nat) (h : s.mem.ok) :
    (s.mapPage ctx va pa rights free).all (·.2.mem.ok) := by
  grind [State.mapPage, State.entryPlace_memOk, State.dropXlats_memOk, State.setMem64_memOk]

@[simp] theorem State.putSegment_memOk (s : State) (ctx rights n m : Nat) (l : List Byte) (ls l3 : List Nat) (h : s.mem.ok) :
    (s.putSegment ctx rights n m l ls l3).all (·.2.2.mem.ok) := by
  induction n generalizing s m l ls l3 with
  | zero => exact h
  | succ n ih =>
    unfold State.putSegment
    split
    · exact h
    · split
      · rfl
      · next p pages =>
        have hm := s.mapPage_memOk ctx m (65536 * p) rights l3 h
        split <;> rename_i heq
        · rfl
        · rw [heq] at hm
          exact ih _ _ _ _ _ (State.writeMem_memOk _ _ _ (by simpa using hm))

@[simp] theorem State.mapImage_memOk (s : State) (ctx : Nat) (im : Image) (text : List Byte) (h : s.mem.ok) :
    (s.mapImage ctx im text).all (·.mem.ok) := by
  unfold State.mapImage
  have hput : ∀ (k base : Nat) (va : Word) (bs : List Byte) (x : List Nat × List Nat × State), x.2.2.mem.ok →
      (x.2.2.putSegment ctx (Image.rights im k base) (bs.length / 65536 + 1) va.toNat bs x.1 x.2.1).all (·.2.2.mem.ok) :=
    fun k base va bs x hx => x.2.2.putSegment_memOk _ _ _ _ _ _ _ hx
  have hbind : ∀ (o : Option (List Nat × List Nat × State)) (g : List Nat × List Nat × State → Option (List Nat × List Nat × State)),
      o.all (·.2.2.mem.ok) → (∀ x, x.2.2.mem.ok → (g x).all (·.2.2.mem.ok)) → (o.bind g).all (·.2.2.mem.ok) := by
    intro o g ho hg
    cases o with
    | none => rfl
    | some x => exact hg x ho
  dsimp only
  rw [Option.all_map]
  exact hbind _ _ (hput 0 _ _ _ (im.pages, im.tables, s) h) fun x hx => hbind _ _ (hput 1 _ _ _ x hx) fun y hy => hput 2 _ _ _ y hy

@[simp] theorem State.dropIcaches_memOk (s : State) (p : Nat) (h : s.mem.ok) : (s.dropIcaches p).mem.ok := by simp [State.dropIcaches, h]

@[simp] theorem State.subscribeMin_memOk (s : State) (p : Nat × Nat) (n : Nat) : (s.subscribeMin p n).mem.ok = s.mem.ok := by
  induction n generalizing s with
  | zero => rfl
  | succ n ih =>
    unfold State.subscribeMin
    dsimp only
    split
    · exact (ih _).trans (by simp)
    · rfl

@[simp] theorem State.openLanding_memOk (s : State) (g st : Nat) : (s.openLanding g st).mem.ok = s.mem.ok := by simp [State.openLanding]

@[simp] theorem State.makeResident_memOk (s : State) (g : Nat) (x : Graph) : (s.makeResident g x).mem.ok = s.mem.ok :=
  (foldl_memOk _ (fun _ _ => by simp) _ _).trans (foldl_memOk _ (fun _ _ => by simp) _ _)

@[simp] theorem State.refuseLoad_memOk (s : State) (g f : Nat) : (s.refuseLoad g f).mem.ok = s.mem.ok := by simp [State.refuseLoad]

@[simp] theorem execGraphImageLoad_memOk (g f base home : Nat) (im : Image) (s : State) (h : s.mem.ok) :
    Out.good (execGraphImageLoad g f base home im s) := by
  unfold execGraphImageLoad
  dsimp only
  split
  · simp [h]
  · split
    · simp [h]
    · next text _ =>
      have hm := s.mapImage_memOk (s.fnCtx f) im (text.flatMap fun w => leBytes 4 w.toNat) h
      split <;> rename_i heq
      · simp [h]
      · rw [heq] at hm
        have he := State.eachCore_memOk _ (s.fnPart f) (fun s lc => s.writeCellar (span (cellarKey lc base) im.cellar.length) im.cellar)
          hm
          fun t x ht => t.writeCellar_memOk _ _ ht
        simp [he]

@[simp] theorem State.closeLanding_memOk (s : State) (k : Nat × Nat) : (s.closeLanding k).mem.ok = s.mem.ok := by
  simp [State.closeLanding]

@[simp] theorem State.freeSlot_memOk (s : State) (g : Nat) : (s.freeSlot g).mem.ok = s.mem.ok := by simp [State.freeSlot]

@[simp] theorem execGraphUnload_memOk (g : Nat) (s : State) (h : s.mem.ok) : Out.good (execGraphUnload g s) := by
  unfold execGraphUnload
  (repeat' split) <;> simp [h]

@[simp] theorem State.replayHost_memOk (s : State) (p n f v : Nat) (h : s.mem.ok) : (s.replayHost p n f v).mem.ok := by
  simp [State.replayHost, h]

@[simp] theorem State.replayEntry_memOk (s : State) (p n : Nat) (h : s.mem.ok) : (s.replayEntry p n).all (·.mem.ok) := by
  unfold State.replayEntry
  dsimp only
  split
  · exact (State.release_memOk ..).trans (s.applyDeltas_memOk _ _ h)
  · exact (State.release_memOk ..).trans (s.applyDeltas_memOk _ _ h)
  · simp [h]
  · have hv := s.vaSpan_memOk (s.journalInfo p n 40) (s.journalWord p n 0x10).toNat 8 needW (frontHolder (2 ^ 20 + p * 2048 + 1026)) h
    split <;> rename_i heq <;> rw [heq] at hv
    · next l s1 =>
      split
      · have hr := s1.reach_memOk (s.journalInfo p n 40) (2 ^ 20 + p * 2048 + 1026) (l.headD 0) 4
          (signalRemote (bits (s.journalWord p n 0x20) 0 4) (s.journalWord p n 0x18)) hv
        split
        · rfl
        · simpa using hv
      · split
        · rfl
        · simpa using hv
      · split
        · simpa using hv
        · exact State.writeMem_memOk _ _ _ (by simpa using hv)
    · rfl
    · exact h
  · exact h

@[simp] theorem State.replaySend_memOk (s : State) (p n : Nat) (h : s.mem.ok) : (s.replaySend p n).mem.ok := by
  grind [State.replaySend, Eng.good, XlSpan.good, State.vaSpan_memOk, State.reach_memOk]

@[simp] theorem State.setReplay_memOk (s : State) (p : Nat) (r : Option (Nat × Nat)) (c : Option Started) :
    (s.setReplay p r c).mem.ok = s.mem.ok := by
  simp [State.setReplay]

@[simp] theorem State.replayCopy_memOk (s : State) (p n e : Nat) (q : Started) (h : s.mem.ok) : (s.replayCopy p n e q).mem.ok := by
  grind [State.replayCopy, State.setReplay_memOk, State.quayGranule_memOk, State.dropHolder_memOk,
    State.forgetKey_memOk]

@[simp] theorem execReplay_memOk (p : Nat) (s : State) (h : s.mem.ok) : Out.good (execReplay p s) := by
  grind [execReplay, Out.good, State.setReplay_memOk, State.replayCopy_memOk, State.replayEntry_memOk,
    State.replaySend_memOk]

/-! ### Every instruction -/

/-- An instruction whose arm is one of the shared forms unfolds to that form; the others are the lemmas before. -/
@[simp] theorem exec_memOk (i : Instr) (s : State) (h : s.mem.ok) : Out.good (exec i s) := by
  cases i <;>
    simp [exec, execAdd, execSub, execAnd, execOr, execXor, execAndn, execOrn, execXnor, execShl, execShr, execSra, execRol, execRor,
      execLt, execLtu, execEq, execNe, execMin, execMax, execMinu, execMaxu, execAdds, execSubs, execAddus, execSubus, execMul, execMulh,
      execMulhu, execDiv, execDivu, execRem, execRemu, execBpack, execBpack2, execBpack4, execBpack8, execBunpk, execBunpk2, execBunpk4,
      execBunpk8, execClz, execCtz, execPopc, execBrev, execBswap, execSextB, execSextH, execSextW, execZextB, execZextH, execZextW,
      execAddi, execAndi, execOri, execXori, execLti, execLtui, execShli, execShri, execSrai, execLui, execLhi, execLco, execJ, execJal,
      execJalr, execBeq, execBne, execBlt, execBge, execBltu, execBgeu, execFadd, execFsub, execFmul, execFdiv, execFsqrt, execFma,
      execFmin, execFmax, execFeq, execFlt, execFle, execFclass, execFtoi, execFtoiu, execItof, execIutof, execFcvt, execLdB, execLdBu,
      execLdH, execLdHu, execLdW, execLdWu, execLdD, execStB, execStH, execStW, execStD, execLcB, execLcBu, execLcH, execLcHu, execLcW,
      execLcWu, execLcD, execScB, execScH, execScW, execScD, execPref, execStnl, execStnh, execScnl, execScnh, execAmoswap, execAmoadd,
      execAmoand, execAmoor, execAmoxor, execAmomin, execAmomax, execAmominu, execAmomaxu, execAmocas, execAmodadd, execAmodfadd,
      execFootprintPinned, execProgressFlushDeadline, execVadd, execVsub, execVmul, execVmadd, execVmin, execVmax, execVadds, execVsubs,
      execVaddus, execVsubus, execVminu, execVmaxu, execVand, execVor, execVxor, execVshl, execVshr, execVsra, execVdiv, execVabs,
      execVsqrt, execVrcp, execVrsqrt, execVexp2, execVlog2, execVtanh, execVceq, execVcne, execVclt, execVcle, execVcltu, execVcleu,
      execVld, execVlds, execVldx, execVst, execVsts, execVstx, execVlc, execVlcs, execVlcx, execVsc, execVscs, execVscx, execVmv,
      execVsel, execVperm, execVslide, execVcmpr, execVexpd, execVext, execVins, execVzero, execVbcs, execVredsum, execVredmin,
      execVredmax, execVcvt, execVbsc, execVbsa, execVtag, execTadv, execTadvi, execTcmp, execStrmIn, execStrmOut, execGath, execScat,
      execFerryRouteReturn, execAtticPortRetrain, execDebugPortUnlock, execTileWake, execDroopThrottleEnd, execL2pWrite, execOpreq,
      execOpreqAuto, execTrap, execBrk, execOpreqWrite, execSeedWrite, execFpstatAccess, execJournalGapEntry, execVcpVreset,
      execVcpResume, execVcpEnable, execVcpDisable, execAdmitCall, execPmap, execLweight, execNopPacket, execCopyPacket, execWaitPacket,
      execWaitEvaluate, execWaitPoll, execBar2Read, execBarerrRead, execBar2Write, execBar4Write, execNotify, execRegisterWrite,
      execQuayBringupTimeout, execMeasExtend, h]

/-! ### Turns and inputs -/

@[simp] theorem State.clockCore_memOk (s : State) (lc : Nat) : (s.clockCore lc).mem.ok = s.mem.ok := by
  unfold State.clockCore
  dsimp only
  (repeat' split) <;> simp

@[simp] theorem State.clockFe_memOk (s : State) (n : Nat) : (s.clockFe n).mem.ok = s.mem.ok := by simp [State.clockFe]

@[simp] theorem State.fillIcache_memOk (s : State) (k : Nat) (w : BitVec 32) : (s.fillIcache k w).mem.ok = s.mem.ok := by
  simp [State.fillIcache]

@[simp] theorem State.fetchMem_memOk (s : State) (pa : Nat) (va : Word) (h : s.mem.ok) : (s.fetchMem pa va).good := by
  grind [State.fetchMem, Acc.good, Fetch.good, State.ask_memOk]

@[simp] theorem State.fetchWord_memOk (s : State) (lc pa : Nat) (va : Word) (h : s.mem.ok) : (s.fetchWord lc pa va).good := by
  grind [State.fetchWord, Fetch.good, State.countSram_memOk, State.fetchMem_memOk, State.fillIcache_memOk]

@[simp] theorem State.fetchCore_memOk (s : State) (lc : Nat) (f : Frame) (h : s.mem.ok) : (s.fetchCore lc f).good := by
  grind [State.fetchCore, Fetch.good, Xl.good, State.xlate_memOk, State.fetchMem_memOk, State.fetchWord_memOk, State.openWindow_memOk]

@[simp] theorem State.fetchFe_memOk (s : State) (n : Nat) (h : s.mem.ok) : (s.fetchFe n).good := by
  unfold State.fetchFe
  dsimp only
  (repeat' split) <;> simp [h]

@[simp] theorem State.runWord_memOk (s : State) (w : Nat) (h : s.mem.ok) : Out.good (s.runWord w) := by
  unfold State.runWord
  (repeat' split) <;> simp [h]

@[simp] theorem State.runFrame_memOk (s : State) (lc : Nat) (f : Frame) (h : s.mem.ok) : Out.good (s.runFrame lc f) := by
  grind [State.runFrame, Fetch.good, Out.good, State.takeTrap_memOk, State.fetchCore_memOk, State.runWord_memOk, exec_memOk]

@[simp] theorem State.turnCore_memOk (s : State) (lc : Nat) (h : s.mem.ok) : Out.good (s.turnCore lc) := by
  unfold State.turnCore
  dsimp only
  (repeat' split) <;> simp [h]

@[simp] theorem State.turnFe_memOk (s : State) (n : Nat) (h : s.mem.ok) : Out.good (s.turnFe n) := by
  grind [State.turnFe, Fetch.good, Out.good, State.clockFe_memOk, State.fetchFe_memOk, State.runWord_memOk, State.feTrap_memOk]

@[simp] theorem State.strike_memOk (s : State) (x : ErrSite) : (s.strike x).mem.ok = s.mem.ok := by
  unfold State.strike
  dsimp only
  (repeat' split) <;> simp

@[simp] theorem State.corrects_memOk (s : State) (x : CorrSite) : (s.corrects x).mem.ok = s.mem.ok := by
  unfold State.corrects
  (repeat' split) <;> simp

@[simp] theorem State.ferryDeliver_memOk (s : State) (dev vc : Nat) (h : s.mem.ok) : (s.ferryDeliver dev vc).mem.ok := by
  grind [State.ferryDeliver, State.takeRx_memOk, State.send_memOk, State.contribute_memOk,
    State.rootMessage_memOk]

@[simp] theorem State.takeInput_memOk (s : State) (x : Input) (h : s.mem.ok) : Out.good (s.takeInput x) := by
  unfold State.takeInput
  split
  case h_1 i =>
    split
    · exact h
    · exact exec_memOk i s h
  case h_18 pa d =>
    split
    · obtain ⟨hb, hc⟩ := (Mem.ok_iff _).1 h
      exact (Mem.ok_iff _).2 ⟨wf_putBytes _ _ _ hb, hc⟩
    · exact h
  all_goals simp [h]

/-! ### One step -/

@[simp] theorem step_memOk (s : State) (h : s.mem.ok) : Out.good (step s) := by
  unfold step
  (repeat' split) <;> simp [h]

/-- Settles O60: every operation that a step is made of writes memory byte by byte, drops bytes or leaves it. -/
theorem stepKeepsMemory : Obligations.StepKeepsMemory := by
  intro s t h hs
  have hg := step_memOk s h
  rw [hs] at hg
  exact hg

end Sys2Proof.Machine
end
